-- ==== Sys2Proof/Word.lean ====
section
/-!
DEFINITION. The word types of the device and their plainest arithmetic (spec/00 R6, spec/10 R198).
-/
namespace Sys2Proof

/-- A 64-bit scalar, predicate or address. -/
abbrev Word := BitVec 64
/-- One byte. -/
abbrev Byte := BitVec 8
/-- A 32-bit instruction word. -/
abbrev IWord := BitVec 32
/-- A scalar, vector or low predicate name in a 6-bit field (R208). -/
abbrev Reg := BitVec 6
/-- A predicate name in a 7-bit field (R223). -/
abbrev PReg := BitVec 7

/-- A sparse table by number, in rising key order. -/
abbrev Tab (α : Type) := List (Nat × α)

/-- The tick that never comes (R15). -/
def never : Nat := 0xFFFFFFFFFFFFFFFF

/-- ⌈a ÷ b⌉. -/
def ceilDiv (a b : Nat) : Nat := (a + b - 1) / b

end Sys2Proof
end

