-- ==== Sys2Proof/Syntax.lean ====
section
/-!
DEFINITION. The instructions of the Goreno G7-512: one constructor for each row of the opcode table, the encoded ones
with their operand fields (spec/10 to spec/15), the table's events with the numbers that say what they happen to.
-/
set_option linter.unusedVariables false
namespace Sys2Proof

/-- Scope codes (Table 8.4). -/
inductive Scope | core | gallery | die | domain | system
deriving DecidableEq, Repr, Inhabited

/-- The windows SPCAST converts into (R241). -/
inductive Window | global | priv | spad | gallery | sync
deriving DecidableEq, Repr, Inhabited

/-- Branch conditions (R225). -/
inductive Cond | z | nz | lt | ge | le | gt
deriving DecidableEq, Repr, Inhabited

/-- The integer types, codes 0x0 to 0x7 (Table 7.1). -/
inductive IntTy | i8 | i16 | i32 | i64 | n8 | n16 | n32 | n64
deriving DecidableEq, Repr, Inhabited

/-- The types an atomic accepts (R230). -/
inductive AmoTy | i32 | i64 | n32 | n64
deriving DecidableEq, Repr, Inhabited

/-- The tiers RENT names (R224). -/
inductive Tier | t1 | t2 | t3 | t4
deriving DecidableEq, Repr, Inhabited

/-- System state by name (Table 12.8). -/
inductive SysName
  | tick | lc | ec | rb | stage | aflags | wid0 | wid1 | wid2 | wid3 | wid4 | wid5 | lcore | useMask | capMask
  | early | rentAllow | rentOwner | epc | cause | tval | tinfo | tvec
deriving DecidableEq, Repr, Inhabited

/-- The form-B majors that have a long twin (R229). -/
inductive TwinOp
  | addi | andi | ori | xori | slli | srli | srai | slti | sltiu | bfx | bfxs | bfi
  | ldN32 | ldI32 | ldN64 | ldN16 | ldI16 | ldN8 | ldI8 | stN8 | stN16 | stN32 | stN64 | pref | ldg | stg
  | br | j | jl | loopr | trap | mvs | msv | defer
deriving DecidableEq, Repr, Inhabited

/-- The four engine queues, by engine code (R205). -/
inductive EngQ | mq | vq | lq | sq
deriving DecidableEq, Repr, Inhabited

/-- The fields of form V (Table 10.5). -/
structure VForm where
  c : Reg
  b : Reg
  a : Reg
  d : Reg
  qsel : BitVec 2
  ty : BitVec 6
  rnd : BitVec 2
  mode : BitVec 2
  pneg : BitVec 1
  pred : PReg
deriving DecidableEq, Repr, Inhabited

/-- Words 0 to 2 of an engine command (Table 10.8). -/
structure Timing where
  stampReg : Reg
  tmode : BitVec 2
  popLeft : BitVec 1
  popRight : BitVec 1
  pushLeft : BitVec 1
  pushRight : BitVec 1
  lo : BitVec 32
  hi : BitVec 32
deriving DecidableEq, Repr, Inhabited

/-- MLOADW words 3 and 4 (Table 15.3). -/
structure LoadWF where
  ty : BitVec 6
  bank : BitVec 5
  none : BitVec 1
  slot : BitVec 5
  expert : BitVec 16
deriving DecidableEq, Repr, Inhabited

/-- MMUL and MGRAD words 3 and 4 (Table 15.4). -/
structure MulF where
  ty : BitVec 6
  route : BitVec 2
  acc : BitVec 1
  skip : BitVec 1
  wrap : BitVec 1
  dst : BitVec 3
  tag : BitVec 2
  slot : BitVec 5
  rows : Reg
  dy : BitVec 4
  xsValid : BitVec 1
  xs : BitVec 4
  bank : BitVec 5
  mpred : PReg
deriving DecidableEq, Repr, Inhabited

/-- MGDRAIN word 3 (R320). -/
structure DrainF where
  ty : BitVec 6
  acc : BitVec 1
  keep : BitVec 1
  dst : BitVec 3
  bank : BitVec 5
deriving DecidableEq, Repr, Inhabited

/-- MRES word 3 (R321). -/
structure ResF where
  ty : BitVec 6
  rnd : BitVec 2
  split : BitVec 4
  src : BitVec 3
  kind : BitVec 1
  num : BitVec 4
  rows : Reg
deriving DecidableEq, Repr, Inhabited

/-- LNEST words 3 to 5 (Table 14.7). -/
structure NestF where
  mode : BitVec 2
  rnd : BitVec 2
  ty : BitVec 6
  major : BitVec 6
  func : BitVec 6
  sc : BitVec 4
  sb : BitVec 4
  sa : BitVec 4
  sd : BitVec 4
  nest : BitVec 19
deriving DecidableEq, Repr, Inhabited

/-- SORTC words 3 to 5 (Table 14.8). -/
structure SortF where
  fromTag : BitVec 1
  offsEn : BitVec 1
  offs : BitVec 4
  cnt : BitVec 4
  perm : BitVec 4
  idSrc : BitVec 4
  rows : Reg
  nexp : BitVec 13
  idBase : BitVec 16
deriving DecidableEq, Repr, Inhabited

/-- XLD and XST words 3 and 4 (Table 15.7). -/
structure XferF where
  kind : BitVec 3
  num : Reg
  off : BitVec 10
  stream : BitVec 4
  tag : BitVec 16
  wreg : Reg
  pace : BitVec 8
deriving DecidableEq, Repr, Inhabited

/-- CPY, CPYC and CKPT words 3 and 4 (R330). -/
structure CopyF where
  pace : BitVec 8
  wreg : Reg
  len : Reg
  src : Reg
  dst : Reg
  tag : BitVec 16
  rsrc : BitVec 1
  rdst : BitVec 1
  node : BitVec 12
deriving DecidableEq, Repr, Inhabited

/-- XSEND and XRECV words 3 and 4 (R338). -/
structure ExchF where
  addr : Reg
  len : Reg
  wreg : Reg
  core : BitVec 3
  ch : BitVec 4
  tag : BitVec 16
deriving DecidableEq, Repr, Inhabited

/-- DISPATCH words 3 and 4 (R340). -/
structure DispF where
  c : Reg
  d : Reg
  nexp : BitVec 13
  base : BitVec 16
deriving DecidableEq, Repr, Inhabited

/-- One instruction or event of the opcode table. -/
inductive Instr where
  | add (d a b : Reg)
  | sub (d a b : Reg)
  | and (d a b : Reg)
  | or (d a b : Reg)
  | xor (d a b : Reg)
  | andn (d a b : Reg)
  | sll (d a b : Reg)
  | srl (d a b : Reg)
  | sra (d a b : Reg)
  | rol (d a b : Reg)
  | ror (d a b : Reg)
  | slt (d a b : Reg)
  | sltu (d a b : Reg)
  | seq (d a b : Reg)
  | min (d a b : Reg)
  | max (d a b : Reg)
  | minu (d a b : Reg)
  | maxu (d a b : Reg)
  | clz (d a : Reg)
  | ctz (d a : Reg)
  | popc (d a : Reg)
  | mul (d a b : Reg)
  | mulh (d a b : Reg)
  | mulhu (d a b : Reg)
  | div (d a b : Reg)
  | divu (d a b : Reg)
  | rem (d a b : Reg)
  | remu (d a b : Reg)
  | fshl (d a b c : Reg)
  | fshr (d a b c : Reg)
  | lea (d a b : Reg) (n : BitVec 2)
  | sptest (d a : Reg)
  | spcast (t : Window) (d a p : Reg)
  | waitt (a : Reg)
  | gsync (d : Reg)
  | jr (d a : Reg)
  | rgopenContain (a : Reg)
  | rgopenIdem (a : Reg)
  | rgopenBoth (a : Reg)
  | land (sc : Scope)
  | swait (sc : Scope) (p d a : Reg)
  | waitb (sc : Scope) (p d a : Reg)
  | arrive (sc : Scope) (a : Reg)
  | arrdrop (sc : Scope) (a : Reg)
  | binit (sc : Scope) (a b : Reg)
  | bdecl (a b : Reg)
  | bacqFill (a : Reg)
  | bacqDrain (a : Reg)
  | brel (a : Reg)
  | bstat (d a : Reg)
  | rent (st : Bool) (t : Tier) (d a b : Reg)
  | renew (st : Bool) (d a b : Reg)
  | prepay (st : Bool) (d a b : Reg)
  | sublet (st : Bool) (d a b : Reg)
  | unsublet (st : Bool) (d a : Reg)
  | release (st : Bool) (d a : Reg)
  | rquery (st : Bool) (d a : Reg)
  | viewset (n : BitVec 4) (a : Reg)
  | gset (n : BitVec 4) (a : Reg)
  | addi (d a : Reg) (imm : BitVec 12)
  | andi (d a : Reg) (imm : BitVec 12)
  | ori (d a : Reg) (imm : BitVec 12)
  | xori (d a : Reg) (imm : BitVec 12)
  | slli (d a : Reg) (imm : BitVec 6)
  | srli (d a : Reg) (imm : BitVec 6)
  | srai (d a : Reg) (imm : BitVec 6)
  | slti (d a : Reg) (imm : BitVec 12)
  | sltiu (d a : Reg) (imm : BitVec 12)
  | bfx (d a : Reg) (pos len1 : BitVec 6)
  | bfxs (d a : Reg) (pos len1 : BitVec 6)
  | bfi (d a : Reg) (pos len1 : BitVec 6)
  | ldN32 (d a : Reg) (imm : BitVec 12)
  | ldI32 (d a : Reg) (imm : BitVec 12)
  | ldN64 (d a : Reg) (imm : BitVec 12)
  | ldN16 (d a : Reg) (imm : BitVec 12)
  | ldI16 (d a : Reg) (imm : BitVec 12)
  | ldN8 (d a : Reg) (imm : BitVec 12)
  | ldI8 (d a : Reg) (imm : BitVec 12)
  | stN8 (d a : Reg) (imm : BitVec 12)
  | stN16 (d a : Reg) (imm : BitVec 12)
  | stN32 (d a : Reg) (imm : BitVec 12)
  | stN64 (d a : Reg) (imm : BitVec 12)
  | pref (a : Reg) (imm : BitVec 12)
  | ldg (d : Reg) (g : BitVec 4) (i : BitVec 11)
  | stg (d : Reg) (g : BitVec 4) (i : BitVec 11)
  | br (k : Cond) (a : Reg) (off : BitVec 12)
  | j (off : BitVec 12)
  | jl (off : BitVec 12)
  | loopr (off : BitVec 12)
  | trap (n : BitVec 11)
  | mvs (d : Reg) (n : SysName)
  | msv (n : SysName) (a : Reg)
  | defer (n : BitVec 9)
  | nop (bits : BitVec 24)
  | longTwin (op : TwinOp) (d a : Reg) (imm : BitVec 32)
  | lda (t : IntTy) (sc : Scope) (d a : Reg) (imm : BitVec 32)
  | strel (t : IntTy) (sc : Scope) (d a : Reg) (imm : BitVec 32)
  | amoAdd (t : AmoTy) (sc : Scope) (d a b : Reg)
  | amoAnd (t : AmoTy) (sc : Scope) (d a b : Reg)
  | amoOr (t : AmoTy) (sc : Scope) (d a b : Reg)
  | amoXor (t : AmoTy) (sc : Scope) (d a b : Reg)
  | amoMin (t : AmoTy) (sc : Scope) (d a b : Reg)
  | amoMax (t : AmoTy) (sc : Scope) (d a b : Reg)
  | amoSwap (t : AmoTy) (sc : Scope) (d a b : Reg)
  | amoCas (t : AmoTy) (sc : Scope) (d a b c : Reg)
  | vadd (v : VForm)
  | vsub (v : VForm)
  | vmul (v : VForm)
  | vfma (v : VForm)
  | vmin (v : VForm)
  | vmax (v : VForm)
  | vabs (v : VForm)
  | vneg (v : VForm)
  | vand (v : VForm)
  | vor (v : VForm)
  | vxor (v : VForm)
  | vnot (v : VForm)
  | vshl (v : VForm)
  | vshr (v : VForm)
  | vsra (v : VForm)
  | vceq (v : VForm)
  | vcne (v : VForm)
  | vclt (v : VForm)
  | vcle (v : VForm)
  | vcvt (v : VForm)
  | vqrd (v : VForm)
  | vexp2 (v : VForm)
  | vrcp (v : VForm)
  | vbfx (v : VForm)
  | vfsh (v : VForm)
  | vred (v : VForm)
  | vscan (v : VForm)
  | vld (v : VForm)
  | vst (v : VForm)
  | vgath (v : VForm)
  | vscat (v : VForm)
  | vlut (v : VForm)
  | vthr (v : VForm)
  | vtagTags (v : VForm)
  | vtagMask (v : VForm)
  | vcomb (v : VForm)
  | vmov (v : VForm)
  | vbcst (v : VForm)
  | vsel (v : VForm)
  | vgetl (v : VForm)
  | pand (pd pa pb : PReg)
  | por (pd pa pb : PReg)
  | pxor (pd pa pb : PReg)
  | pandn (pd pa pb : PReg)
  | pnot (pd pa : PReg)
  | psetl (pd : PReg) (imm : BitVec 32)
  | pseth (pd : PReg) (imm : BitVec 32)
  | pget (d : Reg) (pa : PReg)
  | pput (pd : PReg) (a : Reg)
  | mloadw (t : Timing) (f : LoadWF)
  | mmul (t : Timing) (f : MulF)
  | mgrad (t : Timing) (f : MulF)
  | mgdrain (t : Timing) (f : DrainF)
  | mres (t : Timing) (f : ResF)
  | slclaim (t : Timing) (d n : Reg)
  | slrel (t : Timing) (n : BitVec 5)
  | lnest (t : Timing) (f : NestF)
  | sortc (t : Timing) (f : SortF)
  | xld (t : Timing) (f : XferF)
  | xst (t : Timing) (f : XferF)
  | resume (t : Timing) (q : EngQ)
  | esave (t : Timing) (q : EngQ) (img : BitVec 19)
  | eload (t : Timing) (q : EngQ) (img : BitVec 19)
  | cpy (t : Timing) (f : CopyF)
  | cpyc (t : Timing) (f : CopyF)
  | ckpt (t : Timing) (f : CopyF)
  | lrflush (t : Timing) (r : Reg)
  | xsend (t : Timing) (f : ExchF)
  | xrecv (t : Timing) (f : ExchF)
  | dispatch (t : Timing) (f : DispF)
  | wlnext (t : Timing) (d : Reg) (q : PReg)
  | wid (t : Timing) (d : Reg)
  | queueEntryStart (core q : Nat)
  | queueEntryComplete (core q id : Nat)
  | residencyLoadBegin (core ld : Nat)
  | residencyLoadEnd (core ld : Nat)
  | banisterCompare (core id : Nat)
  | patrolScrub (group : Nat)
  | waitRelease (uid status : Nat)
  | waittExpire (uid : Nat)
  | landComplete (uid : Nat)
  | contextExit (uid : Nat)
  | gsyncRelease (team : Nat)
  | dispatchRelease (team : Nat)
  | dispatchClaimRetry (team : Nat)
  | deferWindowEnd (uid : Nat)
  | budgetExpire (uid : Nat)
  | copyStart (eng id : Nat)
  | copyWordLand (eng id j : Nat)
  | autoExtend (ref : Nat)
  | lapse (ref : Nat)
  | graceEnd (ref : Nat)
  | subletEnd (ref : Nat)
  | scrubComplete (ref : Nat)
  | pageRetire (vd page : Nat)
  | sqTailWrite (vd q val : Nat)
  | kick (vd q : Nat)
  | kickScan (vd q : Nat)
  | cqHeadWrite (vd q val : Nat)
  | completionWrite (vd : Nat)
  | coalesceTimeout (vd q : Nat)
  | queueEnable (vd q val : Nat)
  | queueDrain (vd q : Nat)
  | queueDrainDone (vd q : Nat)
  | prHeadWrite (vd val : Nat)
  | pageRelease (vd page : Nat)
  | pageClaim (vd page : Nat)
  | pageClaimGrant (vd : Nat)
  | hostCxlMemAccess (vd addr write val : Nat)
  | freezeComplete (vd : Nat)
  | finalTransferReceive (vd : Nat)
  | loadComplete (vd : Nat)
  | cxlPoisonReturn (id j : Nat)
  | cxlCompletionTimeout (id j : Nat)
  | cxlLinkDown (link : Nat)
  | nodePacketReceive (vd addr seq val : Nat)
  | packetAckTimeout (pkt : Nat)
  | packetRefusedResend (pkt : Nat)
  | poolExtentAdd (die base pages : Nat)
  | poolExtentRelease (die base pages : Nat)
  | teamIssue (team : Nat)
  | stageStart (launch : Nat)
  | stageComplete (launch : Nat)
  | sliceEnd (vd : Nat)
  | regionBoundaryTimeout (uid : Nat)
  | contextSaveDone (uid : Nat)
  | teamResume (team : Nat)
  | teamAged (team : Nat)
  | launchEnd (launch : Nat)
  | knownAnswerTest (core cls : Nat)
  | breakpointMatch (core : Nat)
  | countedLoadReturn (uid ld : Nat)
  | codesyncComplete (uid : Nat)
  | storeBecomesVisible (landing uid : Nat)
  | storageError (word pattern : Nat)
  | transferCountedComplete (vd : Nat)
  | scaleOutPortDown (port : Nat)
  | halt
  | segFree
  | segTimed
  | tret
  | ifence
  | codesync
  | bkpt
  | rgclose
  | rgabort
  | createVd
  | destroyVd
  | exportVd
  | roundVd
  | freeze
  | finalVd
  | importVd
  | activate
  | thaw
  | grent
  | loadVd
  | codereg
  | codefree
  | grelease
  | grenew
  | allowAdd
  | vdParamWrite
  | registerWrite
  | domainApply
  | powerLimitWrite
  | powerSample
  | supplyCut
  | moduleReset
  | getVersion
  | getCapabilities
  | negotiateAlgorithms
  | getDigests
  | getCertificate
  | challenge
  | getMeasurements
  | scoreboardReevaluate
  | newelTakeover
  | illegalEncoding
  | standbyNewelFailure
deriving DecidableEq, Repr, Inhabited

end Sys2Proof
end

