-- ==== Sys2Proof/WellFormed.lean ====
section
/-!
DEFINITION. Which instructions an encoding stands for: the operand limits that the opcode map and the instruction
chapters check at decode or, for an engine command, from its words alone at delivery (R200, R222 checks 2 to 5).
An event of the table has no encoding and is no well-formed instruction word.
-/
set_option linter.unusedVariables false
namespace Sys2Proof

/-- Bits of one element of a type code (Table 7.1); 0 for the block types and reserved codes. -/
def tyBits (t : Nat) : Nat :=
  match t with
  | 0 => 8 | 1 => 16 | 2 => 32 | 3 => 64 | 4 => 8 | 5 => 16 | 6 => 32 | 7 => 64
  | 8 => 64 | 9 => 32 | 10 => 16 | 11 => 16 | 12 => 8 | 13 => 8 | 14 => 4 | _ => 0

/-- Integer type codes (Table 7.1). -/
def tyInt (t : Nat) : Bool := t < 8
/-- Signed integer type codes. -/
def tySigned (t : Nat) : Bool := t < 4

/-- The timing words of a command (Table 10.8): the fields its tmode does not use are zero. -/
def Timing.wf (t : Timing) : Bool :=
  match t.tmode.toNat with
  | 0 => t.lo == 0 && t.hi == 0 && t.stampReg == 0
  | 1 => t.hi == 0 && t.stampReg == 0
  | 2 => t.stampReg == 0
  | _ => t.lo == 0 && t.hi == 0

/-- Token bits of a command with a left neighbour (l) and a right one (r) (R104). -/
def Timing.tokens (t : Timing) (l r : Bool) : Bool :=
  (l || (t.popLeft == 0 && t.pushLeft == 0)) && (r || (t.popRight == 0 && t.pushRight == 0))

/-- Timing of an engine queue command (R104). -/
def Timing.wfQ (t : Timing) : EngQ → Bool
  | .lq => t.wf && t.tokens false true
  | .mq | .vq => t.wf
  | .sq => t.wf && t.tokens true false

/-- Timing of a copy, exchange or synchronisation-engine command: no tokens (R104). -/
def Timing.wfX (t : Timing) : Bool := t.wf && t.tokens false false

/-- A field that names an operand queue holds 0 to 3 (R203). -/
def VForm.queues (v : VForm) (qa qb : Bool) : Bool :=
  match v.qsel.toNat with
  | 0 => true
  | 1 => qa && v.a.toNat < 4
  | 2 => qb && v.b.toNat < 4
  | _ => qa && qb && v.a.toNat < 4 && v.b.toNat < 4

/-- The rounding field: zero on an integer type (R227). -/
def VForm.rndOk (v : VForm) : Bool := !(tyInt v.ty.toNat) || v.rnd == 0

/-- Unguarded: p0, not negated (R286). -/
def VForm.plain (v : VForm) : Bool := v.pneg == 0 && v.pred == 0

/-- Majors 0x01 (R287): sat says whether the function has the saturating mode, ub and uc whether it uses b and c. -/
def VForm.arith (v : VForm) (sat ub uc : Bool) : Bool :=
  v.ty.toNat < 12 && v.rndOk && (v.mode == 0 || (sat && v.mode == 1 && tyInt v.ty.toNat)) && v.queues true ub
    && (ub || v.b == 0) && (uc || v.c == 0)

/-- Major 0x02 (R287). -/
def VForm.logic (v : VForm) (ub : Bool) : Bool :=
  v.ty.toNat < 8 && v.rnd == 0 && v.mode == 0 && v.queues true ub && (ub || v.b == 0) && v.c == 0

/-- Major 0x03 (R289): mode below the elements of a lane. -/
def VForm.cmp (v : VForm) : Bool :=
  v.ty.toNat < 12 && v.rnd == 0 && v.queues true true && v.c == 0
    && (match tyBits v.ty.toNat with | 8 => true | 16 => v.mode.toNat < 2 | _ => v.mode == 0)

/-- max(wd, ws) ÷ min(wd, ws) (R290). -/
def cvtRatio (td ts : Nat) : Nat := max (tyBits td) (tyBits ts) / min (tyBits td) (tyBits ts)

/-- Major 0x04 (R290, R227). -/
def VForm.cvt (v : VForm) (qrd : Bool) : Bool :=
  v.ty.toNat < 15 && v.c.toNat < 15 && (!qrd || (8 ≤ v.c.toNat && v.c.toNat < 12))
    && cvtRatio v.ty.toNat v.c.toNat ≤ 4 && v.mode.toNat < cvtRatio v.ty.toNat v.c.toNat
    && (!(tyInt v.ty.toNat && tyInt v.c.toNat) || v.rnd == 0) && v.queues true qrd && (qrd || v.b == 0)

/-- Major 0x08 (Table 11.4, R286, R294 to R297): ub: b is a vector; uc: c names a predicate; st: a store. -/
def VForm.memOk (v : VForm) (ub uc st : Bool) : Bool :=
  v.ty.toNat < 14 && v.rnd == 0 && v.mode == 0 && v.queues false ub && (ub || v.b == 0) && (uc || v.c == 0)
    && (!st || v.plain)

/-- Major 0x09 (R299): bf16 or f32, mode m. -/
def VForm.gate (v : VForm) (m : Nat) (rnd : Bool) : Bool :=
  (v.ty.toNat == 9 || v.ty.toNat == 11) && (rnd || v.rnd == 0) && v.mode.toNat == m && v.queues true true

/-- Major 0x0A (R298): qa, qb: a, b are vectors; ub, uc: b, c are used. -/
def VForm.move (v : VForm) (qa qb ub uc : Bool) : Bool :=
  v.ty.toNat < 15 && v.rnd == 0 && v.mode == 0 && v.queues qa qb && (ub || v.b == 0) && (uc || v.c == 0)

/-- Bank count of a weight type (R316): 0 for a type MLOADW does not accept. -/
def bankCount (t : Nat) : Nat :=
  match t with
  | 0x0B | 0x0A | 0x11 | 0x09 | 0x08 => 8
  | 0x0C | 0x0D | 0x0F | 0x00 | 0x04 => 16
  | 0x0E | 0x10 => 32
  | _ => 0

/-- MLOADW (R316). -/
def LoadWF.wf (f : LoadWF) : Bool :=
  f.bank.toNat < bankCount f.ty.toNat && f.expert != 0xFFFF && (f.none == 0 || f.slot == 0)

/-- What MMUL and MGRAD share (R317). -/
def MulF.wfBoth (f : MulF) : Bool :=
  f.ty != 0x11 && 0 < bankCount f.ty.toNat && f.route.toNat < 2
    && (if f.route == 0 then f.tag == 0 && f.bank.toNat < bankCount f.ty.toNat else f.bank == 0)
    && (if f.skip == 1 then f.mpred.toNat % 2 == 0 && 2 ≤ f.mpred.toNat && f.mpred.toNat ≤ 126 else f.mpred == 0)
    && (if f.xsValid == 1 then f.ty == 0x0E else f.xs == 0)

/-- MMUL (R317). -/
def MulF.wfMul (f : MulF) : Bool :=
  f.wfBoth && (f.wrap == 0 || f.ty == 0x00 || f.ty == 0x04) && f.dy == 0

/-- MGRAD (R137, R319). -/
def MulF.wfGrad (f : MulF) : Bool :=
  f.wfBoth && (f.ty == 0x0B || f.ty == 0x0A || f.ty == 0x0C || f.ty == 0x0D || f.ty == 0x0F)
    && f.acc == 0 && f.wrap == 0 && f.dst == 0

/-- MGDRAIN (R138, R320). -/
def DrainF.wf (f : DrainF) : Bool := f.ty == 0x09 && f.bank.toNat < 8

/-- MRES (R321): an output type of its table; an accumulator number below 8. -/
def ResF.wf (f : ResF) : Bool :=
  (f.ty == 0x00 || f.ty == 0x04 || (9 ≤ f.ty.toNat && f.ty.toNat ≤ 0x10)) && (f.kind == 0 || f.num.toNat < 8)

/-- The form V record of an LNEST operation: register fields zero but VCVT's source type (R305). -/
def NestF.vform (f : NestF) (srcTy : Reg) : VForm :=
  { c := srcTy, b := 0, a := 0, d := 0, qsel := 0, ty := f.ty, rnd := f.rnd, mode := f.mode, pneg := 0, pred := 0 }

/-- LNEST's operation, type, mode and rounding (R305); VCVT's source type is that of its stream. -/
def NestF.opOk (f : NestF) : Bool :=
  match f.major.toNat, f.func.toNat with
  | 1, 1 | 1, 2 | 1, 3 => (f.vform 0).arith true true false
  | 1, 4 => (f.vform 0).arith false true true
  | 1, 5 | 1, 6 => (f.vform 0).arith false true false
  | 1, 7 | 1, 8 => (f.vform 0).arith true false false
  | 2, 1 | 2, 2 | 2, 3 | 2, 5 | 2, 6 | 2, 7 => (f.vform 0).logic true
  | 2, 4 => (f.vform 0).logic false
  | 5, 1 | 5, 2 => f.ty == 9 && f.mode == 0
  | 4, 1 => f.ty.toNat < 15
  | 7, 1 => f.ty.toNat < 12 && (f.vform 0).rndOk && f.mode.toNat < 3
  | 0x0A, 1 => f.ty.toNat < 15 && f.rnd == 0 && f.mode == 0
  | _, _ => false

/-- Whether LNEST's operation reads source b, source c. -/
def NestF.usesB (f : NestF) : Bool :=
  (f.major == 1 && f.func.toNat < 7) || (f.major == 2 && f.func != 4)
def NestF.usesC (f : NestF) : Bool := f.major == 1 && f.func == 4

/-- LNEST (R305). -/
def NestF.wf (f : NestF) : Bool :=
  f.opOk && (f.usesB || f.sb == 0) && (f.usesC || f.sc == 0) && f.nest.toNat % 32 == 0

/-- SORTC (R309). -/
def SortF.wf (f : SortF) : Bool :=
  1 ≤ f.nexp.toNat && f.nexp.toNat ≤ 4096 && (f.fromTag == 0 || f.idSrc.toNat < 4) && (f.offsEn == 1 || f.offs == 0)

/-- XLD and XST (Table 15.7). -/
def XferF.wf (f : XferF) (load : Bool) : Bool :=
  (match f.kind.toNat with
    | 0 => true
    | 1 => f.num.toNat < 16
    | 2 => f.num.toNat < 8
    | 3 => load && f.num.toNat < 32
    | 4 => load && f.num.toNat < 4
    | _ => false) && (f.kind == 3 || f.off == 0)

/-- CPY (R330): a node only with a remote endpoint. -/
def CopyF.wf (f : CopyF) : Bool := f.rsrc == 1 || f.rdst == 1 || f.node == 0
/-- CPYC (R334): as CPY, the L field zero. -/
def CopyF.wfC (f : CopyF) : Bool := f.wf && f.len == 0
/-- CKPT (R336): no remote endpoint. -/
def CopyF.wfK (f : CopyF) : Bool := f.rsrc == 0 && f.rdst == 0 && f.node == 0

/-- The number of a system name (Table 12.8). -/
def SysName.code : SysName → Nat
  | .tick => 0x000 | .lc => 0x001 | .ec => 0x002 | .rb => 0x003 | .stage => 0x004 | .aflags => 0x005
  | .wid0 => 0x008 | .wid1 => 0x009 | .wid2 => 0x00A | .wid3 => 0x00B | .wid4 => 0x00C | .wid5 => 0x00D
  | .lcore => 0x00E | .useMask => 0x010 | .capMask => 0x011 | .early => 0x012 | .rentAllow => 0x018
  | .rentOwner => 0x019 | .epc => 0x020 | .cause => 0x021 | .tval => 0x022 | .tinfo => 0x023 | .tvec => 0x024

/-- The system name of a number (Table 12.8). -/
def SysName.ofCode (n : Nat) : Option SysName :=
  match n with
  | 0x000 => some .tick | 0x001 => some .lc | 0x002 => some .ec | 0x003 => some .rb | 0x004 => some .stage
  | 0x005 => some .aflags | 0x008 => some .wid0 | 0x009 => some .wid1 | 0x00A => some .wid2 | 0x00B => some .wid3
  | 0x00C => some .wid4 | 0x00D => some .wid5 | 0x00E => some .lcore | 0x010 => some .useMask
  | 0x011 => some .capMask | 0x012 => some .early | 0x018 => some .rentAllow | 0x019 => some .rentOwner
  | 0x020 => some .epc | 0x021 => some .cause | 0x022 => some .tval | 0x023 => some .tinfo | 0x024 => some .tvec
  | _ => none

/-- Names MSV may write (Table 12.8); the ctx names but tvec only in a handler, which the instruction checks. -/
def SysName.writable : SysName → Bool
  | .lc | .ec | .rb | .stage | .aflags | .epc | .cause | .tval | .tinfo | .tvec => true
  | _ => false

/-- A field of BFX, BFXS or BFI lies inside 64 bits (R238). -/
def bfOk (pos len1 : Nat) : Bool := pos + len1 + 1 ≤ 64

/-- The limits of a long twin's fields (R229). -/
def twinOk (op : TwinOp) (d a : Reg) (imm : BitVec 32) : Bool :=
  match op with
  | .addi | .andi | .ori | .xori | .slti | .sltiu => true
  | .slli | .srli | .srai => imm.toNat < 64
  | .bfx | .bfxs | .bfi => imm.toNat < 4096 && bfOk (imm.toNat % 64) (imm.toNat / 64)
  | .ldN32 | .ldI32 | .ldN64 | .ldN16 | .ldI16 | .ldN8 | .ldI8 | .stN8 | .stN16 | .stN32 | .stN64 => true
  | .pref => d == 0
  | .ldg | .stg => imm.toNat < 2048 && a.toNat < 16
  | .br => d.toNat < 6
  | .j | .jl | .loopr => d == 0 && a == 0
  | .trap => d == 0 && a == 0 && imm.toNat < 2048
  | .mvs => a == 0 && (SysName.ofCode imm.toNat).isSome
  | .msv => d == 0 && ((SysName.ofCode imm.toNat).any SysName.writable)
  | .defer => d == 0 && a == 0 && 1 ≤ imm.toNat && imm.toNat ≤ 256

/-- The instruction is one an encoding of the opcode map stands for. -/
def Instr.wf : Instr → Bool
  | .add _ _ _ | .sub _ _ _ | .and _ _ _ | .or _ _ _ | .xor _ _ _ | .andn _ _ _ | .sll _ _ _ | .srl _ _ _
  | .sra _ _ _ | .rol _ _ _ | .ror _ _ _ | .slt _ _ _ | .sltu _ _ _ | .seq _ _ _ | .min _ _ _ | .max _ _ _
  | .minu _ _ _ | .maxu _ _ _ | .clz _ _ | .ctz _ _ | .popc _ _ | .mul _ _ _ | .mulh _ _ _ | .mulhu _ _ _
  | .div _ _ _ | .divu _ _ _ | .rem _ _ _ | .remu _ _ _ | .fshl _ _ _ _ | .fshr _ _ _ _ | .lea _ _ _ _
  | .sptest _ _ | .spcast _ _ _ _ | .halt | .waitt _ | .segFree | .segTimed | .gsync _ | .jr _ _ | .tret | .ifence
  | .codesync | .bkpt | .rgclose | .rgabort | .rgopenContain _ | .rgopenIdem _ | .rgopenBoth _ | .land _
  | .swait _ _ _ _ | .waitb _ _ _ _ | .arrive _ _ | .arrdrop _ _ | .binit _ _ _ => true
  | .bdecl _ b => b.toNat ≤ 60
  | .bacqFill _ | .bacqDrain _ | .brel _ | .bstat _ _ => true
  | .rent _ _ d _ _ => d.toNat ≤ 62
  | .renew _ _ _ _ | .prepay _ _ _ _ => true
  | .sublet _ d _ b => d.toNat ≤ 62 && b.toNat ≤ 60
  | .unsublet _ _ _ | .release _ _ _ => true
  | .rquery _ d _ => d.toNat ≤ 59
  | .viewset _ _ | .gset _ _ | .addi _ _ _ | .andi _ _ _ | .ori _ _ _ | .xori _ _ _ | .slli _ _ _ | .srli _ _ _
  | .srai _ _ _ | .slti _ _ _ | .sltiu _ _ _ => true
  | .bfx _ _ p l | .bfxs _ _ p l | .bfi _ _ p l => bfOk p.toNat l.toNat
  | .ldN32 _ _ _ | .ldI32 _ _ _ | .ldN64 _ _ _ | .ldN16 _ _ _ | .ldI16 _ _ _ | .ldN8 _ _ _ | .ldI8 _ _ _
  | .stN8 _ _ _ | .stN16 _ _ _ | .stN32 _ _ _ | .stN64 _ _ _ | .pref _ _ | .ldg _ _ _ | .stg _ _ _ | .br _ _ _
  | .j _ | .jl _ | .loopr _ | .trap _ | .mvs _ _ => true
  | .msv n _ => n.writable
  | .defer n => 1 ≤ n.toNat && n.toNat ≤ 256
  | .nop _ => true
  | .longTwin op d a imm => twinOk op d a imm
  | .lda _ _ _ _ _ | .strel _ _ _ _ _ | .amoAdd _ _ _ _ _ | .amoAnd _ _ _ _ _ | .amoOr _ _ _ _ _
  | .amoXor _ _ _ _ _ | .amoMin _ _ _ _ _ | .amoMax _ _ _ _ _ | .amoSwap _ _ _ _ _ | .amoCas _ _ _ _ _ _ => true
  | .vadd v | .vsub v | .vmul v => v.arith true true false
  | .vfma v => v.arith false true true
  | .vmin v | .vmax v => v.arith false true false
  | .vabs v | .vneg v => v.arith true false false
  | .vand v | .vor v | .vxor v | .vshl v | .vshr v | .vsra v => v.logic true
  | .vnot v => v.logic false
  | .vceq v | .vcne v | .vclt v | .vcle v => v.cmp
  | .vcvt v => v.cvt false
  | .vqrd v => v.cvt true
  | .vexp2 v | .vrcp v => v.ty == 9 && v.mode == 0 && v.queues true false && v.b == 0 && v.c == 0
  | .vbfx v => v.ty.toNat < 8 && v.rnd == 0 && v.mode == 0 && v.queues true false && v.c == 0
  | .vfsh v => v.ty.toNat < 8 && v.rnd == 0 && v.mode.toNat < 2 && v.queues true true
  | .vred v | .vscan v => v.ty.toNat < 12 && v.rndOk && v.mode.toNat < 3 && v.queues true false && v.b == 0 && v.c == 0
  | .vld v => v.memOk false false false
  | .vst v => v.memOk false true true
  | .vgath v | .vlut v => v.memOk true false false
  | .vscat v => v.memOk true true true
  | .vthr v => v.gate 0 false
  | .vtagTags v => v.gate 0 false && v.d.toNat < 4 && v.plain
  | .vtagMask v => v.gate 1 false
  | .vcomb v => v.gate 0 true
  | .vmov v => v.move true false false false
  | .vbcst v => v.move false false false false
  | .vsel v => v.move true true true true
  | .vgetl v => v.move true false true false && v.plain
  | .pand _ _ _ | .por _ _ _ | .pxor _ _ _ | .pandn _ _ _ | .pnot _ _ | .psetl _ _ | .pseth _ _ | .pget _ _
  | .pput _ _ => true
  | .mloadw t f => t.wfQ .mq && f.wf
  | .mmul t f => t.wfQ .mq && f.wfMul
  | .mgrad t f => t.wfQ .mq && f.wfGrad
  | .mgdrain t f => t.wfQ .mq && f.wf
  | .mres t f => t.wfQ .mq && f.wf
  | .slclaim t _ n => t.wfQ .mq && 1 ≤ n.toNat && n.toNat ≤ 32
  | .slrel t _ => t.wfQ .mq
  | .lnest t f => t.wfQ .vq && f.wf
  | .sortc t f => t.wfQ .vq && f.wf
  | .xld t f => t.wfQ .lq && f.wf true
  | .xst t f => t.wfQ .sq && f.wf false
  | .resume t q => t.wfQ q
  | .esave t q img | .eload t q img => t.wfQ q && img.toNat % 32 == 0
  | .cpy t f => t.wfX && f.wf
  | .cpyc t f => t.wfX && f.wfC
  | .ckpt t f => t.wfX && f.wfK
  | .lrflush t _ => t.wfX
  | .xsend t f => t.wfX && f.wreg == 0
  | .xrecv t _ => t.wfX
  | .dispatch t f => t.wfX && 1 ≤ f.nexp.toNat && f.nexp.toNat ≤ 4096 && f.d.toNat ≤ 62
  | .wlnext t d _ => t.wfX && d.toNat ≤ 59
  | .wid t d => t.wfX && d.toNat ≤ 60
  | .queueEntryStart _ _ | .queueEntryComplete _ _ _ | .residencyLoadBegin _ _ | .residencyLoadEnd _ _
  | .banisterCompare _ _ | .patrolScrub _ | .waitRelease _ _ | .waittExpire _ | .landComplete _ | .contextExit _
  | .gsyncRelease _ | .dispatchRelease _ | .dispatchClaimRetry _ | .deferWindowEnd _ | .budgetExpire _
  | .copyStart _ _ | .copyWordLand _ _ _ | .autoExtend _ | .lapse _ | .graceEnd _ | .subletEnd _ | .scrubComplete _
  | .pageRetire _ _ | .sqTailWrite _ _ _ | .kick _ _ | .kickScan _ _ | .cqHeadWrite _ _ _ | .completionWrite _
  | .coalesceTimeout _ _ | .queueEnable _ _ _ | .queueDrain _ _ | .queueDrainDone _ _ | .prHeadWrite _ _
  | .pageRelease _ _ | .pageClaim _ _ | .pageClaimGrant _ | .hostCxlMemAccess _ _ _ _ | .createVd | .destroyVd
  | .exportVd | .roundVd | .freeze | .freezeComplete _ | .finalVd | .finalTransferReceive _ | .importVd | .activate
  | .thaw | .grent | .loadVd | .loadComplete _ | .codereg | .codefree | .grelease | .grenew | .allowAdd
  | .vdParamWrite | .registerWrite | .domainApply | .powerLimitWrite | .powerSample | .supplyCut | .moduleReset
  | .getVersion | .getCapabilities | .negotiateAlgorithms | .getDigests | .getCertificate | .challenge
  | .getMeasurements | .cxlPoisonReturn _ _ | .cxlCompletionTimeout _ _ | .cxlLinkDown _
  | .nodePacketReceive _ _ _ _ | .packetAckTimeout _ | .packetRefusedResend _ | .poolExtentAdd _ _ _
  | .poolExtentRelease _ _ _ | .scoreboardReevaluate | .teamIssue _ | .stageStart _ | .stageComplete _ | .sliceEnd _
  | .regionBoundaryTimeout _ | .contextSaveDone _ | .teamResume _ | .teamAged _ | .launchEnd _ | .newelTakeover
  | .knownAnswerTest _ _ | .breakpointMatch _ | .illegalEncoding | .countedLoadReturn _ _ | .codesyncComplete _
  | .storeBecomesVisible _ _ | .storageError _ _ | .standbyNewelFailure | .transferCountedComplete _
  | .scaleOutPortDown _ => false

end Sys2Proof
end

