-- ==== Sys2Proof/Decode.lean ====
section
/-!
DEFINITION. Decoding instruction words (spec/10, spec/11) and, after it, the encoder written from the same encoding
tables. The decoder is total: words that encode nothing are refused by name, and the machine raises ILLEGAL for them.
-/
set_option linter.unusedVariables false
namespace Sys2Proof

/-- Why words are no instruction (R222 checks 2 to 5). -/
inductive DecErr | unlisted | reservedField | operand | short
deriving DecidableEq, Repr, Inhabited

/-- Words of an instruction by bits [1:0] of its first (Table 10.1). -/
def wordsOf (w0 : IWord) : Nat :=
  match (w0.extractLsb' 0 2).toNat with
  | 0 => 1 | 1 => 1 | 2 => 2 | _ => 8

/-- Alignment of word 0 in bytes (Table 10.1). -/
def alignOf (w0 : IWord) : Nat := 4 * wordsOf w0

def Scope.ofCode (n : Nat) : Option Scope :=
  match n with
  | 0 => some .core | 1 => some .gallery | 2 => some .die | 3 => some .domain | 4 => some .system | _ => none
def Scope.code : Scope → Nat
  | .core => 0 | .gallery => 1 | .die => 2 | .domain => 3 | .system => 4

def Window.ofCode (n : Nat) : Option Window :=
  match n with
  | 0 => some .global | 1 => some .priv | 2 => some .spad | 4 => some .gallery | 5 => some .sync | _ => none
def Window.code : Window → Nat
  | .global => 0 | .priv => 1 | .spad => 2 | .gallery => 4 | .sync => 5

def Cond.ofCode (n : Nat) : Option Cond :=
  match n with
  | 0 => some .z | 1 => some .nz | 2 => some .lt | 3 => some .ge | 4 => some .le | 5 => some .gt | _ => none
def Cond.code : Cond → Nat
  | .z => 0 | .nz => 1 | .lt => 2 | .ge => 3 | .le => 4 | .gt => 5

def IntTy.ofCode (n : Nat) : Option IntTy :=
  match n with
  | 0 => some .i8 | 1 => some .i16 | 2 => some .i32 | 3 => some .i64
  | 4 => some .n8 | 5 => some .n16 | 6 => some .n32 | 7 => some .n64 | _ => none
def IntTy.code : IntTy → Nat
  | .i8 => 0 | .i16 => 1 | .i32 => 2 | .i64 => 3 | .n8 => 4 | .n16 => 5 | .n32 => 6 | .n64 => 7

def AmoTy.ofCode (n : Nat) : Option AmoTy :=
  match n with
  | 2 => some .i32 | 3 => some .i64 | 6 => some .n32 | 7 => some .n64 | _ => none
def AmoTy.code : AmoTy → Nat
  | .i32 => 2 | .i64 => 3 | .n32 => 6 | .n64 => 7

def Tier.ofCode (n : Nat) : Option Tier :=
  match n with
  | 1 => some .t1 | 2 => some .t2 | 3 => some .t3 | 4 => some .t4 | _ => none
def Tier.code : Tier → Nat
  | .t1 => 1 | .t2 => 2 | .t3 => 3 | .t4 => 4

def EngQ.ofCode (n : Nat) : Option EngQ :=
  match n with
  | 0 => some .mq | 1 => some .vq | 2 => some .lq | 3 => some .sq | _ => none
def EngQ.code : EngQ → Nat
  | .mq => 0 | .vq => 1 | .lq => 2 | .sq => 3

/-- The form-B major a long twin names (R229). -/
def TwinOp.ofCode (n : Nat) : Option TwinOp :=
  match n with
  | 0x1 => some .addi | 0x2 => some .andi | 0x3 => some .ori | 0x4 => some .xori | 0x5 => some .slli
  | 0x6 => some .srli | 0x7 => some .srai | 0x8 => some .slti | 0x9 => some .sltiu | 0xa => some .bfx
  | 0xb => some .bfxs | 0xc => some .bfi | 0x10 => some .ldN32 | 0x11 => some .ldI32 | 0x12 => some .ldN64
  | 0x13 => some .ldN16 | 0x14 => some .ldI16 | 0x15 => some .ldN8 | 0x16 => some .ldI8 | 0x18 => some .stN8
  | 0x19 => some .stN16 | 0x1a => some .stN32 | 0x1b => some .stN64 | 0x1c => some .pref | 0x1d => some .ldg
  | 0x1e => some .stg | 0x20 => some .br | 0x21 => some .j | 0x22 => some .jl | 0x23 => some .loopr
  | 0x28 => some .trap | 0x29 => some .mvs | 0x2a => some .msv | 0x2b => some .defer | _ => none
def TwinOp.code : TwinOp → Nat
  | .addi => 0x1 | .andi => 0x2 | .ori => 0x3 | .xori => 0x4 | .slli => 0x5 | .srli => 0x6
  | .srai => 0x7 | .slti => 0x8 | .sltiu => 0x9 | .bfx => 0xa | .bfxs => 0xb | .bfi => 0xc
  | .ldN32 => 0x10 | .ldI32 => 0x11 | .ldN64 => 0x12 | .ldN16 => 0x13 | .ldI16 => 0x14 | .ldN8 => 0x15
  | .ldI8 => 0x16 | .stN8 => 0x18 | .stN16 => 0x19 | .stN32 => 0x1a | .stN64 => 0x1b | .pref => 0x1c
  | .ldg => 0x1d | .stg => 0x1e | .br => 0x20 | .j => 0x21 | .jl => 0x22 | .loopr => 0x23
  | .trap => 0x28 | .mvs => 0x29 | .msv => 0x2a | .defer => 0x2b

/-- Field [lo + n - 1 : lo] of a word. -/
def fld (w : IWord) (lo n : Nat) : BitVec n := w.extractLsb' lo n

def fD (w : IWord) : Reg := fld w 8 6
def fA (w : IWord) : Reg := fld w 14 6
def fB (w : IWord) : Reg := fld w 20 6
def fF (w : IWord) : Reg := fld w 26 6
def fImm (w : IWord) : BitVec 12 := fld w 20 12

/-- Form A (Table 11.2). -/
def candA (w : IWord) : Option Instr :=
  let d := fD w; let a := fA w; let b := fB w; let f := fF w
  match (fld w 2 6).toNat with
  | 0x01 => match f.toNat with
    | 0x0 => some (.add d a b)
    | 0x1 => some (.sub d a b)
    | 0x2 => some (.and d a b)
    | 0x3 => some (.or d a b)
    | 0x4 => some (.xor d a b)
    | 0x5 => some (.andn d a b)
    | 0x6 => some (.sll d a b)
    | 0x7 => some (.srl d a b)
    | 0x8 => some (.sra d a b)
    | 0x9 => some (.rol d a b)
    | 0xa => some (.ror d a b)
    | 0xb => some (.slt d a b)
    | 0xc => some (.sltu d a b)
    | 0xd => some (.seq d a b)
    | 0xe => some (.min d a b)
    | 0xf => some (.max d a b)
    | 0x10 => some (.minu d a b)
    | 0x11 => some (.maxu d a b)
    | 0x12 => some (.clz d a)
    | 0x13 => some (.ctz d a)
    | 0x14 => some (.popc d a)
    | _ => none
  | 0x02 => match f.toNat with
    | 0x0 => some (.mul d a b)
    | 0x1 => some (.mulh d a b)
    | 0x2 => some (.mulhu d a b)
    | 0x3 => some (.div d a b)
    | 0x4 => some (.divu d a b)
    | 0x5 => some (.rem d a b)
    | 0x6 => some (.remu d a b)
    | _ => none
  | 0x03 => some (.fshl d a b f)
  | 0x04 => some (.fshr d a b f)
  | 0x05 => some (.lea d a b (fld w 26 2))
  | 0x06 => some (.sptest d a)
  | 0x07 => (Window.ofCode f.toNat).map (fun t => .spcast t d a b)
  | 0x08 => match f.toNat with
    | 0 => some .halt | 1 => some (.waitt a) | 2 => some .segFree | 3 => some .segTimed | 4 => some (.gsync d)
    | 5 => some (.jr d a) | _ => none
  | 0x09 => match f.toNat with
    | 0 => some .tret | 1 => some .ifence | 2 => some .codesync | 3 => some .bkpt | _ => none
  | 0x0A => match f.toNat with
    | 0 => some .rgclose | 1 => some .rgabort | 2 => some (.rgopenContain a) | 3 => some (.rgopenIdem a)
    | 4 => some (.rgopenBoth a) | _ => none
  | 0x0B => (Scope.ofCode f.toNat).map .land
  | 0x0C => match Scope.ofCode (fld w 29 3).toNat with
    | none => none
    | some sc => match (fld w 26 3).toNat with
      | 0 => some (.swait sc b d a) | 1 => some (.waitb sc b d a) | 2 => some (.arrive sc a)
      | 3 => some (.arrdrop sc a) | 4 => some (.binit sc a b) | _ => none
  | 0x0D => match f.toNat with
    | 0 => some (.bdecl a b) | 1 => some (.bacqFill a) | 2 => some (.bacqDrain a) | 3 => some (.brel a)
    | 4 => some (.bstat d a) | _ => none
  | 0x0E =>
    let st := (fld w 31 1) == 1
    match (fld w 26 5).toNat with
    | 1 => some (.rent st .t1 d a b) | 2 => some (.rent st .t2 d a b) | 3 => some (.rent st .t3 d a b)
    | 4 => some (.rent st .t4 d a b) | 5 => some (.renew st d a b) | 6 => some (.prepay st d a b)
    | 7 => some (.sublet st d a b) | 8 => some (.unsublet st d a) | 9 => some (.release st d a)
    | 10 => some (.rquery st d a) | _ => none
  | 0x10 => if fld w 30 1 == 0 then some (.viewset (fld w 26 4) a) else some (.gset (fld w 26 4) a)
  | _ => none

/-- Form B and the hint space (Table 11.3). -/
def candB (w : IWord) : Option Instr :=
  let d := fD w; let a := fA w; let i := fImm w
  match (fld w 2 6).toNat with
  | 0x01 => some (.addi d a i) | 0x02 => some (.andi d a i) | 0x03 => some (.ori d a i) | 0x04 => some (.xori d a i)
  | 0x05 => some (.slli d a (fld w 20 6)) | 0x06 => some (.srli d a (fld w 20 6)) | 0x07 => some (.srai d a (fld w 20 6))
  | 0x08 => some (.slti d a i) | 0x09 => some (.sltiu d a i)
  | 0x0A => some (.bfx d a (fld w 20 6) (fld w 26 6)) | 0x0B => some (.bfxs d a (fld w 20 6) (fld w 26 6))
  | 0x0C => some (.bfi d a (fld w 20 6) (fld w 26 6))
  | 0x10 => some (.ldN32 d a i) | 0x11 => some (.ldI32 d a i) | 0x12 => some (.ldN64 d a i)
  | 0x13 => some (.ldN16 d a i) | 0x14 => some (.ldI16 d a i) | 0x15 => some (.ldN8 d a i) | 0x16 => some (.ldI8 d a i)
  | 0x18 => some (.stN8 d a i) | 0x19 => some (.stN16 d a i) | 0x1A => some (.stN32 d a i) | 0x1B => some (.stN64 d a i)
  | 0x1C => some (.pref a i)
  | 0x1D => some (.ldg d (fld w 14 4) (fld w 20 11)) | 0x1E => some (.stg d (fld w 14 4) (fld w 20 11))
  | 0x20 => (Cond.ofCode d.toNat).map (fun k => .br k a i)
  | 0x21 => some (.j i) | 0x22 => some (.jl i) | 0x23 => some (.loopr i)
  | 0x28 => some (.trap (fld w 20 11))
  | 0x29 => (SysName.ofCode i.toNat).map (fun n => .mvs d n)
  | 0x2A => (SysName.ofCode i.toNat).map (fun n => .msv n a)
  | 0x2B => some (.defer (fld w 20 9))
  | 0x3F => some (.nop (fld w 8 24))
  | _ => none

/-- The register and type fields of form V (Table 10.5). -/
def vform (w0 w1 : IWord) : VForm :=
  { c := fF w0, b := fB w0, a := fA w0, d := fD w0, qsel := fld w1 30 2, ty := fld w1 18 6, rnd := fld w1 16 2,
    mode := fld w1 14 2, pneg := fld w1 7 1, pred := fld w1 0 7 }

/-- Forms V, L and P (Table 11.4). -/
def candVLP (w0 w1 : IWord) : Option Instr :=
  let v := vform w0 w1
  let pb : PReg := fld w0 25 7; let pa : PReg := fld w0 18 7; let pd : PReg := fld w0 11 7
  match (fld w0 2 6).toNat with
  | 0x1 => match (fld w1 24 6).toNat with
    | 1 => some (.vadd v) | 2 => some (.vsub v) | 3 => some (.vmul v) | 4 => some (.vfma v) | 5 => some (.vmin v) | 6 => some (.vmax v) | 7 => some (.vabs v) | 8 => some (.vneg v)
    | _ => none
  | 0x2 => match (fld w1 24 6).toNat with
    | 1 => some (.vand v) | 2 => some (.vor v) | 3 => some (.vxor v) | 4 => some (.vnot v) | 5 => some (.vshl v) | 6 => some (.vshr v) | 7 => some (.vsra v)
    | _ => none
  | 0x3 => match (fld w1 24 6).toNat with
    | 1 => some (.vceq v) | 2 => some (.vcne v) | 3 => some (.vclt v) | 4 => some (.vcle v)
    | _ => none
  | 0x4 => match (fld w1 24 6).toNat with
    | 1 => some (.vcvt v) | 2 => some (.vqrd v)
    | _ => none
  | 0x5 => match (fld w1 24 6).toNat with
    | 1 => some (.vexp2 v) | 2 => some (.vrcp v)
    | _ => none
  | 0x6 => match (fld w1 24 6).toNat with
    | 1 => some (.vbfx v) | 2 => some (.vfsh v)
    | _ => none
  | 0x7 => match (fld w1 24 6).toNat with
    | 1 => some (.vred v) | 2 => some (.vscan v)
    | _ => none
  | 0x8 => match (fld w1 24 6).toNat with
    | 1 => some (.vld v) | 2 => some (.vst v) | 3 => some (.vgath v) | 4 => some (.vscat v) | 5 => some (.vlut v)
    | _ => none
  | 0x9 => match (fld w1 24 6).toNat with
    | 1 => some (.vthr v) | 2 => if v.mode == 1 then some (.vtagMask v) else some (.vtagTags v)
    | 3 => some (.vcomb v) | _ => none
  | 0xa => match (fld w1 24 6).toNat with
    | 1 => some (.vmov v) | 2 => some (.vbcst v) | 3 => some (.vsel v) | 4 => some (.vgetl v)
    | _ => none
  | 0x20 => (TwinOp.ofCode (fImm w0).toNat).map (fun op => .longTwin op (fD w0) (fA w0) w1)
  | 0x21 => match Scope.ofCode (fld w0 24 3).toNat with
    | none => none
    | some sc => match (fld w0 27 5).toNat with
      | 0 => (IntTy.ofCode (fld w0 20 4).toNat).map (fun t => .lda t sc (fD w0) (fA w0) w1)
      | 1 => (IntTy.ofCode (fld w0 20 4).toNat).map (fun t => .strel t sc (fD w0) (fA w0) w1)
      | 9 => (AmoTy.ofCode (fld w0 20 4).toNat).map (fun t => .amoCas t sc (fD w0) (fA w0) (fld w1 0 6) (fld w1 6 6))
      | op => match AmoTy.ofCode (fld w0 20 4).toNat with
        | none => none
        | some t => match op with
          | 2 => some (.amoAdd t sc (fD w0) (fA w0) (fld w1 0 6))
          | 3 => some (.amoAnd t sc (fD w0) (fA w0) (fld w1 0 6))
          | 4 => some (.amoOr t sc (fD w0) (fA w0) (fld w1 0 6))
          | 5 => some (.amoXor t sc (fD w0) (fA w0) (fld w1 0 6))
          | 6 => some (.amoMin t sc (fD w0) (fA w0) (fld w1 0 6))
          | 7 => some (.amoMax t sc (fD w0) (fA w0) (fld w1 0 6))
          | 8 => some (.amoSwap t sc (fD w0) (fA w0) (fld w1 0 6))
          | _ => none
  | 0x30 => match (fld w0 8 3).toNat with
    | 0 => some (.pand pd pa pb) | 1 => some (.por pd pa pb) | 2 => some (.pxor pd pa pb) | 3 => some (.pandn pd pa pb)
    | 4 => some (.pnot pd pa) | 5 => some (.psetl pd w1) | 6 => some (.pseth pd w1) | _ => none
  | 0x31 => match (fld w0 8 3).toNat with
    | 0 => some (.pget (fld w1 0 6) pa) | 1 => some (.pput pd (fld w1 0 6)) | _ => none
  | _ => none

/-- The timing fields of an engine command (Table 10.8). -/
def timing (w0 w1 w2 : IWord) : Timing :=
  { stampReg := fld w0 17 6, tmode := fld w0 15 2, popLeft := fld w0 14 1, popRight := fld w0 13 1,
    pushLeft := fld w0 12 1, pushRight := fld w0 11 1, lo := w1, hi := w2 }

def mulF (w3 w4 : IWord) : MulF :=
  { ty := fld w3 26 6, route := fld w3 24 2, acc := fld w3 23 1, skip := fld w3 22 1, wrap := fld w3 21 1,
    dst := fld w3 13 3, tag := fld w3 11 2, slot := fld w3 6 5, rows := fld w3 0 6, dy := fld w4 20 4,
    xsValid := fld w4 19 1, xs := fld w4 15 4, bank := fld w4 7 5, mpred := fld w4 0 7 }

def copyF (w3 w4 : IWord) : CopyF :=
  { pace := fld w3 24 8, wreg := fld w3 18 6, len := fld w3 12 6, src := fld w3 6 6, dst := fld w3 0 6,
    tag := fld w4 16 16, rsrc := fld w4 14 1, rdst := fld w4 13 1, node := fld w4 0 12 }

def xferF (w3 w4 : IWord) : XferF :=
  { kind := fld w3 29 3, num := fld w3 23 6, off := fld w3 8 10, stream := fld w3 0 4, tag := fld w4 16 16,
    wreg := fld w4 8 6, pace := fld w4 0 8 }

def exchF (w3 w4 : IWord) : ExchF :=
  { addr := fld w3 0 6, len := fld w3 6 6, wreg := fld w3 12 6, core := fld w3 18 3, ch := fld w3 21 4,
    tag := fld w4 16 16 }

/-- RESUME, ESAVE and ELOAD of a queue (R310). -/
def candState (t : Timing) (q : EngQ) (op : Nat) (w3 : IWord) : Option Instr :=
  match op with
  | 0x3D => some (.resume t q) | 0x3E => some (.esave t q (fld w3 0 19)) | 0x3F => some (.eload t q (fld w3 0 19))
  | _ => none

/-- Engine commands (Table 11.6). -/
def candE (w0 w1 w2 w3 w4 w5 : IWord) : Option Instr :=
  let t := timing w0 w1 w2
  let op := (fld w0 5 6).toNat
  match (fld w0 2 3).toNat with
  | 0 => match op with
    | 1 => some (.mloadw t { ty := fld w3 26 6, bank := fld w3 21 5, none := fld w3 20 1, slot := fld w3 0 5,
                             expert := fld w4 0 16 })
    | 2 => some (.mmul t (mulF w3 w4))
    | 3 => some (.mgrad t (mulF w3 w4))
    | 4 => some (.mgdrain t { ty := fld w3 26 6, acc := fld w3 23 1, keep := fld w3 22 1, dst := fld w3 13 3,
                              bank := fld w3 0 5 })
    | 5 => some (.mres t { ty := fld w3 26 6, rnd := fld w3 24 2, split := fld w3 20 4, src := fld w3 17 3,
                           kind := fld w3 16 1, num := fld w3 12 4, rows := fld w3 0 6 })
    | 6 => some (.slclaim t (fld w3 6 6) (fld w3 0 6))
    | 7 => some (.slrel t (fld w3 0 5))
    | _ => candState t .mq op w3
  | 1 => match op with
    | 1 => some (.lnest t { mode := fld w3 20 2, rnd := fld w3 18 2, ty := fld w3 12 6, major := fld w3 6 6,
                            func := fld w3 0 6, sc := fld w4 12 4, sb := fld w4 8 4, sa := fld w4 4 4,
                            sd := fld w4 0 4, nest := fld w5 0 19 })
    | 2 => some (.sortc t { fromTag := fld w3 25 1, offsEn := fld w3 24 1, offs := fld w3 20 4, cnt := fld w3 16 4,
                            perm := fld w3 12 4, idSrc := fld w3 8 4, rows := fld w3 0 6, nexp := fld w4 0 13,
                            idBase := fld w5 0 16 })
    | _ => candState t .vq op w3
  | 2 => match op with
    | 1 => some (.xld t (xferF w3 w4))
    | _ => candState t .lq op w3
  | 3 => match op with
    | 1 => some (.xst t (xferF w3 w4))
    | _ => candState t .sq op w3
  | 4 => match op with
    | 1 => some (.cpy t (copyF w3 w4)) | 2 => some (.cpyc t (copyF w3 w4)) | 3 => some (.ckpt t (copyF w3 w4))
    | 4 => some (.lrflush t (fld w3 6 6)) | _ => none
  | 5 => match op with
    | 1 => some (.xsend t (exchF w3 w4)) | 2 => some (.xrecv t (exchF w3 w4)) | _ => none
  | 6 => match op with
    | 1 => some (.dispatch t { c := fld w3 0 6, d := fld w3 6 6, nexp := fld w3 12 13, base := fld w4 0 16 })
    | 2 => some (.wlnext t (fld w3 0 6) (fld w3 6 7))
    | 3 => some (.wid t (fld w3 0 6)) | _ => none
  | _ => none

/-- The instruction whose class, major and functions the words carry. -/
def candidate (ws : List IWord) : Option Instr :=
  match ws with
  | [] => none
  | w0 :: r => match (fld w0 0 2).toNat with
    | 0 => candA w0
    | 1 => candB w0
    | 2 => candVLP w0 (r.getD 0 0)
    | _ => candE w0 (r.getD 0 0) (r.getD 1 0) (r.getD 2 0) (r.getD 3 0) (r.getD 4 0)

/-- Form A word (R201). -/
def wA (f b a d : Reg) (m : BitVec 6) : IWord := f ++ b ++ a ++ d ++ m ++ (0 : BitVec 2)
/-- Form B word (R201). -/
def wB (imm : BitVec 12) (a d : Reg) (m : BitVec 6) : IWord := imm ++ a ++ d ++ m ++ (1 : BitVec 2)
/-- Form L word 0 (R202). -/
def wL (f : BitVec 12) (a d : Reg) (m : BitVec 6) : IWord := f ++ a ++ d ++ m ++ (2 : BitVec 2)
/-- Form V words (Table 10.5). -/
def wV (m f : BitVec 6) (v : VForm) : List IWord :=
  [v.c ++ v.b ++ v.a ++ v.d ++ m ++ (2 : BitVec 2),
   v.qsel ++ f ++ v.ty ++ v.rnd ++ v.mode ++ (0 : BitVec 6) ++ v.pneg ++ v.pred]
/-- Form P word 0 (R204). -/
def wP (pb pa pd : PReg) (f : BitVec 3) (m : BitVec 6) : IWord := pb ++ pa ++ pd ++ f ++ m ++ (2 : BitVec 2)
/-- Ordered-memory word 0 (R230). -/
def wO (op : BitVec 5) (sc : Scope) (ty : Nat) (a d : Reg) : IWord :=
  op ++ BitVec.ofNat 3 sc.code ++ BitVec.ofNat 4 ty ++ a ++ d ++ (0x21 : BitVec 6) ++ (2 : BitVec 2)
/-- Engine words (Table 10.8): words 3, 4 and 5 as given, 6 and 7 zero. -/
def wE (t : Timing) (eng : BitVec 3) (op : BitVec 6) (w3 w4 w5 : IWord) : List IWord :=
  [(0 : BitVec 9) ++ t.stampReg ++ t.tmode ++ t.popLeft ++ t.popRight ++ t.pushLeft ++ t.pushRight ++ op ++ eng
     ++ (3 : BitVec 2), t.lo, t.hi, w3, w4, w5, 0, 0]

def MulF.words (f : MulF) : IWord × IWord :=
  (f.ty ++ f.route ++ f.acc ++ f.skip ++ f.wrap ++ (0 : BitVec 5) ++ f.dst ++ f.tag ++ f.slot ++ f.rows,
   (0 : BitVec 8) ++ f.dy ++ f.xsValid ++ f.xs ++ (0 : BitVec 3) ++ f.bank ++ f.mpred)
def CopyF.words (f : CopyF) : IWord × IWord :=
  (f.pace ++ f.wreg ++ f.len ++ f.src ++ f.dst,
   f.tag ++ (0 : BitVec 1) ++ f.rsrc ++ f.rdst ++ (0 : BitVec 1) ++ f.node)
def XferF.words (f : XferF) : IWord × IWord :=
  (f.kind ++ f.num ++ (0 : BitVec 5) ++ f.off ++ (0 : BitVec 4) ++ f.stream,
   f.tag ++ (0 : BitVec 2) ++ f.wreg ++ f.pace)
def ExchF.words (f : ExchF) : IWord × IWord :=
  ((0 : BitVec 7) ++ f.ch ++ f.core ++ f.wreg ++ f.len ++ f.addr, f.tag ++ (0 : BitVec 16))

def rentF (st : Bool) (op : BitVec 5) : Reg := (if st then (1 : BitVec 1) else 0) ++ op

/-- The words of an instruction, in increasing address order (spec/10, spec/11); an event has none. -/
def encode : Instr → List IWord
  | .add d a b => [wA 0x0 b a d 0x01]
  | .sub d a b => [wA 0x1 b a d 0x01]
  | .and d a b => [wA 0x2 b a d 0x01]
  | .or d a b => [wA 0x3 b a d 0x01]
  | .xor d a b => [wA 0x4 b a d 0x01]
  | .andn d a b => [wA 0x5 b a d 0x01]
  | .sll d a b => [wA 0x6 b a d 0x01]
  | .srl d a b => [wA 0x7 b a d 0x01]
  | .sra d a b => [wA 0x8 b a d 0x01]
  | .rol d a b => [wA 0x9 b a d 0x01]
  | .ror d a b => [wA 0xa b a d 0x01]
  | .slt d a b => [wA 0xb b a d 0x01]
  | .sltu d a b => [wA 0xc b a d 0x01]
  | .seq d a b => [wA 0xd b a d 0x01]
  | .min d a b => [wA 0xe b a d 0x01]
  | .max d a b => [wA 0xf b a d 0x01]
  | .minu d a b => [wA 0x10 b a d 0x01]
  | .maxu d a b => [wA 0x11 b a d 0x01]
  | .clz d a => [wA 0x12 0 a d 0x01]
  | .ctz d a => [wA 0x13 0 a d 0x01]
  | .popc d a => [wA 0x14 0 a d 0x01]
  | .mul d a b => [wA 0x0 b a d 0x02]
  | .mulh d a b => [wA 0x1 b a d 0x02]
  | .mulhu d a b => [wA 0x2 b a d 0x02]
  | .div d a b => [wA 0x3 b a d 0x02]
  | .divu d a b => [wA 0x4 b a d 0x02]
  | .rem d a b => [wA 0x5 b a d 0x02]
  | .remu d a b => [wA 0x6 b a d 0x02]
  | .fshl d a b c => [wA c b a d 0x03]
  | .fshr d a b c => [wA c b a d 0x04]
  | .lea d a b n => [wA ((0 : BitVec 4) ++ n) b a d 0x05]
  | .sptest d a => [wA 0 0 a d 0x06]
  | .spcast t d a p => [wA (BitVec.ofNat 6 t.code) p a d 0x07]
  | .halt => [wA 0 0 0 0 0x08]
  | .waitt a => [wA 1 0 a 0 0x08]
  | .segFree => [wA 2 0 0 0 0x08]
  | .segTimed => [wA 3 0 0 0 0x08]
  | .gsync d => [wA 4 0 0 d 0x08]
  | .jr d a => [wA 5 0 a d 0x08]
  | .tret => [wA 0 0 0 0 0x09]
  | .ifence => [wA 1 0 0 0 0x09]
  | .codesync => [wA 2 0 0 0 0x09]
  | .bkpt => [wA 3 0 0 0 0x09]
  | .rgclose => [wA 0 0 0 0 0x0A]
  | .rgabort => [wA 1 0 0 0 0x0A]
  | .rgopenContain a => [wA 2 0 a 0 0x0A]
  | .rgopenIdem a => [wA 3 0 a 0 0x0A]
  | .rgopenBoth a => [wA 4 0 a 0 0x0A]
  | .land sc => [wA (BitVec.ofNat 6 sc.code) 0 0 0 0x0B]
  | .swait sc p d a => [wA (BitVec.ofNat 3 sc.code ++ (0 : BitVec 3)) p a d 0x0C]
  | .waitb sc p d a => [wA (BitVec.ofNat 3 sc.code ++ (1 : BitVec 3)) p a d 0x0C]
  | .arrive sc a => [wA (BitVec.ofNat 3 sc.code ++ (2 : BitVec 3)) 0 a 0 0x0C]
  | .arrdrop sc a => [wA (BitVec.ofNat 3 sc.code ++ (3 : BitVec 3)) 0 a 0 0x0C]
  | .binit sc a b => [wA (BitVec.ofNat 3 sc.code ++ (4 : BitVec 3)) b a 0 0x0C]
  | .bdecl a b => [wA 0 b a 0 0x0D]
  | .bacqFill a => [wA 1 0 a 0 0x0D]
  | .bacqDrain a => [wA 2 0 a 0 0x0D]
  | .brel a => [wA 3 0 a 0 0x0D]
  | .bstat d a => [wA 4 0 a d 0x0D]
  | .rent st t d a b => [wA (rentF st (BitVec.ofNat 5 t.code)) b a d 0x0E]
  | .renew st d a b => [wA (rentF st 5) b a d 0x0E]
  | .prepay st d a b => [wA (rentF st 6) b a d 0x0E]
  | .sublet st d a b => [wA (rentF st 7) b a d 0x0E]
  | .unsublet st d a => [wA (rentF st 8) 0 a d 0x0E]
  | .release st d a => [wA (rentF st 9) 0 a d 0x0E]
  | .rquery st d a => [wA (rentF st 10) 0 a d 0x0E]
  | .viewset n a => [wA ((0 : BitVec 2) ++ n) 0 a 0 0x10]
  | .gset n a => [wA ((1 : BitVec 2) ++ n) 0 a 0 0x10]
  | .addi d a i => [wB i a d 0x1]
  | .andi d a i => [wB i a d 0x2]
  | .ori d a i => [wB i a d 0x3]
  | .xori d a i => [wB i a d 0x4]
  | .slti d a i => [wB i a d 0x8]
  | .sltiu d a i => [wB i a d 0x9]
  | .slli d a i => [wB ((0 : BitVec 6) ++ i) a d 0x5]
  | .srli d a i => [wB ((0 : BitVec 6) ++ i) a d 0x6]
  | .srai d a i => [wB ((0 : BitVec 6) ++ i) a d 0x7]
  | .bfx d a p l => [wB (l ++ p) a d 0xa]
  | .bfxs d a p l => [wB (l ++ p) a d 0xb]
  | .bfi d a p l => [wB (l ++ p) a d 0xc]
  | .ldN32 d a i => [wB i a d 0x10]
  | .ldI32 d a i => [wB i a d 0x11]
  | .ldN64 d a i => [wB i a d 0x12]
  | .ldN16 d a i => [wB i a d 0x13]
  | .ldI16 d a i => [wB i a d 0x14]
  | .ldN8 d a i => [wB i a d 0x15]
  | .ldI8 d a i => [wB i a d 0x16]
  | .stN8 d a i => [wB i a d 0x18]
  | .stN16 d a i => [wB i a d 0x19]
  | .stN32 d a i => [wB i a d 0x1a]
  | .stN64 d a i => [wB i a d 0x1b]
  | .pref a i => [wB i a 0 0x1C]
  | .ldg d g i => [wB ((0 : BitVec 1) ++ i) ((0 : BitVec 2) ++ g) d 0x1D]
  | .stg d g i => [wB ((0 : BitVec 1) ++ i) ((0 : BitVec 2) ++ g) d 0x1E]
  | .br k a i => [wB i a (BitVec.ofNat 6 k.code) 0x20]
  | .j i => [wB i 0 0 0x21]
  | .jl i => [wB i 0 0 0x22]
  | .loopr i => [wB i 0 0 0x23]
  | .trap n => [wB ((0 : BitVec 1) ++ n) 0 0 0x28]
  | .mvs d n => [wB (BitVec.ofNat 12 n.code) 0 d 0x29]
  | .msv n a => [wB (BitVec.ofNat 12 n.code) a 0 0x2A]
  | .defer n => [wB ((0 : BitVec 3) ++ n) 0 0 0x2B]
  | .nop bits => [bits ++ (0x3F : BitVec 6) ++ (1 : BitVec 2)]
  | .longTwin op d a imm => [wL (BitVec.ofNat 12 op.code) a d 0x20, imm]
  | .lda t sc d a imm => [wO 0 sc t.code a d, imm]
  | .strel t sc d a imm => [wO 1 sc t.code a d, imm]
  | .amoAdd t sc d a b => [wO 2 sc t.code a d, (0 : BitVec 26) ++ b]
  | .amoAnd t sc d a b => [wO 3 sc t.code a d, (0 : BitVec 26) ++ b]
  | .amoOr t sc d a b => [wO 4 sc t.code a d, (0 : BitVec 26) ++ b]
  | .amoXor t sc d a b => [wO 5 sc t.code a d, (0 : BitVec 26) ++ b]
  | .amoMin t sc d a b => [wO 6 sc t.code a d, (0 : BitVec 26) ++ b]
  | .amoMax t sc d a b => [wO 7 sc t.code a d, (0 : BitVec 26) ++ b]
  | .amoSwap t sc d a b => [wO 8 sc t.code a d, (0 : BitVec 26) ++ b]
  | .amoCas t sc d a b c => [wO 9 sc t.code a d, (0 : BitVec 20) ++ c ++ b]
  | .vadd v => wV 0x1 1 v
  | .vsub v => wV 0x1 2 v
  | .vmul v => wV 0x1 3 v
  | .vfma v => wV 0x1 4 v
  | .vmin v => wV 0x1 5 v
  | .vmax v => wV 0x1 6 v
  | .vabs v => wV 0x1 7 v
  | .vneg v => wV 0x1 8 v
  | .vand v => wV 0x2 1 v
  | .vor v => wV 0x2 2 v
  | .vxor v => wV 0x2 3 v
  | .vnot v => wV 0x2 4 v
  | .vshl v => wV 0x2 5 v
  | .vshr v => wV 0x2 6 v
  | .vsra v => wV 0x2 7 v
  | .vceq v => wV 0x3 1 v
  | .vcne v => wV 0x3 2 v
  | .vclt v => wV 0x3 3 v
  | .vcle v => wV 0x3 4 v
  | .vcvt v => wV 0x4 1 v
  | .vqrd v => wV 0x4 2 v
  | .vexp2 v => wV 0x5 1 v
  | .vrcp v => wV 0x5 2 v
  | .vbfx v => wV 0x6 1 v
  | .vfsh v => wV 0x6 2 v
  | .vred v => wV 0x7 1 v
  | .vscan v => wV 0x7 2 v
  | .vld v => wV 0x8 1 v
  | .vst v => wV 0x8 2 v
  | .vgath v => wV 0x8 3 v
  | .vscat v => wV 0x8 4 v
  | .vlut v => wV 0x8 5 v
  | .vmov v => wV 0xa 1 v
  | .vbcst v => wV 0xa 2 v
  | .vsel v => wV 0xa 3 v
  | .vgetl v => wV 0xa 4 v
  | .vthr v => wV 0x9 1 v
  | .vtagTags v => wV 0x9 2 v
  | .vtagMask v => wV 0x9 2 v
  | .vcomb v => wV 0x9 3 v
  | .pand pd pa pb => [wP pb pa pd 0 0x30, 0]
  | .por pd pa pb => [wP pb pa pd 1 0x30, 0]
  | .pxor pd pa pb => [wP pb pa pd 2 0x30, 0]
  | .pandn pd pa pb => [wP pb pa pd 3 0x30, 0]
  | .pnot pd pa => [wP 0 pa pd 4 0x30, 0]
  | .psetl pd imm => [wP 0 0 pd 5 0x30, imm]
  | .pseth pd imm => [wP 0 0 pd 6 0x30, imm]
  | .pget d pa => [wP 0 pa 0 0 0x31, (0 : BitVec 26) ++ d]
  | .pput pd a => [wP 0 0 pd 1 0x31, (0 : BitVec 26) ++ a]
  | .mloadw t f => wE t 0 1 (f.ty ++ f.bank ++ f.none ++ (0 : BitVec 15) ++ f.slot) ((0 : BitVec 16) ++ f.expert) 0
  | .mmul t f => wE t 0 2 f.words.1 f.words.2 0
  | .mgrad t f => wE t 0 3 f.words.1 f.words.2 0
  | .mgdrain t f =>
    wE t 0 4 (f.ty ++ (0 : BitVec 2) ++ f.acc ++ f.keep ++ (0 : BitVec 6) ++ f.dst ++ (0 : BitVec 8) ++ f.bank) 0 0
  | .mres t f =>
    wE t 0 5 (f.ty ++ f.rnd ++ f.split ++ f.src ++ f.kind ++ f.num ++ (0 : BitVec 6) ++ f.rows) 0 0
  | .slclaim t d n => wE t 0 6 ((0 : BitVec 20) ++ d ++ n) 0 0
  | .slrel t n => wE t 0 7 ((0 : BitVec 27) ++ n) 0 0
  | .lnest t f => wE t 1 1 ((0 : BitVec 10) ++ f.mode ++ f.rnd ++ f.ty ++ f.major ++ f.func)
      ((0 : BitVec 16) ++ f.sc ++ f.sb ++ f.sa ++ f.sd) ((0 : BitVec 13) ++ f.nest)
  | .sortc t f => wE t 1 2
      ((0 : BitVec 6) ++ f.fromTag ++ f.offsEn ++ f.offs ++ f.cnt ++ f.perm ++ f.idSrc ++ (0 : BitVec 2) ++ f.rows)
      ((0 : BitVec 19) ++ f.nexp) ((0 : BitVec 16) ++ f.idBase)
  | .xld t f => wE t 2 1 f.words.1 f.words.2 0
  | .xst t f => wE t 3 1 f.words.1 f.words.2 0
  | .resume t q => wE t (BitVec.ofNat 3 q.code) 0x3D 0 0 0
  | .esave t q img => wE t (BitVec.ofNat 3 q.code) 0x3E ((0 : BitVec 13) ++ img) 0 0
  | .eload t q img => wE t (BitVec.ofNat 3 q.code) 0x3F ((0 : BitVec 13) ++ img) 0 0
  | .cpy t f => wE t 4 1 f.words.1 f.words.2 0
  | .cpyc t f => wE t 4 2 f.words.1 f.words.2 0
  | .ckpt t f => wE t 4 3 f.words.1 f.words.2 0
  | .lrflush t s => wE t 4 4 ((0 : BitVec 20) ++ s ++ (0 : BitVec 6)) 0 0
  | .xsend t f => wE t 5 1 f.words.1 f.words.2 0
  | .xrecv t f => wE t 5 2 f.words.1 f.words.2 0
  | .dispatch t f => wE t 6 1 ((0 : BitVec 7) ++ f.nexp ++ f.d ++ f.c) ((0 : BitVec 16) ++ f.base) 0
  | .wlnext t d q => wE t 6 2 ((0 : BitVec 19) ++ q ++ d) 0 0
  | .wid t d => wE t 6 3 ((0 : BitVec 26) ++ d) 0 0
  | .queueEntryStart _ _ | .queueEntryComplete _ _ _ | .residencyLoadBegin _ _ | .residencyLoadEnd _ _
  | .banisterCompare _ _ | .patrolScrub _ | .waitRelease _ _ | .waittExpire _ | .landComplete _ | .contextExit _
  | .gsyncRelease _ | .dispatchRelease _ | .dispatchClaimRetry _ | .deferWindowEnd _ | .budgetExpire _
  | .copyStart _ _ | .copyWordLand _ _ _ | .autoExtend _ | .lapse _ | .graceEnd _ | .subletEnd _ | .scrubComplete _
  | .pageRetire _ _ | .sqTailWrite _ _ _ | .kick _ _ | .kickScan _ _ | .cqHeadWrite _ _ _ | .completionWrite _
  | .coalesceTimeout _ _ | .queueEnable _ _ _ | .queueDrain _ _ | .queueDrainDone _ _ | .prHeadWrite _ _
  | .pageRelease _ _ | .pageClaim _ _ | .pageClaimGrant _ | .hostCxlMemAccess _ _ _ _ | .createVd | .destroyVd
  | .exportVd | .roundVd | .freeze | .freezeComplete _ | .finalVd | .finalTransferReceive _ | .importVd | .activate
  | .thaw | .grent | .loadVd | .loadComplete _ | .codereg | .codefree | .grelease | .grenew | .allowAdd
  | .vdParamWrite | .registerWrite | .domainApply | .powerLimitWrite | .powerSample | .supplyCut | .moduleReset
  | .getVersion | .getCapabilities | .negotiateAlgorithms | .getDigests | .getCertificate | .challenge
  | .getMeasurements | .cxlPoisonReturn _ _ | .cxlCompletionTimeout _ _ | .cxlLinkDown _
  | .nodePacketReceive _ _ _ _ | .packetAckTimeout _ | .packetRefusedResend _ | .poolExtentAdd _ _ _
  | .poolExtentRelease _ _ _ | .scoreboardReevaluate | .teamIssue _ | .stageStart _ | .stageComplete _ | .sliceEnd _
  | .regionBoundaryTimeout _ | .contextSaveDone _ | .teamResume _ | .teamAged _ | .launchEnd _ | .newelTakeover
  | .knownAnswerTest _ _ | .breakpointMatch _ | .illegalEncoding | .countedLoadReturn _ _ | .codesyncComplete _
  | .storeBecomesVisible _ _ | .storageError _ _ | .standbyNewelFailure | .transferCountedComplete _
  | .scaleOutPortDown _ => []

/-- Decode checks 2 to 5 of R222 on an instruction's words: the functions are listed, every field the instruction does
not use is zero (its words are exactly their encoding), and its operands and types are within their limits. -/
def decode (ws : List IWord) : Except DecErr Instr :=
  match candidate ws with
  | none => if ws.isEmpty then .error .short else .error .unlisted
  | some i =>
    if encode i != ws then .error .reservedField
    else if !i.wf then .error .operand
    else .ok i

/-- The words of a little-endian byte list (R198). -/
def wordsOfBytes : List Byte → List IWord
  | b0 :: b1 :: b2 :: b3 :: r => (b3 ++ b2 ++ b1 ++ b0) :: wordsOfBytes r
  | _ => []

/-- The bytes of words, each little-endian. -/
def bytesOfWords : List IWord → List Byte
  | [] => []
  | w :: r => w.extractLsb' 0 8 :: w.extractLsb' 8 8 :: w.extractLsb' 16 8 :: w.extractLsb' 24 8 :: bytesOfWords r

/-- The instruction at the head of a byte list, its length in words by its first (R199). -/
def decodeBytes (bs : List Byte) : Except DecErr Instr :=
  match wordsOfBytes bs with
  | [] => .error .short
  | w0 :: r => if (w0 :: r).length < wordsOf w0 then .error .short else decode ((w0 :: r).take (wordsOf w0))

/-- The words of an instruction whose table bits are w: as many as its first word asks for, zero above nbits. -/
def tableWords (nbits w : Nat) : List IWord :=
  let w0 : IWord := BitVec.ofNat 32 (w % 2 ^ nbits)
  (List.range (wordsOf w0)).map (fun i => BitVec.ofNat 32 ((w % 2 ^ nbits) >>> (32 * i)))

/-- The instruction the decoder reads from the bits of an opcode-table row, bit 0 the least significant bit of the
first word. -/
def decodeTableWord (nbits w : Nat) : Option Instr :=
  match decodeBytes (bytesOfWords (tableWords nbits w)) with
  | .ok i => some i
  | .error _ => none

end Sys2Proof
end

