-- ==== Sys2Proof/Config.lean ====
section
/-!
DEFINITION. What the device leaves open, as constants without a value: every claim holds for each of their values.
-/
namespace Sys2Proof.Config
open Sys2Proof

/-- Ticks or choices the manual leaves open (R18, R170, R256, R92, R178): the k-th free number (log entry 2). -/
opaque freeNat : Nat → Nat
/-- Pulses of an aligned 64-pulse window a domain swallows: the k-th free permutation key (R16, log entry 6). -/
opaque swallowKey : Nat → Nat
/-- Package power in watts at the k-th sample (R16, log entry 14). -/
opaque power : Nat → BitVec 16
/-- SHA-384 of bytes (R22, R23, log entry 13). -/
opaque sha384 : List (BitVec 8) → BitVec 384
/-- The P-384 alias key boot derives from the device's identity secret and measurement registers' bytes (R23, log entry 13). -/
opaque aliasKey : List (BitVec 8) → List (BitVec 8)
/-- The identity key's certificate for an alias key (R23, log entry 13). -/
opaque certify : List (BitVec 8) → List (BitVec 8)
/-- The signature of an alias key over bytes (R24, log entry 13). -/
opaque signAlias : List (BitVec 8) → List (BitVec 8) → List (BitVec 8)
/-- The signature of the LMS key with a one-time index over bytes (R24, log entry 13). -/
opaque signLms : Nat → List (BitVec 8) → List (BitVec 8)
/-- Byte i of the device's certificate chain (R23, R24, log entry 13). -/
opaque certByte : Nat → BitVec 8
/-- Bytes in the certificate chain (log entry 13). -/
opaque certLen : Nat
/-- Bytes of the SPDM capability and algorithm answers (R24, log entry 13). -/
opaque spdmBytes : Nat → List (BitVec 8)
/-- A byte that reads as old or new contents where R178 leaves it open: true is new (log entry 7). -/
opaque freeBit : Nat → Bool
/-- Bytes another node's memory answers with: the k-th free byte (R21; log entry 12). -/
opaque outsideByte : Nat → BitVec 8

/-- The scale bytes of a group of a stream whose scales are stored apart, by the stream's image, the group and the tick (R102, log
entry 66). -/
opaque apartScale : Nat → Nat → Nat → BitVec 16

/-- The bytes of a bx block into which a reduction writes one value, by the stream's image, the element, the value and the tick (R307, log
entry 116). -/
opaque lonelyBlock : Nat → Nat → Nat → Nat → BitVec 272

/-- The .data image of a code region, by virtual device and code handle (R214; log entry 37). -/
opaque dataImage : Nat → Nat → List (BitVec 8)

/-- Elements LNEST takes a tick for compute types R308 gives no number for, less one, by element bits (log entry 33). -/
opaque nestRate : Nat → Nat

end Sys2Proof.Config
end

