-- ==== Sys2Proof/Machine/State.lean ====
section
/-!
DEFINITION. The state of the module, as plain data: everything the spec gives the device (INVENTORY.md lists each
item with its rule), the effects and events that are still due, and the state after reset.
-/
set_option linter.unusedVariables false
namespace Sys2Proof.Machine
open Sys2Proof

/-- Bytes by address: addresses strictly rising, no byte equal to the zero an unlisted address reads as (R92). -/
abbrev Mem := List Host.Cell

/-- Reasons the model stops. -/
inductive Fault where
  /-- Raised by a core instruction's meaning when no context executes (cx absent): no rule gives such an instruction
  an effect, since a context is what executes instructions (R94). Safe: the model stops. -/
  | noContext
  /-- Raised by a step when the board's supply is cut (R16): nothing runs until the next module reset arrives as an
  input, and none is due. Safe: the model stops where the hardware is off. -/
  | noSupply
deriving DecidableEq, Repr, Inhabited

/-- Reasons the model refuses an instruction. -/
inductive Refusal where
  /-- Raised by exec's arm of an instruction that has no meaning in this model. Safe: the model stops. -/
  | notModelled (mnemonic : String)
deriving DecidableEq, Repr, Inhabited

/-- Names of registers whose results are interlocked (R234). -/
inductive RegName | s (n : Nat) | p (n : Nat) | sys (n : Nat) | vw (n : Nat) | g (n : Nat)
deriving DecidableEq, Repr, Inhabited

/-- Operations at a synchronisation engine (R165, R265, R266, R271 to R274). -/
inductive SyncKind
  | load | acqLoad | store | relStore
  | add | and | or | xor | min | max | swap | cas
  | arrive | arrdrop | binit | swait | waitb
deriving DecidableEq, Repr, Inhabited

/-- One operation at a synchronisation engine, with its operands. -/
structure SyncOp where
  kind : SyncKind
  addr : Nat
  size : Nat
  signed : Bool
  scope : Scope
  val : Word
  exp : Word
  d : Nat
  p : Nat
  pc : Word
  held : Bool
  bad : Bool
deriving DecidableEq, Repr, Inhabited

/-- A byte in a flight, in the place order of R167, with its word's poison mark (R194) and the tick of the store that placed it
(R355). -/
structure FByte where
  space : Nat
  off : Nat
  addr : Nat
  val : Byte
  mark : Bool
  placed : Nat
deriving DecidableEq, Repr, Inhabited

/-- A buffer-table entry (Table 5.6): state 0 EMPTY, 1 FILLING, 2 FULL, 3 DRAINING. -/
structure Buf where
  /-- Word offset (R114). -/
  wordOff : Nat
  /-- Length (R114). -/
  length : Nat
  /-- Base (R114). -/
  base : Nat
  /-- EMPTY, FILLING, FULL, DRAINING (R114, Table 5.8). -/
  state : Nat
  /-- Declared (R114). -/
  declared : Bool
deriving DecidableEq, Repr, Inhabited

/-- A range of a unit's scratchpad offsets that a tier-1 region backs (R214, R280). -/
structure Span where
  /-- First granule (R214, R280). -/
  first : Nat
  /-- Granules (R214, R280). -/
  count : Nat
  /-- The region (R214, R280). -/
  ref : Nat
deriving DecidableEq, Repr, Inhabited

/-- A posted receive (R338), with the command that posted it. -/
structure Chan where
  /-- Its XRECV (R338). -/
  id : Nat
  /-- The sender it is for (R338). -/
  sender : Nat
  /-- Destination offset (R338). -/
  dst : Nat
  /-- Bytes (R338). -/
  length : Nat
  /-- Its synchronisation word (R338). -/
  word : Nat
  /-- Bytes landed (R338). -/
  landed : Nat
deriving DecidableEq, Repr, Inhabited

/-- A barrier registration (R271). -/
structure Reg16 where
  /-- The barrier (R271). -/
  addr : Nat
  /-- Generation recorded (R271). -/
  gen : Nat
deriving DecidableEq, Repr, Inhabited

/-- An item of a work list (R66). -/
structure Item where
  /-- Expert (R66, R341). -/
  expert : Nat
  /-- First row (R66, R341). -/
  rowStart : Nat
  /-- Rows (R66, R341). -/
  rows : Nat
  /-- Bucket index, with its schedule through the launch record (R66, R341). -/
  bucket : Nat
  /-- Cost (R66). -/
  cost : Nat
deriving DecidableEq, Repr, Inhabited

/-- A unit's work list and cursor (R340 to R343). -/
structure Work where
  /-- Items (R340). -/
  items : List Item
  /-- Cursor (R341, R343). -/
  taken : Nat
  /-- Accumulated cost (R342). -/
  cost : Nat
  /-- Largest capacity (R342). -/
  cap : Nat
deriving DecidableEq, Repr, Inhabited

/-- An engine command from its delivery on (R304, R314). -/
structure Cmd where
  /-- The MODEL's own number (R104). -/
  id : Nat
  /-- Its unit (R104). -/
  uid : Nat
  /-- Its core (R104). -/
  core : Nat
  /-- Its address (R116). -/
  pc : Word
  /-- The command (R205). -/
  ins : Instr
  /-- When it was delivered (R314). -/
  deliver : Nat
  /-- It was delivered in a timed segment (R106). -/
  timed : Bool
  /-- Due tick (R106). -/
  due : Nat
  /-- Scalars read at delivery (R314). -/
  vals : List Word
  /-- Physical names and offsets (R209, R314). -/
  names : List Nat
  /-- view registers read at delivery (R314). -/
  views : List (BitVec 128)
  /-- Streams read at delivery; poisoned words of a copy (R314). -/
  streams : List (BitVec 384)
  /-- Its number among truncatable commands (R333). -/
  seq : Nat
  /-- An outbound command of an open idem region (R119). -/
  inRegion : Bool
  /-- It writes outside the core (R119). -/
  outbound : Bool
  /-- When it started (R105). -/
  start : Option Nat
  /-- FIFOs still to be pushed (R105); for a copy, runs of words that were barred at its start: side, first, past the last (R333). -/
  pushes : List Nat
  /-- Where it stopped (R116). -/
  prog : Nat
  /-- Words or rows it has (R331). -/
  live : Nat
  /-- Words or rows done (R331). -/
  landed : Nat
  /-- Words read or counted (R115). -/
  counted : Nat
  /-- What a start sampled (R314). -/
  sample : List Nat
  /-- What it accumulates (R310). -/
  acc : List Nat
  /-- Bytes read and not yet written (R310). -/
  bytes : List Byte
deriving DecidableEq, Repr, Inhabited

/-- A gradient accumulator: its f32 bits and its poison mark (R136, R140). -/
structure GradAcc where
  /-- f32 bits (R136). -/
  val : BitVec 32
  /-- Poison mark (R140, R194). -/
  bad : Bool
deriving DecidableEq, Repr, Inhabited

/-- An error the array makes in one command of a class, hidden state of the MODEL (log entry 16): flipped bits of the product in a
row and column; for a gradient the column is k × 128 + n; from 128 on, an MMUL's column is the checksum row's own. -/
structure Strike where
  /-- Capability bit of its class (R140). -/
  cls : Nat
  /-- Row (R139). -/
  row : Nat
  /-- Column (R139). -/
  col : Nat
  /-- Flipped bits (R139). -/
  bits : Nat
deriving DecidableEq, Repr, Inhabited

/-- The saved state of a stopped command, with the residency snapshot index (R116, R129, R310). -/
structure EngState where
  /-- When it was saved (R116). -/
  tick : Nat
  /-- The command as it stood (R116, R310). -/
  cmd : Cmd
  /-- residency count at the save (R129). -/
  snap : Nat
deriving DecidableEq, Repr, Inhabited

/-- What an idem region restores (R119, R343). -/
structure Snapshot where
  /-- S1 to s31 (R119). -/
  scalars : List Word
  /-- P1 to p95 (R119). -/
  preds : List Word
  /-- lc (R119). -/
  lc : Word
  /-- ec (R119). -/
  ec : BitVec 6
  /-- rb (R119). -/
  rb : BitVec 5
  /-- Streams (R119). -/
  streams : Tab (BitVec 384)
  /-- Buffer table (R119). -/
  bufs : Tab Buf
  /-- Synchronisation words of declared buffers (R119). -/
  words : List (Nat × List Byte)
  /-- Work-list cursor (R343). -/
  taken : Nat
  /-- Results that were still to come, and when (R234). -/
  busy : List (RegName × Nat)
deriving DecidableEq, Repr, Inhabited

/-- The open region (R267). -/
structure Region where
  /-- It contains (R267). -/
  contain : Bool
  /-- It is idempotent (R267). -/
  idem : Bool
  /-- Handler address (R267). -/
  handler : Word
  /-- Address of its RGOPEN (R119). -/
  openPc : Word
  /-- First command delivered inside it (R119). -/
  firstCmd : Nat
  /-- What a restart restores (R119). -/
  snap : Snapshot
  /-- Held effects in order (R268). -/
  held : List SyncOp
deriving DecidableEq, Repr, Inhabited

/-- Why a context does not issue (R95). -/
inductive Wait where
  | run
  | tick (t : Nat)
  | land (t : Nat)
  | regionClose
  | test (o : SyncOp)
  | op (o : SyncOp)
  | status (o : SyncOp)
  | gsync (d : Nat)
  | queue (q : Nat)
  | parked (addr : Nat)
  | dispatch (d : Nat)
  | codesync
  | halt (t : Nat)
  | segment
  | close
  | monitor (t : Nat)
  | monitorBack (r t : Nat)
  | debug
  | stopping
  | saving
  | frozen (why : Nat)
  | saved
  | done
deriving DecidableEq, Repr, Inhabited

/-- A residency entry (Table 6.4), the rows that may still pass with its weights, and its weights as slot bytes. -/
structure ResEntry where
  /-- Expert (R129). -/
  expert : Nat
  /-- EMPTY, LOADING, RESIDENT, POISONED (R129). -/
  state : Nat
  /-- Format (R129). -/
  format : Nat
  /-- Slot (R129). -/
  slot : Nat
  /-- Context (R129). -/
  ctx : Nat
  /-- It came from q4 (R129). -/
  q4 : Bool
  /-- When its load is over (R130). -/
  ready : Nat
  /-- Last row that may pass with its weights (R130). -/
  lastRow : Nat
  /-- Weights of the bank (R121, R122). -/
  weights : Mem
deriving DecidableEq, Repr, Inhabited

/-- A context: one unit's architectural state (R94) and its place. -/
structure Ctx where
  /-- The MODEL's own number of the unit (R94). -/
  uid : Nat
  /-- Its virtual device (R74). -/
  vd : Nat
  /-- Its launch (R49). -/
  launch : Nat
  /-- Its team (R53). -/
  team : Nat
  /-- Physical core (R2, R3). -/
  core : Nat
  /-- Context slot of the core (R94). -/
  slot : Nat
  /-- Lcore (R3, Table 12.8). -/
  lcore : Nat
  /-- Units of its team (R53). -/
  teamSize : Nat
  /-- Principal (R74). -/
  principal : Nat
  /-- pc (R94). -/
  pc : Word
  /-- Register store: s0 to s63 in its first 512 bytes, vectors, tiles and arrays by view (R99). -/
  bank : Mem
  /-- Poisoned words of operand-queue entries (R194). -/
  oqPoison : Tab (List (List Nat))
  /-- Poisoned 8-byte words of the register store (R194). -/
  bankPoison : List Nat
  /-- p0 to p127 (p0 reads ones) (R94, R208). -/
  preds : Tab Word
  /-- tg0 to tg3 (R132). -/
  tags : Tab (BitVec 16)
  /-- vw0 to vw15 (R100, R101). -/
  views : Tab (BitVec 128)
  /-- g0 to g15 (R102, R361). -/
  streams : Tab (BitVec 384)
  /-- oq0 to oq3 (R103). -/
  oqs : Tab (List (List Byte))
  /-- lc (R248). -/
  lc : Word
  /-- ec (R248). -/
  ec : BitVec 6
  /-- rb (R209, R248). -/
  rb : BitVec 5
  /-- aflags (R152). -/
  aflags : BitVec 3
  /-- WID of the item: wid.f0 to wid.f5 (R52, R53). -/
  wid : Word
  /-- Last WID of the unit (R53, R244). -/
  lastWid : Word
  /-- Entry point (R49, R244). -/
  entry : Word
  /-- use.mask (R97, Table 12.8). -/
  useMask : BitVec 24
  /-- cap.mask of the last placement (R97, Table 12.8). -/
  capMask : BitVec 24
  /-- Early (R113, Table 12.8). -/
  early : Bool
  /-- ctx.epc (R250, R253). -/
  epc : Word
  /-- ctx.cause (R250, R253). -/
  cause : BitVec 8
  /-- ctx.tval (R250, R253). -/
  tval : Word
  /-- ctx.tinfo (R250, R253). -/
  tinfo : Word
  /-- ctx.tvec (R250, R252). -/
  tvec : Word
  /-- Handler level (R253). -/
  handler : Bool
  /-- Tick of the last trap entry (R253, R254). -/
  trapTick : Nat
  /-- Saved segment kind (R253, R254). -/
  savedTimed : Bool
  /-- Interrupts held by a window or the handler, with their ticks (R112, R253). -/
  heldIrq : List Nat
  /-- Segment kind (R106). -/
  timed : Bool
  /-- Base of the segment (R106). -/
  segBase : Option Int
  /-- Last due tick by queue in the segment (R106). -/
  lastDue : List (Nat × Nat × Int)
  /-- view tick (R169). -/
  view : Nat
  /-- Pulse at which the view last rose, the MODEL's own: it relates views of different domains (R169, R175). -/
  viewPulse : Nat
  /-- The flight (R167). -/
  flight : List FByte
  /-- Bytes of landings that have not landed (R167, R168). -/
  inLand : List FByte
  /-- The open region (R119, R267). -/
  region : Option Region
  /-- End of the DEFER window (R112, R255). -/
  defer : Option Nat
  /-- Tick budget (R54). -/
  budget : Nat
  /-- Where it began (R54). -/
  budgetStart : Nat
  /-- Buffer table (R114). -/
  bufs : Tab Buf
  /-- Alcove slot map (R125). -/
  slots : Tab Nat
  /-- Scratchpad map (R214, R280). -/
  spad : List Span
  /-- Region of its own area, window 1 (R163, R280). -/
  priv : Nat
  /-- Pages of that area (R161). -/
  privPages : Nat
  /-- Rent entry of the register-store bank (R59, R280). -/
  bankRef : Nat
  /-- Entries of the grant record (R280). -/
  grantRefs : List Nat
  /-- Receive channels (R338). -/
  chans : Tab Chan
  /-- Truncatable commands delivered (R333). -/
  truncSeq : Nat
  /-- Event-log records written (R333). -/
  eventCount : Nat
  /-- Barrier registrations (R271). -/
  regs16 : List Reg16
  /-- Interlocked results not yet performed, with their ticks (R234). -/
  busy : List (RegName × Nat)
  /-- Last perform tick by synchronisation object (R283). -/
  objects : Tab Nat
  /-- Perform tick of the last acquire sent to an engine (R171). -/
  acq : Nat
  /-- What the context waits for (R95). -/
  wait : Wait
  /-- Earliest tick of its next instruction (R94, R95). -/
  nextAt : Nat
  /-- Saved engine state (R116, R310). -/
  saved : Tab EngState
  /-- Commands held at a stop or by the monitor (R111, R117, R118). -/
  heldCmds : List Cmd
  /-- Counted loads whose value has not arrived (R18, R259). -/
  loads : Tab (Nat × Word)
  /-- CXL links of the counted loads that have one, and whether they are poisoned (R18). -/
  loadLinks : Tab (Nat × Bool)
  /-- Work list (R340 to R343). -/
  work : Work
  /-- When an interrupt that is not yet taken arrived (R98, R118). -/
  sliceEnd : Option Nat
  /-- Fault of the first byte, in place order, that a landing dropped: cause, tval, tinfo (R180, R273). -/
  landDropped : Option (Nat × Nat × Nat)
  /-- Landings made by the last CODESYNC (R178, R256). -/
  landedCode : Nat
  /-- When it stopped (R98). -/
  savedAt : Nat
  /-- Bank ticks left when it was saved (R64, R98). -/
  bankLeft : Nat
  /-- Rent entry of its save area (R98). -/
  saveRef : Nat
  /-- It has passed the breakpoint it stands at (R346). -/
  bpPast : Bool
  /-- It came by migration and is not yet restored (R47, R48). -/
  imported : Bool
  /-- Commands held at trap entry, until TRET (R111, R253, R254). -/
  trapCmds : List Cmd
  /-- Last due ticks of the segment the handler interrupted (R106, R254). -/
  savedLast : List (Nat × Nat × Int)
  /-- The issue grant's paid-until tick (R59, R98, R125). -/
  grantUntil : Nat
  /-- Gradient accumulators it was saved with, once another unit has its context number (R64). -/
  gradsAt : Tab GradAcc
  /-- FREEZE stopped it, so that the stamps of its copies stand as at T_S (R46, R48). -/
  byFreeze : Bool
  /-- residency entries it was saved with (R98, R129). -/
  entriesAt : Option (Tab ResEntry)
  /-- The engine command whose fault entered the handler, and the FIFOs it took tokens from (R104, R253). -/
  spent : Option (Word × List Nat)
  /-- Storage errors not yet met in its register store and flight buffer (R191, R192). -/
  upsets : List (Nat × Nat)
deriving DecidableEq, Repr, Inhabited

/-- A load on the array's load path (R130). -/
structure Load where
  /-- Its number (R130). -/
  id : Nat
  /-- Its unit (R130). -/
  uid : Nat
  /-- Bank (R130). -/
  bank : Nat
  /-- Expert (R130). -/
  expert : Nat
  /-- Slot (R130). -/
  slot : Nat
  /-- Context (R130). -/
  ctx : Nat
  /-- Type (R130). -/
  ty : Nat
  /-- Its command's address (R130). -/
  pc : Word
  /-- It drains the bank (R130). -/
  drain : Bool
  /-- Words read (R130). -/
  word : Nat
  /-- When it began (R130). -/
  began : Nat
  /-- Bytes read (R130). -/
  bytes : List Byte
  /-- It has not been dropped (R130). -/
  live : Bool
deriving DecidableEq, Repr, Inhabited

/-- A core (R94, R104, R121, R129, R338). -/
structure CoreSt where
  /-- Capabilities not fenced (R63, R97, R189). -/
  capMask : BitVec 24
  /-- MQ (R104). -/
  mq : List Cmd
  /-- VQ (R104). -/
  vq : List Cmd
  /-- LQ (R104). -/
  lq : List Cmd
  /-- SQ (R104). -/
  sq : List Cmd
  /-- Exchange queue (R338). -/
  xq : List Cmd
  /-- Commands the banister has not compared (R183). -/
  pending : List Cmd
  /-- Token FIFOs (R104). -/
  tokens : Tab (List Nat)
  /-- Unit that holds the sequencer (R95). -/
  holder : Option Nat
  /-- residency table (R129). -/
  res : Tab ResEntry
  /-- Change count (R129). -/
  resCount : BitVec 16
  /-- Loads on the load path (R130). -/
  loads : List Load
  /-- When the load path is free (R130). -/
  pathFree : Nat
  /-- Gradient accumulators (R136). -/
  grads : Tab GradAcc
  /-- Alcove slots (R125). -/
  alcove : Mem
  /-- Poisoned words of the alcove (R194). -/
  alcPoison : List Nat
  /-- Ticks of the last two events (R189). -/
  events : Tab (Option Nat × Option Nat)
  /-- Blocks fetched, and which are still valid past an IFENCE (R178). -/
  fetched : Tab (List Byte × Bool)
  /-- Prefetch buffer (R262). -/
  prefetch : List Nat
  /-- Address comparators (R346). -/
  comparators : List Nat
  /-- Next disagreements of the two sides, hidden state of the MODEL (R183, R184). -/
  diverge : List Nat
  /-- Errors the array is about to make, hidden state of the MODEL (R139, R188). -/
  checksum : List Strike
  /-- Known-answer test under way (R188). -/
  kat : Option (Nat × Nat)
  /-- Next class and core to be tested, kept at core 0 (R188). -/
  katNext : Nat
  /-- Contexts GSYNC released inside another's timed segment, whose turn comes at its close (R247). -/
  awaited : List Nat
  /-- Storage errors not yet met in its alcove, accumulators, weight banks, instruction cache and prefetch buffer (R191, R192). -/
  upsets : List (Nat × Nat)
deriving DecidableEq, Repr, Inhabited

/-- One copy engine (R329). -/
structure CopyEng where
  /-- Commands not started (R329). -/
  buffer : List Cmd
  /-- Command on the main path (R329). -/
  mainPath : Option Cmd
  /-- Main-path command that is paused (R329). -/
  paused : Option Cmd
  /-- Paced commands (R329). -/
  channels : List Cmd
deriving DecidableEq, Repr, Inhabited

/-- A die's own state besides its cores. -/
structure DieSt where
  /-- Synchronisation page map (R163, R280). -/
  syncPages : Tab Nat
  /-- Layout-record cache (R335). -/
  records : Tab (List Byte)
  /-- Commands at the synchronisation engine (R340). -/
  sync : List Cmd
deriving DecidableEq, Repr, Inhabited

/-- A rent-table entry (Table 4.4) with the storage it names: state 0 FREE, 1 PAID, 2 GRACE, 3 RECLAIMED. -/
structure Rent where
  /-- The storage it names, the MODEL's own number (R72). -/
  space : Nat
  /-- Generation (R76). -/
  gen : Nat
  /-- Owner (R74, R76). -/
  owner : Nat
  /-- State (R76, R84). -/
  state : Nat
  /-- Tier (R72, R76). -/
  tier : Nat
  /-- Share (R75, R76). -/
  share : Nat
  /-- Parent entry of a sublet (R76, R81). -/
  parent : Nat
  /-- Granules (R76). -/
  size : Nat
  /-- It is a sublet (R76, R81). -/
  sub : Bool
  /-- First granule (R76). -/
  base : Nat
  /-- paid_until (R76, R80). -/
  paid : Nat
  /-- Escrow (R76, R80). -/
  escrow : Nat
  /-- Core of a tier-0 or tier-1 region (R76, R280). -/
  core : Nat
  /-- Bank or slot of a tier-0 region (R76, R280). -/
  item : Nat
  /-- Team it was granted to (R75). -/
  team : Nat
  /-- Generic address it is mapped at (R280, R281). -/
  addr : Nat
  /-- Ticks that a rebased paid-until tick lies before tick 0, the MODEL's own (R15, R48). -/
  lack : Nat
deriving DecidableEq, Repr, Inhabited

/-- A landing (R167, R168): who landed, when, how far, and who else has seen it from when (R170). -/
structure Landing where
  /-- Who landed (R168). -/
  uid : Nat
  /-- Where (R168). -/
  core : Nat
  /-- Landing tick (R168). -/
  tick : Nat
  /-- Scope (R168). -/
  scope : Scope
  /-- Pulse of the landing, the MODEL's own (R175). -/
  pulse : Nat
  /-- Contexts its scope includes (R169, Table 8.4). -/
  incl : List Nat
  /-- Contexts that have seen it since, and when (R170). -/
  seen : List (Nat × Nat)
deriving DecidableEq, Repr, Inhabited

/-- One byte of a write to a shared place, with the value it replaced (R169, R174). -/
structure Hist where
  /-- The region (R169). -/
  space : Nat
  /-- The byte (R169). -/
  off : Nat
  /-- Value it replaced (R169). -/
  old : Byte
  /-- Perform tick (R169, R174). -/
  tick : Nat
  /-- Its landing (R169). -/
  landing : Option Nat
  /-- Pulse of the write, the MODEL's own (R175). -/
  pulse : Nat
deriving DecidableEq, Repr, Inhabited

/-- A mapped range of a virtual device's global window (R280): ref is the rent entry, or a host page when host. -/
structure Mapping where
  /-- First address (R93, R280). -/
  first : Nat
  /-- 64 KiB pages (R93, R280). -/
  pages : Nat
  /-- The rent entry that backs it (R93, R280). -/
  ref : Nat
  /-- Host memory backs it (R33, R93). -/
  host : Bool
  /-- The host address that backs it (R33). -/
  hostAddr : Nat
  /-- Its pages are 2 MiB pages: 32 of 64 KiB with one dirty bit (R161, R336). -/
  large : Bool
deriving DecidableEq, Repr, Inhabited

/-- A submission queue's registers (Tables 2.2 to 2.4). -/
structure Queue where
  /-- sq_tail (R27, Table 2.2). -/
  sqTail : BitVec 32
  /-- sq_head (R27, Table 2.2). -/
  sqHead : BitVec 32
  /-- cq_head (R27, Table 2.2). -/
  cqHead : BitVec 32
  /-- cq_tail (R27, Table 2.2). -/
  cqTail : BitVec 32
  /-- qctl.enable (R27, Table 2.3). -/
  enable : Bool
  /-- qctl.drain (R27, Table 2.3). -/
  drain : Bool
  /-- qctl.irq_en (R27, Table 2.3). -/
  irqEn : Bool
  /-- qctl.coalesce (R27, Table 2.3). -/
  coalesce : BitVec 8
  /-- qctl.msix_vector (R27, Table 2.3). -/
  vector : BitVec 11
  /-- qstat.error (R27, Table 2.4). -/
  error : Bool
  /-- qstat.code (R27, Table 2.4). -/
  code : BitVec 5
  /-- qstat.bad_seq (R27, Table 2.4). -/
  badSeq : BitVec 32
  /-- Completions since the last vector (R27, Table 2.3). -/
  since : Nat
  /-- Tick at which cq_tail last moved (R27, Table 2.3). -/
  moved : Nat
deriving DecidableEq, Repr, Inhabited

/-- A dependence entry of a record (Table 3.2). -/
structure Dep where
  /-- Sq count (R50, Table 3.2). -/
  seq : Nat
  /-- Queue (R50, Table 3.2). -/
  queue : Nat
  /-- Kind (R50, Table 3.2). -/
  kind : Nat
deriving DecidableEq, Repr, Inhabited

/-- A bucket entry (Table 3.3). -/
structure Bucket where
  /-- Capacity (R66, Table 3.3). -/
  cap : Nat
  /-- Cost (R66, Table 3.3). -/
  cost : Nat
  /-- Schedule offset (R66, Table 3.3). -/
  sched : Nat
  /-- Extra granules (R66, R67, Table 3.3). -/
  extra : Nat
deriving DecidableEq, Repr, Inhabited

/-- A launch record (Table 3.1). -/
structure LaunchRec where
  /-- code_handle (R49). -/
  codeHandle : Nat
  /-- Entry offset (R49). -/
  entry : Nat
  /-- Priority (R49). -/
  priority : Nat
  /-- Early-read checker on (R49, R113). -/
  early : Bool
  /-- Team level (R49, R53). -/
  teamLevel : Nat
  /-- Place level (R49, R58). -/
  placeLevel : Nat
  /-- WID field widths (R49, R52). -/
  widths : List Nat
  /-- First WID (R49, R51). -/
  widFirst : Nat
  /-- Last WID (R49, R51). -/
  widLast : Nat
  /-- use.mask (R49, R97). -/
  useMask : BitVec 24
  /-- Budget (R49, R54). -/
  budget : Nat
  /-- init_ptr (R49, R57). -/
  initPtr : Nat
  /-- Valid view images (R49, R57). -/
  viewValid : BitVec 16
  /-- Valid stream images (R49, R57). -/
  streamValid : BitVec 16
  /-- Scratchpad granules (R49, R58). -/
  spadGranules : Nat
  /-- Alcove slots (R49, R58). -/
  alcoveSlots : Nat
  /-- Private pages (R49, R58). -/
  privPages : Nat
  /-- grant_ticks (R49, R59). -/
  grantTicks : Nat
  /-- n_buckets (R49, R66). -/
  nBuckets : Nat
  /-- Dependences (R49, R50). -/
  deps : List Dep
  /-- Buckets (R49, R66). -/
  buckets : List Bucket
  /-- done_word (R49, R70). -/
  doneWord : Nat
deriving DecidableEq, Repr, Inhabited

/-- A completion record (Table 2.5). -/
structure Completion where
  /-- Its queue (R31). -/
  queue : Nat
  /-- sq_seq (R31). -/
  seq : Nat
  /-- Status (R31). -/
  status : Nat
  /-- Cause (R31). -/
  cause : Nat
  /-- end_tick (R31). -/
  endTick : Nat
  /-- units_done (R31). -/
  unitsDone : Nat
  /-- trunc_count (R31). -/
  trunc : Nat
  /-- fault_info (R31). -/
  info : Nat
deriving DecidableEq, Repr, Inhabited

/-- An entered launch: stage 0 its block is unread, 1 read, 3 it ends when the teams that run have (R57). stagedAt counts
its staging copies. -/
structure Launch where
  /-- Its virtual device (R49). -/
  vd : Nat
  /-- Its queue (R49). -/
  queue : Nat
  /-- Its sq count (R49). -/
  seq : Nat
  /-- Its priority level (R60). -/
  level : Nat
  /-- Its record (R49). -/
  body : LaunchRec
  /-- Block unread, read, ends with the teams that run, contexts stop, engines have stopped (R57, R197): 0, 1, 3, 4, 5. -/
  stage : Nat
  /-- view images of its block (R57). -/
  viewImgs : Tab (BitVec 128)
  /-- Stream images of its block (R57). -/
  streamImgs : Tab (BitVec 384)
  /-- Copies it is staged by: source, destination, bytes (R56). -/
  stagings : List (Nat × Nat × Nat)
  /-- Staging copies not yet over (R56). -/
  stagedAt : Nat
  /-- Staging is done (R56). -/
  staged : Bool
  /-- Units finished (R54). -/
  unitsDone : Nat
  /-- Truncation records (R333). -/
  trunc : Nat
  /-- Units not yet over (R54). -/
  unitsLeft : Nat
  /-- Rent entry of the mezzanine page that holds its staging count (R56). -/
  stageRef : Nat
  /-- Its end has taken effect on done_word and on what depends on it (R32, R50, R70). -/
  effected : Bool
  /-- A take-over holds its end back (R71). -/
  postponed : Bool
  /-- Pages of its streams that regions have backed (R57). -/
  backed : List Nat
  /-- A team has issued (R55). -/
  issued : Bool
  /-- How it ended (R31, R197). -/
  status : Option Nat
  /-- Cause of its first fault (R31, R197). -/
  cause : Nat
  /-- Tval of its first fault, or how its staging was cut (R31, R197). -/
  info : Nat
  /-- Tick of its end (R31). -/
  endTick : Nat
  /-- A debugger is attached (R252, R346). -/
  attached : Bool
deriving DecidableEq, Repr, Inhabited

/-- A team, a scoreboard entry: state 0 waiting, 1 running, 2 being saved, 3 descheduled, 4 done, 5 being restored. -/
structure Team where
  /-- Its launch (R53, R55). -/
  launch : Nat
  /-- First WID (R53). -/
  first : Nat
  /-- Its units in logical order (R53). -/
  units : List Nat
  /-- Units it issues with (R53). -/
  size : Nat
  /-- State (R55, R61). -/
  state : Nat
  /-- Where it is placed (R58). -/
  gallery : Nat
  /-- When it was last issued (R60). -/
  issueTick : Nat
  /-- When it was stopped (R61, R98). -/
  stopTick : Nat
  /-- wait_start (R62, Table 3.5). -/
  waitStart : Option Nat
  /-- When it aged (R62, Table 3.5). -/
  aged : Option Nat
  /-- Units that have arrived (R247). -/
  gsync : List Nat
  /-- Release tick (R247). -/
  gsyncAt : Option Nat
  /-- Units that have executed DISPATCH (R340). -/
  dispatch : List Nat
  /-- Work lists not yet taken (R66, R340). -/
  plan : List (Nat × Work)
  /-- Buckets the claim dropped (R67, R340). -/
  dropped : Nat
  /-- Regions the plan claimed (R67). -/
  claims : List Nat
  /-- A plan stands (R340). -/
  planned : Bool
  /-- Its slice has ended while it is being restored (R61). -/
  leaving : Bool
deriving DecidableEq, Repr, Inhabited

/-- A code-region entry (R45). -/
structure Code where
  /-- Generation (R45). -/
  gen : Nat
  /-- Global address (R45). -/
  base : Nat
  /-- Bytes (R45). -/
  size : Nat
  /-- The entry is taken (R45). -/
  used : Bool
deriving DecidableEq, Repr, Inhabited

/-- A rent entry as a move or a migration carries it, with its bytes, words, poison and handles (R64, Table 2.11). -/
structure CarriedRent where
  /-- The entry it had (R47, R64). -/
  ref : Nat
  /-- The entry (R47, R64). -/
  body : Rent
  /-- Its contents (R47, R64). -/
  bytes : Mem
  /-- Its synchronisation words (R47, R64). -/
  words : List (Nat × Bool)
  /-- Its poisoned words (R194). -/
  poison : List Nat
  /-- Handles that name it (R280). -/
  handles : List Nat
  /-- Its objects that atomics targeted (R86). -/
  targets : List Nat
  /-- Ranges of it that were sublet: first, granules, the former subtenant's context or 0 for all of them, the sublessor (R75, R86). -/
  former : List (Nat × Nat × Nat × Nat)
deriving DecidableEq, Repr, Inhabited

/-- A virtual device (Tables 2.6 to 2.9): state 0 FREE, 1 READY, 2 RUNNING, 3 FROZEN, 4 IMPORTING. -/
structure VDev where
  /-- State (R39, Table 2.9). -/
  state : Nat
  /-- A migration out of the module is under way (R46, Table 2.9). -/
  tracking : Bool
  /-- A command runs (R40, Table 2.9). -/
  busy : Bool
  /-- result of the last command (R40, Table 2.9). -/
  result : Nat
  /-- Number of the last command (R40, Table 2.9). -/
  cmd : Nat
  /-- Node field (R40, Table 2.9). -/
  node : BitVec 12
  /-- Allowance (R73, Table 2.8). -/
  allowance : Nat
  /-- slice_log2 (Table 2.8). -/
  sliceLog2 : Nat
  /-- priority_max (Table 2.8). -/
  priorityMax : Nat
  /-- max_inflight (Table 2.8). -/
  maxInflight : Nat
  /-- core_quota (Table 2.8). -/
  coreQuota : Nat
  /-- dirty_count (R46, Table 2.8). -/
  dirtyCount : Nat
  /-- freeze_tick (R46, Table 2.8). -/
  freezeTick : Nat
  /-- dropped_writes (R46, Table 2.8). -/
  droppedWrites : Nat
  /-- Delta (R48, Table 2.8). -/
  delta : Int
  /-- Floors by tier and die (R41, Table 2.8). -/
  floors : Tab Nat
  /-- arg0 (Table 2.8). -/
  arg0 : Word
  /-- arg1 (Table 2.8). -/
  arg1 : Word
  /-- arg2 (Table 2.8). -/
  arg2 : Word
  /-- res0 (Table 2.8). -/
  res0 : Word
  /-- res1 (Table 2.8). -/
  res1 : Word
  /-- The queues' registers (R26, R27). -/
  queues : Tab Queue
  /-- The device MMU's mappings (R93). -/
  maps : List Mapping
  /-- 64 KiB pages the host owns (R33). -/
  hostOwned : List Nat
  /-- Pages dirtied since the last round (R46, R196). -/
  dirty : List Nat
  /-- pr_head (R34, Table 2.6). -/
  prHead : BitVec 32
  /-- pr_tail (R34, Table 2.6). -/
  prTail : BitVec 32
  /-- Page-request ring (R34, Table 2.7). -/
  prRing : Tab (Nat × Nat × Nat)
  /-- Requests that wait for room in the ring (R37). -/
  prHeld : List (Nat × Nat × Nat)
  /-- Requests posted and not released (R34, R37). -/
  asked : List (Nat × Nat × Nat)
  /-- page_status (R36, Table 2.6). -/
  prStatus : Word
  /-- The claim that waits (R36). -/
  claim : Option Nat
  /-- page_release as last written (Table 2.6). -/
  released : Word
  /-- page_claim as last written (Table 2.6). -/
  claimed : Word
  /-- Code-region entries (R45). -/
  codes : Tab Code
  /-- Outcomes of completed launches (R50). -/
  outcomes : List (Nat × Nat × Nat)
  /-- Completions not yet written, in order (R32). -/
  withheld : List Completion
  /-- Deficit of each priority level (R60, Table 3.5). -/
  deficit : Tab Int
  /-- Where the slice began (R39, R61). -/
  sliceAt : Option Nat
  /-- The parameters the running slice took (R39, Table 2.8). -/
  limits : Nat × Nat × Nat × Nat
  /-- The final transfer has arrived (R47). -/
  received : Bool
deriving DecidableEq, Repr, Inhabited

/-- What a final transfer carries (Table 2.11), with every page as the rounds and the transfer leave it. -/
structure Transfer where
  /-- The device (R47). -/
  body : VDev
  /-- Its regions (R47). -/
  rents : List CarriedRent
  /-- Its contexts (R47). -/
  units : List Ctx
  /-- Its teams (R47). -/
  teams : Tab Team
  /-- Its launches (R47). -/
  launches : Tab Launch
  /-- Staging copies of its launches that have not started (R47, R56). -/
  copies : List Cmd
  /-- residency entries (R47). -/
  entries : List (Nat × Tab ResEntry)
  /-- Gradient accumulators (R47). -/
  grads : List (Nat × Tab GradAcc)
  /-- Its kick bits (R47). -/
  kicks : List Nat
  /-- Its queue window (R47). -/
  window : Mem
  /-- freeze_tick (R46, R48). -/
  freezeTick : Nat
deriving DecidableEq, Repr, Inhabited

/-- A journal entry (R68, Table 3.8). -/
structure JEntry where
  /-- Sequence number (R68). -/
  seq : Nat
  /-- Kind (R68). -/
  kind : Nat
  /-- Virtual device (R68). -/
  vd : Nat
  /-- Queue (R68). -/
  queue : Nat
  /-- Sq count (R68). -/
  sqSeq : Nat
  /-- The rest, as bytes (R68, Table 3.8). -/
  payload : List Byte
deriving DecidableEq, Repr, Inhabited

/-- The newel pair (R68 to R71). -/
structure Newel where
  /-- newel_active (R71, Table 1.8). -/
  active : Nat
  /-- Take-overs counted (R71, Table 3.10). -/
  takeovers : Nat
  /-- standby_ok (R71, Table 3.10). -/
  standbyOk : Bool
  /-- pair_state (R71, Table 3.10). -/
  pair : Nat
  /-- The journal, newest first (R68). -/
  journal : List JEntry
  /-- The journal's SRAM past its 64 bytes of control words: the ring of entries (R68, Table 3.8). -/
  sram : Mem
  /-- Where the next entry goes in the ring, the MODEL's own (R68). -/
  ringAt : Nat
  /-- Journal sequence of the last descriptor each gallery accepted (R69). -/
  accepted : Tab Nat
  /-- commit_seq (R68, Table 3.10). -/
  commitSeq : Nat
  /-- applied_seq (R68, Table 3.10). -/
  appliedSeq : Nat
  /-- oldest_seq (R68, Table 3.10). -/
  oldestSeq : Nat
  /-- End-report queue (R70). -/
  endReports : List Nat
  /-- Device last served at each level (R60). -/
  lastServed : Tab Nat
  /-- Fences committed in a take-over, core and class (Table 3.6). -/
  fences : List (Nat × Nat)
  /-- Both newels have failed (R71). -/
  failed : Bool
  /-- A newel is held in reset (R71). -/
  held : Bool
  /-- When the take-over goes on, the MODEL's own (R71). -/
  resumeAt : Nat
deriving DecidableEq, Repr, Inhabited

/-- A firmware image the boot ROM meets (R22). -/
structure Image where
  bytes : List Byte
  ecdsa : Bool
  lms : Bool
  version : Nat
  format : Bool
deriving DecidableEq, Repr, Inhabited

/-- An SPDM exchange (R24). -/
structure Spdm where
  /-- GET_VERSION has been answered (R24). -/
  version : Bool
  /-- GET_CAPABILITIES has been answered (R24). -/
  caps : Bool
  /-- NEGOTIATE_ALGORITHMS has been answered (R24). -/
  algs : Bool
  /-- Next one-time signing key (R24). -/
  lmsIndex : Nat
  /-- Error code of the last response, 0 for none (R24). -/
  code : Nat
  /-- The last response (R24). -/
  response : List Byte
deriving DecidableEq, Repr, Inhabited

/-- Boot status, measurements and attestation (R22 to R24). -/
structure Boot where
  /-- boot_done (R22, Table 1.8). -/
  done : Bool
  /-- fail_image (R22, Table 1.8). -/
  failImage : Nat
  /-- fail_check (R22, Table 1.8). -/
  failCheck : Nat
  /-- Measurement registers (R23). -/
  measures : List (BitVec 384)
  /-- The alias key boot has derived from the identity secret and the measurements (R23). -/
  aliasKey : List Byte
  /-- Its certificate, by the identity key (R23). -/
  aliasCert : List Byte
  /-- Lowest security versions in fuses (R22). -/
  fuses : List Nat
  /-- The firmware images the boot ROM meets (R22). -/
  images : List Image
  /-- The attestation exchange (R24). -/
  spdm : Spdm
deriving DecidableEq, Repr, Inhabited

/-- A packet of the node transport on its way (R21). -/
structure Packet where
  /-- Its sequence number (R21). -/
  id : Nat
  /-- The copy command it belongs to (R21, R331). -/
  cmd : Nat
  /-- The node it goes to (R21). -/
  node : Nat
  /-- The word of the copy (R21). -/
  addr : Nat
  /-- What it carries (R21). -/
  bytes : List Byte
  /-- Poisoned words it carries, as offsets in its bytes (R194). -/
  marks : List Nat
  /-- Times it was sent (R21). -/
  tries : Nat
deriving DecidableEq, Repr, Inhabited

/-- Links and the node transport (R19 to R21). -/
structure Links where
  /-- The host link is up (R16, R19). -/
  hostUp : Bool
  /-- Each CXL link is up (R11, R20). -/
  cxlUp : List Bool
  /-- Each pool link runs IDE in containment mode (R20, Table 1.6). -/
  ide : List Bool
  /-- Each scale-out port is up (R12, R21). -/
  ethUp : List Bool
  /-- Error counters of the links (R25, Table 1.7). -/
  errors : Tab Nat
  /-- Pool extents of each die (R20, R41). -/
  extents : Tab (List (Nat × Nat))
  /-- Packets that await an acknowledgement (R21). -/
  packets : List Packet
  /-- Sequence numbers received, for duplicates (R21). -/
  seenSeq : List Nat
  /-- What has left the module (read data, packets), the MODEL's own (R21, R33). -/
  sent : List (Nat × Nat × List Byte × List Nat)
deriving DecidableEq, Repr, Inhabited

/-- Clocks, domains and power (R4, R14 to R17). -/
structure Clock where
  /-- Tick counter of each die, equal inside a domain (R4, R14). -/
  ticks : List Nat
  /-- Clock pulses since power-on, the MODEL's own wall clock (R4, R16). -/
  pulses : Nat
  /-- dom_start as written (R14, Table 1.4). -/
  domStart : BitVec 8
  /-- The domain starts in force (R14, Table 1.4). -/
  dom : BitVec 8
  /-- swallow_ratio of each domain, kept at its lowest die (R16, R17). -/
  ratios : List Nat
  /-- Swallowed pulses counted (R17). -/
  swallowed : List Nat
  /-- Pulses swallowed in the aligned 64-pulse window, the MODEL's own (R16). -/
  window : List Nat
  /-- power_limit (R17, Table 1.9). -/
  powerLimit : BitVec 16
  /-- power_now (R17, Table 1.9). -/
  powerNow : BitVec 16
  /-- power_alarm (R16, R17). -/
  alarm : Bool
  /-- Pulse at which the alarm rose, the MODEL's own (R16). -/
  alarmAt : Nat
  /-- The board's supply is on (R16). -/
  supply : Bool
deriving DecidableEq, Repr, Inhabited

/-- Reliability, fault and truncation logs (R186, R187, R333): newest first, with their write counts. -/
structure Logs where
  /-- Reliability log (R186). -/
  rel : List (List Byte)
  /-- Its write count (R186). -/
  relCount : Nat
  /-- Fault log (R187). -/
  fault : List (List Byte)
  /-- Its write count (R187). -/
  faultCount : Nat
  /-- Truncation mirror (R333). -/
  trunc : List (List Byte)
  /-- Its write count (R333). -/
  truncCount : Nat
deriving DecidableEq, Repr, Inhabited

/-- What a buffer instruction does to an entry at E + 1 (R114, R115, R275, R276): declares or undeclares it, takes it from one state to
another, or releases it. -/
inductive BufOp
  | declare (b : Buf) (target : Nat)
  | undeclare
  | acquire (need next : Nat)
  | release
deriving DecidableEq, Repr, Inhabited

/-- Effects that perform at a later tick (R109). Bytes travel with the offsets of poisoned 8-byte words (R194). -/
inductive Eff where
  | bank (uid off : Nat) (bs : List Byte) (ps : List Nat)
  | pred (uid n : Nat) (mask val : Word)
  | tags (uid first : Nat) (vs : List (BitVec 16))
  | flags (uid : Nat) (v : BitVec 3)
  | alcove (core off : Nat) (bs : List Byte) (ps : List Nat)
  | oqEntry (uid q : Nat) (bs : List Byte) (ps : List Nat)
  | store (uid addr : Nat) (bs : List Byte) (ps : List Nat)
  | write (uid space off : Nat) (bs : List Byte) (ps : List Nat)
  | nibble (uid space off half val : Nat)
  | count (uid addr n : Nat)
  | micro (core q id : Nat)
  | copyStep (eng id : Nat)
  | sync (uid : Nat) (o : SyncOp)
  | result (uid : Nat) (o : SyncOp) (v : Word)
  | land (uid : Nat) (sc : Scope) (bytes : List FByte) (perf : Nat) (op : Option SyncOp)
  | row (uid off ty : Nat) (acc wrap : Bool) (xv : Option Nat) (x : List Byte) (w : Mem) (ps : List Nat) (ups : List (Nat × Nat))
  | grad (core bank : Nat) (x dy : List (BitVec 32)) (ups : List (Nat × Nat)) (bad : List Nat)
  | drainRow (core id k : Nat)
  | slot (core id : Nat)
  | rent (uid : Nat) (i : Instr) (args : List Word) (dst : List Nat) (pc : Word)
  | loadWord (core ld : Nat)
  | xword (k : Cmd) (rx ch j : Nat) (bs : List Byte) (ps : List Nat)
  | wake (uid : Nat)
  | buffer (uid n : Nat) (op : BufOp)
deriving DecidableEq, Repr, Inhabited

/-- A page that firmware retires (R93): its storage and number there, whether its switch window is open, and the dirty map of the
old frame's lines. -/
structure Retiring where
  /-- The region's storage (R93). -/
  space : Nat
  /-- The page in it (R93). -/
  page : Nat
  /-- Its switch window is open (R93). -/
  window : Bool
  /-- 256-byte lines written since they were copied (R93). -/
  lines : List Nat
deriving DecidableEq, Repr, Inhabited

/-- What is due: an event of the opcode table or an effect. -/
inductive Act where
  | ins (i : Instr)
  | eff (e : Eff)
deriving DecidableEq, Repr, Inhabited

/-- An entry of the agenda: on die's clock (8: pulses), at a tick, in the phase of R85 and R174, by a command; older where what led
to it was issued before the unit's open idem region (R119). -/
structure Ev where
  die : Nat
  tick : Nat
  phase : Nat
  uid : Nat
  own : Nat
  act : Act
  older : Bool
deriving DecidableEq, Repr, Inhabited

/-- An access of the outside world to a register it addresses: a management-window offset, or a field of an attestation
request, with its value. -/
structure Port where
  off : Nat
  val : Word
deriving DecidableEq, Repr, Inhabited

/-- Something the outside world does, at a pulse: the access it carries, if any, and the event it is; with it, the errors a core's
array is about to make and the ones its sequencer and banister are (log entry 16). -/
structure Input where
  pulse : Nat
  port : Port
  ins : Instr
  strikes : List (Nat × Strike)
  slips : List (Nat × Nat)
deriving DecidableEq, Repr, Inhabited

/-- The state of the module. mem holds every rented byte at space × 2^41 + offset, where space is the number of the region's
storage; words lists the 16-byte objects used as synchronisation words (false) or barriers (true). -/
structure State where
  /-- Clocks and power (R4, R14 to R17). -/
  clock : Clock
  /-- The context that executes now, the MODEL's own (n = 1) (R94). -/
  cx : Option Ctx
  /-- Every context (R94). -/
  units : Tab Ctx
  /-- Cores (R1, R94). -/
  cores : Tab CoreSt
  /-- Dies (R1, R163). -/
  dies : Tab DieSt
  /-- Copy engines (R329). -/
  engines : Tab CopyEng
  /-- Rent tables by die, table and index (R76, R77). -/
  rents : Tab Rent
  /-- Old handles and the entries they lead to (R280). -/
  moved : List (Nat × Nat)
  /-- Ranges whose sublet has ended: storage, first granule in it, granules, device, the former subtenant's context or, for
  principal 0, 0, and the sublessor's owner number (R75, R81, R86). -/
  ended : List (Nat × Nat × Nat × Nat × Nat × Nat)
  /-- Scratchpad, mezzanine, module and pooled memory (R72, R92). -/
  mem : Mem
  /-- Poisoned 8-byte words of memory (R194). -/
  memPoison : List (Nat × Nat)
  /-- 16-byte objects in use as synchronisation words or barriers (n = 19) (R115, R271). -/
  words : List (Nat × Nat × Bool)
  /-- 16-byte objects that an atomic has targeted (R86). -/
  targets : List (Nat × Nat)
  /-- Values that writes of shared bytes replaced (R169, R174). -/
  hist : List Hist
  /-- Landings made (R167 to R170). -/
  landings : List Landing
  /-- Lines of 256 bytes marked for scrub: storage, first line, lines (R92). -/
  scrub : List (Nat × Nat × Nat)
  /-- Pages being retired (R93). -/
  retiring : List Retiring
  /-- The frame that replaced a page's, by storage × 2^25 + page (R93). -/
  frames : Tab Nat
  /-- Storage errors not yet met in scratchpad, mezzanine, record caches and the newel's memories (n = 15) (R191, R192). -/
  upsets : List (Nat × Nat)
  /-- Bytes of counted transfers whose word has not reached its target (R113, R115). -/
  late : List (Nat × Nat × Nat × Nat × Nat)
  /-- Scoreboard (R55). -/
  teams : Tab Team
  /-- Entered launches (R49). -/
  launches : Tab Launch
  /-- Virtual devices (R38, R39). -/
  vds : Tab VDev
  /-- Final transfers on their way in (R47). -/
  incoming : Tab Transfer
  /-- Transfers sent, by node (R47). -/
  outgoing : List (Nat × Transfer)
  /-- Kick bitmap (R29). -/
  kicks : List Nat
  /-- Vectors raised (R27, R31). -/
  vectors : List (Nat × Nat)
  /-- Queue window (R26). -/
  window : Mem
  /-- Host memory behind host pages (R33, R34). -/
  hostMem : Mem
  /-- Newel pair (R68 to R71). -/
  newel : Newel
  /-- Boot and attestation (R22 to R24). -/
  boot : Boot
  /-- Links (R19 to R21). -/
  links : Links
  /-- Logs (R186, R187, R333). -/
  logs : Logs
  /-- Effects and events due, the MODEL's own (n = 5) (R85, R109, R174). -/
  agenda : List Ev
  /-- What the outside world does, the MODEL's own (n = 12) (R19, R27). -/
  inputs : List Input
  /-- The access that is being made, the MODEL's own (n = 12) (R25, R38). -/
  port : Port
  /-- Next number of a unit, command, launch or team, the MODEL's own (R104). -/
  nextId : Nat
  /-- Next number of a region's storage, the MODEL's own (R72). -/
  nextSpace : Nat
  /-- Free values taken so far, the MODEL's own (n = 2) (R18, R92). -/
  free : Nat
deriving DecidableEq, Repr, Inhabited

/-- The image of vw0 at reset: kind 1, first 0, count 64, base 0x400, stride 256 (R100). -/
def vectorView : BitVec 128 :=
  (1 : BitVec 4) ++ (0 : BitVec 6) ++ (64 : BitVec 7) ++ (0 : BitVec 8) ++ (0 : BitVec 7) ++ (0 : BitVec 12)
    ++ (256 : BitVec 20) ++ (0 : BitVec 39) ++ (0 : BitVec 6) ++ (0x400 : BitVec 19)

/-- A context before issue: all zero but vw0 (R59, R100). -/
def Ctx.reset : Ctx := { (default : Ctx) with views := [(0, vectorView)] }

/-- A core after reset: no capability fenced (log entry 3), everything empty. -/
def CoreSt.reset : CoreSt := { (default : CoreSt) with capMask := 0xFFFFFF }

/-- A queue after reset (Tables 2.2 to 2.4). -/
def Queue.reset : Queue := default

/-- A virtual device before CREATE (Tables 2.8, 2.9). -/
def VDev.reset : VDev :=
  { (default : VDev) with
    sliceLog2 := 22, priorityMax := 3, maxInflight := 256, coreQuota := 1024, limits := (22, 3, 256, 1024) }

/-- Clocks after reset (R14, R17, Table 1.4). -/
def Clock.reset : Clock :=
  { ticks := List.replicate 8 0, pulses := 0, domStart := 1, dom := 1, ratios := List.replicate 8 0,
    swallowed := List.replicate 8 0, window := List.replicate 8 0, powerLimit := 0x0E74, powerNow := 0,
    alarm := false, alarmAt := 0, supply := true }

/-- Firmware images that verify, with security version 0 (log entry 13). -/
def Image.good : Image := { bytes := [], ecdsa := true, lms := true, version := 0, format := true }

/-- Boot state before the boot ROM has run (Table 1.8). -/
def Boot.reset : Boot :=
  { done := false, failImage := 0, failCheck := 0, measures := List.replicate 8 0, fuses := [0, 0, 0],
    aliasKey := [], aliasCert := [], images := List.replicate 3 Image.good, spdm := default }

/-- Links after reset: all up, IDE on (log entry 3). -/
def Links.reset : Links :=
  { (default : Links) with
    hostUp := true, cxlUp := List.replicate 16 true, ide := List.replicate 8 true, ethUp := List.replicate 16 true }

/-- The newel pair after reset: newel 0 active, LIVE (Tables 1.8, 3.10). -/
def Newel.reset : Newel := default

/-- The module right after reset: boot has not run, nothing is listed in memory, the first event due is the boot ROM's
(MODULE_RESET, R22), and no program is present. -/
def State.reset : State :=
  { (default : State) with
    clock := Clock.reset
    boot := Boot.reset
    links := Links.reset
    newel := Newel.reset
    agenda := [{ die := 8, tick := 0, phase := 18, uid := 0, own := 0, act := .ins .moduleReset, older := false }]
    nextId := 1
    nextSpace := 1
    free := 0 }

end Sys2Proof.Machine
end

