-- ==== Sys2Proof/Machine/Mem.lean ====
section
/-!
DEFINITION. Sparse tables and byte memory in canonical form, and the byte order of the device (R198: little-endian).
-/
set_option linter.unusedVariables false
namespace Sys2Proof.Machine
open Sys2Proof

/-- The entry of key k. -/
def tget {α : Type} : Tab α → Nat → Option α
  | [], _ => none
  | (k, v) :: r, n => if k = n then some v else tget r n

/-- Sets the entry of key n, keeping the keys rising. -/
def tset {α : Type} : Tab α → Nat → α → Tab α
  | [], n, v => [(n, v)]
  | (k, w) :: r, n, v => if n < k then (n, v) :: (k, w) :: r else if k = n then (n, v) :: r else (k, w) :: tset r n v

/-- Removes the entry of key n. -/
def tdel {α : Type} (t : Tab α) (n : Nat) : Tab α := t.filter (fun e => e.1 != n)

/-- Applies f to the entry of key n, or to d where there is none. -/
def tmod {α : Type} (t : Tab α) (n : Nat) (d : α) (f : α → α) : Tab α := tset t n (f ((tget t n).getD d))

/-- The byte at address a: 0 where nothing is listed (R92, log entry 4). -/
def Mem.read (m : Mem) (a : Nat) : Byte :=
  match m.find? (fun c => c.1 == a) with
  | some c => c.2
  | none => 0

/-- Cells of a run of bytes from address a, zeros left out. -/
def cellsOf : Nat → List Byte → Mem
  | _, [] => []
  | a, b :: bs => if b = 0 then cellsOf (a + 1) bs else (a, b) :: cellsOf (a + 1) bs

/-- Writes a run of bytes from address a. -/
def Mem.writeRun (m : Mem) (a : Nat) (bs : List Byte) : Mem :=
  m.filter (fun c => c.1 < a) ++ cellsOf a bs ++ m.filter (fun c => a + bs.length ≤ c.1)

/-- Writes one byte. -/
def Mem.write (m : Mem) (a : Nat) (b : Byte) : Mem := m.writeRun a [b]

/-- Writes every byte that a memory lists. -/
def Mem.join (m l : Mem) : Mem := l.foldl (fun m c => m.write c.1 c.2) m

/-- The n bytes from address a. -/
def Mem.readRun (m : Mem) (a n : Nat) : List Byte :=
  let w := m.filter (fun c => a ≤ c.1 && c.1 < a + n)
  (List.range n).map (fun i => Mem.read w (a + i))

/-- Canonical form: addresses strictly rising, no byte equal to what an unlisted address reads as. -/
def Mem.wf : Mem → Bool
  | [] => true
  | c :: r => c.2 != 0 && r.all (fun e => c.1 < e.1) && Mem.wf r

/-- The little-endian value of bytes. -/
def natOfBytes : List Byte → Nat
  | [] => 0
  | b :: r => b.toNat + 256 * natOfBytes r

/-- The n low bytes of a value, little-endian. -/
def bytesOfNat : Nat → Nat → List Byte
  | 0, _ => []
  | n + 1, v => BitVec.ofNat 8 v :: bytesOfNat n (v / 256)

/-- Bits [lo + n - 1 : lo] of a number. -/
def bitsOf (v lo n : Nat) : Nat := v / 2 ^ lo % 2 ^ n

/-- The two's complement value of the low w bits. -/
def signedOf (w v : Nat) : Int := if v % 2 ^ w < 2 ^ (w - 1) then (v % 2 ^ w : Nat) else (v % 2 ^ w : Nat) - (2 ^ w : Nat)

/-- The low w bits of an integer. -/
def wrapInt (w : Nat) (i : Int) : Nat := (i % (2 ^ w : Nat)).toNat

/-! ## Storage errors (R191; log entry 15)

An error is the bits it flips: 63:0 of a 64-bit word, 67:64 of its parity bits; with bit 68 set, of its group's vertical parity word. -/

/-- Data bits an error flips. -/
def dataFlips (e : Nat) : Nat := e % 2 ^ 64
/-- The error is in the vertical parity word. -/
def isVertical (e : Nat) : Bool := e / 2 ^ 68 % 2 == 1
/-- Parity bit i fails: it covers the data bits j with j mod 4 = i (R191). -/
def parityFails (e i : Nat) : Bool :=
  ((List.range 16).filter (fun j => e / 2 ^ (4 * j + i) % 2 == 1)).length % 2 != e / 2 ^ (64 + i) % 2
/-- A word with an error is flagged (R191). -/
def isFlagged (e : Nat) : Bool := (List.range 4).any (parityFails e)
/-- A data word's flips that no parity bit shows: a read returns them unmarked (Table 9.4). -/
def isSilent (e : Nat) : Bool := !isVertical e && !isFlagged e && dataFlips e != 0

/-- What a write of bytes lo to hi − 1 of a word leaves of its error: the flips of the other bytes, shown as the error was (log
entry 15). -/
def leftError (e lo hi : Nat) : Nat :=
  let d := dataFlips e % 2 ^ (8 * lo) + dataFlips e / 2 ^ (8 * hi) * 2 ^ (8 * hi)
  let par := (List.range 4).foldl (fun n i => n + (if parityFails d i then 2 ^ i else 0)) 0
  if d = 0 then 0 else d + (if isFlagged e then Nat.xor par 1 else par) * 2 ^ 64

/-- A write of n bytes at a gives the words it covers new parity (R191): their errors go. -/
def clearErrors (errs : List (Nat × Nat)) (a n : Nat) : List (Nat × Nat) :=
  errs.filterMap (fun u =>
    if isVertical u.2 || a + n ≤ u.1 || u.1 + 8 ≤ a then some u
    else
      let e := leftError u.2 (a - u.1) (min 8 (a + n - u.1))
      if e = 0 then none else some (u.1, e))

/-- The elements of a list in runs of n. -/
def chunks {α : Type} (n : Nat) : Nat → List α → List (List α)
  | 0, _ => []
  | k + 1, l => l.take n :: chunks n k (l.drop n)

/-- Replaces the elements of l from index i by xs. -/
def splice {α : Type} (l : List α) (i : Nat) (xs : List α) : List α := l.take i ++ xs ++ l.drop (i + xs.length)

/-- Element i of a list of numbers, 0 past its end. -/
def nth (l : List Nat) (i : Nat) : Nat := l.getD i 0

end Sys2Proof.Machine
end

