-- ==== Sys2Proof/Machine/Float.lean ====
section
/-!
DEFINITION. Number formats and their arithmetic (spec/07): every value is decoded to an exact dyadic number, computed
on exactly, and rounded once.
-/
set_option linter.unusedVariables false
namespace Sys2Proof.Machine
open Sys2Proof

/-- A decoded value: finite ones are (−1)^neg × m × 2^e, the sign kept for zero. -/
inductive Val where
  | nan
  | inf (neg : Bool)
  | fin (neg : Bool) (m : Nat) (e : Int)
deriving DecidableEq, Repr, Inhabited

/-- Rounding modes (R150). -/
inductive Rnd | rne | rtz | rup | rdn
deriving DecidableEq, Repr, Inhabited

def Rnd.ofCode (n : Nat) : Rnd :=
  match n with
  | 0 => .rne | 1 => .rtz | 2 => .rup | _ => .rdn

/-- Exponent width, fraction width, bias, largest finite code, whether there are infinities (Table 7.3). -/
structure Fmt where
  eb : Nat
  fb : Nat
  bias : Int
  maxCode : Nat
  infs : Bool
  nan : Nat
deriving DecidableEq, Repr, Inhabited

/-- The floating format of a type code (Table 7.3, R146). -/
def fmtOf (t : Nat) : Fmt :=
  match t with
  | 0x08 => ⟨11, 52, 1023, 0x7FEFFFFFFFFFFFFF, true, 0x7FF8000000000000⟩
  | 0x0A => ⟨5, 10, 15, 0x7BFF, true, 0x7E00⟩
  | 0x0B => ⟨8, 7, 127, 0x7F7F, true, 0x7FC0⟩
  | 0x0C => ⟨4, 3, 7, 0x7E, false, 0x7F⟩
  | 0x0D => ⟨5, 2, 15, 0x7B, true, 0x7E⟩
  | 0x0E => ⟨2, 1, 1, 0x7, false, 0⟩
  | _ => ⟨8, 23, 127, 0x7F7FFFFF, true, 0x7FC00000⟩

/-- The value of a float's bits (R145). -/
def decodeFloat (t bits : Nat) : Val :=
  let f := fmtOf t
  let neg := bitsOf bits (f.eb + f.fb) 1 == 1
  let e := bitsOf bits f.fb f.eb
  let m := bitsOf bits 0 f.fb
  let allOnes := e == 2 ^ f.eb - 1
  if t == 0x0C && e == 15 && m == 7 then .nan
  else if f.infs && allOnes then (if m == 0 then .inf neg else .nan)
  else if e == 0 then .fin neg m (1 - f.bias - f.fb)
  else .fin neg (2 ^ f.fb + m) (e - f.bias - f.fb)

/-- Exact 2-power scaling of a natural numerator and denominator: n ÷ d × 2^e as (n', d'). -/
def scaleRat (n d : Nat) (e : Int) : Nat × Nat :=
  if 0 ≤ e then (n * 2 ^ e.toNat, d) else (n, d * 2 ^ (-e).toNat)

/-- n ÷ d rounded to an integer in a mode, for a value of the given sign. -/
def roundDiv (mode : Rnd) (neg : Bool) (n d : Nat) : Nat :=
  let q := n / d
  let r := n % d
  match mode with
  | .rne => if 2 * r < d then q else if d < 2 * r then q + 1 else q + q % 2
  | .rtz => q
  | .rup => if r = 0 || neg then q else q + 1
  | .rdn => if r = 0 || !neg then q else q + 1

/-- ⌊log2 (n ÷ d × 2^e)⌋ for n, d > 0. -/
def floorLog2 (n d : Nat) (e : Int) : Int :=
  let l := (Nat.log2 n : Int) - Nat.log2 d
  let (a, b) := scaleRat n d (-l)
  (if b ≤ a then l else l - 1) + e

/-- Rounds (−1)^neg × n ÷ d × 2^e to a format: the bits, and whether it overflowed (Table 7.6). -/
def roundRat (t : Nat) (mode : Rnd) (neg : Bool) (n d : Nat) (e : Int) : Nat × Bool :=
  let f := fmtOf t
  let sgn := if neg then 2 ^ (f.eb + f.fb) else 0
  if n = 0 then (sgn, false)
  else
    let emin := 1 - f.bias
    let ee := max (floorLog2 n d e) emin
    let q := ee - f.fb
    let (a, b) := scaleRat n d (e - q)
    let k := roundDiv mode neg a b
    let code := ((ee - emin).toNat) * 2 ^ f.fb + k
    if code ≤ f.maxCode then (sgn + code, false)
    else
      let toInf := match mode with
        | .rne => true
        | .rtz => false
        | .rup => !neg
        | .rdn => neg
      if f.infs && t != 0x0D && toInf then (sgn + (2 ^ f.eb - 1) * 2 ^ f.fb, true) else (sgn + f.maxCode, true)

/-- The bits of ±infinity in a format that has one, else of ±largest finite (Table 7.6). -/
def infBits (t : Nat) (neg : Bool) : Nat :=
  let f := fmtOf t
  (if neg then 2 ^ (f.eb + f.fb) else 0) + (if f.infs then (2 ^ f.eb - 1) * 2 ^ f.fb else f.maxCode)

/-- Flags of aflags (Table 7.7) as a set of bits: 1 nv, 2 of, 4 isat. -/
abbrev Flg := BitVec 3

/-- A value rounded into a floating format, with its flags (R151). -/
def encodeFloat (t : Nat) (mode : Rnd) (v : Val) : Nat × Flg :=
  match v with
  | .nan => ((fmtOf t).nan, if t == 0x0E then 1 else 0)
  | .inf neg => (infBits t neg, if (fmtOf t).infs then 0 else 2)
  | .fin neg m e => let (b, o) := roundRat t mode neg m 1 e; (b, if o then 2 else 0)

/-- A value rounded to an integer in a mode. -/
def roundInt (mode : Rnd) (neg : Bool) (m : Nat) (e : Int) : Int :=
  let (a, b) := scaleRat m 1 e
  let k : Int := roundDiv mode neg a b
  if neg then -k else k

/-- Limits of an integer type (R143). -/
def intMin (t : Nat) : Int := if tySigned t then -(2 ^ (tyBits t - 1) : Nat) else 0
def intMax (t : Nat) : Int := if tySigned t then (2 ^ (tyBits t - 1) : Nat) - 1 else (2 ^ tyBits t : Nat) - 1

/-- An exact integer clipped to an integer type; isat says it was clipped (R143). -/
def satInt (t : Nat) (i : Int) : Nat × Flg :=
  if i < intMin t then (wrapInt (tyBits t) (intMin t), 4)
  else if intMax t < i then (wrapInt (tyBits t) (intMax t), 4)
  else (wrapInt (tyBits t) i, 0)

/-- The integer value of an element of an integer type. -/
def intOf (t bits : Nat) : Int :=
  if tySigned t then signedOf (tyBits t) bits else ((bits % 2 ^ tyBits t : Nat) : Int)

/-- An exact integer as a value. -/
def Val.ofInt (i : Int) : Val := .fin (i < 0) i.natAbs 0

/-- The value of an element of any element type. -/
def decodeElem (t bits : Nat) : Val := if tyInt t then Val.ofInt (intOf t bits) else decodeFloat t bits

/-- A value converted to a type (R151, Table 7.6). -/
def encodeElem (t : Nat) (mode : Rnd) (v : Val) : Nat × Flg :=
  if tyInt t then
    match v with
    | .nan => (0, 1)
    | .inf neg => (wrapInt (tyBits t) (if neg then intMin t else intMax t), 1)
    | .fin neg m e => satInt t (roundInt mode neg m e)
  else encodeFloat t mode v

/-- A finite value as mantissa and exponent of a signed dyadic. -/
def signedMant (neg : Bool) (m : Nat) : Int := if neg then -(m : Int) else m

/-- Exact sum of finite dyadics; an exact zero takes the IEEE sign of the mode. -/
def addFin (mode : Rnd) (n1 : Bool) (m1 : Nat) (e1 : Int) (n2 : Bool) (m2 : Nat) (e2 : Int) : Val :=
  let e := min e1 e2
  let i := signedMant n1 m1 * (2 ^ (e1 - e).toNat : Nat) + signedMant n2 m2 * (2 ^ (e2 - e).toNat : Nat)
  if i = 0 then
    (if m1 = 0 && m2 = 0 && n1 == n2 then .fin n1 0 0 else .fin (mode == .rdn) 0 0)
  else .fin (i < 0) i.natAbs e

/-- Exact sum (IEEE 754 addition before rounding). -/
def Val.add (mode : Rnd) (x y : Val) : Val :=
  match x, y with
  | .nan, _ | _, .nan => .nan
  | .inf a, .inf b => if a = b then .inf a else .nan
  | .inf a, _ => .inf a
  | _, .inf b => .inf b
  | .fin a m e, .fin b n f => addFin mode a m e b n f

/-- Exact product. -/
def Val.mul (x y : Val) : Val :=
  match x, y with
  | .nan, _ | _, .nan => .nan
  | .inf a, .inf b => .inf (a != b)
  | .inf a, .fin b n _ => if n = 0 then .nan else .inf (a != b)
  | .fin a m _, .inf b => if m = 0 then .nan else .inf (a != b)
  | .fin a m e, .fin b n f => .fin (a != b) (m * n) (e + f)

/-- Negation. -/
def Val.neg : Val → Val
  | .nan => .nan
  | .inf a => .inf (!a)
  | .fin a m e => .fin (!a) m e

def Val.isNan : Val → Bool
  | .nan => true
  | _ => false

/-- Compares two non-NaN values: −1, 0 or 1, with −0 = +0 (R289). -/
def Val.cmp (x y : Val) : Int :=
  match x, y with
  | .inf a, .inf b => if a = b then 0 else if a then -1 else 1
  | .inf a, _ => if a then -1 else 1
  | _, .inf b => if b then 1 else -1
  | .fin a m e, .fin b n f =>
    let g := min e f
    let i := signedMant a m * (2 ^ (e - g).toNat : Nat) - signedMant b n * (2 ^ (f - g).toNat : Nat)
    if i < 0 then -1 else if i = 0 then 0 else 1
  | _, _ => 0

/-- The sign of a value. -/
def Val.isNeg : Val → Bool
  | .nan => false
  | .inf a => a
  | .fin a _ _ => a

/-- x below y with −0 below +0 (R288). -/
def Val.below (x y : Val) : Bool := x.cmp y < 0 || (x.cmp y == 0 && x.isNeg && !y.isNeg)

/-- Rounds an exact f32 operation's result to f32 and decodes it again. -/
def r32 (v : Val) : Val := decodeFloat 9 (encodeFloat 9 .rne v).1

/-- T[j] = 2^(j/16) rounded to f32 (R156). -/
def exp2Table : List Nat :=
  [0x3F800000, 0x3F85AAC3, 0x3F8B95C2, 0x3F91C3D3, 0x3F9837F0, 0x3F9EF532, 0x3FA5FED7, 0x3FAD583F,
   0x3FB504F3, 0x3FBD08A4, 0x3FC5672A, 0x3FCE248C, 0x3FD744FD, 0x3FE0CCDF, 0x3FEAC0C7, 0x3FF5257D]

/-- ⌊m × 2^e⌋ of a signed dyadic. -/
def floorVal (neg : Bool) (m : Nat) (e : Int) : Int := roundInt .rdn neg m e

/-- 2^x in f32 (R156). -/
def exp2Bits (bits : Nat) : Nat :=
  match decodeFloat 9 bits with
  | .nan => 0x7FC00000
  | .inf neg => if neg then 0 else 0x7F800000
  | .fin neg m e =>
    if 0 ≤ Val.cmp (.fin neg m e) (.fin false 128 0) then 0x7F800000
    else if Val.cmp (.fin neg m e) (.fin true 150 0) < 0 then 0
    else
      let mm := floorVal neg m (e + 4)
      let j := (mm % 16).toNat
      let n := (mm - j) / 16
      let r := Val.mul (Val.add .rne (.fin neg m (e + 4)) (Val.ofInt (-mm))) (.fin false 1 (-4))
      let c k := decodeFloat 9 k
      let p := r32 (Val.add .rne (r32 (Val.mul (c 0x3D635847) r)) (c 0x3E75FDF0))
      let p := r32 (Val.add .rne (r32 (Val.mul p r)) (c 0x3F317218))
      let p := r32 (Val.mul p r)
      let t := decodeFloat 9 (nth exp2Table j)
      let y := r32 (Val.add .rne t (r32 (Val.mul t p)))
      (encodeFloat 9 .rne (Val.mul y (.fin false 1 n))).1

/-- 1/x in f32 (R157). -/
def rcpBits (bits : Nat) : Nat :=
  match decodeFloat 9 bits with
  | .nan => 0x7FC00000
  | .inf neg => if neg then 0x80000000 else 0
  | .fin neg 0 _ => infBits 9 neg
  | .fin neg m e =>
    let l := Nat.log2 m
    let mv : Val := .fin false m (-(l : Int))
    let j := (m * 128) / 2 ^ l - 128
    let y0 := decodeFloat 9 (roundRat 9 .rne false 256 (256 + 2 * j + 1) 0).1
    let step (y : Val) : Val :=
      let d := r32 (Val.add .rne (.fin false 1 0) (Val.mul mv y).neg)
      r32 (Val.add .rne y (Val.mul y d))
    let y := step (step y0)
    (encodeFloat 9 .rne (Val.mul (if neg then y.neg else y) (.fin false 1 (-(e + l))))).1

/-- x ÷ y rounded RNE to a type, for VCOMB (R160); the rules of IEEE 754 for its special cases. -/
def divBits (t : Nat) (x y : Val) : Nat :=
  match x, y with
  | .nan, _ | _, .nan => (fmtOf t).nan
  | .inf _, .inf _ => (fmtOf t).nan
  | .inf a, .fin b _ _ => infBits t (a != b)
  | .fin a _ _, .inf b => (roundRat t .rne (a != b) 0 1 0).1
  | .fin a m e, .fin b n f =>
    if n = 0 then (if m = 0 then (fmtOf t).nan else infBits t (a != b))
    else (roundRat t .rne (a != b) m n (e - f)).1

/-- The value of e2m1 code bits, with an extra value for 0b1000 (R147). -/
def decodeE2m1 (xv : Option Nat) (bits : Nat) : Val :=
  match xv with
  | some x => if bits % 16 = 8 then decodeFloat 0x0B x else decodeFloat 0x0E bits
  | none => decodeFloat 0x0E bits

/-- The code a conversion writes into e2m1: −0 as 0b0000 while the destination's extra value is on (R147). -/
def e2m1Code (xvEn : Bool) (bits : Nat) : Nat := if xvEn && bits = 8 then 0 else bits

/-- Element j of a bx block (R148): t is 0x0F for bx8, 0x10 for bx4. -/
def bxElem (t : Nat) (blk : List Byte) (j : Nat) : Val :=
  let ea := (blk.getD 0 0).toNat
  let eb := (blk.getD 1 0).toNat
  if ea = 0xFF || eb = 0xFF then .nan
  else if t = 0x0F then
    let b := (blk.getD (2 + j) 0).toNat
    let m := bitsOf b 0 6
    .fin (m != 0 && bitsOf b 6 1 == 1) m ((if bitsOf b 7 1 = 1 then eb else ea : Nat) - 132)
  else
    let b := bitsOf (blk.getD (2 + j / 2) 0).toNat (4 * (j % 2)) 4
    let m := bitsOf b 0 2
    .fin (m != 0 && bitsOf b 2 1 == 1) m ((if bitsOf b 3 1 = 1 then eb else ea : Nat) - 128)

/-- |x| in units of 2^u, rounded RNE and clipped to mmax, and its exact error as a numerator over a common power. -/
def bxQuant (mmax : Nat) (m : Nat) (e u : Int) : Nat :=
  let (a, b) := scaleRat m 1 (e - u)
  min (roundDiv .rne false a b) mmax

/-- | m 2^e − k 2^u | as an integer over 2^g, g at most e and u. -/
def bxErr (m : Nat) (e : Int) (k : Nat) (u g : Int) : Nat :=
  ((m * 2 ^ (e - g).toNat : Nat) - (k * 2 ^ (u - g).toNat : Nat) : Int).natAbs

/-- Sat(x, 0, 254) of R149. -/
def bxSat (x : Int) : Nat := if x < 0 then 0 else if 254 < x then 254 else x.toNat

/-- A block of 32 values converted to bx with split d (R149): its bytes and whether an element saturated. -/
def bxBlock (t d : Nat) (xs : List Val) : List Byte × Bool :=
  let bytes := if t = 0x0F then 34 else 18
  if xs.any Val.isNan then ((255 : Byte) :: 255 :: List.replicate (bytes - 2) 0, false)
  else
    let mags := xs.map (fun v => match v with | .inf _ => (Val.fin false 1 128) | .fin _ m e => .fin false m e | .nan => .fin false 0 0)
    let mx := mags.foldl (fun a b => if a.cmp b < 0 then b else a) (.fin false 0 0)
    match mx with
    | .fin _ 0 _ => (List.replicate bytes 0, false)
    | .fin _ m e =>
      let ea := bxSat (floorLog2 m 1 e + 127)
      let eb := bxSat ((ea : Int) - d)
      let off : Int := if t = 0x0F then 132 else 128
      let mmax := if t = 0x0F then 63 else 3
      let elem (v : Val) : Nat × Bool :=
        let neg := v.isNeg
        match v with
        | .inf _ => (mmax + (if neg then mmax + 1 else 0), true)
        | .fin _ m e =>
          let ua := (ea : Int) - off
          let ub := (eb : Int) - off
          let ka := bxQuant mmax m e ua
          let kb := bxQuant mmax m e ub
          let g := min e (min ua ub)
          let second := bxErr m e kb ub g < bxErr m e ka ua g
          let k := if second then kb else ka
          let u := if second then ub else ua
          let (a, b) := scaleRat m 1 (e - u)
          let sat := mmax < roundDiv .rne false a b
          (k + (if neg && k != 0 then mmax + 1 else 0) + (if second then 2 * (mmax + 1) else 0), sat)
        | .nan => (0, false)
      let es := xs.map elem
      let body := if t = 0x0F then es.map (fun p => BitVec.ofNat 8 p.1)
        else (List.range 16).map (fun i => BitVec.ofNat 8 ((es.getD (2 * i) (0, false)).1 + 16 * (es.getD (2 * i + 1) (0, false)).1))
      (BitVec.ofNat 8 ea :: BitVec.ofNat 8 eb :: body, es.any Prod.snd)
    | _ => (List.replicate bytes 0, false)

/-- The key of a bf16 or f32 pattern (R158, R299): w is 16 or 32. -/
def gateKey (w h : Nat) : Nat := if bitsOf h (w - 1) 1 = 1 then 2 ^ w - 1 - h % 2 ^ w else h % 2 ^ w + 2 ^ (w - 1)

/-- One chunk of R153: products of x and W summed as the array does. -/
def chunkSum (ps : List Val) : Val :=
  if ps.any Val.isNan || (ps.any (· == .inf true) && ps.any (· == .inf false)) then .nan
  else if ps.any (· == .inf true) then .inf true
  else if ps.any (· == .inf false) then .inf false
  else
    let es := ps.filterMap (fun p => match p with | .fin _ m e => if m = 0 then none else some (floorLog2 m 1 e) | _ => none)
    match es with
    | [] => .fin false 0 0
    | e0 :: r =>
      let q := r.foldl max e0 - 48
      let i : Int := (ps.map (fun p => match p with
        | .fin n m e => let k : Int := ((scaleRat m 1 (e - q)).1 / (scaleRat m 1 (e - q)).2 : Nat); if n then -k else k
        | _ => 0)).foldl (· + ·) 0
      if i = 0 then .fin false 0 0 else .fin (i < 0) i.natAbs q

/-- The f32 reduction of the floating 16-, 8- and 4-bit modes (R153): acc is the old f32 bits. -/
def reduceF (acc : Nat) (x w : List Val) : Nat :=
  let ps := (x.zip w).map (fun p => Val.mul p.1 p.2)
  (chunks 32 4 ps).foldl (fun a c =>
    (encodeFloat 9 .rne (Val.add .rne (decodeFloat 9 a) (chunkSum c))).1) acc

/-- The fused chain of f32 and f64 modes (R154, R124). -/
def reduceChain (t acc : Nat) (x w : List Val) : Nat :=
  (x.zip w).foldl (fun a p =>
    (encodeFloat t .rne (Val.add .rne (decodeFloat t a) (Val.mul p.1 p.2))).1) acc

/-- The integer modes (R155): the written i32 and whether it was clipped. -/
def reduceI (wrap : Bool) (acc : Int) (x w : List Int) : Nat × Flg :=
  let s := (x.zip w).foldl (fun a p => a + p.1 * p.2) acc
  if wrap then (wrapInt 32 s, 0) else satInt 2 s

end Sys2Proof.Machine
end

