-- ==== Sys2Proof/Machine/Ops.lean ====
section
/-!
DEFINITION. Named operations over state: components by number, registers and their names, bytes of storage, scheduling,
synchronisation words, and taking a fault, a trap and the return from one.
-/
set_option linter.unusedVariables false
namespace Sys2Proof.Machine
open Sys2Proof

/-- The outcome of a step or a meaning. -/
abbrev Out := Host.Outcome State Fault Refusal

/-- A fault an instruction raises: cause code of Table 12.11, ctx.tval, ctx.tinfo; loose where the manual gives no tval. -/
structure Trap where
  cause : Nat
  tval : Word
  tinfo : Word
  loose : Bool
deriving DecidableEq, Repr, Inhabited

/-- A result or a trap. -/
abbrev Res := Except Trap

/-- Raises a cause with tval and tinfo (R221). -/
def flt {α : Type} (cause : Nat) (tval : Word) (tinfo : Word := 0) : Res α := .error ⟨cause, tval, tinfo, false⟩

/-- Raises a cause whose tval the manual leaves open. -/
def fltOpen {α : Type} (cause : Nat) : Res α := .error ⟨cause, 0, 0, true⟩

def cILLEGAL : Nat := 0x01
def cUNDECLARED : Nat := 0x02
def cFENCED : Nat := 0x03
def cADDRESS : Nat := 0x04
def cWRONGCORE : Nat := 0x05
def cLAPSED : Nat := 0x06
def cBUFFER : Nat := 0x07
def cTAGMISS : Nat := 0x08
def cMISS : Nat := 0x09
def cDEADLINE : Nat := 0x0A
def cTIMING : Nat := 0x0B
def cEARLY : Nat := 0x0C
def cSLOT : Nat := 0x0D
def cTRANSLATION : Nat := 0x0E
def cPAGEHOST : Nat := 0x0F
def cUNCORR : Nat := 0x10
def cMISMATCH : Nat := 0x11
def cPOOL : Nat := 0x12
def cALIGN : Nat := 0x13
def cREGION : Nat := 0x14

/-! ## Components by number -/

def coreOf (s : State) (k : Nat) : CoreSt := (tget s.cores k).getD CoreSt.reset
def modCore (s : State) (k : Nat) (f : CoreSt → CoreSt) : State := { s with cores := tmod s.cores k CoreSt.reset f }
def dieOf (s : State) (k : Nat) : DieSt := (tget s.dies k).getD default
def modDie (s : State) (k : Nat) (f : DieSt → DieSt) : State := { s with dies := tmod s.dies k default f }
def engOf (s : State) (k : Nat) : CopyEng := (tget s.engines k).getD default
def modEng (s : State) (k : Nat) (f : CopyEng → CopyEng) : State := { s with engines := tmod s.engines k default f }
def vdOf (s : State) (k : Nat) : VDev := (tget s.vds k).getD VDev.reset
def modVd (s : State) (k : Nat) (f : VDev → VDev) : State := { s with vds := tmod s.vds k VDev.reset f }
def rentOf (s : State) (r : Nat) : Rent := (tget s.rents r).getD default
def modRent (s : State) (r : Nat) (f : Rent → Rent) : State := { s with rents := tmod s.rents r default f }
def teamOf (s : State) (k : Nat) : Team := (tget s.teams k).getD default
def modTeam (s : State) (k : Nat) (f : Team → Team) : State := { s with teams := tmod s.teams k default f }
def launchOf (s : State) (k : Nat) : Launch := (tget s.launches k).getD default
def modLaunch (s : State) (k : Nat) (f : Launch → Launch) : State := { s with launches := tmod s.launches k default f }

/-- The die and the package-wide gallery of a physical core (R2). -/
def dieOfCore (k : Nat) : Nat := k / 128
def galOfCore (k : Nat) : Nat := k / 8

/-- The tick counter of a die (R4). -/
def now (s : State) (die : Nat) : Nat := nth s.clock.ticks die

/-- The context of a unit: the executing one, or the one kept in the table. -/
def unitOf (s : State) (uid : Nat) : Option Ctx :=
  match s.cx with
  | some c => if c.uid = uid then some c else tget s.units uid
  | none => tget s.units uid

/-- Puts a context back where it is held. -/
def setUnit (s : State) (c : Ctx) : State :=
  match s.cx with
  | some x => if x.uid = c.uid then { s with cx := some c } else { s with units := tset s.units c.uid c }
  | none => { s with units := tset s.units c.uid c }

def modUnit (s : State) (uid : Nat) (f : Ctx → Ctx) : State :=
  match unitOf s uid with
  | some c => setUnit s (f c)
  | none => s

/-- Every context, the executing one as it now is. -/
def allUnits (s : State) : List Ctx :=
  match s.cx with
  | some x => if (tget s.units x.uid).isSome then s.units.map (fun e => if e.1 = x.uid then x else e.2)
      else x :: s.units.map Prod.snd
  | none => s.units.map Prod.snd

/-- The units of a team, as contexts, in logical order. -/
def teamUnits (s : State) (t : Nat) : List Ctx := (teamOf s t).units.filterMap (unitOf s)

/-- The tick of a context's domain. -/
def tickOf (s : State) (c : Ctx) : Nat := now s (dieOfCore c.core)

/-- A fresh number. -/
def fresh (s : State) : Nat × State := (s.nextId, { s with nextId := s.nextId + 1 })

/-- A number the device leaves open, below n (log entry 2). -/
def pick (s : State) (n : Nat) : Nat × State :=
  (Config.freeNat s.free % (if n = 0 then 1 else n), { s with free := s.free + 1 })

/-- A number of ticks the device leaves open (R18; log entry 7). -/
def openTicks (s : State) : Nat × State := (Config.freeNat s.free, { s with free := s.free + 1 })

/-! ## Scheduling -/

/-- Puts an act on the agenda. Phases within a tick follow R85 and R174: 0 AutoExtend, 1 sublet ends, 2 lapses, 3 grace
ends, 4 landed stores, 5 copy landings, 6 exchange landings, 7 MQ, 8 LQ, 9 VQ, 10 SQ, 11 sequencer stores,
12 synchronisation engine, 13 array and residency, 14 completions, 15 starts, 16 releases of waits, 17 budgets, slices
and ended launches, 18 newel and host. -/
def sched (s : State) (die tick phase uid own : Nat) (a : Act) : State :=
  { s with agenda := s.agenda ++ [⟨die, tick, phase, uid, own, a, false⟩] }

/-- Schedules on a context's clock, as an effect no command owns. -/
def schedC (s : State) (c : Ctx) (tick phase : Nat) (a : Act) : State :=
  sched s (dieOfCore c.core) tick phase c.uid 0 a

/-- Schedules an effect of a command on its core's clock. -/
def schedCmd (s : State) (k : Cmd) (tick phase : Nat) (e : Eff) : State :=
  sched s (dieOfCore k.core) tick phase k.uid k.id (.eff e)

/-- Schedules newel work d ticks of die 0 from now. -/
def schedNewel (s : State) (d : Nat) (i : Instr) : State := sched s 0 (now s 0 + d) 18 0 0 (.ins i)

/-! ## Registers -/

/-- The physical number of a rotating scalar or vector name (R209). -/
def rot (c : Ctx) (n : Nat) : Nat := if n < 32 then n else 32 + (n - 32 + c.rb.toNat) % 32
/-- The physical number of a rotating predicate name (R209). -/
def rotP (c : Ctx) (n : Nat) : Nat := if n < 96 then n else 96 + (n - 96 + c.rb.toNat) % 32

/-- n bytes of the register store at off (R99: bytes 0 to 7 are never written, and read zero). -/
def bankRead (c : Ctx) (off n : Nat) : List Byte := c.bank.readRun off n

/-- A write of the register store; bytes 0 to 7 ignore it (R99). It clears the poison of each 8-byte word it covers
whole and carries its own, and gives what it covers new parity (R191, R194). -/
def bankWrite (c : Ctx) (off : Nat) (bs : List Byte) (ps : List Nat) : Ctx :=
  let cut := 8 - off
  let whole w := off ≤ w && w + 8 ≤ off + bs.length
  { c with bank := c.bank.writeRun (off + cut) (bs.drop cut)
           bankPoison := c.bankPoison.filter (fun w => !whole w) ++ ps.map (fun p => off + p)
           upsets := clearErrors c.upsets off bs.length }

/-- Scalar n after the mapping of R209; s0 reads zero (R234). -/
def rdS (c : Ctx) (n : Nat) : Word :=
  if rot c n = 0 then 0 else BitVec.ofNat 64 (natOfBytes (bankRead c (8 * rot c n) 8))
/-- Writes physical scalar p; s0 discards it (R234). -/
def wrPhys (c : Ctx) (p : Nat) (v : Word) : Ctx := if p = 0 then c else bankWrite c (8 * p) (bytesOfNat 8 v.toNat) []
/-- Writes scalar n after the mapping of R209. -/
def wrS (c : Ctx) (n : Nat) (v : Word) : Ctx := wrPhys c (rot c n) v

/-- Physical predicate p: p0 reads all ones (R208). -/
def rdPhysP (c : Ctx) (p : Nat) : Word := if p = 0 then -1 else (tget c.preds p).getD 0
def rdP (c : Ctx) (n : Nat) : Word := rdPhysP c (rotP c n)
/-- Writes physical predicate p; p0 discards it. -/
def wrPhysP (c : Ctx) (p : Nat) (v : Word) : Ctx := if p = 0 then c else { c with preds := tset c.preds p v }
def wrP (c : Ctx) (n : Nat) (v : Word) : Ctx := wrPhysP c (rotP c n) v

def tagOf (c : Ctx) (t i : Nat) : Nat := ((tget c.tags (t * 128 + i)).getD 0).toNat
def viewReg (c : Ctx) (n : Nat) : BitVec 128 := (tget c.views n).getD 0
def streamReg (c : Ctx) (n : Nat) : BitVec 384 := (tget c.streams n).getD 0

/-- The owner number of a context (R74). -/
def ownerOf (c : Ctx) : Nat := c.vd * 65536 + c.principal

/-- The unit's launch record. -/
def recOf (s : State) (c : Ctx) : LaunchRec := (launchOf s c.launch).body

/-- Field f (0 to 5) of a WID (R52). -/
def widField (r : LaunchRec) (w f : Nat) : Nat := bitsOf w ((r.widths.drop (f + 1)).foldl (· + ·) 0) (nth r.widths f)

/-! ## Storage -/

/-- The address in mem of a space's offset. -/
def locOf (space off : Nat) : Nat := space * 2 ^ 41 + off

/-- Where an address leads: the space and offset of the byte, its rent entry, its window (0 global, 1 private, 2 own
scratchpad, 4 another core's scratchpad, 5 synchronisation space), tier, home die, the core of a scratchpad, and the host
page bit. -/
structure Place where
  space : Nat
  off : Nat
  ref : Nat
  win : Nat
  tier : Nat
  die : Nat
  core : Nat
  host : Bool
deriving DecidableEq, Repr, Inhabited

/-- Kinds of access, for Table 5.8. -/
inductive Access | load | store | none
deriving DecidableEq, Repr, Inhabited

/-- The rent entry's parts of a reference: die, table, index (R77). -/
def refOf (die table index : Nat) : Nat := die * 2 ^ 19 + table * 2 ^ 17 + index
def refDie (r : Nat) : Nat := r / 2 ^ 19
def refTable (r : Nat) : Nat := r / 2 ^ 17 % 4
def refIndex (r : Nat) : Nat := r % 2 ^ 17

/-- Granule bytes of a tier (Table 4.1), tier 0 by its table-0 item: banks first. -/
def granule (r : Rent) : Nat :=
  match r.tier with
  | 0 => if r.item < 4 then 524288 else 32768
  | 1 => 4096
  | _ => 65536
/-- Weight of a tier (Table 4.1). -/
def weight (t : Nat) : Nat :=
  match t with
  | 0 => 256 | 1 => 64 | 2 => 16 | 3 => 2 | _ => 1
/-- Bytes × weight of a region (R73). -/
def rate (r : Rent) : Nat := r.size * granule r * weight r.tier

/-- A generic address that decodes for a context (R161). -/
inductive Window2
  | bad | global (a : Nat) | priv (off : Nat) | spad (core off : Nat) | gallery (core off : Nat) | sync (die off : Nat)
deriving DecidableEq, Repr, Inhabited

/-- The window of an address by its bits alone (Table 8.1). -/
def windowOf (a : Word) : Window2 :=
  let v := a.toNat
  match bitsOf v 60 4 with
  | 0x0 => if bitsOf v 57 3 = 0 then .global v else .bad
  | 0xC => if bitsOf v 32 28 = 0 then .priv (bitsOf v 0 32) else .bad
  | 0xD => if bitsOf v 58 2 = 0 && bitsOf v 22 26 = 0 then .spad (bitsOf v 48 10) (bitsOf v 0 22) else .bad
  | 0xE => if bitsOf v 51 9 = 0 && bitsOf v 22 26 = 0 then .gallery (bitsOf v 48 3) (bitsOf v 0 22) else .bad
  | 0xF => if bitsOf v 51 9 = 0 && bitsOf v 24 24 = 0 then .sync (bitsOf v 48 3) (bitsOf v 0 24) else .bad
  | _ => .bad

/-- Check 1 of R162 for a context: private offsets lie in its area, gallery cores in its team (R161). -/
def windowFor (c : Ctx) (a : Word) : Window2 :=
  match windowOf a with
  | .priv off => if off < c.privPages * 65536 then .priv off else .bad
  | .gallery k off => if k < c.teamSize then .gallery k off else .bad
  | w => w

/-- The unit of c's team on logical core k. -/
def teamMate (s : State) (c : Ctx) (k : Nat) : Option Ctx :=
  if k = c.lcore then some c else (teamUnits s c.team).find? (fun u => u.lcore == k)

/-- The scratchpad region under a unit's offset. -/
def spadSpan (u : Ctx) (off : Nat) : Option Span :=
  u.spad.find? (fun p => p.first * 4096 ≤ off && off < (p.first + p.count) * 4096)

/-- The mapping that holds a global address of a virtual device. -/
def globalMap (v : VDev) (a : Nat) : Option Mapping :=
  v.maps.find? (fun m => m.first ≤ a && a < m.first + m.pages * 65536)

/-- A tick-0 place where no region lies: accesses find no rights there (R75, log entry 18). -/
def nowhere (win die core : Nat) : Place := ⟨0, 0, 0, win, 1, die, core, false⟩

def refPlace (s : State) (ref off win core : Nat) : Place :=
  let r := rentOf s ref
  ⟨r.space, off, ref, win, r.tier, refDie ref, core, false⟩

/-- The place of a scratchpad offset of a unit. -/
def spadPlace (s : State) (u : Ctx) (off win : Nat) : Place :=
  match spadSpan u off with
  | some p => refPlace s p.ref (off - p.first * 4096) win u.core
  | none => nowhere win (dieOfCore u.core) u.core

/-- Translation of a decoded address (check 4 of R162); the mapped page of a host page is a host place. -/
def translate (s : State) (c : Ctx) (w : Window2) (a : Word) : Res Place :=
  match w with
  | .bad => flt cADDRESS a
  | .global v =>
    match globalMap (vdOf s c.vd) v with
    | none => flt cTRANSLATION a
    | some m =>
      if m.host then .ok ⟨0, m.hostAddr + (v - m.first), 0, 0, 5, 0, 0, true⟩
      else .ok (refPlace s m.ref (v - m.first) 0 0)
  | .priv off => .ok (refPlace s c.priv off 1 c.core)
  | .spad k off => if k = c.lcore then .ok (spadPlace s c off 2) else flt cWRONGCORE a
  | .gallery k off =>
    match teamMate s c k with
    | some u => .ok (spadPlace s u off (if k = c.lcore then 2 else 4))
    | none => .ok (nowhere 4 (dieOfCore c.core) c.core)
  | .sync die off =>
    match tget (dieOf s die).syncPages (off / 65536) with
    | some ref => .ok (refPlace s (ref % 2 ^ 32) (off - (ref / 2 ^ 32) * 65536) 5 0)
    | none => .ok { nowhere 5 die 0 with tier := 2 }

/-- The innermost live sublet below an entry that covers a granule of the pool, by depth (R79, R81). -/
def innerSublet (s : State) (gran : Nat) : Nat → Nat → Option Rent
  | 0, _ => none
  | f + 1, ref =>
    match s.rents.find? (fun e => e.2.sub && e.2.state == 1 && refTable e.1 == refTable ref && refDie e.1 == refDie ref
      && e.2.parent == refIndex ref && e.2.base ≤ gran && gran < e.2.base + e.2.size) with
    | none => none
    | some e => some ((innerSublet s gran f e.1).getD e.2)

/-- The live sublet that holds a byte of a region. -/
def subletAt (s : State) (ref off : Nat) : Option Rent :=
  innerSublet s ((rentOf s ref).base + off / granule (rentOf s ref)) s.rents.length ref

/-- The sublessor of the last sublet of this range to the context, or to all of its device, that has ended (R75, R86). -/
def formerLessor (s : State) (c : Ctx) (ref off : Nat) : Option Nat :=
  let r := rentOf s ref
  (s.ended.findRev? (fun e => e.1 == r.space && e.2.1 * granule r ≤ off && off < (e.2.1 + e.2.2.1) * granule r
    && e.2.2.2.1 == c.vd && (e.2.2.2.2.1 == 0 || e.2.2.2.2.1 == c.uid))).map (fun e => e.2.2.2.2.2)

/-- A sublet of this range to the context, or to all of its device, has ended (R75 tinfo 4). -/
def wasTenant (s : State) (c : Ctx) (ref off : Nat) : Bool := (formerLessor s c ref off).isSome

/-- The share and owner rule of R75 for a PAID region. -/
def admits (c : Ctx) (r : Rent) : Bool :=
  r.owner == ownerOf c || r.owner == c.vd * 65536 || (r.share == 1 && r.team == c.team && c.team != 0)
    || (r.share == 2 && r.owner / 65536 == c.vd)

/-- Rights to a byte of a region (R75): none, or the tinfo of Table 4.2. -/
def rights (s : State) (c : Ctx) (p : Place) : Option Nat :=
  let r := rentOf s p.ref
  if p.host then none
  else if p.space = 0 then some 1
  else if r.state = 2 then (if wasTenant s c p.ref p.off && !admits c r then some 4 else some 0)
  else if r.state != 1 then some 1
  else match subletAt s p.ref p.off with
    | some e => if admits c e then none else some 2
    | none => if admits c r then none else if wasTenant s c p.ref p.off then some 4 else some 3

/-- A place lies on a page in its switch window (R93). -/
def inSwitch (s : State) (p : Place) : Bool :=
  !p.host && s.retiring.any (fun r => r.window && r.space == p.space && r.page == p.off / 65536)

/-- A page of a virtual device the host owns (R33). -/
def hostOwns (s : State) (vd a : Nat) : Bool := (vdOf s vd).hostOwned.contains (a / 65536)

/-- The buffer state that forbids an access to the bytes of a range (Table 5.8): the byte and the state. -/
def bufferBars (u : Ctx) (off n : Nat) (k : Access) : Option (Nat × Nat) :=
  match k with
  | .none => none
  | _ =>
    (u.bufs.find? (fun e => e.2.declared && e.2.base < off + n && off < e.2.base + e.2.length
      && (if k = .load then e.2.state < 2 else e.2.state != 1))).map (fun e => (max off e.2.base, e.2.state))

/-- The unit whose scratchpad a place lies in, and its offset there. -/
def padOf (s : State) (c : Ctx) (a : Word) : Option (Ctx × Nat) :=
  match windowOf a with
  | .spad k off => if k = c.lcore then some (c, off) else none
  | .gallery k off => (teamMate s c k).map (fun u => (u, off))
  | _ => none

/-- Checks 4 to 7 of R162 on one piece of at most 4 KiB that does not cross a granule: the number of the failing check
and its trap, or the place. -/
def checkPiece (s : State) (c : Ctx) (a : Word) (n : Nat) (k : Access) : Except (Nat × Trap) Place :=
  match translate s c (windowFor c a) a with
  | .error t => .error ((if t.cause = cADDRESS then 1 else if t.cause = cWRONGCORE then 3 else 4), t)
  | .ok p =>
    if p.win = 0 && hostOwns s c.vd a.toNat then .error (5, ⟨cPAGEHOST, a, 0, false⟩)
    else match rights s c p with
      | some i => .error (6, ⟨cLAPSED, a, BitVec.ofNat 64 i, false⟩)
      | none =>
        match padOf s c a with
        | some (u, off) =>
          match bufferBars u off n k with
          | some (b, st) => .error (7, ⟨cBUFFER, a + BitVec.ofNat 64 (b - off), BitVec.ofNat 64 st, false⟩)
          | none => .ok p
        | none => .ok p

/-- The pieces of a range: cut where 4 KiB granules end. -/
def pieces : Nat → Nat → Nat → List (Nat × Nat)
  | 0, _, _ => []
  | f + 1, a, n => if n = 0 then [] else
      let m := min n (4096 - a % 4096)
      (a, m) :: pieces f (a + m) (n - m)

/-- Checks 4 to 7 of R162 over a range, the first failing check in their order, at its first byte. -/
def checkRange (s : State) (c : Ctx) (a : Word) (n : Nat) (k : Access) : Res Unit :=
  let errs := (pieces (n / 4096 + 2) a.toNat n).filterMap (fun p =>
    match checkPiece s c (BitVec.ofNat 64 p.1) p.2 k with
    | .error e => some e
    | .ok _ => none)
  match errs with
  | [] => .ok ()
  | e :: r => .error (r.foldl (fun b x => if x.1 < b.1 then x else b) e).2

/-- All the checks of R162 on a naturally aligned access of n bytes (at most 32 with 32-byte alignment). -/
def check (s : State) (c : Ctx) (a : Word) (n : Nat) (k : Access) : Res Place :=
  match windowFor c a with
  | .bad => flt cADDRESS a
  | w =>
    if a.toNat % n != 0 then flt cALIGN a
    else match checkPiece s c a n k with
      | .ok p => .ok p
      | .error e => .error e.2

/-- Whether writes to a place are seen through views (R169): global and scratchpad bytes. -/
def Place.viewed (p : Place) : Bool := p.win = 0 || p.win = 2 || p.win = 4

/-- The bytes at a place as the last performed writes left them. -/
def readNow (s : State) (p : Place) (n : Nat) : List Byte :=
  if p.host then s.hostMem.readRun p.off n else s.mem.readRun (locOf p.space p.off) n

/-- The scope of a landing on a core takes in a context where it stands (Table 8.4). -/
def inScope (s : State) (scope : Scope) (core : Nat) (c : Ctx) : Bool :=
  let dom k := (List.range 8).findRev? (fun d => d ≤ dieOfCore k && s.clock.dom.toNat / 2 ^ d % 2 == 1)
  match scope with
  | .core => core = c.core
  | .gallery => galOfCore core = galOfCore c.core
  | .die => dieOfCore core = dieOfCore c.core
  | .domain => dom core == dom c.core
  | .system => true

/-- A landing includes a context: its own, one in its scope as it landed or, for one that started later, at its start, and every one
at system scope. A later move changes nothing (R169, Table 8.4; log entry 111). -/
def Landing.includes (l : Landing) (c : Ctx) : Bool := l.uid == c.uid || l.scope == .system || l.incl.contains c.uid

/-- A tick of a view takes in a write of tick t made at a pulse: by the tick, or, where domains' counters differ, because the view rose
no earlier (R169, R175; log entry 49). -/
def Ctx.sees (c : Ctx) (v t pulse : Nat) : Bool := t ≤ v || (v == c.view && pulse < c.viewPulse)

/-- A recorded write is visible to c at view tick v (R169): a landed one from its own landing or from the writer's next
landing that includes c, or from the tick it became visible to c (R170). -/
def visible (s : State) (c : Ctx) (v : Nat) (h : Hist) : Bool :=
  match h.landing with
  | none => c.sees v h.tick h.pulse
  | some i =>
    match s.landings.drop i with
    | l :: r => l.seen.any (fun e => e.1 == c.uid && e.2 ≤ v)
        || (l :: r).any (fun m => m.uid == l.uid && c.sees v m.tick m.pulse && m.includes c)
    | [] => true

/-- A context's view rises to a tick of its domain, now (R169). -/
def Ctx.raise (c : Ctx) (s : State) (t : Nat) : Ctx := { c with view := max c.view t, viewPulse := s.clock.pulses }

/-- A context that starts: the landings whose scope takes it in include it; the others that have landed become visible to it at a tick
the device leaves open (R170). -/
def meetLandings (s : State) (c : Ctx) : State :=
  let out := (List.range s.landings.length).filter (fun i => match s.landings[i]? with
    | some l => !(l.includes c) && !inScope s l.scope l.core c && s.hist.any (fun h => h.landing == some i)
    | none => false)
  let s := { s with landings := s.landings.map (fun l =>
    if !(l.includes c) && inScope s l.scope l.core c then { l with incl := l.incl ++ [c.uid] } else l) }
  out.foldl (fun s i =>
    let (d, s) := openTicks s
    schedC s c (tickOf s c + d) 4 (.ins (.storeBecomesVisible i c.uid))) s

/-- The byte c sees at view v: the newest visible write's, older ones' where newer writes are not visible. -/
def seenByte (s : State) (c : Ctx) (v : Nat) (space off : Nat) : Byte :=
  let rec go (cur : Byte) : List Hist → Byte
    | [] => cur
    | h :: r => if visible s c v h then cur else go h.old r
  go (if space = 0 then s.hostMem.read off else s.mem.read (locOf space off)) (s.hist.filter (fun h => h.space == space && h.off == off))

/-- The bytes at a place as c's view shows them (R169): its own flight first, then its landings in progress. -/
def readView (s : State) (c : Ctx) (p : Place) (n : Nat) : List Byte :=
  (List.range n).map (fun i =>
    match (c.inLand ++ c.flight).findRev? (fun f => f.space == p.space && f.off == p.off + i) with
    | some f => f.val
    | none => seenByte s c c.view p.space (p.off + i))

/-- The first poisoned 8-byte word that n bytes at a place touch, as a byte offset. -/
def poisonedAt (s : State) (p : Place) (n : Nat) : Option Nat :=
  (s.memPoison.find? (fun w => w.1 == p.space && w.2 < p.off + n && p.off < w.2 + 8)).map Prod.snd

/-- Numbers that the poison marks of a die's record cache and of a core's prefetch buffer stand under; offsets are the addresses cached
(R194; log entry 15). -/
def recordSpace (die : Nat) : Nat := 2 ^ 50 + die
def prefetchSpace (core : Nat) : Nat := 2 ^ 50 + 8 + core

/-- Poison a run of bytes carries, as offsets of words in it. -/
def poisonIn (s : State) (p : Place) (n : Nat) : List Nat :=
  (s.memPoison.filter (fun w => w.1 == p.space && w.2 < p.off + n && p.off < w.2 + 8)).map (fun w => w.2 - p.off)

/-- The page that carries the dirty bit of a mapped address: a 2 MiB page has one bit, under its first number (R161, R196). -/
def pageOf (m : Mapping) (a : Nat) : Nat :=
  if m.large then (m.first + (a - m.first) / 2 ^ 21 * 2 ^ 21) / 65536 else a / 65536

/-- The virtual devices and pages of a byte of the global window, for their dirty bits (R196): of a region's, and, in storage 0, of
host memory's (R33). -/
def dirtyPage (s : State) (space off : Nat) : List (Nat × Nat) :=
  if space = 0 then
    s.vds.flatMap (fun v => (v.2.maps.filter (fun m => m.host && m.hostAddr ≤ off && off < m.hostAddr + m.pages * 65536)).map
      (fun m => (v.1, pageOf m (m.first + (off - m.hostAddr)))))
  else match s.rents.find? (fun e => e.2.space == space && 2 ≤ e.2.tier && e.2.addr != 0 && e.2.addr < 2 ^ 60 && !e.2.sub) with
    | some e =>
      let a := e.2.addr + off
      [(e.2.owner / 65536, match globalMap (vdOf s (e.2.owner / 65536)) a with | some m => pageOf m a | none => a / 65536)]
    | none => []

/-- The pages of n bytes from an offset. -/
def dirtyPages (s : State) (space off n : Nat) : List (Nat × Nat) :=
  (List.range ((off + n - 1) / 65536 - off / 65536 + 1)).flatMap (fun i => dirtyPage s space (if i = 0 then off else (off / 65536 + i) * 65536))

/-- Sets dirty bits. -/
def setDirty (s : State) (ps : List (Nat × Nat)) : State :=
  ps.foldl (fun s p => modVd s p.1 (fun v => if v.dirty.contains p.2 then v else { v with dirty := v.dirty ++ [p.2] })) s

/-- What is left of a run of marked lines when lines lo to hi − 1 are written (R92). -/
def unmark (space lo hi : Nat) (e : Nat × Nat × Nat) : List (Nat × Nat × Nat) :=
  if e.1 != space || hi ≤ e.2.1 || e.2.1 + e.2.2 ≤ lo then [e]
  else [(space, e.2.1, lo - e.2.1), (space, hi, e.2.1 + e.2.2 - hi)].filter (fun x => x.2.2 != 0)

/-- Lines written on a page being copied to its new frame are dirty again (R93). -/
def noteLines (space lo hi : Nat) (r : Retiring) : Retiring :=
  if r.space != space then r
  else { r with lines := r.lines ++ ((List.range (hi - lo)).map (lo + ·)).filter (fun x => x / 256 == r.page && !r.lines.contains x) }

/-- A write performs: bytes of a space change, their old values are kept for older views, whole words lose their poison,
carried poison is marked, what a counted transfer wrote there no longer counts as such, marks for scrub go, parity is new and the
pages are dirty (R92, R109, R113, R169, R191, R194, R196). -/
def writeSpace (s : State) (space off : Nat) (bs : List Byte) (ps : List Nat) (tick : Nat) (landing : Option Nat) : State :=
  let old := s.mem.readRun (locOf space off) bs.length
  let whole w := off ≤ w && w + 8 ≤ off + bs.length
  let hs := ((List.range bs.length).zip old).map (fun p => (⟨space, off + p.1, p.2, tick, landing, s.clock.pulses⟩ : Hist))
  let rest := fun (e : Nat × Nat × Nat × Nat × Nat) =>
    if e.1 != space || off + bs.length ≤ e.2.1 || e.2.1 + e.2.2.1 ≤ off then [e]
    else [(space, e.2.1, off - e.2.1, e.2.2.2), (space, off + bs.length, e.2.1 + e.2.2.1 - (off + bs.length), e.2.2.2)].filter
      (fun x => x.2.2.1 != 0)
  let lo := off / 256
  let hi := ceilDiv (off + bs.length) 256
  setDirty { s with
    mem := s.mem.writeRun (locOf space off) bs
    hist := hs ++ s.hist
    late := s.late.flatMap rest
    scrub := s.scrub.flatMap (unmark space lo hi)
    retiring := s.retiring.map (noteLines space lo hi)
    upsets := clearErrors s.upsets (locOf space off) bs.length
    memPoison := s.memPoison.filter (fun w => !(w.1 == space && whole w.2)) ++ ps.map (fun p => (space, off + p)) }
    (dirtyPages s space off bs.length)

/-- A write to host memory (R33): its old bytes are kept for older views, and its poison marks, in storage 0, whose offsets are host
addresses (R169, R194). -/
def writeHost (s : State) (off : Nat) (bs : List Byte) (ps : List Nat) (tick : Nat) (landing : Option Nat) : State :=
  let whole w := off ≤ w && w + 8 ≤ off + bs.length
  let hs := ((List.range bs.length).zip (s.hostMem.readRun off bs.length)).map (fun p => (⟨0, off + p.1, p.2, tick, landing, s.clock.pulses⟩ : Hist))
  setDirty { s with
    hostMem := s.hostMem.writeRun off bs, hist := hs ++ s.hist
    memPoison := s.memPoison.filter (fun w => !(w.1 == 0 && whole w.2)) ++ ps.map (fun p => (0, off + p)) }
    (dirtyPages s 0 off bs.length)

/-- A write of an engine to a place: host pages go to host memory. -/
def writePlace (s : State) (p : Place) (bs : List Byte) (ps : List Nat) (tick : Nat) (landing : Option Nat) : State :=
  if p.host then writeHost s p.off bs ps tick landing else writeSpace s p.space p.off bs ps tick landing

/-! ## Synchronisation words (Table 5.7) -/

/-- Target, count, generation, frozen and reached of a 16-byte word. -/
structure SyncWord where
  target : Nat
  count : Nat
  gen : Nat
  frozen : Bool
  reached : Bool
deriving DecidableEq, Repr, Inhabited

def wordAt (s : State) (space off : Nat) : SyncWord :=
  let v := natOfBytes (s.mem.readRun (locOf space off) 16)
  ⟨bitsOf v 96 32, bitsOf v 64 32, bitsOf v 48 16, bitsOf v 1 1 == 1, bitsOf v 0 1 == 1⟩

def wordBytes (w : SyncWord) : List Byte :=
  bytesOfNat 16 (w.target * 2 ^ 96 + w.count * 2 ^ 64 + w.gen * 2 ^ 48 + (if w.frozen then 2 else 0)
    + (if w.reached then 1 else 0))

/-- The engine's writes of words and barriers do not go through views of shared windows; the scratchpad's do. -/
def putWord (s : State) (space off : Nat) (w : SyncWord) (tick : Nat) : State :=
  writeSpace s space off (wordBytes w) [] tick none

/-- The engine changes fields of a word: the bytes that keep their value are as their last write left them, for every view. -/
def touchWord (s : State) (space off : Nat) (w : SyncWord) (tick : Nat) : State :=
  let t := putWord s space off w tick
  { t with hist := (t.hist.take 16).filter (fun h => h.old != t.mem.read (locOf space h.off)) ++ s.hist }

/-- A space and offset is a unit's word. -/
def sameSpot (s : State) (c : Ctx) (a : Nat) (space off : Nat) : Bool :=
  match translate s c (windowFor c (BitVec.ofNat 64 a)) (BitVec.ofNat 64 a) with
  | .ok p => p.space == space && p.off == off
  | .error _ => false

/-- Contexts waiting at the object at a spot, with their operation. -/
def waitersAt (s : State) (space off : Nat) : List (Ctx × SyncOp) :=
  (allUnits s).filterMap (fun u => match u.wait with
    | .op o => if sameSpot s u (o.addr / 16 * 16) space off then some (u, o) else none
    | _ => none)

/-- Releases the waiters of a kind at an object at the next tick (R115, R273, R348). -/
def releaseWaiters (s : State) (space off : Nat) (k : SyncKind) (status delay : Nat) : State :=
  ((waitersAt s space off).filter (fun w => w.2.kind == k)).foldl
    (fun s w => schedC s w.1 (tickOf s w.1 + delay) 16 (.ins (.waitRelease w.1.uid status))) s

/-- The scratchpad offset of a word in its unit: the buffers it counts for. -/
def buffersOfWord (s : State) (space off : Nat) : List (Nat × Nat) :=
  (allUnits s).flatMap (fun u => u.bufs.filterMap (fun e =>
    let p := spadPlace s u e.2.wordOff 2
    if e.2.declared && p.space == space && p.off == off then some (u.uid, e.1) else none))

/-- The word reaches (R115): reached, the next generation, a FILLING buffer is FULL, and waiters are released at the next
tick. Bytes it counted are no longer early (R113). -/
def setReached (s : State) (space off tick : Nat) : State :=
  let w := wordAt s space off
  let s := touchWord s space off { w with reached := true, gen := (w.gen + 1) % 65536 } tick
  let s := { s with late := s.late.filter (fun e => !(e.2.2.2.1 == space && e.2.2.2.2 == off)) }
  let s := (buffersOfWord s space off).foldl (fun s ub =>
    modUnit s ub.1 (fun u => { u with bufs := tmod u.bufs ub.2 default (fun b => if b.state = 1 then { b with state := 2 } else b) })) s
  releaseWaiters s space off .swait 0 1

/-- The word reaches if its count has met its target (R115, R358). -/
def reachWord (s : State) (space off tick : Nat) : State :=
  let w := wordAt s space off
  if w.reached || w.target = 0 || w.count < w.target then s else setReached s space off tick

/-- Arms a word: clears reached and frozen (R87, R115), then R358. -/
def armWord (s : State) (space off tick : Nat) : State :=
  let w := wordAt s space off
  reachWord (touchWord s space off { w with reached := false, frozen := false } tick) space off tick

/-- An object is used as a word for the first time: earlier stores to its fields armed it (R115, log entry 19). -/
def meetWord (s : State) (space off tick : Nat) : State :=
  if s.words.any (fun w => w.1 == space && w.2.1 == off) then s
  else armWord { s with words := s.words ++ [(space, off, false)] } space off tick

/-- A store or atomic performed on bytes: it arms the words whose target or count it wrote (R115, R260, R266). -/
def armStored (s : State) (space off n tick : Nat) : State :=
  (s.words.filter (fun w => w.1 == space && !w.2.2 && w.2.1 + 8 < off + n && off < w.2.1 + 16)).foldl
    (fun s w => armWord s space w.2.1 tick) s

/-- Counts n landed bytes on a word (R115); a frozen word keeps its count (R87). -/
def countWord (s : State) (space off n tick : Nat) : State :=
  let s := meetWord s space off tick
  let w := wordAt s space off
  if w.frozen then s
  else reachWord (touchWord s space off { w with count := min (w.count + n) 0xFFFFFFFF } tick) space off tick

/-! ## Logs -/

/-- A reliability record (Table 9.2). -/
def logRel (s : State) (tick core cls source outcome vd info seq queue : Nat) : State :=
  let r := bytesOfNat 8 tick ++ bytesOfNat 2 core ++ bytesOfNat 1 cls ++ bytesOfNat 1 source ++ bytesOfNat 1 outcome
    ++ bytesOfNat 1 vd ++ bytesOfNat 2 0 ++ bytesOfNat 8 info ++ bytesOfNat 4 seq ++ bytesOfNat 2 queue ++ bytesOfNat 2 0
  { s with logs := { s.logs with rel := (r :: s.logs.rel).take 65536, relCount := s.logs.relCount + 1 } }

/-- A fault-log record (Table 9.6). -/
def logFault (s : State) (tick source cause vd ctx core : Nat) (tinfo tval : Word) (seq queue : Nat) : State :=
  let r := bytesOfNat 8 tick ++ bytesOfNat 1 source ++ bytesOfNat 1 cause ++ bytesOfNat 1 vd ++ bytesOfNat 1 ctx
    ++ bytesOfNat 2 core ++ bytesOfNat 2 tinfo.toNat ++ bytesOfNat 8 tval.toNat ++ bytesOfNat 4 seq ++ bytesOfNat 2 queue
    ++ bytesOfNat 2 0
  { s with logs := { s.logs with fault := (r :: s.logs.fault).take 65536, faultCount := s.logs.faultCount + 1 } }

/-- The bytes of a truncation record (Table 15.11). -/
def truncBytes (seq tag kind unit landed tick : Nat) (addr : Word) : List Byte :=
  bytesOfNat 4 seq ++ bytesOfNat 2 tag ++ bytesOfNat 1 kind ++ bytesOfNat 1 unit ++ bytesOfNat 8 landed
    ++ bytesOfNat 8 tick ++ bytesOfNat 8 addr.toNat

/-- Appends a truncation record to a unit's event log in its private area (R333), mirrors it with the copy engine's
number in place of 0xF4, and counts it. -/
def truncate (s : State) (uid seq tag kind unit mirrorUnit landed tick : Nat) (addr : Word) : State :=
  match unitOf s uid with
  | none => s
  | some c =>
    let r := truncBytes seq tag kind unit landed tick addr
    let p := refPlace s c.priv (0x200 + (c.eventCount % 64) * 32) 1 c.core
    let q := refPlace s c.priv 0x180 1 c.core
    let live := (rentOf s c.priv).state = 1
    let s := if live then
        writeSpace (writeSpace s p.space p.off r [] tick none) q.space q.off (bytesOfNat 8 (c.eventCount + 1)) [] tick none
      else s
    let s := modUnit s uid (fun c => { c with eventCount := c.eventCount + 1 })
    let s := modLaunch s c.launch (fun l => { l with trunc := l.trunc + 1 })
    { s with logs := { s.logs with
        trunc := (truncBytes seq tag kind mirrorUnit landed tick addr :: s.logs.trunc).take 131072
        truncCount := s.logs.truncCount + 1 } }

/-- A truncation's record, and the sublessor's copy of it when a sublet's end caused it (R86, R333, R359): lessor is the
owner number of the ended sublet's parent. -/
def truncBoth (s : State) (uid seq tag kind unit mirror landed tick : Nat) (addr : Word) (lessor : Option Nat) : State :=
  let s := truncate s uid seq tag kind unit mirror landed tick addr
  match lessor with
  | none => s
  | some o =>
    match (allUnits s).find? (fun u => ownerOf u == o && u.wait != .done) with
    | some u => truncate s u.uid seq tag 8 unit mirror landed tick addr
    | none => s

/-- Why a place no longer takes part for a context: the owner to tell when its sublet has ended, whoever holds the range since. -/
def lessorOf (s : State) (c : Ctx) (p : Place) (why : Nat) : Option Nat :=
  if why = 4 || why = 2 || why = 1 then formerLessor s c p.ref p.off else none

/-- The same by address. -/
def lessorAt (s : State) (c : Ctx) (a : Word) (why : Nat) : Option Nat :=
  match translate s c (windowFor c a) a with
  | .ok p => lessorOf s c p why
  | .error _ => none

/-! ## Commands of a context -/

/-- The engine queues of a core by engine code. -/
def queueOf (k : CoreSt) (q : Nat) : List Cmd :=
  match q with
  | 0 => k.mq | 1 => k.vq | 2 => k.lq | 3 => k.sq | _ => k.xq
def setQueue (k : CoreSt) (q : Nat) (l : List Cmd) : CoreSt :=
  match q with
  | 0 => { k with mq := l } | 1 => { k with vq := l } | 2 => { k with lq := l } | 3 => { k with sq := l }
  | _ => { k with xq := l }

/-- The engine of an instruction: 0 MQ, 1 VQ, 2 LQ, 3 SQ, 4 copy, 5 exchange, 6 synchronisation; form V goes to the VQ;
7 for what the sequencer executes itself. -/
def engineOf (i : Instr) : Nat :=
  match i with
  | .mloadw _ _ | .mmul _ _ | .mgrad _ _ | .mgdrain _ _ | .mres _ _ | .slclaim _ _ _ | .slrel _ _ => 0
  | .lnest _ _ | .sortc _ _ => 1
  | .xld _ _ => 2
  | .xst _ _ => 3
  | .resume _ q | .esave _ q _ | .eload _ q _ => q.code
  | .cpy _ _ | .cpyc _ _ | .ckpt _ _ | .lrflush _ _ => 4
  | .xsend _ _ | .xrecv _ _ => 5
  | .dispatch _ _ | .wlnext _ _ _ | .wid _ _ => 6
  | .vadd _ | .vsub _ | .vmul _ | .vfma _ | .vmin _ | .vmax _ | .vabs _ | .vneg _ | .vand _ | .vor _ | .vxor _ | .vnot _
  | .vshl _ | .vshr _ | .vsra _ | .vceq _ | .vcne _ | .vclt _ | .vcle _ | .vcvt _ | .vqrd _ | .vexp2 _ | .vrcp _
  | .vbfx _ | .vfsh _ | .vred _ | .vscan _ | .vld _ | .vst _ | .vgath _ | .vscat _ | .vlut _ | .vthr _ | .vtagTags _
  | .vtagMask _ | .vcomb _ | .vmov _ | .vbcst _ | .vsel _ | .vgetl _ => 1
  | _ => 7

/-- Entries that are never stopped once started (R116). -/
def runsOut (i : Instr) : Bool :=
  match i with
  | .mmul _ _ | .mgrad _ _ | .mgdrain _ _ | .mres _ _ | .lnest _ _ | .sortc _ _ | .xld _ _ | .xst _ _ | .resume _ _ => false
  | _ => true

/-- Effects still due that a command owns. -/
def owned (s : State) (uid : Nat) : Bool := s.agenda.any (fun e => e.uid == uid && e.own != 0)

/-- Drops the effects a command owns. -/
def dropOwned (s : State) (ids : List Nat) : State := { s with agenda := s.agenda.filter (fun e => !(ids.contains e.own)) }

/-- The commands of a context on its core's queues and at its comparison points. -/
def cmdsOf (s : State) (c : Ctx) : List Cmd :=
  let k := coreOf s c.core
  (k.mq ++ k.vq ++ k.lq ++ k.sq ++ k.xq ++ k.pending).filter (fun m => m.uid == c.uid)

/-- Removes commands from a core's queues. -/
def dropCmds (s : State) (core : Nat) (gone : Cmd → Bool) : State :=
  let f := fun (l : List Cmd) => l.filter (fun m => !gone m)
  modCore s core (fun k => { k with mq := f k.mq, vq := f k.vq, lq := f k.lq, sq := f k.sq, xq := f k.xq, pending := f k.pending })

/-- The copy engine that serves a core (R329). -/
def copyEngineOf (core : Nat) : Nat := dieOfCore core * 4 + galOfCore core % 16 / 4

/-- A copy engine's buffer with a command in its place: by due tick, then lower physical core, then delivery (R329). -/
def buffered (l : List Cmd) (k : Cmd) : List Cmd :=
  (l ++ [k]).mergeSort (fun a b => a.due < b.due || (a.due == b.due && (a.core < b.core || (a.core == b.core && a.id ≤ b.id))))

/-- A wait of a context that has stopped or is stopping (R116). -/
def Wait.stops (w : Wait) : Bool := match w with | .stopping | .saving | .saved | .frozen _ | .done => true | _ => false

/-- What has been delivered waits: its context has stopped, is in the monitor, or is at handler level since its delivery (R111, R117,
R118). -/
def heldBack (c : Ctx) (k : Cmd) : Bool :=
  match c.wait with
  | .monitor _ | .monitorBack _ _ | .debug => true
  | w => w.stops || (c.handler && k.deliver ≤ c.trapTick)

/-- A command that is held back joins those that TRET returns, where it came before the trap, or those of the stop. -/
def Ctx.hold (c : Ctx) (k : Cmd) : Ctx :=
  if c.handler && k.deliver ≤ c.trapTick then { c with trapCmds := c.trapCmds ++ [k] } else { c with heldCmds := c.heldCmds ++ [k] }

/-- Removes commands from the copy engines' buffers and the synchronisation engines. -/
def dropFar (s : State) (gone : Cmd → Bool) : State :=
  { s with
    engines := s.engines.map (fun (e : Nat × CopyEng) => (e.1, { e.2 with buffer := e.2.buffer.filter (fun m => !gone m) }))
    dies := s.dies.map (fun (d : Nat × DieSt) => (d.1, { d.2 with sync := d.2.sync.filter (fun m => !gone m) })) }

/-- Holds the commands of a context that have not started (R111, R117, R337): they leave the queues, the synchronisation engine and
the copy engine's buffer, where they keep their room, in delivery order. One that the banister has not compared yet is held when
it has been (R183). -/
def holdCmds (s : State) (c : Ctx) : State :=
  let mine := fun (m : Cmd) => m.uid == c.uid && m.start.isNone
  let k := coreOf s c.core
  let un := (k.mq ++ k.vq ++ k.lq ++ k.sq ++ k.xq ++ s.engines.flatMap (fun (e : Nat × CopyEng) => e.2.buffer)
    ++ s.dies.flatMap (fun (d : Nat × DieSt) => d.2.sync)).filter mine
  let srt := un.mergeSort (fun a b => a.id ≤ b.id)
  let s := dropFar (dropCmds s c.core (fun m => srt.any (fun x => x.id == m.id))) mine
  modUnit s c.uid (fun c => { c with heldCmds := c.heldCmds ++ srt })

/-- Returns held commands to the fronts of their queues, those that later names due d ticks later (R111, R117, R254, R337). -/
def returnHeld (s : State) (c : Ctx) (d : Nat) (later : Cmd → Bool) : State :=
  let hs := c.heldCmds.map (fun m => if later m then { m with due := m.due + d } else m)
  let moved := (hs.filter later).map Cmd.id
  let back := fun (q : Nat) (l : List Cmd) =>
    (hs.filter (fun m => engineOf m.ins == q)).map (fun m => { m with core := c.core }) ++ l
  let s := modCore s c.core (fun k => { k with
    mq := back 0 k.mq, vq := back 1 k.vq, lq := back 2 k.lq, sq := back 3 k.sq, xq := back 5 k.xq })
  let s := modDie s (dieOfCore c.core) (fun e => { e with sync := back 6 e.sync })
  let s := modEng s (copyEngineOf c.core) (fun e => { e with
    buffer := (hs.filter (fun m => engineOf m.ins == 4)).foldl (fun l m => buffered l { m with core := c.core }) e.buffer })
  modUnit s c.uid (fun c => { c with
    heldCmds := []
    lastDue := c.lastDue.map (fun l => if moved.contains l.2.1 then (l.1, l.2.1, l.2.2 + d) else l) })

/-- Returns held commands, the timed ones d ticks later (R111, R254). -/
def returnCmds (s : State) (c : Ctx) (d : Nat) : State := returnHeld s c d Cmd.timed

/-- Stops the started commands of a context, saving their engine state; short entries run out (R116). -/
def stopStarted (s : State) (c : Ctx) (tick : Nat) : State :=
  let st := (cmdsOf s c).filter (fun m => m.start.isSome && !runsOut m.ins)
  let s := dropOwned s (st.map Cmd.id)
  let s := dropCmds s c.core (fun m => st.any (fun x => x.id == m.id))
  modUnit s c.uid (fun c => { c with saved := st.foldl (fun t m => tset t (engineOf m.ins) ⟨tick, m, (coreOf s c.core).resCount.toNat⟩) c.saved })

/-- Cancels the commands a context delivered from id on, started ones too: their unperformed writes are dropped. A
started MLOADW's load goes on (R119, R195). -/
def cancelFrom (s : State) (c : Ctx) (id : Nat) : State :=
  let gone := (cmdsOf s c).filter (fun m => id ≤ m.id)
  let s := dropOwned s (gone.map Cmd.id)
  let s := { s with agenda := s.agenda.filter (fun e => !(e.uid == c.uid && id ≤ e.own && e.own != 0)) }
  let s := { s with agenda := s.agenda.filter (fun e => match e.act with
    | .ins (.banisterCompare _ i) => !(gone.any (fun m => m.id == i))
    | _ => true) }
  let s := dropCmds s c.core (fun m => m.uid == c.uid && id ≤ m.id)
  let s := { s with dies := s.dies.map (fun (d : Nat × DieSt) =>
    (d.1, { d.2 with sync := d.2.sync.filter (fun m => !(m.uid == c.uid && id ≤ m.id)) })) }
  modUnit s c.uid (fun c => { c with
    saved := c.saved.filter (fun e => e.2.cmd.id < id), heldCmds := c.heldCmds.filter (fun m => m.id < id)
    trapCmds := c.trapCmds.filter (fun m => m.id < id), savedLast := c.savedLast.filter (fun l => l.2.1 < id)
    lastDue := c.lastDue.filter (fun l => l.2.1 < id) })

/-- Copies leave the copy engines, started or not: their words still to land never do, and a command that one of them had paused goes
on (R119, R195, R329). -/
def dropCopies (s : State) (gone : Cmd → Bool) : State :=
  let all := fun (e : CopyEng) => e.buffer ++ e.channels ++ e.mainPath.toList ++ e.paused.toList
  let ids := s.engines.flatMap (fun (e : Nat × CopyEng) => ((all e.2).filter gone).map Cmd.id)
  let on := s.engines.filter (fun (e : Nat × CopyEng) => e.2.mainPath.any gone && e.2.paused.any (fun m => !gone m))
  let s := dropOwned s ids
  let s := { s with
    links := { s.links with packets := s.links.packets.filter (fun p => !ids.contains p.cmd) }
    engines := s.engines.map (fun (e : Nat × CopyEng) => (e.1,
      let keep := fun (m : Cmd) => !gone m
      if e.2.mainPath.any gone then
        { buffer := e.2.buffer.filter keep, channels := e.2.channels.filter keep, mainPath := e.2.paused.filter keep, paused := none }
      else { e.2 with buffer := e.2.buffer.filter keep, channels := e.2.channels.filter keep, paused := e.2.paused.filter keep })) }
  on.foldl (fun s (e : Nat × CopyEng) => match e.2.paused with
    | some p => if p.counted < p.live && !s.agenda.any (fun v => v.act == .eff (.copyStep e.1 p.id)) then
        sched s (e.1 / 4) (now s (e.1 / 4)) 15 0 p.id (.eff (.copyStep e.1 p.id)) else s
    | none => s) s

/-- Cancels copies into a unit's own scratchpad, and drops outbound ones still held, from id on (R119, R337). -/
def cancelCopies (s : State) (c : Ctx) (id : Nat) : State :=
  dropCopies s (fun m => m.uid == c.uid && id ≤ m.id && (!m.outbound || m.start.isNone))

/-- Cancels every copy delivered from id on, started ones too (R195). -/
def cancelAllCopies (s : State) (c : Ctx) (id : Nat) : State := dropCopies s (fun m => m.uid == c.uid && id ≤ m.id)

/-- Puts back what an idem region's snapshot holds (R119, R343); a frozen word stays as it is (Table 4.10). -/
def restoreSnap (s : State) (c : Ctx) (n : Snapshot) (tick : Nat) : State :=
  let s := n.words.foldl (fun s w =>
    let p := spadPlace s c w.1 2
    if p.space = 0 || (wordAt s p.space p.off).frozen then s else writeSpace s p.space p.off w.2 [] tick none) s
  modUnit s c.uid (fun c =>
    let c := (List.range 31).foldl (fun c i => wrPhys c (i + 1) (n.scalars.getD i 0)) c
    let c := (List.range 95).foldl (fun c i => wrPhysP c (i + 1) (n.preds.getD i 0)) c
    { c with lc := n.lc, ec := n.ec, rb := n.rb, streams := n.streams, bufs := n.bufs, oqs := [],
             work := { c.work with taken := n.taken }, busy := n.busy })

/-- The snapshot RGOPEN takes (R119, R267). -/
def takeSnap (s : State) (c : Ctx) : Snapshot :=
  { scalars := (List.range 31).map (fun i => BitVec.ofNat 64 (natOfBytes (bankRead c (8 * (i + 1)) 8)))
    preds := (List.range 95).map (fun i => rdPhysP c (i + 1))
    lc := c.lc, ec := c.ec, rb := c.rb, streams := c.streams, bufs := c.bufs
    words := (c.bufs.filter (fun e => e.2.declared)).map (fun e =>
      let p := spadPlace s c e.2.wordOff 2
      (e.2.wordOff, s.mem.readRun (locOf p.space p.off) 16))
    taken := c.work.taken, busy := c.busy }

/-- A snapshot takes in a scalar result that was on its way when it was taken: it is the register's value at RGOPEN (R119, R234). -/
def Snapshot.arrive (n : Snapshot) (p : Nat) (v : Word) : Snapshot :=
  { n with scalars := if 1 ≤ p && p < 32 then n.scalars.set (p - 1) v else n.scalars
           busy := n.busy.filter (fun b => b.1 != .s p) }

/-- A result issued before the open region arrives. -/
def Ctx.arrive (c : Ctx) (p : Nat) (v : Word) : Ctx :=
  { c with region := c.region.map (fun r => { r with snap := r.snap.arrive p v }) }

/-- An act whose result a context's registers still wait for. -/
def isResult (a : Act) : Bool :=
  match a with
  | .eff (.bank _ _ _ _) | .eff (.buffer _ _ _) | .eff (.result _ _ _) | .eff (.sync _ _) | .eff (.rent _ _ _ _ _) => true
  | _ => false

/-- Abandons the open idem region (R119): the flight, its commands, its inbound copies, its held effects and the results still to
come of what was issued in it go, the snapshot returns. -/
def abandon (s : State) (uid : Nat) : State :=
  match unitOf s uid with
  | none => s
  | some c =>
    match c.region with
    | none => s
    | some r =>
      let s := cancelFrom s c r.firstCmd
      let s := cancelCopies s c r.firstCmd
      let s := restoreSnap s c r.snap (tickOf s c)
      let s := { s with agenda := s.agenda.filter (fun e => !(e.uid == uid && e.own == 0 && !e.older && isResult e.act)) }
      modUnit s uid (fun c => { c with
        loads := c.loads.filter (fun l => l.1 < r.firstCmd), loadLinks := c.loadLinks.filter (fun l => l.1 < r.firstCmd), flight := [], region := none, chans := c.chans.filter (fun (h : Nat × Chan) => h.2.id < r.firstCmd) })

/-! ## Faults, traps and the return (R197, R252 to R254) -/

/-- A page request enters the ring, or is held while the ring is full (Table 2.7). -/
def putPageRequest (s : State) (vd : Nat) (e : Nat × Nat × Nat) : State :=
  let v := vdOf s vd
  if 64 ≤ (v.prTail - v.prHead).toNat then modVd s vd (fun v => { v with prHeld := v.prHeld ++ [e] })
  else
    let s := modVd s vd (fun v => { v with prRing := tset v.prRing (v.prTail.toNat % 64) e, prTail := v.prTail + 1 })
    let q := (tget v.queues 0).getD default
    if q.irqEn then { s with vectors := s.vectors ++ [(vd, q.vector.toNat)] } else s

/-- Posts a launch's page request, once until the page is released (R37). -/
def postPageRequest (s : State) (vd page seq queue : Nat) : State :=
  let e := (page, seq, queue)
  if (vdOf s vd).asked.contains e then s
  else putPageRequest (modVd s vd (fun v => { v with asked := v.asked ++ [e] })) vd e

/-- A fault with its tval: an open one is a free value (log entry 2). -/
def settle (s : State) (t : Trap) : Trap × State :=
  if t.loose then
    let (v, s) := pick s (2 ^ 64)
    ({ t with tval := BitVec.ofNat 64 v, loose := false }, s)
  else (t, s)

/-- A fault reaches the monitor (R197): it is logged, the context stops, and the launch ends with the first fault's
cause and tval; the ending itself is the LAUNCH_END event of this tick. In an attached launch the fault is held at its precise stop
(R116, R346). -/
def toMonitor (s : State) (c : Ctx) (t : Trap) : State :=
  let (t, s) := settle s t
  let l := launchOf s c.launch
  let s := logFault s (tickOf s c) 1 t.cause c.vd c.slot c.core t.tinfo t.tval l.seq l.queue
  let s := modUnit s c.uid (fun c => { c with wait := .frozen t.cause, cause := BitVec.ofNat 8 t.cause, tval := t.tval, tinfo := t.tinfo })
  if l.status.isSome then s
  else
    let s := modLaunch s c.launch (fun l => { l with status := some 1, cause := t.cause, info := t.tval.toNat, endTick := tickOf s c })
    if l.attached then
      let s := holdCmds s c
      match unitOf s c.uid with
      | some c => stopStarted s c (tickOf s c)
      | none => s
    else sched s 0 (now s 0) 17 0 0 (.ins (.launchEnd c.launch))

/-- Enters the user handler (R253): unstarted commands are held until TRET, the segment kind and its last due ticks are saved,
and the first instruction waits for entry + 8 and for every started command's writes. -/
def enterHandler (s : State) (c : Ctx) (cause : Nat) (tval tinfo epc : Word) : State :=
  let s := holdCmds s c
  modUnit s c.uid (fun c => { c with
    cause := BitVec.ofNat 8 cause, tval := tval, tinfo := tinfo, epc := epc, handler := true, trapTick := tickOf s c,
    trapCmds := c.heldCmds, heldCmds := [], savedLast := c.lastDue, lastDue := [],
    savedTimed := c.timed, timed := false, pc := c.tvec, nextAt := tickOf s c + 8, wait := .close,
    heldIrq := c.heldIrq, defer := none })

/-- Unwinds the open contain region to its handler (R195). -/
def unwind (s : State) (c : Ctx) (t : Trap) (epc : Word) : State :=
  match c.region with
  | none => s
  | some r =>
    let s := if r.idem then abandon s c.uid else
      modUnit (cancelAllCopies (cancelFrom s c r.firstCmd) c r.firstCmd) c.uid (fun c => { c with flight := [], region := none })
    modUnit s c.uid (fun c => { c with
      cause := BitVec.ofNat 8 t.cause, tval := t.tval, tinfo := t.tinfo, epc := epc, pc := r.handler
      wait := if c.wait.stops then c.wait else .run, nextAt := if c.wait.stops then c.nextAt else tickOf s c + 1 })

/-- Takes a fault of a context whose faulting instruction or command stands at epc: the user handler for the causes of
Table 12.9, a contain region for poison and mismatches, parking for a host page, else the monitor. -/
def takeFault (s : State) (uid : Nat) (t : Trap) (epc : Word) : State :=
  match unitOf s uid with
  | none => s
  | some c =>
    let (t, s) := settle s t
    let contain := match c.region with | some r => r.contain | none => false
    if (t.cause = cTAGMISS || t.cause = cMISS || t.cause = cEARLY) && c.tvec != 0 && !c.handler then
      enterHandler s c t.cause t.tval t.tinfo epc
    else if (t.cause = cUNCORR || t.cause = cMISMATCH) && contain && !c.handler then unwind s c t epc
    else if t.cause = cPAGEHOST && !c.timed && !c.handler then
      let l := launchOf s c.launch
      let s := modUnit s uid (fun c => { c with wait := .parked (t.tval.toNat / 65536), pc := epc })
      putPageRequest s c.vd (t.tval.toNat / 65536, l.seq, l.queue)
    else toMonitor (modUnit s uid (fun c => { c with pc := epc })) c t

/-- Leaves handler level: the commands held at entry return, timed ones later by the ticks since entry, and the segment goes on
from its own last due ticks (R254). -/
def leaveHandler (s : State) (c : Ctx) : State :=
  let c := { c with heldCmds := c.trapCmds, trapCmds := [], lastDue := c.savedLast, savedLast := [], handler := false, timed := c.savedTimed }
  returnCmds (setUnit s c) c (tickOf s c - c.trapTick)

/-- Returns from the handler (R254, R352): execution goes on at ctx.epc one tick later. -/
def returnTrap (s : State) (c : Ctx) : State :=
  modUnit (leaveHandler s c) c.uid (fun c => { c with pc := c.epc, nextAt := tickOf s c + 1, wait := .run })

/-! ## Frame of a core instruction -/

/-- Checks 6 and 7 of R222 on the capability bits an instruction declares (R97). -/
def checkBits (c : Ctx) (bits : List Nat) : Res Unit :=
  match bits.find? (fun b => !(c.useMask.getLsbD b)) with
  | some b => flt cUNDECLARED (BitVec.ofNat 64 b)
  | none =>
    match bits.find? (fun b => !(c.capMask.getLsbD b)) with
    | some b => flt cFENCED (BitVec.ofNat 64 b)
    | none => .ok ()

/-- Runs a core instruction's meaning on the executing context: a trap changes nothing but what taking it does. -/
def onCore (bits : List Nat) (f : State → Ctx → Res State) (s : State) : Out :=
  match s.cx with
  | none => .fault .noContext
  | some c =>
    match checkBits c bits with
    | .error t => .next (takeFault s c.uid t c.pc)
    | .ok _ =>
      match f s c with
      | .error t => .next (takeFault s c.uid t c.pc)
      | .ok s' => .next s'

/-- The executing context goes on at pc + n, the sequencer held for h ticks. -/
def Ctx.advance (c : Ctx) (s : State) (n h : Nat) : Ctx :=
  { c with pc := c.pc + BitVec.ofNat 64 n, nextAt := tickOf s c + h }

/-- An instruction whose results are in c' goes on at the next instruction after h ticks. -/
def goOn (s : State) (c : Ctx) (n h : Nat) : State := { s with cx := some (c.advance s n h) }

/-- Notes an interlocked result due at a tick (R234). -/
def Ctx.await (c : Ctx) (r : RegName) (t : Nat) : Ctx := { c with busy := (r, t) :: c.busy.filter (fun b => b.1 != r) }

/-- A scalar result that performs k ticks on: scheduled, and interlocked until then (R234). -/
def later (s : State) (c : Ctx) (n k : Nat) (v : Word) : State × Ctx :=
  let p := rot c n
  if p = 0 then (s, c)
  else (schedC s c (tickOf s c + k) 11 (.eff (.bank c.uid (8 * p) (bytesOfNat 8 v.toNat) [])), c.await (.s p) (tickOf s c + k))

end Sys2Proof.Machine
end

