-- ==== Sys2Proof/Machine/Flags.lean ====
section
/-!
DEFINITION. The arithmetic flags (R152) and every computation that sets one: nv, of and isat of vector results.
-/
set_option linter.unusedVariables false
namespace Sys2Proof.Machine
open Sys2Proof

/-- Sets flags of a context: they are only ever added (R152). -/
def addFlags (c : Ctx) (f : Flg) : Ctx := { c with aflags := c.aflags ||| f }

/-- A float result with the flags of R288: nv for a NaN from operands none of which is a NaN, of on overflow. -/
def floatResult (t : Nat) (mode : Rnd) (anyNan : Bool) (v : Val) : Nat × Flg :=
  match v with
  | .nan => ((fmtOf t).nan, if anyNan then 0 else 1)
  | v => encodeFloat t mode v

/-- An integer result: wrapped, or clipped with isat under saturation (R143, R287). -/
def intResult (t : Nat) (sat : Bool) (i : Int) : Nat × Flg :=
  if sat then satInt t i else (wrapInt (tyBits t) i, 0)

/-- The union of the flags of results. -/
def flagsOf (rs : List (Nat × Flg)) : Flg := rs.foldl (fun f r => f ||| r.2) 0

end Sys2Proof.Machine
end

