-- ==== Sys2Proof/Machine/Operands.lean ====
section
/-!
DEFINITION. Operand forms: immediates, views and the names they place (R100), streams and their elements (R102, R263),
elements of register bytes (R286), guards (R210), and generic addresses of base and offset.
-/
set_option linter.unusedVariables false
namespace Sys2Proof.Machine
open Sys2Proof

/-- Effective address: base plus offset modulo 2^64 (R259). -/
def ea (c : Ctx) (a : Reg) (off : Word) : Word := rdS c a.toNat + off

/-- imm12 or imm32 sign-extended to 64 bits (R236). -/
def sx12 (i : BitVec 12) : Word := i.signExtend 64
def sx32 (i : BitVec 32) : Word := i.signExtend 64

/-! ## Views (Table 5.2) -/

def vKind (v : BitVec 128) : Nat := (v.extractLsb' 124 4).toNat
def vFirst (v : BitVec 128) : Nat := (v.extractLsb' 118 6).toNat
def vCount (v : BitVec 128) : Nat := (v.extractLsb' 111 7).toNat
def vRows (v : BitVec 128) : Nat := (v.extractLsb' 103 8).toNat + 1
def vPitch (v : BitVec 128) : Nat := (v.extractLsb' 84 12).toNat * 32
def vStride (v : BitVec 128) : Nat := (v.extractLsb' 64 20).toNat
def vFormat (v : BitVec 128) : Nat := (v.extractLsb' 19 6).toNat
def vBase (v : BitVec 128) : Nat := (v.extractLsb' 0 19).toNat

/-- Bytes of one name of a view (R101). -/
def vSpan (v : BitVec 128) : Nat := if vKind v = 1 then 256 else vRows v * vPitch v

/-- Names of a kind: 64 vectors, 16 tiles, 8 accumulators (R101). -/
def kindCount (k : Nat) : Nat :=
  match k with
  | 1 => 64 | 2 => 16 | _ => 8

/-- Validity of a view image of kind 1 to 3 (R101). -/
def vValid (v : BitVec 128) : Bool :=
  vBase v % 32 == 0 && vStride v % 32 == 0 && 1 ≤ vCount v && vFirst v + vCount v ≤ kindCount (vKind v)
    && vBase v + (vCount v - 1) * vStride v + vSpan v ≤ 0x80000

/-- Reserved parts of a view image: kind above 3, a reserved bit, a reserved format (R101, R142, R303). -/
def vIllegal (v : BitVec 128) : Bool :=
  3 < vKind v || v.extractLsb' 96 7 != 0 || v.extractLsb' 25 39 != 0 || 0x11 < vFormat v

/-- The lowest-numbered view that places name n of a kind, and the name's byte offset (R100). -/
def placeName (c : Ctx) (kind n : Nat) : Option (BitVec 128 × Nat) :=
  match (List.range 16).find? (fun i =>
    let v := viewReg c i
    vKind v == kind && vFirst v ≤ n && n < vFirst v + vCount v) with
  | some i => let v := viewReg c i; some (v, vBase v + (n - vFirst v) * vStride v)
  | none => none

/-- The placement of a vector name after the rotating mapping (R209); ILLEGAL when no view places it (R100). -/
def vecPlace (c : Ctx) (n : Nat) : Res Nat :=
  match placeName c 1 (rot c n) with
  | some p => .ok p.2
  | none => fltOpen cILLEGAL

/-! ## Streams (Table 5.3) -/

def gBase (g : BitVec 384) : Word := g.extractLsb' 0 64
def gFormat (g : BitVec 384) : Nat := (g.extractLsb' 64 6).toNat
def gSplit (g : BitVec 384) : Nat := (g.extractLsb' 72 4).toNat
def gXvEn (g : BitVec 384) : Bool := g.extractLsb' 76 1 == 1
def gXv (g : BitVec 384) : Nat := (g.extractLsb' 80 16).toNat
def gLen (g : BitVec 384) : Nat := (g.extractLsb' 96 32).toNat
def gExt1 (g : BitVec 384) : Nat := (g.extractLsb' 128 16).toNat
def gExt2 (g : BitVec 384) : Nat := (g.extractLsb' 144 16).toNat
def gStride1 (g : BitVec 384) : Int := (g.extractLsb' 160 32).toInt
def gStride2 (g : BitVec 384) : Int := (g.extractLsb' 192 32).toInt
def gScale (g : BitVec 384) : Nat := (g.extractLsb' 224 32).toNat

/-- The extra value of an e2m1 operand (R147). -/
def gExtra (g : BitVec 384) : Option Nat := if gXvEn g then some (gXv g) else none

/-- An unset stream (R361). -/
def gUnset (g : BitVec 384) : Bool := gLen g == 0 || gExt1 g == 0 || gExt2 g == 0

/-- What GSET refuses (R102, R142): reserved bits or format, an unset image, a block format without a split. -/
def gIllegal (g : BitVec 384) : Bool :=
  gUnset g || 0x11 < gFormat g || g.extractLsb' 256 128 != 0 || g.extractLsb' 77 3 != 0 || g.extractLsb' 70 2 != 0
    || ((gFormat g == 0x0F || gFormat g == 0x10) && gSplit g == 0)

/-- Elements of a set stream (R361). -/
def gElems (g : BitVec 384) : Nat := gLen g * gExt1 g * gExt2 g

/-- Bytes of a run of n elements of a format (R325). -/
def runBytes (t n : Nat) : Nat :=
  match t with
  | 0x0E => n / 2
  | 0x0F => n / 32 * 34
  | 0x10 => n / 32 * 18
  | 0x11 => n / 32 * 20
  | t => n * (tyBits t / 8)

/-- The generic address of the byte of element i that starts it, or of its block (R263, R307). -/
def elemAddr (g : BitVec 384) (i : Nat) : Word :=
  let i0 := i % gLen g
  let q := i / gLen g
  let i1 := q % gExt1 g
  let i2 := q / gExt1 g
  gBase g + BitVec.ofInt 64 ((runBytes (gFormat g) i0 : Int) + i1 * gStride1 g + i2 * gStride2 g)

/-! ## Elements of register bytes (R286) -/

/-- Element i of width w bits in bytes. -/
def elemAt (w : Nat) (bs : List Byte) (i : Nat) : Nat :=
  if w = 4 then bitsOf (bs.getD (i / 2) 0).toNat (4 * (i % 2)) 4
  else natOfBytes ((bs.drop (i * (w / 8))).take (w / 8))

/-- Elements of a type in a vector (spec/14). -/
def lanes (t : Nat) : Nat := 2048 / tyBits t

/-- The lane that holds element i of a width (spec/14). -/
def laneOf (w i : Nat) : Nat := i * w / 32

/-- The guard mask of a form V instruction (R210). -/
def guardMask (c : Ctx) (v : VForm) : Word :=
  let m := if v.pred = 0 then (-1 : Word) else rdP c v.pred.toNat
  if v.pneg = 1 then ~~~ m else m

/-- Element i of width w is enabled by a mask: a 64-bit element by bit 2j, others by their lane's (R210). -/
def enabled (m : Word) (w i : Nat) : Bool := m.getLsbD (laneOf w i)

/-- The runs of bytes that enabled elements of width w write at off: (offset, bytes), e2m1 pairs merged into bytes. -/
def maskedRuns (w off : Nat) (m : Word) (old : List Byte) (vals : List Nat) : List (Nat × List Byte) :=
  if w = 4 then
    (List.range (vals.length / 2)).filterMap (fun j =>
      if enabled m 4 (2 * j) then
        some (off + j, [BitVec.ofNat 8 (nth vals (2 * j) + 16 * nth vals (2 * j + 1))])
      else none)
  else
    ((List.range vals.length).zip vals).filterMap (fun p =>
      if enabled m w p.1 then some (off + p.1 * (w / 8), bytesOfNat (w / 8) p.2) else none)

/-- Joins runs that follow each other. -/
def joinRuns : List (Nat × List Byte) → List (Nat × List Byte)
  | [] => []
  | r :: rs =>
    match joinRuns rs with
    | [] => [r]
    | q :: qs => if r.1 + r.2.length = q.1 then (r.1, r.2 ++ q.2) :: qs else r :: q :: qs

/-- A value of w bits extended to 64 bits: signed types by their sign (R259). -/
def extend (signed : Bool) (w v : Nat) : Word :=
  if signed then BitVec.ofInt 64 (signedOf w v) else BitVec.ofNat 64 (v % 2 ^ w)

end Sys2Proof.Machine
end

