-- ==== Sys2Proof/Machine/Scalar.lean ====
section
/-!
DEFINITION. The scalar and predicate instructions of spec/12: integer, immediate, multiply and divide, bit fields,
funnels, addresses, form P. Their results of one tick are written at once (log entry 8); longer ones when they perform.
-/
set_option linter.unusedVariables false
namespace Sys2Proof.Machine
open Sys2Proof

/-- 1 for a condition that holds, else 0 (R235). -/
def ofBool (b : Bool) : Word := if b then 1 else 0

/-- Leading zero bits of a word (R235). -/
def clz (x : Word) : Word := if x = 0 then 64 else BitVec.ofNat 64 (63 - Nat.log2 x.toNat)
/-- Trailing zero bits of a word (R235). -/
def ctz (x : Word) : Word :=
  match (List.range 64).find? (fun i => x.getLsbD i) with
  | some i => BitVec.ofNat 64 i
  | none => 64
/-- Set bits of a word (R235). -/
def popc (x : Word) : Word := BitVec.ofNat 64 ((List.range 64).filter (fun i => x.getLsbD i)).length

/-- Shift and rotate amounts (R235). -/
def amount (b : Word) : Nat := b.toNat % 64

/-- Truncating signed quotient and remainder with the borders of Table 7.2 at w = 64 (R144, R237). -/
def sdiv (a b : Word) : Word := if b = 0 then -1 else BitVec.ofInt 64 (Int.tdiv a.toInt b.toInt)
def srem (a b : Word) : Word := if b = 0 then a else BitVec.ofInt 64 (Int.tmod a.toInt b.toInt)
def udivw (a b : Word) : Word := if b = 0 then -1 else BitVec.ofNat 64 (a.toNat / b.toNat)
def uremw (a b : Word) : Word := if b = 0 then a else BitVec.ofNat 64 (a.toNat % b.toNat)

/-- d := f(S[a], S[b]), one tick (R234, R235). -/
def alu3 (f : Word → Word → Word) (d a b : Reg) : State → Out :=
  onCore [0] (fun s c => .ok (goOn s (wrS c d.toNat (f (rdS c a.toNat) (rdS c b.toNat))) 4 1))

/-- d := f(S[a]), one tick. -/
def alu2 (bit : Nat) (f : Word → Word) (d a : Reg) (len : Nat) : State → Out :=
  onCore [bit] (fun s c => .ok (goOn s (wrS c d.toNat (f (rdS c a.toNat))) len 1))

/-- d := f(S[a], S[b]) after k ticks that hold the sequencer (R237, Table 12.1). -/
def mulDiv (k : Nat) (f : Word → Word → Word) (d a b : Reg) : State → Out :=
  onCore [1] (fun s c =>
    let (s, c) := later s c d.toNat k (f (rdS c a.toNat) (rdS c b.toNat))
    .ok (goOn s c 4 k))

def execAdd (d a b : Reg) (s : State) : Out := alu3 (fun x y => x + y) d a b s
def execSub (d a b : Reg) (s : State) : Out := alu3 (fun x y => x - y) d a b s
def execAnd (d a b : Reg) (s : State) : Out := alu3 (fun x y => x &&& y) d a b s
def execOr (d a b : Reg) (s : State) : Out := alu3 (fun x y => x ||| y) d a b s
def execXor (d a b : Reg) (s : State) : Out := alu3 (fun x y => x ^^^ y) d a b s
def execAndn (d a b : Reg) (s : State) : Out := alu3 (fun x y => x &&& ~~~ y) d a b s
def execSll (d a b : Reg) (s : State) : Out := alu3 (fun x y => x <<< amount y) d a b s
def execSrl (d a b : Reg) (s : State) : Out := alu3 (fun x y => x >>> amount y) d a b s
def execSra (d a b : Reg) (s : State) : Out := alu3 (fun x y => x.sshiftRight (amount y)) d a b s
def execRol (d a b : Reg) (s : State) : Out := alu3 (fun x y => x.rotateLeft (amount y)) d a b s
def execRor (d a b : Reg) (s : State) : Out := alu3 (fun x y => x.rotateRight (amount y)) d a b s
def execSlt (d a b : Reg) (s : State) : Out := alu3 (fun x y => ofBool (x.slt y)) d a b s
def execSltu (d a b : Reg) (s : State) : Out := alu3 (fun x y => ofBool (x.ult y)) d a b s
def execSeq (d a b : Reg) (s : State) : Out := alu3 (fun x y => ofBool (x == y)) d a b s
def execMin (d a b : Reg) (s : State) : Out := alu3 (fun x y => if x.slt y then x else y) d a b s
def execMax (d a b : Reg) (s : State) : Out := alu3 (fun x y => if x.slt y then y else x) d a b s
def execMinu (d a b : Reg) (s : State) : Out := alu3 (fun x y => if x.ult y then x else y) d a b s
def execMaxu (d a b : Reg) (s : State) : Out := alu3 (fun x y => if x.ult y then y else x) d a b s
def execClz (d a : Reg) (s : State) : Out := alu2 0 clz d a 4 s
def execCtz (d a : Reg) (s : State) : Out := alu2 0 ctz d a 4 s
def execPopc (d a : Reg) (s : State) : Out := alu2 0 popc d a 4 s

def execMul (d a b : Reg) (s : State) : Out := mulDiv 3 (fun x y => x * y) d a b s
def execMulh (d a b : Reg) (s : State) : Out :=
  mulDiv 3 (fun x y => BitVec.ofInt 64 (x.toInt * y.toInt / (2 ^ 64 : Nat))) d a b s
def execMulhu (d a b : Reg) (s : State) : Out := mulDiv 3 (fun x y => BitVec.ofNat 64 (x.toNat * y.toNat / 2 ^ 64)) d a b s
def execDiv (d a b : Reg) (s : State) : Out := mulDiv 18 sdiv d a b s
def execDivu (d a b : Reg) (s : State) : Out := mulDiv 18 udivw d a b s
def execRem (d a b : Reg) (s : State) : Out := mulDiv 18 srem d a b s
def execRemu (d a b : Reg) (s : State) : Out := mulDiv 18 uremw d a b s

/-- The funnel shifts of R239. -/
def fshl (x y : Word) (n : Nat) : Word := if n = 0 then x else (x <<< n) ||| (y >>> (64 - n))
def fshr (x y : Word) (n : Nat) : Word := if n = 0 then y else (y >>> n) ||| (x <<< (64 - n))

def funnel (f : Word → Word → Nat → Word) (d a b k : Reg) : State → Out :=
  onCore [6] (fun s c =>
    .ok (goOn s (wrS c d.toNat (f (rdS c a.toNat) (rdS c b.toNat) (amount (rdS c k.toNat)))) 4 1))

def execFshl (d a b c : Reg) (s : State) : Out := funnel fshl d a b c s
def execFshr (d a b c : Reg) (s : State) : Out := funnel fshr d a b c s

/-- LEA (R240). -/
def execLea (d a b : Reg) (n : BitVec 2) (s : State) : Out := alu3 (fun x y => x + (y <<< n.toNat)) d a b s

/-- The window code of an address for a context (Table 8.2). -/
def windowCode (c : Ctx) (a : Word) : Nat :=
  match windowOf a with
  | .bad => 7
  | .global _ => 0
  | .priv _ => 1
  | .spad k _ => if k = c.lcore then 2 else 3
  | .gallery _ _ => 4
  | .sync _ _ => 5

/-- SPTEST (R164, R241). -/
def execSptest (d a : Reg) (s : State) : Out :=
  onCore [0] (fun s c => .ok (goOn s (wrS c d.toNat (BitVec.ofNat 64 (windowCode c (rdS c a.toNat)))) 4 1)) s

/-- The conversion of SPCAST (R164, R241): the address, when it is possible. -/
def spcast (c : Ctx) (t : Window) (x : Word) : Option Word :=
  let k := windowCode c x
  let own := match windowFor c x with | .bad => false | _ => true
  if own && k != 7 && k != 3 && t.code = k then some x
  else
    match t, windowOf x with
    | .gallery, .spad n off =>
      if n < c.teamSize then some (0xE000000000000000 ||| BitVec.ofNat 64 (n * 2 ^ 48 + off)) else none
    | .spad, .gallery n off =>
      if n = c.lcore then some (0xD000000000000000 ||| BitVec.ofNat 64 (c.lcore * 2 ^ 48 + off)) else none
    | _, _ => none

/-- SPCAST (R241): the converted address or 0, and the predicate. -/
def execSpcast (t : Window) (d a p : Reg) (s : State) : Out :=
  onCore [0] (fun s c =>
    let r := spcast c t (rdS c a.toNat)
    let c := wrP (wrS c d.toNat (r.getD 0)) p.toNat (if r.isSome then -1 else 0)
    .ok (goOn s c 4 1)) s

/-! ## Immediates: imm12 and imm32 forms share these (R236, R229) -/

/-- d := f(S[a], imm), one tick. -/
def aluImm (bit : Nat) (f : Word → Word) (len : Nat) (d a : Reg) : State → Out := alu2 bit f d a len

def execAddi (d a : Reg) (i : BitVec 12) (s : State) : Out := aluImm 0 (fun x => x + sx12 i) 4 d a s
def execAndi (d a : Reg) (i : BitVec 12) (s : State) : Out := aluImm 0 (fun x => x &&& sx12 i) 4 d a s
def execOri (d a : Reg) (i : BitVec 12) (s : State) : Out := aluImm 0 (fun x => x ||| sx12 i) 4 d a s
def execXori (d a : Reg) (i : BitVec 12) (s : State) : Out := aluImm 0 (fun x => x ^^^ sx12 i) 4 d a s
def execSlli (d a : Reg) (i : BitVec 6) (s : State) : Out := aluImm 0 (fun x => x <<< i.toNat) 4 d a s
def execSrli (d a : Reg) (i : BitVec 6) (s : State) : Out := aluImm 0 (fun x => x >>> i.toNat) 4 d a s
def execSrai (d a : Reg) (i : BitVec 6) (s : State) : Out := aluImm 0 (fun x => x.sshiftRight i.toNat) 4 d a s
def execSlti (d a : Reg) (i : BitVec 12) (s : State) : Out := aluImm 0 (fun x => ofBool (x.slt (sx12 i))) 4 d a s
def execSltiu (d a : Reg) (i : BitVec 12) (s : State) : Out := aluImm 0 (fun x => ofBool (x.ult (sx12 i))) 4 d a s

/-- The field of R238 at pos of len1 + 1 bits. -/
def bfx (x : Word) (pos len1 : Nat) : Word := BitVec.ofNat 64 (bitsOf x.toNat pos (len1 + 1))
def bfxs (x : Word) (pos len1 : Nat) : Word := BitVec.ofInt 64 (signedOf (len1 + 1) (bitsOf x.toNat pos (len1 + 1)))
/-- BFI's result (R238). -/
def bfi (d x : Word) (pos len1 : Nat) : Word :=
  let m : Word := BitVec.ofNat 64 (2 ^ (len1 + 1) - 1)
  (d &&& ~~~ (m <<< pos)) ||| ((x &&& m) <<< pos)

/-- BFI reads d as well (R238). -/
def insertField (pos len1 len : Nat) (d a : Reg) : State → Out :=
  onCore [6] (fun s c => .ok (goOn s (wrS c d.toNat (bfi (rdS c d.toNat) (rdS c a.toNat) pos len1)) len 1))

def execBfx (d a : Reg) (p l : BitVec 6) (s : State) : Out := aluImm 6 (fun x => bfx x p.toNat l.toNat) 4 d a s
def execBfxs (d a : Reg) (p l : BitVec 6) (s : State) : Out := aluImm 6 (fun x => bfxs x p.toNat l.toNat) 4 d a s
def execBfi (d a : Reg) (p l : BitVec 6) (s : State) : Out := insertField p.toNat l.toNat 4 d a s

/-! ## Predicates (R242) -/

/-- pd := f(pa, pb). -/
def pred3 (f : Word → Word → Word) (pd pa pb : PReg) : State → Out :=
  onCore [0] (fun s c => .ok (goOn s (wrP c pd.toNat (f (rdP c pa.toNat) (rdP c pb.toNat))) 8 1))

def execPand (pd pa pb : PReg) (s : State) : Out := pred3 (fun x y => x &&& y) pd pa pb s
def execPor (pd pa pb : PReg) (s : State) : Out := pred3 (fun x y => x ||| y) pd pa pb s
def execPxor (pd pa pb : PReg) (s : State) : Out := pred3 (fun x y => x ^^^ y) pd pa pb s
def execPandn (pd pa pb : PReg) (s : State) : Out := pred3 (fun x y => x &&& ~~~ y) pd pa pb s
def execPnot (pd pa : PReg) (s : State) : Out := pred3 (fun x _ => ~~~ x) pd pa pa s
def execPsetl (pd : PReg) (i : BitVec 32) (s : State) : Out :=
  onCore [0] (fun s c => .ok (goOn s (wrP c pd.toNat (i.setWidth 64)) 8 1)) s
def execPseth (pd : PReg) (i : BitVec 32) (s : State) : Out :=
  onCore [0] (fun s c => .ok (goOn s (wrP c pd.toNat (i ++ (rdP c pd.toNat).extractLsb' 0 32)) 8 1)) s
def execPget (d : Reg) (pa : PReg) (s : State) : Out :=
  onCore [0] (fun s c => .ok (goOn s (wrS c d.toNat (rdP c pa.toNat)) 8 1)) s
def execPput (pd : PReg) (a : Reg) (s : State) : Out :=
  onCore [0] (fun s c => .ok (goOn s (wrP c pd.toNat (rdS c a.toNat)) 8 1)) s

end Sys2Proof.Machine
end

