-- ==== Sys2Proof/Machine/Landing.lean ====
section
/-!
DEFINITION. Flights and landings (R165 to R171, R180): placing stores in the flight, the landing tick, what a landing
writes and what it drops, and the operations at a synchronisation engine a release leads to (their ticks, R258, R283).
-/
set_option linter.unusedVariables false
namespace Sys2Proof.Machine
open Sys2Proof

/-- The rent entry whose region is a space. -/
def refOfSpace (s : State) (space : Nat) : Option Nat :=
  (s.rents.find? (fun e => e.2.space == space && !e.2.sub && e.2.state != 0)).map Prod.fst

/-- Bytes of the flight buffer and of the spill granules (R167). -/
def flightBuffer : Nat := 262144
def spillBytes : Nat := 524288

/-- The rent entry of the place a buffered byte takes, by its number: none for the flight buffer itself (R167). -/
def spillRef (c : Ctx) (i : Nat) : Option Nat :=
  if i < flightBuffer then none
  else if i < flightBuffer + spillBytes then some (nth c.grantRefs 2)
  else some c.priv

/-- A spill place that has lapsed (R180, Table 4.10). -/
def spillLapsed (s : State) (c : Ctx) (i : Nat) : Bool :=
  match spillRef c i with
  | none => false
  | some r => (rentOf s r).state != 1

/-- A flight whose bytes have one place each, those stored before tick t: a byte keeps its first place and has its last value
(R167). -/
def mergeFlight (fl : List FByte) (t : Nat) : List FByte :=
  fl.foldl (fun l f =>
    let here := fun (g : FByte) => g.space == f.space && g.off == f.off
    if f.placed < t && l.any here then l.map (fun g => if here g then f else g) else l ++ [f]) []

/-- Stores of a run of bytes, with the words in it that are poisoned, enter the flight at tick t: a byte already there keeps its place
(R167). A store of an earlier tick stays beside it for the rest of the tick, since a landing that executes now takes that one (R355). -/
def stageBytes (fl : List FByte) (space off addr : Nat) (bs : List Byte) (ps : List Nat) (t : Nat) : List FByte :=
  ((List.range bs.length).zip bs).foldl (fun fl p =>
    let f : FByte := ⟨space, off + p.1, addr + p.1, p.2, ps.any (fun w => w ≤ p.1 && p.1 < w + 8), t⟩
    let here := fun (g : FByte) => g.space == space && g.off == off + p.1 && t ≤ g.placed
    if fl.any here then fl.map (fun g => if here g then f else g) else fl ++ [f]) (mergeFlight fl t)

/-- A flight's places that a storage error has flagged: the buffer discards their bytes (R193; log entry 15). -/
def Ctx.discard (c : Ctx) : Ctx :=
  if !c.upsets.any (fun u => 2 ^ 20 ≤ u.1) then c
  else
    let bad := fun (i : Nat) => c.upsets.any (fun u => !isVertical u.2 && isFlagged u.2 && u.1 == 2 ^ 20 + i / 8 * 8)
    { c with
      flight := (((List.range c.flight.length).zip c.flight).filter (fun p => !bad p.1)).map Prod.snd
      upsets := c.upsets.filter (fun u => u.1 < 2 ^ 20 || isVertical u.2 || !isFlagged u.2) }

/-- The flight as a landing that executes at tick e takes it, and what it leaves: bytes placed before e land, and bytes placed later
join the next flight (R355). -/
def Ctx.split (c : Ctx) (e : Nat) : List FByte × Ctx :=
  let c := c.discard
  let fl := mergeFlight c.flight e
  let go := fl.filter (fun f => f.placed < e)
  (go, { c with inLand := c.inLand ++ go, flight := fl.filter (fun f => e ≤ f.placed), upsets := c.upsets.filter (fun u => u.1 < 2 ^ 20) })

/-- The home of a buffered byte lies outside the context's timed domain, or over a link (R168). -/
def homeAway (s : State) (c : Ctx) (f : FByte) : Bool :=
  let dom k := (List.range 8).findRev? (fun d => d ≤ k && s.clock.dom.toNat / 2 ^ d % 2 == 1)
  match refOfSpace s f.space with
  | none => f.space = 0
  | some r => 3 ≤ (rentOf s r).tier || dom (refDie r) != dom (dieOfCore c.core)

/-- Base ticks of a landing scope (Table 8.4; at system scope those of domain, R168). -/
def landBase : Scope → Nat
  | .core => 4 | .gallery => 16 | .die => 40 | .domain => 120 | .system => 120

/-- The landing tick of bytes from tick e (R168): counted at system scope when one is homed away. -/
def landTick (s : State) (c : Ctx) (sc : Scope) (fl : List FByte) (e : Nat) : Nat × State :=
  let t := e + landBase sc + ceilDiv fl.length 512
  if sc = .system && fl.any (homeAway s c) then
    let (d, s) := openTicks s
    (t + d, s)
  else (t, s)

/-- Why a buffered byte is dropped at its landing, as the tinfo of Table 4.2 (R180): its spill place, or its place's rights, have
gone. -/
def whyDropped (s : State) (c : Ctx) (i : Nat) (f : FByte) : Option Nat :=
  if spillLapsed s c i then some (if (rentOf s ((spillRef c i).getD 0)).state = 2 then 0 else 1)
  else if f.space = 0 then none
  else match refOfSpace s f.space with
    | none => some 1
    | some r => rights s c ⟨f.space, f.off, r, 0, 0, 0, 0, false⟩

/-- A buffered byte is dropped at its landing. -/
def droppedAtLanding (s : State) (c : Ctx) (i : Nat) (f : FByte) : Bool := (whyDropped s c i f).isSome

/-- A store performs: the read-only bytes of an object used as a word or barrier keep their value (Tables 5.7, 13.5),
words whose target or count it covers are armed (R115, R260, R266). -/
def storeSpace (s : State) (space off : Nat) (bs : List Byte) (tick : Nat) (landing : Option Nat) : State :=
  let ro := s.words.filter (fun w => w.1 == space && w.2.1 < off + bs.length && off < w.2.1 + 6)
  let bs' := ((List.range bs.length).zip bs).map (fun p =>
    if ro.any (fun w => w.2.1 ≤ off + p.1 && off + p.1 < w.2.1 + 6) then s.mem.read (locOf space (off + p.1)) else p.2)
  armStored (writeSpace s space off bs' [] tick landing) space off bs.length tick

/-- The word of a byte is marked poisoned; storage 0 is host memory (R194). -/
def markWord (s : State) (space off : Nat) : State :=
  let w := (space, off / 8 * 8)
  { s with memPoison := if s.memPoison.contains w then s.memPoison else s.memPoison ++ [w] }

/-- A store performs at a place, of a poisoned value where bad (R194). -/
def storePlace (s : State) (p : Place) (bs : List Byte) (bad : Bool) (tick : Nat) (landing : Option Nat) : State :=
  let s := if p.host then writeHost s p.off bs [] tick landing else storeSpace s p.space p.off bs tick landing
  if bad then markWord s p.space p.off else s

/-- Removes one occurrence of each of xs. -/
def takeAway (l xs : List FByte) : List FByte := xs.foldl (fun l x => l.erase x) l

/-- A landing performs at tick t (R168 to R170): what it does not drop is written as one landing, words it wrote target
or count of are armed, the context's view rises, earlier landings of the writer count as seen where this one reaches,
and every context it excludes sees it at a tick the device leaves open. Answers the address and tinfo of the first dropped byte in
place order and the number of dropped bytes. -/
def performLanding (s : State) (uid : Nat) (sc : Scope) (bytes : List FByte) (t : Nat) : Option (Nat × Nat) × Nat × State :=
  match unitOf s uid with
  | none => (none, 0, s)
  | some c =>
    let tagged := (List.range bytes.length).zip bytes
    let lost := tagged.filterMap (fun p => (whyDropped s c p.1 p.2).map (fun w => (p.2.addr, w)))
    let kept := (tagged.filter (fun p => !droppedAtLanding s c p.1 p.2)).map Prod.snd
    let i := s.landings.length
    let incl := ((allUnits s).filter (inScope s sc c.core)).map Ctx.uid
    let s := { s with landings := s.landings ++ [⟨uid, c.core, t, sc, s.clock.pulses, incl, []⟩] }
    let host := joinRuns ((kept.filter (fun f => f.space = 0)).map (fun f => (f.off, [f.val])))
    let s := host.foldl (fun s r => writeHost s r.1 r.2 [] t (some i)) s
    let runs := joinRuns ((kept.filter (fun f => f.space != 0)).map (fun f => (locOf f.space f.off, [f.val])))
    let s := runs.foldl (fun s r =>
      storeSpace s (r.1 / 2 ^ 41) (r.1 % 2 ^ 41) r.2 t (some i)) s
    let s := (kept.filter FByte.mark).foldl (fun s f => markWord s f.space f.off) s
    let s := modUnit s uid (fun c => { c.raise s t with inLand := takeAway c.inLand bytes })
    let out := (allUnits s).filter (fun u => u.uid != uid && !incl.contains u.uid)
    let s := if kept.isEmpty then s else out.foldl (fun s u =>
      let (d, s) := openTicks s
      schedC s u (tickOf s u + d) 4 (.ins (.storeBecomesVisible i u.uid))) s
    (lost.head?, lost.length, s)

/-- STORE_BECOMES_VISIBLE (R170): a landing whose scope excludes a context is visible to it from now on. -/
def execStoreBecomesVisible (landing uid : Nat) (s : State) : Out :=
  match unitOf s uid with
  | none => .next s
  | some c => .next { s with landings := ((List.range s.landings.length).zip s.landings).map (fun p =>
      if p.1 = landing then { p.2 with seen := p.2.seen ++ [(uid, tickOf s c)] } else p.2) }

/-! ## Operations at a synchronisation engine -/

/-- Ticks from issue to perform at the engine that holds a place, and from there to the result (Table 13.1). -/
def engineTicks (c : Ctx) (p : Place) : Nat × Nat :=
  if p.win != 5 then (24, 20)
  else if p.die = dieOfCore c.core then (if p.off < 0x100000 then 20 else 60, 20)
  else (if p.off < 0x100000 then 100 else 140, 80)

/-- The engine that performs an address is reached by its window: synchronisation space or the own scratchpad. -/
def atEngine (p : Place) : Bool := p.win = 5 || p.win = 2

/-- The offset inside the die's synchronisation space decides the overflow area, not the region's own offset. -/
def enginePlace (a : Word) (p : Place) : Place :=
  match windowOf a with
  | .sync die off => { p with off := off, die := die }
  | _ => p

/-- The object an operation touches: the aligned 16-byte unit (R283). -/
def objectKey (p : Place) : Nat := locOf p.space (p.off / 16)

/-- The perform tick of a context's operation on an object: its own tick, or one after the previous one's (R283). -/
def orderedAt (c : Ctx) (key t : Nat) : Nat × Ctx :=
  let t := match tget c.objects key with
    | some l => max t (l + 1)
    | none => t
  (t, { c with objects := tset c.objects key t })

/-- A release lands the flight at its scope from tick e, then performs o at the engine (R171, Table 13.1). The flight
becomes bytes in landing. Answers the perform tick. -/
def releaseAt (s : State) (c : Ctx) (p : Place) (o : SyncOp) (e : Nat) : Nat × State × Ctx :=
  let (fl, c) := c.split e
  let (tl, s) := landTick s c o.scope fl e
  let (t, c) := orderedAt c (objectKey p) (tl + (engineTicks c (enginePlace (BitVec.ofNat 64 o.addr) p)).1)
  (t, schedC s c tl 4 (.eff (.land c.uid o.scope fl t (some o))), c)

/-- LAND, HALT and an exit land the flight with nothing after it. -/
def landAt (s : State) (c : Ctx) (sc : Scope) (e : Nat) : Nat × State × Ctx :=
  let (fl, c) := c.split e
  let (tl, s) := landTick s c sc fl e
  (tl, schedC s c tl 4 (.eff (.land c.uid sc fl tl none)), c)

end Sys2Proof.Machine
end

