-- ==== Sys2Proof/Machine/Sync.lean ====
section
/-!
DEFINITION. Operations at a synchronisation engine (R165, R171, R265, R266, R271 to R274, R282, R283, R348): what each
does when it performs, waits and their release, barriers, and the instructions that issue them.
-/
set_option linter.unusedVariables false
namespace Sys2Proof.Machine
open Sys2Proof

/-- Address of an operation. -/
def SyncOp.word (o : SyncOp) : Word := BitVec.ofNat 64 o.addr

/-- Where an operation's address leads, while it is mapped. -/
def opPlace (s : State) (c : Ctx) (o : SyncOp) : Option Place :=
  match translate s c (windowFor c o.word) o.word with
  | .ok p => some p
  | .error _ => none

/-- Ticks from perform to result (Table 13.1); from a wait's test or release to its status (R348). -/
def resultTicks (c : Ctx) (o : SyncOp) : Nat :=
  match o.kind, windowOf o.word with
  | .swait, _ | .waitb, _ => 20
  | _, .sync die _ => if die = dieOfCore c.core then 20 else 80
  | _, _ => 20

/-- The value an atomic writes, if it writes one (R266). -/
def rmw (o : SyncOp) (old : Nat) : Option Nat :=
  let w := 8 * o.size
  let b := o.val.toNat % 2 ^ w
  let lt := if o.signed then decide (signedOf w old < signedOf w b) else decide (old < b)
  match o.kind with
  | .add => some ((old + b) % 2 ^ w)
  | .and => some (Nat.land old b)
  | .or => some (Nat.lor old b)
  | .xor => some (Nat.xor old b)
  | .min => some (if lt then old else b)
  | .max => some (if lt then b else old)
  | .swap => some b
  | .cas => if old = o.exp.toNat % 2 ^ w then some b else none
  | _ => none

/-- The context's view rises to an acquire's perform tick (R171). -/
def acquire (s : State) (uid t : Nat) : State := modUnit s uid (fun c => c.raise s t)

/-- What a landing or a held effect reports when it is over: the first of several. -/
def Ctx.report (c : Ctx) (cause tval tinfo : Nat) : Ctx :=
  { c with landDropped := match c.landDropped with | none => some (cause, tval, tinfo) | x => x }

/-- A held effect that finds no rights is dropped; the close reports its address (R282). -/
def dropHeld (s : State) (uid a why : Nat) : State := modUnit s uid (fun c => c.report cLAPSED a why)

/-- Schedules a result of d (a physical scalar) k ticks on. -/
def resultIn (s : State) (c : Ctx) (o : SyncOp) (v : Word) (t : Nat) : State :=
  schedC s c (t + resultTicks c o) 16 (.eff (.result c.uid o v))

/-! ## Barriers (R271 to R273) -/

/-- The object at a spot is a barrier from its first use as one: what stores left in its read-only bits goes, but the freeze of one that
was a synchronisation word (Tables 5.7, 13.5; log entry 19). -/
def meetBarrier (s : State) (space off t : Nat) : State :=
  match s.words.find? (fun w => w.1 == space && w.2.1 == off) with
  | some (_, _, true) => s
  | x =>
    let w := wordAt s space off
    touchWord { s with words := s.words.filter (fun w => !(w.1 == space && w.2.1 == off)) ++ [(space, off, true)] } space off
      { w with reached := false, frozen := w.frozen && x.isSome } t

/-- The object at a spot is frozen: a lapse has met it in use, and it has not been re-armed (R87; log entry 19). -/
def frozenAt (s : State) (space off : Nat) : Bool :=
  s.words.any (fun w => w.1 == space && w.2.1 == off) && (wordAt s space off).frozen

/-- Completes a generation when enough have arrived: waiters are released at the next tick (R273). -/
def completeGen (s : State) (space off : Nat) (w : SyncWord) (t : Nat) : State :=
  releaseWaiters (putWord s space off { w with gen := (w.gen + 1) % 65536, count := 0 } t) space off .waitb 0 1

/-- One arrival (R273): nothing when the registration records the current generation. -/
def arriveAt (s : State) (c : Ctx) (space off a t : Nat) : State :=
  let w := wordAt s space off
  if c.regs16.any (fun r => r.addr == a && r.gen == w.gen) then s
  else
    let s := modUnit s c.uid (fun c => { c with regs16 := c.regs16.filter (fun r => r.addr != a) ++ [⟨a, w.gen⟩] })
    if w.target ≤ w.count + 1 then completeGen s space off w t
    else putWord s space off { w with count := w.count + 1 } t

/-- The drop after an arrival: one fewer expected, which may itself complete the generation (R273). -/
def dropAt (s : State) (uid space off a t : Nat) : State :=
  let s := modUnit s uid (fun c => { c with regs16 := c.regs16.filter (fun r => r.addr != a) })
  let w := wordAt s space off
  let w := { w with target := w.target - 1 }
  if 0 < w.target && w.target ≤ w.count then completeGen s space off w t else putWord s space off w t

/-- ARRDROP on a lapsed barrier, or an exit's on any it has no rights to, removes the registration and no more (Tables 4.10, 13.11);
without rights to a PAID region it raises like the others. -/
def lapsedDrop (o : SyncOp) (gone : Option Nat) : Bool :=
  o.kind == .arrdrop && (o.size == 0 || (gone != some 2 && gone != some 3))

/-- A barrier write performs (R87, R273, Table 13.11). An exit's ARRDROP has size 0. -/
def barrierAt (s : State) (c : Ctx) (o : SyncOp) (t : Nat) : State :=
  match opPlace s c o with
  | none => s
  | some p =>
    let s := meetBarrier s p.space p.off t
    let gone := rights s c p
    let w := wordAt s p.space p.off
    let noReg := fun (s : State) => modUnit s c.uid (fun c => { c with regs16 := c.regs16.filter (fun r => r.addr != o.addr) })
    match (if lapsedDrop o gone then none else gone), o.kind with
    | some i, _ => if o.held then dropHeld s c.uid o.addr i else takeFault s c.uid ⟨cLAPSED, o.word, BitVec.ofNat 64 i, false⟩ o.pc
    | none, .binit =>
      let s := putWord s p.space p.off { w with target := o.val.toNat % 2 ^ 32, count := 0, frozen := false } t
      let s := (allUnits s).foldl (fun s u => modUnit s u.uid (fun u => { u with regs16 := u.regs16.filter (fun r => r.addr != o.addr) })) s
      releaseWaiters s p.space p.off .waitb 2 0
    | none, k =>
      if gone.isSome then noReg s
      else if w.frozen then (if k = .arrdrop then noReg s else s)
      else if 16 ≤ c.regs16.length && !(c.regs16.any (fun r => r.addr == o.addr)) then
        (if o.held then modUnit s c.uid (fun c => c.report cREGION 0 7) else takeFault s c.uid ⟨cREGION, 0, 7, false⟩ o.pc)
      else
        let s := arriveAt s c p.space p.off o.addr t
        if k = .arrdrop then dropAt s c.uid p.space p.off o.addr t else s

/-- An operation of a context is on its way to an engine, or was the last to perform on a barrier at which it is registered at this
tick: its arrive-and-drop comes later (R283). -/
def sentOps (s : State) (c : Ctx) : Bool :=
  s.agenda.any (fun e => e.uid == c.uid && (match e.act with
    | .eff (.sync _ _) | .eff (.land _ _ _ _ (some _)) => true
    | _ => false))
  || c.regs16.any (fun r => match opPlace s c { (default : SyncOp) with addr := r.addr } with
    | some p => (tget c.objects (objectKey p)).any (fun t => tickOf s c ≤ t)
    | none => false)

/-- Drops the registration and arrives at every barrier of an exiting context, in increasing address order (R273). -/
def exitDrops (s : State) (uid : Nat) (t : Nat) : State :=
  match unitOf s uid with
  | none => s
  | some c =>
    let rs := c.regs16.mergeSort (fun a b => a.addr ≤ b.addr)
    rs.foldl (fun s r =>
      match unitOf s uid with
      | none => s
      | some c => barrierAt s c { (default : SyncOp) with kind := .arrdrop, addr := r.addr } t) s

/-! ## Waits (R274, R348) -/

/-- A wait is over with a status: an acquire when it is 0; the status is written at the result tick. -/
def endWait (s : State) (c : Ctx) (o : SyncOp) (status t : Nat) : State :=
  let s := if status = 0 then acquire s c.uid t else s
  let s := modUnit s c.uid (fun c => { c with wait := .status o })
  resultIn s c o (BitVec.ofNat 64 status) t

/-- The test of SWAIT or WAITB (R87, R274, R348). -/
def testWait (s : State) (c : Ctx) (o : SyncOp) (t : Nat) : State :=
  match opPlace s c o with
  | none => takeFault s c.uid ⟨cLAPSED, o.word, 1, false⟩ c.pc
  | some p =>
    let live := (rentOf s p.ref).state = 1 || (rentOf s p.ref).state = 2
    if live && frozenAt s p.space p.off then endWait s c o 3 t
    else match rights s c p with
      | some i => takeFault s c.uid ⟨cLAPSED, o.word, BitVec.ofNat 64 i, false⟩ c.pc
      | none =>
        match o.kind with
        | .swait =>
          let s := meetWord s p.space p.off t
          if (wordAt s p.space p.off).reached then endWait s c o 0 t
          else modUnit s c.uid (fun c => { c with wait := .op o })
        | _ =>
          let s := meetBarrier s p.space p.off t
          match c.regs16.find? (fun r => r.addr == o.addr) with
          | none => endWait s c o 1 t
          | some r => if r.gen = (wordAt s p.space p.off).gen then modUnit s c.uid (fun c => { c with wait := .op o })
              else endWait s c o 0 t

/-- WAIT_RELEASE (R348): a blocked wait is released and its status is on its way. -/
def execWaitRelease (uid status : Nat) (s : State) : Out :=
  match unitOf s uid with
  | none => .next s
  | some c =>
    match c.wait with
    | .op o => .next (endWait s c o status (tickOf s c))
    | _ => .next s

/-! ## Performing -/

/-- An atomic's target freezes with its region (R86). -/
def noteTarget (s : State) (p : Place) : State :=
  let k := (p.space, p.off / 16 * 16)
  if p.host || s.targets.contains k then s else { s with targets := s.targets ++ [k] }

/-- A held effect that finds no rights is dropped; another raises RENT_LAPSED at its instruction (R180, R282; log entry 113). -/
def lapsedOp (s : State) (uid : Nat) (o : SyncOp) (why : Nat) : State :=
  if o.held then dropHeld s uid o.addr why else takeFault s uid ⟨cLAPSED, o.word, BitVec.ofNat 64 why, false⟩ o.pc

/-- The generic address of the poisoned word that an operation's read meets (R194). -/
def opPoison (s : State) (p : Place) (o : SyncOp) : Option Word :=
  match o.kind with
  | .store | .relStore => none
  | _ => (poisonedAt s p o.size).map (fun w => if w < p.off then o.word - BitVec.ofNat 64 (p.off - w) else o.word + BitVec.ofNat 64 (w - p.off))

/-- An operation performs at its engine at tick t (R265, R266, R283). -/
def performSync (s : State) (uid : Nat) (o : SyncOp) (t : Nat) : State :=
  match unitOf s uid with
  | none => s
  | some c =>
    match o.kind with
    | .arrive | .arrdrop | .binit => barrierAt s c o t
    | .swait | .waitb => if c.wait = .test o then testWait s c o t else s
    | k =>
      match opPlace s c o with
      | none => lapsedOp s uid o 1
      | some p =>
        match rights s c p, opPoison s p o with
        | some w, _ => lapsedOp s uid o w
        | none, some a => takeFault s uid ⟨cUNCORR, a, 0, false⟩ o.pc
        | none, none =>
          let old := natOfBytes (readNow s p o.size)
          match k with
          | .load => resultIn s c o (extend o.signed (8 * o.size) old) t
          | .acqLoad => resultIn (acquire s uid t) c o (extend o.signed (8 * o.size) old) t
          | .store | .relStore => storePlace s p (bytesOfNat o.size o.val.toNat) o.bad t none
          | _ =>
            let s := noteTarget s p
            let s := match rmw o old with
              | some v => storePlace s p (bytesOfNat o.size v) o.bad t none
              | none => s
            if o.d = 0 then s else resultIn (acquire s uid t) c o (extend o.signed (8 * o.size) old) t

/-- A result is written: a wait's status and predicate, after which the context goes on; else scalar d (R274, R348). -/
def performResult (s : State) (uid : Nat) (o : SyncOp) (v : Word) : State :=
  match unitOf s uid with
  | none => s
  | some c =>
    match o.kind with
    | .swait | .waitb =>
      if c.wait = .status o then
        setUnit s { wrPhysP (wrPhys c o.d v) o.p (if v = 0 then -1 else 0) with
          wait := .run, pc := c.pc + 4, nextAt := max c.nextAt (tickOf s c) }
      else s
    | _ => setUnit s (wrPhys c o.d v)

/-- A landing performs (R168, R171, R180): a release whose landing dropped a byte raises RENT_LAPSED and does not
perform its write; otherwise its operation follows, a store to a shared window as the landing's last. -/
def performLand (s : State) (uid : Nat) (sc : Scope) (bytes : List FByte) (perf : Nat) (op : Option SyncOp) : State :=
  match unitOf s uid with
  | none => s
  | some c =>
    let t := tickOf s c
    let (low, n, s) := performLanding s uid sc bytes t
    match op, low with
    | none, none => s
    | none, some a =>
      (match c.wait with
      | .halt _ => truncBoth s uid 0 0 10 0xF3 0xF3 (bytes.length - n) t (BitVec.ofNat 64 a.1) (lessorAt s c (BitVec.ofNat 64 a.1) a.2)
      | _ => modUnit s uid (fun c => c.report cLAPSED a.1 a.2))
    | some o, some a =>
      if o.held then dropHeld s uid a.1 a.2 else takeFault s uid ⟨cLAPSED, BitVec.ofNat 64 a.1, BitVec.ofNat 64 a.2, false⟩ o.pc
    | some o, none =>
      match opPlace s c o with
      | some p =>
        if atEngine p || o.kind != .relStore then schedC s c perf 12 (.eff (.sync uid o))
        else
          match rights s c p with
          | some w => takeFault s uid ⟨cLAPSED, o.word, BitVec.ofNat 64 w, false⟩ o.pc
          | none =>
            storePlace s p (bytesOfNat o.size o.val.toNat) o.bad t (some (s.landings.length - 1))
      | none => if o.held then dropHeld s uid o.addr 1 else takeFault s uid ⟨cLAPSED, o.word, 1, false⟩ o.pc

/-! ## Issuing -/

/-- Whether an idem region is open. -/
def Ctx.idem (c : Ctx) : Bool := match c.region with | some r => r.idem | none => false

/-- Holds an effect in the open idem region, the 65th faults (R268). -/
def holdEffect (c : Ctx) (o : SyncOp) : Res Ctx :=
  match c.region with
  | some r => if 64 ≤ r.held.length then flt cREGION 0 6
      else .ok { c with region := some { r with held := r.held ++ [{ o with held := true }] } }
  | none => .ok c

/-- An operation that is no release is sent to the engine at tick e: its perform tick. -/
def sendOp (s : State) (c : Ctx) (p : Place) (o : SyncOp) (e : Nat) : Nat × State × Ctx :=
  let (t, c) := orderedAt c (objectKey p) (e + (engineTicks c (enginePlace o.word p)).1)
  (t, schedC s c t 12 (.eff (.sync c.uid o)), c)

/-- A 16-byte object an engine operation names: in synchronisation space, or the own scratchpad where spad allows it. -/
def objectPlace (s : State) (c : Ctx) (a : Word) (spad : Bool) : Res Place :=
  match windowFor c a with
  | .bad => flt cADDRESS a
  | w =>
    let own := match w with
      | .sync _ _ => true
      | .spad _ _ => spad
      | .gallery k _ => spad && k = c.lcore
      | _ => false
    if !own then flt cADDRESS a
    else if a.toNat % 16 != 0 then flt cALIGN a
    else translate s c w a

/-- Barrier writes (R268, R273): checked at execute, held in an idem region, else released at their scope. -/
def barrierInstr (k : SyncKind) (sc : Scope) (a : Reg) (val : Ctx → Word) : State → Out :=
  onCore [21] (fun s c => do
    let addr := rdS c a.toNat
    let p ← objectPlace s c addr false
    if k = .binit && (val c).toNat = 0 then flt cADDRESS 0
    else
      let gone := rights s c p
      match (if k = .arrdrop && gone != some 2 && gone != some 3 then none else gone) with
      | some i => flt cLAPSED addr (BitVec.ofNat 64 i)
      | none =>
        if k != .binit && !frozenAt s p.space p.off && gone.isNone && 16 ≤ c.regs16.length && !(c.regs16.any (fun r => r.addr == addr.toNat)) then flt cREGION 0 7
        else
          let o : SyncOp := { (default : SyncOp) with
            kind := k, addr := addr.toNat, size := 16, scope := sc, val := val c, pc := c.pc }
          if c.idem then
            let c ← holdEffect c o
            .ok (goOn s c 4 1)
          else
            let (_, s, c) := releaseAt s c p o (tickOf s c)
            .ok (goOn s c 4 1))

def execArrive (sc : Scope) (a : Reg) (s : State) : Out := barrierInstr .arrive sc a (fun _ => 0) s
def execArrdrop (sc : Scope) (a : Reg) (s : State) : Out := barrierInstr .arrdrop sc a (fun _ => 0) s
def execBinit (sc : Scope) (a b : Reg) (s : State) : Out := barrierInstr .binit sc a (fun c => rdS c b.toNat) s

/-- SWAIT and WAITB block until their test and then as it says (R274, R348). -/
def waitInstr (k : SyncKind) (spad : Bool) (sc : Scope) (p d a : Reg) : State → Out :=
  onCore [21] (fun s c => do
    let addr := rdS c a.toNat
    let pl ← objectPlace s c addr spad
    let o : SyncOp := { (default : SyncOp) with
      kind := k, addr := addr.toNat, size := 16, scope := sc, d := rot c d.toNat, p := rotP c p.toNat, pc := c.pc }
    let (_, s, c) := sendOp s c pl o (tickOf s c)
    .ok { s with cx := some { c with wait := .test o } })

def execSwait (sc : Scope) (p d a : Reg) (s : State) : Out := waitInstr .swait true sc p d a s
def execWaitb (sc : Scope) (p d a : Reg) (s : State) : Out := waitInstr .waitb false sc p d a s

end Sys2Proof.Machine
end

