-- ==== Sys2Proof/Machine/Control.lean ====
section
/-!
DEFINITION. Branches, loops, segments, waiting on time, team alignment, system state, traps into the user handler, code
visibility and hints (spec/12 R243 to R257, spec/08 R178).
-/
set_option linter.unusedVariables false
namespace Sys2Proof.Machine
open Sys2Proof

/-! ## Branches (R243) -/

/-- Whether a signed value meets a condition (R225). -/
def condHolds (k : Cond) (x : Word) : Bool :=
  match k with
  | .z => x == 0 | .nz => x != 0 | .lt => x.slt 0 | .ge => !x.slt 0 | .le => x.slt 0 || x == 0
  | .gt => !x.slt 0 && x != 0

/-- A transfer to t that takes h ticks; a target that is no multiple of 4 raises ALIGN (R199). -/
def transfer (s : State) (c : Ctx) (t : Word) (h : Nat) : Res State :=
  if t.toNat % 4 != 0 then flt cALIGN t
  else .ok { s with cx := some { c with pc := t, nextAt := tickOf s c + h } }

/-- pc + 4 × offset. -/
def target (c : Ctx) (off : Word) : Word := c.pc + off * 4

def branch (k : Cond) (a : Reg) (off : Word) (len : Nat) : State → Out :=
  onCore [0] (fun s c => if condHolds k (rdS c a.toNat) then transfer s c (target c off) 2 else .ok (goOn s c len 1))

def jump (off : Word) : State → Out := onCore [0] (fun s c => transfer s c (target c off) 2)

/-- JL writes pc + 4 to s1, in either form (R243). -/
def jumpLink (off : Word) : State → Out :=
  onCore [0] (fun s c => transfer s (if (target c off).toNat % 4 = 0 then wrS c 1 (c.pc + 4) else c) (target c off) 2)

def execBr (k : Cond) (a : Reg) (off : BitVec 12) (s : State) : Out := branch k a (sx12 off) 4 s
def execJ (off : BitVec 12) (s : State) : Out := jump (sx12 off) s
def execJl (off : BitVec 12) (s : State) : Out := jumpLink (sx12 off) s

/-- JR reads S[a] before it writes S[d]; a misaligned target writes nothing (R243). -/
def execJr (d a : Reg) (s : State) : Out :=
  onCore [0] (fun s c =>
    let t := rdS c a.toNat
    transfer s (if t.toNat % 4 = 0 then wrS c d.toNat (c.pc + 4) else c) t 3) s

/-- LOOPR (R248); p96 is the name after the new rb. -/
def loopStep (off : Word) (len : Nat) : State → Out :=
  onCore [0] (fun s c =>
    let back := { c with rb := c.rb - 1 }
    if c.lc != 0 then transfer s (wrP { back with lc := c.lc - 1 } 96 (-1)) (target c off) 1
    else if 1 < c.ec.toNat then transfer s (wrP { back with ec := c.ec - 1 } 96 0) (target c off) 1
    else if c.ec = 1 then .ok (goOn s (wrP { back with ec := 0 } 96 0) len 1)
    else .ok (goOn s c len 1))

def execLoopr (off : BitVec 12) (s : State) : Out := loopStep (sx12 off) 4 s

/-! ## Time and segments (R244 to R247) -/

/-- WAITT (R245): the next instruction executes at the later of S[a] and E + 1. -/
def execWaitt (a : Reg) (s : State) : Out :=
  onCore [0] (fun s c =>
    let t := (rdS c a.toNat).toNat
    if t ≤ tickOf s c then .ok (goOn s c 4 1)
    else .ok (schedC { s with cx := some { c with wait := .tick t } } c t 16 (.ins (.waittExpire c.uid)))) s

/-- WAITT_EXPIRE (R245). -/
def execWaittExpire (uid : Nat) (s : State) : Out :=
  match unitOf s uid with
  | none => .next s
  | some c =>
    match c.wait with
    | .tick t => if t = tickOf s c then .next (setUnit s { c with wait := .run, pc := c.pc + 4, nextAt := t }) else .next s
    | _ => .next s

/-- Another resident context of the core is inside a timed segment, or returns to one from its handler (R96). -/
def otherTimed (s : State) (c : Ctx) : Bool :=
  (allUnits s).any (fun u => u.core == c.core && u.uid != c.uid && u.wait != .saved && u.wait != .done
    && (u.timed || (u.handler && u.savedTimed)))

/-- SEG opens a segment at E (R106, R246); a second timed one on the core blocks (R96); a handler may not (R253). -/
def openSegment (timed : Bool) : State → Out :=
  onCore [0] (fun s c =>
    if c.handler then fltOpen cILLEGAL
    else if timed && otherTimed s c then .ok { s with cx := some { c with wait := .segment } }
    else .ok (goOn s { c with timed := timed, segBase := some (tickOf s c), lastDue := [] } 4 1))

def execSegFree (s : State) : Out := openSegment false s
def execSegTimed (s : State) : Out := openSegment true s

/-- All units of a team have arrived at its GSYNC or exited (R247). -/
def allArrived (s : State) (t : Nat) : Bool :=
  (teamOf s t).units.all (fun u => (teamOf s t).gsync.contains u || (match unitOf s u with
    | some c => c.wait = .done
    | none => true))

/-- The last arrival fixes the release tick A + 24 (R247). -/
def gsyncArrived (s : State) (die t : Nat) : State :=
  if (teamOf s t).gsync.isEmpty || !allArrived s t || (teamOf s t).gsyncAt.isSome then s
  else
    let at_ := now s die + 24
    sched (modTeam s t (fun m => { m with gsyncAt := some at_ })) die at_ 16 0 0 (.ins (.gsyncRelease t))

/-- GSYNC (R247): arrives; it leaves the context, so an idem region refuses it. -/
def execGsync (d : Reg) (s : State) : Out :=
  onCore [0] (fun s c =>
    if c.idem then flt cREGION 0 3
    else
      let s := { s with cx := some { c with wait := .gsync (rot c d.toNat) } }
      let s := modTeam s c.team (fun m => { m with gsync := m.gsync ++ [c.uid] })
      .ok (gsyncArrived s (dieOfCore c.core) c.team)) s

/-- GSYNC_RELEASE (R247): every arrived context holds its core's sequencer, S[d] holds the release tick, and its next
instruction executes then, or when another context's timed segment closes. -/
def execGsyncRelease (team : Nat) (s : State) : Out :=
  let m := teamOf s team
  match m.gsyncAt with
  | none => .next s
  | some t =>
    if (m.units.head?.bind (unitOf s)).any (fun c => tickOf s c != t) then .next s
    else
    let s := modTeam s team (fun m => { m with gsync := [], gsyncAt := none })
    .next (m.gsync.foldl (fun s u =>
      match unitOf s u with
      | none => s
      | some c =>
        match c.wait with
        | .gsync d =>
          let s := setUnit s { wrPhys c d (BitVec.ofNat 64 t) with wait := .run, pc := c.pc + 4, nextAt := tickOf s c }
          if otherTimed s c then modCore s c.core (fun k => { k with awaited := k.awaited ++ [u] })
          else modCore s c.core (fun k => { k with holder := some u })
        | _ => s) s)

/-! ## System state (R250, Table 12.8) -/

/-- The value MVS reads. -/
def readSys (s : State) (c : Ctx) (n : SysName) : Word :=
  let f := fun i => BitVec.ofNat 64 (widField (recOf s c) c.wid.toNat i)
  match n with
  | .tick => BitVec.ofNat 64 (tickOf s c)
  | .lc => c.lc
  | .ec => c.ec.setWidth 64
  | .rb => c.rb.setWidth 64
  | .stage => BitVec.ofNat 64 ((List.range 32).foldl (fun v i => v + (if (rdP c (96 + i)).getLsbD 0 then 2 ^ i else 0)) 0)
  | .aflags => c.aflags.setWidth 64
  | .wid0 => f 0 | .wid1 => f 1 | .wid2 => f 2 | .wid3 => f 3 | .wid4 => f 4 | .wid5 => f 5
  | .lcore => BitVec.ofNat 64 c.lcore
  | .useMask => c.useMask.setWidth 64
  | .capMask => c.capMask.setWidth 64
  | .early => ofBool c.early
  | .rentAllow => BitVec.ofNat 64 (vdOf s c.vd).allowance
  | .rentOwner => BitVec.ofNat 64 (ownerOf c)
  | .epc => c.epc
  | .cause => c.cause.setWidth 64
  | .tval => c.tval
  | .tinfo => c.tinfo
  | .tvec => c.tvec

/-- What MSV writes; read-only names keep their value. -/
def writeSys (c : Ctx) (n : SysName) (v : Word) : Ctx :=
  match n with
  | .lc => { c with lc := v }
  | .ec => { c with ec := v.setWidth 6 }
  | .rb => { c with rb := v.setWidth 5 }
  | .stage => (List.range 32).foldl (fun c i => wrP c (96 + i) (if v.getLsbD i then -1 else 0)) c
  | .aflags => { c with aflags := v.setWidth 3 }
  | .epc => { c with epc := v }
  | .cause => { c with cause := v.setWidth 8 }
  | .tval => { c with tval := v }
  | .tinfo => { c with tinfo := v }
  | .tvec => { c with tvec := v }
  | _ => c

def moveFromSys (d : Reg) (n : SysName) (len : Nat) : State → Out :=
  onCore [0] (fun s c => .ok (goOn s (wrS c d.toNat (readSys s c n)) len 1))

/-- The ctx names that only a handler may write (R250). -/
def handlerOnly : SysName → Bool
  | .epc | .cause | .tval | .tinfo => true
  | _ => false

/-- MSV; its ctx names raise ILLEGAL at decode outside a handler, before the capability checks (R222, R250); the tval of that fault, and
of a misaligned tvec's, is open (log entry 2). -/
def moveToSys (n : SysName) (a : Reg) (len : Nat) (s : State) : Out :=
  match s.cx with
  | none => .fault .noContext
  | some c =>
    if handlerOnly n && !c.handler then .next (takeFault s c.uid ⟨cILLEGAL, 0, 0, true⟩ c.pc)
    else onCore [0] (fun s c =>
      let v := rdS c a.toNat
      if n = .tvec && v.toNat % 4 != 0 then fltOpen cALIGN else .ok (goOn s (writeSys c n v) len 1)) s

def execMvs (d : Reg) (n : SysName) (s : State) : Out := moveFromSys d n 4 s
def execMsv (n : SysName) (a : Reg) (s : State) : Out := moveToSys n a 4 s

/-! ## Traps (R252, R253) -/

/-- TRAP enters the user handler; without one, or at handler level, the monitor ends the launch, cause ILLEGAL. -/
def trapTo (n : Nat) : State → Out :=
  onCore [0] (fun s c =>
    if c.tvec != 0 && !c.handler then .ok (enterHandler s c 0 0 (BitVec.ofNat 64 n) (c.pc + 4))
    else .ok (toMonitor s c ⟨cILLEGAL, c.pc, 0, false⟩))

def execTrap (n : BitVec 11) (s : State) : Out := trapTo n.toNat s

/-- ILLEGAL_ENCODING (R222, R233): the word at pc is no instruction; the fault's tval is open. -/
def execIllegalEncoding (s : State) : Out :=
  match s.cx with
  | none => .fault .noContext
  | some c => .next (takeFault s c.uid ⟨cILLEGAL, 0, 0, true⟩ c.pc)

/-! ## Code visibility and hints (R178, R226, R256) -/

/-- IFENCE: what the core fetched past it is discarded; blocks its cache still holds may be fetched again (R178). -/
def refetch (k : CoreSt) : CoreSt := { k with fetched := k.fetched.filter (fun e => e.2.2) }

def execIfence (s : State) : Out :=
  onCore [0] (fun s c => .ok (goOn (modCore s c.core refetch) c 4 8)) s

/-- Something landed by the context since its previous CODESYNC (R178). -/
def landedSince (s : State) (c : Ctx) : Bool := (s.landings.drop c.landedCode).any (fun l => l.uid == c.uid)

/-- CODESYNC (R256): at once where nothing landed since the previous one, else after a time the device leaves open. -/
def execCodesync (s : State) : Out :=
  onCore [0] (fun s c =>
    if landedSince s c then
      let (d, s) := openTicks s
      .ok (schedC { s with cx := some { c with wait := .codesync } } c (tickOf s c + 4 + d) 16 (.ins (.codesyncComplete c.uid)))
    else .ok (goOn s { c with landedCode := s.landings.length } 4 4)) s

/-- CODESYNC_COMPLETE: no instruction cache of the package holds a line the context has landed (R178). -/
def execCodesyncComplete (uid : Nat) (s : State) : Out :=
  match unitOf s uid with
  | none => .next s
  | some c =>
    if c.wait != .codesync then .next s
    else
      let mine := (List.range s.landings.length).filter (fun i => c.landedCode ≤ i && (s.landings.drop i).head?.any (fun l => l.uid == uid))
      let blocks := (s.hist.filter (fun h => h.landing.any mine.contains)).map (fun h =>
        if h.space = 0 then h.off / 32 + 2 ^ 80 else locOf h.space h.off / 32)
      let s := { s with cores := s.cores.map (fun e => (e.1, { e.2 with
        fetched := e.2.fetched.map (fun f => if blocks.contains f.1 then (f.1, (f.2.1, false)) else f) })) }
      .next (setUnit s { c with wait := .run, pc := c.pc + 4, nextAt := tickOf s c, landedCode := s.landings.length })

/-- A hint word: one tick, nothing but pc (R226). -/
def execNop (bits : BitVec 24) (s : State) : Out := onCore [] (fun s c => .ok (goOn s c 4 1)) s

end Sys2Proof.Machine
end

