-- ==== Sys2Proof/Machine/Shadow.lean ====
section
/-!
DEFINITION. The shadow of pending writes (R109, R113): what started commands of a context have yet to write in its register store,
in the slots and in memory, and where the words, rows and elements of their destinations lie (Tables 6.3, 14.7, 15.12).
-/
set_option linter.unusedVariables false
namespace Sys2Proof.Machine
open Sys2Proof

/-! ## Rows (Tables 6.3 and 15.5) -/

/-- K and N of a mode. -/
def modeDim (t : Nat) : Nat := match t with | 0x09 => 64 | 0x08 => 25 | _ => 128

/-- The format of the destination view. -/
def accTy (t : Nat) : Nat := match t with | 0x00 | 0x04 => 0x02 | 0x08 => 0x08 | _ => 0x09

/-- Bytes of an output row (R318). -/
def outBytes (t : Nat) : Nat := modeDim t * (tyBits (accTy t) / 8)

/-- Bytes of a converted row of 128 elements (R321). -/
def resBytes (t : Nat) : Nat :=
  match t with
  | 0x0B | 0x0A => 256 | 0x0E => 64 | 0x0F => 136 | 0x10 => 72 | 0x09 => 512 | _ => 128

/-! ## Words of a stream (R325, R326) -/

/-- Run bytes of a stream, or none where its length breaks its format's condition. -/
def runOf (g : BitVec 384) : Option Nat :=
  let n := gLen g
  match gFormat g with
  | 0x0E => if n % 2 = 0 then some (runBytes 0x0E n) else none
  | 0x0F | 0x10 | 0x11 => if n % 32 = 0 then some (runBytes (gFormat g) n) else none
  | t => some (runBytes t n)

/-- Bytes of a stream, B. -/
def streamBytes (g : BitVec 384) : Nat := (runOf g).getD 0 * gExt1 g * gExt2 g

/-- The address of word j of a stream. -/
def wordAddr (g : BitVec 384) (j : Nat) : Word :=
  let rb := (runOf g).getD 32
  let r := 32 * j / rb
  gBase g + BitVec.ofInt 64 ((r % gExt1 g : Nat) * gStride1 g + (r / gExt1 g : Nat) * gStride2 g + (32 * j % rb : Nat))

/-! ## Elements of a nest (R306, R307) -/

def nestExt (k : Cmd) (l : Nat) : Nat := nth k.sample l
def nestStride (k : Cmd) (o l : Nat) : Int := signedOf 32 (nth k.sample (5 + o * 5 + l))

/-- The levels' indices of element n in nest order, i0 fastest. -/
def nestIndex (k : Cmd) (n : Nat) : List Nat :=
  ((List.range 5).foldl (fun (p : List Nat × Nat) l => (p.1 ++ [p.2 % nestExt k l], p.2 / nestExt k l)) ([], n)).1

/-- The element index of operand o at level indices. -/
def nestElem (k : Cmd) (o : Nat) (ix : List Nat) : Int :=
  (List.range 5).foldl (fun x l => x + nestStride k o l * (nth ix l : Int)) 0

def nestRed (f : NestF) : Bool := f.major == 7

/-- Elements a tick (R308). -/
def nestRate (t : Nat) : Nat :=
  if t = 0x08 then 16 else match tyBits t with
    | 32 => 64 | 16 => 128 | 8 => 256 | w => Config.nestRate w + 1

/-- Bytes of the unit that holds an element: an element, a byte of e2m1, a block. -/
def unitBytes (t : Nat) : Nat :=
  match t with
  | 0x0E => 1 | 0x0F => 34 | 0x10 => 18 | 0x11 => 20
  | t => tyBits t / 8

/-! ## Words of a copy (R331, R334, R336) -/

/-- Copy fields of a command that has them. -/
def copyF (i : Instr) : Option CopyF :=
  match i with | .cpy _ f | .cpyc _ f | .ckpt _ f => some f | _ => none

/-- Address of byte o of a record's bytes, level 1 fastest. -/
def recordAddr (r : List Nat) (o : Nat) : Word :=
  let run := max 1 (nth r 1)
  let q := o / run
  let (_, off) := (List.range 4).foldl (fun (p : Nat × Nat) l =>
    (p.1 / max 1 (nth r (2 + l)), p.2 + p.1 % max 1 (nth r (2 + l)) * nth r (6 + l))) (q, 0)
  BitVec.ofNat 64 (nth r 0 + off + o % run)

/-- The address of word j of a copy's side: 0 destination, 1 source. -/
def copyAddr (k : Cmd) (side j : Nat) : Word :=
  match k.ins with
  | .cpyc _ _ => recordAddr (if side = 1 then k.sample.take 10 else k.sample.drop 10) (32 * j)
  | .ckpt _ _ =>
    let a := nth k.sample (j / 2048) * 65536 + 32 * (j % 2048)
    if side = 1 then BitVec.ofNat 64 a else k.vals.getD 0 0 + (BitVec.ofNat 64 a - k.vals.getD 1 0)
  | _ => k.vals.getD side 0 + BitVec.ofNat 64 (32 * j)

/-- A side lies on another node. -/
def remoteSide (k : Cmd) (side : Nat) : Bool :=
  match copyF k.ins with | some f => if side = 1 then f.rsrc = 1 else f.rdst = 1 | none => false

/-- Ticks from a word's read to its landing; 0 for a counted command. -/
def latOf (k : Cmd) : Nat := nth k.acc 0

/-! ## What started commands have yet to write -/

/-- The read tick of word j of an XLD or XST (R326): sample holds the tick that word's reads count from and the first word of the
count. A word performs 21 ticks later. -/
def wordTick (f : XferF) (k : Cmd) (j : Nat) : Nat :=
  let n := j - nth k.sample 1
  nth k.sample 0 + (if f.pace = 0 then n / 16 else n * f.pace.toNat)

/-- Ranges of the register store that a started command's rows, words or elements still to come will write after tick t. -/
def bankAhead (t : Nat) (k : Cmd) : List (Nat × Nat) :=
  let rows := fun (name view bytes : Nat) =>
    let i0 := k.landed + k.counted
    (List.range (k.live - i0)).map (fun j => (nth k.names name + (i0 + j) * vPitch (k.views.getD view 0), bytes))
  let elems := fun (v : VForm) =>
    let n := tyBits v.ty.toNat / 8
    if ceilDiv k.live 16 ≤ k.landed || k.start.any (fun s => s + ceilDiv k.live 16 + 6 ≤ t) then [] else (chunks 2 (k.sample.length / 2) k.sample).map (fun p => (nth k.names 0 + nth p 0 * n, n))
  if k.start.isNone then []
  else match k.ins with
    | .mmul _ f => rows 1 0 (outBytes f.ty.toNat)
    | .mres _ f => rows 2 1 (resBytes f.ty.toNat)
    | .xld _ f =>
      if 2 < f.kind.toNat then []
      else if t < wordTick f k k.counted + 21 then [(nth k.names 0 + 32 * k.counted, 32 * (k.live - k.counted))]
      else (((List.range (k.live - k.counted)).map (k.counted + ·)).filter (fun j => t < wordTick f k j + 21)).map (fun j => (nth k.names 0 + 32 * j, 32))
    | .vgath v | .vlut v => elems v
    | _ => []

/-- The range of its core's slots that a started XLD's words still to come will write. -/
def slotAhead (k : Cmd) : List (Nat × Nat) :=
  if k.start.isNone then []
  else match k.ins with
    | .xld _ f => if f.kind = 3 then [(nth k.acc 0 * 32768 + nth k.names 0 + 32 * k.counted, 32 * (k.live - k.counted))] else []
    | _ => []

/-- Where n bytes at an address of a unit lie. -/
def spotAt (s : State) (u : Ctx) (a : Word) (n : Nat) : List (Nat × Nat × Nat) :=
  match translate s u (windowFor u a) a with
  | .ok p => [(p.space, p.off, n)]
  | .error _ => []

/-- Where word j of a send lands. -/
def sendSpot (s : State) (rx ch j : Nat) : List (Nat × Nat × Nat) :=
  match unitOf s rx with
  | none => []
  | some u => match tget u.chans ch with
    | some h => spotAt s u (BitVec.ofNat 64 (h.dst + 32 * j)) 32
    | none => []

/-- Bytes of memory that a started command's words or elements still to come will write. -/
def memAhead (s : State) (c : Ctx) (k : Cmd) : List (Nat × Nat × Nat) :=
  let words := fun (f : Nat → List (Nat × Nat × Nat)) => (List.range (k.live - k.counted)).flatMap (fun i => f (k.counted + i))
  if k.start.isNone then []
  else match k.ins with
    | .xst _ _ => words (fun j => spotAt s c (wordAddr (k.streams.getD 0 0) j) 32)
    | .xsend _ f => words (sendSpot s (nth k.acc 0) f.ch.toNat)
    | .lnest _ f =>
      let g := k.streams.getD 0 0
      let first := k.landed + k.counted * nestRate f.ty.toNat
      (List.range (k.live - first)).flatMap (fun i =>
        let ix := nestIndex k (first + i)
        if nestRed f && nth ix 0 + 1 != nestExt k 0 then []
        else spotAt s c (elemAddr g (nestElem k 0 (if nestRed f then 0 :: ix.drop 1 else ix)).toNat) (unitBytes (gFormat g)))
    | _ => []

/-- Bytes that the words of a running copy of fixed ticks will write (R331). -/
def copyAhead (s : State) (c : Ctx) : List (Nat × Nat × Nat) :=
  s.engines.flatMap (fun (e : Nat × CopyEng) => (e.2.mainPath.toList ++ e.2.paused.toList ++ e.2.channels).flatMap (fun k =>
    if k.uid != c.uid || latOf k = 0 || remoteSide k 0 || remoteSide k 1 then []
    else (List.range (k.live - k.landed)).flatMap (fun i => spotAt s c (copyAddr k 0 (k.landed + i)) 32)))

/-- The first of a range of n bytes at off that one of the ranges covers. -/
def firstIn (off n : Nat) (l : List (Nat × Nat)) : Option Nat :=
  (l.filter (fun r => r.1 < off + n && off < r.1 + r.2)).foldl (fun (m : Option Nat) r => match m with
    | none => some (max r.1 off)
    | some x => some (min x (max r.1 off))) none

/-- A DEFER window is open at a tick (R112). -/
def deferOpen (c : Ctx) (t : Nat) : Bool := match c.defer with | some e => t < e | none => false

/-- The early-read checker looks at a context's reads of shadows (R113). -/
def checksShadow (s : State) (c : Ctx) : Bool := c.early && !deferOpen c (tickOf s c)

/-- The first byte of a range of the register store in the shadow of a write of the context's engines that performs after tick t, those
of command own left out (R113, R314; log entry 114). -/
def bankShadow (s : State) (c : Ctx) (own off n t : Nat) : Option Nat :=
  let due := s.agenda.filterMap (fun e =>
    if e.uid != c.uid || e.own = 0 || e.own = own || e.tick ≤ t then none
    else match e.act with
      | .eff (.bank _ o bs _) => some (o, bs.length)
      | .eff (.row _ o ty _ _ _ _ _ _ _) => some (o, outBytes (if ty = 0x11 then 0x0B else ty))
      | .eff (.drainRow core id r) => ((queueOf (coreOf s core) 0).find? (fun k => k.id == id)).map (fun k =>
          (nth k.names 1 + r * vPitch (k.views.getD 0 0), 512))
      | _ => none)
  firstIn off n (due ++ ((cmdsOf s c).filter (fun k => k.id != own)).flatMap (bankAhead t))

/-- A read of n bytes of the register store by command own, 0 for the sequencer, that performs at tick t: the early-read checker
(R113, R314). -/
def checkBankAt (s : State) (c : Ctx) (own off n t : Nat) : Res Unit :=
  if !checksShadow s c then .ok ()
  else match bankShadow s c own off n t with
    | some b => flt cEARLY (BitVec.ofNat 64 b)
    | none => .ok ()

/-- The same for a read that performs now. -/
def checkBank (s : State) (c : Ctx) (own off n : Nat) : Res Unit := checkBankAt s c own off n (tickOf s c)

/-- The first byte of a range of a core's slots in such a shadow. -/
def slotShadow (s : State) (c : Ctx) (off n : Nat) : Option Nat :=
  let due := s.agenda.filterMap (fun e => if e.uid != c.uid || e.own = 0 then none else match e.act with
    | .eff (.alcove _ o bs _) => some (o, bs.length)
    | _ => none)
  firstIn off n (due ++ (cmdsOf s c).flatMap slotAhead)

/-- The first byte of a range of memory in the shadow of a pending write of the same context that performs after tick t, the reading
command's own among them (R113; log entry 114). -/
def inShadow (s : State) (c : Ctx) (space off n t : Nat) : Option Nat :=
  let due := s.agenda.flatMap (fun e =>
    if e.own = 0 || e.tick ≤ t then []
    else match e.act with
      | .eff (.write u sp o bs _) => if u = c.uid then [(sp, o, bs.length)] else []
      | .eff (.nibble u sp o _ _) => if u = c.uid then [(sp, o, 1)] else []
      | .eff (.xword k rx ch j _ _) => if k.uid = c.uid then sendSpot s rx ch j else []
      | _ => [])
  firstIn off n (((due ++ (cmdsOf s c).flatMap (memAhead s c) ++ copyAhead s c).filter (fun r => r.1 == space)).map Prod.snd)

end Sys2Proof.Machine
end

