-- ==== Sys2Proof/Machine/Access.lean ====
section
/-!
DEFINITION. Loads, stores, ordered accesses, atomics and landings (R113, R165, R194, R258 to R266, R283).
-/
set_option linter.unusedVariables false
namespace Sys2Proof.Machine
open Sys2Proof

/-! ## Checks beyond R162 -/

/-- Poison stops a sequencer load, a vector operand and an atomic at the word's generic address (R194). -/
def checkPoison (s : State) (p : Place) (a : Word) (n : Nat) : Res Unit :=
  match poisonedAt s p n with
  | some w => flt cUNCORR (if w < p.off then a - BitVec.ofNat 64 (p.off - w) else a + BitVec.ofNat 64 (w - p.off))
  | none => .ok ()

/-- Poison that a load through the view reads: a marked word of memory that the flight does not cover whole, or a marked byte of the
flight (R194). -/
def viewPoison (s : State) (c : Ctx) (p : Place) (n : Nat) : Option Nat :=
  let fl := (c.inLand ++ c.flight).filter (fun f => f.space == p.space && p.off / 8 * 8 ≤ f.off && f.off < p.off + n)
  match fl.find? FByte.mark with
  | some f => some (f.off / 8 * 8)
  | none => (poisonedAt s p n).filter (fun w => !(List.range 8).all (fun i => fl.any (fun f => f.off == w + i)))

/-- The line of a place in the prefetch buffer (R262). -/
def lineOf (p : Place) : Nat := locOf p.space p.off / 256

/-- A place's line stands in its core's prefetch buffer (R262). -/
def prefetched (s : State) (c : Ctx) (p : Place) : Bool := (coreOf s c.core).prefetch.contains (lineOf p)

/-- The first poisoned word of the prefetch buffer that n bytes at a place touch, as a byte offset (R194; log entry 15). -/
def linePoison (s : State) (c : Ctx) (p : Place) (n : Nat) : Option Nat :=
  if !prefetched s c p then none
  else (poisonedAt s { p with space := prefetchSpace c.core, off := locOf p.space p.off } n).map (fun w => w - locOf p.space 0)

/-- Poison stops a load of a shared window (R194). -/
def checkView (s : State) (c : Ctx) (p : Place) (a : Word) (n : Nat) : Res Unit :=
  match (linePoison s c p n).orElse (fun _ => viewPoison s c p n) with
  | some w => flt cUNCORR (if w < p.off then a - BitVec.ofNat 64 (p.off - w) else a + BitVec.ofNat 64 (w - p.off))
  | none => .ok ()

/-- The first byte of a range a counted transfer last wrote whose word has not reached its target (R18, R113). -/
def landedLate (s : State) (space off n : Nat) : Option Nat :=
  s.late.findSome? (fun e =>
    if e.1 = space && e.2.1 < off + n && off < e.2.1 + e.2.2.1 then some (max off e.2.1) else none)

/-- The early-read checker on a read of memory that performs at tick t (R113). -/
def checkEarlyAt (s : State) (c : Ctx) (p : Place) (a : Word) (n t : Nat) : Res Unit :=
  if !c.early then .ok ()
  else
    let at_ := fun (b : Nat) => (flt cEARLY (a + BitVec.ofNat 64 (b - p.off)) : Res Unit)
    match (if deferOpen c (tickOf s c) then none else inShadow s c p.space p.off n t), landedLate s p.space p.off n with
    | some b, _ => at_ b
    | none, some b => at_ b
    | none, none => .ok ()

/-- The early-read checker on a read of memory now. -/
def checkEarly (s : State) (c : Ctx) (p : Place) (a : Word) (n : Nat) : Res Unit := checkEarlyAt s c p a n (tickOf s c)

/-! ## Plain loads and stores -/

/-- The home of a place is reached over a link or in another timed domain: a load of it is counted (R18, R258). -/
def countedHome (s : State) (c : Ctx) (p : Place) : Bool :=
  let dom k := (List.range 8).findRev? (fun d => d ≤ k && s.clock.dom.toNat / 2 ^ d % 2 == 1)
  p.host || 3 ≤ p.tier || (p.win = 0 && dom p.die != dom (dieOfCore c.core))

/-- Ticks to the result of a plain load (Table 13.1, R262). -/
def loadTicks (s : State) (c : Ctx) (p : Place) : Nat :=
  if p.win = 2 then 4
  else if p.win = 1 then 40
  else if p.win = 4 || (coreOf s c.core).prefetch.contains (lineOf p) then 16
  else if p.die = dieOfCore c.core then 60 else 140

/-- The CXL link of a place (R13, R72): die d's tier-3 pages lie on memory device d, behind module link d, and its tier-4 pages behind
pool link d. -/
def linkOf (p : Place) : Option Nat :=
  if p.host then none else match p.tier with
  | 3 => some (refDie p.ref)
  | 4 => some (8 + refDie p.ref)
  | _ => none

/-- A place's link is up; a host place's is the host link. -/
def linkUp (s : State) (p : Place) : Bool :=
  if p.host then s.links.hostUp else match linkOf p with
    | some l => s.links.cxlUp.getD l true
    | none => true

/-- Ticks the device leaves open to a counted word or result: a CXL read's are below 2^26, its time limit (R18, log entry 101). -/
def countedTicks (s : State) (cxl : Bool) : Nat × State := if cxl then pick s (2 ^ 26) else openTicks s

/-- A counted load: its value is that of its execute tick, its result arrives at a tick the device leaves open. One over a CXL link
keeps the link, and is poisoned where the link is down (Table 1.5). -/
def countedLoad (s : State) (c : Ctx) (p : Place) (d : Nat) (v : Word) : State × Ctx :=
  let (ld, s) := fresh s
  let (k, s) := countedTicks s (linkOf p).isSome
  let r := rot c d
  let links := match linkOf p with
    | some l => tset c.loadLinks ld (l, !linkUp s p)
    | none => c.loadLinks
  (schedC s c (tickOf s c + 1 + k) 16 (.ins (.countedLoadReturn c.uid ld)),
    ({ c with loads := tset c.loads ld (r, v), loadLinks := links }).await (.s r) never)

/-- A shared place: one whose reads go through the view (R165). -/
def Place.shared (p : Place) : Bool := p.win = 0 || p.win = 4

/-- The bytes a load takes: through the view in a shared window, where the prefetch buffer's line may hold flips that no parity shows
(R169, R262, Table 9.4; log entry 15). -/
def loadBytes (s : State) (c : Ctx) (p : Place) (n : Nat) : List Byte :=
  if !p.shared then readNow s p n
  else
    let ups := if prefetched s c p then (coreOf s c.core).upsets.filter (fun u => 2 ^ 30 ≤ u.1 && isSilent u.2) else []
    let bs := readView s c p n
    if ups.isEmpty then bs
    else ((List.range n).zip bs).map (fun b =>
      let x := 2 ^ 30 + locOf p.space p.off + b.1
      match ups.find? (fun u => u.1 ≤ x && x < u.1 + 8) with
      | some u => b.2 ^^^ BitVec.ofNat 8 (dataFlips u.2 / 2 ^ (8 * (x - u.1)))
      | none => b.2)

/-- LD's effect at an address (R259, R265 for an acquire): a load of a shared window after an acquire that has not
performed waits for it (R173; log entry 21). -/
def loadAt (acq : Bool) (a : Word) (n : Nat) (signed : Bool) (d len : Nat) (s : State) (c : Ctx) : Res State := do
  let p ← (match acq, windowFor c a with
    | true, .priv _ => flt cADDRESS a
    | _, _ => check s c a n .load)
  let c := c.discard
  (if p.shared then checkView s c p a n else checkPoison s p a n)
  let e := tickOf s c
  let engine := p.win = 5 || (acq && p.win = 2)
  checkEarlyAt s c p a n (if engine then (orderedAt c (objectKey p) (e + (engineTicks c (enginePlace a p)).1)).1 else e)
  if engine then
    let o : SyncOp := { (default : SyncOp) with
      kind := if acq then .acqLoad else .load, addr := a.toNat, size := n, signed := signed, d := rot c d, pc := c.pc }
    let (t, s, c) := sendOp s c p o e
    let c := c.await (.s (rot c d)) (t + resultTicks c o)
    .ok (goOn s (if acq then { c with acq := max c.acq t } else c) len 1)
  else if p.shared && e < c.acq then .ok { s with cx := some { c with nextAt := c.acq } }
  else
    let c := if acq then c.raise s e else c
    let v := extend signed (8 * n) (natOfBytes (loadBytes s c p n))
    if countedHome s c p && !prefetched s c p then
      let (s, c) := countedLoad s c p d v
      .ok (goOn s c len 1)
    else
      let (s, c) := later s c d (loadTicks s c p) v
      .ok (goOn s c len 1)

/-- A store to a shared window, with its poisoned words, enters the flight, which may spill into a lapsed area (R167, R194, Table
4.10). -/
def flightStore (s : State) (c : Ctx) (p : Place) (a : Word) (bs : List Byte) (ps : List Nat) : Res Ctx :=
  let t := tickOf s c
  let fl := stageBytes c.flight p.space p.off a.toNat bs ps t
  let new := (List.range (mergeFlight fl (t + 1)).length).drop (mergeFlight c.flight (t + 1)).length
  match new.find? (spillLapsed s c) with
  | some i =>
    let r := rentOf s ((spillRef c i).getD 0)
    flt cLAPSED a (if r.state = 2 then 0 else 1)
  | none => .ok { c with flight := fl }

/-- The word of scalar d is poisoned (R194). -/
def badScalar (c : Ctx) (d : Nat) : Bool := rot c d != 0 && c.bankPoison.contains (8 * rot c d)

/-- ST's effect at an address, of a value that is poisoned where bad (R194, R260). -/
def storeAt (a : Word) (n : Nat) (v : Word) (bad : Bool) (len : Nat) (s : State) (c : Ctx) : Res State := do
  let p ← check s c a n .store
  let bs := bytesOfNat n v.toNat
  if p.win = 5 then
    let o : SyncOp := { (default : SyncOp) with kind := .store, addr := a.toNat, size := n, val := v, bad := bad, pc := c.pc }
    if c.idem then do
      let c ← holdEffect c o
      .ok (goOn s c len 1)
    else
      let (_, s, c) := sendOp s c p o (tickOf s c)
      .ok (goOn s c len 1)
  else if p.shared then do
    let c ← flightStore s c p a bs (if bad then [0] else [])
    .ok (goOn s c len 1)
  else .ok (goOn (schedC s c (tickOf s c + 1) 11 (.eff (.store c.uid (locOf p.space p.off) bs (if bad then [0] else [])))) c len 1)

/-- A sequencer store to the own scratchpad or private area performs (R110). -/
def performStore (s : State) (uid loc : Nat) (bs : List Byte) (ps : List Nat) : State :=
  match unitOf s uid with
  | none => s
  | some c => ps.foldl (fun s p => markWord s (loc / 2 ^ 41) (loc % 2 ^ 41 + p))
      (storeSpace s (loc / 2 ^ 41) (loc % 2 ^ 41) bs (tickOf s c) none)

def loadInstr (n : Nat) (signed : Bool) (len : Nat) (d a : Reg) (off : Word) : State → Out :=
  onCore [0] (fun s c => loadAt false (ea c a off) n signed d.toNat len s c)

def storeInstr (n len : Nat) (d a : Reg) (off : Word) : State → Out :=
  onCore [0] (fun s c => storeAt (ea c a off) n (rdS c d.toNat) (badScalar c d.toNat) len s c)

def execLdN32 (d a : Reg) (i : BitVec 12) (s : State) : Out := loadInstr 4 false 4 d a (sx12 i) s
def execLdI32 (d a : Reg) (i : BitVec 12) (s : State) : Out := loadInstr 4 true 4 d a (sx12 i) s
def execLdN64 (d a : Reg) (i : BitVec 12) (s : State) : Out := loadInstr 8 false 4 d a (sx12 i) s
def execLdN16 (d a : Reg) (i : BitVec 12) (s : State) : Out := loadInstr 2 false 4 d a (sx12 i) s
def execLdI16 (d a : Reg) (i : BitVec 12) (s : State) : Out := loadInstr 2 true 4 d a (sx12 i) s
def execLdN8 (d a : Reg) (i : BitVec 12) (s : State) : Out := loadInstr 1 false 4 d a (sx12 i) s
def execLdI8 (d a : Reg) (i : BitVec 12) (s : State) : Out := loadInstr 1 true 4 d a (sx12 i) s
def execStN8 (d a : Reg) (i : BitVec 12) (s : State) : Out := storeInstr 1 4 d a (sx12 i) s
def execStN16 (d a : Reg) (i : BitVec 12) (s : State) : Out := storeInstr 2 4 d a (sx12 i) s
def execStN32 (d a : Reg) (i : BitVec 12) (s : State) : Out := storeInstr 4 4 d a (sx12 i) s
def execStN64 (d a : Reg) (i : BitVec 12) (s : State) : Out := storeInstr 8 4 d a (sx12 i) s

/-- A core's prefetch buffer takes a new line; what stood in the lines it no longer holds, or holds anew, goes: errors and marks (R191,
R262). -/
def takeLine (s : State) (core line : Nat) : State :=
  let old := (coreOf s core).prefetch
  let new := (line :: old.erase line).take 64
  let stays := fun (a : Nat) => new.contains (a / 256) && (a / 256 != line || old.contains line)
  let s := modCore s core (fun k => { k with prefetch := new, upsets := k.upsets.filter (fun u => u.1 < 2 ^ 30 || stays (u.1 - 2 ^ 30)) })
  { s with memPoison := s.memPoison.filter (fun w => w.1 != prefetchSpace core || stays w.2) }

/-- PREF (R262): the line of a shared address joins the buffer of 64; an address that fails a check does nothing. -/
def prefetch (a : Reg) (off : Word) (len : Nat) : State → Out :=
  onCore [0] (fun s c =>
    match check s c (ea c a off) 1 .load with
    | .error _ => .ok (goOn s c len 1)
    | .ok p =>
      if p.shared then
        .ok (goOn (takeLine s c.core (lineOf p)) c len 1)
      else .ok (goOn s c len 1))

def execPref (a : Reg) (i : BitVec 12) (s : State) : Out := prefetch a (sx12 i) 4 s

/-! ## Stream elements (R263, R361) -/

/-- The address, size and sign of element i of a stream that LDG and STG accept. -/
def streamElem (c : Ctx) (g i : Nat) : Res (Word × Nat × Bool) :=
  let r := streamReg c g
  let t := gFormat r
  if gUnset r || 0x0D < t then fltOpen cILLEGAL
  else if gElems r ≤ i then flt cADDRESS (BitVec.ofNat 64 i)
  else .ok (elemAddr r i, tyBits t / 8, tySigned t)

def loadElem (d : Reg) (g i len : Nat) : State → Out :=
  onCore [0] (fun s c => do
    let (a, n, sg) ← streamElem c g i
    loadAt false a n sg d.toNat len s c)

def storeElem (d : Reg) (g i len : Nat) : State → Out :=
  onCore [0] (fun s c => do
    let (a, n, _) ← streamElem c g i
    storeAt a n (rdS c d.toNat) (badScalar c d.toNat) len s c)

def execLdg (d : Reg) (g : BitVec 4) (i : BitVec 11) (s : State) : Out := loadElem d g.toNat i.toNat 4 s
def execStg (d : Reg) (g : BitVec 4) (i : BitVec 11) (s : State) : Out := storeElem d g.toNat i.toNat 4 s

/-! ## Landing (R168, R264) -/

/-- LAND blocks until its landing tick. -/
def execLand (sc : Scope) (s : State) : Out :=
  onCore [0] (fun s c =>
    if c.idem then flt cREGION 0 3
    else
      let (t, s, c) := landAt s c sc (tickOf s c)
      let c := { c with wait := .land t, landDropped := none }
      .ok (schedC { s with cx := some c } c t 4 (.ins (.landComplete c.uid)))) s

/-- LAND_COMPLETE: the view is the landing tick; dropped stores raise RENT_LAPSED at the first dropped address (R180, R264). -/
def execLandComplete (uid : Nat) (s : State) : Out :=
  match unitOf s uid with
  | none => .next s
  | some c =>
    match c.wait with
    | .land t =>
      if t != tickOf s c then .next s
      else
        let c' := { c.raise s t with wait := .run, landDropped := none, nextAt := t }
        match c.landDropped with
        | some d => .next (takeFault (setUnit s c') uid ⟨d.1, BitVec.ofNat 64 d.2.1, BitVec.ofNat 64 d.2.2, false⟩ c.pc)
        | none => .next (setUnit s { c' with pc := c.pc + 4 })
    | _ => .next s

/-! ## Ordered accesses and atomics (R265, R266) -/

/-- Bytes and sign of an integer type. -/
def IntTyBytes : IntTy → Nat
  | .i8 | .n8 => 1 | .i16 | .n16 => 2 | .i32 | .n32 => 4 | .i64 | .n64 => 8
def IntTySigned : IntTy → Bool
  | .i8 | .i16 | .i32 | .i64 => true
  | _ => false

def execLda (t : IntTy) (sc : Scope) (d a : Reg) (i : BitVec 32) (s : State) : Out :=
  onCore [0] (fun s c => loadAt true (ea c a (sx32 i)) (IntTyBytes t) (IntTySigned t) d.toNat 8 s c) s

/-- STREL (R265): a release whose write performs at the engine, or as the last store of its landing. -/
def execStrel (t : IntTy) (sc : Scope) (d a : Reg) (i : BitVec 32) (s : State) : Out :=
  onCore [0] (fun s c =>
    if c.idem then flt cREGION 0 3
    else do
      let addr := ea c a (sx32 i)
      let n := IntTyBytes t
      let p ← (match windowFor c addr with
        | .priv _ => flt cADDRESS addr
        | _ => check s c addr n .store)
      let o : SyncOp := { (default : SyncOp) with
        kind := .relStore, addr := addr.toNat, size := n, scope := sc, val := rdS c d.toNat, bad := badScalar c d.toNat, pc := c.pc }
      if atEngine p then
        let (_, s, c) := releaseAt s c p o (tickOf s c)
        .ok (goOn s c 8 1)
      else
        let (fl, c) := c.split (tickOf s c)
        let (tl, s) := landTick s c sc fl (tickOf s c)
        .ok (goOn (schedC s c tl 4 (.eff (.land c.uid sc fl tl (some o)))) c 8 1)) s

/-- Bytes and sign of an atomic's type (R230). -/
def AmoTyBytes : AmoTy → Nat
  | .i32 | .n32 => 4 | .i64 | .n64 => 8
def AmoTySigned : AmoTy → Bool
  | .i32 | .i64 => true
  | _ => false

/-- One atomic (R266): a release, and an acquire when it returns its old value. -/
def atomicInstr (k : SyncKind) (t : AmoTy) (sc : Scope) (d a b e : Reg) : State → Out :=
  onCore [21] (fun s c =>
    if c.idem && d != 0 then flt cREGION 0 3
    else do
      let addr := rdS c a.toNat
      let n := AmoTyBytes t
      let p ← (match windowFor c addr with
        | .sync _ _ => check s c addr n .store
        | .spad _ _ => check s c addr n .store
        | .gallery k _ => if k = c.lcore then check s c addr n .store else flt cADDRESS addr
        | _ => flt cADDRESS addr)
      checkPoison s p addr n
      let o : SyncOp := { (default : SyncOp) with
        kind := k, addr := addr.toNat, size := n, signed := AmoTySigned t, scope := sc, val := rdS c b.toNat,
        bad := badScalar c b.toNat, exp := rdS c e.toNat, d := rot c d.toNat, pc := c.pc }
      if c.idem then do
        let c ← holdEffect c o
        .ok (goOn s c 8 1)
      else
        let (tp, s', c') := releaseAt s c p o (tickOf s c)
        checkEarlyAt s c p addr n tp
        let (s, c) := (s', c')
        let c := if d = 0 then c else { (c.await (.s (rot c d.toNat)) (tp + resultTicks c o)) with acq := max c.acq tp }
        .ok (goOn s c 8 1))

def execAmoAdd (t : AmoTy) (sc : Scope) (d a b : Reg) (s : State) : Out := atomicInstr .add t sc d a b 0 s
def execAmoAnd (t : AmoTy) (sc : Scope) (d a b : Reg) (s : State) : Out := atomicInstr .and t sc d a b 0 s
def execAmoOr (t : AmoTy) (sc : Scope) (d a b : Reg) (s : State) : Out := atomicInstr .or t sc d a b 0 s
def execAmoXor (t : AmoTy) (sc : Scope) (d a b : Reg) (s : State) : Out := atomicInstr .xor t sc d a b 0 s
def execAmoMin (t : AmoTy) (sc : Scope) (d a b : Reg) (s : State) : Out := atomicInstr .min t sc d a b 0 s
def execAmoMax (t : AmoTy) (sc : Scope) (d a b : Reg) (s : State) : Out := atomicInstr .max t sc d a b 0 s
def execAmoSwap (t : AmoTy) (sc : Scope) (d a b : Reg) (s : State) : Out := atomicInstr .swap t sc d a b 0 s
def execAmoCas (t : AmoTy) (sc : Scope) (d a b c : Reg) (s : State) : Out := atomicInstr .cas t sc d a b c s

end Sys2Proof.Machine
end

