-- ==== Sys2Proof/Machine/Buffers.lean ====
section
/-!
DEFINITION. Buffer declarations, acquisition, release and status (R114, R115, R275 to R277). The checks are those of E; the effect performs
at E + 1, after the starts of that tick (R275).
-/
set_option linter.unusedVariables false
namespace Sys2Proof.Machine
open Sys2Proof

/-- The scratchpad-window address of a unit's own offset. -/
def ownAddress (c : Ctx) (off : Nat) : Word := 0xD000000000000000 ||| BitVec.ofNat 64 (c.lcore * 2 ^ 48 + off)

/-- The first byte of ranges of own scratchpad offsets without rights raises RENT_LAPSED (R276, R277). -/
def checkOwn (s : State) (c : Ctx) (ranges : List (Nat × Nat)) : Res Unit :=
  let ps := ranges.flatMap (fun r => pieces (r.2 / 4096 + 2) r.1 r.2)
  match ps.findSome? (fun p => (rights s c (spadPlace s c p.1 2)).map (fun i => (p.1, i))) with
  | some (off, i) => flt cLAPSED (ownAddress c off) (BitVec.ofNat 64 i)
  | none => .ok ()

/-- The entry of a number below 64 (R275). -/
def entryOf (c : Ctx) (a : Word) : Res Buf :=
  if 64 ≤ a.toNat then flt cADDRESS a else .ok ((tget c.bufs a.toNat).getD default)

def setBuf (c : Ctx) (n : Nat) (b : Buf) : Ctx := { c with bufs := tset c.bufs n b }

/-- Ranges of bytes overlap. -/
def meets (a n b m : Nat) : Bool := a < b + m && b < a + n

/-- The first operand condition of BDECL that holds: tinfo and ctx.tval (R276). -/
def bdeclFault (c : Ctx) (entry base len word target : Nat) : Option (Nat × Nat) :=
  let others := (c.bufs.filter (fun e => e.2.declared && e.1 != entry)).map Prod.snd
  if base % 32 != 0 then some (1, base)
  else if len % 32 != 0 then some (2, len)
  else if word % 16 != 0 then some (3, word)
  else if target = 0 || 2 ^ 32 ≤ target then some (4, target)
  else if 4194304 < base + len then some (5, base)
  else if 4194304 < word + 16 then some (6, word)
  else if others.any (fun b => meets b.base b.length base len) then some (7, base)
  else if others.any (fun b => meets b.base b.length word 16) || meets base len word 16 then some (8, word)
  else none

/-- What a buffer instruction of a context does at E + 1: to its entry, and at a declaration and a release to the entry's word. An entry whose
word is frozen keeps its state (R87, R115; log entry 117). -/
def performBuffer (s : State) (uid n : Nat) (op : BufOp) : State :=
  match unitOf s uid with
  | none => s
  | some c =>
    let e := (tget c.bufs n).getD default
    let at_ := fun (b : Buf) => spadPlace s c b.wordOff 2
    let word := fun (b : Buf) => wordAt s (at_ b).space (at_ b).off
    match op with
    | .undeclare => setUnit s (setBuf c n { e with declared := false })
    | .declare b target =>
      let p := at_ b
      let s := { s with words := s.words.filter (fun w => !(w.1 == p.space && w.2.1 == p.off)) ++ [(p.space, p.off, false)] }
      let s := putWord s p.space p.off { word b with target := target, count := 0, reached := false, frozen := false } (tickOf s c)
      modUnit s uid (fun c => setBuf c n b)
    | .acquire need next => if e.declared && e.state = need && !(word e).frozen then setUnit s (setBuf c n { e with state := next }) else s
    | .release =>
      if e.declared && e.state = 3 && !(word e).frozen then
        let s := putWord s (at_ e).space (at_ e).off { word e with count := 0, reached := false } (tickOf s c)
        modUnit s uid (fun c => setBuf c n { e with state := 0 })
      else s

/-- A buffer instruction that passes its checks goes on, its effect due at E + 1. -/
def bufferAt (s : State) (c : Ctx) (n : Nat) (op : BufOp) : State :=
  goOn (schedC s c (tickOf s c + 1) 16 (.eff (.buffer c.uid n op))) c 4 1

/-- BDECL (R114, R276). -/
def execBdecl (a b : Reg) (s : State) : Out :=
  onCore [0] (fun s c => do
    let n := rdS c a.toNat
    let arg := fun i => (rdS c (b.toNat + i)).toNat
    let e ← entryOf c n
    if e.declared && e.state != 0 then flt cBUFFER n (BitVec.ofNat 64 e.state)
    else if arg 1 = 0 then .ok (bufferAt s c n.toNat .undeclare)
    else match bdeclFault c n.toNat (arg 0) (arg 1) (arg 2) (arg 3) with
      | some (i, v) => flt cADDRESS (BitVec.ofNat 64 v) (BitVec.ofNat 64 i)
      | none => do
        checkOwn s c [(arg 0, arg 1), (arg 2, 16)]
        .ok (bufferAt s c n.toNat (.declare ⟨arg 2, arg 1, arg 0, 0, true⟩ (arg 3)))) s

/-- BACQ moves a declared entry from one state to another (Table 5.8); other states raise BUFFER_STATE (R275). -/
def acquireBuffer (need next : Nat) (a : Reg) : State → Out :=
  onCore [0] (fun s c => do
    let n := rdS c a.toNat
    let e ← entryOf c n
    if !e.declared then flt cBUFFER n 4
    else do
      checkOwn s c [(e.base, e.length)]
      if e.state != need then flt cBUFFER n (BitVec.ofNat 64 e.state)
      else .ok (bufferAt s c n.toNat (.acquire need next)))

def execBacqFill (a : Reg) (s : State) : Out := acquireBuffer 0 1 a s
def execBacqDrain (a : Reg) (s : State) : Out := acquireBuffer 2 3 a s

/-- BREL (Table 5.8): EMPTY and undeclared entries are left, DRAINING enters EMPTY with its word cleared. -/
def execBrel (a : Reg) (s : State) : Out :=
  onCore [0] (fun s c => do
    let n := rdS c a.toNat
    let e ← entryOf c n
    if !e.declared then .ok (goOn s c 4 1)
    else do
      checkOwn s c [(e.base, e.length)]
      if e.state = 0 then .ok (goOn s c 4 1)
      else if e.state != 3 then flt cBUFFER n (BitVec.ofNat 64 e.state)
      else .ok (bufferAt s c n.toNat .release)) s

/-- What BSTAT reads (R277). -/
def bstatWord (s : State) (c : Ctx) (e : Buf) : Nat :=
  if !e.declared then 0
  else
    let p := spadPlace s c e.wordOff 2
    let w := wordAt s p.space p.off
    w.count * 2 ^ 32 + w.gen * 2 ^ 16 + (if w.reached then 16 else 0) + (if w.frozen then 8 else 0) + 4 + e.state

/-- BSTAT (R277): no rights needed, result at E + 4. -/
def execBstat (d a : Reg) (s : State) : Out :=
  onCore [0] (fun s c => do
    let e ← entryOf c (rdS c a.toNat)
    let (s, c) := later s c d.toNat 4 (BitVec.ofNat 64 (bstatWord s c e))
    .ok (goOn s c 4 1)) s

end Sys2Proof.Machine
end

