-- ==== Sys2Proof/Machine/Residency.lean ====
section
/-!
DEFINITION. Alcove slots and the residency table (R125 to R131, R350): slot numbers, entries and their change count, the
bytes of a slot that a format uses, and emptying the entries of a slot.
-/
set_option linter.unusedVariables false
namespace Sys2Proof.Machine
open Sys2Proof

/-- The rent entry of physical slot p of a core, and of bank b (R76). -/
def slotRef (core p : Nat) : Nat := refOf (dieOfCore core) 0 (core % 128 * 36 + 4 + p)
def bankEntry (core b : Nat) : Nat := refOf (dieOfCore core) 0 (core % 128 * 36 + b)

/-- The physical slot of a logical one the context holds (R125). -/
def physSlot (c : Ctx) (n : Nat) : Option Nat := tget c.slots n

/-- Entry b of a core's residency table. -/
def entryAt (k : CoreSt) (b : Nat) : ResEntry := (tget k.res b).getD default

/-- Changes entry b; a change of its state counts (R129). -/
def modEntry (k : CoreSt) (b : Nat) (f : ResEntry → ResEntry) : CoreSt :=
  let e := f (entryAt k b)
  { k with
    res := tset k.res b e
    resCount := if e.state = (entryAt k b).state then k.resCount else k.resCount + 1 }

/-- An empty entry: its bank is zeroed; the rows that selected it before keep passing (R130, Table 6.6). -/
def emptied (e : ResEntry) : ResEntry := { (default : ResEntry) with lastRow := e.lastRow }

/-- Bank width of a weight type (Table 6.1): 16, 8 or 4 bits. -/
def bankWidth (t : Nat) : Nat :=
  match bankCount t with
  | 8 => 16 | 16 => 8 | _ => 4

/-- Bytes of a slot that a weight format uses (Table 6.3). -/
def weightBytes (t : Nat) : Nat :=
  match t with
  | 0x0B | 0x0A => 32768
  | 0x0C | 0x0D | 0x00 | 0x04 => 16384
  | 0x0E => 8192
  | 0x0F => 17408
  | 0x10 => 9216
  | 0x11 => 10240
  | 0x09 => 16384
  | _ => 5000

/-- Every entry loaded or loading from a physical slot becomes EMPTY, and its load ends; one that still drains for a load from that slot
becomes EMPTY when it has drained (R130, Tables 4.10, 6.6). -/
def emptySlot (s : State) (core p : Nat) : State :=
  modCore s core (fun k =>
    let bs := (k.res.filter (fun e => e.2.state != 0 && e.2.slot == p)).map Prod.fst
    let k := bs.foldl (fun k b => modEntry k b emptied) k
    { k with loads := k.loads.map (fun l =>
        if l.slot != p || l.drain then l
        else if l.live && (entryAt k l.bank).state = 3 then { l with drain := true }
        else { l with live := false }) })

/-- Residency entries of a unit, from the slots it holds (R64). -/
def heldEntries (k : CoreSt) (c : Ctx) : Tab ResEntry :=
  k.res.filter (fun e => e.2.state != 0 && e.2.ctx == c.slot && c.slots.any (fun p => p.2 == e.2.slot))

/-- A unit is issued on a core's context number: its entries are emptied, and the gradients of banks 0 to 7 that are
then empty are zeroed (R350). A saved unit that had that number keeps the record of its entries for a move (R64). -/
def clearContext (s : State) (core ctx : Nat) : State :=
  let s := { s with units := s.units.map (fun (u : Nat × Ctx) =>
    if u.2.core = core && u.2.slot = ctx && u.2.wait = .saved && u.2.entriesAt.isNone then
      (u.1, { u.2 with
        entriesAt := some (heldEntries (coreOf s core) u.2)
        gradsAt := (coreOf s core).grads.filter (fun g =>
          (entryAt (coreOf s core) (g.1 / 16384)).state == 0 || (entryAt (coreOf s core) (g.1 / 16384)).ctx == ctx) }) else u) }
  modCore s core (fun k =>
    let bs := (k.res.filter (fun e => e.2.state != 0 && e.2.ctx == ctx)).map Prod.fst
    let k := bs.foldl (fun k b => modEntry k b emptied) k
    { k with
      loads := k.loads.map (fun l => if bs.contains l.bank then { l with live := false } else l)
      grads := k.grads.filter (fun e => (entryAt k (e.1 / 16384)).state != 0) })

end Sys2Proof.Machine
end

