-- ==== Sys2Proof/Machine/Rent.lean ====
section
/-!
DEFINITION. Rent (spec/04, R277 to R281): charges, handles, claims, the rent operations and their instructions, regions
that lapse, end, are reclaimed and scrubbed, and what each does to work in motion.
-/
set_option linter.unusedVariables false
namespace Sys2Proof.Machine
open Sys2Proof

/-! ## Status codes (Table 4.6) -/

def rDONE : Nat := 0
def rPOOL : Nat := 1
def rALLOW : Nat := 2
def rOVER : Nat := 3
def rSTALE : Nat := 4
def rOWNER : Nat := 5
def rARG : Nat := 6
def rSUBLET : Nat := 7
def rNOTPAID : Nat := 8

/-- The fault of the plain form for a status (Table 4.6). -/
def rentFault (st : Nat) : Nat :=
  match st with
  | 1 | 2 | 3 => cPOOL
  | 6 => cADDRESS
  | 7 => cREGION
  | _ => cLAPSED

/-- Who issues a rent operation: a virtual device, an owner number, and the team share 1 admits (0: none). -/
structure Issuer where
  vd : Nat
  owner : Nat
  team : Nat
deriving DecidableEq, Repr, Inhabited

def issuerOf (c : Ctx) : Issuer := ⟨c.vd, ownerOf c, c.team⟩

/-- The issuer is an owner, or has principal 0's standing over what principal 0 owns (R75, R79). -/
def Issuer.stands (i : Issuer) (owner : Nat) : Bool := owner == i.owner || owner == i.vd * 65536

/-- A table's name for the newel to look at what waits again (R55). -/
def poke (s : State) : State :=
  if s.agenda.any (fun e => e.act == .ins .scoreboardReevaluate && e.tick ≤ now s 0) then s
  else schedNewel s 0 .scoreboardReevaluate

/-! ## Accounts (R73) -/

/-- Debits an allowance that covers the charge. -/
def charge (s : State) (vd n : Nat) : Option State :=
  if (vdOf s vd).allowance < n then none
  else some (modVd s vd (fun v => { v with allowance := v.allowance - n }))

/-- Credits an allowance, saturating as R38 does. -/
def refund (s : State) (vd n : Nat) : State :=
  modVd s vd (fun v => { v with allowance := min (v.allowance + n) never })

/-! ## Entries and handles (R76, R77) -/

/-- Entries of each table (Table 4.3). -/
def tableSize (t : Nat) : Nat :=
  match t with
  | 0 => 4608 | 1 => 131072 | 2 => 32768 | _ => 24576
/-- The table of a tier (Table 4.3). -/
def tableOf (tier : Nat) : Nat := min tier 3

/-- The handle of an entry (R77). -/
def handleOf (s : State) (ref : Nat) : Nat :=
  (rentOf s ref).gen * 2 ^ 48 + refDie ref * 2 ^ 29 + refTable ref * 2 ^ 27 + refIndex ref

/-- Reserved handle bits [47:32] and [26:17]. -/
def handleReserved (h : Nat) : Bool := bitsOf h 32 16 != 0 || bitsOf h 17 10 != 0

/-- The entry a handle names, through the translations of moved regions (R280); none when stale (R77). -/
def entryOfHandle (s : State) (h : Nat) : Option Nat :=
  let live := fun r => (rentOf s r).state = 1 || (rentOf s r).state = 2
  let ref := refOf (bitsOf h 29 3) (bitsOf h 27 2) (bitsOf h 0 17)
  if (rentOf s ref).gen = bitsOf h 48 16 && live ref then some ref
  else (s.moved.find? (fun m => m.1 == h && live m.2)).map Prod.snd

/-- The first free index of a table from a start, wrapping. -/
def freeFrom (used : List Nat) (cap : Nat) : Nat → Nat → Option Nat
  | 0, _ => none
  | f + 1, i => if used.contains (i % cap) then freeFrom used cap f (i + 1) else some (i % cap)

/-- A FREE entry of a table of a die: any of them (R89, log entry 18). -/
def freeEntry (s : State) (die table : Nat) : Option (Nat × State) :=
  let used := (s.rents.filter (fun e => e.2.state != 0 && refDie e.1 == die && refTable e.1 == table)).map
    (fun e => refIndex e.1)
  let (k, s) := pick s (tableSize table)
  if tableSize table ≤ used.length then none
  else (freeFrom used (tableSize table) (used.length + 1) k).map (fun i => (refOf die table i, s))

/-- An entry's paid-until tick; a rebase may put that of a GRACE region before tick 0 (R48). -/
def paidAt (r : Rent) : Int := (r.paid : Int) - r.lack

/-- Schedules what comes next for an entry by its state (R84). -/
def schedRent (s : State) (ref : Nat) : State :=
  let r := rentOf s ref
  let at_ := fun t ph i => if t < never then sched s (refDie ref) t ph 0 0 (.ins i) else s
  if r.state = 1 then (if r.sub then at_ r.paid 1 (.subletEnd ref) else at_ r.paid 0 (.autoExtend ref))
  else if r.state = 2 then at_ (r.paid + 2 ^ 24 - r.lack) 3 (.graceEnd ref)
  else s

/-! ## Effects on work in motion (R86, R87, Table 4.10) -/

/-- An object that an atomic targeted and nothing else has used: it is a word from its freezing on (R86, R87). -/
def targetsIn (s : State) (space first last : Nat) : List (Nat × Nat × Bool) :=
  (s.targets.filter (fun w => w.1 == space && first ≤ w.2 && w.2 < last
    && !s.words.any (fun x => x.1 == space && x.2.1 == w.2))).map (fun w => (space, w.2, false))

/-- Words, atomic targets and barriers of a range freeze, and their waiters are released with status 3 (R86, R87). -/
def freezeRange (s : State) (space first last t : Nat) : State :=
  let s := { s with words := s.words ++ targetsIn s space first last }
  (s.words.filter (fun w => w.1 == space && first ≤ w.2.1 && w.2.1 < last)).foldl (fun s w =>
    let s := touchWord s space w.2.1 { wordAt s space w.2.1 with frozen := true } t
    releaseWaiters (releaseWaiters s space w.2.1 .swait 3 0) space w.2.1 .waitb 3 0) s

/-- Contents of a space are gone: its bytes, words, poison, marks and pages being retired. -/
def dropSpace (s : State) (space : Nat) : State :=
  let inside := fun (a : Nat) => a / 2 ^ 41 == space
  { s with
    mem := s.mem.filter (fun c => !inside c.1)
    words := s.words.filter (fun w => w.1 != space)
    targets := s.targets.filter (fun w => w.1 != space)
    memPoison := s.memPoison.filter (fun w => w.1 != space)
    late := s.late.filter (fun w => w.1 != space)
    scrub := s.scrub.filter (fun m => m.1 != space)
    retiring := s.retiring.filter (fun r => r.space != space) }

/-- A device's mappings of an entry go, its pages are no longer the host's, and a claim that waits for one completes as one that names
no mapped page does (R33; log entry 120). -/
def VDev.unmap (v : VDev) (ref : Nat) : VDev :=
  let gone := v.maps.filter (fun m => !m.host && m.ref == ref)
  let lost := fun (p : Nat) => gone.any (fun m => m.first / 65536 ≤ p && p < m.first / 65536 + m.pages)
  let claimed := v.claim.filter (fun a => lost (a / 65536))
  { v with
    maps := v.maps.filter (fun (m : Mapping) => m.host || m.ref != ref)
    hostOwned := v.hostOwned.filter (fun p => !lost p)
    claim := if claimed.isSome then none else v.claim
    prStatus := match claimed with | some a => BitVec.ofNat 64 (a / 65536 * 65536 + 256) | none => v.prStatus }

/-- A region's mappings go when its entry returns to FREE. -/
def unmap (s : State) (ref : Nat) : State :=
  let s := { s with vds := s.vds.map (fun (v : Nat × VDev) => (v.1, v.2.unmap ref)) }
  let s := { s with dies := s.dies.map (fun (d : Nat × DieSt) => (d.1, { d.2 with syncPages := d.2.syncPages.filter (fun (p : Nat × Nat) => p.2 % 2 ^ 32 != ref) })) }
  (allUnits s).foldl (fun s u => modUnit s u.uid (fun u => { u with spad := u.spad.filter (fun p => p.ref != ref) })) s

/-- An entry returns to FREE with the next generation, its other fields zero (log entry 121); translations to it end (R76, R280). -/
def freeRent (s : State) (ref : Nat) : State :=
  let s := dropSpace (unmap s ref) (rentOf s ref).space
  { modRent s ref (fun r => { (default : Rent) with gen := (r.gen + 1) % 65536 }) with
    moved := s.moved.filter (fun m => m.2 != ref)
    ended := s.ended.filter (fun e => e.1 != (rentOf s ref).space) }

/-- Lines of a region that can be marked (R92): tier-0 items carry no marks. -/
def markable (r : Rent) : Nat := if r.tier = 0 then 0 else r.size * granule r / 256

/-- Every line of a region is marked. -/
def markAll (s : State) (r : Rent) : State :=
  { s with scrub := s.scrub.filter (fun m => m.1 != r.space) ++ (if markable r = 0 then [] else [(r.space, 0, markable r)]) }

/-- Lines marked for scrub in a pool (Table 4.5). -/
def markedLines (s : State) (tier die : Nat) : Nat :=
  ((s.scrub.filter (fun m => s.rents.any (fun e => e.2.space == m.1 && !e.2.sub && e.2.state != 0 && e.2.tier == tier
    && refDie e.1 == die))).map (fun m => m.2.2)).foldl (· + ·) 0

/-- The background scrubber next comes to a region: at the next tick in tiers 1 and 2, at an open one in the others (R92). -/
def schedScrub (s : State) (ref : Nat) : State :=
  let s := { s with agenda := s.agenda.filter (fun e => e.act != .ins (.scrubComplete ref)) }
  let (k, s) := if (rentOf s ref).tier ≤ 2 then (0, s) else openTicks s
  sched s (refDie ref) (now s (refDie ref) + 1 + k) 14 0 0 (.ins (.scrubComplete ref))

/-- The region an entry's scrubber clears now: of those with marks on its core (tier 1) or its die, the one marked first, none of a
FROZEN device's (R84, R92; log entry 97). -/
def scrubTurn (s : State) (ref : Nat) : Option Nat :=
  let r := rentOf s ref
  s.scrub.findSome? (fun m => (s.rents.find? (fun e => e.2.space == m.1 && !e.2.sub && e.2.state != 0 && e.2.tier == r.tier
    && refDie e.1 == refDie ref && (r.tier != 1 || e.2.core == r.core) && (vdOf s (e.2.owner / 65536)).state != 3)).map Prod.fst)

/-- Clears up to n of a space's marks, lowest runs first. -/
def clearMarks (space : Nat) : Nat → List (Nat × Nat × Nat) → List (Nat × Nat × Nat)
  | _, [] => []
  | n, m :: l =>
    if m.1 != space then m :: clearMarks space n l
    else if m.2.2 ≤ n then clearMarks space (n - m.2.2) l
    else (space, m.2.1 + n, m.2.2 - n) :: l

/-- A region becomes RECLAIMED (R84): contents gone, waits released; tier-0 items carry no marks and are FREE at once. -/
def reclaim (s : State) (ref : Nat) : State :=
  let r := rentOf s ref
  let t := now s (refDie ref)
  let s := freezeRange s r.space 0 (2 ^ 41) t
  let s := if r.tier = 0 && 4 ≤ r.item then emptySlot s r.core (r.item - 4) else s
  let s := modRent s ref (fun r => { r with state := 3, escrow := 0 })
  if r.tier = 0 then freeRent s ref
  else
    schedScrub (markAll (dropSpace s r.space) r) ref

/-- Live sublets of a region. -/
def subletsOf (s : State) (ref : Nat) : Tab Rent :=
  s.rents.filter (fun e => e.2.sub && e.2.state == 1 && refDie e.1 == refDie ref && refTable e.1 == refTable ref
    && e.2.parent == refIndex ref)

/-- Live sublets below an entry, each before those below it, by depth (R79, R81). -/
def sublets (s : State) : Nat → Nat → List Nat
  | 0, _ => []
  | f + 1, ref => (subletsOf s ref).flatMap (fun e => e.1 :: sublets s f e.1)

/-- The region an entry lies in: the entry itself, or the region whose storage a sublet shares. -/
def rootOf (s : State) (r : Rent) : Rent :=
  match s.rents.find? (fun e => e.2.space == r.space && !e.2.sub && e.2.state != 0) with
  | some e => e.2
  | none => r

/-- The former subtenant of a range: none, when its unit is gone (R74, R75). -/
def tenantUid (s : State) (owner : Nat) : Option Nat :=
  if owner % 65536 = 0 then some 0
  else ((allUnits s).find? (fun u => ownerOf u == owner && u.wait != .done)).map Ctx.uid

/-- One sublet ends for its subtenant: the entry is FREE, words of the range freeze (R86, R87). -/
def endOne (s : State) (ref : Nat) : State :=
  let r := rentOf s ref
  if !r.sub || r.state != 1 then s
  else
    let g := granule r
    let first := r.base - (rootOf s r).base
    let s := freezeRange s r.space (first * g) ((first + r.size) * g) (now s (refDie ref))
    let s := { s with ended := s.ended ++ (tenantUid s r.owner).toList.map (fun u =>
      (r.space, first, r.size, r.owner / 65536, u, (rentOf s (refOf (refDie ref) (refTable ref) r.parent)).owner)) }
    { modRent s ref (fun r => { (default : Rent) with gen := (r.gen + 1) % 65536 }) with
      moved := s.moved.filter (fun m => m.2 != ref) }

/-- A sublet ends (R81), after the sublets of its own range (log entry 98). -/
def endSublet (s : State) (ref : Nat) : State := endOne ((sublets s s.rents.length ref).reverse.foldl endOne s) ref

/-- A region lapses to GRACE with the effects of R86: words freeze, entries of a slot empty, a context whose bank it is
stops with RENT_LAPSED. -/
def lapseRegion (s : State) (ref : Nat) : State :=
  let r := rentOf s ref
  let s := modRent s ref (fun r => { r with state := 2, escrow := 0 })
  let s := freezeRange s r.space 0 (2 ^ 41) (now s (refDie ref))
  let s := if r.tier = 0 && 4 ≤ r.item then emptySlot s r.core (r.item - 4) else s
  let s := if r.tier = 0 && r.item < 4 then
      (match (allUnits s).find? (fun u => u.bankRef == ref && u.wait != .saved && u.wait != .done) with
      | some u => toMonitor s u ⟨cLAPSED, 0, 0, false⟩
      | none => s)
    else s
  poke (schedRent s ref)

/-- The owner's virtual device is FROZEN: no event of its regions fires (R42, R84). -/
def rentFrozen (s : State) (r : Rent) : Bool := (vdOf s (r.owner / 65536)).state = 3

/-- AUTO_EXTEND (R80). -/
def execAutoExtend (ref : Nat) (s : State) : Out :=
  let r := rentOf s ref
  if r.state != 1 || r.sub || r.paid != now s (refDie ref) || rentFrozen s r then .next s
  else
    let bw := rate r
    let q := bw * 2 ^ 20
    if q ≤ r.escrow then
      .next (schedRent (modRent s ref (fun r => { r with escrow := r.escrow - q, paid := r.paid + 2 ^ 20 })) ref)
    else
      let n := r.escrow / bw
      let s := refund s (r.owner / 65536) (r.escrow - n * bw)
      let s := modRent s ref (fun r => { r with escrow := 0, paid := r.paid + n })
      if n = 0 then .next (sched s (refDie ref) r.paid 2 0 0 (.ins (.lapse ref)))
      else .next (schedRent s ref)

/-- LAPSE (R86). -/
def execLapse (ref : Nat) (s : State) : Out :=
  let r := rentOf s ref
  if r.state != 1 || r.sub || r.paid != now s (refDie ref) || rentFrozen s r then .next s
  else .next (lapseRegion s ref)

/-- GRACE_END (R84). -/
def execGraceEnd (ref : Nat) (s : State) : Out :=
  let r := rentOf s ref
  if r.state != 2 || r.paid + 2 ^ 24 - r.lack != now s (refDie ref) || rentFrozen s r then .next s
  else .next (poke (reclaim s ref))

/-- SUBLET_END (R81). -/
def execSubletEnd (ref : Nat) (s : State) : Out :=
  let r := rentOf s ref
  if r.state != 1 || !r.sub || r.paid != now s (refDie ref) || rentFrozen s r then .next s
  else .next (endSublet s ref)

/-- SCRUB_COMPLETE (R84, R92): the scrubber clears 2 lines of a core's scratchpad or 16 of a die's mezzanine in a tick, an open
number in tiers 3 and 4, one region after another; when a RECLAIMED region's lines are clear it returns to FREE. Nothing happens to
regions of a FROZEN device. -/
def execScrubComplete (ref : Nat) (s : State) : Out :=
  let r := rentOf s ref
  if r.state = 0 || rentFrozen s r then .next s
  else
    let (n, s) := match r.tier with
      | 1 => (2, s)
      | 2 => (16, s)
      | _ => openTicks s
    let s := if scrubTurn s ref = some ref then { s with scrub := clearMarks r.space n s.scrub } else s
    .next (if s.scrub.any (fun m => m.1 == r.space) then schedScrub s ref
      else if r.state = 3 then poke (freeRent s ref) else s)

/-! ## Claims (R41, R88 to R91) -/

/-- Pages of tier 4 on a die's pool link (R41): the extents firmware has taken. -/
def poolPages (s : State) (die : Nat) : Nat := (((tget s.links.extents die).getD []).map Prod.snd).foldl (· + ·) 0

/-- Capacity of a pool (R41). -/
def capacity (s : State) (tier die : Nat) : Nat :=
  match tier with
  | 1 => 131072
  | 2 => if die = 0 then 31744 else 32768
  | 3 => 8388608
  | _ => poolPages s die

/-- Regions of a pool, in any state but FREE; the queue window lies outside the pools (R26, R41). -/
def poolRegions (s : State) (tier die : Nat) : Tab Rent :=
  s.rents.filter (fun e => e.2.state != 0 && !(e.2.owner == 64 * 65536 && e.2.base == 31744) && !e.2.sub && e.2.tier == tier && refDie e.1 == die)

def sizeOf' (l : Tab Rent) : Nat := (l.map (fun e => e.2.size)).foldl (· + ·) 0

/-- Granules of a pool a virtual device holds in PAID (R88). -/
def paidUse (s : State) (vd tier die : Nat) : Nat :=
  sizeOf' ((poolRegions s tier die).filter (fun e => e.2.state == 1 && e.2.owner / 65536 == vd))

/-- A non-FREE device's floor in a pool (R41, Table 2.8). -/
def floorOf (s : State) (vd tier die : Nat) : Nat :=
  if (vdOf s vd).state = 0 then 0 else (tget (vdOf s vd).floors ((tier - 1) * 8 + die)).getD 0

/-- The entry with the smallest paid-until tick; of several the lowest (log entry 99). -/
def soonest (l : Tab Rent) : Option Nat :=
  (l.foldl (fun (b : Option (Nat × Rent)) e => match b with
    | none => some e
    | some x => if paidAt e.2 < paidAt x.2 then some e else some x) none).map Prod.fst

/-- Evicts GRACE regions of others while less than n is available (R89); no event of a FROZEN device's regions fires (R84). -/
def evict (on : Nat × Rent → Bool) (vd tier die n : Nat) : Nat → State → Nat → Nat × State
  | 0, s, av => (av, s)
  | f + 1, s, av =>
    if n ≤ av then (av, s)
    else match soonest ((poolRegions s tier die).filter (fun e => e.2.state == 2 && e.2.owner / 65536 != vd && on e && !rentFrozen s e.2)) with
      | none => (av, s)
      | some r => evict on vd tier die n f (reclaim s r) (av + (rentOf s r).size)

/-- Binds n granules: free space first, then RECLAIMED space in increasing paid-until tick (R89). A RECLAIMED region is bound whole: what
the claim does not need of it is free, scrubbed space (log entry 122). -/
def bindSpace (on : Nat × Rent → Bool) (tier die n : Nat) : Nat → State → Nat → State
  | 0, s, _ => s
  | f + 1, s, free =>
    if n ≤ free then s
    else match soonest ((poolRegions s tier die).filter (fun e => e.2.state == 3 && on e && !rentFrozen s e.2)) with
      | none => s
      | some r => bindSpace on tier die n f (freeRent s r) (free + (rentOf s r).size)

/-- Claim(v, t, d, n), for tier 1 on a target core (R89). -/
def claim (s : State) (vd tier die n core : Nat) : Option State :=
  let table := tableOf tier
  let entries := (s.rents.filter (fun e => e.2.state != 0 && refDie e.1 == die && refTable e.1 == table)).length
  if tableSize table ≤ entries then none
  else
    let on := fun (e : Nat × Rent) => tier != 1 || e.2.core == core
    let pool := poolRegions s tier die
    let free := (if tier = 1 then 1024 else capacity s tier die) - sizeOf' (pool.filter on)
    let avail := free + sizeOf' (pool.filter (fun e => e.2.state == 3 && on e && !rentFrozen s e.2))
    let k := pool.length + 1
    if paidUse s vd tier die + n ≤ floorOf s vd tier die then
      let (av, s) := evict on vd tier die n k s avail
      if av < n then none else some (bindSpace on tier die n k s free)
    else
      let reserve := ((List.range 64).filter (fun u => u != vd)).foldl
        (fun r u => r + (floorOf s u tier die - paidUse s u tier die)) 0
      if avail < n + reserve then none else some (bindSpace on tier die n k s free)

/-- The lowest start from base at which n consecutive numbers are outside every used range. -/
def lowestRun (used : List (Nat × Nat)) (base limit n : Nat) : Option Nat :=
  let cands := base :: (used.map (fun u => u.1 + u.2)).filter (fun a => base ≤ a)
  let ok := cands.filter (fun a => a + n ≤ limit && used.all (fun u => !(meets u.1 u.2 a n)))
  ok.foldl (fun m a => match m with | none => some a | some x => some (min x a)) none

/-- The granules of a pool that can hold a region: a core's own in tier 1, all of the die's in the others. -/
def poolSpan (s : State) (tier die core : Nat) : Nat × Nat :=
  if tier = 1 then (core % 128 * 1024, core % 128 * 1024 + 1024) else (0, capacity s tier die)

/-- The first granule of a region (R76): the item's number in its core's own pool for tier 0; else any free run of the pool, which of
them the device leaves open, and the first free granule where space is in pieces (log entry 100). -/
def placeRegion (s : State) (die : Nat) (r : Rent) : Nat × State :=
  if r.tier = 0 then (if r.item < 4 then r.item else r.item - 4, s)
  else
    let (lo, hi) := poolSpan s r.tier die r.core
    let used := (s.rents.filter (fun e => e.2.state != 0 && !e.2.sub && e.2.tier == r.tier && refDie e.1 == die)).map (fun e => (e.2.base, e.2.size))
    let (k, s) := pick s (hi - lo)
    (((lowestRun used (lo + k) hi r.size).orElse (fun _ => (lowestRun used lo hi r.size).orElse (fun _ => lowestRun used lo hi 1))).getD lo, s)

/-- Fills a FREE entry with a new PAID region in a space of its own, all zeros, every line marked for scrub (R84, R92). -/
def makeRegion (s : State) (ref : Nat) (r : Rent) : State :=
  let (b, s) := placeRegion s (refDie ref) r
  let r := { r with space := s.nextSpace, gen := (rentOf s ref).gen, state := 1, base := b }
  let s := schedRent { s with nextSpace := s.nextSpace + 1, rents := tset s.rents ref r } ref
  if r.tier = 0 then s else schedScrub (markAll s r) ref

/-- A region of a pool: claimed, in a fresh entry. -/
def claimRegion (s : State) (vd die n core : Nat) (r : Rent) : Option (Nat × State) :=
  match claim s vd r.tier die n core with
  | none => none
  | some s =>
    match freeEntry s die (tableOf r.tier) with
    | none => none
    | some (ref, s) => some (ref, makeRegion s ref r)

/-! ## Where a region is mapped (R280) -/

/-- The lowest free 64 KiB-aligned global address of a virtual device for n pages (R44, R280). -/
def freeGlobal (v : VDev) (n : Nat) : Option Nat :=
  (lowestRun (v.maps.map (fun m => (m.first / 65536, m.pages))) (2 ^ 56 / 65536) (2 ^ 57 / 65536) n).map (· * 65536)

/-- The lowest run of free scratchpad granules of a unit above its grant and spill granules (R280). -/
def freeSpad (s : State) (c : Ctx) (n : Nat) : Option Nat :=
  lowestRun (c.spad.map (fun p => (p.first, p.count))) ((recOf s c).spadGranules + 128) 1024 n

/-- The lowest run of free pages of a die's synchronisation space (R280). -/
def freeSync (d : DieSt) (n : Nat) : Option Nat := lowestRun (d.syncPages.map (fun p => (p.1, 1))) 0 256 n

/-- Maps the pages of a synchronisation-space region. -/
def mapSync (s : State) (die page n ref : Nat) : State :=
  modDie s die (fun d => { d with syncPages := (List.range n).foldl (fun t i => tset t (page + i) (ref + i * 2 ^ 32)) d.syncPages })

/-! ## Operations (R78, R79, R278 to R281) -/

/-- RENT by a context (R79, R279, R280): status, handle. -/
def rentNew (s : State) (c : Ctx) (tier : Nat) (sz until_ t : Nat) : Nat × List Nat × State :=
  let n := bitsOf sz 0 32
  let share := bitsOf sz 32 2
  let sync := bitsOf sz 63 1 == 1
  let die := dieOfCore c.core
  let r : Rent := { (default : Rent) with
    owner := ownerOf c, tier := tier, share := share, size := n, paid := until_, core := c.core, team := c.team }
  if n = 0 || (if tier = 1 then 1024 else 2 ^ 24) < n || share = 3 || (sync && tier != 2) || bitsOf sz 34 29 != 0
      || until_ ≤ t then (rARG, [], s)
  else
    let cost := rate r * (until_ - t)
    if never < cost then (rOVER, [], s)
    else
      let place := match tier with
        | 1 => (freeSpad s c n).map (fun g => (g, (ownAddress c (g * 4096)).toNat))
        | _ => if sync then (freeSync (dieOf s die) n).map (fun p => (p, (0xF * 2 ^ 60 + die * 2 ^ 48 + p * 65536)))
            else (freeGlobal (vdOf s c.vd) n).map (fun a => (a, a))
      match place with
      | none => (rPOOL, [], s)
      | some (p, addr) =>
        let r := { r with addr := addr }
        match claimRegion s c.vd die n c.core r with
        | none => (rPOOL, [], s)
        | some (ref, s') =>
          match charge s' c.vd cost with
          | none => (rALLOW, [], s)
          | some s' =>
            let s' := match tier with
              | 1 => modUnit s' c.uid (fun c => { c with spad := c.spad ++ [⟨p, n, ref⟩] })
              | _ => if sync then mapSync s' die p n ref
                  else modVd s' c.vd (fun v => { v with maps := v.maps ++ [⟨p, n, ref, false, 0, false⟩] })
            (rDONE, [handleOf s' ref], poke s')

/-- RENEW (R79, Table 4.9): charged from the old paid-until tick; a sublet's charge and waiver cancel. -/
def rentRenew (s : State) (i : Issuer) (ref until_ t : Nat) : Nat × State :=
  let r := rentOf s ref
  let par := rentOf s (refOf (refDie ref) (refTable ref) r.parent)
  let good := if r.state = 2 then decide (t < until_)
    else decide (r.paid < until_) && (!r.sub || decide (until_ ≤ par.paid))
  if !i.stands r.owner then (rOWNER, s)
  else if !good then (rARG, s)
  else
    let cost := rate r * (until_ - r.paid + r.lack)
    if never < cost then (rOVER, s)
    else match (if r.sub then some s else charge s (r.owner / 65536) cost) with
      | none => (rALLOW, s)
      | some s => (rDONE, poke (schedRent (modRent s ref (fun r => { r with paid := until_, state := 1, lack := 0 })) ref))

/-- PREPAY (R79). -/
def rentPrepay (s : State) (i : Issuer) (ref amount : Nat) : Nat × State :=
  let r := rentOf s ref
  if !i.stands r.owner then (rOWNER, s)
  else if r.state = 2 then (rNOTPAID, s)
  else if r.sub then (rARG, s)
  else if never < r.escrow + amount then (rOVER, s)
  else match charge s (r.owner / 65536) amount with
    | none => (rALLOW, s)
    | some s => (rDONE, modRent s ref (fun r => { r with escrow := r.escrow + amount }))

/-- RELEASE by an issuer with standing (Table 4.7), refunding paid time and escrow; tier-0 handles are refused (R280). -/
def rentRelease (s : State) (i : Issuer) (ref t : Nat) : Nat × State :=
  let r := rentOf s ref
  let back := if r.state = 1 then rate r * (r.paid - t) + r.escrow else 0
  if !i.stands r.owner then (rOWNER, s)
  else if !(subletsOf s ref).isEmpty then (rSUBLET, s)
  else if r.tier = 0 then (rARG, s)
  else if never < back then (rOVER, s)
  else if r.sub then (rDONE, endSublet s ref)
  else (rDONE, poke (reclaim (refund s (r.owner / 65536) back) ref))

/-- SUBLET (Table 4.7): the charge and the waiver cancel in one allowance. A sublet shares its region's storage; its base counts in the
pool as its region's does. -/
def rentSublet (s : State) (i : Issuer) (ref first count owner end_ t : Nat) : Nat × List Nat × State :=
  let r := rentOf s ref
  if !i.stands r.owner then (rOWNER, [], s)
  else if r.state = 2 then (rNOTPAID, [], s)
  else if (subletsOf s ref).any (fun e => meets e.2.base e.2.size (r.base + first) count) then (rSUBLET, [], s)
  else if r.tier = 0 || end_ ≤ t || r.paid < end_ || count = 0 || r.size < first + count
      || owner / 65536 != r.owner / 65536 then (rARG, [], s)
  else if never < count * granule r * weight r.tier * (end_ - t) then (rOVER, [], s)
  else match freeEntry s (refDie ref) (refTable ref) with
    | none => (rPOOL, [], s)
    | some (e, s) =>
      let s := modRent s e (fun x => { r with
        gen := x.gen, owner := owner, size := count, sub := true, parent := refIndex ref, base := r.base + first, paid := end_
        escrow := 0, share := 0, addr := if r.addr = 0 then 0 else r.addr + first * granule r })
      (rDONE, [handleOf s e], schedRent s e)

/-- UNSUBLET (Table 4.7): the refund and the parent's charge cancel, and are bounded like any (R73). -/
def rentUnsublet (s : State) (i : Issuer) (ref t : Nat) : Nat × State :=
  let r := rentOf s ref
  let par := rentOf s (refOf (refDie ref) (refTable ref) r.parent)
  if !(i.stands r.owner || (r.sub && i.stands par.owner)) then (rOWNER, s)
  else if r.state = 2 then (rNOTPAID, s)
  else if !r.sub then (rARG, s)
  else if never < rate r * (r.paid - t) then (rOVER, s)
  else (rDONE, endSublet s ref)

/-- RQUERY (R281). -/
def rentQuery (s : State) (i : Issuer) (ref : Nat) : Nat × List Nat :=
  let r := rentOf s ref
  let par := rentOf s (refOf (refDie ref) (refTable ref) r.parent)
  let shared := (r.share == 2 && r.owner / 65536 == i.vd) || (r.share == 1 && r.team == i.team && i.team != 0)
    || (subletsOf s ref).any (fun e => e.2.owner == i.owner)
  if !(i.stands r.owner || (r.sub && i.stands par.owner) || shared) then (rOWNER, [])
  else (rDONE, [r.size * 2 ^ 32 + r.share * 2 ^ 7 + r.tier * 2 ^ 4 + r.state, r.paid, r.escrow, if r.tier = 0 then 0 else r.addr])

/-- An operation on a handle: BAD_ARG for reserved bits, then STALE (R77, R78). -/
def onHandle (s : State) (h : Nat) (f : Nat → Nat × List Nat × State) : Nat × List Nat × State :=
  if handleReserved h then (rARG, [], s)
  else match entryOfHandle s h with
    | none => (rSTALE, [], s)
    | some ref => f ref

/-- The operation of a rent instruction, with the values of its operands: status, further results, state. -/
def rentOp (s : State) (c : Ctx) (i : Instr) (args : List Word) (t : Nat) : Nat × List Nat × State :=
  let arg := fun k => ((args.drop k).headD 0).toNat
  let iss := issuerOf c
  match i with
  | .rent _ tier _ _ _ => rentNew s c (match tier with | .t1 => 1 | .t2 => 2 | .t3 => 3 | .t4 => 4) (arg 0) (arg 1) t
  | .renew _ _ _ _ => onHandle s (arg 0) (fun r => let (x, s) := rentRenew s iss r (arg 1) t; (x, [], s))
  | .prepay _ _ _ _ => onHandle s (arg 0) (fun r => let (x, s) := rentPrepay s iss r (arg 1); (x, [], s))
  | .sublet _ _ _ _ => onHandle s (arg 0) (fun r => rentSublet s iss r (arg 1) (arg 2) (arg 3) (arg 4) t)
  | .unsublet _ _ _ => onHandle s (arg 0) (fun r => let (x, s) := rentUnsublet s iss r t; (x, [], s))
  | .release _ _ _ => onHandle s (arg 0) (fun r => let (x, s) := rentRelease s iss r t; (x, [], s))
  | .rquery _ _ _ => onHandle s (arg 0) (fun r => let (x, l) := rentQuery s iss r; (x, l, s))
  | _ => (rDONE, [], s)

/-- The status form of a rent instruction (R78). -/
def statusForm (i : Instr) : Bool :=
  match i with
  | .rent st _ _ _ _ | .renew st _ _ _ | .prepay st _ _ _ | .sublet st _ _ _ | .unsublet st _ _ | .release st _ _
  | .rquery st _ _ => st
  | _ => false

/-- A rent operation performs at E + 16: its status and, when it is DONE, its results are written 4 ticks later, or the plain form
faults (R78, R278). -/
def performRent (s : State) (uid : Nat) (i : Instr) (args : List Word) (dst : List Nat) (pc : Word) : State :=
  match unitOf s uid with
  | none => s
  | some c =>
    let t := tickOf s c
    let (st, rs, s) := rentOp s c i args t
    if st != 0 && !statusForm i then takeFault s uid ⟨rentFault st, args.headD 0, BitVec.ofNat 64 (0x100 + st), false⟩ pc
    else (dst.zip (st :: rs)).foldl (fun s p =>
      if p.1 = 0 then s else schedC s c (t + 4) 11 (.eff (.bank uid (8 * p.1) (bytesOfNat 8 p.2) []))) s

/-- A rent instruction with its operands and result registers; an idem region refuses all but RQUERY (R82, R268). -/
def rentInstr (i : Instr) (query : Bool) (d n : Nat) (args : Ctx → List Word) : State → Out :=
  onCore [23] (fun s c =>
    if c.idem && !query then flt cREGION 0 3
    else
      let e := tickOf s c
      let dst := (List.range n).map (fun k => rot c (d + k))
      let s := schedC s c (e + 16) 12 (.eff (.rent c.uid i (args c) dst c.pc))
      .ok (goOn s (dst.foldl (fun c p => c.await (.s p) (e + 20)) c) 4 1))

def execRent (st : Bool) (t : Tier) (d a b : Reg) (s : State) : Out :=
  rentInstr (.rent st t d a b) false d.toNat 2 (fun c => [rdS c a.toNat, rdS c b.toNat]) s
def execRenew (st : Bool) (d a b : Reg) (s : State) : Out :=
  rentInstr (.renew st d a b) false d.toNat 1 (fun c => [rdS c a.toNat, rdS c b.toNat]) s
def execPrepay (st : Bool) (d a b : Reg) (s : State) : Out :=
  rentInstr (.prepay st d a b) false d.toNat 1 (fun c => [rdS c a.toNat, rdS c b.toNat]) s
def execSublet (st : Bool) (d a b : Reg) (s : State) : Out :=
  rentInstr (.sublet st d a b) false d.toNat 2
    (fun c => rdS c a.toNat :: (List.range 4).map (fun k => rdS c (b.toNat + k))) s
def execUnsublet (st : Bool) (d a : Reg) (s : State) : Out :=
  rentInstr (.unsublet st d a) false d.toNat 1 (fun c => [rdS c a.toNat]) s
def execRelease (st : Bool) (d a : Reg) (s : State) : Out :=
  rentInstr (.release st d a) false d.toNat 1 (fun c => [rdS c a.toNat]) s
def execRquery (st : Bool) (d a : Reg) (s : State) : Out :=
  rentInstr (.rquery st d a) true d.toNat 5 (fun c => [rdS c a.toNat]) s

end Sys2Proof.Machine
end

