-- ==== Sys2Proof/Machine/Interrupt.lean ====
section
/-!
DEFINITION. Asynchronous interrupts, precise stops and the monitor's round trip (R112, R116, R118, R354), DEFER, the
return from the user handler (R254, R352), and faults of engine commands (R116, R133).
-/
set_option linter.unusedVariables false
namespace Sys2Proof.Machine
open Sys2Proof

/-! ## Tokens (R104) -/

/-- A queue's place in the line LQ, MQ, VQ, SQ. -/
def lineOfQueue (q : Nat) : Nat :=
  match q with
  | 2 => 0 | 0 => 1 | 1 => 2 | _ => 3

/-- The timing words of a command. -/
def timingOf (i : Instr) : Option Timing :=
  match i with
  | .mloadw t _ | .mmul t _ | .mgrad t _ | .mgdrain t _ | .mres t _ | .slclaim t _ _ | .slrel t _ | .lnest t _ | .sortc t _
  | .xld t _ | .xst t _ | .resume t _ | .esave t _ _ | .eload t _ _ | .cpy t _ | .cpyc t _ | .ckpt t _ | .lrflush t _
  | .xsend t _ | .xrecv t _ | .dispatch t _ | .wlnext t _ _ | .wid t _ => some t
  | _ => none

/-- FIFO numbers a command pops: 2i leads right from place i, 2i + 1 left into it. -/
def popFifos (q : Nat) (i : Instr) : List Nat :=
  match timingOf i with
  | some t => (if t.popLeft = 1 then [2 * (lineOfQueue q - 1)] else []) ++ (if t.popRight = 1 then [2 * lineOfQueue q + 1] else [])
  | none => []

/-- FIFO numbers a command pushes. -/
def pushFifos (q : Nat) (i : Instr) : List Nat :=
  match timingOf i with
  | some t => (if t.pushLeft = 1 then [2 * (lineOfQueue q - 1) + 1] else []) ++ (if t.pushRight = 1 then [2 * lineOfQueue q] else [])
  | none => []

def fifo (k : CoreSt) (f : Nat) : List Nat := (tget k.tokens f).getD []

/-- Every FIFO holds a token pushed before tick t. -/
def tokensAt (k : CoreSt) (fs : List Nat) (t : Nat) : Bool := fs.all (fun f => match fifo k f with | p :: _ => p < t | [] => false)

def takeTokens (k : CoreSt) (fs : List Nat) : CoreSt :=
  { k with tokens := fs.foldl (fun t f => tset t f (((tget t f).getD []).drop 1)) k.tokens }

def putTokens (k : CoreSt) (fs : List Nat) (t : Nat) : CoreSt :=
  { k with tokens := fs.foldl (fun m f => tset m f (((tget m f).getD []) ++ [t])) k.tokens }

/-- Room for one more token in every FIFO of 8. -/
def roomFor (k : CoreSt) (fs : List Nat) : Bool := fs.all (fun f => (fifo k f).length + fs.count f ≤ 8)

/-- No command of a context that started still has work or writes to do on the core's engines; one whose completion alone is held
by a full FIFO has neither (R105). Copies run on (R119). -/
def quiet (s : State) (uid : Nat) : Bool :=
  (match unitOf s uid with
    | some c => (cmdsOf s c).all (fun m => m.start.isNone || m.prog == 1)
    | none => true)
  && s.agenda.all (fun e => !(e.uid == uid && e.own != 0 && e.phase != 5))

/-- A context leaves what it waits in: arrivals it has made at its team's GSYNC or DISPATCH are withdrawn, since they are
executed again on restore (Table 5.9). -/
def withdraw (s : State) (c : Ctx) : State :=
  match c.wait with
  | .gsync _ => modTeam s c.team (fun m => { m with gsync := m.gsync.erase c.uid, gsyncAt := none })
  | .dispatch _ =>
    let s := modTeam s c.team (fun m => { m with dispatch := m.dispatch.erase c.uid })
    { s with dies := s.dies.map (fun (d : Nat × DieSt) => (d.1, { d.2 with
      sync := d.2.sync.filter (fun m => !(m.uid == c.uid && (match m.ins with | .dispatch _ _ => true | _ => false))) })) }
  | _ => s

/-- The engines stop a context's started commands; what runs out is waited for (R116). -/
def enginesStop (s : State) (uid : Nat) : State :=
  match unitOf s uid with
  | none => s
  | some c => modUnit (stopStarted s c (tickOf s c)) uid (fun c => { c with savedAt := tickOf s c })

/-- A precise stop of a context at its pc (R116): no further command starts, the engines stop at an open tick within 8 of the
request (log entry 7), which nextAt holds, and the stop completes when what runs out has performed. -/
def stopContext (s : State) (uid : Nat) : State :=
  match unitOf s uid with
  | none => s
  | some c =>
    let (d, s) := pick s 9
    let t := tickOf s c
    let s := holdCmds (withdraw s c) c
    let s := modUnit s uid (fun c => { c with
      wait := .stopping, heldIrq := [], defer := none, savedAt := t, nextAt := t + d, sliceEnd := some t })
    if d = 0 then enginesStop s uid else s

/-- A stopped context is saved, 1,024 ticks long (R98): completions that full FIFOs hold go with it. -/
def beginSave (s : State) (c : Ctx) : State :=
  let held := fun (m : Cmd) => m.start.isSome && m.prog == 1
  let kept := (cmdsOf s c).filter held
  let s := dropCmds s c.core (fun m => m.uid == c.uid && held m)
  let s := modUnit s c.uid (fun c => { c with wait := .saving, heldCmds := kept ++ c.heldCmds })
  schedC s c (tickOf s c + 1024) 17 (.ins (.contextSaveDone c.uid))

/-- A context at a region boundary must stop there (R118). -/
def boundaryDue (c : Ctx) : Bool := c.sliceEnd.isSome && c.heldIrq.isEmpty && !c.handler

/-- An asynchronous interrupt is taken (Table 5.9); a freeze (kind 3) stops the context where it is, after what it lands
or closes (R46). Else: an idem region is abandoned, a blocked context stops, a running one
enters the monitor, and one that lands, closes or halts runs on (R354). -/
def takeInterrupt (s : State) (uid : Nat) : State :=
  match unitOf s uid with
  | none => s
  | some c =>
    let freeze := c.heldIrq.contains 3
    let later := match c.wait with
      | .land _ | .halt _ | .regionClose | .close | .monitor _ | .monitorBack _ _ => true
      | _ => false
    if freeze && later then s
    else if freeze then modUnit (stopContext s uid) uid (fun c => { c with byFreeze := true })
    else
    let s := modUnit s uid (fun c => { c with heldIrq := [] })
    match c.region, c.idem with
    | some r, true => stopContext (modUnit (abandon (withdraw s c) uid) uid (fun c => { c with pc := r.openPc, wait := .run })) uid
    | _, _ =>
      match c.wait with
      | .run =>
        let s := holdCmds s c
        modUnit s uid (fun c => { c with wait := .monitor (tickOf s c) })
      | .test _ | .op _ | .status _ | .gsync _ | .dispatch _ | .parked _ | .tick _ | .segment | .queue _ | .codesync =>
        stopContext s uid
      | _ => s

/-- Interrupts held by a window or the handler level (R112, R253). -/
def irqHeld (c : Ctx) (t : Nat) : Bool := c.handler || deferOpen c t

/-- A slice end, pre-emption, freeze or fence reaches a context (R112, R118). -/
def interrupt (s : State) (uid kind : Nat) : State :=
  match unitOf s uid with
  | none => s
  | some c =>
    match c.wait with
    | .done | .saved | .saving | .stopping | .frozen _ => s
    | .debug => modUnit (stopContext s uid) uid (fun c => { c with byFreeze := kind == 3 })
    | _ =>
      let t := tickOf s c
      let s := if c.sliceEnd.isSome then s else
        schedC (modUnit s uid (fun c => { c with sliceEnd := some t })) c (t + 2 ^ 16) 17 (.ins (.regionBoundaryTimeout uid))
      let s := modUnit s uid (fun c => { c with heldIrq := c.heldIrq ++ [kind] })
      if irqHeld c t then s else takeInterrupt s uid

/-- REGION_BOUNDARY_TIMEOUT (R118): 2^16 ticks after the interrupt arrived the context stops where it is, handler or not. -/
def execRegionBoundaryTimeout (uid : Nat) (s : State) : Out :=
  match unitOf s uid with
  | none => .next s
  | some c =>
    match c.wait, c.sliceEnd with
    | .done, _ | .saved, _ | .saving, _ | .stopping, _ | .frozen _, _ => .next s
    | _, some t => if t + 2 ^ 16 = tickOf s c then .next (stopContext s uid) else .next s
    | _, none => .next s

/-- The monitor's round trip (R118): when the started commands have performed, the return is at the later of entry + 16
and the next tick. -/
def monitorQuiet (s : State) (uid : Nat) : State :=
  modUnit s uid (fun c => match c.wait with
    | .monitor t => { c with wait := .monitorBack (max (t + 16) (tickOf s c + 1)) t }
    | _ => c)

/-- The monitor returns: held timed commands are rebased, and the context goes on one tick later (R118, R352). -/
def monitorReturn (s : State) (uid : Nat) : State :=
  match unitOf s uid with
  | none => s
  | some c =>
    match c.wait with
    | .monitorBack r t =>
      let s := returnCmds s c (r - t)
      modUnit s uid (fun c => { c with wait := .run, nextAt := max c.nextAt (r + 1) })
    | _ => s

/-- The handler's first instruction waits for the writes of what had started (R253). -/
def handlerReady (s : State) (uid : Nat) : State :=
  modUnit s uid (fun c => match c.wait with
    | .close => { c with wait := .run, nextAt := max c.nextAt (tickOf s c) }
    | _ => c)

/-- DEFER n (R112, R255): no effect while a window is open or at handler level. -/
def deferFor (n len : Nat) : State → Out :=
  onCore [0] (fun s c =>
    let t := tickOf s c
    if irqHeld c t then .ok (goOn s c len 1)
    else .ok (goOn (schedC s c (t + n) 16 (.ins (.deferWindowEnd c.uid))) { c with defer := some (t + n) } len 1))

def execDefer (n : BitVec 9) (s : State) : Out := deferFor n.toNat 4 s

/-- DEFER_WINDOW_END (R112): a held interrupt is taken, before the next instruction. -/
def execDeferWindowEnd (uid : Nat) (s : State) : Out :=
  match unitOf s uid with
  | none => .next s
  | some c =>
    if c.defer != some (tickOf s c) then .next s
    else
      let s := setUnit s { c with defer := none }
      .next (if c.heldIrq.isEmpty || c.handler then s else takeInterrupt s uid)

/-- A return to a command that faulted after its start gives back the tokens it took: it is delivered again whole (R104, R253, Table
18.5; log entry 112). -/
def respend (s : State) (c : Ctx) : State :=
  match c.spent with
  | some (pc, fs) => if pc = c.epc then
      modCore s c.core (fun x => { x with tokens := fs.foldl (fun t f => tset t f (0 :: (tget t f).getD [])) x.tokens }) else s
  | none => s

/-- TRET (R254, R352): a transfer to ctx.epc, which raises ALIGN where ctx.epc is misaligned (R199). -/
def execTret (s : State) : Out :=
  onCore [0] (fun s c =>
    if !c.handler then fltOpen cILLEGAL
    else
      let s := returnTrap (respend s c) { c with spent := none }
      if c.epc.toNat % 4 != 0 then flt cALIGN c.epc
      else .ok (if c.heldIrq.isEmpty then s else takeInterrupt s c.uid)) s

/-- A fault of an engine command at its delivery, its start or within it stops the context precisely at the command: its
state is kept for RESUME where it has one, later commands are cancelled, and the fault is taken (R116, R133). The tokens it took at
its start are noted for a return that delivers it again (R253; log entry 112). -/
def engineFault (s : State) (k : Cmd) (saved : Bool) (t : Trap) : State :=
  match unitOf s k.uid with
  | none => s
  | some c =>
    let s := dropCmds s k.core (fun m => m.id == k.id)
    let s := cancelFrom (withdraw s c) c (k.id + 1)
    let s := if saved then
        modUnit s k.uid (fun c => { c with saved := tset c.saved (engineOf k.ins) ⟨tickOf s c, k, (coreOf s k.core).resCount.toNat⟩ }) else s
    let s := modUnit s k.uid (fun c => if c.wait.stops then { c with pc := k.pc } else { c with wait := .run, pc := k.pc, nextAt := tickOf s c + 1 })
    let s := takeFault s k.uid t k.pc
    modUnit s k.uid (fun c => { c with
      spent := if c.handler && k.start.isSome then some (k.pc, popFifos (engineOf k.ins) k.ins) else none })

end Sys2Proof.Machine
end

