-- ==== Sys2Proof/Machine/Region.lean ====
section
/-!
DEFINITION. Regions (R119, R195, R267 to R270): opening, closing with the held effects in program order, aborting.
-/
set_option linter.unusedVariables false
namespace Sys2Proof.Machine
open Sys2Proof

/-- RGOPEN (R267): handler level or an open region is REGION 2, a store in flight REGION 1, a misaligned handler ALIGN
(in that order, log entry 28). A context that must stop at a boundary stops before it (R118). -/
def openRegion (contain idem : Bool) (a : Reg) : State → Out :=
  onCore [0] (fun s c =>
    let h := if contain then rdS c a.toNat else 0
    if idem && boundaryDue c then .ok (stopContext s c.uid)
    else if c.handler || c.region.isSome then flt cREGION 0 2
    else if !c.flight.isEmpty then flt cREGION 0 1
    else if h.toNat % 4 != 0 then flt cALIGN h
    else
      let (id, s) := fresh s
      let snap := if idem then takeSnap s c else default
      let s := if idem then { s with agenda := s.agenda.map (fun e => if e.uid = c.uid && e.own = 0 then { e with older := true } else e) } else s
      .ok (goOn s { c with region := some ⟨contain, idem, h, c.pc, id, snap, []⟩ } 4 8))

def execRgopenContain (a : Reg) (s : State) : Out := openRegion true false a s
def execRgopenIdem (a : Reg) (s : State) : Out := openRegion false true a s
def execRgopenBoth (a : Reg) (s : State) : Out := openRegion true true a s

/-- Held outbound copies and sends of a context leave the region: due at C + 1 + max(0, u − t) (R269, R337). -/
def releaseCopies (s : State) (uid t : Nat) : State :=
  let f := fun (m : Cmd) => if m.uid = uid && m.outbound && m.inRegion then
      { m with inRegion := false, due := t + 1 + (m.due - m.deliver) } else m
  { s with
    engines := s.engines.map (fun (e : Nat × CopyEng) => (e.1, { e.2 with buffer := (e.2.buffer.map f).foldl buffered [] }))
    cores := s.cores.map (fun (e : Nat × CoreSt) => (e.1, { e.2 with
      pending := e.2.pending.map f, xq := e.2.xq.map f })) }

/-- Issues held effects from tick e, each when the previous one has performed; answers the last perform tick (R269). -/
def issueHeld (s : State) (c : Ctx) (e : Nat) : List SyncOp → Nat × State × Ctx
  | [] => (e, s, c)
  | o :: r =>
    match opPlace s c o with
    | none => issueHeld s (c.report cLAPSED o.addr 1) e r
    | some p =>
      let (t, s, c) := if o.kind = .store then sendOp s c p o e else releaseAt s c p o e
      issueHeld s c t r

/-- RGCLOSE (R269): after it a context that must stop at a boundary stops (R118). -/
def execRgclose (s : State) : Out :=
  onCore [0] (fun s c =>
    match c.region with
    | none => flt cREGION 0 4
    | some r =>
      let e := tickOf s c
      let c := { c with region := none }
      if !r.idem then
        let s := goOn s c 4 1
        .ok (if boundaryDue c then stopContext s c.uid else s)
      else
        let s := releaseCopies s c.uid e
        if r.held.isEmpty then
          let s := goOn s c 4 1
          .ok (if boundaryDue c then stopContext s c.uid else s)
        else
          let (t, s, c) := issueHeld s { c with landDropped := none } e r.held
          let t := max t (e + 1)
          .ok (schedC { s with cx := some { c with wait := .regionClose } } c t 16 (.eff (.wake c.uid)))) s

/-- The last held effect has performed: RGCLOSE completes, or reports the first dropped address or an arrival that needed a
seventeenth registration (R269, R273, R282). -/
def regionClosed (s : State) (uid : Nat) : State :=
  match unitOf s uid with
  | none => s
  | some c =>
    if c.wait != .regionClose then s
    else
      let d := c.landDropped
      let c' := { c with wait := .run, landDropped := none, nextAt := tickOf s c }
      match d with
      | some d => takeFault (setUnit s c') uid ⟨d.1, BitVec.ofNat 64 d.2.1, BitVec.ofNat 64 d.2.2, false⟩ c.pc
      | none =>
        let s := setUnit s { c' with pc := c.pc + 4 }
        if boundaryDue c then stopContext s uid else s

/-- RGABORT (R270). -/
def execRgabort (s : State) : Out :=
  onCore [0] (fun s c =>
    match c.region with
    | none => flt cREGION 0 4
    | some r =>
      let s := if r.idem then abandon s c.uid else
        modUnit (cancelAllCopies (cancelFrom s c r.firstCmd) c r.firstCmd) c.uid (fun c => { c with flight := [], region := none })
      match s.cx with
      | some c' => .ok (goOn s c' 4 1)
      | none => .ok s) s

end Sys2Proof.Machine
end

