-- ==== Sys2Proof/Machine/Queue.lean ====
section
/-!
DEFINITION. Delivery of engine commands and the queues (R104 to R107, R183, R205, R284, R304, R314, R348): due ticks, full
queues, the comparison six ticks on, tokens, completion.
-/
set_option linter.unusedVariables false
namespace Sys2Proof.Machine
open Sys2Proof

/-! ## Delivery -/

/-- A command finds its queue full (R95, R329): 32 entries of a queue, 256 of a copy engine's buffer, where the copies of stopped
contexts stay (R337). The synchronisation engine's commands wait in no queue. -/
def queueFull (s : State) (c : Ctx) (q : Nat) : Bool :=
  let k := coreOf s c.core
  let coming := (k.pending.filter (fun m => engineOf m.ins == q)).length
  match q with
  | 4 =>
    let e := copyEngineOf c.core
    let all := (s.cores.filter (fun x => copyEngineOf x.1 == e)).flatMap (fun x => x.2.pending.filter (fun m => engineOf m.ins == 4))
    let held := ((allUnits s).filter (fun u => copyEngineOf u.core == e)).flatMap (fun u =>
      (u.heldCmds ++ u.trapCmds).filter (fun m => engineOf m.ins == 4))
    256 ≤ (engOf s e).buffer.length + all.length + held.length
  | 6 => false
  | 7 => false
  | q => 32 ≤ (queueOf k q).length + coming

/-- The due tick of a command (R106): its absolute stamp, its register's value, or the previous due tick of its queue in
the segment plus the idle count; a free command without timing has its delivery tick. -/
def dueTick (s : State) (c : Ctx) (q : Nat) (t : Timing) : Nat :=
  match t.tmode.toNat with
  | 1 =>
    let base : Int := match c.lastDue.find? (fun l => l.1 == q) with
      | some l => l.2.2
      | none => c.segBase.getD (tickOf s c)
    (base + t.lo.toNat).toNat
  | 2 => t.hi.toNat * 2 ^ 32 + t.lo.toNat
  | 3 => (rdS c t.stampReg.toNat).toNat
  | _ => tickOf s c

/-- Commands whose truncations are numbered (Table 15.11). -/
def truncatable (i : Instr) : Bool :=
  match i with
  | .cpy _ _ | .cpyc _ _ | .ckpt _ _ | .xld _ _ | .xst _ _ | .xsend _ _ => true
  | _ => false

/-- A command that misses its start is kept for RESUME (R107), but those that act on what is kept. -/
def keeps (i : Instr) : Bool :=
  match i with
  | .resume _ _ | .esave _ _ _ | .eload _ _ _ => false
  | _ => engineOf i < 6

/-- A timed command reaches its queue, 6 ticks after its delivery, at or after its due tick (R106, R183). -/
def reachesLate (k : Cmd) : Bool := k.timed && (timingOf k.ins).isSome && k.due ≤ k.deliver + 6

/-- Delivers a command at E: its delivery checks and the copies it takes are prep's; it reaches its queue at E + 6
(R183, R348). A timed command that reaches it at or after its due tick is a SCHEDULE_MISS at that tick, its state kept (R106, R107);
one due at E or before, or a copy that finds the buffer full, misses at once (R329). -/
def deliver (bits : List Nat) (i : Instr) (prep : State → Ctx → Res Cmd) : State → Out :=
  onCore bits (fun s c =>
    let e := tickOf s c
    let q := engineOf i
    let tm := timingOf i
    if c.timed && (match tm with | some t => t.tmode = 0 | none => false) then fltOpen cILLEGAL
    else if queueFull s c q && !(c.timed && q = 4) then .ok { s with cx := some { c with wait := .queue q } }
    else do
      let k ← prep s c
      let (id, s) := fresh s
      let due := match tm with | some t => dueTick s c q t | none => e + 6
      let k := { k with
        id := id, uid := c.uid, core := c.core, pc := c.pc, ins := i, deliver := e, timed := c.timed, due := due
        seq := c.truncSeq, inRegion := c.idem && k.outbound, start := none }
      if c.timed && tm.isSome && (due ≤ e || queueFull s c q) then
        .ok (takeFault { s with cx := some (if keeps i then { c with saved := tset c.saved q ⟨e, { k with prog := 2 }, (coreOf s c.core).resCount.toNat⟩ } else c) } c.uid
          ⟨cMISS, BitVec.ofNat 64 due, 1, false⟩ c.pc)
      else
        let c := if truncatable i then { c with truncSeq := c.truncSeq + 1 } else c
        let c := match tm with
          | some t => if t.tmode = 0 then c else { c with lastDue := (q, id, due) :: c.lastDue }
          | none => c
        let s := modCore s c.core (fun x => { x with pending := x.pending ++ [k] })
        let s := schedC s c (if reachesLate k then due else e + 6) 15 (.ins (.banisterCompare c.core id))
        .ok (goOn s c (if tm.isSome then 32 else 8) 1))

/-- A slot of a core's exchange queue: all sends and receives of a core wait in it. -/
def enqueue (s : State) (core : Nat) (k : Cmd) : State :=
  match engineOf k.ins with
  | 4 => modEng s (copyEngineOf core) (fun e =>
      { e with buffer := buffered e.buffer k })
  | 6 => modDie s (dieOfCore core) (fun d => { d with sync := d.sync ++ [k] })
  | q => modCore s core (fun x => setQueue x q (queueOf x q ++ [k]))

/-! ## Running and completion -/

/-- Puts a command back at the place it has in its queue. -/
def putCmd (s : State) (core q : Nat) (k : Cmd) : State :=
  modCore s core (fun x => setQueue x q ((queueOf x q).map (fun m => if m.id = k.id then k else m)))

/-- The command that runs on a queue, by its number. -/
def running (s : State) (core q id : Nat) : Option Cmd :=
  (queueOf (coreOf s core) q).find? (fun k => k.id == id && k.start.isSome)

/-- QUEUE_ENTRY_COMPLETE (R104, R105): tokens are pushed and the next entry may start. With a full FIFO a free command's
completion is held (prog 1); a timed one is a SCHEDULE_MISS, which stops it precisely (R107, R116). -/
def execQueueEntryComplete (core q id : Nat) (s : State) : Out :=
  match running s core q id with
  | none => .next s
  | some k =>
    let fs := pushFifos q k.ins ++ k.pushes
    let x := coreOf s core
    if roomFor x fs then
      .next (modCore s core (fun x => setQueue (putTokens x fs (now s (dieOfCore core))) q ((queueOf x q).filter (fun m => m.id != id))))
    else if k.timed then .next (engineFault (if runsOut k.ins then s else dropOwned s [k.id]) { k with prog := 1 } (keeps k.ins) ⟨cMISS, BitVec.ofNat 64 k.due, 4, false⟩)
    else .next (putCmd s core q { k with prog := 1 })

/-- A completion that a full FIFO holds can go on. -/
def heldCompletion (s : State) (core q : Nat) : Option Nat :=
  let x := coreOf s core
  ((queueOf x q).find? (fun k => k.prog == 1 && k.start.isSome && roomFor x (pushFifos q k.ins ++ k.pushes))).map Cmd.id

/-- Schedules a command's completion. -/
def completeAt (s : State) (k : Cmd) (q t : Nat) : State :=
  sched s (dieOfCore k.core) t 14 k.uid k.id (.ins (.queueEntryComplete k.core q k.id))

/-- Schedules a command's next step of work. -/
def microAt (s : State) (k : Cmd) (q t : Nat) : State := schedCmd s k t 15 (.micro k.core q k.id)

end Sys2Proof.Machine
end

