-- ==== Sys2Proof/Machine/Vector.lean ====
section
/-!
DEFINITION. Form V (R284 to R298): operand shapes, the functions on elements, what an entry reads and when it starts, its
memory accesses and the ticks its writes perform at. The gating functions of major 0x09 are in Gate.
-/
set_option linter.unusedVariables false
namespace Sys2Proof.Machine
open Sys2Proof

/-! ## Functions on elements -/

/-- A float minimum or maximum (R288): the bits of one operand, or the canonical NaN of two NaNs. -/
def floatPick (t : Nat) (least : Bool) (a b : Nat) : Nat :=
  let x := decodeFloat t a
  let y := decodeFloat t b
  if x.isNan && y.isNan then (fmtOf t).nan
  else if x.isNan then b
  else if y.isNan then a
  else if least then (if y.below x then b else a) else (if x.below y then b else a)

/-- The functions of major 0x01 on integers (R287). -/
def intArith (func t : Nat) (sat : Bool) (a b c : Nat) : Nat × Flg :=
  let x := intOf t a
  let y := intOf t b
  match func with
  | 1 => intResult t sat (x + y)
  | 2 => intResult t sat (x - y)
  | 3 => intResult t sat (x * y)
  | 4 => intResult t sat (x * y + intOf t c)
  | 5 => (if y < x then b else a, 0)
  | 6 => (if x < y then b else a, 0)
  | 7 => intResult t sat (if x < 0 then -x else x)
  | _ => intResult t sat (-x)

/-- The functions of major 0x01 on floats (R288). -/
def floatArith (func t : Nat) (m : Rnd) (a b c : Nat) : Nat × Flg :=
  let x := decodeFloat t a
  let y := decodeFloat t b
  let top := 2 ^ (tyBits t - 1)
  match func with
  | 1 => floatResult t m (x.isNan || y.isNan) (x.add m y)
  | 2 => floatResult t m (x.isNan || y.isNan) (x.add m y.neg)
  | 3 => floatResult t m (x.isNan || y.isNan) (x.mul y)
  | 4 =>
    let z := decodeFloat t c
    floatResult t m (x.isNan || y.isNan || z.isNan) ((x.mul y).add m z)
  | 5 => (floatPick t true a b, 0)
  | 6 => (floatPick t false a b, 0)
  | 7 => (if x.isNan then (fmtOf t).nan else a % top, 0)
  | _ => (if x.isNan then (fmtOf t).nan else if a < top then a + top else a - top, 0)

/-- The functions of major 0x02 on w bits (R287). -/
def logicOp (func w a b : Nat) : Nat :=
  let n := b % w
  match func with
  | 1 => Nat.land a b
  | 2 => Nat.lor a b
  | 3 => Nat.xor a b
  | 4 => 2 ^ w - 1 - a
  | 5 => a * 2 ^ n % 2 ^ w
  | 6 => a / 2 ^ n
  | _ => wrapInt w (signedOf w a / (2 ^ n : Nat))

/-- An element-wise function of majors 0x01, 0x02, 0x05 and VMOV, as form V and LNEST apply it. -/
def elemOp (major func t mode : Nat) (m : Rnd) (a b c : Nat) : Nat × Flg :=
  match major with
  | 1 => if tyInt t then intArith func t (mode == 1) a b c else floatArith func t m a b c
  | 2 => (logicOp func (tyBits t) a b, 0)
  | 5 => (if func = 1 then exp2Bits a else rcpBits a, 0)
  | _ => (a, 0)

/-- A reduction's step (R293): 0 add, 1 max, 2 min. -/
def redOp (t mode : Nat) (m : Rnd) (a b : Nat) : Nat × Flg :=
  let func := match mode with | 0 => 1 | 1 => 6 | _ => 5
  if tyInt t then intArith func t false a b 0 else floatArith func t m a b 0

/-- A NaN of a floating type as its canonical one (R146). -/
def canonNan (t b : Nat) : Nat := if !tyInt t && (decodeElem t b).isNan then (encodeElem t .rne .nan).1 else b

/-- Conversion of an element, of two for a product (R290). -/
def convert (td ts : Nat) (m : Rnd) (x : Nat) (y : Option Nat) : Nat × Flg :=
  match y with
  | none => encodeElem td m (decodeElem ts x)
  | some y =>
    let a := decodeElem ts x
    let b := decodeElem ts y
    let p := a.mul b
    let (r, f) := encodeElem td m p
    (r, if p.isNan && !a.isNan && !b.isNan then f ||| 1 else f)

/-- A comparison (R289). -/
def compareOp (func t a b : Nat) : Bool :=
  let x := decodeElem t a
  let y := decodeElem t b
  if x.isNan || y.isNan then func = 2
  else match func with
    | 1 => x.cmp y == 0
    | 2 => x.cmp y != 0
    | 3 => x.cmp y < 0
    | _ => x.cmp y ≤ 0

/-- VBFX (R292): control bits 5:0 pos, 13:8 length − 1, 16 sign. -/
def bitField (w : Nat) (ctl : Word) (a : Nat) : Nat :=
  let pos := (ctl.extractLsb' 0 6).toNat
  let len := (ctl.extractLsb' 8 6).toNat + 1
  let n := min (pos + len) w - pos
  if w ≤ pos then 0
  else
    let v := bitsOf a pos n
    if ctl.getLsbD 16 then wrapInt w (signedOf n v) else v

/-- VFSH (R292): a:b shifted left or right by n below w. -/
def funnelBits (w : Nat) (right : Bool) (a b n : Nat) : Nat :=
  let v := a * 2 ^ w + b
  if right then v / 2 ^ n % 2 ^ w else v * 2 ^ n / 2 ^ w % 2 ^ w

/-! ## Operands -/

/-- What a field of form V names. -/
inductive Opd | none | vec | sca | prd
deriving DecidableEq, Repr, Inhabited

/-- The major and function of a form V instruction and its fields. -/
def vform (i : Instr) : Option (Nat × Nat × VForm) :=
  match i with
  | .vadd v => some (1, 1, v) | .vsub v => some (1, 2, v) | .vmul v => some (1, 3, v) | .vfma v => some (1, 4, v)
  | .vmin v => some (1, 5, v) | .vmax v => some (1, 6, v) | .vabs v => some (1, 7, v) | .vneg v => some (1, 8, v)
  | .vand v => some (2, 1, v) | .vor v => some (2, 2, v) | .vxor v => some (2, 3, v) | .vnot v => some (2, 4, v)
  | .vshl v => some (2, 5, v) | .vshr v => some (2, 6, v) | .vsra v => some (2, 7, v)
  | .vceq v => some (3, 1, v) | .vcne v => some (3, 2, v) | .vclt v => some (3, 3, v) | .vcle v => some (3, 4, v)
  | .vcvt v => some (4, 1, v) | .vqrd v => some (4, 2, v) | .vexp2 v => some (5, 1, v) | .vrcp v => some (5, 2, v)
  | .vbfx v => some (6, 1, v) | .vfsh v => some (6, 2, v) | .vred v => some (7, 1, v) | .vscan v => some (7, 2, v)
  | .vld v => some (8, 1, v) | .vst v => some (8, 2, v) | .vgath v => some (8, 3, v) | .vscat v => some (8, 4, v)
  | .vlut v => some (8, 5, v) | .vthr v => some (9, 1, v) | .vtagTags v => some (9, 2, v) | .vtagMask v => some (9, 2, v)
  | .vcomb v => some (9, 3, v) | .vmov v => some (10, 1, v) | .vbcst v => some (10, 2, v) | .vsel v => some (10, 3, v)
  | .vgetl v => some (10, 4, v)
  | _ => none

/-- What d, a, b and c of a function name (Tables 11.4 and 14.3). -/
def shape (major func mode : Nat) : Opd × Opd × Opd × Opd :=
  match major, func with
  | 1, 4 => (.vec, .vec, .vec, .vec)
  | 1, 7 | 1, 8 | 2, 4 | 4, 1 | 5, _ | 7, _ | 10, 1 => (.vec, .vec, .none, .none)
  | 1, _ | 2, _ | 4, _ => (.vec, .vec, .vec, .none)
  | 3, _ => (.prd, .vec, .vec, .none)
  | 6, 1 => (.vec, .vec, .sca, .none)
  | 6, _ => (.vec, .vec, .vec, .sca)
  | 8, 1 => (.vec, .sca, .none, .none)
  | 8, 2 => (.vec, .sca, .none, .prd)
  | 8, 4 => (.vec, .sca, .vec, .prd)
  | 8, _ => (.vec, .sca, .vec, .none)
  | 9, 2 => (if mode = 0 then .none else .vec, .vec, .vec, .sca)
  | 9, _ => (.vec, .vec, .vec, .sca)
  | 10, 2 => (.vec, .sca, .none, .none)
  | 10, 3 => (.vec, .vec, .vec, .prd)
  | _, _ => (.sca, .vec, .sca, .none)

/-- The capability bits of form V (Table 11.4, R228). -/
def typeBits (t : Nat) : List Nat := if tyInt t then [2] else match t with | 0x09 => [3] | 0x08 => [19] | _ => [4]
def vBits (major func : Nat) (v : VForm) : List Nat :=
  match major with
  | 1 | 3 | 7 => typeBits v.ty.toNat
  | 4 =>
    let both := typeBits v.ty.toNat ++ typeBits v.c.toNat
    if tyBits v.ty.toNat ≤ 8 || tyBits v.c.toNat ≤ 8 then both ++ [4] else both
  | 5 => [5]
  | 6 => [6]
  | 9 => [18]
  | _ => [2]

/-- Whether a names an operand queue, and b (R203). -/
def fromA (v : VForm) : Bool := v.qsel.toNat % 2 = 1
def fromB (v : VForm) : Bool := 2 ≤ v.qsel.toNat

/-- Delivery of a form V instruction: physical names of its vectors, which placeVec places, values of its scalars, physical predicates
(R209). names: d, a, b, c; vals: S[a], S[b], S[c]; sample: guard, predicate c, destination scalar or predicate, and the
predicate bits 30:24 of S[c] name (R302). -/
def vecPrep (major func : Nat) (v : VForm) (s : State) (c : Ctx) : Res Cmd :=
  let (od, oa, ob, oc) := shape major func v.mode.toNat
  let val := fun (o : Opd) (r : Reg) => if o = .sca then rdS c r.toNat else 0
  .ok { (default : Cmd) with
    names := [rot c v.d.toNat, rot c v.a.toNat, rot c v.b.toNat, rot c v.c.toNat]
    vals := [val oa v.a, val ob v.b, val oc v.c]
    sample := [rotP c v.pred.toNat, v.c.toNat, if od = .prd then v.d.toNat else rot c v.d.toNat,
      rotP c ((val oc v.c).extractLsb' 24 7).toNat] }

/-- The placements of a form V entry's vectors, taken at its delivery tick D, six ticks after it executed (R284, R303; log entry 29): a
name that no view places is ILLEGAL (R100). -/
def placeVec (c : Ctx) (k : Cmd) : Res Cmd :=
  match vform k.ins with
  | none => .ok k
  | some (major, func, v) => do
    let (od, oa, ob, oc) := shape major func v.mode.toNat
    let at_ := fun (o : Opd) (q : Bool) (n : Nat) => if o = .vec && !q then (match placeName c 1 (nth k.names n) with
      | some p => .ok p.2
      | none => fltOpen cILLEGAL) else (.ok 0 : Res Nat)
    let d ← at_ od false 0
    let a ← at_ oa (fromA v) 1
    let b ← at_ ob (fromB v) 2
    let x ← at_ oc false 3
    .ok { k with names := [d, a, b, x] }

/-- A form V instruction is delivered to the VQ. -/
def vecInstr (major func : Nat) (i : Instr) (v : VForm) : State → Out := deliver (vBits major func v) i (vecPrep major func v)

/-! ## Start (R284, R285) -/

/-- Operand queues an entry pops: each named one once (R103). -/
def vecPops (v : VForm) : List Nat :=
  let a := if (fromA v) then [v.a.toNat] else []
  if (fromB v) && !((fromA v) && v.a = v.b) then a ++ [v.b.toNat] else a

/-- Register-store offsets of the vectors an entry reads. -/
def vecReads (major func : Nat) (v : VForm) (k : Cmd) : List Nat :=
  let (od, oa, ob, oc) := shape major func v.mode.toNat
  let src := fun (o : Opd) (q : Bool) (n : Nat) => if o = .vec && !q then [nth k.names n] else []
  src oa (fromA v) 1 ++ src ob (fromB v) 2 ++ src oc false 3 ++ (if major = 8 && (func = 2 || func = 4) then [nth k.names 0] else [])

/-- Predicates an entry reads. -/
def vecPreds (major func : Nat) (v : VForm) (k : Cmd) : List Nat :=
  (nth k.sample 0) :: (if (shape major func v.mode.toNat).2.2.2 = .prd then [nth k.sample 1] else [])

/-- Every byte an entry reads from an earlier VQ entry has performed (R284). -/
def vecInterlocked (s : State) (major func : Nat) (v : VForm) (k : Cmd) : Bool :=
  s.agenda.any (fun e => e.uid == k.uid && e.own != 0 && e.own < k.id && e.phase == 9 && (match e.act with
    | .eff (.bank _ off bs _) => (vecReads major func v k).any (fun r => off < r + 256 && r < off + bs.length)
    | .eff (.pred _ n _ _) => (vecPreds major func v k).contains n
    | _ => false))

/-- A popped queue holds a whole entry (R103, R326). -/
def vecQueues (s : State) (v : VForm) (k : Cmd) : Bool :=
  match unitOf s k.uid with
  | some c => (vecPops v).all (fun q => match (tget c.oqs q).getD [] with | e :: _ => e.length == 256 | [] => false)
  | none => false

/-- Occupancy and perform offset of an entry that does not access memory (Table 14.2). -/
def vecTicks (major func t : Nat) : Nat × Nat :=
  let wide := if t = 0x08 then 2 else 1
  match major, func with
  | 1, _ => if tyInt t then (1, 2) else (wide, if t = 0x08 then 6 else 4)
  | 2, _ | 6, _ => (1, 2)
  | 3, _ => (wide, 2)
  | 4, _ => (1, 4)
  | 5, _ => (2, 12)
  | 7, _ => (wide, 10)
  | 9, 3 => (4, 16)
  | 9, _ => (2, 8)
  | 10, 4 => (1, 4)
  | _, _ => (1, 2)

/-- A poisoned word of a vector operand raises UNCORRECTABLE (R194); a byte in an engine's shadow is an early read
(R113), reported at its register-store offset. -/
def vecCheckOperand (s : State) (c : Ctx) (k : Cmd) (off : Nat) : Res Unit :=
  match c.bankPoison.find? (fun w => off ≤ w && w < off + 256) with
  | some w => flt cUNCORR (BitVec.ofNat 64 w) 2
  | none => checkBank s c k.id off 256

/-- What an entry works on: the context after its pops, the guard, and 256 bytes of a, b, c and of d. -/
structure VIn where
  ctx : Ctx
  guard : Word
  a : List Byte
  b : List Byte
  c : List Byte
  d : List Byte

/-- Reads an entry's operands at its start; poison in an operand-queue entry names its source word (log entry 35). -/
def vecIn (s : State) (c : Ctx) (major func : Nat) (v : VForm) (k : Cmd) : Res VIn := do
  let heads := (vecPops v).map (fun q => (q, (((tget c.oqs q).getD []).headD [], ((tget c.oqPoison q).getD []).headD [])))
  let popped := (vecPops v).foldl (fun (c : Ctx) q => { c with
    oqs := tmod c.oqs q [] (fun l => l.drop 1), oqPoison := tmod c.oqPoison q [] (fun l => l.drop 1) }) c
  let qd := fun (n : Nat) => ((tget heads n).getD ([], [])).1
  let bad := heads.findSome? (fun h => h.2.2.head?)
  (match bad with
    | some w => flt cUNCORR (BitVec.ofNat 64 w)
    | none => (.ok () : Res Unit))
  for r in vecReads major func v k do
    vecCheckOperand s c k r
  let bank := fun (n : Nat) => bankRead c (nth k.names n) 256
  let m := rdPhysP c (nth k.sample 0)
  .ok { ctx := popped
        guard := if v.pneg = 1 then ~~~ m else m
        a := if (fromA v) then qd v.a.toNat else bank 1
        b := if (fromB v) then qd v.b.toNat else bank 2
        c := bank 3
        d := bank 0 }

/-- Elements of width w of a vector. -/
def elems (w : Nat) (bs : List Byte) : List Nat := (List.range (2048 / w)).map (elemAt w bs)

/-- Writes elements of width w that the mask enables into the vector at off, to perform at a tick. -/
def writeElems (s : State) (k : Cmd) (w off tick : Nat) (m : Word) (old : List Byte) (vals : List Nat) : State :=
  (joinRuns (maskedRuns w off m old vals)).foldl (fun s r => schedCmd s k tick 9 (.bank k.uid r.1 r.2 [])) s

/-- Flags an entry sets, at its first perform tick (R285). -/
def writeFlags (s : State) (k : Cmd) (tick : Nat) (f : Flg) : State :=
  if f = 0 then s else schedCmd s k tick 9 (.flags k.uid f)

/-! ## Entries that do not access memory -/

/-- The results of an element-wise entry (majors 1, 2, 4 to 7 and 10): values for destination elements from the first
number on, with their flags. -/
def vecValues (major func : Nat) (v : VForm) (k : Cmd) (x : VIn) : List (Nat × Nat × Flg) :=
  let t := v.ty.toNat
  let w := tyBits t
  let m := Rnd.ofCode v.rnd.toNat
  let n := lanes t
  let as := elems w x.a
  let bs := elems w x.b
  let cs := elems w x.c
  let each := fun (f : Nat → Nat × Flg) => (List.range n).map (fun i => (i, f i))
  match major, func with
  | 4, _ =>
    let ts := v.c.toNat
    let cnt := 2048 / max w (tyBits ts)
    let p := v.mode.toNat
    let src := if w ≤ tyBits ts then 0 else p * cnt
    let dst := if w < tyBits ts then p * cnt else 0
    (List.range cnt).map (fun i =>
      let y := if func = 2 then some (elemAt (tyBits ts) x.b (src + i)) else none
      (dst + i, convert t ts m (elemAt (tyBits ts) x.a (src + i)) y))
  | 6, 1 => each (fun i => (bitField w (k.vals.getD 1 0) (nth as i), 0))
  | 6, _ => each (fun i => (funnelBits w (v.mode = 1) (nth as i) (nth bs i) ((k.vals.getD 2 0).toNat % w), 0))
  | 7, _ =>
    let steps := (as.drop 1).foldl (fun (l : List (Nat × Flg)) y =>
      let (r, f) := redOp t v.mode.toNat m (l.headD (0, 0)).1 y
      (r, f) :: l) [(canonNan t (nth as 0), 0)]
    let fs := flagsOf steps
    if func = 1 then each (fun _ => ((steps.headD (0, 0)).1, fs))
    else ((List.range n).zip steps.reverse).map (fun p => (p.1, p.2.1, fs))
  | 10, 2 => each (fun _ => ((k.vals.getD 0 0).toNat % 2 ^ w, 0))
  | 10, 3 => each (fun i => (if enabled (rdPhysP x.ctx (nth k.sample 1)) w i then nth as i else nth bs i, 0))
  | _, _ => each (fun i => elemOp major func t v.mode.toNat m (nth as i) (nth bs i) (nth cs i))

/-- The predicate a compare writes: which bits, and their values (R289). -/
def compareBits (func : Nat) (v : VForm) (x : VIn) : Word × Word :=
  let t := v.ty.toNat
  let w := tyBits t
  let elem := fun (i : Nat) => match w with
    | 8 => 4 * i + v.mode.toNat
    | 16 => 2 * i + v.mode.toNat
    | 32 => i
    | _ => i / 2
  let val := (List.range 64).foldl (fun (r : Nat) i =>
    if compareOp func t (elemAt w x.a (elem i)) (elemAt w x.b (elem i)) then r + 2 ^ i else r) 0
  (x.guard, BitVec.ofNat 64 val)

/-- Elements that a list of results leaves out keep their old values and are not written. -/
def spread (w off tick : Nat) (s : State) (k : Cmd) (m : Word) (rs : List (Nat × Nat × Flg)) : State :=
  let runs := if w = 4 then
      (chunks 2 (rs.length / 2) rs).filterMap (fun p => match p with
        | [x, y] => if enabled m 4 x.1 then some (off + x.1 / 2, [BitVec.ofNat 8 (x.2.1 + 16 * y.2.1)]) else none
        | _ => none)
    else rs.filterMap (fun r => if enabled m w r.1 then some (off + r.1 * (w / 8), bytesOfNat (w / 8) r.2.1) else none)
  (joinRuns runs).foldl (fun s r => schedCmd s k tick 9 (.bank k.uid r.1 r.2 [])) s

/-- Starts an entry of majors 1 to 7 and 10 at tick S. -/
def vecCompute (s : State) (major func : Nat) (v : VForm) (k : Cmd) (x : VIn) (t : Nat) : Res State :=
  let (occ, lat) := vecTicks major func v.ty.toNat
  let w := tyBits v.ty.toNat
  let done := fun (s : State) => completeAt s k 1 (t + occ)
  match major, func with
  | 3, _ =>
    let (m, b) := compareBits func v x
    .ok (done (schedCmd s k (t + lat) 9 (.pred k.uid (nth k.sample 2) m b)))
  | 10, 4 =>
    let i := (k.vals.getD 1 0).toNat % lanes v.ty.toNat
    let r := extend (tySigned v.ty.toNat) w (elemAt w x.a i)
    let p := nth k.sample 2
    .ok (done (if p = 0 then s else
      modUnit (schedCmd s k (t + lat) 9 (.bank k.uid (8 * p) (bytesOfNat 8 r.toNat) [])) k.uid (fun c => c.await (.s p) (t + lat))))
  | 6, 1 =>
    let ctl := k.vals.getD 1 0
    if ctl.extractLsb' 6 2 != 0 || ctl.extractLsb' 14 2 != 0 || ctl.extractLsb' 17 47 != 0 then fltOpen cILLEGAL
    else .ok (done (spread w (nth k.names 0) (t + lat) s k x.guard (vecValues major func v k x)))
  | _, _ =>
    let rs := vecValues major func v k x
    let fs := if major = 7 then flagsOf ((rs.take 1).map Prod.snd)
      else flagsOf ((rs.filter (fun r => enabled x.guard w r.1)).map Prod.snd)
    .ok (done (writeFlags (spread w (nth k.names 0) (t + lat) s k x.guard rs) k (t + lat) fs))

/-! ## Memory (R294 to R297) -/

/-- A vector access of n bytes inside one granule: the windows of R294, tiers 3 and 4 and host pages excluded. -/
def vecPiece (s : State) (c : Ctx) (a : Word) (n : Nat) (acc : Access) : Except (Nat × Trap) Place :=
  match windowFor c a with
  | .bad => .error (1, ⟨cADDRESS, a, 0, false⟩)
  | .sync _ _ => .error (1, ⟨cADDRESS, a, 0, false⟩)
  | w =>
    match translate s c w a with
    | .error t => checkPiece s c a n acc
    | .ok p => if p.host || 3 ≤ p.tier then .error (4, ⟨cADDRESS, a, 1, false⟩) else checkPiece s c a n acc

/-- Checks 1 to 3 of R162 on S[a] at 32-byte alignment (R295). -/
def vecBase (s : State) (c : Ctx) (a : Word) : Res Unit :=
  match windowFor c a with
  | .bad => flt cADDRESS a
  | .sync _ _ => flt cADDRESS a
  | w =>
    if a.toNat % 32 != 0 then flt cALIGN a
    else match translate s c w a with
      | .error t => if t.cause = cWRONGCORE then .error t else .ok ()
      | .ok _ => .ok ()

/-- Runs of accessed bytes, cut at granules, with their places: the first failing check in their order. -/
def vecRuns (s : State) (c : Ctx) (acc : Access) (runs : List (Nat × Nat)) : Res (List (Nat × Nat × Place)) :=
  let ps := runs.flatMap (fun r => pieces (r.2 / 4096 + 2) r.1 r.2)
  let rs := ps.map (fun p => (p, vecPiece s c (BitVec.ofNat 64 p.1) p.2 acc))
  let errs := rs.filterMap (fun r => match r.2 with | .error e => some e | .ok _ => none)
  match errs with
  | e :: l => .error (l.foldl (fun b x => if x.1 < b.1 then x else b) e).2
  | [] => .ok (rs.filterMap (fun r => match r.2 with | .ok p => some (r.1.1, r.1.2, p) | .error _ => none))

/-- Bytes of a place as a vector access reads them, after the poison and early-read checks. -/
def vecRead (s : State) (c : Ctx) (a n : Nat) (p : Place) : Res (List Byte) := do
  checkPoison s p (BitVec.ofNat 64 a) n
  checkEarly s c p (BitVec.ofNat 64 a) n
  .ok (if p.shared then readView s c p n else readNow s p n)

/-- The column of Table 14.6 a place selects. -/
def vecColumn (c : Ctx) (p : Place) : Nat :=
  if p.win = 1 || p.win = 2 then 6 else if p.win = 4 then 20 else if p.die = dieOfCore c.core then 64 else 144

/-- A vector store's bytes at a place: in the flight for shared windows, at the start tick (R355), else at its tick. -/
def vecWrite (s : State) (k : Cmd) (tick a : Nat) (p : Place) (bs : List Byte) : Res State :=
  match unitOf s k.uid with
  | none => .ok s
  | some c =>
    if p.shared then do
      let c ← flightStore s c p (BitVec.ofNat 64 a) bs []
      .ok (setUnit s c)
    else .ok (schedCmd s k tick 10 (.write k.uid p.space p.off bs []))

/-- Elements that a gather, scatter or table look-up accesses: number and address. -/
def vecIndexed (func : Nat) (v : VForm) (k : Cmd) (x : VIn) : List (Nat × Nat) :=
  let w := tyBits v.ty.toNat
  let base := k.vals.getD 0 0
  let m := if w = 64 then 32 else 64
  let pick := if func = 4 then rdPhysP x.ctx (nth k.sample 1) else x.guard
  if func = 5 then
    ((List.range (lanes v.ty.toNat)).filter (enabled pick w)).map (fun i =>
      (i, (base + BitVec.ofNat 64 (elemAt w x.b i * (w / 8))).toNat))
  else ((List.range m).filter (enabled pick w)).map (fun j => (j, (base + BitVec.ofNat 64 (elemAt 32 x.b j)).toNat))

/-- An address of a look-up table (R297): the executing core's own scratchpad, aligned to the element, the checks in R162's order. -/
def lutBase (c : Ctx) (a : Word) (n : Nat) : Res Unit :=
  match windowFor c a with
  | .spad k _ => if a.toNat % n != 0 then flt cALIGN a else if k != c.lcore then flt cWRONGCORE a else .ok ()
  | .gallery k _ => if k != c.lcore then flt cADDRESS a else if a.toNat % n != 0 then flt cALIGN a else .ok ()
  | _ => flt cADDRESS a

/-- The checks of one indexed element (R296, R297). -/
def vecElem (s : State) (c : Ctx) (func n : Nat) (a : Nat) : Res Place := do
  let w := BitVec.ofNat 64 a
  (if func != 5 then .ok () else if 0x400000 < a % 0x400000 + n then flt cADDRESS w else lutBase c w n : Res Unit)
  match windowFor c w with
    | .bad => flt cADDRESS w
    | .sync _ _ => flt cADDRESS w
    | _ =>
      if a % n != 0 then flt cALIGN w
      else match vecPiece s c w n (if func = 4 then .store else .load) with
        | .ok p => .ok p
        | .error e => .error e.2

/-- A read of a shared window waits for the context's acquires (R173; log entry 21). -/
def waitsAcquire (c : Ctx) (p : Place) (t : Nat) : Bool := p.shared && t < c.acq

/-- The reads of a VLD at tick t: enabled bytes only (R210); its result is due at the tick its columns give. -/
def vecLoad (s : State) (c : Ctx) (v : VForm) (k : Cmd) (m : Word) (t : Nat) : Res State := do
  let w := tyBits v.ty.toNat
  let base := k.vals.getD 0 0
  let zeros := List.replicate 256 (0 : Byte)
  let runs := joinRuns (maskedRuns w base.toNat m zeros (List.replicate (2048 / w) 0))
  let rs ← vecRuns s c .load (runs.map (fun r => (r.1, r.2.length)))
  let got ← rs.foldlM (fun (acc : List (Nat × List Byte)) r => do
    let b ← vecRead s c r.1 r.2.1 r.2.2
    .ok (acc ++ [(r.1 - base.toNat, b)])) []
  let lat := (rs.map (fun r => vecColumn c r.2.2)).foldl max 6
  let s0 := k.start.getD t
  let tick := if t = s0 then s0 + lat else max (s0 + lat) (t + 1)
  .ok (completeAt ((joinRuns got).foldl (fun s r => schedCmd s k tick 9 (.bank k.uid (nth k.names 0 + r.1) r.2 [])) s) k 1
    (max (s0 + 1) (if t = s0 then 0 else t + 1)))

/-- Starts an entry of major 8 at tick t: VLD, VST and VSCAT act at once, the indexed reads step through their elements,
16 a tick (Table 14.6). -/
def vecMemory (s : State) (c : Ctx) (func : Nat) (v : VForm) (k : Cmd) (x : VIn) (t : Nat) : Res State := do
  let w := tyBits v.ty.toNat
  let base := k.vals.getD 0 0
  match func with
  | 1 =>
    vecBase s c base
    let late := match translate s c (windowFor c base) base with
      | .ok p => waitsAcquire c p t
      | .error _ => false
    let k := { k with start := some t }
    if late then .ok (microAt (putCmd s k.core 1 { k with vals := [base, x.guard] }) k 1 c.acq)
    else vecLoad s c v k x.guard t
  | 2 =>
    vecBase s c base
    let m := rdPhysP c (nth k.sample 1)
    let runs := joinRuns (maskedRuns w base.toNat m x.d (elems w x.d))
    let rs ← vecRuns s c .store (runs.map (fun r => (r.1, r.2.length)))
    let s ← rs.foldlM (fun (s : State) r => do
      let bs := (x.d.drop (r.1 - base.toNat)).take r.2.1
      vecWrite s k (t + 2) r.1 r.2.2 bs) s
    .ok (completeAt s k 1 (t + 1))
  | _ =>
    let n := w / 8
    let es := vecIndexed func v k x
    let cnt := if func = 5 then lanes v.ty.toNat else if w = 64 then 32 else 64
    (if func = 5 then lutBase c base n else (.ok () : Res Unit))
    let ps ← es.foldlM (fun (l : List (Nat × Nat × Place)) e => do
      let p ← vecElem s c func n e.2
      .ok (l ++ [(e.1, e.2, p)])) []
    if func = 4 then
      let s ← ps.foldlM (fun (s : State) e =>
        vecWrite s k (t + e.1 / 16 + 2) e.2.1 e.2.2 ((x.d.drop (e.1 * n)).take n)) s
      .ok (completeAt s k 1 (t + ceilDiv cnt 16))
    else
      let k := { k with start := some t, live := cnt, landed := 0, sample := es.flatMap (fun e => [e.1, e.2]), acc := [] }
      .ok (microAt (putCmd s k.core 1 k) k 1 t)

/-- The accessed elements of a running indexed entry. -/
def indexedElems (k : Cmd) : List (Nat × Nat) :=
  (chunks 2 (k.sample.length / 2) k.sample).filterMap (fun p => match p with | [i, a] => some (i, a) | _ => none)

/-- One tick of an indexed read: elements 16g to 16g + 15 (R296, R297); a place that has gone since the start reads as
zeros. -/
def vecMicro (s : State) (c : Ctx) (func : Nat) (v : VForm) (k : Cmd) (t : Nat) : Res State := do
  let w := tyBits v.ty.toNat
  let n := w / 8
  let s0 := k.start.getD t
  if func = 1 then vecLoad s c v k (k.vals.getD 1 0) t
  else
  let g := k.landed
  let occ := ceilDiv k.live 16
  let es := ((indexedElems k).filter (fun e => e.1 / 16 = g)).map (fun e =>
    (e, match translate s c (windowFor c (BitVec.ofNat 64 e.2)) (BitVec.ofNat 64 e.2) with | .ok p => some p | .error _ => none))
  if es.any (fun e => e.2.any (fun p => waitsAcquire c p t)) then .ok (microAt s k 1 c.acq)
  else
    let vs ← es.foldlM (fun (l : List Nat) e =>
      match e.2 with
      | none => (.ok (l ++ [e.1.1, 0, 6]) : Res (List Nat))
      | some p => do
        let b ← vecRead s c e.1.2 n p
        .ok (l ++ [e.1.1, natOfBytes b, vecColumn c p])) []
    let k := { k with acc := k.acc ++ vs, landed := g + 1 }
    let s := putCmd s k.core 1 k
    if g + 1 < occ then .ok (microAt s k 1 (t + 1))
    else
      let done := max (s0 + occ) (t + 1)
      let rs := (chunks 3 (k.acc.length / 3) k.acc).filterMap (fun p => match p with | [i, b, _] => some (i, b, (0 : Flg)) | _ => none)
      let lat := (chunks 3 (k.acc.length / 3) k.acc).foldl (fun m p => max m (nth p 2)) 6
      .ok (completeAt (spread w (nth k.names 0) (done + lat) s k (-1) rs) k 1 done)

/-! ## The instructions -/

def execVadd (v : VForm) (s : State) : Out := vecInstr 1 1 (.vadd v) v s
def execVsub (v : VForm) (s : State) : Out := vecInstr 1 2 (.vsub v) v s
def execVmul (v : VForm) (s : State) : Out := vecInstr 1 3 (.vmul v) v s
def execVfma (v : VForm) (s : State) : Out := vecInstr 1 4 (.vfma v) v s
def execVmin (v : VForm) (s : State) : Out := vecInstr 1 5 (.vmin v) v s
def execVmax (v : VForm) (s : State) : Out := vecInstr 1 6 (.vmax v) v s
def execVabs (v : VForm) (s : State) : Out := vecInstr 1 7 (.vabs v) v s
def execVneg (v : VForm) (s : State) : Out := vecInstr 1 8 (.vneg v) v s
def execVand (v : VForm) (s : State) : Out := vecInstr 2 1 (.vand v) v s
def execVor (v : VForm) (s : State) : Out := vecInstr 2 2 (.vor v) v s
def execVxor (v : VForm) (s : State) : Out := vecInstr 2 3 (.vxor v) v s
def execVnot (v : VForm) (s : State) : Out := vecInstr 2 4 (.vnot v) v s
def execVshl (v : VForm) (s : State) : Out := vecInstr 2 5 (.vshl v) v s
def execVshr (v : VForm) (s : State) : Out := vecInstr 2 6 (.vshr v) v s
def execVsra (v : VForm) (s : State) : Out := vecInstr 2 7 (.vsra v) v s
def execVceq (v : VForm) (s : State) : Out := vecInstr 3 1 (.vceq v) v s
def execVcne (v : VForm) (s : State) : Out := vecInstr 3 2 (.vcne v) v s
def execVclt (v : VForm) (s : State) : Out := vecInstr 3 3 (.vclt v) v s
def execVcle (v : VForm) (s : State) : Out := vecInstr 3 4 (.vcle v) v s
def execVcvt (v : VForm) (s : State) : Out := vecInstr 4 1 (.vcvt v) v s
def execVqrd (v : VForm) (s : State) : Out := vecInstr 4 2 (.vqrd v) v s
def execVexp2 (v : VForm) (s : State) : Out := vecInstr 5 1 (.vexp2 v) v s
def execVrcp (v : VForm) (s : State) : Out := vecInstr 5 2 (.vrcp v) v s
def execVbfx (v : VForm) (s : State) : Out := vecInstr 6 1 (.vbfx v) v s
def execVfsh (v : VForm) (s : State) : Out := vecInstr 6 2 (.vfsh v) v s
def execVred (v : VForm) (s : State) : Out := vecInstr 7 1 (.vred v) v s
def execVscan (v : VForm) (s : State) : Out := vecInstr 7 2 (.vscan v) v s
def execVld (v : VForm) (s : State) : Out := vecInstr 8 1 (.vld v) v s
def execVst (v : VForm) (s : State) : Out := vecInstr 8 2 (.vst v) v s
def execVgath (v : VForm) (s : State) : Out := vecInstr 8 3 (.vgath v) v s
def execVscat (v : VForm) (s : State) : Out := vecInstr 8 4 (.vscat v) v s
def execVlut (v : VForm) (s : State) : Out := vecInstr 8 5 (.vlut v) v s
def execVthr (v : VForm) (s : State) : Out := vecInstr 9 1 (.vthr v) v s
def execVtagTags (v : VForm) (s : State) : Out := vecInstr 9 2 (.vtagTags v) v s
def execVtagMask (v : VForm) (s : State) : Out := vecInstr 9 2 (.vtagMask v) v s
def execVcomb (v : VForm) (s : State) : Out := vecInstr 9 3 (.vcomb v) v s
def execVmov (v : VForm) (s : State) : Out := vecInstr 10 1 (.vmov v) v s
def execVbcst (v : VForm) (s : State) : Out := vecInstr 10 2 (.vbcst v) v s
def execVsel (v : VForm) (s : State) : Out := vecInstr 10 3 (.vsel v) v s
def execVgetl (v : VForm) (s : State) : Out := vecInstr 10 4 (.vgetl v) v s

end Sys2Proof.Machine
end

