-- ==== Sys2Proof/Machine/Gate.lean ====
section
/-!
DEFINITION. The gating functions VTHR, VTAG and VCOMB (R158 to R160, R299 to R302), and the start and the steps of any
form V entry.
-/
set_option linter.unusedVariables false
namespace Sys2Proof.Machine
open Sys2Proof

/-- The gating control word (Table 14.4). -/
structure GateCtl where
  nrow : Nat
  idBase : Nat
  flagPred : Nat
  firstTag : Nat
  k : Nat
  e : Nat
deriving DecidableEq, Repr, Inhabited

/-- The control word of an entry of width w, or none where it is illegal (R299). -/
def gateCtl (w : Nat) (x : Word) : Option GateCtl :=
  let n := 2048 / w
  let e := (x.extractLsb' 0 8).toNat
  let r := (x.extractLsb' 48 8).toNat
  let inRange := if w = 16 then 2 ≤ e && e ≤ 128 else 1 ≤ e && e ≤ 64
  let nrow := if r = 0 then min 64 (n / e) else r
  if x.extractLsb' 56 8 != 0 || x.getLsbD 31 || x.getLsbD 23 || !inRange || 64 < nrow || n < nrow * e then none
  else some ⟨nrow, (x.extractLsb' 32 16).toNat, (x.extractLsb' 24 7).toNat, (x.extractLsb' 16 7).toNat,
    (x.extractLsb' 8 8).toNat, e⟩

/-- Keys of row r. -/
def rowKeys (w : Nat) (g : GateCtl) (a : List Nat) (r : Nat) : List Nat := ((a.drop (r * g.e)).take g.e).map (gateKey w)

/-- The threshold of row r: element r of V[b] as an n32, its low w bits. -/
def threshold (w : Nat) (b : List Byte) (r : Nat) : Nat := elemAt 32 b r % 2 ^ w

/-- The winners of a row (R301). -/
def winners (keys : List Nat) (t k : Nat) : List Nat :=
  let idx := List.range keys.length
  let order := idx.filter (fun j => t < nth keys j) ++ idx.filter (fun j => nth keys j = t)
  (order.take (min k keys.length)).mergeSort (fun a b => a ≤ b)

/-- The f32 sum of a row's winner weights, RNE at each addition from +0 (R160). -/
def weightSum (t : Nat) (ws : List Nat) : Val :=
  ws.foldl (fun s x => r32 (s.add .rne (decodeFloat t x))) (.fin false 0 0)

/-- A sum that is below 2^−126 (R160). -/
def tinySum (s : Val) : Bool := !s.isNan && s.cmp (.fin false 1 (-126)) < 0

/-- A row of VCOMB: the results of its winners and its flag. -/
def combRow (t : Nat) (a b : List Nat) (base e : Nat) : List (Nat × Nat) × Bool :=
  let win := (List.range e).filter (fun j => nth b (base + j) != 0)
  let s := weightSum t (win.map (fun j => nth a (base + j)))
  if tinySum s then
    (win.map (fun j => (base + j, (roundRat t .rne false 1 win.length 0).1)), true)
  else (win.map (fun j => (base + j, divBits t (decodeFloat t (nth a (base + j))) s)), false)

/-- Starts an entry of major 9 at tick t. -/
def gateStart (s : State) (func : Nat) (v : VForm) (k : Cmd) (x : VIn) (t : Nat) : Res State :=
  let w := tyBits v.ty.toNat
  let ty := v.ty.toNat
  let (occ, lat) := vecTicks 9 func ty
  match gateCtl w (k.vals.getD 2 0) with
  | none => fltOpen cILLEGAL
  | some g =>
    let as := elems w x.a
    let bs := elems w x.b
    let rows := List.range g.nrow
    let off := nth k.names 0
    let done := fun (s : State) => completeAt s k 1 (t + occ)
    match func, v.mode.toNat with
    | 1, _ =>
      let rs := rows.map (fun r => (r, ((rowKeys w g as r).filter (fun h => threshold w x.b r ≤ h)).length, (0 : Flg)))
      .ok (done (spread 32 off (t + lat) s k x.guard rs))
    | 2, 0 =>
      if 128 < g.firstTag + g.nrow * g.k then fltOpen cILLEGAL
      else
        let vs := rows.flatMap (fun r =>
          let win := winners (rowKeys w g as r) (threshold w x.b r) g.k
          (List.range g.k).map (fun i => match win[i]? with
            | some j => BitVec.ofNat 16 (g.idBase + j)
            | none => (0xFFFF : BitVec 16)))
        .ok (done (schedCmd s k (t + lat) 9 (.tags k.uid (v.d.toNat * 128 + g.firstTag) vs)))
    | 2, _ =>
      let rs := rows.flatMap (fun r =>
        let win := winners (rowKeys w g as r) (threshold w x.b r) g.k
        (List.range g.e).map (fun j => (r * g.e + j, if win.contains j then 2 ^ w - 1 else 0, (0 : Flg))))
      .ok (done (spread w off (t + lat) s k x.guard rs))
    | _, _ =>
      let out := rows.map (fun r => combRow ty as bs (r * g.e) g.e)
      let rs := (out.flatMap Prod.fst).map (fun p => (p.1, p.2, (0 : Flg)))
      let fl := ((List.range out.length).zip out).foldl (fun (n : Nat) p => if p.2.2 then n + 2 ^ p.1 else n) 0
      let s := spread w off (t + lat) s k x.guard rs
      .ok (done (if g.flagPred = 0 then s else schedCmd s k (t + lat) 9 (.pred k.uid (nth k.sample 3) (-1) (BitVec.ofNat 64 fl))))

/-- A form V entry starts at tick t (R284), one that a stop held back and no view placed (prog 5) being ILLEGAL (R100): a fault of its start is precise at the instruction. -/
def vecStart (s : State) (k : Cmd) (t : Nat) : State :=
  match vform k.ins, unitOf s k.uid with
  | some (major, func, v), some c =>
    let r : Res State := do
      (if k.prog = 5 then fltOpen cILLEGAL else .ok () : Res Unit)
      let x ← vecIn s c major func v k
      let s := putCmd (setUnit s x.ctx) k.core 1 { k with start := some t }
      match major with
      | 8 => vecMemory s x.ctx func v k x t
      | 9 => gateStart s func v k x t
      | _ => vecCompute s major func v k x t
    match r with
    | .ok s => s
    | .error e => engineFault s k false e
  | _, _ => s

/-- A step of a running form V entry: the indexed accesses. -/
def vecStep (s : State) (k : Cmd) (t : Nat) : State :=
  match vform k.ins, unitOf s k.uid with
  | some (8, func, v), some c =>
    match vecMicro s c func v k t with
    | .ok s => s
    | .error e => engineFault s k false e
  | _, _ => s

end Sys2Proof.Machine
end

