-- ==== Sys2Proof/Machine/View.lean ====
section
/-!
DEFINITION. VIEWSET and GSET (R101, R102, R303). Their results of one tick are written at once (log entry 8).
-/
set_option linter.unusedVariables false
namespace Sys2Proof.Machine
open Sys2Proof

/-- What makes a view image an illegal one: kind above 3, reserved bits, for kinds 1 to 3 a reserved format (R101, R303). -/
def viewIllegal (v : BitVec 128) : Bool :=
  3 < vKind v || v.extractLsb' 96 7 != 0 || v.extractLsb' 25 39 != 0 || (vKind v != 0 && 0x11 < vFormat v)

/-- What VIEWSET makes of an image: kind 0 clears the register (R101). -/
def viewImage (v : BitVec 128) (a : Word) : Res (BitVec 128) :=
  if viewIllegal v then fltOpen cILLEGAL
  else if vKind v = 0 then .ok 0
  else if vValid v then .ok v
  else flt cADDRESS a

/-- What GSET makes of an image (R102). -/
def streamImage (g : BitVec 384) : Res (BitVec 384) := if gIllegal g then fltOpen cILLEGAL else .ok g

/-- An image of n bytes at register-store offset S[a]: 16-aligned, its last byte below 0x8_0000 (R303); its bytes are read
past the early-read checker (R113). -/
def imageAt (s : State) (c : Ctx) (a : Word) (n : Nat) : Res Nat :=
  if a.toNat % 16 != 0 || 0x80000 < a.toNat + n then flt cADDRESS a
  else do
    checkBank s c 0 a.toNat n
    .ok (natOfBytes (bankRead c a.toNat n))

def execViewset (n : BitVec 4) (a : Reg) (s : State) : Out :=
  onCore [0] (fun s c => do
    let x ← imageAt s c (rdS c a.toNat) 16
    let v ← viewImage (BitVec.ofNat 128 x) (rdS c a.toNat)
    .ok (goOn s { c with views := tset c.views n.toNat v } 4 1)) s

def execGset (n : BitVec 4) (a : Reg) (s : State) : Out :=
  onCore [0] (fun s c => do
    let x ← imageAt s c (rdS c a.toNat) 48
    let g ← streamImage (BitVec.ofNat 384 x)
    .ok (goOn s { c with streams := tset c.streams n.toNat g } 4 1)) s

end Sys2Proof.Machine
end

