-- ==== Sys2Proof/Machine/Nest.lean ====
section
/-!
DEFINITION. LNEST and SORTC (R305 to R309, R312, R361): delivery, the checks of their start, groups of elements, and what
a stopped nest continues from (R311).
-/
set_option linter.unusedVariables false
namespace Sys2Proof.Machine
open Sys2Proof

/-! ## Streams as arrays in the own scratchpad -/

/-- The stream's base is an address in the issuing context's own scratchpad window (R307). -/
def ownStream (c : Ctx) (g : BitVec 384) : Res Unit :=
  match windowFor c (gBase g) with
  | .spad k _ => if k = c.lcore then .ok () else flt cWRONGCORE (gBase g)
  | .gallery k _ => if k = c.lcore then .ok () else flt cADDRESS (gBase g)
  | _ => flt cADDRESS (gBase g)

/-- The first and last byte addresses elements lo to hi of a stream take. -/
def streamSpan (g : BitVec 384) (lo hi : Nat) : Nat × Nat :=
  let as := (List.range (hi - lo + 1)).map (fun i => (elemAddr g (lo + i)).toNat)
  (as.foldl min (as.headD 0), as.foldl max 0 + unitBytes (gFormat g) - 1)

/-- The checks of R162 on elements lo to hi of a stream, for reading or writing; nothing where there are none. -/
def streamCheck (s : State) (c : Ctx) (g : BitVec 384) (lo hi : Nat) (acc : Access) : Res Unit := do
  ownStream c g
  let (a, b) := streamSpan g lo hi
  match windowFor c (BitVec.ofNat 64 b) with
  | .spad k _ => if k != c.lcore then flt cWRONGCORE (BitVec.ofNat 64 b) else checkRange s c (BitVec.ofNat 64 a) (b + 1 - a) acc
  | .gallery k _ => if k != c.lcore then flt cADDRESS (BitVec.ofNat 64 b) else checkRange s c (BitVec.ofNat 64 a) (b + 1 - a) acc
  | _ => flt cADDRESS (BitVec.ofNat 64 b)

/-- A stream that names fewer than n elements raises ADDRESS at the first that is missing (R361). -/
def streamHolds (g : BitVec 384) (n : Nat) : Res Unit :=
  if gElems g < n then flt cADDRESS (BitVec.ofNat 64 (gElems g)) else .ok ()

/-- Bytes at an own-scratchpad address now, after the poison and early-read checks. -/
def padRead (s : State) (c : Ctx) (a : Word) (n : Nat) : Res (List Byte) :=
  match translate s c (windowFor c a) a with
  | .error t => .error t
  | .ok p => do
    checkPoison s p a n
    checkEarly s c p a n
    .ok (readNow s p n)

/-- Schedules a write of bytes at an own-scratchpad address, by a command of a phase. -/
def padWrite (s : State) (c : Ctx) (k : Cmd) (tick phase : Nat) (a : Word) (bs : List Byte) : State :=
  match translate s c (windowFor c a) a with
  | .error _ => s
  | .ok p => schedCmd s k tick phase (.write k.uid p.space p.off bs [])

/-- Schedules the write of half a byte at an own-scratchpad address: the other half stays as it is when the write performs. -/
def padNibble (s : State) (c : Ctx) (k : Cmd) (tick phase : Nat) (a : Word) (half val : Nat) : State :=
  match translate s c (windowFor c a) a with
  | .error _ => s
  | .ok p => schedCmd s k tick phase (.nibble k.uid p.space p.off half val)

/-- Element i of a stream as a value of its format, with its bits where the format has plain ones. Scales stored apart are at a
place the manual does not give: they are free values (R102, log entry 66). -/
def streamElemAt (s : State) (c : Ctx) (g : BitVec 384) (i : Nat) : Res (Val × Nat) := do
  let t := gFormat g
  let bs ← padRead s c (elemAddr g i) (unitBytes t)
  let i0 := i % gLen g
  let bs := if (t = 0x0F || t = 0x10) && gScale g != 0 then
      bytesOfNat 2 (Config.apartScale g.toNat (i / 32) (tickOf s c)).toNat ++ bs.drop 2 else bs
  match t with
  | 0x0E =>
    let b := bitsOf (bs.getD 0 0).toNat (4 * (i0 % 2)) 4
    .ok (decodeE2m1 (gExtra g) b, b)
  | 0x0F | 0x10 => .ok (bxElem t bs (i0 % 32), 0)
  | t => let b := natOfBytes bs; .ok (decodeElem t b, b)

/-! ## LNEST -/

/-- The nest table in a command's sample: five extents, then strides of d, a, b and c by level. -/
def nestTable (bs : List Byte) : List Nat :=
  (List.range 5).map (fun i => natOfBytes ((bs.drop (4 * i)).take 4))
    ++ (List.range 20).map (fun i => natOfBytes ((bs.drop (32 + 4 * i)).take 4))

/-- Elements of the nest. -/
def nestCount (k : Cmd) : Nat := (List.range 5).foldl (fun n l => n * nestExt k l) 1

/-- Lowest and highest element index of operand o, level 0 left out for a reduction's destination. -/
def nestRange (k : Cmd) (o : Nat) (skip0 : Bool) : Int × Int :=
  (List.range 5).foldl (fun (r : Int × Int) l =>
    let x := if skip0 && l = 0 then 0 else nestStride k o l * ((nestExt k l : Int) - 1)
    (r.1 + min x 0, r.2 + max x 0)) (0, 0)

/-- Operands an operation uses: d, a, b, c as 0 to 3. -/
def nestOperands (f : NestF) : List Nat := [0, 1] ++ (if f.usesB then [2] else []) ++ (if f.usesC then [3] else [])
def nestStream (f : NestF) (o : Nat) : Nat := (match o with | 0 => f.sd | 1 => f.sa | 2 => f.sb | _ => f.sc).toNat

/-- Perform offset of the operation (R308). -/
def nestLat (f : NestF) : Nat := (vecTicks f.major.toNat f.func.toNat f.ty.toNat).2

/-- The capability bits of a nest: those of its form V operation with the source type of stream sa (R305). -/
def nestBits (f : NestF) (g : BitVec 384) : List Nat := vBits f.major.toNat f.func.toNat (f.vform (BitVec.ofNat 6 (gFormat g)))

/-- VCVT's source type, mode or rounding as form V would refuse it (R290, R305); block formats convert here, in one part. -/
def nestCvtBad (f : NestF) (ts : Nat) : Bool :=
  f.major == 4 && (if ts < 15 then
      4 < cvtRatio f.ty.toNat ts || cvtRatio f.ty.toNat ts ≤ f.mode.toNat || (tyInt f.ty.toNat && tyInt ts && f.rnd != 0)
    else f.mode != 0)

/-- Delivery of LNEST: its streams are copied; an unset one is ILLEGAL. -/
def nestPrep (f : NestF) (s : State) (c : Ctx) : Res Cmd :=
  let gs := (List.range 4).map (fun o => if (nestOperands f).contains o then streamReg c (nestStream f o) else 0)
  if (nestOperands f).any (fun o => gUnset (gs.getD o 0)) then fltOpen cILLEGAL
  else .ok { (default : Cmd) with streams := gs }

/-- LNEST: what form V would refuse is ILLEGAL before the capability checks (R222, R305). -/
def execLnest (t : Timing) (f : NestF) (s : State) : Out :=
  match s.cx with
  | some c => if nestCvtBad f (gFormat (streamReg c f.sa.toNat)) then onCore [] (fun _ _ => fltOpen cILLEGAL) s
    else deliver (nestBits f (streamReg c f.sa.toNat)) (.lnest t f) (nestPrep f) s
  | none => deliver [] (.lnest t f) (nestPrep f) s

/-- A level-0 run of operand o breaks a block: one of its blocks of 32 elements starts off a block boundary of its stream run, or
crosses the end of that run (R307; log entry 108). -/
def nestRunBad (k : Cmd) (o r : Nat) : Bool :=
  let n := gLen (k.streams.getD o 0)
  let x := nestElem k o (nestIndex k (r * nestExt k 0))
  (List.range (nestExt k 0 / 32)).any (fun b =>
    let y := (x + (32 * b : Nat)) % (n : Int)
    y % 32 != 0 || (n : Int) < y + 32)

/-- A block-format operand's conditions (R307): level-0 stride 1, ext0 and every level-0 run on block boundaries. -/
def nestBlockBad (f : NestF) (k : Cmd) (o : Nat) : Bool :=
  let t := gFormat (k.streams.getD o 0)
  (t == 0x0F || t == 0x10) && (nestStride k o 0 != 1 || nestExt k 0 % 32 != 0
    || (List.range (nestCount k / nestExt k 0)).any (nestRunBad k o))

/-- The element index of operand o that is first, in nest order, at or beyond n, when its highest is (R361): the slowest level's
least index that lets the faster ones reach it, and so on. -/
def firstBeyond (k : Cmd) (o : Nat) (skip0 : Bool) (n : Int) : Int :=
  let levels := if skip0 then [4, 3, 2, 1] else [4, 3, 2, 1, 0]
  levels.foldl (fun (x : Int) l =>
    let rest := (levels.filter (fun m => m < l)).foldl (fun (r : Int) m => r + max 0 (nestStride k o m * ((nestExt k m : Int) - 1))) 0
    let st := nestStride k o l
    if st ≤ 0 || n ≤ x + rest then x else x + st * ((n - x - rest + st - 1) / st)) 0

/-- The checks of R162 on one operand (R307); those of buffers are the start's alone. -/
def nestCheck (s : State) (c : Ctx) (f : NestF) (k : Cmd) (start : Bool) (o : Nat) : Res Unit :=
  let g := k.streams.getD o 0
  let (lo, hi) := nestRange k o (nestRed f && o = 0)
  if lo < 0 then flt cADDRESS (BitVec.ofInt 64 lo)
  else if (gElems g : Int) ≤ hi then flt cADDRESS (BitVec.ofInt 64 (firstBeyond k o (nestRed f && o = 0) (gElems g)))
  else streamCheck s c g lo.toNat hi.toNat (if !start then .none else if o = 0 then .store else .load)

/-- LNEST starts at tick t; landed holds the element a RESUME goes on from, acc its partial reduction (R307, R308, R311). Its ticks
count from v, which a resumed timed command has from before its stop (R117). -/
def nestStart (s : State) (c : Ctx) (f : NestF) (k : Cmd) (t v : Nat) : Res State := do
  let first := k.sample.isEmpty
  if first then checkBank s c k.id f.nest.toNat 128
  let bs := bankRead c f.nest.toNat 128
  let k := if first then { k with sample := nestTable bs } else k
  let zero := fun (lo n : Nat) => !first || ((bs.drop lo).take n).all (· == 0)
  if (List.range 5).any (fun l => 2 ^ 24 < nestExt k l) || !zero 20 12 || !zero 112 16 then fltOpen cILLEGAL
  else if nestCount k = 0 then .ok (completeAt (putCmd s k.core 1 { k with start := some v }) k 1 (t + 1))
  else if (nestOperands f).any (fun o => gFormat (k.streams.getD o 0) = 0x11 || nestBlockBad f k o) then fltOpen cILLEGAL
  else
    for o in nestOperands f do
      nestCheck s c f k true o
    let k := { k with start := some v, live := nestCount k, counted := 0, vals := [], acc := k.acc.take 1 }
    .ok (microAt (putCmd s k.core 1 k) k 1 (max t (v + 8)))

/-- A source element converted to the compute type (R307, R151). -/
def nestSource (s : State) (c : Ctx) (f : NestF) (k : Cmd) (o : Nat) (ix : List Nat) : Res (Nat × Flg) := do
  let g := k.streams.getD o 0
  let (v, b) ← streamElemAt s c g (nestElem k o ix).toNat
  let t := f.ty.toNat
  if gFormat g = t && t != 0x0E then .ok (canonNan t b, 0) else .ok (encodeElem t (Rnd.ofCode f.rnd.toNat) v)

/-- The result of the operation for one element, in the compute type. -/
def nestOp (s : State) (c : Ctx) (f : NestF) (k : Cmd) (ix : List Nat) : Res (Nat × Flg) := do
  let (a, fa) ← nestSource s c f k 1 ix
  let (b, fb) ← (if f.usesB then nestSource s c f k 2 ix else .ok (0, 0))
  let (x, fx) ← (if f.usesC then nestSource s c f k 3 ix else .ok (0, 0))
  let (r, fr) := if f.major == 4 || f.major == 7 then (a, (0 : Flg))
    else elemOp f.major.toNat f.func.toNat f.ty.toNat f.mode.toNat (Rnd.ofCode f.rnd.toNat) a b x
  .ok (r, fa ||| fb ||| fx ||| fr)

/-- The bytes a result takes in the destination stream's format (not a block format). -/
def nestEncode (f : NestF) (g : BitVec 384) (r : Nat) : Nat × Flg :=
  let t := f.ty.toNat
  let v := if t = 0x0E then decodeE2m1 none r else decodeElem t r
  if gFormat g = 0x0E then
    let (b, fl) := if t = 0x0E then (r, (0 : Flg)) else encodeElem 0x0E (Rnd.ofCode f.rnd.toNat) v
    (e2m1Code (gXvEn g) b, fl)
  else if gFormat g = t then (r, 0)
  else encodeElem (gFormat g) (Rnd.ofCode f.rnd.toNat) v

/-- Work of a group in progress: the command, flags, and what it writes: address and value, with e2m1 nibbles apart. -/
structure NestOut where
  k : Cmd
  fl : Flg
  red : Nat
  writes : List (Nat × List Byte)
  nibbles : List (Nat × Nat × Nat)

/-- One element of a group (R307). -/
def nestStep (s : State) (c : Ctx) (f : NestF) (o : NestOut) (n : Nat) : Res NestOut := do
  let k := o.k
  let ix := nestIndex k n
  let (r, fl) ← nestOp s c f k ix
  let g := k.streams.getD 0 0
  let fl := o.fl ||| fl
  let put := fun (o : NestOut) (i : Nat) (r : Nat) =>
    match gFormat g with
    | 0x0F | 0x10 =>
      if nestRed f then
        let bs := bytesOfNat (unitBytes (gFormat g)) (Config.lonelyBlock g.toNat i r (tickOf s c)).toNat
        { o with writes := o.writes ++ [if gScale g = 0 then ((elemAddr g i).toNat, bs) else ((elemAddr g i).toNat + 2, bs.drop 2)] }
      else
      let vals := o.k.vals ++ [BitVec.ofNat 64 r]
      if vals.length < 32 then { o with k := { o.k with vals := vals } }
      else
        let (bs, sat) := bxBlock (gFormat g) (gSplit g) (vals.map (fun x => if f.ty = 0x0E then decodeE2m1 none x.toNat else decodeElem f.ty.toNat x.toNat))
        { o with k := { o.k with vals := [] }, fl := o.fl ||| (if sat then 2 else 0), writes := o.writes ++ [if gScale g = 0 then ((elemAddr g i).toNat, bs) else ((elemAddr g i).toNat + 2, bs.drop 2)] }
    | 0x0E =>
      let (b, x) := nestEncode f g r
      { o with fl := o.fl ||| x, nibbles := o.nibbles ++ [((elemAddr g i).toNat, i % gLen g % 2, b)] }
    | t =>
      let (b, x) := nestEncode f g r
      { o with fl := o.fl ||| x, writes := o.writes ++ [((elemAddr g i).toNat, bytesOfNat (tyBits t / 8) b)] }
  if nestRed f then
    let (acc, fr) := if nth ix 0 = 0 then (r, (0 : Flg)) else redOp f.ty.toNat f.mode.toNat (Rnd.ofCode f.rnd.toNat) o.red r
    let o := { o with fl := fl ||| fr, red := acc }
    .ok (if nth ix 0 + 1 = nestExt k 0 then put o (nestElem k 0 (0 :: ix.drop 1)).toNat acc else o)
  else .ok (put { o with fl := fl } (nestElem k 0 ix).toNat r)

/-- The last nibble a group writes to half h of the byte at a. -/
def nibbleAt (ns : List (Nat × Nat × Nat)) (a h : Nat) : Option Nat :=
  (ns.findRev? (fun x => x.1 == a && x.2.1 == h)).map (fun x => x.2.2)

/-- Bytes both of whose nibbles a group writes. -/
def nibbleBytes (ns : List (Nat × Nat × Nat)) : List (Nat × List Byte) :=
  (ns.map (fun x => x.1)).eraseDups.filterMap (fun a => match nibbleAt ns a 0, nibbleAt ns a 1 with
    | some x, some y => some (a, [BitVec.ofNat 8 (x + 16 * y)])
    | _, _ => none)

/-- Nibbles a group writes alone. -/
def nibbleHalves (ns : List (Nat × Nat × Nat)) : List (Nat × Nat × Nat) :=
  (ns.map (fun x => x.1)).eraseDups.filterMap (fun a => match nibbleAt ns a 0, nibbleAt ns a 1 with
    | some x, none => some (a, 0, x)
    | none, some y => some (a, 1, y)
    | _, _ => none)

/-- One tick of LNEST: a group is read and its writes are scheduled (R308). A region that lapses stops it (R312). -/
def nestMicro (s : State) (c : Ctx) (f : NestF) (k : Cmd) (t : Nat) : Except (Trap × Cmd) State :=
  let q := nestRate f.ty.toNat
  let first := k.landed + k.counted * q
  let ns := (List.range (min q (k.live - first))).map (fun i => first + i)
  let v := k.start.getD t + 8 + k.counted
  let lat := nestLat f
  let r : Res NestOut := do
    for o in nestOperands f do
      nestCheck s c f k false o
    ns.foldlM (nestStep s c f) ⟨k, 0, k.acc.headD 0, [], []⟩
  match r with
  | .error e => .error (e, k)
  | .ok o =>
    let ws := joinRuns (o.writes ++ nibbleBytes o.nibbles)
    let s := ws.foldl (fun s w => padWrite s c k (v + lat) 9 (BitVec.ofNat 64 w.1) w.2) s
    let s := (nibbleHalves o.nibbles).foldl (fun s n => padNibble s c k (v + lat) 9 (BitVec.ofNat 64 n.1) n.2.1 n.2.2) s
    let s := writeFlags s k (v + lat) o.fl
    let k := { o.k with counted := k.counted + 1, acc := (o.red :: k.acc).take 16 }
    let s := putCmd s k.core 1 k
    .ok (if first + q < k.live then microAt s k 1 (max t (v + 1)) else completeAt s k 1 (v + 1 + lat))

/-- Where a stopped nest goes on (R311): the first element whose write had not performed by tick t, with the partial
reduction there. The groups performed are counted from the run's start; names holds where the ticks of the rest count from. -/
def nestStopped (f : NestF) (k : Cmd) (t : Nat) : Cmd :=
  match k.start with
  | none => k
  | some s0 =>
    let q := nestRate f.ty.toNat
    let done := min k.counted (t + 1 - (s0 + 8 + nestLat f))
    let n := k.landed + done * q
    let bx := gFormat (k.streams.getD 0 0) = 0x0F || gFormat (k.streams.getD 0 0) = 0x10
    { k with landed := min (if bx then n / 32 * 32 else n) k.live, acc := k.acc.drop (k.counted - done), start := none, vals := []
             names := [s0 + done] }

/-! ## SORTC -/

/-- Streams of SORTC: ids, counts, offsets, permutation; unused ones zero. -/
def sortStreams (f : SortF) (c : Ctx) : List (BitVec 384) :=
  [if f.fromTag = 1 then 0 else streamReg c f.idSrc.toNat, streamReg c f.cnt.toNat,
   if f.offsEn = 1 then streamReg c f.offs.toNat else 0, streamReg c f.perm.toNat]

def sortPrep (f : SortF) (s : State) (c : Ctx) : Res Cmd :=
  let gs := sortStreams f c
  let rows := rdS c f.rows.toNat
  let unset := fun (i : Nat) (used : Bool) => used && gUnset (gs.getD i 0)
  if (if f.fromTag = 1 then 128 else 4096) < rows.toNat then fltOpen cILLEGAL
  else if unset 0 (f.fromTag == 0) || unset 1 true || unset 2 (f.offsEn == 1) || unset 3 true then fltOpen cILLEGAL
  else .ok { (default : Cmd) with streams := gs, vals := [rows] }

def execSortc (t : Timing) (f : SortF) (s : State) : Out := deliver [17] (.sortc t f) (sortPrep f) s

/-- The counts of ids: of each expert, and of the unplaced in the last (R309). -/
def sortCounts (base nexp : Nat) (ids : List Nat) : List Nat :=
  let slot := fun (x : Nat) => let e := (x + 65536 - base) % 65536; if x = 0xFFFF || nexp ≤ e then nexp else e
  ids.foldl (fun (l : List Nat) x => l.modify (slot x) (· + 1)) (List.replicate (nexp + 1) 0)

/-- Offsets: running sums of the counts below nexp. -/
def sortOffsets (cnt : List Nat) (nexp : Nat) : List Nat :=
  ((cnt.take nexp).foldl (fun (l : List Nat) x => l ++ [l.getLastD 0 + x]) [0])

/-- The stable permutation: rows of expert 0 in increasing order, then of expert 1, and so on. -/
def sortPerm (base nexp : Nat) (ids : List Nat) : List Nat :=
  let tagged := (List.range ids.length).zip ids
  let key := fun (x : Nat) => (x + 65536 - base) % 65536
  let placed := tagged.filter (fun p => p.2 != 0xFFFF && key p.2 < nexp)
  (placed.mergeSort (fun a b => key a.2 < key b.2 || (key a.2 == key b.2 && a.1 ≤ b.1))).map Prod.fst

/-- Writes values as n32 elements of a stream at a tick. -/
def sortWrite (s : State) (c : Ctx) (k : Cmd) (tick : Nat) (g : BitVec 384) (vs : List Nat) : State :=
  (joinRuns (((List.range vs.length).zip vs).map (fun p => ((elemAddr g p.1).toNat, bytesOfNat 4 p.2)))).foldl
    (fun s r => padWrite s c k tick 9 (BitVec.ofNat 64 r.1) r.2) s

/-- SORTC starts at tick t (R309): ids are read, everything is checked, and every write performs at completion; its ticks count
from v. -/
def sortStart (s : State) (c : Ctx) (f : SortF) (k : Cmd) (t v : Nat) : Res State := do
  let g := fun (i : Nat) => k.streams.getD i 0
  let rows := (k.vals.getD 0 0).toNat
  let nexp := f.nexp.toNat
  let tag := f.fromTag = 1
  let offs := f.offsEn = 1
  if (!tag && gFormat (g 0) != 0x05) || gFormat (g 1) != 0x06 || (offs && gFormat (g 2) != 0x06) || gFormat (g 3) != 0x06
    then fltOpen cILLEGAL
  else
    let area := fun (i n : Nat) (acc : Access) => (do
      streamHolds (g i) n
      if n = 0 then ownStream c (g i) else streamCheck s c (g i) 0 (n - 1) acc : Res Unit)
    (if tag then .ok () else area 0 rows .load : Res Unit)
    area 1 (nexp + 1) .store
    (if offs then area 2 (nexp + 1) .store else .ok () : Res Unit)
    let ids ← (List.range rows).foldlM (fun (l : List Nat) i => do
      let x ← (if tag then .ok (tagOf c f.idSrc.toNat i) else do
        let b ← padRead s c (elemAddr (g 0) i) 2
        .ok (natOfBytes b) : Res Nat)
      .ok (l ++ [x])) []
    let cnt := sortCounts f.idBase.toNat nexp ids
    let off := sortOffsets cnt nexp
    let perm := sortPerm f.idBase.toNat nexp ids
    area 3 perm.length .store
    let done := max t (v + 8 + 2 * ceilDiv rows 16 + ceilDiv (nexp + 1) 16)
    let k := { k with start := some v }
    let s := putCmd s k.core 1 k
    let s := sortWrite s c k done (g 1) cnt
    let s := if offs then sortWrite s c k done (g 2) off else s
    .ok (completeAt (sortWrite s c k done (g 3) perm) k 1 done)

end Sys2Proof.Machine
end

