-- ==== Sys2Proof/Machine/Events.lean ====
section
/-!
DEFINITION. The journal (R68 to R70) and miscompute events (R185, R186, R189, R190): logging, judging, fencing.
-/
set_option linter.unusedVariables false
namespace Sys2Proof.Machine
open Sys2Proof

/-- Bytes of the ring of entries in the journal's SRAM (R68). -/
def ringSize : Nat := 2 ^ 20 - 64

/-- The bytes of an entry: its header, and its payload padded to 16 (R68). -/
def entryImage (e : JEntry) : List Byte :=
  bytesOfNat 4 e.seq ++ bytesOfNat 1 e.kind ++ bytesOfNat 1 e.vd ++ bytesOfNat 2 e.queue ++ bytesOfNat 4 e.sqSeq
    ++ bytesOfNat 4 e.payload.length ++ e.payload ++ List.replicate ((16 - e.payload.length % 16) % 16) 0

/-- A run of bytes enters the ring at a place, and wraps at its end. -/
def ringWriteRun (m : Mem) (a : Nat) (bs : List Byte) : Mem :=
  (m.writeRun a (bs.take (ringSize - a))).writeRun 0 (bs.drop (ringSize - a))

/-- A journal entry is written and committed. The standby follows at a lag the manual leaves open, of at most 256 entries: a commit
at that lag waits until the standby has applied one more (R68, R70; log entry 85). -/
def journalBytes (s : State) (kind vd queue seq : Nat) (payload : List Byte) : State :=
  let (lag, s) := pick s 257
  let s := if s.agenda.any (fun e => e.act == .ins .scoreboardReevaluate) then s else schedNewel s (2 ^ 12) .scoreboardReevaluate
  let n := s.newel
  let c := n.commitSeq + 1
  let e : JEntry := ⟨c, kind, vd, queue, seq, payload⟩
  let bs := entryImage e
  let applied := if n.appliedSeq + 256 = n.commitSeq then n.appliedSeq + 1 else n.appliedSeq
  { s with newel := { n with
      journal := e :: n.journal, sram := ringWriteRun n.sram n.ringAt bs, ringAt := (n.ringAt + bs.length) % ringSize
      commitSeq := c
      appliedSeq := if n.standbyOk then max applied (c - lag) else n.appliedSeq } }

/-- An entry whose payload is 8-byte words (log entry 85). -/
def journal (s : State) (kind vd queue seq : Nat) (payload : List Nat) : State :=
  journalBytes s kind vd queue seq (payload.flatMap (bytesOfNat 8))

/-- The newel pair takes over: no launch issues, moves or ends by a fault, and fences wait (R71, Table 3.6). -/
def takingOver (s : State) : Bool := 2 ≤ s.newel.pair && s.newel.pair ≤ 4

/-- The newel acts: the boot ROM has released it, and the pair has not failed (R22, R71). -/
def newelUp (s : State) : Bool := s.boot.done && s.newel.pair != 5

/-- The context that holds a core's sequencer or, without one, any of its contexts. -/
def tenantOf (s : State) (core : Nat) : Option Ctx :=
  let here := (allUnits s).filter (fun u => u.core == core && u.wait != .done && u.wait != .saved)
  match (coreOf s core).holder with
  | some h => match here.find? (fun u => u.uid == h) with
      | some u => some u
      | none => here.head?
  | none => here.head?

/-- A fence clears the bit of the core's own mask (R63, R189). -/
def applyFence (s : State) (core cls : Nat) : State :=
  poke (modCore s core (fun k => { k with capMask := k.capMask &&& ~~~ ((1 : BitVec 24) <<< cls) }))

/-- Commits a fence: the journal entry, and its application, which in a take-over waits for SINGLE (Table 3.6). -/
def fence (s : State) (core cls : Nat) : State :=
  let s := journal s 0x0A 0xFF 0 0 [core, cls]
  if takingOver s then { s with newel := { s.newel with fences := s.newel.fences ++ [(core, cls)] } } else applyFence s core cls

/-- A miscompute event of a core and class at its domain's tick, judged and logged (R186, R189, R190); a transient one has
its class tested again within 2^20 ticks (R188). who is the context whose command or instruction erred. -/
def miscompute (s : State) (core cls source : Nat) (info : Nat) (who : Option Ctx) : State :=
  let k := coreOf s core
  let t := now s (dieOfCore core)
  let (vd, seq, q) := match who with
    | some u => let l := launchOf s u.launch; (u.vd, l.seq, l.queue)
    | none => (0xFF, 0, 0)
  if !(k.capMask.getLsbD cls) then logRel s t core cls source 2 vd info seq q
  else
    let kept := (tget k.events cls).getD (none, none)
    let lasting : Bool := match kept.1 with | some a => decide (t - a < 2 ^ 32) | none => false
    let s := modCore s core (fun k => { k with events := tset k.events cls (kept.2, some t) })
    let s := logRel s t core cls source (if lasting then 1 else 0) vd info seq q
    if lasting then fence s core cls
    else
      let (d, s) := pick s (2 ^ 20 - 2 ^ 17)
      sched s (dieOfCore core) (t + 1 + d) 18 0 0 (.ins (.knownAnswerTest core cls))

end Sys2Proof.Machine
end

