-- ==== Sys2Proof/Machine/Matrix.lean ====
section
/-!
DEFINITION. Matrix commands (R121 to R140, R153 to R155, R316 to R323): the load path, rows of MMUL and MGRAD, their
selection by tag, gradients, MGDRAIN, MRES, and the claims of slots.
-/
set_option linter.unusedVariables false
namespace Sys2Proof.Machine
open Sys2Proof

/-! ## Slots and views -/

/-- n bytes of a memory in canonical form, from an address on. -/
def runFrom : Nat → Mem → Nat → List Byte
  | 0, _, _ => []
  | n + 1, m, a =>
    match m.dropWhile (fun c => c.1 < a) with
    | [] => 0 :: runFrom n [] (a + 1)
    | c :: r => if c.1 = a then c.2 :: runFrom n r (a + 1) else 0 :: runFrom n (c :: r) (a + 1)

/-- n bytes at an offset of a physical slot as they now are (R127). -/
def alcRead (k : CoreSt) (p off n : Nat) : List Byte := runFrom n k.alcove (p * 32768 + off)

/-- A write of a slot performs, with new parity (R127, R191, R194). -/
def alcWrite (k : CoreSt) (off : Nat) (bs : List Byte) (ps : List Nat) : CoreSt :=
  let whole w := off ≤ w && w + 8 ≤ off + bs.length
  { k with
    alcove := k.alcove.writeRun off bs
    alcPoison := k.alcPoison.filter (fun w => !whole w) ++ ps.map (fun p => off + p)
    upsets := clearErrors k.upsets off bs.length }

/-- Rights to a logical slot the context holds: none, or Case(slot, t) of Table 4.2 (R318). -/
def slotRights (s : State) (c : Ctx) (p : Nat) : Option Nat :=
  let r := rentOf s (slotRef c.core p)
  if r.team != c.team then some 1 else match r.state with
    | 1 => none
    | 2 => some 0
    | _ => some 1

/-- An engine reads n bytes of a slot: poison (R194) and the early-read checker (R113, R314), by logical offset. -/
def checkSlot (s : State) (c : Ctx) (n p off len : Nat) : Res Unit :=
  let k := coreOf s c.core
  let lo := p * 32768 + off
  let logical := fun (b : Nat) => BitVec.ofNat 64 (n * 32768 + (b - p * 32768))
  match k.alcPoison.find? (fun w => lo < w + 8 && w < lo + len) with
  | some w => flt cUNCORR (logical w) 1
  | none =>
    if !checksShadow s c then .ok ()
    else match slotShadow s c lo len with
      | some b => flt cEARLY (logical b)
      | none => .ok ()

/-- The scalar a command's rows register holds at its start (R123, R314). -/
def liveRows (s : State) (c : Ctx) (k : Cmd) : Res Nat := do
  let p := nth k.names 0
  checkBank s c k.id (8 * p) 8
  .ok (natOfBytes (bankRead c (8 * p) 8))

/-- The placement of an accumulator or a tile, with its view; ILLEGAL when no view places it (R100). -/
def placeOf (c : Ctx) (kind n : Nat) : Res (BitVec 128 × Nat) :=
  match placeName c kind n with
  | some p => .ok p
  | none => fltOpen cILLEGAL

/-! ## Formats (Tables 6.3 and 15.5) -/

/-- Bytes of an activation row. -/
def rowBytes (t : Nat) : Nat :=
  match t with
  | 0x0B | 0x0A | 0x09 => 256
  | 0x0E => 64 | 0x10 => 72 | 0x0F => 136 | 0x08 => 200
  | _ => 128

/-- Rows entering a tick (ρ). -/
def rho (t : Nat) : Nat := match t with | 0x0E | 0x10 => 4 | _ => 1

/-- Elements of plain formats, and of bx blocks, in bytes laid out in a row (Table 6.3). -/
def rowVals (t : Nat) (xv : Option Nat) (bs : List Byte) : List Val :=
  match t with
  | 0x0E => (List.range 128).map (fun j => decodeE2m1 xv (elemAt 4 bs j))
  | 0x0F => (chunks 34 4 bs).flatMap (fun b => (List.range 32).map (bxElem t b))
  | 0x10 => (chunks 18 4 bs).flatMap (fun b => (List.range 32).map (bxElem t b))
  | t => (chunks (tyBits t / 8) (modeDim t) bs).map (fun e => decodeElem t (natOfBytes e))

/-- The q4 prologue on one group: bf16 bits of its 32 weights (R128). -/
def q4Group (b : List Byte) : List Nat :=
  let scale := decodeFloat 0x0B (natOfBytes ((b.drop 16).take 2))
  let z := bitsOf (b.getD 18 0).toNat 0 4
  (List.range 32).map (fun j =>
    (encodeFloat 0x0B .rne (Val.mul (Val.ofInt ((bitsOf (b.getD (j / 2) 0).toNat (4 * (j % 2)) 4 : Nat) - (z : Int))) scale)).1)

/-- Column n of the weights in a slot's bytes (Table 6.3); ty 0x11 takes q4 groups through the prologue. -/
def columnVals (t : Nat) (xv : Option Nat) (bs : List Byte) (n : Nat) : List Val :=
  let blocks := fun (w : Nat) => (chunks w 4 (bs.drop (n * 4 * w)))
  match t with
  | 0x0E => (List.range 128).map (fun k => decodeE2m1 xv (elemAt 4 (bs.drop (k * 64)) n))
  | 0x0F => (blocks 34).flatMap (fun b => (List.range 32).map (bxElem t b))
  | 0x10 => (blocks 18).flatMap (fun b => (List.range 32).map (bxElem t b))
  | 0x11 => (blocks 20).flatMap (fun b => (q4Group b).map (decodeFloat 0x0B))
  | t =>
    let w := tyBits t / 8
    (chunks (modeDim t * w) (modeDim t) bs).map (fun r => decodeElem t (natOfBytes ((r.drop (n * w)).take w)))

/-! ## What a stopped row command continues from (R323) -/

/-- Ticks from a row's entry to its effect. -/
def rowLat (i : Instr) : Nat :=
  match i with
  | .mmul _ _ => 132 | .mgrad _ _ => 128 | .mgdrain _ _ => 8 | _ => 4

/-- Rows that enter together. -/
def rowRho (i : Instr) : Nat := match i with | .mmul _ f => rho f.ty.toNat | _ => 1

/-- The command as its stop at tick t leaves it: the first row whose effect had not performed, and the misses before it. -/
def rowsStopped (k : Cmd) (t : Nat) : Cmd :=
  match k.start with
  | none => k
  | some s0 =>
    let n := min (k.landed + rowRho k.ins * (t + 1 - (s0 + rowLat k.ins))) k.live
    { k with landed := n, sample := k.sample.filter (fun i => i < n), acc := k.acc.take 1, counted := 0, start := none }

/-! ## Output rows (R124, R153 to R155) -/

/-- One output element: old is the accumulator's bits, or 0 under mode=set. -/
def dotElem (t : Nat) (wrap : Bool) (old : Nat) (x w : List Val) : Nat × Flg :=
  let int := fun (v : Val) => match v with | .fin n m _ => signedMant n m | _ => 0
  match t with
  | 0x00 | 0x04 => reduceI wrap (signedOf 32 old) (x.map int) (w.map int)
  | 0x08 | 0x09 => (reduceChain t old x w, 0)
  | _ => (reduceF old x w, 0)

/-- The bits of an element as the array gives them: an error flips some (log entry 16). -/
def struck (ups : List (Nat × Nat)) (i b : Nat) : Nat := ups.foldl (fun b u => if u.1 = i then Nat.xor b u.2 else b) b

/-- Poisoned words of n bytes of the register store at an offset, from its start. -/
def bankMarks (c : Ctx) (off n : Nat) : List Nat :=
  (c.bankPoison.filter (fun w => off ≤ w && w < off + n)).map (fun w => w - off)

/-- An MMUL output row performs: a row without weights is zero. The weight type is 0x11 where the bank came from q4; ups are the
array's errors in it. Under accumulation the destination's poison stays (R194). -/
def performRow (s : State) (uid off ty : Nat) (acc wrap : Bool) (xv : Option Nat) (x : List Byte) (w : Mem) (ps : List Nat)
    (ups : List (Nat × Nat)) : State :=
  match unitOf s uid with
  | none => s
  | some c =>
    let t := if ty = 0x11 then 0x0B else ty
    let n := modeDim t
    let b := tyBits (accTy t) / 8
    if x.isEmpty then setUnit s (bankWrite c off (List.replicate (n * b) 0) ps)
    else
      let xs := rowVals t xv x
      let ws := runFrom (weightBytes ty) w 0
      let old := bankRead c off (n * b)
      let ys := (List.range n).map (fun i =>
        dotElem t wrap (if acc then natOfBytes ((old.drop (i * b)).take b) else 0) xs (columnVals ty xv ws i))
      let ys := ((List.range n).zip ys).map (fun y => (struck ups y.1 y.2.1, y.2.2))
      let c := bankWrite c off (ys.flatMap (fun y => bytesOfNat b y.1)) (if acc then (ps ++ bankMarks c off (n * b)).eraseDups else ps)
      setUnit s (addFlags c (flagsOf ys))

/-! ## Gradients (R136 to R138) -/

/-- The key of G_b[k][n]. -/
def gradKey (b k n : Nat) : Nat := b * 16384 + k * 128 + n

/-- An MGRAD row's update performs: each accumulator rounds once (R137). ups are the array's errors in its products, bad the rows of
G_b that a mismatch poisons (R140). -/
def performGrad (k : CoreSt) (b : Nat) (x dy : List (BitVec 32)) (ups : List (Nat × Nat)) (bad : List Nat) : CoreSt :=
  let lo := k.grads.filter (fun e => e.1 < b * 16384)
  let hi := k.grads.filter (fun e => (b + 1) * 16384 ≤ e.1)
  let cur := k.grads.filter (fun e => b * 16384 ≤ e.1 && e.1 < (b + 1) * 16384)
  let new := (List.range 128).flatMap (fun i => (List.range 128).filterMap (fun j =>
    let key := gradKey b i j
    let g := (tget cur key).getD default
    let p := Val.mul (decodeFloat 9 (x.getD i 0).toNat) (decodeFloat 9 (dy.getD j 0).toNat)
    let p := if ups.any (fun u => u.1 == i * 128 + j) then decodeFloat 9 (struck ups (i * 128 + j) (encodeFloat 9 .rne p).1) else p
    let v := (encodeFloat 9 .rne (Val.add .rne (decodeFloat 9 g.val.toNat) p)).1
    let m := g.bad || bad.contains i
    if v = 0 && !m then none else some (key, ⟨BitVec.ofNat 32 v, m⟩)))
  { k with grads := lo ++ new ++ hi, upsets := clearErrors k.upsets (2 ^ 20 + 4 * gradKey b 0 0) 65536 }

/-- MGDRAIN's row k performs: read, written to its view's row with its poison, and zeroed unless keep=1 (R138, R194, R323). -/
def performDrain (s : State) (core id r : Nat) : State :=
  match running s core 0 id with
  | none => s
  | some k =>
    match k.ins, unitOf s k.uid with
    | .mgdrain _ f, some c =>
      let x := coreOf s core
      let b := f.bank.toNat
      let off := nth k.names 1 + r * vPitch (k.views.getD 0 0)
      match (if f.acc = 1 then checkBank s c k.id off 512 else .ok () : Res Unit) with
      | .error e => engineFault (dropOwned s [id]) (rowsStopped k (tickOf s c - 1)) true e
      | .ok _ =>
      let old := bankRead c off 512
      let vals := (List.range 128).map (fun n =>
        let g := ((tget x.grads (gradKey b r n)).getD default).val.toNat
        if f.acc = 1 then
          (encodeFloat 9 .rne (Val.add .rne (decodeFloat 9 (natOfBytes ((old.drop (4 * n)).take 4))) (decodeFloat 9 g))).1
        else g)
      let marks := ((List.range 64).filter (fun j => [2 * j, 2 * j + 1].any (fun n => ((tget x.grads (gradKey b r n)).getD default).bad))).map (· * 8)
      let s := setUnit s (bankWrite c off (vals.flatMap (bytesOfNat 4)) (if f.acc = 1 then (marks ++ bankMarks c off 512).eraseDups else marks))
      if f.keep = 1 then s
      else modCore s core (fun x => { x with
        grads := x.grads.filter (fun e => !(gradKey b r 0 ≤ e.1 && e.1 < gradKey b (r + 1) 0))
        upsets := clearErrors x.upsets (2 ^ 20 + 4 * gradKey b r 0) 512 })
    | _, _ => s

/-! ## MLOADW and the load path (R130, R316) -/

def execMloadw (t : Timing) (f : LoadWF) (s : State) : Out :=
  let bit := match bankCount f.ty.toNat with | 8 => 8 | 16 => 9 | _ => 11
  let bits := match f.ty.toNat with
    | 0x00 | 0x04 => [7] | 0x0B | 0x0A => [8] | 0x0C | 0x0D => [9] | 0x0F => [10] | 0x0E | 0x10 => [11] | 0x09 => [12]
    | 0x08 => [13] | 0x11 => [14] | _ => [bit]
  deliver bits (.mloadw t f) (fun _ _ => .ok (default : Cmd)) s

/-- Non-empty entries of a core. -/
def liveEntries (k : CoreSt) : Tab ResEntry := k.res.filter (fun e => e.2.state != 0)

/-- A load is put on the load path of a core from tick s on (R130): its beginning is scheduled. An entry that is not EMPTY drains, and
what it was loading, or a load it was draining for, ends there (log entry 115); with an EMPTY entry a load queued before goes on first. -/
def beginLoad (s : State) (core uid pc : Nat) (bank expert slot ctx ty : Nat) (drain : Bool) (t : Nat) : State :=
  let (id, s) := fresh s
  let k := coreOf s core
  let e := entryAt k bank
  let s0 := max t k.pathFree
  let d := max s0 e.lastRow
  let at_ := if drain then d + 1 else if e.state = 0 then s0 else max s0 (d + 1)
  let ld : Load := ⟨id, uid, bank, expert, slot, ctx, ty, BitVec.ofNat 64 pc, drain, 0, at_, [], true⟩
  let s := modCore s core (fun k =>
    let k := if e.state = 0 then k else modEntry k bank (fun e => { e with state := 3 })
    { k with
      loads := (k.loads.map (fun l => if e.state != 0 && l.bank = bank then { l with live := false } else l)) ++ [ld]
      pathFree := if drain then k.pathFree else at_ + (if ty = 0x11 then 160 else 128) })
  sched s (dieOfCore core) at_ 13 uid 0 (.ins (.residencyLoadBegin core id))

/-- MLOADW starts at tick t (R126, R130, R316). In what order its SLOT cases and RENT_LAPSED come, and their ctx.tval, is log entry 60's. -/
def mloadwStart (s : State) (c : Ctx) (f : LoadWF) (k : Cmd) (t : Nat) : Res State := do
  let x := coreOf s c.core
  let b := f.bank.toNat
  let e := entryAt x b
  let none_ := f.none = 1
  let p ← (if none_ then .ok 0 else match physSlot c f.slot.toNat with
    | some p => .ok p
    | none => flt cSLOT (f.slot.setWidth 64) 1 : Res Nat)
  if e.state != 0 && e.ctx != c.slot then flt cSLOT (f.bank.setWidth 64) 3
  else if !none_ && (liveEntries x).any (fun o => bankWidth o.2.format != bankWidth f.ty.toNat) then flt cSLOT (f.bank.setWidth 64) 4
  else if !none_ && (liveEntries x).any (fun o => o.1 != b && o.2.ctx == c.slot && o.2.expert == f.expert.toNat) then
    flt cSLOT (f.bank.setWidth 64) 5
  else
    (match (if none_ then none else slotRights s c p) with
      | some i => flt cLAPSED (f.slot.setWidth 64) (BitVec.ofNat 64 i)
      | none => (.ok () : Res Unit))
    let s := putCmd s c.core 0 { k with start := some t }
    let s := completeAt s k 0 (t + 1)
    if none_ && e.state = 0 && !(x.loads.any (fun l => l.live && l.bank == b)) then .ok s
    else .ok (beginLoad s c.core c.uid k.pc.toNat b f.expert.toNat p c.slot f.ty.toNat none_ t)

/-- Words of a slot that a load of a type reads (R130). -/
def loadWords (ty : Nat) : Nat := ceilDiv (weightBytes ty) 32

/-- The words of the load path that are read at a tick; a fault of the read, poison or an early read, is raised at the MLOADW (R113,
R130, R194). -/
def loadWordsAt (s : State) (core id : Nat) : State :=
  let k := coreOf s core
  let t := now s (dieOfCore core)
  match k.loads.find? (fun l => l.id == id && l.live) with
  | none => s
  | some l =>
    let u := loadWords l.ty
    let n := ((List.range (u - l.word)).filter (fun i => l.began + (l.word + i) * 128 / u ≤ t)).length
    let bs := alcRead k l.slot (l.word * 32) (n * 32)
    let s := modCore s core (fun k => { k with
      loads := k.loads.map (fun x => if x.id = id then { x with word := l.word + n, bytes := l.bytes ++ bs } else x) })
    let s := if l.word + n < u then
        sched s (dieOfCore core) (l.began + (l.word + n) * 128 / u) 13 l.uid 0 (.eff (.loadWord core id)) else s
    match unitOf s l.uid with
    | none => s
    | some c =>
      let logical := ((c.slots.find? (fun e => e.2 == l.slot)).map Prod.fst).getD 0
      match c.wait, checkSlot s c logical l.slot (l.word * 32) (n * 32) with
      | .frozen _, _ | .done, _ | .saved, _ | _, .ok _ => s
      | _, .error e => takeFault s l.uid e l.pc

/-- RESIDENCY_LOAD_BEGIN (R130): the entry enters LOADING, or EMPTY under slot=none. -/
def execResidencyLoadBegin (core ld : Nat) (s : State) : Out :=
  match (coreOf s core).loads.find? (fun l => l.id == ld && l.live) with
  | none => .next s
  | some l =>
    if l.drain then
      .next (modCore s core (fun k => { modEntry k l.bank emptied with loads := k.loads.filter (fun x => x.id != ld) }))
    else
      let q := l.ty = 0x11
      let done := l.began + (if q then 160 else 128)
      let s := modCore s core (fun k => modEntry k l.bank (fun e => { e with
        expert := l.expert, state := 1, format := if q then 0x0B else l.ty, slot := l.slot, ctx := l.ctx, q4 := q
        ready := done, weights := [] }))
      let s := sched s (dieOfCore core) done 13 l.uid 0 (.ins (.residencyLoadEnd core ld))
      .next (loadWordsAt s core ld)

/-- RESIDENCY_LOAD_END (R130): the entry is RESIDENT with the bytes read. -/
def execResidencyLoadEnd (core ld : Nat) (s : State) : Out :=
  match (coreOf s core).loads.find? (fun l => l.id == ld && l.live) with
  | none => .next s
  | some l => .next (modCore s core (fun k => { modEntry k l.bank (fun e => { e with state := 2, weights := cellsOf 0 l.bytes }) with
      upsets := clearErrors k.upsets (3 * 2 ^ 20 + l.bank * 32768) 32768
      loads := k.loads.filter (fun x => x.id != ld) }))

/-! ## MMUL and MGRAD (R131 to R134, R317 to R319) -/

/-- Miss predicates as physical numbers, and the extra value of e2m1, at delivery. -/
def mulNames (c : Ctx) (f : MulF) (off : Nat) : List Nat :=
  [rot c f.rows.toNat, off, rotP c f.mpred.toNat, rotP c (f.mpred.toNat + 1)]

/-- Delivery of MMUL (R100, R304, R314). -/
def mmulPrep (f : MulF) (s : State) (c : Ctx) : Res Cmd := do
  let (v, off) ← placeOf c 3 f.dst.toNat
  let g := streamReg c f.xs.toNat
  if f.xsValid = 1 && gUnset g then fltOpen cILLEGAL
  else .ok { (default : Cmd) with names := mulNames c f off, views := [v], streams := [if f.xsValid = 1 then g else 0] }

/-- Delivery of MGRAD (R319). -/
def mgradPrep (f : MulF) (s : State) (c : Ctx) : Res Cmd := do
  let g := streamReg c f.dy.toNat
  if gUnset g then fltOpen cILLEGAL
  else
    ownStream c g
    .ok { (default : Cmd) with names := mulNames c f 0, streams := [g] }

/-- Capability bits of the array's types (Table 10.16). -/
def classBit (t : Nat) : Nat :=
  match t with
  | 0x00 | 0x04 => 7 | 0x0B | 0x0A => 8 | 0x0C | 0x0D => 9 | 0x0F => 10 | 0x0E | 0x10 => 11 | 0x09 => 12 | 0x08 => 13 | _ => 14

def execMmul (t : Timing) (f : MulF) (s : State) : Out :=
  deliver ([classBit f.ty.toNat] ++ (if f.route = 1 then [15] else [])) (.mmul t f) (mmulPrep f) s

def execMgrad (t : Timing) (f : MulF) (s : State) : Out :=
  deliver ([16] ++ (if f.route = 1 then [15] else [])) (.mgrad t f) (mgradPrep f) s

/-- A view that a row of n bytes fits, of a format and with at least r rows (R318, R320). -/
def accOk (v : BitVec 128) (ty r n : Nat) : Bool := vKind v == 3 && vFormat v == ty && r ≤ vRows v && n ≤ vPitch v

/-- Ticks to the completion of a command with no row left to enter: one, but an MGRAD that goes on waits for its last row (R123,
R351). -/
def rowsTail (k : Cmd) : Nat := match k.ins with | .mgrad _ _ => (if k.landed = 0 then 1 else 127) | _ => 1

/-- Begins the rows of a command from row landed on, at tick t (R323). -/
def rowsGo (s : State) (k : Cmd) (t : Nat) : State :=
  let k := { k with start := some t, counted := 0 }
  let s := putCmd s k.core 0 k
  if k.live ≤ k.landed then completeAt s k 0 (t + rowsTail k) else microAt s k 0 t

/-! ### The checksums (R139, R140)

What the array computes is right but for the errors its hidden list holds (log entry 16); every entered row is compared. -/

/-- The errors that strike row i of a command of a class: column and flipped bits. -/
def strikesOn (s : State) (core cls i : Nat) : List (Nat × Nat) :=
  ((coreOf s core).checksum.filter (fun x => x.cls == cls && x.row == i)).map (fun x => (x.col, x.bits))

/-- Those errors have been made. -/
def madeStrikes (s : State) (core cls i : Nat) : State :=
  modCore s core (fun x => { x with checksum := x.checksum.filter (fun y => !(y.cls == cls && y.row == i)) })

/-- A sum computed in f32, in order. -/
def f32Sum (l : List Val) : Val := l.foldl (fun a v => r32 (a.add .rne v)) (.fin false 0 0)

/-- |v|. -/
def Val.mag : Val → Val
  | .fin _ m e => .fin false m e
  | .inf _ => .inf false
  | .nan => .nan

/-- Two sums differ by more than 2^−14 M + 2^−126, M the sum of the magnitudes of the terms on the larger side (R139). -/
def sumsDiffer (as bs : List Val) : Bool :=
  let ma := f32Sum (as.map Val.mag)
  let mb := f32Sum (bs.map Val.mag)
  let m := if ma.cmp mb < 0 then mb else ma
  let d := (f32Sum as).add .rne (f32Sum bs).neg
  let tol := (m.mul (.fin false 1 (-14))).add .rne (.fin false 1 (-126))
  !d.isNan && !tol.isNan && 0 < d.mag.cmp tol

/-- The integer a value is. -/
def Val.int : Val → Int
  | .fin n m _ => signedMant n m
  | _ => 0

/-- Two sums of terms disagree: exactly in integer modes, else beyond the tolerance. -/
def sumsClash (ints : Bool) (as bs : List Val) : Bool :=
  if ints then (as.map Val.int).foldl (· + ·) 0 != (bs.map Val.int).foldl (· + ·) 0 else sumsDiffer as bs

/-- A row of products as the array gives them. -/
def rowProducts (ty : Nat) (wrap : Bool) (xv : Option Nat) (x : List Byte) (w : Mem) (ups : List (Nat × Nat)) : List Val :=
  let t := if ty = 0x11 then 0x0B else ty
  let xs := rowVals t xv x
  let ws := runFrom (weightBytes ty) w 0
  (List.range (modeDim t)).map (fun n => decodeElem (accTy t) (struck ups n (dotElem t wrap 0 xs (columnVals ty xv ws n)).1))

/-- The checksum column on a row: Σ_n y[n] against Σ_k x[k] c_b[k], c_b[k] = Σ_n W_b[k][n]. -/
def rowClashes (ty : Nat) (wrap : Bool) (xv : Option Nat) (x : List Byte) (w : Mem) (ups : List (Nat × Nat)) : Bool :=
  let t := if ty = 0x11 then 0x0B else ty
  let ints := t = 0x00 || t = 0x04
  let ws := runFrom (weightBytes ty) w 0
  let cols := (List.range (modeDim t)).map (columnVals ty xv ws)
  let cb := (List.range (modeDim t)).map (fun k =>
    let l := cols.map (fun c => c.getD k (.fin false 0 0))
    if ints then Val.ofInt ((l.map Val.int).foldl (· + ·) 0) else f32Sum l)
  sumsClash ints (((rowVals t xv x).zip cb).map (fun p => Val.mul p.1 p.2)) (rowProducts ty wrap xv x w ups)

/-- The checksum row on rows that selected one bank, with the errors each met: the sum of x over them times the columns of W against
the sum of y. -/
def bankClashes (ty : Nat) (wrap : Bool) (xv : Option Nat) (w : Mem) (rows : List (List Byte × List (Nat × Nat))) : Bool :=
  let t := if ty = 0x11 then 0x0B else ty
  let ints := t = 0x00 || t = 0x04
  let ws := runFrom (weightBytes ty) w 0
  let sum := fun (l : List Val) => if ints then Val.ofInt ((l.map Val.int).foldl (· + ·) 0) else f32Sum l
  let xs := rows.map (fun r => rowVals t xv r.1)
  let ys := rows.map (fun r => rowProducts ty wrap xv r.1 w r.2)
  let own := rows.flatMap Prod.snd
  let sx := (List.range (modeDim t)).map (fun k => sum (xs.map (fun x => x.getD k (.fin false 0 0))))
  (List.range (modeDim t)).any (fun n =>
    let y := ys.map (fun y => y.getD n (.fin false 0 0))
    own.any (fun u => u.1 == 128 + n) || sumsClash ints ((sx.zip (columnVals ty xv ws n)).map (fun p => Val.mul p.1 p.2)) y)

/-- Rows k of G_b whose update's sum over n differs from x[k] Σ_n dy[n] (R139). -/
def gradClashes (x dy : List (BitVec 32)) (ups : List (Nat × Nat)) : List Nat :=
  let dys := dy.map (fun b => decodeFloat 9 b.toNat)
  (List.range 128).filter (fun k =>
    let xk := decodeFloat 9 (x.getD k 0).toNat
    let us := ((List.range 128).zip dys).map (fun p =>
      decodeFloat 9 (struck ups (k * 128 + p.1) (encodeFloat 9 .rne (Val.mul xk p.2)).1))
    sumsDiffer [Val.mul xk (f32Sum dys)] us)

/-- Every 8-byte word of an output row. -/
def rowWords (ty : Nat) : List Nat := (List.range (outBytes (if ty = 0x11 then 0x0B else ty) / 8)).map (· * 8)

/-- What a row's errors make of its command, in acc's first place: 1 it has met one, 2 its event has been raised (R185). -/
def noteStrike (s : State) (c : Ctx) (k : Cmd) (cls : Nat) (met clash : Bool) : State × Cmd :=
  let put := fun (n : Nat) => { k with acc := n :: k.acc.drop 1 }
  if nth k.acc 0 = 2 then (s, k)
  else if clash then (miscompute s k.core cls 1 k.pc.toNat (some c), put 2)
  else if met then (s, put 1) else (s, k)

/-- The checksum row's check at an MMUL's end, by the bank of its rows; a mismatch poisons every row (R139, R140). -/
def endCheck (s : State) (c : Ctx) (f : MulF) (k : Cmd) : State × Cmd :=
    let rows := s.agenda.filterMap (fun e => if e.own != k.id then none else match e.act with
      | .eff (.row _ _ ty _ wrap xv x w _ ups) => if x.isEmpty then none else some (ty, wrap, xv, w, x, ups)
      | _ => none)
    let banks := (rows.map (fun r => (r.1, r.2.1, r.2.2.1, r.2.2.2.1))).eraseDups
    if banks.any (fun b => bankClashes b.1 b.2.1 b.2.2.1 b.2.2.2 ((rows.filter (fun r => r.1 == b.1 && r.2.2.2.1 == b.2.2.2)).map (fun r => r.2.2.2.2))) then
      let (s, k) := noteStrike s c k (classBit f.ty.toNat) true true
      ({ s with agenda := s.agenda.map (fun e => if e.own != k.id then e else match e.act with
          | .eff (.row u o ty a wr xv x w _ ups) => { e with act := .eff (.row u o ty a wr xv x w (rowWords ty) ups) }
          | _ => e) }, k)
    else (s, k)

/-- MMUL starts at tick t (R318). sample holds missed rows; acc what its errors made of it, then whether the bank of route=bank was
RESIDENT at the first row. -/
def mmulStart (s : State) (c : Ctx) (f : MulF) (k : Cmd) (t : Nat) : Res State := do
  let r ← liveRows s c k
  let ty := f.ty.toNat
  if 128 < r then fltOpen cILLEGAL
  else if !accOk (k.views.getD 0 0) (accTy ty) r (modeDim ty * (tyBits (accTy ty) / 8)) then fltOpen cILLEGAL
  else match physSlot c f.slot.toNat with
    | none => flt cSLOT (f.slot.setWidth 64) 1
    | some _ => .ok (rowsGo s { k with live := r, landed := 0, sample := [], acc := [0] } t)

/-- MGRAD starts at tick t (R319). -/
def mgradStart (s : State) (c : Ctx) (f : MulF) (k : Cmd) (t : Nat) : Res State := do
  let r ← liveRows s c k
  let g := k.streams.getD 0 0
  if 128 < r then fltOpen cILLEGAL
  else if gFormat g != 0x0B then fltOpen cILLEGAL
  else
    streamHolds g (128 * r)
    (if r = 0 then .ok () else streamCheck s c g 0 (128 * r - 1) .load : Res Unit)
    match physSlot c f.slot.toNat with
    | none => flt cSLOT (f.slot.setWidth 64) 1
    | some _ => .ok (rowsGo s { k with live := r, landed := 0, sample := [], acc := [0] } t)

/-- What a row selects: its expert id, the bank, the subcode of a miss (0: none) (R131 to R133). Under route=bank the id is the entry's own
expert (log entry 58). -/
def selectBank (x : CoreSt) (c : Ctx) (f : MulF) (grad resident : Bool) (i : Nat) : Nat × Option Nat × Nat :=
  let hit := fun (id : Nat) (b : Option Nat) => match b with
    | none => (id, none, 1)
    | some b =>
      if grad && 8 ≤ b then (id, none, 2)
      else if (entryAt x b).format != f.ty.toNat then (id, none, 3)
      else (id, some b, 0)
  if f.route = 1 then
    let id := tagOf c f.tag.toNat i
    if id = 0xFFFF then (id, none, 0)
    else hit id ((x.res.find? (fun e => e.2.state == 2 && e.2.ctx == c.slot && e.2.expert == id)).map Prod.fst)
  else
    let e := entryAt x f.bank.toNat
    hit e.expert (if resident && e.state = 2 && e.ctx = c.slot then some f.bank.toNat else none)

/-- Elements 128i to 128i + 127 of an MGRAD's dy stream, as f32 bits (R319). -/
def dyRow (s : State) (c : Ctx) (g : BitVec 384) (i : Nat) : Res (List (BitVec 32)) :=
  (List.range 128).foldlM (fun (l : List (BitVec 32)) n =>
    let a := elemAddr g (128 * i + n)
    match translate s c (windowFor c a) a with
    | .error t => (.error t : Res (List (BitVec 32)))
    | .ok p => do
      checkEarly s c p a 2
      .ok (l ++ [BitVec.ofNat 32 (natOfBytes (readNow s p 2) * 65536)])) []

/-- One row enters at tick t: its effects are scheduled, or its miss or fault is answered, with whether the rows before it still
perform (R133, R323). -/
def rowEnters (s : State) (c : Ctx) (f : MulF) (grad : Bool) (k : Cmd) (i t : Nat) : Except (Trap × Bool) (State × Cmd) :=
  let dst := nth k.names 1 + i * vPitch (k.views.getD 0 0)
  let ty := f.ty.toNat
  let n := f.slot.toNat
  let rb := rowBytes ty
  let x := coreOf s c.core
  match physSlot c n with
  | none => .error (⟨cLAPSED, BitVec.ofNat 64 n, 1, false⟩, true)
  | some p =>
    match slotRights s c p with
    | some j => .error (⟨cLAPSED, BitVec.ofNat 64 n, BitVec.ofNat 64 j, false⟩, true)
    | none =>
      match checkSlot s c n p (i * rb) rb with
      | .error e => .error (e, false)
      | .ok _ =>
        match (if grad then (do
            streamCheck s c (k.streams.getD 0 0) (128 * i) (128 * i + 127) .load
            dyRow s c (k.streams.getD 0 0) i) else .ok [] : Res (List (BitVec 32))) with
        | .error e => .error (e, false)
        | .ok dy =>
          let first := k.acc.length < 2
          let ent := entryAt x f.bank.toNat
          let resident := if first then decide (ent.state = 2 && ent.ctx = c.slot) else nth k.acc 1 = 1
          let k := if first then { k with acc := [nth k.acc 0, if resident then 1 else 0] } else k
          let (id, b, sub) := selectBank x c f grad resident i
          if sub != 0 && f.skip = 0 then .error (⟨cTAGMISS, BitVec.ofNat 64 (i * 65536 + id), BitVec.ofNat 64 sub, false⟩, true)
          else
            let k := if sub != 0 then { k with sample := k.sample ++ [i] } else k
            let bytes := alcRead x p (i * rb) rb
            match b with
            | some b =>
              match (if !grad && f.acc = 1 then checkBankAt s c k.id dst (outBytes ty) (t + 132) else .ok () : Res Unit) with
              | .error e => .error (e, false)
              | .ok _ =>
              let e := entryAt x b
              let s := modCore s c.core (fun y => { y with res := tset y.res b { entryAt y b with lastRow := t + 127 } })
              if grad then
                let xs := (rowVals ty none bytes).map (fun v => BitVec.ofNat 32 (encodeFloat 9 .rne v).1)
                let ups := strikesOn s c.core 16 i
                let bad := gradClashes xs dy ups
                let (s, k) := noteStrike (madeStrikes s c.core 16 i) c k 16 (!ups.isEmpty) (!bad.isEmpty)
                .ok (schedCmd s k (t + 128) 7 (.grad c.core b xs dy ups bad), k)
              else
                let wt := if e.q4 then 0x11 else ty
                let xv := gExtra (k.streams.getD 0 0)
                let ups := strikesOn s c.core (classBit ty) i
                let clash := rowClashes wt (f.wrap = 1) xv bytes e.weights ups
                let (s, k) := noteStrike (madeStrikes s c.core (classBit ty) i) c k (classBit ty) (!ups.isEmpty) clash
                .ok (schedCmd s k (t + 132) 7 (.row c.uid dst
                  wt (f.acc = 1) (f.wrap = 1) xv bytes e.weights (if clash then rowWords wt else []) ups), k)
            | none =>
              if grad || f.acc = 1 then .ok (s, k)
              else .ok (schedCmd s k (t + 132) 7 (.row c.uid dst ty false false none [] [] [] []), k)

/-- The miss predicate pair performs at the tick the last row has entered (R134). -/
def missPreds (s : State) (f : MulF) (k : Cmd) (t : Nat) : State :=
  if f.skip = 0 then s
  else
    let word := fun (h : Nat) => BitVec.ofNat 64 ((k.sample.filter (fun i => i / 64 = h)).foldl (fun n i => n + 2 ^ (i % 64)) 0)
    schedCmd (schedCmd s k t 7 (.pred k.uid (nth k.names 2) (-1) (word 0))) k t 7 (.pred k.uid (nth k.names 3) (-1) (word 1))

/-- A tick of MMUL or MGRAD: rows enter, and after the last one the command's completion is due. A miss stops the command with its row
counter at the row that did not enter; another fault stops it as a precise stop does (R133, R318, R323). -/
def mulStep (s : State) (f : MulF) (grad : Bool) (k : Cmd) (t : Nat) : State :=
  match unitOf s k.uid with
  | none => s
  | some c =>
    let q := if grad then 1 else rho f.ty.toNat
    let i0 := k.landed + k.counted
    let is := (List.range (min q (k.live - i0))).map (fun j => i0 + j)
    match is.foldl (fun (r : Except (State × Trap × Cmd) (State × Cmd)) i =>
        match r with
        | .error e => .error e
        | .ok (s, m) => match rowEnters s c f grad m i t with
          | .error (e, true) => .error (s, e, { m with landed := i, counted := 0, start := none, acc := m.acc.take 1 })
          | .error (e, false) => .error (dropOwned s [k.id], e, rowsStopped k t)
          | .ok x => .ok x) (.ok (s, k)) with
    | .error (s, e, k') => engineFault s k' true e
    | .ok (s, k) =>
      let k := { k with counted := k.counted + is.length }
      let s := putCmd s k.core 0 k
      if i0 + is.length < k.live then microAt s k 0 (t + 1)
      else if grad then completeAt (missPreds s f k (t + 1)) k 0 (t + 128)
      else
        let (s, k) := endCheck s c f k
        completeAt (missPreds (putCmd s k.core 0 k) f k (t + 1)) k 0 (t + 1)

/-! ## MGDRAIN and MRES (R138, R320, R321) -/

def execMgdrain (t : Timing) (f : DrainF) (s : State) : Out :=
  deliver [16] (.mgdrain t f) (fun _ c => do
    let (v, off) ← placeOf c 3 f.dst.toNat
    .ok { (default : Cmd) with names := [0, off], views := [v] }) s

/-- MGDRAIN goes from row landed on, at tick t. -/
def drainGo (s : State) (k : Cmd) (t : Nat) : State :=
  let k := { k with start := some t, live := 128, counted := 0 }
  let s := putCmd s k.core 0 k
  let s := (List.range (128 - k.landed)).foldl (fun s j => schedCmd s k (t + 8 + j) 7 (.drainRow k.core k.id (k.landed + j))) s
  completeAt s k 0 (t + 8 + (128 - k.landed))

def mgdrainStart (s : State) (c : Ctx) (k : Cmd) (t : Nat) : Res State :=
  let v := k.views.getD 0 0
  if vKind v = 3 && vFormat v = 0x09 && 128 ≤ vRows v then .ok (drainGo s { k with landed := 0 } t) else fltOpen cILLEGAL

/-- Delivery of MRES: source, and destination tile or accumulator. -/
def execMres (t : Timing) (f : ResF) (s : State) : Out :=
  let bit := match f.ty.toNat with
    | 0x00 | 0x04 => 7 | 0x0B | 0x0A => 8 | 0x0C | 0x0D => 9 | 0x0F => 10 | 0x0E | 0x10 => 11 | _ => 12
  deliver [bit] (.mres t f) (fun _ c => do
    let (v, off) ← placeOf c 3 f.src.toNat
    let (w, dst) ← placeOf c (if f.kind = 1 then 3 else 2) f.num.toNat
    .ok { (default : Cmd) with names := [rot c f.rows.toNat, off, dst], views := [v, w] }) s

/-- MRES starts at tick t (R321); rows beyond either view are refused (log entry 34). -/
def mresStart (s : State) (c : Ctx) (f : ResF) (k : Cmd) (t : Nat) : Res State := do
  let r ← liveRows s c k
  let v := k.views.getD 0 0
  let w := k.views.getD 1 0
  let ty := f.ty.toNat
  let pair := if ty = 0x00 || ty = 0x04 then vFormat v = 0x02 && f.rnd = 0 else vFormat v = 0x09
  let bx := ty = 0x0F || ty = 0x10
  if !pair || (bx && f.split = 0) || (!bx && f.split != 0) || 128 < r then fltOpen cILLEGAL
  else if vFormat w != ty || vPitch w < resBytes ty then fltOpen cILLEGAL
  else if vRows v < r || vRows w < r then fltOpen cILLEGAL
  else .ok (rowsGo s { k with live := r, landed := 0 } t)

/-- The converted bytes of a row, and whether an element was clipped. -/
def resRow (f : ResF) (bs : List Byte) : List Byte × Bool :=
  let ty := f.ty.toNat
  let es := (chunks 4 128 bs).map natOfBytes
  match ty with
  | 0x00 | 0x04 =>
    let rs := es.map (fun e => satInt ty (signedOf 32 e))
    (rs.flatMap (fun r => bytesOfNat 1 r.1), rs.any (fun r => r.2 != 0))
  | 0x0F | 0x10 => ((chunks 32 4 (es.map (decodeFloat 9))).flatMap (fun b => (bxBlock ty f.split.toNat b).1), false)
  | 0x0E =>
    let rs := es.map (fun e => (encodeFloat 0x0E (Rnd.ofCode f.rnd.toNat) (decodeFloat 9 e)).1)
    ((chunks 2 64 rs).map (fun p => BitVec.ofNat 8 (nth p 0 + 16 * nth p 1)), false)
  | ty => (es.flatMap (fun e => bytesOfNat (tyBits ty / 8) (encodeFloat ty (Rnd.ofCode f.rnd.toNat) (decodeFloat 9 e)).1), false)

/-- A tick of MRES: row i is read; its conversion performs 4 ticks on, carrying the row's poison (log entry 34). -/
def mresStep (s : State) (f : ResF) (k : Cmd) (t : Nat) : State :=
  match unitOf s k.uid with
  | none => s
  | some c =>
    let i := k.landed + k.counted
    let src := nth k.names 1 + i * vPitch (k.views.getD 0 0)
    match checkBank s c k.id src 512 with
    | .error e => engineFault (dropOwned s [k.id]) (rowsStopped k t) true e
    | .ok _ =>
      let (bs, clip) := resRow f (bankRead c src 512)
      let ps := if c.bankPoison.any (fun w => src < w + 8 && w < src + 512) then (List.range (bs.length / 8)).map (· * 8) else []
      let s := schedCmd s k (t + 4) 7 (.bank c.uid (nth k.names 2 + i * vPitch (k.views.getD 1 0)) bs ps)
      let s := if clip then schedCmd s k (t + 4) 7 (.flags c.uid 4) else s
      let k := { k with counted := k.counted + 1 }
      let s := putCmd s k.core 0 k
      if i + 1 < k.live then microAt s k 0 (t + 1) else completeAt s k 0 (t + 5)

/-! ## SLCLAIM and SLREL (R125, R322) -/

/-- An idem region refuses what charges and refunds (R82). -/
def noIdem (c : Ctx) : Res Unit := if c.idem then flt cREGION 0 3 else .ok ()

def execSlclaim (t : Timing) (d n : Reg) (s : State) : Out :=
  deliver [23] (.slclaim t d n) (fun _ c => do
    noIdem c
    .ok { (default : Cmd) with names := [rot c d.toNat] }) s

def execSlrel (t : Timing) (n : BitVec 5) (s : State) : Out :=
  deliver [23] (.slrel t n) (fun _ c => do
    noIdem c
    .ok default) s

/-- SLCLAIM starts: its rent and result are due 4 ticks on. -/
def slclaimStart (s : State) (c : Ctx) (k : Cmd) (t : Nat) : Res State :=
  let s := putCmd s k.core 0 { k with start := some t }
  .ok (completeAt (schedCmd s k (t + 4) 7 (.slot k.core k.id)) k 0 (t + 4))

/-- SLREL starts; a slot not held raises SLOT. -/
def slrelStart (s : State) (c : Ctx) (n : BitVec 5) (k : Cmd) (t : Nat) : Res State :=
  match physSlot c n.toNat with
  | none => flt cSLOT (n.setWidth 64) 1
  | some _ => slclaimStart s c k t

/-- Free physical slots of a core, lowest first. -/
def freeSlots (s : State) (core : Nat) : List Nat := (List.range 32).filter (fun p => (rentOf s (slotRef core p)).state = 0)

/-- A slot is rented for a context until a tick: zeroed, mapped at a logical number (R125). -/
def takeSlot (s : State) (c : Ctx) (n p until_ : Nat) : State :=
  let r : Rent := { (default : Rent) with
    owner := c.vd * 65536, tier := 0, size := 1, paid := until_, core := c.core, item := 4 + p, team := c.team }
  let s := makeRegion s (slotRef c.core p) r
  let s := modCore s c.core (fun k => { k with
    alcove := k.alcove.filter (fun x => x.1 / 32768 != p), alcPoison := k.alcPoison.filter (fun w => w / 32768 != p) })
  let s := (allUnits s).foldl (fun s u => if u.core = c.core then
    modUnit s u.uid (fun u => { u with slots := u.slots.filter (fun e => e.2 != p) }) else s) s
  modUnit s c.uid (fun c => { c with slots := tset c.slots n p })

/-- A slot goes back with the refund of Table 4.7; entries loaded from it are EMPTY (Table 6.6). -/
def returnSlot (s : State) (c : Ctx) (n : Nat) : State :=
  match physSlot c n with
  | none => s
  | some p =>
    let s := modUnit s c.uid (fun c => { c with slots := tdel c.slots n })
    let ref := slotRef c.core p
    let r := rentOf s ref
    if r.team != c.team || (r.state != 1 && r.state != 2) then s
    else
      let back := if r.state = 1 then rate r * (r.paid - now s (refDie ref)) + r.escrow else 0
      poke (reclaim (refund s c.vd back) ref)

/-- SLCLAIM or SLREL performs, 4 ticks after its start. -/
def performSlot (s : State) (core id : Nat) : State :=
  match running s core 0 id with
  | none => s
  | some k =>
    match k.ins, unitOf s k.uid with
    | .slrel _ n, some c => returnSlot s c n.toNat
    | .slclaim _ _ n, some c =>
      let cnt := n.toNat
      let t := now s (dieOfCore core)
      let logical := ((List.range 32).filter (fun i => (physSlot c i).isNone)).take cnt
      let phys := (freeSlots s core).take cnt
      let until_ := c.grantUntil
      let cost := cnt * 32768 * 256 * (until_ - t)
      if logical.length < cnt || phys.length < cnt then engineFault s k false ⟨cSLOT, n.setWidth 64, 6, false⟩
      else if never < cost then engineFault s k false ⟨cPOOL, n.setWidth 64, BitVec.ofNat 64 (0x100 + rOVER), false⟩
      else match charge s c.vd cost with
        | none => engineFault s k false ⟨cPOOL, n.setWidth 64, BitVec.ofNat 64 (0x100 + rALLOW), false⟩
        | some s =>
          let s := (logical.zip phys).foldl (fun s p => takeSlot s c p.1 p.2 until_) s
          let mask := logical.foldl (fun m i => m + 2 ^ i) 0
          modUnit s c.uid (fun c => wrPhys c (nth k.names 0) (BitVec.ofNat 64 mask))
    | _, _ => s

end Sys2Proof.Machine
end

