-- ==== Sys2Proof/Machine/Xfer.lean ====
section
/-!
DEFINITION. XLD and XST (R324 to R328, R103, R333, Table 4.10): delivery, start, words read and performed, counting on the
named word, truncation.
-/
set_option linter.unusedVariables false
namespace Sys2Proof.Machine
open Sys2Proof

/-! ## Landing, counting and truncation shared with copies and exchange -/

/-- An engine's bytes land in a space: as a store does, with the poison they carry (R115, R194). -/
def landBytes (s : State) (space off : Nat) (bs : List Byte) (ps : List Nat) (t : Nat) : State :=
  let s := storeSpace s space off bs t none
  { s with memPoison := s.memPoison ++ ps.map (fun p => (space, off + p)) }

/-- Counts landed bytes on a named word (R326, R332): at once in a scratchpad, 20 ticks later in synchronisation space. -/
def countNamed (s : State) (c : Ctx) (a n : Nat) : State :=
  if a = 0 then s
  else
    let w := BitVec.ofNat 64 a
    match translate s c (windowFor c w) w with
    | .error _ => s
    | .ok p =>
      if p.win = 5 then schedC s c (tickOf s c + 20) 12 (.eff (.count c.uid a n))
      else countWord s p.space p.off n (tickOf s c)

/-- The count of a word in synchronisation space, 20 ticks after the bytes landed. -/
def performCount (s : State) (uid a n : Nat) : State :=
  match unitOf s uid with
  | none => s
  | some c =>
    let w := BitVec.ofNat 64 a
    match translate s c (windowFor c w) w with
    | .error _ => s
    | .ok p => countWord s p.space p.off n (tickOf s c)

/-- Check 1 of R162 on n bytes of the own scratchpad: ADDRESS at the first byte that is not in its window. -/
def ownWindow (c : Ctx) (a : Word) (n : Nat) : Res Unit :=
  let past := fun (off : Nat) => if 2 ^ 22 < off + n then flt cADDRESS (a + BitVec.ofNat 64 (2 ^ 22 - off)) else (.ok () : Res Unit)
  match windowFor c a with
  | .spad _ off => past off
  | .gallery k off => if k = c.lcore then past off else flt cADDRESS a
  | _ => flt cADDRESS a

/-- Check 3 of R162 on an address of the scratchpad window. -/
def ownCore (c : Ctx) (a : Word) : Res Unit :=
  match windowFor c a with
  | .spad k _ => if k = c.lcore then .ok () else flt cWRONGCORE a
  | _ => .ok ()

/-- A named word (R326, R330, R338): none for s0, else a 16-aligned word in the own scratchpad or synchronisation space. -/
def namedWord (s : State) (c : Ctx) (r : Reg) : Res Nat :=
  if r = 0 then .ok 0
  else
    let a := rdS c r.toNat
    match windowFor c a with
    | .sync _ _ => if a.toNat % 16 != 0 then flt cALIGN a else .ok a.toNat
    | .spad k _ => if a.toNat % 16 != 0 then flt cALIGN a else if k != c.lcore then flt cWRONGCORE a else .ok a.toNat
    | .gallery k _ => if k != c.lcore then flt cADDRESS a else if a.toNat % 16 != 0 then flt cALIGN a else .ok a.toNat
    | _ => flt cADDRESS a

/-! ## Delivery (R325) -/

/-- The first run that is misaligned, or whose bytes are no multiple of 32. -/
def runMisaligned (g : BitVec 384) : Option Word :=
  let b := gBase g
  if b.toNat % 32 != 0 || (runOf g).getD 0 % 32 != 0 then some b
  else if 1 < gExt1 g && gStride1 g % 32 != 0 then some (b + BitVec.ofInt 64 (gStride1 g))
  else if 1 < gExt2 g && gStride2 g % 32 != 0 then some (b + BitVec.ofInt 64 (gStride2 g))
  else none

/-- Addresses of the runs of a stream. -/
def runAddrs (g : BitVec 384) : List Word :=
  (List.range (gExt1 g * gExt2 g)).map (fun r =>
    gBase g + BitVec.ofInt 64 ((r % gExt1 g : Nat) * gStride1 g + (r / gExt1 g : Nat) * gStride2 g))

/-- Delivery of XLD and XST: names holds the byte offset of the register-store name; vals the word's address. Checks 1 to 3 of R162
are made on every byte, the window's first. -/
def xferPrep (f : XferF) (s : State) (c : Ctx) : Res Cmd := do
  let g := streamReg c f.stream.toNat
  let b := streamBytes g
  if gUnset g || (runOf g).isNone || 2 ^ 24 ≤ b then fltOpen cILLEGAL
  else
    let rb := (runOf g).getD 0
    ((gBase g :: runAddrs g).foldlM (fun (_ : Unit) a => ownWindow c a rb) () : Res Unit)
    (match runMisaligned g with | some a => flt cALIGN a | none => (.ok () : Res Unit))
    ((runAddrs g).foldlM (fun (_ : Unit) a => ownCore c a) () : Res Unit)
    let (off, span) ← (match f.kind.toNat with
      | 0 => do let o ← vecPlace c f.num.toNat; .ok (o, 256)
      | 1 => do let (v, o) ← placeOf c 2 f.num.toNat; .ok (o, vRows v * vPitch v)
      | 2 => do let (v, o) ← placeOf c 3 f.num.toNat; .ok (o, vRows v * vPitch v)
      | 3 => .ok (f.off.toNat * 32, 32768 - f.off.toNat * 32)
      | _ => .ok (0, if b % 256 = 0 then 2048 else 0) : Res (Nat × Nat))
    if span < b then fltOpen cILLEGAL
    else
      let w ← namedWord s c f.wreg
      .ok { (default : Cmd) with
        streams := [g], names := [off], vals := [BitVec.ofNat 64 w], live := b / 32 }

def execXld (t : Timing) (f : XferF) (s : State) : Out := deliver [0] (.xld t f) (xferPrep f) s
def execXst (t : Timing) (f : XferF) (s : State) : Out := deliver [0] (.xst t f) (xferPrep f) s

/-! ## Start and words (R326, R327) -/

/-- An operand queue has room for all the entries that are still to come (R103, R327). -/
def xferRoom (s : State) (f : XferF) (k : Cmd) : Bool :=
  match unitOf s k.uid with
  | none => true
  | some c =>
    f.kind != 4 || (let es := (tget c.oqs f.num.toNat).getD []
      let part := match es.getLast? with | some e => e.length % 256 | none => 0
      es.length + ceilDiv ((k.live - k.landed) * 32 - (if part = 0 then 0 else 256 - part)) 256 ≤ 8)

/-- The checks of a start over every run (R327): the first failing one in the order of R162. -/
def xferCheck (s : State) (c : Ctx) (g : BitVec 384) (acc : Access) : Res Unit :=
  let rb := (runOf g).getD 32
  let errs := (runAddrs g).flatMap (fun a => (pieces (rb / 4096 + 2) a.toNat rb).filterMap (fun p =>
    match checkPiece s c (BitVec.ofNat 64 p.1) p.2 acc with
    | .error e => some e
    | .ok _ => none))
  match errs with
  | [] => .ok ()
  | e :: r => .error (r.foldl (fun b x => if x.1 < b.1 then x else b) e).2

/-- Goes on from the first word not performed, at tick t (R328); the words' ticks are as sample says. -/
def xferGo (s : State) (f : XferF) (k : Cmd) (q t : Nat) : State :=
  let k := { k with start := some t, counted := k.landed }
  let s := putCmd s k.core q k
  if k.live ≤ k.landed then completeAt s k q (t + 1) else microAt s k q (max t (wordTick f k k.counted))

/-- XLD (load) or XST starts. -/
def xferStart (s : State) (c : Ctx) (load : Bool) (f : XferF) (k : Cmd) (t : Nat) : Res State := do
  xferCheck s c (k.streams.getD 0 0) (if load then .load else .store)
  if load && f.kind = 3 then
    match physSlot c f.num.toNat with
    | none => flt cSLOT (f.num.setWidth 64) 1
    | some p =>
      if (liveEntries (coreOf s c.core)).any (fun e => e.2.slot == p) then flt cSLOT (f.num.setWidth 64) 2
      else .ok (xferGo s f { k with landed := 0, acc := [p], sample := [t, 0] } 2 t)
  else .ok (xferGo s f { k with landed := 0, sample := [t, 0] } (if load then 2 else 3) t)

/-- A word is cut: the record, and the command's end at tick e (R327, R333). -/
def xferCut (s : State) (c : Ctx) (load : Bool) (f : XferF) (k : Cmd) (kind j t e : Nat) (lessor : Option Nat) : State :=
  let unit := if load then 0xF0 else 0xF1
  let s := truncBoth s k.uid k.seq f.tag.toNat kind unit unit (j * 32) t (wordAddr (k.streams.getD 0 0) j) lessor
  let q := if load then 2 else 3
  completeAt (putCmd s k.core q { k with live := j }) k q e

/-- The effect of word j of an XLD whose bytes are bs. -/
def loadWordEff (c : Ctx) (f : XferF) (k : Cmd) (j : Nat) (bs : List Byte) (ps : List Nat) : Eff :=
  match f.kind.toNat with
  | 3 => .alcove k.core (nth k.acc 0 * 32768 + nth k.names 0 + 32 * j) bs ps
  | 4 => .oqEntry c.uid f.num.toNat bs (ps.map (fun w => (wordAddr (k.streams.getD 0 0) j).toNat + w))
  | _ => .bank c.uid (nth k.names 0 + 32 * j) bs ps

/-- Reads the words due at tick t: n of them from j on; each performs 21 ticks after its own read tick (R109, R117). -/
def xferReads (c : Ctx) (load : Bool) (f : XferF) (t : Nat) : Nat → Nat → State → Cmd → State × Cmd × Option (Nat × Option Nat) × Option Trap
  | 0, _, s, k => (s, k, none, none)
  | n + 1, j, s, k =>
    let a := wordAddr (k.streams.getD 0 0) j
    let place : Option Place := match translate s c (windowFor c a) a with | .ok p => some p | .error _ => none
    let k' := { k with counted := j + 1 }
    if load then
      match place with
      | none => (s, k, some (j, none), none)
      | some p =>
        match rights s c p with
        | some w => (s, k, some (j, lessorOf s c p w), none)
        | none =>
          match checkEarly s c p a 32 with
          | .error e => (s, k, none, some e)
          | .ok _ => xferReads c load f t n (j + 1) (schedCmd s k (wordTick f k j + 21) 8 (loadWordEff c f k j (readNow s p 32) (poisonIn s p 32))) k'
    else
      let off := nth k.names 0 + 32 * j
      match checkBank s c k.id off 32 with
      | .error e => (s, k, none, some e)
      | .ok _ =>
        let ps := (c.bankPoison.filter (fun w => off ≤ w && w < off + 32)).map (fun w => w - off)
        let p := place.getD default
        xferReads c load f t n (j + 1) (schedCmd s k (wordTick f k j + 21) 10 (.write c.uid p.space p.off (bankRead c off 32) ps)) k'

/-- The command as a stop leaves it (R328): it goes on from the first word not performed. -/
def xferStopped (k : Cmd) : Cmd := { k with start := none, counted := k.landed }

/-- Words of a running XLD or XST that are due to be read at tick t. -/
def wordsDue (f : XferF) (k : Cmd) (t : Nat) : Nat :=
  let due := if t < nth k.sample 0 then 0
    else if f.pace = 0 then (t - nth k.sample 0 + 1) * 16 else (t - nth k.sample 0) / f.pace.toNat + 1
  min (nth k.sample 1 + due) k.live - k.counted

/-- A read tick of a running XLD or XST. -/
def xferStep (s : State) (load : Bool) (f : XferF) (k : Cmd) (t : Nat) : State :=
  match unitOf s k.uid with
  | none => s
  | some c =>
    let q := if load then 2 else 3
    match xferReads c load f t (wordsDue f k t) k.counted s k with
    | (s, k, _, some e) => engineFault (dropOwned s [k.id]) (xferStopped k) true e
    | (s, k', some (j, lessor), none) =>
      let e := if j ≤ k.landed then t else max t (wordTick f k (j - 1) + 21)
      xferCut s c load f k' 2 j t e lessor
    | (s, k, none, none) =>
      let s := putCmd s k.core q k
      if k.counted < k.live then microAt s k q (max (t + 1) (wordTick f k k.counted)) else completeAt s k q (max (t + 1) (wordTick f k (k.live - 1) + 21))

/-- A word of a running XLD or XST performs if its destination still has rights (R327); answers whether it lands. -/
def xferLands (s : State) (core id : Nat) (e : Eff) : Bool × State :=
  let one := fun (load : Bool) (f : XferF) (k : Cmd) (q : Nat) => match unitOf s k.uid with
    | none => (true, s)
    | some c =>
      let why : Option (Nat × Option Nat) := match e with
        | .write _ sp off _ _ => (match refOfSpace s sp with
          | none => some (1, none)
          | some r =>
            let p : Place := ⟨sp, off, r, 2, 1, 0, 0, false⟩
            (rights s c p).map (fun w => (w, lessorOf s c p w)))
        | .alcove _ _ _ _ => (slotRights s c (nth k.acc 0)).map (fun w => (w, none))
        | _ => none
      match why with
      | none =>
        let s := putCmd s core q { k with landed := k.landed + 1 }
        (true, countNamed s c (k.vals.getD 0 0).toNat 32)
      | some (_, lessor) =>
        let t := now s (dieOfCore core)
        (false, xferCut (dropOwned s [id]) c load f k 1 k.landed t t lessor)
  match running s core 2 id, running s core 3 id with
  | some k, _ => (match k.ins with | .xld _ f => one true f k 2 | _ => (true, s))
  | none, some k => (match k.ins with | .xst _ f => one false f k 3 | _ => (true, s))
  | none, none => (true, s)

/-- Bytes of an operand-queue word arrive: the last entry of the queue fills up (R326). -/
def performOq (s : State) (uid q : Nat) (bs : List Byte) (ps : List Nat) : State :=
  modUnit s uid (fun c =>
    let es := (tget c.oqs q).getD []
    let xs := (tget c.oqPoison q).getD []
    match es.getLast? with
    | some e =>
      if e.length % 256 != 0 then { c with
        oqs := tset c.oqs q (es.dropLast ++ [e ++ bs]), oqPoison := tset c.oqPoison q (xs.dropLast ++ [xs.getLastD [] ++ ps]) }
      else { c with oqs := tset c.oqs q (es ++ [bs]), oqPoison := tset c.oqPoison q (xs ++ [ps]) }
    | none => { c with oqs := tset c.oqs q [bs], oqPoison := tset c.oqPoison q [ps] })

end Sys2Proof.Machine
end

