-- ==== Sys2Proof/Machine/Resume.lean ====
section
/-!
DEFINITION. RESUME, ESAVE and ELOAD on the four queues (R116, R117, R310, R311, R323, R328, R351) and the images of engine
state (log entry 32). Their occupancies are open (log entry 7).
-/
set_option linter.unusedVariables false
namespace Sys2Proof.Machine
open Sys2Proof

/-- Bytes of a queue's image. -/
def imageLen (q : Nat) : Nat := match q with | 0 => 256 | 1 => 512 | _ => 128

/-- A stopped command with its counters as the stop left them. -/
def stoppedCmd (e : EngState) : Cmd :=
  match e.cmd.ins with
  | .mmul _ _ | .mgrad _ _ | .mgdrain _ _ | .mres _ _ => rowsStopped e.cmd e.tick
  | .lnest _ f => nestStopped f e.cmd e.tick
  | .xld _ _ | .xst _ _ => xferStopped e.cmd
  | .sortc _ _ => { e.cmd with start := none, names := [e.cmd.start.getD e.cmd.due] }
  | _ => { e.cmd with start := none }

/-- The header that ESAVE writes where no command is held (R310). -/
def emptyImage (q : Nat) : List Byte :=
  let body := bytesOfNat 4 (imageLen q) ++ List.replicate 56 0
  let sum := (chunks 2 (body.length / 2) body).foldl (fun n h => n + natOfBytes h) 0
  [BitVec.ofNat 8 q, 0] ++ bytesOfNat 2 sum ++ body

/-- The partial reduction, one 32-bit value per lane: the value reduced so far in every lane, in pairs of lanes for 64-bit types (R311;
log entry 32). -/
def lanesOf (ty acc : Nat) : List Byte :=
  if tyBits ty = 64 then (List.replicate 32 (bytesOfNat 8 acc)).flatten else (List.replicate 64 (bytesOfNat 4 acc)).flatten

/-- The type a stopped VQ command computes in. -/
def nestType (i : Instr) : Nat := match i with | .lnest _ f => f.ty.toNat | _ => 0

/-- The body of an image, from byte 64 on. -/
def imageBody (q : Nat) (e : EngState) : List Byte :=
  let k := stoppedCmd e
  let pad := fun (l : List Byte) => l ++ List.replicate (imageLen q - 64 - l.length) 0
  let view := fun (v : BitVec 128) => bytesOfNat 16 v.toNat
  match q with
  | 0 =>
    let dst := match k.ins with | .mres _ _ => k.views.getD 1 0 | _ => k.views.getD 0 0
    pad (bytesOfNat 2 k.landed ++ bytesOfNat 4 0 ++ bytesOfNat 2 e.snap ++ bytesOfNat 8 k.live ++ view dst
      ++ bytesOfNat 48 (k.streams.getD 0 0).toNat)
  | 1 =>
    let f := match k.ins with | .lnest _ f => nestRate f.ty.toNat | _ => 1
    let order := match k.ins with | .lnest _ _ => [1, 2, 3, 0] | _ => [0, 1, 2, 3]
    pad ((nestIndex k k.landed).flatMap (bytesOfNat 4) ++ bytesOfNat 4 (k.landed / f)
      ++ order.flatMap (fun i => bytesOfNat 42 (k.streams.getD i 0).toNat) ++ lanesOf (nestType k.ins) (k.acc.headD 0))
  | _ => pad (bytesOfNat 8 (k.landed * 32) ++ bytesOfNat 8 (if k.vals.getD 0 0 = 0 then 0 else k.landed * 32)
      ++ bytesOfNat 48 (k.streams.getD 0 0).toNat)

/-- An image of a stopped command (R311). -/
def imageOf (q : Nat) (e : EngState) : List Byte :=
  let rest := bytesOfNat 4 (imageLen q) ++ bytesOfNat 8 e.tick ++ List.replicate 16 0
    ++ bytesOfWords (encode e.cmd.ins) ++ imageBody q e
  let sum := (chunks 2 (rest.length / 2) rest).foldl (fun n h => n + natOfBytes h) 0
  [BitVec.ofNat 8 q, 1] ++ bytesOfNat 2 sum ++ rest

/-- The header of an image is one that ELOAD accepts for a queue (R310). -/
def imageOk (q : Nat) (b : List Byte) : Bool :=
  let sum := (chunks 2 ((b.length - 4) / 2) (b.drop 4)).foldl (fun n h => n + natOfBytes h) 0
  b.getD 1 0 == 1 && b.getD 0 0 == BitVec.ofNat 8 q && natOfBytes ((b.drop 2).take 2) == sum % 65536
    && natOfBytes ((b.drop 4).take 4) == imageLen q

/-- Free miss bits of rows an image says nothing of (log entry 32). -/
def freeMisses (s : State) (n : Nat) : List Nat := (List.range n).filter (fun i => Config.freeBit (s.free + i))

/-- The stopped command of an image: what the image does not hold is read again where it stands (log entry 32). -/
def cmdOfImage (s : State) (c : Ctx) (q : Nat) (pc : Word) (b : List Byte) : Option Cmd :=
  let at_ := fun (o n : Nat) => natOfBytes ((b.drop o).take n)
  match decode (wordsOfBytes ((b.drop 32).take 32)) with
  | .error _ => none
  | .ok i =>
    let base : Cmd := { (default : Cmd) with uid := c.uid, core := c.core, pc := pc, ins := i }
    let view := BitVec.ofNat 128 (at_ 80 16)
    let place := fun (v : BitVec 128) (n : Nat) => vBase v + (n - vFirst v) * vStride v
    let gm := BitVec.ofNat 384 (at_ 96 48)
    let rows : Cmd := { base with landed := at_ 64 2, live := at_ 72 8, acc := [0], sample := freeMisses s (at_ 64 2) }
    match i, q with
    | .mmul _ f, 0 => some { rows with views := [view], streams := [gm], names := mulNames c f (place view f.dst.toNat) }
    | .mgrad _ f, 0 => some { rows with streams := [gm], names := mulNames c f 0 }
    | .mgdrain _ f, 0 => some { rows with views := [view], names := [0, place view f.dst.toNat] }
    | .mres _ f, 0 =>
      (match placeName c 3 f.src.toNat with
        | some (v, o) => some { rows with views := [v, view], names := [rot c f.rows.toNat, o, place view f.num.toNat] }
        | none => none)
    | .lnest _ f, 1 =>
      let k := { base with
        streams := [3, 0, 1, 2].map (fun j => BitVec.ofNat 384 (at_ (88 + 42 * j) 42)), sample := nestTable (bankRead c f.nest.toNat 128) }
      let ix := (List.range 5).map (fun l => at_ (64 + 4 * l) 4)
      let n := ((List.range 5).reverse).foldl (fun n l => n * nestExt k l + nth ix l) 0
      some { k with landed := n, acc := [at_ 256 (if tyBits f.ty.toNat = 64 then 8 else 4)] }
    | .sortc _ f, 1 =>
      some { base with streams := (List.range 4).map (fun j => BitVec.ofNat 384 (at_ (88 + 42 * j) 42)), vals := [rdS c f.rows.toNat] }
    | .xld _ f, 2 | .xst _ f, 3 =>
      let g := BitVec.ofNat 384 (at_ 80 48)
      let off := match f.kind.toNat with
        | 0 => (placeName c 1 (rot c f.num.toNat)).map Prod.snd
        | 1 => (placeName c 2 f.num.toNat).map Prod.snd
        | 2 => (placeName c 3 f.num.toNat).map Prod.snd
        | 3 => some (f.off.toNat * 32)
        | _ => some 0
      (match off with
        | some o => some { base with
            streams := [g], names := [o], vals := [if f.wreg = 0 then 0 else rdS c f.wreg.toNat], live := streamBytes g / 32
            landed := at_ 64 8 / 32, counted := at_ 64 8 / 32 }
        | none => none)
    | _, _ => none

/-! ## The commands -/

def execResume (t : Timing) (q : EngQ) (s : State) : Out := deliver [0] (.resume t q) (fun _ _ => .ok default) s

/-- An image that would reach 0x8_0000 raises ADDRESS at delivery (R310). -/
def imagePrep (q : EngQ) (img : BitVec 19) (s : State) (c : Ctx) : Res Cmd :=
  if 0x80000 < img.toNat + imageLen q.code then flt cADDRESS (img.setWidth 64) else .ok default

def execEsave (t : Timing) (q : EngQ) (img : BitVec 19) (s : State) : Out := deliver [0] (.esave t q img) (imagePrep q img) s
def execEload (t : Timing) (q : EngQ) (img : BitVec 19) (s : State) : Out := deliver [0] (.eload t q img) (imagePrep q img) s

/-- The phase of a queue's writes (R174, R285): MQ, LQ, VQ, SQ. -/
def queuePhase (q : Nat) : Nat := match q with | 0 => 7 | 1 => 9 | 2 => 8 | _ => 10

/-- ESAVE starts: the image is that of the state now held; it performs and the entry completes after a time the device
leaves open. -/
def esaveStart (s : State) (c : Ctx) (q img : Nat) (k : Cmd) (t : Nat) : State :=
  let bs := match tget c.saved q with
    | some e => imageOf q e
    | none => emptyImage q
  let (d, s) := openTicks s
  let k := { k with start := some t }
  completeAt (schedCmd (putCmd s k.core q k) k (t + 1 + d) (queuePhase q) (.bank c.uid img bs [])) k q (t + 1 + d)

/-- ELOAD starts: it takes the image at once. -/
def eloadStart (s : State) (c : Ctx) (q img : Nat) (k : Cmd) (t : Nat) : Res State := do
  checkBank s c k.id img (imageLen q)
  let bs := bankRead c img (imageLen q)
  if !imageOk q bs then fltOpen cILLEGAL
  else match cmdOfImage s c q k.pc bs with
    | none => fltOpen cILLEGAL
    | some m =>
      let e : EngState := ⟨natOfBytes ((bs.drop 8).take 8), { m with id := k.id }, if q = 0 then natOfBytes ((bs.drop 70).take 2) else 0⟩
      let (d, s) := openTicks { s with free := s.free + 128 }
      let s := modUnit s c.uid (fun c => { c with saved := tset c.saved q e })
      let k := { k with start := some t }
      .ok (completeAt (putCmd s k.core q k) k q (t + 1 + d))

/-- The command RESUME re-enters, in RESUME's place on the queue (R117): its timing and its pushes are RESUME's as well. -/
def resumed (q : Nat) (k : Cmd) (e : EngState) : Cmd :=
  { stoppedCmd e with
    id := k.id, uid := k.uid, core := k.core, deliver := k.deliver, timed := k.timed, due := k.due, start := none
    pushes := e.cmd.pushes ++ pushFifos q k.ins }

end Sys2Proof.Machine
end

