-- ==== Sys2Proof/Machine/Exchange.lean ====
section
/-!
DEFINITION. Landings of copies and sends in a scratchpad (Table 5.8), and the gallery exchange (R338, R339, Table 15.13).
-/
set_option linter.unusedVariables false
namespace Sys2Proof.Machine
open Sys2Proof

/-! ## Landing in a scratchpad (R115, R332, Table 5.8) -/

/-- The declared buffer of a unit that a range of its scratchpad meets. -/
def bufAt (u : Ctx) (off n : Nat) : Option (Nat × Buf) := u.bufs.find? (fun e => e.2.declared && meets e.2.base e.2.length off n)

/-- n bytes land at an offset of a unit's scratchpad, at a place with rights: they are written and counted on the buffer's
word and on the named word of the issuer, once where the two are one word; a FULL or DRAINING buffer refuses them; a frozen
word's landings are dropped. -/
def landPad (s : State) (u : Ctx) (off : Nat) (p : Place) (bs : List Byte) (ps : List Nat) (issuer : Ctx) (named : Nat) : Option State :=
  let t := tickOf s u
  match bufAt u off bs.length with
  | none => some (countNamed (landBytes s p.space p.off bs ps t) issuer named bs.length)
  | some (i, b) =>
    let w := spadPlace s u b.wordOff 2
    if (wordAt s w.space w.off).frozen then some s
    else if 2 ≤ b.state then none
    else
      let s := landBytes s p.space p.off bs ps t
      let s := modUnit s u.uid (fun u => { u with bufs := tset u.bufs i { b with state := 1 } })
      let s := countWord s w.space w.off bs.length t
      some (if named != 0 && sameSpot s issuer named w.space w.off then s else countNamed s issuer named bs.length)

/-! ## XSEND and XRECV -/

/-- Delivery of XSEND and XRECV: vals holds the address, the length and the word's address. -/
def exchPrep (f : ExchF) (send : Bool) (s : State) (c : Ctx) : Res Cmd := do
  let n := rdS c f.len.toNat
  let a := rdS c f.addr.toNat
  if n.toNat % 32 != 0 then flt cALIGN n
  else if n.toNat < 32 || 2 ^ 22 < n.toNat then flt cILLEGAL n
  else
    ownWindow c a n.toNat
    (if a.toNat % 32 != 0 then flt cALIGN a else ownCore c a : Res Unit)
    if c.teamSize ≤ f.core.toNat then flt cADDRESS (f.core.setWidth 64)
    else
      let w ← namedWord s c f.wreg
      .ok { (default : Cmd) with vals := [a, n, BitVec.ofNat 64 w], live := n.toNat / 32, outbound := send }

def execXsend (t : Timing) (f : ExchF) (s : State) : Out := deliver [20] (.xsend t f) (exchPrep f true) s
def execXrecv (t : Timing) (f : ExchF) (s : State) : Out := deliver [20] (.xrecv t f) (exchPrep f false) s

/-- ctx.tval of TIMING: the channel and the core in bits 10:8 (Table 15.13). -/
def timingVal (f : ExchF) : Word := BitVec.ofNat 64 (f.core.toNat * 256 + f.ch.toNat)

/-- XRECV starts: it posts its channel. -/
def xrecvStart (s : State) (c : Ctx) (f : ExchF) (k : Cmd) (t : Nat) : Res State := do
  let a := k.vals.getD 0 0
  let n := (k.vals.getD 1 0).toNat
  if (tget c.chans f.ch.toNat).isSome then flt cTIMING (timingVal f) 3
  else
    checkRange s c a n .none
    let s := modUnit s c.uid (fun c => { c with
      chans := tset c.chans f.ch.toNat ⟨k.id, f.core.toNat, a.toNat, n, (k.vals.getD 2 0).toNat, 0⟩ })
    .ok (completeAt (putCmd s k.core 5 { k with start := some t }) k 5 (t + 1))

/-- XSEND starts: the receiver's channel is looked up (R339). -/
def xsendStart (s : State) (c : Ctx) (f : ExchF) (k : Cmd) (t : Nat) : Res State := do
  let a := k.vals.getD 0 0
  let n := (k.vals.getD 1 0).toNat
  checkRange s c a n .load
  match (teamMate s c f.core.toNat).bind (fun u => (tget u.chans f.ch.toNat).map (fun h => (u, h))) with
  | none => flt cTIMING (timingVal f) 1
  | some (u, h) =>
    if h.sender != c.lcore then flt cTIMING (timingVal f) 1
    else if h.length != n then flt cTIMING (timingVal f) 2
    else
      let k := { k with start := some t, acc := [u.uid], counted := 0 }
      .ok (microAt (putCmd s k.core 5 k) k 5 t)

/-- The receive on a channel ends: the channel is free. -/
def endReceive (s : State) (u ch : Nat) : State := modUnit s u (fun c => { c with chans := tdel c.chans ch })

/-- A send is cut at word j as it lands: its record, and the receive ends (R339, Table 4.10); a send that still reads its words
leaves the queue. -/
def sendCut (s : State) (k : Cmd) (f : ExchF) (rx kind j t : Nat) (addr : Word) (lessor : Option Nat) : State :=
  let s := truncBoth (dropOwned s [k.id]) k.uid k.seq f.tag.toNat kind 0xF2 0xF2 (j * 32) t addr lessor
  let s := endReceive s rx f.ch.toNat
  match running s k.core 5 k.id with
  | some m => completeAt (putCmd s k.core 5 { m with live := j, counted := j }) m 5 t
  | none => s

/-- The source of a send had lapsed at word j: the record, and the end of the receive, come when the word would have landed (R333, R339;
log entry 118). -/
def sendShort (s : State) (k : Cmd) (rx ch j : Nat) (lessor : Option Nat) : State :=
  match k.ins, unitOf s rx with
  | .xsend _ f, some u =>
    let dst := match tget u.chans ch with | some h => h.dst | none => 0
    endReceive (truncBoth s k.uid k.seq f.tag.toNat 2 0xF2 0xF2 (j * 32) (tickOf s u) (BitVec.ofNat 64 (dst + 32 * j)) lessor) rx ch
  | _, _ => s

/-- A read tick of a running XSEND: 4 words, which land 13 ticks on (R339). A source that has lapsed cuts it. -/
def xsendStep (s : State) (f : ExchF) (k : Cmd) (t : Nat) : State :=
  match unitOf s k.uid with
  | none => s
  | some c =>
    let rx := nth k.acc 0
    let js := (List.range (min 4 (k.live - k.counted))).map (fun i => k.counted + i)
    let r : Except (State × Nat × Option (Option Nat × Place) × Option Trap) State := js.foldlM (fun (s : State) j =>
      let a := k.vals.getD 0 0 + BitVec.ofNat 64 (32 * j)
      match translate s c (windowFor c a) a with
      | .error _ => .error (s, j, some (none, default), none)
      | .ok p =>
        match rights s c p with
        | some w => .error (s, j, some (lessorOf s c p w, p), none)
        | none =>
          match checkEarly s c p a 32 with
          | .error e => .error (s, j, none, some e)
          | .ok _ => .ok (schedCmd s k (t + 13) 6 (.xword k rx f.ch.toNat j (readNow s p 32) (poisonIn s p 32)))) s
    match r with
    | .error (s, _, none, some e) => engineFault s k false e
    | .error (s, j, x, _) =>
      let lessor := match x with | some (l, _) => l | none => none
      let s := schedCmd s k (t + 13) 6 (.xword k rx f.ch.toNat j [] (match lessor with | some o => [o] | none => []))
      completeAt (putCmd s k.core 5 { k with live := j, counted := j }) k 5 t
    | .ok s =>
      let k := { k with counted := k.counted + js.length }
      let s := putCmd s k.core 5 k
      if k.counted < k.live then microAt s k 5 (t + 1) else completeAt s k 5 (t + 1)

/-- A word of a send lands at its receiver (R339), one without bytes standing for the cut of its source: counted, dropped without rights, and the receive ends with the last. -/
def performXword (s : State) (k : Cmd) (rx ch j : Nat) (bs : List Byte) (ps : List Nat) : State :=
  if bs.isEmpty then sendShort s k rx ch j ps.head? else
  match k.ins, unitOf s rx with
  | .xsend _ f, some u =>
    match tget u.chans ch with
    | none => s
    | some h =>
      let a := BitVec.ofNat 64 (h.dst + 32 * j)
      let t := tickOf s u
      match translate s u (windowFor u a) a, padOf s u a with
      | .ok p, some (_, off) =>
        (match rights s u p with
        | some w => sendCut s k f rx 1 j t a (lessorOf s u p w)
        | none =>
          match landPad s u off p bs ps u h.word with
          | none => sendCut s k f rx 4 j t a none
          | some s =>
            let s := modUnit s rx (fun u => { u with chans := tmod u.chans ch default (fun h => { h with landed := h.landed + 32 }) })
            if h.length ≤ h.landed + 32 then endReceive s rx ch else s)
      | _, _ => sendCut s k f rx 1 j t a none
  | _, _ => s

end Sys2Proof.Machine
end

