-- ==== Sys2Proof/Machine/Copy.lean ====
section
/-!
DEFINITION. Copy engines (R329 to R337, R18, R21, R44, R56): delivery and layout records, start, words read and landed,
truncation, packets of remote copies, CKPT and LRFLUSH.
-/
set_option linter.unusedVariables false
namespace Sys2Proof.Machine
open Sys2Proof

/-! ## Issuers -/

/-- The context a command of the newel acts as: principal 0 of a virtual device, at a die (R44, R56). -/
def sysCtx (vd die : Nat) : Ctx := { Ctx.reset with vd := vd, core := die * 128, teamSize := 1 }

/-- The context a copy acts for: its unit, or principal 0 of the device a newel command names. -/
def issuer (s : State) (eng : Nat) (k : Cmd) : Option Ctx :=
  if k.uid = 0 then some (sysCtx (nth k.sample 0) (eng / 4)) else unitOf s k.uid

/-- A copy that the newel issues for a device (R44, R56). -/
def newelCopy (vd : Nat) (k : Cmd) : Bool := k.uid == 0 && nth k.sample 0 == vd

/-- Tick of a copy engine. -/
def engTick (s : State) (eng : Nat) : Nat := now s (eng / 4)

/-- Every command a copy engine has started. -/
def engRunning (e : CopyEng) : List Cmd := e.mainPath.toList ++ e.paused.toList ++ e.channels

/-- A started command of an engine. -/
def engCmd (s : State) (eng id : Nat) : Option Cmd := (engRunning (engOf s eng)).find? (fun k => k.id == id)

/-- Puts a started command back. -/
def putEng (s : State) (eng : Nat) (k : Cmd) : State :=
  let f := fun (m : Cmd) => if m.id = k.id then k else m
  modEng s eng (fun e => { e with mainPath := e.mainPath.map f, paused := e.paused.map f, channels := e.channels.map f })

/-- Schedules an event of a copy engine. -/
def schedEng (s : State) (eng tick phase id : Nat) (a : Act) : State := sched s (eng / 4) tick phase 0 id a

/-! ## Delivery (R330, R334, R336) -/

/-- Checks 1 to 3 of R162 on an endpoint of n bytes (R330), a remote one in the global window; a byte past its window is ADDRESS at the
first such. -/
def endpoint (c : Ctx) (a : Word) (n : Nat) (remote : Bool) (align : Nat) : Res Unit :=
  let past := fun (off top : Nat) => if top < off + n then flt cADDRESS (a + BitVec.ofNat 64 (top - off)) else (.ok () : Res Unit)
  let aligned : Res Unit := if a.toNat % align != 0 then flt cALIGN a else .ok ()
  match windowFor c a with
  | .global v => do past v (2 ^ 57); aligned
  | .spad k off => if remote then flt cADDRESS a else do
      past off (2 ^ 22)
      aligned
      if k != c.lcore then flt cWRONGCORE a else .ok ()
  | .gallery _ off => if remote then flt cADDRESS a else do past off (2 ^ 22); aligned
  | _ => flt cADDRESS a

/-- A destination that is the issuing core's own scratchpad is inbound (R337). -/
def outboundTo (c : Ctx) (a : Word) (remote : Bool) : Bool :=
  remote || (match windowFor c a with | .spad _ _ => false | .gallery k _ => k != c.lcore | _ => true)

def cpyPrep (f : CopyF) (s : State) (c : Ctx) : Res Cmd := do
  let n := rdS c f.len.toNat
  let d := rdS c f.dst.toNat
  let a := rdS c f.src.toNat
  if f.rsrc = 1 && f.rdst = 1 then fltOpen cADDRESS
  else if 2 ^ 32 ≤ n.toNat then flt cILLEGAL n
  else if n.toNat % 32 != 0 then flt cALIGN n
  else
    endpoint c d n.toNat (f.rdst = 1) 32
    endpoint c a n.toNat (f.rsrc = 1) 32
    let w ← namedWord s c f.wreg
    .ok { (default : Cmd) with
      vals := [d, a, n, BitVec.ofNat 64 w], live := n.toNat / 32, outbound := outboundTo c d (f.rdst = 1) }

/-- A layout record's address: 64-aligned in the global window (R334, R335). -/
def recordAt (c : Ctx) (a : Word) : Res Unit :=
  match windowFor c a with
  | .global _ => if a.toNat % 64 != 0 then flt cALIGN a else .ok ()
  | _ => flt cADDRESS a

def cpycPrep (f : CopyF) (s : State) (c : Ctx) : Res Cmd := do
  let d := rdS c f.dst.toNat
  let a := rdS c f.src.toNat
  if f.rsrc = 1 && f.rdst = 1 then fltOpen cADDRESS
  else
    recordAt c d
    recordAt c a
    let w ← namedWord s c f.wreg
    .ok { (default : Cmd) with vals := [d, a, 0, BitVec.ofNat 64 w], outbound := true }

/-- CKPT (R336): everything a multiple of 64 KiB, in the global window. -/
def ckptPrep (f : CopyF) (s : State) (c : Ctx) : Res Cmd := do
  let n := rdS c f.len.toNat
  let d := rdS c f.dst.toNat
  let a := rdS c f.src.toNat
  if n.toNat % 65536 != 0 then flt cALIGN n
  else
    for x in [d, a] do
      match windowFor c x with
      | .global _ => (endpoint c x n.toNat false 65536 : Res Unit)
      | _ => flt cADDRESS x
    let w ← namedWord s c f.wreg
    .ok { (default : Cmd) with vals := [d, a, n, BitVec.ofNat 64 w], outbound := true }

def execCpy (t : Timing) (f : CopyF) (s : State) : Out := deliver [22] (.cpy t f) (cpyPrep f) s
def execCpyc (t : Timing) (f : CopyF) (s : State) : Out := deliver [22] (.cpyc t f) (cpycPrep f) s
def execCkpt (t : Timing) (f : CopyF) (s : State) : Out := deliver [22] (.ckpt t f) (ckptPrep f) s

/-- LRFLUSH (R335). -/
def execLrflush (t : Timing) (r : Reg) (s : State) : Out :=
  deliver [22] (.lrflush t r) (fun _ c => do
    let a := rdS c r.toNat
    recordAt c a
    .ok { (default : Cmd) with vals := [a], outbound := true }) s

/-! ## Layout records (R334, R335) -/

/-- Errors and poison marks of record words that no cache holds any more go (R191; log entry 15). -/
def cleanRecords (s : State) : State :=
  let held := fun (die x : Nat) => (dieOf s die).records.any (fun e => e.1 ≤ x && x < e.1 + 192)
  { s with
    upsets := s.upsets.filter (fun u => u.1 < 2 ^ 100 || held ((u.1 - 2 ^ 100) / 2 ^ 90) ((u.1 - 2 ^ 100) % 2 ^ 90))
    memPoison := s.memPoison.filter (fun w => w.1 < 2 ^ 50 || 2 ^ 50 + 8 ≤ w.1 || held (w.1 - 2 ^ 50) w.2) }

/-- A record as a CPYC reads it: where it stands in the die's cache, each 32-byte word is the cached one or the one in
memory (R335); reading caches it. -/
def readRecord (s : State) (die : Nat) (p : Place) : List Byte × State :=
  let key := locOf p.space p.off
  let new := readNow s p 192
  match tget (dieOf s die).records key with
  | none => (new, cleanRecords (modDie s die (fun d => { d with records := tset ((d.records.take 255)) key new })))
  | some old =>
    let words := (List.range 6).flatMap (fun i =>
      if Config.freeBit (s.free + i) then (new.drop (32 * i)).take 32 else (old.drop (32 * i)).take 32)
    (words, { s with free := s.free + 6 })

/-- The fields of a record as ten numbers: base, run, extents and strides of levels 1 to 4 (Table 15.12). -/
def recordFields (b : List Byte) : List Nat :=
  let at_ := fun (o n : Nat) => natOfBytes ((b.drop o).take n)
  [at_ 0 8, at_ 16 4] ++ (List.range 4).map (fun i => at_ (20 + 4 * i) 4) ++ (List.range 4).map (fun i => at_ (40 + 8 * i) 8)

/-- Bytes a record describes. -/
def recordTotal (r : List Nat) : Nat := nth r 1 * nth r 2 * nth r 3 * nth r 4 * nth r 5

/-- What a record breaks that CPYC's start refuses (R334), but the totals. -/
def recordBad (b : List Byte) : Bool :=
  let r := recordFields b
  let rank := (b.getD 8 0).toNat
  let zero := fun (o n : Nat) => ((b.drop o).take n).all (· == 0)
  2 ^ 32 ≤ recordTotal r || rank < 1 || 5 < rank || !zero 10 6 || !zero 36 4 || !zero 72 120
    || nth r 1 % 32 != 0 || (List.range 4).any (fun i => nth r (2 + i) = 0 || (rank ≤ i + 1 && nth r (2 + i) != 1))
    || (List.range 4).any (fun i => nth r (6 + i) % 32 != 0)

/-- An unfinished LRFLUSH of a unit, delivered before a command (R335). -/
def flushBefore (s : State) (eng : Nat) (k : Cmd) : Bool :=
  let e := engOf s eng
  (e.buffer ++ engRunning e ++ (coreOf s k.core).pending).any (fun m => m.uid == k.uid && m.id < k.id &&
    (match m.ins with | .lrflush _ _ => true | _ => false))

/-- A delivered CPYC reads its records: source then destination; a failing check, or poison (prog 4: a CXL link answered with it), is a
fault at the command. Whether it is inbound is known from then on (R337). -/
def readRecords (s : State) (eng id : Nat) : State :=
  match (engOf s eng).buffer.find? (fun k => k.id == id) with
  | none => s
  | some k =>
    if !k.sample.isEmpty || flushBefore s eng k then s
    else match issuer s eng k with
      | none => s
      | some c =>
        let get := fun (s : State) (a : Word) => (do
          checkRange s c a 192 .none
          let p ← translate s c (windowFor c a) a
          checkPoison s p a 192
          checkPoison s { p with space := recordSpace (eng / 4), off := locOf p.space p.off } a 192
          (if k.prog = 4 then flt cUNCORR a else .ok () : Res Unit)
          .ok (readRecord s (eng / 4) p) : Res (List Byte × State))
        let r : Res (List Byte × List Byte × State) := do
          let (x, s) ← get s (k.vals.getD 1 0)
          let (y, s) ← get s (k.vals.getD 0 0)
          .ok (x, y, s)
        match r with
        | .error e =>
          engineFault (modEng s eng (fun e => { e with buffer := e.buffer.filter (fun m => m.id != id) })) k false e
        | .ok (x, y, s) =>
          let out := outboundTo c (BitVec.ofNat 64 (nth (recordFields y) 0)) (match copyF k.ins with | some f => f.rdst = 1 | none => false)
          let k' := { k with
            sample := recordFields x ++ recordFields y, bytes := x ++ y, live := recordTotal (recordFields x) / 32
            outbound := out, inRegion := k.inRegion && out }
          modEng s eng (fun e => { e with buffer := e.buffer.map (fun m => if m.id = id then k' else m) })

/-- A record that is in the die's cache or in tier 2 on the die is read within 64 ticks of delivery; else counted (R335). -/
def schedRecords (s : State) (eng : Nat) (k : Cmd) : State :=
  match issuer s eng k with
  | none => s
  | some c =>
    let near := fun (a : Word) => match translate s c (windowFor c a) a with
      | .ok p => (tget (dieOf s (eng / 4)).records (locOf p.space p.off)).isSome || (p.tier = 2 && p.die = eng / 4)
      | .error _ => true
    let (d, s) := if near (k.vals.getD 0 0) && near (k.vals.getD 1 0) then pick s (65 - (engTick s eng - k.deliver)) else openTicks s
    schedEng s eng (engTick s eng + d) 15 k.id (.ins (.countedLoadReturn 0 k.id))

/-! ## Words -/

/-- Bytes of word j: 32, but the last of a staging, which copies just its stage_bytes (R56). -/
def wordLen (k : Cmd) (j : Nat) : Nat :=
  match k.ins with
  | .stageStart _ => min 32 ((k.vals.getD 2 0).toNat - 32 * j)
  | _ => 32

/-- The place of word j; LOAD's source is host memory (R44). -/
def copyPlace (s : State) (c : Ctx) (k : Cmd) (side j : Nat) : Res Place :=
  let a := copyAddr k side j
  match k.ins with
  | .loadVd => if side = 1 then .ok ⟨0, a.toNat, 0, 0, 5, 0, 0, true⟩ else translate s c (windowFor c a) a
  | _ =>
    match windowFor c a with
    | .priv _ => flt cADDRESS a
    | .sync _ _ => flt cADDRESS a
    | w => translate s c w a

/-- What happens to a word's side when it proceeds (R332): nothing, a fault of the start, or a truncation of a kind; the
check's number orders faults. -/
inductive Meet | good (p : Place) | bad (n : Nat) (t : Trap) | cut (kind why : Nat) (p : Place)
deriving DecidableEq, Repr, Inhabited

/-- Checks 4 to 7 of R162 on word j of a side. -/
def meetSide (s : State) (c : Ctx) (k : Cmd) (side j : Nat) : Meet :=
  let a := copyAddr k side j
  match copyPlace s c k side j with
  | .error t => .bad (if t.cause = cADDRESS then 1 else if t.cause = cWRONGCORE then 3 else 4) t
  | .ok p =>
    if !linkUp s p then .cut 6 0 p
    else if k.ins != .loadVd && p.win = 0 && hostOwns s c.vd a.toNat then .cut 5 0 p
    else if p.host then .good p
    else match rights s c p with
      | some 2 => .bad 6 ⟨cLAPSED, a, 2, false⟩
      | some 3 => .bad 6 ⟨cLAPSED, a, 3, false⟩
      | some w => .cut (if side = 1 then 2 else 1) w p
      | none =>
        match padOf s c a with
        | none => .good p
        | some (u, off) =>
          match bufAt u off 32 with
          | none => .good p
          | some (_, b) =>
            let w := spadPlace s u b.wordOff 2
            if side = 1 then (if b.state < 2 then .bad 7 ⟨cBUFFER, a, BitVec.ofNat 64 b.state, false⟩ else .good p)
            else if 2 ≤ b.state && !(wordAt s w.space w.off).frozen then .cut 4 0 p else .good p

/-- Words a command reads together: at the rates of Table 15.10; counted ones go in packets of 128 words. -/
def groupOf (k : Cmd) : Nat := if nth k.acc 2 = 1 then 1 else nth k.acc 1
/-- Ticks between groups. -/
def gapOf (k : Cmd) : Nat := match copyF k.ins with | some f => if f.pace = 0 then 1 else f.pace.toNat | none => 1
/-- The places of a command: all on the engine's die (161 ticks, 128 words a tick), in the package (241, 64), else counted. -/
def copyClass (s : State) (eng : Nat) (c : Ctx) (k : Cmd) : Nat × Nat :=
  let dom := fun (d : Nat) => (List.range 8).findRev? (fun x => x ≤ d && s.clock.dom.toNat / 2 ^ x % 2 == 1)
  let ps := (List.range k.live).flatMap (fun j => [0, 1].filterMap (fun side => match copyPlace s c k side j with
    | .ok p => some p
    | .error _ => none))
  let dieIn := fun (p : Place) => if p.win = 2 || p.win = 4 then dieOfCore p.core else p.die
  let counted := remoteSide k 0 || remoteSide k 1 || (match k.ins with | .ckpt _ _ => true | _ => false)
    || ps.any (fun p => p.host || 3 ≤ p.tier || dom (dieIn p) != dom (eng / 4))
  if counted then (0, 128) else if ps.all (fun p => dieIn p = eng / 4) then (161, 128) else (241, 64)

/-! ## End and truncation -/

/-- A command leaves its path; a paused one goes on (R329). -/
def leavePath (s : State) (eng id : Nat) : State :=
  let e := engOf s eng
  let s := { s with agenda := s.agenda.filter (fun v => !(v.uid == 0 && v.own == id)) }
  let wasMain := e.mainPath.any (fun k => k.id == id)
  let s := modEng s eng (fun e => { e with
    mainPath := e.mainPath.filter (fun k => k.id != id), paused := e.paused.filter (fun k => k.id != id)
    channels := e.channels.filter (fun k => k.id != id) })
  let s := { s with links := { s.links with packets := s.links.packets.filter (fun p => p.cmd != id) } }
  match wasMain, (engOf s eng).paused with
  | true, some p =>
    let s := modEng s eng (fun e => { e with mainPath := some p, paused := none })
    if p.counted < p.live && !s.agenda.any (fun v => v.act == .eff (.copyStep eng p.id)) then schedEng s eng (engTick s eng) 15 p.id (.eff (.copyStep eng p.id)) else s
  | _, _ => s

/-- The word of a CKPT is reached at its completion, whatever its target (R336). -/
def ckptReached (s : State) (c : Ctx) (a t : Nat) : State :=
  if a = 0 then s
  else match translate s c (windowFor c (BitVec.ofNat 64 a)) (BitVec.ofNat 64 a) with
    | .error _ => s
    | .ok p =>
      let s := meetWord s p.space p.off t
      if (wordAt s p.space p.off).reached || (wordAt s p.space p.off).frozen then s else setReached s p.space p.off t

/-- A command is over: newel commands report. -/
def finishCopy (s : State) (eng : Nat) (k : Cmd) (cut : Bool) : State :=
  let t := engTick s eng
  let s := leavePath s eng k.id
  match k.ins with
  | .ckpt _ _ => (match issuer s eng k with
    | some c => ckptReached s c (k.vals.getD 3 0).toNat t
    | none => s)
  | .loadVd => modVd (sched s 0 (now s 0) 18 0 0 (.ins (.loadComplete (nth k.sample 0)))) (nth k.sample 0)
      (fun v => { v with res0 := BitVec.ofNat 64 (k.landed * 32), result := if cut then 4 else 0 })
  | .stageStart l =>
    let why := if !k.streams.isEmpty then 2 else if cut then 1 else 0
    sched (modLaunch s l (fun x => { x with info := max x.info why })) 0 (now s 0) 18 0 0 (.ins (.stageComplete l))
  | .lrflush _ _ =>
    let key := fun (c : Ctx) => match translate s c (windowFor c (k.vals.getD 0 0)) (k.vals.getD 0 0) with
      | .ok p => some (locOf p.space p.off)
      | .error _ => none
    let s := match (issuer s eng k).bind key with
      | some x => cleanRecords { s with dies := s.dies.map (fun (d : Nat × DieSt) => (d.1, { d.2 with records := tdel d.2.records x })) }
      | none => s
    (engOf s eng).buffer.foldl (fun s m => match m.ins with
      | .cpyc _ _ => if m.uid = k.uid && m.sample.isEmpty then schedRecords s eng m else s
      | _ => s) s
  | _ => s

/-- Runs of a copy's words, side by side, that do not proceed at its start (R333). -/
def barredRuns (s : State) (c : Ctx) (k : Cmd) : List Nat :=
  ([1, 0].filter (fun side => !remoteSide k side)).flatMap (fun side =>
    let js := (List.range k.live).filter (fun j => match meetSide s c k side j with | .cut 1 _ _ | .cut 2 _ _ => true | _ => false)
    (js.foldl (fun (l : List (Nat × Nat)) j => match l with
      | (a, b) :: r => if b = j then (a, j + 1) :: r else (j, j + 1) :: (a, b) :: r
      | [] => [(j, j + 1)]) []).flatMap (fun r => [side, r.1, r.2]))

/-- The kind of a cut at word j: a region that had lapsed at the command's start is kind 3 (Table 15.11). -/
def cutKind (k : Cmd) (kind j : Nat) : Nat :=
  if (kind = 1 || kind = 2) && (chunks 3 (k.pushes.length / 3) k.pushes).any (fun r =>
    nth r 0 = kind - 1 && nth r 1 ≤ j && j < nth r 2) then 3 else kind

/-- A truncation at word j (R332, R333): the record at this tick, with the words that landed, and the command is over. -/
def copyCut (s : State) (eng : Nat) (k : Cmd) (kind j : Nat) (lessor : Option Nat) : State :=
  let kind := cutKind k kind j
  let tag := match copyF k.ins with | some f => f.tag.toNat | none => 0
  let s := if k.uid = 0 then s else
    truncBoth s k.uid k.seq tag kind 0xF4 eng (j * 32) (engTick s eng) (copyAddr k 0 j) lessor
  let s := match k.ins with
    | .stageStart l => if kind = 6 then modLaunch s l (fun x => { x with info := 2 }) else s
    | _ => s
  finishCopy s eng { k with landed := j } true

/-- A cut at the source of word j: the words read before it land first, and the record is due when word j would have landed, which is
the tick of the first word that did not (R333; log entry 118). acc then holds the kind and the lessor. -/
def sourceCut (s : State) (eng : Nat) (k : Cmd) (kind j at_ : Nat) (lessor : Option Nat) : State :=
  let acc := (k.acc ++ [0, 0, 0, 0]).take 4 ++ [cutKind k kind j, match lessor with | some o => o + 1 | none => 0]
  schedEng (putEng s eng { k with live := j, prog := 3, acc := acc }) eng at_ 5 k.id (.ins (.copyWordLand eng k.id j))

/-! ## Packets of remote copies (R21) -/

/-- A packet is sent: what becomes of it is outside the device. It is acknowledged at an open tick within 2^16, unanswered for 2^16
ticks, refused and sent again after 256, or dropped and acknowledged where its region's right has ended. -/
def sendPacket (s : State) (eng : Nat) (p : Packet) : State :=
  let (o, s) := if s.links.ethUp.any id then pick s 4 else (1, s)
  let (d, s) := pick s (2 ^ 16 - 1)
  let t := engTick s eng
  let s := { s with links := { s.links with packets := s.links.packets.filter (fun x => x.id != p.id) ++ [p] } }
  match o with
  | 0 => schedEng s eng (t + 1 + d) 5 p.cmd (.ins (.copyWordLand eng p.cmd p.addr))
  | 1 => schedEng s eng (t + 2 ^ 16) 5 p.cmd (.ins (.packetAckTimeout p.id))
  | 2 => schedEng s eng (t + 1 + d + 256) 5 p.cmd (.ins (.packetRefusedResend p.id))
  | _ => schedEng { s with links := { s.links with packets := s.links.packets.map (fun x => if x.id = p.id then { x with tries := 16 } else x) } }
      eng (t + 1 + d) 5 p.cmd (.ins (.packetAckTimeout p.id))

/-- The engine that runs a command. -/
def engineWith (s : State) (id : Nat) : Option (Nat × Cmd) :=
  s.engines.findSome? (fun (e : Nat × CopyEng) => ((engRunning e.2).find? (fun k => k.id == id)).map (fun k => (e.1, k)))

/-- PACKET_ACK_TIMEOUT (R21): up to 15 resends, then the copy is truncated; tries 16 marks a packet the receiver dropped. -/
def execPacketAckTimeout (pkt : Nat) (s : State) : Out :=
  match s.links.packets.find? (fun p => p.id == pkt) with
  | none => .next s
  | some p =>
    match engineWith s p.cmd with
    | none => .next s
    | some (eng, k) =>
      if p.tries = 16 then .next (copyCut s eng k (if remoteSide k 1 then 2 else 1) k.landed none)
      else if 15 ≤ p.tries then .next (copyCut s eng k 7 k.landed none)
      else .next (sendPacket s eng { p with tries := p.tries + 1 })

/-- PACKET_REFUSED_RESEND (R21): sent again without counting an attempt. -/
def execPacketRefusedResend (pkt : Nat) (s : State) : Out :=
  match s.links.packets.find? (fun p => p.id == pkt) with
  | none => .next s
  | some p => match engineWith s p.cmd with
    | none => .next s
    | some (eng, _) => .next (sendPacket s eng p)

/-! ## Start (R329, R332) -/

/-- CKPT's pages: those of the range whose dirty bit is set; a 2 MiB page is copied whole (R336). -/
def ckptPages (s : State) (c : Ctx) (a n : Nat) : List Nat :=
  ((vdOf s c.vd).dirty.flatMap (fun p =>
    let len := match globalMap (vdOf s c.vd) (p * 65536) with | some m => if m.large then 32 else 1 | none => 1
    if a < (p + len) * 65536 && p * 65536 < a + n then (List.range len).map (p + ·) else [])).mergeSort (fun x y => x ≤ y)

/-- The checks of a start: refusals of its own, then the first failing check of R162 in their order. -/
def copyChecks (s : State) (c : Ctx) (k : Cmd) : Res Unit := do
  (match k.ins with
    | .cpyc _ _ =>
      let x := k.bytes.take 192
      let y := k.bytes.drop 192
      if recordBad x || recordBad y || recordTotal (recordFields x) != recordTotal (recordFields y) then fltOpen cILLEGAL else .ok ()
    | .ckpt _ _ =>
      let here := fun (a : Word) => match translate s c (windowFor c a) a with
        | .ok p => if p.host || 3 ≤ p.tier then .ok () else flt cADDRESS a
        | .error t => (.error t : Res Unit)
      do
        here (k.vals.getD 0 0)
        for i in List.range k.sample.length do
          here (copyAddr k 0 (2048 * i))
    | _ => .ok () : Res Unit)
  let bads := (List.range k.live).flatMap (fun j => [1, 0].filterMap (fun side =>
    let a := copyAddr k side j
    let off := k.uid != 0 && a.toNat % 32 != 0
    if remoteSide k side then (match k.ins with
      | .cpyc _ _ => (match windowFor c a with
        | .global _ => if off then some (2, ⟨cALIGN, a, 0, false⟩) else none
        | _ => some (1, ⟨cADDRESS, a, 0, false⟩))
      | _ => none)
    else match meetSide s c k side j with
      | .bad n t => if 2 < n && off then some (2, ⟨cALIGN, a, 0, false⟩) else some (n, t)
      | _ => if off then some (2, ⟨cALIGN, a, 0, false⟩) else none))
  match bads with
  | [] => .ok ()
  | b :: r => .error (r.foldl (fun x y => if y.1 < x.1 then y else x) b).2

/-- Takes a command from the buffer onto its path; a free command that holds the main path yields it (R329). -/
def takePath (e : CopyEng) (k : Cmd) (paced : Bool) : CopyEng :=
  let e := { e with buffer := e.buffer.filter (fun m => m.id != k.id) }
  if paced then { e with channels := e.channels ++ [k] }
  else match e.mainPath with
    | some m => { e with mainPath := some k, paused := some m }
    | none => { e with mainPath := some k }

/-- COPY_START (R329, R332). -/
def execCopyStart (eng id : Nat) (s : State) : Out :=
  match (engOf s eng).buffer.find? (fun k => k.id == id) with
  | none => .next s
  | some k =>
    match issuer s eng k with
    | none => .next (modEng s eng (fun e => { e with buffer := e.buffer.filter (fun m => m.id != id) }))
    | some c =>
      let t := engTick s eng
      let paced := match copyF k.ins with | some f => f.pace != 0 | none => false
      let k := match k.ins with
        | .ckpt _ _ =>
          let ps := ckptPages s c (k.vals.getD 1 0).toNat (k.vals.getD 2 0).toNat
          { k with sample := ps, live := ps.length * 2048 }
        | _ => k
      match copyChecks s c k with
      | .error e =>
        let s := modEng s eng (fun e => { e with buffer := e.buffer.filter (fun m => m.id != id) })
        .next (if k.uid = 0 then finishCopy s eng k true else engineFault s k false e)
      | .ok _ =>
        let (lat, grp) := copyClass s eng c k
        let k := { k with start := some t, counted := 0, landed := 0, acc := [lat, grp, if paced then 1 else 0, t], bytes := [], names := if k.uid = 0 then k.names else [], pushes := barredRuns s c k }
        let s := modEng s eng (fun e => takePath e k paced)
        match k.ins with
        | .lrflush _ _ => .next (schedEng s eng (t + 32) 5 id (.ins (.copyWordLand eng id 0)))
        | _ =>
          if k.live = 0 then .next (finishCopy s eng k false)
          else match ([1, 0].filter (fun side => !remoteSide k side)).findSome? (fun side => match meetSide s c k side 0 with
            | .cut kind w p => some (kind, w, p)
            | _ => none) with
          | some (kind, w, p) => .next (copyCut s eng k kind 0 (lessorOf s c p w))
          | none => .next (schedEng s eng t 15 id (.eff (.copyStep eng id)))

/-! ## Reading and landing -/

/-- Reads word j of a copy: its bytes and poison, with what stops it. -/
def copyRead (s : State) (c : Ctx) (k : Cmd) (j : Nat) : Except (Sum Trap (Nat × Option Nat)) (List Byte × List Nat) :=
  match meetSide s c k 1 j with
  | .cut kind w p => .error (.inr (kind, lessorOf s c p w))
  | .bad _ ⟨_, _, w, _⟩ => .error (.inr (2, none))
  | .good p =>
    match checkEarly s c p (copyAddr k 1 j) 32 with
    | .error e => .error (.inl e)
    | .ok _ => .ok (readNow s p (wordLen k j), poisonIn s p (wordLen k j))

/-- A copy's unit lets it start: it runs, or is blocked, but has not stopped; a FROZEN device's wait (R46). -/
def mayCopy (s : State) (k : Cmd) : Bool :=
  if k.uid = 0 then (vdOf s (nth k.sample 0)).state != 3 else (match unitOf s k.uid with
    | some c => (match c.wait with | .stopping | .saving | .saved | .frozen _ | .done => false | _ => true)
    | none => true)

/-- A timed command that needs the main path is due while a free command holds it: it starts before that one reads on
(R329). -/
def yieldMain (s : State) (eng id : Nat) : State :=
  let e := engOf s eng
  let t := engTick s eng
  match e.mainPath, e.paused with
  | some m, none =>
    if m.id != id || m.timed then s
    else match e.buffer.find? (fun k => k.timed && !k.inRegion && k.due ≤ t && mayCopy s k
        && (match copyF k.ins with | some f => f.pace == 0 | none => true)
        && (match k.ins with | .cpyc _ _ => !k.sample.isEmpty | _ => true)) with
      | none => s
      | some k => match execCopyStart eng k.id s with
        | .next s => s
        | _ => s
  | _, _ => s

/-- A step of a running copy at tick t: its next group of words is read; their landing is due. Newel commands carry no
early-read checker. names holds the words' poison, as offsets from the command's start. -/
def copyStep (s : State) (eng id : Nat) : State :=
  let s := yieldMain s eng id
  match engCmd s eng id with
  | none => s
  | some k =>
    if s.agenda.any (fun v => v.act == .eff (.copyStep eng id)) then s
    else if (engOf s eng).paused.any (fun m => m.id == id) || k.live ≤ k.counted then s
    else match issuer s eng k with
    | none => finishCopy s eng k true
    | some c =>
      let t := engTick s eng
      let n := min (groupOf k) (k.live - k.counted)
      let js := (List.range n).map (fun i => k.counted + i)
      let s := match k.ins with
        | .ckpt _ _ => if k.counted % 2048 = 0 then
            modVd s c.vd (fun v => { v with dirty := v.dirty.erase (nth k.sample (k.counted / 2048)) }) else s
        | _ => s
      if remoteSide k 1 || remoteSide k 0 then
        let got : Except (Sum Trap (Nat × Option Nat)) (List Byte × List Nat) := if remoteSide k 1 then
            .ok ((List.range (32 * n)).map (fun i => Config.outsideByte (s.free + i)),
              ((List.range (4 * n)).filter (fun i => Config.freeBit (s.free + 32 * n + i))).map (· * 8))
          else js.foldlM (fun l j => do let (b, p) ← copyRead s c k j; .ok (l.1 ++ b, l.2 ++ p.map (fun w => 32 * (j - k.counted) + w))) ([], [])
        match got with
        | .error (.inl e) => engineFault (leavePath s eng id) k false e
        | .error (.inr (kind, lessor)) => sourceCut s eng k kind k.counted (t + 1) lessor
        | .ok (bs, marks) =>
          let (pid, s) := fresh { s with free := s.free + (if remoteSide k 1 then 36 * n else 0) }
          let node := match copyF k.ins with | some f => f.node.toNat | none => 0
          let s := putEng s eng { k with counted := k.counted + n }
          let s := sendPacket s eng ⟨pid, id, node, k.counted, bs, marks, 0⟩
          if k.counted + n < k.live then schedEng s eng (t + gapOf k) 15 id (.eff (.copyStep eng id)) else s
      else
        let r := js.foldl (fun (r : Cmd × Option (Sum Trap (Nat × Option Nat))) j => match r.2 with
          | some _ => r
          | none => match copyRead s c r.1 j with
            | .error e => (r.1, some e)
            | .ok (b, p) => ({ r.1 with bytes := r.1.bytes ++ b, names := r.1.names ++ p.map (fun w => 32 * j + w), counted := j + 1 }, none)) (k, none)
        let k' := r.1
        let (at_, s) := if latOf k = 0 then (let (d, s) := countedTicks s (js.any (fun j => match copyPlace s c k 1 j with | .ok p => (linkOf p).isSome | .error _ => false)); (max (t + 1 + d) (nth k.acc 3), s)) else (t + latOf k, s)
        let k' := { k' with acc := [nth k.acc 0, nth k.acc 1, nth k.acc 2, at_] }
        let s := putEng s eng k'
        let s := if k.counted < k'.counted then schedEng s eng at_ 5 id (.ins (.copyWordLand eng id k.counted)) else s
        match r.2 with
        | some (.inl e) => engineFault (leavePath s eng id) k false e
        | some (.inr (kind, lessor)) => sourceCut s eng k' kind k'.counted at_ lessor
        | none => if k'.counted < k.live then schedEng s eng (t + gapOf k) 15 id (.eff (.copyStep eng id)) else s

/-- Notes bytes that a counted transfer wrote whose word has not reached (R18, R113). -/
def noteLate (s : State) (c : Ctx) (k : Cmd) (p : Place) (n : Nat) : State :=
  let a := (k.vals.getD 3 0).toNat
  if latOf k != 0 || a = 0 || p.host then s
  else match translate s c (windowFor c (BitVec.ofNat 64 a)) (BitVec.ofNat 64 a) with
    | .error _ => s
    | .ok w => if (wordAt s w.space w.off).reached then s else { s with late := s.late ++ [(p.space, p.off, n, w.space, w.off)] }

/-- Word j lands with its bytes: bad words (R18) are only marked. Answers the state, or the kind that cuts it. -/
def landWord (s : State) (eng : Nat) (c : Ctx) (k : Cmd) (j : Nat) (bs : List Byte) (ps : List Nat) (poisoned : Bool) :
    Except (Nat × Option Nat) State :=
  match meetSide s c k 0 j with
  | .cut kind w p => .error (kind, lessorOf s c p w)
  | .bad _ _ => .error (1, none)
  | .good p =>
    let word := (k.vals.getD 3 0).toNat
    if p.host && !poisoned then .ok (countNamed (writeHost s p.off bs ps (engTick s eng) none) c word 32)
    else if poisoned then .ok { s with memPoison := s.memPoison ++ [0, 8, 16, 24].map (fun w => (p.space, p.off + w)) }
    else match padOf s c (copyAddr k 0 j) with
      | some (u, off) =>
        (match landPad s u off p bs ps c word with
          | some s => .ok (noteLate s c k p 32)
          | none => .error (4, none))
      | none => .ok (noteLate (countNamed (landBytes s p.space p.off bs ps (engTick s eng)) c word 32) c k p 32)

/-- The bytes a staging copy lands are counted on its launch's word as they land (R56, R332). -/
def countStaged (s : State) (eng : Nat) (k : Cmd) (n : Nat) : State :=
  match k.ins with
  | .stageStart l => countWord s (rentOf s (launchOf s l).stageRef).space 0 n (engTick s eng)
  | _ => s

/-- Words j to j + n − 1 land, with their bytes in order; what cuts them ends the command there. -/
def landWords (s : State) (eng : Nat) (c : Ctx) (k : Cmd) : Nat → Nat → List Byte → State × Option (Nat × Nat × Option Nat)
  | 0, _, _ => (s, none)
  | n + 1, j, bs =>
    let ps := (k.names.filter (fun w => 32 * j ≤ w && w < 32 * j + 32)).map (fun w => w - 32 * j)
    match landWord s eng c k j (bs.take 32) ps (k.streams.any (fun g => g = BitVec.ofNat 384 j)) with
    | .error (kind, lessor) => (s, some (j, kind, lessor))
    | .ok s => landWords (countStaged s eng k (min 32 bs.length)) eng c k n (j + 1) (bs.drop 32)

/-- Words of a copy may not land yet (R93): one before them has not, or one's page is in its switch window. -/
def landStalls (s : State) (c : Ctx) (k : Cmd) (j n : Nat) : Bool :=
  !remoteSide k 0 && ((!remoteSide k 1 && j != k.landed) || (List.range n).any (fun i =>
    match copyPlace s c k 0 (j + i) with | .ok p => inSwitch s p | .error _ => false))

/-- Words j to j + n − 1 of a command that a CXL link answered with poison, as 32-byte words from j on (R18). -/
def poisonedWords (k : Cmd) (j n : Nat) : List Nat := (List.range n).filter (fun i => k.streams.any (fun g => g = BitVec.ofNat 384 (j + i)))

/-- A command whose source was cut ends when its last word before the cut has landed (R333). -/
def endCut (s : State) (eng : Nat) (k : Cmd) : State :=
  copyCut s eng k (nth k.acc 4) k.live (if nth k.acc 5 = 0 then none else some (nth k.acc 5 - 1))

/-- COPY_WORD_LAND (R331, R332): the words of a group, or of a packet, land or are dropped; the command ends with its last. What a CXL
link answered with poison goes to a remote node as marks and is not counted (R18). -/
def execCopyWordLand (eng id j : Nat) (s : State) : Out :=
  match engCmd s eng id with
  | none => .next s
  | some k =>
    match k.ins, issuer s eng k with
    | .lrflush _ _, _ => .next (finishCopy s eng k false)
    | _, none => .next (finishCopy s eng k true)
    | _, some c =>
      let n := min (groupOf k) (k.live - j)
      if k.prog = 3 && k.live ≤ j then
        .next (if k.live ≤ k.landed then endCut s eng k
          else if remoteSide k 0 || remoteSide k 1 then s
          else schedEng s eng (engTick s eng + 1) 5 id (.ins (.copyWordLand eng id j)))
      else if landStalls s c k j n then .next (schedEng s eng (engTick s eng + 1) 5 id (.ins (.copyWordLand eng id j)))
      else if remoteSide k 0 || remoteSide k 1 then
        match s.links.packets.find? (fun p => p.cmd == id && p.addr == j) with
        | none => .next s
        | some p =>
          let s := { s with links := { s.links with packets := s.links.packets.filter (fun x => x.id != p.id) } }
          let done := fun (s : State) =>
            let k := { k with landed := k.landed + n }
            if k.live ≤ k.landed then (if k.prog = 3 then endCut s eng k else finishCopy s eng k false) else putEng s eng k
          if remoteSide k 0 then
            let bad := poisonedWords k j n
            let marks := p.marks.filter (fun w => !bad.contains (w / 32)) ++ bad.flatMap (fun i => [0, 8, 16, 24].map (32 * i + ·))
            let s := { s with links := { s.links with sent := s.links.sent ++ [(p.node, (copyAddr k 0 j).toNat, p.bytes, marks)] } }
            .next (done (countNamed s c (k.vals.getD 3 0).toNat (32 * (n - bad.length))))
          else match landWords s eng c { k with names := p.marks.map (fun w => 32 * j + w) } n j p.bytes with
            | (s, some (i, kind, lessor)) => .next (copyCut s eng k kind (k.landed + (i - j)) lessor)
            | (s, none) => .next (done s)
      else
        match landWords s eng c k n j k.bytes with
        | (s, some (i, kind, lessor)) => .next (copyCut s eng k kind i lessor)
        | (s, none) =>
          let k := { k with landed := j + n, bytes := k.bytes.drop (32 * n) }
          if k.live ≤ k.landed && k.prog != 3 then .next (finishCopy s eng k false) else .next (putEng s eng k)

/-! ## Selection (R329) -/

/-- What an engine does next at this tick: start a command, or raise SCHEDULE_MISS with a tinfo for one. -/
def copyNext (s : State) (eng : Nat) : Option (Nat × Option Nat) :=
  let e := engOf s eng
  let t := engTick s eng
  let paced := fun (k : Cmd) => match copyF k.ins with | some f => f.pace != 0 | none => false
  let ready := fun (k : Cmd) => match k.ins with | .cpyc _ _ => !k.sample.isEmpty | _ => true
  match e.buffer.find? (fun k => k.timed && !k.inRegion && k.due ≤ t && mayCopy s k) with
  | some k =>
    if !ready k then some (k.id, some 1)
    else if paced k then some (k.id, if e.channels.length < 8 then none else some 2)
    else match e.mainPath, e.paused with
      | none, _ => some (k.id, none)
      | some m, none => some (k.id, if m.timed then some 2 else none)
      | some _, some _ => some (k.id, some 2)
  | none =>
    let first := fun (p : Bool) => (e.buffer.find? (fun k => !k.timed && !k.inRegion && k.due ≤ t && mayCopy s k && paced k == p)).bind (fun k =>
      let ok := ready k && !(e.buffer.any (fun m => m.uid == k.uid && m.uid != 0 && m.id < k.id && !m.inRegion))
        && (if p then e.channels.length < 8 else e.mainPath.isNone && e.paused.isNone)
      if ok then some (k.id, (none : Option Nat)) else none)
    match first false with
    | some x => some x
    | none => first true

/-- A timed copy that cannot start at its due tick (R106, R107, R329). -/
def copyMiss (s : State) (eng id tinfo : Nat) : State :=
  match (engOf s eng).buffer.find? (fun k => k.id == id) with
  | none => s
  | some k =>
    engineFault (modEng s eng (fun e => { e with buffer := e.buffer.filter (fun m => m.id != id) })) k (keeps k.ins)
      ⟨cMISS, BitVec.ofNat 64 k.due, BitVec.ofNat 64 tinfo, false⟩

/-! ## CXL errors (R18, Table 1.5) -/

/-- A word of a command read over CXL comes back as poison: it will be marked, not written. -/
def badWord (s : State) (id j : Nat) : State :=
  match engineWith s id with
  | none => s
  | some (eng, k) => if k.landed ≤ j && j < k.live then putEng s eng { k with streams := BitVec.ofNat 384 j :: k.streams } else s

/-- A link's error counter (Table 1.7): CXL links 0 to 15, scale-out ports from 16 on. -/
def linkError (s : State) (l : Nat) : State :=
  { s with links := { s.links with errors := tmod s.links.errors l 0 (· + 1) } }

/-- The link a word of a command is read over has erred. -/
def wordError (s : State) (id j : Nat) : State :=
  match engineWith s id with
  | none => s
  | some (eng, k) =>
    match issuer s eng k with
    | none => s
    | some c => if remoteSide k 1 then s else match copyPlace s c k 1 j with
      | .ok p => (match linkOf p with | some l => linkError s l | none => s)
      | .error _ => s

/-- A counted load is answered with poison (R18). -/
def badLoad (s : State) (id : Nat) : State :=
  match (allUnits s).find? (fun u => (tget u.loadLinks id).isSome) with
  | none => s
  | some u =>
    let l := ((tget u.loadLinks id).getD default).1
    linkError (modUnit s u.uid (fun u => { u with loadLinks := tset u.loadLinks id (l, true) })) l

/-- The records of a compact copy that are yet to be read are answered with poison: it will fault when it reads them (R18, R335; log
entry 119). -/
def badRecords (s : State) (id : Nat) : State :=
  { s with engines := s.engines.map (fun (e : Nat × CopyEng) => (e.1, { e.2 with buffer := e.2.buffer.map (fun m =>
    if m.id = id && m.sample.isEmpty then { m with prog := 4 } else m) })) }

/-- A read over CXL is poisoned: word j of a copy, the records of one, or a counted load. -/
def badRead (s : State) (id j : Nat) : State :=
  if (engineWith s id).isSome then badWord (wordError s id j) id j
  else if s.engines.any (fun (e : Nat × CopyEng) => e.2.buffer.any (fun m => m.id == id)) then badRecords s id
  else badLoad s id

def execCxlPoisonReturn (id j : Nat) (s : State) : Out := .next (badRead s id j)
def execCxlCompletionTimeout (id j : Nat) (s : State) : Out := .next (badRead s id j)

/-- CXL_LINK_DOWN: every word and load outstanding on the link is poisoned; later words and copies over it are cut (kind 6). -/
def execCxlLinkDown (link : Nat) (s : State) : Out :=
  let s := linkError { s with links := { s.links with cxlUp := s.links.cxlUp.set link false } } link
  let s := { s with units := s.units.map (fun (u : Nat × Ctx) => (u.1, { u.2 with
    loadLinks := u.2.loadLinks.map (fun (l : Nat × Nat × Bool) => if l.2.1 = link then (l.1, link, true) else l) })) }
  .next (s.engines.foldl (fun s (e : Nat × CopyEng) => (engRunning e.2).foldl (fun s k =>
    match issuer s e.1 k with
    | none => s
    | some c =>
      let js := (List.range (k.counted - k.landed)).map (fun i => k.landed + i)
      (js.filter (fun j => [0, 1].any (fun side => !remoteSide k side && match copyPlace s c k side j with
        | .ok p => linkOf p == some link
        | .error _ => false))).foldl (fun s j => badWord s k.id j) s) s) s)

end Sys2Proof.Machine
end

