-- ==== Sys2Proof/Machine/DispatchCmd.lean ====
section
/-!
DEFINITION. DISPATCH, WLNEXT and WID (R66, R67, R91, R340 to R343): the items of a plan and their assignment, the claim,
the plan's release, and the results of the list commands.
-/
set_option linter.unusedVariables false
namespace Sys2Proof.Machine
open Sys2Proof

/-! ## The plan (R66) -/

/-- Items of expert e whose rows start at a row: full pieces of the largest capacity and a remainder, each in the smallest
bucket that holds it. -/
def expertItems (bks : List Bucket) (e start count : Nat) : List Item :=
  let c := max 1 ((bks.getLast?.map Bucket.cap).getD 1)
  let one := fun (r n : Nat) =>
    let b := (bks.findIdx? (fun (x : Bucket) => decide (n ≤ x.cap))).getD 0
    (⟨e, r, n, b, ((bks.drop b).head?.map Bucket.cost).getD 0⟩ : Item)
  if count = 0 then []
  else if count ≤ c then [one start count]
  else
    (List.range (count / c)).map (fun i => one (start + i * c) c)
      ++ (if count % c = 0 then [] else [one (start + count / c * c) (count % c)])

/-- All items, experts in increasing id, rows following one another. -/
def planItems (bks : List Bucket) (counts : List Nat) : List Item :=
  ((List.range counts.length).zip counts).foldl (fun (p : List Item × Nat) x =>
    (p.1 ++ expertItems bks x.1 p.2 x.2, p.2 + x.2)) ([], 0) |>.1

/-- Items in descending cost, ties keeping their order by expert and row. -/
def planOrder (items : List Item) : List Item := items.mergeSort (fun a b => decide (b.cost ≤ a.cost))

/-- The list with the least cost gets the item, the first of them on a tie. -/
def giveItem (ls : List (Nat × Work)) (x : Item) : List (Nat × Work) :=
  let least := ls.foldl (fun (m : Option Nat) l => match m with | none => some l.2.cost | some c => some (min c l.2.cost)) none
  match ls.findIdx? (fun (l : Nat × Work) => some l.2.cost == least) with
  | none => ls
  | some i => ls.modify i (fun l => (l.1, { l.2 with items := l.2.items ++ [x], cost := l.2.cost + x.cost }))

/-- The work lists of units, in logical order, for the buckets in the plan; ids are those of the experts from base on. -/
def planLists (bks : List Bucket) (counts units : List Nat) (base : Nat) : List (Nat × Work) :=
  let cap := (bks.getLast?.map Bucket.cap).getD 0
  let empty := units.map (fun u => (u, (⟨[], 0, 0, cap⟩ : Work)))
  ((planOrder (planItems bks counts)).foldl giveItem empty).map (fun l =>
    (l.1, { l.2 with items := l.2.items.map (fun x => { x with expert := (base + x.expert) % 65536 }) }))

/-! ## The claim (R67, R91) -/

/-- Granules each unit's core needs, by core. -/
def planGranules (s : State) (bks : List Bucket) (ls : List (Nat × Work)) : List (Ctx × Nat) :=
  let all := ls.filterMap (fun l => (unitOf s l.1).map (fun c =>
    (c, (l.2.items.map (fun x => ((bks.drop x.bucket).head?.map Bucket.extra).getD 0)).foldl max 0)))
  (all.filter (fun x => x.2 != 0)).mergeSort (fun a b => decide (a.1.core ≤ b.1.core))

/-- Claims every item or none: principal 0's tier-1 regions, paid until the grant's paid-until tick, on no address of
their own (log entry 36). -/
def claimAll (s : State) (vd : Nat) : List (Ctx × Nat) → Option (List Nat × State)
  | [] => some ([], s)
  | (c, n) :: r =>
    let until_ := c.grantUntil
    let e : Rent := { (default : Rent) with owner := vd * 65536, tier := 1, size := n, paid := until_, core := c.core, team := c.team }
    match claimRegion s vd (dieOfCore c.core) n c.core e with
    | none => none
    | some (ref, s) =>
      match charge s vd (rate e * (until_ - now s (dieOfCore c.core))) with
      | none => none
      | some s => (claimAll s vd r).map (fun x => (ref :: x.1, x.2))

/-- A region of the newel's goes back with the refund of Table 4.7, its sublets ended (R59, R67, R91). -/
def giveBack (s : State) (vd ref : Nat) : State :=
  let r := rentOf s ref
  if r.owner != vd * 65536 || (r.state != 1 && r.state != 2) then s
  else
    let s := (subletsOf s ref).foldl (fun s e => endSublet s e.1) s
    let back := if r.state = 1 then rate r * (r.paid - now s (refDie ref)) + r.escrow else 0
    reclaim (refund s vd back) ref

/-- A team's DISPATCH claim is released. -/
def releaseClaims (s : State) (team vd : Nat) : State :=
  let s := (teamOf s team).claims.foldl (fun s r => giveBack s vd r) s
  modTeam s team (fun m => { m with claims := [] })

/-- The largest number of buckets whose plan can be claimed. -/
def planClaim (s : State) (vd base : Nat) (bks : List Bucket) (counts units : List Nat) :
    Nat → Option (Nat × List (Nat × Work) × List Nat × State)
  | 0 => none
  | k + 1 =>
    let b := bks.take (k + 1)
    let ls := planLists b counts units base
    match claimAll s vd (planGranules s b ls) with
    | some (refs, s) => some (k + 1, ls, refs, s)
    | none => planClaim s vd base bks counts units k

/-! ## DISPATCH (R340) -/

/-- The checks of a count address (R340). -/
def countAddress (c : Ctx) (a : Word) : Res Unit :=
  match windowFor c a with
  | .sync _ _ => if a.toNat % 4 != 0 then flt cALIGN a else .ok ()
  | .spad k _ => if a.toNat % 4 != 0 then flt cALIGN a else if k != c.lcore then flt cWRONGCORE a else .ok ()
  | .gallery _ _ => if a.toNat % 4 != 0 then flt cALIGN a else .ok ()
  | _ => flt cADDRESS a

/-- A unit whose values a DISPATCH takes: every unit of a lower logical core has exited (R340). -/
def lowestUnit (s : State) (c : Ctx) : Bool := (teamUnits s c.team).all (fun u => c.lcore ≤ u.lcore || u.wait == .done)

/-- Delivery of DISPATCH: the count address of any but the lowest-numbered unit is ignored. -/
def dispatchPrep (f : DispF) (s : State) (c : Ctx) : Res Cmd :=
  let a := rdS c f.c.toNat
  if (recOf s c).nBuckets = 0 || c.timed then fltOpen cILLEGAL
  else if c.idem then flt cREGION 0 3
  else do
    (if lowestUnit s c then countAddress c a else .ok () : Res Unit)
    .ok { (default : Cmd) with names := [rot c f.d.toNat, rot c (f.d.toNat + 1)], vals := [a] }

/-- DISPATCH: the context blocks at it until the plan is released. -/
def execDispatch (t : Timing) (f : DispF) (s : State) : Out :=
  match deliver [21] (.dispatch t f) (dispatchPrep f) s with
  | .next s' =>
    match s.cx, s'.cx with
    | some c, some c' =>
      .next (if c'.wait = .run && c'.pc = c.pc + 32 then
        { s' with cx := some { c' with pc := c.pc, wait := .dispatch (rot c f.d.toNat) } } else s')
    | _, _ => .next s'
  | o => o

/-- Every unit of a team waits in DISPATCH for a new plan, or has exited. -/
def allDispatched (s : State) (team : Nat) : Bool :=
  let m := teamOf s team
  !m.dispatch.isEmpty && m.dispatch.all (fun u => m.plan.all (fun p => p.1 != u))
    && m.units.all (fun u => m.dispatch.contains u || (match unitOf s u with
      | some c => c.wait = .done
      | none => true))

/-- The DISPATCH command of the lowest logical core that waits, whose operands hold. -/
def dispatchCmd (s : State) (team : Nat) : Option (Ctx × Cmd) :=
  let m := teamOf s team
  let us := (m.dispatch.filterMap (unitOf s)).mergeSort (fun a b => decide (a.lcore ≤ b.lcore))
  us.head?.bind (fun c => ((dieOf s (dieOfCore c.core)).sync.find? (fun (k : Cmd) => k.uid == c.uid && k.start.isSome
    && (match k.ins with | .dispatch _ _ => true | _ => false))).map (fun k => (c, k)))

/-- Puts a command of a synchronisation engine back. -/
def putSync (s : State) (k : Cmd) : State :=
  modDie s (dieOfCore k.core) (fun d => { d with sync := d.sync.map (fun m => if m.id = k.id then k else m) })

/-- A command of a synchronisation engine is over. -/
def dropSync (s : State) (core id : Nat) : State :=
  modDie s (dieOfCore core) (fun d => { d with sync := d.sync.filter (fun m => m.id != id) })

/-- Builds and claims the plan at tick t, or tries again 2^12 ticks later (R67). -/
def buildPlan (s : State) (team : Nat) : State :=
  match dispatchCmd s team with
  | none => s
  | some (c, k) =>
    match k.ins with
    | .dispatch _ f =>
      let t := tickOf s c
      let die := dieOfCore c.core
      let l := recOf s c
      let bks := l.buckets.take l.nBuckets
      let m := teamOf s team
      let units := ((m.dispatch.filterMap (unitOf s)).mergeSort (fun a b => decide (a.lcore ≤ b.lcore))).map Ctx.uid
      match planClaim s c.vd f.base.toNat bks k.sample units bks.length with
      | none => sched s die (t + 2 ^ 12) 15 0 0 (.ins (.dispatchClaimRetry team))
      | some (n, ls, refs, s) =>
        let items := (ls.map (fun x => x.2.items.length)).foldl (· + ·) 0
        let s := modTeam s team (fun m => { m with plan := ls, dropped := bks.length - n, claims := refs, planned := true })
        sched s die (t + 32 + 2 * items + ceilDiv f.nexp.toNat 16) 16 0 0 (.ins (.dispatchRelease team))
    | _ => s

/-- The last unit has arrived: the counts are read, the previous claim goes, and the plan is built. -/
def dispatchCheck (s : State) (team : Nat) : State :=
  if !allDispatched s team || (teamOf s team).planned then s
  else match dispatchCmd s team with
    | none => s
    | some (c, k) =>
      match k.ins with
      | .dispatch _ f =>
        if !k.sample.isEmpty then s
        else
          let a := k.vals.getD 0 0
          let n := 4 * f.nexp.toNat
          let r : Res (List Nat) := do
            countAddress c a
            checkRange s c a n .load
            let p ← translate s c (windowFor c a) a
            checkEarly s c p a n
            .ok ((chunks 4 f.nexp.toNat (readNow s p n)).map natOfBytes)
          match r with
          | .error e => engineFault (dropSync s k.core k.id) k false e
          | .ok counts => buildPlan (releaseClaims (putSync s { k with sample := counts }) team c.vd) team
      | _ => s

/-- A unit arrives at its DISPATCH: it takes a plan already built for it, or the last arrival builds a new one. -/
def dispatchArrive (s : State) (k : Cmd) (t : Nat) : State :=
  match unitOf s k.uid with
  | none => dropSync s k.core k.id
  | some c =>
    match c.wait with
    | .dispatch _ =>
      let s := putSync s { k with start := some t }
      let s := modTeam s c.team (fun m => { m with dispatch := m.dispatch.erase c.uid ++ [c.uid] })
      let m := teamOf s c.team
      if m.plan.any (fun p => p.1 == c.uid) then
        (if m.planned then s else sched s (dieOfCore c.core) t 16 0 0 (.ins (.dispatchRelease c.team)))
      else dispatchCheck s c.team
    | _ => dropSync s k.core k.id

/-- DISPATCH_CLAIM_RETRY (R67). -/
def execDispatchClaimRetry (team : Nat) (s : State) : Out :=
  .next (if allDispatched s team && !(teamOf s team).planned then
    (match dispatchCmd s team with
      | some (c, k) => if k.sample.isEmpty then dispatchCheck s team else buildPlan s team
      | none => s)
    else s)

/-- A unit receives its list: S[D] the buckets dropped, S[D + 1] its items (R340). -/
def givePlan (s : State) (team uid : Nat) (w : Work) : State :=
  match unitOf s uid with
  | none => s
  | some c =>
    match c.wait, (dieOf s (dieOfCore c.core)).sync.find? (fun (k : Cmd) => k.uid == uid && k.start.isSome
        && (match k.ins with | .dispatch _ _ => true | _ => false)) with
    | .dispatch _, some k =>
      let c := wrPhys c (nth k.names 0) (BitVec.ofNat 64 (teamOf s team).dropped)
      let c := wrPhys c (nth k.names 1) (BitVec.ofNat 64 w.items.length)
      dropSync (setUnit s { c with work := w, wait := .run, pc := c.pc + 32, nextAt := tickOf s c }) k.core k.id
    | _, _ => s

/-- DISPATCH_RELEASE (R340): every unit that waits for the plan has it; a stopped one takes it when it comes back. -/
def execDispatchRelease (team : Nat) (s : State) : Out :=
  let m := teamOf s team
  let ready := m.plan.filter (fun (p : Nat × Work) => m.dispatch.contains p.1)
  let s := ready.foldl (fun s p => givePlan s team p.1 p.2) s
  .next (modTeam s team (fun m => { m with
    plan := m.plan.filter (fun (p : Nat × Work) => !(m.dispatch.contains p.1))
    dispatch := m.dispatch.filter (fun u => !(ready.any (fun p => p.1 == u)))
    planned := false }))

/-! ## WLNEXT and WID (R341 to R343) -/

def execWlnext (t : Timing) (d : Reg) (q : PReg) (s : State) : Out :=
  deliver [21] (.wlnext t d q) (fun _ c => .ok { (default : Cmd) with
    names := (List.range 5).map (fun j => rot c (d.toNat + j)), sample := [rotP c q.toNat] }) s

def execWid (t : Timing) (d : Reg) (s : State) : Out :=
  deliver [21] (.wid t d) (fun _ c => .ok { (default : Cmd) with
    names := (List.range 4).map (fun j => rot c (d.toNat + j)) }) s

/-- Writes a list command's results 24 ticks after its start, interlocked until then (R343), and ends it. -/
def listResults (s : State) (k : Cmd) (t : Nat) (vs : List Nat) (pred : Option Word) : State :=
  let s := putSync s { k with start := some t }
  let s := modUnit s k.uid (fun c => (k.names.foldl (fun (c : Ctx) n => c.await (.s n) (t + 24)) c).await (.p (nth k.sample 0)) (t + 24))
  let s := (k.names.zip vs).foldl (fun s x =>
    if x.1 = 0 then s else schedCmd s k (t + 24) 12 (.bank k.uid (8 * x.1) (bytesOfNat 8 x.2) [])) s
  let s := match pred with
    | some w => schedCmd s k (t + 24) 12 (.pred k.uid (nth k.sample 0) (-1) w)
    | none => s
  schedCmd s k (t + 24) 12 (.micro k.core 6 k.id)

/-- WLNEXT starts: the next item is taken. -/
def wlnextStart (s : State) (c : Ctx) (k : Cmd) (t : Nat) : State :=
  match (c.work.items.drop c.work.taken).head? with
  | none => listResults s k t [0, 0, 0, 0, 0] (some 0)
  | some x =>
    let s := modUnit s c.uid (fun c => { c with work := { c.work with taken := c.work.taken + 1 } })
    let sch := (((recOf s c).buckets.drop x.bucket).head?.map Bucket.sched).getD 0
    listResults s k t [x.expert, x.rowStart, x.rows, x.bucket, (c.entry + BitVec.ofNat 64 (4 * sch)).toNat] (some (-1))

/-- WID starts. -/
def widStart (s : State) (c : Ctx) (k : Cmd) (t : Nat) : State :=
  let w := c.work
  listResults s k t [w.items.length, w.items.length - w.taken, w.cost, w.cap] none

/-- A command of the synchronisation engine starts at tick t. -/
def syncStart (s : State) (k : Cmd) (t : Nat) : State :=
  match k.ins, unitOf s k.uid with
  | .dispatch _ _, _ => dispatchArrive s k t
  | .wlnext _ _ _, some c => wlnextStart s c k t
  | .wid _ _, some c => widStart s c k t
  | _, _ => dropSync s k.core k.id

/-- The first command of a core that its synchronisation engine starts at tick t. -/
def syncReady (s : State) (core t : Nat) : Option Cmd :=
  (dieOf s (dieOfCore core)).sync.find? (fun k => k.core == core && k.start.isNone && k.due ≤ t)

end Sys2Proof.Machine
end

