-- ==== Sys2Proof/Machine/Storage.lean ====
section
/-!
DEFINITION. Storage words, their parity and their recovery (R191 to R194, Table 9.4), and what a read of a flagged word does to the
engine that makes it (R193).
-/
set_option linter.unusedVariables false
namespace Sys2Proof.Machine
open Sys2Proof

/-! ## Words and groups (log entry 15)

A storage word is named by its byte address: below 2^80 in `State.mem`'s addressing, scratchpad and mezzanine; from 2^80 on the register
store of a unit (unit × 2^19 + offset); from 2^81 on the alcove of a core (core × 2^20 + offset); from 2^82 on a core's gradient
accumulators (core × 2^20 + 4 × number); from 2^83 on a core's instruction cache; from 2^84 on the newel's journal; from 2^85 on the
newel's instruction memory; from 2^86 on a core's weight banks (core × 2^20 + bank × 32,768 + offset); from 2^87 on a unit's flight
buffer (unit × 2^20 + place); from 2^100 on a die's record cache (die × 2^90 + the address cached); from 2^110 on a core's prefetch
buffer (core × 2^90 + the address cached). A group is 64 words that lie 512 words apart in a 256 KiB block. -/

def parityGroup (w : Nat) : Nat := w / 262144 * 512 + w / 8 % 512
def parityWord (g i : Nat) : Nat := g / 512 * 262144 + (i * 512 + g % 512) * 8

/-- Where the errors of a word are kept: 0 with the module, 1 with a core, 2 with a unit; its number; and the word's name less its key
there. -/
def homeOf (w : Nat) : Nat × Nat × Nat :=
  let at_ := fun (kind base size first : Nat) => (kind, (w - base) / size, base + (w - base) / size * size - first)
  if 2 ^ 110 ≤ w then at_ 1 (2 ^ 110) (2 ^ 90) (2 ^ 30)
  else if 2 ^ 100 ≤ w then (0, 0, 0)
  else if 2 ^ 87 ≤ w then at_ 2 (2 ^ 87) (2 ^ 20) (2 ^ 20)
  else if 2 ^ 86 ≤ w then at_ 1 (2 ^ 86) (2 ^ 20) (3 * 2 ^ 20)
  else if 2 ^ 84 ≤ w then (0, 0, 0)
  else if 2 ^ 83 ≤ w then at_ 1 (2 ^ 83) (2 ^ 20) (2 * 2 ^ 20)
  else if 2 ^ 82 ≤ w then at_ 1 (2 ^ 82) (2 ^ 20) (2 ^ 20)
  else if 2 ^ 81 ≤ w then at_ 1 (2 ^ 81) (2 ^ 20) 0
  else if 2 ^ 80 ≤ w then at_ 2 (2 ^ 80) (2 ^ 19) 0
  else (0, 0, 0)

/-- The name of a word of a core, and of a unit, by its key there. -/
def coreWordName (k key : Nat) : Nat :=
  if 2 ^ 30 ≤ key then 2 ^ 110 + k * 2 ^ 90 + (key - 2 ^ 30)
  else if 3 * 2 ^ 20 ≤ key then 2 ^ 86 + k * 2 ^ 20 + (key - 3 * 2 ^ 20)
  else if 2 * 2 ^ 20 ≤ key then 2 ^ 83 + k * 2 ^ 20 + (key - 2 * 2 ^ 20)
  else if 2 ^ 20 ≤ key then 2 ^ 82 + k * 2 ^ 20 + (key - 2 ^ 20)
  else 2 ^ 81 + k * 2 ^ 20 + key
def unitWordName (u key : Nat) : Nat := if 2 ^ 20 ≤ key then 2 ^ 87 + u * 2 ^ 20 + (key - 2 ^ 20) else 2 ^ 80 + u * 2 ^ 19 + key

/-- Every error, by its word's name. -/
def allErrors (s : State) : List (Nat × Nat) :=
  s.upsets ++ s.cores.flatMap (fun (k : Nat × CoreSt) => k.2.upsets.map (fun u => (coreWordName k.1 u.1, u.2)))
    ++ (allUnits s).flatMap (fun c => c.upsets.map (fun u => (unitWordName c.uid u.1, u.2)))

/-- Changes the errors where a word's are kept; f sees them by their words' names. -/
def modErrors (s : State) (w : Nat) (f : List (Nat × Nat) → List (Nat × Nat)) : State :=
  let (kind, n, base) := homeOf w
  let g := fun (l : List (Nat × Nat)) => (f (l.map (fun u => (u.1 + base, u.2)))).map (fun u => (u.1 - base, u.2))
  match kind with
  | 0 => { s with upsets := f s.upsets }
  | 1 => modCore s n (fun k => { k with upsets := g k.upsets })
  | _ => modUnit s n (fun c => { c with upsets := g c.upsets })

/-- Errors of a group. -/
def groupErrors (s : State) (g : Nat) : List (Nat × Nat) := (allErrors s).filter (fun u => parityGroup u.1 == g)
/-- Flagged data words of a group. -/
def groupFlagged (s : State) (g : Nat) : List (Nat × Nat) := (groupErrors s g).filter (fun u => !isVertical u.2 && isFlagged u.2)
/-- The group's vertical parity word is flagged. -/
def verticalFlagged (s : State) (g : Nat) : Bool := (groupErrors s g).any (fun u => isVertical u.2 && isFlagged u.2)
/-- The syndrome V: the XOR of a group's words and its vertical parity word (R191). -/
def syndrome (s : State) (g : Nat) : Nat := (groupErrors s g).foldl (fun v u => Nat.xor v (dataFlips u.2)) 0

/-! ## What a word is -/

/-- Marks a storage word poisoned; caches of instructions, weight banks, the flight buffer and the newel's own memories hold no marks,
those of a record cache or a prefetch buffer stand under numbers of their own. -/
def poisonWord (s : State) (w : Nat) : State :=
  let add := fun (l : List Nat) (x : Nat) => if l.contains x then l else l ++ [x]
  let mark := fun (p : Nat × Nat) => { s with memPoison := if s.memPoison.contains p then s.memPoison else s.memPoison ++ [p] }
  if 2 ^ 110 ≤ w then mark (prefetchSpace ((w - 2 ^ 110) / 2 ^ 90), (w - 2 ^ 110) % 2 ^ 90)
  else if 2 ^ 100 ≤ w then mark (recordSpace ((w - 2 ^ 100) / 2 ^ 90), (w - 2 ^ 100) % 2 ^ 90)
  else if 2 ^ 83 ≤ w then s
  else if 2 ^ 82 ≤ w then
    let x := w - 2 ^ 82
    let n := x % 2 ^ 20 / 8 * 2
    modCore s (x / 2 ^ 20) (fun k => { k with grads := [n, n + 1].foldl (fun g i => tmod g i default (fun a => { a with bad := true })) k.grads })
  else if 2 ^ 81 ≤ w then
    let x := w - 2 ^ 81
    modCore s (x / 2 ^ 20) (fun k => { k with alcPoison := add k.alcPoison (x % 2 ^ 20) })
  else if 2 ^ 80 ≤ w then
    let x := w - 2 ^ 80
    modUnit s (x / 2 ^ 19) (fun c => { c with bankPoison := add c.bankPoison (x % 2 ^ 19) })
  else mark (w / 2 ^ 41, w % 2 ^ 41)

/-- Flips bits of a storage word; what a prefetch buffer and the newel's own memories hold is not kept as words. -/
def flipWord (s : State) (w bits : Nat) : State :=
  let flip := fun (bs : List Byte) => bytesOfNat 8 (Nat.xor (natOfBytes bs) bits)
  let f := fun (m : Mem) (a : Nat) => m.writeRun a (flip (m.readRun a 8))
  let inRun := fun (bs : List Byte) (o : Nat) => bs.take o ++ flip ((bs.drop o).take 8) ++ bs.drop (o + 8)
  if 2 ^ 110 ≤ w then s
  else if 2 ^ 100 ≤ w then
    let x := (w - 2 ^ 100) % 2 ^ 90
    modDie s ((w - 2 ^ 100) / 2 ^ 90) (fun d => { d with records := d.records.map (fun e =>
      if e.1 ≤ x && x < e.1 + 192 then (e.1, inRun e.2 (x - e.1)) else e) })
  else if 2 ^ 87 ≤ w then
    let x := w - 2 ^ 87
    modUnit s (x / 2 ^ 20) (fun c => { c with flight := ((List.range c.flight.length).zip c.flight).map (fun p =>
      if x % 2 ^ 20 / 8 = p.1 / 8 then { p.2 with val := p.2.val ^^^ BitVec.ofNat 8 (bits / 2 ^ (8 * (p.1 % 8))) } else p.2) })
  else if 2 ^ 86 ≤ w then
    let x := (w - 2 ^ 86) % 2 ^ 20
    modCore s ((w - 2 ^ 86) / 2 ^ 20) (fun k => { k with res := k.res.map (fun (e : Nat × ResEntry) =>
      if e.1 = x / 32768 then (e.1, { e.2 with weights := f e.2.weights (x % 32768) }) else e) })
  else if 2 ^ 84 ≤ w then s
  else if 2 ^ 83 ≤ w then
    let x := w - 2 ^ 83
    let i := x % 2 ^ 20 / 32
    let o := x % 32
    modCore s (x / 2 ^ 20) (fun k => { k with fetched := ((List.range k.fetched.length).zip k.fetched).map (fun e =>
      if e.1 = i then (e.2.1, (inRun e.2.2.1 o, e.2.2.2)) else e.2) })
  else if 2 ^ 82 ≤ w then
    let x := w - 2 ^ 82
    let n := x % 2 ^ 20 / 8 * 2
    let half := fun (g : Tab GradAcc) (i b : Nat) => tmod g i default (fun a => { a with val := a.val ^^^ BitVec.ofNat 32 b })
    modCore s (x / 2 ^ 20) (fun k => { k with grads := half (half k.grads n bits) (n + 1) (bits / 2 ^ 32) })
  else if 2 ^ 81 ≤ w then
    let x := w - 2 ^ 81
    modCore s (x / 2 ^ 20) (fun k => { k with alcove := f k.alcove (x % 2 ^ 20) })
  else if 2 ^ 80 ≤ w then
    let x := w - 2 ^ 80
    modUnit s (x / 2 ^ 19) (fun c => { c with bank := f c.bank (if x % 2 ^ 19 = 0 then 2 ^ 19 else x % 2 ^ 19) })
  else { s with mem := f s.mem w }

/-- The instruction cache treats a flagged line as a miss (R193). -/
def missLine (s : State) (w : Nat) : State :=
  let x := w - 2 ^ 83
  modCore s (x / 2 ^ 20) (fun k => { k with fetched := k.fetched.eraseIdx (x % 2 ^ 20 / 32) })

/-- The core of a storage word, or 0xFFFF for a die-level array, and its die. -/
def coreOfWord (s : State) (w : Nat) : Nat × Nat :=
  match homeOf w with
  | (1, k, _) => (k, dieOfCore k)
  | (2, u, _) => (match unitOf s u with
    | some c => (c.core, dieOfCore c.core)
    | none => (0xFFFF, 0))
  | _ =>
    if 2 ^ 100 ≤ w then (0xFFFF, (w - 2 ^ 100) / 2 ^ 90)
    else if 2 ^ 84 ≤ w then (0xFFFF, 0)
    else match refOfSpace s (w / 2 ^ 41) with
      | some r => (if (rentOf s r).tier = 1 then (rentOf s r).core else 0xFFFF, refDie r)
      | none => (0xFFFF, 0)

/-- The launch whose storage a word is, if any: its unit's register store or flight, its team's slot or region, that of the context on
whose core a weight bank, a gradient accumulator or a prefetch buffer lies (R186). -/
def launchOfWord (s : State) (w : Nat) : Option Launch :=
  let ofTeam := fun (t : Nat) => if (tget s.teams t).isSome then tget s.launches (teamOf s t).launch else none
  match homeOf w with
  | (2, u, _) => (unitOf s u).bind (fun c => tget s.launches c.launch)
  | (1, k, _) =>
    if 2 ^ 83 ≤ w && w < 2 ^ 86 then none
    else if 2 ^ 82 ≤ w then
      (match (if 2 ^ 86 ≤ w && w < 2 ^ 110 then (tget (coreOf s k).res ((w - 2 ^ 86) % 2 ^ 20 / 32768)).bind (fun e =>
          (allUnits s).find? (fun u => u.core == k && u.slot == e.ctx && u.wait != .done && u.wait != .saved)) else tenantOf s k) with
        | some c => tget s.launches c.launch
        | none => none)
    else ofTeam (rentOf s (slotRef k (w % 2 ^ 20 / 32768))).team
  | _ => if 2 ^ 84 ≤ w then none else (refOfSpace s (w / 2 ^ 41)).bind (fun r => ofTeam (rentOf s r).team)

/-- The record of a storage error (R186). -/
def logStorage (s : State) (w source : Nat) : State :=
  let (core, die) := coreOfWord s w
  let vd := match (if core = 0xFFFF then none else tenantOf s core) with | some u => u.vd | none => 0xFF
  let l := (launchOfWord s w).getD default
  logRel s (now s die) core 0xFF source 0 vd w l.seq l.queue

/-! ## Recovery (R192, R193) -/

/-- Pair state FAILED: only the management window stays (R71). -/
def pairFailed (s : State) : State := { s with newel := { s.newel with pair := 5, failed := true, standbyOk := false } }

/-- What an uncorrectable word means besides its mark (R193): in the newel's instruction memory a take-over, in its journal FAILED. -/
def uncorrectable (s : State) (w : Nat) : State :=
  if 2 ^ 86 ≤ w then s
  else if 2 ^ 85 ≤ w then sched s 0 (now s 0) 18 0 0 (.ins .newelTakeover)
  else if 2 ^ 84 ≤ w then pairFailed s
  else s

/-- The group's errors are gone, but those that stand in its words unseen: V is as the words are. -/
def settleGroup (s : State) (g : Nat) : State := modErrors s (parityWord g 0) (fun l => l.filter (fun u => parityGroup u.1 != g))

/-- The recovery engine handles a group (Table 9.4), at a read of a flagged word or, with scrub, at the patrol: one flagged word is
rebuilt as itself XOR V; the vertical parity word is rebuilt from the words; two or more flagged words are poisoned; a nonzero V
with nothing flagged, which only the patrol sees, poisons the group. -/
def recoverGroup (s : State) (scrub : Bool) (g : Nat) : State :=
  let fl := groupFlagged s g
  let v := syndrome s g
  let vert := verticalFlagged s g
  match fl, vert with
  | [], false =>
    if !scrub || v = 0 then s
    else
      let w := ((groupErrors s g).headD default).1
      uncorrectable (logStorage ((List.range 64).foldl (fun s i => poisonWord s (parityWord g i)) (settleGroup s g)) w 6) w
  | [], true =>
    if !scrub then s
    else
      let w := (((groupErrors s g).find? (fun u => isVertical u.2)).getD default).1
      logStorage (settleGroup s g) w 4
  | [u], false =>
    let r := Nat.xor (dataFlips u.2) v
    logStorage (settleGroup (if r = 0 then s else flipWord s u.1 r) g) u.1 4
  | us, _ => us.foldl (fun s u => uncorrectable (logStorage (poisonWord (flipWord s u.1 (dataFlips u.2)) u.1) u.1 5) u.1) (settleGroup s g)

/-- An error strikes a word that may have one already. -/
def addError (s : State) (w e : Nat) : State :=
  let same := fun (u : Nat × Nat) => u.1 == w && isVertical u.2 == isVertical e
  let old := (((allErrors s).find? same).map Prod.snd).getD 0
  let new := Nat.xor (old % 2 ^ 68) (e % 2 ^ 68) + (if isVertical e then 2 ^ 68 else 0)
  let shown := fun (x : Nat) => if isSilent x then dataFlips x else 0
  let bits := Nat.xor (shown old) (shown new)
  let s := modErrors s w (fun l => l.filter (fun u => !same u) ++ (if new % 2 ^ 68 = 0 then [] else [(w, new)]))
  if bits = 0 then s else flipWord s w bits

/-- Groups with a flagged data word in a range of storage addresses (R193). -/
def flaggedIn (s : State) (lo n : Nat) : List Nat :=
  (((allErrors s).filter (fun u => !isVertical u.2 && isFlagged u.2 && u.1 < lo + n && lo < u.1 + 8)).map (fun u => parityGroup u.1)).eraseDups

/-! ## What engines read -/

/-- n bytes of a unit's register store, of a core's slot, and at an address of a unit. -/
def bankRange (c : Ctx) (off n : Nat) : List (Nat × Nat) := [(2 ^ 80 + c.uid * 2 ^ 19 + off, n)]
def slotRange (c : Ctx) (p off n : Nat) : List (Nat × Nat) := [(2 ^ 81 + c.core * 2 ^ 20 + p * 32768 + off, n)]
def weightRange (core b : Nat) : List (Nat × Nat) := [(2 ^ 86 + core * 2 ^ 20 + b * 32768, 32768)]
def gradRange (core b k n : Nat) : List (Nat × Nat) := [(2 ^ 82 + core * 2 ^ 20 + 4 * gradKey b k 0, 4 * n)]
def memRange (s : State) (c : Ctx) (a : Word) (n : Nat) : List (Nat × Nat) :=
  (spotAt s c a n).map (fun r => (locOf r.1 r.2.1, n))

/-- Storage that a command reads at its start. -/
def startReads (s : State) (c : Ctx) (k : Cmd) : List (Nat × Nat) :=
  match vform k.ins with
  | some (major, func, v) =>
    (vecReads major func v k).flatMap (fun o => bankRange c o 256)
      ++ (if major = 8 && func = 1 then (List.range 8).flatMap (fun i => memRange s c (k.vals.getD 0 0 + BitVec.ofNat 64 (32 * i)) 32) else [])
  | none =>
    match k.ins with
    | .sortc _ f => if f.fromTag = 1 then [] else
        (List.range (k.vals.getD 0 0).toNat).flatMap (fun i => memRange s c (elemAddr (k.streams.getD 0 0) i) 2)
    | .eload _ q img => bankRange c img.toNat (imageLen q.code)
    | .mmul _ _ | .mgrad _ _ | .mres _ _ => bankRange c (8 * nth k.names 0) 8
    | _ => []

/-- The weights of the banks that the next rows of a command select (R131). -/
def rowBanks (s : State) (c : Ctx) (f : MulF) (k : Cmd) (n : Nat) : List (Nat × Nat) :=
  let x := coreOf s c.core
  let i0 := k.landed + k.counted
  let e := entryAt x f.bank.toNat
  let resident := if k.acc.length < 2 then decide (e.state = 2 && e.ctx = c.slot) else nth k.acc 1 = 1
  (((List.range (min n (k.live - i0))).filterMap (fun j => (selectBank x c f false resident (i0 + j)).2.1)).eraseDups).flatMap (weightRange c.core)

/-- Storage that the next step of a running command reads. -/
def stepReads (s : State) (c : Ctx) (k : Cmd) (t : Nat) : List (Nat × Nat) :=
  let g := k.streams.getD 0 0
  let rows := fun (f : MulF) (n : Nat) => match physSlot c f.slot.toNat with
    | some p => (List.range (min n (k.live - (k.landed + k.counted)))).flatMap (fun j =>
        slotRange c p ((k.landed + k.counted + j) * rowBytes f.ty.toNat) (rowBytes f.ty.toNat))
    | none => []
  match k.ins with
  | .xld _ f => (List.range (wordsDue f k t)).flatMap (fun i => memRange s c (wordAddr g (k.counted + i)) 32)
  | .xst _ f => bankRange c (nth k.names 0 + 32 * k.counted) (32 * wordsDue f k t)
  | .mmul _ f => rows f (rho f.ty.toNat) ++ rowBanks s c f k (rho f.ty.toNat)
  | .mgrad _ f => rows f 1 ++ (List.range 128).flatMap (fun n => memRange s c (elemAddr g (128 * (k.landed + k.counted) + n)) 2)
  | .mres _ _ => bankRange c (nth k.names 1 + (k.landed + k.counted) * vPitch (k.views.getD 0 0)) 512
  | .lnest _ f =>
    let q := nestRate f.ty.toNat
    let first := k.landed + k.counted * q
    (List.range (min q (k.live - first))).flatMap (fun i => ((nestOperands f).filter (fun o => o != 0)).flatMap (fun o =>
      let g := k.streams.getD o 0
      memRange s c (elemAddr g (nestElem k o (nestIndex k (first + i))).toNat) (unitBytes (gFormat g))))
  | .xsend _ _ => (List.range (min 4 (k.live - k.counted))).flatMap (fun i =>
      memRange s c (k.vals.getD 0 0 + BitVec.ofNat 64 (32 * (k.counted + i))) 32)
  | i => match vform i with
    | some (8, func, v) => if func = 1 then [] else
        ((indexedElems k).filter (fun e => e.1 / 16 = k.landed)).flatMap (fun e => memRange s c (BitVec.ofNat 64 e.2) (tyBits v.ty.toNat / 8))
    | _ => []

/-- Groups whose flagged words a list of reads meets. -/
def flaggedReads (s : State) (rs : List (Nat × Nat)) : List Nat := (rs.flatMap (fun r => flaggedIn s r.1 r.2)).eraseDups

/-- A command's unit stalls for 72 ticks (R193): the ticks of its work count from 72 later. -/
def stallCmd (k : Cmd) : Cmd :=
  { k with
    start := k.start.map (· + 72)
    sample := match k.ins with | .xld _ _ | .xst _ _ => (nth k.sample 0 + 72) :: k.sample.drop 1 | _ => k.sample }

/-- What a command owns on the agenda comes 72 ticks later. -/
def delayOwn (s : State) (id : Nat) : State :=
  { s with agenda := s.agenda.map (fun e => if e.own = id then { e with tick := e.tick + 72 } else e) }

/-- The load path stalls for 72 ticks while a word is rebuilt or poisoned (R130, R193): what it loads and will load comes later. -/
def stallPath (s : State) (core : Nat) : State :=
  let s := modCore s core (fun k => { k with
    pathFree := k.pathFree + 72
    loads := k.loads.map (fun l => if l.drain then l else { l with began := l.began + 72 })
    res := k.res.map (fun (e : Nat × ResEntry) => if e.2.state = 1 then (e.1, { e.2 with ready := e.2.ready + 72 }) else e) })
  { s with agenda := s.agenda.map (fun e => match e.act with
    | .ins (.residencyLoadEnd c _) => if c = core then { e with tick := e.tick + 72 } else e
    | .ins (.residencyLoadBegin c ld) =>
      if c = core && (coreOf s core).loads.any (fun l => l.id == ld && !l.drain) then { e with tick := e.tick + 72 } else e
    | _ => e) }

/-- Bytes of its slot that a load reads at its next words. -/
def pathReads (s : State) (core ld : Nat) : List (Nat × Nat) :=
  let t := now s (dieOfCore core)
  match (coreOf s core).loads.find? (fun l => l.id == ld && l.live) with
  | none => []
  | some l =>
    let u := loadWords l.ty
    let n := ((List.range (u - l.word)).filter (fun i => l.began + (l.word + i) * 128 / u ≤ t)).length
    [(2 ^ 81 + core * 2 ^ 20 + l.slot * 32768 + l.word * 32, n * 32)]

end Sys2Proof.Machine
end

