-- ==== Sys2Proof/Machine/Start.lean ====
section
/-!
DEFINITION. Starts of queue entries (R103 to R107, R116, R117, R284): readiness, SCHEDULE_MISS at a due tick, tokens,
RESUME, and the steps of running commands.
-/
set_option linter.unusedVariables false
namespace Sys2Proof.Machine
open Sys2Proof

/-- The stopped command a RESUME re-enters. -/
def savedFor (s : State) (k : Cmd) (q : Nat) : Option EngState :=
  match k.ins with
  | .resume _ _ => (unitOf s k.uid).bind (fun c => tget c.saved q)
  | _ => none

/-- Tokens a start removes: a RESUME of a command that never started removes that command's as well. -/
def popsOf (s : State) (q : Nat) (k : Cmd) : List Nat :=
  popFifos q k.ins ++ (match savedFor s k q with
    | some e => if e.cmd.prog = 2 then popFifos q e.cmd.ins else []
    | none => [])

/-- A command of a timed segment with a due tick: one that carries a stamp (R105), or a form V entry, due at D (R284). -/
def stamped (k : Cmd) : Bool := k.timed && ((timingOf k.ins).isSome || (vform k.ins).isSome)

/-- The tags a SORTC takes its ids from are still to be written by an earlier VQ entry (R285). -/
def sortWaits (s : State) (f : SortF) (k : Cmd) : Bool :=
  let lo := f.idSrc.toNat * 128
  f.fromTag == 1 && s.agenda.any (fun e => e.uid == k.uid && e.own != 0 && e.own < k.id && (match e.act with
    | .eff (.tags _ first vs) => first < lo + (k.vals.getD 0 0).toNat && lo < first + vs.length
    | _ => false))

/-- Why a command could not start now, as tinfo of SCHEDULE_MISS (Table 5.4). -/
def notReady (s : State) (q : Nat) (k : Cmd) : Option Nat :=
  match vform k.ins with
  | some (major, func, v) =>
    if vecInterlocked s major func v k then some 2 else if vecQueues s v k then none else some 5
  | none =>
    match k.ins, savedFor s k q with
    | .sortc _ f, none => if sortWaits s f k then some 2 else none
    | .xld _ f, _ => if xferRoom s f { k with landed := 0 } then none else some 5
    | _, some e => (match e.cmd.ins with
      | .xld _ f => if xferRoom s f (stoppedCmd e) then none else some 5
      | .sortc _ f => if sortWaits s f { e.cmd with uid := k.uid, id := k.id } then some 2 else none
      | _ => none)
    | _, none => none

/-- What a queue does at this tick: an entry starts, or misses its start with a tinfo (R105, R106, Table 5.4). -/
def queueNext (s : State) (core q : Nat) : Option (Cmd × Option Nat) :=
  let x := coreOf s core
  let t := now s (dieOfCore core)
  let l := (queueOf x q).filter (fun k => !(q == 5 && k.inRegion))
  let head := if l.any (fun k => k.start.isSome) then none else l.head?
  let first : Option (Cmd × Option Nat) := match head with
    | none => none
    | some h =>
      if t < h.due then none
      else if !tokensAt x (popsOf s q h) t then (if stamped h then some (h, some 3) else none)
      else match notReady s q h with
        | none => some (h, none)
        | some i => if stamped h then some (h, some i) else none
  match first with
  | some r => some r
  | none =>
    (l.find? (fun k => stamped k && k.start.isNone && k.due ≤ t && !(head.any (fun h => h.id == k.id)))).map (fun k => (k, some 2))

/-- Starts a command that is no RESUME. -/
def freshStart (s : State) (c : Ctx) (k : Cmd) (t : Nat) : Res State :=
  match k.ins with
  | .mloadw _ f => mloadwStart s c f k t
  | .mmul _ f => mmulStart s c f k t
  | .mgrad _ f => mgradStart s c f k t
  | .mgdrain _ _ => mgdrainStart s c k t
  | .mres _ f => mresStart s c f k t
  | .slclaim _ _ _ => slclaimStart s c k t
  | .slrel _ n => slrelStart s c n k t
  | .lnest _ f => nestStart s c f k t t
  | .sortc _ f => sortStart s c f k t t
  | .xld _ f => xferStart s c true f k t
  | .xst _ f => xferStart s c false f k t
  | .esave _ q img => .ok (esaveStart s c q.code img.toNat k t)
  | .eload _ q img => eloadStart s c q.code img.toNat k t
  | .xsend _ f => xsendStart s c f k t
  | .xrecv _ f => xrecvStart s c f k t
  | _ => .ok (vecStart s k t)

/-- Where the ticks of a stopped command count from when it goes on at tick t: for a timed one, d later than before its stop (R117). -/
def shiftedStart (k : Cmd) (d : Option Nat) (t : Nat) : Nat :=
  match d, k.names with
  | some d, [v] => v + d
  | _, _ => t

/-- An XLD or XST that goes on: a timed one's words keep their ticks, d later (R117), another's count anew (R328). -/
def xferAgain (k : Cmd) (d : Option Nat) (t : Nat) : Cmd :=
  match d, k.sample with
  | some d, [v, j] => { k with sample := [v + d, j] }
  | _, _ => { k with sample := [t, k.landed] }

/-- A stopped command goes on from its counters at tick t (R117); d is how much later its ticks are, for a timed one that has them.
Rows enter again from t on (R323, R351). -/
def goOnFrom (s : State) (c : Ctx) (k : Cmd) (d : Option Nat) (t : Nat) : Res State :=
  match k.ins with
  | .mmul _ _ | .mgrad _ _ | .mres _ _ => .ok (rowsGo s k t)
  | .mgdrain _ _ => .ok (drainGo s k t)
  | .lnest _ f => nestStart s c f k t (shiftedStart k d t)
  | .sortc _ f => sortStart s c f k t (shiftedStart k d t)
  | .xld _ f =>
    let k := xferAgain k d t
    if f.kind = 3 then
      match physSlot c f.num.toNat with
      | some p => .ok (xferGo s f { k with acc := [p] } 2 t)
      | none => flt cSLOT (f.num.setWidth 64) 1
    else .ok (xferGo s f k 2 t)
  | .xst _ f => .ok (xferGo s f (xferAgain k d t) 3 t)
  | _ => fltOpen cILLEGAL

/-- A command whose rows a RESUME enters again where their writes had not performed (R323, R351). -/
def entersRows (i : Instr) : Bool := match i with | .mmul _ _ | .mgrad _ _ | .mres _ _ => true | _ => false

/-- RESUME starts (R117): with no stopped command it is ILLEGAL; else that command runs in RESUME's place. One that had only its pushes
left completes (Table 5.4). -/
def resumeStart (s : State) (c : Ctx) (q : Nat) (k : Cmd) (t : Nat) : Res State :=
  match tget c.saved q with
  | none => fltOpen cILLEGAL
  | some e =>
    let m := { resumed q k e with prog := 0 }
    let c' := { c with saved := tdel c.saved q }
    let s := putCmd (setUnit s c') k.core q m
    if e.cmd.prog = 2 then freshStart s c' m t
    else if e.cmd.prog = 1 && !entersRows e.cmd.ins then .ok (completeAt (putCmd s k.core q { m with start := some t }) m q t)
    else goOnFrom s c' m (if e.cmd.timed then some (t - e.tick) else none) t

/-- Starts an entry: tokens go with its start, a fault of the start is precise at the command; a flagged word among what it reads stalls it
for 72 ticks (R193). -/
def startEntry (s : State) (q : Nat) (k : Cmd) : State :=
  let t := now s (dieOfCore k.core)
  match unitOf s k.uid with
  | none => dropCmds s k.core (fun m => m.id == k.id)
  | some c =>
    let s' := modCore s k.core (fun x => takeTokens x (popsOf s q k))
    match flaggedReads s (startReads s c k) with
    | g :: gs =>
      let k := { k with start := some t, prog := 4 }
      microAt (putCmd ((g :: gs).foldl (fun s g => recoverGroup s false g) s') k.core q k) k q (t + 72)
    | [] =>
      match (match k.ins with | .resume _ _ => resumeStart s' c q k t | _ => freshStart s' c k t : Res State) with
      | .ok s' => s'
      | .error e => engineFault s k false e

/-- A start that met a flagged word goes on, 72 ticks later (R193). -/
def lateStart (s : State) (q : Nat) (k : Cmd) (t : Nat) : State :=
  let k := { k with start := none, prog := 0 }
  match unitOf s k.uid with
  | none => s
  | some c => match freshStart (putCmd s k.core q k) c k t with
    | .ok s => s
    | .error e => engineFault s k false e

/-- QUEUE_ENTRY_START (R104, R105): the entry that is next on a queue starts, or its start is missed; queue 6 stands for
the synchronisation engine's commands of a core. -/
def execQueueEntryStart (core q : Nat) (s : State) : Out :=
  if q = 6 then
    match syncReady s core (now s (dieOfCore core)) with
    | some k => .next (syncStart s k (now s (dieOfCore core)))
    | none => .next s
  else match queueNext s core q with
    | none => .next s
    | some (k, none) => .next (startEntry s q k)
    | some (k, some i) =>
      .next (engineFault s { k with prog := 2 } (keeps k.ins) ⟨cMISS, BitVec.ofNat 64 k.due, BitVec.ofNat 64 i, false⟩)

/-- The next step of work of a running command, at tick t. -/
def stepCmd (s : State) (core q id : Nat) : State :=
  let t := now s (dieOfCore core)
  if q = 6 then dropSync s core id
  else match running s core q id with
    | none => s
    | some k =>
      match k.ins with
      | .mmul _ f => mulStep s f false k t
      | .mgrad _ f => mulStep s f true k t
      | .mres _ f => mresStep s f k t
      | .lnest _ f =>
        (match unitOf s k.uid with
        | none => s
        | some c => match nestMicro s c f k t with
          | .ok s => s
          | .error (e, k) => engineFault (dropOwned s [id]) (nestStopped f k t) true e)
      | .xld _ f => xferStep s true f k t
      | .xst _ f => xferStep s false f k t
      | .xsend _ f => xsendStep s f k t
      | _ => vecStep s k t

/-- The next step of work of a running command: a flagged word among what it reads stalls it for 72 ticks first (R193). -/
def performMicro (s : State) (core q id : Nat) : State :=
  let t := now s (dieOfCore core)
  match (if q = 6 then none else running s core q id) with
  | none => stepCmd s core q id
  | some k =>
    if k.prog = 4 then lateStart s q k t
    else match unitOf s k.uid with
      | none => stepCmd s core q id
      | some c => match (if (allErrors s).isEmpty then [] else flaggedReads s (stepReads s c k t)) with
        | [] => stepCmd s core q id
        | gs =>
          let k := stallCmd k
          microAt (putCmd (gs.foldl (fun s g => recoverGroup s false g) s) core q k) k q (t + 72)

end Sys2Proof.Machine
end

