-- ==== Sys2Proof/Machine/Launch.lean ====
section
/-!
DEFINITION. Launches and teams (R49 to R65, R70, R83, R98, R197): records and their checks, the initialiser block, issue
conditions and placement, the issue grant, the end of units, teams and launches.
-/
set_option linter.unusedVariables false
namespace Sys2Proof.Machine
open Sys2Proof

/-! ## Records (R49, R50) -/

/-- The record of 256 bytes (Table 3.1). -/
def recordOf (b : List Byte) : LaunchRec :=
  let at_ := fun (o n : Nat) => natOfBytes ((b.drop o).take n)
  { codeHandle := at_ 0 8, entry := at_ 8 4, priority := at_ 12 1 % 4, early := at_ 13 1 % 2 == 1
    teamLevel := at_ 14 1, placeLevel := at_ 15 1, widths := (List.range 6).map (fun i => at_ (16 + i) 1)
    widFirst := at_ 24 8, widLast := at_ 32 8, useMask := BitVec.ofNat 24 (at_ 40 8), budget := at_ 48 8
    initPtr := at_ 56 8, viewValid := BitVec.ofNat 16 (at_ 64 2), streamValid := BitVec.ofNat 16 (at_ 66 2)
    spadGranules := at_ 68 2, alcoveSlots := at_ 70 1, privPages := at_ 72 4, grantTicks := at_ 80 8
    nBuckets := at_ 88 1
    deps := (List.range 4).map (fun i => ⟨at_ (96 + 8 * i) 4, at_ (100 + 8 * i) 2, at_ (102 + 8 * i) 1⟩)
    buckets := (List.range 8).map (fun i => ⟨at_ (128 + 8 * i) 2, at_ (130 + 8 * i) 2, at_ (132 + 8 * i) 3, at_ (135 + 8 * i) 1⟩)
    doneWord := at_ 192 8 }

/-- The code region a handle names (R45). -/
def codeOf (v : VDev) (h : Nat) : Option Code :=
  match tget v.codes (h % 256) with
  | some e => if e.used && bitsOf h 48 16 = e.gen && bitsOf h 8 40 = 0 then some e else none
  | none => none

/-- A launch that has been entered and has not ended. -/
def liveLaunch (s : State) (vd queue seq : Nat) : Option Nat :=
  (s.launches.find? (fun e => e.2.vd == vd && e.2.queue == queue && e.2.seq == seq)).map Prod.fst

/-- A dependence names a launch whose ENTER is journaled; one too old for its outcome to be kept serves kind 1 only (R50). -/
def depKnown (s : State) (vd : Nat) (d : Dep) : Bool :=
  let v := vdOf s vd
  d.kind = 0 || (liveLaunch s vd d.queue d.seq).isSome || v.outcomes.any (fun o => o.1 == d.queue && o.2.1 == d.seq)
    || (d.kind = 1 && 4096 ≤ v.outcomes.length &&
      (let n := (((tget v.queues d.queue).getD default).sqHead - BitVec.ofNat 32 d.seq).toNat; 1 ≤ n && n < 2 ^ 31))

/-- Sum of the widths of fields f to 5. -/
def widthFrom (r : LaunchRec) (f : Nat) : Nat := (r.widths.drop f).foldl (· + ·) 0

/-- The checks of R49 and R53 on a record's bytes. -/
def recordOk (s : State) (vd : Nat) (b : List Byte) : Bool :=
  let r := recordOf b
  let v := vdOf s vd
  let at_ := fun (o n : Nat) => natOfBytes ((b.drop o).take n)
  let sum := widthFrom r 0
  let bks := r.buckets.take r.nBuckets
  (match codeOf v r.codeHandle with | some e => r.entry % 4 == 0 && r.entry < e.size | none => false)
    && at_ 12 1 < 4 && at_ 13 1 < 2 && r.teamLevel ≤ r.placeLevel && r.placeLevel ≤ 6
    && r.widths.all (· ≤ 64) && sum ≤ 64 && at_ 22 2 == 0
    && r.widFirst ≤ r.widLast && r.widLast < 2 ^ sum && at_ 43 5 == 0
    && 1 ≤ r.budget && r.budget ≤ 2 ^ 48 && r.initPtr % 64 == 0 && bitsOf r.initPtr 57 7 == 0
    && r.spadGranules ≤ 896 && r.alcoveSlots ≤ 32 && at_ 71 1 == 0 && 1 ≤ r.privPages && r.privPages ≤ 32768
    && at_ 76 4 == 0 && r.budget ≤ r.grantTicks && r.nBuckets ≤ 8 && at_ 89 7 == 0
    && r.deps.all (fun d => d.kind ≤ 2 && (d.kind == 0 || d.queue ≤ 63) && depKnown s vd d)
    && (List.range 4).all (fun i => at_ (103 + 8 * i) 1 == 0)
    && bks.all (fun k => 1 ≤ k.cap && 1 ≤ k.cost) && (List.range (bks.length - 1)).all (fun i =>
      match bks[i]?, bks[i + 1]? with | some a, some c => a.cap < c.cap | _, _ => true)
    && (r.doneWord == 0 || (r.doneWord % 8 == 0 && (match windowOf (BitVec.ofNat 64 r.doneWord) with | .sync _ _ => true | _ => false)))
    && at_ 200 56 == 0 && widthFrom r r.teamLevel - widthFrom r r.placeLevel ≤ 3

/-- The teams of a record's WIDs: the first WID of each and its units (R53). -/
def teamsOf (r : LaunchRec) : List (Nat × Nat) :=
  let tl := 2 ^ widthFrom r r.teamLevel
  let pl := 2 ^ widthFrom r r.placeLevel
  (List.range (r.widLast / tl + 1 - r.widFirst / tl)).map (fun i =>
    let k := r.widFirst / tl + i
    let lo := max r.widFirst (k * tl)
    let hi := min r.widLast ((k + 1) * tl - 1)
    (lo, hi / pl - lo / pl + 1))

/-- First and last WID of unit i of a team that begins at a WID. -/
def unitWids (r : LaunchRec) (first i : Nat) : Nat × Nat :=
  let pl := 2 ^ widthFrom r r.placeLevel
  let k := first / pl + i
  (max first (k * pl), min r.widLast ((k + 1) * pl - 1))

/-- A launch ends with a status at a tick: the LAUNCH_END event follows. -/
def endLaunchAt (s : State) (id status cause : Nat) (info : Word) (tick : Nat) : State :=
  let l := launchOf s id
  if l.status.isSome then s
  else sched (modLaunch s id (fun l => { l with status := some status, cause := cause, info := info.toNat, endTick := tick }))
    0 (now s 0) 17 0 0 (.ins (.launchEnd id))

/-- A launch ends now. That end_tick is die 0's tick is log entry 86's. -/
def endLaunch (s : State) (id status cause : Nat) (info : Word) : State := endLaunchAt s id status cause info (now s 0)

/-- A launch whose end has not taken effect on what depends on it (R32, R50). -/
def launchLives (s : State) (vd queue seq : Nat) : Bool :=
  s.launches.any (fun e => e.2.vd == vd && e.2.queue == queue && e.2.seq == seq && !e.2.effected)

/-- A kind-2 dependence has already ended with a status other than DONE, its outcome being kept (R50). -/
def depFailed (s : State) (vd : Nat) (d : Dep) : Bool :=
  d.kind = 2 && !launchLives s vd d.queue d.seq
    && (match (vdOf s vd).outcomes.find? (fun o => o.1 == d.queue && o.2.1 == d.seq) with
      | some o => o.2.2 != 0
      | none => false)

/-- A record is entered: its launch and its teams stand in the scoreboard (R55). A kind-2 dependence that has already
ended other than DONE cancels the launch at once (R50). -/
def enterLaunch (s : State) (vd queue seq : Nat) (r : LaunchRec) : State :=
  let cancelled := r.deps.any (depFailed s vd)
  let (id, s) := fresh s
  let ts := teamsOf r
  let l : Launch := { (default : Launch) with
    vd := vd, queue := queue, seq := seq, level := min r.priority (vdOf s vd).limits.2.1, body := r
    unitsLeft := (ts.map Prod.snd).foldl (· + ·) 0 }
  let s := { s with launches := tset s.launches id l }
  let s := poke (ts.foldl (fun s t =>
    let (k, s) := fresh s
    { s with teams := tset s.teams k { (default : Team) with launch := id, first := t.1, size := t.2 } }) s)
  if cancelled then endLaunch s id 3 0 0 else s

/-! ## Ends (R54, R70, R74, R197) -/

/-- A team holds cores. -/
def holds (m : Team) : Bool := m.state = 1 || m.state = 2 || m.state = 5

/-- A launch ends as R57 says: no further team issues, and those that run go on first. -/
def endSoftly (s : State) (id cause : Nat) (info : Word) : State :=
  if (launchOf s id).status.isSome || (launchOf s id).stage = 3 then s
  else if s.teams.any (fun e => e.2.launch == id && (holds e.2 || e.2.state == 3)) then
    modLaunch s id (fun l => { l with stage := 3, cause := cause, info := info.toNat })
  else endLaunch s id 1 cause info

/-- Regions a unit's principal owns pass to principal 0 (R74). -/
def passRegions (s : State) (c : Ctx) : State :=
  { s with rents := s.rents.map (fun (e : Nat × Rent) =>
      if e.2.owner = ownerOf c && c.principal != 0 && e.2.state != 0 then (e.1, { e.2 with owner := c.vd * 65536 }) else e) }

/-- A tier-0 item of a team goes back with its refund (Table 4.7). -/
def giveBackItem (s : State) (c : Ctx) (ref : Nat) : State :=
  if (rentOf s ref).team = c.team then giveBack s c.vd ref else s

/-- A unit's issue grant and the slots it still holds are released with refund (R59, R125). -/
def releaseGrant (s : State) (c : Ctx) : State :=
  let s := c.slots.foldl (fun s e => giveBackItem s c (slotRef c.core e.2)) s
  let s := giveBackItem s c c.bankRef
  let s := ([c.grantRefs.getD 1 0, c.grantRefs.getD 2 0, c.priv, c.saveRef].filter (· != 0)).foldl (fun s r => giveBack s c.vd r) s
  modUnit s c.uid (fun c => { c with slots := [] })

/-- The deficit of a virtual device's level pays for the ticks a team held its cores (R60). -/
def chargeTeam (s : State) (team : Nat) : State :=
  let m := teamOf s team
  let l := launchOf s m.launch
  let cost : Int := ((m.units.length * (now s 0 - m.issueTick) : Nat) : Int)
  modVd s l.vd (fun v => { v with deficit := tset v.deficit l.level ((tget v.deficit l.level).getD 0 - cost) })

/-- With no resident context left on a core, the next one issues without a switch (R95). -/
def freeHolder (s : State) (core : Nat) : State :=
  if (allUnits s).any (fun u => u.core == core && u.wait != .done && u.wait != .saved) then s
  else modCore s core (fun k => { k with holder := none })

/-- A team is over: its grants and claims go, its cores are free (R59, R60, R67). -/
def endTeam (s : State) (team : Nat) : State :=
  let us := teamUnits s team
  let m := teamOf s team
  let vd := (launchOf s m.launch).vd
  let s := if holds m then chargeTeam s team else s
  let s := releaseClaims s team vd
  let s := us.foldl (fun s u => releaseGrant s u) s
  let ids := us.map Ctx.uid
  let s := { s with
    units := s.units.filter (fun e => !ids.contains e.1)
    cx := s.cx.filter (fun c => !ids.contains c.uid) }
  let s := us.foldl (fun s u => freeHolder s u.core) s
  poke (modTeam s team (fun m => { m with state := 4, units := [] }))

/-- All units of a team have exited. -/
def teamDone (s : State) (team : Nat) : Bool := (teamUnits s team).all (fun u => u.wait = .done)

/-- A unit finishes (R54): it counts, its regions pass on, its team and its launch may be over. That end_tick of a launch
that is DONE is the tick of its last unit's die is log entry 86's. -/
def unitDone (s : State) (c : Ctx) : State :=
  let s := passRegions s c
  let s := modLaunch s c.launch (fun l => { l with unitsDone := l.unitsDone + 1, unitsLeft := l.unitsLeft - 1 })
  let s := gsyncArrived s (dieOfCore c.core) c.team
  let s := dispatchCheck s c.team
  let s := if teamDone s c.team then endTeam s c.team else s
  let l := launchOf s c.launch
  if l.status.isSome then s
  else if l.stage = 3 && !(s.teams.any (fun e => e.2.launch == c.launch && (holds e.2 || e.2.state == 3))) then
    endLaunch s c.launch 1 l.cause (BitVec.ofNat 64 l.info)
  else if l.unitsLeft = 0 then
    sched (modLaunch s c.launch (fun l => { l with status := some 0, endTick := tickOf s c })) 0 (now s 0) 17 0 0 (.ins (.launchEnd c.launch))
  else s

/-- A barrier registration goes, without an arrival and without landing anything (R197). -/
def dropRegistrations (s : State) (c : Ctx) : State :=
  c.regs16.foldl (fun s r =>
    let o : SyncOp := { (default : SyncOp) with addr := r.addr }
    match opPlace s c o with
    | none => s
    | some p => if (rights s c p).isSome || (wordAt s p.space p.off).frozen then s
        else dropAt s c.uid p.space p.off r.addr (tickOf s c)) s

/-- A store to the own scratchpad that has executed and not performed (R110). -/
def isStore (e : Ev) : Bool :=
  match e.act with
  | .eff (.store _ _ _ _) => true
  | _ => false

/-- No command of a context has work or writes to do, and no store of it is on its way. Copies and operations at a
synchronisation engine do not count. -/
def settled (s : State) (uid : Nat) : Bool :=
  s.agenda.all (fun e => !(e.uid == uid && ((e.own != 0 && e.phase != 5) || isStore e)))

/-- A context of a launch that the monitor ends issues and starts nothing more (R116, R197): flights, operand queues, held
effects and unstarted commands are discarded, and started copies are cut at their next word. -/
def discard (s : State) (uid : Nat) : State :=
  match unitOf s uid with
  | none => s
  | some c =>
    if c.wait = .done then s
    else
      let mine := fun (m : Cmd) => m.uid == uid
      let copies := s.engines.flatMap (fun (e : Nat × CopyEng) => ((engRunning e.2 ++ e.2.buffer).filter mine).map Cmd.id)
      let exch := ((queueOf (coreOf s c.core) 5).filter mine).map Cmd.id
      let s := dropCmds s c.core (fun m => mine m && (m.start.isNone || engineOf m.ins == 5))
      let s := { s with dies := s.dies.map (fun (d : Nat × DieSt) => (d.1, { d.2 with sync := d.2.sync.filter (fun m => m.uid != uid) })) }
      let s := { s with engines := s.engines.map (fun (e : Nat × CopyEng) => (e.1, { e.2 with buffer := e.2.buffer.filter (fun m => m.uid != uid) })) }
      let s := s.engines.foldl (fun s (e : Nat × CopyEng) => ((engRunning e.2).filter mine).foldl (fun s k => copyCut s e.1 k 9 k.landed none) s) s
      let s := { s with agenda := s.agenda.filter (fun e =>
        e.uid != uid || isStore e || (e.own != 0 && e.phase != 5 && !(copies ++ exch).contains e.own)) }
      modUnit s uid (fun c => { c with
        flight := [], inLand := [], oqs := [], region := none, heldCmds := [], trapCmds := [], chans := []
        wait := match c.wait with
          | .saved => .saved
          | .frozen k => .frozen k
          | _ => .frozen 0 })

/-- A context of a launch that the monitor ends stops for good, when its engines have stopped (R197). -/
def killContext (s : State) (uid : Nat) : State :=
  match unitOf s uid with
  | none => s
  | some c =>
    if c.wait = .done then s
    else
      let s := discard (dropRegistrations s c) uid
      let s := dropCmds s c.core (fun m => m.uid == uid)
      let s := { s with agenda := s.agenda.filter (fun e => e.uid != uid) }
      let s := passRegions s c
      modUnit s uid (fun c => { c with saved := [], wait := .done })

/-- The precise stop of a launch's contexts (R116, R197): first nothing more issues or starts, the engines stop at an open tick
within 8 (log entry 7), and the stop is complete when what runs out has performed. Whether it is, and the state. -/
def windDown (s : State) (id : Nat) (us : List Nat) : Bool × State :=
  let check := fun (s : State) => if us.all (settled s) then (true, s) else
    (false, sched s 0 (now s 0 + 1) 17 0 0 (.ins (.launchEnd id)))
  match (launchOf s id).stage with
  | 5 => check s
  | 4 => check (modLaunch (us.foldl enginesStop s) id (fun l => { l with stage := 5 }))
  | _ =>
    if us.all (settled s) then (true, s)
    else
      let (d, s) := pick (us.foldl discard s) 9
      (false, sched (modLaunch s id (fun l => { l with stage := 4 })) 0 (now s 0 + d) 17 0 0 (.ins (.launchEnd id)))

/-- The units of a launch's teams. -/
def launchUnits (s : State) (id : Nat) : List Nat :=
  ((s.teams.filter (fun e => e.2.launch == id)).map Prod.fst).flatMap (fun t => (teamUnits s t).map Ctx.uid)

/-- The completion of an ended launch waits its turn (R32). -/
def addCompletion (s : State) (vd : Nat) (k : Completion) : State :=
  let le := fun (a b : Completion) => a.endTick < b.endTick || (a.endTick == b.endTick &&
    (a.queue < b.queue || (a.queue == b.queue && a.seq ≤ b.seq)))
  schedNewel (modVd s vd (fun v => { v with withheld := (v.withheld ++ [k]).mergeSort le })) 0 (.completionWrite vd)

/-- done_word rises by 1 with release semantics (R70, R197), where its page is mapped and its region PAID: the engine that
raises it is no context, so R75's owners do not bar it. -/
def raiseDone (s : State) (vd a : Nat) : State :=
  if a = 0 then s
  else
    let w := BitVec.ofNat 64 a
    let die := match windowOf w with | .sync d _ => d | _ => 0
    let c := sysCtx vd die
    match translate s c (windowFor c w) w with
    | .error _ => s
    | .ok p => if (rentOf s p.ref).state != 1 then s
        else storePlace s p (bytesOfNat 8 (natOfBytes (readNow s p 8) + 1)) false (now s die) none

/-- A unit whose last item has executed HALT and has not faulted since: it counts when its launch ends by a fault, though its
landing goes on (R54, and the completion of the program of R360). -/
def inLastHalt (c : Ctx) : Bool :=
  match c.wait with
  | .halt _ => decide (c.lastWid.toNat ≤ c.wid.toNat)
  | _ => false

/-- The end of a launch takes effect at its end_tick, whenever its completion is written: done_word rises, its outcome is kept, and
what waits for it to be DONE is cancelled at that tick (R32, R50, R70). -/
def takeEffect (s : State) (id st : Nat) (reported : Bool) : State :=
  let l := launchOf s id
  if l.effected then s
  else
    let s := modLaunch s id (fun l => { l with effected := true })
    let s := if reported then s else raiseDone s l.vd l.body.doneWord
    let s := modVd s l.vd (fun v => { v with outcomes := ((l.queue, l.seq, st) :: v.outcomes).take 4096 })
    poke (s.launches.foldl (fun s (e : Nat × Launch) =>
      if e.2.vd = l.vd && st != 0 && e.2.body.deps.any (fun d => d.kind == 2 && d.queue == l.queue && d.seq == l.seq)
      then endLaunchAt s e.1 3 0 0 l.endTick else s) s)

/-- The page that counts a launch's staging goes back (R56). -/
def dropStaging (s : State) (id : Nat) : State :=
  let r := (launchOf s id).stageRef
  if r = 0 then s else freeRent (modLaunch s id (fun l => { l with stageRef := 0 })) r

/-- A launch that has ended with a status leaves: its contexts, its teams' grants, its end's effect, the journal and the
completion (R50, R70, R197). -/
def leaveLaunch (s : State) (id st : Nat) (reported : Bool) : State :=
  let ts := (s.teams.filter (fun e => e.2.launch == id)).map Prod.fst
  let s := (launchUnits s id).foldl killContext s
  let s := ts.foldl (fun s t => if (teamOf s t).state = 4 || (teamOf s t).units.isEmpty then s else endTeam s t) s
  let s := takeEffect s id st reported
  let s := dropStaging s id
  let l := launchOf s id
  let s := journal s 7 l.vd l.queue l.seq [st, l.cause, l.endTick, l.unitsDone, l.trunc]
  let s := { s with
    teams := s.teams.filter (fun e => e.2.launch != id), launches := tdel s.launches id
    newel := { s.newel with endReports := s.newel.endReports.erase id } }
  addCompletion s l.vd ⟨l.queue, l.seq, st, if st = 1 then l.cause else 0, l.endTick, l.unitsDone, l.trunc, if st = 1 then l.info else 0⟩

/-- The units of a launch whose last item has executed HALT count as it ends. -/
def countHalted (s : State) (id : Nat) : State :=
  let halted := (launchUnits s id).foldl (fun n u => n + (match unitOf s u with
    | some c => if inLastHalt c then 1 else 0
    | none => 0)) 0
  modLaunch s id (fun l => { l with unitsDone := l.unitsDone + halted })

/-- LAUNCH_END (R70, R71, R197): a faulting launch's end takes effect and its contexts stop; when they have, it leaves. While no
newel acts, a launch that is done raises its done_word and leaves an end report; others wait and end when the newel acts. -/
def execLaunchEnd (id : Nat) (s : State) : Out :=
  match tget s.launches id with
  | none => .next s
  | some l =>
    match l.status with
    | none => .next s
    | some st =>
      let reported := s.newel.endReports.contains id
      if takingOver s || s.newel.pair = 5 then
        .next (if reported then s
          else if st != 0 then modLaunch s id (fun l => { l with postponed := true })
          else
            let s := takeEffect s id st false
            { s with newel := { s.newel with endReports := (s.newel.endReports ++ [id]).take 4096 } })
      else if st = 0 then .next (poke (leaveLaunch (countHalted s id) id st reported))
      else
        let s := modLaunch s id (fun l => { l with endTick := if l.postponed then now s 0 else l.endTick, postponed := false })
        let s := takeEffect (if l.effected then s else countHalted s id) id st reported
        let (stopped, s) := windDown s id (launchUnits s id)
        .next (if stopped then poke (leaveLaunch s id st reported) else s)

/-! ## The initialiser block (R51, R219) -/

/-- Why a launch does not start with its block: wait, with a page to ask for; or end with a cause. -/
inductive BlockRes | wait (page : Option Nat) | bad (cause : Nat) (tval : Word) | good (b : List Byte)
deriving DecidableEq, Repr, Inhabited

/-- The block as a copy engine reads it, with checks 4 to 6 of R162. -/
def readBlock (s : State) (l : Launch) : BlockRes :=
  let c := sysCtx l.vd 0
  let spots := (pieces 3 l.body.initPtr 1280).map (fun p => (BitVec.ofNat 64 p.1, p.2))
  let bad := spots.findSome? (fun (p : Word × Nat) => match translate s c (windowFor c p.1) p.1 with
    | .error t => some (BlockRes.bad t.cause p.1)
    | .ok q =>
      if hostOwns s l.vd p.1.toNat then some (.wait (some (p.1.toNat / 65536)))
      else match rights s c q with
        | none => none
        | some i => some (if i = 0 then .wait none else .bad cLAPSED p.1))
  match bad with
  | some r => r
  | none => .good (spots.flatMap (fun (p : Word × Nat) => match translate s c (windowFor c p.1) p.1 with
      | .ok q => readNow s q p.2
      | .error _ => []))

/-- Images of the block: views, streams, and the stagings (source, destination, bytes); or the cause of R51. -/
def blockImages (r : LaunchRec) (b : List Byte) : Res (Tab (BitVec 128) × Tab (BitVec 384) × List (Nat × Nat × Nat)) := do
  let at_ := fun (o n : Nat) => natOfBytes ((b.drop o).take n)
  let vs ← ((List.range 16).filter (fun i => r.viewValid.getLsbD i)).foldlM (fun (t : Tab (BitVec 128)) i => do
    let v ← viewImage (BitVec.ofNat 128 (at_ (16 * i) 16)) 0
    .ok (tset t i v)) ([] : Tab (BitVec 128))
  let gs ← ((List.range 16).filter (fun i => r.streamValid.getLsbD i)).foldlM (fun (t : Tab (BitVec 384)) i => do
    let g ← streamImage (BitVec.ofNat 384 (at_ (256 + 64 * i) 48))
    if at_ (316 + 64 * i) 4 != 0 then fltOpen cILLEGAL
    else if at_ (304 + 64 * i) 8 != 0 && bitsOf (gBase g).toNat 57 7 != 0 then flt cADDRESS 0
    else .ok (tset t i g)) ([] : Tab (BitVec 384))
  .ok (vs, gs, gs.filterMap (fun (e : Nat × BitVec 384) =>
    let src := at_ (304 + 64 * e.1) 8
    if src = 0 then none else some (src, (gBase e.2).toNat, at_ (312 + 64 * e.1) 4)))

/-- A launch's block is read once (R51). -/
def readInit (s : State) (id : Nat) : State :=
  let l := launchOf s id
  if l.stage != 0 || l.status.isSome then s
  else match readBlock s l with
    | .wait none => s
    | .wait (some p) => postPageRequest s l.vd p l.seq l.queue
    | .bad k t => endLaunch s id 1 k t
    | .good b =>
      match blockImages l.body b with
      | .error t => endLaunch s id 1 t.cause t.tval
      | .ok (vs, gs, st) => modLaunch s id (fun l => { l with
          stage := 1, viewImgs := vs, streamImgs := gs, stagings := st, staged := st.isEmpty })

/-! ## Conditions (Table 3.4) -/

/-- Every dependence is met: its launch has ended (R50). -/
def depsMet (s : State) (l : Launch) : Bool :=
  l.body.deps.all (fun d => d.kind == 0 || !launchLives s l.vd d.queue d.seq)

/-- Bytes that hold a run of n elements: a last nibble and a last block that are not full count whole (R55). -/
def coverBytes (t n : Nat) : Nat :=
  match t with
  | 0x0E => (n + 1) / 2
  | 0x0F => (n + 31) / 32 * 34
  | 0x10 => (n + 31) / 32 * 18
  | 0x11 => (n + 31) / 32 * 20
  | t => runBytes t n

/-- 64 KiB pages of generic addresses that a stream's runs touch. -/
def runPages (g : BitVec 384) : List Nat :=
  let rb := coverBytes (gFormat g) (gLen g)
  (((List.range (gExt1 g * gExt2 g)).flatMap (fun r =>
    let a := (gBase g + BitVec.ofInt 64 ((r % gExt1 g : Nat) * gStride1 g + (r / gExt1 g : Nat) * gStride2 g)).toNat
    (List.range ((a + rb - 1) / 65536 + 1 - a / 65536)).map (fun i => a / 65536 + i)))).eraseDups

/-- Pages of the global window that a stream's runs touch. -/
def streamPages (g : BitVec 384) : List Nat := if bitsOf (gBase g).toNat 57 7 != 0 then [] else runPages g

/-- The copies of one staging: cut where pages end, so that each page is copied on the die that holds it (R56). -/
def stagePieces (e : Nat × Nat × Nat) : List (Nat × Nat × Nat) :=
  let n := (e.2.1 + e.2.2 + 65535) / 65536 - e.2.1 / 65536
  (List.range n).filterMap (fun i =>
    let lo := max e.2.1 ((e.2.1 / 65536 + i) * 65536)
    let hi := min (e.2.1 + e.2.2) ((e.2.1 / 65536 + i + 1) * 65536)
    if lo < hi then some (e.1 + (lo - e.2.1), lo, hi - lo) else none)

/-- Pages that a launch's stagings read and write. -/
def stagingPages (l : Launch) : List Nat :=
  (l.stagings.flatMap (fun e => [(e.1, e.2.2), (e.2.1, e.2.2)])).flatMap (fun r =>
    (List.range ((r.1 + r.2 + 65535) / 65536 - r.1 / 65536)).map (fun i => r.1 / 65536 + i))

/-- Pages that a launch's stream entries name, those of their stage_src among them, which its staging needs the device to own (R37, R55,
R56). -/
def namedPages (l : Launch) : List Nat := (l.streamImgs.flatMap (fun e => streamPages e.2) ++ stagingPages l).eraseDups

/-- A page that a launch's stream entries name is the host's. -/
def hostHolds (s : State) (l : Launch) : Bool := (namedPages l).any (fun p => hostOwns s l.vd (p * 65536))

/-- How the pages of a launch's streams stand: 0 ready, 1 to wait for, 2 reclaimed; a page whose region is gone was (R57). -/
def pagesState (s : State) (l : Launch) : Nat :=
  (l.streamImgs.flatMap (fun e => streamPages e.2)).foldl (fun n p =>
    max n (match globalMap (vdOf s l.vd) (p * 65536) with
      | none => if l.backed.contains p then 2 else 1
      | some m => if m.host then 0 else match (rentOf s m.ref).state with
        | 1 => 0 | 2 => 1 | _ => 2)) (if hostHolds s l then 1 else 0)

/-- Requests for the host-owned pages that a launch's stream entries name (R37). -/
def askPages (s : State) (id : Nat) : State :=
  let l := launchOf s id
  ((namedPages l).filter (fun p => hostOwns s l.vd (p * 65536))).foldl (fun s p => postPageRequest s l.vd p l.seq l.queue) s

/-- A core is held by a team, until the team ends or is pre-empted, whether or not its unit there has exited (R55, R60). -/
def heldCore (s : State) (core : Nat) : Bool := (allUnits s).any (fun u => u.core == core && holds (teamOf s u.team))

/-- A core covers a use mask and is in service (R63, R190). -/
def covers (s : State) (core : Nat) (m : BitVec 24) : Bool :=
  (m &&& ~~~ (coreOf s core).capMask) == 0 && (coreOf s core).capMask.getLsbD 0

/-- Free scratchpad granules of a core; reclaimed ones can be bound at once (R92). -/
def freeGranules (s : State) (core : Nat) : Nat :=
  1024 - sizeOf' (s.rents.filter (fun e => !e.2.sub && e.2.tier == 1 && e.2.core == core && refTable e.1 == 1 && (e.2.state == 1 || e.2.state == 2)))

/-- The lowest free bank of a core. -/
def freeBank (s : State) (core : Nat) : Option Nat := (List.range 4).find? (fun b => (rentOf s (bankEntry core b)).state = 0)

/-- A known-answer test of a core ends without a record, its items go back to FREE (R188): a team needs the core. -/
def freeTest (s : State) (core : Nat) : State :=
  if (coreOf s core).kat.isNone then s
  else ([bankEntry core 0, slotRef core 0].filter (fun r => (rentOf s r).owner == 64 * 65536 && (rentOf s r).state != 0)).foldl freeRent
    (modCore s core (fun k => { k with kat := none }))

/-- A core that can take a unit of a team; what the team itself holds there counts as free (R55, R64). -/
def eligible (s : State) (team : Nat) (core : Nat) : Bool :=
  let s := freeTest s core
  let m := teamOf s team
  let l := launchOf s m.launch
  let own := (teamUnits s team).filter (fun u => u.core == core)
  let ownG := (own.flatMap (fun u => u.spad)).foldl (fun n (p : Span) => n + p.count) 0
  let ownS := own.foldl (fun n u => n + u.slots.length) 0
  !heldCore s core && covers s core l.body.useMask && (freeBank s core).isSome
    && l.body.spadGranules + 128 ≤ freeGranules s core + ownG && l.body.alcoveSlots ≤ (freeSlots s core).length + ownS

/-- Teams that have aged, in the order they aged (R62). -/
def agedTeams (s : State) : List Nat :=
  (((s.teams.filter (fun e => e.2.aged.isSome && (e.2.state == 0 || e.2.state == 3))).mergeSort (fun a b =>
    decide (a.2.aged.getD 0 ≤ b.2.aged.getD 0)))).map Prod.fst

/-- The cores a team needs: one for each of its units, exited ones among them, since a team moves whole (R55, R64). -/
def unitsToPlace (s : State) (team : Nat) : Nat := (teamOf s team).size

/-- A gallery could hold a team once its holders leave. -/
def couldHold (s : State) (team g : Nat) : Bool :=
  unitsToPlace s team ≤ ((List.range 8).filter (fun i => covers s (8 * g + i) (launchOf s (teamOf s team).launch).body.useMask)).length

/-- Bytes of a launch's staged regions on a die, page by page (R58). -/
def stagedBytes (s : State) (l : Launch) (die : Nat) : Nat :=
  ((l.stagings.flatMap stagePieces).filter (fun e => match globalMap (vdOf s l.vd) e.2.1 with
    | some m => !m.host && refDie m.ref == die
    | none => false)).foldl (fun n e => n + e.2.2) 0

/-- Where a team goes (R58, R62): the cores of its units, of the chosen gallery. -/
def placeTeam (s : State) (team : Nat) : Option (List Nat) :=
  let m := teamOf s team
  let l := launchOf s m.launch
  let before := (agedTeams s).takeWhile (fun t => t != team)
  let n := unitsToPlace s team
  let good := (List.range 128).filterMap (fun g =>
    let cs := ((List.range 8).map (fun i => 8 * g + i)).filter (eligible s team)
    if n ≤ cs.length && !(before.any (fun t => couldHold s t g)) then some (cs.take n) else none)
  let bytes := fun (cs : List Nat) => stagedBytes s l (dieOfCore (cs.headD 0))
  good.foldl (fun (b : Option (List Nat)) cs => match b with
    | none => some cs
    | some x => if bytes x < bytes cs then some cs else some x) none

/-- Cores a virtual device's teams hold. -/
def coresHeld (s : State) (vd : Nat) : Nat :=
  ((s.teams.filter (fun e => holds e.2 && (launchOf s e.2.launch).vd == vd)).map (fun e => e.2.units.length)).foldl (· + ·) 0

/-- Launches of a virtual device that have issued a team and not ended (R32). -/
def inflight (s : State) (vd : Nat) : Nat := (s.launches.filter (fun e => e.2.vd == vd && e.2.issued)).length

/-- A saved context's area holds it: PAID or the team waits, RECLAIMED ends the launch (Table 4.10). -/
def savedOk (s : State) (team : Nat) : Bool :=
  (teamUnits s team).all (fun u => u.wait = .done || u.saveRef = 0 || (rentOf s u.saveRef).state = 1)

/-- The pool rule of tier 1 on a die for a team's granules, whatever its cores hold now (R89): within the device's floor, or on an empty
core beside what other devices' floors reserve. -/
def padRule (s : State) (vd die units n : Nat) : Bool :=
  paidUse s vd 1 die + units * n ≤ floorOf s vd 1 die
    || n + ((List.range 64).filter (fun u => u != vd)).foldl (fun r u => r + (floorOf s u 1 die - paidUse s u 1 die)) 0 ≤ 1024

/-- The Storage condition (Table 3.4, R59): the ticks a unit's grant, or the bank of a resumed one, is paid for can be charged, and
some die has the private pages and its tier-1 pool rule admits the granules. What the cores themselves have free is the Cores
condition's. -/
def storageOk (s : State) (team : Nat) : Bool :=
  let m := teamOf s team
  let l := launchOf s m.launch
  let b := l.body
  let bank := 524288 * 256
  if m.state = 3 then
    (charge s l.vd (((teamUnits s team).map (fun u => if u.wait = .done then 0 else bank * u.bankLeft)).foldl (· + ·) 0)).isSome
  else
    let one := bank + b.alcoveSlots * 32768 * 256 + (b.spadGranules + 128) * 4096 * 64 + b.privPages * 65536 * 16
    match charge s l.vd (m.size * one * b.grantTicks) with
    | none => false
    | some s => (List.range 8).any (fun die => (claim s l.vd 2 die (m.size * b.privPages) (die * 128)).isSome
        && padRule s l.vd die m.size (b.spadGranules + 128))

/-- Every condition of Table 3.4 but Cores and Slice; a device being frozen issues nothing (R46). Limits changed since
the last slice count from the next slice start (R39). That Pages and Residency bar only a team never issued is log entry 104's. -/
def waitsForCores (s : State) (team : Nat) : Bool :=
  let m := teamOf s team
  let l := launchOf s m.launch
  let v := vdOf s l.vd
  let quota := if v.state = 1 then v.coreQuota else v.limits.2.2.2
  let most := if v.state = 1 then v.maxInflight else v.limits.2.2.1
  l.status.isNone && (m.state = 0 || m.state = 3) && (m.state = 3 || (l.stage = 1 && l.staged && pagesState s l = 0))
    && (m.state = 3 || depsMet s l) && (l.stage != 3 || m.state = 3) && savedOk s team && storageOk s team
    && coresHeld s l.vd + unitsToPlace s team ≤ quota && (l.issued || inflight s l.vd < most)
    && (v.state = 1 || v.state = 2) && !(v.busy && v.cmd = 5)

end Sys2Proof.Machine
end

