-- ==== Sys2Proof/Machine/Sched.lean ====
section
/-!
DEFINITION. The scoreboard (R31, R32, R55 to R63, R98, R280, R350): completions, the issue of a team with its grant, staging,
the choice among teams, and what waits.
-/
set_option linter.unusedVariables false
namespace Sys2Proof.Machine
open Sys2Proof

/-! ## Completions (R31, R32) -/

def queueReg (v : VDev) (q : Nat) : Queue := (tget v.queues q).getD Queue.reset
def modQueue (s : State) (vd q : Nat) (f : Queue → Queue) : State :=
  modVd s vd (fun v => { v with queues := tmod v.queues q Queue.reset f })

/-- First byte of a queue's block in the queue window (R26). -/
def queueBase (vd q : Nat) : Nat := vd * 0x100000 + q * 0x4000

/-- A completion record (Table 2.5). -/
def completionBytes (tail : Nat) (k : Completion) : List Byte :=
  bytesOfNat 4 k.seq ++ bytesOfNat 2 k.status ++ bytesOfNat 1 k.cause ++ bytesOfNat 1 (1 - tail / 128 % 2)
    ++ bytesOfNat 8 k.endTick ++ bytesOfNat 4 k.unitsDone ++ bytesOfNat 4 k.trunc ++ bytesOfNat 8 k.info

/-- A queue's vector is raised, where it is enabled (Table 2.3). -/
def raiseVector (s : State) (vd q : Nat) : State :=
  let r := queueReg (vdOf s vd) q
  if r.irqEn then { s with vectors := s.vectors ++ [(vd, r.vector.toNat)] } else s

/-- A draining queue has every taken launch's completion written: QUEUE_DRAIN_DONE follows (Table 2.3). -/
def drainCheck (s : State) (vd q : Nat) : State :=
  let v := vdOf s vd
  if (queueReg v q).drain && !(s.launches.any (fun e => e.2.vd == vd && e.2.queue == q)) && !(v.withheld.any (fun k => k.queue == q))
  then schedNewel s 0 (.queueDrainDone vd q) else s

/-- The oldest entries of launches that have their completions, and whose outcomes are kept, are retired (R70). -/
def retire (s : State) : State :=
  let done := fun (e : JEntry) => (liveLaunch s e.vd e.queue e.sqSeq).isNone
    && !((vdOf s e.vd).withheld.any (fun k => k.queue == e.queue && k.seq == e.sqSeq))
  let kept := s.newel.journal.reverse.dropWhile done
  { s with newel := { s.newel with
      journal := kept.reverse, oldestSeq := match kept with | e :: _ => e.seq | [] => s.newel.commitSeq + 1 } }

/-- An ended launch of a device has a completion, not made yet, that goes before this one (R32). One that faults in a take-over ends
when that is over (R71). -/
def endsBefore (s : State) (vd : Nat) (k : Completion) : Bool :=
  s.launches.any (fun e => e.2.vd == vd && e.2.status.isSome && !e.2.postponed && (e.2.endTick < k.endTick || (e.2.endTick == k.endTick &&
    (e.2.queue < k.queue || (e.2.queue == k.queue && e.2.seq < k.seq)))))

/-- One completion is journaled, written, counted and signalled. -/
def writeCompletion (s : State) (vd : Nat) (k : Completion) : State :=
  let q := k.queue
  let tail := (queueReg (vdOf s vd) q).cqTail
  let s := journal s 8 vd q k.seq [tail.toNat + 1]
  let s := { s with window := s.window.writeRun (queueBase vd q + 0x3000 + tail.toNat % 128 * 32) (completionBytes tail.toNat k) }
  let r := queueReg (vdOf s vd) q
  let full : Bool := r.coalesce = 0 || decide (r.coalesce.toNat ≤ r.since + 1)
  let s := modQueue s vd q (fun r => { r with cqTail := r.cqTail + 1, since := if full then 0 else r.since + 1, moved := now s 0 })
  let s := if full then raiseVector s vd q else schedNewel s (2 ^ 12) (.coalesceTimeout vd q)
  retire (drainCheck s vd q)

/-- A DESTROY of a device is in progress: completions that its rings have no room for are still to be written (R43). -/
def destroying (v : VDev) : Bool := v.busy && v.cmd == 2

/-- Withheld completions go out in order while the device is RUNNING or being destroyed, the ring has room and no earlier one is still to
come (R32, R43). -/
def writeCompletions : Nat → State → Nat → State
  | 0, s, _ => s
  | f + 1, s, vd =>
    let v := vdOf s vd
    match v.withheld with
    | [] => s
    | k :: r =>
      let q := queueReg v k.queue
      if (v.state != 2 && !destroying v) || 128 ≤ (q.cqTail - q.cqHead).toNat || endsBefore s vd k then s
      else writeCompletions f (writeCompletion (modVd s vd (fun v => { v with withheld := r })) vd k) vd

/-- What goes out goes now. -/
def flushNow (s : State) (vd : Nat) : State := writeCompletions ((vdOf s vd).withheld.length + 1) s vd

/-- Nothing goes out in a take-over, nor from a pair that has FAILED (R71). -/
def flushCompletions (s : State) (vd : Nat) : State := if takingOver s || s.newel.pair = 5 then s else flushNow s vd

/-- COMPLETION_WRITE (R31, R32). -/
def execCompletionWrite (vd : Nat) (s : State) : Out := .next (flushCompletions s vd)

/-- COALESCE_TIMEOUT (Table 2.3). -/
def execCoalesceTimeout (vd q : Nat) (s : State) : Out :=
  let r := queueReg (vdOf s vd) q
  if r.since = 0 || r.moved + 2 ^ 12 != now s 0 then .next s
  else .next (raiseVector (modQueue s vd q (fun r => { r with since := 0 })) vd q)

/-! ## The issue grant (R59, R91, R280) -/

/-- A tier-0 or pool region of the grant is charged and filled; answers the entry. -/
def grantItem (s : State) (c : Ctx) (r : Rent) (entry : Option Nat) : Option (Nat × State) := do
  let t := now s (dieOfCore c.core)
  let r := { r with owner := c.vd * 65536, core := c.core, team := c.team }
  let s ← charge s c.vd (rate r * (r.paid - t))
  match entry with
  | some e => some (e, makeRegion s e r)
  | none => claimRegion s c.vd (dieOfCore c.core) r.size c.core r

/-- The bank and the alcove slots of a unit. -/
def grantTier0 (s : State) (uid slots until_ : Nat) : Option State := do
  let c ← unitOf s uid
  let b ← freeBank s c.core
  let (ref, s) ← grantItem s c { (default : Rent) with tier := 0, size := 1, paid := until_, item := b } (some (bankEntry c.core b))
  let s := modUnit s uid (fun c => { c with slot := b, bankRef := ref })
  (List.range slots).foldlM (fun s i => do
    let c ← unitOf s uid
    let p ← (freeSlots s c.core).head?
    let s ← charge s c.vd (32768 * 256 * (until_ - tickOf s c))
    some (takeSlot s c i p until_)) s

/-- Scratchpad granules at a unit's offsets from first on. -/
def grantPad (s : State) (uid first n until_ : Nat) : Option (Nat × State) := do
  if n = 0 then some (0, s)
  else
    let c ← unitOf s uid
    let r : Rent := { (default : Rent) with tier := 1, size := n, paid := until_, addr := (ownAddress c (first * 4096)).toNat }
    let (ref, s) ← grantItem s c r none
    some (ref, modUnit s uid (fun c => { c with spad := c.spad ++ [⟨first, n, ref⟩] }))

/-- The granules of the record and the 128 spill granules after them. -/
def grantTier1 (s : State) (uid granules until_ : Nat) : Option State := do
  let (a, s) ← grantPad s uid 0 granules until_
  let (b, s) ← grantPad s uid granules 128 until_
  some (modUnit s uid (fun c => { c with grantRefs := [0, a, b, 0] }))

/-- The private area. -/
def grantTier2 (s : State) (uid pages until_ : Nat) : Option State := do
  let c ← unitOf s uid
  let (ref, s) ← grantItem s c { (default : Rent) with tier := 2, size := pages, paid := until_, addr := 0xC * 2 ^ 60 } none
  some (modUnit s uid (fun c => { c with priv := ref, privPages := pages }))

/-- The grant record at private offsets 0x000 to 0x11F (R280). -/
def writeGrantRecord (s : State) (uid : Nat) : State :=
  match unitOf s uid with
  | none => s
  | some c =>
    let h := fun r => if r = 0 then 0 else handleOf s r
    let bs := ([h c.bankRef, h (c.grantRefs.getD 1 0), h (c.grantRefs.getD 2 0), h c.priv]
      ++ (List.range 32).map (fun i => match tget c.slots i with | some p => h (slotRef c.core p) | none => 0)).flatMap (bytesOfNat 8)
    if (rentOf s c.priv).state = 1 then writeSpace s (rentOf s c.priv).space 0 bs [] (tickOf s c) none else s

/-! ## Issue (R53, R59, R74, R178, R219, R350) -/

/-- The lowest principal from 1 that no live unit of a device holds (R74). -/
def freePrincipal (s : State) (vd : Nat) : Nat :=
  let used := ((allUnits s).filter (fun u => u.vd == vd && u.wait != .done)).map Ctx.principal
  ((List.range (used.length + 1)).find? (fun i => !used.contains (i + 1))).getD 0 + 1

/-- A stream image at issue: a scratchpad-window base names the unit's own core (R219). -/
def streamFor (lcore : Nat) (g : BitVec 384) : BitVec 384 :=
  match windowOf (gBase g) with
  | .spad _ off => (g.extractLsb' 64 320) ++ ((0xD000000000000000 : Word) ||| BitVec.ofNat 64 (lcore * 2 ^ 48 + off))
  | _ => g

/-- A unit's context at issue: images loaded, all else zero (R59). -/
def unitAt (s : State) (team i core : Nat) : Ctx × State :=
  let m := teamOf s team
  let l := launchOf s m.launch
  let (uid, s) := fresh s
  let w := unitWids l.body m.first i
  let code := match codeOf (vdOf s l.vd) l.body.codeHandle with | some e => e.base | none => 0
  let entry := BitVec.ofNat 64 (code + l.body.entry)
  let t := now s (dieOfCore core)
  ({ (default : Ctx) with
    uid := uid, vd := l.vd, launch := m.launch, team := team, core := core, lcore := i, teamSize := m.size
    principal := freePrincipal s l.vd, pc := entry, entry := entry, views := l.viewImgs
    streams := l.streamImgs.map (fun (e : Nat × BitVec 384) => (e.1, streamFor i e.2))
    wid := BitVec.ofNat 64 w.1, lastWid := BitVec.ofNat 64 w.2, useMask := l.body.useMask
    capMask := (coreOf s core).capMask, early := l.body.early, view := t, budget := l.body.budget
    grantUntil := t + l.body.grantTicks, budgetStart := t, wait := .run }, s)

/-- A device enters RUNNING at its slice start (R39, R61). -/
def startSlice (s : State) (vd : Nat) : State :=
  let v := vdOf s vd
  if v.state != 1 then s
  else
    let s := journal s 9 vd 0 0 [1, 2]
    let t := now s 0
    let s := modVd s vd (fun v => { v with
      state := 2, sliceAt := some t, limits := (v.sliceLog2, v.priorityMax, v.maxInflight, v.coreQuota) })
    sched (flushCompletions s vd) 0 (t + 2 ^ v.sliceLog2) 17 0 0 (.ins (.sliceEnd vd))

/-- The tick after a unit's budget is used up (R54, R108). -/
def schedBudget (s : State) (uid : Nat) : State :=
  match unitOf s uid with
  | none => s
  | some c => schedC s c (c.budgetStart + c.budget + 1) 17 (.ins (.budgetExpire uid))

/-- What a unit finds at its core: its context's entries gone, its .data image in place as it starts, code fetched anew (R178, R214,
R350). The ticks to its first instruction are open, each unit's its own (R347; log entry 7). -/
def readyUnit (s : State) (uid handle granules : Nat) : State :=
  match unitOf s uid with
  | none => s
  | some c =>
    let (d, s) := openTicks s
    let start := tickOf s c + 1 + d
    let s := clearContext s c.core c.slot
    let s := modCore s c.core refetch
    let s := writeGrantRecord s uid
    let image := (Config.dataImage c.vd handle).take (granules * 4096)
    let s := match c.spad.head? with
      | some p => if granules = 0 || image.isEmpty then s else writeSpace s (rentOf s p.ref).space 0 image [] start none
      | none => s
    schedBudget (meetLandings (modUnit s uid (fun c => { c with nextAt := start, view := start })) c) uid

/-- An issue descriptor goes to a gallery with the sequence of its journal entry; one whose sequence the gallery has accepted is
discarded (R69). -/
def sendDescriptor (s : State) (gal : Nat) : State :=
  { s with newel := { s.newel with accepted := tset s.newel.accepted gal (max s.newel.commitSeq ((tget s.newel.accepted gal).getD 0)) } }

/-- The team is issued on its cores, if its grant can be rented. -/
def issueTeam (s : State) (team : Nat) (cores : List Nat) : Option State := do
  let m := teamOf s team
  let l := launchOf s m.launch
  let t := now s (dieOfCore (cores.headD 0))
  let until_ := t + l.body.grantTicks
  let s := cores.foldl freeTest s
  let (uids, s) := ((List.range cores.length).zip cores).foldl (fun (x : List Nat × State) p =>
    let (c, s) := unitAt x.2 team p.1 p.2
    (x.1 ++ [c.uid], setUnit s c)) ([], s)
  let s ← uids.foldlM (fun s u => grantTier0 s u l.body.alcoveSlots until_) s
  let s ← uids.foldlM (fun s u => grantTier1 s u l.body.spadGranules until_) s
  let s ← uids.foldlM (fun s u => grantTier2 s u l.body.privPages until_) s
  let s := startSlice s l.vd
  let s := sendDescriptor (journal s 4 l.vd l.queue l.seq ([team] ++ cores ++ [t])) (galOfCore (cores.headD 0))
  let s := uids.foldl (fun s u => readyUnit s u l.body.codeHandle l.body.spadGranules) s
  let s := modTeam s team (fun m => { m with
    units := uids, state := 1, gallery := galOfCore (cores.headD 0), issueTick := now s 0, waitStart := none, aged := none })
  some (modLaunch s m.launch (fun l => { l with issued := true }))

/-- TEAM_ISSUE (R55, R58, R59): only while its conditions hold. -/
def execTeamIssue (team : Nat) (s : State) : Out :=
  if (teamOf s team).state != 0 || (teamOf s team).launch = 0 || takingOver s || !waitsForCores s team then .next s
  else match (placeTeam s team).bind (issueTeam s team) with
    | some s => .next (poke s)
    | none => .next s

/-! ## Staging (R56) -/

/-- The die that holds a device's global page. -/
def dieOfGlobal (s : State) (vd a : Nat) : Nat :=
  match globalMap (vdOf s vd) a with
  | some m => if m.host then 0 else refDie m.ref
  | none => 0

/-- A staging copy of a launch. -/
def stageCmd (s : State) (id k : Nat) (e : Nat × Nat × Nat) : Cmd :=
  let l := launchOf s id
  let t := now s (dieOfGlobal s l.vd e.2.1)
  { (default : Cmd) with
    id := k, ins := .stageStart id, sample := [l.vd], vals := [BitVec.ofNat 64 e.2.1, BitVec.ofNat 64 e.1, BitVec.ofNat 64 e.2.2, 0]
    live := ceilDiv e.2.2 32, due := t, deliver := t, outbound := true }

/-- STAGE_START: the newel rents a page of mezzanine whose first word counts the bytes to come, and the copies go to engines of the
dies that hold their destinations; without a page the launch waits (log entry 87). -/
def execStageStart (id : Nat) (s : State) : Out :=
  let l := launchOf s id
  if l.stage != 1 || l.staged || l.stagedAt != 0 || l.status.isSome || !depsMet s l || hostHolds s l then .next s
  else
    let ps := l.stagings.flatMap stagePieces
    let die := dieOfGlobal s l.vd ((ps.head?.map (fun p => p.2.1)).getD 0)
    let page : Rent := { (default : Rent) with owner := 64 * 65536, tier := 2, size := 1, paid := never, core := die * 128 }
    match claimRegion s 64 die 1 (die * 128) page with
    | none => .next s
    | some (ref, s) =>
      let ids := (List.range ps.length).map (· + s.nextId)
      let s := { s with nextId := s.nextId + ps.length }
      let s := journal s 3 l.vd l.queue l.seq ids
      let s := modLaunch s id (fun l => { l with stagedAt := ps.length, stageRef := ref, staged := ps.isEmpty })
      let s := putWord s (rentOf s ref).space 0 ⟨min 0xFFFFFFFF ((ps.map (fun p => p.2.2)).foldl (· + ·) 0), 0, 0, false, false⟩ (now s die)
      .next ((ids.zip ps).foldl (fun s (x : Nat × Nat × Nat × Nat) =>
        modEng s (dieOfGlobal s l.vd x.2.2.1 * 4) (fun e => { e with buffer := buffered e.buffer (stageCmd s id x.1 x.2) })) s)

/-- The staging of a launch is counted complete: the newel takes note, and its page goes back (R56, R68). -/
def stagingDone (s : State) (id : Nat) : State :=
  let l := launchOf s id
  poke (journal (dropStaging (modLaunch s id (fun l => { l with staged := true })) id) 3 l.vd l.queue l.seq [])

/-- A launch's copies are all counted and no newel has taken note yet. -/
def stagingReached (s : State) (l : Launch) : Bool :=
  l.stageRef != 0 && !l.staged && l.stagedAt = 0 && (wordAt s (rentOf s l.stageRef).space 0).reached

/-- STAGE_COMPLETE: a staging copy is over; when all are and the launch's word has reached, the launch is staged; or the copy's
truncation ends the launch. In a take-over the newel takes note at its end (R71). -/
def execStageComplete (id : Nat) (s : State) : Out :=
  let l := launchOf s id
  if l.stagedAt = 0 || l.status.isSome then .next s
  else
    let s := modLaunch s id (fun l => { l with stagedAt := l.stagedAt - 1 })
    if l.info = 1 then .next (endLaunch s id 1 cLAPSED 0)
    else if l.info = 2 then .next (endLaunch s id 1 cUNCORR 0)
    else .next (if stagingReached s (launchOf s id) && !takingOver s then stagingDone s id else s)

/-! ## The choice (R60, R62) -/

/-- A team could run now: what would issue or resume it succeeds. -/
def issuable (s : State) (restore : State → Nat → List Nat → Option State) (team : Nat) : Bool :=
  waitsForCores s team && (match placeTeam s team with
    | some cs => ((if (teamOf s team).state = 0 then issueTeam s team cs else restore s team cs)).isSome
    | none => false)

/-- The virtual device and level of a team. -/
def teamVd (s : State) (t : Nat) : Nat := (launchOf s (teamOf s t).launch).vd
def teamLevel (s : State) (t : Nat) : Nat := (launchOf s (teamOf s t).launch).level

/-- Teams that wait, resumable ones ahead of the others, each oldest first (R61). -/
def waitingTeams (s : State) : List Nat :=
  ((s.teams.filter (fun e => e.2.state == 3)).map Prod.fst) ++ ((s.teams.filter (fun e => e.2.state == 0)).map Prod.fst)

def deficitOf (s : State) (vd level : Nat) : Int := (tget (vdOf s vd).deficit level).getD 0

/-- Rounds of refill until a device of the list has a positive deficit (R60). -/
def refillRounds (s : State) (level : Nat) (vds : List Nat) : Nat :=
  vds.foldl (fun n v => min n ((-(deficitOf s v level)).toNat / 2 ^ 24 + 1)) (2 ^ 64)

/-- A new round: each device of a list receives 2^24, at most 2^25 in all (R60). -/
def refill (s : State) (level n : Nat) (vds : List Nat) : State :=
  vds.foldl (fun s v => modVd s v (fun x => { x with
    deficit := tset x.deficit level (min ((tget x.deficit level).getD 0 + (n * 2 ^ 24 : Nat)) (2 ^ 25)) })) s

/-- The device a level serves next, visiting from after the last one served; a new round refills first. -/
def servedVd (s : State) (level : Nat) (ready waiting : List Nat) : Option (Nat × State) :=
  let pick := fun (s : State) =>
    let last := match tget s.newel.lastServed level with | some v => v + 1 | none => 0
    ((List.range 64).map (fun i => (last + i) % 64)).find? (fun v => ready.contains v && decide (0 < deficitOf s v level))
  match pick s with
  | some v => some (v, s)
  | none =>
    let s := refill s level (refillRounds s level ready) waiting
    (pick s).map (fun v => (v, s))

/-- A team has gone at this very tick: the newel's look at the scoreboard goes on (log entry 41). -/
def servedNow (s : State) : Bool := s.teams.any (fun e => (e.2.state = 1 || e.2.state = 5) && e.2.issueTick == now s 0)

/-- One level's turn: the team it issues or, with none issuable and none gone at this tick, a new round for those that wait (R60). -/
def levelTurn (s : State) (ready : List Nat) (level : Nat) : Option Nat × State :=
  let here := ready.filter (fun t => teamLevel s t == level)
  let waiting := (((waitingTeams s).filter (fun t => teamLevel s t == level)).map (teamVd s)).eraseDups
  if here.isEmpty then (none, if servedNow s then s else refill s level 1 waiting)
  else match servedVd s level ((here.map (teamVd s)).eraseDups) waiting with
    | some (v, s) =>
      (here.find? (fun t => teamVd s t == v), { s with newel := { s.newel with lastServed := tset s.newel.lastServed level v } })
    | none => (none, s)

/-- The next team to issue or resume, level 3 first; of aged teams only the one that aged first (R62). -/
def nextTeam (s : State) (restore : State → Nat → List Nat → Option State) : Option Nat × State :=
  let aged := agedTeams s
  let ready := (waitingTeams s).filter (fun t => issuable s restore t && (!aged.contains t || aged.head? == some t))
  match aged.head?.filter (fun t => ready.contains t) with
  | some t => (some t, s)
  | none => [3, 2, 1, 0].foldl (fun (x : Option Nat × State) level =>
      match x.1 with
      | some _ => x
      | none => levelTurn x.2 ready level) (none, s)

/-! ## What waits -/

/-- Pages of a launch's streams that regions back are noted (R57). -/
def notePages (s : State) (id : Nat) : State :=
  let l := launchOf s id
  let here := (l.streamImgs.flatMap (fun e => streamPages e.2)).filter (fun p => !l.backed.contains p && (globalMap (vdOf s l.vd) (p * 65536)).isSome)
  modLaunch s id (fun l => { l with backed := l.backed ++ here.eraseDups })

/-- A launch that waits: its block is read, its pages are asked for, its staging starts; reclaimed pages end it (R37, R51,
R56, R57). -/
def reviewLaunch (s : State) (id : Nat) : State :=
  let s := notePages (readInit s id) id
  let l := launchOf s id
  if l.stage != 1 || l.status.isSome then s
  else if pagesState s l = 2 then endSoftly s id cLAPSED 0
  else
    let s := askPages s id
    if l.staged || l.stagedAt != 0 || !depsMet s l || hostHolds s l then s else sched s 0 (now s 0) 18 0 0 (.ins (.stageStart id))

/-- A team whose launch goes on: no gallery may be able to hold it, whatever its state (Table 3.6); of one that waits, the
save area may be gone (Table 4.10), and it waits for cores from now on or no longer (R62). -/
def reviewTeam (s : State) (t : Nat) : State :=
  let m := teamOf s t
  if m.state = 4 then s
  else if !((List.range 128).any (couldHold s t)) then endLaunch s m.launch 1 cFENCED 0
  else if m.state != 0 && m.state != 3 then s
  else if (teamUnits s t).any (fun u => u.wait != .done && u.saveRef != 0 && (rentOf s u.saveRef).state != 1 && (rentOf s u.saveRef).state != 2) then
    endSoftly s m.launch cLAPSED 0
  else if !waitsForCores s t then modTeam s t (fun m => { m with waitStart := none, aged := none })
  else if m.waitStart.isSome then s
  else schedNewel (modTeam s t (fun m => { m with waitStart := some (now s 0) })) (2 ^ 26) (.teamAged t)

/-- TEAM_AGED (R62). -/
def execTeamAged (team : Nat) (s : State) : Out :=
  let m := teamOf s team
  if m.waitStart != some (now s 0 - 2 ^ 26) || (m.state != 0 && m.state != 3) then .next s
  else .next (poke (modTeam s team (fun m => { m with aged := some (now s 0) })))

end Sys2Proof.Machine
end

