-- ==== Sys2Proof/Machine/Preempt.lean ====
section
/-!
DEFINITION. Slices, pre-emption, saves and restores, moves (R54, R61 to R65, R83, R98, R117, R280), budgets (R108), and the
newel pair's take-over (R70, R71).
-/
set_option linter.unusedVariables false
namespace Sys2Proof.Machine
open Sys2Proof

/-! ## Pre-emption and saves -/

/-- A team is pre-empted: the slice end reaches each of its contexts (R61, R118). -/
def preemptTeam (s : State) (team kind : Nat) : State :=
  let s := modTeam s team (fun m => { m with state := 2 })
  (teamOf s team).units.foldl (fun s u => interrupt s u kind) s

/-- Running teams of a device. -/
def runningTeams (s : State) (vd : Nat) : List Nat :=
  (s.teams.filter (fun e => (e.2.state == 1 || e.2.state == 5) && (launchOf s e.2.launch).vd == vd)).map Prod.fst

/-- A team's core no longer covers its launch (Table 3.6), or an aged team could use its gallery (R62). -/
def mustLeave (s : State) (t : Nat) : Bool :=
  (teamUnits s t).any (fun u => !covers s u.core u.useMask)
    || (agedTeams s).any (fun a => couldHold s a (teamOf s t).gallery)

/-- A slice end reaches a team: one that is being restored leaves when that is done (R61). -/
def sliceLeaves (s : State) (t : Nat) : State :=
  if (teamOf s t).state = 5 then modTeam s t (fun m => { m with leaving := true }) else preemptTeam s t 0

/-- Another device's team of the same or a higher level waits for cores this device holds (R61). The level is measured against the lowest
of this device's running teams, and a team counts if this device's cores alone would let it be placed (log entry 130). -/
def othersWait (s : State) (vd : Nat) : Bool :=
  let mine := runningTeams s vd
  let low := mine.foldl (fun n t => min n (teamLevel s t)) 3
  let free := mine.foldl (fun s t => modTeam s t (fun m => { m with state := 4 })) s
  !mine.isEmpty && (waitingTeams s).any (fun t =>
    teamVd s t != vd && low ≤ teamLevel s t && waitsForCores s t && (placeTeam s t).isNone && (placeTeam free t).isSome)

/-- SLICE_END (R61, R62, R63): others that wait pre-empt the device; else a new slice begins, and only teams that must leave go. While
no newel acts a slice does not end (R71). -/
def execSliceEnd (vd : Nat) (s : State) : Out :=
  let v := vdOf s vd
  let t := now s 0
  if v.state != 2 || takingOver s || !newelUp s || !(v.sliceAt.any (fun a => decide (a + 2 ^ v.limits.1 ≤ t))) then .next s
  else if othersWait s vd then
    let s := (runningTeams s vd).foldl sliceLeaves s
    .next (poke (modVd (journal s 9 vd 0 0 [2, 1]) vd (fun v => { v with state := 1, sliceAt := none })))
  else
    let s := ((runningTeams s vd).filter (mustLeave s)).foldl sliceLeaves s
    let s := modVd s vd (fun v => { v with
      sliceAt := some t, limits := (v.sliceLog2, v.priorityMax, v.maxInflight, v.coreQuota) })
    .next (sched (flushCompletions s vd) 0 (t + 2 ^ v.sliceLog2) 17 0 0 (.ins (.sliceEnd vd)))

/-- A handle's translation while its region is away from the table. -/
def awayRef (k : Nat) : Nat := 2 ^ 40 + k

/-- An entry's handle and those translated to it lead to another place from now on (R280). -/
def retarget (s : State) (ref new : Nat) : State :=
  { s with moved := s.moved.map (fun m => if m.2 = ref then (m.1, new) else m) ++ [(handleOf s ref, new)] }

/-- The bank of a saved context goes back with its refund (R83). -/
def releaseBank (s : State) (c : Ctx) : State :=
  let r := rentOf s c.bankRef
  if r.team != c.team || (r.state != 1 && r.state != 2) then modUnit s c.uid (fun c => { c with bankLeft := 0 })
  else
    let left := r.paid - tickOf s c
    giveBack (retarget (modUnit s c.uid (fun c => { c with bankLeft := left })) c.bankRef (awayRef c.uid)) c.vd c.bankRef

/-- The save area is rented at a unit's first save (R98); where no page can be had the unit is saved all the same (log entry 38). -/
def takeSaveArea (s : State) (c : Ctx) : State :=
  if c.saveRef != 0 then s
  else
    let r : Rent := { (default : Rent) with tier := 2, size := 9, paid := c.grantUntil }
    match grantItem s c r none with
    | some (ref, s) => modUnit s c.uid (fun c => { c with saveRef := ref })
    | none => s

/-- Every context of a device is saved, and none is being restored (R46). -/
def freezeDone (s : State) (vd : Nat) : Bool :=
  !(s.teams.any (fun e => e.2.state == 5 && (launchOf s e.2.launch).vd == vd)) && (allUnits s).all (fun u => u.vd != vd || (match u.wait with | .saved | .done | .frozen _ => true | _ => false))

/-- A pre-empted team all of whose units are saved gives up its cores (R60, R61); in a take-over, at its end (R71). -/
def descheduled (s : State) (team : Nat) : State :=
  let m := teamOf s team
  if m.state != 2 || takingOver s || !(teamUnits s team).all (fun u => match u.wait with | .saved | .done => true | _ => false) then s
  else
    let l := launchOf s m.launch
    let s := chargeTeam s team
    let s := journal s 5 l.vd l.queue l.seq (team :: (teamUnits s team).map (fun u => if u.saveRef = 0 then 0 else handleOf s u.saveRef))
    let t := now s (match m.units.head?.bind (unitOf s) with | some c => dieOfCore c.core | none => 0)
    poke (modTeam s team (fun m => { m with state := 3, stopTick := t }))

/-- The open region of a context as its save area holds it (R98, R119). -/
def regionImage (c : Ctx) : List Nat :=
  match c.region with
  | none => [0, 0, 0, 0]
  | some r => [1 + (if r.contain then 2 else 0) + (if r.idem then 4 else 0), r.handler.toNat, r.openPc.toNat, r.firstCmd]

/-- The index of the flight buffer: the lines its bytes lie in, with how many lie in each (R98, R167). -/
def flightIndex (c : Ctx) : List Byte :=
  let line := fun (f : FByte) => f.addr / 256
  ((c.flight.map line).eraseDups.take 2048).flatMap (fun l => bytesOfNat 8 (l * 256) ++ bytesOfNat 8 ((c.flight.filter (fun f => line f == l)).length))

/-- The operand queues of a context, each its length and its entries (R98, R103). -/
def queuesImage (c : Ctx) : List Byte :=
  (List.range 4).flatMap (fun q =>
    let es := (tget c.oqs q).getD []
    bytesOfNat 8 es.length ++ (es.flatMap id).take 0xFF8 ++ List.replicate (0xFF8 - (es.flatMap id).length) 0)

/-- The rest of a saved context in the ninth page of its save area (R98): what the spec names; its layout is log entry 88's. -/
def restImage (c : Ctx) : List Byte :=
  (([c.pc, c.lc, BitVec.ofNat 64 c.ec.toNat, BitVec.ofNat 64 c.rb.toNat, BitVec.ofNat 64 c.aflags.toNat, c.wid, c.lastWid, c.epc,
    BitVec.ofNat 64 c.cause.toNat, c.tval, c.tinfo, c.tvec, BitVec.ofNat 64 c.view, BitVec.ofNat 64 c.flight.length] : List Word).map BitVec.toNat
    ++ regionImage c ++ (List.range 4).map (fun i => ((tget c.tags i).getD 0).toNat)
    ++ (List.range 127).map (fun i => (rdPhysP c (i + 1)).toNat)).flatMap (bytesOfNat 8)
    ++ (List.range 16).flatMap (fun i => bytesOfNat 16 (viewReg c i).toNat) ++ (List.range 16).flatMap (fun i => bytesOfNat 48 (streamReg c i).toNat)

/-- The save area of a unit holds its bank in eight pages, and in the ninth the rest and the engine state (R98, R116). -/
def fillSaveArea (s : State) (c : Ctx) : State :=
  let sp := (rentOf s c.saveRef).space
  if c.saveRef = 0 || (rentOf s c.saveRef).state != 1 then s
  else
    let old := s.mem.filter (fun e => !(locOf sp 0 ≤ e.1 && e.1 < locOf sp 0 + 9 * 65536))
    let s := { s with mem := Mem.join old (c.bank.map (fun e => (locOf sp e.1, e.2))) }
    let s := writeSpace s sp 0x80000 (restImage c) [] (tickOf s c) none
    let s := writeSpace s sp 0x82000 (flightIndex c) [] (tickOf s c) none
    let s := writeSpace s sp 0x8A000 (queuesImage c) [] (tickOf s c) none
    c.saved.foldl (fun s (e : Nat × EngState) => writeSpace s sp (0x81000 + e.1 * 0x200) (imageOf e.1 e.2) [] (tickOf s c) none) s

/-- The bank as a save area holds it; without one, as it stands. -/
def savedBank (s : State) (c : Ctx) : Mem :=
  let sp := (rentOf s c.saveRef).space
  if c.saveRef = 0 || (rentOf s c.saveRef).state != 1 then c.bank
  else (s.mem.filter (fun e => locOf sp 0 ≤ e.1 && e.1 < locOf sp 0 + 524288)).map (fun e => (e.1 - locOf sp 0, e.2))

/-- CONTEXT_SAVE_DONE (R98). -/
def execContextSaveDone (uid : Nat) (s : State) : Out :=
  match unitOf s uid with
  | none => .next s
  | some c =>
    if c.wait != .saving then .next s
    else
      let s := takeSaveArea s c
      let s := match unitOf s uid with | some c => fillSaveArea s c | none => s
      let s := releaseBank s c
      let s := modUnit s uid (fun c => { c with wait := .saved })
      let s := descheduled s c.team
      .next (if (vdOf s c.vd).busy && (vdOf s c.vd).cmd = 5 && freezeDone s c.vd
        then sched s 0 (now s 0) 18 0 0 (.ins (.freezeComplete c.vd)) else s)

/-! ## Moves (R64, R280) -/

/-- Tier-0 slots, tier-1 regions and DISPATCH claims of a unit that a move carries. -/
def carriedRefs (s : State) (c : Ctx) : List Nat :=
  c.slots.map (fun e => slotRef c.core e.2) ++ c.spad.map Span.ref
    ++ (teamOf s c.team).claims.filter (fun r => (rentOf s r).core == c.core)

/-- An entry as it is carried: a sublet's base counts from the base of the entry it is a sublet of. -/
def carriedBody (s : State) (ref : Nat) : Rent :=
  let r := rentOf s ref
  if r.sub then { r with base := r.base - (rentOf s (refOf (refDie ref) (refTable ref) r.parent)).base } else r

/-- Poisoned words of an alcove slot, as offsets in it (R194). -/
def slotMarks (s : State) (r : Rent) : List Nat :=
  if r.tier = 0 && !r.sub then ((coreOf s r.core).alcPoison.filter (fun w => w / 32768 == r.item - 4)).map (· % 32768) else []

/-- A carried slot's bytes and marks take a slot's place. -/
def fillSlot (x : CoreSt) (p : Nat) (bytes : Mem) (marks : List Nat) : CoreSt :=
  { x with
    alcove := Mem.writeRun (x.alcove.filter (fun b => b.1 / 32768 != p)) (p * 32768) (Mem.readRun bytes 0 32768)
    alcPoison := x.alcPoison.filter (fun w => w / 32768 != p) ++ marks.map (p * 32768 + ·) }

/-- Takes regions and their sublets out of the table: their bytes stay where they are in memory, a slot's go with it. -/
def detach (s : State) (refs : List Nat) : List CarriedRent × State :=
  let all := refs ++ refs.flatMap (sublets s s.rents.length)
  let body := carriedBody s
  all.foldl (fun (x : List CarriedRent × State) ref =>
    let s := x.2
    let r := rentOf s ref
    let bytes := if r.tier = 0 && !r.sub then
        ((coreOf s r.core).alcove.filter (fun b => b.1 / 32768 == r.item - 4)).map (fun b => (b.1 % 32768, b.2)) else []
    let s := retarget s ref (awayRef (2 ^ 20 + ref))
    (x.1 ++ [⟨ref, body ref, bytes, [], slotMarks s r, [], [], []⟩], modRent s ref (fun r => { (default : Rent) with gen := (r.gen + 1) % 65536 }))) ([], s)

/-- Puts carried regions back on a core; answers the new entries by the old ones. A sublet follows its region. -/
def attach (s : State) (core : Nat) : List CarriedRent → List (Nat × Nat) → Option (List (Nat × Nat) × State)
  | [], ms => some (ms, s)
  | k :: rest, ms => do
    let die := dieOfCore core
    let parent := refOf (refDie k.ref) (refTable k.ref) k.body.parent
    let up := (ms.find? (fun m => m.1 == parent)).map Prod.snd
    let (new, item, s) ← (if k.body.tier = 0 && !k.body.sub then
        (freeSlots s core).head?.map (fun p => (slotRef core p, 4 + p, s))
      else (freeEntry s die 1).map (fun x => (x.1, 0, x.2)) : Option (Nat × Nat × State))
    let (base, s) := if k.body.sub then (k.body.base + (up.map (fun u => (rentOf s u).base)).getD 0, s)
      else placeRegion s die { k.body with core := core, item := item }
    let s := modRent s new (fun e => { k.body with
      gen := e.gen, core := core, item := item, base := base
      parent := match up with | some u => if k.body.sub then refIndex u else k.body.parent | none => k.body.parent })
    let s := { s with moved := s.moved.map (fun m => if m.2 = awayRef (2 ^ 20 + k.ref) then (m.1, new) else m) }
    let s := if k.body.tier = 0 && !k.body.sub then modCore s core (fun x => fillSlot x (item - 4) k.bytes k.poison) else s
    attach (schedRent s new) core rest (ms ++ [(k.ref, new)])

/-- The entries a move reloads, lowest bank first (R64): as they stand, or as they stood when another unit took the
unit's context number. -/
def carriedEntries (s : State) (c : Ctx) : Tab ResEntry :=
  match c.entriesAt with
  | none => heldEntries (coreOf s c.core) c
  | some es => es.filter (fun e => c.slots.any (fun p => p.2 == e.2.slot) && (rentOf s (slotRef c.core e.2.slot)).state == 1)

/-- Gradients that a move copies as bit patterns (R64): of banks whose entries are the unit's own or empty, as they stand or as they
stood when another unit took the unit's context number. -/
def carriedGrads (s : State) (c : Ctx) : Tab GradAcc :=
  let k := coreOf s c.core
  if c.entriesAt.isSome then c.gradsAt
  else k.grads.filter (fun g => (entryAt k (g.1 / 16384)).state == 0 || (entryAt k (g.1 / 16384)).ctx == c.slot)

/-- Free bank of a core, rented for a restored unit and charged at once (R83); cap.mask is the core's at this placement (R97). The restore
tick that paid-until counts from is the end of the restore, start; the charge runs from the placement (log entry 123). -/
def restoreBank (s : State) (uid start : Nat) : Option State := do
  let c ← unitOf s uid
  let b ← freeBank s c.core
  let t := tickOf s c
  let r : Rent := { (default : Rent) with tier := 0, size := 1, paid := start + c.bankLeft, item := b }
  let (ref, s) ← grantItem s c r (some (bankEntry c.core b))
  let s := { s with moved := s.moved.map (fun m => if m.2 = awayRef uid then (m.1, ref) else m) }
  let s := modCore s c.core (fun k => { k with res := k.res.map (fun (e : Nat × ResEntry) =>
    if e.2.state != 0 && e.2.ctx == c.slot && c.slots.any (fun p => p.2 == e.2.slot) then (e.1, { e.2 with ctx := b }) else e) })
  some (modUnit s uid (fun c => { c with slot := b, bankRef := ref, capMask := (coreOf s c.core).capMask }))

/-- A unit and what it carries; own and free are the banks of its entries and those that were empty, whose accumulators it copies. -/
structure Mover where
  uid : Nat
  core : Nat
  rents : List CarriedRent
  entries : Tab ResEntry
  grads : Tab GradAcc
  own : List Nat
  free : List Nat
deriving Inhabited

/-- A unit leaves its core with all it has there. -/
def leaveCore (s : State) (uid core : Nat) : Mover × State :=
  match unitOf s uid with
  | none => (default, s)
  | some c =>
    let (rs, s') := detach s (carriedRefs s c)
    let held := (c.entriesAt.getD (heldEntries (coreOf s c.core) c)).map Prod.fst
    let m : Mover := ⟨uid, core, rs, carriedEntries s c, carriedGrads s c, held,
      if c.entriesAt.isSome then [] else (List.range 32).filter (fun b => (entryAt (coreOf s c.core) b).state == 0)⟩
    let s' := modCore s' c.core (fun k =>
      let k := (heldEntries k c).foldl (fun k e => modEntry k e.1 emptied) k
      { k with
        alcove := k.alcove.filter (fun b => !(c.slots.any (fun p => p.2 == b.1 / 32768)))
        alcPoison := k.alcPoison.filter (fun w => !(c.slots.any (fun p => p.2 == w / 32768)))
        loads := k.loads.map (fun l => if l.uid = uid then { l with live := false } else l) })
    (m, s')

/-- Gradient accumulators of a core as a moved unit's are copied there: those of its own banks, and those of banks that were empty and
are empty here (R64, R136). -/
def copyGrads (k : CoreSt) (m : Mover) : CoreSt :=
  let here := fun (b : Nat) => m.own.contains b || (m.free.contains b && (entryAt k b).state == 0)
  let kept := k.grads.filter (fun g => !here (g.1 / 16384))
  { k with grads := (m.grads.filter (fun g => here (g.1 / 16384))).foldl (fun t g => tset t g.1 g.2) kept }

/-- A unit arrives on its new core: regions, slot map, buffers' spans, claims, bank, gradients and entries; entries reload from
tick start on. One that has exited needs no bank and reloads nothing (log entry 124). A view tick means nothing to another domain: what
the unit has seen it still sees by the pulse (log entry 49). -/
def reachCore (s : State) (m : Mover) (start : Nat) : Option State := do
  let c ← unitOf s m.uid
  let (ms, s) ← attach s m.core m.rents []
  let new := fun (r : Nat) => match ms.find? (fun x => x.1 == r) with | some x => x.2 | none => r
  let slots := c.slots.map (fun e => (e.1, (rentOf s (new (slotRef c.core e.2))).item - 4))
  let slotOf := fun (p : Nat) => match c.slots.find? (fun e => e.2 == p) with | some e => (tget slots e.1).getD 0 | none => 0
  let s := modTeam s c.team (fun t => { t with claims := t.claims.map new })
  let s := modUnit s m.uid (fun c => { c with
    core := m.core, imported := false, slots := slots
    view := if inScope s .domain c.core { c with core := m.core } then c.view else 0
    spad := c.spad.map (fun p => { p with ref := new p.ref }), grantRefs := c.grantRefs.map new })
  if c.wait = .done then return modCore s m.core (fun k => copyGrads k m)
  let s ← restoreBank s m.uid start
  let c ← unitOf s m.uid
  let s := modCore s m.core (fun k => copyGrads k m)
  some (m.entries.foldl (fun s e =>
    beginLoad s m.core m.uid c.pc.toNat e.1 e.2.expert (slotOf e.2.slot) c.slot (if e.2.q4 then 0x11 else e.2.format) false start) s)

/-! ## Restore (R64, R83, R98, R117) -/

/-- A copy of the unit still runs: a move waits for it (log entry 39). -/
def copyRuns (s : State) (uid : Nat) : Bool := s.engines.any (fun e => (engRunning e.2).any (fun k => k.uid == uid))

/-- A team is restored on its cores, if its banks can be rented and what it holds fits; a move whole (R64). That the ticks of
a move's restore, and of one that ends a freeze, count as descheduled, and those of another restore on the same cores do not, is log
entry 105's. -/
def restoreTeam (s : State) (team : Nat) (cores : List Nat) : Option State := do
  let m := teamOf s team
  let l := launchOf s m.launch
  let us := teamUnits s team
  let up := us.filter (fun u => u.wait != .done)
  let to_ := (us.map Ctx.uid).zip cores
  let moves := (us.zip cores).any (fun p => p.1.core != p.2 || p.1.imported)
  let t := now s (dieOfCore (cores.headD 0))
  if moves && us.any (fun u => copyRuns s u.uid) then none
  else
    let s := cores.foldl freeTest s
    let (start, s) ← (if !moves then do
        let s ← up.foldlM (fun s u => restoreBank s u.uid (t + 1024)) s
        some (t + 1024, sendDescriptor (journal s 4 l.vd l.queue l.seq ([team] ++ cores ++ [t])) (galOfCore (cores.headD 0)))
      else do
        let (d, s) := openTicks s
        let start := t + 1024 + d
        let (ms, s) := to_.foldl (fun (x : List Mover × State) p =>
          let (m, s) := leaveCore x.2 p.1 p.2
          (x.1 ++ [m], s)) ([], s)
        let s ← ms.foldlM (fun s m => reachCore s m start) s
        if ms.any (fun m => 1024 < sizeOf' (s.rents.filter (fun e => !e.2.sub && e.2.tier == 1 && e.2.core == m.core
            && refTable e.1 == 1 && (e.2.state == 1 || e.2.state == 2)))) then none
        else
          let s := ms.foldl (fun s m => writeGrantRecord s m.uid) s
          let s := sendDescriptor (journal s 6 l.vd l.queue l.seq ([team] ++ us.map Ctx.core ++ cores)) (galOfCore (cores.headD 0))
          let last := ms.foldl (fun n m => if m.entries.isEmpty || !up.any (fun u => u.uid == m.uid) then n else max n (coreOf s m.core).pathFree) start
          some (last, s) : Option (Nat × State))
    let s := startSlice s l.vd
    let gone := fun (u : Ctx) => (if moves || u.byFreeze then start else t) - m.stopTick
    let s := up.foldl (fun s u => schedBudget (modUnit s u.uid (fun c => { c with budgetStart := c.budgetStart + gone u })) u.uid) s
    let s := modTeam s team (fun m => { m with
      state := 5, gallery := galOfCore (cores.headD 0), issueTick := now s 0, waitStart := none, aged := none, leaving := false })
    some (sched s (dieOfCore (cores.headD 0)) start 17 0 0 (.ins (.teamResume team)))

/-- The RESUME of a restore for a stopped command (R117). -/
def restoring (s : State) (c : Ctx) (q : Nat) (e : EngState) : State :=
  let (id, s) := fresh s
  let t := tickOf s c
  let k : Cmd := { (default : Cmd) with
    id := id, uid := c.uid, core := c.core, pc := e.cmd.pc
    ins := .resume default (match q with | 0 => .mq | 1 => .vq | 2 => .lq | _ => .sq), deliver := t, timed := e.cmd.timed, due := t, seq := e.cmd.seq }
  modCore s c.core (fun x => setQueue x q (k :: queueOf x q))

/-- A restored context goes on (R98, R117): its bank comes from its save area, the core fetches anew (R178), held commands return,
later by the ticks it was stopped, what was stopped at the save is resumed. -/
def wakeUnit (s : State) (uid : Nat) : State :=
  match unitOf s uid with
  | none => s
  | some c =>
    if c.wait != .saved then s
    else
      let t := tickOf s c
      let d := t - c.savedAt
      let s := returnHeld s c d (fun m => m.timed || engineOf m.ins == 4)
      let s := if c.byFreeze then modUnit s uid (fun x => { x with
          segBase := x.segBase.map (fun b => b + d)
          lastDue := c.lastDue.map (fun l => (l.1, l.2.1, l.2.2 + d)) }) else s
      let s := (c.saved.filter (fun e => e.1 < 4 && e.2.tick == c.savedAt)).foldl (fun s e => restoring s c e.1 e.2) s
      let s := modCore s c.core refetch
      schedBudget (modUnit s uid (fun c => { c with
        bank := savedBank s c, wait := .run, nextAt := t, sliceEnd := none, heldIrq := [], defer := none, entriesAt := none
        gradsAt := [], byFreeze := false })) uid

/-- The device of a team is being frozen (R46). -/
def beingFrozen (s : State) (vd : Nat) : Bool := (vdOf s vd).busy && (vdOf s vd).cmd == 5

/-- TEAM_RESUME (R64, R98, R117): the restore begins, or 1,024 ticks and the ticks of a move later it is done. -/
def execTeamResume (team : Nat) (s : State) : Out :=
  match (teamOf s team).state with
  | 3 =>
    if takingOver s || !waitsForCores s team then .next s
    else (match (placeTeam s team).bind (restoreTeam s team) with
      | some s => .next (poke s)
      | none => .next s)
  | 5 =>
    let s := modTeam s team (fun m => { m with state := 1 })
    let s := (teamOf s team).units.foldl wakeUnit s
    .next (if beingFrozen s (teamVd s team) then preemptTeam s team 3 else if (teamOf s team).leaving then preemptTeam s team 0 else s)
  | _ => .next s

/-! ## The scoreboard looks again (R55) -/

/-- The standby applies committed entries in its own time, an open number but at least one at each look; while some are left the newel
looks again (R70). -/
def standbyApplies (s : State) : State :=
  let n := s.newel
  let left := n.commitSeq - n.appliedSeq
  if n.pair != 0 || !n.standbyOk || left = 0 then s
  else
    let (k, s) := pick s left
    let s := { s with newel := { s.newel with appliedSeq := n.appliedSeq + 1 + k } }
    if k + 1 < left then schedNewel s (2 ^ 12) .scoreboardReevaluate else s

/-- SCOREBOARD_REEVALUATE (R55, R60): what waits is reviewed, the next team goes; again within 2^12 ticks. -/
def execScoreboardReevaluate (s : State) : Out :=
  if takingOver s || s.newel.pair = 5 || !s.boot.done then .next s
  else
    let s := standbyApplies s
    let s := (s.launches.map Prod.fst).foldl reviewLaunch s
    let s := (s.teams.map Prod.fst).foldl reviewTeam s
    let s := match nextTeam s restoreTeam with
      | (some t, s) => sched s 0 (now s 0) 18 0 0 (.ins (if (teamOf s t).state = 0 then .teamIssue t else .teamResume t))
      | (none, s) => s
    .next (if (waitingTeams s).isEmpty || s.agenda.any (fun e => e.act == .ins .scoreboardReevaluate && now s 0 < e.tick) then s
      else schedNewel s (2 ^ 12) .scoreboardReevaluate)

/-! ## Budgets (R54, R108) -/

/-- BUDGET_EXPIRE (R108): DEADLINE, whatever regions are open. -/
def execBudgetExpire (uid : Nat) (s : State) : Out :=
  match unitOf s uid with
  | none => .next s
  | some c =>
    let m := teamOf s c.team
    match c.wait with
    | .done => .next s
    | .frozen _ => .next s
    | _ => if c.budgetStart + c.budget + 1 ≤ tickOf s c && holds m then .next (toMonitor s c ⟨cDEADLINE, 0, 0, true⟩) else .next s

end Sys2Proof.Machine
end

