-- ==== Sys2Proof/Machine/Exit.lean ====
section
/-!
DEFINITION. HALT and the exit of a context (R54, R244), and the long twins of form B (R229).
-/
set_option linter.unusedVariables false
namespace Sys2Proof.Machine
open Sys2Proof

/-- HALT (R244): a region open raises REGION; the flight lands at system scope, and the context waits for its commands. -/
def execHalt (s : State) : Out :=
  onCore [0] (fun s c =>
    if c.region.isSome then flt cREGION 0 5
    else
      let (t, s, c) := landAt s c .system (tickOf s c)
      .ok { s with cx := some { c with wait := .halt t, landDropped := none } }) s

/-- Every command a context has delivered, on every engine or held, is over, and so are its writes and what it has sent to the
synchronisation engines (R244, R283; log entry 113). -/
def allOver (s : State) (c : Ctx) : Bool :=
  (cmdsOf s c).isEmpty && c.heldCmds.isEmpty && c.trapCmds.isEmpty && !owned s c.uid && !sentOps s c
    && s.dies.all (fun (d : Nat × DieSt) => d.2.sync.all (fun k => k.uid != c.uid))
    && s.engines.all (fun (e : Nat × CopyEng) => (e.2.buffer ++ engRunning e.2).all (fun k => k.uid != c.uid))

/-- HALT's wait is over. -/
def exitReady (s : State) (c : Ctx) : Bool :=
  match c.wait with
  | .halt t => decide (t ≤ tickOf s c) && allOver s c
  | _ => false

/-- CONTEXT_EXIT (R54, R244): the next item starts at the entry point; after the last one what commands placed in the flight since HALT
executed lands too (R167, R355), and the context exits, with an implicit arrive-and-drop, and its unit finishes. -/
def execContextExit (uid : Nat) (s : State) : Out :=
  match unitOf s uid with
  | none => .next s
  | some c =>
    if !exitReady s c then .next s
    else if c.wid.toNat < c.lastWid.toNat then
      .next (setUnit s { c with wid := c.wid + 1, pc := c.entry, wait := .run, nextAt := tickOf s c })
    else if !c.flight.isEmpty then
      let (t, s, c) := landAt s c .system (tickOf s c + 1)
      .next (setUnit s { c with wait := .halt t })
    else
      let s := exitDrops s uid (tickOf s c)
      let s := modUnit s uid (fun c => { c with wait := .done })
      match unitOf s uid with
      | some c => .next (freeHolder (unitDone s c) c.core)
      | none => .next s

/-- A long twin (R229): the effect of its form-B instruction, the immediate at 32 bits. -/
def execLongTwin (op : TwinOp) (d a : Reg) (imm : BitVec 32) (s : State) : Out :=
  let x := sx32 imm
  let n := imm.toNat
  match op with
  | .addi => aluImm 0 (fun v => v + x) 8 d a s
  | .andi => aluImm 0 (fun v => v &&& x) 8 d a s
  | .ori => aluImm 0 (fun v => v ||| x) 8 d a s
  | .xori => aluImm 0 (fun v => v ^^^ x) 8 d a s
  | .slli => aluImm 0 (fun v => v <<< n) 8 d a s
  | .srli => aluImm 0 (fun v => v >>> n) 8 d a s
  | .srai => aluImm 0 (fun v => v.sshiftRight n) 8 d a s
  | .slti => aluImm 0 (fun v => ofBool (v.slt x)) 8 d a s
  | .sltiu => aluImm 0 (fun v => ofBool (v.ult x)) 8 d a s
  | .bfx => aluImm 6 (fun v => bfx v (n % 64) (n / 64)) 8 d a s
  | .bfxs => aluImm 6 (fun v => bfxs v (n % 64) (n / 64)) 8 d a s
  | .bfi => insertField (n % 64) (n / 64) 8 d a s
  | .ldN32 => loadInstr 4 false 8 d a x s
  | .ldI32 => loadInstr 4 true 8 d a x s
  | .ldN64 => loadInstr 8 false 8 d a x s
  | .ldN16 => loadInstr 2 false 8 d a x s
  | .ldI16 => loadInstr 2 true 8 d a x s
  | .ldN8 => loadInstr 1 false 8 d a x s
  | .ldI8 => loadInstr 1 true 8 d a x s
  | .stN8 => storeInstr 1 8 d a x s
  | .stN16 => storeInstr 2 8 d a x s
  | .stN32 => storeInstr 4 8 d a x s
  | .stN64 => storeInstr 8 8 d a x s
  | .pref => prefetch a x 8 s
  | .ldg => loadElem d a.toNat n 8 s
  | .stg => storeElem d a.toNat n 8 s
  | .br => branch ((Cond.ofCode d.toNat).getD .z) a x 8 s
  | .j => jump x s
  | .jl => jumpLink x s
  | .loopr => loopStep x 8 s
  | .trap => trapTo n s
  | .mvs => moveFromSys d ((SysName.ofCode n).getD .tick) 8 s
  | .msv => moveToSys ((SysName.ofCode n).getD .tick) a 8 s
  | .defer => deferFor n 8 s

end Sys2Proof.Machine
end

