-- ==== Sys2Proof/Machine/Host.lean ====
section
/-!
DEFINITION. The host's queue window and pages (R26 to R37, R70, R93), and pool capacity (R20, R41).
-/
set_option linter.unusedVariables false
namespace Sys2Proof.Machine
open Sys2Proof

/-! ## Writes of a guest (R27, R46) -/

/-- A guest's write to BAR 2 or BAR 4 of a device: dropped and counted while it is FROZEN, unless its DESTROY waits for room (R46; log
entry 93), without effect where the
function is not enabled, has no such queue, or only the management window is left (R19, R40, R71). Writes to an IMPORTING device
take effect (log entry 89). -/
def guestWrite (s : State) (vd q : Nat) (f : State → State) : State :=
  let v := vdOf s vd
  if v.state = 0 || 64 ≤ vd || 64 ≤ q || !newelUp s then s
  else if v.state = 3 && !destroying v then
    modQueue (modVd s vd (fun v => { v with droppedWrites := v.droppedWrites + 1 })) vd q (fun r => { r with error := true, code := 4 })
  else f s

/-- SQ_TAIL_WRITE (R28): a tail overrun is ignored and noted, with the count of the last record it would have admitted. -/
def execSqTailWrite (vd q val : Nat) (s : State) : Out :=
  .next (guestWrite s vd q (fun s =>
    let r := queueReg (vdOf s vd) q
    let t := BitVec.ofNat 32 val
    if 32 < (t - r.sqHead).toNat then modQueue s vd q (fun r => { r with error := true, code := 1, badSeq := t - 1 })
    else modQueue s vd q (fun r => { r with sqTail := t })))

/-- KICK (R29): the bit is set, and the newel serves it at a tick the device leaves open. -/
def execKick (vd q : Nat) (s : State) : Out :=
  .next (guestWrite s vd q (fun s =>
    let k := vd * 64 + q
    let s := if s.kicks.contains k then s else { s with kicks := s.kicks ++ [k] }
    let (d, s) := openTicks s
    schedNewel s d (.kickScan vd q)))

/-- A kick bit is cleared, after its journal entry (R30, R69). -/
def clearKick (s : State) (vd q : Nat) : State :=
  let s := journal s 2 vd q 0 [vd * 64 + q]
  { s with kicks := s.kicks.filter (fun k => k != vd * 64 + q) }

/-! ## The journal's ring (R68, R70) -/

/-- The ring can take one more record. -/
def journalRoom (s : State) : Bool :=
  (s.newel.journal.map (fun e => (entryImage e).length)).foldl (· + ·) 0 + 272 ≤ ringSize

/-! ## Taking records (R28, R30, R49) -/

/-- The record in slot count mod 32. -/
def recordBytes (s : State) (vd q n : Nat) : List Byte := s.window.readRun (queueBase vd q + 0x1000 + n % 32 * 256) 256

/-- A record is journaled and entered, or refused with its completion (R28). -/
def takeRecord (s : State) (vd q : Nat) : State :=
  let n := (queueReg (vdOf s vd) q).sqHead
  let b := recordBytes s vd q n.toNat
  let ok := recordOk s vd b
  let s := journalBytes s 1 vd q n.toNat b
  let s := modQueue s vd q (fun r => { r with sqHead := r.sqHead + 1 })
  if ok then enterLaunch s vd q n.toNat (recordOf b)
  else addCompletion (modQueue s vd q (fun r => { r with error := true, code := 2, badSeq := n })) vd ⟨q, n.toNat, 2, 0, now s 0, 0, 0, 0⟩

/-- Records from the head to the tail, while the journal has room. -/
def takeRecords : Nat → State → Nat → Nat → State
  | 0, s, _, _ => s
  | f + 1, s, vd, q =>
    let r := queueReg (vdOf s vd) q
    if r.sqHead = r.sqTail || !journalRoom s then s else takeRecords f (takeRecord s vd q) vd q

/-- A set kick bit is served (R29, R30): on a disabled queue it is cleared without a scan; a FROZEN device, a draining queue and a
full journal leave it set. -/
def scanKick (s : State) (vd q : Nat) : State :=
  let v := vdOf s vd
  let r := queueReg v q
  if !s.kicks.contains (vd * 64 + q) || v.state = 3 || destroying v then s
  else if !r.enable then modQueue (clearKick s vd q) vd q (fun r => { r with error := true, code := 3 })
  else if r.drain then s
  else
    let s := takeRecords 33 (retire s) vd q
    let r := queueReg (vdOf s vd) q
    if r.sqHead = r.sqTail then clearKick s vd q else schedNewel s (2 ^ 12) (.kickScan vd q)

/-- KICK_SCAN (R29, R30): in a take-over bits stay set. That a draining queue's bit waits for the end of the drain, which it then
meets as a kick on a disabled queue, is log entry 90's; that an IMPORTING device's kicks are served is log entry 89's. -/
def execKickScan (vd q : Nat) (s : State) : Out :=
  .next (if takingOver s || s.newel.pair = 5 then s else scanKick s vd q)

/-- CQ_HEAD_WRITE (R27, R32): withheld completions may go on. -/
def execCqHeadWrite (vd q val : Nat) (s : State) : Out :=
  .next (guestWrite s vd q (fun s => flushCompletions (modQueue s vd q (fun r => { r with cqHead := BitVec.ofNat 32 val })) vd))

/-- The drain bit (Table 2.3). -/
def startDrain (s : State) (vd q : Nat) : State := drainCheck (modQueue s vd q (fun r => { r with drain := true })) vd q

/-- QUEUE_ENABLE (Tables 2.3, 2.4): a write of qctl; enable = 1 clears the error. -/
def execQueueEnable (vd q val : Nat) (s : State) : Out :=
  .next (guestWrite s vd q (fun s =>
    let on := bitsOf val 0 1 == 1
    let s := modQueue s vd q (fun r => { r with
      enable := on, irqEn := bitsOf val 2 1 == 1, coalesce := BitVec.ofNat 8 (bitsOf val 8 8)
      vector := BitVec.ofNat 11 (bitsOf val 16 11), error := if on then false else r.error })
    if bitsOf val 1 1 = 1 then startDrain s vd q else s))

/-- QUEUE_DRAIN (Table 2.3). -/
def execQueueDrain (vd q : Nat) (s : State) : Out := .next (guestWrite s vd q (fun s => startDrain s vd q))

/-- QUEUE_DRAIN_DONE (Table 2.3): a kick that waits meets a disabled queue (log entry 90). -/
def execQueueDrainDone (vd q : Nat) (s : State) : Out :=
  if !(queueReg (vdOf s vd) q).drain then .next s
  else
    let s := modQueue s vd q (fun r => { r with drain := false, enable := false })
    .next (if s.kicks.contains (vd * 64 + q) then schedNewel s 0 (.kickScan vd q) else s)

/-! ## Pages (R33 to R37) -/

/-- Held requests are posted as entries are freed (Table 2.7). -/
def postHeld (s : State) (vd : Nat) : State :=
  let hs := (vdOf s vd).prHeld
  hs.foldl (fun s e => putPageRequest s vd e) (modVd s vd (fun v => { v with prHeld := [] }))

/-- PR_HEAD_WRITE (Table 2.6). -/
def execPrHeadWrite (vd val : Nat) (s : State) : Out :=
  .next (guestWrite s vd 0 (fun s => postHeld (modVd s vd (fun v => { v with prHead := BitVec.ofNat 32 val })) vd))

/-- page_status after a release or a claim. -/
def pageStatus (addr result : Nat) : Word := BitVec.ofNat 64 (addr / 65536 * 65536 + result * 256)

/-- Cached lines of a page go: layout records of every die, prefetch lines of cores running the device (R34). -/
def dropLines (s : State) (vd lo : Nat) : State :=
  let inside := fun (a : Nat) => lo ≤ a && a < lo + 65536
  let runs := fun (core : Nat) => (allUnits s).any (fun u => u.vd == vd && u.core == core)
  cleanRecords { s with
    memPoison := s.memPoison.filter (fun w => !(prefetchSpace 0 ≤ w.1 && runs (w.1 - prefetchSpace 0) && inside w.2))
    dies := s.dies.map (fun (d : Nat × DieSt) => (d.1, { d.2 with records := d.2.records.filter (fun r => !inside r.1) }))
    cores := s.cores.map (fun (k : Nat × CoreSt) =>
      if runs k.1 then
        (k.1, { k.2 with
          prefetch := k.2.prefetch.filter (fun l => !inside (l * 256))
          upsets := k.2.upsets.filter (fun u => !(2 ^ 30 ≤ u.1 && inside (u.1 - 2 ^ 30))) }) else k) }

/-- What the host wrote to a page before its release is before every device access after it, whatever a context's view (R179). -/
def settleHost (s : State) (space off : Nat) : State :=
  { s with hist := s.hist.filter (fun h => !(h.space == space && off ≤ h.off && h.off < off + 65536 && h.landing.isNone)) }

/-- Contexts parked on a page go on at the faulting instruction (R34); the newel's release to them is their acquire (R179). -/
def unpark (s : State) (vd page : Nat) : State :=
  (allUnits s).foldl (fun s u =>
    if u.vd = vd && u.wait = .parked page then modUnit s u.uid (fun u => { u.raise s (tickOf s u) with wait := .run, nextAt := tickOf s u }) else s) s

/-- PAGE_RELEASE (R34, R35): a page of the host's becomes the device's; an address with low bits is ignored. -/
def execPageRelease (vd page : Nat) (s : State) : Out :=
  .next (guestWrite s vd 0 (fun s =>
    let s := modVd s vd (fun v => { v with released := BitVec.ofNat 64 page })
    let v := vdOf s vd
    if page % 65536 != 0 then s
    else match globalMap v page with
      | none => modVd s vd (fun v => { v with prStatus := pageStatus page 1 })
      | some m =>
        if !hostOwns s vd page then s
        else
          let s := modVd s vd (fun v => { v with
            hostOwned := v.hostOwned.filter (fun p => p != page / 65536), asked := v.asked.filter (fun e => e.1 != page / 65536)
            prStatus := pageStatus page 0 })
          let lo := if m.host then m.hostAddr + (page - m.first) else locOf (rentOf s m.ref).space (page - m.first)
          let s := if m.host then settleHost s 0 lo else settleHost s (rentOf s m.ref).space (page - m.first)
          poke (unpark (dropLines s vd lo) vd (page / 65536))))

/-- PAGE_CLAIM (R33, R36): a claim waits until R36 holds; one at a time. -/
def execPageClaim (vd page : Nat) (s : State) : Out :=
  .next (guestWrite s vd 0 (fun s =>
    let s := modVd s vd (fun v => { v with claimed := BitVec.ofNat 64 page })
    let v := vdOf s vd
    if page % 65536 != 0 || v.claim.isSome then s
    else match globalMap v page with
      | none => modVd s vd (fun v => { v with prStatus := pageStatus page 1 })
      | some m =>
        if !m.host && (rentOf s m.ref).tier = 2 then modVd s vd (fun v => { v with prStatus := pageStatus page 1 })
        else if hostOwns s vd page then modVd s vd (fun v => { v with prStatus := pageStatus page 2 })
        else modVd s vd (fun v => { v with claim := some page, prStatus := v.prStatus ||| 1 })))

/-- A copy command reads or writes a page of a device; one whose words are not known yet may (R36). -/
def copyTouches (s : State) (vd page eng : Nat) (k : Cmd) : Bool :=
  match issuer s eng k with
  | none => false
  | some c =>
    let unread := k.start.isNone && (match k.ins with | .cpyc _ _ => k.sample.isEmpty | .ckpt _ _ => true | _ => false)
    c.vd = vd && (unread || (List.range k.live).any (fun j => [0, 1].any (fun side =>
      !remoteSide k side && (copyAddr k side j).toNat / 65536 == page / 65536)))

/-- What a pending claim waits for (R36). A launch with all its teams descheduled still runs (log entry 91). -/
def claimReady (s : State) (vd page : Nat) : Bool :=
  !(s.launches.any (fun e => e.2.vd == vd && e.2.issued)) && s.engines.all (fun (e : Nat × CopyEng) =>
    (e.2.buffer ++ engRunning e.2).all (fun k => !copyTouches s vd page e.1 k))

/-- PAGE_CLAIM_GRANT (R36); a page that is mapped no more, or is tier 2's now, completes as R33 has such a claim complete. -/
def execPageClaimGrant (vd : Nat) (s : State) : Out :=
  match (vdOf s vd).claim with
  | none => .next s
  | some page =>
    if !claimReady s vd page then .next s
    else if !(match globalMap (vdOf s vd) page with | some m => m.host || (rentOf s m.ref).tier != 2 | none => false) then
      .next (modVd s vd (fun v => { v with claim := none, prStatus := pageStatus page 1 }))
    else .next (modVd s vd (fun v => { v with
      claim := none, hostOwned := v.hostOwned ++ [page / 65536], prStatus := pageStatus page 0 }))

/-- HOST_CXL_MEM_ACCESS (R33): 8 bytes of a page; a device-owned one answers a read with poison (no bytes) and drops a write.
What the host reads is noted in `Links.sent`, under node 2^12 (log entry 12). -/
def execHostCxlMemAccess (vd addr write val : Nat) (s : State) : Out :=
  let out := fun (s : State) (bs : List Byte) => { s with links := { s.links with sent := s.links.sent ++ [(4096, addr, bs, [])] } }
  match globalMap (vdOf s vd) addr with
  | none => .next (if write = 0 then out s [] else s)
  | some m =>
    if m.host || !hostOwns s vd addr then .next (if write = 0 then out s [] else s)
    else
      let sp := (rentOf s m.ref).space
      if write = 0 then .next (out s (s.mem.readRun (locOf sp (addr - m.first)) 8))
      else .next (writeSpace s sp (addr - m.first) (bytesOfNat 8 val) [] (now s 0) none)

/-! ## Page retirement (R93) -/

/-- The page of tier 2, 3 or 4 that firmware names, as its storage and number there: one of a device's global window, or, from 2^41
on, any other, private and save areas and synchronisation space among them, by storage × 2^25 + page. -/
def retirePlace (s : State) (vd page : Nat) : Option (Nat × Nat) :=
  let at_ := if page < 2 ^ 41 then
      (globalMap (vdOf s vd) (page * 65536)).bind (fun m =>
        if m.host then none else some ((rentOf s m.ref).space, (page * 65536 - m.first) / 65536))
    else some ((page - 2 ^ 41) / 2 ^ 25, (page - 2 ^ 41) % 2 ^ 25)
  at_.filter (fun x => s.rents.any (fun e => e.2.space == x.1 && !e.2.sub && e.2.state != 0 && 2 ≤ e.2.tier && decide (x.2 < e.2.size)))

/-- A running timed segment's streams name a page: no window opens on it. -/
def inTimedStream (s : State) (space page : Nat) : Bool :=
  (allUnits s).any (fun u => u.timed && u.streams.any (fun g => (runPages g.2).any (fun p =>
    match translate s u (windowFor u (BitVec.ofNat 64 (p * 65536))) (BitVec.ofNat 64 (p * 65536)) with
    | .ok q => !q.host && q.space == space && q.off / 65536 == page
    | .error _ => false)))

/-- PAGE_RETIRE (R93): the page is copied to a new frame while a dirty map of the old frame's lines is kept; dirty lines are copied
again until no more than 16 remain; then the switch window opens; then the entry names the new frame and the window closes. What the
page holds, its owner and its rent stay. The times are open. -/
def execPageRetire (vd page : Nat) (s : State) : Out :=
  match retirePlace s vd page with
  | none => .next s
  | some (sp, pg) =>
    let (d, s) := openTicks s
    let here := fun (r : Retiring) => r.space == sp && r.page == pg
    let again := fun (s : State) => schedNewel s (d + 1) (.pageRetire vd page)
    let set := fun (f : Retiring → Retiring) => again { s with retiring := s.retiring.map (fun r => if here r then f r else r) }
    match s.retiring.find? here with
    | none => .next (again { s with retiring := s.retiring ++ [⟨sp, pg, false, []⟩] })
    | some r =>
      if r.window then
        let (f, s) := fresh s
        .next { s with retiring := s.retiring.filter (fun r => !here r), frames := tset s.frames (sp * 2 ^ 25 + pg) f }
      else if 16 < r.lines.length then .next (set (fun r => { r with lines := [] }))
      else if inTimedStream s sp pg then .next (again s)
      else .next (set (fun r => { r with window := true }))

/-! ## Pool capacity (R20, R41) -/

/-- The ranges of pool pages that a link's decoders name: extents that meet are one range (Table 1.6; DEDUCED, log
entry 103). -/
def decoderRanges (l : List (Nat × Nat)) : List (Nat × Nat) :=
  (l.mergeSort (fun a b => decide (a.1 ≤ b.1))).foldl (fun (r : List (Nat × Nat)) e =>
    match r with
    | (a, n) :: r => if e.1 = a + n then (a, n + e.2) :: r else e :: (a, n) :: r
    | [] => [e]) []

/-- Pages of all pools: at most 64 TiB (R1, Table 0.1). -/
def allPoolPages (s : State) : Nat := ((List.range 8).map (poolPages s)).foldl (· + ·) 0

/-- POOL_EXTENT_ADD: firmware takes a 2 MiB-aligned extent of whole 2 MiB that no extent overlaps, over a pool link that is up and
runs IDE, while 8 decoders can name its ranges and the pools hold at most 64 TiB; others are declined (R1, R20, Table 1.6). -/
def execPoolExtentAdd (die base pages : Nat) (s : State) : Out :=
  let l := (tget s.links.extents die).getD []
  if pages = 0 || pages % 32 != 0 || base % 32 != 0 || 8 ≤ die || !s.links.ide.getD die false || !s.links.cxlUp.getD (8 + die) false
    || l.any (fun e => decide (e.1 < base + pages ∧ base < e.1 + e.2)) || 8 < (decoderRanges (l ++ [(base, pages)])).length
    || 2 ^ 30 < allPoolPages s + pages then .next s
  else .next (poke { s with links := { s.links with
    extents := tmod s.links.extents die [] (fun l => l ++ [(base, pages)]) } })

/-- POOL_EXTENT_RELEASE: only what no PAID or GRACE page needs is released; RECLAIMED space of it returns to FREE. -/
def execPoolExtentRelease (die base pages : Nat) (s : State) : Out :=
  let l := (tget s.links.extents die).getD []
  let used := sizeOf' ((poolRegions s 4 die).filter (fun e => e.2.state != 3))
  if !l.contains (base, pages) || poolPages s die < used + pages then .next s
  else
    let s := { s with links := { s.links with extents := tset s.links.extents die (l.erase (base, pages)) } }
    let gone := (poolRegions s 4 die).filter (fun e => e.2.state == 3)
    .next (if poolPages s die < used + sizeOf' gone then gone.foldl (fun s e => freeRent s e.1) s else s)

end Sys2Proof.Machine
end

