-- ==== Sys2Proof/Machine/VDev.lean ====
section
/-!
DEFINITION. Commands of virtual devices (R38 to R46, Tables 2.8 to 2.10, 2.14): create and destroy, global regions, code
regions, parameters, freezing, and fdb's stops (R346).
-/
set_option linter.unusedVariables false
namespace Sys2Proof.Machine
open Sys2Proof

/-- The virtual device whose control block an access of the management window names (R38). -/
def portVd (s : State) : Nat := (s.port.off - 0x280000) / 0x1000

/-- A command ends with a result (Table 2.9). -/
def finishVd (s : State) (vd r : Nat) : State := modVd s vd (fun v => { v with busy := false, result := r })

/-- The event of a command number (Table 2.10). -/
def vdInstr (n : Nat) : Instr :=
  match n with
  | 1 => .createVd | 2 => .destroyVd | 3 => .exportVd | 4 => .roundVd | 5 => .freeze | 6 => .finalVd | 7 => .importVd | 8 => .activate
  | 9 => .thaw | 0xA => .grent | 0xB => .loadVd | 0xC => .codereg | 0xD => .codefree | 0xE => .grelease | _ => .grenew

/-- A command that arrives in a take-over waits until the newel acts again: it is seen anew at the next pulse (R71, log entry 92). -/
def postponeVd (s : State) (n : Nat) : State :=
  { s with inputs := s.inputs ++ [⟨s.clock.pulses + 1, s.port, vdInstr n, [], []⟩] }

/-- A write of vd_ctl starts a command: ignored while one is in progress, result 1 in a state that is not its own
(R40). Without a newel nothing starts, and in a take-over it waits. -/
def vdCommand (n : Nat) (may : VDev → Bool) (f : State → Nat → VDev → State) (s : State) : Out :=
  let vd := portVd s
  if s.port.off < 0x280000 || 64 ≤ vd then .next s
  else
    let s := modVd s vd (fun v => { v with node := s.port.val.extractLsb' 32 12 })
    let v := vdOf s vd
    if v.busy || !newelUp s then .next s
    else if takingOver s then .next (postponeVd s n)
    else
      let s := modVd s vd (fun v => { v with cmd := n })
      .next (if may v then f s vd (vdOf s vd) else finishVd s vd 1)

def live (v : VDev) : Bool := v.state == 1 || v.state == 2

/-- A device's state changes, after its journal entry (R69). -/
def setVdState (s : State) (vd new : Nat) : State :=
  let old := (vdOf s vd).state
  modVd (journal s 9 vd 0 0 [old, new]) vd (fun v => { v with state := new })

/-! ## CREATE, DESTROY, IMPORT (R39, R41, R43) -/

/-- The floors of all devices that exist, with this one, fit every pool (R41). -/
def floorsFit (s : State) (vd : Nat) : Bool :=
  [1, 2, 3, 4].all (fun tier => (List.range 8).all (fun die =>
    let own := (tget (vdOf s vd).floors ((tier - 1) * 8 + die)).getD 0
    let others := ((List.range 64).filter (fun u => u != vd)).foldl (fun n u => n + floorOf s u tier die) 0
    own + others ≤ capacity s tier die))

/-- A device at its start: parameters at their reset values, queues and pages zeroed; floors, operands, allowance, generations of
code entries and its command's fields stay (R39, R40, R43). What of this the spec does not name is log entry 93's. -/
def freshVd (v : VDev) (state : Nat) : VDev :=
  { VDev.reset with
    state := state, cmd := v.cmd, node := v.node, allowance := v.allowance, floors := v.floors, arg0 := v.arg0, arg1 := v.arg1
    arg2 := v.arg2, res0 := v.res0, res1 := v.res1, codes := v.codes.map (fun (e : Nat × Code) => (e.1, { e.2 with used := false })) }

/-- Zeroes a device's 16 pages of the queue window (R43). -/
def zeroWindow (s : State) (vd : Nat) : State :=
  { s with window := s.window.filter (fun c => c.1 / 0x100000 != vd), kicks := s.kicks.filter (fun k => k / 64 != vd) }

def startVd (s : State) (vd state : Nat) : State :=
  if !floorsFit s vd then finishVd s vd 2
  else
    let s := setVdState (zeroWindow s vd) vd state
    modVd s vd (fun v => freshVd v state)

def execCreateVd (s : State) : Out := vdCommand 1 (fun v => v.state == 0) (fun s vd _ => startVd s vd 1) s
def execImportVd (s : State) : Out := vdCommand 7 (fun v => v.state == 0) (fun s vd _ => startVd s vd 4) s

/-- A launch of a destroyed device ends CANCELLED; one that has ended already keeps its status (R43). -/
def cancelLaunch (s : State) (id : Nat) : State :=
  let l := launchOf s id
  match l.status with
  | some st => poke (leaveLaunch (if l.effected then s else countHalted s id) id st (s.newel.endReports.contains id))
  | none =>
    let s := modLaunch s id (fun l => { l with status := some 3, cause := 0, info := 0, endTick := now s 0 })
    poke (leaveLaunch (countHalted s id) id 3 false)

/-- The newel's own copies for a device, LOADs and stagings, stop. -/
def stopNewelCopies (s : State) (vd : Nat) : State :=
  let mine := newelCopy vd
  let ids := s.engines.flatMap (fun (e : Nat × CopyEng) => (engRunning e.2).filter mine)
  let s := { s with engines := s.engines.map (fun (e : Nat × CopyEng) => (e.1, { e.2 with buffer := e.2.buffer.filter (fun k => !mine k) })) }
  ids.foldl (fun s k => match engineWith s k.id with | some (eng, _) => leavePath s eng k.id | none => s) s

/-- Every region of a device is released without refund (R43, R48). -/
def dropRegions (s : State) (vd : Nat) : State :=
  let mine := s.rents.filter (fun e => e.2.owner / 65536 == vd && e.2.state != 0)
  let s := (mine.filter (fun e => e.2.sub)).foldl (fun s e => endSublet s e.1) s
  (mine.filter (fun e => !e.2.sub && (e.2.state == 1 || e.2.state == 2))).foldl (fun s e => reclaim s e.1) s

/-- The end of a DESTROY, when every completion is written (R43): queues, kicks, regions and allowance go; code entries are freed, and
the device's RECLAIMED space is scrubbed even if it was FROZEN (R84; log entry 93). -/
def finishDestroy (s : State) (vd : Nat) : State :=
    let s := dropRegions (stopNewelCopies s vd) vd
    let s := (s.kicks.filter (fun k => k / 64 == vd)).foldl (fun s k => clearKick s vd (k % 64)) s
    let s := setVdState s vd 0
    let s := s.rents.foldl (fun s e => if e.2.owner / 65536 = vd && e.2.state == 3 then schedScrub s e.1 else s) s
    poke (modVd s vd (fun v => { freshVd v 0 with
      allowance := 0, queues := v.queues.map (fun (e : Nat × Queue) => (e.1, { e.2 with enable := false, drain := false }))
      codes := v.codes.map (fun (e : Nat × Code) => (e.1, { e.2 with used := false, gen := if e.2.used then (e.2.gen + 1) % 65536 else e.2.gen })) }))

/-- DESTROY (R43): withheld completions go first, then every launch ends CANCELLED with its completion. While a full ring holds one of
them back the command is in progress (R32; log entry 93). -/
def execDestroyVd (s : State) : Out :=
  vdCommand 2 (fun v => v.state != 0) (fun s vd _ =>
    let s := flushCompletions (modVd s vd (fun v => { v with busy := true })) vd
    let ids := (s.launches.filter (fun e => e.2.vd == vd)).map Prod.fst
    let s := flushCompletions (ids.foldl cancelLaunch s) vd
    if (vdOf s vd).withheld.isEmpty then finishDestroy s vd else s) s

/-! ## Global regions (R44, Table 2.14) -/

/-- A region made by GRENT carries item 1. -/
def isGlobal (s : State) (vd ref : Nat) : Bool :=
  (rentOf s ref).item == 1 && 2 ≤ (rentOf s ref).tier && !(rentOf s ref).sub && (rentOf s ref).owner / 65536 == vd

/-- GRENT. No free run of addresses is result 3 and a charge past 64 bits 6 (log entry 94). -/
def execGrent (s : State) : Out :=
  vdCommand 0xA live (fun s vd v =>
    let a := v.arg0.toNat
    let tier := bitsOf a 0 4
    let die := bitsOf a 4 3
    let n := a / 256
    let span := v.arg1.toNat
    if tier < 2 || 4 < tier || bitsOf a 7 1 != 0 || n = 0 || 2 ^ 24 < n || span = 0 || 2 ^ 48 < span then finishVd s vd 5
    else match freeGlobal v n with
      | none => finishVd s vd 3
      | some addr =>
        let t := now s die
        let r : Rent := { (default : Rent) with
          owner := vd * 65536, tier := tier, share := 2, size := n, paid := t + span, core := die * 128, item := 1, addr := addr }
        match claimRegion s vd die n (die * 128) r with
        | none => finishVd s vd 3
        | some (ref, s') =>
          match charge s' vd (rate r * span) with
          | none => finishVd s vd 6
          | some s' =>
            finishVd (modVd s' vd (fun v => { v with
              maps := v.maps ++ [⟨addr, n, ref, false, 0, false⟩], res0 := BitVec.ofNat 64 (handleOf s' ref), res1 := BitVec.ofNat 64 addr })) vd 0 |> poke) s

/-- A device range lies wholly in its PAID regions (Table 2.14). -/
def paidRange (s : State) (vd a n : Nat) : Bool :=
  (List.range ((a + n + 65535) / 65536 - a / 65536)).all (fun i =>
    match globalMap (vdOf s vd) ((a / 65536 + i) * 65536) with
    | some m => !m.host && (rentOf s m.ref).state == 1 && (rentOf s m.ref).owner / 65536 == vd
    | none => false)

/-- LOAD: a newel copy through copy engine 0, from host memory. -/
def execLoadVd (s : State) : Out :=
  vdCommand 0xB live (fun s vd v =>
    let h := v.arg0
    let a := v.arg1
    let n := v.arg2
    if h.toNat % 32 != 0 || a.toNat % 32 != 0 || n.toNat % 32 != 0 || !paidRange s vd a.toNat n.toNat then finishVd s vd 5
    else
      let (id, s) := fresh s
      let k : Cmd := { (default : Cmd) with
        id := id, ins := .loadVd, sample := [vd], vals := [a, h, n, 0], live := n.toNat / 32, due := now s 0, deliver := now s 0
        outbound := true }
      modEng (modVd s vd (fun v => { v with busy := true })) 0 (fun e => { e with buffer := buffered e.buffer k })) s

/-- LOAD_COMPLETE: the result stands; busy clears. -/
def execLoadComplete (vd : Nat) (s : State) : Out :=
  if (vdOf s vd).cmd != 0xB then .next s else .next (modVd s vd (fun v => { v with busy := false }))

/-- GRELEASE: RELEASE with refund; a region with a live sublet is result 5 (log entry 94). -/
def execGrelease (s : State) : Out :=
  vdCommand 0xE live (fun s vd v =>
    let h := v.arg0.toNat
    match (if handleReserved h then none else entryOfHandle s h) with
    | none => finishVd s vd 5
    | some ref =>
      if !isGlobal s vd ref then finishVd s vd 5
      else
        let (st, s') := rentRelease s ⟨vd, vd * 65536, 0⟩ ref (now s (refDie ref))
        if st = 0 then finishVd s' vd 0 else finishVd s vd 5) s

/-- GRENEW: paid until the later of its tick and now + span; GRACE is revived. An argument RENEW refuses is result 5, an overflow 6
(log entry 94). -/
def execGrenew (s : State) : Out :=
  vdCommand 0xF live (fun s vd v =>
    let h := v.arg0.toNat
    match (if handleReserved h then none else entryOfHandle s h) with
    | none => finishVd s vd 5
    | some ref =>
      let r := rentOf s ref
      let until_ := min (now s (refDie ref) + v.arg1.toNat) (never - 1)
      if r.owner / 65536 != vd || r.sub then finishVd s vd 5
      else if r.state = 1 && until_ ≤ r.paid then finishVd s vd 0
      else
        let (st, s') := rentRenew s ⟨vd, r.owner, 0⟩ ref until_ (now s (refDie ref))
        finishVd (if st = 0 then s' else s) vd (if st = 0 then 0 else if st = rARG then 5 else 6)) s

/-! ## Code regions (R45) -/

/-- CODEREG. -/
def execCodereg (s : State) : Out :=
  vdCommand 0xC live (fun s vd v =>
    let a := v.arg0.toNat
    let n := v.arg1.toNat
    let inside := match globalMap v a with
      | some m => !m.host && isGlobal s vd m.ref && (rentOf s m.ref).tier ≤ 3 && a + n ≤ m.first + m.pages * 65536
      | none => false
    if a % 65536 != 0 || n % 4 != 0 || n < 4 || 2 ^ 32 - 4 < n || !inside then finishVd s vd 5
    else match (List.range 256).find? (fun i => match tget v.codes i with | some e => !e.used | none => true) with
      | none => finishVd s vd 7
      | some i =>
        let gen := match tget v.codes i with | some e => e.gen | none => 0
        finishVd (modVd s vd (fun v => { v with
          codes := tset v.codes i ⟨gen, a, n, true⟩, res0 := BitVec.ofNat 64 (gen * 2 ^ 48 + i) })) vd 0) s

/-- CODEFREE: result 1 while an entered launch names the handle; a handle that names no code region is result 5 (log entry 125). -/
def execCodefree (s : State) : Out :=
  vdCommand 0xD live (fun s vd v =>
    let h := v.arg0.toNat
    match codeOf v h with
    | none => finishVd s vd 5
    | some e =>
      if s.launches.any (fun l => l.2.vd == vd && l.2.body.codeHandle == h) then finishVd s vd 1
      else finishVd (modVd s vd (fun v => { v with
        codes := tset v.codes (h % 256) { e with used := false, gen := (e.gen + 1) % 65536 } })) vd 0) s

/-! ## Parameters (Table 2.8) -/

/-- ALLOW_ADD (R38). -/
def execAllowAdd (s : State) : Out :=
  let vd := portVd s
  if 64 ≤ vd then .next s else .next (poke (refund s vd s.port.val.toNat))

/-- VD_PARAM_WRITE (R38, R39): a value out of range is ignored. -/
def execVdParamWrite (s : State) : Out :=
  let vd := portVd s
  let off := s.port.off % 0x1000
  let x := s.port.val.toNat
  if s.port.off < 0x280000 || 64 ≤ vd then .next s
  else .next (modVd s vd (fun v =>
    if off = 0x018 then (if 16 ≤ x && x ≤ 30 then { v with sliceLog2 := x } else v)
    else if off = 0x020 then (if x ≤ 3 then { v with priorityMax := x } else v)
    else if off = 0x028 then (if 1 ≤ x && x ≤ 256 then { v with maxInflight := x } else v)
    else if off = 0x030 then (if 1 ≤ x && x ≤ 1024 then { v with coreQuota := x } else v)
    else if off = 0x200 then { v with arg0 := s.port.val }
    else if off = 0x208 then { v with arg1 := s.port.val }
    else if off = 0x210 then { v with arg2 := s.port.val }
    else if 0x100 ≤ off && off < 0x200 && off % 8 = 0 then { v with floors := tset v.floors ((off - 0x100) / 8) x }
    else v))

/-! ## FREEZE and fdb (R46, R346) -/

/-- Every context of a device is stopped and saved. -/
def freezeVd (s : State) (vd : Nat) : State :=
  let s := modVd s vd (fun v => { v with busy := true, cmd := 5 })
  let ts := (s.teams.filter (fun e => (e.2.state == 1 || e.2.state == 2) && (launchOf s e.2.launch).vd == vd)).map Prod.fst
  let s := ts.foldl (fun s t => preemptTeam s t 3) s
  if freezeDone s vd then sched s 0 (now s 0) 18 0 0 (.ins (.freezeComplete vd)) else s

def execFreeze (s : State) : Out := vdCommand 5 live (fun s vd _ => freezeVd s vd) s

/-- FREEZE_COMPLETE (R46): T_S is the tick at which the last save completes, die 0's (log entry 96). -/
def execFreezeComplete (vd : Nat) (s : State) : Out :=
  if !beingFrozen s vd || !freezeDone s vd || takingOver s then .next s
  else .next (finishVd (modVd (setVdState s vd 3) vd (fun v => { v with freezeTick := now s 0, sliceAt := none })) vd 0)

/-- fdb issues FREEZE, where no command is in progress. -/
def fdbFreeze (s : State) (vd : Nat) : State := if live (vdOf s vd) && !(vdOf s vd).busy then freezeVd s vd else s

/-- The executing context stops for fdb where it stands, whatever holds interrupts back, and fdb freezes its device as soon as no
command of the device is in progress (R252, R346). -/
def fdbStop (s : State) (c : Ctx) : State := fdbFreeze { s with cx := some { c with wait := .debug } } c.vd

/-- BKPT (R252, R253, Table 12.9): at handler level to the monitor; fdb's stop while attached, after the instruction; a no-op
without a handler; else its handler. -/
def execBkpt (s : State) : Out :=
  onCore [0] (fun s c =>
    if c.handler then .ok (toMonitor s c ⟨cILLEGAL, c.pc, 0, false⟩)
    else if (launchOf s c.launch).attached then .ok (fdbStop s { c with pc := c.pc + 4 })
    else if c.tvec = 0 then .ok (goOn s c 4 1)
    else .ok (enterHandler s c 0 0 0x800 (c.pc + 4))) s

/-- BREAKPOINT_MATCH (R346): the context stops before the instruction; it executes it when it goes on. -/
def execBreakpointMatch (core : Nat) (s : State) : Out :=
  match s.cx with
  | none => .next s
  | some c => if c.core != core then .next s else .next (fdbStop s { c with bpPast := true })

end Sys2Proof.Machine
end

