-- ==== Sys2Proof/Machine/Migrate.lean ====
section
/-!
DEFINITION. Live migration (R46 to R48, Tables 2.10, 2.11): rounds, the final transfer, its receipt, ACTIVATE and THAW with
their rebase.
-/
set_option linter.unusedVariables false
namespace Sys2Proof.Machine
open Sys2Proof

/-! ## Sending (R47) -/

/-- Pages of a device's global window that its regions back. -/
def devicePages (v : VDev) : List Nat :=
  v.maps.flatMap (fun m => if m.host then [] else (List.range m.pages).map (fun i => m.first / 65536 + i))

/-- Pages go to the peer node as they now are; the transfer is counted (R18). -/
def sendPages (s : State) (vd : Nat) (pages : List Nat) : State :=
  let v := vdOf s vd
  let out := pages.filterMap (fun p => (globalMap v (p * 65536)).map (fun m =>
    (v.node.toNat, p * 65536, if m.host then s.hostMem.readRun (m.hostAddr + (p * 65536 - m.first)) 65536
      else s.mem.readRun (locOf (rentOf s m.ref).space (p * 65536 - m.first)) 65536,
      if m.host then [] else poisonIn s (refPlace s m.ref (p * 65536 - m.first) 0 0) 65536)))
  let (d, s) := openTicks s
  let s := { s with links := { s.links with sent := s.links.sent ++ out } }
  sched (modVd s vd (fun v => { v with busy := true })) 0 (now s 0 + 1 + d) 18 0 0 (.ins (.transferCountedComplete vd))

/-- EXPORT: tracking is on, dirty bits are cleared, round 1 copies every page. -/
def execExportVd (s : State) : Out :=
  vdCommand 3 live (fun s vd v => sendPages (modVd s vd (fun v => { v with tracking := true, dirty := [] })) vd (devicePages v)) s

/-- ROUND: the pages dirty since the last round, whose bits are cleared. -/
def execRoundVd (s : State) : Out :=
  vdCommand 4 (fun v => live v && v.tracking) (fun s vd v =>
    sendPages (modVd s vd (fun v => { v with dirtyCount := v.dirty.length, dirty := [] })) vd v.dirty) s

/-- TRANSFER_COUNTED_COMPLETE: the transport may have failed (Table 2.9). -/
def execTransferCountedComplete (vd : Nat) (s : State) : Out :=
  let v := vdOf s vd
  if !v.busy || (v.cmd != 3 && v.cmd != 4 && v.cmd != 6) then .next s
  else
    let (o, s) := if s.links.ethUp.any id then pick s 2 else (1, s)
    .next (finishVd s vd (if o = 0 then 0 else 4))

/-- A region as the transfer carries it. -/
def carryRent (s : State) (e : Nat × Rent) : CarriedRent :=
  let r := e.2
  let inside := fun (a : Nat) => a / 2 ^ 41 == r.space
  let bytes := if r.sub then [] else if r.tier = 0 then
      ((coreOf s r.core).alcove.filter (fun b => b.1 / 32768 == r.item - 4)).map (fun b => (b.1 % 32768, b.2))
    else (s.mem.filter (fun c => inside c.1)).map (fun c => (c.1 % 2 ^ 41, c.2))
  let mine := fun (sp : Nat) => sp == r.space && !r.sub
  ⟨e.1, carriedBody s e.1, bytes, (s.words.filter (fun w => mine w.1)).map (fun w => w.2),
    slotMarks s r ++ (s.memPoison.filter (fun w => mine w.1)).map Prod.snd, handleOf s e.1 :: (s.moved.filter (fun m => m.2 == e.1)).map Prod.fst,
    (s.targets.filter (fun w => mine w.1)).map Prod.snd, (s.ended.filter (fun x => mine x.1)).map (fun x => (x.2.1, x.2.2.1, x.2.2.2.2.1, x.2.2.2.2.2))⟩

/-- A newel copy as a transfer carries it: not started (log entry 95). -/
def unstarted (k : Cmd) : Cmd := { k with start := none, landed := 0, counted := 0, prog := 0, acc := [], bytes := [] }

/-- Staging copies of a device that are not over. -/
def stagingCopies (s : State) (vd : Nat) : List Cmd :=
  s.engines.flatMap (fun (e : Nat × CopyEng) => ((e.2.buffer ++ engRunning e.2).filter (fun k =>
    newelCopy vd k && (match k.ins with | .stageStart _ => true | _ => false))).map unstarted)

/-- The final transfer of a FROZEN device (Table 2.11). -/
def transferOf (s : State) (vd : Nat) : Transfer :=
  let us := (allUnits s).filter (fun u => u.vd == vd)
  let ls := s.launches.filter (fun e => e.2.vd == vd)
  let mine := s.rents.filter (fun e => e.2.owner / 65536 == vd && (e.2.state == 1 || e.2.state == 2) && !e.2.sub)
  { body := vdOf s vd
    rents := (mine ++ (mine.flatMap (fun e => sublets s s.rents.length e.1)).map (fun r => (r, rentOf s r))).map (carryRent s)
    units := us, launches := ls, teams := s.teams.filter (fun e => ls.any (fun l => l.1 == e.2.launch))
    copies := stagingCopies s vd, entries := us.map (fun u => (u.uid, carriedEntries s u)), grads := us.map (fun u => (u.uid, carriedGrads s u))
    kicks := (s.kicks.filter (fun k => k / 64 == vd)).map (· % 64)
    window := (s.window.filter (fun c => c.1 / 0x100000 == vd)).map (fun c => (c.1 % 0x100000, c.2))
    freezeTick := (vdOf s vd).freezeTick }

/-- FINAL: dirty pages, then the state record. -/
def execFinalVd (s : State) : Out :=
  vdCommand 6 (fun v => v.state == 3 && v.tracking) (fun s vd v =>
    let s := { s with outgoing := s.outgoing ++ [(v.node.toNat, transferOf s vd)] }
    sendPages (modVd s vd (fun v => { v with dirty := [] })) vd v.dirty) s

/-- FINAL_TRANSFER_RECEIVE (R47): accepted only into a device in IMPORTING state. -/
def execFinalTransferReceive (vd : Nat) (s : State) : Out :=
  if (vdOf s vd).state = 4 && (tget s.incoming vd).isSome then .next (modVd s vd (fun v => { v with received := true }))
  else .next { s with incoming := tdel s.incoming vd }

/-! ## The rebase (R48) -/

/-- A tick value rebased: the tick that never comes stays, others are held below it. -/
def shiftTick (d : Int) (t : Nat) : Nat := if t = never then never else min (never - 1) ((t : Int) + d).toNat

/-- A rent entry's paid-until tick rebased; what lies before tick 0 is kept beside it, so that a grace deadline stands where it should. -/
def shiftRent (d : Int) (r : Rent) : Rent :=
  if r.paid = never then r
  else
    let x := paidAt r + d
    { r with paid := min (never - 1) x.toNat, lack := (-x).toNat }

/-- A command's due tick. -/
def shiftCmd (d : Int) (k : Cmd) : Cmd := { k with due := shiftTick d k.due }

/-- Tick values of a saved context: stamps of its commands, its stop, its segment's base, its budget's start, its grant's end. -/
def shiftUnit (d : Int) (c : Ctx) : Ctx :=
  { c with
    budgetStart := shiftTick d c.budgetStart, savedAt := shiftTick d c.savedAt, trapTick := shiftTick d c.trapTick
    segBase := c.segBase.map (· + d), heldCmds := c.heldCmds.map (shiftCmd d), trapCmds := c.trapCmds.map (shiftCmd d)
    lastDue := c.lastDue.map (fun l => (l.1, l.2.1, l.2.2 + d)), savedLast := c.savedLast.map (fun l => (l.1, l.2.1, l.2.2 + d))
    grantUntil := shiftTick d c.grantUntil
    saved := c.saved.map (fun (e : Nat × EngState) => (e.1, { e.2 with tick := shiftTick d e.2.tick, cmd := shiftCmd d e.2.cmd })) }

/-- Ticks by which a rebased tick value would lie before tick 0. -/
def lack (d : Int) (t : Nat) : Nat := (-((t : Int) + d)).toNat

/-- A context of a device that leaves FROZEN at tick T_D, its team having stopped at a tick (R48): what it had left it still has.
Its held commands, and where FREEZE stopped it its segment, stand as if it stopped at T_D, copies in the buffers as they stood at T_S
where FREEZE stopped it. Of a launch that fdb debugs the ticks of the save are no ticks of its budget either (R346; log entry 105). What
a value before tick 0 would lose is taken from its budget and given to the commands its handler holds. -/
def rebaseUnit (d : Int) (tD stop : Nat) (attached : Bool) (c : Ctx) : Ctx :=
  let x := shiftUnit d c
  if c.wait != .saved then x
  else
    let late : Int := (tD : Int) - c.savedAt
    let run : Int := if c.byFreeze && attached then late else d
    let seg : Int := if c.byFreeze then late else d
    let held := fun (m : Cmd) => if engineOf m.ins == 4 && c.byFreeze then shiftCmd d m else { m with due := tD + m.due - c.savedAt }
    { x with
      savedAt := tD, heldCmds := c.heldCmds.map held
      saved := x.saved.map (fun (e : Nat × EngState) => if ((tget c.saved e.1).map EngState.tick) == some c.savedAt then (e.1, { e.2 with tick := tD }) else e)
      budgetStart := shiftTick run c.budgetStart
      budget := c.budget - (lack run c.budgetStart - (if c.byFreeze && attached then 0 else lack d stop))
      segBase := c.segBase.map (· + seg)
      lastDue := c.lastDue.map (fun l => (l.1, l.2.1, l.2.2 + (if l.1 = 4 then d else seg)))
      trapCmds := x.trapCmds.map (fun m => { m with due := m.due + lack d c.trapTick }) }

/-- FREEZE stopped a team of a launch that fdb debugs. -/
def frozenRun (s : State) (m : Team) : Bool :=
  (launchOf s m.launch).attached && m.units.any (fun u => match unitOf s u with | some c => c.byFreeze | none => false)

/-- When a team stopped. -/
def stopOf (ts : Tab Team) (t : Nat) : Nat := ((tget ts t).getD default).stopTick

/-- THAW: everything of the device moves by T_thaw − T_S; what a debugger held is ended (R346). One delta, of die 0's ticks, serves
every die (log entry 96). -/
def thawVd (s : State) (vd : Nat) (v : VDev) : State :=
  let d : Int := (now s 0 : Int) - v.freezeTick
  let old := s.teams
  let s := { s with
    rents := s.rents.map (fun (e : Nat × Rent) => if e.2.owner / 65536 = vd && e.2.state != 0 then (e.1, shiftRent d e.2) else e)
    teams := s.teams.map (fun (e : Nat × Team) => if (launchOf s e.2.launch).vd = vd then (e.1, { e.2 with
      stopTick := if frozenRun s e.2 then now s 0 else shiftTick d e.2.stopTick }) else e)
    engines := s.engines.map (fun (e : Nat × CopyEng) => (e.1, { e.2 with buffer := e.2.buffer.map (fun k =>
      if newelCopy vd k || (unitOf s k.uid).any (fun c => c.vd == vd) then shiftCmd d k else k) })) }
  let s := (allUnits s).foldl (fun s u => if u.vd = vd then modUnit s u.uid (rebaseUnit d (now s 0) (stopOf old u.team) (launchOf s u.launch).attached) else s) s
  let s := s.rents.foldl (fun s e => if e.2.owner / 65536 = vd && (e.2.state == 1 || e.2.state == 2) then schedRent s e.1
    else if e.2.owner / 65536 = vd && e.2.state == 3 then schedScrub s e.1 else s) s
  let s := s.launches.foldl (fun s e => if e.2.vd = vd && e.2.attached && e.2.status.isSome then
    sched (modLaunch s e.1 (fun l => { l with attached := false })) 0 (now s 0) 17 0 0 (.ins (.launchEnd e.1)) else s) s
  let s := setVdState s vd 1
  let s := modVd s vd (fun v => { v with tracking := false, delta := d })
  poke ((List.range 64).foldl (fun s q => if s.kicks.contains (vd * 64 + q) then schedNewel s 0 (.kickScan vd q) else s) (finishVd s vd 0))

def execThaw (s : State) : Out := vdCommand 9 (fun v => v.state == 3) thawVd s

/-! ## ACTIVATE (R48) -/

/-- Numbers of the source by numbers of this module. -/
structure Renaming where
  vd : Nat
  base : Nat
  refs : List (Nat × Nat)
  spaces : List (Nat × Nat)
deriving Inhabited

def Renaming.id (r : Renaming) (n : Nat) : Nat := if n = 0 then 0 else r.base + n
def Renaming.ref (r : Renaming) (n : Nat) : Nat := match r.refs.find? (fun m => m.1 == n) with | some m => m.2 | none => n
def Renaming.space (r : Renaming) (n : Nat) : Nat := match r.spaces.find? (fun m => m.1 == n) with | some m => m.2 | none => 0

/-- A region of synchronisation space stands at its own address again, where no other region does (R163, R280). -/
def importSync (s : State) (ref : Nat) : Option State :=
  let r := rentOf s ref
  match windowOf (BitVec.ofNat 64 r.addr) with
  | .sync die off =>
    if r.sub || r.addr = 0 then some s
    else if (List.range r.size).any (fun i => (tget (dieOf s die).syncPages (off / 65536 + i)).isSome) then none
    else some (mapSync s die (off / 65536) r.size ref)
  | _ => some s

/-- A carried region takes space and an entry here, on the same die and, for tiers 0 and 1, core. -/
def importRent (s : State) (r : Renaming) (d : Int) (k : CarriedRent) : Option (Renaming × State) := do
  let die := refDie k.ref
  let b := k.body
  let (new, item, s) ← (if b.sub then (freeEntry s die (refTable k.ref)).map (fun x => (x.1, b.item, x.2))
    else if b.tier = 0 then (freeSlots (freeTest s b.core) b.core).head?.map (fun p => (slotRef b.core p, 4 + p, freeTest s b.core))
    else do
      let s ← claim s r.vd b.tier die b.size b.core
      let (e, s) ← freeEntry s die (tableOf b.tier)
      some (e, b.item, s) : Option (Nat × Nat × State))
  let sp := s.nextSpace
  let up := r.ref (refOf die (refTable k.ref) b.parent)
  let (base, s) := if b.sub then (b.base + (rentOf s up).base, s) else placeRegion s die { b with item := item }
  let s := modRent s new (fun e => { b with
    gen := e.gen, owner := r.vd * 65536 + b.owner % 65536, team := r.id b.team, item := item, base := base
    parent := if b.sub then refIndex up else b.parent, space := if b.sub then (rentOf s up).space else sp, paid := (shiftRent d b).paid, lack := (shiftRent d b).lack })
  let s := { s with nextSpace := sp + 1, moved := s.moved ++ k.handles.map (fun h => (h, new)) }
  let s := if b.tier = 0 && !b.sub then modCore s b.core (fun x => fillSlot x (item - 4) k.bytes k.poison)
    else { s with
      mem := s.mem.join (k.bytes.map (fun c => (locOf sp c.1, c.2))), words := s.words ++ k.words.map (fun w => (sp, w))
      memPoison := s.memPoison ++ k.poison.map (fun w => (sp, w)), targets := s.targets ++ k.targets.map (fun w => (sp, w))
      ended := s.ended ++ k.former.map (fun x => (sp, x.1, x.2.1, r.vd, r.id x.2.2.1, r.vd * 65536 + x.2.2.2 % 65536)) }
  let s ← importSync s new
  some ({ r with refs := r.refs ++ [(k.ref, new)], spaces := if b.sub then r.spaces else r.spaces ++ [(b.space, sp)] }, schedRent s new)

def Renaming.cmd (r : Renaming) (k : Cmd) : Cmd := { k with id := r.id k.id, uid := r.id k.uid }
def Renaming.fbyte (r : Renaming) (f : FByte) : FByte := { f with space := r.space f.space }

/-- A context as it stands here: saved, its slots at their new places, its bank to be rented at its restore. -/
def Renaming.unit (r : Renaming) (s : State) (c : Ctx) : Ctx :=
  { c with
    uid := r.id c.uid, vd := r.vd, launch := r.id c.launch, team := r.id c.team
    slots := c.slots.map (fun e => (e.1, (rentOf s (r.ref (slotRef c.core e.2))).item - 4))
    spad := c.spad.map (fun p => { p with ref := r.ref p.ref }), priv := r.ref c.priv, saveRef := if c.saveRef = 0 then 0 else r.ref c.saveRef
    grantRefs := c.grantRefs.map (fun x => if x = 0 then 0 else r.ref x)
    loads := c.loads.map (fun l => (r.id l.1, l.2)), loadLinks := c.loadLinks.map (fun l => (r.id l.1, l.2))
    heldCmds := c.heldCmds.map r.cmd, trapCmds := c.trapCmds.map r.cmd, saved := c.saved.map (fun (e : Nat × EngState) => (e.1, { e.2 with cmd := r.cmd e.2.cmd }))
    lastDue := c.lastDue.map (fun l => (l.1, r.id l.2.1, l.2.2)), savedLast := c.savedLast.map (fun l => (l.1, r.id l.2.1, l.2.2))
    chans := c.chans.map (fun (h : Nat × Chan) => (h.1, { h.2 with id := r.id h.2.id }))
    region := c.region.map (fun g => { g with firstCmd := r.id g.firstCmd })
    flight := c.flight.map r.fbyte, inLand := c.inLand.map r.fbyte, view := tickOf s c, viewPulse := s.clock.pulses, objects := [], acq := 0
    landedCode := s.landings.length, imported := true }

def Renaming.teamOf (r : Renaming) (d : Int) (t : Team) : Team :=
  { t with
    launch := r.id t.launch, units := t.units.map r.id, stopTick := shiftTick d t.stopTick, waitStart := none, aged := none
    gsync := t.gsync.map r.id, dispatch := t.dispatch.map r.id, plan := t.plan.map (fun p => (r.id p.1, p.2)), claims := t.claims.map r.ref }

/-- The largest number a transfer uses. -/
def Transfer.top (t : Transfer) : Nat :=
  let cmds := t.copies.map Cmd.id ++ t.units.flatMap (fun c => (c.heldCmds ++ c.trapCmds ++ c.saved.map (fun e => e.2.cmd)).map Cmd.id
    ++ (c.lastDue ++ c.savedLast).map (fun l => l.2.1)
    ++ c.chans.map (fun h => h.2.id) ++ c.region.toList.map Region.firstCmd ++ c.loads.map Prod.fst)
  (t.units.map Ctx.uid ++ t.teams.map Prod.fst ++ t.launches.map Prod.fst ++ cmds).foldl max 0

/-- A staging copy waits on an engine of the die that holds its destination here. -/
def importCopy (s : State) (vd : Nat) (r : Renaming) (d : Int) (k : Cmd) : State :=
  let k := shiftCmd d { k with
    id := r.id k.id, sample := [vd], ins := match k.ins with | .stageStart l => .stageStart (r.id l) | i => i }
  modEng s (dieOfGlobal s vd (k.vals.getD 0 0).toNat * 4) (fun e => { e with buffer := buffered e.buffer k })

/-- A launch whose staging goes on here counts it on a page here (R56): n bytes are to come. -/
def importStaging (s : State) (id n : Nat) : Option State := do
  let page : Rent := { (default : Rent) with owner := 64 * 65536, tier := 2, size := 1, paid := never }
  let (ref, s) ← claimRegion s 64 0 1 0 page
  let s := modLaunch s id (fun l => { l with stageRef := ref })
  some (putWord s (rentOf s ref).space 0 ⟨min 0xFFFFFFFF n, 0, 0, false, false⟩ (now s 0))

/-- The transfer becomes the device's state; none when a region cannot be had. T_D is die 0's tick (log entry 96). -/
def activate (s : State) (vd : Nat) (v : VDev) (t : Transfer) : Option State := do
  let d : Int := (now s 0 : Int) - t.freezeTick
  let base := s.nextId
  let s := { s with nextId := base + t.top + 1 }
  let (r, s) ← t.rents.foldlM (fun (x : Renaming × State) k => importRent x.2 x.1 d k) (({ vd := vd, base := base, refs := [], spaces := [] } : Renaming), s)
  let units := t.units.map (fun c =>
    let was := fun (p : Nat) => match c.slots.find? (fun e => e.2 == p) with | some e => (tget (r.unit s c).slots e.1).getD 0 | none => 0
    let es := ((t.entries.find? (fun e => e.1 == c.uid)).map Prod.snd).getD []
    { rebaseUnit d (now s 0) (stopOf t.teams c.team) false (r.unit s c) with
      entriesAt := some (es.map (fun (e : Nat × ResEntry) => (e.1, { e.2 with slot := was e.2.slot })))
      gradsAt := ((t.grads.find? (fun e => e.1 == c.uid)).map Prod.snd).getD [] })
  let s := { s with
    units := units.foldl (fun m c => tset m c.uid c) s.units
    teams := t.teams.foldl (fun m e => tset m (r.id e.1) (r.teamOf d e.2)) s.teams
    launches := t.launches.foldl (fun m e => tset m (r.id e.1) { e.2 with vd := vd }) s.launches
    window := Mem.join (s.window.filter (fun c => c.1 / 0x100000 != vd)) (t.window.map (fun c => (vd * 0x100000 + c.1 % 0x100000, c.2)))
    kicks := s.kicks.filter (fun k => k / 64 != vd) ++ t.kicks.map (fun k => vd * 64 + k), incoming := tdel s.incoming vd }
  let s := units.foldl (fun s c =>
    let s := c.loads.foldl (fun s ld =>
      let (n, s) := openTicks s
      schedC s c (tickOf s c + 1 + n) 16 (.ins (.countedLoadReturn c.uid ld.1))) s
    meetLandings s c) s
  let s := setVdState s vd 1
  let s := modVd s vd (fun _ => { t.body with
    state := 1, busy := false, cmd := v.cmd, node := v.node, result := 0, allowance := v.allowance, floors := v.floors
    sliceLog2 := v.sliceLog2, priorityMax := v.priorityMax, maxInflight := v.maxInflight, coreQuota := v.coreQuota
    arg0 := v.arg0, arg1 := v.arg1, arg2 := v.arg2, res0 := v.res0, res1 := v.res1, tracking := false, delta := d, received := false
    maps := t.body.maps.map (fun m => if m.host then m else { m with ref := r.ref m.ref }), sliceAt := none })
  let s := t.copies.foldl (fun s k => importCopy s vd r d k) s
  let s ← t.launches.foldlM (fun s e => if e.2.stageRef = 0 then some s else importStaging s (r.id e.1)
    (((t.copies.filter (fun k => k.ins == .stageStart e.1)).map (fun k => (k.vals.getD 2 0).toNat)).foldl (· + ·) 0)) s
  some (poke (t.kicks.foldl (fun s q => schedNewel s 0 (.kickScan vd q)) s))

/-- ACTIVATE (R48): a region that cannot be obtained sets result 3 and leaves the device IMPORTING. -/
def execActivate (s : State) : Out :=
  vdCommand 8 (fun v => v.state == 4 && v.received) (fun s vd v =>
    match tget s.incoming vd with
    | none => finishVd s vd 1
    | some t => match activate s vd v t with
      | some s => s
      | none => finishVd s vd 3) s

end Sys2Proof.Machine
end

