-- ==== Sys2Proof/Machine/Reliability.lean ====
section
/-!
DEFINITION. Storage errors and the patrol (R192, R193), and known-answer tests (R188, R190).
-/
set_option linter.unusedVariables false
namespace Sys2Proof.Machine
open Sys2Proof

/-! ## Storage errors (R192, R193) -/

/-- STORAGE_ERROR (R192): an error strikes. What a read before the recovery would meet is so at once: unmarked flips stand in the word,
and where two words of the group are flagged, they are poisoned; the records and the rest follow with a read or the patrol, which comes
within 2^24 ticks. A flagged line of the instruction cache is a miss. -/
def execStorageError (word pattern : Nat) (s : State) : Out :=
  let w := word / 8 * 8
  let e := pattern % 2 ^ 69
  if e % 2 ^ 68 = 0 then .next s
  else if 2 ^ 83 ≤ w && w < 2 ^ 84 && !isVertical e && isFlagged e then .next (logStorage (missLine s w) w 4)
  else
    let s := addError s w e
    let g := parityGroup w
    let s := if 1 < (groupFlagged s g).length + (if verticalFlagged s g then 1 else 0) then
        (groupFlagged s g).foldl (fun s u => poisonWord s u.1) s else s
    let (d, s) := pick s (2 ^ 24)
    let die := (coreOfWord s w).2
    .next (sched s die (now s die + 1 + d) 18 0 0 (.ins (.patrolScrub g)))

/-- PATROL_SCRUB (R193): a group is patrolled. -/
def execPatrolScrub (group : Nat) (s : State) : Out := .next (recoverGroup s true group)

/-! ## Known-answer tests (R188) -/

/-- A core may be tested: no team holds it and it is in service (R190). -/
def idleCore (s : State) (core : Nat) : Bool := !heldCore s core && (coreOf s core).capMask.getLsbD 0

/-- The newel's round over classes and cores goes on: every class of every core within 2^30 ticks; where it stands is kept
with core 0. -/
def nextTest (s : State) (core cls : Nat) : State :=
  if (coreOf s 0).katNext != cls * 1024 + core then s
  else
    let n := (cls * 1024 + core + 1) % 24576
    let s := modCore s 0 (fun k => { k with katNext := n })
    let (d, s) := pick s 40000
    schedNewel s (d + 1) (.knownAnswerTest (n % 1024) (n / 1024))

/-- The tier-0 items a test uses (R188): a context's bank and an alcove slot of the core, which the newel owns and which charge no
device; only free ones are taken (log entry 102). -/
def testItems (s : State) (core : Nat) : List Nat := [bankEntry core 0, slotRef core 0].filter (fun r => (rentOf s r).state == 0)

/-- A test begins on an idle core and ends within 2^16 ticks. -/
def beginTest (s : State) (core cls : Nat) : State :=
  let t := now s (dieOfCore core)
  let (d, s) := pick s (2 ^ 16)
  let s := (testItems s core).foldl (fun s r => makeRegion s r { (default : Rent) with
    owner := 64 * 65536, tier := 0, size := 1, paid := never, core := core, item := refIndex r % 36 }) s
  sched (modCore s core (fun k => { k with kat := some (cls, t + 1 + d) })) (dieOfCore core) (t + 1 + d) 18 0 0 (.ins (.knownAnswerTest core cls))

/-- A class of a core had a transient event within the last 2^20 ticks: it is to be tested once more (R188). -/
def recentEvent (s : State) (core cls : Nat) : Bool :=
  match ((tget (coreOf s core).events cls).getD (none, none)).2 with
  | some a => decide (now s (dieOfCore core) < a + 2 ^ 20)
  | none => false

/-- KNOWN_ANSWER_TEST: a test begins on an idle core, or ends; a class whose unit errs (log entry 16) fails it. One of the round that
finds a team on its core is left out, any other is tried again 2^16 ticks on. One that follows a transient event takes the place of
another test, which is run again later; after another such test it runs at once (log entry 126). -/
def execKnownAnswerTest (core cls : Nat) (s : State) : Out :=
  let x := coreOf s core
  let t := now s (dieOfCore core)
  if x.kat = some (cls, t) then
    let bad := x.checksum.find? (fun y => y.cls == cls)
    let s := modCore (freeTest s core) core (fun k => { k with checksum := match bad with | some y => k.checksum.erase y | none => k.checksum })
    .next (if bad.isSome then miscompute s core cls 3 0 none else s)
  else
    let round : Bool := (coreOf s 0).katNext = cls * 1024 + core
    let s := nextTest s core cls
    let again := fun (s : State) => sched s (dieOfCore core) (t + 2 ^ 16) 18 0 0 (.ins (.knownAnswerTest core cls))
    let late := fun (s : State) (e : Nat) => sched s (dieOfCore core) (max e (t + 1)) 18 0 0 (.ins (.knownAnswerTest core cls))
    if x.kat.isSome && !(recentEvent s core cls && idleCore s core) then .next (again s)
    else match x.kat with
    | some (other, e) => .next (if recentEvent s core other then late s e else beginTest (freeTest s core) core cls)
    | none =>
    if !idleCore s core then .next (if round || !x.capMask.getLsbD 0 then s else again s)
    else .next (beginTest s core cls)

end Sys2Proof.Machine
end

