-- ==== Sys2Proof/Machine/Boot.lean ====
section
/-!
DEFINITION. Domains, power, the management window's writes, boot and attestation (R14 to R17, R22 to R25, Tables 1.3 to 1.9).
-/
set_option linter.unusedVariables false
namespace Sys2Proof.Machine
open Sys2Proof

/-! ## Timed domains (R14, R15) -/

/-- The lowest die of a die's domain under a mask of lowest dies (Table 1.4). -/
def domLow (m : BitVec 8) (die : Nat) : Nat := ((List.range (die + 1)).filter (fun d => d == 0 || m.getLsbD d)).getLastD 0

/-- The dies of a die's domain. -/
def domDies (m : BitVec 8) (die : Nat) : List Nat := (List.range 8).filter (fun d => domLow m d == domLow m die)

/-- A die's domain differs between two masks. -/
def domChanges (old new : BitVec 8) (die : Nat) : Bool := domDies old die != domDies new die

/-- A launch runs on a die. -/
def dieBusy (s : State) (die : Nat) : Bool := (allUnits s).any (fun u => dieOfCore u.core == die && holds (teamOf s u.team))

/-- A tick value of a joined die (R15). -/
def addTick (d t : Nat) : Nat := shiftTick d t

/-- A copy command's ticks: its stamp, its delivery, its start and its last landing. -/
def shiftCopy (d : Nat) (k : Cmd) : Cmd :=
  { k with
    due := addTick d k.due, deliver := addTick d k.deliver, start := k.start.map (addTick d)
    acc := if k.start.isSome then k.acc.take 3 ++ (k.acc.drop 3).map (addTick d) else k.acc }

/-- A core's ticks. -/
def shiftCore (d : Nat) (k : CoreSt) : CoreSt :=
  { k with
    res := k.res.map (fun (e : Nat × ResEntry) => (e.1, { e.2 with ready := addTick d e.2.ready, lastRow := addTick d e.2.lastRow }))
    loads := k.loads.map (fun l => { l with began := addTick d l.began }), pathFree := addTick d k.pathFree
    events := k.events.map (fun (e : Nat × Option Nat × Option Nat) => (e.1, e.2.1.map (addTick d), e.2.2.map (addTick d)))
    kat := k.kat.map (fun x => (x.1, addTick d x.2)) }

/-- Ticks kept on die 0: the newel's. A tick of the past that only a record holds stays. -/
def shiftNewel (d : Nat) (s : State) : State :=
  { s with
    teams := s.teams.map (fun (e : Nat × Team) => (e.1, { e.2 with
      issueTick := addTick d e.2.issueTick, waitStart := e.2.waitStart.map (addTick d), aged := e.2.aged.map (addTick d) }))
    vds := s.vds.map (fun (e : Nat × VDev) => (e.1, { e.2 with
      sliceAt := e.2.sliceAt.map (addTick d), freezeTick := if e.2.state = 3 then addTick d e.2.freezeTick else e.2.freezeTick
      queues := e.2.queues.map (fun (q : Nat × Queue) => (q.1, { q.2 with moved := addTick d q.2.moved })) }))
    newel := { s.newel with resumeAt := addTick d s.newel.resumeAt } }

/-- A context's ticks: what a rebase moves, its view and the perform ticks its later accesses are measured from. -/
def joinUnit (d : Nat) (c : Ctx) : Ctx :=
  { shiftUnit d c with
    flight := c.flight.map (fun f => { f with placed := addTick d f.placed }), busy := c.busy.map (fun b => (b.1, addTick d b.2)), view := addTick d c.view, objects := c.objects.map (fun (o : Nat × Nat) => (o.1, addTick d o.2)), acq := addTick d c.acq }

/-- The die whose ticks a recorded write carries: its landing's core's, or its region's. -/
def histDie (s : State) (h : Hist) : Nat :=
  match h.landing.bind (fun i => s.landings[i]?) with
  | some l => dieOfCore l.core
  | none => ((s.rents.find? (fun e => e.2.space == h.space && !e.2.sub)).map (fun e => refDie e.1)).getD 0

/-- Past landings and writes of a die, and what its contexts have seen of others' (R15, R169). -/
def shiftPast (s : State) (die d : Nat) : State :=
  { s with
    hist := s.hist.map (fun h => if histDie s h = die then { h with tick := addTick d h.tick } else h)
    landings := s.landings.map (fun l => { l with
      tick := if dieOfCore l.core = die then addTick d l.tick else l.tick
      seen := l.seen.map (fun e => if (unitOf s e.1).any (fun c => dieOfCore c.core == die) then (e.1, addTick d e.2) else e) }) }

/-- The perform tick a landing on its way carries (R15, R168). -/
def shiftAct (d : Nat) (a : Act) : Act :=
  match a with
  | .eff (.land uid sc bytes perf op) => .eff (.land uid sc bytes (addTick d perf) op)
  | a => a

/-- Every tick value held on a member die rises by its difference (R15). -/
def shiftDie (s : State) (die d : Nat) : State :=
  if d = 0 then s
  else
    let s := { s with
      clock := { s.clock with ticks := s.clock.ticks.set die (now s die + d) }
      rents := s.rents.map (fun (e : Nat × Rent) => if refDie e.1 = die && e.2.state != 0 then (e.1, shiftRent d e.2) else e)
      agenda := s.agenda.map (fun e => if e.die = die then { e with tick := addTick d e.tick, act := shiftAct d e.act } else e)
      teams := s.teams.map (fun (e : Nat × Team) =>
        if (e.2.units.head?.bind (unitOf s)).any (fun c => dieOfCore c.core == die) then (e.1, { e.2 with stopTick := addTick d e.2.stopTick }) else e)
      engines := s.engines.map (fun (e : Nat × CopyEng) => if e.1 / 4 != die then e else (e.1, { e.2 with
        buffer := e.2.buffer.map (shiftCopy d), mainPath := e.2.mainPath.map (shiftCopy d), paused := e.2.paused.map (shiftCopy d)
        channels := e.2.channels.map (shiftCopy d) }))
      cores := s.cores.map (fun (e : Nat × CoreSt) => if dieOfCore e.1 = die then (e.1, shiftCore d e.2) else e) }
    let s := shiftPast s die d
    let s := (allUnits s).foldl (fun s u => if dieOfCore u.core = die then modUnit s u.uid (joinUnit d) else s) s
    if die = 0 then shiftNewel d s else s

/-- New domains are formed: joined dies take the largest counter; a new domain goes on with the swallowing its lowest die had. -/
def formDomains (s : State) (m : BitVec 8) : State :=
  let old := s.clock.dom
  let keep := fun (l : List Nat) => (List.range 8).map (fun d => if domLow m d = d then nth l (domLow old d) else 0)
  let top := fun d => (domDies m d).foldl (fun n x => max n (now s x)) 0
  let gaps := (List.range 8).map (fun d => top d - now s d)
  let s := (List.range 8).foldl (fun s d => shiftDie s d (nth gaps d)) s
  { s with clock := { s.clock with
      dom := m, domStart := m, ratios := keep s.clock.ratios, swallowed := keep s.clock.swallowed, window := keep s.clock.window } }

/-- DOMAIN_APPLY (R14): with bits [31:24] of the write; refused and logged while a launch runs on a die whose domain changes. -/
def execDomainApply (s : State) : Out :=
  let m : BitVec 8 := s.port.val.extractLsb' 24 8 ||| 1
  if (List.range 8).any (fun d => domChanges s.clock.dom m d && dieBusy s d) then
    .next (logFault s (now s 0) 2 cREGION 0xFF 0xFF 0xFFFF 0 0x1000 0 0)
  else .next (formDomains s m)

/-! ## Power (R16, R17) -/

/-- POWER_LIMIT_WRITE (R17): values below 1,000 are ignored. -/
def execPowerLimitWrite (s : State) : Out :=
  let w : BitVec 16 := s.port.val.extractLsb' 0 16
  .next (if w.toNat < 1000 then s else { s with clock := { s.clock with powerLimit := w } })

/-- The limit that is enforced. -/
def powerCap (s : State) : Nat := min 3700 s.clock.powerLimit.toNat

/-- POWER_SAMPLE (R16): power and the ratios it leads to are open; a limit that 48/64 does not hold raises the alarm, and the
supply is cut 100 ms of pulses later. -/
def execPowerSample (s : State) : Out :=
  let w := Config.power s.free
  let lows := (List.range 8).filter (fun d => domLow s.clock.dom d == d)
  let fails := lows.all (fun d => nth s.clock.ratios d == 48) && decide (powerCap s < w.toNat)
  let s := { s with free := s.free + 1, clock := { s.clock with powerNow := w } }
  let s := if fails && !s.clock.alarm then
      sched { s with clock := { s.clock with alarm := true, alarmAt := s.clock.pulses } } 8 (s.clock.pulses + 70000000) 18 0 0 (.ins .supplyCut)
    else s
  let s := if s.clock.alarm then s else lows.foldl (fun s d =>
      let (r, s) := pick s 49
      { s with clock := { s.clock with ratios := s.clock.ratios.set d r } }) s
  .next (schedNewel s (2 ^ 14) .powerSample)

/-- SUPPLY_CUT (R16): nothing runs, and the host link is down without a completion. -/
def execSupplyCut (s : State) : Out :=
  .next { s with clock := { s.clock with supply := false }, links := { s.links with hostUp := false } }

/-! ## Boot (R22, R23) -/

/-- The first check an image fails, by its code of Table 1.8; 0 where it may start. -/
def imageCheck (m : Image) (fuse : Nat) : Nat :=
  if !m.ecdsa then 1 else if !m.lms then 2 else if m.version < fuse then 3 else if !m.format then 4 else 0

/-- The images in order: an image that verifies is measured, one that does not ends the boot. The register it extends is open. Boot
then derives the alias key from the identity secret and the measurements, and certifies it (R23). -/
def verifyImages : State → Nat → List Image → State
  | s, _, [] =>
    let key := Config.aliasKey (s.boot.measures.flatMap (fun m => bytesOfNat 48 m.toNat))
    { s with boot := { s.boot with done := true, aliasKey := key, aliasCert := Config.certify key } }
  | s, i, m :: rest =>
    match imageCheck m (nth s.boot.fuses i) with
    | 0 =>
      let (k, s) := pick s 8
      let old := s.boot.measures.getD k 0
      let new := Config.sha384 (bytesOfNat 48 old.toNat ++ bytesOfNat 48 (Config.sha384 m.bytes).toNat)
      verifyImages { s with boot := { s.boot with measures := s.boot.measures.set k new } } (i + 1) rest
    | k => { s with boot := { s.boot with failImage := i + 1, failCheck := k } }

/-- What survives a reset: fuses, images, the monotonic store, host memory, what the outside world is about to do, the scale-out
ports, and the numbers the model has used. -/
def powerUp (s : State) : State :=
  { State.reset with
    clock := { Clock.reset with pulses := s.clock.pulses }
    boot := { Boot.reset with fuses := s.boot.fuses, images := s.boot.images, spdm := { (default : Spdm) with lmsIndex := s.boot.spdm.lmsIndex } }
    hostMem := s.hostMem, inputs := s.inputs, incoming := s.incoming, outgoing := s.outgoing, port := s.port
    links := { Links.reset with ethUp := s.links.ethUp, sent := s.links.sent }
    agenda := [], nextId := s.nextId, nextSpace := s.nextSpace, free := s.free }

/-- The newel begins: the queue window is rented (R26), the pair is LIVE, power is sampled and tests begin (R16, R188). -/
def startNewel (s : State) : State :=
  let r : Rent := { (default : Rent) with
    owner := 64 * 65536, state := 1, tier := 2, size := 1024, base := 31744, paid := never, space := s.nextSpace }
  let s := match freeEntry s 0 2 with
    | some (ref, s) => { s with nextSpace := s.nextSpace + 1, rents := tset s.rents ref r }
    | none => s
  let s := { s with newel := { s.newel with standbyOk := true } }
  let (d, s) := openTicks s
  schedNewel (schedNewel s (2 ^ 14) .powerSample) (d + 1) (.knownAnswerTest 0 0)

/-- MODULE_RESET (R22): the boot ROM verifies and measures the images; where all verify, cores and newel are released. -/
def execModuleReset (s : State) : Out :=
  let s := powerUp s
  let s := verifyImages s 0 s.boot.images
  .next (if s.boot.done then startNewel s else s)

/-! ## Attestation (R24) -/

def modSpdm (s : State) (f : Spdm → Spdm) : State := { s with boot := { s.boot with spdm := f s.boot.spdm } }

/-- The response to a request; a request out of order is answered with SPDM's UnexpectedRequest (4). Over a host link that is
down, or presents only the management window, nothing is answered. -/
def spdmAnswer (s : State) (may : Spdm → Bool) (f : State → State) : Out :=
  if !s.links.hostUp || !newelUp s then .next s
  else if !may s.boot.spdm then .next (modSpdm s (fun x => { x with code := 4, response := [] }))
  else .next (f (modSpdm s (fun x => { x with code := 0 })))

/-- A signed response (R24): the index advances before signing; when the last is spent, UnspecifiedError (5) with vendor code 1. -/
def signed (s : State) (body : List Byte) : State :=
  let i := s.boot.spdm.lmsIndex
  if 2 ^ 20 ≤ i then modSpdm s (fun x => { x with code := 5, response := bytesOfNat 2 1 })
  else modSpdm s (fun x => { x with lmsIndex := i + 1, response := body ++ Config.signAlias s.boot.aliasKey body ++ Config.signLms i body })

/-- The certificate chain: the device's, then the alias key's (R23). -/
def certChain (s : State) : List Byte := (List.range Config.certLen).map Config.certByte ++ s.boot.aliasCert

/-- The measurement registers' bytes. -/
def measureBytes (s : State) : List Byte := s.boot.measures.flatMap (fun m => bytesOfNat 48 m.toNat)

/-- GET_VERSION begins anew. -/
def execGetVersion (s : State) : Out :=
  spdmAnswer s (fun _ => true) (fun s => modSpdm s (fun x => { x with version := true, caps := false, algs := false, response := Config.spdmBytes 0 }))

def execGetCapabilities (s : State) : Out :=
  spdmAnswer s (fun x => x.version) (fun s => modSpdm s (fun x => { x with caps := true, response := Config.spdmBytes 1 }))

def execNegotiateAlgorithms (s : State) : Out :=
  spdmAnswer s (fun x => x.caps) (fun s => modSpdm s (fun x => { x with algs := true, response := Config.spdmBytes 2 }))

def execGetDigests (s : State) : Out :=
  spdmAnswer s (fun x => x.algs) (fun s => modSpdm s (fun x => { x with response := bytesOfNat 48 (Config.sha384 (certChain s)).toNat }))

/-- GET_CERTIFICATE: a piece of the chain, from an offset, of a length. -/
def execGetCertificate (s : State) : Out :=
  spdmAnswer s (fun x => x.algs) (fun s =>
    modSpdm s (fun x => { x with response := ((certChain s).drop s.port.off).take s.port.val.toNat }))

/-- CHALLENGE: signed, over the chain's digest, the measurements and the request's nonce. -/
def execChallenge (s : State) : Out :=
  spdmAnswer s (fun x => x.algs) (fun s =>
    signed s (bytesOfNat 48 (Config.sha384 (certChain s)).toNat ++ measureBytes s ++ bytesOfNat 8 s.port.val.toNat))

/-- GET_MEASUREMENTS: signed, over the measurements and the request's nonce; operation 1 asks for no signature. -/
def execGetMeasurements (s : State) : Out :=
  spdmAnswer s (fun x => x.algs) (fun s =>
    if s.port.off = 1 then modSpdm s (fun x => { x with response := measureBytes s })
    else signed s (measureBytes s ++ bytesOfNat 8 s.port.val.toNat))

/-! ## Writes (R25) -/

/-- A write that no register map accepts is logged (R25, Table 9.6). -/
def refusedWrite (s : State) : State :=
  logFault s (now s 0) 3 0 0xFF 0xFF 0xFFFF 0 (BitVec.ofNat 64 s.port.off) 0 0

/-- A write of vd_ctl: its cmd field starts a command (Tables 2.9, 2.10); 0 starts none. -/
def vdCtlWrite (s : State) : Out :=
  match s.port.val.toNat % 16 with
  | 1 => execCreateVd s | 2 => execDestroyVd s | 3 => execExportVd s | 4 => execRoundVd s | 5 => execFreeze s
  | 6 => execFinalVd s | 7 => execImportVd s | 8 => execActivate s | 9 => execThaw s | 10 => execGrent s
  | 11 => execLoadVd s | 12 => execCodereg s | 13 => execCodefree s | 14 => execGrelease s | 15 => execGrenew s
  | _ => .next (modVd s (portVd s) (fun v => { v with node := s.port.val.extractLsb' 32 12 }))

/-- A write inside a virtual device's control block (Table 2.8). -/
def blockWrite (s : State) : Out :=
  let off := s.port.off % 0x1000
  if off = 0 then vdCtlWrite s
  else if off = 0x010 then execAllowAdd s
  else if [0x018, 0x020, 0x028, 0x030, 0x200, 0x208, 0x210].contains off || (0x100 ≤ off && off < 0x200 && off % 8 = 0) then execVdParamWrite s
  else .next (refusedWrite s)

/-- fdb's writes of a core's own 64 KiB (R346; log entry 40): offset 0 adds an address to the comparators, or clears them with 0;
offset 8 attaches a debugger to the launches on the core. -/
def coreWrite (s : State) : Out :=
  let x := s.port.off - 0x08000000
  let core := x / 0x10000
  if 1024 ≤ core then .next (refusedWrite s)
  else if x % 0x10000 = 0 then
    .next (modCore s core (fun k => { k with comparators := if s.port.val = 0 then [] else k.comparators ++ [s.port.val.toNat] }))
  else if x % 0x10000 = 8 then
    .next (((allUnits s).filter (fun u => u.core == core)).foldl (fun s u =>
      modLaunch s u.launch (fun l => { l with attached := s.port.val != 0 })) s)
  else .next (refusedWrite s)

/-- A guest's write of 8 bytes of BAR 2 (R28, R46): of a submission ring; elsewhere no word is named by an offset alone (log entry 12), but
of a FROZEN device every write is dropped and counted. -/
def ringWrite (s : State) (x : Nat) : State :=
  let o := x % 0x4000
  if 0x4000000 ≤ x || ((x % 8 != 0 || o < 0x1000 || 0x3000 ≤ o) && (vdOf s (x / 0x100000)).state != 3) then s
  else guestWrite s (x / 0x100000) (x % 0x100000 / 0x4000) (fun s => { s with window := s.window.writeRun x (bytesOfNat 8 s.port.val.toNat) })

/-- REGISTER_WRITE (R25): a write by the host. Offsets below 2^32 lie in the management window; from 2^32 on the rings of the
queue window (BAR 2 of a function) and from 2^40 on host memory are addressed (log entry 12). A write of the kick bitmap or of the queue
registers through region 0x0020_0000 of BAR 0 is refused and logged: those are written in BAR 4 and BAR 2 (log entry 129). -/
def execRegisterWrite (s : State) : Out :=
  let o := s.port.off
  if 2 ^ 40 ≤ o then .next { s with hostMem := s.hostMem.writeRun (o - 2 ^ 40) (bytesOfNat 8 s.port.val.toNat) }
  else if 2 ^ 32 ≤ o then .next (ringWrite s (o - 2 ^ 32))
  else if !s.links.hostUp then .next s
  else if o = 0x1000 then
    (if s.port.val.getLsbD 0 then execDomainApply s
      else .next { s with clock := { s.clock with domStart := s.port.val.extractLsb' 24 8 ||| 1 } })
  else if o = 0x2000 then execPowerLimitWrite s
  else if 0x280000 ≤ o && o < 0x2C0000 then blockWrite s
  else if 0x08000000 ≤ o && o < 0x0C000000 then coreWrite s
  else .next (refusedWrite s)

end Sys2Proof.Machine
end

