-- ==== Sys2Proof/Machine/Links.lean ====
section
/-!
DEFINITION. What arrives over the scale-out ports (R21): packets of other nodes, and ports that go down or up.
-/
set_option linter.unusedVariables false
namespace Sys2Proof.Machine
open Sys2Proof

/-- Marks a packet as accepted, so that its duplicates are discarded. -/
def seenPacket (s : State) (seq : Nat) : State := { s with links := { s.links with seenSeq := s.links.seenSeq ++ [seq] } }

/-- NODE_PACKET_RECEIVE (R21, R194): 32 bytes for a global address of a virtual device; bits 256 to 259 of val mark its poisoned words. A duplicate is discarded; a packet for a page in
its switch window is refused and may come again; one whose region's right has ended, or that no region backs, is dropped and
acknowledged; others land, and mark their page dirty. With every port down nothing arrives. -/
def execNodePacketReceive (vd addr seq val : Nat) (s : State) : Out :=
  let bs := bytesOfNat 32 val
  let marks := ((List.range 4).filter (fun i => val.testBit (256 + i))).map (· * 8)
  if s.links.seenSeq.contains seq || !s.links.ethUp.any id then .next s
  else match globalMap (vdOf s vd) addr with
    | none => .next (seenPacket s seq)
    | some m =>
      if !m.host && inSwitch s (refPlace s m.ref (addr - m.first) 0 0) then .next s
      else if m.host then
        .next (if hostOwns s vd addr then seenPacket s seq
          else writeHost (seenPacket s seq) (m.hostAddr + (addr - m.first)) bs marks (now s 0) none)
      else if (rentOf s m.ref).state != 1 || hostOwns s vd addr then .next (seenPacket s seq)
      else .next (landBytes (seenPacket s seq) (rentOf s m.ref).space (addr - m.first) bs marks (now s (refDie m.ref)))

/-- SCALE_OUT_PORT_DOWN (R21): a port goes down or, down, up again; copies are striped over those that are up. -/
def execScaleOutPortDown (port : Nat) (s : State) : Out :=
  let up := s.links.ethUp.getD port false
  let s := if up then linkError s (16 + port) else s
  .next { s with links := { s.links with ethUp := s.links.ethUp.set port (!up) } }

end Sys2Proof.Machine
end

