-- ==== Sys2Proof/Machine/Perform.lean ====
section
/-!
DEFINITION. How effects perform when they are due (R86, R109, R110, R312, R327, Table 4.10).
-/
set_option linter.unusedVariables false
namespace Sys2Proof.Machine
open Sys2Proof

/-- Why an engine write of a unit finds no rights to a byte of a space, as the tinfo of Table 4.2. -/
def writeBarred (s : State) (c : Ctx) (space off : Nat) : Option Nat :=
  match refOfSpace s space with
  | none => some 1
  | some r => rights s c ⟨space, off, r, 2, 1, 0, 0, false⟩

/-- The scratchpad address of a unit's byte of a space. -/
def addressIn (s : State) (c : Ctx) (space off : Nat) : Word :=
  match c.spad.find? (fun p => (rentOf s p.ref).space == space) with
  | some p => ownAddress c (p.first * 4096 + off)
  | none => 0

/-- A write of an engine command performs where its rights last (R86): LNEST stops precisely (R312), other writes are dropped. -/
def performWrite (s : State) (uid own space off : Nat) (bs : List Byte) (ps : List Nat) : State :=
  match unitOf s uid with
  | none => s
  | some c =>
    match writeBarred s c space off with
    | none => landBytes s space off bs ps (tickOf s c)
    | some why =>
      match running s c.core 1 own with
      | none => s
      | some k =>
        match k.ins with
        | .lnest _ f => engineFault (dropOwned s [own]) (nestStopped f k (tickOf s c - 1)) true
            ⟨cLAPSED, addressIn s c space off, BitVec.ofNat 64 why, false⟩
        | _ => s

/-- Half a byte that LNEST writes: the other half is as it stands now (R308). -/
def performNibble (s : State) (uid own space off half val : Nat) : State :=
  let old := (s.mem.read (locOf space off)).toNat
  performWrite s uid own space off [BitVec.ofNat 8 (if half = 0 then old / 16 * 16 + val else old % 16 + 16 * val)] []

/-- A word of an XLD or XST counts and lands, or is cut (R327); effects of other commands and of instructions just perform. -/
def landing (s : State) (uid own : Nat) (e : Eff) (f : State → State) : State :=
  match unitOf s uid with
  | none => s
  | some c =>
    if own = 0 then f s
    else match xferLands s c.core own e with
    | (true, s) => f s
    | (false, s) => s

/-- A page that a copy's next words touch is in its switch window (R93). -/
def copyStalls (s : State) (eng id : Nat) : Bool :=
  match engCmd s eng id with
  | none => false
  | some k =>
    match issuer s eng k with
    | none => false
    | some c => (List.range (min (groupOf k) (k.live - k.counted))).any (fun i => [0, 1].any (fun side =>
        !remoteSide k side && (match copyPlace s c k side (k.counted + i) with | .ok p => inSwitch s p | .error _ => false)))

/-- Groups with a flagged word that a copy's next words are read from (R193). -/
def copyFlagged (s : State) (eng id : Nat) : List Nat :=
  match engCmd s eng id with
  | none => []
  | some k =>
    match issuer s eng k with
    | none => []
    | some c => if (allErrors s).isEmpty || remoteSide k 1 then [] else
        flaggedReads s ((List.range (min (groupOf k) (k.live - k.counted))).flatMap (fun i => match copyPlace s c k 1 (k.counted + i) with
          | .ok p => if p.host then [] else [(locOf p.space p.off, 32)]
          | .error _ => []))

/-- Groups with a flagged word among the record words a CPYC reads, in memory and in the die's record cache (R193, R335). -/
def recordFlagged (s : State) (eng id : Nat) : List Nat :=
  match (engOf s eng).buffer.find? (fun k => k.id == id) with
  | none => []
  | some k => match issuer s eng k with
    | none => []
    | some c => flaggedReads s ([0, 1].flatMap (fun i =>
        let a := k.vals.getD i 0
        match translate s c (windowFor c a) a with
        | .ok p => [(locOf p.space p.off, 192), (2 ^ 100 + eng / 4 * 2 ^ 90 + locOf p.space p.off, 192)]
        | .error _ => []))

/-- COUNTED_LOAD_RETURN (R18): the result of a counted load arrives, or the records of a CPYC are read (R335); a flagged word of one
puts their read off by 72 ticks (R193). A load that a CXL link
answered with poison, or not in time, writes nothing, and its destination word is marked poisoned (Table 1.5). -/
def execCountedLoadReturn (uid ld : Nat) (s : State) : Out :=
  match unitOf s uid with
  | none =>
    .next (match s.engines.find? (fun (e : Nat × CopyEng) => e.2.buffer.any (fun k => k.id == ld)) with
      | some e => (match recordFlagged s e.1 ld with
          | [] => readRecords s e.1 ld
          | gs => schedEng (gs.foldl (fun s g => recoverGroup s false g) s) e.1 (engTick s e.1 + 72) 15 ld (.ins (.countedLoadReturn 0 ld)))
      | none => s)
  | some c =>
    match tget c.loads ld with
    | none => .next s
    | some (p, v) =>
      if ((tget c.loadLinks ld).getD (0, false)).2 then
        .next (setUnit s (({ c with
          loads := tdel c.loads ld, loadLinks := tdel c.loadLinks ld
          bankPoison := if p = 0 || c.bankPoison.contains (8 * p) then c.bankPoison else c.bankPoison ++ [8 * p] }).await (.s p) (tickOf s c)))
      else
      let c := match c.region with
        | some r => if ld < r.firstCmd then c.arrive p v else c
        | none => c
      .next (setUnit s ((wrPhys { c with loads := tdel c.loads ld, loadLinks := tdel c.loadLinks ld } p v).await (.s p) (tickOf s c)))


/-- Groups with a flagged word among the old values that a row adds to (R193). -/
def rowFlagged (s : State) (uid off ty : Nat) (acc : Bool) : List Nat :=
  let t := if ty = 0x11 then 0x0B else ty
  match unitOf s uid with
  | none => []
  | some c => if !acc || (allErrors s).isEmpty then [] else flaggedReads s (bankRange c off (modeDim t * (tyBits (accTy t) / 8)))

/-- Groups with a flagged word among the bytes an operation reads at a synchronisation engine (R193). -/
def opFlagged (s : State) (c : Ctx) (o : SyncOp) : List Nat :=
  if (allErrors s).isEmpty then []
  else match o.kind, opPlace s c o with
    | .store, _ | .relStore, _ | _, none => []
    | _, some p => flaggedReads s [(locOf p.space p.off, max o.size 8)]

/-- Groups with a flagged word among the accumulators a drain reads in a row, and under acc among the old values it adds to (R193). -/
def drainFlagged (s : State) (core id r : Nat) : List Nat :=
  match running s core 0 id with
  | none => []
  | some k => match k.ins with
    | .mgdrain _ f => flaggedReads s ((2 ^ 82 + core * 2 ^ 20 + 4 * gradKey f.bank.toNat r 0, 512) ::
        (match unitOf s k.uid with
          | some c => if f.acc = 1 then bankRange c (nth k.names 1 + r * vPitch (k.views.getD 0 0)) 512 else []
          | none => []))
    | _ => []

/-- An effect goes back on the agenda. -/
def schedCmdAgain (s : State) (ev : Ev) : State := { s with agenda := s.agenda ++ [ev] }

/-- A read of flagged words stalls its engine command by 72 ticks, this entry with what follows it (R193). -/
def stallOwn (s : State) (ev : Ev) (gs : List Nat) : State :=
  delayOwn (schedCmdAgain (gs.foldl (fun s g => recoverGroup s false g) s) ev) ev.own

/-- A landing that meets a page in its switch window stalls to the next tick, and with it what waits for its tick (R93). -/
def stallLanding (s : State) (uid : Nat) (e : Eff) : State :=
  match unitOf s uid with
  | none => s
  | some c =>
    let t := tickOf s c
    let s := schedC s c (t + 1) 4 (.eff e)
    match c.wait with
    | .land x => if x = t then schedC (setUnit s { c with wait := .land (t + 1) }) c (t + 1) 4 (.ins (.landComplete uid)) else s
    | .halt x => if x = t then setUnit s { c with wait := .halt (t + 1) } else s
    | _ => s

/-- Some byte of a landing lies on a page in its switch window (R93). -/
def landingStalls (s : State) (bytes : List FByte) : Bool :=
  bytes.any (fun f => f.space != 0 && s.retiring.any (fun r => r.window && r.space == f.space && r.page == f.off / 65536))

/-- An operation's object lies on a page in its switch window (R93). -/
def opStalls (s : State) (c : Ctx) (o : SyncOp) : Bool := match opPlace s c o with | some p => inSwitch s p | none => false

/-- A result that was on its way at RGOPEN arrives in the open region's snapshot too (R119). -/
def arriveOlder (s : State) (ev : Ev) (e : Eff) : State :=
  if !ev.older then s
  else match e with
    | .bank uid off bs _ => modUnit s uid (fun c => c.arrive (off / 8) (BitVec.ofNat 64 (natOfBytes bs)))
    | .result uid o v => modUnit s uid (fun c => c.arrive o.d v)
    | _ => s

/-- What an entry issued before a unit's open region leads to was issued before it too (R119). -/
def inheritOlder (s : State) (ev : Ev) (t : State) : State :=
  if !ev.older then t
  else { t with agenda := t.agenda.map (fun x => if x.uid = ev.uid && x.own = 0 && !s.agenda.contains x then { x with older := true } else x) }

/-- An effect performs. -/
def performEff (s : State) (ev : Ev) (e : Eff) : State :=
  match e with
  | .bank uid off bs ps => landing s uid ev.own e (fun s => modUnit s uid (fun c => bankWrite c off bs ps))
  | .pred uid n mask val => modUnit s uid (fun c => wrPhysP c n ((rdPhysP c n &&& ~~~ mask) ||| (val &&& mask)))
  | .tags uid first vs => modUnit s uid (fun c => { c with
      tags := ((List.range vs.length).zip vs).foldl (fun t p => tset t (first + p.1) p.2) c.tags })
  | .flags uid v => modUnit s uid (fun c => { c with aflags := c.aflags ||| v })
  | .alcove core off bs ps => landing s ev.uid ev.own e (fun s => modCore s core (fun k => alcWrite k off bs ps))
  | .oqEntry uid q bs ps => landing s uid ev.own e (fun s => performOq s uid q bs ps)
  | .store uid addr bs ps => performStore s uid addr bs ps
  | .write uid space off bs ps =>
    (match unitOf s uid with
    | none => s
    | some c => if (running s c.core 3 ev.own).isSome then landing s uid ev.own e (fun s => landBytes s space off bs ps (tickOf s c))
        else performWrite s uid ev.own space off bs ps)
  | .nibble uid space off half val => performNibble s uid ev.own space off half val
  | .count uid addr n => performCount s uid addr n
  | .micro core q id => performMicro s core q id
  | .copyStep eng id =>
    if copyStalls s eng id then schedEng s eng (engTick s eng + 1) 15 id (.eff e)
    else (match copyFlagged s eng id with
      | [] => copyStep s eng id
      | gs => schedEng (gs.foldl (fun s g => recoverGroup s false g) s) eng (engTick s eng + 72) 15 id (.eff e))
  | .sync uid o => (match unitOf s uid with
    | some c => if opStalls s c o then schedC s c (tickOf s c + 1) 11 (.eff e)
        else (match opFlagged s c o with
          | [] => performSync s uid o (tickOf s c)
          | gs => schedCmdAgain (gs.foldl (fun s g => recoverGroup s false g) s) { ev with tick := ev.tick + 72 })
    | none => s)
  | .result uid o v => performResult s uid o v
  | .land uid sc bytes perf op => if landingStalls s bytes then stallLanding s uid e else performLand s uid sc bytes perf op
  | .row uid off ty acc wrap xv x w ps ups => (match rowFlagged s uid off ty acc with
    | [] => performRow s uid off ty acc wrap xv x w ps ups
    | gs => stallOwn s ev gs)
  | .grad core bank x dy ups bad => (match flaggedReads s (gradRange core bank 0 16384) with
    | [] => modCore s core (fun k => performGrad k bank x dy ups bad)
    | gs => stallOwn s ev gs)
  | .drainRow core id r => (match drainFlagged s core id r with
    | [] => performDrain s core id r
    | gs => stallOwn s ev gs)
  | .slot core id => performSlot s core id
  | .rent uid i args dst pc => performRent s uid i args dst pc
  | .loadWord core ld => (match flaggedReads s (pathReads s core ld) with
    | [] => loadWordsAt s core ld
    | gs => { stallPath (gs.foldl (fun s g => recoverGroup s false g) s) core with
        agenda := (stallPath s core).agenda ++ [{ ev with tick := ev.tick + 72 }] })
  | .xword k rx ch j bs ps => performXword s k rx ch j bs ps
  | .buffer uid n op => performBuffer s uid n op
  | .wake uid => (match unitOf s uid with
    | some c => if c.wait = .regionClose && !c.inLand.isEmpty then schedC s c (tickOf s c + 1) 16 (.eff e) else regionClosed s uid
    | none => s)

end Sys2Proof.Machine
end

