-- ==== Sys2Proof/Machine/Banister.lean ====
section
/-!
DEFINITION. The banister (R183, R184): which capability bits an instruction declares, where the two sequencers are
compared, and what a mismatch does. That a core's two sequencers differ is hidden state of the hardware (log entry 16).
-/
set_option linter.unusedVariables false
namespace Sys2Proof.Machine
open Sys2Proof

/-- Capability bits a long twin declares: those of its form-B instruction (R229). -/
def twinBits (op : TwinOp) : List Nat :=
  match op with
  | .bfx | .bfxs | .bfi => [6]
  | _ => [0]

/-- Capability bits an instruction declares (Opcode Map, R97, R234). -/
def declared (c : Ctx) (i : Instr) : List Nat :=
  match vform i with
  | some (major, func, v) => vBits major func v
  | none =>
    match i with
    | .nop _ => []
    | .mul _ _ _ | .mulh _ _ _ | .mulhu _ _ _ | .div _ _ _ | .divu _ _ _ | .rem _ _ _ | .remu _ _ _ => [1]
    | .fshl _ _ _ _ | .fshr _ _ _ _ | .bfx _ _ _ _ | .bfxs _ _ _ _ | .bfi _ _ _ _ => [6]
    | .longTwin op _ _ _ => twinBits op
    | .swait _ _ _ _ | .waitb _ _ _ _ | .arrive _ _ | .arrdrop _ _ | .binit _ _ _ => [21]
    | .amoAdd _ _ _ _ _ | .amoAnd _ _ _ _ _ | .amoOr _ _ _ _ _ | .amoXor _ _ _ _ _ | .amoMin _ _ _ _ _
    | .amoMax _ _ _ _ _ | .amoSwap _ _ _ _ _ | .amoCas _ _ _ _ _ _ => [21]
    | .dispatch _ _ | .wlnext _ _ _ | .wid _ _ => [21]
    | .rent _ _ _ _ _ | .renew _ _ _ _ | .prepay _ _ _ _ | .sublet _ _ _ _ | .unsublet _ _ _ | .release _ _ _
    | .rquery _ _ _ | .slclaim _ _ _ | .slrel _ _ => [23]
    | .cpy _ _ | .cpyc _ _ | .ckpt _ _ | .lrflush _ _ => [22]
    | .xsend _ _ | .xrecv _ _ => [20]
    | .mloadw _ f => [classBit f.ty.toNat]
    | .mmul _ f => classBit f.ty.toNat :: (if f.route = 1 then [15] else [])
    | .mgrad _ f => 16 :: (if f.route = 1 then [15] else [])
    | .mgdrain _ _ => [16]
    | .mres _ f => [classBit f.ty.toNat]
    | .sortc _ _ => [17]
    | .lnest _ f => nestBits f (streamReg c f.sa.toNat)
    | _ => [0]

/-- Comparison points that are no engine command (R183). -/
def compared (i : Instr) : Bool :=
  match i with
  | .rgopenContain _ | .rgopenIdem _ | .rgopenBoth _ | .rgclose | .rgabort | .land _ | .lda _ _ _ _ _ | .strel _ _ _ _ _
  | .amoAdd _ _ _ _ _ | .amoAnd _ _ _ _ _ | .amoOr _ _ _ _ _ | .amoXor _ _ _ _ _ | .amoMin _ _ _ _ _
  | .amoMax _ _ _ _ _ | .amoSwap _ _ _ _ _ | .amoCas _ _ _ _ _ _ | .arrive _ _ | .arrdrop _ _ | .binit _ _ _
  | .swait _ _ _ _ | .waitb _ _ _ _ | .gsync _ | .trap _ | .tret | .halt => true
  | .longTwin .trap _ _ _ => true
  | _ => false

/-- The comparison at a core's next point: none, or the class charged where the sides differ: 0 where only the signatures
do, else the instruction's own (R184). -/
def comparison (s : State) (core : Nat) (cls : Nat) : Option Nat × State :=
  let k := coreOf s core
  let s' := modCore s core (fun k => { k with diverge := k.diverge.drop 1 })
  match k.diverge with
  | [] => (none, s)
  | 0 :: _ => (none, s')
  | 1 :: _ => (some 0, s')
  | _ => (some cls, s')

/-- A mismatch (R184): what stands at the point does not issue; an idem region is abandoned and begins again, at no handler level,
where it was opened, else the fault is taken by f. -/
def mismatch (s : State) (c : Ctx) (cls : Nat) (pc : Word) (f : State → State) : State :=
  let s := miscompute s c.core cls 2 pc.toNat (some c)
  match c.region, c.idem with
  | some r, true =>
    let s := if c.handler then leaveHandler s c else s
    modUnit (abandon (withdraw s c) c.uid) c.uid (fun c => { c with pc := r.openPc, wait := .run, nextAt := tickOf s c + 1 })
  | _, _ => f s

/-- The fault of a mismatch; its tval is open (log entry 2). -/
def mismatchTrap : Trap := ⟨cMISMATCH, 0, 0, true⟩

/-- BANISTER_COMPARE (R183): the comparison succeeds and the command reaches its queue; a compact copy's records are read
from then on (R335), a form V entry's placements are taken (R303). A timed command that gets there late misses its start at its due tick instead (R106, R107). One that a trap, the
monitor or a stop holds back is compared as well, six ticks after its delivery, and held (R111, R117). One that mismatches does not
issue (R184). -/
def execBanisterCompare (core id : Nat) (s : State) : Out :=
  match (coreOf s core).pending.find? (fun m => m.id == id) with
  | none => .next s
  | some k =>
    let c := (unitOf s k.uid).getD default
    let back := heldBack c k
    let t := now s (dieOfCore core)
    let out := fun (s : State) => modCore s core (fun x => { x with pending := x.pending.filter (fun m => m.id != id) })
    if back && t < k.deliver + 6 then
      .next (sched s (dieOfCore core) (k.deliver + 6) 15 k.uid 0 (.ins (.banisterCompare core id)))
    else if reachesLate k && !back then .next (engineFault s { k with prog := 2 } (keeps k.ins) ⟨cMISS, BitVec.ofNat 64 k.due, 1, false⟩)
    else match comparison s core ((declared c k.ins).headD 0) with
    | (some cls, s) => .next (mismatch (out s) c cls k.pc (fun s => engineFault s k false mismatchTrap))
    | (none, s) =>
      match placeVec c k with
      | .error e => .next (if back then modUnit (out s) k.uid (fun c => c.hold { k with prog := 5 }) else engineFault s k false e)
      | .ok k =>
      if back then .next (modUnit (out s) k.uid (fun c => c.hold k)) else
      let s := enqueue (out s) core k
      .next (match k.ins with
        | .cpyc _ _ => schedRecords s (copyEngineOf core) k
        | _ => s)

end Sys2Proof.Machine
end

