-- ==== Sys2Proof/Machine/Takeover.lean ====
section
/-!
DEFINITION. The newel pair's take-over (R69 to R71, Table 3.11).
-/
set_option linter.unusedVariables false
namespace Sys2Proof.Machine
open Sys2Proof

/-- Step 4 (R30, R71): every set kick bit is scanned. -/
def scanKicks (s : State) : State := s.kicks.foldl (fun s k => scanKick s (k / 64) (k % 64)) s

/-- Step 5 (R70, R71): each end report has its END entry, and its launch leaves. -/
def drainReports (s : State) : State :=
  s.newel.endReports.foldl (fun s id => if (tget s.launches id).isSome then leaveLaunch (countHalted s id) id 0 true else s) s

/-- Step 6 (R32, R71): completions go out in their order, and the state is SINGLE. What the take-over held back follows: fences
(Table 3.6), launches that faulted, slices that ended. -/
def takeOverEnds (s : State) : State :=
  let s := (List.range 64).foldl flushNow s
  let s := { s with newel := { s.newel with pair := 1, held := false } }
  let s := s.newel.fences.foldl (fun s f => applyFence s f.1 f.2) { s with newel := { s.newel with fences := [] } }
  let s := (s.launches.filter (fun e => stagingReached s e.2)).foldl (fun s e => stagingDone s e.1) s
  let s := (s.teams.map Prod.fst).foldl descheduled s
  let s := (s.launches.filter (fun e => e.2.status.isSome && !e.2.attached)).foldl
    (fun s e => sched s 0 (now s 0) 17 0 0 (.ins (.launchEnd e.1))) s
  let s := (s.vds.filter (fun e => e.2.state == 2)).foldl (fun s e => sched s 0 (now s 0) 17 0 0 (.ins (.sliceEnd e.1))) s
  poke s

/-- A committed entry is replayed (R69): an action is performed with its entry, so heads, tails, records and states hold what is
replayed already; a descriptor is sent again, and a gallery that has accepted a sequence as high discards it. -/
def replayEntry (s : State) (e : JEntry) : State :=
  if e.kind != 4 then s
  else
    let gal := galOfCore (natOfBytes ((e.payload.drop 8).take 8))
    if e.seq ≤ (tget s.newel.accepted gal).getD 0 then s
    else { s with newel := { s.newel with accepted := tset s.newel.accepted gal e.seq } }

/-- Step 3 (R69, R71): the entries the standby has not applied are applied in their order. -/
def replay (s : State) : State :=
  let s := (s.newel.journal.reverse.filter (fun e => s.newel.appliedSeq < e.seq)).foldl replayEntry s
  { s with newel := { s.newel with pair := 4, appliedSeq := s.newel.commitSeq } }

/-- Step 2 (R71): the entries the standby has not applied are verified. Flagged words of the journal that hold them are rebuilt, or are bad
beyond that, and the pair has FAILED. -/
def verify (s : State) : State :=
  let n := ((s.newel.journal.filter (fun e => s.newel.appliedSeq < e.seq)).map (fun e => (entryImage e).length)).foldl (· + ·) 0
  let lo := (s.newel.ringAt + ringSize - n % ringSize) % ringSize
  let m := min n (ringSize - lo)
  (flaggedReads s [(2 ^ 84 + 64 + lo, m), (2 ^ 84 + 64, n - m)]).foldl (fun s g => recoverGroup s false g) s

/-- NEWEL_TAKEOVER (R71): the active newel fails, or the next stage of a take-over is due. -/
def execNewelTakeover (s : State) : Out :=
  let n := s.newel
  let t := now s 0
  let next := fun (s : State) (d : Nat) =>
    schedNewel { s with newel := { s.newel with resumeAt := t + d } } d .newelTakeover
  if n.pair = 0 then
    if !n.standbyOk then .next (pairFailed s)
    else
      let (d, s) := pick s 5
      .next (next { s with newel := { s.newel with
        active := 1 - n.active, takeovers := min 255 (n.takeovers + 1), standbyOk := false, pair := 2, held := true } } d)
  else if n.pair = 1 || n.pair = 5 then .next (pairFailed s)
  else if n.resumeAt != t then .next (pairFailed s)
  else if n.pair = 2 then
    let (d, s) := pick s (64 * (n.commitSeq - n.appliedSeq) + 1)
    .next (next { s with newel := { s.newel with pair := 3 } } d)
  else if n.pair = 3 then
    let s := verify s
    let (d, s) := openTicks s
    .next (if s.newel.pair = 5 then s else next (replay s) d)
  else .next (takeOverEnds (drainReports (scanKicks s)))

/-- STANDBY_NEWEL_FAILURE (R71): after the active newel's failure the pair is FAILED; else no standby is left. -/
def execStandbyNewelFailure (s : State) : Out :=
  if s.newel.pair = 0 then .next { s with newel := { s.newel with standbyOk := false } } else .next (pairFailed s)

end Sys2Proof.Machine
end

