-- ==== Sys2Proof/Machine/Dispatch.lean ====
section
/-!
DEFINITION. The one arm per instruction: each a direct call of its meaning.
-/
namespace Sys2Proof.Machine
open Sys2Proof

def exec (i : Instr) (s : State) : Host.Outcome State Fault Refusal :=
  match i with
  | .add d a b => Sys2Proof.Machine.execAdd d a b s
  | .sub d a b => Sys2Proof.Machine.execSub d a b s
  | .and d a b => Sys2Proof.Machine.execAnd d a b s
  | .or d a b => Sys2Proof.Machine.execOr d a b s
  | .xor d a b => Sys2Proof.Machine.execXor d a b s
  | .andn d a b => Sys2Proof.Machine.execAndn d a b s
  | .sll d a b => Sys2Proof.Machine.execSll d a b s
  | .srl d a b => Sys2Proof.Machine.execSrl d a b s
  | .sra d a b => Sys2Proof.Machine.execSra d a b s
  | .rol d a b => Sys2Proof.Machine.execRol d a b s
  | .ror d a b => Sys2Proof.Machine.execRor d a b s
  | .slt d a b => Sys2Proof.Machine.execSlt d a b s
  | .sltu d a b => Sys2Proof.Machine.execSltu d a b s
  | .seq d a b => Sys2Proof.Machine.execSeq d a b s
  | .min d a b => Sys2Proof.Machine.execMin d a b s
  | .max d a b => Sys2Proof.Machine.execMax d a b s
  | .minu d a b => Sys2Proof.Machine.execMinu d a b s
  | .maxu d a b => Sys2Proof.Machine.execMaxu d a b s
  | .clz d a => Sys2Proof.Machine.execClz d a s
  | .ctz d a => Sys2Proof.Machine.execCtz d a s
  | .popc d a => Sys2Proof.Machine.execPopc d a s
  | .mul d a b => Sys2Proof.Machine.execMul d a b s
  | .mulh d a b => Sys2Proof.Machine.execMulh d a b s
  | .mulhu d a b => Sys2Proof.Machine.execMulhu d a b s
  | .div d a b => Sys2Proof.Machine.execDiv d a b s
  | .divu d a b => Sys2Proof.Machine.execDivu d a b s
  | .rem d a b => Sys2Proof.Machine.execRem d a b s
  | .remu d a b => Sys2Proof.Machine.execRemu d a b s
  | .fshl d a b c => Sys2Proof.Machine.execFshl d a b c s
  | .fshr d a b c => Sys2Proof.Machine.execFshr d a b c s
  | .lea d a b n => Sys2Proof.Machine.execLea d a b n s
  | .sptest d a => Sys2Proof.Machine.execSptest d a s
  | .spcast t d a p => Sys2Proof.Machine.execSpcast t d a p s
  | .waitt a => Sys2Proof.Machine.execWaitt a s
  | .gsync d => Sys2Proof.Machine.execGsync d s
  | .jr d a => Sys2Proof.Machine.execJr d a s
  | .rgopenContain a => Sys2Proof.Machine.execRgopenContain a s
  | .rgopenIdem a => Sys2Proof.Machine.execRgopenIdem a s
  | .rgopenBoth a => Sys2Proof.Machine.execRgopenBoth a s
  | .land sc => Sys2Proof.Machine.execLand sc s
  | .swait sc p d a => Sys2Proof.Machine.execSwait sc p d a s
  | .waitb sc p d a => Sys2Proof.Machine.execWaitb sc p d a s
  | .arrive sc a => Sys2Proof.Machine.execArrive sc a s
  | .arrdrop sc a => Sys2Proof.Machine.execArrdrop sc a s
  | .binit sc a b => Sys2Proof.Machine.execBinit sc a b s
  | .bdecl a b => Sys2Proof.Machine.execBdecl a b s
  | .bacqFill a => Sys2Proof.Machine.execBacqFill a s
  | .bacqDrain a => Sys2Proof.Machine.execBacqDrain a s
  | .brel a => Sys2Proof.Machine.execBrel a s
  | .bstat d a => Sys2Proof.Machine.execBstat d a s
  | .rent st t d a b => Sys2Proof.Machine.execRent st t d a b s
  | .renew st d a b => Sys2Proof.Machine.execRenew st d a b s
  | .prepay st d a b => Sys2Proof.Machine.execPrepay st d a b s
  | .sublet st d a b => Sys2Proof.Machine.execSublet st d a b s
  | .unsublet st d a => Sys2Proof.Machine.execUnsublet st d a s
  | .release st d a => Sys2Proof.Machine.execRelease st d a s
  | .rquery st d a => Sys2Proof.Machine.execRquery st d a s
  | .viewset n a => Sys2Proof.Machine.execViewset n a s
  | .gset n a => Sys2Proof.Machine.execGset n a s
  | .addi d a imm => Sys2Proof.Machine.execAddi d a imm s
  | .andi d a imm => Sys2Proof.Machine.execAndi d a imm s
  | .ori d a imm => Sys2Proof.Machine.execOri d a imm s
  | .xori d a imm => Sys2Proof.Machine.execXori d a imm s
  | .slli d a imm => Sys2Proof.Machine.execSlli d a imm s
  | .srli d a imm => Sys2Proof.Machine.execSrli d a imm s
  | .srai d a imm => Sys2Proof.Machine.execSrai d a imm s
  | .slti d a imm => Sys2Proof.Machine.execSlti d a imm s
  | .sltiu d a imm => Sys2Proof.Machine.execSltiu d a imm s
  | .bfx d a pos len1 => Sys2Proof.Machine.execBfx d a pos len1 s
  | .bfxs d a pos len1 => Sys2Proof.Machine.execBfxs d a pos len1 s
  | .bfi d a pos len1 => Sys2Proof.Machine.execBfi d a pos len1 s
  | .ldN32 d a imm => Sys2Proof.Machine.execLdN32 d a imm s
  | .ldI32 d a imm => Sys2Proof.Machine.execLdI32 d a imm s
  | .ldN64 d a imm => Sys2Proof.Machine.execLdN64 d a imm s
  | .ldN16 d a imm => Sys2Proof.Machine.execLdN16 d a imm s
  | .ldI16 d a imm => Sys2Proof.Machine.execLdI16 d a imm s
  | .ldN8 d a imm => Sys2Proof.Machine.execLdN8 d a imm s
  | .ldI8 d a imm => Sys2Proof.Machine.execLdI8 d a imm s
  | .stN8 d a imm => Sys2Proof.Machine.execStN8 d a imm s
  | .stN16 d a imm => Sys2Proof.Machine.execStN16 d a imm s
  | .stN32 d a imm => Sys2Proof.Machine.execStN32 d a imm s
  | .stN64 d a imm => Sys2Proof.Machine.execStN64 d a imm s
  | .pref a imm => Sys2Proof.Machine.execPref a imm s
  | .ldg d g n => Sys2Proof.Machine.execLdg d g n s
  | .stg d g n => Sys2Proof.Machine.execStg d g n s
  | .br k a off => Sys2Proof.Machine.execBr k a off s
  | .j off => Sys2Proof.Machine.execJ off s
  | .jl off => Sys2Proof.Machine.execJl off s
  | .loopr off => Sys2Proof.Machine.execLoopr off s
  | .trap n => Sys2Proof.Machine.execTrap n s
  | .mvs d n => Sys2Proof.Machine.execMvs d n s
  | .msv n a => Sys2Proof.Machine.execMsv n a s
  | .defer n => Sys2Proof.Machine.execDefer n s
  | .nop bits => Sys2Proof.Machine.execNop bits s
  | .longTwin op d a imm => Sys2Proof.Machine.execLongTwin op d a imm s
  | .lda t sc d a imm => Sys2Proof.Machine.execLda t sc d a imm s
  | .strel t sc d a imm => Sys2Proof.Machine.execStrel t sc d a imm s
  | .amoAdd t sc d a b => Sys2Proof.Machine.execAmoAdd t sc d a b s
  | .amoAnd t sc d a b => Sys2Proof.Machine.execAmoAnd t sc d a b s
  | .amoOr t sc d a b => Sys2Proof.Machine.execAmoOr t sc d a b s
  | .amoXor t sc d a b => Sys2Proof.Machine.execAmoXor t sc d a b s
  | .amoMin t sc d a b => Sys2Proof.Machine.execAmoMin t sc d a b s
  | .amoMax t sc d a b => Sys2Proof.Machine.execAmoMax t sc d a b s
  | .amoSwap t sc d a b => Sys2Proof.Machine.execAmoSwap t sc d a b s
  | .amoCas t sc d a b c => Sys2Proof.Machine.execAmoCas t sc d a b c s
  | .vadd v => Sys2Proof.Machine.execVadd v s
  | .vsub v => Sys2Proof.Machine.execVsub v s
  | .vmul v => Sys2Proof.Machine.execVmul v s
  | .vfma v => Sys2Proof.Machine.execVfma v s
  | .vmin v => Sys2Proof.Machine.execVmin v s
  | .vmax v => Sys2Proof.Machine.execVmax v s
  | .vabs v => Sys2Proof.Machine.execVabs v s
  | .vneg v => Sys2Proof.Machine.execVneg v s
  | .vand v => Sys2Proof.Machine.execVand v s
  | .vor v => Sys2Proof.Machine.execVor v s
  | .vxor v => Sys2Proof.Machine.execVxor v s
  | .vnot v => Sys2Proof.Machine.execVnot v s
  | .vshl v => Sys2Proof.Machine.execVshl v s
  | .vshr v => Sys2Proof.Machine.execVshr v s
  | .vsra v => Sys2Proof.Machine.execVsra v s
  | .vceq v => Sys2Proof.Machine.execVceq v s
  | .vcne v => Sys2Proof.Machine.execVcne v s
  | .vclt v => Sys2Proof.Machine.execVclt v s
  | .vcle v => Sys2Proof.Machine.execVcle v s
  | .vcvt v => Sys2Proof.Machine.execVcvt v s
  | .vqrd v => Sys2Proof.Machine.execVqrd v s
  | .vexp2 v => Sys2Proof.Machine.execVexp2 v s
  | .vrcp v => Sys2Proof.Machine.execVrcp v s
  | .vbfx v => Sys2Proof.Machine.execVbfx v s
  | .vfsh v => Sys2Proof.Machine.execVfsh v s
  | .vred v => Sys2Proof.Machine.execVred v s
  | .vscan v => Sys2Proof.Machine.execVscan v s
  | .vld v => Sys2Proof.Machine.execVld v s
  | .vst v => Sys2Proof.Machine.execVst v s
  | .vgath v => Sys2Proof.Machine.execVgath v s
  | .vscat v => Sys2Proof.Machine.execVscat v s
  | .vlut v => Sys2Proof.Machine.execVlut v s
  | .vthr v => Sys2Proof.Machine.execVthr v s
  | .vtagTags v => Sys2Proof.Machine.execVtagTags v s
  | .vtagMask v => Sys2Proof.Machine.execVtagMask v s
  | .vcomb v => Sys2Proof.Machine.execVcomb v s
  | .vmov v => Sys2Proof.Machine.execVmov v s
  | .vbcst v => Sys2Proof.Machine.execVbcst v s
  | .vsel v => Sys2Proof.Machine.execVsel v s
  | .vgetl v => Sys2Proof.Machine.execVgetl v s
  | .pand pd pa pb => Sys2Proof.Machine.execPand pd pa pb s
  | .por pd pa pb => Sys2Proof.Machine.execPor pd pa pb s
  | .pxor pd pa pb => Sys2Proof.Machine.execPxor pd pa pb s
  | .pandn pd pa pb => Sys2Proof.Machine.execPandn pd pa pb s
  | .pnot pd pa => Sys2Proof.Machine.execPnot pd pa s
  | .psetl pd imm => Sys2Proof.Machine.execPsetl pd imm s
  | .pseth pd imm => Sys2Proof.Machine.execPseth pd imm s
  | .pget d pa => Sys2Proof.Machine.execPget d pa s
  | .pput pd a => Sys2Proof.Machine.execPput pd a s
  | .mloadw t f => Sys2Proof.Machine.execMloadw t f s
  | .mmul t f => Sys2Proof.Machine.execMmul t f s
  | .mgrad t f => Sys2Proof.Machine.execMgrad t f s
  | .mgdrain t f => Sys2Proof.Machine.execMgdrain t f s
  | .mres t f => Sys2Proof.Machine.execMres t f s
  | .slclaim t d n => Sys2Proof.Machine.execSlclaim t d n s
  | .slrel t n => Sys2Proof.Machine.execSlrel t n s
  | .lnest t f => Sys2Proof.Machine.execLnest t f s
  | .sortc t f => Sys2Proof.Machine.execSortc t f s
  | .xld t f => Sys2Proof.Machine.execXld t f s
  | .xst t f => Sys2Proof.Machine.execXst t f s
  | .resume t q => Sys2Proof.Machine.execResume t q s
  | .esave t q img => Sys2Proof.Machine.execEsave t q img s
  | .eload t q img => Sys2Proof.Machine.execEload t q img s
  | .cpy t f => Sys2Proof.Machine.execCpy t f s
  | .cpyc t f => Sys2Proof.Machine.execCpyc t f s
  | .ckpt t f => Sys2Proof.Machine.execCkpt t f s
  | .lrflush t r => Sys2Proof.Machine.execLrflush t r s
  | .xsend t f => Sys2Proof.Machine.execXsend t f s
  | .xrecv t f => Sys2Proof.Machine.execXrecv t f s
  | .dispatch t f => Sys2Proof.Machine.execDispatch t f s
  | .wlnext t d q => Sys2Proof.Machine.execWlnext t d q s
  | .wid t d => Sys2Proof.Machine.execWid t d s
  | .queueEntryStart core q => Sys2Proof.Machine.execQueueEntryStart core q s
  | .queueEntryComplete core q id => Sys2Proof.Machine.execQueueEntryComplete core q id s
  | .residencyLoadBegin core ld => Sys2Proof.Machine.execResidencyLoadBegin core ld s
  | .residencyLoadEnd core ld => Sys2Proof.Machine.execResidencyLoadEnd core ld s
  | .banisterCompare core id => Sys2Proof.Machine.execBanisterCompare core id s
  | .patrolScrub group => Sys2Proof.Machine.execPatrolScrub group s
  | .waitRelease uid status => Sys2Proof.Machine.execWaitRelease uid status s
  | .waittExpire uid => Sys2Proof.Machine.execWaittExpire uid s
  | .landComplete uid => Sys2Proof.Machine.execLandComplete uid s
  | .contextExit uid => Sys2Proof.Machine.execContextExit uid s
  | .gsyncRelease team => Sys2Proof.Machine.execGsyncRelease team s
  | .dispatchRelease team => Sys2Proof.Machine.execDispatchRelease team s
  | .dispatchClaimRetry team => Sys2Proof.Machine.execDispatchClaimRetry team s
  | .deferWindowEnd uid => Sys2Proof.Machine.execDeferWindowEnd uid s
  | .budgetExpire uid => Sys2Proof.Machine.execBudgetExpire uid s
  | .copyStart eng id => Sys2Proof.Machine.execCopyStart eng id s
  | .copyWordLand eng id j => Sys2Proof.Machine.execCopyWordLand eng id j s
  | .autoExtend ref => Sys2Proof.Machine.execAutoExtend ref s
  | .lapse ref => Sys2Proof.Machine.execLapse ref s
  | .graceEnd ref => Sys2Proof.Machine.execGraceEnd ref s
  | .subletEnd ref => Sys2Proof.Machine.execSubletEnd ref s
  | .scrubComplete ref => Sys2Proof.Machine.execScrubComplete ref s
  | .pageRetire vd page => Sys2Proof.Machine.execPageRetire vd page s
  | .sqTailWrite vd q val => Sys2Proof.Machine.execSqTailWrite vd q val s
  | .kick vd q => Sys2Proof.Machine.execKick vd q s
  | .kickScan vd q => Sys2Proof.Machine.execKickScan vd q s
  | .cqHeadWrite vd q val => Sys2Proof.Machine.execCqHeadWrite vd q val s
  | .completionWrite vd => Sys2Proof.Machine.execCompletionWrite vd s
  | .coalesceTimeout vd q => Sys2Proof.Machine.execCoalesceTimeout vd q s
  | .queueEnable vd q val => Sys2Proof.Machine.execQueueEnable vd q val s
  | .queueDrain vd q => Sys2Proof.Machine.execQueueDrain vd q s
  | .queueDrainDone vd q => Sys2Proof.Machine.execQueueDrainDone vd q s
  | .prHeadWrite vd val => Sys2Proof.Machine.execPrHeadWrite vd val s
  | .pageRelease vd page => Sys2Proof.Machine.execPageRelease vd page s
  | .pageClaim vd page => Sys2Proof.Machine.execPageClaim vd page s
  | .pageClaimGrant vd => Sys2Proof.Machine.execPageClaimGrant vd s
  | .hostCxlMemAccess vd addr write val => Sys2Proof.Machine.execHostCxlMemAccess vd addr write val s
  | .freezeComplete vd => Sys2Proof.Machine.execFreezeComplete vd s
  | .finalTransferReceive vd => Sys2Proof.Machine.execFinalTransferReceive vd s
  | .loadComplete vd => Sys2Proof.Machine.execLoadComplete vd s
  | .cxlPoisonReturn id j => Sys2Proof.Machine.execCxlPoisonReturn id j s
  | .cxlCompletionTimeout id j => Sys2Proof.Machine.execCxlCompletionTimeout id j s
  | .cxlLinkDown link => Sys2Proof.Machine.execCxlLinkDown link s
  | .nodePacketReceive vd addr seq val => Sys2Proof.Machine.execNodePacketReceive vd addr seq val s
  | .packetAckTimeout pkt => Sys2Proof.Machine.execPacketAckTimeout pkt s
  | .packetRefusedResend pkt => Sys2Proof.Machine.execPacketRefusedResend pkt s
  | .poolExtentAdd die base pages => Sys2Proof.Machine.execPoolExtentAdd die base pages s
  | .poolExtentRelease die base pages => Sys2Proof.Machine.execPoolExtentRelease die base pages s
  | .teamIssue team => Sys2Proof.Machine.execTeamIssue team s
  | .stageStart launch => Sys2Proof.Machine.execStageStart launch s
  | .stageComplete launch => Sys2Proof.Machine.execStageComplete launch s
  | .sliceEnd vd => Sys2Proof.Machine.execSliceEnd vd s
  | .regionBoundaryTimeout uid => Sys2Proof.Machine.execRegionBoundaryTimeout uid s
  | .contextSaveDone uid => Sys2Proof.Machine.execContextSaveDone uid s
  | .teamResume team => Sys2Proof.Machine.execTeamResume team s
  | .teamAged team => Sys2Proof.Machine.execTeamAged team s
  | .launchEnd launch => Sys2Proof.Machine.execLaunchEnd launch s
  | .knownAnswerTest core cls => Sys2Proof.Machine.execKnownAnswerTest core cls s
  | .breakpointMatch core => Sys2Proof.Machine.execBreakpointMatch core s
  | .countedLoadReturn uid ld => Sys2Proof.Machine.execCountedLoadReturn uid ld s
  | .codesyncComplete uid => Sys2Proof.Machine.execCodesyncComplete uid s
  | .storeBecomesVisible landing uid => Sys2Proof.Machine.execStoreBecomesVisible landing uid s
  | .storageError word pattern => Sys2Proof.Machine.execStorageError word pattern s
  | .transferCountedComplete vd => Sys2Proof.Machine.execTransferCountedComplete vd s
  | .scaleOutPortDown port => Sys2Proof.Machine.execScaleOutPortDown port s
  | .halt => Sys2Proof.Machine.execHalt s
  | .segFree => Sys2Proof.Machine.execSegFree s
  | .segTimed => Sys2Proof.Machine.execSegTimed s
  | .tret => Sys2Proof.Machine.execTret s
  | .ifence => Sys2Proof.Machine.execIfence s
  | .codesync => Sys2Proof.Machine.execCodesync s
  | .bkpt => Sys2Proof.Machine.execBkpt s
  | .rgclose => Sys2Proof.Machine.execRgclose s
  | .rgabort => Sys2Proof.Machine.execRgabort s
  | .createVd => Sys2Proof.Machine.execCreateVd s
  | .destroyVd => Sys2Proof.Machine.execDestroyVd s
  | .exportVd => Sys2Proof.Machine.execExportVd s
  | .roundVd => Sys2Proof.Machine.execRoundVd s
  | .freeze => Sys2Proof.Machine.execFreeze s
  | .finalVd => Sys2Proof.Machine.execFinalVd s
  | .importVd => Sys2Proof.Machine.execImportVd s
  | .activate => Sys2Proof.Machine.execActivate s
  | .thaw => Sys2Proof.Machine.execThaw s
  | .grent => Sys2Proof.Machine.execGrent s
  | .loadVd => Sys2Proof.Machine.execLoadVd s
  | .codereg => Sys2Proof.Machine.execCodereg s
  | .codefree => Sys2Proof.Machine.execCodefree s
  | .grelease => Sys2Proof.Machine.execGrelease s
  | .grenew => Sys2Proof.Machine.execGrenew s
  | .allowAdd => Sys2Proof.Machine.execAllowAdd s
  | .vdParamWrite => Sys2Proof.Machine.execVdParamWrite s
  | .registerWrite => Sys2Proof.Machine.execRegisterWrite s
  | .domainApply => Sys2Proof.Machine.execDomainApply s
  | .powerLimitWrite => Sys2Proof.Machine.execPowerLimitWrite s
  | .powerSample => Sys2Proof.Machine.execPowerSample s
  | .supplyCut => Sys2Proof.Machine.execSupplyCut s
  | .moduleReset => Sys2Proof.Machine.execModuleReset s
  | .getVersion => Sys2Proof.Machine.execGetVersion s
  | .getCapabilities => Sys2Proof.Machine.execGetCapabilities s
  | .negotiateAlgorithms => Sys2Proof.Machine.execNegotiateAlgorithms s
  | .getDigests => Sys2Proof.Machine.execGetDigests s
  | .getCertificate => Sys2Proof.Machine.execGetCertificate s
  | .challenge => Sys2Proof.Machine.execChallenge s
  | .getMeasurements => Sys2Proof.Machine.execGetMeasurements s
  | .scoreboardReevaluate => Sys2Proof.Machine.execScoreboardReevaluate s
  | .newelTakeover => Sys2Proof.Machine.execNewelTakeover s
  | .illegalEncoding => Sys2Proof.Machine.execIllegalEncoding s
  | .standbyNewelFailure => Sys2Proof.Machine.execStandbyNewelFailure s

end Sys2Proof.Machine
end

