-- ==== Sys2Proof/Machine/Fetch.lean ====
section
/-!
DEFINITION. Fetching an instruction (R178, R199, R222), and what an instruction waits for or reads before it executes: the
interlock of R234, the early-read checker on scalars (R113), pages in a switch (R93) and flagged words (R193).
-/
set_option linter.unusedVariables false
namespace Sys2Proof.Machine
open Sys2Proof

/-! ## Fetch -/

/-- What fetching at pc gives. -/
inductive Fetched
  | stall
  | trap (t : Trap) (s : State)
  | got (i : Instr) (s : State)

/-- An address leads to a page in its switch window (R93). -/
def pageSwitches (s : State) (c : Ctx) (a : Word) : Bool :=
  match translate s c (windowFor c a) a with
  | .ok p => inSwitch s p
  | .error _ => false

/-- The bytes of the 32-byte block a core fetches (R178): what it has fetched before or, where memory has changed since,
one of the two whole contents. -/
def fetchBlock (s : State) (core : Nat) (p : Place) : List Byte × State :=
  let key := locOf p.space p.off / 32 + (if p.host then 2 ^ 80 else 0)
  let cur := readNow s p 32
  let keep := fun (s : State) => modCore s core (fun k => { k with fetched := tset k.fetched key (cur, true) })
  match tget (coreOf s core).fetched key with
  | none => (cur, keep s)
  | some (old, _) =>
    if old = cur then (cur, s)
    else if Config.freeBit s.free then (cur, keep { s with free := s.free + 1 })
    else (old, { s with free := s.free + 1 })

/-- Fetches and decodes the instruction at a context's pc: the block is checked as an access that touches no buffer, then
alignment and checks 2 to 5 of R222. -/
def fetch (s : State) (c : Ctx) : Fetched :=
  let block := c.pc.toNat / 32 * 32
  let b := BitVec.ofNat 64 block
  if c.pc.toNat % 4 != 0 then .trap ⟨cILLEGAL, c.pc, 0, false⟩ s
  else if pageSwitches s c b then .stall
  else match check s c b 32 .none with
    | .error t => .trap { t with tval := c.pc } s
    | .ok p =>
      let (bs, s) := fetchBlock s c.core p
      let at_ := bs.drop (c.pc.toNat - block)
      match wordsOfBytes at_ with
      | [] => .trap ⟨cILLEGAL, c.pc, 0, false⟩ s
      | w0 :: _ =>
        if c.pc.toNat % alignOf w0 != 0 then .trap ⟨cILLEGAL, c.pc, 0, false⟩ s
        else match decodeBytes at_ with
          | .error _ => .got .illegalEncoding s
          | .ok i => .got i s

/-! ## Registers an instruction reads in the sequencer -/

/-- Scalar names a long twin reads. -/
def twinReads (op : TwinOp) (d a : Reg) : List Nat :=
  match op with
  | .bfi | .stN8 | .stN16 | .stN32 | .stN64 => [d.toNat, a.toNat]
  | .stg => [d.toNat]
  | .ldg | .j | .jl | .loopr | .trap | .mvs | .defer => []
  | _ => [a.toNat]

/-- Scalar names an instruction reads when the sequencer executes it, before the mapping of R209 (R314 for the operands
of engine commands). -/
def scalarReads (i : Instr) : List Nat :=
  let stamp := match timingOf i with
    | some t => if t.tmode = 3 then [t.stampReg.toNat] else []
    | none => []
  let own : List Nat := match i with
    | .add _ a b | .sub _ a b | .and _ a b | .or _ a b | .xor _ a b | .andn _ a b | .sll _ a b | .srl _ a b | .sra _ a b
    | .rol _ a b | .ror _ a b | .slt _ a b | .sltu _ a b | .seq _ a b | .min _ a b | .max _ a b | .minu _ a b
    | .maxu _ a b | .mul _ a b | .mulh _ a b | .mulhu _ a b | .div _ a b | .divu _ a b | .rem _ a b | .remu _ a b
    | .lea _ a b _ | .binit _ a b => [a.toNat, b.toNat]
    | .fshl _ a b k | .fshr _ a b k => [a.toNat, b.toNat, k.toNat]
    | .clz _ a | .ctz _ a | .popc _ a | .sptest _ a | .spcast _ _ a _ | .waitt a | .jr _ a | .rgopenContain a
    | .rgopenBoth a | .swait _ _ _ a | .waitb _ _ _ a | .arrive _ a | .arrdrop _ a | .bacqFill a | .bacqDrain a | .brel a
    | .bstat _ a | .unsublet _ _ a | .release _ _ a | .rquery _ _ a | .viewset _ a | .gset _ a | .addi _ a _ | .andi _ a _
    | .ori _ a _ | .xori _ a _ | .slli _ a _ | .srli _ a _ | .srai _ a _ | .slti _ a _ | .sltiu _ a _ | .bfx _ a _ _
    | .bfxs _ a _ _ | .ldN32 _ a _ | .ldI32 _ a _ | .ldN64 _ a _ | .ldN16 _ a _ | .ldI16 _ a _ | .ldN8 _ a _
    | .ldI8 _ a _ | .pref a _ | .br _ a _ | .msv _ a | .lda _ _ _ a _ | .pput _ a => [a.toNat]
    | .bdecl a b => a.toNat :: (List.range 4).map (fun j => b.toNat + j)
    | .rent _ _ _ a b | .renew _ _ a b | .prepay _ _ a b => [a.toNat, b.toNat]
    | .sublet _ _ a b => a.toNat :: (List.range 4).map (fun j => b.toNat + j)
    | .bfi d a _ _ | .stN8 d a _ | .stN16 d a _ | .stN32 d a _ | .stN64 d a _ | .strel _ _ d a _ => [d.toNat, a.toNat]
    | .stg d _ _ => [d.toNat]
    | .longTwin op d a _ => twinReads op d a
    | .amoAdd _ _ _ a b | .amoAnd _ _ _ a b | .amoOr _ _ _ a b | .amoXor _ _ _ a b | .amoMin _ _ _ a b
    | .amoMax _ _ _ a b | .amoSwap _ _ _ a b => [a.toNat, b.toNat]
    | .amoCas _ _ _ a b e => [a.toNat, b.toNat, e.toNat]
    | .sortc _ f => [f.rows.toNat]
    | .xld _ f | .xst _ f => [f.wreg.toNat]
    | .cpy _ f | .ckpt _ f => [f.dst.toNat, f.src.toNat, f.len.toNat, f.wreg.toNat]
    | .cpyc _ f => [f.dst.toNat, f.src.toNat, f.wreg.toNat]
    | .lrflush _ r => [r.toNat]
    | .xsend _ f | .xrecv _ f => [f.addr.toNat, f.len.toNat, f.wreg.toNat]
    | .dispatch _ f => [f.c.toNat]
    | i => match vform i with
      | some (major, func, v) =>
        let (_, oa, ob, oc) := shape major func v.mode.toNat
        (if oa = .sca then [v.a.toNat] else []) ++ (if ob = .sca then [v.b.toNat] else [])
          ++ (if oc = .sca then [v.c.toNat] else [])
      | none => []
  stamp ++ own

/-- Predicate names an instruction reads in the sequencer. -/
def predReads (i : Instr) : List Nat :=
  match i with
  | .pand _ pa pb | .por _ pa pb | .pxor _ pa pb | .pandn _ pa pb => [pa.toNat, pb.toNat]
  | .pnot _ pa | .pget _ pa => [pa.toNat]
  | .psetl pd _ | .pseth pd _ => [pd.toNat]
  | .mvs _ .stage => (List.range 32).map (fun j => 96 + j)
  | .longTwin .mvs _ _ n => if SysName.ofCode n.toNat = some .stage then (List.range 32).map (fun j => 96 + j) else []
  | _ => []

/-- The physical scalars an instruction reads; s0 waits for nothing. -/
def readsS (c : Ctx) (i : Instr) : List Nat := ((scalarReads i).map (rot c)).filter (fun p => p != 0)
/-- The physical predicates an instruction reads. -/
def readsP (c : Ctx) (i : Instr) : List Nat := ((predReads i).map (rotP c)).filter (fun p => p != 0)

/-- Names that delivered, unstarted commands of a context will write and that are interlocked: those of VGETL, WLNEXT and
WID (R285, R343). -/
def namesDue (s : State) (c : Ctx) : List RegName :=
  let all := cmdsOf s c ++ ((dieOf s (dieOfCore c.core)).sync.filter (fun m => m.uid == c.uid))
  (all.filter (fun m => m.start.isNone)).flatMap (fun m =>
    match m.ins with
    | .vgetl _ => [RegName.s (nth m.sample 2)]
    | .wlnext _ _ _ => m.names.map RegName.s ++ [RegName.p (nth m.sample 0)]
    | .wid _ _ => m.names.map RegName.s
    | _ => [])

/-- An instruction reads a name whose interlocked result has not been written (R234). -/
def interlocked (s : State) (c : Ctx) (i : Instr) : Bool :=
  let due := namesDue s c
  let late := fun (r : RegName) => due.contains r || c.busy.any (fun b => b.1 == r && tickOf s c < b.2)
  (readsS c i).any (fun n => late (.s n)) || (readsP c i).any (fun n => late (.p n))

/-- The register-store byte of a scalar an instruction reads that an engine command of the context has yet to write, with
the early-read checker on and no DEFER window open (R113, R234). -/
def scalarShadow (s : State) (c : Ctx) (i : Instr) : Option Nat :=
  if !checksShadow s c then none else (readsS c i).findSome? (fun n => bankShadow s c 0 (8 * n) 8 (tickOf s c))

/-! ## Results one tick on (R234, R285) -/

/-- The scalar and predicate names whose one-tick results an instruction writes. -/
def oneTick (i : Instr) : List RegName :=
  match i with
  | .add d _ _ | .sub d _ _ | .and d _ _ | .or d _ _ | .xor d _ _ | .andn d _ _ | .sll d _ _ | .srl d _ _ | .sra d _ _ | .rol d _ _
  | .ror d _ _ | .slt d _ _ | .sltu d _ _ | .seq d _ _ | .min d _ _ | .max d _ _ | .minu d _ _ | .maxu d _ _ | .lea d _ _ _
  | .fshl d _ _ _ | .fshr d _ _ _ | .clz d _ | .ctz d _ | .popc d _ | .sptest d _ | .addi d _ _ | .andi d _ _ | .ori d _ _
  | .xori d _ _ | .slli d _ _ | .srli d _ _ | .srai d _ _ | .slti d _ _ | .sltiu d _ _ | .bfx d _ _ _ | .bfxs d _ _ _
  | .bfi d _ _ _ | .pget d _ | .mvs d _ | .jr d _ => [.s d.toNat]
  | .spcast _ d _ p => [.s d.toNat, .p p.toNat]
  | .pand p _ _ | .por p _ _ | .pxor p _ _ | .pandn p _ _ | .pnot p _ | .psetl p _ | .pseth p _ | .pput p _ => [.p p.toNat]
  | .jl _ => [.s 1]
  | .loopr _ => [.p 96]
  | .longTwin op d _ _ =>
    (match op with
    | .addi | .andi | .ori | .xori | .slli | .srli | .srai | .slti | .sltiu | .bfx | .bfxs | .bfi | .mvs => [.s d.toNat]
    | .jl => [.s 1]
    | .loopr => [.p 96]
    | _ => [])
  | _ => []

/-- A pending write of an engine to the byte or predicate that a result of the sequencer performs on at the same tick leaves that result
standing: it writes the same (R285; log entry 8). -/
def outlastEv (c : Ctx) (t : Nat) (n : RegName) (e : Ev) : Ev :=
  if e.uid != c.uid || e.own = 0 || e.tick != t then e
  else match e.act, n with
    | .eff (.bank u off bs ps), .s d =>
      let p := 8 * rot c d
      if p = 0 || p + 8 ≤ off || off + bs.length ≤ p then e
      else { e with act := .eff (.bank u off ((List.range bs.length).map (fun i =>
        if p ≤ off + i && off + i < p + 8 then (bankRead c (off + i) 1).getD 0 0 else bs.getD i 0)) (ps.filter (fun x => off + x != p))) }
    | .eff (.pred u m mask val), .p d => if rotP c d = m then { e with act := .eff (.pred u m 0 val) } else e
    | _, _ => e

/-- The one-tick results of an instruction that has executed outlast what the engines write at their tick. -/
def outlast (i : Instr) (s : State) : State :=
  match s.cx with
  | none => s
  | some c => if c.wait = .run && !(oneTick i).isEmpty then
      { s with agenda := (oneTick i).foldl (fun l n => l.map (outlastEv c (tickOf s c + 1) n)) s.agenda } else s

/-! ## Memory the sequencer touches -/

/-- Address and bytes of an instruction's own memory access. -/
def memAccess (c : Ctx) (i : Instr) : Option (Word × Nat) :=
  let elem := fun (g n : Nat) => match streamElem c g n with
    | .ok (a, n, _) => some (a, n)
    | .error _ => none
  match i with
  | .ldN32 _ a x | .ldI32 _ a x | .stN32 _ a x => some (ea c a (sx12 x), 4)
  | .ldN64 _ a x | .stN64 _ a x => some (ea c a (sx12 x), 8)
  | .ldN16 _ a x | .ldI16 _ a x | .stN16 _ a x => some (ea c a (sx12 x), 2)
  | .ldN8 _ a x | .ldI8 _ a x | .stN8 _ a x => some (ea c a (sx12 x), 1)
  | .ldg _ g n | .stg _ g n => elem g.toNat n.toNat
  | .lda t _ _ a x | .strel t _ _ a x => some (ea c a (sx32 x), IntTyBytes t)
  | .amoAdd t _ _ a _ | .amoAnd t _ _ a _ | .amoOr t _ _ a _ | .amoXor t _ _ a _ | .amoMin t _ _ a _ | .amoMax t _ _ a _
  | .amoSwap t _ _ a _ | .amoCas t _ _ a _ _ => some (rdS c a.toNat, AmoTyBytes t)
  | .longTwin op d a x =>
    (match op with
    | .ldN32 | .ldI32 | .stN32 => some (ea c a (sx32 x), 4)
    | .ldN64 | .stN64 => some (ea c a (sx32 x), 8)
    | .ldN16 | .ldI16 | .stN16 => some (ea c a (sx32 x), 2)
    | .ldN8 | .ldI8 | .stN8 => some (ea c a (sx32 x), 1)
    | .ldg | .stg => elem a.toNat x.toNat
    | _ => none)
  | _ => none

/-- An instruction stores and reads nothing. -/
def storesOnly (i : Instr) : Bool :=
  match i with
  | .stN8 _ _ _ | .stN16 _ _ _ | .stN32 _ _ _ | .stN64 _ _ _ | .stg _ _ _ | .strel _ _ _ _ _ => true
  | .longTwin op _ _ _ => (match op with | .stN8 | .stN16 | .stN32 | .stN64 | .stg => true | _ => false)
  | _ => false

/-- What is ILLEGAL at decode by the state: MSV of a name that only a handler may write, a nest that form V would refuse (R222, R250,
R305). -/
def refusedHere (c : Ctx) (i : Instr) : Bool :=
  match i with
  | .msv n _ => !c.handler && handlerOnly n
  | .longTwin .msv _ _ n => !c.handler && (SysName.ofCode n.toNat).any handlerOnly
  | .lnest _ f => nestCvtBad f (gFormat (streamReg c f.sa.toNat))
  | _ => false

/-- The place that a load of the sequencer reads as it executes; what an engine reads comes later. -/
def loadPlace (s : State) (c : Ctx) (i : Instr) : Option (Place × Nat) :=
  let ordered := match i with | .lda _ _ _ _ _ => true | _ => false
  let load := match i with
    | .amoAdd _ _ _ _ _ | .amoAnd _ _ _ _ _ | .amoOr _ _ _ _ _ | .amoXor _ _ _ _ _ | .amoMin _ _ _ _ _ | .amoMax _ _ _ _ _
    | .amoSwap _ _ _ _ _ | .amoCas _ _ _ _ _ _ => false
    | i => !storesOnly i
  match (if load then memAccess c i else none) with
  | none => none
  | some (a, n) => match check s c a n .load with
    | .ok p => if p.host || p.win = 5 || (ordered && (p.win = 1 || p.win = 2)) then none else some (p, n)
    | .error _ => none

/-- Groups whose flagged words an instruction's reads meet, of its scalars and of memory, once the checks of R222 let it read (R193). -/
def flaggedWords (s : State) (c : Ctx) (i : Instr) : List Nat :=
  match checkBits c (declared c i) with
  | .error _ => []
  | .ok _ =>
    let regs := (readsS c i).flatMap (fun n => bankRange c (8 * n) 8)
    let mem := match loadPlace s c i with
      | none => []
      | some (p, n) => (locOf p.space p.off, n) :: (if prefetched s c p then [(2 ^ 110 + c.core * 2 ^ 90 + locOf p.space p.off, n)] else [])
    if refusedHere c i then [] else if (allErrors s).isEmpty then [] else flaggedReads s (regs ++ mem)

/-- The instruction's access meets a page in its switch (R93). -/
def accessStalls (s : State) (c : Ctx) (i : Instr) : Bool :=
  match memAccess c i with
  | some (a, _) => pageSwitches s c a
  | none => false

end Sys2Proof.Machine
end

