-- ==== Sys2Proof/Machine/Run.lean ====
section
/-!
DEFINITION. What a step does (R4, R16, R85, R95, R96, R105, R174; log entry 5): what is due at this tick in its order, what the
outside world does, what becomes possible, one instruction of one core, or else one clock pulse.
-/
set_option linter.unusedVariables false
namespace Sys2Proof.Machine
open Sys2Proof

/-! ## The agenda -/

/-- An entry of the agenda is due. -/
def Ev.due (s : State) (e : Ev) : Bool := e.tick ≤ (if e.die < 8 then now s e.die else s.clock.pulses)

/-- The order of entries within a phase: landed stores by physical core and context, copy landings by engine (R174); at the
synchronisation engines reads after the writes of their tick (R109, R348); a load ends before the next one begins (R130). -/
def Ev.rank (s : State) (e : Ev) : Nat :=
  match e.phase, e.act with
  | 4, _ => match unitOf s e.uid with
    | some c => c.core * 4 + c.slot
    | none => 0
  | 5, .ins (.copyWordLand eng _ _) => eng
  | 13, .ins (.residencyLoadBegin _ _) => 1
  | 12, .eff (.sync _ o) => match o.kind with | .load | .acqLoad | .swait | .waitb => 1 | _ => 0
  | _, _ => 0

/-- An entry comes before another one that was put on the agenda before it. -/
def Ev.before (s : State) (a b : Ev) : Bool := a.phase < b.phase || (a.phase == b.phase && a.rank s < b.rank s)

/-- The entry that performs next, among those due. -/
def nextDue (s : State) : Option Ev :=
  (s.agenda.filter (fun e => e.due s)).foldl (fun (m : Option Ev) e =>
    match m with
    | none => some e
    | some b => if e.before s b then some e else some b) none

/-- An entry performs. -/
def performEv (s : State) (e : Ev) : Out :=
  let s := { s with agenda := s.agenda.erase e }
  match e.act with
  | .ins i => exec i s
  | .eff f => .next (inheritOlder s e (performEff (arriveOlder s e f) e f))

/-! ## The outside world -/

/-- The first input whose pulse has come. -/
def nextInput (s : State) : Option Input := s.inputs.find? (fun x => x.pulse ≤ s.clock.pulses)

/-- An input arrives: the errors and the access it carries, then the event it is. With the supply cut only a module reset is seen. -/
def takeInput (s : State) (x : Input) : Out :=
  let s := { s with inputs := s.inputs.erase x, port := x.port }
  let s := x.strikes.foldl (fun s y => modCore s y.1 (fun k => { k with checksum := k.checksum ++ [y.2] })) s
  let s := x.slips.foldl (fun s y => modCore s y.1 (fun k => { k with diverge := k.diverge ++ [y.2] })) s
  if s.clock.supply || x.ins = .moduleReset then exec x.ins s else .next s

/-! ## What becomes possible -/

/-- What a step finds to do: an event of the opcode table, or a state it leads to. -/
inductive Move
  | ins (i : Instr)
  | put (s : State)

def Move.out (s : State) (m : Move) : Out :=
  match m with
  | .ins i => exec i s
  | .put s' => .next s'

/-- The next entry of a core's exchange queue is an XSEND, which starts after the XRECVs of its tick on every core have posted their
channels (R339). -/
def sendNext (s : State) (core : Nat) : Bool :=
  match queueNext s core 5 with
  | some (k, _) => (match k.ins with | .xsend _ _ => true | _ => false)
  | none => false

/-- A core's queues: an entry starts or misses its start (R105), a completion that a full FIFO held goes on (R104); XSENDs, with sends,
after all else. -/
def coreMove (s : State) (sends : Bool) (core : Nat) : Option Move :=
  match [2, 0, 1, 3, 5].find? (fun q => (queueNext s core q).isSome && (sends || q != 5 || !sendNext s core)) with
  | some q => some (.ins (.queueEntryStart core q))
  | none =>
    if (syncReady s core (now s (dieOfCore core))).isSome then some (.ins (.queueEntryStart core 6))
    else [2, 0, 1, 3, 5].findSome? (fun q => (heldCompletion s core q).map (fun id => .ins (.queueEntryComplete core q id)))

/-- A copy engine: the records of a compact copy are yet to be read (R335), a command starts or misses its start (R329). -/
def copyMove (s : State) (eng : Nat) : Option Move :=
  let unread := (engOf s eng).buffer.find? (fun k => (match k.ins with | .cpyc _ _ => k.sample.isEmpty | _ => false)
    && (issuer s eng k).isSome && !(s.agenda.any (fun e => e.act == .ins (.countedLoadReturn 0 k.id))))
  match unread with
  | some k => some (.put (schedRecords s eng k))
  | none => (copyNext s eng).map (fun x => match x with
    | (id, none) => .ins (.copyStart eng id)
    | (id, some why) => .put (copyMiss s eng id why))

/-- A context's wait is over, or a held interrupt reaches it (R95, R112, R116, R118, R253). -/
def unitMove (s : State) (c : Ctx) : Option Move :=
  let t := tickOf s c
  let later := match c.wait with
    | .land _ | .halt _ | .regionClose | .close | .monitor _ | .monitorBack _ _ => true
    | _ => false
  let stopped := match c.wait with
    | .done | .saved | .saving | .stopping | .debug | .frozen _ => true
    | _ => false
  let wake := some (Move.put (setUnit s { c with wait := .run, nextAt := t }))
  match (match c.wait with
    | .halt _ => if exitReady s c then some (.ins (.contextExit c.uid)) else none
    | .close => if quiet s c.uid then some (.put (handlerReady s c.uid)) else none
    | .monitor _ => if quiet s c.uid then some (.put (monitorQuiet s c.uid)) else none
    | .monitorBack r _ => if r ≤ t then some (.put (monitorReturn s c.uid)) else none
    | .queue q => if queueFull s c q then none else wake
    | .segment => if otherTimed s c then none else wake
    | .stopping =>
      if t < c.nextAt then none
      else if c.savedAt < c.nextAt then some (.put (enginesStop s c.uid))
      else if quiet s c.uid then some (.put (beginSave s c)) else none
    | _ => none : Option Move) with
  | some m => some m
  | none =>
    if c.heldIrq.isEmpty || stopped || irqHeld c t || (c.heldIrq.contains 3 && later) then none
    else some (.put (takeInterrupt s c.uid))

/-- A claimed page can be granted (R36). -/
def claimMove (s : State) : Option Move :=
  s.vds.findSome? (fun (v : Nat × VDev) => match v.2.claim with
    | some page => if claimReady s v.1 page then some (.ins (.pageClaimGrant v.1)) else none
    | none => none)

/-- fdb freezes the device of an attached launch that a fault, a breakpoint or BKPT has stopped (R252, R346). -/
def attachedMove (s : State) : Option Move :=
  s.launches.findSome? (fun (l : Nat × Launch) =>
    if ((l.2.attached && l.2.status.isSome) || s.units.any (fun u => u.2.launch == l.1 && u.2.wait == .debug)) && live (vdOf s l.2.vd) && !(vdOf s l.2.vd).busy then some (.put (fdbFreeze s l.2.vd))
    else none)

/-- A command of a virtual device that waits can end: a FREEZE whose contexts are all saved or over (R46), a DESTROY whose completions are
all written (R43). -/
def deviceMove (s : State) : Option Move :=
  s.vds.findSome? (fun (v : Nat × VDev) =>
    if !v.2.busy || takingOver s || s.newel.pair = 5 then none
    else if v.2.cmd = 2 && v.2.withheld.isEmpty then some (.put (finishDestroy s v.1))
    else if v.2.cmd = 5 && freezeDone s v.1 then some (.ins (.freezeComplete v.1))
    else none)

/-- The first thing that has become possible. -/
def nextMove (s : State) : Option Move :=
  match (s.cores.findSome? (fun (k : Nat × CoreSt) => coreMove s false k.1)).orElse
      (fun _ => s.cores.findSome? (fun (k : Nat × CoreSt) => coreMove s true k.1)) with
  | some m => some m
  | none => match s.engines.findSome? (fun (e : Nat × CopyEng) => copyMove s e.1) with
    | some m => some m
    | none => match s.units.findSome? (fun (u : Nat × Ctx) => unitMove s u.2) with
      | some m => some m
      | none => match claimMove s with
        | some m => some m
        | none => (attachedMove s).orElse (fun _ => deviceMove s)

/-! ## The sequencers (R95, R96) -/

/-- A context takes its place in the sequencer for one instruction: what it waited for and has is forgotten, and its segment
has a base from its first instruction on (R106). -/
def enter (s : State) (c : Ctx) : State :=
  let t := tickOf s c
  { s with cx := some { c with
      busy := c.busy.filter (fun b => t < b.2)
      segBase := match c.segBase with | some b => some b | none => some t } }

/-- The executing context goes back where contexts are kept; one whose team has ended is gone. -/
def leave (s : State) : State :=
  match s.cx with
  | none => s
  | some c => { s with cx := none, units := if (tget s.units c.uid).isSome then tset s.units c.uid c else s.units }

/-- Contexts of a core that are resident. -/
def residents (s : State) (core : Nat) : List Ctx :=
  (s.units.map Prod.snd).filter (fun u => u.core == core && u.wait != .done && u.wait != .saved)

/-- A context may issue while a timed segment is open on its core (R96). -/
def mayIssue (us : List Ctx) (c : Ctx) : Bool := us.all (fun u => !u.timed || u.uid == c.uid)

/-- A wait that keeps the sequencer: entry to a handler, the monitor's round trip, the test of a SWAIT or WAITB, which blocks only when
it finds its condition not met, its status on the way (R95, R348), and what R95 does not name as a block: HALT and CODESYNC, which
Table 12.1 has wait for their conditions, LAND and RGCLOSE. -/
def keepsSequencer (c : Ctx) : Bool :=
  match c.wait with
  | .run | .close | .monitor _ | .monitorBack _ _ | .test _ | .status _ | .halt _ | .codesync | .land _ | .regionClose => true
  | _ => false

/-- The context to which a core's sequencer turns when its holder has blocked: the next ready one in context order; one whose wait has
been released is ready, its status on the way (R95, R348). -/
def turnTo (us : List Ctx) (slot t : Nat) : Option Ctx :=
  let up := fun (u : Ctx) => match u.wait with | .run | .status _ => true | _ => false
  let ready := us.filter (fun u => up u && u.nextAt ≤ t && mayIssue us u)
  [1, 2, 3, 4].findSome? (fun d => ready.find? (fun u => u.slot == (slot + d) % 4))

/-- A context GSYNC released inside another's timed segment has its core's sequencer when that segment closes (R247). -/
def handOver (s : State) (core : Nat) : Option Ctx :=
  (coreOf s core).awaited.findSome? (fun u => match unitOf s u with
    | some c => if c.core = core && c.wait = .run && !otherTimed s c then some c else none
    | none => none)

/-- What a core's sequencer does at this tick: a context issues, or a switch begins. -/
inductive Issue
  | issue (c : Ctx)
  | switch (c : Ctx)
  | claim (c : Ctx)

def coreIssue (s : State) (core : Nat) : Option Issue :=
  let us := residents s core
  let t := now s (dieOfCore core)
  match handOver s core with
  | some c => some (.claim c)
  | none =>
  match (coreOf s core).holder with
  | none => (turnTo us 3 t).map Issue.claim
  | some h =>
    match us.find? (fun u => u.uid == h) with
    | some c =>
      if keepsSequencer c && mayIssue us c then
        (if c.wait = .run && c.nextAt ≤ t then some (.issue c) else none)
      else (turnTo us c.slot t).map (fun u => if u.uid = h then Issue.issue u else Issue.switch u)
    | none => (turnTo us (((unitOf s h).map Ctx.slot).getD 3) t).map Issue.switch

/-- The first core whose sequencer has something to do. -/
def nextIssue (s : State) : Option (Nat × Issue) :=
  s.cores.findSome? (fun (k : Nat × CoreSt) => (coreIssue s k.1).map (fun x => (k.1, x)))

/-- The sequencer's holder waits until a tick. -/
def stall (s : State) (c : Ctx) (t : Nat) : State := setUnit s { c with nextAt := t }

/-- A transfer of control. -/
def isTransfer (i : Instr) : Bool :=
  match i with
  | .br _ _ _ | .j _ | .jl _ | .jr _ _ | .loopr _ | .longTwin .br _ _ _ | .longTwin .j _ _ _ | .longTwin .jl _ _ _
  | .longTwin .loopr _ _ _ => true
  | _ => false

/-- An instruction that found no room, or waits for an acquire, has not executed: a breakpoint passed stays passed. -/
def keepPast (old : Ctx) (i : Instr) (s : State) : State :=
  match s.cx with
  | none => s
  | some c =>
    let again := c.pc == old.pc && (match c.wait with | .queue _ => true | .run => !isTransfer i | _ => false)
    { s with cx := some { c with bpPast := again && old.bpPast } }

/-- The instruction executes for the context in place; at a comparison point the banister agrees first (R183, R184). -/
def executeAt (i : Instr) (c : Ctx) (s : State) : Out :=
  let bits := declared c i
  let checked := match checkBits c bits with | .ok _ => true | .error _ => false
  if !checked || refusedHere c i then exec i s
  else match scalarShadow s c i with
    | some b => .next (takeFault s c.uid ⟨cEARLY, BitVec.ofNat 64 b, 0, false⟩ c.pc)
    | none =>
      if !compared i then exec i s
      else match comparison s c.core (bits.headD 0) with
        | (none, s) => exec i s
        | (some cls, s) => .next (mismatch s c cls c.pc (fun s => takeFault s c.uid mismatchTrap c.pc))

/-- Runs f on an outcome's next state. -/
def mapNext (f : State → State) (o : Out) : Out :=
  match o with
  | .next s => .next (f s)
  | o => o

/-- A context issues: a breakpoint stops it first (R346); then its instruction is fetched, waits for what it reads, and
executes. -/
def issueInstr (s : State) (c : Ctx) : Out :=
  let t := tickOf s c
  if (coreOf s c.core).comparators.contains c.pc.toNat && !c.bpPast then
    mapNext leave (exec (.breakpointMatch c.core) (enter s c))
  else
    match fetch s c with
    | .stall => .next (stall s c (t + 1))
    | .trap e s => .next (leave (takeFault (enter s c) c.uid e c.pc))
    | .got i s =>
      if interlocked s c i || accessStalls s c i then .next (stall s c (t + 1))
      else match flaggedWords s c i with
        | g :: gs => .next (stall ((g :: gs).foldl (fun s g => recoverGroup s false g) s) c (t + 72))
        | [] =>
          let s := enter s c
          match s.cx with
          | some c' => mapNext (fun s => leave (keepPast c' i (outlast i s))) (executeAt i c' s)
          | none => .next s

/-- A core's sequencer does what it has found: a switch takes 16 ticks (R95). -/
def runIssue (s : State) (core : Nat) (x : Issue) : Out :=
  let hold := fun (c : Ctx) => modCore s core (fun k => { k with holder := some c.uid, awaited := k.awaited.filter (fun u => u != c.uid) })
  match x with
  | .issue c => issueInstr s c
  | .claim c => .next (hold c)
  | .switch c => .next (stall (hold c) c (now s (dieOfCore core) + 16))

/-! ## The clock (R4, R16) -/

/-- A domain swallows the coming pulse: as many pulses of each aligned window of 64 as its ratio says, in a pattern the
device leaves open (log entry 6). d is the domain's lowest die. -/
def swallows (s : State) (d : Nat) : Bool :=
  let p := s.clock.pulses
  let remaining := nth s.clock.ratios d - nth s.clock.window d
  0 < remaining && (64 - p % 64 ≤ remaining || Config.swallowKey (p * 8 + d) % 2 == 1)

/-- One pulse of the arithmetic clock: each die's tick advances unless its domain swallows it, from the release of the cores
on (R14); counters are 64 bits wide, and swallowed pulses are counted at a domain's lowest die (R4, R17). -/
def pulse (s : State) : State :=
  let k := s.clock
  let p := k.pulses + 1
  if !s.boot.done || !k.supply then { s with clock := { k with pulses := p } }
  else
    let gone := (List.range 8).map (fun d => swallows s (domLow k.dom d))
    let add := fun (l : List Nat) (want : Bool) (m : Nat) =>
      ((List.range 8).zip gone).map (fun x => (nth l x.1 + (if x.2 == want then 1 else 0)) % m)
    let low := fun (l : List Nat) => (List.range 8).map (fun d => if domLow k.dom d = d then nth l d else 0)
    { s with clock := { k with
        pulses := p, ticks := add k.ticks false (2 ^ 64), swallowed := low (add k.swallowed true (2 ^ 64))
        window := if p % 64 = 0 then List.replicate 8 0 else add k.window true 65 } }

/-! ## The step -/

/-- One step of the module. -/
def runStep (s₀ : State) : Out :=
  let s := leave s₀
  if !s.clock.supply then
    match nextInput s with
    | some x => takeInput s x
    | none => if s.inputs.isEmpty then .fault .noSupply else .next (pulse s)
  else match nextDue s with
    | some e => performEv s e
    | none => match nextInput s with
      | some x => takeInput s x
      | none => match nextMove s with
        | some m => m.out s
        | none => match nextIssue s with
          | some (core, x) => runIssue s core x
          | none => .next (pulse s)

end Sys2Proof.Machine
end

