-- ==== Sys2Proof/Machine/Step.lean ====
section
/-!
DEFINITION. The step of the module, and the placing of one instruction where it is fetched next.
-/
namespace Sys2Proof.Machine
open Sys2Proof

/-- One step. -/
def step (s : State) : Host.Outcome State Fault Refusal := runStep s

/-- The rent entry of the page of code, and its address in the virtual device's global window. -/
def codeRef : Nat := refOf 0 2 0
def codeAddr : Nat := 0x10000

/-- The page of code: one tier-2 page that virtual device 1 has paid for. -/
def codeRent : Rent :=
  { (default : Rent) with
    space := 1, owner := 0x10000, state := 1, tier := 2, share := 2, size := 1, paid := never, item := 1, addr := codeAddr }

/-- The unit that runs it: on core 0, in bank 0, with every capability declared and none fenced. -/
def codeUnit : Ctx :=
  { Ctx.reset with
    uid := 1, vd := 1, launch := 1, team := 1, teamSize := 1, principal := 1, pc := BitVec.ofNat 64 codeAddr
    entry := BitVec.ofNat 64 codeAddr, useMask := 0xFFFFFF, capMask := 0xFFFFFF, priv := refOf 0 2 1, wait := .run }

/-- The instruction whose table bits are w, as its words and zeros up to the longest instruction, in the little-endian order
of R198. -/
def codeBytes (nbits w : Nat) : List Byte :=
  let bs := bytesOfWords (tableWords nbits w)
  bs ++ List.replicate (32 - bs.length) 0

/-- The module after boot with a launch of one unit issued, whose entry point holds the instruction, and with nothing due
before it: what the host, the newel and the scoreboard do to bring a program to run stands in it (log entry 11). -/
def State.withFetchWord (s : State) (nbits w : Nat) : State :=
  { s with
    clock := { s.clock with supply := true }
    boot := { s.boot with done := true }
    cx := none
    units := [(1, codeUnit)]
    cores := [(0, { CoreSt.reset with holder := some 1 })]
    engines := []
    rents := [(codeRef, codeRent)]
    mem := s.mem.writeRun (locOf 1 0) (codeBytes nbits w)
    teams := [(1, { (default : Team) with launch := 1, units := [1], size := 1, state := 1 })]
    launches := [(1, { (default : Launch) with vd := 1, stage := 1, unitsLeft := 1, issued := true })]
    vds := [(1, { VDev.reset with state := 2, maps := [⟨codeAddr, 1, codeRef, false, 0, false⟩] })]
    agenda := []
    inputs := []
    nextId := 2
    nextSpace := 2 }

end Sys2Proof.Machine
end

