-- ==== Sys2Proof/Machine/Window.lean ====
section
/-!
DEFINITION. What the host reads (R3, R7, R17, R19, R25 to R29, R34, R38, R68, R76, R129, R186, R187, R333, R346): the management
window, the queue window and the kick bitmap, as 64-bit words of one state. A read disturbs nothing, so it is no event. Bits and
offsets that no map names read zero; where the spec names a word and gives it no offset, its offset is log entry 84's.
-/
set_option linter.unusedVariables false
namespace Sys2Proof.Machine
open Sys2Proof

/-- Fields of a word, each a value and its lowest bit. -/
def packed (fs : List (Nat × Nat)) : Nat := (fs.map (fun f => f.1 * 2 ^ f.2)).foldl (· + ·) 0

/-- A flag as a field. -/
def flagNum (b : Bool) : Nat := if b then 1 else 0

/-- Eight bytes of a list, from an offset. -/
def wordOfBytes (bs : List Byte) (o : Nat) : Nat := natOfBytes ((bs.drop o).take 8)

/-! ## Boot, domains, power, links (Tables 1.4, 1.8, 1.9) -/

/-- Boot status, then (log entry 84) measurement register k at 0x100 + 64k and the fused security versions at 0x400. -/
def bootWord (s : State) (o : Nat) : Nat :=
  if o = 0 then packed [(s.boot.failImage, 8), (s.boot.failCheck, 4), (s.newel.active, 1), (flagNum s.boot.done, 0)]
  else if 0x100 ≤ o && o < 0x300 then
    (if o % 64 < 48 then wordOfBytes (bytesOfNat 48 (s.boot.measures.getD ((o - 0x100) / 64) 0).toNat) (o % 64) else 0)
  else if 0x400 ≤ o && o < 0x418 then nth s.boot.fuses ((o - 0x400) / 8)
  else 0

/-- Domain configuration, and the tick counter of each die at 0x100. -/
def domainWord (s : State) (o : Nat) : Nat :=
  if o = 0 then packed [((s.clock.domStart ||| 1).toNat, 24),
    (((List.range 8).filter (dieBusy s)).foldl (fun n d => n + 2 ^ d) 0, 16), (nth s.clock.ratios 0, 8)]
  else if 0x100 ≤ o && o < 0x140 then now s ((o - 0x100) / 8)
  else 0

/-- Power registers; the words of a die that is not the lowest of its domain read zero (R17). -/
def powerWord (s : State) (o : Nat) : Nat :=
  let low := fun (d v : Nat) => if domLow s.clock.dom d = d then v else 0
  if o = 0 then s.clock.powerLimit.toNat
  else if o = 0x008 then s.clock.powerNow.toNat
  else if o = 0x010 then flagNum s.clock.alarm
  else if 0x040 ≤ o && o < 0x080 then low ((o - 0x040) / 8) (nth s.clock.ratios ((o - 0x040) / 8))
  else if 0x100 ≤ o && o < 0x140 then low ((o - 0x100) / 8) (nth s.clock.swallowed ((o - 0x100) / 8))
  else 0

/-- Links in the order host, 16 CXL, 16 scale-out: status at 16k, bit 0 up and bit 1 IDE, and the error counter after it (log
entry 84). -/
def linkWord (s : State) (o : Nat) : Nat :=
  let k := o / 16
  let l := s.links
  let up := if k = 0 then l.hostUp else if k < 17 then l.cxlUp.getD (k - 1) false else l.ethUp.getD (k - 17) false
  let ide := if 9 ≤ k && k < 17 then l.ide.getD (k - 9) false else false
  if 33 ≤ k then 0
  else if o % 16 = 0 then packed [(flagNum ide, 1), (flagNum up, 0)]
  else (tget l.errors (if k = 0 then 32 else k - 1)).getD 0

/-! ## The journal's mirror (R68, Tables 3.9, 3.10) -/

/-- The control words, then the ring. -/
def journalWord (s : State) (o : Nat) : Nat :=
  let n := s.newel
  if o = 0 then packed [(n.takeovers, 8), (flagNum n.standbyOk, 3), (n.pair, 0)]
  else if o = 0x08 then n.commitSeq
  else if o = 0x10 then n.appliedSeq
  else if o = 0x18 then n.oldestSeq
  else if o < 0x40 then 0
  else natOfBytes (n.sram.readRun (o - 0x40) 8)

/-! ## Queues and devices (Tables 2.2 to 2.4, 2.6 to 2.9) -/

/-- A queue's registers. -/
def queueWord (v : VDev) (q o : Nat) : Nat :=
  let r := queueReg v q
  match o with
  | 0x000 => r.sqTail.toNat
  | 0x008 => r.sqHead.toNat
  | 0x010 => r.cqHead.toNat
  | 0x018 => r.cqTail.toNat
  | 0x020 => packed [(r.vector.toNat, 16), (r.coalesce.toNat, 8), (flagNum r.irqEn, 2), (flagNum r.drain, 1), (flagNum r.enable, 0)]
  | 0x028 => packed [(r.badSeq.toNat, 8), (r.code.toNat, 3), (flagNum r.error, 0)]
  | _ => 0

/-- An entry of the page-request ring. -/
def requestBytes (e : Nat × Nat × Nat) : List Byte := bytesOfNat 8 (e.1 * 65536) ++ bytesOfNat 4 e.2.1 ++ bytesOfNat 2 e.2.2 ++ bytesOfNat 2 0

/-- The page-request registers and ring of queue 0. page_release and page_claim, RW in Table 2.6, read as last written (R7, R37; log
entry 132). -/
def requestWord (v : VDev) (o : Nat) : Nat :=
  if o = 0x800 then v.prHead.toNat
  else if o = 0x808 then v.prTail.toNat
  else if o = 0x810 then v.released.toNat
  else if o = 0x818 then v.claimed.toNat
  else if o = 0x820 then v.prStatus.toNat
  else if 0xC00 ≤ o && o < 0x1000 then
    (match tget v.prRing ((o - 0xC00) / 16) with | some e => wordOfBytes (requestBytes e) (o % 16) | none => 0)
  else 0

/-- BAR 2 of the physical function (R26, Table 2.1): registers by name, rings as they stand in the window. -/
def barTwoWord (s : State) (x : Nat) : Nat :=
  let v := vdOf s (x / 0x100000)
  let q := x % 0x100000 / 0x4000
  let o := x % 0x4000
  if 0x4000000 ≤ x then 0
  else if o < 0x1000 then (if o < 0x30 then queueWord v q o else if q = 0 then requestWord v o else 0)
  else natOfBytes (s.window.readRun x 8)

/-- BAR 4 of the physical function (R29): word v holds the kick bits of virtual device v. -/
def barFourWord (s : State) (o : Nat) : Nat :=
  if 512 ≤ o then 0 else ((List.range 64).filter (fun q => s.kicks.contains (o / 8 * 64 + q))).foldl (fun n q => n + 2 ^ q) 0

/-- BAR 2 and BAR 4 of a virtual function: its own 64 queues and its own 64 kick bits (R19); nothing where it is not enabled. -/
def guestTwoWord (s : State) (vd x : Nat) : Nat := if (vdOf s vd).state = 0 || 0x100000 ≤ x then 0 else barTwoWord s (vd * 0x100000 + x)
def guestFourWord (s : State) (vd o : Nat) : Nat := if (vdOf s vd).state = 0 || o != 0 then 0 else barFourWord s (vd * 8)

/-- A control block (Tables 2.8, 2.9). -/
def blockWord (s : State) (vd o : Nat) : Nat :=
  let v := vdOf s vd
  match o with
  | 0x000 => packed [(v.node.toNat, 32), (v.result, 24), (v.state, 12), (flagNum v.tracking, 11), (flagNum v.busy, 8), (v.cmd, 0)]
  | 0x008 => v.allowance
  | 0x018 => v.sliceLog2
  | 0x020 => v.priorityMax
  | 0x028 => v.maxInflight
  | 0x030 => v.coreQuota
  | 0x038 => v.dirtyCount
  | 0x040 => v.freezeTick
  | 0x048 => v.droppedWrites
  | 0x050 => (v.delta % (2 ^ 64 : Nat)).toNat
  | 0x200 => v.arg0.toNat
  | 0x208 => v.arg1.toNat
  | 0x210 => v.arg2.toNat
  | 0x218 => v.res0.toNat
  | 0x220 => v.res1.toNat
  | _ => if 0x100 ≤ o && o < 0x200 then (tget v.floors ((o - 0x100) / 8)).getD 0 else 0

/-- The queue-state region: the kick bitmap, heads and tails of queue q of device v at 0x20000 + (64v + q) × 32 in the order of
Table 2.2 (log entry 84), and the control blocks from 0x80000 (R38). -/
def stateWord (s : State) (o : Nat) : Nat :=
  if 0x80000 ≤ o && o < 0xC0000 then blockWord s ((o - 0x80000) / 0x1000) (o % 0x1000)
  else if 0x20000 ≤ o && o < 0x40000 then queueWord (vdOf s ((o - 0x20000) / 0x800)) ((o - 0x20000) / 32 % 64) (o % 32)
  else barFourWord s o

/-! ## Rent tables (Tables 4.3 to 4.5) -/

/-- An entry as the table shows it. -/
def entryBits (r : Rent) : Nat :=
  if r.state = 0 then packed [(r.gen, 112)]
  else packed [(r.escrow, 192), (r.paid, 128), (r.gen, 112), (r.owner, 90), (r.state, 86), (r.tier, 83), (r.share, 81),
    (if r.sub then r.parent else 0, 64), (r.size, 39), (flagNum r.sub, 38), (r.base, 0)]

/-- Pool status of a die (Table 4.5): free, reclaimed, marked lines and GRACE granules by tier; then PAID granules by tier and
device. -/
def poolWord (s : State) (die o : Nat) : Nat :=
  let held := fun (tier st : Nat) => sizeOf' ((poolRegions s tier die).filter (fun e => e.2.state == st))
  if o < 0x80 then
    let tier := o / 0x20 + 1
    match o % 0x20 / 8 with
    | 0 => capacity s tier die - sizeOf' (poolRegions s tier die)
    | 1 => held tier 3
    | 2 => markedLines s tier die
    | _ => held tier 2
  else if o < 0x880 then paidUse s ((o - 0x80) / 8 % 64) ((o - 0x80) / 512 + 1) die
  else 0

/-- The rent tables: 0x60_0000 bytes a die, divided by table (Table 4.3). -/
def rentWord (s : State) (o : Nat) : Nat :=
  let die := o / 0x600000
  let x := o % 0x600000
  let show_ := fun (table y : Nat) => entryBits (rentOf s (refOf die table (y / 32))) / 2 ^ (y % 32 * 8) % 2 ^ 64
  if 8 ≤ die then 0
  else if x < 0x24000 then show_ 0 x
  else if x < 0x40000 then poolWord s die (x - 0x24000)
  else if x < 0x440000 then show_ 1 (x - 0x40000)
  else if x < 0x540000 then show_ 2 (x - 0x440000)
  else show_ 3 (x - 0x540000)

/-! ## Residency, logs, cores (Tables 6.4, 9.2, 9.6, 15.11) -/

/-- A residency entry (Table 6.4). -/
def residencyWord (s : State) (o : Nat) : Nat :=
  let e := entryAt (coreOf s (o / 0x100)) (o % 0x100 / 8)
  packed [(e.expert, 48), (e.state, 46), (e.format, 40), (e.slot, 35), (e.ctx, 33), (flagNum e.q4, 32), (e.ready % 2 ^ 32, 0)]

/-- A ring of 32-byte records, held newest first, with its write count past it: record n stands in slot n mod its size. -/
def ringWord (rs : List (List Byte)) (count size o : Nat) : Nat :=
  if o = size * 32 then count
  else
    let slot := o / 32
    let age := (count + size - 1 - slot) % size
    if size * 32 < o || count ≤ age then 0 else wordOfBytes (rs.getD age []) (o % 32)

/-- Reliability log, fault log and truncation mirror (R186, R187, R333). -/
def logWord (s : State) (o : Nat) : Nat :=
  if o < 0x400000 then ringWord s.logs.rel s.logs.relCount 65536 o
  else if o < 0x800000 then ringWord s.logs.fault s.logs.faultCount 65536 (o - 0x400000)
  else ringWord s.logs.trunc s.logs.truncCount 131072 (o - 0x800000)

/-- A core's own 64 KiB (R3, R346; log entries 40 and 84): the number of comparators at 0 and whether a debugger is attached at 8; its
physical core, gallery and die numbers at 0x10; its capability mask at 0x18; the entries of its queues from 0x20; and for context
slot i, at 0x100 + 32i, the unit's logical core and virtual device, its pc, the length of its flight and its tick. -/
def coreWord (s : State) (o : Nat) : Nat :=
  let core := o / 0x10000
  let x := o % 0x10000
  let k := coreOf s core
  let here := (allUnits s).filter (fun u => u.core == core && u.wait != .done && u.wait != .saved)
  if x = 0 then k.comparators.length
  else if x = 8 then flagNum (here.any (fun u => (launchOf s u.launch).attached))
  else if x = 0x10 then packed [(dieOfCore core, 32), (galOfCore core % 16, 16), (core, 0)]
  else if x = 0x18 then k.capMask.toNat
  else if 0x20 ≤ x && x < 0x48 then (queueOf k ((x - 0x20) / 8)).length
  else if 0x100 ≤ x && x < 0x180 then
    (match here.find? (fun u => u.slot == (x - 0x100) / 32) with
      | some u => (match x % 32 / 8 with
          | 0 => packed [(u.vd, 16), (u.lcore, 0)]
          | 1 => u.pc.toNat
          | 2 => u.flight.length
          | _ => tickOf s u)
      | none => 0)
  else 0

/-! ## The window (R25, Table 1.7) -/

/-- The aligned 64-bit word of the management window that holds an offset. -/
def windowRead (s : State) (off : Nat) : Word :=
  let o := off / 8 * 8
  BitVec.ofNat 64 (
    if o < 0x1000 then bootWord s o
    else if o < 0x2000 then domainWord s (o - 0x1000)
    else if o < 0x3000 then powerWord s (o - 0x2000)
    else if 0x10000 ≤ o && o < 0x20000 then linkWord s (o - 0x10000)
    else if 0x100000 ≤ o && o < 0x200000 then journalWord s (o - 0x100000)
    else if 0x200000 ≤ o && o < 0x300000 then stateWord s (o - 0x200000)
    else if 0x1000000 ≤ o && o < 0x4000000 then rentWord s (o - 0x1000000)
    else if 0x4000000 ≤ o && o < 0x4040000 then residencyWord s (o - 0x4000000)
    else if 0x5000000 ≤ o && o < 0x6000000 then logWord s (o - 0x5000000)
    else if 0x8000000 ≤ o && o < 0xC000000 then coreWord s (o - 0x8000000)
    else 0)

/-- What the host reads of a function over a link that is up: the physical function's BARs by their numbers; a virtual function has
BAR 2 and BAR 4 only (R19, R25). When the pair has FAILED or boot has not ended only the window is presented (R22, R71). -/
def hostRead (s : State) (fn : Option Nat) (bar off : Nat) : Option Word :=
  let o := off / 8 * 8
  if !s.links.hostUp then none
  else match fn, bar with
    | none, 0 => some (windowRead s off)
    | none, 2 => if newelUp s then some (BitVec.ofNat 64 (barTwoWord s o)) else none
    | none, 4 => if newelUp s then some (BitVec.ofNat 64 (barFourWord s o)) else none
    | some vd, 2 => if newelUp s then some (BitVec.ofNat 64 (guestTwoWord s vd o)) else none
    | some vd, 4 => if newelUp s then some (BitVec.ofNat 64 (guestFourWord s vd o)) else none
    | _, _ => none

end Sys2Proof.Machine
end

