-- ==== Sys2Proof/Safety.lean ====
section
/-!
DEFINITION. What counts as a sound state and a safe run: memory in its canonical form everywhere, legal virtual-device states,
and no step that stops.
-/
namespace Sys2Proof.Machine
open Sys2Proof

/-- Every byte memory of the module, and every register store that a transfer on its way brings, is in canonical form. -/
def State.memOk (s : State) : Prop :=
  s.mem.wf = true ∧ s.hostMem.wf = true ∧ s.window.wf = true
    ∧ (∀ u ∈ s.units, u.2.bank.wf = true) ∧ (∀ c ∈ s.cx, c.bank.wf = true) ∧ (∀ k ∈ s.cores, k.2.alcove.wf = true)
    ∧ (∀ t ∈ s.incoming, ∀ u ∈ t.2.units, u.bank.wf = true)

/-- Every unit stands in the table under its own number. -/
def State.keyed (s : State) : Prop := ∀ u ∈ s.units, u.2.uid = u.1

/-- What every step keeps: canonical memories, and units under their own numbers. -/
def State.sound (s : State) : Prop := s.memOk ∧ s.keyed

/-- Virtual devices are in one of the states of Table 2.9. -/
def State.vdsOk (s : State) : Prop := ∀ v ∈ s.vds, v.2.state ≤ 4

/-- Each domain's ratio is at most 48/64 (R16). -/
def State.ratiosOk (s : State) : Prop := ∀ r ∈ s.clock.ratios, r ≤ 48

/-- A step answers a next state. -/
def goesOn (s : State) : Prop := ∃ t, step s = .next t

/-- Every one of the first n steps from a state answers a next state. -/
def safeRun : Nat → State → Prop
  | 0, _ => True
  | n + 1, s => ∃ t, step s = .next t ∧ safeRun n t

end Sys2Proof.Machine
end

