-- ==== Sys2Proof/Certificates/Slice0/Obligations.lean ====
section
/-!
DEFINITION. The statements about the model, for the provers: each is a proposition named Obligations.<Name>, over every state
and every operand that meet its hypotheses. The functions before them say in the spec's terms what results are.
-/
set_option linter.unusedVariables false
namespace Sys2Proof.Stated
open Sys2Proof Sys2Proof.Machine

/-! ## Shared terms -/

/-- Context c executes in s, and it has declared every capability bit the instruction needs, none of which is fenced
(checks 6 and 7 of R222). -/
def Runs (s : State) (c : Ctx) (bits : List Nat) : Prop :=
  s.cx = some c ∧ ∀ b ∈ bits, c.useMask.getLsbD b = true ∧ c.capMask.getLsbD b = true

/-- The instruction is complete: the context, changed as P says, goes on len bytes further after ticks ticks, and everything
outside the context is as it was. -/
def Continues (i : Instr) (s : State) (c : Ctx) (len ticks : Nat) (P : Ctx → Prop) : Prop :=
  ∃ c', P c' ∧ exec i s = .next { s with cx := some { c' with
    pc := c.pc + BitVec.ofNat 64 len, nextAt := tickOf s c + ticks } }

/-- Scalar n of c' holds v (a write to s0 is discarded), every other byte of the register store is as it was, so are the
poison and the errors of every other word, and nothing else of the context differs (R99, R191, R209, R234). -/
def WroteScalar (c : Ctx) (n : Nat) (v : Word) (c' : Ctx) : Prop :=
  (rot c n ≠ 0 → rdS c' n = v)
  ∧ (∀ off, (rot c n = 0 ∨ off < 8 * rot c n ∨ 8 * rot c n + 8 ≤ off) → c'.bank.read off = c.bank.read off)
  ∧ (∀ w, (rot c n = 0 ∨ w ≠ 8 * rot c n) → (w ∈ c'.bankPoison ↔ w ∈ c.bankPoison))
  ∧ (∀ u : Nat × Nat, (rot c n = 0 ∨ u.1 + 8 ≤ 8 * rot c n ∨ 8 * rot c n + 8 ≤ u.1) → (u ∈ c'.upsets ↔ u ∈ c.upsets))
  ∧ c' = { c with bank := c'.bank, bankPoison := c'.bankPoison, upsets := c'.upsets }

/-- Predicate n of c' holds v (a write to p0 is discarded), every other predicate is as it was, and nothing else of the
context differs (R208, R234). -/
def WrotePred (c : Ctx) (n : Nat) (v : Word) (c' : Ctx) : Prop :=
  (rotP c n ≠ 0 → rdP c' n = v)
  ∧ (∀ p, (p ≠ rotP c n ∨ p = 0) → rdPhysP c' p = rdPhysP c p)
  ∧ c' = { c with preds := c'.preds }

/-! ## Scalar results in integers (Tables 12.2 and 12.3, R236 to R242) -/

def word (n : Nat) : Word := BitVec.ofNat 64 n
def wordI (i : Int) : Word := BitVec.ofInt 64 i
def truth (p : Bool) : Word := if p then 1 else 0

/-- Bit i of the result of a rotation to the left by n. -/
def rotated (x : Word) (n : Nat) : Word := word (x.toNat * 2 ^ (n % 64) % 2 ^ 64 + x.toNat / 2 ^ (64 - n % 64))

/-- The bits before the first set one, from the top. -/
def zerosAbove (x : Word) : Nat := ((List.range 64).takeWhile (fun i => !x.getLsbD (63 - i))).length
/-- The bits before the first set one, from the bottom. -/
def zerosBelow (x : Word) : Nat := ((List.range 64).takeWhile (fun i => !x.getLsbD i)).length
def bitsSet (x : Word) : Nat := (List.range 64).countP (fun i => x.getLsbD i)

/-- The functions of major 0x01 (Table 12.2), by their number. -/
def integerOp (f : Nat) (x y : Word) : Word :=
  let n := y.toNat % 64
  match f with
  | 0x00 => word (x.toNat + y.toNat)
  | 0x01 => wordI (x.toInt - y.toInt)
  | 0x02 => x &&& y
  | 0x03 => x ||| y
  | 0x04 => x ^^^ y
  | 0x05 => x &&& ~~~y
  | 0x06 => word (x.toNat * 2 ^ n)
  | 0x07 => word (x.toNat / 2 ^ n)
  | 0x08 => wordI (x.toInt / (2 ^ n : Nat))
  | 0x09 => rotated x n
  | 0x0A => rotated x (64 - n)
  | 0x0B => truth (decide (x.toInt < y.toInt))
  | 0x0C => truth (decide (x.toNat < y.toNat))
  | 0x0D => truth (decide (x = y))
  | 0x0E => wordI (min x.toInt y.toInt)
  | 0x0F => wordI (max x.toInt y.toInt)
  | 0x10 => word (min x.toNat y.toNat)
  | 0x11 => word (max x.toNat y.toNat)
  | 0x12 => word (zerosAbove x)
  | 0x13 => word (zerosBelow x)
  | _ => word (bitsSet x)

/-- The field of R238. -/
def fieldOf (x : Word) (pos len : Nat) : Nat := x.toNat / 2 ^ pos % 2 ^ len
def fieldSigned (x : Word) (pos len : Nat) : Int :=
  (fieldOf x pos len : Int) - (if fieldOf x pos len / 2 ^ (len - 1) = 1 then (2 ^ len : Nat) else 0)
/-- d with its field replaced by the low bits of x. -/
def fieldInto (d x : Word) (pos len : Nat) : Word :=
  word ((d.toNat / 2 ^ (pos + len)) * 2 ^ (pos + len) + x.toNat % 2 ^ len * 2 ^ pos + d.toNat % 2 ^ pos)

/-- The high half of the double word x:y moved left by n. -/
def funnelLeft (x y : Word) (n : Nat) : Word := word ((x.toNat * 2 ^ 64 + y.toNat) * 2 ^ n / 2 ^ 64)
/-- The low half of the double word x:y moved right by n. -/
def funnelRight (x y : Word) (n : Nat) : Word := word ((x.toNat * 2 ^ 64 + y.toNat) / 2 ^ n)

/-- The window code of an address for logical core l (R161, Table 8.2). -/
def codeOfAddress (l : Nat) (a : Word) : Nat :=
  let v := a.toNat % 2 ^ 60
  let core := v / 2 ^ 48
  let off := v % 2 ^ 48
  match a.toNat / 2 ^ 60 with
  | 0x0 => if v < 2 ^ 57 then 0 else 7
  | 0xC => if v < 2 ^ 32 then 1 else 7
  | 0xD => if core < 1024 ∧ off < 2 ^ 22 then (if core = l then 2 else 3) else 7
  | 0xE => if core < 8 ∧ off < 2 ^ 22 then 4 else 7
  | 0xF => if core < 8 ∧ off < 2 ^ 24 then 5 else 7
  | _ => 7

/-- A scalar result: the destination, the value, the bytes of the instruction and the bit it declares. -/
structure Result where
  d : Nat
  v : Word
  len : Nat
  bit : Nat

/-- imm sign-extended to 64 bits. -/
def imm12 (i : BitVec 12) : Word := wordI i.toInt
def imm32 (i : BitVec 32) : Word := wordI i.toInt

/-- What the one-tick instructions with a scalar result write (R235, R236, R238 to R242). -/
def scalarResult (c : Ctx) (i : Instr) : Option Result :=
  let S := fun (r : Reg) => rdS c r.toNat
  let r := fun (f : Nat) (d : Reg) (x y : Word) => some (⟨d.toNat, integerOp f x y, 4, 0⟩ : Result)
  let t := fun (f : Nat) (d : Reg) (x y : Word) => some (⟨d.toNat, integerOp f x y, 8, 0⟩ : Result)
  match i with
  | .add d a b => r 0x00 d (S a) (S b)
  | .sub d a b => r 0x01 d (S a) (S b)
  | .and d a b => r 0x02 d (S a) (S b)
  | .or d a b => r 0x03 d (S a) (S b)
  | .xor d a b => r 0x04 d (S a) (S b)
  | .andn d a b => r 0x05 d (S a) (S b)
  | .sll d a b => r 0x06 d (S a) (S b)
  | .srl d a b => r 0x07 d (S a) (S b)
  | .sra d a b => r 0x08 d (S a) (S b)
  | .rol d a b => r 0x09 d (S a) (S b)
  | .ror d a b => r 0x0A d (S a) (S b)
  | .slt d a b => r 0x0B d (S a) (S b)
  | .sltu d a b => r 0x0C d (S a) (S b)
  | .seq d a b => r 0x0D d (S a) (S b)
  | .min d a b => r 0x0E d (S a) (S b)
  | .max d a b => r 0x0F d (S a) (S b)
  | .minu d a b => r 0x10 d (S a) (S b)
  | .maxu d a b => r 0x11 d (S a) (S b)
  | .clz d a => r 0x12 d (S a) 0
  | .ctz d a => r 0x13 d (S a) 0
  | .popc d a => r 0x14 d (S a) 0
  | .addi d a n => r 0x00 d (S a) (imm12 n)
  | .andi d a n => r 0x02 d (S a) (imm12 n)
  | .ori d a n => r 0x03 d (S a) (imm12 n)
  | .xori d a n => r 0x04 d (S a) (imm12 n)
  | .slli d a n => r 0x06 d (S a) (word n.toNat)
  | .srli d a n => r 0x07 d (S a) (word n.toNat)
  | .srai d a n => r 0x08 d (S a) (word n.toNat)
  | .slti d a n => r 0x0B d (S a) (imm12 n)
  | .sltiu d a n => r 0x0C d (S a) (imm12 n)
  | .longTwin op d a n =>
    match op with
    | .addi => t 0x00 d (S a) (imm32 n)
    | .andi => t 0x02 d (S a) (imm32 n)
    | .ori => t 0x03 d (S a) (imm32 n)
    | .xori => t 0x04 d (S a) (imm32 n)
    | .slli => if n.toNat < 64 then t 0x06 d (S a) (word n.toNat) else none
    | .srli => if n.toNat < 64 then t 0x07 d (S a) (word n.toNat) else none
    | .srai => if n.toNat < 64 then t 0x08 d (S a) (word n.toNat) else none
    | .slti => t 0x0B d (S a) (imm32 n)
    | .sltiu => t 0x0C d (S a) (imm32 n)
    | .bfx => if twinOk .bfx d a n then some ⟨d.toNat, word (fieldOf (S a) (n.toNat % 64) (n.toNat / 64 + 1)), 8, 6⟩ else none
    | .bfxs => if twinOk .bfxs d a n then some ⟨d.toNat, wordI (fieldSigned (S a) (n.toNat % 64) (n.toNat / 64 + 1)), 8, 6⟩ else none
    | .bfi => if twinOk .bfi d a n then some ⟨d.toNat, fieldInto (S d) (S a) (n.toNat % 64) (n.toNat / 64 + 1), 8, 6⟩ else none
    | _ => none
  | .bfx d a p l => if bfOk p.toNat l.toNat then some ⟨d.toNat, word (fieldOf (S a) p.toNat (l.toNat + 1)), 4, 6⟩ else none
  | .bfxs d a p l => if bfOk p.toNat l.toNat then some ⟨d.toNat, wordI (fieldSigned (S a) p.toNat (l.toNat + 1)), 4, 6⟩ else none
  | .bfi d a p l => if bfOk p.toNat l.toNat then some ⟨d.toNat, fieldInto (S d) (S a) p.toNat (l.toNat + 1), 4, 6⟩ else none
  | .fshl d a b k => some ⟨d.toNat, funnelLeft (S a) (S b) ((S k).toNat % 64), 4, 6⟩
  | .fshr d a b k => some ⟨d.toNat, funnelRight (S a) (S b) ((S k).toNat % 64), 4, 6⟩
  | .lea d a b n => some ⟨d.toNat, word ((S a).toNat + (S b).toNat * 2 ^ n.toNat), 4, 0⟩
  | .sptest d a => some ⟨d.toNat, word (codeOfAddress c.lcore (S a)), 4, 0⟩
  | .pget d p => some ⟨d.toNat, rdP c p.toNat, 8, 0⟩
  | _ => none

/-- What SPCAST writes (R164, R241): the converted address, where the conversion is possible. -/
def castTo (c : Ctx) (t : Window) (x : Word) : Option Word :=
  let k := codeOfAddress c.lcore x
  let off := x.toNat % 2 ^ 22
  let core := x.toNat / 2 ^ 48 % 1024
  let usable := match k with
    | 1 => decide (x.toNat % 2 ^ 32 < c.privPages * 65536)
    | 4 => decide (x.toNat / 2 ^ 48 % 8 < c.teamSize)
    | _ => true
  match t, k with
  | .global, 0 | .priv, 1 | .spad, 2 | .gallery, 4 | .sync, 5 => if usable then some x else none
  | .gallery, 2 | .gallery, 3 => if core < c.teamSize then some (word (0xE * 2 ^ 60 + core * 2 ^ 48 + off)) else none
  | .spad, 4 => if x.toNat / 2 ^ 48 % 8 = c.lcore then some (word (0xD * 2 ^ 60 + c.lcore * 2 ^ 48 + off)) else none
  | _, _ => none

/-- What the form P instructions write to a predicate (Table 12.5). -/
def predResult (c : Ctx) (i : Instr) : Option (Nat × Word) :=
  let P := fun (p : PReg) => rdP c p.toNat
  match i with
  | .pand d a b => some (d.toNat, P a &&& P b)
  | .por d a b => some (d.toNat, P a ||| P b)
  | .pxor d a b => some (d.toNat, P a ^^^ P b)
  | .pandn d a b => some (d.toNat, P a &&& ~~~(P b))
  | .pnot d a => some (d.toNat, ~~~(P a))
  | .psetl d n => some (d.toNat, word n.toNat)
  | .pseth d n => some (d.toNat, word (n.toNat * 2 ^ 32 + (P d).toNat % 2 ^ 32))
  | .pput d a => some (d.toNat, rdS c a.toNat)
  | _ => none

/-- What major 0x02 computes and the ticks it takes (R144, R237, Table 12.1). -/
def productResult (c : Ctx) (i : Instr) : Option (Nat × Word × Nat) :=
  let U := fun (r : Reg) => (rdS c r.toNat).toNat
  let I := fun (r : Reg) => (rdS c r.toNat).toInt
  match i with
  | .mul d a b => some (d.toNat, word (U a * U b), 3)
  | .mulh d a b => some (d.toNat, wordI (I a * I b / (2 ^ 64 : Nat)), 3)
  | .mulhu d a b => some (d.toNat, word (U a * U b / 2 ^ 64), 3)
  | .div d a b => some (d.toNat, if U b = 0 then word (2 ^ 64 - 1) else wordI ((I a).tdiv (I b)), 18)
  | .divu d a b => some (d.toNat, if U b = 0 then word (2 ^ 64 - 1) else word (U a / U b), 18)
  | .rem d a b => some (d.toNat, if U b = 0 then rdS c a.toNat else wordI ((I a).tmod (I b)), 18)
  | .remu d a b => some (d.toNat, if U b = 0 then rdS c a.toNat else word (U a % U b), 18)
  | _ => none

end Sys2Proof.Stated

section
open Sys2Proof Sys2Proof.Machine Sys2Proof.Stated

/-- R208, R235, R236, R238 to R242: every instruction of one tick with a scalar result writes it to its destination and goes on
at the next instruction one tick later; nothing else changes. s0 reads zero. -/
def Obligations.ScalarInstructionsWriteTheirResult : Prop :=
  (∀ (i : Instr) (s : State) (c : Ctx) (r : Result), scalarResult c i = some r → Runs s c [r.bit] →
    Continues i s c r.len 1 (WroteScalar c r.d r.v))
  ∧ ∀ c : Ctx, rdS c 0 = 0

/-- R242, Table 12.5: the form P instructions write their predicate, PGET its scalar, and nothing else; p0 reads all ones. The
rule's two encodings decode to their instructions. -/
def Obligations.PredicateInstructionsWriteTheirResult : Prop :=
  (∀ (i : Instr) (s : State) (c : Ctx) (d : Nat) (v : Word), predResult c i = some (d, v) → Runs s c [0] →
    Continues i s c 8 1 (WrotePred c d v))
  ∧ (∀ (d : Reg) (p : PReg) (s : State) (c : Ctx), Runs s c [0] →
    Continues (.pget d p) s c 8 1 (WroteScalar c d.toNat (rdP c p.toNat)))
  ∧ (∀ c : Ctx, rdP c 0 = word (2 ^ 64 - 1))
  ∧ decode [0x000305C2, 0xFFFFFFFF] = .ok (.psetl 96 0xFFFFFFFF) ∧ decode [0x002800C6, 5] = .ok (.pget 5 10)

/-- R164, R241: SPCAST writes the converted address and all ones, or zero and zero. That an address is converted into its own
window only where check 1 of R162 passes is log entry 45's. -/
def Obligations.SpcastConvertsOrWritesZero : Prop :=
  ∀ (t : Window) (d a p : Reg) (s : State) (c : Ctx), Runs s c [0] →
    Continues (.spcast t d a p) s c 4 1 (fun c' => ∃ c₁,
      WroteScalar c d.toNat ((castTo c t (rdS c a.toNat)).getD 0) c₁
      ∧ WrotePred c₁ p.toNat (if (castTo c t (rdS c a.toNat)).isSome then -1 else 0) c')

end

namespace Sys2Proof.Stated
open Sys2Proof Sys2Proof.Machine

/-! ## Control (R237, R243 to R257) -/

/-- A result that performs k ticks on: it is written to scalar n's bytes then, and reads of the name wait for it (R234); a
result for s0 is discarded. -/
def resultDue (s : State) (c : Ctx) (n k : Nat) (v : Word) : List Ev :=
  if rot c n = 0 then []
  else [⟨c.core / 128, tickOf s c + k, 11, c.uid, 0, .eff (.bank c.uid (8 * rot c n) (bytesOfNat 8 v.toNat) []), false⟩]
def awaiting (s : State) (c : Ctx) (n k : Nat) : List (RegName × Nat) :=
  if rot c n = 0 then c.busy
  else (RegName.s (rot c n), tickOf s c + k) :: c.busy.filter (fun b => b.1 != RegName.s (rot c n))

/-- A condition on a signed value (R225). -/
def meetsCond (k : Cond) (x : Word) : Prop :=
  match k with
  | .z => x.toInt = 0 | .nz => x.toInt ≠ 0 | .lt => x.toInt < 0 | .ge => 0 ≤ x.toInt | .le => x.toInt ≤ 0
  | .gt => 0 < x.toInt

/-- pc + 4 × offset. -/
def offsetFrom (pc : Word) (off : Int) : Word := wordI (pc.toInt + 4 * off)

/-- A transfer of control: where it goes, the ticks it holds the sequencer, and the scalar that takes pc + 4. -/
structure Jump where
  dest : Word
  ticks : Nat
  link : Option Nat

/-- Jumps that do not depend on a condition (R243). -/
def jumpOf (c : Ctx) (i : Instr) : Option Jump :=
  match i with
  | .j o => some ⟨offsetFrom c.pc o.toInt, 2, none⟩
  | .jl o => some ⟨offsetFrom c.pc o.toInt, 2, some 1⟩
  | .jr d a => some ⟨rdS c a.toNat, 3, some d.toNat⟩
  | .longTwin .j _ _ o => some ⟨offsetFrom c.pc o.toInt, 2, none⟩
  | .longTwin .jl _ _ o => some ⟨offsetFrom c.pc o.toInt, 2, some 1⟩
  | _ => none

/-- Conditional branches: the condition, the register, the target and the bytes of the instruction (R225, R243). -/
def branchOf (c : Ctx) (i : Instr) : Option (Cond × Reg × Word × Nat) :=
  match i with
  | .br k a o => some (k, a, offsetFrom c.pc o.toInt, 4)
  | .longTwin .br d a o => (Cond.ofCode d.toNat).map (fun k => (k, a, offsetFrom c.pc o.toInt, 8))
  | _ => none

/-- LOOPR's target and length. -/
def loopOf (c : Ctx) (i : Instr) : Option (Word × Nat) :=
  match i with
  | .loopr o => some (offsetFrom c.pc o.toInt, 4)
  | .longTwin .loopr _ _ o => some (offsetFrom c.pc o.toInt, 8)
  | _ => none

/-- What LOOPR leaves of lc, ec and rb, the value of p96 if it is written, and whether it goes back (R248). -/
def loopAfter (c : Ctx) : Ctx × Option Word × Bool :=
  let turned := { c with rb := BitVec.ofNat 5 (c.rb.toNat + 31) }
  if 0 < c.lc.toNat then ({ turned with lc := word (c.lc.toNat - 1) }, some (word (2 ^ 64 - 1)), true)
  else if 1 < c.ec.toNat then ({ turned with ec := BitVec.ofNat 6 (c.ec.toNat - 1) }, some 0, true)
  else if c.ec.toNat = 1 then ({ turned with ec := 0 }, some 0, false)
  else (c, none, false)

/-- MVS: the destination, the name and the length. -/
def readsName (i : Instr) : Option (Nat × SysName × Nat) :=
  match i with
  | .mvs d n => some (d.toNat, n, 4)
  | .longTwin .mvs d _ n => (SysName.ofCode n.toNat).map (fun x => (d.toNat, x, 8))
  | _ => none
/-- MSV: the name, the source and the length. -/
def writesName (i : Instr) : Option (SysName × Reg × Nat) :=
  match i with
  | .msv n a => if n.writable then some (n, a, 4) else none
  | .longTwin .msv _ a n =>
    match SysName.ofCode n.toNat with
    | some x => if x.writable then some (x, a, 8) else none
    | none => none
  | _ => none

/-- Bit 0 of each stage predicate, as the bits of a word (Table 12.8). -/
def stageBits (c : Ctx) : Nat := ((List.range 32).map (fun i => if (rdP c (96 + i)).getLsbD 0 then 2 ^ i else 0)).sum

/-- The value of a system name (Table 12.8): wid.f0 to wid.f5 are the fields of the WID by the launch's widths (R52, R53). -/
def nameValue (s : State) (c : Ctx) (n : SysName) : Word :=
  let f := fun (k : Nat) => word (c.wid.toNat / 2 ^ ((recOf s c).widths.drop (k + 1)).sum % 2 ^ ((recOf s c).widths.getD k 0))
  match n with
  | .tick => word (tickOf s c)
  | .lc => c.lc
  | .ec => word c.ec.toNat
  | .rb => word c.rb.toNat
  | .stage => word (stageBits c)
  | .aflags => word c.aflags.toNat
  | .wid0 => f 0 | .wid1 => f 1 | .wid2 => f 2 | .wid3 => f 3 | .wid4 => f 4 | .wid5 => f 5
  | .lcore => word c.lcore
  | .useMask => word c.useMask.toNat
  | .capMask => word c.capMask.toNat
  | .early => truth c.early
  | .rentAllow => word (vdOf s c.vd).allowance
  | .rentOwner => word (ownerOf c)
  | .epc => c.epc
  | .cause => word c.cause.toNat
  | .tval => c.tval
  | .tinfo => c.tinfo
  | .tvec => c.tvec

/-- The context after a write of a system name (R249, Table 12.8). -/
def nameWritten (c : Ctx) (n : SysName) (v : Word) (c' : Ctx) : Prop :=
  match n with
  | .lc => c' = { c with lc := v }
  | .ec => c' = { c with ec := BitVec.ofNat 6 v.toNat }
  | .rb => c' = { c with rb := BitVec.ofNat 5 v.toNat }
  | .stage => (∀ i < 32, rdP c' (96 + i) = if v.getLsbD i then word (2 ^ 64 - 1) else 0)
      ∧ (∀ p < 96, rdPhysP c' p = rdPhysP c p) ∧ c' = { c with preds := c'.preds }
  | .aflags => c' = { c with aflags := BitVec.ofNat 3 v.toNat }
  | .epc => c' = { c with epc := v }
  | .cause => c' = { c with cause := BitVec.ofNat 8 v.toNat }
  | .tval => c' = { c with tval := v }
  | .tinfo => c' = { c with tinfo := v }
  | .tvec => c' = { c with tvec := v }
  | _ => False

/-- DEFER's ticks and length. -/
def deferOf (i : Instr) : Option (Nat × Nat) :=
  match i with
  | .defer n => some (n.toNat, 4)
  | .longTwin .defer _ _ n => some (n.toNat, 8)
  | _ => none

/-- TRAP's number. -/
def trapOf (i : Instr) : Option Nat :=
  match i with
  | .trap n => some n.toNat
  | .longTwin .trap _ _ n => some n.toNat
  | _ => none

/-- What trap entry leaves of a context (R253, Table 12.9): registers, predicates, loop state, flight and region unchanged. -/
def EnteredHandler (s : State) (c : Ctx) (cause : Nat) (tval tinfo epc : Word) (c' : Ctx) : Prop :=
  c'.cause = BitVec.ofNat 8 cause ∧ c'.tval = tval ∧ c'.tinfo = tinfo ∧ c'.epc = epc ∧ c'.handler = true
    ∧ c'.savedTimed = c.timed ∧ c'.timed = false ∧ c'.pc = c.tvec ∧ c'.nextAt = tickOf s c + 8 ∧ c'.trapTick = tickOf s c
    ∧ c'.bank = c.bank ∧ c'.preds = c.preds ∧ c'.lc = c.lc ∧ c'.ec = c.ec ∧ c'.rb = c.rb ∧ c'.aflags = c.aflags
    ∧ c'.views = c.views ∧ c'.streams = c.streams ∧ c'.flight = c.flight ∧ c'.region = c.region ∧ c'.tvec = c.tvec
    ∧ c'.uid = c.uid ∧ c'.core = c.core ∧ c'.wid = c.wid ∧ c'.bufs = c.bufs

/-- The memories, the rent table and the virtual devices are as they were. -/
def SameStorage (s t : State) : Prop :=
  t.mem = s.mem ∧ t.hostMem = s.hostMem ∧ t.window = s.window ∧ t.rents = s.rents ∧ t.vds = s.vds ∧ t.words = s.words
    ∧ t.memPoison = s.memPoison

end Sys2Proof.Stated

section
open Sys2Proof Sys2Proof.Machine Sys2Proof.Stated

/-- R237, Table 12.1: a multiply holds the sequencer 3 ticks and a division 18; the result is written when that time has
passed; nothing else changes. -/
def Sys2Proof.Stated.ProductsAreDueAfterTheirTicks : Prop :=
  ∀ (i : Instr) (s : State) (c : Ctx) (d : Nat) (v : Word) (k : Nat), productResult c i = some (d, v, k) → Runs s c [1] →
    exec i s = .next { s with
      agenda := s.agenda ++ resultDue s c d k v
      cx := some { c with busy := awaiting s c d k, pc := c.pc + 4, nextAt := tickOf s c + k } }

/-- R109, R234: a due scalar result is written to its bytes of the unit's register store, and to nothing else. -/
def Sys2Proof.Stated.DueResultIsWritten : Prop :=
  ∀ (s : State) (ev : Ev) (c : Ctx) (p : Nat) (v : Word), s.cx = some c → ev.own = 0 → p ≠ 0 → p < 64 →
    ∃ c', performEff s ev (.bank c.uid (8 * p) (bytesOfNat 8 v.toNat) []) = { s with cx := some c' }
      ∧ BitVec.ofNat 64 (natOfBytes (c'.bank.readRun (8 * p) 8)) = v
      ∧ (∀ off, (off < 8 * p ∨ 8 * p + 8 ≤ off) → c'.bank.read off = c.bank.read off)
      ∧ c' = { c with bank := c'.bank, bankPoison := c'.bankPoison, upsets := c'.upsets }

/-- R109, R237, Table 12.1: MUL, MULH, MULHU, DIV, DIVU, REM and REMU go on at the next instruction after 3 or 18 ticks, and
their result is then written. -/
def Obligations.ProductsAreWrittenWhenDue : Prop := Stated.ProductsAreDueAfterTheirTicks ∧ Stated.DueResultIsWritten

/-- R243: J, JL and JR go to their target, and JL and JR keep pc + 4; a misaligned target raises ALIGN and writes nothing. -/
def Obligations.JumpsGoToTheirTarget : Prop :=
  ∀ (i : Instr) (s : State) (c : Ctx) (j : Jump), jumpOf c i = some j → Runs s c [0] →
    (j.dest.toNat % 4 = 0 → ∃ c', (match j.link with | some d => WroteScalar c d (c.pc + 4) c' | none => c' = c)
      ∧ exec i s = .next { s with cx := some { c' with pc := j.dest, nextAt := tickOf s c + j.ticks } })
    ∧ (j.dest.toNat % 4 ≠ 0 → exec i s = .next (takeFault s c.uid ⟨0x13, j.dest, 0, false⟩ c.pc))

/-- R225, R243, Table 12.1: BR goes to its target in two ticks where its condition holds, and on in one where not. -/
def Obligations.BranchesFollowTheirCondition : Prop :=
  ∀ (i : Instr) (s : State) (c : Ctx) (k : Cond) (a : Reg) (t : Word) (len : Nat), branchOf c i = some (k, a, t, len) →
    Runs s c [0] →
    (meetsCond k (rdS c a.toNat) → t.toNat % 4 = 0 →
      exec i s = .next { s with cx := some { c with pc := t, nextAt := tickOf s c + 2 } })
    ∧ (meetsCond k (rdS c a.toNat) → t.toNat % 4 ≠ 0 → exec i s = .next (takeFault s c.uid ⟨0x13, t, 0, false⟩ c.pc))
    ∧ (¬ meetsCond k (rdS c a.toNat) → Continues i s c len 1 (fun c' => c' = c))

/-- R248: LOOPR counts lc down, then ec, turns rb and sets p96, and goes back while lc or ec say so. Turning rb makes what was
rotating name n name n + 1. No other transfer of control turns it. Where it does not go back, the long twin goes to pc + 8, which is
the model's reading of R248's pc + 4 (DEDUCED, log entry 23). -/
def Obligations.LooprStepsItsCounts : Prop :=
  (∀ (i : Instr) (s : State) (c : Ctx) (t : Word) (len : Nat), loopOf c i = some (t, len) → Runs s c [0] → t.toNat % 4 = 0 →
    ∃ c', (match (loopAfter c).2.1 with
        | some v => WrotePred (loopAfter c).1 96 v c'
        | none => c' = (loopAfter c).1)
      ∧ exec i s = .next { s with cx := some { c' with
          pc := if (loopAfter c).2.2 then t else c.pc + BitVec.ofNat 64 len, nextAt := tickOf s c + 1 } })
  ∧ (∀ (c : Ctx) (n : Nat),
    let c' := { c with rb := BitVec.ofNat 5 (c.rb.toNat + 31) }
    (32 ≤ n → n < 63 → rot c' (n + 1) = rot c n) ∧ (96 ≤ n → n < 127 → rotP c' (n + 1) = rotP c n))
  ∧ (∀ (i : Instr) (s t : State) (c c' : Ctx), ((jumpOf c i).isSome ∨ (branchOf c i).isSome) → s.cx = some c →
    exec i s = .next t → t.cx = some c' → c'.rb = c.rb)

/-- R250, Table 12.8: MVS writes the named state to its destination. -/
def Sys2Proof.Stated.MvsReadsTheNamedState : Prop :=
  ∀ (i : Instr) (s : State) (c : Ctx) (d : Nat) (n : SysName) (len : Nat), readsName i = some (d, n, len) → Runs s c [0] →
    Continues i s c len 1 (WroteScalar c d (nameValue s c n))

/-- R250, Table 12.8: MSV writes the named state; ctx names but tvec only at handler level, and tvec only a multiple of 4. The
ctx.tval of the two faults is open (log entry 2). A read-only name is no instruction. -/
def Sys2Proof.Stated.MsvWritesTheNamedState : Prop :=
  ∀ (i : Instr) (s : State) (c : Ctx) (n : SysName) (a : Reg) (len : Nat), writesName i = some (n, a, len) → Runs s c [0] →
    ((handlerOnly n = true → c.handler = true) → (n = .tvec → (rdS c a.toNat).toNat % 4 = 0) →
      Continues i s c len 1 (nameWritten c n (rdS c a.toNat)))
    ∧ (handlerOnly n = true → c.handler = false → exec i s = .next (takeFault s c.uid ⟨0x01, 0, 0, true⟩ c.pc))
    ∧ (n = .tvec → (rdS c a.toNat).toNat % 4 ≠ 0 →
      exec i s = .next (takeFault s c.uid ⟨0x13, 0, 0, true⟩ c.pc))
    ∧ ∀ (m : SysName) (b : Reg), (Instr.msv m b).wf = m.writable

/-- R250, Table 12.8: MVS reads the named state and MSV writes it. -/
def Obligations.SystemNamesAreReadAndWritten : Prop := Stated.MvsReadsTheNamedState ∧ Stated.MsvWritesTheNamedState

/-- R245: WAITT goes on after one tick where S[a] is not beyond E, else it waits for tick S[a]; then WAITT_EXPIRE lets the
context go on at that tick. -/
def Obligations.WaittWaitsForItsTick : Prop :=
  (∀ (a : Reg) (s : State) (c : Ctx), Runs s c [0] →
    ((rdS c a.toNat).toNat ≤ tickOf s c → Continues (.waitt a) s c 4 1 (fun c' => c' = c))
    ∧ (tickOf s c < (rdS c a.toNat).toNat → exec (.waitt a) s = .next { s with
        cx := some { c with wait := .tick (rdS c a.toNat).toNat }
        agenda := s.agenda ++ [⟨c.core / 128, (rdS c a.toNat).toNat, 16, c.uid, 0, .ins (.waittExpire c.uid), false⟩] }))
  ∧ (∀ (uid : Nat) (s : State) (c : Ctx), unitOf s uid = some c → c.wait = .tick (tickOf s c) →
    exec (.waittExpire uid) s = .next (setUnit s { c with wait := .run, pc := c.pc + 4, nextAt := tickOf s c }))

/-- R106, R246, R253: SEG opens its segment at E with no due tick before it; a second timed segment of a core blocks, and at
handler level SEG raises ILLEGAL. -/
def Obligations.SegOpensASegment : Prop :=
  ∀ (timed : Bool) (s : State) (c : Ctx), Runs s c [0] →
    (c.handler = false → (timed = true → otherTimed s c = false) →
      Continues (if timed then .segTimed else .segFree) s c 4 1
        (fun c' => c' = { c with timed := timed, segBase := some (tickOf s c), lastDue := [] }))
    ∧ (c.handler = false → timed = true → otherTimed s c = true →
      exec .segTimed s = .next { s with cx := some { c with wait := .segment } })
    ∧ (c.handler = true →
      exec (if timed then .segTimed else .segFree) s = .next (takeFault s c.uid ⟨0x01, 0, 0, true⟩ c.pc))

/-- R247: GSYNC arrives at its team's alignment; the last arrival fixes the release 24 ticks later; in an idem region it raises
REGION. -/
def Sys2Proof.Stated.GsyncArrives : Prop :=
  ∀ (d : Reg) (s : State) (c : Ctx), Runs s c [0] →
    (c.idem = false → ∃ t, exec (.gsync d) s = .next t ∧ t.cx = some { c with wait := .gsync (rot c d.toNat) }
      ∧ (teamOf t c.team).gsync = (teamOf s c.team).gsync ++ [c.uid] ∧ SameStorage s t ∧ t.units = s.units
      ∧ (allArrived t c.team = true → (teamOf s c.team).gsyncAt = none →
        (teamOf t c.team).gsyncAt = some (tickOf s c + 24)
        ∧ ⟨c.core / 128, tickOf s c + 24, 16, 0, 0, .ins (.gsyncRelease c.team), false⟩ ∈ t.agenda))
    ∧ (c.idem = true → exec (.gsync d) s = .next (takeFault s c.uid ⟨0x14, 0, 3, false⟩ c.pc))

/-- R247: at the release tick of a team, each context that has arrived goes on at that tick, its destination holds it, and it
holds its core's sequencer, or has it when another context's timed segment closes. -/
def Sys2Proof.Stated.GsyncReleaseGivesTheTick : Prop :=
  ∀ (s : State) (team at_ : Nat), (teamOf s team).gsyncAt = some at_ →
    (∀ c, (teamOf s team).units.head?.bind (unitOf s) = some c → tickOf s c = at_) → (teamOf s team).gsync.Nodup →
    ∃ t, exec (.gsyncRelease team) s = .next t ∧ SameStorage s t
      ∧ (teamOf t team).gsync = [] ∧ (teamOf t team).gsyncAt = none
      ∧ ∀ (c : Ctx) (d : Nat), c.uid ∈ (teamOf s team).gsync → unitOf s c.uid = some c → c.wait = .gsync d → d < 64 →
        (∃ c', unitOf t c.uid = some c'
          ∧ (d ≠ 0 → BitVec.ofNat 64 (natOfBytes (c'.bank.readRun (8 * d) 8)) = word at_)
          ∧ (∀ off, (d = 0 ∨ off < 8 * d ∨ 8 * d + 8 ≤ off) → c'.bank.read off = c.bank.read off)
          ∧ c' = { c with bank := c'.bank, bankPoison := c'.bankPoison, upsets := c'.upsets, wait := .run, pc := c.pc + 4, nextAt := tickOf s c })
        ∧ (otherTimed s c = true → c.uid ∈ (coreOf t c.core).awaited)
        ∧ (otherTimed s c = false →
          (∀ x y, x ∈ (teamOf s team).gsync → unitOf s x = some y → y.core = c.core → x = c.uid) →
          (coreOf t c.core).holder = some c.uid)

/-- R247: GSYNC arrives and blocks until all of its team have; the release gives every one its tick and the sequencer. -/
def Obligations.GsyncAlignsItsTeam : Prop := Stated.GsyncArrives ∧ Stated.GsyncReleaseGivesTheTick

/-- R252, R253: TRAP and BKPT without a debugger enter the user handler: what was in the context is kept, and its state is
saved as Table 12.9 says. -/
def Sys2Proof.Stated.TrapsEnterTheUserHandler : Prop :=
  ∀ (s : State) (c : Ctx), Runs s c [0] → c.tvec ≠ 0 → c.handler = false →
    (∀ (i : Instr) (n : Nat), trapOf i = some n → ∃ t c', exec i s = .next t ∧ t.cx = some c' ∧ SameStorage s t
      ∧ EnteredHandler s c 0 0 (word n) (c.pc + 4) c')
    ∧ ((launchOf s c.launch).attached = false → ∃ t c', exec .bkpt s = .next t ∧ t.cx = some c' ∧ SameStorage s t
      ∧ EnteredHandler s c 0 0 0x800 (c.pc + 4) c')

/-- Table 12.9: BKPT without a handler and without a debugger is a no-op; TRAP without a handler ends the launch, cause
ILLEGAL, with pc as its information. At handler level both do so: that is log entry 24's reading (DEDUCED). -/
def Sys2Proof.Stated.TrapWithoutHandlerEndsTheLaunch : Prop :=
  ∀ (s : State) (c : Ctx), Runs s c [0] →
    (c.handler = false → c.tvec = 0 → (launchOf s c.launch).attached = false → Continues .bkpt s c 4 1 (fun c' => c' = c))
    ∧ (∀ (i : Instr), ((trapOf i).isSome ∧ (c.tvec = 0 ∨ c.handler = true)) ∨ (i = .bkpt ∧ c.handler = true) →
      (launchOf s c.launch).status = none →
      ∃ t, exec i s = .next t
        ∧ ((launchOf s c.launch).attached = false → t.cx = some { c with wait := .frozen 1, cause := 1, tval := c.pc, tinfo := 0 })
        ∧ (∃ c', t.cx = some c' ∧ c'.wait = .frozen 1 ∧ c'.pc = c.pc ∧ c'.bank = c.bank)
        ∧ (launchOf t c.launch).status = some 1 ∧ (launchOf t c.launch).cause = 1
        ∧ (launchOf t c.launch).info = c.pc.toNat ∧ SameStorage s t)

/-- R252, R253, R346: BKPT while a debugger is attached stops the context after the instruction for fdb, which asks a freeze. -/
def Sys2Proof.Stated.BkptStopsForTheDebugger : Prop :=
  ∀ (s : State) (c : Ctx), Runs s c [0] → c.handler = false → (launchOf s c.launch).attached = true →
    exec .bkpt s = .next (fdbFreeze { s with cx := some { c with pc := c.pc + 4, wait := .debug } } c.vd)

/-- R252, R253, Table 12.9: TRAP and BKPT with and without a user handler, and with a debugger. That both at handler level end the
launch with ILLEGAL and tval pc, and that the long twin's ctx.epc is pc + 4, are the model's readings (DEDUCED, log entries 24 and
23). -/
def Obligations.TrapsAreTaken : Prop :=
  Stated.TrapsEnterTheUserHandler ∧ Stated.TrapWithoutHandlerEndsTheLaunch ∧ Stated.BkptStopsForTheDebugger

/-- R199, R254: TRET leaves handler level at ctx.epc one tick later in the segment kind it saved; ctx.cause, ctx.tval and
ctx.tinfo stay, and the commands held at entry return, timed ones later by the ticks since entry; a misaligned ctx.epc raises
ALIGN, and outside handler level TRET raises ILLEGAL. -/
def Obligations.TretReturnsToEpc : Prop :=
  ∀ (s : State) (c : Ctx), Runs s c [0] →
    (c.handler = true → c.heldIrq = [] → c.epc.toNat % 4 = 0 → ∃ t c', exec .tret s = .next t ∧ t.cx = some c' ∧ SameStorage s t
      ∧ c'.handler = false ∧ c'.timed = c.savedTimed ∧ c'.pc = c.epc ∧ c'.nextAt = tickOf s c + 1 ∧ c'.wait = .run
      ∧ c'.cause = c.cause ∧ c'.tval = c.tval ∧ c'.tinfo = c.tinfo ∧ c'.epc = c.epc ∧ c'.tvec = c.tvec
      ∧ c'.bank = c.bank ∧ c'.preds = c.preds ∧ c'.flight = c.flight ∧ c'.region = c.region ∧ c'.lc = c.lc
      ∧ c'.heldCmds = [] ∧ c'.trapCmds = [] ∧ c'.spent = none
      ∧ (∀ m ∈ c.trapCmds, engineOf m.ins = 0 →
        { m with due := (if m.timed then m.due + (tickOf s c - c.trapTick) else m.due), core := c.core } ∈ (coreOf t c.core).mq))
    ∧ (c.handler = true → c.epc.toNat % 4 ≠ 0 → exec .tret s = .next (takeFault s c.uid ⟨0x13, c.epc, 0, false⟩ c.pc))
    ∧ (c.handler = false → exec .tret s = .next (takeFault s c.uid ⟨0x01, 0, 0, true⟩ c.pc))

/-- R226, R256: a hint advances pc in one tick; IFENCE drops what the core's instruction cache has discarded, in 8 ticks;
CODESYNC with nothing landed since the previous one takes 4, else it blocks. -/
def Sys2Proof.Stated.HintsAndCodeFences : Prop :=
  ∀ (s : State) (c : Ctx),
    (∀ bits, s.cx = some c → Continues (.nop bits) s c 4 1 (fun c' => c' = c))
    ∧ (Runs s c [0] → ∃ t, exec .ifence s = .next t
      ∧ t.cx = some { c with pc := c.pc + 4, nextAt := tickOf s c + 8 } ∧ SameStorage s t ∧ t.hist = s.hist
      ∧ (coreOf t c.core).fetched = (coreOf s c.core).fetched.filter (fun e => e.2.2))
    ∧ (Runs s c [0] → landedSince s c = false →
      Continues .codesync s c 4 4 (fun c' => c' = { c with landedCode := s.landings.length }))
    ∧ (Runs s c [0] → landedSince s c = true → ∃ t k, exec .codesync s = .next t ∧ t.cx = some { c with wait := .codesync }
      ∧ t.agenda = s.agenda ++ [⟨c.core / 128, tickOf s c + 4 + k, 16, c.uid, 0, .ins (.codesyncComplete c.uid), false⟩]
      ∧ SameStorage s t)

/-- R178, R256: CODESYNC_COMPLETE lets the waiting context go on. -/
def Sys2Proof.Stated.CodesyncCompletes : Prop :=
  ∀ (uid : Nat) (s : State) (c : Ctx), unitOf s uid = some c → c.wait = .codesync → c.uid = uid →
    ∃ t, exec (.codesyncComplete uid) s = .next t ∧ SameStorage s t
      ∧ unitOf t uid = some { c with wait := .run, pc := c.pc + 4, nextAt := tickOf s c, landedCode := s.landings.length }

/-- R178, R226, R256: hints, IFENCE, CODESYNC and its completion. -/
def Obligations.HintsAndCodeFencesGoOn : Prop := Stated.HintsAndCodeFences ∧ Stated.CodesyncCompletes

/-- R112, R255: DEFER, of 1 to 256 ticks, opens a window of n ticks; while one is open, or at handler level, it has no effect. At its end
DEFER_WINDOW_END closes it. A DEFER word with any other imm12 is an illegal encoding. -/
def Obligations.DeferOpensAWindow : Prop :=
  (∀ (i : Instr) (n len : Nat) (s : State) (c : Ctx), deferOf i = some (n, len) → Runs s c [0] →
    (c.handler = false → (∀ e, c.defer = some e → e ≤ tickOf s c) → exec i s = .next { s with
      agenda := s.agenda ++ [⟨c.core / 128, tickOf s c + n, 16, c.uid, 0, .ins (.deferWindowEnd c.uid), false⟩]
      cx := some { c with defer := some (tickOf s c + n), pc := c.pc + BitVec.ofNat 64 len, nextAt := tickOf s c + 1 } })
    ∧ ((c.handler = true ∨ ∃ e, c.defer = some e ∧ tickOf s c < e) → Continues i s c len 1 (fun c' => c' = c)))
  ∧ (∀ (uid : Nat) (s : State) (c : Ctx), unitOf s uid = some c → c.defer = some (tickOf s c) → c.heldIrq = [] →
    exec (.deferWindowEnd uid) s = .next (setUnit s { c with defer := none }))
  ∧ (∀ n : BitVec 9, (Instr.defer n).wf = decide (1 ≤ n.toNat ∧ n.toNat ≤ 256))
  ∧ (∀ imm : BitVec 12,
    (1 ≤ imm.toNat → imm.toNat ≤ 256 → decode [imm ++ 0x000AD#20] = .ok (.defer (BitVec.ofNat 9 imm.toNat)))
    ∧ ((imm.toNat = 0 ∨ 256 < imm.toNat) → ∃ e, decode [imm ++ 0x000AD#20] = .error e))
  ∧ decode [0x010000AD] = .ok (.defer 16)

end

namespace Sys2Proof.Stated
open Sys2Proof Sys2Proof.Machine

/-! ## Loads, stores, landings and operations at a synchronisation engine (R162 to R171, R258 to R274, R348) -/

/-- S[a] + offset, modulo 2^64. -/
def addressAt (c : Ctx) (a : Reg) (off : Int) : Word := wordI ((rdS c a.toNat).toInt + off)

/-- The little-endian value of bytes, extended to 64 bits by the sign of its type (R259). -/
def loadedValue (signed : Bool) (bs : List Byte) : Word :=
  let v := natOfBytes bs
  if signed && decide (2 ^ (8 * bs.length) ≤ 2 * v) then wordI ((v : Int) - (2 ^ (8 * bs.length) : Nat)) else word v

/-- The low n bytes of a value, the lowest first. -/
def lowBytes (n : Nat) (v : Word) : List Byte := (List.range n).map (fun i => BitVec.ofNat 8 (v.toNat / 2 ^ (8 * i)))

/-- A plain access: bytes, sign, the register, the address and the bytes of the instruction. -/
structure Shape where
  n : Nat
  signed : Bool
  d : Nat
  addr : Word
  len : Nat

/-- Element i of a set stream of an elementwise format, as LDG and STG take it (R263). -/
def elementShape (c : Ctx) (d g i len : Nat) : Option Shape :=
  let r := streamReg c g
  if gUnset r || 0x0D < gFormat r || gElems r ≤ i then none
  else some ⟨tyBits (gFormat r) / 8, tySigned (gFormat r), d, elemAddr r i, len⟩

/-- Plain loads (R259, R263). -/
def loadOf (c : Ctx) (i : Instr) : Option Shape :=
  match i with
  | .ldN32 d a x => some ⟨4, false, d.toNat, addressAt c a x.toInt, 4⟩
  | .ldI32 d a x => some ⟨4, true, d.toNat, addressAt c a x.toInt, 4⟩
  | .ldN64 d a x => some ⟨8, false, d.toNat, addressAt c a x.toInt, 4⟩
  | .ldN16 d a x => some ⟨2, false, d.toNat, addressAt c a x.toInt, 4⟩
  | .ldI16 d a x => some ⟨2, true, d.toNat, addressAt c a x.toInt, 4⟩
  | .ldN8 d a x => some ⟨1, false, d.toNat, addressAt c a x.toInt, 4⟩
  | .ldI8 d a x => some ⟨1, true, d.toNat, addressAt c a x.toInt, 4⟩
  | .ldg d g k => elementShape c d.toNat g.toNat k.toNat 4
  | .longTwin op d a x =>
    match op with
    | .ldN32 => some ⟨4, false, d.toNat, addressAt c a x.toInt, 8⟩
    | .ldI32 => some ⟨4, true, d.toNat, addressAt c a x.toInt, 8⟩
    | .ldN64 => some ⟨8, false, d.toNat, addressAt c a x.toInt, 8⟩
    | .ldN16 => some ⟨2, false, d.toNat, addressAt c a x.toInt, 8⟩
    | .ldI16 => some ⟨2, true, d.toNat, addressAt c a x.toInt, 8⟩
    | .ldN8 => some ⟨1, false, d.toNat, addressAt c a x.toInt, 8⟩
    | .ldI8 => some ⟨1, true, d.toNat, addressAt c a x.toInt, 8⟩
    | .ldg => elementShape c d.toNat a.toNat x.toNat 8
    | _ => none
  | _ => none

/-- Plain stores (R260, R263); d is the register stored. -/
def storeOf (c : Ctx) (i : Instr) : Option Shape :=
  match i with
  | .stN8 d a x => some ⟨1, false, d.toNat, addressAt c a x.toInt, 4⟩
  | .stN16 d a x => some ⟨2, false, d.toNat, addressAt c a x.toInt, 4⟩
  | .stN32 d a x => some ⟨4, false, d.toNat, addressAt c a x.toInt, 4⟩
  | .stN64 d a x => some ⟨8, false, d.toNat, addressAt c a x.toInt, 4⟩
  | .stg d g k => elementShape c d.toNat g.toNat k.toNat 4
  | .longTwin op d a x =>
    match op with
    | .stN8 => some ⟨1, false, d.toNat, addressAt c a x.toInt, 8⟩
    | .stN16 => some ⟨2, false, d.toNat, addressAt c a x.toInt, 8⟩
    | .stN32 => some ⟨4, false, d.toNat, addressAt c a x.toInt, 8⟩
    | .stN64 => some ⟨8, false, d.toNat, addressAt c a x.toInt, 8⟩
    | .stg => elementShape c d.toNat a.toNat x.toNat 8
    | _ => none
  | _ => none

/-- Ticks to the result of a load that is not counted (Table 13.1, R262). -/
def loadLatency (s : State) (c : Ctx) (p : Place) : Nat :=
  match p.win with
  | 2 => 4
  | 1 => 40
  | 4 => 16
  | _ => if locOf p.space p.off / 256 ∈ (coreOf s c.core).prefetch then 16 else if p.die = c.core / 128 then 60 else 140

/-- A scratchpad address of another core than the executing one (R162). -/
def wrongCore (c : Ctx) (a : Word) : Prop := codeOfAddress c.lcore a = 3

/-- Check 1 of R162: the address decodes, a private offset lies in the area, a gallery core in the team (R161). -/
def decodes (c : Ctx) (a : Word) : Prop :=
  match codeOfAddress c.lcore a with
  | 7 => False
  | 1 => a.toNat % 2 ^ 32 < c.privPages * 65536
  | 4 => a.toNat / 2 ^ 48 % 8 < c.teamSize
  | _ => True

/-- A global address without a mapping (R93). -/
def unmapped (s : State) (c : Ctx) (a : Word) : Prop :=
  codeOfAddress c.lcore a = 0 ∧ ∀ m ∈ (vdOf s c.vd).maps, ¬ (m.first ≤ a.toNat ∧ a.toNat < m.first + m.pages * 65536)

/-- A global page the host owns (R33). -/
def ofHost (s : State) (c : Ctx) (a : Word) : Prop :=
  codeOfAddress c.lcore a = 0 ∧ a.toNat / 65536 ∈ (vdOf s c.vd).hostOwned

/-- The fault of the first check of R162 that an access of n bytes fails; the place the address leads to, the rights there
(Table 4.2) and the buffer state that bars it (Table 5.8) are the model's translate, rights and bufferBars. -/
def FirstFault (s : State) (c : Ctx) (a : Word) (n : Nat) (k : Access) (t : Trap) : Prop :=
  (¬ decodes c a ∧ t = ⟨0x04, a, 0, false⟩)
  ∨ (decodes c a ∧ a.toNat % n ≠ 0 ∧ t = ⟨0x13, a, 0, false⟩)
  ∨ (decodes c a ∧ a.toNat % n = 0 ∧ wrongCore c a ∧ t = ⟨0x05, a, 0, false⟩)
  ∨ (decodes c a ∧ a.toNat % n = 0 ∧ unmapped s c a ∧ t = ⟨0x0E, a, 0, false⟩)
  ∨ (decodes c a ∧ a.toNat % n = 0 ∧ ¬ unmapped s c a ∧ ofHost s c a ∧ t = ⟨0x0F, a, 0, false⟩)
  ∨ (decodes c a ∧ a.toNat % n = 0 ∧ ¬ wrongCore c a ∧ ¬ unmapped s c a ∧ ¬ ofHost s c a
      ∧ ∃ p why, translate s c (windowFor c a) a = .ok p ∧ rights s c p = some why ∧ t = ⟨0x06, a, word why, false⟩)
  ∨ (decodes c a ∧ a.toNat % n = 0 ∧ ¬ wrongCore c a ∧ ¬ unmapped s c a ∧ ¬ ofHost s c a
      ∧ ∃ p u off b st, translate s c (windowFor c a) a = .ok p ∧ rights s c p = none ∧ padOf s c a = some (u, off)
        ∧ bufferBars u off n k = some (b, st) ∧ t = ⟨0x07, a + word (b - off), word st, false⟩)

/-- The instruction is complete, its result is due, and nothing else has happened. -/
def ResultInTicks (i : Instr) (s : State) (c : Ctx) (d len k : Nat) (v : Word) : Prop :=
  exec i s = .next { s with
    agenda := s.agenda ++ resultDue s c d k v
    cx := some { c with busy := awaiting s c d k, pc := c.pc + BitVec.ofNat 64 len, nextAt := tickOf s c + 1 } }

/-- Ticks from tick E to the perform tick at the engine an address names, and on to the result (Table 13.1). -/
def engineOffset (c : Ctx) (a : Word) : Nat :=
  if codeOfAddress c.lcore a ≠ 5 then 24
  else if a.toNat / 2 ^ 48 % 8 = c.core / 128 then (if a.toNat % 2 ^ 24 < 0x100000 then 20 else 60)
  else (if a.toNat % 2 ^ 24 < 0x100000 then 100 else 140)
def resultOffset (c : Ctx) (a : Word) : Nat :=
  if codeOfAddress c.lcore a = 5 ∧ a.toNat / 2 ^ 48 % 8 ≠ c.core / 128 then 80 else 20

/-- The 16-byte object a place lies in. -/
def objectOf (p : Place) : Nat := locOf p.space (p.off / 16)

/-- The tick an operation from tick e performs: its own, or one after the previous operation of the context on that object
(R283). -/
def performTick (c : Ctx) (p : Place) (a : Word) (e : Nat) : Nat :=
  match tget c.objects (objectOf p) with
  | some l => max (e + engineOffset c a) (l + 1)
  | none => e + engineOffset c a

/-- The bytes that a landing which executes now takes, and the context it leaves: those placed before its tick land, and those placed
at it join the next flight (R167, R168, R355). The division is the model's Ctx.split. -/
def lands (s : State) (c : Ctx) : List FByte := (c.split (tickOf s c)).1
def left (s : State) (c : Ctx) : Ctx := (c.split (tickOf s c)).2

/-- The landing tick from tick e at a scope, where it is not counted (R168, Table 8.4). -/
def landingTick (s : State) (c : Ctx) (sc : Scope) (e : Nat) : Nat :=
  e + (match sc with | .core => 4 | .gallery => 16 | .die => 40 | .domain => 120 | .system => 120) + ((lands s c).length + 511) / 512

/-- The landing takes no byte whose landing at this scope is counted (R168). -/
def Uncounted (s : State) (c : Ctx) (sc : Scope) : Prop := sc = .system → (lands s c).any (homeAway s c) = false

/-- No storage error stands anywhere in the module (R191). -/
def Unstruck (s : State) : Prop := allErrors s = []

/-- A context whose view has risen to a tick (R171); the pulse it notes is the model's own (log entry 49). -/
def raised (s : State) (c : Ctx) (t : Nat) : Ctx := { c with view := max c.view t, viewPulse := s.clock.pulses }

/-- A plain read of n bytes meets the poisoned word at offset w first: in the prefetched line, the flight or memory as the model's
linePoison, viewPoison and poisonedAt find it (R194). -/
def Poisoned (s : State) (c : Ctx) (p : Place) (n w : Nat) : Prop :=
  (if p.win = 0 ∨ p.win = 4 then (linePoison s c p n).orElse (fun _ => viewPoison s c p n) else poisonedAt s p n) = some w

/-- The register to be stored holds a poisoned word (R194). -/
def tainted (c : Ctx) (r : Nat) : Bool := decide (rot c r ≠ 0 ∧ 8 * rot c r ∈ c.bankPoison)

/-- An effect joins the agenda of a context's die. -/
def due (s : State) (c : Ctx) (tick phase : Nat) (e : Eff) : List Ev := s.agenda ++ [⟨c.core / 128, tick, phase, c.uid, 0, .eff e, false⟩]

/-- The context after the sequencer has gone on. -/
def onward (s : State) (c : Ctx) (len : Nat) : Ctx := { c with pc := c.pc + BitVec.ofNat 64 len, nextAt := tickOf s c + 1 }

/-- The line of a place is in its core's prefetch buffer (R262). -/
def Prefetched (s : State) (c : Ctx) (p : Place) : Prop := locOf p.space p.off / 256 ∈ (coreOf s c.core).prefetch

/-- A result awaited at a tick. -/
def waitsFor (c : Ctx) (p t : Nat) : List (RegName × Nat) := (RegName.s p, t) :: c.busy.filter (fun b => b.1 != RegName.s p)

/-- A counted load (R18, R258): its value is that of its execute tick, and it arrives at a tick the device leaves open; over a CXL
link it keeps the link, and whether that was down. -/
def Counted (i : Instr) (s : State) (c : Ctx) (p : Place) (d len : Nat) (v : Word) : Prop :=
  ∃ k, exec i s = .next { s with
    nextId := s.nextId + 1, free := s.free + 1
    agenda := s.agenda ++ [⟨c.core / 128, tickOf s c + 1 + k, 16, c.uid, 0, .ins (.countedLoadReturn c.uid s.nextId), false⟩]
    cx := some { onward s c len with
      loads := tset c.loads s.nextId (rot c d, v)
      loadLinks := match linkOf p with | some l => tset c.loadLinks s.nextId (l, !linkUp s p) | none => c.loadLinks
      busy := waitsFor c (rot c d) never } }

/-- An operation that is no release goes to the engine: it performs at T, its result, if it has one, T + 20 or 80. -/
def Sent (i : Instr) (s : State) (c : Ctx) (p : Place) (o : SyncOp) (len : Nat) (f : Ctx → Nat → Ctx) : Prop :=
  let T := performTick c p (word o.addr) (tickOf s c)
  exec i s = .next { s with
    agenda := due s c T 12 (.sync c.uid o)
    cx := some (f { onward s c len with objects := tset c.objects (objectOf p) T } T) }

/-- A release first lands the flight at its scope, then performs (R171). -/
def Released (i : Instr) (s : State) (c : Ctx) (p : Place) (sc : Scope) (o : SyncOp) (len : Nat) (f : Ctx → Nat → Ctx) : Prop :=
  let tl := landingTick s c sc (tickOf s c)
  let T := performTick c p (word o.addr) tl
  exec i s = .next { s with
    agenda := due s c tl 4 (.land c.uid sc (lands s c) T (some o))
    cx := some (f { onward s (left s c) len with objects := tset c.objects (objectOf p) T } T) }

/-- An effect held in the open idem region: the 65th raises REGION 6 (R268). -/
def Held (i : Instr) (s : State) (c : Ctx) (o : SyncOp) (len : Nat) : Prop :=
  ∀ r, c.region = some r → r.idem = true →
    (r.held.length < 64 → exec i s = .next { s with
      cx := some { onward s c len with region := some { r with held := r.held ++ [{ o with held := true }] } } })
    ∧ (64 ≤ r.held.length → exec i s = .next (takeFault s c.uid ⟨0x14, 0, 6, false⟩ c.pc))

/-- An operation on n bytes at an address. -/
def operation (k : SyncKind) (a : Word) (n : Nat) (c : Ctx) : SyncOp :=
  { (default : SyncOp) with kind := k, addr := a.toNat, size := n, pc := c.pc }

/-- Bytes and sign of an ordered access's type. -/
def intBytes (t : IntTy) : Nat × Bool :=
  match t with
  | .i8 => (1, true) | .i16 => (2, true) | .i32 => (4, true) | .i64 => (8, true)
  | .n8 => (1, false) | .n16 => (2, false) | .n32 => (4, false) | .n64 => (8, false)
def amoBytes (t : AmoTy) : Nat × Bool :=
  match t with
  | .i32 => (4, true) | .i64 => (8, true) | .n32 => (4, false) | .n64 => (8, false)

/-- The atomics: operation, type, scope, destination, address, operand and expected value. -/
def atomicOf (i : Instr) : Option (SyncKind × AmoTy × Scope × Reg × Reg × Reg × Reg) :=
  match i with
  | .amoAdd t sc d a b => some (.add, t, sc, d, a, b, 0)
  | .amoAnd t sc d a b => some (.and, t, sc, d, a, b, 0)
  | .amoOr t sc d a b => some (.or, t, sc, d, a, b, 0)
  | .amoXor t sc d a b => some (.xor, t, sc, d, a, b, 0)
  | .amoMin t sc d a b => some (.min, t, sc, d, a, b, 0)
  | .amoMax t sc d a b => some (.max, t, sc, d, a, b, 0)
  | .amoSwap t sc d a b => some (.swap, t, sc, d, a, b, 0)
  | .amoCas t sc d a b e => some (.cas, t, sc, d, a, b, e)
  | _ => none

/-- What an atomic leaves in memory, if it writes (R266): old, operand and expected value at w bits. -/
def amoWrites (k : SyncKind) (signed : Bool) (w old b e : Nat) : Option Nat :=
  let v := fun (x : Nat) => if signed then (if 2 ^ w ≤ 2 * x then (x : Int) - (2 ^ w : Nat) else x) else (x : Int)
  match k with
  | .add => some ((old + b) % 2 ^ w)
  | .and => some (old &&& b)
  | .or => some (old ||| b)
  | .xor => some (old ^^^ b)
  | .min => some (if v old < v b then old else b)
  | .max => some (if v old < v b then b else old)
  | .swap => some b
  | .cas => if old = e then some b else none
  | _ => none

/-- A unit's context with its view risen to a tick (R171). -/
def seenFrom (s : State) (c : Ctx) (t : Nat) : State := setUnit s (raised s c t)

/-- Barrier writes: operation, scope, address and operand (R272). -/
def barrierOf (c : Ctx) (i : Instr) : Option (SyncKind × Scope × Reg × Word) :=
  match i with
  | .arrive sc a => some (.arrive, sc, a, 0)
  | .arrdrop sc a => some (.arrdrop, sc, a, 0)
  | .binit sc a b => some (.binit, sc, a, rdS c b.toNat)
  | _ => none

/-- Waits: operation, whether the own scratchpad is allowed, scope, predicate, status and address (R274). -/
def waitOf (i : Instr) : Option (SyncKind × Bool × Scope × Reg × Reg × Reg) :=
  match i with
  | .swait sc p d a => some (.swait, true, sc, p, d, a)
  | .waitb sc p d a => some (.waitb, false, sc, p, d, a)
  | _ => none

/-- The address names a 16-byte object of synchronisation space or, where allowed, of the own scratchpad. -/
def objectAddress (c : Ctx) (a : Word) (spad : Bool) : Prop :=
  a.toNat % 16 = 0 ∧ decodes c a ∧ (codeOfAddress c.lcore a = 5 ∨ (spad = true ∧ (codeOfAddress c.lcore a = 2
    ∨ (codeOfAddress c.lcore a = 4 ∧ a.toNat / 2 ^ 48 % 8 = c.lcore))))

end Sys2Proof.Stated

section
open Sys2Proof Sys2Proof.Machine Sys2Proof.Stated

/-- R162: of the checks a load or store fails, the first one's fault is taken, and the access does nothing else. -/
def Obligations.FirstFailingCheckFaults : Prop :=
  ∀ (i : Instr) (s : State) (c : Ctx) (x : Shape) (t : Trap), Runs s c [0] →
    (loadOf c i = some x ∧ FirstFault s c x.addr x.n .load t) ∨ (storeOf c i = some x ∧ FirstFault s c x.addr x.n .store t) →
    exec i s = .next (takeFault s c.uid t c.pc)

/-- R165, R194, R258, R259, R262, R263: a load whose checks pass gives its bytes, extended, at the tick of Table 13.1, at a counted tick
unless its line is prefetched, or through the synchronisation engine, and changes nothing else. A poisoned word it reads is
UNCORRECTABLE. -/
def Obligations.LoadsReturnTheirBytes : Prop :=
  ∀ (i : Instr) (s : State) (c : Ctx) (x : Shape) (p : Place), loadOf c i = some x → Runs s c [0] →
    check s c x.addr x.n .load = .ok p → Unstruck s →
    (∀ w, Poisoned s c p x.n w → exec i s = .next (takeFault s c.uid ⟨0x10, x.addr + wordI ((w : Int) - p.off), 0, false⟩ c.pc)) ∧
    ((∀ w, ¬ Poisoned s c p x.n w) → c.early = false →
    ((p.win = 0 ∨ p.win = 4) → c.acq ≤ tickOf s c →
      ((countedHome s c p = false ∨ Prefetched s c p) →
        ResultInTicks i s c x.d x.len (loadLatency s c p) (loadedValue x.signed (readView s c p x.n)))
      ∧ (countedHome s c p = true → ¬ Prefetched s c p →
        Counted i s c p x.d x.len (loadedValue x.signed (readView s c p x.n))))
    ∧ ((p.win = 1 ∨ p.win = 2) → countedHome s c p = false →
      ResultInTicks i s c x.d x.len (loadLatency s c p) (loadedValue x.signed (readNow s p x.n)))
    ∧ (p.win = 5 → Sent i s c p { operation .load x.addr x.n c with signed := x.signed, d := rot c x.d } x.len
      (fun c' T => { c' with busy := waitsFor c (rot c x.d) (T + resultOffset c x.addr) })))

/-- R260, R263: a store whose checks pass is due in its memory one tick later, joins the flight of a shared window, or goes to
the synchronisation engine (held in an idem region); it changes nothing else. -/
def Obligations.StoresTakeTheirPlace : Prop :=
  ∀ (i : Instr) (s : State) (c : Ctx) (x : Shape) (p : Place), storeOf c i = some x → Runs s c [0] →
    check s c x.addr x.n .store = .ok p →
    ((p.win = 1 ∨ p.win = 2) → exec i s = .next { s with
      agenda := due s c (tickOf s c + 1) 11 (.store c.uid (locOf p.space p.off) (lowBytes x.n (rdS c x.d)) (if tainted c x.d then [0] else []))
      cx := some (onward s c x.len) })
    ∧ ((p.win = 0 ∨ p.win = 4) → c.flight.length + x.n ≤ 262144 → ∃ c', c' = { c with flight := c'.flight }
      ∧ exec i s = .next { s with cx := some (onward s c' x.len) }
      ∧ readView s c' p x.n = lowBytes x.n (rdS c x.d)
      ∧ (∀ (q : Place) (n : Nat), (q.space ≠ p.space ∨ q.off + n ≤ p.off ∨ p.off + x.n ≤ q.off) →
        readView s c' q n = readView s c q n))
    ∧ (p.win = 5 → c.idem = false →
      Sent i s c p { operation .store x.addr x.n c with val := rdS c x.d, bad := tainted c x.d } x.len (fun c' _ => c'))
    ∧ (p.win = 5 → Held i s c { operation .store x.addr x.n c with val := rdS c x.d, bad := tainted c x.d } x.len)

/-- R194, R260: a performed store changes no byte outside its n bytes, where it touches no synchronisation word, and keeps the value
each byte had for older views; the words of it that are poisoned are marked. -/
def Obligations.StoreChangesOnlyItsBytes : Prop :=
  ∀ (s : State) (ev : Ev) (c : Ctx) (space off : Nat) (bs : List Byte) (ps : List Nat), unitOf s c.uid = some c →
    off + bs.length ≤ 2 ^ 41 → bs ≠ [] → (∀ w ∈ s.words, w.1 = space → w.2.1 + 16 ≤ off ∨ off + bs.length ≤ w.2.1) →
    let t := performEff s ev (.store c.uid (locOf space off) bs ps)
    (∀ a, t.mem.read a = if locOf space off ≤ a ∧ a < locOf space off + bs.length then bs.getD (a - locOf space off) 0
      else s.mem.read a)
    ∧ (∀ i < bs.length, ⟨space, off + i, s.mem.read (locOf space off + i), tickOf s c, none, s.clock.pulses⟩ ∈ t.hist)
    ∧ (∀ k ∈ ps, (space, (off + k) / 8 * 8) ∈ t.memPoison)
    ∧ t.hostMem = s.hostMem ∧ t.window = s.window ∧ t.rents = s.rents ∧ t.words = s.words ∧ t.cx = s.cx ∧ t.units = s.units
    ∧ t.cores = s.cores ∧ t.agenda = s.agenda

/-- R265, R266, R258: LDA, STREL and the atomics go to the engine of their object at the ticks of Table 13.1, STREL and the
atomics as releases; on the wrong window they raise ADDRESS. -/
def Obligations.OrderedAccessesSendTheirOperation : Prop :=
  (∀ (t : IntTy) (sc : Scope) (d a : Reg) (x : BitVec 32) (s : State) (c : Ctx) (p : Place), Runs s c [0] →
    let addr := addressAt c a x.toInt
    let n := (intBytes t).1
    (codeOfAddress c.lcore addr = 1 → decodes c addr →
      exec (.lda t sc d a x) s = .next (takeFault s c.uid ⟨0x04, addr, 0, false⟩ c.pc)
      ∧ (c.idem = false → exec (.strel t sc d a x) s = .next (takeFault s c.uid ⟨0x04, addr, 0, false⟩ c.pc)))
    ∧ (codeOfAddress c.lcore addr ≠ 1 → check s c addr n .load = .ok p → (∀ w, ¬ Poisoned s c p n w) → Unstruck s → c.early = false →
      ((p.win = 5 ∨ p.win = 2) →
        Sent (.lda t sc d a x) s c p { operation .acqLoad addr n c with signed := (intBytes t).2, d := rot c d.toNat } 8
          (fun c' T => { c' with busy := waitsFor c (rot c d.toNat) (T + resultOffset c addr), acq := max c.acq T }))
      ∧ ((p.win = 0 ∨ p.win = 4) → c.acq ≤ tickOf s c → (countedHome s c p = false ∨ Prefetched s c p) →
        exec (.lda t sc d a x) s = .next { s with
          agenda := s.agenda ++ resultDue s c d.toNat (loadLatency s c p)
            (loadedValue (intBytes t).2 (readView s (raised s c (tickOf s c)) p n))
          cx := some { onward s (raised s c (tickOf s c)) 8 with busy := awaiting s c d.toNat (loadLatency s c p) } })
      ∧ ((p.win = 0 ∨ p.win = 4) → c.acq ≤ tickOf s c → countedHome s c p = true → ¬ Prefetched s c p →
        let c' := raised s c (tickOf s c)
        Counted (.lda t sc d a x) s c' p d.toNat 8 (loadedValue (intBytes t).2 (readView s c' p n))))
    ∧ (codeOfAddress c.lcore addr ≠ 1 → c.idem = false → Uncounted s c sc → check s c addr n .store = .ok p →
      let o := { operation .relStore addr n c with scope := sc, val := rdS c d.toNat, bad := tainted c d.toNat }
      ((p.win = 5 ∨ p.win = 2) → Released (.strel t sc d a x) s c p sc o 8 (fun c' _ => c'))
      ∧ ((p.win = 0 ∨ p.win = 4) →
        let tl := landingTick s c sc (tickOf s c)
        exec (.strel t sc d a x) s = .next { s with
          agenda := due s c tl 4 (.land c.uid sc (lands s c) tl (some o)), cx := some (onward s (left s c) 8) }))
    ∧ (c.idem = true → exec (.strel t sc d a x) s = .next (takeFault s c.uid ⟨0x14, 0, 3, false⟩ c.pc)))
  ∧ (∀ (i : Instr) (k : SyncKind) (t : AmoTy) (sc : Scope) (d a b e : Reg) (s : State) (c : Ctx) (p : Place),
    atomicOf i = some (k, t, sc, d, a, b, e) → Runs s c [21] →
    let addr := rdS c a.toNat
    let n := (amoBytes t).1
    let o := { operation k addr n c with
      signed := (amoBytes t).2, scope := sc, val := rdS c b.toNat, bad := tainted c b.toNat, exp := rdS c e.toNat
      d := rot c d.toNat }
    (c.idem = true → d ≠ 0 → exec i s = .next (takeFault s c.uid ⟨0x14, 0, 3, false⟩ c.pc))
    ∧ ((c.idem = false ∨ d = 0) → decodes c addr → (codeOfAddress c.lcore addr = 0 ∨ codeOfAddress c.lcore addr = 1
        ∨ (codeOfAddress c.lcore addr = 4 ∧ addr.toNat / 2 ^ 48 % 8 ≠ c.lcore)) →
      exec i s = .next (takeFault s c.uid ⟨0x04, addr, 0, false⟩ c.pc))
    ∧ (check s c addr n .store = .ok p → (p.win = 5 ∨ p.win = 2) → poisonedAt s p n = none →
      (c.idem = false → c.early = false → Uncounted s c sc → Released i s c p sc o 8 (fun c' T => { c' with
        busy := if d = 0 then c.busy else waitsFor c (rot c d.toNat) (T + resultOffset c addr)
        acq := if d = 0 then c.acq else max c.acq T }))
      ∧ (d = 0 → Held i s c o 8)))

/-- R165, R266, R274: at its perform tick an operation reads and writes its object at once; its result is written 20 or 80
ticks later, extended by its type; a failed cas writes nothing; an acquire raises the view. One that finds its right gone by then raises
RENT_LAPSED at its instruction: that is the model's reading of R282 (DEDUCED, log entry 113). -/
def Obligations.EngineOperationsPerform : Prop :=
  (∀ (s : State) (ev : Ev) (o : SyncOp) (c : Ctx) (p : Place), unitOf s c.uid = some c → opPlace s c o = some p → o.held = false →
    inSwitch s p = false → Unstruck s →
    let t := tickOf s c
    let old := readNow s p o.size
    let res := fun (v : Word) (s' : State) => { s' with
      agenda := due s' c (t + resultOffset c (word o.addr)) 16 (.result c.uid o v) }
    (∀ w, rights s c p = some w → o.kind ∉ [.arrive, .arrdrop, .binit, .swait, .waitb] →
      performEff s ev (.sync c.uid o) = takeFault s c.uid ⟨0x06, word o.addr, word w, false⟩ o.pc)
    ∧ (rights s c p = none → (o.kind = .store ∨ o.kind = .relStore ∨ poisonedAt s p o.size = none) →
    (o.kind = .load → performEff s ev (.sync c.uid o) = res (loadedValue o.signed old) s)
    ∧ (o.kind = .acqLoad → performEff s ev (.sync c.uid o) = res (loadedValue o.signed old) (seenFrom s c t))
    ∧ ((o.kind = .store ∨ o.kind = .relStore) → performEff s ev (.sync c.uid o) = storePlace s p (lowBytes o.size o.val) o.bad t none)
    ∧ (∀ w, 0 < o.size → o.size ≤ 8 →
      (amoWrites o.kind o.signed (8 * o.size) (natOfBytes old) (o.val.toNat % 2 ^ (8 * o.size)) (o.exp.toNat % 2 ^ (8 * o.size)) = w) →
      (o.kind ∈ [.add, .and, .or, .xor, .min, .max, .swap, .cas]) →
      let s' := match w with | some v => storePlace (noteTarget s p) p (lowBytes o.size (word v)) o.bad t none | none => noteTarget s p
      (o.d = 0 → performEff s ev (.sync c.uid o) = s')
      ∧ (o.d ≠ 0 → ∃ s'', performEff s ev (.sync c.uid o) = s''
        ∧ s''.agenda = due s' c (t + resultOffset c (word o.addr)) 16 (.result c.uid o (loadedValue o.signed old))
        ∧ SameStorage s' s'' ∧ s''.cores = s'.cores
        ∧ ∃ c', unitOf s'' c.uid = some c' ∧ c'.view = max c.view t ∧ c'.bank = c.bank ∧ c'.pc = c.pc))))
  ∧ (∀ (s : State) (ev : Ev) (o : SyncOp) (v : Word) (c : Ctx), unitOf s c.uid = some c → o.kind ≠ .swait → o.kind ≠ .waitb →
    o.d ≠ 0 → performEff s ev (.result c.uid o v) = setUnit s (wrPhys c o.d v)
      ∧ BitVec.ofNat 64 (natOfBytes ((wrPhys c o.d v).bank.readRun (8 * o.d) 8)) = v
      ∧ ∀ off, (off < 8 * o.d ∨ 8 * o.d + 8 ≤ off) → (wrPhys c o.d v).bank.read off = c.bank.read off)

/-- R262: PREF brings the line of a shared address into the core's prefetch buffer of 64 lines; on an address that fails a
check, or is not shared, it does nothing. That the line stands there in the same step, and which line leaves, is the model's reading
(DEDUCED, log entry 26). -/
def Obligations.PrefBringsTheLine : Prop :=
  ∀ (a : Reg) (off : BitVec 12) (off' : BitVec 32) (s : State) (c : Ctx), Runs s c [0] →
    ∀ (i : Instr) (addr : Word) (len : Nat), ((i = .pref a off ∧ addr = addressAt c a off.toInt ∧ len = 4)
      ∨ (i = .longTwin .pref 0 a off' ∧ addr = addressAt c a off'.toInt ∧ len = 8)) →
    (∀ t, check s c addr 1 .load = .error t → Continues i s c len 1 (fun c' => c' = c))
    ∧ (∀ p, check s c addr 1 .load = .ok p → ¬ (p.win = 0 ∨ p.win = 4) → Continues i s c len 1 (fun c' => c' = c))
    ∧ (∀ p, check s c addr 1 .load = .ok p → (p.win = 0 ∨ p.win = 4) → ∃ t, exec i s = .next t
      ∧ t.cx = some (onward s c len) ∧ t.mem = s.mem ∧ t.hostMem = s.hostMem ∧ t.window = s.window ∧ t.rents = s.rents
      ∧ t.vds = s.vds ∧ t.words = s.words ∧ t.units = s.units ∧ t.agenda = s.agenda
      ∧ (∀ w ∈ s.memPoison, w.1 ≠ prefetchSpace c.core → w ∈ t.memPoison) ∧ (∀ w ∈ t.memPoison, w ∈ s.memPoison)
      ∧ (coreOf t c.core).prefetch.head? = some (locOf p.space p.off / 256) ∧ (coreOf t c.core).prefetch.length ≤ 64
      ∧ (∀ k, k ≠ c.core → coreOf t k = coreOf s k))

/-- R168, R264, R355: LAND starts the landing of the flight, blocks until T_L, and LAND_COMPLETE then sets the view tick to T_L, or
reports the first dropped address; in an idem region LAND raises REGION. A flight of bytes of earlier ticks, one for each address,
lands whole, and one of bytes of this tick stays. -/
def Obligations.LandBlocksUntilItsTick : Prop :=
  (∀ (sc : Scope) (s : State) (c : Ctx), Runs s c [0] →
    (c.idem = true → exec (.land sc) s = .next (takeFault s c.uid ⟨0x14, 0, 3, false⟩ c.pc))
    ∧ (c.idem = false → Uncounted s c sc →
      let tl := landingTick s c sc (tickOf s c)
      exec (.land sc) s = .next { s with
        agenda := due s c tl 4 (.land c.uid sc (lands s c) tl none)
          ++ [⟨c.core / 128, tl, 4, c.uid, 0, .ins (.landComplete c.uid), false⟩]
        cx := some { left s c with wait := .land tl, landDropped := none } })
    ∧ (c.idem = false → ∃ t k, exec (.land sc) s = .next t ∧ landingTick s c sc (tickOf s c) ≤ k
      ∧ t.cx = some { left s c with wait := .land k, landDropped := none }))
  ∧ (∀ (s : State) (c : Ctx), c.upsets = [] → (c.flight.map (fun f => (f.space, f.off))).Nodup →
    ((∀ f ∈ c.flight, f.placed < tickOf s c) → lands s c = c.flight ∧ left s c = { c with inLand := c.inLand ++ c.flight, flight := [] })
    ∧ ((∀ f ∈ c.flight, tickOf s c ≤ f.placed) → lands s c = [] ∧ left s c = c))
  ∧ (∀ (uid : Nat) (s : State) (c : Ctx), unitOf s uid = some c → c.uid = uid → c.wait = .land (tickOf s c) →
    let c' := { raised s c (tickOf s c) with wait := .run, landDropped := none, nextAt := tickOf s c }
    (c.landDropped = none → exec (.landComplete uid) s = .next (setUnit s { c' with pc := c.pc + 4 }))
    ∧ (∀ cause a why, c.landDropped = some (cause, a, why) →
      exec (.landComplete uid) s = .next (takeFault (setUnit s c') uid ⟨cause, word a, word why, false⟩ c.pc)))

/-- R168, R169, R194: a landing writes every byte of the flight, and no other, at once, marks what was poisoned, and its context's view
is its tick; it keeps whom its scope includes. -/
def Obligations.LandingWritesTheFlight : Prop :=
  ∀ (s : State) (ev : Ev) (c : Ctx) (sc : Scope) (bytes : List FByte) (perf : Nat), unitOf s c.uid = some c →
    (∀ f ∈ bytes, f.space ≠ 0 ∧ f.off < 2 ^ 41 ∧ ∀ w ∈ s.words, w.1 ≠ f.space) →
    (bytes.map (fun f => locOf f.space f.off)).Nodup →
    (∀ x ∈ (List.range bytes.length).zip bytes, droppedAtLanding s c x.1 x.2 = false) → landingStalls s bytes = false →
    let t := performEff s ev (.land c.uid sc bytes perf none)
    (∀ a, t.mem.read a = match bytes.find? (fun f => locOf f.space f.off == a) with | some f => f.val | none => s.mem.read a)
    ∧ t.hostMem = s.hostMem ∧ t.rents = s.rents ∧ t.words = s.words
    ∧ (∀ f ∈ bytes, f.mark = true → (f.space, f.off / 8 * 8) ∈ t.memPoison)
    ∧ (∃ l, t.landings = s.landings ++ [l] ∧ l.uid = c.uid ∧ l.core = c.core ∧ l.tick = tickOf s c ∧ l.scope = sc ∧ l.seen = []
      ∧ ∀ u ∈ allUnits s, u.uid ∈ l.incl ↔ ∃ v ∈ allUnits s, v.uid = u.uid ∧ inScope s sc c.core v = true)
    ∧ ∃ c', unitOf t c.uid = some c' ∧ c'.view = max c.view (tickOf s c) ∧ c'.bank = c.bank ∧ c'.pc = c.pc

/-- R54, R244, R355: HALT lands the flight at system scope and waits; with its commands over, the next work item starts at the entry
point, and after the last one what its commands placed meanwhile lands, the context has exited and its unit counts; a region open
raises REGION. -/
def Obligations.HaltEndsTheWorkItem : Prop :=
  (∀ (s : State) (c : Ctx), Runs s c [0] →
    (c.region.isSome → exec .halt s = .next (takeFault s c.uid ⟨0x14, 0, 5, false⟩ c.pc))
    ∧ (c.region = none → Uncounted s c .system →
      let tl := landingTick s c .system (tickOf s c)
      exec .halt s = .next { s with
        agenda := due s c tl 4 (.land c.uid .system (lands s c) tl none)
        cx := some { left s c with wait := .halt tl, landDropped := none } }))
  ∧ (∀ (uid : Nat) (s : State) (c : Ctx) (k : Nat), unitOf s uid = some c → c.uid = uid → c.wait = .halt k → k ≤ tickOf s c →
    allOver s c = true →
    (c.wid.toNat < c.lastWid.toNat → exec (.contextExit uid) s = .next (setUnit s { c with
      wid := word (c.wid.toNat + 1), pc := c.entry, wait := .run, nextAt := tickOf s c }))
    ∧ (c.lastWid.toNat ≤ c.wid.toNat → c.flight ≠ [] → ∃ t k c', exec (.contextExit uid) s = .next t ∧ unitOf t uid = some c'
      ∧ c'.wait = .halt k ∧ tickOf s c < k ∧ SameStorage s t ∧ launchOf t c.launch = launchOf s c.launch)
    ∧ (c.lastWid.toNat ≤ c.wid.toNat → c.flight = [] → c.regs16 = [] → ∃ t, exec (.contextExit uid) s = .next t
      ∧ (launchOf t c.launch).unitsDone = (launchOf s c.launch).unitsDone + 1
      ∧ (∀ c', unitOf t uid = some c' → c'.wait = .done)))

/-- R271 to R273: a barrier write whose checks pass is a release at its scope, held in an idem region; its operand, address and
registration faults are those of R273, and BINIT faults for the count 0 alone. ARRDROP on a region whose right has ended passes, to
drop its registration (Table 4.10). -/
def Sys2Proof.Stated.BarrierWritesAreReleases : Prop :=
  ∀ (i : Instr) (k : SyncKind) (sc : Scope) (a : Reg) (v : Word) (s : State) (c : Ctx), barrierOf c i = some (k, sc, a, v) →
    Runs s c [21] →
    let addr := rdS c a.toNat
    let o := { operation k addr 16 c with scope := sc, val := v }
    (¬ decodes c addr ∨ codeOfAddress c.lcore addr ≠ 5 →
      exec i s = .next (takeFault s c.uid ⟨0x04, addr, 0, false⟩ c.pc))
    ∧ (decodes c addr → codeOfAddress c.lcore addr = 5 → addr.toNat % 16 ≠ 0 →
      exec i s = .next (takeFault s c.uid ⟨0x13, addr, 0, false⟩ c.pc))
    ∧ (objectAddress c addr false → k = .binit → v = 0 →
      exec i s = .next (takeFault s c.uid ⟨0x04, 0, 0, false⟩ c.pc))
    ∧ (∀ p, objectAddress c addr false → translate s c (windowFor c addr) addr = .ok p →
      (k = .binit → v ≠ 0) →
      let lapsed := (rights s c p).isSome ∧ k = .arrdrop ∧ rights s c p ≠ some 2 ∧ rights s c p ≠ some 3
      ((rights s c p = none ∨ lapsed) →
        (k = .binit ∨ lapsed ∨ frozenAt s p.space p.off = true ∨ c.regs16.length < 16 ∨ ∃ r ∈ c.regs16, r.addr = addr.toNat) →
        (c.idem = false → Uncounted s c sc → Released i s c p sc o 4 (fun c' _ => c')) ∧ Held i s c o 4)
      ∧ (rights s c p = none → k ≠ .binit → frozenAt s p.space p.off = false → 16 ≤ c.regs16.length →
        (∀ r ∈ c.regs16, r.addr ≠ addr.toNat) →
        exec i s = .next (takeFault s c.uid ⟨0x14, 0, 7, false⟩ c.pc))
      ∧ (∀ why, rights s c p = some why → ¬ lapsed →
        exec i s = .next (takeFault s c.uid ⟨0x06, addr, word why, false⟩ c.pc)))

/-- R273, R87: an arrival that completes no generation counts one and registers; one that completes it starts the next
generation; a second arrival of a generation does nothing; ARRDROP arrives, then expects one fewer, which may complete the
generation, and ends its registration; BINIT sets the expected number, the low 32 bits of its operand (DESIGN CHOICE, log entry 128), and
forgets every unit's registration. An object first used as a barrier starts neither reached nor frozen (log entry 19). -/
def Sys2Proof.Stated.BarrierOperationsPerform : Prop :=
  ∀ (s : State) (ev : Ev) (o : SyncOp) (c : Ctx) (p : Place), unitOf s c.uid = some c → opPlace s c o = some p →
    o.held = false → rights s c p = none → inSwitch s p = false → s.keyed → Unstruck s →
    let w := wordAt (meetBarrier s p.space p.off (tickOf s c)) p.space p.off
    let t := performEff s ev (.sync c.uid o)
    ((∀ x ∈ s.words, x.1 = p.space → x.2.1 ≠ p.off) → w = { wordAt s p.space p.off with reached := false, frozen := false })
    ∧ (s.words.find? (fun x => x.1 == p.space && x.2.1 == p.off) = some (p.space, p.off, true) → w = wordAt s p.space p.off)
    ∧ (o.kind = .binit →
      wordAt t p.space p.off = ⟨o.val.toNat % 2 ^ 32, 0, w.gen, false, w.reached⟩
      ∧ (∀ x c', unitOf t x = some c' → ∀ r ∈ c'.regs16, r.addr ≠ o.addr))
    ∧ (o.kind = .arrive → w.frozen = false → c.regs16.length < 16 → (∀ r ∈ c.regs16, r.addr ≠ o.addr) →
      wordAt t p.space p.off = (if w.target ≤ w.count + 1 then ⟨w.target, 0, (w.gen + 1) % 65536, false, w.reached⟩
        else ⟨w.target, w.count + 1, w.gen, false, w.reached⟩)
      ∧ ∃ c', unitOf t c.uid = some c' ∧ ⟨o.addr, w.gen⟩ ∈ c'.regs16)
    ∧ (o.kind = .arrive → w.frozen = false → ⟨o.addr, w.gen⟩ ∈ c.regs16 → wordAt t p.space p.off = w ∧ unitOf t c.uid = some c)
    ∧ (o.kind = .arrdrop → w.frozen = false → 0 < w.target →
      (∀ r ∈ c.regs16, r.addr = o.addr → r.gen = w.gen) → (c.regs16.length < 16 ∨ ∃ r ∈ c.regs16, r.addr = o.addr) →
      let arrived := decide (∃ r ∈ c.regs16, r.addr = o.addr)
      let n := if arrived then w.count else w.count + 1
      (wordAt t p.space p.off =
        if !arrived && decide (w.target ≤ n) then ⟨w.target - 1, 0, (w.gen + 1) % 65536, false, w.reached⟩
        else if 1 < w.target ∧ w.target - 1 ≤ n then ⟨w.target - 1, 0, (w.gen + 1) % 65536, false, w.reached⟩
        else ⟨w.target - 1, n, w.gen, false, w.reached⟩)
      ∧ ∃ c', unitOf t c.uid = some c' ∧ ∀ r ∈ c'.regs16, r.addr ≠ o.addr)

/-- R271 to R273: ARRIVE, ARRDROP and BINIT are releases; what they do at the engine. -/
def Obligations.BarrierWritesReleaseAndPerform : Prop := Stated.BarrierWritesAreReleases ∧ Stated.BarrierOperationsPerform

/-- R272, R274: a wait goes to the engine of its object and blocks its context until the test. -/
def Sys2Proof.Stated.WaitsTestAtTheirTick : Prop :=
  (∀ (i : Instr) (k : SyncKind) (sp : Bool) (sc : Scope) (q d a : Reg) (s : State) (c : Ctx) (p : Place),
    waitOf i = some (k, sp, sc, q, d, a) → Runs s c [21] → objectAddress c (rdS c a.toNat) sp →
    translate s c (windowFor c (rdS c a.toNat)) (rdS c a.toNat) = .ok p →
    let addr := rdS c a.toNat
    let o := { operation k addr 16 c with scope := sc, d := rot c d.toNat, p := rotP c q.toNat }
    let T := performTick c p addr (tickOf s c)
    exec i s = .next { s with
      agenda := due s c T 12 (.sync c.uid o), cx := some { c with objects := tset c.objects (objectOf p) T, wait := .test o } })
  ∧ (∀ (s : State) (ev : Ev) (c : Ctx) (o : SyncOp) (p : Place), unitOf s c.uid = some c → c.wait = .test o →
    opPlace s c o = some p → rights s c p = none → inSwitch s p = false → Unstruck s →
    let w := wordAt s p.space p.off
    let t := performEff s ev (.sync c.uid o)
    let ends := fun (status : Nat) => ∃ c', unitOf t c.uid = some c' ∧ c'.wait = .status o
      ∧ c'.view = (if status = 0 then max c.view (tickOf s c) else c.view) ∧ c'.bank = c.bank ∧ c'.pc = c.pc
      ∧ ⟨c.core / 128, tickOf s c + 20, 16, c.uid, 0, .eff (.result c.uid o (word status)), false⟩ ∈ t.agenda
    (((rentOf s p.ref).state = 1 ∨ (rentOf s p.ref).state = 2) → frozenAt s p.space p.off = true → (o.kind = .swait ∨ o.kind = .waitb) → ends 3)
    ∧ (w.frozen = false → o.kind = .swait → (p.space, p.off, false) ∈ s.words → w.reached = true → ends 0)
    ∧ (w.frozen = false → o.kind = .swait → (p.space, p.off, false) ∈ s.words → w.reached = false →
      ∃ c', unitOf t c.uid = some c' ∧ c'.wait = .op o ∧ t.agenda = s.agenda)
    ∧ (w.frozen = false → o.kind = .waitb → (∀ r ∈ c.regs16, r.addr ≠ o.addr) → ends 1)
    ∧ (w.frozen = false → o.kind = .waitb → c.regs16 = [⟨o.addr, w.gen⟩] → ∃ c', unitOf t c.uid = some c' ∧ c'.wait = .op o)
    ∧ (w.frozen = false → o.kind = .waitb → (∃ g, c.regs16 = [⟨o.addr, g⟩] ∧ g ≠ w.gen) → ends 0))

/-- R274, R348: WAIT_RELEASE sends a blocked wait its status; when it is written, S[d] holds it, P[p] is all ones for status 0
and zero otherwise, and the context goes on. -/
def Sys2Proof.Stated.ReleasedWaitsTakeTheirStatus : Prop :=
  (∀ (uid status : Nat) (s : State) (c : Ctx) (o : SyncOp), unitOf s uid = some c → c.uid = uid → c.wait = .op o →
    (o.kind = .swait ∨ o.kind = .waitb) → ∃ t, exec (.waitRelease uid status) s = .next t ∧ SameStorage s t
      ∧ unitOf t uid = some { (if status = 0 then raised s c (tickOf s c) else c) with wait := .status o }
      ∧ t.agenda = due s c (tickOf s c + 20) 16 (.result uid o (word status)))
  ∧ (∀ (s : State) (ev : Ev) (c : Ctx) (o : SyncOp) (v : Word), unitOf s c.uid = some c → c.wait = .status o →
    (o.kind = .swait ∨ o.kind = .waitb) → ∃ c', performEff s ev (.result c.uid o v) = setUnit s c'
      ∧ (o.d ≠ 0 → BitVec.ofNat 64 (natOfBytes (c'.bank.readRun (8 * o.d) 8)) = v)
      ∧ (o.p ≠ 0 → rdPhysP c' o.p = if v = 0 then word (2 ^ 64 - 1) else 0)
      ∧ (∀ q, q ≠ o.p → rdPhysP c' q = rdPhysP c q)
      ∧ (∀ off, (o.d = 0 ∨ off < 8 * o.d ∨ 8 * o.d + 8 ≤ off) → c'.bank.read off = c.bank.read off)
      ∧ c'.wait = .run ∧ c'.pc = c.pc + 4 ∧ c'.nextAt = max c.nextAt (tickOf s c) ∧ c'.view = c.view)

/-- R274, R348: SWAIT and WAITB test, block, are released and take their status. -/
def Obligations.WaitsTakeTheirStatus : Prop := Stated.WaitsTestAtTheirTick ∧ Stated.ReleasedWaitsTakeTheirStatus

end

namespace Sys2Proof.Stated
open Sys2Proof Sys2Proof.Machine

/-! ## Buffers, regions, setup and rent (R81, R84, R101, R102, R114, R119, R267 to R281, R303) -/

/-- Buffer-table entry n. -/
def entry (c : Ctx) (n : Nat) : Buf := (tget c.bufs n).getD default

/-- The operands of BDECL satisfy R276 for entry n. -/
def declarable (c : Ctx) (n base len word target : Nat) : Prop :=
  base % 32 = 0 ∧ len % 32 = 0 ∧ len ≠ 0 ∧ word % 16 = 0 ∧ 1 ≤ target ∧ target < 2 ^ 32 ∧ base + len ≤ 2 ^ 22 ∧ word + 16 ≤ 2 ^ 22
    ∧ (word + 16 ≤ base ∨ base + len ≤ word)
    ∧ ∀ e ∈ c.bufs, e.2.declared = true → e.1 ≠ n →
      (e.2.base + e.2.length ≤ base ∨ base + len ≤ e.2.base) ∧ (e.2.base + e.2.length ≤ word ∨ word + 16 ≤ e.2.base)

/-- What BSTAT reports (R277): count, generation, reached, frozen, declared and state; 0 for an undeclared entry. -/
def statusOf (s : State) (c : Ctx) (e : Buf) : Word :=
  let p := spadPlace s c e.wordOff 2
  let w := wordAt s p.space p.off
  if e.declared then word (w.count * 2 ^ 32 + w.gen * 2 ^ 16 + (if w.reached then 2 ^ 4 else 0) + (if w.frozen then 2 ^ 3 else 0)
    + 2 ^ 2 + e.state) else 0

/-- A fault of the executing context is taken and nothing else happens. -/
def Faults (i : Instr) (s : State) (c : Ctx) (cause : Nat) (tval tinfo : Word) : Prop :=
  exec i s = .next (takeFault s c.uid ⟨cause, tval, tinfo, false⟩ c.pc)

/-- Bits [lo + n - 1 : lo]. -/
def bitsAt (v lo n : Nat) : Nat := v / 2 ^ lo % 2 ^ n

/-- The buffer instruction is complete, and its effect on entry n is due at the next tick (R275). -/
def Announces (i : Instr) (s : State) (c : Ctx) (n : Nat) (op : BufOp) : Prop :=
  exec i s = .next { s with agenda := due s c (tickOf s c + 1) 16 (.buffer c.uid n op), cx := some (onward s c 4) }

/-- A view image is an illegal one: kind above 3, a reserved bit, or a reserved format where the kind is not 0 (R101, R303). -/
def badView (v : Nat) : Prop :=
  3 < bitsAt v 124 4 ∨ bitsAt v 96 7 ≠ 0 ∨ bitsAt v 25 39 ≠ 0 ∨ (bitsAt v 124 4 ≠ 0 ∧ 0x11 < bitsAt v 19 6)

/-- A view image of kind 1 to 3 places its names inside the register store (R101). -/
def placedView (v : Nat) : Prop :=
  let base := bitsAt v 0 19
  let count := bitsAt v 111 7
  let span := if bitsAt v 124 4 = 1 then 256 else (bitsAt v 103 8 + 1) * (bitsAt v 84 12 * 32)
  let names := match bitsAt v 124 4 with | 1 => 64 | 2 => 16 | _ => 8
  base % 32 = 0 ∧ bitsAt v 64 20 % 32 = 0 ∧ 1 ≤ count ∧ bitsAt v 118 6 + count ≤ names
    ∧ base + (count - 1) * bitsAt v 64 20 + span ≤ 0x80000

/-- A stream image GSET accepts: set, without reserved bits, its format not reserved, a block format with a split (R102). -/
def goodStream (g : Nat) : Prop :=
  bitsAt g 96 32 ≠ 0 ∧ bitsAt g 128 16 ≠ 0 ∧ bitsAt g 144 16 ≠ 0 ∧ bitsAt g 64 6 ≤ 0x11 ∧ bitsAt g 256 128 = 0 ∧ bitsAt g 77 3 = 0
    ∧ bitsAt g 70 2 = 0 ∧ ((bitsAt g 64 6 = 0x0F ∨ bitsAt g 64 6 = 0x10) → bitsAt g 72 4 ≠ 0)

/-- Region openers: whether they contain, whether they are idempotent, and the handler. -/
def openerOf (c : Ctx) (i : Instr) : Option (Bool × Bool × Word) :=
  match i with
  | .rgopenContain a => some (true, false, rdS c a.toNat)
  | .rgopenIdem _ => some (false, true, 0)
  | .rgopenBoth a => some (true, true, rdS c a.toNat)
  | _ => none

/-- The rent instructions: first result name, results, operand values, and whether an idem region allows it (R278). -/
def rentShape (c : Ctx) (i : Instr) : Option (Nat × Nat × List Word × Bool) :=
  let S := fun (r : Reg) => rdS c r.toNat
  match i with
  | .rent _ _ d a b => some (d.toNat, 2, [S a, S b], false)
  | .renew _ d a b => some (d.toNat, 1, [S a, S b], false)
  | .prepay _ d a b => some (d.toNat, 1, [S a, S b], false)
  | .sublet _ d a b => some (d.toNat, 2, [S a, S b, rdS c (b.toNat + 1), rdS c (b.toNat + 2), rdS c (b.toNat + 3)], false)
  | .unsublet _ d a => some (d.toNat, 1, [S a], false)
  | .release _ d a => some (d.toNat, 1, [S a], false)
  | .rquery _ d a => some (d.toNat, 5, [S a], true)
  | _ => none

/-- A result of a rent operation is due 4 ticks after it has performed. -/
def rentResult (s : State) (c : Ctx) (p v : Nat) : Ev :=
  ⟨c.core / 128, tickOf s c + 4, 11, c.uid, 0, .eff (.bank c.uid (8 * p) (lowBytes 8 (word v)) []), false⟩

/-- Bytes × weight of a region (R73, Table 4.1). -/
def rentRate (r : Rent) : Nat :=
  match r.tier with
  | 0 => r.size * (if r.item < 4 then 524288 else 32768) * 256
  | 1 => r.size * 4096 * 64 | 2 => r.size * 65536 * 16 | 3 => r.size * 65536 * 2 | _ => r.size * 65536 * 1

/-- The allowance of a virtual device. -/
def allowanceOf (s : State) (vd : Nat) : Nat := (vdOf s vd).allowance

/-- Words, barriers and atomic targets stand on 16-byte units inside their region's storage. -/
def Placed (s : State) : Prop :=
  (∀ w ∈ s.words, w.2.1 % 16 = 0 ∧ w.2.1 + 16 ≤ 2 ^ 41) ∧ (∀ w ∈ s.targets, w.2 % 16 = 0 ∧ w.2 + 16 ≤ 2 ^ 41)

/-- Contents of a space read zero, and every other space's are as they were. -/
def Emptied (s t : State) (space : Nat) : Prop :=
  ∀ a, t.mem.read a = if a / 2 ^ 41 = space then 0 else s.mem.read a

end Sys2Proof.Stated

section
open Sys2Proof Sys2Proof.Machine Sys2Proof.Stated

/-- R275, R276: BDECL announces the declaration of an entry, or with length 0 its withdrawal; an entry in use raises BUFFER_STATE,
a number of 64 or more ADDRESS. -/
def Sys2Proof.Stated.BdeclDeclaresABuffer : Prop :=
  ∀ (a b : Reg) (s : State) (c : Ctx), Runs s c [0] →
    let n := (rdS c a.toNat).toNat
    let arg := fun k => (rdS c (b.toNat + k)).toNat
    (64 ≤ n → Faults (.bdecl a b) s c 0x04 (rdS c a.toNat) 0)
    ∧ (n < 64 → (entry c n).declared = true → (entry c n).state ≠ 0 →
      Faults (.bdecl a b) s c 0x07 (rdS c a.toNat) (word (entry c n).state))
    ∧ (n < 64 → ((entry c n).declared = false ∨ (entry c n).state = 0) →
      (arg 1 = 0 → Announces (.bdecl a b) s c n .undeclare)
      ∧ (arg 1 ≠ 0 → arg 0 % 32 ≠ 0 → Faults (.bdecl a b) s c 0x04 (word (arg 0)) 1)
      ∧ (declarable c n (arg 0) (arg 1) (arg 2) (arg 3) → checkOwn s c [(arg 0, arg 1), (arg 2, 16)] = .ok () →
        Announces (.bdecl a b) s c n (.declare ⟨arg 2, arg 1, arg 0, 0, true⟩ (arg 3))))

/-- R275, Table 5.8: BACQ.fill announces the entry's way from EMPTY to FILLING, BACQ.drain from FULL to DRAINING and BREL from DRAINING
to EMPTY; other states raise BUFFER_STATE; BSTAT reads the entry 4 ticks later. -/
def Sys2Proof.Stated.BuffersMoveBetweenStates : Prop :=
  ∀ (d a : Reg) (s : State) (c : Ctx), Runs s c [0] →
    let n := (rdS c a.toNat).toNat
    let e := entry c n
    (64 ≤ n → Faults (.bacqFill a) s c 0x04 (rdS c a.toNat) 0 ∧ Faults (.bacqDrain a) s c 0x04 (rdS c a.toNat) 0
      ∧ Faults (.brel a) s c 0x04 (rdS c a.toNat) 0 ∧ Faults (.bstat d a) s c 0x04 (rdS c a.toNat) 0)
    ∧ (n < 64 → e.declared = false → Faults (.bacqFill a) s c 0x07 (rdS c a.toNat) 4
      ∧ Faults (.bacqDrain a) s c 0x07 (rdS c a.toNat) 4 ∧ Continues (.brel a) s c 4 1 (fun c' => c' = c))
    ∧ (n < 64 → e.declared = true → checkOwn s c [(e.base, e.length)] = .ok () →
      (e.state = 0 → Announces (.bacqFill a) s c n (.acquire 0 1) ∧ Continues (.brel a) s c 4 1 (fun c' => c' = c))
      ∧ (e.state ≠ 0 → Faults (.bacqFill a) s c 0x07 (rdS c a.toNat) (word e.state))
      ∧ (e.state = 2 → Announces (.bacqDrain a) s c n (.acquire 2 3))
      ∧ (e.state ≠ 2 → Faults (.bacqDrain a) s c 0x07 (rdS c a.toNat) (word e.state))
      ∧ ((e.state = 1 ∨ e.state = 2) → Faults (.brel a) s c 0x07 (rdS c a.toNat) (word e.state))
      ∧ (e.state = 3 → Announces (.brel a) s c n .release))
    ∧ (n < 64 → ResultInTicks (.bstat d a) s c d.toNat 4 4 (statusOf s c e))

/-- R87, R114, R115, Table 5.8: one tick later the entry is declared with its word armed, withdrawn, acquired or released with its word
cleared, and nothing else changes; an acquisition or release of an entry whose word is frozen leaves all as it was. -/
def Sys2Proof.Stated.BufferEffectsPerform : Prop :=
  ∀ (s : State) (ev : Ev) (c : Ctx) (n : Nat), unitOf s c.uid = some c →
    let e := entry c n
    let p := spadPlace s c e.wordOff 2
    let w := wordAt s p.space p.off
    let with_ := fun (b : Buf) => { c with bufs := tset c.bufs n b }
    let does := fun (op : BufOp) (q : Place) (b : Buf) (x : SyncWord) =>
      let t := performEff s ev (.buffer c.uid n op)
      unitOf t c.uid = some (with_ b) ∧ wordAt t q.space q.off = x
      ∧ (∀ a, (a < locOf q.space q.off ∨ locOf q.space q.off + 16 ≤ a) → t.mem.read a = s.mem.read a)
      ∧ t.hostMem = s.hostMem ∧ t.rents = s.rents ∧ t.cores = s.cores ∧ t.agenda = s.agenda
    performEff s ev (.buffer c.uid n .undeclare) = setUnit s (with_ { e with declared := false })
    ∧ (∀ (b : Buf) (target : Nat), target < 2 ^ 32 →
      let q := spadPlace s c b.wordOff 2
      does (.declare b target) q b ⟨target, 0, (wordAt s q.space q.off).gen, false, false⟩)
    ∧ (∀ need next, performEff s ev (.buffer c.uid n (.acquire need next)) =
      if e.declared = true ∧ e.state = need ∧ w.frozen = false then setUnit s (with_ { e with state := next }) else s)
    ∧ (e.declared = true → e.state = 3 → w.frozen = false →
      does .release p { e with state := 0 } { w with count := 0, reached := false })
    ∧ ((e.declared = false ∨ e.state ≠ 3 ∨ w.frozen = true) → performEff s ev (.buffer c.uid n .release) = s)

/-- R87, R114, R115, R275 to R277, Table 5.8: declaration, acquisition, release and status of buffers. That the buffer table is the
unit's own is log entry 25's reading (DEDUCED), that BACQ and BREL leave the entry of a frozen word is log entry 117's (DEDUCED), and in
what order the effects of E + 1 come is log entry 8's. -/
def Obligations.BuffersFollowTheirTable : Prop :=
  Stated.BdeclDeclaresABuffer ∧ Stated.BuffersMoveBetweenStates ∧ Stated.BufferEffectsPerform

/-- R101, R102, R113, R303: VIEWSET and GSET copy the image at a register-store offset into their register, and nothing else; an
image that may not stand there faults and changes nothing, and one with a byte in the shadow of a pending write is an early read
where the checker is on. An image that ends at 0x8_0000 stands there: that is the model's reading of R303 (DEDUCED, log entry 110). -/
def Obligations.SetupWritesTheImage : Prop :=
  ∀ (n : BitVec 4) (a : Reg) (s : State) (c : Ctx), Runs s c [0] →
    let off := (rdS c a.toNat).toNat
    let v := natOfBytes (c.bank.readRun off 16)
    let g := natOfBytes (c.bank.readRun off 48)
    let shadowed := fun (size : Nat) => if checksShadow s c then bankShadow s c 0 off size (tickOf s c) else none
    ((off % 16 ≠ 0 ∨ 0x80000 < off + 16) → Faults (.viewset n a) s c 0x04 (rdS c a.toNat) 0)
    ∧ (∀ b, off % 16 = 0 → off + 16 ≤ 0x80000 → shadowed 16 = some b → Faults (.viewset n a) s c 0x0C (word b) 0)
    ∧ (off % 16 = 0 → off + 16 ≤ 0x80000 → shadowed 16 = none →
      (badView v → exec (.viewset n a) s = .next (takeFault s c.uid ⟨0x01, 0, 0, true⟩ c.pc))
      ∧ (¬ badView v → bitsAt v 124 4 = 0 → Continues (.viewset n a) s c 4 1 (fun c' => c' = { c with views := tset c.views n.toNat 0 }))
      ∧ (¬ badView v → bitsAt v 124 4 ≠ 0 → placedView v →
        Continues (.viewset n a) s c 4 1 (fun c' => c' = { c with views := tset c.views n.toNat (BitVec.ofNat 128 v) }))
      ∧ (¬ badView v → bitsAt v 124 4 ≠ 0 → ¬ placedView v → Faults (.viewset n a) s c 0x04 (rdS c a.toNat) 0))
    ∧ ((off % 16 ≠ 0 ∨ 0x80000 < off + 48) → Faults (.gset n a) s c 0x04 (rdS c a.toNat) 0)
    ∧ (∀ b, off % 16 = 0 → off + 48 ≤ 0x80000 → shadowed 48 = some b → Faults (.gset n a) s c 0x0C (word b) 0)
    ∧ (off % 16 = 0 → off + 48 ≤ 0x80000 → shadowed 48 = none →
      (goodStream g → Continues (.gset n a) s c 4 1 (fun c' => c' = { c with streams := tset c.streams n.toNat (BitVec.ofNat 384 g) }))
      ∧ (¬ goodStream g → exec (.gset n a) s = .next (takeFault s c.uid ⟨0x01, 0, 0, true⟩ c.pc)))

/-- R119, R267: RGOPEN opens a region in 8 ticks; an idem one keeps what a restart restores, and the results on their way are
known to be older than it; an open region or handler level
raises REGION 2, a store in flight REGION 1, a misaligned handler ALIGN with its value. That ALIGN comes last, and its tval, are the
model's reading (DEDUCED, log entry 28). -/
def Obligations.RgopenOpensARegion : Prop :=
  ∀ (i : Instr) (contain idem : Bool) (h : Word) (s : State) (c : Ctx), openerOf c i = some (contain, idem, h) → Runs s c [0] →
    c.sliceEnd = none →
    ((c.handler = true ∨ c.region.isSome) → Faults i s c 0x14 0 2)
    ∧ (c.handler = false → c.region = none → c.flight ≠ [] → Faults i s c 0x14 0 1)
    ∧ (c.handler = false → c.region = none → c.flight = [] → h.toNat % 4 ≠ 0 → Faults i s c 0x13 h 0)
    ∧ (c.handler = false → c.region = none → c.flight = [] → h.toNat % 4 = 0 → ∃ r,
      exec i s = .next { s with
        nextId := s.nextId + 1
        agenda := if idem then s.agenda.map (fun e => if e.uid = c.uid && e.own = 0 then { e with older := true } else e) else s.agenda
        cx := some { c with region := some r, pc := c.pc + 4, nextAt := tickOf s c + 8 } }
      ∧ r.contain = contain ∧ r.idem = idem ∧ r.handler = h ∧ r.openPc = c.pc ∧ r.firstCmd = s.nextId ∧ r.held = []
      ∧ (idem = true → (∀ k < 31, r.snap.scalars[k]? = some (BitVec.ofNat 64 (natOfBytes (c.bank.readRun (8 * (k + 1)) 8))))
        ∧ (∀ k < 95, r.snap.preds[k]? = some (rdPhysP c (k + 1))) ∧ r.snap.lc = c.lc ∧ r.snap.ec = c.ec ∧ r.snap.rb = c.rb
        ∧ r.snap.streams = c.streams ∧ r.snap.bufs = c.bufs ∧ r.snap.taken = c.work.taken
        ∧ r.snap.busy = c.busy))

/-- R119, R195, R269, R270: RGCLOSE closes the region; an idem one issues its held effects first. RGABORT drops the flight and the
region's commands; an idem one also drops the results to come of what it issued and puts back what RGOPEN kept. With no region
open both raise REGION 4. -/
def Obligations.RegionsCloseOrAbort : Prop :=
  ∀ (s : State) (c : Ctx), Runs s c [0] → c.sliceEnd = none →
    (c.region = none → Faults .rgclose s c 0x14 0 4 ∧ Faults .rgabort s c 0x14 0 4)
    ∧ (∀ r, c.region = some r → r.idem = false →
      Continues .rgclose s c 4 1 (fun c' => c' = { c with region := none })
      ∧ ∃ t c', exec .rgabort s = .next t ∧ t.cx = some c' ∧ c'.region = none ∧ c'.flight = [] ∧ c'.pc = c.pc + 4
        ∧ c'.nextAt = tickOf s c + 1 ∧ c'.bank = c.bank ∧ c'.preds = c.preds ∧ SameStorage s t)
    ∧ (∀ r, c.region = some r → r.idem = true → r.held = [] → ∃ t, exec .rgclose s = .next t
      ∧ t.cx = some (onward s { c with region := none } 4) ∧ t.agenda = s.agenda ∧ SameStorage s t)
    ∧ (∀ r o p, c.region = some r → r.idem = true → r.held = [o] → o.kind = .store → opPlace s c o = some p →
      let T := performTick c p (word o.addr) (tickOf s c)
      ∃ t, exec .rgclose s = .next t ∧ SameStorage s t
        ∧ t.cx = some { c with region := none, landDropped := none, objects := tset c.objects (objectOf p) T, wait := .regionClose }
        ∧ t.agenda = due s c T 12 (.sync c.uid o) ++ [⟨c.core / 128, max T (tickOf s c + 1), 16, c.uid, 0, .eff (.wake c.uid), false⟩])
    ∧ (∀ r, c.region = some r → r.idem = true → r.snap.words = [] → ∃ t c', exec .rgabort s = .next t ∧ t.cx = some c'
      ∧ SameStorage s t ∧ c'.region = none ∧ c'.flight = [] ∧ c'.pc = c.pc + 4
      ∧ c'.lc = r.snap.lc ∧ c'.ec = r.snap.ec ∧ c'.rb = r.snap.rb ∧ c'.streams = r.snap.streams ∧ c'.bufs = r.snap.bufs
      ∧ (∀ k < 31, BitVec.ofNat 64 (natOfBytes (c'.bank.readRun (8 * (k + 1)) 8)) = r.snap.scalars.getD k 0)
      ∧ (∀ k < 95, rdPhysP c' (k + 1) = r.snap.preds.getD k 0)
      ∧ (∀ off, (off < 8 ∨ 256 ≤ off) → c'.bank.read off = c.bank.read off)
      ∧ c'.busy = r.snap.busy ∧ (∀ l ∈ c'.loads, l.1 < r.firstCmd)
      ∧ (∀ e ∈ t.agenda, e.uid = c.uid → e.own = 0 → e.older = false → isResult e.act = false))

/-- R278, R82: a rent instruction performs 16 ticks after it executes, its results are awaited from 4 ticks later on, and an
idem region refuses all but RQUERY. -/
def Obligations.RentInstructionsPerformLater : Prop :=
  ∀ (i : Instr) (d n : Nat) (args : List Word) (q : Bool) (s : State) (c : Ctx), rentShape c i = some (d, n, args, q) →
    Runs s c [23] →
    let dst := (List.range n).map (fun k => rot c (d + k))
    (c.idem = true → q = false → Faults i s c 0x14 0 3)
    ∧ ((c.idem = false ∨ q = true) → exec i s = .next { s with
      agenda := due s c (tickOf s c + 16) 12 (.rent c.uid i args dst c.pc)
      cx := some { onward s c 4 with
        busy := dst.foldl (fun b p => (RegName.s p, tickOf s c + 20) :: b.filter (fun x => x.1 != RegName.s p)) c.busy } })

/-- R73, R76 to R79, R281: what RENEW, PREPAY, RELEASE, SUBLET, UNSUBLET and RQUERY do to their entry and to the allowance when they
perform; of an operation that fails, a plain form faults and a status form writes its status and nothing else. -/
def Obligations.RentOperationsPerform : Prop :=
  ∀ (s : State) (ev : Ev) (c : Ctx) (st : Bool) (d a b : Reg) (h : Word) (x : List Word) (p ref : Nat) (pc : Word),
    unitOf s c.uid = some c → c.principal < 65536 → bitsAt h.toNat 32 16 = 0 → bitsAt h.toNat 17 10 = 0 → p ≠ 0 →
    let r := rentOf s ref
    let run := fun (i : Instr) (args : List Word) (dst : List Nat) => performEff s ev (.rent c.uid i args dst pc)
    let arg := fun k => (x.getD k 0).toNat
    (entryOfHandle s h.toNat = none → st = false →
      run (.renew st d a b) (h :: x) [p] = takeFault s c.uid ⟨0x06, h, 0x104, false⟩ pc)
    ∧ (entryOfHandle s h.toNat = none → st = true → ∀ ps,
      run (.renew st d a b) (h :: x) [p] = { s with agenda := s.agenda ++ [rentResult s c p 4] }
      ∧ run (.rquery st d a) (h :: x) (p :: ps) = { s with agenda := s.agenda ++ [rentResult s c p 4] }
      ∧ run (.sublet st d a b) (h :: x) (p :: ps) = { s with agenda := s.agenda ++ [rentResult s c p 4] })
    ∧ (entryOfHandle s h.toNat = some ref → r.owner = ownerOf c → r.sub = false →
      (((r.state = 1 ∧ r.paid < arg 0) ∨ (r.state = 2 ∧ r.paid ≤ arg 0 ∧ tickOf s c < arg 0)) →
        let cost := rentRate r * (arg 0 - r.paid + r.lack)
        cost ≤ allowanceOf s c.vd → cost < 2 ^ 64 →
        let t := run (.renew st d a b) (h :: x) [p]
        rentOf t ref = { r with paid := arg 0, state := 1, lack := 0 } ∧ allowanceOf t c.vd = allowanceOf s c.vd - cost
        ∧ t.mem = s.mem ∧ rentResult s c p 0 ∈ t.agenda)
      ∧ (r.state = 1 → arg 0 ≤ allowanceOf s c.vd → r.escrow + arg 0 < 2 ^ 64 →
        let t := run (.prepay st d a b) (h :: x) [p]
        rentOf t ref = { r with escrow := r.escrow + arg 0 } ∧ allowanceOf t c.vd = allowanceOf s c.vd - arg 0
        ∧ t.mem = s.mem ∧ rentResult s c p 0 ∈ t.agenda)
      ∧ (r.state = 1 → r.tier ≠ 0 → subletsOf s ref = [] → Placed s → rentRate r * (r.paid - tickOf s c) + r.escrow < 2 ^ 64 →
        let t := run (.release st d a) (h :: x) [p]
        (rentOf t ref).state = 3 ∧ Emptied s t r.space ∧ rentResult s c p 0 ∈ t.agenda
        ∧ allowanceOf t c.vd = min (allowanceOf s c.vd + (rentRate r * (r.paid - tickOf s c) + r.escrow)) (2 ^ 64 - 1)))
    ∧ (entryOfHandle s h.toNat = some ref → r.owner = ownerOf c → ∀ p', p' ≠ 0 →
      (r.state = 1 → r.tier ≠ 0 →
        (∀ e ∈ subletsOf s ref, e.2.base + e.2.size ≤ r.base + arg 0 ∨ r.base + arg 0 + arg 1 ≤ e.2.base) → arg 1 ≠ 0 → arg 0 + arg 1 ≤ r.size → tickOf s c < arg 3 → arg 3 ≤ r.paid → arg 2 / 65536 = c.vd →
        rentRate { r with size := arg 1 } * (arg 3 - tickOf s c) < 2 ^ 64 → (freeEntry s (refDie ref) (refTable ref)).isSome →
        let t := run (.sublet st d a b) (h :: x) [p, p']
        ∃ e, (rentOf s e).state = 0 ∧ (rentOf t e).state = 1 ∧ (rentOf t e).sub = true ∧ (rentOf t e).owner = arg 2
          ∧ (rentOf t e).parent = refIndex ref ∧ (rentOf t e).base = r.base + arg 0 ∧ (rentOf t e).size = arg 1
          ∧ (rentOf t e).paid = arg 3 ∧ rentOf t ref = r ∧ t.vds = s.vds ∧ t.mem = s.mem
          ∧ rentResult s c p 0 ∈ t.agenda ∧ rentResult s c p' (handleOf t e) ∈ t.agenda))
    ∧ (entryOfHandle s h.toNat = some ref → r.owner = ownerOf c → r.sub = true → r.state = 1 →
      rentRate r * (r.paid - tickOf s c) < 2 ^ 64 →
      let t := run (.unsublet st d a) (h :: x) [p]
      rentOf t ref = { (default : Rent) with gen := (r.gen + 1) % 65536 } ∧ rentResult s c p 0 ∈ t.agenda)
    ∧ (entryOfHandle s h.toNat = some ref → r.owner = ownerOf c → ∀ p1 p2 p3 p4, p1 ≠ 0 → p2 ≠ 0 → p3 ≠ 0 → p4 ≠ 0 →
      run (.rquery st d a) (h :: x) [p, p1, p2, p3, p4] = { s with
        agenda := s.agenda ++ [rentResult s c p 0,
          rentResult s c p1 (r.size * 2 ^ 32 + r.share * 2 ^ 7 + r.tier * 2 ^ 4 + r.state), rentResult s c p2 r.paid,
          rentResult s c p3 r.escrow, rentResult s c p4 (if r.tier = 0 then 0 else r.addr)] })

/-- R79, R89, R280: a RENT whose claim succeeds fills a FREE entry with a PAID region of the issuer, debits the allowance, maps
it and answers its handle. -/
def Obligations.RentFillsAnEntry : Prop :=
  ∀ (s s₁ s₂ : State) (ev : Ev) (c : Ctx) (st : Bool) (t : Tier) (d a b : Reg) (sz until_ : Word) (p p' ref at_ : Nat) (pc : Word),
    unitOf s c.uid = some c → p ≠ 0 → p' ≠ 0 →
    let k := match t with | .t1 => 1 | .t2 => 2 | .t3 => 3 | .t4 => 4
    let r : Rent := { (default : Rent) with tier := k, size := sz.toNat }
    let die := c.core / 128
    k ≠ 1 → 1 ≤ sz.toNat → sz.toNat ≤ 2 ^ 24 → tickOf s c < until_.toNat →
    rentRate r * (until_.toNat - tickOf s c) < 2 ^ 64 → rentRate r * (until_.toNat - tickOf s c) ≤ allowanceOf s c.vd →
    freeGlobal (vdOf s c.vd) sz.toNat = some at_ → claim s c.vd k die sz.toNat c.core = some s₁ →
    freeEntry s₁ die (min k 3) = some (ref, s₂) →
    let s' := performEff s ev (.rent c.uid (.rent st t d a b) [sz, until_] [p, p'] pc)
    (rentOf s₁ ref).state = 0 ∧ (rentOf s' ref).state = 1 ∧ (rentOf s' ref).owner = ownerOf c ∧ (rentOf s' ref).tier = k
    ∧ (rentOf s' ref).size = sz.toNat ∧ (rentOf s' ref).paid = until_.toNat ∧ (rentOf s' ref).addr = at_
    ∧ allowanceOf s' c.vd = allowanceOf s c.vd - rentRate r * (until_.toNat - tickOf s c)
    ∧ ⟨at_, sz.toNat, ref, false, 0, false⟩ ∈ (vdOf s' c.vd).maps
    ∧ rentResult s c p 0 ∈ s'.agenda ∧ rentResult s c p' (handleOf s' ref) ∈ s'.agenda

/-- R80, R81, R84, R86, R92: what AUTO_EXTEND, LAPSE, GRACE_END, SUBLET_END and SCRUB_COMPLETE do to the entry they name at its tick; the
scrubber clears 2 lines of a core's scratchpad or 16 of a die's mezzanine in a tick, and a RECLAIMED entry is FREE when its last is clear;
of a FROZEN device's entry they do nothing. In what order the scrubber comes to regions is log entry 97's, what a FREE entry's other
fields read log entry 121's. -/
def Obligations.RentEventsFollowTheTable : Prop :=
  ∀ (s : State) (ref : Nat),
    let r := rentOf s ref
    let vd := r.owner / 65536
    let q := rentRate r * 2 ^ 20
    let tick := now s (refDie ref)
    ((vdOf s vd).state ≠ 3 →
      (r.state = 1 → r.sub = false → r.paid = tick →
        (q ≤ r.escrow → ∃ t, exec (.autoExtend ref) s = .next t
          ∧ rentOf t ref = { r with escrow := r.escrow - q, paid := r.paid + 2 ^ 20 } ∧ t.mem = s.mem ∧ t.vds = s.vds)
        ∧ (r.escrow < q → 0 < rentRate r → ∃ t, exec (.autoExtend ref) s = .next t
          ∧ rentOf t ref = { r with escrow := 0, paid := r.paid + r.escrow / rentRate r } ∧ t.mem = s.mem
          ∧ allowanceOf t vd = min (allowanceOf s vd + r.escrow % rentRate r) (2 ^ 64 - 1)
          ∧ (r.escrow < rentRate r → ⟨refDie ref, tick, 2, 0, 0, .ins (.lapse ref), false⟩ ∈ t.agenda))
        ∧ (r.tier ≠ 0 → ∃ t, exec (.lapse ref) s = .next t ∧ rentOf t ref = { r with state := 2, escrow := 0 }
          ∧ (Placed s → (∀ w ∈ s.words, w.1 = r.space → (wordAt t r.space w.2.1).frozen = true)
            ∧ (∀ w ∈ s.targets, w.1 = r.space → (wordAt t r.space w.2).frozen = true)
            ∧ ∀ x, x / 2 ^ 41 ≠ r.space → t.mem.read x = s.mem.read x)))
      ∧ (r.state = 2 → r.tier ≠ 0 → r.paid + 2 ^ 24 - r.lack = tick → Placed s →
        ∃ t, exec (.graceEnd ref) s = .next t ∧ (rentOf t ref).state = 3 ∧ (rentOf t ref).gen = r.gen ∧ Emptied s t r.space)
      ∧ (r.state = 1 → r.sub = true → r.paid = tick → ∃ t, exec (.subletEnd ref) s = .next t
        ∧ rentOf t ref = { (default : Rent) with gen := (r.gen + 1) % 65536 } ∧ t.hostMem = s.hostMem)
      ∧ (∀ n a l rest, r.tier = 1 ∧ n = 2 ∨ r.tier = 2 ∧ n = 16 → r.state ≠ 0 → s.scrub = (r.space, a, l) :: rest → scrubTurn s ref = some ref →
        (n < l → ∃ t, exec (.scrubComplete ref) s = .next t ∧ t.scrub = (r.space, a + n, l - n) :: rest ∧ t.rents = s.rents ∧ t.mem = s.mem
          ∧ ⟨refDie ref, tick + 1, 14, 0, 0, .ins (.scrubComplete ref), false⟩ ∈ t.agenda)
        ∧ (l ≤ n → (∀ m ∈ rest, m.1 ≠ r.space) → r.state = 3 → ∃ t, exec (.scrubComplete ref) s = .next t
          ∧ rentOf t ref = { (default : Rent) with gen := (r.gen + 1) % 65536 } ∧ Emptied s t r.space ∧ t.scrub = rest))
      ∧ (r.state = 3 → (∀ m ∈ s.scrub, m.1 ≠ r.space) → ∃ t, exec (.scrubComplete ref) s = .next t
        ∧ rentOf t ref = { (default : Rent) with gen := (r.gen + 1) % 65536 } ∧ Emptied s t r.space))
    ∧ ((vdOf s vd).state = 3 → exec (.autoExtend ref) s = .next s ∧ exec (.lapse ref) s = .next s
      ∧ exec (.graceEnd ref) s = .next s ∧ exec (.subletEnd ref) s = .next s ∧ exec (.scrubComplete ref) s = .next s)

end

namespace Sys2Proof.Stated
open Sys2Proof Sys2Proof.Machine

/-! ## Engine commands (R66, R67, R104 to R107, R115, R130, R183, R184, R284 to R287, R314, R340 to R343) -/

/-- What the delivery of a command checks and takes with it (R209, R303, R304, R314): the model's own delivery functions, and
what the commands without one of their own take. -/
def prepOf (s : State) (c : Ctx) (i : Instr) : Option (Res Cmd) :=
  match Machine.vform i with
  | some (major, func, v) => some (vecPrep major func v s c)
  | none =>
    match i with
    | .mloadw _ _ | .resume _ _ => some (.ok default)
    | .slrel _ _ => some (if c.idem then .error ⟨0x14, 0, 3, false⟩ else .ok default)
    | .mmul _ f => some (mmulPrep f s c)
    | .mgrad _ f => some (mgradPrep f s c)
    | .mgdrain _ f => some (match placeName c 3 f.dst.toNat with
      | some p => .ok { (default : Cmd) with names := [0, p.2], views := [p.1] }
      | none => .error ⟨0x01, 0, 0, true⟩)
    | .mres _ f => some (match placeName c 3 f.src.toNat, placeName c (if f.kind = 1 then 3 else 2) f.num.toNat with
      | some p, some q => .ok { (default : Cmd) with names := [rot c f.rows.toNat, p.2, q.2], views := [p.1, q.1] }
      | _, _ => .error ⟨0x01, 0, 0, true⟩)
    | .slclaim _ d _ => some (if c.idem then .error ⟨0x14, 0, 3, false⟩
        else .ok { (default : Cmd) with names := [rot c d.toNat] })
    | .lnest _ f => if nestCvtBad f (gFormat (streamReg c f.sa.toNat)) then none else some (nestPrep f s c)
    | .sortc _ f => some (sortPrep f s c)
    | .xld _ f | .xst _ f => some (xferPrep f s c)
    | .esave _ q img | .eload _ q img => some (imagePrep q img s c)
    | .cpy _ f => some (cpyPrep f s c)
    | .cpyc _ f => some (cpycPrep f s c)
    | .ckpt _ f => some (ckptPrep f s c)
    | .lrflush _ r => some (match recordAt c (rdS c r.toNat) with
      | .ok _ => .ok { (default : Cmd) with vals := [rdS c r.toNat], outbound := true }
      | .error e => .error e)
    | .xsend _ f => some (exchPrep f true s c)
    | .xrecv _ f => some (exchPrep f false s c)
    | .dispatch _ f => some (dispatchPrep f s c)
    | .wlnext _ d q => some (.ok { (default : Cmd) with
        names := (List.range 5).map (fun j => rot c (d.toNat + j)), sample := [rotP c q.toNat] })
    | .wid _ d => some (.ok { (default : Cmd) with names := (List.range 4).map (fun j => rot c (d.toNat + j)) })
    | _ => none

/-- The due tick of a command with timing words (R106): its idle count after the previous command of its queue in the segment or
after the segment's base, its absolute stamp, its register's value, or its delivery tick. -/
def stampOf (s : State) (c : Ctx) (q : Nat) (t : Timing) : Nat :=
  if t.tmode.toNat = 1 then
    let base : Int := match c.lastDue.find? (fun l => l.1 == q) with
      | some l => l.2.2
      | none => match c.segBase with | some b => b | none => tickOf s c
    (base + t.lo.toNat).toNat
  else if t.tmode.toNat = 2 then t.hi.toNat * 2 ^ 32 + t.lo.toNat
  else if t.tmode.toNat = 3 then (rdS c t.stampReg.toNat).toNat
  else tickOf s c

/-- The due tick of any command: form V has no timing words, and may start as it reaches its queue. -/
def dueOf (s : State) (c : Ctx) (i : Instr) : Nat :=
  match timingOf i with
  | some t => stampOf s c (engineOf i) t
  | none => tickOf s c + 6

/-- A command of form E without timing: illegal in a timed segment (R106). -/
def untimed (i : Instr) : Prop := ∃ t, timingOf i = some t ∧ t.tmode = 0

/-- A timed command that reaches its queue, 6 ticks after its delivery, at or after its due tick (R106, R183). -/
def LateToQueue (k : Cmd) : Prop := k.timed = true ∧ (timingOf k.ins).isSome = true ∧ k.due ≤ k.deliver + 6

/-- The tick of a command's comparison: 6 ticks on, or the due tick that it would miss. -/
def comparedAt (s : State) (c : Ctx) (i : Instr) : Nat :=
  if c.timed = true ∧ (timingOf i).isSome = true ∧ dueOf s c i ≤ tickOf s c + 6 then dueOf s c i else tickOf s c + 6

/-- The bytes of an instruction. -/
def lengthOf (i : Instr) : Nat := if (timingOf i).isSome then 32 else 8

/-- An entry of the VQ reads no operand queue, is guarded by no predicate, and meets no poison or checker. -/
def plainEntry (c : Ctx) (v : VForm) (k : Cmd) : Prop :=
  v.qsel = 0 ∧ v.pneg = 0 ∧ rdPhysP c (k.sample.getD 0 0) = word (2 ^ 64 - 1) ∧ c.bankPoison = [] ∧ c.early = false

/-- The value of an integer element's bits (Table 7.1). -/
def elementValue (t x : Nat) : Int := if t < 4 ∧ 2 ^ (tyBits t) ≤ 2 * x then (x : Int) - (2 ^ tyBits t : Nat) else x

/-- Majors 0x01 and 0x02 on integer elements a, b and c of type t, modulo 2^w (R287). -/
def elementOf (major func t a b c : Nat) : Nat :=
  let w := tyBits t
  let wrap := fun (i : Int) => (i % (2 ^ w : Nat)).toNat
  let x := elementValue t a
  let y := elementValue t b
  match major, func with
  | 1, 1 => wrap (x + y)
  | 1, 2 => wrap (x - y)
  | 1, 3 => wrap (x * y)
  | 1, 4 => wrap (x * y + elementValue t c)
  | 1, 5 => if y < x then b else a
  | 1, 6 => if x < y then b else a
  | 1, 7 => wrap (if x < 0 then -x else x)
  | 1, 8 => wrap (-x)
  | 2, 1 => a &&& b
  | 2, 2 => a ||| b
  | 2, 3 => a ^^^ b
  | 2, 4 => 2 ^ w - 1 - a
  | 2, 5 => a * 2 ^ (b % w) % 2 ^ w
  | 2, 6 => a / 2 ^ (b % w)
  | _, _ => wrap ((if 2 ^ w ≤ 2 * a then (a : Int) - (2 ^ w : Nat) else a) / (2 ^ (b % w) : Nat))

/-- Elements of w bits in 256 bytes. -/
def elementsIn (w : Nat) (bs : List Byte) : List Nat := (List.range (2048 / w)).map (fun i => natOfBytes ((bs.drop (i * (w / 8))).take (w / 8)))

/-- A result of a list command, 24 ticks after its start. -/
def listResult (k : Cmd) (t p : Nat) (v : Nat) : Ev :=
  ⟨k.core / 128, t + 24, 12, k.uid, k.id, .eff (.bank k.uid (8 * p) (lowBytes 8 (word v)) []), false⟩

/-- An integer row of a tile and an integer column of weights, as bytes of type t: their elements' values. -/
def byteValues (t : Nat) (bs : List Byte) : List Int := bs.map (fun b => elementValue t b.toNat)

end Sys2Proof.Stated

section
open Sys2Proof Sys2Proof.Machine Sys2Proof.Stated

/-- R82, R106, R183, R314, R348: an engine command whose delivery checks pass takes what it reads at delivery, has its due tick, holds
the sequencer one tick, and is compared 6 ticks on; DISPATCH blocks its context. Nothing else changes. That one due within these 6 ticks
is compared at its due tick is the model's reading (DEDUCED, log entry 29). -/
def Obligations.CommandsAreDelivered : Prop :=
  ∀ (i : Instr) (s : State) (c : Ctx) (k₀ : Cmd), i.wf = true → prepOf s c i = some (.ok k₀) → Runs s c (declared c i) →
    c.wait = .run → queueFull s c (engineOf i) = false → (c.timed = true → ¬ untimed i ∧ ((timingOf i).isSome → tickOf s c < dueOf s c i)) →
    ∃ t k c', exec i s = .next t ∧ t.cx = some c'
      ∧ (coreOf t c.core).pending = (coreOf s c.core).pending ++ [k] ∧ (∀ x, x ≠ c.core → coreOf t x = coreOf s x)
      ∧ k = { k₀ with
          id := s.nextId, uid := c.uid, core := c.core, pc := c.pc, ins := i, deliver := tickOf s c, timed := c.timed
          due := dueOf s c i, seq := c.truncSeq, inRegion := c.idem && k₀.outbound, start := none }
      ∧ t.agenda = s.agenda ++ [⟨c.core / 128, comparedAt s c i, 15, c.uid, 0, .ins (.banisterCompare c.core s.nextId), false⟩]
      ∧ SameStorage s t ∧ t.units = s.units ∧ t.nextId = s.nextId + 1
      ∧ (match i with
        | .dispatch _ f => c'.pc = c.pc ∧ c'.wait = .dispatch (rot c f.d.toNat)
        | _ => c'.pc = c.pc + BitVec.ofNat 64 (lengthOf i) ∧ c'.wait = .run)
      ∧ c'.nextAt = tickOf s c + 1 ∧ c'.bank = c.bank ∧ c'.preds = c.preds ∧ c'.flight = c.flight ∧ c'.saved = c.saved
      ∧ c'.truncSeq = c.truncSeq + (if truncatable i then 1 else 0)

/-- R95, R106, R107, R305, R329: without timing in a timed segment a command is ILLEGAL; with its queue full the context blocks at it,
but a timed copy is a SCHEDULE_MISS, tinfo 1, as is a command whose due tick has come; it is kept for RESUME where its queue has one. A
command whose delivery checks fail raises their fault, and an LNEST whose conversion form V would refuse is ILLEGAL before all. That the
miss comes at the delivery is the model's reading (DEDUCED, log entry 29). -/
def Obligations.CommandsMayNotBeDelivered : Prop :=
  ∀ (i : Instr) (s : State) (c : Ctx), i.wf = true → Runs s c (declared c i) →
    let full := queueFull s c (engineOf i) = true
    let copyMisses := c.timed = true ∧ engineOf i = 4
    ((prepOf s c i).isSome → c.timed = true → untimed i → exec i s = .next (takeFault s c.uid ⟨0x01, 0, 0, true⟩ c.pc))
    ∧ ((prepOf s c i).isSome → ¬ (c.timed = true ∧ untimed i) → full → ¬ copyMisses →
      exec i s = .next { s with cx := some { c with wait := .queue (engineOf i) } })
    ∧ (∀ k₀, prepOf s c i = some (.ok k₀) → c.timed = true → ¬ untimed i → (¬ full ∨ copyMisses) → (timingOf i).isSome →
      (dueOf s c i ≤ tickOf s c ∨ full) →
      ∃ s', exec i s = .next (takeFault s' c.uid ⟨0x09, word (dueOf s c i), 1, false⟩ c.pc)
        ∧ (keeps i = false → s' = { s with nextId := s.nextId + 1 })
        ∧ (keeps i = true → ∃ e, s' = { s with nextId := s.nextId + 1, cx := some { c with saved := tset c.saved (engineOf i) e } }
          ∧ e.tick = tickOf s c ∧ e.cmd.ins = i ∧ e.cmd.prog = 2))
    ∧ (∀ e, prepOf s c i = some (.error e) → ¬ (c.timed = true ∧ untimed i) → (¬ full ∨ copyMisses) →
      exec i s = .next (takeFault s c.uid e c.pc))
    ∧ (∀ t f, i = .lnest t f → nestCvtBad f (gFormat (streamReg c f.sa.toNat)) = true →
      exec i s = .next (takeFault s c.uid ⟨0x01, 0, 0, true⟩ c.pc))

/-- R106, R107, R111, R183, R184, R284, R329: where the two sides agree a command reaches its queue, the copy engine's buffer or the
synchronisation engine, with its vector names placed (a name without a place is ILLEGAL); where they differ it does not issue, and
outside a region CHECKER_MISMATCH ends the launch; a command that gets there at or after its due tick is a SCHEDULE_MISS, tinfo 1, with
its state kept. A command whose context has stopped or trapped meanwhile is compared 6 ticks after its delivery and then held. That the
names are placed at that tick, and the tick of a miss, are the model's readings (DEDUCED, log entry 29). -/
def Obligations.ComparedCommandsReachTheirQueue : Prop :=
  ∀ (core id : Nat) (s : State) (k : Cmd), (coreOf s core).pending.find? (fun m => m.id == id) = some k → k.core = core →
    let x := (unitOf s k.uid).getD default
    let out := fun (s : State) => modCore s core (fun y => { y with pending := y.pending.filter (fun m => m.id != id) })
    (heldBack x k = true →
      (now s (core / 128) < k.deliver + 6 → exec (.banisterCompare core id) s = .next { s with
        agenda := s.agenda ++ [⟨core / 128, k.deliver + 6, 15, k.uid, 0, .ins (.banisterCompare core id), false⟩] })
      ∧ (∀ k', k.deliver + 6 ≤ now s (core / 128) → (coreOf s core).diverge = [] → placeVec x k = .ok k' →
        exec (.banisterCompare core id) s = .next (modUnit (out s) k.uid (fun c => c.hold k'))))
    ∧ (heldBack x k = false →
    (LateToQueue k → exec (.banisterCompare core id) s =
      .next (engineFault s { k with prog := 2 } (keeps k.ins) ⟨0x09, word k.due, 1, false⟩))
    ∧ (∀ e, ¬ LateToQueue k → (coreOf s core).diverge = [] → placeVec x k = .error e →
      exec (.banisterCompare core id) s = .next (engineFault s k false e))
    ∧ (∀ k', (∀ t f, k.ins ≠ .cpyc t f) → ¬ LateToQueue k → (coreOf s core).diverge = [] → placeVec x k = .ok k' →
      ∃ t, exec (.banisterCompare core id) s = .next t ∧ SameStorage s t ∧ t.cx = s.cx ∧ t.units = s.units ∧ t.agenda = s.agenda
        ∧ (coreOf t core).pending = (coreOf s core).pending.filter (fun m => m.id != id)
        ∧ (engineOf k.ins = 0 → (coreOf t core).mq = (coreOf s core).mq ++ [k'])
        ∧ (engineOf k.ins = 1 → (coreOf t core).vq = (coreOf s core).vq ++ [k'])
        ∧ (engineOf k.ins = 2 → (coreOf t core).lq = (coreOf s core).lq ++ [k'])
        ∧ (engineOf k.ins = 3 → (coreOf t core).sq = (coreOf s core).sq ++ [k'])
        ∧ (engineOf k.ins = 5 → (coreOf t core).xq = (coreOf s core).xq ++ [k'])
        ∧ (engineOf k.ins = 4 → k' ∈ (engOf t (core / 128 * 4 + core / 8 % 16 / 4)).buffer)
        ∧ (engineOf k.ins = 6 → (dieOf t (core / 128)).sync = (dieOf s (core / 128)).sync ++ [k']))
    ∧ (∀ c, unitOf s k.uid = some c → c.uid = k.uid → c.region = none → ¬ LateToQueue k → (coreOf s core).diverge = [2] →
      (launchOf s c.launch).status = none → ∃ t, exec (.banisterCompare core id) s = .next t
        ∧ (∀ m ∈ (coreOf t core).pending, m.id ≠ id) ∧ (launchOf t c.launch).status = some 1 ∧ (launchOf t c.launch).cause = 0x11))

/-- R104, R105, R107: a completion pushes its tokens and its entry leaves the queue; with a FIFO full a free command's completion is
held, and a timed one is a SCHEDULE_MISS, tinfo 4, with only its pushes left to do. -/
def Obligations.CompletionsPushTheirTokens : Prop :=
  ∀ (core q id : Nat) (s : State) (k : Cmd), running s core q id = some k → q < 4 → k.pushes = [] →
    let x := coreOf s core
    let fs := pushFifos q k.ins
    ((∀ f ∈ fs, (fifo x f).length < 8) → ∃ t, exec (.queueEntryComplete core q id) s = .next t ∧ SameStorage s t ∧ t.units = s.units
      ∧ t.cx = s.cx ∧ t.agenda = s.agenda ∧ queueOf (coreOf t core) q = (queueOf x q).filter (fun m => m.id != id)
      ∧ (∀ f ∈ fs, fifo (coreOf t core) f = fifo x f ++ [now s (core / 128)])
      ∧ (∀ f, f ∉ fs → fifo (coreOf t core) f = fifo x f))
    ∧ ((∃ f ∈ fs, 8 ≤ (fifo x f).length) →
      (k.timed = false → exec (.queueEntryComplete core q id) s = .next (putCmd s core q { k with prog := 1 }))
      ∧ (k.timed = true → exec (.queueEntryComplete core q id) s =
        .next (engineFault (if runsOut k.ins then s else dropOwned s [k.id]) { k with prog := 1 } (keeps k.ins) ⟨0x09, word k.due, 4, false⟩)))

/-- R284, R285, R287, Table 14.2: an integer or logical form V entry of majors 0x01 and 0x02 that starts at tick t writes every
element's result into its destination two ticks on and completes one tick on. -/
def Obligations.VectorElementsAreComputed : Prop :=
  ∀ (core major func : Nat) (v : VForm) (s : State) (c : Ctx) (k : Cmd), queueNext s core 1 = some (k, none) →
    Machine.vform k.ins = some (major, func, v) → (major = 1 ∨ major = 2) → v.ty.toNat < 8 → v.mode = 0 → unitOf s k.uid = some c →
    c.uid = k.uid → k.core = core → c.core = core → plainEntry c v k → Unstruck s →
    let w := tyBits v.ty.toNat
    let src := fun (n : Nat) => elementsIn w (c.bank.readRun (k.names.getD n 0) 256)
    ∃ t bs, exec (.queueEntryStart core 1) s = .next t ∧ bs.length = 256
      ∧ (∀ i < 2048 / w, (elementsIn w bs)[i]? =
        some (elementOf major func v.ty.toNat ((src 1).getD i 0) ((src 2).getD i 0) ((src 3).getD i 0)))
      ∧ t.agenda = s.agenda ++ [⟨core / 128, now s (core / 128) + 2, 9, k.uid, k.id, .eff (.bank k.uid (k.names.getD 0 0) bs []), false⟩,
          ⟨core / 128, now s (core / 128) + 1, 14, k.uid, k.id, .ins (.queueEntryComplete core 1 k.id), false⟩]
      ∧ SameStorage s t ∧ (∃ c', unitOf t k.uid = some c' ∧ c'.bank = c.bank ∧ c'.aflags = c.aflags ∧ c'.pc = c.pc)

/-- R124, R153: an MMUL output row of i8 or n8 performs as the exact sum of products added to its i32 accumulators, modulo 2^32
with wrap; a masked row is written as zeros. No other byte of the register store changes. -/
def Obligations.MmulRowAccumulates : Prop :=
  ∀ (s : State) (ev : Ev) (c : Ctx) (off ty : Nat) (x : List Byte) (w : Mem), unitOf s c.uid = some c →
    (ty = 0 ∨ ty = 4) → 8 ≤ off → w.wf = true → Unstruck s →
    let old := fun (i : Nat) => (BitVec.ofNat 32 (natOfBytes (c.bank.readRun (off + 4 * i) 4))).toInt
    let row := fun (y : Nat → BitVec 32) => ∃ t c', t = setUnit s c' ∧ (∀ i < 128,
        natOfBytes (c'.bank.readRun (off + 4 * i) 4) = (y i).toNat)
      ∧ (∀ a, (a < off ∨ off + 512 ≤ a) → c'.bank.read a = c.bank.read a) ∧ c'.preds = c.preds ∧ c'.pc = c.pc ∧ c'.core = c.core
      ∧ performEff s ev (.row c.uid off ty true true none x w [] []) = t
    (x.length = 128 → row (fun i => BitVec.ofInt 32 (old i + ((List.range 128).map (fun k =>
      (byteValues ty x).getD k 0 * elementValue ty (w.read (128 * k + i)).toNat)).sum)))
    ∧ (x = [] → row (fun _ => 0))

/-- R129, R130: at its beginning a load's entry is LOADING with its expert, slot and type for 128 or 160 ticks; at its end the entry is
RESIDENT with the bytes read, and the core's count of state changes advances. -/
def Obligations.ResidencyLoadsFillTheirEntry : Prop :=
  ∀ (core ld : Nat) (s : State) (l : Load), (coreOf s core).loads.find? (fun x => x.id == ld && x.live) = some l →
    let e := (tget (coreOf s core).res l.bank).getD default
    (l.drain = false → (coreOf s core).alcPoison = [] → (∀ c, unitOf s l.uid = some c → c.early = false ∧ c.core = core) → ∃ t, exec (.residencyLoadBegin core ld) s = .next t ∧ SameStorage s t
      ∧ (∃ e', tget (coreOf t core).res l.bank = some e' ∧ e'.expert = l.expert ∧ e'.state = 1 ∧ e'.slot = l.slot ∧ e'.ctx = l.ctx
        ∧ e'.q4 = (l.ty == 0x11) ∧ e'.format = (if l.ty = 0x11 then 0x0B else l.ty)
        ∧ e'.ready = l.began + (if l.ty = 0x11 then 160 else 128))
      ∧ ⟨core / 128, l.began + (if l.ty = 0x11 then 160 else 128), 13, l.uid, 0, .ins (.residencyLoadEnd core ld), false⟩ ∈ t.agenda
      ∧ (∀ b, b ≠ l.bank → tget (coreOf t core).res b = tget (coreOf s core).res b))
    ∧ (∃ t, exec (.residencyLoadEnd core ld) s = .next t ∧ SameStorage s t ∧ t.agenda = s.agenda
      ∧ (∃ e', tget (coreOf t core).res l.bank = some e' ∧ e'.state = 2 ∧ e'.expert = e.expert ∧ e'.slot = e.slot
        ∧ (∀ i < l.bytes.length, e'.weights.read i = l.bytes.getD i 0))
      ∧ (coreOf t core).resCount = (if e.state = 2 then (coreOf s core).resCount else (coreOf s core).resCount + 1)
      ∧ (∀ b, b ≠ l.bank → tget (coreOf t core).res b = tget (coreOf s core).res b)
      ∧ (∀ x ∈ (coreOf t core).loads, x.id ≠ ld))

/-- R340 to R343: WLNEXT takes the next item of its unit's work list, or none, and WID reports the list; their results are due 24
ticks after their start. -/
def Obligations.ListCommandsReadTheWorkList : Prop :=
  ∀ (core : Nat) (s : State) (c : Ctx) (k : Cmd), syncReady s core (now s (core / 128)) = some k → unitOf s k.uid = some c →
    c.uid = k.uid → k.core = core → k.names.all (fun n => n != 0) →
    (∀ tm d q x, k.ins = .wlnext tm d q → k.names.length = 5 → c.work.items[c.work.taken]? = some x →
      ∃ t, exec (.queueEntryStart core 6) s = .next t ∧ SameStorage s t
        ∧ (∃ c', unitOf t k.uid = some c' ∧ c'.work = { c.work with taken := c.work.taken + 1 } ∧ c'.bank = c.bank ∧ c'.pc = c.pc)
        ∧ listResult k (now s (core / 128)) (k.names.getD 0 0) x.expert ∈ t.agenda
        ∧ listResult k (now s (core / 128)) (k.names.getD 1 0) x.rowStart ∈ t.agenda
        ∧ listResult k (now s (core / 128)) (k.names.getD 2 0) x.rows ∈ t.agenda
        ∧ listResult k (now s (core / 128)) (k.names.getD 3 0) x.bucket ∈ t.agenda
        ∧ ⟨core / 128, now s (core / 128) + 24, 12, k.uid, k.id,
            .eff (.pred k.uid (k.sample.getD 0 0) (-1) (-1)), false⟩ ∈ t.agenda)
    ∧ (∀ tm d q, k.ins = .wlnext tm d q → k.names.length = 5 → c.work.items.length ≤ c.work.taken →
      ∃ t, exec (.queueEntryStart core 6) s = .next t ∧ SameStorage s t
        ∧ (∃ c', unitOf t k.uid = some c' ∧ c'.work = c.work ∧ c'.bank = c.bank ∧ c'.pc = c.pc)
        ∧ (∀ j < 5, listResult k (now s (core / 128)) (k.names.getD j 0) 0 ∈ t.agenda))
    ∧ (∀ tm d, k.ins = .wid tm d → k.names.length = 4 → ∃ t, exec (.queueEntryStart core 6) s = .next t ∧ SameStorage s t
      ∧ listResult k (now s (core / 128)) (k.names.getD 0 0) c.work.items.length ∈ t.agenda
      ∧ listResult k (now s (core / 128)) (k.names.getD 1 0) (c.work.items.length - c.work.taken) ∈ t.agenda
      ∧ listResult k (now s (core / 128)) (k.names.getD 2 0) c.work.cost ∈ t.agenda
      ∧ listResult k (now s (core / 128)) (k.names.getD 3 0) c.work.cap ∈ t.agenda)

/-- R67, R340: DISPATCH_RELEASE gives a waiting unit its work list, the buckets dropped and its number of items, and the unit goes
on; DISPATCH_CLAIM_RETRY builds the plan it can claim, released 32 + 2I + ⌈E ÷ 16⌉ ticks on, or tries again 2^12 ticks later. -/
def Obligations.DispatchPlansAreReleased : Prop :=
  (∀ (team uid : Nat) (s : State) (c : Ctx) (k : Cmd) (w : Work) (d : Nat), unitOf s uid = some c → c.uid = uid →
    c.wait = .dispatch d → (teamOf s team).plan = [(uid, w)] → (teamOf s team).dispatch = [uid] →
    (dieOf s (c.core / 128)).sync = [k] → k.uid = uid → k.start.isSome → (∃ tm f, k.ins = .dispatch tm f) → k.core = c.core →
    k.names.getD 0 0 ≠ 0 → k.names.getD 1 0 ≠ 0 → k.names.getD 0 0 ≠ k.names.getD 1 0 →
    ∃ t c', exec (.dispatchRelease team) s = .next t ∧ unitOf t uid = some c' ∧ c'.work = w ∧ c'.wait = .run ∧ c'.pc = c.pc + 32
      ∧ c'.nextAt = tickOf s c ∧ SameStorage s t
      ∧ BitVec.ofNat 64 (natOfBytes (c'.bank.readRun (8 * k.names.getD 0 0) 8)) = word (teamOf s team).dropped
      ∧ BitVec.ofNat 64 (natOfBytes (c'.bank.readRun (8 * k.names.getD 1 0) 8)) = word w.items.length
      ∧ (teamOf t team).plan = [] ∧ (teamOf t team).dispatch = [] ∧ (teamOf t team).planned = false
      ∧ (dieOf t (c.core / 128)).sync = [])
  ∧ (∀ (team : Nat) (s : State) (c : Ctx) (k : Cmd) (tm : Timing) (f : DispF), allDispatched s team = true →
    (teamOf s team).planned = false → dispatchCmd s team = some (c, k) → k.ins = .dispatch tm f → k.sample ≠ [] →
    let bks := (recOf s c).buckets.take (recOf s c).nBuckets
    let units := (((teamOf s team).dispatch.filterMap (unitOf s)).mergeSort (fun a b => decide (a.lcore ≤ b.lcore))).map Ctx.uid
    (planClaim s c.vd f.base.toNat bks k.sample units bks.length = none → exec (.dispatchClaimRetry team) s = .next { s with
      agenda := s.agenda ++ [⟨c.core / 128, tickOf s c + 2 ^ 12, 15, 0, 0, .ins (.dispatchClaimRetry team), false⟩] })
    ∧ (∀ n ls refs s₁, planClaim s c.vd f.base.toNat bks k.sample units bks.length = some (n, ls, refs, s₁) →
      ∃ t, exec (.dispatchClaimRetry team) s = .next t ∧ (teamOf t team).plan = ls ∧ (teamOf t team).claims = refs
        ∧ (teamOf t team).dropped = bks.length - n ∧ (teamOf t team).planned = true
        ∧ t.agenda = s₁.agenda ++ [⟨c.core / 128, tickOf s c + 32 + 2 * (ls.map (fun x => x.2.items.length)).sum
          + (f.nexp.toNat + 15) / 16, 16, 0, 0, .ins (.dispatchRelease team), false⟩]))

end

namespace Sys2Proof.Stated
open Sys2Proof Sys2Proof.Machine

/-! ## The step, decoding, reset and the invariant; interrupts and stops (R95, R96, R98, R108, R118, R174, R178, R198 to R222) -/

/-- First address of the 32-byte block that holds pc. -/
def blockOf (c : Ctx) : Word := word (c.pc.toNat / 32 * 32)

/-- The number of a 32-byte block at a place, host pages apart. -/
def blockKey (p : Place) : Nat := locOf p.space p.off / 32 + (if p.host then 2 ^ 80 else 0)

/-- Nothing is due, nothing arrives and nothing has become possible, and context c issues on a core. -/
def SequencerTurn (s : State) (core : Nat) (c : Ctx) : Prop :=
  s.cx = none ∧ s.clock.supply = true ∧ nextDue s = none ∧ nextInput s = none ∧ nextMove s = none
    ∧ nextIssue s = some (core, .issue c)

/-- The context is over, or stops or stands stopped. -/
def Stopped (c : Ctx) : Prop :=
  match c.wait with
  | .done | .saved | .saving | .stopping | .frozen _ => True
  | _ => False

/-- A handler-only name is written outside a handler: refused at decode (R222, R250). -/
def writesHandlerName (c : Ctx) (i : Instr) : Prop :=
  match writesName i with
  | some (n, _, _) => handlerOnly n = true ∧ c.handler = false
  | none => False

/-- An LNEST converts as form V would refuse: refused at decode (R222, R290, R305). -/
def convertsBadly (c : Ctx) (i : Instr) : Prop :=
  ∃ t f, i = .lnest t f ∧ nestCvtBad f (gFormat (streamReg c f.sa.toNat)) = true

/-- The launch of a context ends with a cause, and the context stops where it stands (R197). -/
def EndsTheLaunch (s t : State) (c : Ctx) (cause : Nat) : Prop :=
  (launchOf t c.launch).status = some 1 ∧ (launchOf t c.launch).cause = cause
    ∧ (launchOf t c.launch).endTick = tickOf s c
    ∧ ∃ c', unitOf t c.uid = some c' ∧ c'.wait = .frozen cause ∧ c'.pc = c.pc ∧ c'.bank = c.bank ∧ c'.preds = c.preds

end Sys2Proof.Stated

section
open Sys2Proof Sys2Proof.Machine Sys2Proof.Stated

/-- R174, R178, R199, R222: where a context issues, its 32-byte block is read, and the step is the execution of what the bytes
at pc decode to (where they decode to nothing, of the illegal encoding) for that context. Around it, the context's past results
are forgotten, its segment gets a base, and afterwards a one-tick result outlasts what is due to its register at the next tick (log
entry 8), and the context goes back to where contexts are kept. The hypotheses leave out a
breakpoint, a block fetched before, an interlock, a page switch, a flagged word and a banister disagreement. -/
def Obligations.StepRunsTheDecodedInstruction : Prop :=
  ∀ (s : State) (core : Nat) (c : Ctx) (p : Place) (w0 : IWord), SequencerTurn s core c →
    ((coreOf s c.core).comparators.contains c.pc.toNat = true → c.bpPast = true) →
    c.pc.toNat % 4 = 0 → pageSwitches s c (blockOf c) = false → check s c (blockOf c) 32 .none = .ok p →
    tget (coreOf s c.core).fetched (blockKey p) = none → (coreOf s c.core).diverge = [] →
    let bytes := (readNow s p 32).drop (c.pc.toNat % 32)
    let i := match decodeBytes bytes with | .ok i => i | .error _ => .illegalEncoding
    let s₁ := modCore s c.core (fun k => { k with fetched := tset k.fetched (blockKey p) (readNow s p 32, true) })
    let c' := { c with busy := c.busy.filter (fun b => tickOf s c < b.2), segBase := some (c.segBase.getD (tickOf s c)) }
    (wordsOfBytes bytes).head? = some w0 → c.pc.toNat % alignOf w0 = 0 →
    interlocked s₁ c i = false → accessStalls s₁ c i = false → flaggedWords s₁ c i = [] →
    scalarShadow { s₁ with cx := some c' } c' i = none →
    step s = mapNext (fun t => leave (keepPast c' i (outlast i t))) (exec i { s₁ with cx := some c' })

/-- R198 to R206, R222: the words of a well-formed instruction, stored little-endian, decode to it, whatever follows them. -/
def Obligations.DecodeOfEncode : Prop :=
  ∀ (i : Instr) (rest : List Byte), i.wf = true → decodeBytes (bytesOfWords (encode i) ++ rest) = .ok i

/-- R201 to R204: an ADD, a short and a long load, a PAND and a VADD, as the spec writes their words out, decode to the instructions they
stand for. -/
def Obligations.WrittenOutWordsDecode : Prop :=
  decode [0x00718504] = .ok (.add 5 6 7)
    ∧ decode [0xFF028541] = .ok (.ldN32 5 10 (BitVec.ofInt 12 (-16)))
    ∧ decode [0x01028582, 0x00010000] = .ok (.longTwin .ldN32 5 10 0x10000)
    ∧ decode [0x182C50C2, 0] = .ok (.pand 10 11 12)
    ∧ decode [0x00110306, 0x81250085] = .ok (.vadd ⟨0, 1, 4, 3, 2, 9, 1, 0, 1, 5⟩)

/-- What reset leaves (R4, R22, R39, R100, Tables 1.4, 1.8, 2.8, 3.10): tick counters at 0, one timed domain, the power limit of
3,700 W, boot not done, the newel pair LIVE with newel 0, no unit, no launch, virtual devices FREE with their parameters at their
reset values, a context's vw0 holding the vector view and its other views nothing. That memory lists nothing is log entry 4's choice, and
that a device's allowance is 0 is log entry 3's. -/
def Obligations.ResetLeavesTheStatedValues : Prop :=
  (∀ d < 8, now State.reset d = 0) ∧ State.reset.clock.dom = 1 ∧ State.reset.clock.domStart = 1
    ∧ State.reset.clock.powerLimit = 3700 ∧ State.reset.clock.alarm = false ∧ State.reset.clock.swallowed = List.replicate 8 0
    ∧ State.reset.boot.done = false ∧ State.reset.boot.failImage = 0 ∧ State.reset.boot.failCheck = 0
    ∧ State.reset.newel.pair = 0 ∧ State.reset.newel.active = 0 ∧ State.reset.newel.takeovers = 0
    ∧ State.reset.units = [] ∧ State.reset.cx = none ∧ State.reset.launches = [] ∧ State.reset.teams = [] ∧ State.reset.rents = []
    ∧ State.reset.mem = [] ∧ State.reset.logs.relCount = 0 ∧ State.reset.logs.faultCount = 0 ∧ State.reset.logs.truncCount = 0
    ∧ (∀ vd, (vdOf State.reset vd).state = 0 ∧ (vdOf State.reset vd).sliceLog2 = 22 ∧ (vdOf State.reset vd).priorityMax = 3
      ∧ (vdOf State.reset vd).maxInflight = 256 ∧ (vdOf State.reset vd).coreQuota = 1024 ∧ (vdOf State.reset vd).allowance = 0)
    ∧ viewReg Ctx.reset 0 = BitVec.ofNat 128 (2 ^ 124 + 64 * 2 ^ 111 + 256 * 2 ^ 64 + 0x400)
    ∧ (∀ n, n ≠ 0 → viewReg Ctx.reset n = 0)

/-- Log entry 4 and R92: at reset every memory of the module is in its canonical form, and units stand under their own numbers. -/
def Obligations.StateIsSoundAtReset : Prop := State.reset.sound

/-- Log entry 4: every step keeps every memory of the module in its canonical form, so that equal memories are equal data, and
units under their own numbers. -/
def Obligations.StepKeepsTheStateSound : Prop := ∀ s t : State, s.sound → step s = .next t → t.sound

/-- R222, Table 11.1: an illegal encoding ends the launch with ILLEGAL; an instruction whose capability bit is not declared raises
OPCODE_UNDECLARED and one whose declared bit is fenced CAPABILITY_FENCED, with the bit, before any operand check. That the
information of an illegal encoding is open is log entry 2's. -/
def Obligations.DecodeChecksDecideTheFault : Prop :=
  (∀ (s : State) (c : Ctx), s.cx = some c → (launchOf s c.launch).status = none →
    ∃ t v, exec .illegalEncoding s = .next t ∧ EndsTheLaunch s t c 0x01 ∧ SameStorage s t
      ∧ ((launchOf s c.launch).attached = false → t.cx = some { c with wait := .frozen 1, cause := 1, tval := v, tinfo := 0 }))
  ∧ (∀ (i : Instr) (s : State) (c : Ctx) (b : Nat), i.wf = true → s.cx = some c → ¬ writesHandlerName c i → ¬ convertsBadly c i →
    ((declared c i).find? (fun b => !c.useMask.getLsbD b) = some b → Faults i s c 0x02 (word b) 0)
    ∧ ((∀ x ∈ declared c i, c.useMask.getLsbD x = true) → (declared c i).find? (fun b => !c.capMask.getLsbD b) = some b →
      Faults i s c 0x03 (word b) 0))

/-- R98, R118: 2^16 ticks after an interrupt arrived its context stops where it is; the save completes with the context not
resident, its team descheduled with the last of its units. -/
def Sys2Proof.Stated.ContextsStopAndAreSaved : Prop :=
  (∀ (uid t₀ : Nat) (s : State) (c : Ctx), unitOf s uid = some c → c.uid = uid → ¬ Stopped c → c.sliceEnd = some t₀ →
    t₀ + 2 ^ 16 = tickOf s c → ∃ t c', exec (.regionBoundaryTimeout uid) s = .next t ∧ unitOf t uid = some c'
      ∧ c'.wait = .stopping ∧ c'.pc = c.pc ∧ c'.bank = c.bank ∧ c'.preds = c.preds ∧ c'.flight = c.flight ∧ c'.region = c.region
      ∧ c'.savedAt = tickOf s c ∧ SameStorage s t)
  ∧ (∀ (uid : Nat) (s : State) (c : Ctx), s.keyed → unitOf s uid = some c → c.uid = uid → c.wait = .saving →
    ∃ t c', exec (.contextSaveDone uid) s = .next t ∧ unitOf t uid = some c' ∧ c'.wait = .saved ∧ c'.pc = c.pc
      ∧ c'.bank = c.bank ∧ c'.preds = c.preds ∧ c'.flight = c.flight ∧ c'.savedAt = c.savedAt
      ∧ ((teamOf s c.team).state = 2 → takingOver s = false →
        (∀ n ∈ (teamOf s c.team).units, n ≠ uid → ∀ u, unitOf s n = some u → u.wait = .saved ∨ u.wait = .done) →
        (teamOf t c.team).state = 3))

/-- R39, R61, R71: at its slice end a RUNNING device becomes READY where another waits for its cores, else a new slice begins with
the limits then written; while no newel acts a slice does not end. When another waits for this device's cores (the model's othersWait) is
log entry 130's choice where R61 leaves it open. -/
def Sys2Proof.Stated.SlicesEnd : Prop :=
  (∀ (vd : Nat) (s : State), (takingOver s = true ∨ newelUp s = false) → exec (.sliceEnd vd) s = .next s)
  ∧ ∀ (vd b : Nat) (s : State), (vdOf s vd).state = 2 → (vdOf s vd).sliceAt = some b → b + 2 ^ (vdOf s vd).limits.1 ≤ now s 0 →
    takingOver s = false → newelUp s = true →
    ∃ t, exec (.sliceEnd vd) s = .next t
      ∧ (othersWait s vd = true → (vdOf t vd).state = 1 ∧ (vdOf t vd).sliceAt = none)
      ∧ (othersWait s vd = false → (vdOf t vd).state = 2 ∧ (vdOf t vd).sliceAt = some (now s 0)
        ∧ (vdOf t vd).limits = ((vdOf s vd).sliceLog2, (vdOf s vd).priorityMax, (vdOf s vd).maxInflight, (vdOf s vd).coreQuota)
        ∧ ∃ e ∈ t.agenda, e.die = 0 ∧ e.tick = now s 0 + 2 ^ (vdOf s vd).sliceLog2 ∧ e.act = .ins (.sliceEnd vd))

/-- R54, R108: once its budget has passed a unit that holds its core stops, and its launch ends with DEADLINE. -/
def Sys2Proof.Stated.BudgetsExpire : Prop :=
  ∀ (uid : Nat) (s : State) (c : Ctx), unitOf s uid = some c → c.uid = uid → c.wait ≠ .done → (∀ k, c.wait ≠ .frozen k) →
    c.budgetStart + c.budget + 1 ≤ tickOf s c → holds (teamOf s c.team) = true → (launchOf s c.launch).status = none →
    ∃ t, exec (.budgetExpire uid) s = .next t ∧ EndsTheLaunch s t c 0x0A ∧ SameStorage s t

/-- R18, R119, R170, R234, R346: a breakpoint stops its context before the instruction and freezes the device, as soon as no command
of the device is in progress; a counted load's value arrives in its destination, and where its CXL link was down marks it poisoned
(Table 1.5); a landing becomes visible to a context it excluded. -/
def Sys2Proof.Stated.OtherArrivals : Prop :=
  (∀ (core : Nat) (s : State) (c : Ctx), s.cx = some c → c.core = core →
    let free := ((vdOf s c.vd).state = 1 ∨ (vdOf s c.vd).state = 2) ∧ (vdOf s c.vd).busy = false
    (¬ free → exec (.breakpointMatch core) s = .next { s with cx := some { c with bpPast := true, wait := .debug } })
    ∧ (free → ∃ t, exec (.breakpointMatch core) s = .next t ∧ (vdOf t c.vd).busy = true ∧ (vdOf t c.vd).cmd = 5
      ∧ (vdOf t c.vd).state = (vdOf s c.vd).state ∧ t.mem = s.mem ∧ t.rents = s.rents))
  ∧ (∀ (uid ld p : Nat) (v : Word) (s : State) (c : Ctx), unitOf s uid = some c → tget c.loads ld = some (p, v) → ∃ c',
    exec (.countedLoadReturn uid ld) s = .next (setUnit s c')
      ∧ c' = { c with bank := c'.bank, bankPoison := c'.bankPoison, upsets := c'.upsets, region := c'.region
                      loads := tdel c.loads ld, loadLinks := tdel c.loadLinks ld, busy := waitsFor c p (tickOf s c) }
      ∧ ((∀ r, c.region = some r → r.firstCmd ≤ ld) → c'.region = c.region)
      ∧ (((tget c.loadLinks ld).getD (0, false)).2 = true → c'.bank = c.bank ∧ (p ≠ 0 → 8 * p ∈ c'.bankPoison))
      ∧ (((tget c.loadLinks ld).getD (0, false)).2 = false → p ≠ 0 → BitVec.ofNat 64 (natOfBytes (c'.bank.readRun (8 * p) 8)) = v)
      ∧ ∀ off, (p = 0 ∨ off < 8 * p ∨ 8 * p + 8 ≤ off) → c'.bank.read off = c.bank.read off)
  ∧ (∀ (landing uid : Nat) (s : State) (c : Ctx), unitOf s uid = some c → ∃ l,
    exec (.storeBecomesVisible landing uid) s = .next { s with landings := l } ∧ l.length = s.landings.length
      ∧ ∀ j x, s.landings[j]? = some x →
        l[j]? = some (if j = landing then { x with seen := x.seen ++ [(uid, tickOf s c)] } else x))

/-- R18, R39, R61, R98, R108, R118, R170, R346: interrupts, slices, saves, budgets, breakpoints and late arrivals. -/
def Obligations.InterruptsAndStopsAreTaken : Prop :=
  Stated.ContextsStopAndAreSaved ∧ Stated.SlicesEnd ∧ Stated.BudgetsExpire ∧ Stated.OtherArrivals

end

namespace Sys2Proof.Stated
open Sys2Proof Sys2Proof.Machine

/-! ## Copies and packets, queues and pages (R18, R20, R21, R27 to R37, R44, R70, R93, R329 to R333) -/

/-- The running command of an engine, by its number. -/
def runs (s : State) (eng id : Nat) : Option Cmd := engCmd s eng id

/-- No synchronisation word or barrier stands in n bytes at an offset of a space. -/
def noWords (s : State) (space off n : Nat) : Prop :=
  ∀ w ∈ s.words, w.1 = space → off + n ≤ w.2.1 ∨ w.2.1 + 16 ≤ off

/-- The bytes of memory at a space and offset are bs, and every other byte is as it was. -/
def WroteBytes (s t : State) (space off : Nat) (bs : List Byte) : Prop :=
  (∀ i < bs.length, t.mem.read (locOf space (off + i)) = bs.getD i 0)
    ∧ ∀ a, (a < locOf space off ∨ locOf space off + bs.length ≤ a) → t.mem.read a = s.mem.read a

/-- The device takes writes of its guest (R40, R46, R71): one that is FROZEN only while its DESTROY waits for room (log entry 93). -/
def Guest (s : State) (vd : Nat) : Prop :=
  vd < 64 ∧ (vdOf s vd).state ≠ 0 ∧ ((vdOf s vd).state ≠ 3 ∨ destroying (vdOf s vd) = true) ∧ newelUp s = true

/-- A queue's registers. -/
def reg (s : State) (vd q : Nat) : Queue := queueReg (vdOf s vd) q

/-- Only queue q of a device differs. -/
def SetQueue (s : State) (vd q : Nat) (r : Queue) : State :=
  modVd s vd (fun v => { v with queues := tset v.queues q r })

/-- A write of the guest to a register of queue q. -/
def queueWrite (vd q : Nat) (i : Instr) : Prop :=
  (∃ v, i = .sqTailWrite vd q v) ∨ i = .kick vd q ∨ (∃ v, i = .cqHeadWrite vd q v) ∨ (∃ v, i = .queueEnable vd q v)
    ∨ i = .queueDrain vd q

/-- The bytes of a completion record (Table 2.5) at a count. -/
def completionImage (tail : Nat) (k : Completion) : List Byte :=
  lowBytes 4 (word k.seq) ++ lowBytes 2 (word k.status) ++ lowBytes 1 (word k.cause) ++ lowBytes 1 (word (1 - tail / 128 % 2))
    ++ lowBytes 8 (word k.endTick) ++ lowBytes 4 (word k.unitsDone) ++ lowBytes 4 (word k.trunc) ++ lowBytes 8 (word k.info)

/-- A page that is being retired. -/
def Page (sp pg : Nat) (r : Retiring) : Bool := r.space == sp && r.page == pg

/-- No take-over and no failed pair holds the newel. -/
def NewelActs (s : State) : Prop := takingOver s = false ∧ s.newel.pair ≠ 5

end Sys2Proof.Stated

section
open Sys2Proof Sys2Proof.Machine Sys2Proof.Stated

/-- R329, R332: a copy starts at its tick on its path where its checks pass; one whose checks fail is a fault at the command. -/
def Sys2Proof.Stated.CopiesStart : Prop :=
  ∀ (eng id : Nat) (s : State) (k : Cmd) (c : Ctx) (tm : Timing) (f : CopyF),
    (engOf s eng).buffer.find? (fun k => k.id == id) = some k → k.ins = .cpy tm f → issuer s eng k = some c → k.uid ≠ 0 →
    runs s eng id = none →
    (copyChecks s c k = .ok () → k.live ≠ 0 → (∀ side ∈ [0, 1], remoteSide k side = false → ∃ p, meetSide s c k side 0 = .good p) →
      ∃ t k', exec (.copyStart eng id) s = .next t ∧ runs t eng id = some k' ∧ k'.start = some (now s (eng / 4))
        ∧ k'.landed = 0 ∧ k'.counted = 0 ∧ k'.vals = k.vals ∧ (∀ m ∈ (engOf t eng).buffer, m.id ≠ id) ∧ SameStorage s t
        ∧ t.agenda = s.agenda ++ [⟨eng / 4, now s (eng / 4), 15, 0, id, .eff (.copyStep eng id), false⟩])
    ∧ (copyChecks s c k = .ok () → k.live = 0 → ∃ t, exec (.copyStart eng id) s = .next t ∧ runs t eng id = none
      ∧ (∀ m ∈ (engOf t eng).buffer, m.id ≠ id) ∧ t.mem = s.mem)
    ∧ (∀ e, copyChecks s c k = .error e → ∃ s₁, exec (.copyStart eng id) s = .next (engineFault s₁ k false e)
      ∧ s₁ = modEng s eng (fun x => { x with buffer := x.buffer.filter (fun m => m.id != id) }))

/-- R93, R331, R332: the next word of a copy that is not remote lands, its page not in a switch window: its 32 bytes are written where
its destination stands, and nothing else of memory changes. A destination without rights is cut there and not written. In a switch
window the word waits for the next tick. -/
def Sys2Proof.Stated.CopyWordsLand : Prop :=
  ∀ (eng id j : Nat) (s : State) (k : Cmd) (c : Ctx) (tm : Timing) (f : CopyF), runs s eng id = some k → k.ins = .cpy tm f →
    issuer s eng k = some c → k.prog ≠ 3 → f.rsrc ≠ 1 → f.rdst ≠ 1 → k.live = j + 1 → k.landed = j → groupOf k ≠ 0 → k.bytes.length = 32 → k.names = [] →
    k.streams = [] → k.vals.getD 3 0 = 0 → padOf s c (copyAddr k 0 j) = none →
    (∀ p, meetSide s c k 0 j = .good p → p.host = false → inSwitch s p = false → noWords s p.space p.off 32 →
      ∃ t, exec (.copyWordLand eng id j) s = .next t ∧ WroteBytes s t p.space p.off k.bytes ∧ t.hostMem = s.hostMem
        ∧ runs t eng id = none)
    ∧ (∀ p kind why, meetSide s c k 0 j = .cut kind why p → inSwitch s p = false → lessorOf s c p why = none → (rentOf s c.priv).state ≠ 1 →
      ∃ t, exec (.copyWordLand eng id j) s = .next t ∧ t.mem = s.mem ∧ t.hostMem = s.hostMem ∧ runs t eng id = none
        ∧ (k.uid ≠ 0 → unitOf s k.uid = some c → (launchOf t c.launch).trunc = (launchOf s c.launch).trunc + 1
          ∧ t.logs.truncCount = s.logs.truncCount + 1))
    ∧ (∀ p, copyPlace s c k 0 j = .ok p → inSwitch s p = true → ∃ t, exec (.copyWordLand eng id j) s = .next t ∧ SameStorage s t
      ∧ runs t eng id = some k ∧ ∃ e ∈ t.agenda, e.tick = now s (eng / 4) + 1 ∧ e.act = .ins (.copyWordLand eng id j))

/-- R18, R19, Tables 1.5 and 1.7: a poisoned or timed-out read over CXL marks the word of its copy, or the result of its counted load, and
is counted on its link (each adds 1: DEDUCED, log entry 52); a link that goes down is counted, stays down, and poisons every load
outstanding on it. -/
def Sys2Proof.Stated.CxlErrorsMarkWords : Prop :=
  (∀ (i : Instr) (id j eng : Nat) (s : State) (k : Cmd), (i = .cxlPoisonReturn id j ∨ i = .cxlCompletionTimeout id j) →
    engineWith s id = some (eng, k) → runs s eng id = some k → k.landed ≤ j → j < k.live →
    ∃ t k', exec i s = .next t ∧ runs t eng id = some k' ∧ k'.streams = BitVec.ofNat 384 j :: k.streams
      ∧ SameStorage s t ∧ t.units = s.units
      ∧ (∀ c p l, issuer s eng k = some c → copyPlace s c k 1 j = .ok p → linkOf p = some l →
        (tget t.links.errors l).getD 0 = (tget s.links.errors l).getD 0 + 1))
  ∧ (∀ (i : Instr) (id j l : Nat) (b : Bool) (s : State) (c : Ctx), (i = .cxlPoisonReturn id j ∨ i = .cxlCompletionTimeout id j) →
    engineWith s id = none → (∀ e ∈ s.engines, ∀ m ∈ e.2.buffer, m.id ≠ id) → unitOf s c.uid = some c → c ∈ allUnits s → tget c.loadLinks id = some (l, b) →
    (∀ u ∈ allUnits s, u.uid ≠ c.uid → tget u.loadLinks id = none) → (∀ u ∈ allUnits s, u.uid = c.uid → u = c) →
    ∃ t, exec i s = .next t ∧ unitOf t c.uid = some { c with loadLinks := tset c.loadLinks id (l, true) } ∧ SameStorage s t
      ∧ (tget t.links.errors l).getD 0 = (tget s.links.errors l).getD 0 + 1)
  ∧ (∀ (link : Nat) (s : State), ∃ t, exec (.cxlLinkDown link) s = .next t ∧ SameStorage s t
    ∧ (∀ uid c, tget s.units uid = some c → tget t.units uid = some { c with
      loadLinks := c.loadLinks.map (fun e => if e.2.1 = link then (e.1, link, true) else e) })
    ∧ t.links.cxlUp = s.links.cxlUp.set link false
    ∧ (tget t.links.errors link).getD 0 = (tget s.links.errors link).getD 0 + 1)

/-- R21, R93, R194: a packet unanswered for 2^16 ticks is sent again up to 15 times, then its copy is cut; a refused one is sent
again; one that arrives over a port that is up lands its 32 bytes once, with its marks; one for a page in its switch window is refused;
a port goes down or up. What becomes of a packet is outside the device (log entry 12). -/
def Sys2Proof.Stated.PacketsAreSentAndReceived : Prop :=
  (∀ (i : Instr) (pkt eng : Nat) (s : State) (p : Packet) (k : Cmd), s.links.packets.find? (fun p => p.id == pkt) = some p →
    engineWith s p.cmd = some (eng, k) → ((i = .packetAckTimeout pkt ∧ p.tries < 15) ∨ i = .packetRefusedResend pkt) →
    ∃ t p', exec i s = .next t ∧ p' ∈ t.links.packets ∧ p'.id = pkt ∧ p'.cmd = p.cmd ∧ p'.bytes = p.bytes ∧ p'.marks = p.marks ∧ p'.node = p.node
      ∧ SameStorage s t ∧ ∃ e ∈ t.agenda, e.own = p.cmd ∧ (e.act = .ins (.copyWordLand eng p.cmd p.addr)
        ∨ e.act = .ins (.packetAckTimeout pkt) ∨ e.act = .ins (.packetRefusedResend pkt)))
  ∧ (∀ (pkt eng : Nat) (s : State) (p : Packet) (k : Cmd), s.links.packets.find? (fun p => p.id == pkt) = some p →
    engineWith s p.cmd = some (eng, k) → 15 ≤ p.tries → ∃ t, exec (.packetAckTimeout pkt) s = .next t ∧ runs t eng p.cmd = none)
  ∧ (∀ (vd addr seq val : Nat) (s : State),
    let bs := (List.range 32).map (fun i => BitVec.ofNat 8 (val / 2 ^ (8 * i)))
    let taken : State := { s with links := { s.links with seenSeq := s.links.seenSeq ++ [seq] } }
    let fresh := s.links.seenSeq.contains seq = false ∧ s.links.ethUp.any id = true
    (¬ fresh → exec (.nodePacketReceive vd addr seq val) s = .next s)
    ∧ (fresh → globalMap (vdOf s vd) addr = none → exec (.nodePacketReceive vd addr seq val) s = .next taken)
    ∧ (∀ m, fresh → globalMap (vdOf s vd) addr = some m → m.host = true →
      (hostOwns s vd addr = true → exec (.nodePacketReceive vd addr seq val) s = .next taken)
      ∧ (hostOwns s vd addr = false → ∃ t, exec (.nodePacketReceive vd addr seq val) s = .next t ∧ seq ∈ t.links.seenSeq
        ∧ t.mem = s.mem ∧ ∀ i < 32, t.hostMem.read (m.hostAddr + (addr - m.first) + i) = bs.getD i 0))
    ∧ (∀ m, fresh → globalMap (vdOf s vd) addr = some m → m.host = false →
      let here := refPlace s m.ref (addr - m.first) 0 0
      (inSwitch s here = true → exec (.nodePacketReceive vd addr seq val) s = .next s)
      ∧ (inSwitch s here = false → (rentOf s m.ref).state = 1 → hostOwns s vd addr = false →
        noWords s (rentOf s m.ref).space (addr - m.first) 32 →
        ∃ t, exec (.nodePacketReceive vd addr seq val) s = .next t ∧ seq ∈ t.links.seenSeq
          ∧ WroteBytes s t (rentOf s m.ref).space (addr - m.first) bs
          ∧ ∀ i < 4, val.testBit (256 + i) = true → ((rentOf s m.ref).space, addr - m.first + 8 * i) ∈ t.memPoison)
      ∧ (inSwitch s here = false → ((rentOf s m.ref).state ≠ 1 ∨ hostOwns s vd addr = true) →
        exec (.nodePacketReceive vd addr seq val) s = .next taken)))
  ∧ (∀ (port : Nat) (s : State), port < s.links.ethUp.length → ∃ t, exec (.scaleOutPortDown port) s = .next t ∧ SameStorage s t
    ∧ t.units = s.units ∧ t.links.ethUp = s.links.ethUp.set port (!s.links.ethUp.getD port false))

/-- R18, R19, R21, R93, R194, R329 to R332: copies start and land word by word; errors of their links and packets. That each error adds 1
to its link's counter is log entry 52's reading (DEDUCED), that a packet carries its marks is log entry 107's choice (DESIGN CHOICE), and
what becomes of a packet outside is log entry 12's. -/
def Obligations.CopiesStartLandAndErr : Prop :=
  Stated.CopiesStart ∧ Stated.CopyWordsLand ∧ Stated.CxlErrorsMarkWords ∧ Stated.PacketsAreSentAndReceived

/-- R19, R27 to R29, R46, Tables 2.2 to 2.4: a guest's writes of its queue's registers; those of a FROZEN device are dropped,
counted and flagged; those of a queue that is not there, of a function not enabled (DEDUCED, log entry 72), or with the
newel's pair FAILED (DEDUCED, log entry 51) do nothing. A
device that IMPORTs takes them as a RUNNING one does: the spec does not say so, it is the model's choice (log entry 89). -/
def Sys2Proof.Stated.QueueRegistersAreWritten : Prop :=
  (∀ (vd q val : Nat) (s : State), Guest s vd → q < 64 →
    let r := reg s vd q
    ((val + 2 ^ 32 - r.sqHead.toNat) % 2 ^ 32 ≤ 32 →
      exec (.sqTailWrite vd q val) s = .next (SetQueue s vd q { r with sqTail := BitVec.ofNat 32 val }))
    ∧ (32 < (val + 2 ^ 32 - r.sqHead.toNat) % 2 ^ 32 → ∃ t, exec (.sqTailWrite vd q val) s = .next t
      ∧ (reg t vd q).sqTail = r.sqTail ∧ (reg t vd q).error = true ∧ (reg t vd q).code = 1 ∧ t.mem = s.mem)
    ∧ (∃ t, exec (.kick vd q) s = .next t ∧ vd * 64 + q ∈ t.kicks ∧ (∀ k ∈ s.kicks, k ∈ t.kicks) ∧ SameStorage s t
      ∧ ∃ e ∈ t.agenda, e.act = .ins (.kickScan vd q))
    ∧ (∃ t, exec (.cqHeadWrite vd q val) s = .next t ∧ (reg t vd q).cqHead = BitVec.ofNat 32 val ∧ t.mem = s.mem)
    ∧ (∃ t, exec (.queueEnable vd q val) s = .next t ∧ (reg t vd q).enable = decide (val % 2 = 1)
      ∧ (reg t vd q).irqEn = decide (val / 4 % 2 = 1) ∧ (reg t vd q).coalesce = BitVec.ofNat 8 (val / 256)
      ∧ (reg t vd q).vector = BitVec.ofNat 11 (val / 65536) ∧ (val % 2 = 1 → (reg t vd q).error = false)
      ∧ (val / 2 % 2 = 1 → (reg t vd q).drain = true) ∧ (reg t vd q).sqTail = r.sqTail ∧ (reg t vd q).cqTail = r.cqTail)
    ∧ (∃ t, exec (.queueDrain vd q) s = .next t ∧ (reg t vd q).drain = true ∧ (reg t vd q).enable = r.enable ∧ t.mem = s.mem))
  ∧ (∀ (vd q : Nat) (i : Instr) (s : State), queueWrite vd q i → vd < 64 → q < 64 → (vdOf s vd).state = 3 →
    destroying (vdOf s vd) = false → newelUp s = true →
    ∃ t, exec i s = .next t ∧ (vdOf t vd).droppedWrites = (vdOf s vd).droppedWrites + 1
      ∧ reg t vd q = { reg s vd q with error := true, code := 4 } ∧ t.kicks = s.kicks ∧ t.mem = s.mem)
  ∧ (∀ (vd q : Nat) (i : Instr) (s : State), queueWrite vd q i →
    (64 ≤ vd ∨ 64 ≤ q ∨ (vdOf s vd).state = 0 ∨ newelUp s = false) → exec i s = .next s)
  ∧ (∀ (vd q : Nat) (s : State), (reg s vd q).drain = true → ∃ t, exec (.queueDrainDone vd q) s = .next t
    ∧ reg t vd q = { reg s vd q with drain := false, enable := false } ∧ t.kicks = s.kicks ∧ t.mem = s.mem)

/-- R28 to R30, R49: the newel takes the record at the head of a kicked queue: one that passes enters its launch, one that does
not is counted, flagged and completed REJECTED; the kick is cleared with the last. A disabled queue's kick is cleared and flagged. A
draining queue's stays until the drain ends: that is the model's choice (log entry 90). What qstat.bad_seq names is log entry 68's reading
(DEDUCED). -/
def Sys2Proof.Stated.KicksTakeRecords : Prop :=
  ∀ (vd q : Nat) (s : State), NewelActs s → vd * 64 + q ∈ s.kicks → (vdOf s vd).state ≠ 3 → destroying (vdOf s vd) = false →
    let r := reg s vd q
    (r.enable = false → ∃ t, exec (.kickScan vd q) s = .next t ∧ vd * 64 + q ∉ t.kicks ∧ (reg t vd q).error = true
      ∧ (reg t vd q).code = 3 ∧ (reg t vd q).sqHead = r.sqHead ∧ t.launches = s.launches)
    ∧ (r.enable = true → r.drain = true → exec (.kickScan vd q) s = .next s)
    ∧ (r.enable = true → r.drain = false → r.sqTail = r.sqHead → ∃ t, exec (.kickScan vd q) s = .next t
      ∧ vd * 64 + q ∉ t.kicks ∧ reg t vd q = r ∧ t.launches = s.launches)
    ∧ (r.enable = true → r.drain = false → r.sqTail = r.sqHead + 1 → journalRoom (retire s) = true →
      let b := recordBytes s vd q r.sqHead.toNat
      (recordOk s vd b = true → ∃ t l, exec (.kickScan vd q) s = .next t ∧ tget t.launches s.nextId = some l ∧ l.vd = vd
        ∧ l.queue = q ∧ l.seq = r.sqHead.toNat ∧ l.body = recordOf b ∧ (reg t vd q).sqHead = r.sqTail ∧ vd * 64 + q ∉ t.kicks)
      ∧ (recordOk s vd b = false → ∃ t, exec (.kickScan vd q) s = .next t ∧ (reg t vd q).sqHead = r.sqTail
        ∧ (reg t vd q).error = true ∧ (reg t vd q).code = 2 ∧ (reg t vd q).badSeq = r.sqHead ∧ vd * 64 + q ∉ t.kicks
        ∧ (∃ k ∈ (vdOf t vd).withheld, k.queue = q ∧ k.seq = r.sqHead.toNat ∧ k.status = 2) ∧ t.launches = s.launches))

/-- R31, R32, Tables 2.3 and 2.5: a withheld completion of a RUNNING device with room, no ended launch's still to come before it, is
written in its slot, counted and signalled, at once or after 2^12 ticks without another. -/
def Sys2Proof.Stated.CompletionsAreWritten : Prop :=
  (∀ (vd : Nat) (s : State) (k : Completion), NewelActs s → (vdOf s vd).state = 2 → (vdOf s vd).withheld = [k] →
    endsBefore s vd k = false →
    let r := reg s vd k.queue
    (r.cqTail - r.cqHead).toNat < 128 → ∃ t, exec (.completionWrite vd) s = .next t ∧ (vdOf t vd).withheld = []
      ∧ (reg t vd k.queue).cqTail = r.cqTail + 1 ∧ t.mem = s.mem
      ∧ t.window.readRun (vd * 0x100000 + k.queue * 0x4000 + 0x3000 + r.cqTail.toNat % 128 * 32) 32 = completionImage r.cqTail.toNat k
      ∧ (r.coalesce = 0 → r.irqEn = true → (vd, r.vector.toNat) ∈ t.vectors)
      ∧ (r.coalesce = 0 → r.irqEn = false → t.vectors = s.vectors))
  ∧ (∀ (vd q : Nat) (s : State), (reg s vd q).since ≠ 0 → (reg s vd q).moved + 2 ^ 12 = now s 0 →
    ∃ t, exec (.coalesceTimeout vd q) s = .next t ∧ reg t vd q = { reg s vd q with since := 0 } ∧ t.mem = s.mem
      ∧ t.vectors = s.vectors ++ (if (reg s vd q).irqEn then [(vd, (reg s vd q).vector.toNat)] else []))

/-- R27 to R32, R46, R49: a device's queues, from the guest's writes to its completions. That the tail and the head of a queue
differ by at most its 32 records is R28's. The model's readings in it are log entries 51, 68, 72, 89, 90 and 93. -/
def Obligations.QueuesTakeRecordsAndComplete : Prop :=
  Stated.QueueRegistersAreWritten ∧ Stated.KicksTakeRecords ∧ Stated.CompletionsAreWritten

/-- R33 to R36, R179, Tables 2.6 and 2.7: a release makes a page the device's and wakes what is parked on it, which from then on sees
what the host wrote; a claim waits until nothing of the device runs on it, then makes it the host's, if it is mapped still. That a launch
with all its teams descheduled still runs is the model's choice (log entry 91), and that a claim of a page that is mapped no more ends with
result 1 (log entry 120). -/
def Sys2Proof.Stated.PagesChangeOwner : Prop :=
  (∀ (vd page : Nat) (s : State), Guest s vd → page % 65536 = 0 →
    (globalMap (vdOf s vd) page = none → ∃ t, exec (.pageRelease vd page) s = .next t
      ∧ (vdOf t vd).prStatus = word (page + 0x100) ∧ (vdOf t vd).hostOwned = (vdOf s vd).hostOwned ∧ t.mem = s.mem)
    ∧ (∀ m, globalMap (vdOf s vd) page = some m → hostOwns s vd page = true → s.keyed →
      ∃ t, exec (.pageRelease vd page) s = .next t ∧ hostOwns t vd page = false ∧ (vdOf t vd).prStatus = word page
        ∧ t.mem = s.mem ∧ t.rents = s.rents
        ∧ ∀ uid c, unitOf s uid = some c → c.uid = uid → c.vd = vd → c.wait = .parked (page / 65536) →
          unitOf t uid = some { raised s c (tickOf s c) with wait := .run, nextAt := tickOf s c }))
  ∧ (∀ (vd page : Nat) (s : State) (m : Mapping), Guest s vd → page % 65536 = 0 → (vdOf s vd).claim = none →
    globalMap (vdOf s vd) page = some m → ¬ (m.host = false ∧ (rentOf s m.ref).tier = 2) →
    (hostOwns s vd page = true → ∃ t, exec (.pageClaim vd page) s = .next t ∧ (vdOf t vd).prStatus = word (page + 0x200)
      ∧ (vdOf t vd).claim = none ∧ t.mem = s.mem)
    ∧ (hostOwns s vd page = false → ∃ t, exec (.pageClaim vd page) s = .next t ∧ (vdOf t vd).claim = some page
      ∧ (vdOf t vd).prStatus.getLsbD 0 = true ∧ (vdOf t vd).hostOwned = (vdOf s vd).hostOwned ∧ t.mem = s.mem))
  ∧ (∀ (vd page : Nat) (s : State), (vdOf s vd).claim = some page →
    let stands := ∃ m, globalMap (vdOf s vd) page = some m ∧ (m.host = true ∨ (rentOf s m.ref).tier ≠ 2)
    (claimReady s vd page = false → exec (.pageClaimGrant vd) s = .next s)
    ∧ (claimReady s vd page = true → ¬ stands → page % 65536 = 0 → ∃ t, exec (.pageClaimGrant vd) s = .next t
      ∧ (vdOf t vd).hostOwned = (vdOf s vd).hostOwned ∧ (vdOf t vd).claim = none ∧ (vdOf t vd).prStatus = word (page + 0x100) ∧ t.mem = s.mem)
    ∧ (claimReady s vd page = true → stands → page % 65536 = 0 → ∃ t, exec (.pageClaimGrant vd) s = .next t ∧ hostOwns t vd page = true
      ∧ (vdOf t vd).claim = none ∧ (vdOf t vd).prStatus = word page ∧ t.mem = s.mem))

/-- R33, R93: the host's loads and stores of a page reach it where the page is the host's; of a page that is the device's, or none of
it, a load gets no data and a store is dropped. A page that is retired keeps its owner, its rent and what it holds: it is copied, copied
again while more than 16 of its lines are dirty, then its switch window opens, not under a timed stream, and closes on its new frame. What
a load returns is noted as sent out (log entry 12). -/
def Sys2Proof.Stated.HostAccessesAndRetirement : Prop :=
  (∀ (vd addr val : Nat) (s : State) (m : Mapping), globalMap (vdOf s vd) addr = some m → m.host = false →
    let sp := (rentOf s m.ref).space
    (hostOwns s vd addr = true →
      exec (.hostCxlMemAccess vd addr 0 val) s = .next { s with links := { s.links with
        sent := s.links.sent ++ [(4096, addr, s.mem.readRun (locOf sp (addr - m.first)) 8, [])] } }
      ∧ ∃ t, exec (.hostCxlMemAccess vd addr 1 val) s = .next t ∧ WroteBytes s t sp (addr - m.first) (lowBytes 8 (word val)))
  )
  ∧ (∀ (vd addr val : Nat) (s : State), (∀ m, globalMap (vdOf s vd) addr = some m → m.host = true ∨ hostOwns s vd addr = false) →
    exec (.hostCxlMemAccess vd addr 0 val) s = .next { s with links := { s.links with sent := s.links.sent ++ [(4096, addr, [], [])] } }
    ∧ exec (.hostCxlMemAccess vd addr 1 val) s = .next s)
  ∧ (∀ (vd page : Nat) (s : State), retirePlace s vd page = none → exec (.pageRetire vd page) s = .next s)
  ∧ (∀ (vd page sp pg : Nat) (s : State), retirePlace s vd page = some (sp, pg) → ∃ t, exec (.pageRetire vd page) s = .next t
    ∧ SameStorage s t ∧ t.rents = s.rents ∧ t.words = s.words ∧ t.vds = s.vds ∧ t.units = s.units
    ∧ (s.retiring.find? (Page sp pg) = none → t.retiring = s.retiring ++ [⟨sp, pg, false, []⟩])
    ∧ ∀ r, s.retiring.find? (Page sp pg) = some r →
      (r.window = true → t.retiring.find? (Page sp pg) = none ∧ (tget t.frames (sp * 2 ^ 25 + pg)).isSome)
      ∧ (r.window = false → 16 < r.lines.length → t.retiring.find? (Page sp pg) = some { r with lines := [] })
      ∧ (r.window = false → r.lines.length ≤ 16 → inTimedStream s sp pg = false →
        t.retiring.find? (Page sp pg) = some { r with window := true })
      ∧ (r.window = false → r.lines.length ≤ 16 → inTimedStream s sp pg = true → t.retiring = s.retiring))

/-- R1, R20, R27, R41, Tables 0.1, 1.6 and 2.6: firmware takes pool extents of whole 2 MiB that overlap none, over a link that is up
and runs IDE, while its 8 decoders can name their ranges and the pools hold at most 64 TiB, and releases those no paid page needs;
PR_HEAD frees request entries. That extents that meet are one range is the model's reading (DEDUCED, log entry 103). -/
def Sys2Proof.Stated.ExtentsAndRequests : Prop :=
  (∀ (die base pages : Nat) (s : State),
    let l := (tget s.links.extents die).getD []
    let takes := pages ≠ 0 ∧ pages % 32 = 0 ∧ base % 32 = 0 ∧ die < 8 ∧ s.links.ide.getD die false = true
      ∧ s.links.cxlUp.getD (8 + die) false = true ∧ (∀ e ∈ l, base + pages ≤ e.1 ∨ e.1 + e.2 ≤ base)
      ∧ (decoderRanges (l ++ [(base, pages)])).length ≤ 8 ∧ allPoolPages s + pages ≤ 2 ^ 30
    (takes → ∃ t, exec (.poolExtentAdd die base pages) s = .next t
      ∧ (tget t.links.extents die).getD [] = l ++ [(base, pages)]
      ∧ capacity t 4 die = capacity s 4 die + pages ∧ SameStorage s t)
    ∧ (¬ takes → exec (.poolExtentAdd die base pages) s = .next s))
  ∧ (∀ (die base pages : Nat) (s : State),
    let used := (((poolRegions s 4 die).filter (fun e => e.2.state != 3)).map (fun e => e.2.size)).sum
    let l := (tget s.links.extents die).getD []
    (((base, pages) ∉ l ∨ capacity s 4 die < used + pages) → exec (.poolExtentRelease die base pages) s = .next s)
    ∧ ((base, pages) ∈ l → used + pages ≤ capacity s 4 die → ∃ t, exec (.poolExtentRelease die base pages) s = .next t
      ∧ (tget t.links.extents die).getD [] = l.erase (base, pages) ∧ t.hostMem = s.hostMem))
  ∧ (∀ (vd val : Nat) (s : State), Guest s vd → (vdOf s vd).prHeld = [] → exec (.prHeadWrite vd val) s = .next (modVd s vd (fun v =>
    { v with prHead := BitVec.ofNat 32 val })))

/-- R1, R20, R27, R33 to R36, R41, R93, R179: pages, requests and pool capacity. The model's readings in it are log entries 12, 91, 103
and 120. -/
def Obligations.PagesMoveBetweenHostAndDevice : Prop :=
  Stated.PagesChangeOwner ∧ Stated.HostAccessesAndRetirement ∧ Stated.ExtentsAndRequests

end

namespace Sys2Proof.Stated
open Sys2Proof Sys2Proof.Machine

/-! ## Virtual devices, the scoreboard, the newel pair, boot, power and recovery (R14 to R25, R38 to R48, R55 to R71, R188 to R194) -/

/-- The commands of Table 2.10: number, and the states they start in. -/
def commandOf (i : Instr) : Option (Nat × (VDev → Bool)) :=
  let alive := fun (v : VDev) => v.state == 1 || v.state == 2
  match i with
  | .createVd => some (1, fun v => v.state == 0)
  | .destroyVd => some (2, fun v => v.state != 0)
  | .exportVd => some (3, alive)
  | .roundVd => some (4, fun v => alive v && v.tracking)
  | .freeze => some (5, alive)
  | .finalVd => some (6, fun v => v.state == 3 && v.tracking)
  | .importVd => some (7, fun v => v.state == 0)
  | .activate => some (8, fun v => v.state == 4 && v.received)
  | .thaw => some (9, fun v => v.state == 3)
  | .grent => some (10, alive)
  | .loadVd => some (11, alive)
  | .codereg => some (12, alive)
  | .codefree => some (13, alive)
  | .grelease => some (14, alive)
  | .grenew => some (15, alive)
  | _ => none

/-- The access names the control block of a virtual device, and a newel acts. -/
def Addressed (s : State) (vd : Nat) : Prop :=
  0x280000 ≤ s.port.off ∧ (s.port.off - 0x280000) / 0x1000 = vd ∧ vd < 64 ∧ newelUp s = true

/-- The node field of the write that starts a command (Table 2.9). -/
def nodeField (s : State) : BitVec 12 := s.port.val.extractLsb' 32 12

/-- A command of a virtual device starts: no command runs, and the device is in a state of its row. -/
def Starts (i : Instr) (s : State) (vd : Nat) : Prop :=
  Addressed s vd ∧ takingOver s = false ∧ (vdOf s vd).busy = false ∧ ∃ n may, commandOf i = some (n, may) ∧ may (vdOf s vd) = true

/-- A command has ended with a result, and the device is otherwise as P says. -/
def Ended (t : State) (vd n r : Nat) : Prop := (vdOf t vd).busy = false ∧ (vdOf t vd).result = r ∧ (vdOf t vd).cmd = n

/-- A region whose paid-until tick has moved by delta (R48): what would lie before tick 0 is kept beside it (log entry 106). -/
def movedRent (d : Int) (r : Rent) : Rent :=
  let x := (r.paid : Int) - r.lack + d
  if r.paid = 2 ^ 64 - 1 then r else { r with paid := min (2 ^ 64 - 2) x.toNat, lack := (-x).toNat }

/-- An event stands on die 0's agenda at a tick. -/
def At (t : State) (tick : Nat) (i : Instr) : Prop := ∃ e ∈ t.agenda, e.die = 0 ∧ e.tick = tick ∧ e.act = .ins i

/-- The entry of a global region of a device (R44), PAID or in GRACE, that a handle names. -/
def regionOf (s : State) (h : Nat) : Option Nat := if handleReserved h then none else entryOfHandle s h

/-- No copy command has started. -/
def NoCopyRuns (s : State) : Prop := ∀ e ∈ s.engines, engRunning e.2 = []

/-- An image passes the checks of R22. -/
def Verifies (m : Image) (fuse : Nat) : Prop := m.ecdsa = true ∧ m.lms = true ∧ fuse ≤ m.version ∧ m.format = true

/-- The code of the check an image fails first (Table 1.8; their order is log entry 13's). -/
def failsAt (m : Image) (fuse : Nat) : Nat := if ¬ m.ecdsa then 1 else if ¬ m.lms then 2 else if m.version < fuse then 3 else 4

/-- Requests of R24 that follow others: what must have gone before. -/
def needs (i : Instr) : Option (Spdm → Bool) :=
  match i with
  | .getCapabilities => some Spdm.version
  | .negotiateAlgorithms => some Spdm.caps
  | .getDigests | .getCertificate | .challenge | .getMeasurements => some Spdm.algs
  | _ => none

/-- A request is answered over a host link that is up, by a module whose newel acts. -/
def Answers (s : State) : Prop := s.links.hostUp = true ∧ newelUp s = true

end Sys2Proof.Stated

section
open Sys2Proof Sys2Proof.Machine Sys2Proof.Stated

/-- R40, Tables 2.9 and 2.10: a command written while another runs is ignored but for its node; one in a state that is not its own
ends with result 1 and changes nothing. One that comes in a take-over comes again at the next pulse: that it waits is the model's choice
(log entry 92). -/
def Sys2Proof.Stated.CommandsHaveTheirStates : Prop :=
  ∀ (i : Instr) (n : Nat) (may : VDev → Bool) (vd : Nat) (s : State), commandOf i = some (n, may) → Addressed s vd →
    ((vdOf s vd).busy = true → exec i s = .next (modVd s vd (fun v => { v with node := nodeField s })))
    ∧ ((vdOf s vd).busy = false → takingOver s = true → exec i s = .next { modVd s vd (fun v => { v with node := nodeField s }) with
      inputs := s.inputs ++ [⟨s.clock.pulses + 1, s.port, i, [], []⟩] })
    ∧ ((vdOf s vd).busy = false → takingOver s = false → may (vdOf s vd) = false →
      exec i s = .next (modVd s vd (fun v => { v with node := nodeField s, cmd := n, busy := false, result := 1 })))

/-- R39, R41, R43: CREATE and IMPORT start a device whose floors fit with parameters at their reset values and empty queues,
DESTROY ends its launches and, when its completions are written, leaves it FREE without kicks, allowance or paid regions. That it waits
for them where a completion ring is full, and what else starts anew, is log entry 93's. -/
def Sys2Proof.Stated.DevicesAreMadeAndUnmade : Prop :=
  ∀ (vd : Nat) (s : State),
    (∀ i st, (i = .createVd ∧ st = 1) ∨ (i = .importVd ∧ st = 4) → Starts i s vd →
      (floorsFit s vd = true → ∃ t, exec i s = .next t ∧ (vdOf t vd).state = st ∧ (vdOf t vd).busy = false ∧ (vdOf t vd).result = 0
        ∧ (vdOf t vd).sliceLog2 = 22 ∧ (vdOf t vd).priorityMax = 3 ∧ (vdOf t vd).maxInflight = 256 ∧ (vdOf t vd).coreQuota = 1024
        ∧ (vdOf t vd).floors = (vdOf s vd).floors ∧ (vdOf t vd).queues = [] ∧ (vdOf t vd).maps = []
        ∧ (∀ x, t.window.read x = if x / 0x100000 = vd then 0 else s.window.read x) ∧ (∀ k ∈ t.kicks, k / 64 ≠ vd) ∧ t.mem = s.mem)
      ∧ (floorsFit s vd = false → ∃ t n, exec i s = .next t ∧ Ended t vd n 2 ∧ (vdOf t vd).state = 0 ∧ t.mem = s.mem
        ∧ t.window = s.window))
    ∧ (Starts .destroyVd s vd → (∀ e ∈ s.rents, e.2.sub = true → e.2.state ≠ 2) →
      let Over := fun (t : State) => (vdOf t vd).busy = false ∧ (vdOf t vd).state = 0 ∧ allowanceOf t vd = 0
        ∧ (vdOf t vd).withheld = [] ∧ (∀ k ∈ t.kicks, k / 64 ≠ vd) ∧ (∀ q, (queueReg (vdOf t vd) q).enable = false)
        ∧ (∀ ref, (rentOf t ref).owner / 65536 = vd → (rentOf t ref).state ≠ 1 ∧ (rentOf t ref).state ≠ 2)
      ∃ t, exec .destroyVd s = .next t ∧ (vdOf t vd).cmd = 2
        ∧ (((vdOf t vd).busy = true ∧ (vdOf t vd).state = (vdOf s vd).state ∧ (vdOf t vd).withheld ≠ []) ∨ Over t)
        ∧ ((vdOf s vd).withheld = [] → (∀ e ∈ s.launches, e.2.vd ≠ vd) → Over t)
        ∧ (NoCopyRuns s → ∀ id l, tget t.launches id = some l → l.vd ≠ vd))

/-- R44, Table 2.14: GRENT rents a paid region of share 2 for principal 0 and maps it; LOAD hands its copy to copy engine 0;
GRELEASE gives a region back, GRENEW extends it. Results the table names no case of (a region with a live sublet, no free run, a
charge past 64 bits, an argument RENEW refuses) are the model's choice (log entry 94). -/
def Sys2Proof.Stated.GlobalRegionsAreRented : Prop :=
  ∀ (vd : Nat) (s : State),
    let v := vdOf s vd
    let a := v.arg0.toNat
    let span := v.arg1.toNat
    let badRent := a % 16 < 2 ∨ 4 < a % 16 ∨ a / 128 % 2 ≠ 0 ∨ a / 256 = 0 ∨ 2 ^ 24 < a / 256 ∨ span = 0 ∨ 2 ^ 48 < span
    let badLoad := v.arg0.toNat % 32 ≠ 0 ∨ v.arg1.toNat % 32 ≠ 0 ∨ v.arg2.toNat % 32 ≠ 0 ∨ paidRange s vd v.arg1.toNat v.arg2.toNat = false
    (Starts .grent s vd → ∃ t, exec .grent s = .next t ∧ (vdOf t vd).busy = false ∧ (badRent → (vdOf t vd).result = 5)
      ∧ ((vdOf t vd).result ≠ 0 → t.rents = s.rents ∧ allowanceOf t vd = v.allowance)
      ∧ (¬ badRent → (vdOf t vd).result ∈ [0, 3, 6])
      ∧ ((vdOf t vd).result = 0 → ∃ m ∈ (vdOf t vd).maps, m.pages = a / 256 ∧ m.first % 65536 = 0 ∧ m.host = false
        ∧ (vdOf t vd).res0 = word (handleOf t m.ref) ∧ (vdOf t vd).res1 = word m.first ∧ (rentOf t m.ref).state = 1
        ∧ (rentOf t m.ref).owner = vd * 65536 ∧ (rentOf t m.ref).share = 2 ∧ (rentOf t m.ref).tier = a % 16
        ∧ (rentOf t m.ref).size = a / 256 ∧ (rentOf t m.ref).paid = now s (a / 16 % 8) + span
        ∧ allowanceOf t vd + rentRate (rentOf t m.ref) * span = v.allowance))
    ∧ (Starts .loadVd s vd → (badLoad → ∃ t, exec .loadVd s = .next t ∧ Ended t vd 11 5 ∧ SameStorage { s with vds := [] } { t with vds := [] })
      ∧ (¬ badLoad → ∃ t k, exec .loadVd s = .next t ∧ (vdOf t vd).busy = true ∧ (vdOf t vd).cmd = 11 ∧ k ∈ (engOf t 0).buffer
        ∧ k.ins = .loadVd ∧ k.vals = [v.arg1, v.arg0, v.arg2, 0] ∧ k.sample = [vd] ∧ k.live * 32 = v.arg2.toNat ∧ t.mem = s.mem))
    ∧ (v.cmd = 11 → exec (.loadComplete vd) s = .next (modVd s vd (fun v => { v with busy := false })))
    ∧ (Starts .grelease s vd →
      ((∀ ref, regionOf s a = some ref → isGlobal s vd ref = false) → ∃ t, exec .grelease s = .next t ∧ Ended t vd 14 5 ∧ t.rents = s.rents)
      ∧ (∀ ref, regionOf s a = some ref → isGlobal s vd ref = true → (subletsOf s ref).isEmpty = false →
        ∃ t, exec .grelease s = .next t ∧ Ended t vd 14 5 ∧ t.rents = s.rents)
      ∧ (∀ ref, regionOf s a = some ref → isGlobal s vd ref = true → (rentOf s ref).owner = vd * 65536 → (subletsOf s ref).isEmpty = true →
        let r := rentOf s ref
        let back := if r.state = 1 then rentRate r * (r.paid - now s (refDie ref)) + r.escrow else 0
        back < 2 ^ 64 → Placed s → ∃ t, exec .grelease s = .next t ∧ Ended t vd 14 0 ∧ (rentOf t ref).state = 3 ∧ Emptied s t r.space
          ∧ allowanceOf t vd = min (v.allowance + back) (2 ^ 64 - 1)))
    ∧ (Starts .grenew s vd → ((∀ ref, regionOf s a = some ref → (rentOf s ref).owner / 65536 ≠ vd ∨ (rentOf s ref).sub = true) →
        ∃ t, exec .grenew s = .next t ∧ Ended t vd 15 5 ∧ t.rents = s.rents)
      ∧ (∀ ref, regionOf s a = some ref → (rentOf s ref).owner / 65536 = vd → (rentOf s ref).sub = false →
        let until_ := min (now s (refDie ref) + span) (2 ^ 64 - 2)
        ∃ t, exec .grenew s = .next t ∧ (vdOf t vd).busy = false ∧ (vdOf t vd).result ∈ [0, 5, 6]
          ∧ ((vdOf t vd).result = 5 ↔ (rentOf s ref).state = 2 ∧ until_ ≤ now s (refDie ref))
          ∧ ((vdOf t vd).result ≠ 0 → t.rents = s.rents ∧ allowanceOf t vd = v.allowance)
          ∧ ((rentOf s ref).state = 1 → until_ ≤ (rentOf s ref).paid → (vdOf t vd).result = 0)
          ∧ ((vdOf t vd).result = 0 → ((rentOf s ref).state = 1 ∧ until_ ≤ (rentOf s ref).paid ∧ t.rents = s.rents)
            ∨ rentOf t ref = { rentOf s ref with paid := until_, state := 1, lack := 0 })))

/-- R38, R39, R45, Table 2.8: code regions get a handle and lose it; the allowance is added to, saturating; parameters take values in
their range, floors and operands any. That CODEFREE of a handle that names no code region ends with result 5 is the model's choice (log
entry 125). -/
def Sys2Proof.Stated.CodeAndParameters : Prop :=
  ∀ (vd : Nat) (s : State),
    let v := vdOf s vd
    let a := v.arg0.toNat
    let n := v.arg1.toNat
    let inside := ∃ m, globalMap v a = some m ∧ m.host = false ∧ isGlobal s vd m.ref = true ∧ (rentOf s m.ref).tier ≤ 3
      ∧ a + n ≤ m.first + m.pages * 65536
    (Starts .codereg s vd → ∃ t, exec .codereg s = .next t ∧ (vdOf t vd).busy = false ∧ t.mem = s.mem ∧ t.rents = s.rents
      ∧ (¬ (a % 65536 = 0 ∧ n % 4 = 0 ∧ 4 ≤ n ∧ n ≤ 2 ^ 32 - 4 ∧ inside) → (vdOf t vd).result = 5 ∧ (vdOf t vd).codes = v.codes)
      ∧ (a % 65536 = 0 ∧ n % 4 = 0 ∧ 4 ≤ n ∧ n ≤ 2 ^ 32 - 4 ∧ inside → (vdOf t vd).result ∈ [0, 7])
      ∧ ((vdOf t vd).result = 0 → (∀ e ∈ v.codes, e.2.gen < 2 ^ 16) →
        ∃ e, codeOf (vdOf t vd) (vdOf t vd).res0.toNat = some e ∧ e.base = a ∧ e.size = n))
    ∧ (Starts .codefree s vd → ∃ t, exec .codefree s = .next t ∧ t.mem = s.mem ∧ t.rents = s.rents
      ∧ (codeOf v a = none → Ended t vd 13 5)
      ∧ (codeOf v a ≠ none → (∃ l ∈ s.launches, l.2.vd = vd ∧ l.2.body.codeHandle = a) → Ended t vd 13 1 ∧ (vdOf t vd).codes = v.codes)
      ∧ (codeOf v a ≠ none → (∀ l ∈ s.launches, l.2.vd = vd → l.2.body.codeHandle ≠ a) → Ended t vd 13 0 ∧ codeOf (vdOf t vd) a = none))
    ∧ (Addressed s vd → ∃ t, exec .allowAdd s = .next t ∧ allowanceOf t vd = min (v.allowance + s.port.val.toNat) (2 ^ 64 - 1)
      ∧ t.mem = s.mem ∧ t.rents = s.rents ∧ t.units = s.units)
    ∧ (Addressed s vd →
      let off := s.port.off % 0x1000
      let x := s.port.val.toNat
      let set := fun (f : VDev → VDev) => exec .vdParamWrite s = .next (modVd s vd f)
      (off = 0x018 → 16 ≤ x → x ≤ 30 → set (fun v => { v with sliceLog2 := x }))
      ∧ (off = 0x020 → x ≤ 3 → set (fun v => { v with priorityMax := x }))
      ∧ (off = 0x028 → 1 ≤ x → x ≤ 256 → set (fun v => { v with maxInflight := x }))
      ∧ (off = 0x030 → 1 ≤ x → x ≤ 1024 → set (fun v => { v with coreQuota := x }))
      ∧ (off = 0x018 → (x < 16 ∨ 30 < x) → set (fun v => v)) ∧ (off = 0x020 → 3 < x → set (fun v => v))
      ∧ (off = 0x028 → (x < 1 ∨ 256 < x) → set (fun v => v)) ∧ (off = 0x030 → (x < 1 ∨ 1024 < x) → set (fun v => v))
      ∧ (off = 0x200 → set (fun v => { v with arg0 := s.port.val })) ∧ (off = 0x208 → set (fun v => { v with arg1 := s.port.val }))
      ∧ (off = 0x210 → set (fun v => { v with arg2 := s.port.val }))
      ∧ (∀ k < 32, off = 0x100 + 8 * k → set (fun v => { v with floors := tset v.floors k x })))

/-- R46 to R48, Tables 2.10 and 2.11: FREEZE ends when every context of the device is saved; rounds and the final transfer send its
pages to its node; ACTIVATE and THAW move its ticks on. What the transport does is open (log entry 12); that T_S and T_D are die 0's
ticks is the model's choice (log entry 96), as is that running staging copies travel unstarted (log entry 95); that ACTIVATE keeps the
destination's parameters is its reading (DEDUCED, log entry 44). -/
def Sys2Proof.Stated.DevicesMigrate : Prop :=
  ∀ (vd : Nat) (s : State),
    let v := vdOf s vd
    let sends := fun (t : State) (l : List Nat) => ∀ p ∈ l, ∀ m, globalMap v (p * 65536) = some m →
      (m.host = false → ((nodeField s).toNat, p * 65536, s.mem.readRun (locOf (rentOf s m.ref).space (p * 65536 - m.first)) 65536,
        poisonIn s (refPlace s m.ref (p * 65536 - m.first) 0 0) 65536) ∈ t.links.sent)
      ∧ (m.host = true → ((nodeField s).toNat, p * 65536, s.hostMem.readRun (m.hostAddr + (p * 65536 - m.first)) 65536, [])
        ∈ t.links.sent)
    (Starts .freeze s vd → ∃ t, exec .freeze s = .next t ∧ (vdOf t vd).busy = true ∧ (vdOf t vd).cmd = 5 ∧ (vdOf t vd).state = v.state
      ∧ (freezeDone t vd = true → At t (now s 0) (.freezeComplete vd)))
    ∧ (v.busy = true → v.cmd = 5 → takingOver s = false →
      (freezeDone s vd = false → exec (.freezeComplete vd) s = .next s)
      ∧ (freezeDone s vd = true → ∃ t, exec (.freezeComplete vd) s = .next t ∧ Ended t vd 5 0 ∧ (vdOf t vd).state = 3
        ∧ (vdOf t vd).freezeTick = now s 0 ∧ t.mem = s.mem ∧ t.units = s.units))
    ∧ (Starts .exportVd s vd → ∃ t, exec .exportVd s = .next t ∧ (vdOf t vd).tracking = true ∧ (vdOf t vd).dirty = []
      ∧ (vdOf t vd).busy = true ∧ (vdOf t vd).node = nodeField s ∧ sends t (devicePages v) ∧ t.mem = s.mem)
    ∧ (Starts .roundVd s vd → ∃ t, exec .roundVd s = .next t ∧ (vdOf t vd).dirtyCount = v.dirty.length ∧ (vdOf t vd).dirty = []
      ∧ (vdOf t vd).busy = true ∧ sends t v.dirty ∧ t.mem = s.mem)
    ∧ (Starts .finalVd s vd → ∃ t x, exec .finalVd s = .next t ∧ t.outgoing = s.outgoing ++ [((nodeField s).toNat, x)]
      ∧ x.freezeTick = v.freezeTick ∧ x.units = (allUnits s).filter (fun u => u.vd == vd)
      ∧ x.launches = s.launches.filter (fun e => e.2.vd == vd) ∧ x.body.queues = v.queues ∧ x.body.hostOwned = v.hostOwned
      ∧ x.body.withheld = v.withheld ∧ x.copies = stagingCopies s vd ∧ sends t v.dirty ∧ (vdOf t vd).busy = true ∧ (vdOf t vd).state = 3)
    ∧ (v.busy = true → (v.cmd = 3 ∨ v.cmd = 4 ∨ v.cmd = 6) → ∃ t, exec (.transferCountedComplete vd) s = .next t
      ∧ (vdOf t vd).busy = false ∧ ((vdOf t vd).result = 0 ∨ (vdOf t vd).result = 4) ∧ (vdOf t vd).state = v.state ∧ t.mem = s.mem)
    ∧ (v.state = 4 → (tget s.incoming vd).isSome → exec (.finalTransferReceive vd) s = .next (modVd s vd (fun v => { v with received := true })))
    ∧ (v.state ≠ 4 → exec (.finalTransferReceive vd) s = .next { s with incoming := s.incoming.filter (fun e => e.1 != vd) })
    ∧ (∀ x, Starts .activate s vd → tget s.incoming vd = some x → ∃ t, exec .activate s = .next t ∧ (vdOf t vd).busy = false
      ∧ (((vdOf t vd).result = 0 ∧ (vdOf t vd).state = 1 ∧ (vdOf t vd).delta = (now s 0 : Int) - x.freezeTick
          ∧ (vdOf t vd).queues = x.body.queues ∧ (vdOf t vd).withheld = x.body.withheld ∧ (vdOf t vd).sliceLog2 = v.sliceLog2
          ∧ (vdOf t vd).priorityMax = v.priorityMax ∧ (vdOf t vd).maxInflight = v.maxInflight ∧ (vdOf t vd).coreQuota = v.coreQuota
          ∧ ((∀ e ∈ x.launches, e.2.stageRef = 0) → (vdOf t vd).hostOwned = x.body.hostOwned))
        ∨ ((vdOf t vd).result = 3 ∧ (vdOf t vd).state = 4 ∧ t.rents = s.rents ∧ t.units = s.units ∧ t.mem = s.mem)))
    ∧ (Starts .thaw s vd → ∃ t, exec .thaw s = .next t ∧ Ended t vd 9 0 ∧ (vdOf t vd).state = 1 ∧ (vdOf t vd).tracking = false
      ∧ (vdOf t vd).delta = (now s 0 : Int) - v.freezeTick ∧ t.mem = s.mem
      ∧ ∀ ref r, tget s.rents ref = some r → r.owner / 65536 = vd → r.state ≠ 0 →
        rentOf t ref = movedRent ((now s 0 : Int) - v.freezeTick) r)

/-- R38 to R48, Tables 2.8 to 2.11 and 2.14: the commands and parameters of a virtual device. IMPORT sets the parameters to their reset
values, and ACTIVATE keeps them (log entry 44). The model's other readings in it are log entries 12, 92 to 96, 106 and 125. -/
def Obligations.VirtualDevicesFollowTheirCommands : Prop :=
  Stated.CommandsHaveTheirStates ∧ Stated.DevicesAreMadeAndUnmade ∧ Stated.GlobalRegionsAreRented ∧ Stated.CodeAndParameters
    ∧ Stated.DevicesMigrate

/-- R53, R58, R59: an issued team has a unit on each chosen core, with its work items, images and entry point, and all else of its
registers zero. -/
def Sys2Proof.Stated.TeamsAreIssued : Prop :=
  ∀ (team : Nat) (s : State) (cs : List Nat), s.keyed → (teamOf s team).state = 0 → (teamOf s team).launch ≠ 0 → takingOver s = false →
    waitsForCores s team = true → placeTeam s team = some cs → (issueTeam s team cs).isSome →
    let l := launchOf s (teamOf s team).launch
    ∃ t, exec (.teamIssue team) s = .next t ∧ (teamOf t team).state = 1 ∧ (teamOf t team).units.length = cs.length
      ∧ (launchOf t (teamOf s team).launch).issued = true
      ∧ ∀ j uid core, (teamOf t team).units[j]? = some uid → cs[j]? = some core → ∃ c, unitOf t uid = some c ∧ c.core = core
        ∧ c.lcore = j ∧ c.vd = l.vd ∧ c.launch = (teamOf s team).launch ∧ c.team = team ∧ c.wait = .run
        ∧ c.wid = word (unitWids l.body (teamOf s team).first j).1 ∧ c.lastWid = word (unitWids l.body (teamOf s team).first j).2
        ∧ (∀ e, codeOf (vdOf s l.vd) l.body.codeHandle = some e → c.pc = word (e.base + l.body.entry)) ∧ c.entry = c.pc
        ∧ c.views = l.viewImgs ∧ c.useMask = l.body.useMask ∧ c.bank = [] ∧ c.preds = [] ∧ c.flight = [] ∧ c.bufs = []

/-- R64, R98, R117: a descheduled team begins its restore when it is placed; when it is done its saved units go on, their banks as their
save areas hold them, unless they must leave again at once (R46, R61). -/
def Sys2Proof.Stated.TeamsAreRestored : Prop :=
  (∀ (team : Nat) (s : State) (cs : List Nat), (teamOf s team).state = 3 → takingOver s = false → waitsForCores s team = true →
    placeTeam s team = some cs → (restoreTeam s team cs).isSome → ∃ t, exec (.teamResume team) s = .next t
      ∧ (teamOf t team).state = 5 ∧ (teamOf t team).issueTick = now s 0
      ∧ ∃ e ∈ t.agenda, now s (cs.headD 0 / 128) + 1024 ≤ e.tick ∧ e.act = .ins (.teamResume team))
  ∧ (∀ (team : Nat) (s : State), s.keyed → (teamOf s team).state = 5 → beingFrozen s (teamVd s team) = false →
    (teamOf s team).leaving = false →
    ∃ t, exec (.teamResume team) s = .next t ∧ (teamOf t team).state = 1 ∧ t.mem = s.mem ∧ t.rents = s.rents
      ∧ ∀ uid ∈ (teamOf s team).units, ∀ c, unitOf s uid = some c → c.uid = uid → c.wait = .saved →
        ∃ c', unitOf t uid = some c' ∧ c'.wait = .run ∧ c'.nextAt = tickOf s c ∧ c'.pc = c.pc ∧ c'.bank = savedBank s c
          ∧ c'.preds = c.preds ∧ c'.heldCmds = [])

/-- R37, R56, R57, R62, R332: a launch's staging copies go to copy engines, once no page they need is the host's, and their bytes are
counted on a word of mezzanine; when the last copy is over and the word has reached, the launch is staged, in a take-over at its end; one
that was cut ends the launch; a team that has waited 2^26 ticks has aged. That copies are cut where pages end, so that each goes to
its die, and that without a page the launch waits, are the model's choices (log entry 87). -/
def Sys2Proof.Stated.LaunchesAreStaged : Prop :=
  (∀ (id : Nat) (s : State),
    let l := launchOf s id
    let ps := l.stagings.flatMap stagePieces
    let die := dieOfGlobal s l.vd ((ps.head?.map (fun p => p.2.1)).getD 0)
    let page : Rent := { (default : Rent) with owner := 64 * 65536, tier := 2, size := 1, paid := never, core := die * 128 }
    (l.stage = 1 → l.staged = false → l.stagedAt = 0 → l.status = none → depsMet s l = true →
      ((hostHolds s l = true ∨ claimRegion s 64 die 1 (die * 128) page = none) → exec (.stageStart id) s = .next s)
      ∧ (∀ ref s₁, hostHolds s l = false → claimRegion s 64 die 1 (die * 128) page = some (ref, s₁) → ∃ t,
        exec (.stageStart id) s = .next t ∧ (launchOf t id).stagedAt = ps.length ∧ (launchOf t id).stageRef = ref
          ∧ wordAt t (rentOf t ref).space 0 = ⟨min (2 ^ 32 - 1) (ps.map (fun p => p.2.2)).sum, 0, 0, false, false⟩
          ∧ ∀ e ∈ ps, ∃ eng k, k ∈ (engOf t (4 * eng)).buffer ∧ k.ins = .stageStart id ∧ k.sample = [l.vd]
            ∧ k.vals = [word e.2.1, word e.1, word e.2.2, 0]))
    ∧ (l.stagedAt ≠ 0 → l.status = none →
      (l.info = 0 →
        let counted := l.stageRef ≠ 0 ∧ l.staged = false ∧ l.stagedAt = 1 ∧ takingOver s = false
          ∧ (wordAt s (rentOf s l.stageRef).space 0).reached = true
        (counted → ∃ t, exec (.stageComplete id) s = .next t ∧ (launchOf t id).staged = true ∧ (launchOf t id).stagedAt = 0
          ∧ (launchOf t id).stageRef = 0 ∧ (rentOf t l.stageRef).state = 0)
        ∧ (¬ counted → exec (.stageComplete id) s = .next (modLaunch s id (fun l => { l with stagedAt := l.stagedAt - 1 }))))
      ∧ (l.info = 1 → ∃ t, exec (.stageComplete id) s = .next t ∧ (launchOf t id).status = some 1 ∧ (launchOf t id).cause = 0x06
        ∧ SameStorage s t)
      ∧ (l.info = 2 → ∃ t, exec (.stageComplete id) s = .next t ∧ (launchOf t id).status = some 1 ∧ (launchOf t id).cause = 0x10
        ∧ SameStorage s t)))
  ∧ (∀ (team w : Nat) (s : State), (teamOf s team).waitStart = some w → w + 2 ^ 26 = now s 0 →
    ((teamOf s team).state = 0 ∨ (teamOf s team).state = 3) → ∃ t, exec (.teamAged team) s = .next t
      ∧ teamOf t team = { teamOf s team with aged := some (now s 0) } ∧ SameStorage s t)

/-- R31, R32, R50, R70, R116, R197: the end of a launch takes effect at once: its outcome is kept and launches that depend on its success
are cancelled, at its end_tick; when its contexts have stopped it leaves the scoreboard with its teams, and its completion waits its turn;
one that ended otherwise than done first stops its contexts, within 8 ticks; while the pair takes over, one that is done leaves an end
report, and another waits. Whose tick end_tick is is the model's choice (log entry 86). -/
def Sys2Proof.Stated.LaunchesEnd : Prop :=
  ∀ (id st : Nat) (s : State) (l : Launch), tget s.launches id = some l → l.status = some st →
    let TookEffect := fun (t : State) => (l.queue, l.seq, st) ∈ (vdOf t l.vd).outcomes
      ∧ ∀ n x, n ≠ id → tget s.launches n = some x → x.vd = l.vd → st ≠ 0 → x.status = none →
        (∃ d ∈ x.body.deps, d.kind = 2 ∧ d.queue = l.queue ∧ d.seq = l.seq) →
          (launchOf t n).status = some 3 ∧ (launchOf t n).endTick = l.endTick
    (NewelActs s → NoCopyRuns s → l.stage ≠ 4 → (st ≠ 0 → ∀ uid ∈ launchUnits s id, settled s uid = true) →
      ∃ t, exec (.launchEnd id) s = .next t ∧ tget t.launches id = none
      ∧ (∀ e ∈ t.teams, e.2.launch ≠ id) ∧ (l.postponed = false → l.effected = false → TookEffect t)
      ∧ (∃ k ∈ (vdOf t l.vd).withheld, k.queue = l.queue ∧ k.seq = l.seq ∧ k.status = st
        ∧ (l.postponed = false → k.endTick = l.endTick) ∧ (st ≠ 0 → l.postponed = true → k.endTick = now s 0)))
    ∧ (NewelActs s → st ≠ 0 → l.stage < 4 → (∃ uid ∈ launchUnits s id, settled s uid = false) →
      ∃ t, exec (.launchEnd id) s = .next t ∧ (launchOf t id).status = some st ∧ (launchOf t id).stage = 4
        ∧ (l.postponed = false → l.effected = false → NoCopyRuns s → TookEffect t)
        ∧ ∃ e ∈ t.agenda, now s 0 ≤ e.tick ∧ e.tick ≤ now s 0 + 8 ∧ e.act = .ins (.launchEnd id))
    ∧ (NewelActs s → st ≠ 0 → l.stage = 4 → ∃ t, exec (.launchEnd id) s = .next t ∧ (tget t.launches id = none
      ∨ ((launchOf t id).stage = 5 ∧ ∃ e ∈ t.agenda, e.tick = now s 0 + 1 ∧ e.act = .ins (.launchEnd id))))
    ∧ (takingOver s = true → st = 0 → id ∉ s.newel.endReports → s.newel.endReports.length < 4096 →
      ∃ t, exec (.launchEnd id) s = .next t ∧ t.newel.endReports = s.newel.endReports ++ [id] ∧ (launchOf t id).effected = true
        ∧ (l.effected = false → TookEffect t) ∧ ∀ n ≠ id, tget t.launches n = tget s.launches n)
    ∧ (takingOver s = true → id ∈ s.newel.endReports → exec (.launchEnd id) s = .next s)
    ∧ (takingOver s = true → st ≠ 0 → id ∉ s.newel.endReports →
      exec (.launchEnd id) s = .next (modLaunch s id (fun l => { l with postponed := true })))

/-- R55, R60: the newel looks at what waits without touching contexts, memory or rent, and looks again while something waits; during
a take-over it does not look. -/
def Sys2Proof.Stated.TheScoreboardIsReviewed : Prop :=
  ∀ s : State, (takingOver s = true → exec .scoreboardReevaluate s = .next s)
    ∧ (NewelActs s → s.boot.done = true → ∃ t, exec .scoreboardReevaluate s = .next t ∧ t.units = s.units ∧ t.cx = s.cx
      ∧ t.mem = s.mem ∧ t.rents = s.rents ∧ t.clock = s.clock
      ∧ (waitingTeams t ≠ [] → ∃ e ∈ t.agenda, now s 0 < e.tick ∧ e.act = .ins .scoreboardReevaluate))

/-- R71, Table 3.10: when the active newel fails, the standby is active within 4 ticks and goes through SUSPECT, VERIFYING and
REPLAYED to SINGLE; without a standby the pair is FAILED. Cores, teams and engines are unchanged until then; on the way to SINGLE every
kick bit is scanned and an end report's launch leaves. -/
def Sys2Proof.Stated.TheStandbyTakesOver : Prop :=
  ∀ s : State,
    let n := s.newel
    (n.pair = 0 → n.standbyOk = true → ∃ t d, exec .newelTakeover s = .next t ∧ d ≤ 4 ∧ t.newel.pair = 2
      ∧ t.newel.active = 1 - n.active ∧ t.newel.takeovers = min 255 (n.takeovers + 1) ∧ t.newel.standbyOk = false
      ∧ t.newel.resumeAt = now s 0 + d ∧ At t (now s 0 + d) .newelTakeover ∧ t.units = s.units ∧ t.teams = s.teams
      ∧ t.engines = s.engines ∧ SameStorage s t)
    ∧ (n.resumeAt = now s 0 →
      (n.pair = 2 → ∃ t d, exec .newelTakeover s = .next t ∧ d ≤ 64 * (n.commitSeq - n.appliedSeq) ∧ t.newel.pair = 3
        ∧ At t (now s 0 + d) .newelTakeover ∧ t.units = s.units ∧ SameStorage s t)
      ∧ (n.pair = 3 → Unstruck s → ∃ t d, exec .newelTakeover s = .next t ∧ t.newel.pair = 4 ∧ t.newel.appliedSeq = n.commitSeq
        ∧ At t (now s 0 + d) .newelTakeover ∧ t.units = s.units ∧ SameStorage s t)
      ∧ (n.pair = 4 → ∃ t, exec .newelTakeover s = .next t ∧ t.newel.pair = 1 ∧ t.newel.fences = []
        ∧ (n.endReports = [] → (∀ e ∈ s.launches, stagingReached s e.2 = false) → t.units = s.units ∧ t.mem = s.mem)
        ∧ (∀ k ∈ s.kicks, (reg s (k / 64) (k % 64)).enable = false → (vdOf s (k / 64)).state ≠ 3 →
          destroying (vdOf s (k / 64)) = false → k ∉ t.kicks)
        ∧ (∀ id, n.endReports = [id] → tget t.launches id = none)
        ∧ (∀ vd v, tget s.vds vd = some v → v.state = 2 → At t (now s 0) (.sliceEnd vd))))
    ∧ (((n.pair = 0 ∧ n.standbyOk = false) ∨ n.pair = 1) → ∃ t, exec .newelTakeover s = .next t ∧ t.newel.pair = 5
      ∧ t.units = s.units ∧ SameStorage s t)
    ∧ (n.pair = 0 → exec .standbyNewelFailure s = .next { s with newel := { n with standbyOk := false } })
    ∧ (n.pair ≠ 0 → ∃ t, exec .standbyNewelFailure s = .next t ∧ t.newel.pair = 5 ∧ t.units = s.units ∧ SameStorage s t)

/-- R50, R53 to R64, R70, R71, R98, R117, R197: from the scoreboard to the end of a launch, and the take-over of the pair. The model's
readings in it are log entries 74, 86 and 87. -/
def Obligations.TheNewelRunsLaunches : Prop :=
  Stated.TeamsAreIssued ∧ Stated.TeamsAreRestored ∧ Stated.LaunchesAreStaged ∧ Stated.LaunchesEnd
    ∧ Stated.TheScoreboardIsReviewed ∧ Stated.TheStandbyTakesOver

/-- R22, R23, R26, Table 1.8: a reset starts the newel where every image passes its checks, with an alias key that its measurements give,
and stops at the first that does not. What the key is is open (log entry 13). -/
def Sys2Proof.Stated.ResetBoots : Prop :=
  ∀ s : State,
    ((∀ i m, s.boot.images[i]? = some m → Verifies m (nth s.boot.fuses i)) → ∃ t, exec .moduleReset s = .next t
      ∧ t.boot.done = true ∧ t.boot.failImage = 0 ∧ t.newel.standbyOk = true ∧ t.newel.pair = 0 ∧ t.units = [] ∧ t.launches = []
      ∧ t.teams = [] ∧ t.kicks = [] ∧ t.cx = none ∧ (∀ d < 8, now t d = 0) ∧ t.hostMem = s.hostMem ∧ At t (2 ^ 14) .powerSample
      ∧ (∃ e ∈ t.rents, e.2.state = 1 ∧ e.2.tier = 2 ∧ e.2.size = 1024)
      ∧ t.boot.aliasKey = Config.aliasKey (t.boot.measures.flatMap (fun m => bytesOfNat 48 m.toNat))
      ∧ t.boot.aliasCert = Config.certify t.boot.aliasKey)
    ∧ (∀ i m, s.boot.images[i]? = some m → ¬ Verifies m (nth s.boot.fuses i) →
      (∀ j x, j < i → s.boot.images[j]? = some x → Verifies x (nth s.boot.fuses j)) → ∃ t, exec .moduleReset s = .next t
        ∧ t.boot.done = false ∧ t.boot.failImage = i + 1 ∧ t.boot.failCheck = failsAt m (nth s.boot.fuses i) ∧ t.agenda = []
        ∧ t.units = [] ∧ t.rents = [])

/-- R24: a request is answered in its order, GET_VERSION at any time; one out of order is answered with error 4; a signature takes
the next one-time key, and none is left after 2^20. The order, the error codes 4 and 5 and the form that asks for no signature are taken
from outside the spec (PRESUMED, log entry 131); what the responses hold is open (log entry 13). -/
def Sys2Proof.Stated.RequestsAreAnswered : Prop :=
  ∀ s : State, Answers s →
    let x := s.boot.spdm
    (∃ t, exec .getVersion s = .next t ∧ t.boot.spdm.version = true ∧ t.boot.spdm.caps = false ∧ t.boot.spdm.algs = false
      ∧ t.boot.spdm.code = 0 ∧ t.boot.spdm.lmsIndex = x.lmsIndex)
    ∧ (∀ i may, needs i = some may → may x = false → exec i s = .next { s with boot := { s.boot with
      spdm := { x with code := 4, response := [] } } })
    ∧ (x.version = true → ∃ t, exec .getCapabilities s = .next t ∧ t.boot.spdm.caps = true ∧ t.boot.spdm.code = 0)
    ∧ (x.caps = true → ∃ t, exec .negotiateAlgorithms s = .next t ∧ t.boot.spdm.algs = true ∧ t.boot.spdm.code = 0)
    ∧ (x.algs = true → (∃ t, exec .getDigests s = .next t ∧ t.boot.spdm.code = 0 ∧ t.boot.spdm.response.length = 48)
      ∧ (∃ t, exec .getCertificate s = .next t ∧ t.boot.spdm.code = 0 ∧ t.boot.spdm.response.length ≤ s.port.val.toNat)
      ∧ (∀ i ∈ [Instr.challenge, Instr.getMeasurements], (i = .getMeasurements → s.port.off ≠ 1) →
        (x.lmsIndex < 2 ^ 20 → ∃ t, exec i s = .next t ∧ t.boot.spdm.lmsIndex = x.lmsIndex + 1 ∧ t.boot.spdm.code = 0)
        ∧ (2 ^ 20 ≤ x.lmsIndex → ∃ t, exec i s = .next t ∧ t.boot.spdm.lmsIndex = x.lmsIndex ∧ t.boot.spdm.code = 5))
      ∧ (s.port.off = 1 → ∃ t, exec .getMeasurements s = .next t ∧ t.boot.spdm.lmsIndex = x.lmsIndex ∧ t.boot.spdm.code = 0
        ∧ t.boot.spdm.response = s.boot.measures.flatMap (fun m => bytesOfNat 48 m.toNat)))

/-- R14 to R17, Tables 1.3 and 1.4: domains are formed with the largest counter of each, unless a launch runs on a die that changes;
power limits below 1,000 W are ignored; a sample leaves ratios of at most 48, and a limit that 48 does not hold raises the alarm and
cuts the supply 100 ms on. What is measured and the ratios are open (log entry 14). -/
def Sys2Proof.Stated.DomainsAndPower : Prop :=
  ∀ s : State,
    let m : BitVec 8 := s.port.val.extractLsb' 24 8 ||| 1
    let barred := (List.range 8).any (fun d => domChanges s.clock.dom m d && dieBusy s d)
    (barred = true → ∃ t, exec .domainApply s = .next t ∧ t = { s with logs := t.logs } ∧ t.logs.faultCount = s.logs.faultCount + 1)
    ∧ (barred = false → s.clock.ticks.length = 8 → ∃ t, exec .domainApply s = .next t ∧ t.clock.dom = m ∧ t.clock.domStart = m
      ∧ (∀ d < 8, now t d = ((domDies m d).map (now s)).foldl max 0) ∧ t.mem = s.mem)
    ∧ (s.port.val.toNat % 65536 < 1000 → exec .powerLimitWrite s = .next s)
    ∧ (1000 ≤ s.port.val.toNat % 65536 → exec .powerLimitWrite s = .next { s with clock := { s.clock with
      powerLimit := BitVec.ofNat 16 s.port.val.toNat } })
    ∧ (∃ t, exec .powerSample s = .next t ∧ (s.ratiosOk → t.ratiosOk) ∧ At t (now s 0 + 2 ^ 14) .powerSample ∧ SameStorage s t
      ∧ t.units = s.units ∧ (s.clock.alarm = true → t.clock.alarm = true ∧ t.clock.ratios = s.clock.ratios)
      ∧ (s.clock.alarm = false → (∀ d < 8, domLow s.clock.dom d = d → nth s.clock.ratios d = 48) →
        min 3700 s.clock.powerLimit.toNat < t.clock.powerNow.toNat → t.clock.alarm = true ∧ t.clock.alarmAt = s.clock.pulses
          ∧ ∃ e ∈ t.agenda, e.die = 8 ∧ e.tick = s.clock.pulses + 70000000 ∧ e.act = .ins .supplyCut))
    ∧ exec .supplyCut s = .next { s with clock := { s.clock with supply := false }, links := { s.links with hostUp := false } }

/-- R25, R38, Tables 1.3, 2.8 and 9.6: a write of the management window reaches the register at its offset; one that no map accepts
is logged. That host memory stands from 2^40 on is log entry 12's. -/
def Sys2Proof.Stated.WritesReachTheirRegister : Prop :=
  ∀ s : State,
    let o := s.port.off
    (2 ^ 40 ≤ o → ∃ t, exec .registerWrite s = .next t ∧ t = { s with hostMem := t.hostMem }
      ∧ t.hostMem.readRun (o - 2 ^ 40) 8 = lowBytes 8 s.port.val)
    ∧ (o < 2 ^ 32 → s.links.hostUp = false → exec .registerWrite s = .next s)
    ∧ (s.links.hostUp = true →
      (o = 0x1000 → s.port.val.getLsbD 0 = true → exec .registerWrite s = exec .domainApply s)
      ∧ (o = 0x1000 → s.port.val.getLsbD 0 = false → exec .registerWrite s = .next { s with clock := { s.clock with
        domStart := s.port.val.extractLsb' 24 8 ||| 1 } })
      ∧ (o = 0x2000 → exec .registerWrite s = exec .powerLimitWrite s)
      ∧ (∀ i n may vd, commandOf i = some (n, may) → vd < 64 → o = 0x280000 + vd * 0x1000 → s.port.val.toNat % 16 = n →
        exec .registerWrite s = exec i s)
      ∧ (o < 2 ^ 32 → o ≠ 0x1000 → o ≠ 0x2000 → (o < 0x280000 ∨ 0x2C0000 ≤ o) → (o < 0x08000000 ∨ 0x0C000000 ≤ o) →
        ∃ t, exec .registerWrite s = .next t ∧ t = { s with logs := t.logs } ∧ t.logs.faultCount = s.logs.faultCount + 1))

/-- R4, R7, R17, R19, R25, R38, R129, Tables 1.7, 1.9, 2.2, 2.6, 2.8 and 6.4: a read shows the state: the tick counters, the power words,
zero on a die that is not the lowest of its domain, the residency entries, a queue's registers, a control block with its reserved words
zero, and to a virtual function its own 64 kick bits. That page_release and page_claim read as they were last written is the model's
reading (DEDUCED, log entry 132). -/
def Sys2Proof.Stated.ReadsShowTheState : Prop :=
  ∀ s : State,
    (∀ d < 8, windowRead s (0x1100 + 8 * d) = word (now s d)
      ∧ windowRead s (0x2040 + 8 * d) = (if domLow s.clock.dom d = d then word (nth s.clock.ratios d) else 0)
      ∧ windowRead s (0x2100 + 8 * d) = (if domLow s.clock.dom d = d then word (nth s.clock.swallowed d) else 0))
    ∧ (∀ core < 1024, ∀ b < 32, let e := entryAt (coreOf s core) b
      windowRead s (0x4000000 + core * 0x100 + b * 8) = word (e.ready % 2 ^ 32 + (if e.q4 then 2 ^ 32 else 0) + e.ctx * 2 ^ 33
        + e.slot * 2 ^ 35 + e.format * 2 ^ 40 + e.state * 2 ^ 46 + e.expert * 2 ^ 48))
    ∧ (∀ vd < 64, windowRead s (0x280000 + vd * 0x1000 + 0x008) = word (vdOf s vd).allowance
      ∧ windowRead s (0x280000 + vd * 0x1000 + 0x048) = word (vdOf s vd).droppedWrites
      ∧ ∀ k, 0x228 ≤ 8 * k → 8 * k < 0x1000 → windowRead s (0x280000 + vd * 0x1000 + 8 * k) = 0)
    ∧ (s.links.hostUp = true → newelUp s = true → ∀ vd < 64,
      (∀ q < 64, hostRead s none 2 (vd * 0x100000 + q * 0x4000 + 0x008) = some (word (reg s vd q).sqHead.toNat))
      ∧ hostRead s none 2 (vd * 0x100000 + 0x810) = some (vdOf s vd).released
      ∧ hostRead s none 2 (vd * 0x100000 + 0x818) = some (vdOf s vd).claimed
      ∧ ((vdOf s vd).state ≠ 0 → ∃ w, hostRead s (some vd) 4 0 = some w ∧ ∀ q < 64, w.getLsbD q = s.kicks.contains (vd * 64 + q)))
    ∧ (s.links.hostUp = false → ∀ fn bar off, hostRead s fn bar off = none)

/-- R4, R7, R14 to R17, R19, R22 to R26, R129: boot, attestation, domains, power and the management window. The model's readings in it
are log entries 12 to 14, 131 and 132. -/
def Obligations.TheModuleBootsAndIsManaged : Prop :=
  Stated.ResetBoots ∧ Stated.RequestsAreAnswered ∧ Stated.DomainsAndPower ∧ Stated.WritesReachTheirRegister
    ∧ Stated.ReadsShowTheState

/-- R188 to R190: an idle core's class is tested; a test that its unit fails is logged, and a third event of a class within 2^32 ticks
fences it, in a take-over when that ends. A test that finds another on its core, or a team and is no step of the round, comes again
2^16 ticks later; one that follows a transient event takes the place of another, and comes right after another such: that is the model's
choice (log entry 126). That a unit errs is hidden state (log entry 16); what a test holds of tier 0 is log entry 102's. -/
def Sys2Proof.Stated.CoresAreTested : Prop :=
  ∀ (core cls : Nat) (s : State),
    let x := coreOf s core
    let t₀ := now s (core / 128)
    (x.kat = some (cls, t₀) → (∀ y ∈ x.checksum, y.cls ≠ cls) → ∃ t, exec (.knownAnswerTest core cls) s = .next t
      ∧ (coreOf t core).kat = none ∧ (coreOf t core).capMask = x.capMask ∧ t.logs = s.logs ∧ t.teams = s.teams ∧ t.launches = s.launches)
    ∧ (x.kat = some (cls, t₀) → (∃ y ∈ x.checksum, y.cls = cls) → cls < 24 → x.capMask.getLsbD cls = true →
      ∃ t, exec (.knownAnswerTest core cls) s = .next t ∧ (coreOf t core).kat = none ∧ t.logs.relCount = s.logs.relCount + 1
        ∧ (∀ a b, tget x.events cls = some (some a, b) → t₀ < a + 2 ^ 32 → a ≤ t₀ →
          (takingOver s = false → (coreOf t core).capMask = x.capMask &&& ~~~ ((1 : BitVec 24) <<< cls))
          ∧ (takingOver s = true → (coreOf t core).capMask = x.capMask ∧ (core, cls) ∈ t.newel.fences))
        ∧ ((∀ a b, tget x.events cls = some (some a, b) → a + 2 ^ 32 ≤ t₀) → (coreOf t core).capMask = x.capMask))
    ∧ (x.kat = none → idleCore s core = true → ∃ t n, exec (.knownAnswerTest core cls) s = .next t
      ∧ (coreOf t core).kat = some (cls, n) ∧ t₀ < n ∧ n ≤ t₀ + 2 ^ 16 ∧ t.mem = s.mem ∧ t.units = s.units
      ∧ ∃ e ∈ t.agenda, e.die = core / 128 ∧ e.tick = n ∧ e.act = .ins (.knownAnswerTest core cls))
    ∧ (x.kat = none → idleCore s core = false → ∃ t, exec (.knownAnswerTest core cls) s = .next t ∧ (coreOf t core).kat = none
      ∧ t.logs = s.logs ∧ SameStorage s t
      ∧ ((coreOf s 0).katNext ≠ cls * 1024 + core → x.capMask.getLsbD 0 = true →
        ∃ e ∈ t.agenda, e.tick = t₀ + 2 ^ 16 ∧ e.act = .ins (.knownAnswerTest core cls)))
    ∧ (∀ other e, x.kat = some (other, e) → (other, e) ≠ (cls, t₀) →
      let first := recentEvent s core cls = true ∧ idleCore s core = true
      let comesAt := fun (n : Nat) => ∃ t, exec (.knownAnswerTest core cls) s = .next t ∧ (coreOf t core).kat = x.kat ∧ SameStorage s t
        ∧ ∃ a ∈ t.agenda, a.tick = n ∧ a.act = .ins (.knownAnswerTest core cls)
      (¬ first → comesAt (t₀ + 2 ^ 16)) ∧ (first → recentEvent s core other = true → comesAt (max e (t₀ + 1)))
      ∧ (first → recentEvent s core other = false → ∃ t n, exec (.knownAnswerTest core cls) s = .next t
        ∧ (coreOf t core).kat = some (cls, n) ∧ t₀ < n ∧ n ≤ t₀ + 2 ^ 16
        ∧ ∃ a ∈ t.agenda, a.die = core / 128 ∧ a.tick = n ∧ a.act = .ins (.knownAnswerTest core cls)))

/-- R191, R192, R193, Table 9.4: an error strikes a word of memory. A flagged word alone, and the vertical parity word, change nothing that
is seen; a second flagged word of the group poisons both; flips that no parity bit shows are read as they stand. The patrol comes within
2^24 ticks. How an error is named is log entry 15's. -/
def Sys2Proof.Stated.ErrorsStrikeWords : Prop :=
  ∀ (w e : Nat) (s : State), w % 8 = 0 → w < 2 ^ 80 →
    (e % 2 ^ 68 = 0 → exec (.storageError w e) s = .next s)
    ∧ (e < 2 ^ 69 → e % 2 ^ 68 ≠ 0 → (∀ u ∈ s.upsets, u.1 = w → isVertical u.2 ≠ isVertical e) →
      ∃ t, exec (.storageError w e) s = .next t ∧ t.upsets = s.upsets ++ [(w, e)] ∧ t.logs = s.logs
      ∧ (∃ x ∈ t.agenda, x.tick ≤ now s x.die + 2 ^ 24 ∧ x.act = .ins (.patrolScrub (parityGroup w)))
      ∧ (isVertical e = true → t.mem = s.mem)
      ∧ (isVertical e = false → isFlagged e = true → t.mem = s.mem
        ∧ (groupFlagged s (parityGroup w) = [] → verticalFlagged s (parityGroup w) = false → t.memPoison = s.memPoison)
        ∧ ((groupFlagged s (parityGroup w) ≠ [] ∨ verticalFlagged s (parityGroup w) = true) → (w / 2 ^ 41, w % 2 ^ 41) ∈ t.memPoison
          ∧ ∀ u ∈ groupFlagged s (parityGroup w), u.1 < 2 ^ 80 → (u.1 / 2 ^ 41, u.1 % 2 ^ 41) ∈ t.memPoison))
      ∧ (isVertical e = false → isFlagged e = false →
        natOfBytes (t.mem.readRun w 8) = Nat.xor (natOfBytes (s.mem.readRun w 8)) (dataFlips e)
        ∧ ∀ a, (a < w ∨ w + 8 ≤ a) → t.mem.read a = s.mem.read a))

/-- R192, R193, Table 9.4: the patrol of a group of memory: one flagged word is rebuilt; a flagged vertical parity word is; two or more
are uncorrectable and poisoned; with nothing flagged a nonzero V poisons the whole group, and a zero one is nothing. -/
def Sys2Proof.Stated.GroupsAreRecovered : Prop :=
  ∀ (g : Nat) (s : State), g / 512 * 262144 + 262144 ≤ 2 ^ 80 →
    let fl := groupFlagged s g
    let Gone := fun (t : State) => (∀ u ∈ t.upsets, u ∈ s.upsets ∧ parityGroup u.1 ≠ g) ∧ ∀ u ∈ s.upsets, parityGroup u.1 ≠ g → u ∈ t.upsets
    (fl = [] → verticalFlagged s g = false → syndrome s g = 0 → exec (.patrolScrub g) s = .next s)
    ∧ (fl = [] → verticalFlagged s g = false → syndrome s g ≠ 0 → ∃ t, exec (.patrolScrub g) s = .next t ∧ Gone t
      ∧ (∀ i < 64, (parityWord g i / 2 ^ 41, parityWord g i % 2 ^ 41) ∈ t.memPoison) ∧ t.mem = s.mem
      ∧ t.logs.relCount = s.logs.relCount + 1)
    ∧ (fl = [] → verticalFlagged s g = true → ∃ t, exec (.patrolScrub g) s = .next t ∧ Gone t ∧ t.mem = s.mem
      ∧ t.memPoison = s.memPoison ∧ t.logs.relCount = s.logs.relCount + 1)
    ∧ (∀ u, fl = [u] → verticalFlagged s g = false → ∃ t, exec (.patrolScrub g) s = .next t ∧ Gone t
      ∧ t.memPoison = s.memPoison ∧ t.logs.relCount = s.logs.relCount + 1 ∧ (syndrome s g = dataFlips u.2 → t.mem = s.mem))
    ∧ (1 < fl.length + (if verticalFlagged s g then 1 else 0) → fl ≠ [] → ∃ t, exec (.patrolScrub g) s = .next t ∧ Gone t
      ∧ (∀ u ∈ fl, (u.1 / 2 ^ 41, u.1 % 2 ^ 41) ∈ t.memPoison) ∧ t.logs.relCount = s.logs.relCount + fl.length)

/-- R188 to R193, Table 9.4: tests and fences, storage errors and their recovery. The model's readings in it are log entries 15, 16, 102
and 126. -/
def Obligations.ErrorsAreFoundLoggedAndFenced : Prop :=
  Stated.CoresAreTested ∧ Stated.ErrorsStrikeWords ∧ Stated.GroupsAreRecovered

end

namespace Sys2Proof.Stated
open Sys2Proof Sys2Proof.Machine

/-! ## Every form completes: what each does where the spec has it execute normally -/

/-- The form answers a next state, and P holds there. -/
def Completes (i : Instr) (s : State) (P : State → Prop) : Prop := ∃ t, exec i s = .next t ∧ P t

/-- The forms that go to an engine (Tables 14.2 to 14.16, 15.1 and 16.1). -/
def engineCommand (i : Instr) : Prop :=
  match i with
  | .vadd _ | .vsub _ | .vmul _ | .vfma _ | .vmin _ | .vmax _ | .vabs _ | .vneg _ | .vand _ | .vor _ | .vxor _ | .vnot _
  | .vshl _ | .vshr _ | .vsra _ | .vceq _ | .vcne _ | .vclt _ | .vcle _ | .vcvt _ | .vqrd _ | .vexp2 _ | .vrcp _ | .vbfx _
  | .vfsh _ | .vred _ | .vscan _ | .vld _ | .vst _ | .vgath _ | .vscat _ | .vlut _ | .vthr _ | .vtagTags _ | .vtagMask _
  | .vcomb _ | .vmov _ | .vbcst _ | .vsel _ | .vgetl _ | .mloadw _ _ | .mmul _ _ | .mgrad _ _ | .mgdrain _ _ | .mres _ _
  | .slclaim _ _ _ | .slrel _ _ | .lnest _ _ | .sortc _ _ | .xld _ _ | .xst _ _ | .resume _ _ | .esave _ _ _ | .eload _ _ _
  | .cpy _ _ | .cpyc _ _ | .ckpt _ _ | .lrflush _ _ | .xsend _ _ | .xrecv _ _ | .dispatch _ _ | .wlnext _ _ _ | .wid _ _ => True
  | _ => False

/-- A command of a virtual device that has started. -/
def started (s : State) (vd n : Nat) : State :=
  modVd (modVd s vd (fun v => { v with node := nodeField s })) vd (fun v => { v with cmd := n })

/-- R237, R247, R264, R273: MUL to REMU, GSYNC, LAND, ARRIVE, ARRDROP and BINIT complete. -/
def ProductsAndReleasesComplete : Prop :=
  ∀ (s : State) (c : Ctx),
    (∀ (d a b : Reg), Runs s c [1] → ∀ i ∈ [Instr.mul d a b, .mulh d a b, .mulhu d a b, .div d a b, .divu d a b, .rem d a b, .remu d a b],
      ∀ v k, productResult c i = some (d.toNat, v, k) → Completes i s (fun t => t.agenda = s.agenda ++ resultDue s c d.toNat k v
        ∧ ∃ c', t.cx = some c' ∧ c'.pc = c.pc + 4 ∧ c'.nextAt = tickOf s c + k))
    ∧ (∀ d, Runs s c [0] → c.idem = false → Completes (.gsync d) s (fun t => t.cx = some { c with wait := .gsync (rot c d.toNat) }
      ∧ (teamOf t c.team).gsync = (teamOf s c.team).gsync ++ [c.uid]))
    ∧ (∀ sc, Runs s c [0] → c.idem = false → Completes (.land sc) s (fun t => ∃ k,
      t.cx = some { left s c with wait := .land k, landDropped := none }))
    ∧ (∀ sc a b p, Runs s c [21] → objectAddress c (rdS c a.toNat) false →
      translate s c (windowFor c (rdS c a.toNat)) (rdS c a.toNat) = .ok p → rights s c p = none → c.idem = false →
      let goesOn := fun (t : State) => ∃ c', t.cx = some c' ∧ c'.pc = c.pc + 4 ∧ c'.flight = (left s c).flight
      ((frozenAt s p.space p.off = true ∨ c.regs16.length < 16 ∨ ∃ r ∈ c.regs16, r.addr = (rdS c a.toNat).toNat) →
        Completes (.arrive sc a) s goesOn ∧ Completes (.arrdrop sc a) s goesOn)
      ∧ (rdS c b.toNat ≠ 0 → Completes (.binit sc a b) s goesOn))

/-- R106, R183, R314: every engine command whose delivery checks pass is delivered. -/
def EngineCommandsComplete : Prop :=
  ∀ (i : Instr) (s : State) (c : Ctx) (k₀ : Cmd), engineCommand i → i.wf = true → prepOf s c i = some (.ok k₀) →
    Runs s c (declared c i) → c.wait = .run → queueFull s c (engineOf i) = false →
    (c.timed = true → ¬ untimed i ∧ ((timingOf i).isSome → tickOf s c < dueOf s c i)) →
    Completes i s (fun t => ∃ k, (coreOf t c.core).pending = (coreOf s c.core).pending ++ [k] ∧ k.ins = i ∧ k.uid = c.uid
      ∧ k.due = dueOf s c i ∧ ∃ c', t.cx = some c' ∧ c'.nextAt = tickOf s c + 1)

/-- R104, R107, R130, R183, R285: the events of a core's queues and arrays complete. -/
def QueueEventsComplete : Prop :=
  (∀ (core major func : Nat) (v : VForm) (s : State) (c : Ctx) (k : Cmd), queueNext s core 1 = some (k, none) →
    Machine.vform k.ins = some (major, func, v) → (major = 1 ∨ major = 2) → v.ty.toNat < 8 → v.mode = 0 → unitOf s k.uid = some c →
    c.uid = k.uid → k.core = core → c.core = core → plainEntry c v k → Unstruck s →
    Completes (.queueEntryStart core 1) s (fun t =>
      ⟨core / 128, now s (core / 128) + 1, 14, k.uid, k.id, .ins (.queueEntryComplete core 1 k.id), false⟩ ∈ t.agenda))
  ∧ (∀ (core q id : Nat) (s : State) (k : Cmd), running s core q id = some k → q < 4 → k.pushes = [] →
    (∀ f ∈ pushFifos q k.ins, (fifo (coreOf s core) f).length < 8) → Completes (.queueEntryComplete core q id) s (fun t =>
      queueOf (coreOf t core) q = (queueOf (coreOf s core) q).filter (fun m => m.id != id)))
  ∧ (∀ (core ld : Nat) (s : State) (l : Load), (coreOf s core).loads.find? (fun x => x.id == ld && x.live) = some l →
    l.drain = false → (coreOf s core).alcPoison = [] → (∀ c, unitOf s l.uid = some c → c.early = false ∧ c.core = core) →
    Completes (.residencyLoadBegin core ld) s (fun t => ∃ e, tget (coreOf t core).res l.bank = some e ∧ e.expert = l.expert ∧ e.state = 1)
    ∧ Completes (.residencyLoadEnd core ld) s (fun t => ∃ e, tget (coreOf t core).res l.bank = some e ∧ e.state = 2
      ∧ ∀ i < l.bytes.length, e.weights.read i = l.bytes.getD i 0))
  ∧ (∀ (core id : Nat) (s : State) (k k' : Cmd), (coreOf s core).pending.find? (fun m => m.id == id) = some k → k.core = core →
    engineOf k.ins < 4 → heldBack ((unitOf s k.uid).getD default) k = false → placeVec ((unitOf s k.uid).getD default) k = .ok k' →
    ¬ LateToQueue k → (coreOf s core).diverge = [] → Completes (.banisterCompare core id) s (fun t =>
      (coreOf t core).pending = (coreOf s core).pending.filter (fun m => m.id != id) ∧ k' ∈ queueOf (coreOf t core) (engineOf k.ins)))

/-- R67, R87, R108, R112, R178, R244, R245, R247, R264, R274, R340: the events of a context's waits complete. -/
def WaitEventsComplete : Prop :=
  ∀ (s : State) (c : Ctx), unitOf s c.uid = some c →
    (∀ status o, c.wait = .op o → Completes (.waitRelease c.uid status) s (fun t => ∃ c', unitOf t c.uid = some c' ∧ c'.wait = .status o))
    ∧ (c.wait = .tick (tickOf s c) → Completes (.waittExpire c.uid) s (fun t => unitOf t c.uid = some { c with
      wait := .run, pc := c.pc + 4, nextAt := tickOf s c }))
    ∧ (c.wait = .land (tickOf s c) → c.landDropped = none → Completes (.landComplete c.uid) s (fun t => ∃ c',
      unitOf t c.uid = some c' ∧ c'.wait = .run ∧ c'.pc = c.pc + 4 ∧ c'.view = max c.view (tickOf s c)))
    ∧ (∀ k, c.wait = .halt k → k ≤ tickOf s c → allOver s c = true → c.wid.toNat < c.lastWid.toNat →
      Completes (.contextExit c.uid) s (fun t => ∃ c', unitOf t c.uid = some c' ∧ c'.wait = .run ∧ c'.pc = c.entry
        ∧ c'.wid = word (c.wid.toNat + 1)))
    ∧ (∀ d, c.wait = .gsync d → d < 64 → (teamOf s c.team).gsync = [c.uid] → (teamOf s c.team).gsyncAt = some (tickOf s c) →
      (teamOf s c.team).units = [c.uid] → Completes (.gsyncRelease c.team) s (fun t => ∃ c', unitOf t c.uid = some c'
        ∧ c'.wait = .run ∧ c'.pc = c.pc + 4 ∧ c'.nextAt = tickOf s c
        ∧ (d ≠ 0 → BitVec.ofNat 64 (natOfBytes (c'.bank.readRun (8 * d) 8)) = word (tickOf s c))))
    ∧ (c.defer = some (tickOf s c) → c.heldIrq = [] → Completes (.deferWindowEnd c.uid) s (fun t =>
      unitOf t c.uid = some { c with defer := none }))
    ∧ (c.wait ≠ .done → (∀ k, c.wait ≠ .frozen k) → c.budgetStart + c.budget + 1 ≤ tickOf s c → holds (teamOf s c.team) = true →
      (launchOf s c.launch).status = none → Completes (.budgetExpire c.uid) s (fun t => (launchOf t c.launch).status = some 1
        ∧ (launchOf t c.launch).cause = 0x0A))
    ∧ (c.wait = .codesync → Completes (.codesyncComplete c.uid) s (fun t => unitOf t c.uid = some { c with
      wait := .run, pc := c.pc + 4, nextAt := tickOf s c, landedCode := s.landings.length }))
    ∧ (∀ ld p v, tget c.loads ld = some (p, v) → c.region = none → tget c.loadLinks ld = none →
      Completes (.countedLoadReturn c.uid ld) s (fun t => ∃ c', unitOf t c.uid = some c' ∧ c'.loads = tdel c.loads ld
        ∧ (p ≠ 0 → BitVec.ofNat 64 (natOfBytes (c'.bank.readRun (8 * p) 8)) = v)))
    ∧ (∀ j x, s.landings[j]? = some x → Completes (.storeBecomesVisible j c.uid) s (fun t =>
      t.landings[j]? = some { x with seen := x.seen ++ [(c.uid, tickOf s c)] }))
    ∧ (∀ t₀, ¬ Stopped c → c.sliceEnd = some t₀ → t₀ + 2 ^ 16 = tickOf s c → Completes (.regionBoundaryTimeout c.uid) s (fun t =>
      ∃ c', unitOf t c.uid = some c' ∧ c'.wait = .stopping ∧ c'.pc = c.pc))
    ∧ (s.keyed → c.wait = .saving → Completes (.contextSaveDone c.uid) s (fun t => ∃ c', unitOf t c.uid = some c' ∧ c'.wait = .saved
      ∧ c'.pc = c.pc))
    ∧ (s.cx = some c → Completes (.breakpointMatch c.core) s (fun t => ((vdOf s c.vd).busy = true → t.cx = some { c with
      bpPast := true, wait := .debug })
      ∧ ((vdOf s c.vd).busy = false → (vdOf s c.vd).state = 2 → (vdOf t c.vd).busy = true ∧ (vdOf t c.vd).cmd = 5)))
    ∧ (∀ k w d, c.wait = .dispatch d → (teamOf s c.team).plan = [(c.uid, w)] → (teamOf s c.team).dispatch = [c.uid] →
      (dieOf s (c.core / 128)).sync = [k] → k.uid = c.uid → k.start.isSome → (∃ tm f, k.ins = .dispatch tm f) → k.core = c.core →
      k.names.getD 0 0 ≠ 0 → k.names.getD 1 0 ≠ 0 → k.names.getD 0 0 ≠ k.names.getD 1 0 →
      Completes (.dispatchRelease c.team) s (fun t => ∃ c', unitOf t c.uid = some c' ∧ c'.work = w ∧ c'.wait = .run ∧ c'.pc = c.pc + 32))
    ∧ (∀ team k tm f, allDispatched s team = true → (teamOf s team).planned = false → dispatchCmd s team = some (c, k) →
      k.ins = .dispatch tm f → k.sample ≠ [] →
      let bks := (recOf s c).buckets.take (recOf s c).nBuckets
      let units := (((teamOf s team).dispatch.filterMap (unitOf s)).mergeSort (fun a b => decide (a.lcore ≤ b.lcore))).map Ctx.uid
      ∀ n ls refs s₁, planClaim s c.vd f.base.toNat bks k.sample units bks.length = some (n, ls, refs, s₁) →
        Completes (.dispatchClaimRetry team) s (fun t => (teamOf t team).plan = ls ∧ (teamOf t team).planned = true))

/-- R80, R81, R84, R86, R92: the events of the rent table complete. -/
def RentEventsComplete : Prop :=
  ∀ (s : State) (ref : Nat),
    let r := rentOf s ref
    let tick := now s (refDie ref)
    (vdOf s (r.owner / 65536)).state ≠ 3 →
      (r.state = 1 → r.sub = false → r.paid = tick → rentRate r * 2 ^ 20 ≤ r.escrow → Completes (.autoExtend ref) s (fun t =>
        rentOf t ref = { r with escrow := r.escrow - rentRate r * 2 ^ 20, paid := r.paid + 2 ^ 20 }))
      ∧ (r.state = 1 → r.sub = false → r.paid = tick → r.tier ≠ 0 → Completes (.lapse ref) s (fun t =>
        rentOf t ref = { r with state := 2, escrow := 0 }))
      ∧ (r.state = 2 → r.tier ≠ 0 → r.paid + 2 ^ 24 - r.lack = tick → Placed s → Completes (.graceEnd ref) s (fun t =>
        (rentOf t ref).state = 3 ∧ Emptied s t r.space))
      ∧ (r.state = 1 → r.sub = true → r.paid = tick → Completes (.subletEnd ref) s (fun t =>
        rentOf t ref = { (default : Rent) with gen := (r.gen + 1) % 65536 }))
      ∧ (r.state = 3 → (∀ m ∈ s.scrub, m.1 ≠ r.space) → Completes (.scrubComplete ref) s (fun t => rentOf t ref = { (default : Rent) with gen := (r.gen + 1) % 65536 }))

/-- R18, R20, R21, R329 to R332: the events of copies, links, packets and pool extents complete. -/
def CopyEventsComplete : Prop :=
  (∀ (eng id : Nat) (s : State) (k : Cmd) (c : Ctx) (tm : Timing) (f : CopyF), k.ins = .cpy tm f → issuer s eng k = some c →
    k.uid ≠ 0 →
    ((engOf s eng).buffer.find? (fun k => k.id == id) = some k → runs s eng id = none → copyChecks s c k = .ok () → k.live ≠ 0 →
      (∀ side ∈ [0, 1], remoteSide k side = false → ∃ p, meetSide s c k side 0 = .good p) →
      Completes (.copyStart eng id) s (fun t => ∃ k', runs t eng id = some k' ∧ k'.start = some (now s (eng / 4))))
    ∧ (∀ j p, runs s eng id = some k → k.prog ≠ 3 → f.rsrc ≠ 1 → f.rdst ≠ 1 → k.live = j + 1 → k.landed = j → groupOf k ≠ 0 → k.bytes.length = 32 →
      k.names = [] → k.streams = [] → k.vals.getD 3 0 = 0 → padOf s c (copyAddr k 0 j) = none → meetSide s c k 0 j = .good p →
      p.host = false → inSwitch s p = false → noWords s p.space p.off 32 → Completes (.copyWordLand eng id j) s (fun t =>
        WroteBytes s t p.space p.off k.bytes ∧ runs t eng id = none)))
  ∧ (∀ (id j eng : Nat) (s : State) (k : Cmd), engineWith s id = some (eng, k) → runs s eng id = some k → k.landed ≤ j → j < k.live →
    Completes (.cxlPoisonReturn id j) s (fun t => ∃ k', runs t eng id = some k' ∧ k'.streams = BitVec.ofNat 384 j :: k.streams)
    ∧ Completes (.cxlCompletionTimeout id j) s (fun t => ∃ k', runs t eng id = some k' ∧ k'.streams = BitVec.ofNat 384 j :: k.streams))
  ∧ (∀ (link : Nat) (s : State), Completes (.cxlLinkDown link) s (fun t => t.links.cxlUp = s.links.cxlUp.set link false))
  ∧ (∀ (vd addr seq val : Nat) (s : State) (m : Mapping), s.links.seenSeq.contains seq = false → s.links.ethUp.any id = true →
    globalMap (vdOf s vd) addr = some m → m.host = false → inSwitch s (refPlace s m.ref (addr - m.first) 0 0) = false →
    (rentOf s m.ref).state = 1 → hostOwns s vd addr = false → noWords s (rentOf s m.ref).space (addr - m.first) 32 →
    Completes (.nodePacketReceive vd addr seq val) s (fun t => WroteBytes s t (rentOf s m.ref).space (addr - m.first)
      ((List.range 32).map (fun i => BitVec.ofNat 8 (val / 2 ^ (8 * i))))))
  ∧ (∀ (pkt eng : Nat) (s : State) (p : Packet) (k : Cmd), s.links.packets.find? (fun p => p.id == pkt) = some p →
    engineWith s p.cmd = some (eng, k) →
    let again := fun (t : State) => ∃ e ∈ t.agenda, e.own = p.cmd ∧ (e.act = .ins (.copyWordLand eng p.cmd p.addr)
      ∨ e.act = .ins (.packetAckTimeout pkt) ∨ e.act = .ins (.packetRefusedResend pkt))
    (p.tries < 15 → Completes (.packetAckTimeout pkt) s again) ∧ Completes (.packetRefusedResend pkt) s again)
  ∧ (∀ (port : Nat) (s : State), port < s.links.ethUp.length → Completes (.scaleOutPortDown port) s (fun t =>
    t.links.ethUp = s.links.ethUp.set port (!s.links.ethUp.getD port false)))
  ∧ (∀ (die base pages : Nat) (s : State),
    let l := (tget s.links.extents die).getD []
    (pages ≠ 0 → pages % 32 = 0 → base % 32 = 0 → die < 8 → s.links.ide.getD die false = true →
      s.links.cxlUp.getD (8 + die) false = true → l = [] → allPoolPages s + pages ≤ 2 ^ 30 →
      Completes (.poolExtentAdd die base pages) s (fun t => (tget t.links.extents die).getD [] = [(base, pages)]))
    ∧ ((base, pages) ∈ l → poolRegions s 4 die = [] → pages ≤ capacity s 4 die → Completes (.poolExtentRelease die base pages) s (fun t =>
      (tget t.links.extents die).getD [] = l.erase (base, pages))))

/-- R19, R27 to R36, R49, R93: the host's accesses, and the newel's service of queues and pages, complete. -/
def HostEventsComplete : Prop :=
  (∀ (vd q val : Nat) (s : State), Guest s vd → q < 64 →
    ((val + 2 ^ 32 - (reg s vd q).sqHead.toNat) % 2 ^ 32 ≤ 32 → Completes (.sqTailWrite vd q val) s (fun t =>
      (reg t vd q).sqTail = BitVec.ofNat 32 val))
    ∧ Completes (.kick vd q) s (fun t => vd * 64 + q ∈ t.kicks)
    ∧ Completes (.cqHeadWrite vd q val) s (fun t => (reg t vd q).cqHead = BitVec.ofNat 32 val)
    ∧ Completes (.queueEnable vd q val) s (fun t => (reg t vd q).enable = decide (val % 2 = 1))
    ∧ Completes (.queueDrain vd q) s (fun t => (reg t vd q).drain = true)
    ∧ Completes (.prHeadWrite vd val) s (fun t => (vdOf t vd).prHead = BitVec.ofNat 32 val))
  ∧ (∀ (vd q : Nat) (s : State),
    ((reg s vd q).drain = true → Completes (.queueDrainDone vd q) s (fun t => (reg t vd q).drain = false ∧ (reg t vd q).enable = false))
    ∧ (NewelActs s → vd * 64 + q ∈ s.kicks → (vdOf s vd).state ≠ 3 → destroying (vdOf s vd) = false →
      (reg s vd q).enable = true → (reg s vd q).drain = false →
      (reg s vd q).sqTail = (reg s vd q).sqHead + 1 → journalRoom (retire s) = true →
      recordOk s vd (recordBytes s vd q (reg s vd q).sqHead.toNat) = true → Completes (.kickScan vd q) s (fun t =>
        ∃ l, tget t.launches s.nextId = some l ∧ l.vd = vd ∧ l.queue = q))
    ∧ ((reg s vd q).since ≠ 0 → (reg s vd q).moved + 2 ^ 12 = now s 0 → Completes (.coalesceTimeout vd q) s (fun t =>
      (reg t vd q).since = 0)))
  ∧ (∀ (vd : Nat) (s : State) (k : Completion), NewelActs s → (vdOf s vd).state = 2 → (vdOf s vd).withheld = [k] →
    endsBefore s vd k = false → ((reg s vd k.queue).cqTail - (reg s vd k.queue).cqHead).toNat < 128 →
    Completes (.completionWrite vd) s (fun t => (vdOf t vd).withheld = [] ∧ (reg t vd k.queue).cqTail = (reg s vd k.queue).cqTail + 1))
  ∧ (∀ (vd page : Nat) (s : State) (m : Mapping), globalMap (vdOf s vd) page = some m →
    (Guest s vd → page % 65536 = 0 → hostOwns s vd page = true → s.keyed → Completes (.pageRelease vd page) s (fun t =>
      hostOwns t vd page = false))
    ∧ (Guest s vd → page % 65536 = 0 → (vdOf s vd).claim = none → ¬ (m.host = false ∧ (rentOf s m.ref).tier = 2) →
      hostOwns s vd page = false → Completes (.pageClaim vd page) s (fun t => (vdOf t vd).claim = some page))
    ∧ ((vdOf s vd).claim = some page → claimReady s vd page = true → page % 65536 = 0 →
      (m.host = true ∨ (rentOf s m.ref).tier ≠ 2) → Completes (.pageClaimGrant vd) s (fun t =>
      hostOwns t vd page = true ∧ (vdOf t vd).claim = none))
    ∧ (m.host = false → hostOwns s vd page = true → ∀ val, Completes (.hostCxlMemAccess vd page 1 val) s (fun t =>
      WroteBytes s t (rentOf s m.ref).space (page - m.first) (lowBytes 8 (word val)))))
  ∧ (∀ (vd page sp pg : Nat) (s : State), retirePlace s vd page = some (sp, pg) → s.retiring.find? (Page sp pg) = none →
    Completes (.pageRetire vd page) s (fun t => t.retiring = s.retiring ++ [⟨sp, pg, false, []⟩]))
  ∧ (∀ (vd : Nat) (s : State),
    ((vdOf s vd).busy = true → (vdOf s vd).cmd = 5 → takingOver s = false → freezeDone s vd = true → Completes (.freezeComplete vd) s (fun t =>
      (vdOf t vd).state = 3 ∧ (vdOf t vd).busy = false))
    ∧ ((vdOf s vd).state = 4 → (tget s.incoming vd).isSome → Completes (.finalTransferReceive vd) s (fun t => (vdOf t vd).received = true))
    ∧ ((vdOf s vd).cmd = 11 → Completes (.loadComplete vd) s (fun t => (vdOf t vd).busy = false))
    ∧ ((vdOf s vd).busy = true → (vdOf s vd).cmd = 3 → Completes (.transferCountedComplete vd) s (fun t => (vdOf t vd).busy = false)))

/-- R38 to R48: the commands and parameters of a virtual device complete. -/
def DeviceCommandsComplete : Prop :=
  ∀ (vd : Nat) (s : State),
    let v := vdOf s vd
    let a := v.arg0.toNat
    let n := v.arg1.toNat
    (Starts .createVd s vd → floorsFit s vd = true → Completes .createVd s (fun t => (vdOf t vd).state = 1 ∧ (vdOf t vd).busy = false))
    ∧ (Starts .importVd s vd → floorsFit s vd = true → Completes .importVd s (fun t => (vdOf t vd).state = 4 ∧ (vdOf t vd).busy = false))
    ∧ (Starts .destroyVd s vd → v.withheld = [] → (∀ e ∈ s.launches, e.2.vd ≠ vd) → (∀ e ∈ s.rents, e.2.sub = true → e.2.state ≠ 2) →
      Completes .destroyVd s (fun t => (vdOf t vd).state = 0))
    ∧ (Starts .exportVd s vd → Completes .exportVd s (fun t => (vdOf t vd).tracking = true ∧ (vdOf t vd).busy = true))
    ∧ (Starts .roundVd s vd → Completes .roundVd s (fun t => (vdOf t vd).dirtyCount = v.dirty.length ∧ (vdOf t vd).busy = true))
    ∧ (Starts .freeze s vd → Completes .freeze s (fun t => (vdOf t vd).busy = true ∧ (vdOf t vd).cmd = 5))
    ∧ (Starts .finalVd s vd → Completes .finalVd s (fun t => t.outgoing.length = s.outgoing.length + 1 ∧ (vdOf t vd).busy = true))
    ∧ (∀ x s', Starts .activate s vd → tget s.incoming vd = some x →
      Machine.activate (started s vd 8) vd (vdOf (started s vd 8) vd) x = some s' → Completes .activate s (fun t => t = s'))
    ∧ (Starts .thaw s vd → Completes .thaw s (fun t => (vdOf t vd).state = 1 ∧ (vdOf t vd).busy = false))
    ∧ (∀ at_ ref s₁ s₂, Starts .grent s vd → 2 ≤ a % 16 → a % 16 ≤ 4 → a / 128 % 2 = 0 → 1 ≤ a / 256 → a / 256 ≤ 2 ^ 24 → 1 ≤ n →
      n ≤ 2 ^ 48 → freeGlobal v (a / 256) = some at_ →
      let die := a / 16 % 8
      let r : Rent := { (default : Rent) with
        owner := vd * 65536, tier := a % 16, share := 2, size := a / 256, paid := now s die + n, core := die * 128, item := 1, addr := at_ }
      claimRegion (started s vd 10) vd die (a / 256) (die * 128) r = some (ref, s₁) → charge s₁ vd (rentRate r * n) = some s₂ →
      Completes .grent s (fun t => (vdOf t vd).result = 0 ∧ (vdOf t vd).res0 = word (handleOf t ref) ∧ (vdOf t vd).res1 = word at_))
    ∧ (Starts .loadVd s vd → a % 32 = 0 → n % 32 = 0 → v.arg2.toNat % 32 = 0 → paidRange s vd n v.arg2.toNat = true →
      Completes .loadVd s (fun t => ∃ k ∈ (engOf t 0).buffer, k.ins = .loadVd ∧ k.vals = [v.arg1, v.arg0, v.arg2, 0]))
    ∧ (∀ m, Starts .codereg s vd → a % 65536 = 0 → n % 4 = 0 → 4 ≤ n → n ≤ 2 ^ 32 - 4 → globalMap v a = some m → m.host = false →
      isGlobal s vd m.ref = true → (rentOf s m.ref).tier ≤ 3 → a + n ≤ m.first + m.pages * 65536 → v.codes = [] →
      Completes .codereg s (fun t => (vdOf t vd).result = 0 ∧ (vdOf t vd).res0 = 0))
    ∧ (Starts .codefree s vd → (codeOf v a).isSome → s.launches = [] → Completes .codefree s (fun t => (vdOf t vd).result = 0
      ∧ codeOf (vdOf t vd) a = none))
    ∧ (∀ ref, regionOf s a = some ref →
      let r := rentOf s ref
      let until_ := min (now s (refDie ref) + n) (2 ^ 64 - 2)
      (Starts .grelease s vd → isGlobal s vd ref = true → r.owner = vd * 65536 → (subletsOf s ref).isEmpty = true → r.state = 2 →
        Placed s → Completes .grelease s (fun t => (vdOf t vd).result = 0 ∧ (rentOf t ref).state = 3))
      ∧ (Starts .grenew s vd → r.owner / 65536 = vd → r.sub = false → r.state = 1 → r.paid < until_ →
        rentRate r * (until_ - r.paid + r.lack) < 2 ^ 64 → rentRate r * (until_ - r.paid + r.lack) ≤ v.allowance →
        Completes .grenew s (fun t => (vdOf t vd).result = 0 ∧ rentOf t ref = { r with paid := until_, state := 1, lack := 0 })))
    ∧ (Addressed s vd → Completes .allowAdd s (fun t => allowanceOf t vd = min (v.allowance + s.port.val.toNat) (2 ^ 64 - 1)))
    ∧ (Addressed s vd → s.port.off % 0x1000 = 0x200 → Completes .vdParamWrite s (fun t => (vdOf t vd).arg0 = s.port.val))

/-- R50, R53 to R64, R70, R71, R98: the newel's events complete. -/
def NewelEventsComplete : Prop :=
  ∀ (s : State),
    (∀ team cs, s.keyed → (teamOf s team).state = 0 → (teamOf s team).launch ≠ 0 → takingOver s = false →
      waitsForCores s team = true → placeTeam s team = some cs → (issueTeam s team cs).isSome →
      Completes (.teamIssue team) s (fun t => (teamOf t team).state = 1 ∧ (teamOf t team).units.length = cs.length))
    ∧ (∀ team cs, (teamOf s team).state = 3 → takingOver s = false → waitsForCores s team = true → placeTeam s team = some cs →
      (restoreTeam s team cs).isSome → Completes (.teamResume team) s (fun t => (teamOf t team).state = 5))
    ∧ (∀ team w, (teamOf s team).waitStart = some w → w + 2 ^ 26 = now s 0 → ((teamOf s team).state = 0 ∨ (teamOf s team).state = 3) →
      Completes (.teamAged team) s (fun t => (teamOf t team).aged = some (now s 0)))
    ∧ (∀ id,
      let l := launchOf s id
      let ps := l.stagings.flatMap stagePieces
      let die := dieOfGlobal s l.vd ((ps.head?.map (fun p => p.2.1)).getD 0)
      let page : Rent := { (default : Rent) with owner := 64 * 65536, tier := 2, size := 1, paid := never, core := die * 128 }
      (∀ ref s₁, l.stage = 1 → l.staged = false → l.stagedAt = 0 → l.status = none → depsMet s l = true → hostHolds s l = false →
        claimRegion s 64 die 1 (die * 128) page = some (ref, s₁) →
        Completes (.stageStart id) s (fun t => (launchOf t id).stagedAt = ps.length ∧ (launchOf t id).stageRef = ref))
      ∧ (l.stagedAt ≠ 0 → l.status = none → Completes (.stageComplete id) s (fun t => l.info = 0 → (launchOf t id).stagedAt = l.stagedAt - 1)))
    ∧ (∀ vd b, (vdOf s vd).state = 2 → (vdOf s vd).sliceAt = some b → b + 2 ^ (vdOf s vd).limits.1 ≤ now s 0 → takingOver s = false →
      newelUp s = true → othersWait s vd = true → Completes (.sliceEnd vd) s (fun t => (vdOf t vd).state = 1))
    ∧ (∀ id l, tget s.launches id = some l → l.status = some 0 → NewelActs s → NoCopyRuns s → l.stage ≠ 4 →
      Completes (.launchEnd id) s (fun t => tget t.launches id = none))
    ∧ (NewelActs s → s.boot.done = true → Completes .scoreboardReevaluate s (fun t => waitingTeams t ≠ [] →
      ∃ e ∈ t.agenda, now s 0 < e.tick ∧ e.act = .ins .scoreboardReevaluate))
    ∧ (s.newel.pair = 0 → s.newel.standbyOk = true → Completes .newelTakeover s (fun t => t.newel.pair = 2
      ∧ t.newel.active = 1 - s.newel.active))
    ∧ (s.newel.pair = 0 → Completes .standbyNewelFailure s (fun t => t.newel.standbyOk = false))

/-- R14 to R17, R22 to R25, R188 to R192, R222: what the module does of itself, and what its manager asks of it, complete. -/
def ModuleEventsComplete : Prop :=
  ∀ (s : State),
    (s.links.hostUp = true → s.port.off = 0x1000 → s.port.val.getLsbD 0 = false → Completes .registerWrite s (fun t =>
      t.clock.domStart = s.port.val.extractLsb' 24 8 ||| 1))
    ∧ ((∀ d < 8, dieBusy s d = false) → s.clock.ticks.length = 8 → Completes .domainApply s (fun t =>
      t.clock.dom = s.port.val.extractLsb' 24 8 ||| 1))
    ∧ (1000 ≤ s.port.val.toNat % 65536 → Completes .powerLimitWrite s (fun t => t.clock.powerLimit = BitVec.ofNat 16 s.port.val.toNat))
    ∧ Completes .powerSample s (fun t => At t (now s 0 + 2 ^ 14) .powerSample)
    ∧ Completes .supplyCut s (fun t => t.clock.supply = false)
    ∧ ((∀ i m, s.boot.images[i]? = some m → Verifies m (nth s.boot.fuses i)) → Completes .moduleReset s (fun t => t.boot.done = true))
    ∧ (Answers s → Completes .getVersion s (fun t => t.boot.spdm.version = true)
      ∧ (s.boot.spdm.version = true → Completes .getCapabilities s (fun t => t.boot.spdm.caps = true))
      ∧ (s.boot.spdm.caps = true → Completes .negotiateAlgorithms s (fun t => t.boot.spdm.algs = true))
      ∧ (s.boot.spdm.algs = true → Completes .getDigests s (fun t => t.boot.spdm.response.length = 48)
        ∧ Completes .getCertificate s (fun t => t.boot.spdm.response.length ≤ s.port.val.toNat)
        ∧ (s.boot.spdm.lmsIndex < 2 ^ 20 → Completes .challenge s (fun t => t.boot.spdm.lmsIndex = s.boot.spdm.lmsIndex + 1))
        ∧ (s.port.off = 1 → Completes .getMeasurements s (fun t =>
          t.boot.spdm.response = s.boot.measures.flatMap (fun m => bytesOfNat 48 m.toNat)))))
    ∧ (∀ core cls, (coreOf s core).kat = some (cls, now s (core / 128)) → (∀ y ∈ (coreOf s core).checksum, y.cls ≠ cls) →
      Completes (.knownAnswerTest core cls) s (fun t => (coreOf t core).kat = none))
    ∧ (∀ w e, w % 8 = 0 → w < 2 ^ 80 → e % 2 ^ 68 ≠ 0 → e < 2 ^ 69 → (∀ u ∈ s.upsets, u.1 ≠ w) → Completes (.storageError w e) s (fun t =>
      t.upsets = s.upsets ++ [(w, e)]))
    ∧ (∀ g, groupFlagged s g = [] → verticalFlagged s g = true → Completes (.patrolScrub g) s (fun t =>
      t.logs.relCount = s.logs.relCount + 1))
    ∧ (∀ c, s.cx = some c → (launchOf s c.launch).status = none → Completes .illegalEncoding s (fun t => EndsTheLaunch s t c 0x01))

end Sys2Proof.Stated

section
open Sys2Proof Sys2Proof.Machine Sys2Proof.Stated

/-- Each form that no other statement shows to complete answers a next state with its own effect where it executes normally. -/
def Obligations.FormsComplete : Prop :=
  Stated.ProductsAndReleasesComplete ∧ Stated.EngineCommandsComplete ∧ Stated.QueueEventsComplete ∧ Stated.WaitEventsComplete
    ∧ Stated.RentEventsComplete ∧ Stated.CopyEventsComplete ∧ Stated.HostEventsComplete ∧ Stated.DeviceCommandsComplete
    ∧ Stated.NewelEventsComplete ∧ Stated.ModuleEventsComplete

end
end

