-- ==== Sys2Proof/Laws/Mem.lean ====
section
/-!
SUPPORT. Laws of sparse tables, of byte memory and of byte order: a read after a write gives what was written, a write
leaves every other place alone, and every memory operation keeps the canonical form.
-/
namespace Sys2Proof.Laws
open Sys2Proof Sys2Proof.Machine

/-! ## Tables -/

variable {α : Type}

@[simp] theorem tget_nil (n : Nat) : tget ([] : Tab α) n = none := rfl

/-- A read of the key just set gives the value. -/
@[simp] theorem tget_tset_self (t : Tab α) (n : Nat) (v : α) : tget (tset t n v) n = some v := by
  induction t with
  | nil => simp [tset, tget]
  | cons e r ih =>
    obtain ⟨k, w⟩ := e
    simp only [tset]
    split
    · simp [tget]
    · split
      · simp [tget]
      · next h => simp [tget, h, ih]

/-- A read of another key is unchanged. -/
theorem tget_tset_ne (t : Tab α) {n k : Nat} (v : α) (h : n ≠ k) : tget (tset t n v) k = tget t k := by
  induction t with
  | nil => simp [tset, tget, h]
  | cons e r ih =>
    obtain ⟨j, w⟩ := e
    simp only [tset]
    split
    · simp [tget, h]
    · split
      · next hj => subst hj; simp [tget, h]
      · simp only [tget]; rw [ih]

theorem tget_tset (t : Tab α) (n k : Nat) (v : α) :
    tget (tset t n v) k = if n = k then some v else tget t k := by
  split
  · next h => subst h; simp
  · next h => exact tget_tset_ne t v h

/-- A changed entry reads as changed. -/
@[simp] theorem tget_tmod_self (t : Tab α) (n : Nat) (d : α) (f : α → α) :
    tget (tmod t n d f) n = some (f ((tget t n).getD d)) := by simp [tmod]

theorem tget_tmod_ne (t : Tab α) {n k : Nat} (d : α) (f : α → α) (h : n ≠ k) :
    tget (tmod t n d f) k = tget t k := by simp [tmod, tget_tset_ne _ _ h]

/-- Setting a key changes no membership but its own entry. -/
theorem mem_tset {t : Tab α} {n : Nat} {v : α} {e : Nat × α} (h : e ∈ tset t n v) : e = (n, v) ∨ e ∈ t := by
  induction t with
  | nil => simp [tset] at h; exact .inl h
  | cons x r ih =>
    obtain ⟨k, w⟩ := x
    simp only [tset] at h
    split at h
    · rcases List.mem_cons.1 h with h | h
      · exact .inl h
      · exact .inr h
    · split at h
      · rcases List.mem_cons.1 h with h | h
        · exact .inl h
        · exact .inr (List.mem_cons_of_mem _ h)
      · rcases List.mem_cons.1 h with h | h
        · exact .inr (h ▸ List.mem_cons_self)
        · rcases ih h with h | h
          · exact .inl h
          · exact .inr (List.mem_cons_of_mem _ h)

/-- An entry read is a member. -/
theorem mem_of_tget {t : Tab α} {n : Nat} {v : α} (h : tget t n = some v) : (n, v) ∈ t := by
  induction t with
  | nil => simp [tget] at h
  | cons x r ih =>
    obtain ⟨k, w⟩ := x
    simp only [tget] at h
    split at h
    · next hk => subst hk; cases h; exact List.mem_cons_self
    · exact List.mem_cons_of_mem _ (ih h)

/-! ## Byte order (R198) -/

@[simp] theorem bytesOfNat_length (n v : Nat) : (bytesOfNat n v).length = n := by
  induction n generalizing v with
  | zero => rfl
  | succ n ih => simp [bytesOfNat, ih]

/-- The little-endian value of the n low bytes of v is v modulo 2^(8n). -/
theorem natOfBytes_bytesOfNat (n v : Nat) : natOfBytes (bytesOfNat n v) = v % 2 ^ (8 * n) := by
  induction n generalizing v with
  | zero => simp [bytesOfNat, natOfBytes, Nat.mod_one]
  | succ n ih =>
    simp only [bytesOfNat, natOfBytes, ih, BitVec.toNat_ofNat]
    have h : (2 : Nat) ^ (8 * (n + 1)) = 2 ^ 8 * 2 ^ (8 * n) := by rw [← Nat.pow_add]; congr 1; omega
    rw [h, Nat.mod_mul]
    norm_num

/-- A word's bytes read back as the word. -/
@[simp] theorem word_of_bytes (v : Word) : BitVec.ofNat 64 (natOfBytes (bytesOfNat 8 v.toNat)) = v := by
  rw [natOfBytes_bytesOfNat]
  apply BitVec.eq_of_toNat_eq
  have := v.isLt
  simp only [BitVec.toNat_ofNat]
  omega

/-! ## Byte memory -/

theorem read_nil (a : Nat) : Mem.read [] a = 0 := rfl

/-- A read searches the front part first. -/
theorem read_append (m n : Mem) (a : Nat) :
    Mem.read (m ++ n) a = if m.any (fun c => c.1 == a) then Mem.read m a else Mem.read n a := by
  induction m with
  | nil => simp
  | cons c r ih =>
    simp only [Mem.read, List.cons_append, List.find?_cons, List.any_cons] at *
    by_cases h : c.1 == a
    · simp [h]
    · simp only [h, Bool.false_or]; exact ih

/-- A read of an address that is not listed gives zero. -/
theorem read_unlisted (m : Mem) (a : Nat) (h : m.any (fun c => c.1 == a) = false) : m.read a = 0 := by
  simp only [Mem.read]
  rw [List.find?_eq_none.2]
  intro c hc
  have := List.any_eq_false.1 h c hc
  simpa using this

/-- A filter that keeps an address keeps what it reads as. -/
theorem read_filter_keep (m : Mem) (a : Nat) (p : Nat → Bool) (h : p a = true) :
    Mem.read (m.filter (fun c => p c.1)) a = m.read a := by
  induction m with
  | nil => rfl
  | cons c r ih =>
    simp only [Mem.read, List.find?_cons] at *
    by_cases hc : c.1 == a
    · have : c.1 = a := by simpa using hc
      have hp : p c.1 = true := by rw [this]; exact h
      simp [hp, hc]
    · by_cases hp : p c.1 = true
      · simp only [List.filter_cons, hp, if_true, List.find?_cons, hc]; exact ih
      · simpa [hp, hc] using ih

theorem filter_any_false (m : Mem) (a : Nat) (p : Nat → Bool) (h : p a = false) :
    (m.filter (fun c => p c.1)).any (fun c => c.1 == a) = false := by
  rw [List.any_eq_false]
  intro c hc
  have := (List.mem_filter.1 hc).2
  intro he
  have : c.1 = a := by simpa using he
  simp_all

/-- Cells of a run read as the run's bytes, and as nothing elsewhere. -/
theorem cellsOf_read (bs : List Byte) (a x : Nat) :
    Mem.read (cellsOf a bs) x = if a ≤ x ∧ x < a + bs.length then bs.getD (x - a) 0 else 0 := by
  induction bs generalizing a with
  | nil => simp [cellsOf, Mem.read]
  | cons b r ih =>
    have key : Mem.read ((a, b) :: cellsOf (a + 1) r) x = if a = x then b else Mem.read (cellsOf (a + 1) r) x := by
      simp only [Mem.read, List.find?_cons]
      by_cases h : a = x
      · simp [h]
      · have hb : (a == x) = false := by simpa using h
        simp only [hb, if_neg h]
    have step : Mem.read (cellsOf a (b :: r)) x = if a = x then b else Mem.read (cellsOf (a + 1) r) x := by
      simp only [cellsOf]
      split
      · next hb =>
        subst hb
        by_cases h : a = x
        · rw [if_pos h, ih, if_neg (by omega)]
        · rw [if_neg h]
      · exact key
    rw [step, ih]
    by_cases h : a = x
    · subst h; simp
    · simp only [if_neg h]
      by_cases h2 : a + 1 ≤ x ∧ x < a + 1 + r.length
      · rw [if_pos h2, if_pos (by simp; omega)]
        have : x - a = (x - (a + 1)) + 1 := by omega
        rw [this]; simp
      · rw [if_neg h2, if_neg (by simp; omega)]

theorem cellsOf_addr (bs : List Byte) (a : Nat) : ∀ c ∈ cellsOf a bs, a ≤ c.1 ∧ c.1 < a + bs.length ∧ c.2 ≠ 0 := by
  induction bs generalizing a with
  | nil => simp [cellsOf]
  | cons b r ih =>
    intro c hc
    simp only [cellsOf] at hc
    split at hc
    · obtain ⟨h1, h2, h3⟩ := ih (a + 1) c hc
      exact ⟨by omega, by simp only [List.length_cons]; omega, h3⟩
    · next hb =>
      rcases List.mem_cons.1 hc with h | h
      · subst h; exact ⟨Nat.le_refl _, by simp, hb⟩
      · obtain ⟨h1, h2, h3⟩ := ih (a + 1) c h
        exact ⟨by omega, by simp only [List.length_cons]; omega, h3⟩

/-- What a byte reads as after a run of bytes was written: the run's byte inside it, the old one elsewhere. -/
theorem read_writeRun (m : Mem) (a : Nat) (bs : List Byte) (x : Nat) :
    (m.writeRun a bs).read x = if a ≤ x ∧ x < a + bs.length then bs.getD (x - a) 0 else m.read x := by
  unfold Mem.writeRun
  rw [List.append_assoc, read_append]
  by_cases h1 : x < a
  · rw [if_neg (show ¬ (a ≤ x ∧ x < a + bs.length) by omega)]
    have hk := read_filter_keep m x (fun y => decide (y < a)) (by simp [h1])
    by_cases hany : (m.filter (fun c => decide (c.1 < a))).any (fun c => c.1 == x) = true
    · rw [if_pos hany]; exact hk
    · rw [if_neg hany, read_append]
      have hz := read_unlisted _ x (Bool.not_eq_true _ ▸ hany)
      have hm : m.read x = 0 := by rw [← hk]; exact hz
      have hc : (cellsOf a bs).any (fun c => c.1 == x) = false := by
        rw [List.any_eq_false]; intro c hc; have := cellsOf_addr bs a c hc; simp; omega
      rw [hc]
      simp only [Bool.false_eq_true, if_false]
      rw [hm]
      exact read_unlisted _ x (filter_any_false m x (fun y => decide (a + bs.length ≤ y)) (by simp; omega))
  · have hn := filter_any_false m x (fun y => decide (y < a)) (by simp; omega)
    rw [hn]
    simp only [Bool.false_eq_true, if_false]
    rw [read_append]
    by_cases h2 : x < a + bs.length
    · rw [if_pos (⟨by omega, h2⟩ : a ≤ x ∧ x < a + bs.length)]
      have hr := cellsOf_read bs a x
      rw [if_pos ⟨by omega, h2⟩] at hr
      by_cases hany : (cellsOf a bs).any (fun c => c.1 == x) = true
      · rw [if_pos hany]; exact hr
      · rw [if_neg hany]
        have hz := read_unlisted _ x (Bool.not_eq_true _ ▸ hany)
        rw [← hr, hz]
        exact read_unlisted _ x (filter_any_false m x (fun y => decide (a + bs.length ≤ y)) (by simp; omega))
    · rw [if_neg (show ¬ (a ≤ x ∧ x < a + bs.length) from fun h => h2 h.2)]
      have hc : (cellsOf a bs).any (fun c => c.1 == x) = false := by
        rw [List.any_eq_false]; intro c hc; have := cellsOf_addr bs a c hc; simp; omega
      rw [hc]
      simp only [Bool.false_eq_true, if_false]
      exact read_filter_keep m x (fun y => decide (a + bs.length ≤ y)) (by simp; omega)

@[simp] theorem readRun_length (m : Mem) (a n : Nat) : (m.readRun a n).length = n := by simp [Mem.readRun]

/-- A run read is its bytes. -/
theorem readRun_eq (m : Mem) (a n : Nat) : m.readRun a n = (List.range n).map (fun i => m.read (a + i)) := by
  unfold Mem.readRun
  apply List.map_congr_left
  intro i hi
  have : i < n := by simpa using hi
  exact read_filter_keep m (a + i) (fun y => decide (a ≤ y) && decide (y < a + n)) (by simp; omega)

/-- A run read after a write that it does not meet is unchanged. -/
theorem readRun_writeRun_disjoint (m : Mem) (a b n : Nat) (bs : List Byte) (h : b + n ≤ a ∨ a + bs.length ≤ b) :
    (m.writeRun a bs).readRun b n = m.readRun b n := by
  rw [readRun_eq, readRun_eq]
  apply List.map_congr_left
  intro i hi
  have : i < n := by simpa using hi
  rw [read_writeRun, if_neg (by omega)]

/-- A run read where it was written gives what was written. -/
@[simp] theorem readRun_writeRun_self (m : Mem) (a : Nat) (bs : List Byte) : (m.writeRun a bs).readRun a bs.length = bs := by
  rw [readRun_eq]
  apply List.ext_getElem
  · simp
  · intro i h1 h2
    simp only [List.getElem_map, List.getElem_range, read_writeRun]
    rw [if_pos ⟨by omega, by omega⟩]
    simp [h2]

/-! ## The canonical form -/

theorem wf_cons (c : Host.Cell) (r : Mem) :
    Mem.wf (c :: r) = true ↔ c.2 ≠ 0 ∧ (∀ e ∈ r, c.1 < e.1) ∧ Mem.wf r = true := by
  simp [Mem.wf, and_assoc]

theorem wf_append (m n : Mem) :
    Mem.wf (m ++ n) = true ↔ Mem.wf m = true ∧ Mem.wf n = true ∧ ∀ x ∈ m, ∀ y ∈ n, x.1 < y.1 := by
  induction m with
  | nil => simp [Mem.wf]
  | cons c r ih =>
    simp only [List.cons_append, wf_cons, ih, List.mem_append, List.mem_cons]
    constructor
    · rintro ⟨h1, h2, h3, h4, h5⟩
      exact ⟨⟨h1, fun e he => h2 e (.inl he), h3⟩, h4, fun x hx y hy => by
        rcases hx with rfl | hx
        · exact h2 y (.inr hy)
        · exact h5 x hx y hy⟩
    · rintro ⟨⟨h1, h2, h3⟩, h4, h5⟩
      exact ⟨h1, fun e he => he.elim (h2 e) (h5 c (.inl rfl) e), h3, h4, fun x hx y hy => h5 x (.inr hx) y hy⟩

theorem wf_filter (m : Mem) (p : Host.Cell → Bool) (h : Mem.wf m = true) : Mem.wf (m.filter p) = true := by
  induction m with
  | nil => rfl
  | cons c r ih =>
    rw [wf_cons] at h
    by_cases hp : p c = true
    · simp only [List.filter_cons, hp, if_true]
      rw [wf_cons]
      exact ⟨h.1, fun e he => h.2.1 e (List.mem_filter.1 he).1, ih h.2.2⟩
    · simp only [List.filter_cons, hp]
      exact ih h.2.2

theorem wf_cellsOf (a : Nat) (bs : List Byte) : Mem.wf (cellsOf a bs) = true := by
  induction bs generalizing a with
  | nil => rfl
  | cons b r ih =>
    simp only [cellsOf]
    split
    · exact ih _
    · next hb =>
      rw [wf_cons]
      exact ⟨hb, fun e he => by have := cellsOf_addr r (a + 1) e he; simp; omega, ih _⟩

/-- A write keeps the canonical form. -/
theorem wf_writeRun (m : Mem) (a : Nat) (bs : List Byte) (h : Mem.wf m = true) : Mem.wf (m.writeRun a bs) = true := by
  unfold Mem.writeRun
  rw [wf_append, wf_append]
  refine ⟨⟨wf_filter _ _ h, wf_cellsOf _ _, ?_⟩, wf_filter _ _ h, ?_⟩
  · intro x hx y hy
    have h1 := (List.mem_filter.1 hx).2
    have h2 := cellsOf_addr bs a y hy
    simp at h1; omega
  · intro x hx y hy
    have h2 := (List.mem_filter.1 hy).2
    simp at h2
    rcases List.mem_append.1 hx with hx | hx
    · have h1 := (List.mem_filter.1 hx).2
      simp at h1; omega
    · have h1 := cellsOf_addr bs a x hx; omega

theorem wf_write (m : Mem) (a : Nat) (b : Byte) (h : Mem.wf m = true) : Mem.wf (m.write a b) = true := wf_writeRun m a [b] h

/-- Writing what another memory lists keeps the canonical form. -/
theorem wf_join (l m : Mem) (h : Mem.wf m = true) : Mem.wf (m.join l) = true := by
  unfold Mem.join
  induction l generalizing m with
  | nil => exact h
  | cons c r ih => exact ih _ (wf_write m c.1 c.2 h)

/-- Memories in canonical form that read alike are equal. -/
theorem eq_of_read {m n : Mem} (hm : Mem.wf m = true) (hn : Mem.wf n = true) (h : ∀ a, m.read a = n.read a) : m = n := by
  induction m generalizing n with
  | nil =>
    cases n with
    | nil => rfl
    | cons c r =>
      have := h c.1
      rw [wf_cons] at hn
      simp [Mem.read] at this
      exact absurd this.symm hn.1
  | cons c r ih =>
    have hc := (wf_cons c r).1 hm
    have unread : ∀ (l : Mem) (x : Nat), (∀ e ∈ l, x < e.1) → Mem.read l x = 0 := by
      intro l x hl
      apply read_unlisted
      rw [List.any_eq_false]
      intro e he
      have := hl e he
      simp; omega
    have headRead : ∀ (e : Host.Cell) (l : Mem), Mem.read (e :: l) e.1 = e.2 := by
      intro e l; simp [Mem.read]
    cases n with
    | nil =>
      have := h c.1
      rw [headRead] at this
      exact absurd this hc.1
    | cons d q =>
      have hd := (wf_cons d q).1 hn
      have haddr : c.1 = d.1 := by
        rcases Nat.lt_trichotomy c.1 d.1 with hlt | heq | hgt
        · have := h c.1
          rw [headRead, unread (d :: q) c.1 (by
            intro e he
            rcases List.mem_cons.1 he with rfl | he
            · exact hlt
            · have := hd.2.1 e he; omega)] at this
          exact absurd this hc.1
        · exact heq
        · have := h d.1
          rw [headRead, unread (c :: r) d.1 (by
            intro e he
            rcases List.mem_cons.1 he with rfl | he
            · exact hgt
            · have := hc.2.1 e he; omega)] at this
          exact absurd this.symm hd.1
      have hval : c.2 = d.2 := by
        have := h c.1
        rw [headRead] at this
        rw [this, haddr, headRead]
      have hcd : c = d := Prod.ext haddr hval
      subst hcd
      congr 1
      refine ih hc.2.2 hd.2.2 (fun a => ?_)
      by_cases hca : c.1 = a
      · subst hca
        rw [unread r c.1 hc.2.1, unread q c.1 hd.2.1]
      · have := h a
        simp only [Mem.read, List.find?_cons] at this
        have hb : (c.1 == a) = false := by simpa using hca
        simp only [hb] at this
        exact this

/-- Reset memory is in canonical form. -/
theorem reset_mem_wf : State.reset.mem.wf = true := rfl

end Sys2Proof.Laws
end

