-- ==== Sys2Proof/Laws/Registers.lean ====
section
/-!
SUPPORT. Laws of the register accessors (R99, R208, R209, R234): a read after a write, the names a write leaves alone, and
what else of a context a write leaves as it was.
-/
namespace Sys2Proof.Laws
open Sys2Proof Sys2Proof.Machine

/-! ## Scalars -/

/-- A scalar write changes the register store, its poison and the errors that have struck it, nothing else of the context. -/
theorem wrPhys_frame (c : Ctx) (p : Nat) (v : Word) :
    wrPhys c p v = { c with
      bank := (wrPhys c p v).bank, bankPoison := (wrPhys c p v).bankPoison, upsets := (wrPhys c p v).upsets } := by
  unfold wrPhys bankWrite
  split <;> rfl

@[simp] theorem wrPhys_zero (c : Ctx) (v : Word) : wrPhys c 0 v = c := rfl

theorem wrPhys_bank (c : Ctx) {p : Nat} (v : Word) (h : p ≠ 0) :
    (wrPhys c p v).bank = c.bank.writeRun (8 * p) (bytesOfNat 8 v.toNat) := by
  unfold wrPhys bankWrite
  rw [if_neg h]
  have : 8 - 8 * p = 0 := by omega
  simp [this]

/-- The register-store bytes a scalar write leaves as they were. -/
theorem wrPhys_bytes (c : Ctx) (p : Nat) (v : Word) (off : Nat) (h : p = 0 ∨ off < 8 * p ∨ 8 * p + 8 ≤ off) :
    (wrPhys c p v).bank.read off = c.bank.read off := by
  by_cases hp : p = 0
  · subst hp; rfl
  · rw [wrPhys_bank c v hp, read_writeRun, if_neg]
    simp; omega

/-- The poison a scalar write leaves: that of every word but its own. -/
theorem wrPhys_poison (c : Ctx) (p : Nat) (v : Word) (w : Nat) (h : p = 0 ∨ w ≠ 8 * p) :
    w ∈ (wrPhys c p v).bankPoison ↔ w ∈ c.bankPoison := by
  by_cases hp : p = 0
  · subst hp; rfl
  · unfold wrPhys bankWrite
    rw [if_neg hp]
    simp only [bytesOfNat_length, List.map_nil, List.append_nil, List.mem_filter]
    constructor
    · exact fun x => x.1
    · intro x
      refine ⟨x, ?_⟩
      simp; omega

@[simp] theorem wrS_rb (c : Ctx) (n : Nat) (v : Word) : (wrS c n v).rb = c.rb := by
  unfold wrS; rw [wrPhys_frame]

@[simp] theorem rot_wrS (c : Ctx) (n m : Nat) (v : Word) : rot (wrS c n v) m = rot c m := by
  unfold rot; rw [wrS_rb]

/-- s0 reads zero (R208). -/
@[simp] theorem rdS_zero (c : Ctx) : rdS c 0 = 0 := rfl

/-- The scalar just written reads as written, but for s0, which discards it (R234). -/
theorem rdS_wrS_self (c : Ctx) (n : Nat) (v : Word) (h : rot c n ≠ 0) : rdS (wrS c n v) n = v := by
  unfold rdS bankRead
  rw [rot_wrS, if_neg h]
  unfold wrS
  rw [wrPhys_bank c v h]
  have := readRun_writeRun_self c.bank (8 * rot c n) (bytesOfNat 8 v.toNat)
  rw [bytesOfNat_length] at this
  rw [this, word_of_bytes]

/-- A scalar of another physical number reads as before. -/
theorem rdS_wrS_other (c : Ctx) (n m : Nat) (v : Word) (h : rot c n ≠ rot c m ∨ rot c n = 0) :
    rdS (wrS c n v) m = rdS c m := by
  by_cases h0 : rot c n = 0
  · unfold wrS; rw [h0]; rfl
  · unfold rdS bankRead
    rw [rot_wrS]
    split
    · rfl
    · unfold wrS
      rw [wrPhys_bank c v h0, readRun_writeRun_disjoint]
      have := h.resolve_right h0
      simp; omega

/-! ## Predicates -/

theorem wrPhysP_frame (c : Ctx) (p : Nat) (v : Word) : wrPhysP c p v = { c with preds := (wrPhysP c p v).preds } := by
  unfold wrPhysP
  split <;> rfl

theorem rdPhysP_wrPhysP (c : Ctx) (p q : Nat) (v : Word) :
    rdPhysP (wrPhysP c p v) q = if p = q ∧ p ≠ 0 then v else rdPhysP c q := by
  unfold rdPhysP wrPhysP
  by_cases hp : p = 0
  · simp [hp]
  · rw [if_neg hp]
    simp only [tget_tset]
    by_cases hq : p = q
    · subst hq; simp [hp]
    · simp [hq]

@[simp] theorem wrP_rb (c : Ctx) (n : Nat) (v : Word) : (wrP c n v).rb = c.rb := by
  unfold wrP; rw [wrPhysP_frame]

@[simp] theorem rotP_wrP (c : Ctx) (n m : Nat) (v : Word) : rotP (wrP c n v) m = rotP c m := by
  unfold rotP; rw [wrP_rb]

theorem rdP_wrP_self (c : Ctx) (n : Nat) (v : Word) (h : rotP c n ≠ 0) : rdP (wrP c n v) n = v := by
  unfold rdP
  rw [rotP_wrP]
  unfold wrP
  rw [rdPhysP_wrPhysP, if_pos ⟨rfl, h⟩]

end Sys2Proof.Laws
end

