-- ==== Sys2Proof/Laws/Core.lean ====
section
/-!
SUPPORT. Laws of the frame every core instruction runs in: the capability checks, going on, traps, and delivery.
-/
namespace Sys2Proof.Laws
open Sys2Proof Sys2Proof.Machine

/-- No capability check fails when every bit is declared and none is fenced. -/
theorem checkBits_ok (c : Ctx) (bits : List Nat)
    (h : ∀ b ∈ bits, c.useMask.getLsbD b = true ∧ c.capMask.getLsbD b = true) : checkBits c bits = .ok () := by
  unfold checkBits
  have h1 : bits.find? (fun b => !(c.useMask.getLsbD b)) = none := by
    rw [List.find?_eq_none]; intro b hb; simp [(h b hb).1]
  have h2 : bits.find? (fun b => !(c.capMask.getLsbD b)) = none := by
    rw [List.find?_eq_none]; intro b hb; simp [(h b hb).2]
  rw [h1, h2]

/-- A core instruction whose checks pass does what its meaning says, or takes its trap. -/
theorem onCore_runs {s : State} {c : Ctx} (bits : List Nat) (f : State → Ctx → Res State) (hc : s.cx = some c)
    (h : ∀ b ∈ bits, c.useMask.getLsbD b = true ∧ c.capMask.getLsbD b = true) :
    onCore bits f s = match f s c with
      | .error t => .next (takeFault s c.uid t c.pc)
      | .ok t => .next t := by
  unfold onCore
  rw [hc]
  simp only [checkBits_ok c bits h]
  all_goals (cases f s c <;> rfl)

/-- An undeclared bit: the trap of R97 is taken and the meaning is not run. -/
theorem onCore_undeclared {s : State} {c : Ctx} (b : Nat) (f : State → Ctx → Res State) (hc : s.cx = some c)
    (h : c.useMask.getLsbD b = false) :
    onCore [b] f s = .next (takeFault s c.uid ⟨cUNDECLARED, BitVec.ofNat 64 b, 0, false⟩ c.pc) := by
  unfold onCore
  rw [hc]
  simp [checkBits, h, flt]

/-- A fenced bit: the trap of R97 is taken and the meaning is not run. -/
theorem onCore_fenced {s : State} {c : Ctx} (b : Nat) (f : State → Ctx → Res State) (hc : s.cx = some c)
    (h : c.useMask.getLsbD b = true) (h2 : c.capMask.getLsbD b = false) :
    onCore [b] f s = .next (takeFault s c.uid ⟨cFENCED, BitVec.ofNat 64 b, 0, false⟩ c.pc) := by
  unfold onCore
  rw [hc]
  simp [checkBits, h, h2, flt]

/-- Whatever a core instruction does, it stops only where no context executes. -/
theorem onCore_goes_on (bits : List Nat) (f : State → Ctx → Res State) (s : State) :
    (∃ t, onCore bits f s = .next t) ∨ (s.cx = none ∧ onCore bits f s = .fault .noContext) := by
  unfold onCore
  cases h : s.cx with
  | none => exact .inr ⟨rfl, rfl⟩
  | some c =>
    refine .inl ?_
    dsimp only
    cases checkBits c bits with
    | error t => exact ⟨_, rfl⟩
    | ok u =>
      dsimp only
      cases f s c with
      | error t => exact ⟨_, rfl⟩
      | ok t => exact ⟨_, rfl⟩

/-- Delivery of a command is a core instruction. -/
theorem deliver_goes_on (bits : List Nat) (i : Instr) (prep : State → Ctx → Res Cmd) (s : State) :
    (∃ t, deliver bits i prep s = .next t) ∨ (s.cx = none ∧ deliver bits i prep s = .fault .noContext) :=
  onCore_goes_on bits _ s

theorem tickOf_eq {s t : State} (c : Ctx) (h : s.clock = t.clock) : tickOf s c = tickOf t c := by
  unfold tickOf now; rw [h]

end Sys2Proof.Laws
end

