-- ==== Sys2Proof/Laws/PerInstr.lean ====
section
/-!
SUPPORT. Encode and decode, instruction by instruction: the words the encoder writes for a well-formed instruction carry that
instruction's class, major, functions and operands. First the fields of each word shape, then one lemma per constructor.
-/
set_option linter.unusedSimpArgs false
set_option Elab.async false
set_option linter.unusedVariables false
namespace Sys2Proof.Laws

/-- A field inside the low part of a concatenation. -/
theorem extract_low {n m : Nat} (x : BitVec n) (y : BitVec m) (lo k : Nat) (h : lo + k ≤ m) :
    (x ++ y).extractLsb' lo k = y.extractLsb' lo k := by
  ext i hi
  simp [BitVec.getLsbD_append]; omega

/-- A field inside the high part of a concatenation. -/
theorem extract_high {n m : Nat} (x : BitVec n) (y : BitVec m) (lo k : Nat) (h : m ≤ lo) :
    (x ++ y).extractLsb' lo k = x.extractLsb' (lo - m) k := by
  ext i hi
  simp [BitVec.getLsbD_append]
  split
  · omega
  · congr 1; omega

/-- A field that is the whole value. -/
theorem extract_whole {n lo : Nat} (x : BitVec n) (h : lo = 0) : x.extractLsb' lo n = x := by
  subst h
  ext i hi; simp

/-! ## Fields of the word shapes -/
theorem wA_d (f b a d : Reg) (m : BitVec 6) : fD (wA f b a d m) = d := by
  show (f ++ b ++ a ++ d ++ m ++ (0 : BitVec 2)).extractLsb' 8 6 = _
  simp (disch := omega) only [extract_low, extract_high, extract_whole]
theorem wA_a (f b a d : Reg) (m : BitVec 6) : fA (wA f b a d m) = a := by
  show (f ++ b ++ a ++ d ++ m ++ (0 : BitVec 2)).extractLsb' 14 6 = _
  simp (disch := omega) only [extract_low, extract_high, extract_whole]
theorem wA_b (f b a d : Reg) (m : BitVec 6) : fB (wA f b a d m) = b := by
  show (f ++ b ++ a ++ d ++ m ++ (0 : BitVec 2)).extractLsb' 20 6 = _
  simp (disch := omega) only [extract_low, extract_high, extract_whole]
theorem wA_f (f b a d : Reg) (m : BitVec 6) : fF (wA f b a d m) = f := by
  show (f ++ b ++ a ++ d ++ m ++ (0 : BitVec 2)).extractLsb' 26 6 = _
  simp (disch := omega) only [extract_low, extract_high, extract_whole]
theorem wA_major (f b a d : Reg) (m : BitVec 6) : fld (wA f b a d m) 2 6 = m := by
  show (f ++ b ++ a ++ d ++ m ++ (0 : BitVec 2)).extractLsb' 2 6 = _
  simp (disch := omega) only [extract_low, extract_high, extract_whole]
theorem wA_class (f b a d : Reg) (m : BitVec 6) : fld (wA f b a d m) 0 2 = 0 := by
  show (f ++ b ++ a ++ d ++ m ++ (0 : BitVec 2)).extractLsb' 0 2 = _
  simp (disch := omega) only [extract_low, extract_high, extract_whole]
theorem wA_part (f b a d : Reg) (m : BitVec 6) (lo k : Nat) (h : 26 ≤ lo) :
    fld (wA f b a d m) lo k = f.extractLsb' (lo - 26) k := by
  show (f ++ b ++ a ++ d ++ m ++ (0 : BitVec 2)).extractLsb' lo k = _
  simp (disch := omega) only [extract_high]
  rfl
theorem wB_d (i : BitVec 12) (a d : Reg) (m : BitVec 6) : fD (wB i a d m) = d := by
  show (i ++ a ++ d ++ m ++ (1 : BitVec 2)).extractLsb' 8 6 = _
  simp (disch := omega) only [extract_low, extract_high, extract_whole]
theorem wB_a (i : BitVec 12) (a d : Reg) (m : BitVec 6) : fA (wB i a d m) = a := by
  show (i ++ a ++ d ++ m ++ (1 : BitVec 2)).extractLsb' 14 6 = _
  simp (disch := omega) only [extract_low, extract_high, extract_whole]
theorem wB_imm (i : BitVec 12) (a d : Reg) (m : BitVec 6) : fImm (wB i a d m) = i := by
  show (i ++ a ++ d ++ m ++ (1 : BitVec 2)).extractLsb' 20 12 = _
  simp (disch := omega) only [extract_low, extract_high, extract_whole]
theorem wB_major (i : BitVec 12) (a d : Reg) (m : BitVec 6) : fld (wB i a d m) 2 6 = m := by
  show (i ++ a ++ d ++ m ++ (1 : BitVec 2)).extractLsb' 2 6 = _
  simp (disch := omega) only [extract_low, extract_high, extract_whole]
theorem wB_class (i : BitVec 12) (a d : Reg) (m : BitVec 6) : fld (wB i a d m) 0 2 = 1 := by
  show (i ++ a ++ d ++ m ++ (1 : BitVec 2)).extractLsb' 0 2 = _
  simp (disch := omega) only [extract_low, extract_high, extract_whole]
theorem wB_part (i : BitVec 12) (a d : Reg) (m : BitVec 6) (lo k : Nat) (h : 20 ≤ lo) :
    fld (wB i a d m) lo k = i.extractLsb' (lo - 20) k := by
  show (i ++ a ++ d ++ m ++ (1 : BitVec 2)).extractLsb' lo k = _
  simp (disch := omega) only [extract_high]
  rfl
theorem wB_low (i : BitVec 12) (a d : Reg) (m : BitVec 6) : fld (wB i a d m) 14 4 = a.extractLsb' 0 4 := by
  show (i ++ a ++ d ++ m ++ (1 : BitVec 2)).extractLsb' 14 4 = _
  simp (disch := omega) only [extract_low, extract_high]
theorem wL_d (f : BitVec 12) (a d : Reg) (m : BitVec 6) : fD (wL f a d m) = d := by
  show (f ++ a ++ d ++ m ++ (2 : BitVec 2)).extractLsb' 8 6 = _
  simp (disch := omega) only [extract_low, extract_high, extract_whole]
theorem wL_a (f : BitVec 12) (a d : Reg) (m : BitVec 6) : fA (wL f a d m) = a := by
  show (f ++ a ++ d ++ m ++ (2 : BitVec 2)).extractLsb' 14 6 = _
  simp (disch := omega) only [extract_low, extract_high, extract_whole]
theorem wL_f (f : BitVec 12) (a d : Reg) (m : BitVec 6) : fImm (wL f a d m) = f := by
  show (f ++ a ++ d ++ m ++ (2 : BitVec 2)).extractLsb' 20 12 = _
  simp (disch := omega) only [extract_low, extract_high, extract_whole]
theorem wL_major (f : BitVec 12) (a d : Reg) (m : BitVec 6) : fld (wL f a d m) 2 6 = m := by
  show (f ++ a ++ d ++ m ++ (2 : BitVec 2)).extractLsb' 2 6 = _
  simp (disch := omega) only [extract_low, extract_high, extract_whole]
theorem wL_class (f : BitVec 12) (a d : Reg) (m : BitVec 6) : fld (wL f a d m) 0 2 = 2 := by
  show (f ++ a ++ d ++ m ++ (2 : BitVec 2)).extractLsb' 0 2 = _
  simp (disch := omega) only [extract_low, extract_high, extract_whole]
theorem wP_pb (pb pa pd : PReg) (f : BitVec 3) (m : BitVec 6) : fld (wP pb pa pd f m) 25 7 = pb := by
  show (pb ++ pa ++ pd ++ f ++ m ++ (2 : BitVec 2)).extractLsb' 25 7 = _
  simp (disch := omega) only [extract_low, extract_high, extract_whole]
theorem wP_pa (pb pa pd : PReg) (f : BitVec 3) (m : BitVec 6) : fld (wP pb pa pd f m) 18 7 = pa := by
  show (pb ++ pa ++ pd ++ f ++ m ++ (2 : BitVec 2)).extractLsb' 18 7 = _
  simp (disch := omega) only [extract_low, extract_high, extract_whole]
theorem wP_pd (pb pa pd : PReg) (f : BitVec 3) (m : BitVec 6) : fld (wP pb pa pd f m) 11 7 = pd := by
  show (pb ++ pa ++ pd ++ f ++ m ++ (2 : BitVec 2)).extractLsb' 11 7 = _
  simp (disch := omega) only [extract_low, extract_high, extract_whole]
theorem wP_f (pb pa pd : PReg) (f : BitVec 3) (m : BitVec 6) : fld (wP pb pa pd f m) 8 3 = f := by
  show (pb ++ pa ++ pd ++ f ++ m ++ (2 : BitVec 2)).extractLsb' 8 3 = _
  simp (disch := omega) only [extract_low, extract_high, extract_whole]
theorem wP_major (pb pa pd : PReg) (f : BitVec 3) (m : BitVec 6) : fld (wP pb pa pd f m) 2 6 = m := by
  show (pb ++ pa ++ pd ++ f ++ m ++ (2 : BitVec 2)).extractLsb' 2 6 = _
  simp (disch := omega) only [extract_low, extract_high, extract_whole]
theorem wP_class (pb pa pd : PReg) (f : BitVec 3) (m : BitVec 6) : fld (wP pb pa pd f m) 0 2 = 2 := by
  show (pb ++ pa ++ pd ++ f ++ m ++ (2 : BitVec 2)).extractLsb' 0 2 = _
  simp (disch := omega) only [extract_low, extract_high, extract_whole]
theorem wO_d (op : BitVec 5) (sc : Scope) (ty : Nat) (a d : Reg) : fD (wO op sc ty a d) = d := by
  show (op ++ BitVec.ofNat 3 sc.code ++ BitVec.ofNat 4 ty ++ a ++ d ++ (0x21 : BitVec 6) ++ (2 : BitVec 2)).extractLsb' 8 6 = _
  simp (disch := omega) only [extract_low, extract_high, extract_whole]
theorem wO_a (op : BitVec 5) (sc : Scope) (ty : Nat) (a d : Reg) : fA (wO op sc ty a d) = a := by
  show (op ++ BitVec.ofNat 3 sc.code ++ BitVec.ofNat 4 ty ++ a ++ d ++ (0x21 : BitVec 6) ++ (2 : BitVec 2)).extractLsb' 14 6 = _
  simp (disch := omega) only [extract_low, extract_high, extract_whole]
theorem wO_ty (op : BitVec 5) (sc : Scope) (ty : Nat) (a d : Reg) : fld (wO op sc ty a d) 20 4 = BitVec.ofNat 4 ty := by
  show (op ++ BitVec.ofNat 3 sc.code ++ BitVec.ofNat 4 ty ++ a ++ d ++ (0x21 : BitVec 6) ++ (2 : BitVec 2)).extractLsb' 20 4 = _
  simp (disch := omega) only [extract_low, extract_high, extract_whole]
theorem wO_sc (op : BitVec 5) (sc : Scope) (ty : Nat) (a d : Reg) : fld (wO op sc ty a d) 24 3 = BitVec.ofNat 3 sc.code := by
  show (op ++ BitVec.ofNat 3 sc.code ++ BitVec.ofNat 4 ty ++ a ++ d ++ (0x21 : BitVec 6) ++ (2 : BitVec 2)).extractLsb' 24 3 = _
  simp (disch := omega) only [extract_low, extract_high, extract_whole]
theorem wO_op (op : BitVec 5) (sc : Scope) (ty : Nat) (a d : Reg) : fld (wO op sc ty a d) 27 5 = op := by
  show (op ++ BitVec.ofNat 3 sc.code ++ BitVec.ofNat 4 ty ++ a ++ d ++ (0x21 : BitVec 6) ++ (2 : BitVec 2)).extractLsb' 27 5 = _
  simp (disch := omega) only [extract_low, extract_high, extract_whole]
theorem wO_major (op : BitVec 5) (sc : Scope) (ty : Nat) (a d : Reg) : fld (wO op sc ty a d) 2 6 = 0x21 := by
  show (op ++ BitVec.ofNat 3 sc.code ++ BitVec.ofNat 4 ty ++ a ++ d ++ (0x21 : BitVec 6) ++ (2 : BitVec 2)).extractLsb' 2 6 = _
  simp (disch := omega) only [extract_low, extract_high, extract_whole]
theorem wO_class (op : BitVec 5) (sc : Scope) (ty : Nat) (a d : Reg) : fld (wO op sc ty a d) 0 2 = 2 := by
  show (op ++ BitVec.ofNat 3 sc.code ++ BitVec.ofNat 4 ty ++ a ++ d ++ (0x21 : BitVec 6) ++ (2 : BitVec 2)).extractLsb' 0 2 = _
  simp (disch := omega) only [extract_low, extract_high, extract_whole]
theorem low6 (x : BitVec 26) (y : Reg) : fld (x ++ y) 0 6 = y := by
  show (x ++ y).extractLsb' 0 6 = _
  simp (disch := omega) only [extract_low, extract_whole]
theorem cas_b (x : BitVec 20) (c b : Reg) : fld (x ++ c ++ b) 0 6 = b := by
  show (x ++ c ++ b).extractLsb' 0 6 = _
  simp (disch := omega) only [extract_low, extract_whole]
theorem cas_c (x : BitVec 20) (c b : Reg) : fld (x ++ c ++ b) 6 6 = c := by
  show (x ++ c ++ b).extractLsb' 6 6 = _
  simp (disch := omega) only [extract_low, extract_high, extract_whole]

/-- The words of form V carry its fields, its major and its function. -/
theorem wV_fields (m f : BitVec 6) (v : VForm) :
    ∃ w0 w1, wV m f v = [w0, w1] ∧ vform w0 w1 = v ∧ fld w0 2 6 = m ∧ fld w0 0 2 = 2 ∧ fld w1 24 6 = f := by
  refine ⟨_, _, rfl, ?_, ?_, ?_, ?_⟩
  · obtain ⟨c, b, a, d, qsel, ty, rnd, mode, pneg, pred⟩ := v
    unfold vform
    congr 1
    · show (c ++ b ++ a ++ d ++ m ++ (2 : BitVec 2)).extractLsb' 26 6 = _
      simp (disch := omega) only [extract_low, extract_high, extract_whole]
    · show (c ++ b ++ a ++ d ++ m ++ (2 : BitVec 2)).extractLsb' 20 6 = _
      simp (disch := omega) only [extract_low, extract_high, extract_whole]
    · show (c ++ b ++ a ++ d ++ m ++ (2 : BitVec 2)).extractLsb' 14 6 = _
      simp (disch := omega) only [extract_low, extract_high, extract_whole]
    · show (c ++ b ++ a ++ d ++ m ++ (2 : BitVec 2)).extractLsb' 8 6 = _
      simp (disch := omega) only [extract_low, extract_high, extract_whole]
    · show (qsel ++ f ++ ty ++ rnd ++ mode ++ (0 : BitVec 6) ++ pneg ++ pred).extractLsb' 30 2 = _
      simp (disch := omega) only [extract_low, extract_high, extract_whole]
    · show (qsel ++ f ++ ty ++ rnd ++ mode ++ (0 : BitVec 6) ++ pneg ++ pred).extractLsb' 18 6 = _
      simp (disch := omega) only [extract_low, extract_high, extract_whole]
    · show (qsel ++ f ++ ty ++ rnd ++ mode ++ (0 : BitVec 6) ++ pneg ++ pred).extractLsb' 16 2 = _
      simp (disch := omega) only [extract_low, extract_high, extract_whole]
    · show (qsel ++ f ++ ty ++ rnd ++ mode ++ (0 : BitVec 6) ++ pneg ++ pred).extractLsb' 14 2 = _
      simp (disch := omega) only [extract_low, extract_high, extract_whole]
    · show (qsel ++ f ++ ty ++ rnd ++ mode ++ (0 : BitVec 6) ++ pneg ++ pred).extractLsb' 7 1 = _
      simp (disch := omega) only [extract_low, extract_high, extract_whole]
    · show (qsel ++ f ++ ty ++ rnd ++ mode ++ (0 : BitVec 6) ++ pneg ++ pred).extractLsb' 0 7 = _
      simp (disch := omega) only [extract_low, extract_high, extract_whole]
  · show (v.c ++ v.b ++ v.a ++ v.d ++ m ++ (2 : BitVec 2)).extractLsb' 2 6 = _
    simp (disch := omega) only [extract_low, extract_high, extract_whole]
  · show (v.c ++ v.b ++ v.a ++ v.d ++ m ++ (2 : BitVec 2)).extractLsb' 0 2 = _
    simp (disch := omega) only [extract_low, extract_high, extract_whole]
  · show (v.qsel ++ f ++ v.ty ++ v.rnd ++ v.mode ++ (0 : BitVec 6) ++ v.pneg ++ v.pred).extractLsb' 24 6 = _
    simp (disch := omega) only [extract_low, extract_high, extract_whole]

/-- Word 0 of an engine command carries its engine, its operation and its timing. -/
theorem wE_fields (t : Timing) (eng : BitVec 3) (op : BitVec 6) (w3 w4 w5 : IWord) :
    ∃ w0, wE t eng op w3 w4 w5 = [w0, t.lo, t.hi, w3, w4, w5, 0, 0] ∧ timing w0 t.lo t.hi = t ∧ fld w0 2 3 = eng
      ∧ fld w0 5 6 = op ∧ fld w0 0 2 = 3 := by
  obtain ⟨sr, tm, pl, pr, ql, qr, lo, hi⟩ := t
  refine ⟨_, rfl, ?_, ?_, ?_, ?_⟩
  · unfold timing
    congr 1
    · show ((0 : BitVec 9) ++ sr ++ tm ++ pl ++ pr ++ ql ++ qr ++ op ++ eng ++ (3 : BitVec 2)).extractLsb' 17 6 = _
      simp (disch := omega) only [extract_low, extract_high, extract_whole]
    · show ((0 : BitVec 9) ++ sr ++ tm ++ pl ++ pr ++ ql ++ qr ++ op ++ eng ++ (3 : BitVec 2)).extractLsb' 15 2 = _
      simp (disch := omega) only [extract_low, extract_high, extract_whole]
    · show ((0 : BitVec 9) ++ sr ++ tm ++ pl ++ pr ++ ql ++ qr ++ op ++ eng ++ (3 : BitVec 2)).extractLsb' 14 1 = _
      simp (disch := omega) only [extract_low, extract_high, extract_whole]
    · show ((0 : BitVec 9) ++ sr ++ tm ++ pl ++ pr ++ ql ++ qr ++ op ++ eng ++ (3 : BitVec 2)).extractLsb' 13 1 = _
      simp (disch := omega) only [extract_low, extract_high, extract_whole]
    · show ((0 : BitVec 9) ++ sr ++ tm ++ pl ++ pr ++ ql ++ qr ++ op ++ eng ++ (3 : BitVec 2)).extractLsb' 12 1 = _
      simp (disch := omega) only [extract_low, extract_high, extract_whole]
    · show ((0 : BitVec 9) ++ sr ++ tm ++ pl ++ pr ++ ql ++ qr ++ op ++ eng ++ (3 : BitVec 2)).extractLsb' 11 1 = _
      simp (disch := omega) only [extract_low, extract_high, extract_whole]
  · show ((0 : BitVec 9) ++ sr ++ tm ++ pl ++ pr ++ ql ++ qr ++ op ++ eng ++ (3 : BitVec 2)).extractLsb' 2 3 = _
    simp (disch := omega) only [extract_low, extract_high, extract_whole]
  · show ((0 : BitVec 9) ++ sr ++ tm ++ pl ++ pr ++ ql ++ qr ++ op ++ eng ++ (3 : BitVec 2)).extractLsb' 5 6 = _
    simp (disch := omega) only [extract_low, extract_high, extract_whole]
  · show ((0 : BitVec 9) ++ sr ++ tm ++ pl ++ pr ++ ql ++ qr ++ op ++ eng ++ (3 : BitVec 2)).extractLsb' 0 2 = _
    simp (disch := omega) only [extract_low, extract_high, extract_whole]
theorem mulF_words (f : MulF) : mulF (f.words).1 (f.words).2 = f := by
  obtain ⟨ty, route, acc, skip, wrap, dst, tag, slot, rows, dy, xsValid, xs, bank, mpred⟩ := f
  unfold mulF
  congr 1
  · show (ty ++ route ++ acc ++ skip ++ wrap ++ (0 : BitVec 5) ++ dst ++ tag ++ slot ++ rows).extractLsb' 26 6 = _
    simp (disch := omega) only [extract_low, extract_high, extract_whole]
  · show (ty ++ route ++ acc ++ skip ++ wrap ++ (0 : BitVec 5) ++ dst ++ tag ++ slot ++ rows).extractLsb' 24 2 = _
    simp (disch := omega) only [extract_low, extract_high, extract_whole]
  · show (ty ++ route ++ acc ++ skip ++ wrap ++ (0 : BitVec 5) ++ dst ++ tag ++ slot ++ rows).extractLsb' 23 1 = _
    simp (disch := omega) only [extract_low, extract_high, extract_whole]
  · show (ty ++ route ++ acc ++ skip ++ wrap ++ (0 : BitVec 5) ++ dst ++ tag ++ slot ++ rows).extractLsb' 22 1 = _
    simp (disch := omega) only [extract_low, extract_high, extract_whole]
  · show (ty ++ route ++ acc ++ skip ++ wrap ++ (0 : BitVec 5) ++ dst ++ tag ++ slot ++ rows).extractLsb' 21 1 = _
    simp (disch := omega) only [extract_low, extract_high, extract_whole]
  · show (ty ++ route ++ acc ++ skip ++ wrap ++ (0 : BitVec 5) ++ dst ++ tag ++ slot ++ rows).extractLsb' 13 3 = _
    simp (disch := omega) only [extract_low, extract_high, extract_whole]
  · show (ty ++ route ++ acc ++ skip ++ wrap ++ (0 : BitVec 5) ++ dst ++ tag ++ slot ++ rows).extractLsb' 11 2 = _
    simp (disch := omega) only [extract_low, extract_high, extract_whole]
  · show (ty ++ route ++ acc ++ skip ++ wrap ++ (0 : BitVec 5) ++ dst ++ tag ++ slot ++ rows).extractLsb' 6 5 = _
    simp (disch := omega) only [extract_low, extract_high, extract_whole]
  · show (ty ++ route ++ acc ++ skip ++ wrap ++ (0 : BitVec 5) ++ dst ++ tag ++ slot ++ rows).extractLsb' 0 6 = _
    simp (disch := omega) only [extract_low, extract_high, extract_whole]
  · show ((0 : BitVec 8) ++ dy ++ xsValid ++ xs ++ (0 : BitVec 3) ++ bank ++ mpred).extractLsb' 20 4 = _
    simp (disch := omega) only [extract_low, extract_high, extract_whole]
  · show ((0 : BitVec 8) ++ dy ++ xsValid ++ xs ++ (0 : BitVec 3) ++ bank ++ mpred).extractLsb' 19 1 = _
    simp (disch := omega) only [extract_low, extract_high, extract_whole]
  · show ((0 : BitVec 8) ++ dy ++ xsValid ++ xs ++ (0 : BitVec 3) ++ bank ++ mpred).extractLsb' 15 4 = _
    simp (disch := omega) only [extract_low, extract_high, extract_whole]
  · show ((0 : BitVec 8) ++ dy ++ xsValid ++ xs ++ (0 : BitVec 3) ++ bank ++ mpred).extractLsb' 7 5 = _
    simp (disch := omega) only [extract_low, extract_high, extract_whole]
  · show ((0 : BitVec 8) ++ dy ++ xsValid ++ xs ++ (0 : BitVec 3) ++ bank ++ mpred).extractLsb' 0 7 = _
    simp (disch := omega) only [extract_low, extract_high, extract_whole]
theorem copyF_words (f : CopyF) : copyF (f.words).1 (f.words).2 = f := by
  obtain ⟨pace, wreg, len, src, dst, tag, rsrc, rdst, node⟩ := f
  unfold copyF
  congr 1
  · show (pace ++ wreg ++ len ++ src ++ dst).extractLsb' 24 8 = _
    simp (disch := omega) only [extract_low, extract_high, extract_whole]
  · show (pace ++ wreg ++ len ++ src ++ dst).extractLsb' 18 6 = _
    simp (disch := omega) only [extract_low, extract_high, extract_whole]
  · show (pace ++ wreg ++ len ++ src ++ dst).extractLsb' 12 6 = _
    simp (disch := omega) only [extract_low, extract_high, extract_whole]
  · show (pace ++ wreg ++ len ++ src ++ dst).extractLsb' 6 6 = _
    simp (disch := omega) only [extract_low, extract_high, extract_whole]
  · show (pace ++ wreg ++ len ++ src ++ dst).extractLsb' 0 6 = _
    simp (disch := omega) only [extract_low, extract_high, extract_whole]
  · show (tag ++ (0 : BitVec 1) ++ rsrc ++ rdst ++ (0 : BitVec 1) ++ node).extractLsb' 16 16 = _
    simp (disch := omega) only [extract_low, extract_high, extract_whole]
  · show (tag ++ (0 : BitVec 1) ++ rsrc ++ rdst ++ (0 : BitVec 1) ++ node).extractLsb' 14 1 = _
    simp (disch := omega) only [extract_low, extract_high, extract_whole]
  · show (tag ++ (0 : BitVec 1) ++ rsrc ++ rdst ++ (0 : BitVec 1) ++ node).extractLsb' 13 1 = _
    simp (disch := omega) only [extract_low, extract_high, extract_whole]
  · show (tag ++ (0 : BitVec 1) ++ rsrc ++ rdst ++ (0 : BitVec 1) ++ node).extractLsb' 0 12 = _
    simp (disch := omega) only [extract_low, extract_high, extract_whole]
theorem xferF_words (f : XferF) : xferF (f.words).1 (f.words).2 = f := by
  obtain ⟨kind, num, off, stream, tag, wreg, pace⟩ := f
  unfold xferF
  congr 1
  · show (kind ++ num ++ (0 : BitVec 5) ++ off ++ (0 : BitVec 4) ++ stream).extractLsb' 29 3 = _
    simp (disch := omega) only [extract_low, extract_high, extract_whole]
  · show (kind ++ num ++ (0 : BitVec 5) ++ off ++ (0 : BitVec 4) ++ stream).extractLsb' 23 6 = _
    simp (disch := omega) only [extract_low, extract_high, extract_whole]
  · show (kind ++ num ++ (0 : BitVec 5) ++ off ++ (0 : BitVec 4) ++ stream).extractLsb' 8 10 = _
    simp (disch := omega) only [extract_low, extract_high, extract_whole]
  · show (kind ++ num ++ (0 : BitVec 5) ++ off ++ (0 : BitVec 4) ++ stream).extractLsb' 0 4 = _
    simp (disch := omega) only [extract_low, extract_high, extract_whole]
  · show (tag ++ (0 : BitVec 2) ++ wreg ++ pace).extractLsb' 16 16 = _
    simp (disch := omega) only [extract_low, extract_high, extract_whole]
  · show (tag ++ (0 : BitVec 2) ++ wreg ++ pace).extractLsb' 8 6 = _
    simp (disch := omega) only [extract_low, extract_high, extract_whole]
  · show (tag ++ (0 : BitVec 2) ++ wreg ++ pace).extractLsb' 0 8 = _
    simp (disch := omega) only [extract_low, extract_high, extract_whole]
theorem exchF_words (f : ExchF) : exchF (f.words).1 (f.words).2 = f := by
  obtain ⟨addr, len, wreg, core, ch, tag⟩ := f
  unfold exchF
  congr 1
  · show ((0 : BitVec 7) ++ ch ++ core ++ wreg ++ len ++ addr).extractLsb' 0 6 = _
    simp (disch := omega) only [extract_low, extract_high, extract_whole]
  · show ((0 : BitVec 7) ++ ch ++ core ++ wreg ++ len ++ addr).extractLsb' 6 6 = _
    simp (disch := omega) only [extract_low, extract_high, extract_whole]
  · show ((0 : BitVec 7) ++ ch ++ core ++ wreg ++ len ++ addr).extractLsb' 12 6 = _
    simp (disch := omega) only [extract_low, extract_high, extract_whole]
  · show ((0 : BitVec 7) ++ ch ++ core ++ wreg ++ len ++ addr).extractLsb' 18 3 = _
    simp (disch := omega) only [extract_low, extract_high, extract_whole]
  · show ((0 : BitVec 7) ++ ch ++ core ++ wreg ++ len ++ addr).extractLsb' 21 4 = _
    simp (disch := omega) only [extract_low, extract_high, extract_whole]
  · show (tag ++ (0 : BitVec 16)).extractLsb' 16 16 = _
    simp (disch := omega) only [extract_low, extract_high, extract_whole]
/-! ## Which decoder reads a first word -/

theorem cand_A (w : IWord) (h : fld w 0 2 = 0) : candidate [w] = candA w := by
  show (match (fld w 0 2).toNat with
    | 0 => candA w | 1 => candB w | 2 => candVLP w 0 | _ => candE w 0 0 0 0 0 : Option Instr) = _
  rw [h]; rfl
theorem cand_B (w : IWord) (h : fld w 0 2 = 1) : candidate [w] = candB w := by
  show (match (fld w 0 2).toNat with
    | 0 => candA w | 1 => candB w | 2 => candVLP w 0 | _ => candE w 0 0 0 0 0 : Option Instr) = _
  rw [h]; rfl
theorem cand_VLP (w v : IWord) (h : fld w 0 2 = 2) : candidate [w, v] = candVLP w v := by
  show (match (fld w 0 2).toNat with
    | 0 => candA w | 1 => candB w | 2 => candVLP w v | _ => candE w v 0 0 0 0 : Option Instr) = _
  rw [h]; rfl
theorem cand_E (w0 w1 w2 w3 w4 w5 w6 w7 : IWord) (h : fld w0 0 2 = 3) :
    candidate [w0, w1, w2, w3, w4, w5, w6, w7] = candE w0 w1 w2 w3 w4 w5 := by
  show (match (fld w0 0 2).toNat with
    | 0 => candA w0 | 1 => candB w0 | 2 => candVLP w0 w1 | _ => candE w0 w1 w2 w3 w4 w5 : Option Instr) = _
  rw [h]; rfl
/-! ## One lemma per constructor -/

namespace RoundTrip

/-- The encoder's words for a well-formed instruction carry that instruction. -/
def Statement (i : Instr) : Prop := i.wf = true → candidate (encode i) = some i
theorem add (d : Reg) (a : Reg) (b : Reg) : Statement (.add d a b) := by
  intro _
  show candidate [wA 0x0 b a d 0x01] = _
  rw [cand_A _ (wA_class ..)]
  have hd := wA_d 0x0 b a d 0x01
  have ha := wA_a 0x0 b a d 0x01
  have hb := wA_b 0x0 b a d 0x01
  have hf := wA_f 0x0 b a d 0x01
  have hm := wA_major 0x0 b a d 0x01
  unfold candA
  generalize wA 0x0 b a d 0x01 = w at *
  subst hd ha hb
  rw [hm, hf]; rfl
theorem sub (d : Reg) (a : Reg) (b : Reg) : Statement (.sub d a b) := by
  intro _
  show candidate [wA 0x1 b a d 0x01] = _
  rw [cand_A _ (wA_class ..)]
  have hd := wA_d 0x1 b a d 0x01
  have ha := wA_a 0x1 b a d 0x01
  have hb := wA_b 0x1 b a d 0x01
  have hf := wA_f 0x1 b a d 0x01
  have hm := wA_major 0x1 b a d 0x01
  unfold candA
  generalize wA 0x1 b a d 0x01 = w at *
  subst hd ha hb
  rw [hm, hf]; rfl
theorem and (d : Reg) (a : Reg) (b : Reg) : Statement (.and d a b) := by
  intro _
  show candidate [wA 0x2 b a d 0x01] = _
  rw [cand_A _ (wA_class ..)]
  have hd := wA_d 0x2 b a d 0x01
  have ha := wA_a 0x2 b a d 0x01
  have hb := wA_b 0x2 b a d 0x01
  have hf := wA_f 0x2 b a d 0x01
  have hm := wA_major 0x2 b a d 0x01
  unfold candA
  generalize wA 0x2 b a d 0x01 = w at *
  subst hd ha hb
  rw [hm, hf]; rfl
theorem or (d : Reg) (a : Reg) (b : Reg) : Statement (.or d a b) := by
  intro _
  show candidate [wA 0x3 b a d 0x01] = _
  rw [cand_A _ (wA_class ..)]
  have hd := wA_d 0x3 b a d 0x01
  have ha := wA_a 0x3 b a d 0x01
  have hb := wA_b 0x3 b a d 0x01
  have hf := wA_f 0x3 b a d 0x01
  have hm := wA_major 0x3 b a d 0x01
  unfold candA
  generalize wA 0x3 b a d 0x01 = w at *
  subst hd ha hb
  rw [hm, hf]; rfl
theorem xor (d : Reg) (a : Reg) (b : Reg) : Statement (.xor d a b) := by
  intro _
  show candidate [wA 0x4 b a d 0x01] = _
  rw [cand_A _ (wA_class ..)]
  have hd := wA_d 0x4 b a d 0x01
  have ha := wA_a 0x4 b a d 0x01
  have hb := wA_b 0x4 b a d 0x01
  have hf := wA_f 0x4 b a d 0x01
  have hm := wA_major 0x4 b a d 0x01
  unfold candA
  generalize wA 0x4 b a d 0x01 = w at *
  subst hd ha hb
  rw [hm, hf]; rfl
theorem andn (d : Reg) (a : Reg) (b : Reg) : Statement (.andn d a b) := by
  intro _
  show candidate [wA 0x5 b a d 0x01] = _
  rw [cand_A _ (wA_class ..)]
  have hd := wA_d 0x5 b a d 0x01
  have ha := wA_a 0x5 b a d 0x01
  have hb := wA_b 0x5 b a d 0x01
  have hf := wA_f 0x5 b a d 0x01
  have hm := wA_major 0x5 b a d 0x01
  unfold candA
  generalize wA 0x5 b a d 0x01 = w at *
  subst hd ha hb
  rw [hm, hf]; rfl
theorem sll (d : Reg) (a : Reg) (b : Reg) : Statement (.sll d a b) := by
  intro _
  show candidate [wA 0x6 b a d 0x01] = _
  rw [cand_A _ (wA_class ..)]
  have hd := wA_d 0x6 b a d 0x01
  have ha := wA_a 0x6 b a d 0x01
  have hb := wA_b 0x6 b a d 0x01
  have hf := wA_f 0x6 b a d 0x01
  have hm := wA_major 0x6 b a d 0x01
  unfold candA
  generalize wA 0x6 b a d 0x01 = w at *
  subst hd ha hb
  rw [hm, hf]; rfl
theorem srl (d : Reg) (a : Reg) (b : Reg) : Statement (.srl d a b) := by
  intro _
  show candidate [wA 0x7 b a d 0x01] = _
  rw [cand_A _ (wA_class ..)]
  have hd := wA_d 0x7 b a d 0x01
  have ha := wA_a 0x7 b a d 0x01
  have hb := wA_b 0x7 b a d 0x01
  have hf := wA_f 0x7 b a d 0x01
  have hm := wA_major 0x7 b a d 0x01
  unfold candA
  generalize wA 0x7 b a d 0x01 = w at *
  subst hd ha hb
  rw [hm, hf]; rfl
theorem sra (d : Reg) (a : Reg) (b : Reg) : Statement (.sra d a b) := by
  intro _
  show candidate [wA 0x8 b a d 0x01] = _
  rw [cand_A _ (wA_class ..)]
  have hd := wA_d 0x8 b a d 0x01
  have ha := wA_a 0x8 b a d 0x01
  have hb := wA_b 0x8 b a d 0x01
  have hf := wA_f 0x8 b a d 0x01
  have hm := wA_major 0x8 b a d 0x01
  unfold candA
  generalize wA 0x8 b a d 0x01 = w at *
  subst hd ha hb
  rw [hm, hf]; rfl
theorem rol (d : Reg) (a : Reg) (b : Reg) : Statement (.rol d a b) := by
  intro _
  show candidate [wA 0x9 b a d 0x01] = _
  rw [cand_A _ (wA_class ..)]
  have hd := wA_d 0x9 b a d 0x01
  have ha := wA_a 0x9 b a d 0x01
  have hb := wA_b 0x9 b a d 0x01
  have hf := wA_f 0x9 b a d 0x01
  have hm := wA_major 0x9 b a d 0x01
  unfold candA
  generalize wA 0x9 b a d 0x01 = w at *
  subst hd ha hb
  rw [hm, hf]; rfl
theorem ror (d : Reg) (a : Reg) (b : Reg) : Statement (.ror d a b) := by
  intro _
  show candidate [wA 0xa b a d 0x01] = _
  rw [cand_A _ (wA_class ..)]
  have hd := wA_d 0xa b a d 0x01
  have ha := wA_a 0xa b a d 0x01
  have hb := wA_b 0xa b a d 0x01
  have hf := wA_f 0xa b a d 0x01
  have hm := wA_major 0xa b a d 0x01
  unfold candA
  generalize wA 0xa b a d 0x01 = w at *
  subst hd ha hb
  rw [hm, hf]; rfl
theorem slt (d : Reg) (a : Reg) (b : Reg) : Statement (.slt d a b) := by
  intro _
  show candidate [wA 0xb b a d 0x01] = _
  rw [cand_A _ (wA_class ..)]
  have hd := wA_d 0xb b a d 0x01
  have ha := wA_a 0xb b a d 0x01
  have hb := wA_b 0xb b a d 0x01
  have hf := wA_f 0xb b a d 0x01
  have hm := wA_major 0xb b a d 0x01
  unfold candA
  generalize wA 0xb b a d 0x01 = w at *
  subst hd ha hb
  rw [hm, hf]; rfl
theorem sltu (d : Reg) (a : Reg) (b : Reg) : Statement (.sltu d a b) := by
  intro _
  show candidate [wA 0xc b a d 0x01] = _
  rw [cand_A _ (wA_class ..)]
  have hd := wA_d 0xc b a d 0x01
  have ha := wA_a 0xc b a d 0x01
  have hb := wA_b 0xc b a d 0x01
  have hf := wA_f 0xc b a d 0x01
  have hm := wA_major 0xc b a d 0x01
  unfold candA
  generalize wA 0xc b a d 0x01 = w at *
  subst hd ha hb
  rw [hm, hf]; rfl
theorem seq (d : Reg) (a : Reg) (b : Reg) : Statement (.seq d a b) := by
  intro _
  show candidate [wA 0xd b a d 0x01] = _
  rw [cand_A _ (wA_class ..)]
  have hd := wA_d 0xd b a d 0x01
  have ha := wA_a 0xd b a d 0x01
  have hb := wA_b 0xd b a d 0x01
  have hf := wA_f 0xd b a d 0x01
  have hm := wA_major 0xd b a d 0x01
  unfold candA
  generalize wA 0xd b a d 0x01 = w at *
  subst hd ha hb
  rw [hm, hf]; rfl
theorem min (d : Reg) (a : Reg) (b : Reg) : Statement (.min d a b) := by
  intro _
  show candidate [wA 0xe b a d 0x01] = _
  rw [cand_A _ (wA_class ..)]
  have hd := wA_d 0xe b a d 0x01
  have ha := wA_a 0xe b a d 0x01
  have hb := wA_b 0xe b a d 0x01
  have hf := wA_f 0xe b a d 0x01
  have hm := wA_major 0xe b a d 0x01
  unfold candA
  generalize wA 0xe b a d 0x01 = w at *
  subst hd ha hb
  rw [hm, hf]; rfl
theorem max (d : Reg) (a : Reg) (b : Reg) : Statement (.max d a b) := by
  intro _
  show candidate [wA 0xf b a d 0x01] = _
  rw [cand_A _ (wA_class ..)]
  have hd := wA_d 0xf b a d 0x01
  have ha := wA_a 0xf b a d 0x01
  have hb := wA_b 0xf b a d 0x01
  have hf := wA_f 0xf b a d 0x01
  have hm := wA_major 0xf b a d 0x01
  unfold candA
  generalize wA 0xf b a d 0x01 = w at *
  subst hd ha hb
  rw [hm, hf]; rfl
theorem minu (d : Reg) (a : Reg) (b : Reg) : Statement (.minu d a b) := by
  intro _
  show candidate [wA 0x10 b a d 0x01] = _
  rw [cand_A _ (wA_class ..)]
  have hd := wA_d 0x10 b a d 0x01
  have ha := wA_a 0x10 b a d 0x01
  have hb := wA_b 0x10 b a d 0x01
  have hf := wA_f 0x10 b a d 0x01
  have hm := wA_major 0x10 b a d 0x01
  unfold candA
  generalize wA 0x10 b a d 0x01 = w at *
  subst hd ha hb
  rw [hm, hf]; rfl
theorem maxu (d : Reg) (a : Reg) (b : Reg) : Statement (.maxu d a b) := by
  intro _
  show candidate [wA 0x11 b a d 0x01] = _
  rw [cand_A _ (wA_class ..)]
  have hd := wA_d 0x11 b a d 0x01
  have ha := wA_a 0x11 b a d 0x01
  have hb := wA_b 0x11 b a d 0x01
  have hf := wA_f 0x11 b a d 0x01
  have hm := wA_major 0x11 b a d 0x01
  unfold candA
  generalize wA 0x11 b a d 0x01 = w at *
  subst hd ha hb
  rw [hm, hf]; rfl
theorem clz (d : Reg) (a : Reg) : Statement (.clz d a) := by
  intro _
  show candidate [wA 0x12 0 a d 0x01] = _
  rw [cand_A _ (wA_class ..)]
  have hd := wA_d 0x12 0 a d 0x01
  have ha := wA_a 0x12 0 a d 0x01
  have hb := wA_b 0x12 0 a d 0x01
  have hf := wA_f 0x12 0 a d 0x01
  have hm := wA_major 0x12 0 a d 0x01
  unfold candA
  generalize wA 0x12 0 a d 0x01 = w at *
  subst hd ha
  rw [hm, hf]; rfl
theorem ctz (d : Reg) (a : Reg) : Statement (.ctz d a) := by
  intro _
  show candidate [wA 0x13 0 a d 0x01] = _
  rw [cand_A _ (wA_class ..)]
  have hd := wA_d 0x13 0 a d 0x01
  have ha := wA_a 0x13 0 a d 0x01
  have hb := wA_b 0x13 0 a d 0x01
  have hf := wA_f 0x13 0 a d 0x01
  have hm := wA_major 0x13 0 a d 0x01
  unfold candA
  generalize wA 0x13 0 a d 0x01 = w at *
  subst hd ha
  rw [hm, hf]; rfl
theorem popc (d : Reg) (a : Reg) : Statement (.popc d a) := by
  intro _
  show candidate [wA 0x14 0 a d 0x01] = _
  rw [cand_A _ (wA_class ..)]
  have hd := wA_d 0x14 0 a d 0x01
  have ha := wA_a 0x14 0 a d 0x01
  have hb := wA_b 0x14 0 a d 0x01
  have hf := wA_f 0x14 0 a d 0x01
  have hm := wA_major 0x14 0 a d 0x01
  unfold candA
  generalize wA 0x14 0 a d 0x01 = w at *
  subst hd ha
  rw [hm, hf]; rfl
theorem mul (d : Reg) (a : Reg) (b : Reg) : Statement (.mul d a b) := by
  intro _
  show candidate [wA 0x0 b a d 0x02] = _
  rw [cand_A _ (wA_class ..)]
  have hd := wA_d 0x0 b a d 0x02
  have ha := wA_a 0x0 b a d 0x02
  have hb := wA_b 0x0 b a d 0x02
  have hf := wA_f 0x0 b a d 0x02
  have hm := wA_major 0x0 b a d 0x02
  unfold candA
  generalize wA 0x0 b a d 0x02 = w at *
  subst hd ha hb
  rw [hm, hf]; rfl
theorem mulh (d : Reg) (a : Reg) (b : Reg) : Statement (.mulh d a b) := by
  intro _
  show candidate [wA 0x1 b a d 0x02] = _
  rw [cand_A _ (wA_class ..)]
  have hd := wA_d 0x1 b a d 0x02
  have ha := wA_a 0x1 b a d 0x02
  have hb := wA_b 0x1 b a d 0x02
  have hf := wA_f 0x1 b a d 0x02
  have hm := wA_major 0x1 b a d 0x02
  unfold candA
  generalize wA 0x1 b a d 0x02 = w at *
  subst hd ha hb
  rw [hm, hf]; rfl
theorem mulhu (d : Reg) (a : Reg) (b : Reg) : Statement (.mulhu d a b) := by
  intro _
  show candidate [wA 0x2 b a d 0x02] = _
  rw [cand_A _ (wA_class ..)]
  have hd := wA_d 0x2 b a d 0x02
  have ha := wA_a 0x2 b a d 0x02
  have hb := wA_b 0x2 b a d 0x02
  have hf := wA_f 0x2 b a d 0x02
  have hm := wA_major 0x2 b a d 0x02
  unfold candA
  generalize wA 0x2 b a d 0x02 = w at *
  subst hd ha hb
  rw [hm, hf]; rfl
theorem div (d : Reg) (a : Reg) (b : Reg) : Statement (.div d a b) := by
  intro _
  show candidate [wA 0x3 b a d 0x02] = _
  rw [cand_A _ (wA_class ..)]
  have hd := wA_d 0x3 b a d 0x02
  have ha := wA_a 0x3 b a d 0x02
  have hb := wA_b 0x3 b a d 0x02
  have hf := wA_f 0x3 b a d 0x02
  have hm := wA_major 0x3 b a d 0x02
  unfold candA
  generalize wA 0x3 b a d 0x02 = w at *
  subst hd ha hb
  rw [hm, hf]; rfl
theorem divu (d : Reg) (a : Reg) (b : Reg) : Statement (.divu d a b) := by
  intro _
  show candidate [wA 0x4 b a d 0x02] = _
  rw [cand_A _ (wA_class ..)]
  have hd := wA_d 0x4 b a d 0x02
  have ha := wA_a 0x4 b a d 0x02
  have hb := wA_b 0x4 b a d 0x02
  have hf := wA_f 0x4 b a d 0x02
  have hm := wA_major 0x4 b a d 0x02
  unfold candA
  generalize wA 0x4 b a d 0x02 = w at *
  subst hd ha hb
  rw [hm, hf]; rfl
theorem rem (d : Reg) (a : Reg) (b : Reg) : Statement (.rem d a b) := by
  intro _
  show candidate [wA 0x5 b a d 0x02] = _
  rw [cand_A _ (wA_class ..)]
  have hd := wA_d 0x5 b a d 0x02
  have ha := wA_a 0x5 b a d 0x02
  have hb := wA_b 0x5 b a d 0x02
  have hf := wA_f 0x5 b a d 0x02
  have hm := wA_major 0x5 b a d 0x02
  unfold candA
  generalize wA 0x5 b a d 0x02 = w at *
  subst hd ha hb
  rw [hm, hf]; rfl
theorem remu (d : Reg) (a : Reg) (b : Reg) : Statement (.remu d a b) := by
  intro _
  show candidate [wA 0x6 b a d 0x02] = _
  rw [cand_A _ (wA_class ..)]
  have hd := wA_d 0x6 b a d 0x02
  have ha := wA_a 0x6 b a d 0x02
  have hb := wA_b 0x6 b a d 0x02
  have hf := wA_f 0x6 b a d 0x02
  have hm := wA_major 0x6 b a d 0x02
  unfold candA
  generalize wA 0x6 b a d 0x02 = w at *
  subst hd ha hb
  rw [hm, hf]; rfl
theorem fshl (d : Reg) (a : Reg) (b : Reg) (c : Reg) : Statement (.fshl d a b c) := by
  intro _
  show candidate [wA c b a d 0x03] = _
  rw [cand_A _ (wA_class ..)]
  have hd := wA_d c b a d 0x03
  have ha := wA_a c b a d 0x03
  have hb := wA_b c b a d 0x03
  have hf := wA_f c b a d 0x03
  have hm := wA_major c b a d 0x03
  unfold candA
  generalize wA c b a d 0x03 = w at *
  subst hd ha hb hf
  rw [hm]; rfl
theorem fshr (d : Reg) (a : Reg) (b : Reg) (c : Reg) : Statement (.fshr d a b c) := by
  intro _
  show candidate [wA c b a d 0x04] = _
  rw [cand_A _ (wA_class ..)]
  have hd := wA_d c b a d 0x04
  have ha := wA_a c b a d 0x04
  have hb := wA_b c b a d 0x04
  have hf := wA_f c b a d 0x04
  have hm := wA_major c b a d 0x04
  unfold candA
  generalize wA c b a d 0x04 = w at *
  subst hd ha hb hf
  rw [hm]; rfl
theorem lea (d : Reg) (a : Reg) (b : Reg) (n : BitVec 2) : Statement (.lea d a b n) := by
  intro _
  show candidate [wA ((0 : BitVec 4) ++ n) b a d 0x05] = _
  rw [cand_A _ (wA_class ..)]
  have hd := wA_d ((0 : BitVec 4) ++ n) b a d 0x05
  have ha := wA_a ((0 : BitVec 4) ++ n) b a d 0x05
  have hb := wA_b ((0 : BitVec 4) ++ n) b a d 0x05
  have hf := wA_f ((0 : BitVec 4) ++ n) b a d 0x05
  have hm := wA_major ((0 : BitVec 4) ++ n) b a d 0x05
  have hp := wA_part ((0 : BitVec 4) ++ n) b a d 0x05 26 2 (by decide)
  have h : ((0 : BitVec 4) ++ n).extractLsb' 0 2 = n := by
    simp (disch := omega) only [extract_low, extract_whole]
  replace hp := hp.trans h
  unfold candA
  generalize wA ((0 : BitVec 4) ++ n) b a d 0x05 = w at *
  subst hd ha hb hp
  rw [hm]; rfl
theorem sptest (d : Reg) (a : Reg) : Statement (.sptest d a) := by
  intro _
  show candidate [wA 0 0 a d 0x06] = _
  rw [cand_A _ (wA_class ..)]
  have hd := wA_d 0 0 a d 0x06
  have ha := wA_a 0 0 a d 0x06
  have hb := wA_b 0 0 a d 0x06
  have hf := wA_f 0 0 a d 0x06
  have hm := wA_major 0 0 a d 0x06
  unfold candA
  generalize wA 0 0 a d 0x06 = w at *
  subst hd ha
  rw [hm]; rfl
theorem spcast (t : Window) (d : Reg) (a : Reg) (p : Reg) : Statement (.spcast t d a p) := by
  intro _
  show candidate [wA (BitVec.ofNat 6 t.code) p a d 0x07] = _
  rw [cand_A _ (wA_class ..)]
  have hd := wA_d (BitVec.ofNat 6 t.code) p a d 0x07
  have ha := wA_a (BitVec.ofNat 6 t.code) p a d 0x07
  have hb := wA_b (BitVec.ofNat 6 t.code) p a d 0x07
  have hf := wA_f (BitVec.ofNat 6 t.code) p a d 0x07
  have hm := wA_major (BitVec.ofNat 6 t.code) p a d 0x07
  unfold candA
  generalize wA (BitVec.ofNat 6 t.code) p a d 0x07 = w at *
  subst hd ha hb
  rw [hm, hf]; cases t <;> rfl
theorem waitt (a : Reg) : Statement (.waitt a) := by
  intro _
  show candidate [wA 1 0 a 0 0x08] = _
  rw [cand_A _ (wA_class ..)]
  have hd := wA_d 1 0 a 0 0x08
  have ha := wA_a 1 0 a 0 0x08
  have hb := wA_b 1 0 a 0 0x08
  have hf := wA_f 1 0 a 0 0x08
  have hm := wA_major 1 0 a 0 0x08
  unfold candA
  generalize wA 1 0 a 0 0x08 = w at *
  subst ha
  rw [hm, hf]; rfl
theorem gsync (d : Reg) : Statement (.gsync d) := by
  intro _
  show candidate [wA 4 0 0 d 0x08] = _
  rw [cand_A _ (wA_class ..)]
  have hd := wA_d 4 0 0 d 0x08
  have ha := wA_a 4 0 0 d 0x08
  have hb := wA_b 4 0 0 d 0x08
  have hf := wA_f 4 0 0 d 0x08
  have hm := wA_major 4 0 0 d 0x08
  unfold candA
  generalize wA 4 0 0 d 0x08 = w at *
  subst hd
  rw [hm, hf]; rfl
theorem jr (d : Reg) (a : Reg) : Statement (.jr d a) := by
  intro _
  show candidate [wA 5 0 a d 0x08] = _
  rw [cand_A _ (wA_class ..)]
  have hd := wA_d 5 0 a d 0x08
  have ha := wA_a 5 0 a d 0x08
  have hb := wA_b 5 0 a d 0x08
  have hf := wA_f 5 0 a d 0x08
  have hm := wA_major 5 0 a d 0x08
  unfold candA
  generalize wA 5 0 a d 0x08 = w at *
  subst hd ha
  rw [hm, hf]; rfl
theorem rgopenContain (a : Reg) : Statement (.rgopenContain a) := by
  intro _
  show candidate [wA 2 0 a 0 0x0A] = _
  rw [cand_A _ (wA_class ..)]
  have hd := wA_d 2 0 a 0 0x0A
  have ha := wA_a 2 0 a 0 0x0A
  have hb := wA_b 2 0 a 0 0x0A
  have hf := wA_f 2 0 a 0 0x0A
  have hm := wA_major 2 0 a 0 0x0A
  unfold candA
  generalize wA 2 0 a 0 0x0A = w at *
  subst ha
  rw [hm, hf]; rfl
theorem rgopenIdem (a : Reg) : Statement (.rgopenIdem a) := by
  intro _
  show candidate [wA 3 0 a 0 0x0A] = _
  rw [cand_A _ (wA_class ..)]
  have hd := wA_d 3 0 a 0 0x0A
  have ha := wA_a 3 0 a 0 0x0A
  have hb := wA_b 3 0 a 0 0x0A
  have hf := wA_f 3 0 a 0 0x0A
  have hm := wA_major 3 0 a 0 0x0A
  unfold candA
  generalize wA 3 0 a 0 0x0A = w at *
  subst ha
  rw [hm, hf]; rfl
theorem rgopenBoth (a : Reg) : Statement (.rgopenBoth a) := by
  intro _
  show candidate [wA 4 0 a 0 0x0A] = _
  rw [cand_A _ (wA_class ..)]
  have hd := wA_d 4 0 a 0 0x0A
  have ha := wA_a 4 0 a 0 0x0A
  have hb := wA_b 4 0 a 0 0x0A
  have hf := wA_f 4 0 a 0 0x0A
  have hm := wA_major 4 0 a 0 0x0A
  unfold candA
  generalize wA 4 0 a 0 0x0A = w at *
  subst ha
  rw [hm, hf]; rfl
theorem land (sc : Scope) : Statement (.land sc) := by
  intro _
  show candidate [wA (BitVec.ofNat 6 sc.code) 0 0 0 0x0B] = _
  rw [cand_A _ (wA_class ..)]
  have hd := wA_d (BitVec.ofNat 6 sc.code) 0 0 0 0x0B
  have ha := wA_a (BitVec.ofNat 6 sc.code) 0 0 0 0x0B
  have hb := wA_b (BitVec.ofNat 6 sc.code) 0 0 0 0x0B
  have hf := wA_f (BitVec.ofNat 6 sc.code) 0 0 0 0x0B
  have hm := wA_major (BitVec.ofNat 6 sc.code) 0 0 0 0x0B
  unfold candA
  generalize wA (BitVec.ofNat 6 sc.code) 0 0 0 0x0B = w at *
  rw [hm, hf]; cases sc <;> rfl
theorem swait (sc : Scope) (p : Reg) (d : Reg) (a : Reg) : Statement (.swait sc p d a) := by
  intro _
  show candidate [wA (BitVec.ofNat 3 sc.code ++ (0 : BitVec 3)) p a d 0x0C] = _
  rw [cand_A _ (wA_class ..)]
  have hd := wA_d (BitVec.ofNat 3 sc.code ++ (0 : BitVec 3)) p a d 0x0C
  have ha := wA_a (BitVec.ofNat 3 sc.code ++ (0 : BitVec 3)) p a d 0x0C
  have hb := wA_b (BitVec.ofNat 3 sc.code ++ (0 : BitVec 3)) p a d 0x0C
  have hf := wA_f (BitVec.ofNat 3 sc.code ++ (0 : BitVec 3)) p a d 0x0C
  have hm := wA_major (BitVec.ofNat 3 sc.code ++ (0 : BitVec 3)) p a d 0x0C
  have hp := wA_part (BitVec.ofNat 3 sc.code ++ (0 : BitVec 3)) p a d 0x0C 29 3 (by decide)
  have hq := wA_part (BitVec.ofNat 3 sc.code ++ (0 : BitVec 3)) p a d 0x0C 26 3 (by decide)
  unfold candA
  generalize wA (BitVec.ofNat 3 sc.code ++ (0 : BitVec 3)) p a d 0x0C = w at *
  subst hd ha hb
  rw [hm]
  show (match Scope.ofCode (fld w 29 3).toNat with
    | none => none
    | some sc => match (fld w 26 3).toNat with
      | 0 => some (.swait sc (fB w) (fD w) (fA w)) | 1 => some (.waitb sc (fB w) (fD w) (fA w)) | 2 => some (.arrive sc (fA w))
      | 3 => some (.arrdrop sc (fA w)) | 4 => some (.binit sc (fA w) (fB w)) | _ => none : Option Instr) = _
  rw [hp, hq]; cases sc <;> rfl
theorem waitb (sc : Scope) (p : Reg) (d : Reg) (a : Reg) : Statement (.waitb sc p d a) := by
  intro _
  show candidate [wA (BitVec.ofNat 3 sc.code ++ (1 : BitVec 3)) p a d 0x0C] = _
  rw [cand_A _ (wA_class ..)]
  have hd := wA_d (BitVec.ofNat 3 sc.code ++ (1 : BitVec 3)) p a d 0x0C
  have ha := wA_a (BitVec.ofNat 3 sc.code ++ (1 : BitVec 3)) p a d 0x0C
  have hb := wA_b (BitVec.ofNat 3 sc.code ++ (1 : BitVec 3)) p a d 0x0C
  have hf := wA_f (BitVec.ofNat 3 sc.code ++ (1 : BitVec 3)) p a d 0x0C
  have hm := wA_major (BitVec.ofNat 3 sc.code ++ (1 : BitVec 3)) p a d 0x0C
  have hp := wA_part (BitVec.ofNat 3 sc.code ++ (1 : BitVec 3)) p a d 0x0C 29 3 (by decide)
  have hq := wA_part (BitVec.ofNat 3 sc.code ++ (1 : BitVec 3)) p a d 0x0C 26 3 (by decide)
  unfold candA
  generalize wA (BitVec.ofNat 3 sc.code ++ (1 : BitVec 3)) p a d 0x0C = w at *
  subst hd ha hb
  rw [hm]
  show (match Scope.ofCode (fld w 29 3).toNat with
    | none => none
    | some sc => match (fld w 26 3).toNat with
      | 0 => some (.swait sc (fB w) (fD w) (fA w)) | 1 => some (.waitb sc (fB w) (fD w) (fA w)) | 2 => some (.arrive sc (fA w))
      | 3 => some (.arrdrop sc (fA w)) | 4 => some (.binit sc (fA w) (fB w)) | _ => none : Option Instr) = _
  rw [hp, hq]; cases sc <;> rfl
theorem arrive (sc : Scope) (a : Reg) : Statement (.arrive sc a) := by
  intro _
  show candidate [wA (BitVec.ofNat 3 sc.code ++ (2 : BitVec 3)) 0 a 0 0x0C] = _
  rw [cand_A _ (wA_class ..)]
  have hd := wA_d (BitVec.ofNat 3 sc.code ++ (2 : BitVec 3)) 0 a 0 0x0C
  have ha := wA_a (BitVec.ofNat 3 sc.code ++ (2 : BitVec 3)) 0 a 0 0x0C
  have hb := wA_b (BitVec.ofNat 3 sc.code ++ (2 : BitVec 3)) 0 a 0 0x0C
  have hf := wA_f (BitVec.ofNat 3 sc.code ++ (2 : BitVec 3)) 0 a 0 0x0C
  have hm := wA_major (BitVec.ofNat 3 sc.code ++ (2 : BitVec 3)) 0 a 0 0x0C
  have hp := wA_part (BitVec.ofNat 3 sc.code ++ (2 : BitVec 3)) 0 a 0 0x0C 29 3 (by decide)
  have hq := wA_part (BitVec.ofNat 3 sc.code ++ (2 : BitVec 3)) 0 a 0 0x0C 26 3 (by decide)
  unfold candA
  generalize wA (BitVec.ofNat 3 sc.code ++ (2 : BitVec 3)) 0 a 0 0x0C = w at *
  subst ha
  rw [hm]
  show (match Scope.ofCode (fld w 29 3).toNat with
    | none => none
    | some sc => match (fld w 26 3).toNat with
      | 0 => some (.swait sc (fB w) (fD w) (fA w)) | 1 => some (.waitb sc (fB w) (fD w) (fA w)) | 2 => some (.arrive sc (fA w))
      | 3 => some (.arrdrop sc (fA w)) | 4 => some (.binit sc (fA w) (fB w)) | _ => none : Option Instr) = _
  rw [hp, hq]; cases sc <;> rfl
theorem arrdrop (sc : Scope) (a : Reg) : Statement (.arrdrop sc a) := by
  intro _
  show candidate [wA (BitVec.ofNat 3 sc.code ++ (3 : BitVec 3)) 0 a 0 0x0C] = _
  rw [cand_A _ (wA_class ..)]
  have hd := wA_d (BitVec.ofNat 3 sc.code ++ (3 : BitVec 3)) 0 a 0 0x0C
  have ha := wA_a (BitVec.ofNat 3 sc.code ++ (3 : BitVec 3)) 0 a 0 0x0C
  have hb := wA_b (BitVec.ofNat 3 sc.code ++ (3 : BitVec 3)) 0 a 0 0x0C
  have hf := wA_f (BitVec.ofNat 3 sc.code ++ (3 : BitVec 3)) 0 a 0 0x0C
  have hm := wA_major (BitVec.ofNat 3 sc.code ++ (3 : BitVec 3)) 0 a 0 0x0C
  have hp := wA_part (BitVec.ofNat 3 sc.code ++ (3 : BitVec 3)) 0 a 0 0x0C 29 3 (by decide)
  have hq := wA_part (BitVec.ofNat 3 sc.code ++ (3 : BitVec 3)) 0 a 0 0x0C 26 3 (by decide)
  unfold candA
  generalize wA (BitVec.ofNat 3 sc.code ++ (3 : BitVec 3)) 0 a 0 0x0C = w at *
  subst ha
  rw [hm]
  show (match Scope.ofCode (fld w 29 3).toNat with
    | none => none
    | some sc => match (fld w 26 3).toNat with
      | 0 => some (.swait sc (fB w) (fD w) (fA w)) | 1 => some (.waitb sc (fB w) (fD w) (fA w)) | 2 => some (.arrive sc (fA w))
      | 3 => some (.arrdrop sc (fA w)) | 4 => some (.binit sc (fA w) (fB w)) | _ => none : Option Instr) = _
  rw [hp, hq]; cases sc <;> rfl
theorem binit (sc : Scope) (a : Reg) (b : Reg) : Statement (.binit sc a b) := by
  intro _
  show candidate [wA (BitVec.ofNat 3 sc.code ++ (4 : BitVec 3)) b a 0 0x0C] = _
  rw [cand_A _ (wA_class ..)]
  have hd := wA_d (BitVec.ofNat 3 sc.code ++ (4 : BitVec 3)) b a 0 0x0C
  have ha := wA_a (BitVec.ofNat 3 sc.code ++ (4 : BitVec 3)) b a 0 0x0C
  have hb := wA_b (BitVec.ofNat 3 sc.code ++ (4 : BitVec 3)) b a 0 0x0C
  have hf := wA_f (BitVec.ofNat 3 sc.code ++ (4 : BitVec 3)) b a 0 0x0C
  have hm := wA_major (BitVec.ofNat 3 sc.code ++ (4 : BitVec 3)) b a 0 0x0C
  have hp := wA_part (BitVec.ofNat 3 sc.code ++ (4 : BitVec 3)) b a 0 0x0C 29 3 (by decide)
  have hq := wA_part (BitVec.ofNat 3 sc.code ++ (4 : BitVec 3)) b a 0 0x0C 26 3 (by decide)
  unfold candA
  generalize wA (BitVec.ofNat 3 sc.code ++ (4 : BitVec 3)) b a 0 0x0C = w at *
  subst ha hb
  rw [hm]
  show (match Scope.ofCode (fld w 29 3).toNat with
    | none => none
    | some sc => match (fld w 26 3).toNat with
      | 0 => some (.swait sc (fB w) (fD w) (fA w)) | 1 => some (.waitb sc (fB w) (fD w) (fA w)) | 2 => some (.arrive sc (fA w))
      | 3 => some (.arrdrop sc (fA w)) | 4 => some (.binit sc (fA w) (fB w)) | _ => none : Option Instr) = _
  rw [hp, hq]; cases sc <;> rfl
theorem bdecl (a : Reg) (b : Reg) : Statement (.bdecl a b) := by
  intro _
  show candidate [wA 0 b a 0 0x0D] = _
  rw [cand_A _ (wA_class ..)]
  have hd := wA_d 0 b a 0 0x0D
  have ha := wA_a 0 b a 0 0x0D
  have hb := wA_b 0 b a 0 0x0D
  have hf := wA_f 0 b a 0 0x0D
  have hm := wA_major 0 b a 0 0x0D
  unfold candA
  generalize wA 0 b a 0 0x0D = w at *
  subst ha hb
  rw [hm, hf]; rfl
theorem bacqFill (a : Reg) : Statement (.bacqFill a) := by
  intro _
  show candidate [wA 1 0 a 0 0x0D] = _
  rw [cand_A _ (wA_class ..)]
  have hd := wA_d 1 0 a 0 0x0D
  have ha := wA_a 1 0 a 0 0x0D
  have hb := wA_b 1 0 a 0 0x0D
  have hf := wA_f 1 0 a 0 0x0D
  have hm := wA_major 1 0 a 0 0x0D
  unfold candA
  generalize wA 1 0 a 0 0x0D = w at *
  subst ha
  rw [hm, hf]; rfl
theorem bacqDrain (a : Reg) : Statement (.bacqDrain a) := by
  intro _
  show candidate [wA 2 0 a 0 0x0D] = _
  rw [cand_A _ (wA_class ..)]
  have hd := wA_d 2 0 a 0 0x0D
  have ha := wA_a 2 0 a 0 0x0D
  have hb := wA_b 2 0 a 0 0x0D
  have hf := wA_f 2 0 a 0 0x0D
  have hm := wA_major 2 0 a 0 0x0D
  unfold candA
  generalize wA 2 0 a 0 0x0D = w at *
  subst ha
  rw [hm, hf]; rfl
theorem brel (a : Reg) : Statement (.brel a) := by
  intro _
  show candidate [wA 3 0 a 0 0x0D] = _
  rw [cand_A _ (wA_class ..)]
  have hd := wA_d 3 0 a 0 0x0D
  have ha := wA_a 3 0 a 0 0x0D
  have hb := wA_b 3 0 a 0 0x0D
  have hf := wA_f 3 0 a 0 0x0D
  have hm := wA_major 3 0 a 0 0x0D
  unfold candA
  generalize wA 3 0 a 0 0x0D = w at *
  subst ha
  rw [hm, hf]; rfl
theorem bstat (d : Reg) (a : Reg) : Statement (.bstat d a) := by
  intro _
  show candidate [wA 4 0 a d 0x0D] = _
  rw [cand_A _ (wA_class ..)]
  have hd := wA_d 4 0 a d 0x0D
  have ha := wA_a 4 0 a d 0x0D
  have hb := wA_b 4 0 a d 0x0D
  have hf := wA_f 4 0 a d 0x0D
  have hm := wA_major 4 0 a d 0x0D
  unfold candA
  generalize wA 4 0 a d 0x0D = w at *
  subst hd ha
  rw [hm, hf]; rfl
theorem rent (st : Bool) (t : Tier) (d : Reg) (a : Reg) (b : Reg) : Statement (.rent st t d a b) := by
  intro _
  show candidate [wA (rentF st (BitVec.ofNat 5 t.code)) b a d 0x0E] = _
  rw [cand_A _ (wA_class ..)]
  have hd := wA_d (rentF st (BitVec.ofNat 5 t.code)) b a d 0x0E
  have ha := wA_a (rentF st (BitVec.ofNat 5 t.code)) b a d 0x0E
  have hb := wA_b (rentF st (BitVec.ofNat 5 t.code)) b a d 0x0E
  have hf := wA_f (rentF st (BitVec.ofNat 5 t.code)) b a d 0x0E
  have hm := wA_major (rentF st (BitVec.ofNat 5 t.code)) b a d 0x0E
  have hp := wA_part (rentF st (BitVec.ofNat 5 t.code)) b a d 0x0E 31 1 (by decide)
  have hq := wA_part (rentF st (BitVec.ofNat 5 t.code)) b a d 0x0E 26 5 (by decide)
  unfold candA
  generalize wA (rentF st (BitVec.ofNat 5 t.code)) b a d 0x0E = w at *
  subst hd ha hb
  rw [hm, hp, hq]; cases st <;> cases t <;> rfl
theorem renew (st : Bool) (d : Reg) (a : Reg) (b : Reg) : Statement (.renew st d a b) := by
  intro _
  show candidate [wA (rentF st 5) b a d 0x0E] = _
  rw [cand_A _ (wA_class ..)]
  have hd := wA_d (rentF st 5) b a d 0x0E
  have ha := wA_a (rentF st 5) b a d 0x0E
  have hb := wA_b (rentF st 5) b a d 0x0E
  have hf := wA_f (rentF st 5) b a d 0x0E
  have hm := wA_major (rentF st 5) b a d 0x0E
  have hp := wA_part (rentF st 5) b a d 0x0E 31 1 (by decide)
  have hq := wA_part (rentF st 5) b a d 0x0E 26 5 (by decide)
  unfold candA
  generalize wA (rentF st 5) b a d 0x0E = w at *
  subst hd ha hb
  rw [hm, hp, hq]; cases st <;> rfl
theorem prepay (st : Bool) (d : Reg) (a : Reg) (b : Reg) : Statement (.prepay st d a b) := by
  intro _
  show candidate [wA (rentF st 6) b a d 0x0E] = _
  rw [cand_A _ (wA_class ..)]
  have hd := wA_d (rentF st 6) b a d 0x0E
  have ha := wA_a (rentF st 6) b a d 0x0E
  have hb := wA_b (rentF st 6) b a d 0x0E
  have hf := wA_f (rentF st 6) b a d 0x0E
  have hm := wA_major (rentF st 6) b a d 0x0E
  have hp := wA_part (rentF st 6) b a d 0x0E 31 1 (by decide)
  have hq := wA_part (rentF st 6) b a d 0x0E 26 5 (by decide)
  unfold candA
  generalize wA (rentF st 6) b a d 0x0E = w at *
  subst hd ha hb
  rw [hm, hp, hq]; cases st <;> rfl
theorem sublet (st : Bool) (d : Reg) (a : Reg) (b : Reg) : Statement (.sublet st d a b) := by
  intro _
  show candidate [wA (rentF st 7) b a d 0x0E] = _
  rw [cand_A _ (wA_class ..)]
  have hd := wA_d (rentF st 7) b a d 0x0E
  have ha := wA_a (rentF st 7) b a d 0x0E
  have hb := wA_b (rentF st 7) b a d 0x0E
  have hf := wA_f (rentF st 7) b a d 0x0E
  have hm := wA_major (rentF st 7) b a d 0x0E
  have hp := wA_part (rentF st 7) b a d 0x0E 31 1 (by decide)
  have hq := wA_part (rentF st 7) b a d 0x0E 26 5 (by decide)
  unfold candA
  generalize wA (rentF st 7) b a d 0x0E = w at *
  subst hd ha hb
  rw [hm, hp, hq]; cases st <;> rfl
theorem unsublet (st : Bool) (d : Reg) (a : Reg) : Statement (.unsublet st d a) := by
  intro _
  show candidate [wA (rentF st 8) 0 a d 0x0E] = _
  rw [cand_A _ (wA_class ..)]
  have hd := wA_d (rentF st 8) 0 a d 0x0E
  have ha := wA_a (rentF st 8) 0 a d 0x0E
  have hb := wA_b (rentF st 8) 0 a d 0x0E
  have hf := wA_f (rentF st 8) 0 a d 0x0E
  have hm := wA_major (rentF st 8) 0 a d 0x0E
  have hp := wA_part (rentF st 8) 0 a d 0x0E 31 1 (by decide)
  have hq := wA_part (rentF st 8) 0 a d 0x0E 26 5 (by decide)
  unfold candA
  generalize wA (rentF st 8) 0 a d 0x0E = w at *
  subst hd ha
  rw [hm, hp, hq]; cases st <;> rfl
theorem release (st : Bool) (d : Reg) (a : Reg) : Statement (.release st d a) := by
  intro _
  show candidate [wA (rentF st 9) 0 a d 0x0E] = _
  rw [cand_A _ (wA_class ..)]
  have hd := wA_d (rentF st 9) 0 a d 0x0E
  have ha := wA_a (rentF st 9) 0 a d 0x0E
  have hb := wA_b (rentF st 9) 0 a d 0x0E
  have hf := wA_f (rentF st 9) 0 a d 0x0E
  have hm := wA_major (rentF st 9) 0 a d 0x0E
  have hp := wA_part (rentF st 9) 0 a d 0x0E 31 1 (by decide)
  have hq := wA_part (rentF st 9) 0 a d 0x0E 26 5 (by decide)
  unfold candA
  generalize wA (rentF st 9) 0 a d 0x0E = w at *
  subst hd ha
  rw [hm, hp, hq]; cases st <;> rfl
theorem rquery (st : Bool) (d : Reg) (a : Reg) : Statement (.rquery st d a) := by
  intro _
  show candidate [wA (rentF st 10) 0 a d 0x0E] = _
  rw [cand_A _ (wA_class ..)]
  have hd := wA_d (rentF st 10) 0 a d 0x0E
  have ha := wA_a (rentF st 10) 0 a d 0x0E
  have hb := wA_b (rentF st 10) 0 a d 0x0E
  have hf := wA_f (rentF st 10) 0 a d 0x0E
  have hm := wA_major (rentF st 10) 0 a d 0x0E
  have hp := wA_part (rentF st 10) 0 a d 0x0E 31 1 (by decide)
  have hq := wA_part (rentF st 10) 0 a d 0x0E 26 5 (by decide)
  unfold candA
  generalize wA (rentF st 10) 0 a d 0x0E = w at *
  subst hd ha
  rw [hm, hp, hq]; cases st <;> rfl
theorem viewset (n : BitVec 4) (a : Reg) : Statement (.viewset n a) := by
  intro _
  show candidate [wA ((0 : BitVec 2) ++ n) 0 a 0 0x10] = _
  rw [cand_A _ (wA_class ..)]
  have hd := wA_d ((0 : BitVec 2) ++ n) 0 a 0 0x10
  have ha := wA_a ((0 : BitVec 2) ++ n) 0 a 0 0x10
  have hb := wA_b ((0 : BitVec 2) ++ n) 0 a 0 0x10
  have hf := wA_f ((0 : BitVec 2) ++ n) 0 a 0 0x10
  have hm := wA_major ((0 : BitVec 2) ++ n) 0 a 0 0x10
  have hp := wA_part ((0 : BitVec 2) ++ n) 0 a 0 0x10 26 4 (by decide)
  have hq := wA_part ((0 : BitVec 2) ++ n) 0 a 0 0x10 30 1 (by decide)
  have h : ((0 : BitVec 2) ++ n).extractLsb' 0 4 = n := by
    simp (disch := omega) only [extract_low, extract_whole]
  have k : ((0 : BitVec 2) ++ n).extractLsb' 4 1 = 0 := by
    simp (disch := omega) only [extract_high]; rfl
  replace hp := hp.trans h
  replace hq := hq.trans k
  unfold candA
  generalize wA ((0 : BitVec 2) ++ n) 0 a 0 0x10 = w at *
  subst ha hp
  rw [hm]
  show (if (fld w 30 1 == 0) = true then some (Instr.viewset (fld w 26 4) (fA w)) else some (Instr.gset (fld w 26 4) (fA w))) = _
  rw [hq]; rfl
theorem gset (n : BitVec 4) (a : Reg) : Statement (.gset n a) := by
  intro _
  show candidate [wA ((1 : BitVec 2) ++ n) 0 a 0 0x10] = _
  rw [cand_A _ (wA_class ..)]
  have hd := wA_d ((1 : BitVec 2) ++ n) 0 a 0 0x10
  have ha := wA_a ((1 : BitVec 2) ++ n) 0 a 0 0x10
  have hb := wA_b ((1 : BitVec 2) ++ n) 0 a 0 0x10
  have hf := wA_f ((1 : BitVec 2) ++ n) 0 a 0 0x10
  have hm := wA_major ((1 : BitVec 2) ++ n) 0 a 0 0x10
  have hp := wA_part ((1 : BitVec 2) ++ n) 0 a 0 0x10 26 4 (by decide)
  have hq := wA_part ((1 : BitVec 2) ++ n) 0 a 0 0x10 30 1 (by decide)
  have h : ((1 : BitVec 2) ++ n).extractLsb' 0 4 = n := by
    simp (disch := omega) only [extract_low, extract_whole]
  have k : ((1 : BitVec 2) ++ n).extractLsb' 4 1 = 1 := by
    simp (disch := omega) only [extract_high]; rfl
  replace hp := hp.trans h
  replace hq := hq.trans k
  unfold candA
  generalize wA ((1 : BitVec 2) ++ n) 0 a 0 0x10 = w at *
  subst ha hp
  rw [hm]
  show (if (fld w 30 1 == 0) = true then some (Instr.viewset (fld w 26 4) (fA w)) else some (Instr.gset (fld w 26 4) (fA w))) = _
  rw [hq]; rfl
theorem addi (d : Reg) (a : Reg) (imm : BitVec 12) : Statement (.addi d a imm) := by
  intro _
  show candidate [wB imm a d 0x1] = _
  rw [cand_B _ (wB_class ..)]
  have hd := wB_d imm a d 0x1
  have ha := wB_a imm a d 0x1
  have hi := wB_imm imm a d 0x1
  have hm := wB_major imm a d 0x1
  unfold candB
  generalize wB imm a d 0x1 = w at *
  subst hd ha hi
  rw [hm]; rfl
theorem andi (d : Reg) (a : Reg) (imm : BitVec 12) : Statement (.andi d a imm) := by
  intro _
  show candidate [wB imm a d 0x2] = _
  rw [cand_B _ (wB_class ..)]
  have hd := wB_d imm a d 0x2
  have ha := wB_a imm a d 0x2
  have hi := wB_imm imm a d 0x2
  have hm := wB_major imm a d 0x2
  unfold candB
  generalize wB imm a d 0x2 = w at *
  subst hd ha hi
  rw [hm]; rfl
theorem ori (d : Reg) (a : Reg) (imm : BitVec 12) : Statement (.ori d a imm) := by
  intro _
  show candidate [wB imm a d 0x3] = _
  rw [cand_B _ (wB_class ..)]
  have hd := wB_d imm a d 0x3
  have ha := wB_a imm a d 0x3
  have hi := wB_imm imm a d 0x3
  have hm := wB_major imm a d 0x3
  unfold candB
  generalize wB imm a d 0x3 = w at *
  subst hd ha hi
  rw [hm]; rfl
theorem xori (d : Reg) (a : Reg) (imm : BitVec 12) : Statement (.xori d a imm) := by
  intro _
  show candidate [wB imm a d 0x4] = _
  rw [cand_B _ (wB_class ..)]
  have hd := wB_d imm a d 0x4
  have ha := wB_a imm a d 0x4
  have hi := wB_imm imm a d 0x4
  have hm := wB_major imm a d 0x4
  unfold candB
  generalize wB imm a d 0x4 = w at *
  subst hd ha hi
  rw [hm]; rfl
theorem slli (d : Reg) (a : Reg) (imm : BitVec 6) : Statement (.slli d a imm) := by
  intro _
  show candidate [wB ((0 : BitVec 6) ++ imm) a d 0x5] = _
  rw [cand_B _ (wB_class ..)]
  have hd := wB_d ((0 : BitVec 6) ++ imm) a d 0x5
  have ha := wB_a ((0 : BitVec 6) ++ imm) a d 0x5
  have hi := wB_imm ((0 : BitVec 6) ++ imm) a d 0x5
  have hm := wB_major ((0 : BitVec 6) ++ imm) a d 0x5
  have hp := (wB_part ((0 : BitVec 6) ++ imm) a d 0x5 20 6 (by decide)).trans (show ((0 : BitVec 6) ++ imm).extractLsb' 0 6 = imm by
    simp (disch := omega) only [extract_low, extract_high, extract_whole])
  unfold candB
  generalize wB ((0 : BitVec 6) ++ imm) a d 0x5 = w at *
  subst hd ha hp
  rw [hm]; rfl
theorem srli (d : Reg) (a : Reg) (imm : BitVec 6) : Statement (.srli d a imm) := by
  intro _
  show candidate [wB ((0 : BitVec 6) ++ imm) a d 0x6] = _
  rw [cand_B _ (wB_class ..)]
  have hd := wB_d ((0 : BitVec 6) ++ imm) a d 0x6
  have ha := wB_a ((0 : BitVec 6) ++ imm) a d 0x6
  have hi := wB_imm ((0 : BitVec 6) ++ imm) a d 0x6
  have hm := wB_major ((0 : BitVec 6) ++ imm) a d 0x6
  have hp := (wB_part ((0 : BitVec 6) ++ imm) a d 0x6 20 6 (by decide)).trans (show ((0 : BitVec 6) ++ imm).extractLsb' 0 6 = imm by
    simp (disch := omega) only [extract_low, extract_high, extract_whole])
  unfold candB
  generalize wB ((0 : BitVec 6) ++ imm) a d 0x6 = w at *
  subst hd ha hp
  rw [hm]; rfl
theorem srai (d : Reg) (a : Reg) (imm : BitVec 6) : Statement (.srai d a imm) := by
  intro _
  show candidate [wB ((0 : BitVec 6) ++ imm) a d 0x7] = _
  rw [cand_B _ (wB_class ..)]
  have hd := wB_d ((0 : BitVec 6) ++ imm) a d 0x7
  have ha := wB_a ((0 : BitVec 6) ++ imm) a d 0x7
  have hi := wB_imm ((0 : BitVec 6) ++ imm) a d 0x7
  have hm := wB_major ((0 : BitVec 6) ++ imm) a d 0x7
  have hp := (wB_part ((0 : BitVec 6) ++ imm) a d 0x7 20 6 (by decide)).trans (show ((0 : BitVec 6) ++ imm).extractLsb' 0 6 = imm by
    simp (disch := omega) only [extract_low, extract_high, extract_whole])
  unfold candB
  generalize wB ((0 : BitVec 6) ++ imm) a d 0x7 = w at *
  subst hd ha hp
  rw [hm]; rfl
theorem slti (d : Reg) (a : Reg) (imm : BitVec 12) : Statement (.slti d a imm) := by
  intro _
  show candidate [wB imm a d 0x8] = _
  rw [cand_B _ (wB_class ..)]
  have hd := wB_d imm a d 0x8
  have ha := wB_a imm a d 0x8
  have hi := wB_imm imm a d 0x8
  have hm := wB_major imm a d 0x8
  unfold candB
  generalize wB imm a d 0x8 = w at *
  subst hd ha hi
  rw [hm]; rfl
theorem sltiu (d : Reg) (a : Reg) (imm : BitVec 12) : Statement (.sltiu d a imm) := by
  intro _
  show candidate [wB imm a d 0x9] = _
  rw [cand_B _ (wB_class ..)]
  have hd := wB_d imm a d 0x9
  have ha := wB_a imm a d 0x9
  have hi := wB_imm imm a d 0x9
  have hm := wB_major imm a d 0x9
  unfold candB
  generalize wB imm a d 0x9 = w at *
  subst hd ha hi
  rw [hm]; rfl
theorem bfx (d : Reg) (a : Reg) (pos : BitVec 6) (len1 : BitVec 6) : Statement (.bfx d a pos len1) := by
  intro _
  show candidate [wB (len1 ++ pos) a d 0xa] = _
  rw [cand_B _ (wB_class ..)]
  have hd := wB_d (len1 ++ pos) a d 0xa
  have ha := wB_a (len1 ++ pos) a d 0xa
  have hi := wB_imm (len1 ++ pos) a d 0xa
  have hm := wB_major (len1 ++ pos) a d 0xa
  have hp := (wB_part (len1 ++ pos) a d 0xa 20 6 (by decide)).trans (show (len1 ++ pos).extractLsb' 0 6 = pos by
    simp (disch := omega) only [extract_low, extract_high, extract_whole])
  have hq := (wB_part (len1 ++ pos) a d 0xa 26 6 (by decide)).trans (show (len1 ++ pos).extractLsb' 6 6 = len1 by
    simp (disch := omega) only [extract_low, extract_high, extract_whole])
  unfold candB
  generalize wB (len1 ++ pos) a d 0xa = w at *
  subst hd ha hp hq
  rw [hm]; rfl
theorem bfxs (d : Reg) (a : Reg) (pos : BitVec 6) (len1 : BitVec 6) : Statement (.bfxs d a pos len1) := by
  intro _
  show candidate [wB (len1 ++ pos) a d 0xb] = _
  rw [cand_B _ (wB_class ..)]
  have hd := wB_d (len1 ++ pos) a d 0xb
  have ha := wB_a (len1 ++ pos) a d 0xb
  have hi := wB_imm (len1 ++ pos) a d 0xb
  have hm := wB_major (len1 ++ pos) a d 0xb
  have hp := (wB_part (len1 ++ pos) a d 0xb 20 6 (by decide)).trans (show (len1 ++ pos).extractLsb' 0 6 = pos by
    simp (disch := omega) only [extract_low, extract_high, extract_whole])
  have hq := (wB_part (len1 ++ pos) a d 0xb 26 6 (by decide)).trans (show (len1 ++ pos).extractLsb' 6 6 = len1 by
    simp (disch := omega) only [extract_low, extract_high, extract_whole])
  unfold candB
  generalize wB (len1 ++ pos) a d 0xb = w at *
  subst hd ha hp hq
  rw [hm]; rfl
theorem bfi (d : Reg) (a : Reg) (pos : BitVec 6) (len1 : BitVec 6) : Statement (.bfi d a pos len1) := by
  intro _
  show candidate [wB (len1 ++ pos) a d 0xc] = _
  rw [cand_B _ (wB_class ..)]
  have hd := wB_d (len1 ++ pos) a d 0xc
  have ha := wB_a (len1 ++ pos) a d 0xc
  have hi := wB_imm (len1 ++ pos) a d 0xc
  have hm := wB_major (len1 ++ pos) a d 0xc
  have hp := (wB_part (len1 ++ pos) a d 0xc 20 6 (by decide)).trans (show (len1 ++ pos).extractLsb' 0 6 = pos by
    simp (disch := omega) only [extract_low, extract_high, extract_whole])
  have hq := (wB_part (len1 ++ pos) a d 0xc 26 6 (by decide)).trans (show (len1 ++ pos).extractLsb' 6 6 = len1 by
    simp (disch := omega) only [extract_low, extract_high, extract_whole])
  unfold candB
  generalize wB (len1 ++ pos) a d 0xc = w at *
  subst hd ha hp hq
  rw [hm]; rfl
theorem ldN32 (d : Reg) (a : Reg) (imm : BitVec 12) : Statement (.ldN32 d a imm) := by
  intro _
  show candidate [wB imm a d 0x10] = _
  rw [cand_B _ (wB_class ..)]
  have hd := wB_d imm a d 0x10
  have ha := wB_a imm a d 0x10
  have hi := wB_imm imm a d 0x10
  have hm := wB_major imm a d 0x10
  unfold candB
  generalize wB imm a d 0x10 = w at *
  subst hd ha hi
  rw [hm]; rfl
theorem ldI32 (d : Reg) (a : Reg) (imm : BitVec 12) : Statement (.ldI32 d a imm) := by
  intro _
  show candidate [wB imm a d 0x11] = _
  rw [cand_B _ (wB_class ..)]
  have hd := wB_d imm a d 0x11
  have ha := wB_a imm a d 0x11
  have hi := wB_imm imm a d 0x11
  have hm := wB_major imm a d 0x11
  unfold candB
  generalize wB imm a d 0x11 = w at *
  subst hd ha hi
  rw [hm]; rfl
theorem ldN64 (d : Reg) (a : Reg) (imm : BitVec 12) : Statement (.ldN64 d a imm) := by
  intro _
  show candidate [wB imm a d 0x12] = _
  rw [cand_B _ (wB_class ..)]
  have hd := wB_d imm a d 0x12
  have ha := wB_a imm a d 0x12
  have hi := wB_imm imm a d 0x12
  have hm := wB_major imm a d 0x12
  unfold candB
  generalize wB imm a d 0x12 = w at *
  subst hd ha hi
  rw [hm]; rfl
theorem ldN16 (d : Reg) (a : Reg) (imm : BitVec 12) : Statement (.ldN16 d a imm) := by
  intro _
  show candidate [wB imm a d 0x13] = _
  rw [cand_B _ (wB_class ..)]
  have hd := wB_d imm a d 0x13
  have ha := wB_a imm a d 0x13
  have hi := wB_imm imm a d 0x13
  have hm := wB_major imm a d 0x13
  unfold candB
  generalize wB imm a d 0x13 = w at *
  subst hd ha hi
  rw [hm]; rfl
theorem ldI16 (d : Reg) (a : Reg) (imm : BitVec 12) : Statement (.ldI16 d a imm) := by
  intro _
  show candidate [wB imm a d 0x14] = _
  rw [cand_B _ (wB_class ..)]
  have hd := wB_d imm a d 0x14
  have ha := wB_a imm a d 0x14
  have hi := wB_imm imm a d 0x14
  have hm := wB_major imm a d 0x14
  unfold candB
  generalize wB imm a d 0x14 = w at *
  subst hd ha hi
  rw [hm]; rfl
theorem ldN8 (d : Reg) (a : Reg) (imm : BitVec 12) : Statement (.ldN8 d a imm) := by
  intro _
  show candidate [wB imm a d 0x15] = _
  rw [cand_B _ (wB_class ..)]
  have hd := wB_d imm a d 0x15
  have ha := wB_a imm a d 0x15
  have hi := wB_imm imm a d 0x15
  have hm := wB_major imm a d 0x15
  unfold candB
  generalize wB imm a d 0x15 = w at *
  subst hd ha hi
  rw [hm]; rfl
theorem ldI8 (d : Reg) (a : Reg) (imm : BitVec 12) : Statement (.ldI8 d a imm) := by
  intro _
  show candidate [wB imm a d 0x16] = _
  rw [cand_B _ (wB_class ..)]
  have hd := wB_d imm a d 0x16
  have ha := wB_a imm a d 0x16
  have hi := wB_imm imm a d 0x16
  have hm := wB_major imm a d 0x16
  unfold candB
  generalize wB imm a d 0x16 = w at *
  subst hd ha hi
  rw [hm]; rfl
theorem stN8 (d : Reg) (a : Reg) (imm : BitVec 12) : Statement (.stN8 d a imm) := by
  intro _
  show candidate [wB imm a d 0x18] = _
  rw [cand_B _ (wB_class ..)]
  have hd := wB_d imm a d 0x18
  have ha := wB_a imm a d 0x18
  have hi := wB_imm imm a d 0x18
  have hm := wB_major imm a d 0x18
  unfold candB
  generalize wB imm a d 0x18 = w at *
  subst hd ha hi
  rw [hm]; rfl
theorem stN16 (d : Reg) (a : Reg) (imm : BitVec 12) : Statement (.stN16 d a imm) := by
  intro _
  show candidate [wB imm a d 0x19] = _
  rw [cand_B _ (wB_class ..)]
  have hd := wB_d imm a d 0x19
  have ha := wB_a imm a d 0x19
  have hi := wB_imm imm a d 0x19
  have hm := wB_major imm a d 0x19
  unfold candB
  generalize wB imm a d 0x19 = w at *
  subst hd ha hi
  rw [hm]; rfl
theorem stN32 (d : Reg) (a : Reg) (imm : BitVec 12) : Statement (.stN32 d a imm) := by
  intro _
  show candidate [wB imm a d 0x1a] = _
  rw [cand_B _ (wB_class ..)]
  have hd := wB_d imm a d 0x1a
  have ha := wB_a imm a d 0x1a
  have hi := wB_imm imm a d 0x1a
  have hm := wB_major imm a d 0x1a
  unfold candB
  generalize wB imm a d 0x1a = w at *
  subst hd ha hi
  rw [hm]; rfl
theorem stN64 (d : Reg) (a : Reg) (imm : BitVec 12) : Statement (.stN64 d a imm) := by
  intro _
  show candidate [wB imm a d 0x1b] = _
  rw [cand_B _ (wB_class ..)]
  have hd := wB_d imm a d 0x1b
  have ha := wB_a imm a d 0x1b
  have hi := wB_imm imm a d 0x1b
  have hm := wB_major imm a d 0x1b
  unfold candB
  generalize wB imm a d 0x1b = w at *
  subst hd ha hi
  rw [hm]; rfl
theorem pref (a : Reg) (imm : BitVec 12) : Statement (.pref a imm) := by
  intro _
  show candidate [wB imm a 0 0x1C] = _
  rw [cand_B _ (wB_class ..)]
  have hd := wB_d imm a 0 0x1C
  have ha := wB_a imm a 0 0x1C
  have hi := wB_imm imm a 0 0x1C
  have hm := wB_major imm a 0 0x1C
  unfold candB
  generalize wB imm a 0 0x1C = w at *
  subst ha hi
  rw [hm]; rfl
theorem ldg (d : Reg) (g : BitVec 4) (i : BitVec 11) : Statement (.ldg d g i) := by
  intro _
  show candidate [wB ((0 : BitVec 1) ++ i) ((0 : BitVec 2) ++ g) d 0x1D] = _
  rw [cand_B _ (wB_class ..)]
  have hd := wB_d ((0 : BitVec 1) ++ i) ((0 : BitVec 2) ++ g) d 0x1D
  have ha := wB_a ((0 : BitVec 1) ++ i) ((0 : BitVec 2) ++ g) d 0x1D
  have hi := wB_imm ((0 : BitVec 1) ++ i) ((0 : BitVec 2) ++ g) d 0x1D
  have hm := wB_major ((0 : BitVec 1) ++ i) ((0 : BitVec 2) ++ g) d 0x1D
  have hp := (wB_part ((0 : BitVec 1) ++ i) ((0 : BitVec 2) ++ g) d 0x1D 20 11 (by decide)).trans (show ((0 : BitVec 1) ++ i).extractLsb' 0 11 = i by
    simp (disch := omega) only [extract_low, extract_high, extract_whole])
  have hq := (wB_low ((0 : BitVec 1) ++ i) ((0 : BitVec 2) ++ g) d 0x1D).trans (show ((0 : BitVec 2) ++ g).extractLsb' 0 4 = g by
    simp (disch := omega) only [extract_low, extract_whole])
  unfold candB
  generalize wB ((0 : BitVec 1) ++ i) ((0 : BitVec 2) ++ g) d 0x1D = w at *
  subst hd hp hq
  rw [hm]; rfl
theorem stg (d : Reg) (g : BitVec 4) (i : BitVec 11) : Statement (.stg d g i) := by
  intro _
  show candidate [wB ((0 : BitVec 1) ++ i) ((0 : BitVec 2) ++ g) d 0x1E] = _
  rw [cand_B _ (wB_class ..)]
  have hd := wB_d ((0 : BitVec 1) ++ i) ((0 : BitVec 2) ++ g) d 0x1E
  have ha := wB_a ((0 : BitVec 1) ++ i) ((0 : BitVec 2) ++ g) d 0x1E
  have hi := wB_imm ((0 : BitVec 1) ++ i) ((0 : BitVec 2) ++ g) d 0x1E
  have hm := wB_major ((0 : BitVec 1) ++ i) ((0 : BitVec 2) ++ g) d 0x1E
  have hp := (wB_part ((0 : BitVec 1) ++ i) ((0 : BitVec 2) ++ g) d 0x1E 20 11 (by decide)).trans (show ((0 : BitVec 1) ++ i).extractLsb' 0 11 = i by
    simp (disch := omega) only [extract_low, extract_high, extract_whole])
  have hq := (wB_low ((0 : BitVec 1) ++ i) ((0 : BitVec 2) ++ g) d 0x1E).trans (show ((0 : BitVec 2) ++ g).extractLsb' 0 4 = g by
    simp (disch := omega) only [extract_low, extract_whole])
  unfold candB
  generalize wB ((0 : BitVec 1) ++ i) ((0 : BitVec 2) ++ g) d 0x1E = w at *
  subst hd hp hq
  rw [hm]; rfl
theorem br (k : Cond) (a : Reg) (off : BitVec 12) : Statement (.br k a off) := by
  intro _
  show candidate [wB off a (BitVec.ofNat 6 k.code) 0x20] = _
  rw [cand_B _ (wB_class ..)]
  have hd := wB_d off a (BitVec.ofNat 6 k.code) 0x20
  have ha := wB_a off a (BitVec.ofNat 6 k.code) 0x20
  have hi := wB_imm off a (BitVec.ofNat 6 k.code) 0x20
  have hm := wB_major off a (BitVec.ofNat 6 k.code) 0x20
  unfold candB
  generalize wB off a (BitVec.ofNat 6 k.code) 0x20 = w at *
  subst ha hi
  rw [hm, hd]; cases k <;> rfl
theorem j (off : BitVec 12) : Statement (.j off) := by
  intro _
  show candidate [wB off 0 0 0x21] = _
  rw [cand_B _ (wB_class ..)]
  have hd := wB_d off 0 0 0x21
  have ha := wB_a off 0 0 0x21
  have hi := wB_imm off 0 0 0x21
  have hm := wB_major off 0 0 0x21
  unfold candB
  generalize wB off 0 0 0x21 = w at *
  subst hi
  rw [hm]; rfl
theorem jl (off : BitVec 12) : Statement (.jl off) := by
  intro _
  show candidate [wB off 0 0 0x22] = _
  rw [cand_B _ (wB_class ..)]
  have hd := wB_d off 0 0 0x22
  have ha := wB_a off 0 0 0x22
  have hi := wB_imm off 0 0 0x22
  have hm := wB_major off 0 0 0x22
  unfold candB
  generalize wB off 0 0 0x22 = w at *
  subst hi
  rw [hm]; rfl
theorem loopr (off : BitVec 12) : Statement (.loopr off) := by
  intro _
  show candidate [wB off 0 0 0x23] = _
  rw [cand_B _ (wB_class ..)]
  have hd := wB_d off 0 0 0x23
  have ha := wB_a off 0 0 0x23
  have hi := wB_imm off 0 0 0x23
  have hm := wB_major off 0 0 0x23
  unfold candB
  generalize wB off 0 0 0x23 = w at *
  subst hi
  rw [hm]; rfl
theorem trap (n : BitVec 11) : Statement (.trap n) := by
  intro _
  show candidate [wB ((0 : BitVec 1) ++ n) 0 0 0x28] = _
  rw [cand_B _ (wB_class ..)]
  have hd := wB_d ((0 : BitVec 1) ++ n) 0 0 0x28
  have ha := wB_a ((0 : BitVec 1) ++ n) 0 0 0x28
  have hi := wB_imm ((0 : BitVec 1) ++ n) 0 0 0x28
  have hm := wB_major ((0 : BitVec 1) ++ n) 0 0 0x28
  have hp := (wB_part ((0 : BitVec 1) ++ n) 0 0 0x28 20 11 (by decide)).trans (show ((0 : BitVec 1) ++ n).extractLsb' 0 11 = n by
    simp (disch := omega) only [extract_low, extract_high, extract_whole])
  unfold candB
  generalize wB ((0 : BitVec 1) ++ n) 0 0 0x28 = w at *
  subst hp
  rw [hm]; rfl
theorem mvs (d : Reg) (n : SysName) : Statement (.mvs d n) := by
  intro _
  show candidate [wB (BitVec.ofNat 12 n.code) 0 d 0x29] = _
  rw [cand_B _ (wB_class ..)]
  have hd := wB_d (BitVec.ofNat 12 n.code) 0 d 0x29
  have ha := wB_a (BitVec.ofNat 12 n.code) 0 d 0x29
  have hi := wB_imm (BitVec.ofNat 12 n.code) 0 d 0x29
  have hm := wB_major (BitVec.ofNat 12 n.code) 0 d 0x29
  unfold candB
  generalize wB (BitVec.ofNat 12 n.code) 0 d 0x29 = w at *
  subst hd
  rw [hm, hi]; cases n <;> rfl
theorem msv (n : SysName) (a : Reg) : Statement (.msv n a) := by
  intro _
  show candidate [wB (BitVec.ofNat 12 n.code) a 0 0x2A] = _
  rw [cand_B _ (wB_class ..)]
  have hd := wB_d (BitVec.ofNat 12 n.code) a 0 0x2A
  have ha := wB_a (BitVec.ofNat 12 n.code) a 0 0x2A
  have hi := wB_imm (BitVec.ofNat 12 n.code) a 0 0x2A
  have hm := wB_major (BitVec.ofNat 12 n.code) a 0 0x2A
  unfold candB
  generalize wB (BitVec.ofNat 12 n.code) a 0 0x2A = w at *
  subst ha
  rw [hm, hi]; cases n <;> rfl
theorem defer (n : BitVec 9) : Statement (.defer n) := by
  intro _
  show candidate [wB ((0 : BitVec 3) ++ n) 0 0 0x2B] = _
  rw [cand_B _ (wB_class ..)]
  have hd := wB_d ((0 : BitVec 3) ++ n) 0 0 0x2B
  have ha := wB_a ((0 : BitVec 3) ++ n) 0 0 0x2B
  have hi := wB_imm ((0 : BitVec 3) ++ n) 0 0 0x2B
  have hm := wB_major ((0 : BitVec 3) ++ n) 0 0 0x2B
  have hp := (wB_part ((0 : BitVec 3) ++ n) 0 0 0x2B 20 9 (by decide)).trans (show ((0 : BitVec 3) ++ n).extractLsb' 0 9 = n by
    simp (disch := omega) only [extract_low, extract_high, extract_whole])
  unfold candB
  generalize wB ((0 : BitVec 3) ++ n) 0 0 0x2B = w at *
  subst hp
  rw [hm]; rfl
theorem nop (bits : BitVec 24) : Statement (.nop bits) := by
  intro _
  have hb : fld (bits ++ (0x3F : BitVec 6) ++ (1 : BitVec 2)) 8 24 = bits := by
    show (bits ++ (0x3F : BitVec 6) ++ (1 : BitVec 2)).extractLsb' 8 24 = bits
    simp (disch := omega) only [extract_low, extract_high, extract_whole]
  have hm : fld (bits ++ (0x3F : BitVec 6) ++ (1 : BitVec 2)) 2 6 = 0x3F := by
    show (bits ++ (0x3F : BitVec 6) ++ (1 : BitVec 2)).extractLsb' 2 6 = 0x3F
    simp (disch := omega) only [extract_low, extract_high, extract_whole]
  have hc : fld (bits ++ (0x3F : BitVec 6) ++ (1 : BitVec 2)) 0 2 = 1 := by
    show (bits ++ (0x3F : BitVec 6) ++ (1 : BitVec 2)).extractLsb' 0 2 = 1
    simp (disch := omega) only [extract_low, extract_whole]
  show candidate [bits ++ (0x3F : BitVec 6) ++ (1 : BitVec 2)] = _
  rw [cand_B _ hc]
  unfold candB
  rw [hm]
  exact congrArg (fun x => some (Instr.nop x)) hb
theorem longTwin (op : TwinOp) (d : Reg) (a : Reg) (imm : BitVec 32) : Statement (.longTwin op d a imm) := by
  intro _
  show candidate [wL (BitVec.ofNat 12 op.code) a d 0x20, imm] = _
  rw [cand_VLP _ _ (wL_class ..)]
  have hd := wL_d (BitVec.ofNat 12 op.code) a d 0x20
  have ha := wL_a (BitVec.ofNat 12 op.code) a d 0x20
  have hf := wL_f (BitVec.ofNat 12 op.code) a d 0x20
  have hm := wL_major (BitVec.ofNat 12 op.code) a d 0x20
  unfold candVLP
  generalize wL (BitVec.ofNat 12 op.code) a d 0x20 = w at *
  subst hd ha
  rw [hm, hf]; cases op <;> rfl
theorem lda (t : IntTy) (sc : Scope) (d : Reg) (a : Reg) (imm : BitVec 32) : Statement (.lda t sc d a imm) := by
  intro _
  have hd := wO_d 0 sc t.code a d
  have ha := wO_a 0 sc t.code a d
  have ht := wO_ty 0 sc t.code a d
  have hs := wO_sc 0 sc t.code a d
  have ho := wO_op 0 sc t.code a d
  have hm := wO_major 0 sc t.code a d
  show candidate [wO 0 sc t.code a d, imm] = _
  rw [cand_VLP _ _ (wO_class ..)]
  unfold candVLP
  generalize wO 0 sc t.code a d = w at *
  subst hd ha
  rw [hm, hs, ho, ht]; cases sc <;> cases t <;> rfl
theorem strel (t : IntTy) (sc : Scope) (d : Reg) (a : Reg) (imm : BitVec 32) : Statement (.strel t sc d a imm) := by
  intro _
  have hd := wO_d 1 sc t.code a d
  have ha := wO_a 1 sc t.code a d
  have ht := wO_ty 1 sc t.code a d
  have hs := wO_sc 1 sc t.code a d
  have ho := wO_op 1 sc t.code a d
  have hm := wO_major 1 sc t.code a d
  show candidate [wO 1 sc t.code a d, imm] = _
  rw [cand_VLP _ _ (wO_class ..)]
  unfold candVLP
  generalize wO 1 sc t.code a d = w at *
  subst hd ha
  rw [hm, hs, ho, ht]; cases sc <;> cases t <;> rfl
theorem amoAdd (t : AmoTy) (sc : Scope) (d : Reg) (a : Reg) (b : Reg) : Statement (.amoAdd t sc d a b) := by
  intro _
  have hd := wO_d 2 sc t.code a d
  have ha := wO_a 2 sc t.code a d
  have ht := wO_ty 2 sc t.code a d
  have hs := wO_sc 2 sc t.code a d
  have ho := wO_op 2 sc t.code a d
  have hm := wO_major 2 sc t.code a d
  show candidate [wO 2 sc t.code a d, (0 : BitVec 26) ++ b] = _
  rw [cand_VLP _ _ (wO_class ..)]
  have hp := low6 0 b
  generalize hv : ((0 : BitVec 26) ++ b : IWord) = v at *
  unfold candVLP
  generalize wO 2 sc t.code a d = w at *
  subst hd ha hp
  rw [hm, hs, ho, ht]; cases sc <;> cases t <;> rfl
theorem amoAnd (t : AmoTy) (sc : Scope) (d : Reg) (a : Reg) (b : Reg) : Statement (.amoAnd t sc d a b) := by
  intro _
  have hd := wO_d 3 sc t.code a d
  have ha := wO_a 3 sc t.code a d
  have ht := wO_ty 3 sc t.code a d
  have hs := wO_sc 3 sc t.code a d
  have ho := wO_op 3 sc t.code a d
  have hm := wO_major 3 sc t.code a d
  show candidate [wO 3 sc t.code a d, (0 : BitVec 26) ++ b] = _
  rw [cand_VLP _ _ (wO_class ..)]
  have hp := low6 0 b
  generalize hv : ((0 : BitVec 26) ++ b : IWord) = v at *
  unfold candVLP
  generalize wO 3 sc t.code a d = w at *
  subst hd ha hp
  rw [hm, hs, ho, ht]; cases sc <;> cases t <;> rfl
theorem amoOr (t : AmoTy) (sc : Scope) (d : Reg) (a : Reg) (b : Reg) : Statement (.amoOr t sc d a b) := by
  intro _
  have hd := wO_d 4 sc t.code a d
  have ha := wO_a 4 sc t.code a d
  have ht := wO_ty 4 sc t.code a d
  have hs := wO_sc 4 sc t.code a d
  have ho := wO_op 4 sc t.code a d
  have hm := wO_major 4 sc t.code a d
  show candidate [wO 4 sc t.code a d, (0 : BitVec 26) ++ b] = _
  rw [cand_VLP _ _ (wO_class ..)]
  have hp := low6 0 b
  generalize hv : ((0 : BitVec 26) ++ b : IWord) = v at *
  unfold candVLP
  generalize wO 4 sc t.code a d = w at *
  subst hd ha hp
  rw [hm, hs, ho, ht]; cases sc <;> cases t <;> rfl
theorem amoXor (t : AmoTy) (sc : Scope) (d : Reg) (a : Reg) (b : Reg) : Statement (.amoXor t sc d a b) := by
  intro _
  have hd := wO_d 5 sc t.code a d
  have ha := wO_a 5 sc t.code a d
  have ht := wO_ty 5 sc t.code a d
  have hs := wO_sc 5 sc t.code a d
  have ho := wO_op 5 sc t.code a d
  have hm := wO_major 5 sc t.code a d
  show candidate [wO 5 sc t.code a d, (0 : BitVec 26) ++ b] = _
  rw [cand_VLP _ _ (wO_class ..)]
  have hp := low6 0 b
  generalize hv : ((0 : BitVec 26) ++ b : IWord) = v at *
  unfold candVLP
  generalize wO 5 sc t.code a d = w at *
  subst hd ha hp
  rw [hm, hs, ho, ht]; cases sc <;> cases t <;> rfl
theorem amoMin (t : AmoTy) (sc : Scope) (d : Reg) (a : Reg) (b : Reg) : Statement (.amoMin t sc d a b) := by
  intro _
  have hd := wO_d 6 sc t.code a d
  have ha := wO_a 6 sc t.code a d
  have ht := wO_ty 6 sc t.code a d
  have hs := wO_sc 6 sc t.code a d
  have ho := wO_op 6 sc t.code a d
  have hm := wO_major 6 sc t.code a d
  show candidate [wO 6 sc t.code a d, (0 : BitVec 26) ++ b] = _
  rw [cand_VLP _ _ (wO_class ..)]
  have hp := low6 0 b
  generalize hv : ((0 : BitVec 26) ++ b : IWord) = v at *
  unfold candVLP
  generalize wO 6 sc t.code a d = w at *
  subst hd ha hp
  rw [hm, hs, ho, ht]; cases sc <;> cases t <;> rfl
theorem amoMax (t : AmoTy) (sc : Scope) (d : Reg) (a : Reg) (b : Reg) : Statement (.amoMax t sc d a b) := by
  intro _
  have hd := wO_d 7 sc t.code a d
  have ha := wO_a 7 sc t.code a d
  have ht := wO_ty 7 sc t.code a d
  have hs := wO_sc 7 sc t.code a d
  have ho := wO_op 7 sc t.code a d
  have hm := wO_major 7 sc t.code a d
  show candidate [wO 7 sc t.code a d, (0 : BitVec 26) ++ b] = _
  rw [cand_VLP _ _ (wO_class ..)]
  have hp := low6 0 b
  generalize hv : ((0 : BitVec 26) ++ b : IWord) = v at *
  unfold candVLP
  generalize wO 7 sc t.code a d = w at *
  subst hd ha hp
  rw [hm, hs, ho, ht]; cases sc <;> cases t <;> rfl
theorem amoSwap (t : AmoTy) (sc : Scope) (d : Reg) (a : Reg) (b : Reg) : Statement (.amoSwap t sc d a b) := by
  intro _
  have hd := wO_d 8 sc t.code a d
  have ha := wO_a 8 sc t.code a d
  have ht := wO_ty 8 sc t.code a d
  have hs := wO_sc 8 sc t.code a d
  have ho := wO_op 8 sc t.code a d
  have hm := wO_major 8 sc t.code a d
  show candidate [wO 8 sc t.code a d, (0 : BitVec 26) ++ b] = _
  rw [cand_VLP _ _ (wO_class ..)]
  have hp := low6 0 b
  generalize hv : ((0 : BitVec 26) ++ b : IWord) = v at *
  unfold candVLP
  generalize wO 8 sc t.code a d = w at *
  subst hd ha hp
  rw [hm, hs, ho, ht]; cases sc <;> cases t <;> rfl
theorem amoCas (t : AmoTy) (sc : Scope) (d : Reg) (a : Reg) (b : Reg) (c : Reg) : Statement (.amoCas t sc d a b c) := by
  intro _
  have hd := wO_d 9 sc t.code a d
  have ha := wO_a 9 sc t.code a d
  have ht := wO_ty 9 sc t.code a d
  have hs := wO_sc 9 sc t.code a d
  have ho := wO_op 9 sc t.code a d
  have hm := wO_major 9 sc t.code a d
  show candidate [wO 9 sc t.code a d, (0 : BitVec 20) ++ c ++ b] = _
  rw [cand_VLP _ _ (wO_class ..)]
  have hp := cas_b 0 c b
  have hq := cas_c 0 c b
  generalize hv : ((0 : BitVec 20) ++ c ++ b : IWord) = v at *
  unfold candVLP
  generalize wO 9 sc t.code a d = w at *
  subst hd ha hp hq
  rw [hm, hs, ho, ht]; cases sc <;> cases t <;> rfl
theorem vadd (v : VForm) : Statement (.vadd v) := by
  intro _
  obtain ⟨w0, w1, hw, hv, hmaj, hc, hf⟩ := wV_fields 0x1 1 v
  show candidate (wV 0x1 1 v) = _
  rw [hw, cand_VLP _ _ hc]
  unfold candVLP
  rw [hmaj, hf]
  exact congrArg (fun x => some (Instr.vadd x)) hv
theorem vsub (v : VForm) : Statement (.vsub v) := by
  intro _
  obtain ⟨w0, w1, hw, hv, hmaj, hc, hf⟩ := wV_fields 0x1 2 v
  show candidate (wV 0x1 2 v) = _
  rw [hw, cand_VLP _ _ hc]
  unfold candVLP
  rw [hmaj, hf]
  exact congrArg (fun x => some (Instr.vsub x)) hv
theorem vmul (v : VForm) : Statement (.vmul v) := by
  intro _
  obtain ⟨w0, w1, hw, hv, hmaj, hc, hf⟩ := wV_fields 0x1 3 v
  show candidate (wV 0x1 3 v) = _
  rw [hw, cand_VLP _ _ hc]
  unfold candVLP
  rw [hmaj, hf]
  exact congrArg (fun x => some (Instr.vmul x)) hv
theorem vfma (v : VForm) : Statement (.vfma v) := by
  intro _
  obtain ⟨w0, w1, hw, hv, hmaj, hc, hf⟩ := wV_fields 0x1 4 v
  show candidate (wV 0x1 4 v) = _
  rw [hw, cand_VLP _ _ hc]
  unfold candVLP
  rw [hmaj, hf]
  exact congrArg (fun x => some (Instr.vfma x)) hv
theorem vmin (v : VForm) : Statement (.vmin v) := by
  intro _
  obtain ⟨w0, w1, hw, hv, hmaj, hc, hf⟩ := wV_fields 0x1 5 v
  show candidate (wV 0x1 5 v) = _
  rw [hw, cand_VLP _ _ hc]
  unfold candVLP
  rw [hmaj, hf]
  exact congrArg (fun x => some (Instr.vmin x)) hv
theorem vmax (v : VForm) : Statement (.vmax v) := by
  intro _
  obtain ⟨w0, w1, hw, hv, hmaj, hc, hf⟩ := wV_fields 0x1 6 v
  show candidate (wV 0x1 6 v) = _
  rw [hw, cand_VLP _ _ hc]
  unfold candVLP
  rw [hmaj, hf]
  exact congrArg (fun x => some (Instr.vmax x)) hv
theorem vabs (v : VForm) : Statement (.vabs v) := by
  intro _
  obtain ⟨w0, w1, hw, hv, hmaj, hc, hf⟩ := wV_fields 0x1 7 v
  show candidate (wV 0x1 7 v) = _
  rw [hw, cand_VLP _ _ hc]
  unfold candVLP
  rw [hmaj, hf]
  exact congrArg (fun x => some (Instr.vabs x)) hv
theorem vneg (v : VForm) : Statement (.vneg v) := by
  intro _
  obtain ⟨w0, w1, hw, hv, hmaj, hc, hf⟩ := wV_fields 0x1 8 v
  show candidate (wV 0x1 8 v) = _
  rw [hw, cand_VLP _ _ hc]
  unfold candVLP
  rw [hmaj, hf]
  exact congrArg (fun x => some (Instr.vneg x)) hv
theorem vand (v : VForm) : Statement (.vand v) := by
  intro _
  obtain ⟨w0, w1, hw, hv, hmaj, hc, hf⟩ := wV_fields 0x2 1 v
  show candidate (wV 0x2 1 v) = _
  rw [hw, cand_VLP _ _ hc]
  unfold candVLP
  rw [hmaj, hf]
  exact congrArg (fun x => some (Instr.vand x)) hv
theorem vor (v : VForm) : Statement (.vor v) := by
  intro _
  obtain ⟨w0, w1, hw, hv, hmaj, hc, hf⟩ := wV_fields 0x2 2 v
  show candidate (wV 0x2 2 v) = _
  rw [hw, cand_VLP _ _ hc]
  unfold candVLP
  rw [hmaj, hf]
  exact congrArg (fun x => some (Instr.vor x)) hv
theorem vxor (v : VForm) : Statement (.vxor v) := by
  intro _
  obtain ⟨w0, w1, hw, hv, hmaj, hc, hf⟩ := wV_fields 0x2 3 v
  show candidate (wV 0x2 3 v) = _
  rw [hw, cand_VLP _ _ hc]
  unfold candVLP
  rw [hmaj, hf]
  exact congrArg (fun x => some (Instr.vxor x)) hv
theorem vnot (v : VForm) : Statement (.vnot v) := by
  intro _
  obtain ⟨w0, w1, hw, hv, hmaj, hc, hf⟩ := wV_fields 0x2 4 v
  show candidate (wV 0x2 4 v) = _
  rw [hw, cand_VLP _ _ hc]
  unfold candVLP
  rw [hmaj, hf]
  exact congrArg (fun x => some (Instr.vnot x)) hv
theorem vshl (v : VForm) : Statement (.vshl v) := by
  intro _
  obtain ⟨w0, w1, hw, hv, hmaj, hc, hf⟩ := wV_fields 0x2 5 v
  show candidate (wV 0x2 5 v) = _
  rw [hw, cand_VLP _ _ hc]
  unfold candVLP
  rw [hmaj, hf]
  exact congrArg (fun x => some (Instr.vshl x)) hv
theorem vshr (v : VForm) : Statement (.vshr v) := by
  intro _
  obtain ⟨w0, w1, hw, hv, hmaj, hc, hf⟩ := wV_fields 0x2 6 v
  show candidate (wV 0x2 6 v) = _
  rw [hw, cand_VLP _ _ hc]
  unfold candVLP
  rw [hmaj, hf]
  exact congrArg (fun x => some (Instr.vshr x)) hv
theorem vsra (v : VForm) : Statement (.vsra v) := by
  intro _
  obtain ⟨w0, w1, hw, hv, hmaj, hc, hf⟩ := wV_fields 0x2 7 v
  show candidate (wV 0x2 7 v) = _
  rw [hw, cand_VLP _ _ hc]
  unfold candVLP
  rw [hmaj, hf]
  exact congrArg (fun x => some (Instr.vsra x)) hv
theorem vceq (v : VForm) : Statement (.vceq v) := by
  intro _
  obtain ⟨w0, w1, hw, hv, hmaj, hc, hf⟩ := wV_fields 0x3 1 v
  show candidate (wV 0x3 1 v) = _
  rw [hw, cand_VLP _ _ hc]
  unfold candVLP
  rw [hmaj, hf]
  exact congrArg (fun x => some (Instr.vceq x)) hv
theorem vcne (v : VForm) : Statement (.vcne v) := by
  intro _
  obtain ⟨w0, w1, hw, hv, hmaj, hc, hf⟩ := wV_fields 0x3 2 v
  show candidate (wV 0x3 2 v) = _
  rw [hw, cand_VLP _ _ hc]
  unfold candVLP
  rw [hmaj, hf]
  exact congrArg (fun x => some (Instr.vcne x)) hv
theorem vclt (v : VForm) : Statement (.vclt v) := by
  intro _
  obtain ⟨w0, w1, hw, hv, hmaj, hc, hf⟩ := wV_fields 0x3 3 v
  show candidate (wV 0x3 3 v) = _
  rw [hw, cand_VLP _ _ hc]
  unfold candVLP
  rw [hmaj, hf]
  exact congrArg (fun x => some (Instr.vclt x)) hv
theorem vcle (v : VForm) : Statement (.vcle v) := by
  intro _
  obtain ⟨w0, w1, hw, hv, hmaj, hc, hf⟩ := wV_fields 0x3 4 v
  show candidate (wV 0x3 4 v) = _
  rw [hw, cand_VLP _ _ hc]
  unfold candVLP
  rw [hmaj, hf]
  exact congrArg (fun x => some (Instr.vcle x)) hv
theorem vcvt (v : VForm) : Statement (.vcvt v) := by
  intro _
  obtain ⟨w0, w1, hw, hv, hmaj, hc, hf⟩ := wV_fields 0x4 1 v
  show candidate (wV 0x4 1 v) = _
  rw [hw, cand_VLP _ _ hc]
  unfold candVLP
  rw [hmaj, hf]
  exact congrArg (fun x => some (Instr.vcvt x)) hv
theorem vqrd (v : VForm) : Statement (.vqrd v) := by
  intro _
  obtain ⟨w0, w1, hw, hv, hmaj, hc, hf⟩ := wV_fields 0x4 2 v
  show candidate (wV 0x4 2 v) = _
  rw [hw, cand_VLP _ _ hc]
  unfold candVLP
  rw [hmaj, hf]
  exact congrArg (fun x => some (Instr.vqrd x)) hv
theorem vexp2 (v : VForm) : Statement (.vexp2 v) := by
  intro _
  obtain ⟨w0, w1, hw, hv, hmaj, hc, hf⟩ := wV_fields 0x5 1 v
  show candidate (wV 0x5 1 v) = _
  rw [hw, cand_VLP _ _ hc]
  unfold candVLP
  rw [hmaj, hf]
  exact congrArg (fun x => some (Instr.vexp2 x)) hv
theorem vrcp (v : VForm) : Statement (.vrcp v) := by
  intro _
  obtain ⟨w0, w1, hw, hv, hmaj, hc, hf⟩ := wV_fields 0x5 2 v
  show candidate (wV 0x5 2 v) = _
  rw [hw, cand_VLP _ _ hc]
  unfold candVLP
  rw [hmaj, hf]
  exact congrArg (fun x => some (Instr.vrcp x)) hv
theorem vbfx (v : VForm) : Statement (.vbfx v) := by
  intro _
  obtain ⟨w0, w1, hw, hv, hmaj, hc, hf⟩ := wV_fields 0x6 1 v
  show candidate (wV 0x6 1 v) = _
  rw [hw, cand_VLP _ _ hc]
  unfold candVLP
  rw [hmaj, hf]
  exact congrArg (fun x => some (Instr.vbfx x)) hv
theorem vfsh (v : VForm) : Statement (.vfsh v) := by
  intro _
  obtain ⟨w0, w1, hw, hv, hmaj, hc, hf⟩ := wV_fields 0x6 2 v
  show candidate (wV 0x6 2 v) = _
  rw [hw, cand_VLP _ _ hc]
  unfold candVLP
  rw [hmaj, hf]
  exact congrArg (fun x => some (Instr.vfsh x)) hv
theorem vred (v : VForm) : Statement (.vred v) := by
  intro _
  obtain ⟨w0, w1, hw, hv, hmaj, hc, hf⟩ := wV_fields 0x7 1 v
  show candidate (wV 0x7 1 v) = _
  rw [hw, cand_VLP _ _ hc]
  unfold candVLP
  rw [hmaj, hf]
  exact congrArg (fun x => some (Instr.vred x)) hv
theorem vscan (v : VForm) : Statement (.vscan v) := by
  intro _
  obtain ⟨w0, w1, hw, hv, hmaj, hc, hf⟩ := wV_fields 0x7 2 v
  show candidate (wV 0x7 2 v) = _
  rw [hw, cand_VLP _ _ hc]
  unfold candVLP
  rw [hmaj, hf]
  exact congrArg (fun x => some (Instr.vscan x)) hv
theorem vld (v : VForm) : Statement (.vld v) := by
  intro _
  obtain ⟨w0, w1, hw, hv, hmaj, hc, hf⟩ := wV_fields 0x8 1 v
  show candidate (wV 0x8 1 v) = _
  rw [hw, cand_VLP _ _ hc]
  unfold candVLP
  rw [hmaj, hf]
  exact congrArg (fun x => some (Instr.vld x)) hv
theorem vst (v : VForm) : Statement (.vst v) := by
  intro _
  obtain ⟨w0, w1, hw, hv, hmaj, hc, hf⟩ := wV_fields 0x8 2 v
  show candidate (wV 0x8 2 v) = _
  rw [hw, cand_VLP _ _ hc]
  unfold candVLP
  rw [hmaj, hf]
  exact congrArg (fun x => some (Instr.vst x)) hv
theorem vgath (v : VForm) : Statement (.vgath v) := by
  intro _
  obtain ⟨w0, w1, hw, hv, hmaj, hc, hf⟩ := wV_fields 0x8 3 v
  show candidate (wV 0x8 3 v) = _
  rw [hw, cand_VLP _ _ hc]
  unfold candVLP
  rw [hmaj, hf]
  exact congrArg (fun x => some (Instr.vgath x)) hv
theorem vscat (v : VForm) : Statement (.vscat v) := by
  intro _
  obtain ⟨w0, w1, hw, hv, hmaj, hc, hf⟩ := wV_fields 0x8 4 v
  show candidate (wV 0x8 4 v) = _
  rw [hw, cand_VLP _ _ hc]
  unfold candVLP
  rw [hmaj, hf]
  exact congrArg (fun x => some (Instr.vscat x)) hv
theorem vlut (v : VForm) : Statement (.vlut v) := by
  intro _
  obtain ⟨w0, w1, hw, hv, hmaj, hc, hf⟩ := wV_fields 0x8 5 v
  show candidate (wV 0x8 5 v) = _
  rw [hw, cand_VLP _ _ hc]
  unfold candVLP
  rw [hmaj, hf]
  exact congrArg (fun x => some (Instr.vlut x)) hv
theorem vthr (v : VForm) : Statement (.vthr v) := by
  intro _
  obtain ⟨w0, w1, hw, hv, hmaj, hc, hf⟩ := wV_fields 0x9 1 v
  show candidate (wV 0x9 1 v) = _
  rw [hw, cand_VLP _ _ hc]
  unfold candVLP
  rw [hmaj, hf]
  exact congrArg (fun x => some (Instr.vthr x)) hv
theorem vtagTags (v : VForm) : Statement (.vtagTags v) := by
  intro h
  have hmo : v.mode = 0 := by
    replace h : (v.gate 0 false && v.d.toNat < 4 && v.plain) = true := h
    simp only [VForm.gate, Bool.and_eq_true, beq_iff_eq] at h
    exact BitVec.eq_of_toNat_eq h.1.1.1.2
  obtain ⟨w0, w1, hw, hv, hmaj, hc, hf⟩ := wV_fields 0x9 2 v
  show candidate (wV 0x9 2 v) = _
  rw [hw, cand_VLP _ _ hc]
  unfold candVLP
  rw [hmaj, hf]
  show (if ((vform w0 w1).mode == 1) = true then some (Instr.vtagMask (vform w0 w1)) else some (Instr.vtagTags (vform w0 w1))) = _
  rw [hv, hmo]; rfl
theorem vtagMask (v : VForm) : Statement (.vtagMask v) := by
  intro h
  have hmo : v.mode = 1 := by
    replace h : (v.gate 1 false) = true := h
    simp only [VForm.gate, Bool.and_eq_true, beq_iff_eq] at h
    exact BitVec.eq_of_toNat_eq h.1.2
  obtain ⟨w0, w1, hw, hv, hmaj, hc, hf⟩ := wV_fields 0x9 2 v
  show candidate (wV 0x9 2 v) = _
  rw [hw, cand_VLP _ _ hc]
  unfold candVLP
  rw [hmaj, hf]
  show (if ((vform w0 w1).mode == 1) = true then some (Instr.vtagMask (vform w0 w1)) else some (Instr.vtagTags (vform w0 w1))) = _
  rw [hv, hmo]; rfl
theorem vcomb (v : VForm) : Statement (.vcomb v) := by
  intro _
  obtain ⟨w0, w1, hw, hv, hmaj, hc, hf⟩ := wV_fields 0x9 3 v
  show candidate (wV 0x9 3 v) = _
  rw [hw, cand_VLP _ _ hc]
  unfold candVLP
  rw [hmaj, hf]
  exact congrArg (fun x => some (Instr.vcomb x)) hv
theorem vmov (v : VForm) : Statement (.vmov v) := by
  intro _
  obtain ⟨w0, w1, hw, hv, hmaj, hc, hf⟩ := wV_fields 0xa 1 v
  show candidate (wV 0xa 1 v) = _
  rw [hw, cand_VLP _ _ hc]
  unfold candVLP
  rw [hmaj, hf]
  exact congrArg (fun x => some (Instr.vmov x)) hv
theorem vbcst (v : VForm) : Statement (.vbcst v) := by
  intro _
  obtain ⟨w0, w1, hw, hv, hmaj, hc, hf⟩ := wV_fields 0xa 2 v
  show candidate (wV 0xa 2 v) = _
  rw [hw, cand_VLP _ _ hc]
  unfold candVLP
  rw [hmaj, hf]
  exact congrArg (fun x => some (Instr.vbcst x)) hv
theorem vsel (v : VForm) : Statement (.vsel v) := by
  intro _
  obtain ⟨w0, w1, hw, hv, hmaj, hc, hf⟩ := wV_fields 0xa 3 v
  show candidate (wV 0xa 3 v) = _
  rw [hw, cand_VLP _ _ hc]
  unfold candVLP
  rw [hmaj, hf]
  exact congrArg (fun x => some (Instr.vsel x)) hv
theorem vgetl (v : VForm) : Statement (.vgetl v) := by
  intro _
  obtain ⟨w0, w1, hw, hv, hmaj, hc, hf⟩ := wV_fields 0xa 4 v
  show candidate (wV 0xa 4 v) = _
  rw [hw, cand_VLP _ _ hc]
  unfold candVLP
  rw [hmaj, hf]
  exact congrArg (fun x => some (Instr.vgetl x)) hv
theorem pand (pd : PReg) (pa : PReg) (pb : PReg) : Statement (.pand pd pa pb) := by
  intro _
  have hpb := wP_pb pb pa pd 0 0x30
  have hpa := wP_pa pb pa pd 0 0x30
  have hpd := wP_pd pb pa pd 0 0x30
  have hf := wP_f pb pa pd 0 0x30
  have hm := wP_major pb pa pd 0 0x30
  show candidate [wP pb pa pd 0 0x30, 0] = _
  rw [cand_VLP _ _ (wP_class ..)]
  unfold candVLP
  generalize wP pb pa pd 0 0x30 = w at *
  subst hpb hpa hpd
  rw [hm, hf]; rfl
theorem por (pd : PReg) (pa : PReg) (pb : PReg) : Statement (.por pd pa pb) := by
  intro _
  have hpb := wP_pb pb pa pd 1 0x30
  have hpa := wP_pa pb pa pd 1 0x30
  have hpd := wP_pd pb pa pd 1 0x30
  have hf := wP_f pb pa pd 1 0x30
  have hm := wP_major pb pa pd 1 0x30
  show candidate [wP pb pa pd 1 0x30, 0] = _
  rw [cand_VLP _ _ (wP_class ..)]
  unfold candVLP
  generalize wP pb pa pd 1 0x30 = w at *
  subst hpb hpa hpd
  rw [hm, hf]; rfl
theorem pxor (pd : PReg) (pa : PReg) (pb : PReg) : Statement (.pxor pd pa pb) := by
  intro _
  have hpb := wP_pb pb pa pd 2 0x30
  have hpa := wP_pa pb pa pd 2 0x30
  have hpd := wP_pd pb pa pd 2 0x30
  have hf := wP_f pb pa pd 2 0x30
  have hm := wP_major pb pa pd 2 0x30
  show candidate [wP pb pa pd 2 0x30, 0] = _
  rw [cand_VLP _ _ (wP_class ..)]
  unfold candVLP
  generalize wP pb pa pd 2 0x30 = w at *
  subst hpb hpa hpd
  rw [hm, hf]; rfl
theorem pandn (pd : PReg) (pa : PReg) (pb : PReg) : Statement (.pandn pd pa pb) := by
  intro _
  have hpb := wP_pb pb pa pd 3 0x30
  have hpa := wP_pa pb pa pd 3 0x30
  have hpd := wP_pd pb pa pd 3 0x30
  have hf := wP_f pb pa pd 3 0x30
  have hm := wP_major pb pa pd 3 0x30
  show candidate [wP pb pa pd 3 0x30, 0] = _
  rw [cand_VLP _ _ (wP_class ..)]
  unfold candVLP
  generalize wP pb pa pd 3 0x30 = w at *
  subst hpb hpa hpd
  rw [hm, hf]; rfl
theorem pnot (pd : PReg) (pa : PReg) : Statement (.pnot pd pa) := by
  intro _
  have hpb := wP_pb 0 pa pd 4 0x30
  have hpa := wP_pa 0 pa pd 4 0x30
  have hpd := wP_pd 0 pa pd 4 0x30
  have hf := wP_f 0 pa pd 4 0x30
  have hm := wP_major 0 pa pd 4 0x30
  show candidate [wP 0 pa pd 4 0x30, 0] = _
  rw [cand_VLP _ _ (wP_class ..)]
  unfold candVLP
  generalize wP 0 pa pd 4 0x30 = w at *
  subst hpa hpd
  rw [hm, hf]; rfl
theorem psetl (pd : PReg) (imm : BitVec 32) : Statement (.psetl pd imm) := by
  intro _
  have hpb := wP_pb 0 0 pd 5 0x30
  have hpa := wP_pa 0 0 pd 5 0x30
  have hpd := wP_pd 0 0 pd 5 0x30
  have hf := wP_f 0 0 pd 5 0x30
  have hm := wP_major 0 0 pd 5 0x30
  show candidate [wP 0 0 pd 5 0x30, imm] = _
  rw [cand_VLP _ _ (wP_class ..)]
  unfold candVLP
  generalize wP 0 0 pd 5 0x30 = w at *
  subst hpd
  rw [hm, hf]; rfl
theorem pseth (pd : PReg) (imm : BitVec 32) : Statement (.pseth pd imm) := by
  intro _
  have hpb := wP_pb 0 0 pd 6 0x30
  have hpa := wP_pa 0 0 pd 6 0x30
  have hpd := wP_pd 0 0 pd 6 0x30
  have hf := wP_f 0 0 pd 6 0x30
  have hm := wP_major 0 0 pd 6 0x30
  show candidate [wP 0 0 pd 6 0x30, imm] = _
  rw [cand_VLP _ _ (wP_class ..)]
  unfold candVLP
  generalize wP 0 0 pd 6 0x30 = w at *
  subst hpd
  rw [hm, hf]; rfl
theorem pget (d : Reg) (pa : PReg) : Statement (.pget d pa) := by
  intro _
  have hpb := wP_pb 0 pa 0 0 0x31
  have hpa := wP_pa 0 pa 0 0 0x31
  have hpd := wP_pd 0 pa 0 0 0x31
  have hf := wP_f 0 pa 0 0 0x31
  have hm := wP_major 0 pa 0 0 0x31
  show candidate [wP 0 pa 0 0 0x31, (0 : BitVec 26) ++ d] = _
  rw [cand_VLP _ _ (wP_class ..)]
  have hl := low6 0 d
  generalize hv : ((0 : BitVec 26) ++ d : IWord) = v at *
  unfold candVLP
  generalize wP 0 pa 0 0 0x31 = w at *
  subst hpa hl
  rw [hm, hf]; rfl
theorem pput (pd : PReg) (a : Reg) : Statement (.pput pd a) := by
  intro _
  have hpb := wP_pb 0 0 pd 1 0x31
  have hpa := wP_pa 0 0 pd 1 0x31
  have hpd := wP_pd 0 0 pd 1 0x31
  have hf := wP_f 0 0 pd 1 0x31
  have hm := wP_major 0 0 pd 1 0x31
  show candidate [wP 0 0 pd 1 0x31, (0 : BitVec 26) ++ a] = _
  rw [cand_VLP _ _ (wP_class ..)]
  have hl := low6 0 a
  generalize hv : ((0 : BitVec 26) ++ a : IWord) = v at *
  unfold candVLP
  generalize wP 0 0 pd 1 0x31 = w at *
  subst hpd hl
  rw [hm, hf]; rfl
theorem mloadw (t : Timing) (f : LoadWF) : Statement (.mloadw t f) := by
  intro _
  obtain ⟨xty, xbank, xnone, xslot, xexpert⟩ := f
  have h0 : fld (xty ++ xbank ++ xnone ++ (0 : BitVec 15) ++ xslot) 26 6 = xty := by
    show (xty ++ xbank ++ xnone ++ (0 : BitVec 15) ++ xslot).extractLsb' 26 6 = _
    simp (disch := omega) only [extract_low, extract_high, extract_whole]
  have h1 : fld (xty ++ xbank ++ xnone ++ (0 : BitVec 15) ++ xslot) 21 5 = xbank := by
    show (xty ++ xbank ++ xnone ++ (0 : BitVec 15) ++ xslot).extractLsb' 21 5 = _
    simp (disch := omega) only [extract_low, extract_high, extract_whole]
  have h2 : fld (xty ++ xbank ++ xnone ++ (0 : BitVec 15) ++ xslot) 20 1 = xnone := by
    show (xty ++ xbank ++ xnone ++ (0 : BitVec 15) ++ xslot).extractLsb' 20 1 = _
    simp (disch := omega) only [extract_low, extract_high, extract_whole]
  have h3 : fld (xty ++ xbank ++ xnone ++ (0 : BitVec 15) ++ xslot) 0 5 = xslot := by
    show (xty ++ xbank ++ xnone ++ (0 : BitVec 15) ++ xslot).extractLsb' 0 5 = _
    simp (disch := omega) only [extract_low, extract_high, extract_whole]
  have h4 : fld ((0 : BitVec 16) ++ xexpert) 0 16 = xexpert := by
    show ((0 : BitVec 16) ++ xexpert).extractLsb' 0 16 = _
    simp (disch := omega) only [extract_low, extract_high, extract_whole]
  obtain ⟨w0, hw, ht, heng, hop, hc⟩ := wE_fields t 0 1 (xty ++ xbank ++ xnone ++ (0 : BitVec 15) ++ xslot) ((0 : BitVec 16) ++ xexpert) (0)
  show candidate (wE t 0 1 (xty ++ xbank ++ xnone ++ (0 : BitVec 15) ++ xslot) ((0 : BitVec 16) ++ xexpert) (0)) = _
  rw [hw, cand_E _ _ _ _ _ _ _ _ hc]
  generalize (xty ++ xbank ++ xnone ++ (0 : BitVec 15) ++ xslot : IWord) = v3 at *
  generalize ((0 : BitVec 16) ++ xexpert : IWord) = v4 at *
  subst h0 h1 h2 h3 h4
  unfold candE
  rw [heng, hop, ht]; rfl
theorem mmul (t : Timing) (f : MulF) : Statement (.mmul t f) := by
  intro _
  obtain ⟨w0, hw, ht, heng, hop, hc⟩ := wE_fields t 0 2 f.words.1 f.words.2 0
  have hx := mulF_words f
  show candidate (wE t 0 2 f.words.1 f.words.2 0) = _
  rw [hw, cand_E _ _ _ _ _ _ _ _ hc]
  unfold candE
  rw [heng, hop, ht]
  exact congrArg (fun x => some (Instr.mmul t x)) hx
theorem mgrad (t : Timing) (f : MulF) : Statement (.mgrad t f) := by
  intro _
  obtain ⟨w0, hw, ht, heng, hop, hc⟩ := wE_fields t 0 3 f.words.1 f.words.2 0
  have hx := mulF_words f
  show candidate (wE t 0 3 f.words.1 f.words.2 0) = _
  rw [hw, cand_E _ _ _ _ _ _ _ _ hc]
  unfold candE
  rw [heng, hop, ht]
  exact congrArg (fun x => some (Instr.mgrad t x)) hx
theorem mgdrain (t : Timing) (f : DrainF) : Statement (.mgdrain t f) := by
  intro _
  obtain ⟨xty, xacc, xkeep, xdst, xbank⟩ := f
  have h0 : fld (xty ++ (0 : BitVec 2) ++ xacc ++ xkeep ++ (0 : BitVec 6) ++ xdst ++ (0 : BitVec 8) ++ xbank) 26 6 = xty := by
    show (xty ++ (0 : BitVec 2) ++ xacc ++ xkeep ++ (0 : BitVec 6) ++ xdst ++ (0 : BitVec 8) ++ xbank).extractLsb' 26 6 = _
    simp (disch := omega) only [extract_low, extract_high, extract_whole]
  have h1 : fld (xty ++ (0 : BitVec 2) ++ xacc ++ xkeep ++ (0 : BitVec 6) ++ xdst ++ (0 : BitVec 8) ++ xbank) 23 1 = xacc := by
    show (xty ++ (0 : BitVec 2) ++ xacc ++ xkeep ++ (0 : BitVec 6) ++ xdst ++ (0 : BitVec 8) ++ xbank).extractLsb' 23 1 = _
    simp (disch := omega) only [extract_low, extract_high, extract_whole]
  have h2 : fld (xty ++ (0 : BitVec 2) ++ xacc ++ xkeep ++ (0 : BitVec 6) ++ xdst ++ (0 : BitVec 8) ++ xbank) 22 1 = xkeep := by
    show (xty ++ (0 : BitVec 2) ++ xacc ++ xkeep ++ (0 : BitVec 6) ++ xdst ++ (0 : BitVec 8) ++ xbank).extractLsb' 22 1 = _
    simp (disch := omega) only [extract_low, extract_high, extract_whole]
  have h3 : fld (xty ++ (0 : BitVec 2) ++ xacc ++ xkeep ++ (0 : BitVec 6) ++ xdst ++ (0 : BitVec 8) ++ xbank) 13 3 = xdst := by
    show (xty ++ (0 : BitVec 2) ++ xacc ++ xkeep ++ (0 : BitVec 6) ++ xdst ++ (0 : BitVec 8) ++ xbank).extractLsb' 13 3 = _
    simp (disch := omega) only [extract_low, extract_high, extract_whole]
  have h4 : fld (xty ++ (0 : BitVec 2) ++ xacc ++ xkeep ++ (0 : BitVec 6) ++ xdst ++ (0 : BitVec 8) ++ xbank) 0 5 = xbank := by
    show (xty ++ (0 : BitVec 2) ++ xacc ++ xkeep ++ (0 : BitVec 6) ++ xdst ++ (0 : BitVec 8) ++ xbank).extractLsb' 0 5 = _
    simp (disch := omega) only [extract_low, extract_high, extract_whole]
  obtain ⟨w0, hw, ht, heng, hop, hc⟩ := wE_fields t 0 4 (xty ++ (0 : BitVec 2) ++ xacc ++ xkeep ++ (0 : BitVec 6) ++ xdst ++ (0 : BitVec 8) ++ xbank) (0) (0)
  show candidate (wE t 0 4 (xty ++ (0 : BitVec 2) ++ xacc ++ xkeep ++ (0 : BitVec 6) ++ xdst ++ (0 : BitVec 8) ++ xbank) (0) (0)) = _
  rw [hw, cand_E _ _ _ _ _ _ _ _ hc]
  generalize (xty ++ (0 : BitVec 2) ++ xacc ++ xkeep ++ (0 : BitVec 6) ++ xdst ++ (0 : BitVec 8) ++ xbank : IWord) = v3 at *
  subst h0 h1 h2 h3 h4
  unfold candE
  rw [heng, hop, ht]; rfl
theorem mres (t : Timing) (f : ResF) : Statement (.mres t f) := by
  intro _
  obtain ⟨xty, xrnd, xsplit, xsrc, xkind, xnum, xrows⟩ := f
  have h0 : fld (xty ++ xrnd ++ xsplit ++ xsrc ++ xkind ++ xnum ++ (0 : BitVec 6) ++ xrows) 26 6 = xty := by
    show (xty ++ xrnd ++ xsplit ++ xsrc ++ xkind ++ xnum ++ (0 : BitVec 6) ++ xrows).extractLsb' 26 6 = _
    simp (disch := omega) only [extract_low, extract_high, extract_whole]
  have h1 : fld (xty ++ xrnd ++ xsplit ++ xsrc ++ xkind ++ xnum ++ (0 : BitVec 6) ++ xrows) 24 2 = xrnd := by
    show (xty ++ xrnd ++ xsplit ++ xsrc ++ xkind ++ xnum ++ (0 : BitVec 6) ++ xrows).extractLsb' 24 2 = _
    simp (disch := omega) only [extract_low, extract_high, extract_whole]
  have h2 : fld (xty ++ xrnd ++ xsplit ++ xsrc ++ xkind ++ xnum ++ (0 : BitVec 6) ++ xrows) 20 4 = xsplit := by
    show (xty ++ xrnd ++ xsplit ++ xsrc ++ xkind ++ xnum ++ (0 : BitVec 6) ++ xrows).extractLsb' 20 4 = _
    simp (disch := omega) only [extract_low, extract_high, extract_whole]
  have h3 : fld (xty ++ xrnd ++ xsplit ++ xsrc ++ xkind ++ xnum ++ (0 : BitVec 6) ++ xrows) 17 3 = xsrc := by
    show (xty ++ xrnd ++ xsplit ++ xsrc ++ xkind ++ xnum ++ (0 : BitVec 6) ++ xrows).extractLsb' 17 3 = _
    simp (disch := omega) only [extract_low, extract_high, extract_whole]
  have h4 : fld (xty ++ xrnd ++ xsplit ++ xsrc ++ xkind ++ xnum ++ (0 : BitVec 6) ++ xrows) 16 1 = xkind := by
    show (xty ++ xrnd ++ xsplit ++ xsrc ++ xkind ++ xnum ++ (0 : BitVec 6) ++ xrows).extractLsb' 16 1 = _
    simp (disch := omega) only [extract_low, extract_high, extract_whole]
  have h5 : fld (xty ++ xrnd ++ xsplit ++ xsrc ++ xkind ++ xnum ++ (0 : BitVec 6) ++ xrows) 12 4 = xnum := by
    show (xty ++ xrnd ++ xsplit ++ xsrc ++ xkind ++ xnum ++ (0 : BitVec 6) ++ xrows).extractLsb' 12 4 = _
    simp (disch := omega) only [extract_low, extract_high, extract_whole]
  have h6 : fld (xty ++ xrnd ++ xsplit ++ xsrc ++ xkind ++ xnum ++ (0 : BitVec 6) ++ xrows) 0 6 = xrows := by
    show (xty ++ xrnd ++ xsplit ++ xsrc ++ xkind ++ xnum ++ (0 : BitVec 6) ++ xrows).extractLsb' 0 6 = _
    simp (disch := omega) only [extract_low, extract_high, extract_whole]
  obtain ⟨w0, hw, ht, heng, hop, hc⟩ := wE_fields t 0 5 (xty ++ xrnd ++ xsplit ++ xsrc ++ xkind ++ xnum ++ (0 : BitVec 6) ++ xrows) (0) (0)
  show candidate (wE t 0 5 (xty ++ xrnd ++ xsplit ++ xsrc ++ xkind ++ xnum ++ (0 : BitVec 6) ++ xrows) (0) (0)) = _
  rw [hw, cand_E _ _ _ _ _ _ _ _ hc]
  generalize (xty ++ xrnd ++ xsplit ++ xsrc ++ xkind ++ xnum ++ (0 : BitVec 6) ++ xrows : IWord) = v3 at *
  subst h0 h1 h2 h3 h4 h5 h6
  unfold candE
  rw [heng, hop, ht]; rfl
theorem slclaim (t : Timing) (d : Reg) (n : Reg) : Statement (.slclaim t d n) := by
  intro _
  have h0 : fld ((0 : BitVec 20) ++ d ++ n) 6 6 = d := by
    show ((0 : BitVec 20) ++ d ++ n).extractLsb' 6 6 = _
    simp (disch := omega) only [extract_low, extract_high, extract_whole]
  have h1 : fld ((0 : BitVec 20) ++ d ++ n) 0 6 = n := by
    show ((0 : BitVec 20) ++ d ++ n).extractLsb' 0 6 = _
    simp (disch := omega) only [extract_low, extract_high, extract_whole]
  obtain ⟨w0, hw, ht, heng, hop, hc⟩ := wE_fields t 0 6 ((0 : BitVec 20) ++ d ++ n) (0) (0)
  show candidate (wE t 0 6 ((0 : BitVec 20) ++ d ++ n) (0) (0)) = _
  rw [hw, cand_E _ _ _ _ _ _ _ _ hc]
  generalize ((0 : BitVec 20) ++ d ++ n : IWord) = v3 at *
  subst h0 h1
  unfold candE
  rw [heng, hop, ht]; rfl
theorem slrel (t : Timing) (n : BitVec 5) : Statement (.slrel t n) := by
  intro _
  have h0 : fld ((0 : BitVec 27) ++ n) 0 5 = n := by
    show ((0 : BitVec 27) ++ n).extractLsb' 0 5 = _
    simp (disch := omega) only [extract_low, extract_high, extract_whole]
  obtain ⟨w0, hw, ht, heng, hop, hc⟩ := wE_fields t 0 7 ((0 : BitVec 27) ++ n) (0) (0)
  show candidate (wE t 0 7 ((0 : BitVec 27) ++ n) (0) (0)) = _
  rw [hw, cand_E _ _ _ _ _ _ _ _ hc]
  generalize ((0 : BitVec 27) ++ n : IWord) = v3 at *
  subst h0
  unfold candE
  rw [heng, hop, ht]; rfl
theorem lnest (t : Timing) (f : NestF) : Statement (.lnest t f) := by
  intro _
  obtain ⟨xmode, xrnd, xty, xmajor, xfunc, xsc, xsb, xsa, xsd, xnest⟩ := f
  have h0 : fld ((0 : BitVec 10) ++ xmode ++ xrnd ++ xty ++ xmajor ++ xfunc) 20 2 = xmode := by
    show ((0 : BitVec 10) ++ xmode ++ xrnd ++ xty ++ xmajor ++ xfunc).extractLsb' 20 2 = _
    simp (disch := omega) only [extract_low, extract_high, extract_whole]
  have h1 : fld ((0 : BitVec 10) ++ xmode ++ xrnd ++ xty ++ xmajor ++ xfunc) 18 2 = xrnd := by
    show ((0 : BitVec 10) ++ xmode ++ xrnd ++ xty ++ xmajor ++ xfunc).extractLsb' 18 2 = _
    simp (disch := omega) only [extract_low, extract_high, extract_whole]
  have h2 : fld ((0 : BitVec 10) ++ xmode ++ xrnd ++ xty ++ xmajor ++ xfunc) 12 6 = xty := by
    show ((0 : BitVec 10) ++ xmode ++ xrnd ++ xty ++ xmajor ++ xfunc).extractLsb' 12 6 = _
    simp (disch := omega) only [extract_low, extract_high, extract_whole]
  have h3 : fld ((0 : BitVec 10) ++ xmode ++ xrnd ++ xty ++ xmajor ++ xfunc) 6 6 = xmajor := by
    show ((0 : BitVec 10) ++ xmode ++ xrnd ++ xty ++ xmajor ++ xfunc).extractLsb' 6 6 = _
    simp (disch := omega) only [extract_low, extract_high, extract_whole]
  have h4 : fld ((0 : BitVec 10) ++ xmode ++ xrnd ++ xty ++ xmajor ++ xfunc) 0 6 = xfunc := by
    show ((0 : BitVec 10) ++ xmode ++ xrnd ++ xty ++ xmajor ++ xfunc).extractLsb' 0 6 = _
    simp (disch := omega) only [extract_low, extract_high, extract_whole]
  have h5 : fld ((0 : BitVec 16) ++ xsc ++ xsb ++ xsa ++ xsd) 12 4 = xsc := by
    show ((0 : BitVec 16) ++ xsc ++ xsb ++ xsa ++ xsd).extractLsb' 12 4 = _
    simp (disch := omega) only [extract_low, extract_high, extract_whole]
  have h6 : fld ((0 : BitVec 16) ++ xsc ++ xsb ++ xsa ++ xsd) 8 4 = xsb := by
    show ((0 : BitVec 16) ++ xsc ++ xsb ++ xsa ++ xsd).extractLsb' 8 4 = _
    simp (disch := omega) only [extract_low, extract_high, extract_whole]
  have h7 : fld ((0 : BitVec 16) ++ xsc ++ xsb ++ xsa ++ xsd) 4 4 = xsa := by
    show ((0 : BitVec 16) ++ xsc ++ xsb ++ xsa ++ xsd).extractLsb' 4 4 = _
    simp (disch := omega) only [extract_low, extract_high, extract_whole]
  have h8 : fld ((0 : BitVec 16) ++ xsc ++ xsb ++ xsa ++ xsd) 0 4 = xsd := by
    show ((0 : BitVec 16) ++ xsc ++ xsb ++ xsa ++ xsd).extractLsb' 0 4 = _
    simp (disch := omega) only [extract_low, extract_high, extract_whole]
  have h9 : fld ((0 : BitVec 13) ++ xnest) 0 19 = xnest := by
    show ((0 : BitVec 13) ++ xnest).extractLsb' 0 19 = _
    simp (disch := omega) only [extract_low, extract_high, extract_whole]
  obtain ⟨w0, hw, ht, heng, hop, hc⟩ := wE_fields t 1 1 ((0 : BitVec 10) ++ xmode ++ xrnd ++ xty ++ xmajor ++ xfunc) ((0 : BitVec 16) ++ xsc ++ xsb ++ xsa ++ xsd) ((0 : BitVec 13) ++ xnest)
  show candidate (wE t 1 1 ((0 : BitVec 10) ++ xmode ++ xrnd ++ xty ++ xmajor ++ xfunc) ((0 : BitVec 16) ++ xsc ++ xsb ++ xsa ++ xsd) ((0 : BitVec 13) ++ xnest)) = _
  rw [hw, cand_E _ _ _ _ _ _ _ _ hc]
  generalize ((0 : BitVec 10) ++ xmode ++ xrnd ++ xty ++ xmajor ++ xfunc : IWord) = v3 at *
  generalize ((0 : BitVec 16) ++ xsc ++ xsb ++ xsa ++ xsd : IWord) = v4 at *
  generalize ((0 : BitVec 13) ++ xnest : IWord) = v5 at *
  subst h0 h1 h2 h3 h4 h5 h6 h7 h8 h9
  unfold candE
  rw [heng, hop, ht]; rfl
theorem sortc (t : Timing) (f : SortF) : Statement (.sortc t f) := by
  intro _
  obtain ⟨xfromTag, xoffsEn, xoffs, xcnt, xperm, xidSrc, xrows, xnexp, xidBase⟩ := f
  have h0 : fld ((0 : BitVec 6) ++ xfromTag ++ xoffsEn ++ xoffs ++ xcnt ++ xperm ++ xidSrc ++ (0 : BitVec 2) ++ xrows) 25 1 = xfromTag := by
    show ((0 : BitVec 6) ++ xfromTag ++ xoffsEn ++ xoffs ++ xcnt ++ xperm ++ xidSrc ++ (0 : BitVec 2) ++ xrows).extractLsb' 25 1 = _
    simp (disch := omega) only [extract_low, extract_high, extract_whole]
  have h1 : fld ((0 : BitVec 6) ++ xfromTag ++ xoffsEn ++ xoffs ++ xcnt ++ xperm ++ xidSrc ++ (0 : BitVec 2) ++ xrows) 24 1 = xoffsEn := by
    show ((0 : BitVec 6) ++ xfromTag ++ xoffsEn ++ xoffs ++ xcnt ++ xperm ++ xidSrc ++ (0 : BitVec 2) ++ xrows).extractLsb' 24 1 = _
    simp (disch := omega) only [extract_low, extract_high, extract_whole]
  have h2 : fld ((0 : BitVec 6) ++ xfromTag ++ xoffsEn ++ xoffs ++ xcnt ++ xperm ++ xidSrc ++ (0 : BitVec 2) ++ xrows) 20 4 = xoffs := by
    show ((0 : BitVec 6) ++ xfromTag ++ xoffsEn ++ xoffs ++ xcnt ++ xperm ++ xidSrc ++ (0 : BitVec 2) ++ xrows).extractLsb' 20 4 = _
    simp (disch := omega) only [extract_low, extract_high, extract_whole]
  have h3 : fld ((0 : BitVec 6) ++ xfromTag ++ xoffsEn ++ xoffs ++ xcnt ++ xperm ++ xidSrc ++ (0 : BitVec 2) ++ xrows) 16 4 = xcnt := by
    show ((0 : BitVec 6) ++ xfromTag ++ xoffsEn ++ xoffs ++ xcnt ++ xperm ++ xidSrc ++ (0 : BitVec 2) ++ xrows).extractLsb' 16 4 = _
    simp (disch := omega) only [extract_low, extract_high, extract_whole]
  have h4 : fld ((0 : BitVec 6) ++ xfromTag ++ xoffsEn ++ xoffs ++ xcnt ++ xperm ++ xidSrc ++ (0 : BitVec 2) ++ xrows) 12 4 = xperm := by
    show ((0 : BitVec 6) ++ xfromTag ++ xoffsEn ++ xoffs ++ xcnt ++ xperm ++ xidSrc ++ (0 : BitVec 2) ++ xrows).extractLsb' 12 4 = _
    simp (disch := omega) only [extract_low, extract_high, extract_whole]
  have h5 : fld ((0 : BitVec 6) ++ xfromTag ++ xoffsEn ++ xoffs ++ xcnt ++ xperm ++ xidSrc ++ (0 : BitVec 2) ++ xrows) 8 4 = xidSrc := by
    show ((0 : BitVec 6) ++ xfromTag ++ xoffsEn ++ xoffs ++ xcnt ++ xperm ++ xidSrc ++ (0 : BitVec 2) ++ xrows).extractLsb' 8 4 = _
    simp (disch := omega) only [extract_low, extract_high, extract_whole]
  have h6 : fld ((0 : BitVec 6) ++ xfromTag ++ xoffsEn ++ xoffs ++ xcnt ++ xperm ++ xidSrc ++ (0 : BitVec 2) ++ xrows) 0 6 = xrows := by
    show ((0 : BitVec 6) ++ xfromTag ++ xoffsEn ++ xoffs ++ xcnt ++ xperm ++ xidSrc ++ (0 : BitVec 2) ++ xrows).extractLsb' 0 6 = _
    simp (disch := omega) only [extract_low, extract_high, extract_whole]
  have h7 : fld ((0 : BitVec 19) ++ xnexp) 0 13 = xnexp := by
    show ((0 : BitVec 19) ++ xnexp).extractLsb' 0 13 = _
    simp (disch := omega) only [extract_low, extract_high, extract_whole]
  have h8 : fld ((0 : BitVec 16) ++ xidBase) 0 16 = xidBase := by
    show ((0 : BitVec 16) ++ xidBase).extractLsb' 0 16 = _
    simp (disch := omega) only [extract_low, extract_high, extract_whole]
  obtain ⟨w0, hw, ht, heng, hop, hc⟩ := wE_fields t 1 2 ((0 : BitVec 6) ++ xfromTag ++ xoffsEn ++ xoffs ++ xcnt ++ xperm ++ xidSrc ++ (0 : BitVec 2) ++ xrows) ((0 : BitVec 19) ++ xnexp) ((0 : BitVec 16) ++ xidBase)
  show candidate (wE t 1 2 ((0 : BitVec 6) ++ xfromTag ++ xoffsEn ++ xoffs ++ xcnt ++ xperm ++ xidSrc ++ (0 : BitVec 2) ++ xrows) ((0 : BitVec 19) ++ xnexp) ((0 : BitVec 16) ++ xidBase)) = _
  rw [hw, cand_E _ _ _ _ _ _ _ _ hc]
  generalize ((0 : BitVec 6) ++ xfromTag ++ xoffsEn ++ xoffs ++ xcnt ++ xperm ++ xidSrc ++ (0 : BitVec 2) ++ xrows : IWord) = v3 at *
  generalize ((0 : BitVec 19) ++ xnexp : IWord) = v4 at *
  generalize ((0 : BitVec 16) ++ xidBase : IWord) = v5 at *
  subst h0 h1 h2 h3 h4 h5 h6 h7 h8
  unfold candE
  rw [heng, hop, ht]; rfl
theorem xld (t : Timing) (f : XferF) : Statement (.xld t f) := by
  intro _
  obtain ⟨w0, hw, ht, heng, hop, hc⟩ := wE_fields t 2 1 f.words.1 f.words.2 0
  have hx := xferF_words f
  show candidate (wE t 2 1 f.words.1 f.words.2 0) = _
  rw [hw, cand_E _ _ _ _ _ _ _ _ hc]
  unfold candE
  rw [heng, hop, ht]
  exact congrArg (fun x => some (Instr.xld t x)) hx
theorem xst (t : Timing) (f : XferF) : Statement (.xst t f) := by
  intro _
  obtain ⟨w0, hw, ht, heng, hop, hc⟩ := wE_fields t 3 1 f.words.1 f.words.2 0
  have hx := xferF_words f
  show candidate (wE t 3 1 f.words.1 f.words.2 0) = _
  rw [hw, cand_E _ _ _ _ _ _ _ _ hc]
  unfold candE
  rw [heng, hop, ht]
  exact congrArg (fun x => some (Instr.xst t x)) hx
theorem resume (t : Timing) (q : EngQ) : Statement (.resume t q) := by
  intro _
  obtain ⟨w0, hw, ht, heng, hop, hc⟩ := wE_fields t (BitVec.ofNat 3 q.code) 0x3D (0) (0) (0)
  show candidate (wE t (BitVec.ofNat 3 q.code) 0x3D (0) (0) (0)) = _
  rw [hw, cand_E _ _ _ _ _ _ _ _ hc]
  unfold candE
  rw [heng, hop, ht]; cases q <;> rfl
theorem esave (t : Timing) (q : EngQ) (img : BitVec 19) : Statement (.esave t q img) := by
  intro _
  have h0 : fld ((0 : BitVec 13) ++ img) 0 19 = img := by
    show ((0 : BitVec 13) ++ img).extractLsb' 0 19 = _
    simp (disch := omega) only [extract_low, extract_high, extract_whole]
  obtain ⟨w0, hw, ht, heng, hop, hc⟩ := wE_fields t (BitVec.ofNat 3 q.code) 0x3E ((0 : BitVec 13) ++ img) (0) (0)
  show candidate (wE t (BitVec.ofNat 3 q.code) 0x3E ((0 : BitVec 13) ++ img) (0) (0)) = _
  rw [hw, cand_E _ _ _ _ _ _ _ _ hc]
  generalize ((0 : BitVec 13) ++ img : IWord) = v3 at *
  subst h0
  unfold candE
  rw [heng, hop, ht]; cases q <;> rfl
theorem eload (t : Timing) (q : EngQ) (img : BitVec 19) : Statement (.eload t q img) := by
  intro _
  have h0 : fld ((0 : BitVec 13) ++ img) 0 19 = img := by
    show ((0 : BitVec 13) ++ img).extractLsb' 0 19 = _
    simp (disch := omega) only [extract_low, extract_high, extract_whole]
  obtain ⟨w0, hw, ht, heng, hop, hc⟩ := wE_fields t (BitVec.ofNat 3 q.code) 0x3F ((0 : BitVec 13) ++ img) (0) (0)
  show candidate (wE t (BitVec.ofNat 3 q.code) 0x3F ((0 : BitVec 13) ++ img) (0) (0)) = _
  rw [hw, cand_E _ _ _ _ _ _ _ _ hc]
  generalize ((0 : BitVec 13) ++ img : IWord) = v3 at *
  subst h0
  unfold candE
  rw [heng, hop, ht]; cases q <;> rfl
theorem cpy (t : Timing) (f : CopyF) : Statement (.cpy t f) := by
  intro _
  obtain ⟨w0, hw, ht, heng, hop, hc⟩ := wE_fields t 4 1 f.words.1 f.words.2 0
  have hx := copyF_words f
  show candidate (wE t 4 1 f.words.1 f.words.2 0) = _
  rw [hw, cand_E _ _ _ _ _ _ _ _ hc]
  unfold candE
  rw [heng, hop, ht]
  exact congrArg (fun x => some (Instr.cpy t x)) hx
theorem cpyc (t : Timing) (f : CopyF) : Statement (.cpyc t f) := by
  intro _
  obtain ⟨w0, hw, ht, heng, hop, hc⟩ := wE_fields t 4 2 f.words.1 f.words.2 0
  have hx := copyF_words f
  show candidate (wE t 4 2 f.words.1 f.words.2 0) = _
  rw [hw, cand_E _ _ _ _ _ _ _ _ hc]
  unfold candE
  rw [heng, hop, ht]
  exact congrArg (fun x => some (Instr.cpyc t x)) hx
theorem ckpt (t : Timing) (f : CopyF) : Statement (.ckpt t f) := by
  intro _
  obtain ⟨w0, hw, ht, heng, hop, hc⟩ := wE_fields t 4 3 f.words.1 f.words.2 0
  have hx := copyF_words f
  show candidate (wE t 4 3 f.words.1 f.words.2 0) = _
  rw [hw, cand_E _ _ _ _ _ _ _ _ hc]
  unfold candE
  rw [heng, hop, ht]
  exact congrArg (fun x => some (Instr.ckpt t x)) hx
theorem lrflush (t : Timing) (r : Reg) : Statement (.lrflush t r) := by
  intro _
  have h0 : fld ((0 : BitVec 20) ++ r ++ (0 : BitVec 6)) 6 6 = r := by
    show ((0 : BitVec 20) ++ r ++ (0 : BitVec 6)).extractLsb' 6 6 = _
    simp (disch := omega) only [extract_low, extract_high, extract_whole]
  obtain ⟨w0, hw, ht, heng, hop, hc⟩ := wE_fields t 4 4 ((0 : BitVec 20) ++ r ++ (0 : BitVec 6)) (0) (0)
  show candidate (wE t 4 4 ((0 : BitVec 20) ++ r ++ (0 : BitVec 6)) (0) (0)) = _
  rw [hw, cand_E _ _ _ _ _ _ _ _ hc]
  generalize ((0 : BitVec 20) ++ r ++ (0 : BitVec 6) : IWord) = v3 at *
  subst h0
  unfold candE
  rw [heng, hop, ht]; rfl
theorem xsend (t : Timing) (f : ExchF) : Statement (.xsend t f) := by
  intro _
  obtain ⟨w0, hw, ht, heng, hop, hc⟩ := wE_fields t 5 1 f.words.1 f.words.2 0
  have hx := exchF_words f
  show candidate (wE t 5 1 f.words.1 f.words.2 0) = _
  rw [hw, cand_E _ _ _ _ _ _ _ _ hc]
  unfold candE
  rw [heng, hop, ht]
  exact congrArg (fun x => some (Instr.xsend t x)) hx
theorem xrecv (t : Timing) (f : ExchF) : Statement (.xrecv t f) := by
  intro _
  obtain ⟨w0, hw, ht, heng, hop, hc⟩ := wE_fields t 5 2 f.words.1 f.words.2 0
  have hx := exchF_words f
  show candidate (wE t 5 2 f.words.1 f.words.2 0) = _
  rw [hw, cand_E _ _ _ _ _ _ _ _ hc]
  unfold candE
  rw [heng, hop, ht]
  exact congrArg (fun x => some (Instr.xrecv t x)) hx
theorem dispatch (t : Timing) (f : DispF) : Statement (.dispatch t f) := by
  intro _
  obtain ⟨xc, xd, xnexp, xbase⟩ := f
  have h0 : fld ((0 : BitVec 7) ++ xnexp ++ xd ++ xc) 0 6 = xc := by
    show ((0 : BitVec 7) ++ xnexp ++ xd ++ xc).extractLsb' 0 6 = _
    simp (disch := omega) only [extract_low, extract_high, extract_whole]
  have h1 : fld ((0 : BitVec 7) ++ xnexp ++ xd ++ xc) 6 6 = xd := by
    show ((0 : BitVec 7) ++ xnexp ++ xd ++ xc).extractLsb' 6 6 = _
    simp (disch := omega) only [extract_low, extract_high, extract_whole]
  have h2 : fld ((0 : BitVec 7) ++ xnexp ++ xd ++ xc) 12 13 = xnexp := by
    show ((0 : BitVec 7) ++ xnexp ++ xd ++ xc).extractLsb' 12 13 = _
    simp (disch := omega) only [extract_low, extract_high, extract_whole]
  have h3 : fld ((0 : BitVec 16) ++ xbase) 0 16 = xbase := by
    show ((0 : BitVec 16) ++ xbase).extractLsb' 0 16 = _
    simp (disch := omega) only [extract_low, extract_high, extract_whole]
  obtain ⟨w0, hw, ht, heng, hop, hc⟩ := wE_fields t 6 1 ((0 : BitVec 7) ++ xnexp ++ xd ++ xc) ((0 : BitVec 16) ++ xbase) (0)
  show candidate (wE t 6 1 ((0 : BitVec 7) ++ xnexp ++ xd ++ xc) ((0 : BitVec 16) ++ xbase) (0)) = _
  rw [hw, cand_E _ _ _ _ _ _ _ _ hc]
  generalize ((0 : BitVec 7) ++ xnexp ++ xd ++ xc : IWord) = v3 at *
  generalize ((0 : BitVec 16) ++ xbase : IWord) = v4 at *
  subst h0 h1 h2 h3
  unfold candE
  rw [heng, hop, ht]; rfl
theorem wlnext (t : Timing) (d : Reg) (q : PReg) : Statement (.wlnext t d q) := by
  intro _
  have h0 : fld ((0 : BitVec 19) ++ q ++ d) 0 6 = d := by
    show ((0 : BitVec 19) ++ q ++ d).extractLsb' 0 6 = _
    simp (disch := omega) only [extract_low, extract_high, extract_whole]
  have h1 : fld ((0 : BitVec 19) ++ q ++ d) 6 7 = q := by
    show ((0 : BitVec 19) ++ q ++ d).extractLsb' 6 7 = _
    simp (disch := omega) only [extract_low, extract_high, extract_whole]
  obtain ⟨w0, hw, ht, heng, hop, hc⟩ := wE_fields t 6 2 ((0 : BitVec 19) ++ q ++ d) (0) (0)
  show candidate (wE t 6 2 ((0 : BitVec 19) ++ q ++ d) (0) (0)) = _
  rw [hw, cand_E _ _ _ _ _ _ _ _ hc]
  generalize ((0 : BitVec 19) ++ q ++ d : IWord) = v3 at *
  subst h0 h1
  unfold candE
  rw [heng, hop, ht]; rfl
theorem wid (t : Timing) (d : Reg) : Statement (.wid t d) := by
  intro _
  have h0 : fld ((0 : BitVec 26) ++ d) 0 6 = d := by
    show ((0 : BitVec 26) ++ d).extractLsb' 0 6 = _
    simp (disch := omega) only [extract_low, extract_high, extract_whole]
  obtain ⟨w0, hw, ht, heng, hop, hc⟩ := wE_fields t 6 3 ((0 : BitVec 26) ++ d) (0) (0)
  show candidate (wE t 6 3 ((0 : BitVec 26) ++ d) (0) (0)) = _
  rw [hw, cand_E _ _ _ _ _ _ _ _ hc]
  generalize ((0 : BitVec 26) ++ d : IWord) = v3 at *
  subst h0
  unfold candE
  rw [heng, hop, ht]; rfl
theorem queueEntryStart (core : Nat) (q : Nat) : Statement (.queueEntryStart core q) := by
  intro h; exact absurd (show false = true from h) (by decide)
theorem queueEntryComplete (core : Nat) (q : Nat) (id : Nat) : Statement (.queueEntryComplete core q id) := by
  intro h; exact absurd (show false = true from h) (by decide)
theorem residencyLoadBegin (core : Nat) (ld : Nat) : Statement (.residencyLoadBegin core ld) := by
  intro h; exact absurd (show false = true from h) (by decide)
theorem residencyLoadEnd (core : Nat) (ld : Nat) : Statement (.residencyLoadEnd core ld) := by
  intro h; exact absurd (show false = true from h) (by decide)
theorem banisterCompare (core : Nat) (id : Nat) : Statement (.banisterCompare core id) := by
  intro h; exact absurd (show false = true from h) (by decide)
theorem patrolScrub (group : Nat) : Statement (.patrolScrub group) := by
  intro h; exact absurd (show false = true from h) (by decide)
theorem waitRelease (uid : Nat) (status : Nat) : Statement (.waitRelease uid status) := by
  intro h; exact absurd (show false = true from h) (by decide)
theorem waittExpire (uid : Nat) : Statement (.waittExpire uid) := by
  intro h; exact absurd (show false = true from h) (by decide)
theorem landComplete (uid : Nat) : Statement (.landComplete uid) := by
  intro h; exact absurd (show false = true from h) (by decide)
theorem contextExit (uid : Nat) : Statement (.contextExit uid) := by
  intro h; exact absurd (show false = true from h) (by decide)
theorem gsyncRelease (team : Nat) : Statement (.gsyncRelease team) := by
  intro h; exact absurd (show false = true from h) (by decide)
theorem dispatchRelease (team : Nat) : Statement (.dispatchRelease team) := by
  intro h; exact absurd (show false = true from h) (by decide)
theorem dispatchClaimRetry (team : Nat) : Statement (.dispatchClaimRetry team) := by
  intro h; exact absurd (show false = true from h) (by decide)
theorem deferWindowEnd (uid : Nat) : Statement (.deferWindowEnd uid) := by
  intro h; exact absurd (show false = true from h) (by decide)
theorem budgetExpire (uid : Nat) : Statement (.budgetExpire uid) := by
  intro h; exact absurd (show false = true from h) (by decide)
theorem copyStart (eng : Nat) (id : Nat) : Statement (.copyStart eng id) := by
  intro h; exact absurd (show false = true from h) (by decide)
theorem copyWordLand (eng : Nat) (id : Nat) (j : Nat) : Statement (.copyWordLand eng id j) := by
  intro h; exact absurd (show false = true from h) (by decide)
theorem autoExtend (ref : Nat) : Statement (.autoExtend ref) := by
  intro h; exact absurd (show false = true from h) (by decide)
theorem lapse (ref : Nat) : Statement (.lapse ref) := by
  intro h; exact absurd (show false = true from h) (by decide)
theorem graceEnd (ref : Nat) : Statement (.graceEnd ref) := by
  intro h; exact absurd (show false = true from h) (by decide)
theorem subletEnd (ref : Nat) : Statement (.subletEnd ref) := by
  intro h; exact absurd (show false = true from h) (by decide)
theorem scrubComplete (ref : Nat) : Statement (.scrubComplete ref) := by
  intro h; exact absurd (show false = true from h) (by decide)
theorem pageRetire (vd : Nat) (page : Nat) : Statement (.pageRetire vd page) := by
  intro h; exact absurd (show false = true from h) (by decide)
theorem sqTailWrite (vd : Nat) (q : Nat) (val : Nat) : Statement (.sqTailWrite vd q val) := by
  intro h; exact absurd (show false = true from h) (by decide)
theorem kick (vd : Nat) (q : Nat) : Statement (.kick vd q) := by
  intro h; exact absurd (show false = true from h) (by decide)
theorem kickScan (vd : Nat) (q : Nat) : Statement (.kickScan vd q) := by
  intro h; exact absurd (show false = true from h) (by decide)
theorem cqHeadWrite (vd : Nat) (q : Nat) (val : Nat) : Statement (.cqHeadWrite vd q val) := by
  intro h; exact absurd (show false = true from h) (by decide)
theorem completionWrite (vd : Nat) : Statement (.completionWrite vd) := by
  intro h; exact absurd (show false = true from h) (by decide)
theorem coalesceTimeout (vd : Nat) (q : Nat) : Statement (.coalesceTimeout vd q) := by
  intro h; exact absurd (show false = true from h) (by decide)
theorem queueEnable (vd : Nat) (q : Nat) (val : Nat) : Statement (.queueEnable vd q val) := by
  intro h; exact absurd (show false = true from h) (by decide)
theorem queueDrain (vd : Nat) (q : Nat) : Statement (.queueDrain vd q) := by
  intro h; exact absurd (show false = true from h) (by decide)
theorem queueDrainDone (vd : Nat) (q : Nat) : Statement (.queueDrainDone vd q) := by
  intro h; exact absurd (show false = true from h) (by decide)
theorem prHeadWrite (vd : Nat) (val : Nat) : Statement (.prHeadWrite vd val) := by
  intro h; exact absurd (show false = true from h) (by decide)
theorem pageRelease (vd : Nat) (page : Nat) : Statement (.pageRelease vd page) := by
  intro h; exact absurd (show false = true from h) (by decide)
theorem pageClaim (vd : Nat) (page : Nat) : Statement (.pageClaim vd page) := by
  intro h; exact absurd (show false = true from h) (by decide)
theorem pageClaimGrant (vd : Nat) : Statement (.pageClaimGrant vd) := by
  intro h; exact absurd (show false = true from h) (by decide)
theorem hostCxlMemAccess (vd : Nat) (addr : Nat) (write : Nat) (val : Nat) : Statement (.hostCxlMemAccess vd addr write val) := by
  intro h; exact absurd (show false = true from h) (by decide)
theorem freezeComplete (vd : Nat) : Statement (.freezeComplete vd) := by
  intro h; exact absurd (show false = true from h) (by decide)
theorem finalTransferReceive (vd : Nat) : Statement (.finalTransferReceive vd) := by
  intro h; exact absurd (show false = true from h) (by decide)
theorem loadComplete (vd : Nat) : Statement (.loadComplete vd) := by
  intro h; exact absurd (show false = true from h) (by decide)
theorem cxlPoisonReturn (id : Nat) (j : Nat) : Statement (.cxlPoisonReturn id j) := by
  intro h; exact absurd (show false = true from h) (by decide)
theorem cxlCompletionTimeout (id : Nat) (j : Nat) : Statement (.cxlCompletionTimeout id j) := by
  intro h; exact absurd (show false = true from h) (by decide)
theorem cxlLinkDown (link : Nat) : Statement (.cxlLinkDown link) := by
  intro h; exact absurd (show false = true from h) (by decide)
theorem nodePacketReceive (vd : Nat) (addr : Nat) (seq : Nat) (val : Nat) : Statement (.nodePacketReceive vd addr seq val) := by
  intro h; exact absurd (show false = true from h) (by decide)
theorem packetAckTimeout (pkt : Nat) : Statement (.packetAckTimeout pkt) := by
  intro h; exact absurd (show false = true from h) (by decide)
theorem packetRefusedResend (pkt : Nat) : Statement (.packetRefusedResend pkt) := by
  intro h; exact absurd (show false = true from h) (by decide)
theorem poolExtentAdd (die : Nat) (base : Nat) (pages : Nat) : Statement (.poolExtentAdd die base pages) := by
  intro h; exact absurd (show false = true from h) (by decide)
theorem poolExtentRelease (die : Nat) (base : Nat) (pages : Nat) : Statement (.poolExtentRelease die base pages) := by
  intro h; exact absurd (show false = true from h) (by decide)
theorem teamIssue (team : Nat) : Statement (.teamIssue team) := by
  intro h; exact absurd (show false = true from h) (by decide)
theorem stageStart (launch : Nat) : Statement (.stageStart launch) := by
  intro h; exact absurd (show false = true from h) (by decide)
theorem stageComplete (launch : Nat) : Statement (.stageComplete launch) := by
  intro h; exact absurd (show false = true from h) (by decide)
theorem sliceEnd (vd : Nat) : Statement (.sliceEnd vd) := by
  intro h; exact absurd (show false = true from h) (by decide)
theorem regionBoundaryTimeout (uid : Nat) : Statement (.regionBoundaryTimeout uid) := by
  intro h; exact absurd (show false = true from h) (by decide)
theorem contextSaveDone (uid : Nat) : Statement (.contextSaveDone uid) := by
  intro h; exact absurd (show false = true from h) (by decide)
theorem teamResume (team : Nat) : Statement (.teamResume team) := by
  intro h; exact absurd (show false = true from h) (by decide)
theorem teamAged (team : Nat) : Statement (.teamAged team) := by
  intro h; exact absurd (show false = true from h) (by decide)
theorem launchEnd (launch : Nat) : Statement (.launchEnd launch) := by
  intro h; exact absurd (show false = true from h) (by decide)
theorem knownAnswerTest (core : Nat) (cls : Nat) : Statement (.knownAnswerTest core cls) := by
  intro h; exact absurd (show false = true from h) (by decide)
theorem breakpointMatch (core : Nat) : Statement (.breakpointMatch core) := by
  intro h; exact absurd (show false = true from h) (by decide)
theorem countedLoadReturn (uid : Nat) (ld : Nat) : Statement (.countedLoadReturn uid ld) := by
  intro h; exact absurd (show false = true from h) (by decide)
theorem codesyncComplete (uid : Nat) : Statement (.codesyncComplete uid) := by
  intro h; exact absurd (show false = true from h) (by decide)
theorem storeBecomesVisible (landing : Nat) (uid : Nat) : Statement (.storeBecomesVisible landing uid) := by
  intro h; exact absurd (show false = true from h) (by decide)
theorem storageError (word : Nat) (pattern : Nat) : Statement (.storageError word pattern) := by
  intro h; exact absurd (show false = true from h) (by decide)
theorem transferCountedComplete (vd : Nat) : Statement (.transferCountedComplete vd) := by
  intro h; exact absurd (show false = true from h) (by decide)
theorem scaleOutPortDown (port : Nat) : Statement (.scaleOutPortDown port) := by
  intro h; exact absurd (show false = true from h) (by decide)
theorem halt : Statement (.halt) := by
  intro _
  show candidate [wA 0 0 0 0 0x08] = _
  rw [cand_A _ (wA_class ..)]
  have hd := wA_d 0 0 0 0 0x08
  have ha := wA_a 0 0 0 0 0x08
  have hb := wA_b 0 0 0 0 0x08
  have hf := wA_f 0 0 0 0 0x08
  have hm := wA_major 0 0 0 0 0x08
  unfold candA
  generalize wA 0 0 0 0 0x08 = w at *
  rw [hm, hf]; rfl
theorem segFree : Statement (.segFree) := by
  intro _
  show candidate [wA 2 0 0 0 0x08] = _
  rw [cand_A _ (wA_class ..)]
  have hd := wA_d 2 0 0 0 0x08
  have ha := wA_a 2 0 0 0 0x08
  have hb := wA_b 2 0 0 0 0x08
  have hf := wA_f 2 0 0 0 0x08
  have hm := wA_major 2 0 0 0 0x08
  unfold candA
  generalize wA 2 0 0 0 0x08 = w at *
  rw [hm, hf]; rfl
theorem segTimed : Statement (.segTimed) := by
  intro _
  show candidate [wA 3 0 0 0 0x08] = _
  rw [cand_A _ (wA_class ..)]
  have hd := wA_d 3 0 0 0 0x08
  have ha := wA_a 3 0 0 0 0x08
  have hb := wA_b 3 0 0 0 0x08
  have hf := wA_f 3 0 0 0 0x08
  have hm := wA_major 3 0 0 0 0x08
  unfold candA
  generalize wA 3 0 0 0 0x08 = w at *
  rw [hm, hf]; rfl
theorem tret : Statement (.tret) := by
  intro _
  show candidate [wA 0 0 0 0 0x09] = _
  rw [cand_A _ (wA_class ..)]
  have hd := wA_d 0 0 0 0 0x09
  have ha := wA_a 0 0 0 0 0x09
  have hb := wA_b 0 0 0 0 0x09
  have hf := wA_f 0 0 0 0 0x09
  have hm := wA_major 0 0 0 0 0x09
  unfold candA
  generalize wA 0 0 0 0 0x09 = w at *
  rw [hm, hf]; rfl
theorem ifence : Statement (.ifence) := by
  intro _
  show candidate [wA 1 0 0 0 0x09] = _
  rw [cand_A _ (wA_class ..)]
  have hd := wA_d 1 0 0 0 0x09
  have ha := wA_a 1 0 0 0 0x09
  have hb := wA_b 1 0 0 0 0x09
  have hf := wA_f 1 0 0 0 0x09
  have hm := wA_major 1 0 0 0 0x09
  unfold candA
  generalize wA 1 0 0 0 0x09 = w at *
  rw [hm, hf]; rfl
theorem codesync : Statement (.codesync) := by
  intro _
  show candidate [wA 2 0 0 0 0x09] = _
  rw [cand_A _ (wA_class ..)]
  have hd := wA_d 2 0 0 0 0x09
  have ha := wA_a 2 0 0 0 0x09
  have hb := wA_b 2 0 0 0 0x09
  have hf := wA_f 2 0 0 0 0x09
  have hm := wA_major 2 0 0 0 0x09
  unfold candA
  generalize wA 2 0 0 0 0x09 = w at *
  rw [hm, hf]; rfl
theorem bkpt : Statement (.bkpt) := by
  intro _
  show candidate [wA 3 0 0 0 0x09] = _
  rw [cand_A _ (wA_class ..)]
  have hd := wA_d 3 0 0 0 0x09
  have ha := wA_a 3 0 0 0 0x09
  have hb := wA_b 3 0 0 0 0x09
  have hf := wA_f 3 0 0 0 0x09
  have hm := wA_major 3 0 0 0 0x09
  unfold candA
  generalize wA 3 0 0 0 0x09 = w at *
  rw [hm, hf]; rfl
theorem rgclose : Statement (.rgclose) := by
  intro _
  show candidate [wA 0 0 0 0 0x0A] = _
  rw [cand_A _ (wA_class ..)]
  have hd := wA_d 0 0 0 0 0x0A
  have ha := wA_a 0 0 0 0 0x0A
  have hb := wA_b 0 0 0 0 0x0A
  have hf := wA_f 0 0 0 0 0x0A
  have hm := wA_major 0 0 0 0 0x0A
  unfold candA
  generalize wA 0 0 0 0 0x0A = w at *
  rw [hm, hf]; rfl
theorem rgabort : Statement (.rgabort) := by
  intro _
  show candidate [wA 1 0 0 0 0x0A] = _
  rw [cand_A _ (wA_class ..)]
  have hd := wA_d 1 0 0 0 0x0A
  have ha := wA_a 1 0 0 0 0x0A
  have hb := wA_b 1 0 0 0 0x0A
  have hf := wA_f 1 0 0 0 0x0A
  have hm := wA_major 1 0 0 0 0x0A
  unfold candA
  generalize wA 1 0 0 0 0x0A = w at *
  rw [hm, hf]; rfl
theorem createVd : Statement (.createVd) := by
  intro h; exact absurd (show false = true from h) (by decide)
theorem destroyVd : Statement (.destroyVd) := by
  intro h; exact absurd (show false = true from h) (by decide)
theorem exportVd : Statement (.exportVd) := by
  intro h; exact absurd (show false = true from h) (by decide)
theorem roundVd : Statement (.roundVd) := by
  intro h; exact absurd (show false = true from h) (by decide)
theorem freeze : Statement (.freeze) := by
  intro h; exact absurd (show false = true from h) (by decide)
theorem finalVd : Statement (.finalVd) := by
  intro h; exact absurd (show false = true from h) (by decide)
theorem importVd : Statement (.importVd) := by
  intro h; exact absurd (show false = true from h) (by decide)
theorem activate : Statement (.activate) := by
  intro h; exact absurd (show false = true from h) (by decide)
theorem thaw : Statement (.thaw) := by
  intro h; exact absurd (show false = true from h) (by decide)
theorem grent : Statement (.grent) := by
  intro h; exact absurd (show false = true from h) (by decide)
theorem loadVd : Statement (.loadVd) := by
  intro h; exact absurd (show false = true from h) (by decide)
theorem codereg : Statement (.codereg) := by
  intro h; exact absurd (show false = true from h) (by decide)
theorem codefree : Statement (.codefree) := by
  intro h; exact absurd (show false = true from h) (by decide)
theorem grelease : Statement (.grelease) := by
  intro h; exact absurd (show false = true from h) (by decide)
theorem grenew : Statement (.grenew) := by
  intro h; exact absurd (show false = true from h) (by decide)
theorem allowAdd : Statement (.allowAdd) := by
  intro h; exact absurd (show false = true from h) (by decide)
theorem vdParamWrite : Statement (.vdParamWrite) := by
  intro h; exact absurd (show false = true from h) (by decide)
theorem registerWrite : Statement (.registerWrite) := by
  intro h; exact absurd (show false = true from h) (by decide)
theorem domainApply : Statement (.domainApply) := by
  intro h; exact absurd (show false = true from h) (by decide)
theorem powerLimitWrite : Statement (.powerLimitWrite) := by
  intro h; exact absurd (show false = true from h) (by decide)
theorem powerSample : Statement (.powerSample) := by
  intro h; exact absurd (show false = true from h) (by decide)
theorem supplyCut : Statement (.supplyCut) := by
  intro h; exact absurd (show false = true from h) (by decide)
theorem moduleReset : Statement (.moduleReset) := by
  intro h; exact absurd (show false = true from h) (by decide)
theorem getVersion : Statement (.getVersion) := by
  intro h; exact absurd (show false = true from h) (by decide)
theorem getCapabilities : Statement (.getCapabilities) := by
  intro h; exact absurd (show false = true from h) (by decide)
theorem negotiateAlgorithms : Statement (.negotiateAlgorithms) := by
  intro h; exact absurd (show false = true from h) (by decide)
theorem getDigests : Statement (.getDigests) := by
  intro h; exact absurd (show false = true from h) (by decide)
theorem getCertificate : Statement (.getCertificate) := by
  intro h; exact absurd (show false = true from h) (by decide)
theorem challenge : Statement (.challenge) := by
  intro h; exact absurd (show false = true from h) (by decide)
theorem getMeasurements : Statement (.getMeasurements) := by
  intro h; exact absurd (show false = true from h) (by decide)
theorem scoreboardReevaluate : Statement (.scoreboardReevaluate) := by
  intro h; exact absurd (show false = true from h) (by decide)
theorem newelTakeover : Statement (.newelTakeover) := by
  intro h; exact absurd (show false = true from h) (by decide)
theorem illegalEncoding : Statement (.illegalEncoding) := by
  intro h; exact absurd (show false = true from h) (by decide)
theorem standbyNewelFailure : Statement (.standbyNewelFailure) := by
  intro h; exact absurd (show false = true from h) (by decide)

end RoundTrip

end Sys2Proof.Laws
end

