-- ==== Sys2Proof/Laws/Scalar.lean ====
section
/-!
SUPPORT. What each shared operation of the scalar, predicate and control instructions does when its checks pass.
-/
namespace Sys2Proof.Laws
open Sys2Proof Sys2Proof.Machine

variable {s : State} {c : Ctx}

/-- No check of R97 stops an instruction that declares these bits. -/
abbrev Clear (c : Ctx) (bits : List Nat) : Prop := ∀ b ∈ bits, c.useMask.getLsbD b = true ∧ c.capMask.getLsbD b = true

/-- A meaning that answers a state is the whole outcome. -/
theorem onCore_ok {bits : List Nat} {f : State → Ctx → Res State} {t : State} (hc : s.cx = some c) (h : Clear c bits)
    (hf : f s c = .ok t) : onCore bits f s = .next t := by
  rw [onCore_runs bits f hc h, hf]

/-- A meaning that traps takes its trap and nothing else. -/
theorem onCore_trap {bits : List Nat} {f : State → Ctx → Res State} {t : Trap} (hc : s.cx = some c) (h : Clear c bits)
    (hf : f s c = .error t) : onCore bits f s = .next (takeFault s c.uid t c.pc) := by
  rw [onCore_runs bits f hc h, hf]

theorem alu3_runs (f : Word → Word → Word) (d a b : Reg) (hc : s.cx = some c) (h : Clear c [0]) :
    alu3 f d a b s = .next (goOn s (wrS c d.toNat (f (rdS c a.toNat) (rdS c b.toNat))) 4 1) := onCore_ok hc h rfl

theorem alu2_runs (bit : Nat) (f : Word → Word) (d a : Reg) (len : Nat) (hc : s.cx = some c) (h : Clear c [bit]) :
    alu2 bit f d a len s = .next (goOn s (wrS c d.toNat (f (rdS c a.toNat))) len 1) := onCore_ok hc h rfl

theorem mulDiv_runs (k : Nat) (f : Word → Word → Word) (d a b : Reg) (hc : s.cx = some c) (h : Clear c [1]) :
    mulDiv k f d a b s = .next (goOn (later s c d.toNat k (f (rdS c a.toNat) (rdS c b.toNat))).1
      (later s c d.toNat k (f (rdS c a.toNat) (rdS c b.toNat))).2 4 k) := onCore_ok hc h rfl

theorem funnel_runs (f : Word → Word → Nat → Word) (d a b k : Reg) (hc : s.cx = some c) (h : Clear c [6]) :
    funnel f d a b k s = .next (goOn s
      (wrS c d.toNat (f (rdS c a.toNat) (rdS c b.toNat) (amount (rdS c k.toNat)))) 4 1) := onCore_ok hc h rfl

theorem insertField_runs (pos len1 len : Nat) (d a : Reg) (hc : s.cx = some c) (h : Clear c [6]) :
    insertField pos len1 len d a s =
      .next (goOn s (wrS c d.toNat (bfi (rdS c d.toNat) (rdS c a.toNat) pos len1)) len 1) := onCore_ok hc h rfl

theorem pred3_runs (f : Word → Word → Word) (pd pa pb : PReg) (hc : s.cx = some c) (h : Clear c [0]) :
    pred3 f pd pa pb s = .next (goOn s (wrP c pd.toNat (f (rdP c pa.toNat) (rdP c pb.toNat))) 8 1) := onCore_ok hc h rfl

/-- Where a transfer goes: the target, or ALIGN. -/
theorem transfer_aligned (s : State) (c : Ctx) (t : Word) (k : Nat) (h : t.toNat % 4 = 0) :
    transfer s c t k = .ok { s with cx := some { c with pc := t, nextAt := tickOf s c + k } } := by
  simp [transfer, h]

theorem transfer_misaligned (s : State) (c : Ctx) (t : Word) (k : Nat) (h : t.toNat % 4 ≠ 0) :
    transfer s c t k = .error ⟨cALIGN, t, 0, false⟩ := by
  simp [transfer, h, flt]

theorem branch_taken (k : Cond) (a : Reg) (off : Word) (len : Nat) (hc : s.cx = some c) (h : Clear c [0])
    (hk : condHolds k (rdS c a.toNat) = true) (ht : (target c off).toNat % 4 = 0) :
    branch k a off len s = .next { s with cx := some { c with pc := target c off, nextAt := tickOf s c + 2 } } := by
  refine onCore_ok hc h ?_
  simp [hk, transfer_aligned _ _ _ _ ht]

theorem branch_not_taken (k : Cond) (a : Reg) (off : Word) (len : Nat) (hc : s.cx = some c) (h : Clear c [0])
    (hk : condHolds k (rdS c a.toNat) = false) : branch k a off len s = .next (goOn s c len 1) := by
  refine onCore_ok hc h ?_
  simp [hk]

theorem jump_runs (off : Word) (hc : s.cx = some c) (h : Clear c [0]) (ht : (target c off).toNat % 4 = 0) :
    jump off s = .next { s with cx := some { c with pc := target c off, nextAt := tickOf s c + 2 } } :=
  onCore_ok hc h (transfer_aligned _ _ _ _ ht)

theorem moveFromSys_runs (d : Reg) (n : SysName) (len : Nat) (hc : s.cx = some c) (h : Clear c [0]) :
    moveFromSys d n len s = .next (goOn s (wrS c d.toNat (readSys s c n)) len 1) := onCore_ok hc h rfl

/-- A register write leaves pc, core and everything else of the context that is no register. -/
theorem wrS_pc (c : Ctx) (n : Nat) (v : Word) : (wrS c n v).pc = c.pc := by unfold wrS; rw [wrPhys_frame]
theorem wrS_core (c : Ctx) (n : Nat) (v : Word) : (wrS c n v).core = c.core := by unfold wrS; rw [wrPhys_frame]
theorem wrP_pc (c : Ctx) (n : Nat) (v : Word) : (wrP c n v).pc = c.pc := by unfold wrP; rw [wrPhysP_frame]
theorem wrP_core (c : Ctx) (n : Nat) (v : Word) : (wrP c n v).core = c.core := by unfold wrP; rw [wrPhysP_frame]

end Sys2Proof.Laws
end

