-- ==== Sys2Proof/Laws/State.lean ====
section
/-!
SUPPORT. One law per field of State or of a context for each update of Ops, so that no proof unfolds a record update; reads
of the component an update changes; and what setUnit and modUnit leave.
-/
namespace Sys2Proof.Laws
open Sys2Proof Sys2Proof.Machine
set_option Elab.async false

/-! ## modCore changes one entry of cores -/

@[simp] theorem modCore_clock (s : State) (k : Nat) (f : CoreSt → CoreSt) : (modCore s k f).clock = s.clock := rfl
@[simp] theorem modCore_cx (s : State) (k : Nat) (f : CoreSt → CoreSt) : (modCore s k f).cx = s.cx := rfl
@[simp] theorem modCore_units (s : State) (k : Nat) (f : CoreSt → CoreSt) : (modCore s k f).units = s.units := rfl
@[simp] theorem modCore_dies (s : State) (k : Nat) (f : CoreSt → CoreSt) : (modCore s k f).dies = s.dies := rfl
@[simp] theorem modCore_engines (s : State) (k : Nat) (f : CoreSt → CoreSt) : (modCore s k f).engines = s.engines := rfl
@[simp] theorem modCore_rents (s : State) (k : Nat) (f : CoreSt → CoreSt) : (modCore s k f).rents = s.rents := rfl
@[simp] theorem modCore_moved (s : State) (k : Nat) (f : CoreSt → CoreSt) : (modCore s k f).moved = s.moved := rfl
@[simp] theorem modCore_ended (s : State) (k : Nat) (f : CoreSt → CoreSt) : (modCore s k f).ended = s.ended := rfl
@[simp] theorem modCore_mem (s : State) (k : Nat) (f : CoreSt → CoreSt) : (modCore s k f).mem = s.mem := rfl
@[simp] theorem modCore_memPoison (s : State) (k : Nat) (f : CoreSt → CoreSt) : (modCore s k f).memPoison = s.memPoison := rfl
@[simp] theorem modCore_words (s : State) (k : Nat) (f : CoreSt → CoreSt) : (modCore s k f).words = s.words := rfl
@[simp] theorem modCore_targets (s : State) (k : Nat) (f : CoreSt → CoreSt) : (modCore s k f).targets = s.targets := rfl
@[simp] theorem modCore_hist (s : State) (k : Nat) (f : CoreSt → CoreSt) : (modCore s k f).hist = s.hist := rfl
@[simp] theorem modCore_landings (s : State) (k : Nat) (f : CoreSt → CoreSt) : (modCore s k f).landings = s.landings := rfl
@[simp] theorem modCore_scrub (s : State) (k : Nat) (f : CoreSt → CoreSt) : (modCore s k f).scrub = s.scrub := rfl
@[simp] theorem modCore_retiring (s : State) (k : Nat) (f : CoreSt → CoreSt) : (modCore s k f).retiring = s.retiring := rfl
@[simp] theorem modCore_frames (s : State) (k : Nat) (f : CoreSt → CoreSt) : (modCore s k f).frames = s.frames := rfl
@[simp] theorem modCore_upsets (s : State) (k : Nat) (f : CoreSt → CoreSt) : (modCore s k f).upsets = s.upsets := rfl
@[simp] theorem modCore_late (s : State) (k : Nat) (f : CoreSt → CoreSt) : (modCore s k f).late = s.late := rfl
@[simp] theorem modCore_teams (s : State) (k : Nat) (f : CoreSt → CoreSt) : (modCore s k f).teams = s.teams := rfl
@[simp] theorem modCore_launches (s : State) (k : Nat) (f : CoreSt → CoreSt) : (modCore s k f).launches = s.launches := rfl
@[simp] theorem modCore_vds (s : State) (k : Nat) (f : CoreSt → CoreSt) : (modCore s k f).vds = s.vds := rfl
@[simp] theorem modCore_incoming (s : State) (k : Nat) (f : CoreSt → CoreSt) : (modCore s k f).incoming = s.incoming := rfl
@[simp] theorem modCore_outgoing (s : State) (k : Nat) (f : CoreSt → CoreSt) : (modCore s k f).outgoing = s.outgoing := rfl
@[simp] theorem modCore_kicks (s : State) (k : Nat) (f : CoreSt → CoreSt) : (modCore s k f).kicks = s.kicks := rfl
@[simp] theorem modCore_vectors (s : State) (k : Nat) (f : CoreSt → CoreSt) : (modCore s k f).vectors = s.vectors := rfl
@[simp] theorem modCore_window (s : State) (k : Nat) (f : CoreSt → CoreSt) : (modCore s k f).window = s.window := rfl
@[simp] theorem modCore_hostMem (s : State) (k : Nat) (f : CoreSt → CoreSt) : (modCore s k f).hostMem = s.hostMem := rfl
@[simp] theorem modCore_newel (s : State) (k : Nat) (f : CoreSt → CoreSt) : (modCore s k f).newel = s.newel := rfl
@[simp] theorem modCore_boot (s : State) (k : Nat) (f : CoreSt → CoreSt) : (modCore s k f).boot = s.boot := rfl
@[simp] theorem modCore_links (s : State) (k : Nat) (f : CoreSt → CoreSt) : (modCore s k f).links = s.links := rfl
@[simp] theorem modCore_logs (s : State) (k : Nat) (f : CoreSt → CoreSt) : (modCore s k f).logs = s.logs := rfl
@[simp] theorem modCore_agenda (s : State) (k : Nat) (f : CoreSt → CoreSt) : (modCore s k f).agenda = s.agenda := rfl
@[simp] theorem modCore_inputs (s : State) (k : Nat) (f : CoreSt → CoreSt) : (modCore s k f).inputs = s.inputs := rfl
@[simp] theorem modCore_port (s : State) (k : Nat) (f : CoreSt → CoreSt) : (modCore s k f).port = s.port := rfl
@[simp] theorem modCore_nextId (s : State) (k : Nat) (f : CoreSt → CoreSt) : (modCore s k f).nextId = s.nextId := rfl
@[simp] theorem modCore_nextSpace (s : State) (k : Nat) (f : CoreSt → CoreSt) : (modCore s k f).nextSpace = s.nextSpace := rfl
@[simp] theorem modCore_free (s : State) (k : Nat) (f : CoreSt → CoreSt) : (modCore s k f).free = s.free := rfl

@[simp] theorem coreOf_modCore_self (s : State) (k : Nat) (f : CoreSt → CoreSt) : coreOf (modCore s k f) k = f (coreOf s k) := by
  simp [coreOf, modCore]
theorem coreOf_modCore_ne (s : State) {k n : Nat} (f : CoreSt → CoreSt) (h : k ≠ n) : coreOf (modCore s k f) n = coreOf s n := by
  unfold coreOf modCore; dsimp only; rw [tget_tmod_ne _ _ _ h]

/-! ## modDie changes one entry of dies -/

@[simp] theorem modDie_clock (s : State) (k : Nat) (f : DieSt → DieSt) : (modDie s k f).clock = s.clock := rfl
@[simp] theorem modDie_cx (s : State) (k : Nat) (f : DieSt → DieSt) : (modDie s k f).cx = s.cx := rfl
@[simp] theorem modDie_units (s : State) (k : Nat) (f : DieSt → DieSt) : (modDie s k f).units = s.units := rfl
@[simp] theorem modDie_cores (s : State) (k : Nat) (f : DieSt → DieSt) : (modDie s k f).cores = s.cores := rfl
@[simp] theorem modDie_engines (s : State) (k : Nat) (f : DieSt → DieSt) : (modDie s k f).engines = s.engines := rfl
@[simp] theorem modDie_rents (s : State) (k : Nat) (f : DieSt → DieSt) : (modDie s k f).rents = s.rents := rfl
@[simp] theorem modDie_moved (s : State) (k : Nat) (f : DieSt → DieSt) : (modDie s k f).moved = s.moved := rfl
@[simp] theorem modDie_ended (s : State) (k : Nat) (f : DieSt → DieSt) : (modDie s k f).ended = s.ended := rfl
@[simp] theorem modDie_mem (s : State) (k : Nat) (f : DieSt → DieSt) : (modDie s k f).mem = s.mem := rfl
@[simp] theorem modDie_memPoison (s : State) (k : Nat) (f : DieSt → DieSt) : (modDie s k f).memPoison = s.memPoison := rfl
@[simp] theorem modDie_words (s : State) (k : Nat) (f : DieSt → DieSt) : (modDie s k f).words = s.words := rfl
@[simp] theorem modDie_targets (s : State) (k : Nat) (f : DieSt → DieSt) : (modDie s k f).targets = s.targets := rfl
@[simp] theorem modDie_hist (s : State) (k : Nat) (f : DieSt → DieSt) : (modDie s k f).hist = s.hist := rfl
@[simp] theorem modDie_landings (s : State) (k : Nat) (f : DieSt → DieSt) : (modDie s k f).landings = s.landings := rfl
@[simp] theorem modDie_scrub (s : State) (k : Nat) (f : DieSt → DieSt) : (modDie s k f).scrub = s.scrub := rfl
@[simp] theorem modDie_retiring (s : State) (k : Nat) (f : DieSt → DieSt) : (modDie s k f).retiring = s.retiring := rfl
@[simp] theorem modDie_frames (s : State) (k : Nat) (f : DieSt → DieSt) : (modDie s k f).frames = s.frames := rfl
@[simp] theorem modDie_upsets (s : State) (k : Nat) (f : DieSt → DieSt) : (modDie s k f).upsets = s.upsets := rfl
@[simp] theorem modDie_late (s : State) (k : Nat) (f : DieSt → DieSt) : (modDie s k f).late = s.late := rfl
@[simp] theorem modDie_teams (s : State) (k : Nat) (f : DieSt → DieSt) : (modDie s k f).teams = s.teams := rfl
@[simp] theorem modDie_launches (s : State) (k : Nat) (f : DieSt → DieSt) : (modDie s k f).launches = s.launches := rfl
@[simp] theorem modDie_vds (s : State) (k : Nat) (f : DieSt → DieSt) : (modDie s k f).vds = s.vds := rfl
@[simp] theorem modDie_incoming (s : State) (k : Nat) (f : DieSt → DieSt) : (modDie s k f).incoming = s.incoming := rfl
@[simp] theorem modDie_outgoing (s : State) (k : Nat) (f : DieSt → DieSt) : (modDie s k f).outgoing = s.outgoing := rfl
@[simp] theorem modDie_kicks (s : State) (k : Nat) (f : DieSt → DieSt) : (modDie s k f).kicks = s.kicks := rfl
@[simp] theorem modDie_vectors (s : State) (k : Nat) (f : DieSt → DieSt) : (modDie s k f).vectors = s.vectors := rfl
@[simp] theorem modDie_window (s : State) (k : Nat) (f : DieSt → DieSt) : (modDie s k f).window = s.window := rfl
@[simp] theorem modDie_hostMem (s : State) (k : Nat) (f : DieSt → DieSt) : (modDie s k f).hostMem = s.hostMem := rfl
@[simp] theorem modDie_newel (s : State) (k : Nat) (f : DieSt → DieSt) : (modDie s k f).newel = s.newel := rfl
@[simp] theorem modDie_boot (s : State) (k : Nat) (f : DieSt → DieSt) : (modDie s k f).boot = s.boot := rfl
@[simp] theorem modDie_links (s : State) (k : Nat) (f : DieSt → DieSt) : (modDie s k f).links = s.links := rfl
@[simp] theorem modDie_logs (s : State) (k : Nat) (f : DieSt → DieSt) : (modDie s k f).logs = s.logs := rfl
@[simp] theorem modDie_agenda (s : State) (k : Nat) (f : DieSt → DieSt) : (modDie s k f).agenda = s.agenda := rfl
@[simp] theorem modDie_inputs (s : State) (k : Nat) (f : DieSt → DieSt) : (modDie s k f).inputs = s.inputs := rfl
@[simp] theorem modDie_port (s : State) (k : Nat) (f : DieSt → DieSt) : (modDie s k f).port = s.port := rfl
@[simp] theorem modDie_nextId (s : State) (k : Nat) (f : DieSt → DieSt) : (modDie s k f).nextId = s.nextId := rfl
@[simp] theorem modDie_nextSpace (s : State) (k : Nat) (f : DieSt → DieSt) : (modDie s k f).nextSpace = s.nextSpace := rfl
@[simp] theorem modDie_free (s : State) (k : Nat) (f : DieSt → DieSt) : (modDie s k f).free = s.free := rfl

@[simp] theorem dieOf_modDie_self (s : State) (k : Nat) (f : DieSt → DieSt) : dieOf (modDie s k f) k = f (dieOf s k) := by
  simp [dieOf, modDie]
theorem dieOf_modDie_ne (s : State) {k n : Nat} (f : DieSt → DieSt) (h : k ≠ n) : dieOf (modDie s k f) n = dieOf s n := by
  unfold dieOf modDie; dsimp only; rw [tget_tmod_ne _ _ _ h]

/-! ## modEng changes one entry of engines -/

@[simp] theorem modEng_clock (s : State) (k : Nat) (f : CopyEng → CopyEng) : (modEng s k f).clock = s.clock := rfl
@[simp] theorem modEng_cx (s : State) (k : Nat) (f : CopyEng → CopyEng) : (modEng s k f).cx = s.cx := rfl
@[simp] theorem modEng_units (s : State) (k : Nat) (f : CopyEng → CopyEng) : (modEng s k f).units = s.units := rfl
@[simp] theorem modEng_cores (s : State) (k : Nat) (f : CopyEng → CopyEng) : (modEng s k f).cores = s.cores := rfl
@[simp] theorem modEng_dies (s : State) (k : Nat) (f : CopyEng → CopyEng) : (modEng s k f).dies = s.dies := rfl
@[simp] theorem modEng_rents (s : State) (k : Nat) (f : CopyEng → CopyEng) : (modEng s k f).rents = s.rents := rfl
@[simp] theorem modEng_moved (s : State) (k : Nat) (f : CopyEng → CopyEng) : (modEng s k f).moved = s.moved := rfl
@[simp] theorem modEng_ended (s : State) (k : Nat) (f : CopyEng → CopyEng) : (modEng s k f).ended = s.ended := rfl
@[simp] theorem modEng_mem (s : State) (k : Nat) (f : CopyEng → CopyEng) : (modEng s k f).mem = s.mem := rfl
@[simp] theorem modEng_memPoison (s : State) (k : Nat) (f : CopyEng → CopyEng) : (modEng s k f).memPoison = s.memPoison := rfl
@[simp] theorem modEng_words (s : State) (k : Nat) (f : CopyEng → CopyEng) : (modEng s k f).words = s.words := rfl
@[simp] theorem modEng_targets (s : State) (k : Nat) (f : CopyEng → CopyEng) : (modEng s k f).targets = s.targets := rfl
@[simp] theorem modEng_hist (s : State) (k : Nat) (f : CopyEng → CopyEng) : (modEng s k f).hist = s.hist := rfl
@[simp] theorem modEng_landings (s : State) (k : Nat) (f : CopyEng → CopyEng) : (modEng s k f).landings = s.landings := rfl
@[simp] theorem modEng_scrub (s : State) (k : Nat) (f : CopyEng → CopyEng) : (modEng s k f).scrub = s.scrub := rfl
@[simp] theorem modEng_retiring (s : State) (k : Nat) (f : CopyEng → CopyEng) : (modEng s k f).retiring = s.retiring := rfl
@[simp] theorem modEng_frames (s : State) (k : Nat) (f : CopyEng → CopyEng) : (modEng s k f).frames = s.frames := rfl
@[simp] theorem modEng_upsets (s : State) (k : Nat) (f : CopyEng → CopyEng) : (modEng s k f).upsets = s.upsets := rfl
@[simp] theorem modEng_late (s : State) (k : Nat) (f : CopyEng → CopyEng) : (modEng s k f).late = s.late := rfl
@[simp] theorem modEng_teams (s : State) (k : Nat) (f : CopyEng → CopyEng) : (modEng s k f).teams = s.teams := rfl
@[simp] theorem modEng_launches (s : State) (k : Nat) (f : CopyEng → CopyEng) : (modEng s k f).launches = s.launches := rfl
@[simp] theorem modEng_vds (s : State) (k : Nat) (f : CopyEng → CopyEng) : (modEng s k f).vds = s.vds := rfl
@[simp] theorem modEng_incoming (s : State) (k : Nat) (f : CopyEng → CopyEng) : (modEng s k f).incoming = s.incoming := rfl
@[simp] theorem modEng_outgoing (s : State) (k : Nat) (f : CopyEng → CopyEng) : (modEng s k f).outgoing = s.outgoing := rfl
@[simp] theorem modEng_kicks (s : State) (k : Nat) (f : CopyEng → CopyEng) : (modEng s k f).kicks = s.kicks := rfl
@[simp] theorem modEng_vectors (s : State) (k : Nat) (f : CopyEng → CopyEng) : (modEng s k f).vectors = s.vectors := rfl
@[simp] theorem modEng_window (s : State) (k : Nat) (f : CopyEng → CopyEng) : (modEng s k f).window = s.window := rfl
@[simp] theorem modEng_hostMem (s : State) (k : Nat) (f : CopyEng → CopyEng) : (modEng s k f).hostMem = s.hostMem := rfl
@[simp] theorem modEng_newel (s : State) (k : Nat) (f : CopyEng → CopyEng) : (modEng s k f).newel = s.newel := rfl
@[simp] theorem modEng_boot (s : State) (k : Nat) (f : CopyEng → CopyEng) : (modEng s k f).boot = s.boot := rfl
@[simp] theorem modEng_links (s : State) (k : Nat) (f : CopyEng → CopyEng) : (modEng s k f).links = s.links := rfl
@[simp] theorem modEng_logs (s : State) (k : Nat) (f : CopyEng → CopyEng) : (modEng s k f).logs = s.logs := rfl
@[simp] theorem modEng_agenda (s : State) (k : Nat) (f : CopyEng → CopyEng) : (modEng s k f).agenda = s.agenda := rfl
@[simp] theorem modEng_inputs (s : State) (k : Nat) (f : CopyEng → CopyEng) : (modEng s k f).inputs = s.inputs := rfl
@[simp] theorem modEng_port (s : State) (k : Nat) (f : CopyEng → CopyEng) : (modEng s k f).port = s.port := rfl
@[simp] theorem modEng_nextId (s : State) (k : Nat) (f : CopyEng → CopyEng) : (modEng s k f).nextId = s.nextId := rfl
@[simp] theorem modEng_nextSpace (s : State) (k : Nat) (f : CopyEng → CopyEng) : (modEng s k f).nextSpace = s.nextSpace := rfl
@[simp] theorem modEng_free (s : State) (k : Nat) (f : CopyEng → CopyEng) : (modEng s k f).free = s.free := rfl

@[simp] theorem engOf_modEng_self (s : State) (k : Nat) (f : CopyEng → CopyEng) : engOf (modEng s k f) k = f (engOf s k) := by
  simp [engOf, modEng]
theorem engOf_modEng_ne (s : State) {k n : Nat} (f : CopyEng → CopyEng) (h : k ≠ n) : engOf (modEng s k f) n = engOf s n := by
  unfold engOf modEng; dsimp only; rw [tget_tmod_ne _ _ _ h]

/-! ## modVd changes one entry of vds -/

@[simp] theorem modVd_clock (s : State) (k : Nat) (f : VDev → VDev) : (modVd s k f).clock = s.clock := rfl
@[simp] theorem modVd_cx (s : State) (k : Nat) (f : VDev → VDev) : (modVd s k f).cx = s.cx := rfl
@[simp] theorem modVd_units (s : State) (k : Nat) (f : VDev → VDev) : (modVd s k f).units = s.units := rfl
@[simp] theorem modVd_cores (s : State) (k : Nat) (f : VDev → VDev) : (modVd s k f).cores = s.cores := rfl
@[simp] theorem modVd_dies (s : State) (k : Nat) (f : VDev → VDev) : (modVd s k f).dies = s.dies := rfl
@[simp] theorem modVd_engines (s : State) (k : Nat) (f : VDev → VDev) : (modVd s k f).engines = s.engines := rfl
@[simp] theorem modVd_rents (s : State) (k : Nat) (f : VDev → VDev) : (modVd s k f).rents = s.rents := rfl
@[simp] theorem modVd_moved (s : State) (k : Nat) (f : VDev → VDev) : (modVd s k f).moved = s.moved := rfl
@[simp] theorem modVd_ended (s : State) (k : Nat) (f : VDev → VDev) : (modVd s k f).ended = s.ended := rfl
@[simp] theorem modVd_mem (s : State) (k : Nat) (f : VDev → VDev) : (modVd s k f).mem = s.mem := rfl
@[simp] theorem modVd_memPoison (s : State) (k : Nat) (f : VDev → VDev) : (modVd s k f).memPoison = s.memPoison := rfl
@[simp] theorem modVd_words (s : State) (k : Nat) (f : VDev → VDev) : (modVd s k f).words = s.words := rfl
@[simp] theorem modVd_targets (s : State) (k : Nat) (f : VDev → VDev) : (modVd s k f).targets = s.targets := rfl
@[simp] theorem modVd_hist (s : State) (k : Nat) (f : VDev → VDev) : (modVd s k f).hist = s.hist := rfl
@[simp] theorem modVd_landings (s : State) (k : Nat) (f : VDev → VDev) : (modVd s k f).landings = s.landings := rfl
@[simp] theorem modVd_scrub (s : State) (k : Nat) (f : VDev → VDev) : (modVd s k f).scrub = s.scrub := rfl
@[simp] theorem modVd_retiring (s : State) (k : Nat) (f : VDev → VDev) : (modVd s k f).retiring = s.retiring := rfl
@[simp] theorem modVd_frames (s : State) (k : Nat) (f : VDev → VDev) : (modVd s k f).frames = s.frames := rfl
@[simp] theorem modVd_upsets (s : State) (k : Nat) (f : VDev → VDev) : (modVd s k f).upsets = s.upsets := rfl
@[simp] theorem modVd_late (s : State) (k : Nat) (f : VDev → VDev) : (modVd s k f).late = s.late := rfl
@[simp] theorem modVd_teams (s : State) (k : Nat) (f : VDev → VDev) : (modVd s k f).teams = s.teams := rfl
@[simp] theorem modVd_launches (s : State) (k : Nat) (f : VDev → VDev) : (modVd s k f).launches = s.launches := rfl
@[simp] theorem modVd_incoming (s : State) (k : Nat) (f : VDev → VDev) : (modVd s k f).incoming = s.incoming := rfl
@[simp] theorem modVd_outgoing (s : State) (k : Nat) (f : VDev → VDev) : (modVd s k f).outgoing = s.outgoing := rfl
@[simp] theorem modVd_kicks (s : State) (k : Nat) (f : VDev → VDev) : (modVd s k f).kicks = s.kicks := rfl
@[simp] theorem modVd_vectors (s : State) (k : Nat) (f : VDev → VDev) : (modVd s k f).vectors = s.vectors := rfl
@[simp] theorem modVd_window (s : State) (k : Nat) (f : VDev → VDev) : (modVd s k f).window = s.window := rfl
@[simp] theorem modVd_hostMem (s : State) (k : Nat) (f : VDev → VDev) : (modVd s k f).hostMem = s.hostMem := rfl
@[simp] theorem modVd_newel (s : State) (k : Nat) (f : VDev → VDev) : (modVd s k f).newel = s.newel := rfl
@[simp] theorem modVd_boot (s : State) (k : Nat) (f : VDev → VDev) : (modVd s k f).boot = s.boot := rfl
@[simp] theorem modVd_links (s : State) (k : Nat) (f : VDev → VDev) : (modVd s k f).links = s.links := rfl
@[simp] theorem modVd_logs (s : State) (k : Nat) (f : VDev → VDev) : (modVd s k f).logs = s.logs := rfl
@[simp] theorem modVd_agenda (s : State) (k : Nat) (f : VDev → VDev) : (modVd s k f).agenda = s.agenda := rfl
@[simp] theorem modVd_inputs (s : State) (k : Nat) (f : VDev → VDev) : (modVd s k f).inputs = s.inputs := rfl
@[simp] theorem modVd_port (s : State) (k : Nat) (f : VDev → VDev) : (modVd s k f).port = s.port := rfl
@[simp] theorem modVd_nextId (s : State) (k : Nat) (f : VDev → VDev) : (modVd s k f).nextId = s.nextId := rfl
@[simp] theorem modVd_nextSpace (s : State) (k : Nat) (f : VDev → VDev) : (modVd s k f).nextSpace = s.nextSpace := rfl
@[simp] theorem modVd_free (s : State) (k : Nat) (f : VDev → VDev) : (modVd s k f).free = s.free := rfl

@[simp] theorem vdOf_modVd_self (s : State) (k : Nat) (f : VDev → VDev) : vdOf (modVd s k f) k = f (vdOf s k) := by
  simp [vdOf, modVd]
theorem vdOf_modVd_ne (s : State) {k n : Nat} (f : VDev → VDev) (h : k ≠ n) : vdOf (modVd s k f) n = vdOf s n := by
  unfold vdOf modVd; dsimp only; rw [tget_tmod_ne _ _ _ h]

/-! ## modRent changes one entry of rents -/

@[simp] theorem modRent_clock (s : State) (k : Nat) (f : Rent → Rent) : (modRent s k f).clock = s.clock := rfl
@[simp] theorem modRent_cx (s : State) (k : Nat) (f : Rent → Rent) : (modRent s k f).cx = s.cx := rfl
@[simp] theorem modRent_units (s : State) (k : Nat) (f : Rent → Rent) : (modRent s k f).units = s.units := rfl
@[simp] theorem modRent_cores (s : State) (k : Nat) (f : Rent → Rent) : (modRent s k f).cores = s.cores := rfl
@[simp] theorem modRent_dies (s : State) (k : Nat) (f : Rent → Rent) : (modRent s k f).dies = s.dies := rfl
@[simp] theorem modRent_engines (s : State) (k : Nat) (f : Rent → Rent) : (modRent s k f).engines = s.engines := rfl
@[simp] theorem modRent_moved (s : State) (k : Nat) (f : Rent → Rent) : (modRent s k f).moved = s.moved := rfl
@[simp] theorem modRent_ended (s : State) (k : Nat) (f : Rent → Rent) : (modRent s k f).ended = s.ended := rfl
@[simp] theorem modRent_mem (s : State) (k : Nat) (f : Rent → Rent) : (modRent s k f).mem = s.mem := rfl
@[simp] theorem modRent_memPoison (s : State) (k : Nat) (f : Rent → Rent) : (modRent s k f).memPoison = s.memPoison := rfl
@[simp] theorem modRent_words (s : State) (k : Nat) (f : Rent → Rent) : (modRent s k f).words = s.words := rfl
@[simp] theorem modRent_targets (s : State) (k : Nat) (f : Rent → Rent) : (modRent s k f).targets = s.targets := rfl
@[simp] theorem modRent_hist (s : State) (k : Nat) (f : Rent → Rent) : (modRent s k f).hist = s.hist := rfl
@[simp] theorem modRent_landings (s : State) (k : Nat) (f : Rent → Rent) : (modRent s k f).landings = s.landings := rfl
@[simp] theorem modRent_scrub (s : State) (k : Nat) (f : Rent → Rent) : (modRent s k f).scrub = s.scrub := rfl
@[simp] theorem modRent_retiring (s : State) (k : Nat) (f : Rent → Rent) : (modRent s k f).retiring = s.retiring := rfl
@[simp] theorem modRent_frames (s : State) (k : Nat) (f : Rent → Rent) : (modRent s k f).frames = s.frames := rfl
@[simp] theorem modRent_upsets (s : State) (k : Nat) (f : Rent → Rent) : (modRent s k f).upsets = s.upsets := rfl
@[simp] theorem modRent_late (s : State) (k : Nat) (f : Rent → Rent) : (modRent s k f).late = s.late := rfl
@[simp] theorem modRent_teams (s : State) (k : Nat) (f : Rent → Rent) : (modRent s k f).teams = s.teams := rfl
@[simp] theorem modRent_launches (s : State) (k : Nat) (f : Rent → Rent) : (modRent s k f).launches = s.launches := rfl
@[simp] theorem modRent_vds (s : State) (k : Nat) (f : Rent → Rent) : (modRent s k f).vds = s.vds := rfl
@[simp] theorem modRent_incoming (s : State) (k : Nat) (f : Rent → Rent) : (modRent s k f).incoming = s.incoming := rfl
@[simp] theorem modRent_outgoing (s : State) (k : Nat) (f : Rent → Rent) : (modRent s k f).outgoing = s.outgoing := rfl
@[simp] theorem modRent_kicks (s : State) (k : Nat) (f : Rent → Rent) : (modRent s k f).kicks = s.kicks := rfl
@[simp] theorem modRent_vectors (s : State) (k : Nat) (f : Rent → Rent) : (modRent s k f).vectors = s.vectors := rfl
@[simp] theorem modRent_window (s : State) (k : Nat) (f : Rent → Rent) : (modRent s k f).window = s.window := rfl
@[simp] theorem modRent_hostMem (s : State) (k : Nat) (f : Rent → Rent) : (modRent s k f).hostMem = s.hostMem := rfl
@[simp] theorem modRent_newel (s : State) (k : Nat) (f : Rent → Rent) : (modRent s k f).newel = s.newel := rfl
@[simp] theorem modRent_boot (s : State) (k : Nat) (f : Rent → Rent) : (modRent s k f).boot = s.boot := rfl
@[simp] theorem modRent_links (s : State) (k : Nat) (f : Rent → Rent) : (modRent s k f).links = s.links := rfl
@[simp] theorem modRent_logs (s : State) (k : Nat) (f : Rent → Rent) : (modRent s k f).logs = s.logs := rfl
@[simp] theorem modRent_agenda (s : State) (k : Nat) (f : Rent → Rent) : (modRent s k f).agenda = s.agenda := rfl
@[simp] theorem modRent_inputs (s : State) (k : Nat) (f : Rent → Rent) : (modRent s k f).inputs = s.inputs := rfl
@[simp] theorem modRent_port (s : State) (k : Nat) (f : Rent → Rent) : (modRent s k f).port = s.port := rfl
@[simp] theorem modRent_nextId (s : State) (k : Nat) (f : Rent → Rent) : (modRent s k f).nextId = s.nextId := rfl
@[simp] theorem modRent_nextSpace (s : State) (k : Nat) (f : Rent → Rent) : (modRent s k f).nextSpace = s.nextSpace := rfl
@[simp] theorem modRent_free (s : State) (k : Nat) (f : Rent → Rent) : (modRent s k f).free = s.free := rfl

@[simp] theorem rentOf_modRent_self (s : State) (k : Nat) (f : Rent → Rent) : rentOf (modRent s k f) k = f (rentOf s k) := by
  simp [rentOf, modRent]
theorem rentOf_modRent_ne (s : State) {k n : Nat} (f : Rent → Rent) (h : k ≠ n) : rentOf (modRent s k f) n = rentOf s n := by
  unfold rentOf modRent; dsimp only; rw [tget_tmod_ne _ _ _ h]

/-! ## modTeam changes one entry of teams -/

@[simp] theorem modTeam_clock (s : State) (k : Nat) (f : Team → Team) : (modTeam s k f).clock = s.clock := rfl
@[simp] theorem modTeam_cx (s : State) (k : Nat) (f : Team → Team) : (modTeam s k f).cx = s.cx := rfl
@[simp] theorem modTeam_units (s : State) (k : Nat) (f : Team → Team) : (modTeam s k f).units = s.units := rfl
@[simp] theorem modTeam_cores (s : State) (k : Nat) (f : Team → Team) : (modTeam s k f).cores = s.cores := rfl
@[simp] theorem modTeam_dies (s : State) (k : Nat) (f : Team → Team) : (modTeam s k f).dies = s.dies := rfl
@[simp] theorem modTeam_engines (s : State) (k : Nat) (f : Team → Team) : (modTeam s k f).engines = s.engines := rfl
@[simp] theorem modTeam_rents (s : State) (k : Nat) (f : Team → Team) : (modTeam s k f).rents = s.rents := rfl
@[simp] theorem modTeam_moved (s : State) (k : Nat) (f : Team → Team) : (modTeam s k f).moved = s.moved := rfl
@[simp] theorem modTeam_ended (s : State) (k : Nat) (f : Team → Team) : (modTeam s k f).ended = s.ended := rfl
@[simp] theorem modTeam_mem (s : State) (k : Nat) (f : Team → Team) : (modTeam s k f).mem = s.mem := rfl
@[simp] theorem modTeam_memPoison (s : State) (k : Nat) (f : Team → Team) : (modTeam s k f).memPoison = s.memPoison := rfl
@[simp] theorem modTeam_words (s : State) (k : Nat) (f : Team → Team) : (modTeam s k f).words = s.words := rfl
@[simp] theorem modTeam_targets (s : State) (k : Nat) (f : Team → Team) : (modTeam s k f).targets = s.targets := rfl
@[simp] theorem modTeam_hist (s : State) (k : Nat) (f : Team → Team) : (modTeam s k f).hist = s.hist := rfl
@[simp] theorem modTeam_landings (s : State) (k : Nat) (f : Team → Team) : (modTeam s k f).landings = s.landings := rfl
@[simp] theorem modTeam_scrub (s : State) (k : Nat) (f : Team → Team) : (modTeam s k f).scrub = s.scrub := rfl
@[simp] theorem modTeam_retiring (s : State) (k : Nat) (f : Team → Team) : (modTeam s k f).retiring = s.retiring := rfl
@[simp] theorem modTeam_frames (s : State) (k : Nat) (f : Team → Team) : (modTeam s k f).frames = s.frames := rfl
@[simp] theorem modTeam_upsets (s : State) (k : Nat) (f : Team → Team) : (modTeam s k f).upsets = s.upsets := rfl
@[simp] theorem modTeam_late (s : State) (k : Nat) (f : Team → Team) : (modTeam s k f).late = s.late := rfl
@[simp] theorem modTeam_launches (s : State) (k : Nat) (f : Team → Team) : (modTeam s k f).launches = s.launches := rfl
@[simp] theorem modTeam_vds (s : State) (k : Nat) (f : Team → Team) : (modTeam s k f).vds = s.vds := rfl
@[simp] theorem modTeam_incoming (s : State) (k : Nat) (f : Team → Team) : (modTeam s k f).incoming = s.incoming := rfl
@[simp] theorem modTeam_outgoing (s : State) (k : Nat) (f : Team → Team) : (modTeam s k f).outgoing = s.outgoing := rfl
@[simp] theorem modTeam_kicks (s : State) (k : Nat) (f : Team → Team) : (modTeam s k f).kicks = s.kicks := rfl
@[simp] theorem modTeam_vectors (s : State) (k : Nat) (f : Team → Team) : (modTeam s k f).vectors = s.vectors := rfl
@[simp] theorem modTeam_window (s : State) (k : Nat) (f : Team → Team) : (modTeam s k f).window = s.window := rfl
@[simp] theorem modTeam_hostMem (s : State) (k : Nat) (f : Team → Team) : (modTeam s k f).hostMem = s.hostMem := rfl
@[simp] theorem modTeam_newel (s : State) (k : Nat) (f : Team → Team) : (modTeam s k f).newel = s.newel := rfl
@[simp] theorem modTeam_boot (s : State) (k : Nat) (f : Team → Team) : (modTeam s k f).boot = s.boot := rfl
@[simp] theorem modTeam_links (s : State) (k : Nat) (f : Team → Team) : (modTeam s k f).links = s.links := rfl
@[simp] theorem modTeam_logs (s : State) (k : Nat) (f : Team → Team) : (modTeam s k f).logs = s.logs := rfl
@[simp] theorem modTeam_agenda (s : State) (k : Nat) (f : Team → Team) : (modTeam s k f).agenda = s.agenda := rfl
@[simp] theorem modTeam_inputs (s : State) (k : Nat) (f : Team → Team) : (modTeam s k f).inputs = s.inputs := rfl
@[simp] theorem modTeam_port (s : State) (k : Nat) (f : Team → Team) : (modTeam s k f).port = s.port := rfl
@[simp] theorem modTeam_nextId (s : State) (k : Nat) (f : Team → Team) : (modTeam s k f).nextId = s.nextId := rfl
@[simp] theorem modTeam_nextSpace (s : State) (k : Nat) (f : Team → Team) : (modTeam s k f).nextSpace = s.nextSpace := rfl
@[simp] theorem modTeam_free (s : State) (k : Nat) (f : Team → Team) : (modTeam s k f).free = s.free := rfl

@[simp] theorem teamOf_modTeam_self (s : State) (k : Nat) (f : Team → Team) : teamOf (modTeam s k f) k = f (teamOf s k) := by
  simp [teamOf, modTeam]
theorem teamOf_modTeam_ne (s : State) {k n : Nat} (f : Team → Team) (h : k ≠ n) : teamOf (modTeam s k f) n = teamOf s n := by
  unfold teamOf modTeam; dsimp only; rw [tget_tmod_ne _ _ _ h]

/-! ## modLaunch changes one entry of launches -/

@[simp] theorem modLaunch_clock (s : State) (k : Nat) (f : Launch → Launch) : (modLaunch s k f).clock = s.clock := rfl
@[simp] theorem modLaunch_cx (s : State) (k : Nat) (f : Launch → Launch) : (modLaunch s k f).cx = s.cx := rfl
@[simp] theorem modLaunch_units (s : State) (k : Nat) (f : Launch → Launch) : (modLaunch s k f).units = s.units := rfl
@[simp] theorem modLaunch_cores (s : State) (k : Nat) (f : Launch → Launch) : (modLaunch s k f).cores = s.cores := rfl
@[simp] theorem modLaunch_dies (s : State) (k : Nat) (f : Launch → Launch) : (modLaunch s k f).dies = s.dies := rfl
@[simp] theorem modLaunch_engines (s : State) (k : Nat) (f : Launch → Launch) : (modLaunch s k f).engines = s.engines := rfl
@[simp] theorem modLaunch_rents (s : State) (k : Nat) (f : Launch → Launch) : (modLaunch s k f).rents = s.rents := rfl
@[simp] theorem modLaunch_moved (s : State) (k : Nat) (f : Launch → Launch) : (modLaunch s k f).moved = s.moved := rfl
@[simp] theorem modLaunch_ended (s : State) (k : Nat) (f : Launch → Launch) : (modLaunch s k f).ended = s.ended := rfl
@[simp] theorem modLaunch_mem (s : State) (k : Nat) (f : Launch → Launch) : (modLaunch s k f).mem = s.mem := rfl
@[simp] theorem modLaunch_memPoison (s : State) (k : Nat) (f : Launch → Launch) : (modLaunch s k f).memPoison = s.memPoison := rfl
@[simp] theorem modLaunch_words (s : State) (k : Nat) (f : Launch → Launch) : (modLaunch s k f).words = s.words := rfl
@[simp] theorem modLaunch_targets (s : State) (k : Nat) (f : Launch → Launch) : (modLaunch s k f).targets = s.targets := rfl
@[simp] theorem modLaunch_hist (s : State) (k : Nat) (f : Launch → Launch) : (modLaunch s k f).hist = s.hist := rfl
@[simp] theorem modLaunch_landings (s : State) (k : Nat) (f : Launch → Launch) : (modLaunch s k f).landings = s.landings := rfl
@[simp] theorem modLaunch_scrub (s : State) (k : Nat) (f : Launch → Launch) : (modLaunch s k f).scrub = s.scrub := rfl
@[simp] theorem modLaunch_retiring (s : State) (k : Nat) (f : Launch → Launch) : (modLaunch s k f).retiring = s.retiring := rfl
@[simp] theorem modLaunch_frames (s : State) (k : Nat) (f : Launch → Launch) : (modLaunch s k f).frames = s.frames := rfl
@[simp] theorem modLaunch_upsets (s : State) (k : Nat) (f : Launch → Launch) : (modLaunch s k f).upsets = s.upsets := rfl
@[simp] theorem modLaunch_late (s : State) (k : Nat) (f : Launch → Launch) : (modLaunch s k f).late = s.late := rfl
@[simp] theorem modLaunch_teams (s : State) (k : Nat) (f : Launch → Launch) : (modLaunch s k f).teams = s.teams := rfl
@[simp] theorem modLaunch_vds (s : State) (k : Nat) (f : Launch → Launch) : (modLaunch s k f).vds = s.vds := rfl
@[simp] theorem modLaunch_incoming (s : State) (k : Nat) (f : Launch → Launch) : (modLaunch s k f).incoming = s.incoming := rfl
@[simp] theorem modLaunch_outgoing (s : State) (k : Nat) (f : Launch → Launch) : (modLaunch s k f).outgoing = s.outgoing := rfl
@[simp] theorem modLaunch_kicks (s : State) (k : Nat) (f : Launch → Launch) : (modLaunch s k f).kicks = s.kicks := rfl
@[simp] theorem modLaunch_vectors (s : State) (k : Nat) (f : Launch → Launch) : (modLaunch s k f).vectors = s.vectors := rfl
@[simp] theorem modLaunch_window (s : State) (k : Nat) (f : Launch → Launch) : (modLaunch s k f).window = s.window := rfl
@[simp] theorem modLaunch_hostMem (s : State) (k : Nat) (f : Launch → Launch) : (modLaunch s k f).hostMem = s.hostMem := rfl
@[simp] theorem modLaunch_newel (s : State) (k : Nat) (f : Launch → Launch) : (modLaunch s k f).newel = s.newel := rfl
@[simp] theorem modLaunch_boot (s : State) (k : Nat) (f : Launch → Launch) : (modLaunch s k f).boot = s.boot := rfl
@[simp] theorem modLaunch_links (s : State) (k : Nat) (f : Launch → Launch) : (modLaunch s k f).links = s.links := rfl
@[simp] theorem modLaunch_logs (s : State) (k : Nat) (f : Launch → Launch) : (modLaunch s k f).logs = s.logs := rfl
@[simp] theorem modLaunch_agenda (s : State) (k : Nat) (f : Launch → Launch) : (modLaunch s k f).agenda = s.agenda := rfl
@[simp] theorem modLaunch_inputs (s : State) (k : Nat) (f : Launch → Launch) : (modLaunch s k f).inputs = s.inputs := rfl
@[simp] theorem modLaunch_port (s : State) (k : Nat) (f : Launch → Launch) : (modLaunch s k f).port = s.port := rfl
@[simp] theorem modLaunch_nextId (s : State) (k : Nat) (f : Launch → Launch) : (modLaunch s k f).nextId = s.nextId := rfl
@[simp] theorem modLaunch_nextSpace (s : State) (k : Nat) (f : Launch → Launch) : (modLaunch s k f).nextSpace = s.nextSpace := rfl
@[simp] theorem modLaunch_free (s : State) (k : Nat) (f : Launch → Launch) : (modLaunch s k f).free = s.free := rfl

@[simp] theorem launchOf_modLaunch_self (s : State) (k : Nat) (f : Launch → Launch) : launchOf (modLaunch s k f) k = f (launchOf s k) := by
  simp [launchOf, modLaunch]
theorem launchOf_modLaunch_ne (s : State) {k n : Nat} (f : Launch → Launch) (h : k ≠ n) : launchOf (modLaunch s k f) n = launchOf s n := by
  unfold launchOf modLaunch; dsimp only; rw [tget_tmod_ne _ _ _ h]

/-! ## sched adds to the agenda -/

@[simp] theorem sched_clock (s : State) (die tick phase uid own : Nat) (a : Act) : (sched s die tick phase uid own a).clock = s.clock := rfl
@[simp] theorem sched_cx (s : State) (die tick phase uid own : Nat) (a : Act) : (sched s die tick phase uid own a).cx = s.cx := rfl
@[simp] theorem sched_units (s : State) (die tick phase uid own : Nat) (a : Act) : (sched s die tick phase uid own a).units = s.units := rfl
@[simp] theorem sched_cores (s : State) (die tick phase uid own : Nat) (a : Act) : (sched s die tick phase uid own a).cores = s.cores := rfl
@[simp] theorem sched_dies (s : State) (die tick phase uid own : Nat) (a : Act) : (sched s die tick phase uid own a).dies = s.dies := rfl
@[simp] theorem sched_engines (s : State) (die tick phase uid own : Nat) (a : Act) : (sched s die tick phase uid own a).engines = s.engines := rfl
@[simp] theorem sched_rents (s : State) (die tick phase uid own : Nat) (a : Act) : (sched s die tick phase uid own a).rents = s.rents := rfl
@[simp] theorem sched_moved (s : State) (die tick phase uid own : Nat) (a : Act) : (sched s die tick phase uid own a).moved = s.moved := rfl
@[simp] theorem sched_ended (s : State) (die tick phase uid own : Nat) (a : Act) : (sched s die tick phase uid own a).ended = s.ended := rfl
@[simp] theorem sched_mem (s : State) (die tick phase uid own : Nat) (a : Act) : (sched s die tick phase uid own a).mem = s.mem := rfl
@[simp] theorem sched_memPoison (s : State) (die tick phase uid own : Nat) (a : Act) : (sched s die tick phase uid own a).memPoison = s.memPoison := rfl
@[simp] theorem sched_words (s : State) (die tick phase uid own : Nat) (a : Act) : (sched s die tick phase uid own a).words = s.words := rfl
@[simp] theorem sched_targets (s : State) (die tick phase uid own : Nat) (a : Act) : (sched s die tick phase uid own a).targets = s.targets := rfl
@[simp] theorem sched_hist (s : State) (die tick phase uid own : Nat) (a : Act) : (sched s die tick phase uid own a).hist = s.hist := rfl
@[simp] theorem sched_landings (s : State) (die tick phase uid own : Nat) (a : Act) : (sched s die tick phase uid own a).landings = s.landings := rfl
@[simp] theorem sched_scrub (s : State) (die tick phase uid own : Nat) (a : Act) : (sched s die tick phase uid own a).scrub = s.scrub := rfl
@[simp] theorem sched_retiring (s : State) (die tick phase uid own : Nat) (a : Act) : (sched s die tick phase uid own a).retiring = s.retiring := rfl
@[simp] theorem sched_frames (s : State) (die tick phase uid own : Nat) (a : Act) : (sched s die tick phase uid own a).frames = s.frames := rfl
@[simp] theorem sched_upsets (s : State) (die tick phase uid own : Nat) (a : Act) : (sched s die tick phase uid own a).upsets = s.upsets := rfl
@[simp] theorem sched_late (s : State) (die tick phase uid own : Nat) (a : Act) : (sched s die tick phase uid own a).late = s.late := rfl
@[simp] theorem sched_teams (s : State) (die tick phase uid own : Nat) (a : Act) : (sched s die tick phase uid own a).teams = s.teams := rfl
@[simp] theorem sched_launches (s : State) (die tick phase uid own : Nat) (a : Act) : (sched s die tick phase uid own a).launches = s.launches := rfl
@[simp] theorem sched_vds (s : State) (die tick phase uid own : Nat) (a : Act) : (sched s die tick phase uid own a).vds = s.vds := rfl
@[simp] theorem sched_incoming (s : State) (die tick phase uid own : Nat) (a : Act) : (sched s die tick phase uid own a).incoming = s.incoming := rfl
@[simp] theorem sched_outgoing (s : State) (die tick phase uid own : Nat) (a : Act) : (sched s die tick phase uid own a).outgoing = s.outgoing := rfl
@[simp] theorem sched_kicks (s : State) (die tick phase uid own : Nat) (a : Act) : (sched s die tick phase uid own a).kicks = s.kicks := rfl
@[simp] theorem sched_vectors (s : State) (die tick phase uid own : Nat) (a : Act) : (sched s die tick phase uid own a).vectors = s.vectors := rfl
@[simp] theorem sched_window (s : State) (die tick phase uid own : Nat) (a : Act) : (sched s die tick phase uid own a).window = s.window := rfl
@[simp] theorem sched_hostMem (s : State) (die tick phase uid own : Nat) (a : Act) : (sched s die tick phase uid own a).hostMem = s.hostMem := rfl
@[simp] theorem sched_newel (s : State) (die tick phase uid own : Nat) (a : Act) : (sched s die tick phase uid own a).newel = s.newel := rfl
@[simp] theorem sched_boot (s : State) (die tick phase uid own : Nat) (a : Act) : (sched s die tick phase uid own a).boot = s.boot := rfl
@[simp] theorem sched_links (s : State) (die tick phase uid own : Nat) (a : Act) : (sched s die tick phase uid own a).links = s.links := rfl
@[simp] theorem sched_logs (s : State) (die tick phase uid own : Nat) (a : Act) : (sched s die tick phase uid own a).logs = s.logs := rfl
@[simp] theorem sched_inputs (s : State) (die tick phase uid own : Nat) (a : Act) : (sched s die tick phase uid own a).inputs = s.inputs := rfl
@[simp] theorem sched_port (s : State) (die tick phase uid own : Nat) (a : Act) : (sched s die tick phase uid own a).port = s.port := rfl
@[simp] theorem sched_nextId (s : State) (die tick phase uid own : Nat) (a : Act) : (sched s die tick phase uid own a).nextId = s.nextId := rfl
@[simp] theorem sched_nextSpace (s : State) (die tick phase uid own : Nat) (a : Act) : (sched s die tick phase uid own a).nextSpace = s.nextSpace := rfl
@[simp] theorem sched_free (s : State) (die tick phase uid own : Nat) (a : Act) : (sched s die tick phase uid own a).free = s.free := rfl

@[simp] theorem sched_agenda (s : State) (die tick phase uid own : Nat) (a : Act) :
    (sched s die tick phase uid own a).agenda = s.agenda ++ [⟨die, tick, phase, uid, own, a, false⟩] := rfl

/-! ## goOn changes the executing context -/

@[simp] theorem goOn_clock (s : State) (c : Ctx) (n h : Nat) : (goOn s c n h).clock = s.clock := rfl
@[simp] theorem goOn_units (s : State) (c : Ctx) (n h : Nat) : (goOn s c n h).units = s.units := rfl
@[simp] theorem goOn_cores (s : State) (c : Ctx) (n h : Nat) : (goOn s c n h).cores = s.cores := rfl
@[simp] theorem goOn_dies (s : State) (c : Ctx) (n h : Nat) : (goOn s c n h).dies = s.dies := rfl
@[simp] theorem goOn_engines (s : State) (c : Ctx) (n h : Nat) : (goOn s c n h).engines = s.engines := rfl
@[simp] theorem goOn_rents (s : State) (c : Ctx) (n h : Nat) : (goOn s c n h).rents = s.rents := rfl
@[simp] theorem goOn_moved (s : State) (c : Ctx) (n h : Nat) : (goOn s c n h).moved = s.moved := rfl
@[simp] theorem goOn_ended (s : State) (c : Ctx) (n h : Nat) : (goOn s c n h).ended = s.ended := rfl
@[simp] theorem goOn_mem (s : State) (c : Ctx) (n h : Nat) : (goOn s c n h).mem = s.mem := rfl
@[simp] theorem goOn_memPoison (s : State) (c : Ctx) (n h : Nat) : (goOn s c n h).memPoison = s.memPoison := rfl
@[simp] theorem goOn_words (s : State) (c : Ctx) (n h : Nat) : (goOn s c n h).words = s.words := rfl
@[simp] theorem goOn_targets (s : State) (c : Ctx) (n h : Nat) : (goOn s c n h).targets = s.targets := rfl
@[simp] theorem goOn_hist (s : State) (c : Ctx) (n h : Nat) : (goOn s c n h).hist = s.hist := rfl
@[simp] theorem goOn_landings (s : State) (c : Ctx) (n h : Nat) : (goOn s c n h).landings = s.landings := rfl
@[simp] theorem goOn_scrub (s : State) (c : Ctx) (n h : Nat) : (goOn s c n h).scrub = s.scrub := rfl
@[simp] theorem goOn_retiring (s : State) (c : Ctx) (n h : Nat) : (goOn s c n h).retiring = s.retiring := rfl
@[simp] theorem goOn_frames (s : State) (c : Ctx) (n h : Nat) : (goOn s c n h).frames = s.frames := rfl
@[simp] theorem goOn_upsets (s : State) (c : Ctx) (n h : Nat) : (goOn s c n h).upsets = s.upsets := rfl
@[simp] theorem goOn_late (s : State) (c : Ctx) (n h : Nat) : (goOn s c n h).late = s.late := rfl
@[simp] theorem goOn_teams (s : State) (c : Ctx) (n h : Nat) : (goOn s c n h).teams = s.teams := rfl
@[simp] theorem goOn_launches (s : State) (c : Ctx) (n h : Nat) : (goOn s c n h).launches = s.launches := rfl
@[simp] theorem goOn_vds (s : State) (c : Ctx) (n h : Nat) : (goOn s c n h).vds = s.vds := rfl
@[simp] theorem goOn_incoming (s : State) (c : Ctx) (n h : Nat) : (goOn s c n h).incoming = s.incoming := rfl
@[simp] theorem goOn_outgoing (s : State) (c : Ctx) (n h : Nat) : (goOn s c n h).outgoing = s.outgoing := rfl
@[simp] theorem goOn_kicks (s : State) (c : Ctx) (n h : Nat) : (goOn s c n h).kicks = s.kicks := rfl
@[simp] theorem goOn_vectors (s : State) (c : Ctx) (n h : Nat) : (goOn s c n h).vectors = s.vectors := rfl
@[simp] theorem goOn_window (s : State) (c : Ctx) (n h : Nat) : (goOn s c n h).window = s.window := rfl
@[simp] theorem goOn_hostMem (s : State) (c : Ctx) (n h : Nat) : (goOn s c n h).hostMem = s.hostMem := rfl
@[simp] theorem goOn_newel (s : State) (c : Ctx) (n h : Nat) : (goOn s c n h).newel = s.newel := rfl
@[simp] theorem goOn_boot (s : State) (c : Ctx) (n h : Nat) : (goOn s c n h).boot = s.boot := rfl
@[simp] theorem goOn_links (s : State) (c : Ctx) (n h : Nat) : (goOn s c n h).links = s.links := rfl
@[simp] theorem goOn_logs (s : State) (c : Ctx) (n h : Nat) : (goOn s c n h).logs = s.logs := rfl
@[simp] theorem goOn_agenda (s : State) (c : Ctx) (n h : Nat) : (goOn s c n h).agenda = s.agenda := rfl
@[simp] theorem goOn_inputs (s : State) (c : Ctx) (n h : Nat) : (goOn s c n h).inputs = s.inputs := rfl
@[simp] theorem goOn_port (s : State) (c : Ctx) (n h : Nat) : (goOn s c n h).port = s.port := rfl
@[simp] theorem goOn_nextId (s : State) (c : Ctx) (n h : Nat) : (goOn s c n h).nextId = s.nextId := rfl
@[simp] theorem goOn_nextSpace (s : State) (c : Ctx) (n h : Nat) : (goOn s c n h).nextSpace = s.nextSpace := rfl
@[simp] theorem goOn_free (s : State) (c : Ctx) (n h : Nat) : (goOn s c n h).free = s.free := rfl

@[simp] theorem goOn_cx (s : State) (c : Ctx) (n h : Nat) : (goOn s c n h).cx = some (c.advance s n h) := rfl

/-! ## setUnit changes the executing context or the table of units -/

@[simp] theorem setUnit_clock (s : State) (c : Ctx) : (setUnit s c).clock = s.clock := by
  unfold setUnit; split <;> first | rfl | (split <;> rfl)
@[simp] theorem setUnit_cores (s : State) (c : Ctx) : (setUnit s c).cores = s.cores := by
  unfold setUnit; split <;> first | rfl | (split <;> rfl)
@[simp] theorem setUnit_dies (s : State) (c : Ctx) : (setUnit s c).dies = s.dies := by
  unfold setUnit; split <;> first | rfl | (split <;> rfl)
@[simp] theorem setUnit_engines (s : State) (c : Ctx) : (setUnit s c).engines = s.engines := by
  unfold setUnit; split <;> first | rfl | (split <;> rfl)
@[simp] theorem setUnit_rents (s : State) (c : Ctx) : (setUnit s c).rents = s.rents := by
  unfold setUnit; split <;> first | rfl | (split <;> rfl)
@[simp] theorem setUnit_moved (s : State) (c : Ctx) : (setUnit s c).moved = s.moved := by
  unfold setUnit; split <;> first | rfl | (split <;> rfl)
@[simp] theorem setUnit_ended (s : State) (c : Ctx) : (setUnit s c).ended = s.ended := by
  unfold setUnit; split <;> first | rfl | (split <;> rfl)
@[simp] theorem setUnit_mem (s : State) (c : Ctx) : (setUnit s c).mem = s.mem := by
  unfold setUnit; split <;> first | rfl | (split <;> rfl)
@[simp] theorem setUnit_memPoison (s : State) (c : Ctx) : (setUnit s c).memPoison = s.memPoison := by
  unfold setUnit; split <;> first | rfl | (split <;> rfl)
@[simp] theorem setUnit_words (s : State) (c : Ctx) : (setUnit s c).words = s.words := by
  unfold setUnit; split <;> first | rfl | (split <;> rfl)
@[simp] theorem setUnit_targets (s : State) (c : Ctx) : (setUnit s c).targets = s.targets := by
  unfold setUnit; split <;> first | rfl | (split <;> rfl)
@[simp] theorem setUnit_hist (s : State) (c : Ctx) : (setUnit s c).hist = s.hist := by
  unfold setUnit; split <;> first | rfl | (split <;> rfl)
@[simp] theorem setUnit_landings (s : State) (c : Ctx) : (setUnit s c).landings = s.landings := by
  unfold setUnit; split <;> first | rfl | (split <;> rfl)
@[simp] theorem setUnit_scrub (s : State) (c : Ctx) : (setUnit s c).scrub = s.scrub := by
  unfold setUnit; split <;> first | rfl | (split <;> rfl)
@[simp] theorem setUnit_retiring (s : State) (c : Ctx) : (setUnit s c).retiring = s.retiring := by
  unfold setUnit; split <;> first | rfl | (split <;> rfl)
@[simp] theorem setUnit_frames (s : State) (c : Ctx) : (setUnit s c).frames = s.frames := by
  unfold setUnit; split <;> first | rfl | (split <;> rfl)
@[simp] theorem setUnit_upsets (s : State) (c : Ctx) : (setUnit s c).upsets = s.upsets := by
  unfold setUnit; split <;> first | rfl | (split <;> rfl)
@[simp] theorem setUnit_late (s : State) (c : Ctx) : (setUnit s c).late = s.late := by
  unfold setUnit; split <;> first | rfl | (split <;> rfl)
@[simp] theorem setUnit_teams (s : State) (c : Ctx) : (setUnit s c).teams = s.teams := by
  unfold setUnit; split <;> first | rfl | (split <;> rfl)
@[simp] theorem setUnit_launches (s : State) (c : Ctx) : (setUnit s c).launches = s.launches := by
  unfold setUnit; split <;> first | rfl | (split <;> rfl)
@[simp] theorem setUnit_vds (s : State) (c : Ctx) : (setUnit s c).vds = s.vds := by
  unfold setUnit; split <;> first | rfl | (split <;> rfl)
@[simp] theorem setUnit_incoming (s : State) (c : Ctx) : (setUnit s c).incoming = s.incoming := by
  unfold setUnit; split <;> first | rfl | (split <;> rfl)
@[simp] theorem setUnit_outgoing (s : State) (c : Ctx) : (setUnit s c).outgoing = s.outgoing := by
  unfold setUnit; split <;> first | rfl | (split <;> rfl)
@[simp] theorem setUnit_kicks (s : State) (c : Ctx) : (setUnit s c).kicks = s.kicks := by
  unfold setUnit; split <;> first | rfl | (split <;> rfl)
@[simp] theorem setUnit_vectors (s : State) (c : Ctx) : (setUnit s c).vectors = s.vectors := by
  unfold setUnit; split <;> first | rfl | (split <;> rfl)
@[simp] theorem setUnit_window (s : State) (c : Ctx) : (setUnit s c).window = s.window := by
  unfold setUnit; split <;> first | rfl | (split <;> rfl)
@[simp] theorem setUnit_hostMem (s : State) (c : Ctx) : (setUnit s c).hostMem = s.hostMem := by
  unfold setUnit; split <;> first | rfl | (split <;> rfl)
@[simp] theorem setUnit_newel (s : State) (c : Ctx) : (setUnit s c).newel = s.newel := by
  unfold setUnit; split <;> first | rfl | (split <;> rfl)
@[simp] theorem setUnit_boot (s : State) (c : Ctx) : (setUnit s c).boot = s.boot := by
  unfold setUnit; split <;> first | rfl | (split <;> rfl)
@[simp] theorem setUnit_links (s : State) (c : Ctx) : (setUnit s c).links = s.links := by
  unfold setUnit; split <;> first | rfl | (split <;> rfl)
@[simp] theorem setUnit_logs (s : State) (c : Ctx) : (setUnit s c).logs = s.logs := by
  unfold setUnit; split <;> first | rfl | (split <;> rfl)
@[simp] theorem setUnit_agenda (s : State) (c : Ctx) : (setUnit s c).agenda = s.agenda := by
  unfold setUnit; split <;> first | rfl | (split <;> rfl)
@[simp] theorem setUnit_inputs (s : State) (c : Ctx) : (setUnit s c).inputs = s.inputs := by
  unfold setUnit; split <;> first | rfl | (split <;> rfl)
@[simp] theorem setUnit_port (s : State) (c : Ctx) : (setUnit s c).port = s.port := by
  unfold setUnit; split <;> first | rfl | (split <;> rfl)
@[simp] theorem setUnit_nextId (s : State) (c : Ctx) : (setUnit s c).nextId = s.nextId := by
  unfold setUnit; split <;> first | rfl | (split <;> rfl)
@[simp] theorem setUnit_nextSpace (s : State) (c : Ctx) : (setUnit s c).nextSpace = s.nextSpace := by
  unfold setUnit; split <;> first | rfl | (split <;> rfl)
@[simp] theorem setUnit_free (s : State) (c : Ctx) : (setUnit s c).free = s.free := by
  unfold setUnit; split <;> first | rfl | (split <;> rfl)

/-! ## modUnit likewise -/

@[simp] theorem modUnit_clock (s : State) (u : Nat) (f : Ctx → Ctx) : (modUnit s u f).clock = s.clock := by
  unfold modUnit; split <;> simp
@[simp] theorem modUnit_cores (s : State) (u : Nat) (f : Ctx → Ctx) : (modUnit s u f).cores = s.cores := by
  unfold modUnit; split <;> simp
@[simp] theorem modUnit_dies (s : State) (u : Nat) (f : Ctx → Ctx) : (modUnit s u f).dies = s.dies := by
  unfold modUnit; split <;> simp
@[simp] theorem modUnit_engines (s : State) (u : Nat) (f : Ctx → Ctx) : (modUnit s u f).engines = s.engines := by
  unfold modUnit; split <;> simp
@[simp] theorem modUnit_rents (s : State) (u : Nat) (f : Ctx → Ctx) : (modUnit s u f).rents = s.rents := by
  unfold modUnit; split <;> simp
@[simp] theorem modUnit_moved (s : State) (u : Nat) (f : Ctx → Ctx) : (modUnit s u f).moved = s.moved := by
  unfold modUnit; split <;> simp
@[simp] theorem modUnit_ended (s : State) (u : Nat) (f : Ctx → Ctx) : (modUnit s u f).ended = s.ended := by
  unfold modUnit; split <;> simp
@[simp] theorem modUnit_mem (s : State) (u : Nat) (f : Ctx → Ctx) : (modUnit s u f).mem = s.mem := by
  unfold modUnit; split <;> simp
@[simp] theorem modUnit_memPoison (s : State) (u : Nat) (f : Ctx → Ctx) : (modUnit s u f).memPoison = s.memPoison := by
  unfold modUnit; split <;> simp
@[simp] theorem modUnit_words (s : State) (u : Nat) (f : Ctx → Ctx) : (modUnit s u f).words = s.words := by
  unfold modUnit; split <;> simp
@[simp] theorem modUnit_targets (s : State) (u : Nat) (f : Ctx → Ctx) : (modUnit s u f).targets = s.targets := by
  unfold modUnit; split <;> simp
@[simp] theorem modUnit_hist (s : State) (u : Nat) (f : Ctx → Ctx) : (modUnit s u f).hist = s.hist := by
  unfold modUnit; split <;> simp
@[simp] theorem modUnit_landings (s : State) (u : Nat) (f : Ctx → Ctx) : (modUnit s u f).landings = s.landings := by
  unfold modUnit; split <;> simp
@[simp] theorem modUnit_scrub (s : State) (u : Nat) (f : Ctx → Ctx) : (modUnit s u f).scrub = s.scrub := by
  unfold modUnit; split <;> simp
@[simp] theorem modUnit_retiring (s : State) (u : Nat) (f : Ctx → Ctx) : (modUnit s u f).retiring = s.retiring := by
  unfold modUnit; split <;> simp
@[simp] theorem modUnit_frames (s : State) (u : Nat) (f : Ctx → Ctx) : (modUnit s u f).frames = s.frames := by
  unfold modUnit; split <;> simp
@[simp] theorem modUnit_upsets (s : State) (u : Nat) (f : Ctx → Ctx) : (modUnit s u f).upsets = s.upsets := by
  unfold modUnit; split <;> simp
@[simp] theorem modUnit_late (s : State) (u : Nat) (f : Ctx → Ctx) : (modUnit s u f).late = s.late := by
  unfold modUnit; split <;> simp
@[simp] theorem modUnit_teams (s : State) (u : Nat) (f : Ctx → Ctx) : (modUnit s u f).teams = s.teams := by
  unfold modUnit; split <;> simp
@[simp] theorem modUnit_launches (s : State) (u : Nat) (f : Ctx → Ctx) : (modUnit s u f).launches = s.launches := by
  unfold modUnit; split <;> simp
@[simp] theorem modUnit_vds (s : State) (u : Nat) (f : Ctx → Ctx) : (modUnit s u f).vds = s.vds := by
  unfold modUnit; split <;> simp
@[simp] theorem modUnit_incoming (s : State) (u : Nat) (f : Ctx → Ctx) : (modUnit s u f).incoming = s.incoming := by
  unfold modUnit; split <;> simp
@[simp] theorem modUnit_outgoing (s : State) (u : Nat) (f : Ctx → Ctx) : (modUnit s u f).outgoing = s.outgoing := by
  unfold modUnit; split <;> simp
@[simp] theorem modUnit_kicks (s : State) (u : Nat) (f : Ctx → Ctx) : (modUnit s u f).kicks = s.kicks := by
  unfold modUnit; split <;> simp
@[simp] theorem modUnit_vectors (s : State) (u : Nat) (f : Ctx → Ctx) : (modUnit s u f).vectors = s.vectors := by
  unfold modUnit; split <;> simp
@[simp] theorem modUnit_window (s : State) (u : Nat) (f : Ctx → Ctx) : (modUnit s u f).window = s.window := by
  unfold modUnit; split <;> simp
@[simp] theorem modUnit_hostMem (s : State) (u : Nat) (f : Ctx → Ctx) : (modUnit s u f).hostMem = s.hostMem := by
  unfold modUnit; split <;> simp
@[simp] theorem modUnit_newel (s : State) (u : Nat) (f : Ctx → Ctx) : (modUnit s u f).newel = s.newel := by
  unfold modUnit; split <;> simp
@[simp] theorem modUnit_boot (s : State) (u : Nat) (f : Ctx → Ctx) : (modUnit s u f).boot = s.boot := by
  unfold modUnit; split <;> simp
@[simp] theorem modUnit_links (s : State) (u : Nat) (f : Ctx → Ctx) : (modUnit s u f).links = s.links := by
  unfold modUnit; split <;> simp
@[simp] theorem modUnit_logs (s : State) (u : Nat) (f : Ctx → Ctx) : (modUnit s u f).logs = s.logs := by
  unfold modUnit; split <;> simp
@[simp] theorem modUnit_agenda (s : State) (u : Nat) (f : Ctx → Ctx) : (modUnit s u f).agenda = s.agenda := by
  unfold modUnit; split <;> simp
@[simp] theorem modUnit_inputs (s : State) (u : Nat) (f : Ctx → Ctx) : (modUnit s u f).inputs = s.inputs := by
  unfold modUnit; split <;> simp
@[simp] theorem modUnit_port (s : State) (u : Nat) (f : Ctx → Ctx) : (modUnit s u f).port = s.port := by
  unfold modUnit; split <;> simp
@[simp] theorem modUnit_nextId (s : State) (u : Nat) (f : Ctx → Ctx) : (modUnit s u f).nextId = s.nextId := by
  unfold modUnit; split <;> simp
@[simp] theorem modUnit_nextSpace (s : State) (u : Nat) (f : Ctx → Ctx) : (modUnit s u f).nextSpace = s.nextSpace := by
  unfold modUnit; split <;> simp
@[simp] theorem modUnit_free (s : State) (u : Nat) (f : Ctx → Ctx) : (modUnit s u f).free = s.free := by
  unfold modUnit; split <;> simp

/-! ## Units -/

theorem unitOf_cx {s : State} {c : Ctx} (h : s.cx = some c) : unitOf s c.uid = some c := by
  unfold unitOf; rw [h]; simp

/-- A unit put back is found. -/
theorem unitOf_setUnit (s : State) (c : Ctx) : unitOf (setUnit s c) c.uid = some c := by
  unfold setUnit
  split
  · rename_i x hx
    split
    · simp [unitOf]
    · rename_i hne; simp [unitOf, hx, hne]
  · rename_i hx; simp [unitOf, hx]

/-- Another unit is as it was. -/
theorem unitOf_setUnit_ne (s : State) (c : Ctx) {u : Nat} (h : c.uid ≠ u) : unitOf (setUnit s c) u = unitOf s u := by
  unfold setUnit
  split
  · rename_i x hx
    split
    · rename_i he; simp [unitOf, hx, he, h]
    · rename_i hne; simp only [unitOf, hx]; rw [tget_tset_ne _ _ h]
  · rename_i hx; simp only [unitOf, hx]; rw [tget_tset_ne _ _ h]

/-- modUnit applies its function to the unit it names. -/
theorem modUnit_eq {s : State} {u : Nat} {c : Ctx} (f : Ctx → Ctx) (h : unitOf s u = some c) :
    modUnit s u f = setUnit s (f c) := by
  unfold modUnit; rw [h]

/-- On the executing context. -/
theorem modUnit_cx {s : State} {c : Ctx} (f : Ctx → Ctx) (h : s.cx = some c) (hu : (f c).uid = c.uid) :
    modUnit s c.uid f = { s with cx := some (f c) } := by
  rw [modUnit_eq f (unitOf_cx h)]
  unfold setUnit; rw [h]; simp [hu]

/-! ## Contexts: Ctx.advance and Ctx.await, and writes of a scalar or a predicate -/

@[simp] theorem advance_uid (c : Ctx) (s : State) (n h : Nat) : (c.advance s n h).uid = c.uid := rfl
@[simp] theorem advance_vd (c : Ctx) (s : State) (n h : Nat) : (c.advance s n h).vd = c.vd := rfl
@[simp] theorem advance_launch (c : Ctx) (s : State) (n h : Nat) : (c.advance s n h).launch = c.launch := rfl
@[simp] theorem advance_team (c : Ctx) (s : State) (n h : Nat) : (c.advance s n h).team = c.team := rfl
@[simp] theorem advance_core (c : Ctx) (s : State) (n h : Nat) : (c.advance s n h).core = c.core := rfl
@[simp] theorem advance_slot (c : Ctx) (s : State) (n h : Nat) : (c.advance s n h).slot = c.slot := rfl
@[simp] theorem advance_lcore (c : Ctx) (s : State) (n h : Nat) : (c.advance s n h).lcore = c.lcore := rfl
@[simp] theorem advance_teamSize (c : Ctx) (s : State) (n h : Nat) : (c.advance s n h).teamSize = c.teamSize := rfl
@[simp] theorem advance_principal (c : Ctx) (s : State) (n h : Nat) : (c.advance s n h).principal = c.principal := rfl
@[simp] theorem advance_bank (c : Ctx) (s : State) (n h : Nat) : (c.advance s n h).bank = c.bank := rfl
@[simp] theorem advance_oqPoison (c : Ctx) (s : State) (n h : Nat) : (c.advance s n h).oqPoison = c.oqPoison := rfl
@[simp] theorem advance_bankPoison (c : Ctx) (s : State) (n h : Nat) : (c.advance s n h).bankPoison = c.bankPoison := rfl
@[simp] theorem advance_preds (c : Ctx) (s : State) (n h : Nat) : (c.advance s n h).preds = c.preds := rfl
@[simp] theorem advance_tags (c : Ctx) (s : State) (n h : Nat) : (c.advance s n h).tags = c.tags := rfl
@[simp] theorem advance_views (c : Ctx) (s : State) (n h : Nat) : (c.advance s n h).views = c.views := rfl
@[simp] theorem advance_streams (c : Ctx) (s : State) (n h : Nat) : (c.advance s n h).streams = c.streams := rfl
@[simp] theorem advance_oqs (c : Ctx) (s : State) (n h : Nat) : (c.advance s n h).oqs = c.oqs := rfl
@[simp] theorem advance_lc (c : Ctx) (s : State) (n h : Nat) : (c.advance s n h).lc = c.lc := rfl
@[simp] theorem advance_ec (c : Ctx) (s : State) (n h : Nat) : (c.advance s n h).ec = c.ec := rfl
@[simp] theorem advance_rb (c : Ctx) (s : State) (n h : Nat) : (c.advance s n h).rb = c.rb := rfl
@[simp] theorem advance_aflags (c : Ctx) (s : State) (n h : Nat) : (c.advance s n h).aflags = c.aflags := rfl
@[simp] theorem advance_wid (c : Ctx) (s : State) (n h : Nat) : (c.advance s n h).wid = c.wid := rfl
@[simp] theorem advance_lastWid (c : Ctx) (s : State) (n h : Nat) : (c.advance s n h).lastWid = c.lastWid := rfl
@[simp] theorem advance_entry (c : Ctx) (s : State) (n h : Nat) : (c.advance s n h).entry = c.entry := rfl
@[simp] theorem advance_useMask (c : Ctx) (s : State) (n h : Nat) : (c.advance s n h).useMask = c.useMask := rfl
@[simp] theorem advance_capMask (c : Ctx) (s : State) (n h : Nat) : (c.advance s n h).capMask = c.capMask := rfl
@[simp] theorem advance_early (c : Ctx) (s : State) (n h : Nat) : (c.advance s n h).early = c.early := rfl
@[simp] theorem advance_epc (c : Ctx) (s : State) (n h : Nat) : (c.advance s n h).epc = c.epc := rfl
@[simp] theorem advance_cause (c : Ctx) (s : State) (n h : Nat) : (c.advance s n h).cause = c.cause := rfl
@[simp] theorem advance_tval (c : Ctx) (s : State) (n h : Nat) : (c.advance s n h).tval = c.tval := rfl
@[simp] theorem advance_tinfo (c : Ctx) (s : State) (n h : Nat) : (c.advance s n h).tinfo = c.tinfo := rfl
@[simp] theorem advance_tvec (c : Ctx) (s : State) (n h : Nat) : (c.advance s n h).tvec = c.tvec := rfl
@[simp] theorem advance_handler (c : Ctx) (s : State) (n h : Nat) : (c.advance s n h).handler = c.handler := rfl
@[simp] theorem advance_trapTick (c : Ctx) (s : State) (n h : Nat) : (c.advance s n h).trapTick = c.trapTick := rfl
@[simp] theorem advance_savedTimed (c : Ctx) (s : State) (n h : Nat) : (c.advance s n h).savedTimed = c.savedTimed := rfl
@[simp] theorem advance_heldIrq (c : Ctx) (s : State) (n h : Nat) : (c.advance s n h).heldIrq = c.heldIrq := rfl
@[simp] theorem advance_timed (c : Ctx) (s : State) (n h : Nat) : (c.advance s n h).timed = c.timed := rfl
@[simp] theorem advance_segBase (c : Ctx) (s : State) (n h : Nat) : (c.advance s n h).segBase = c.segBase := rfl
@[simp] theorem advance_lastDue (c : Ctx) (s : State) (n h : Nat) : (c.advance s n h).lastDue = c.lastDue := rfl
@[simp] theorem advance_view (c : Ctx) (s : State) (n h : Nat) : (c.advance s n h).view = c.view := rfl
@[simp] theorem advance_viewPulse (c : Ctx) (s : State) (n h : Nat) : (c.advance s n h).viewPulse = c.viewPulse := rfl
@[simp] theorem advance_flight (c : Ctx) (s : State) (n h : Nat) : (c.advance s n h).flight = c.flight := rfl
@[simp] theorem advance_inLand (c : Ctx) (s : State) (n h : Nat) : (c.advance s n h).inLand = c.inLand := rfl
@[simp] theorem advance_region (c : Ctx) (s : State) (n h : Nat) : (c.advance s n h).region = c.region := rfl
@[simp] theorem advance_defer (c : Ctx) (s : State) (n h : Nat) : (c.advance s n h).defer = c.defer := rfl
@[simp] theorem advance_budget (c : Ctx) (s : State) (n h : Nat) : (c.advance s n h).budget = c.budget := rfl
@[simp] theorem advance_budgetStart (c : Ctx) (s : State) (n h : Nat) : (c.advance s n h).budgetStart = c.budgetStart := rfl
@[simp] theorem advance_bufs (c : Ctx) (s : State) (n h : Nat) : (c.advance s n h).bufs = c.bufs := rfl
@[simp] theorem advance_slots (c : Ctx) (s : State) (n h : Nat) : (c.advance s n h).slots = c.slots := rfl
@[simp] theorem advance_spad (c : Ctx) (s : State) (n h : Nat) : (c.advance s n h).spad = c.spad := rfl
@[simp] theorem advance_priv (c : Ctx) (s : State) (n h : Nat) : (c.advance s n h).priv = c.priv := rfl
@[simp] theorem advance_privPages (c : Ctx) (s : State) (n h : Nat) : (c.advance s n h).privPages = c.privPages := rfl
@[simp] theorem advance_bankRef (c : Ctx) (s : State) (n h : Nat) : (c.advance s n h).bankRef = c.bankRef := rfl
@[simp] theorem advance_grantRefs (c : Ctx) (s : State) (n h : Nat) : (c.advance s n h).grantRefs = c.grantRefs := rfl
@[simp] theorem advance_chans (c : Ctx) (s : State) (n h : Nat) : (c.advance s n h).chans = c.chans := rfl
@[simp] theorem advance_truncSeq (c : Ctx) (s : State) (n h : Nat) : (c.advance s n h).truncSeq = c.truncSeq := rfl
@[simp] theorem advance_eventCount (c : Ctx) (s : State) (n h : Nat) : (c.advance s n h).eventCount = c.eventCount := rfl
@[simp] theorem advance_regs16 (c : Ctx) (s : State) (n h : Nat) : (c.advance s n h).regs16 = c.regs16 := rfl
@[simp] theorem advance_busy (c : Ctx) (s : State) (n h : Nat) : (c.advance s n h).busy = c.busy := rfl
@[simp] theorem advance_objects (c : Ctx) (s : State) (n h : Nat) : (c.advance s n h).objects = c.objects := rfl
@[simp] theorem advance_acq (c : Ctx) (s : State) (n h : Nat) : (c.advance s n h).acq = c.acq := rfl
@[simp] theorem advance_wait (c : Ctx) (s : State) (n h : Nat) : (c.advance s n h).wait = c.wait := rfl
@[simp] theorem advance_saved (c : Ctx) (s : State) (n h : Nat) : (c.advance s n h).saved = c.saved := rfl
@[simp] theorem advance_heldCmds (c : Ctx) (s : State) (n h : Nat) : (c.advance s n h).heldCmds = c.heldCmds := rfl
@[simp] theorem advance_loads (c : Ctx) (s : State) (n h : Nat) : (c.advance s n h).loads = c.loads := rfl
@[simp] theorem advance_loadLinks (c : Ctx) (s : State) (n h : Nat) : (c.advance s n h).loadLinks = c.loadLinks := rfl
@[simp] theorem advance_work (c : Ctx) (s : State) (n h : Nat) : (c.advance s n h).work = c.work := rfl
@[simp] theorem advance_sliceEnd (c : Ctx) (s : State) (n h : Nat) : (c.advance s n h).sliceEnd = c.sliceEnd := rfl
@[simp] theorem advance_landDropped (c : Ctx) (s : State) (n h : Nat) : (c.advance s n h).landDropped = c.landDropped := rfl
@[simp] theorem advance_landedCode (c : Ctx) (s : State) (n h : Nat) : (c.advance s n h).landedCode = c.landedCode := rfl
@[simp] theorem advance_savedAt (c : Ctx) (s : State) (n h : Nat) : (c.advance s n h).savedAt = c.savedAt := rfl
@[simp] theorem advance_bankLeft (c : Ctx) (s : State) (n h : Nat) : (c.advance s n h).bankLeft = c.bankLeft := rfl
@[simp] theorem advance_saveRef (c : Ctx) (s : State) (n h : Nat) : (c.advance s n h).saveRef = c.saveRef := rfl
@[simp] theorem advance_bpPast (c : Ctx) (s : State) (n h : Nat) : (c.advance s n h).bpPast = c.bpPast := rfl
@[simp] theorem advance_imported (c : Ctx) (s : State) (n h : Nat) : (c.advance s n h).imported = c.imported := rfl
@[simp] theorem advance_trapCmds (c : Ctx) (s : State) (n h : Nat) : (c.advance s n h).trapCmds = c.trapCmds := rfl
@[simp] theorem advance_savedLast (c : Ctx) (s : State) (n h : Nat) : (c.advance s n h).savedLast = c.savedLast := rfl
@[simp] theorem advance_grantUntil (c : Ctx) (s : State) (n h : Nat) : (c.advance s n h).grantUntil = c.grantUntil := rfl
@[simp] theorem advance_gradsAt (c : Ctx) (s : State) (n h : Nat) : (c.advance s n h).gradsAt = c.gradsAt := rfl
@[simp] theorem advance_byFreeze (c : Ctx) (s : State) (n h : Nat) : (c.advance s n h).byFreeze = c.byFreeze := rfl
@[simp] theorem advance_entriesAt (c : Ctx) (s : State) (n h : Nat) : (c.advance s n h).entriesAt = c.entriesAt := rfl
@[simp] theorem advance_spent (c : Ctx) (s : State) (n h : Nat) : (c.advance s n h).spent = c.spent := rfl
@[simp] theorem advance_upsets (c : Ctx) (s : State) (n h : Nat) : (c.advance s n h).upsets = c.upsets := rfl

@[simp] theorem advance_pc (c : Ctx) (s : State) (n h : Nat) : (c.advance s n h).pc = c.pc + BitVec.ofNat 64 n := rfl
@[simp] theorem advance_nextAt (c : Ctx) (s : State) (n h : Nat) : (c.advance s n h).nextAt = tickOf s c + h := rfl

@[simp] theorem await_uid (c : Ctx) (r : RegName) (t : Nat) : (c.await r t).uid = c.uid := rfl
@[simp] theorem await_vd (c : Ctx) (r : RegName) (t : Nat) : (c.await r t).vd = c.vd := rfl
@[simp] theorem await_launch (c : Ctx) (r : RegName) (t : Nat) : (c.await r t).launch = c.launch := rfl
@[simp] theorem await_team (c : Ctx) (r : RegName) (t : Nat) : (c.await r t).team = c.team := rfl
@[simp] theorem await_core (c : Ctx) (r : RegName) (t : Nat) : (c.await r t).core = c.core := rfl
@[simp] theorem await_slot (c : Ctx) (r : RegName) (t : Nat) : (c.await r t).slot = c.slot := rfl
@[simp] theorem await_lcore (c : Ctx) (r : RegName) (t : Nat) : (c.await r t).lcore = c.lcore := rfl
@[simp] theorem await_teamSize (c : Ctx) (r : RegName) (t : Nat) : (c.await r t).teamSize = c.teamSize := rfl
@[simp] theorem await_principal (c : Ctx) (r : RegName) (t : Nat) : (c.await r t).principal = c.principal := rfl
@[simp] theorem await_pc (c : Ctx) (r : RegName) (t : Nat) : (c.await r t).pc = c.pc := rfl
@[simp] theorem await_bank (c : Ctx) (r : RegName) (t : Nat) : (c.await r t).bank = c.bank := rfl
@[simp] theorem await_oqPoison (c : Ctx) (r : RegName) (t : Nat) : (c.await r t).oqPoison = c.oqPoison := rfl
@[simp] theorem await_bankPoison (c : Ctx) (r : RegName) (t : Nat) : (c.await r t).bankPoison = c.bankPoison := rfl
@[simp] theorem await_preds (c : Ctx) (r : RegName) (t : Nat) : (c.await r t).preds = c.preds := rfl
@[simp] theorem await_tags (c : Ctx) (r : RegName) (t : Nat) : (c.await r t).tags = c.tags := rfl
@[simp] theorem await_views (c : Ctx) (r : RegName) (t : Nat) : (c.await r t).views = c.views := rfl
@[simp] theorem await_streams (c : Ctx) (r : RegName) (t : Nat) : (c.await r t).streams = c.streams := rfl
@[simp] theorem await_oqs (c : Ctx) (r : RegName) (t : Nat) : (c.await r t).oqs = c.oqs := rfl
@[simp] theorem await_lc (c : Ctx) (r : RegName) (t : Nat) : (c.await r t).lc = c.lc := rfl
@[simp] theorem await_ec (c : Ctx) (r : RegName) (t : Nat) : (c.await r t).ec = c.ec := rfl
@[simp] theorem await_rb (c : Ctx) (r : RegName) (t : Nat) : (c.await r t).rb = c.rb := rfl
@[simp] theorem await_aflags (c : Ctx) (r : RegName) (t : Nat) : (c.await r t).aflags = c.aflags := rfl
@[simp] theorem await_wid (c : Ctx) (r : RegName) (t : Nat) : (c.await r t).wid = c.wid := rfl
@[simp] theorem await_lastWid (c : Ctx) (r : RegName) (t : Nat) : (c.await r t).lastWid = c.lastWid := rfl
@[simp] theorem await_entry (c : Ctx) (r : RegName) (t : Nat) : (c.await r t).entry = c.entry := rfl
@[simp] theorem await_useMask (c : Ctx) (r : RegName) (t : Nat) : (c.await r t).useMask = c.useMask := rfl
@[simp] theorem await_capMask (c : Ctx) (r : RegName) (t : Nat) : (c.await r t).capMask = c.capMask := rfl
@[simp] theorem await_early (c : Ctx) (r : RegName) (t : Nat) : (c.await r t).early = c.early := rfl
@[simp] theorem await_epc (c : Ctx) (r : RegName) (t : Nat) : (c.await r t).epc = c.epc := rfl
@[simp] theorem await_cause (c : Ctx) (r : RegName) (t : Nat) : (c.await r t).cause = c.cause := rfl
@[simp] theorem await_tval (c : Ctx) (r : RegName) (t : Nat) : (c.await r t).tval = c.tval := rfl
@[simp] theorem await_tinfo (c : Ctx) (r : RegName) (t : Nat) : (c.await r t).tinfo = c.tinfo := rfl
@[simp] theorem await_tvec (c : Ctx) (r : RegName) (t : Nat) : (c.await r t).tvec = c.tvec := rfl
@[simp] theorem await_handler (c : Ctx) (r : RegName) (t : Nat) : (c.await r t).handler = c.handler := rfl
@[simp] theorem await_trapTick (c : Ctx) (r : RegName) (t : Nat) : (c.await r t).trapTick = c.trapTick := rfl
@[simp] theorem await_savedTimed (c : Ctx) (r : RegName) (t : Nat) : (c.await r t).savedTimed = c.savedTimed := rfl
@[simp] theorem await_heldIrq (c : Ctx) (r : RegName) (t : Nat) : (c.await r t).heldIrq = c.heldIrq := rfl
@[simp] theorem await_timed (c : Ctx) (r : RegName) (t : Nat) : (c.await r t).timed = c.timed := rfl
@[simp] theorem await_segBase (c : Ctx) (r : RegName) (t : Nat) : (c.await r t).segBase = c.segBase := rfl
@[simp] theorem await_lastDue (c : Ctx) (r : RegName) (t : Nat) : (c.await r t).lastDue = c.lastDue := rfl
@[simp] theorem await_view (c : Ctx) (r : RegName) (t : Nat) : (c.await r t).view = c.view := rfl
@[simp] theorem await_viewPulse (c : Ctx) (r : RegName) (t : Nat) : (c.await r t).viewPulse = c.viewPulse := rfl
@[simp] theorem await_flight (c : Ctx) (r : RegName) (t : Nat) : (c.await r t).flight = c.flight := rfl
@[simp] theorem await_inLand (c : Ctx) (r : RegName) (t : Nat) : (c.await r t).inLand = c.inLand := rfl
@[simp] theorem await_region (c : Ctx) (r : RegName) (t : Nat) : (c.await r t).region = c.region := rfl
@[simp] theorem await_defer (c : Ctx) (r : RegName) (t : Nat) : (c.await r t).defer = c.defer := rfl
@[simp] theorem await_budget (c : Ctx) (r : RegName) (t : Nat) : (c.await r t).budget = c.budget := rfl
@[simp] theorem await_budgetStart (c : Ctx) (r : RegName) (t : Nat) : (c.await r t).budgetStart = c.budgetStart := rfl
@[simp] theorem await_bufs (c : Ctx) (r : RegName) (t : Nat) : (c.await r t).bufs = c.bufs := rfl
@[simp] theorem await_slots (c : Ctx) (r : RegName) (t : Nat) : (c.await r t).slots = c.slots := rfl
@[simp] theorem await_spad (c : Ctx) (r : RegName) (t : Nat) : (c.await r t).spad = c.spad := rfl
@[simp] theorem await_priv (c : Ctx) (r : RegName) (t : Nat) : (c.await r t).priv = c.priv := rfl
@[simp] theorem await_privPages (c : Ctx) (r : RegName) (t : Nat) : (c.await r t).privPages = c.privPages := rfl
@[simp] theorem await_bankRef (c : Ctx) (r : RegName) (t : Nat) : (c.await r t).bankRef = c.bankRef := rfl
@[simp] theorem await_grantRefs (c : Ctx) (r : RegName) (t : Nat) : (c.await r t).grantRefs = c.grantRefs := rfl
@[simp] theorem await_chans (c : Ctx) (r : RegName) (t : Nat) : (c.await r t).chans = c.chans := rfl
@[simp] theorem await_truncSeq (c : Ctx) (r : RegName) (t : Nat) : (c.await r t).truncSeq = c.truncSeq := rfl
@[simp] theorem await_eventCount (c : Ctx) (r : RegName) (t : Nat) : (c.await r t).eventCount = c.eventCount := rfl
@[simp] theorem await_regs16 (c : Ctx) (r : RegName) (t : Nat) : (c.await r t).regs16 = c.regs16 := rfl
@[simp] theorem await_objects (c : Ctx) (r : RegName) (t : Nat) : (c.await r t).objects = c.objects := rfl
@[simp] theorem await_acq (c : Ctx) (r : RegName) (t : Nat) : (c.await r t).acq = c.acq := rfl
@[simp] theorem await_wait (c : Ctx) (r : RegName) (t : Nat) : (c.await r t).wait = c.wait := rfl
@[simp] theorem await_nextAt (c : Ctx) (r : RegName) (t : Nat) : (c.await r t).nextAt = c.nextAt := rfl
@[simp] theorem await_saved (c : Ctx) (r : RegName) (t : Nat) : (c.await r t).saved = c.saved := rfl
@[simp] theorem await_heldCmds (c : Ctx) (r : RegName) (t : Nat) : (c.await r t).heldCmds = c.heldCmds := rfl
@[simp] theorem await_loads (c : Ctx) (r : RegName) (t : Nat) : (c.await r t).loads = c.loads := rfl
@[simp] theorem await_loadLinks (c : Ctx) (r : RegName) (t : Nat) : (c.await r t).loadLinks = c.loadLinks := rfl
@[simp] theorem await_work (c : Ctx) (r : RegName) (t : Nat) : (c.await r t).work = c.work := rfl
@[simp] theorem await_sliceEnd (c : Ctx) (r : RegName) (t : Nat) : (c.await r t).sliceEnd = c.sliceEnd := rfl
@[simp] theorem await_landDropped (c : Ctx) (r : RegName) (t : Nat) : (c.await r t).landDropped = c.landDropped := rfl
@[simp] theorem await_landedCode (c : Ctx) (r : RegName) (t : Nat) : (c.await r t).landedCode = c.landedCode := rfl
@[simp] theorem await_savedAt (c : Ctx) (r : RegName) (t : Nat) : (c.await r t).savedAt = c.savedAt := rfl
@[simp] theorem await_bankLeft (c : Ctx) (r : RegName) (t : Nat) : (c.await r t).bankLeft = c.bankLeft := rfl
@[simp] theorem await_saveRef (c : Ctx) (r : RegName) (t : Nat) : (c.await r t).saveRef = c.saveRef := rfl
@[simp] theorem await_bpPast (c : Ctx) (r : RegName) (t : Nat) : (c.await r t).bpPast = c.bpPast := rfl
@[simp] theorem await_imported (c : Ctx) (r : RegName) (t : Nat) : (c.await r t).imported = c.imported := rfl
@[simp] theorem await_trapCmds (c : Ctx) (r : RegName) (t : Nat) : (c.await r t).trapCmds = c.trapCmds := rfl
@[simp] theorem await_savedLast (c : Ctx) (r : RegName) (t : Nat) : (c.await r t).savedLast = c.savedLast := rfl
@[simp] theorem await_grantUntil (c : Ctx) (r : RegName) (t : Nat) : (c.await r t).grantUntil = c.grantUntil := rfl
@[simp] theorem await_gradsAt (c : Ctx) (r : RegName) (t : Nat) : (c.await r t).gradsAt = c.gradsAt := rfl
@[simp] theorem await_byFreeze (c : Ctx) (r : RegName) (t : Nat) : (c.await r t).byFreeze = c.byFreeze := rfl
@[simp] theorem await_entriesAt (c : Ctx) (r : RegName) (t : Nat) : (c.await r t).entriesAt = c.entriesAt := rfl
@[simp] theorem await_spent (c : Ctx) (r : RegName) (t : Nat) : (c.await r t).spent = c.spent := rfl
@[simp] theorem await_upsets (c : Ctx) (r : RegName) (t : Nat) : (c.await r t).upsets = c.upsets := rfl

@[simp] theorem wrPhys_uid (c : Ctx) (p : Nat) (v : Word) : (wrPhys c p v).uid = c.uid := by
  rw [wrPhys_frame]
@[simp] theorem wrPhys_vd (c : Ctx) (p : Nat) (v : Word) : (wrPhys c p v).vd = c.vd := by
  rw [wrPhys_frame]
@[simp] theorem wrPhys_launch (c : Ctx) (p : Nat) (v : Word) : (wrPhys c p v).launch = c.launch := by
  rw [wrPhys_frame]
@[simp] theorem wrPhys_team (c : Ctx) (p : Nat) (v : Word) : (wrPhys c p v).team = c.team := by
  rw [wrPhys_frame]
@[simp] theorem wrPhys_core (c : Ctx) (p : Nat) (v : Word) : (wrPhys c p v).core = c.core := by
  rw [wrPhys_frame]
@[simp] theorem wrPhys_slot (c : Ctx) (p : Nat) (v : Word) : (wrPhys c p v).slot = c.slot := by
  rw [wrPhys_frame]
@[simp] theorem wrPhys_lcore (c : Ctx) (p : Nat) (v : Word) : (wrPhys c p v).lcore = c.lcore := by
  rw [wrPhys_frame]
@[simp] theorem wrPhys_teamSize (c : Ctx) (p : Nat) (v : Word) : (wrPhys c p v).teamSize = c.teamSize := by
  rw [wrPhys_frame]
@[simp] theorem wrPhys_principal (c : Ctx) (p : Nat) (v : Word) : (wrPhys c p v).principal = c.principal := by
  rw [wrPhys_frame]
@[simp] theorem wrPhys_pc (c : Ctx) (p : Nat) (v : Word) : (wrPhys c p v).pc = c.pc := by
  rw [wrPhys_frame]
@[simp] theorem wrPhys_oqPoison (c : Ctx) (p : Nat) (v : Word) : (wrPhys c p v).oqPoison = c.oqPoison := by
  rw [wrPhys_frame]
@[simp] theorem wrPhys_preds (c : Ctx) (p : Nat) (v : Word) : (wrPhys c p v).preds = c.preds := by
  rw [wrPhys_frame]
@[simp] theorem wrPhys_tags (c : Ctx) (p : Nat) (v : Word) : (wrPhys c p v).tags = c.tags := by
  rw [wrPhys_frame]
@[simp] theorem wrPhys_views (c : Ctx) (p : Nat) (v : Word) : (wrPhys c p v).views = c.views := by
  rw [wrPhys_frame]
@[simp] theorem wrPhys_streams (c : Ctx) (p : Nat) (v : Word) : (wrPhys c p v).streams = c.streams := by
  rw [wrPhys_frame]
@[simp] theorem wrPhys_oqs (c : Ctx) (p : Nat) (v : Word) : (wrPhys c p v).oqs = c.oqs := by
  rw [wrPhys_frame]
@[simp] theorem wrPhys_lc (c : Ctx) (p : Nat) (v : Word) : (wrPhys c p v).lc = c.lc := by
  rw [wrPhys_frame]
@[simp] theorem wrPhys_ec (c : Ctx) (p : Nat) (v : Word) : (wrPhys c p v).ec = c.ec := by
  rw [wrPhys_frame]
@[simp] theorem wrPhys_rb (c : Ctx) (p : Nat) (v : Word) : (wrPhys c p v).rb = c.rb := by
  rw [wrPhys_frame]
@[simp] theorem wrPhys_aflags (c : Ctx) (p : Nat) (v : Word) : (wrPhys c p v).aflags = c.aflags := by
  rw [wrPhys_frame]
@[simp] theorem wrPhys_wid (c : Ctx) (p : Nat) (v : Word) : (wrPhys c p v).wid = c.wid := by
  rw [wrPhys_frame]
@[simp] theorem wrPhys_lastWid (c : Ctx) (p : Nat) (v : Word) : (wrPhys c p v).lastWid = c.lastWid := by
  rw [wrPhys_frame]
@[simp] theorem wrPhys_entry (c : Ctx) (p : Nat) (v : Word) : (wrPhys c p v).entry = c.entry := by
  rw [wrPhys_frame]
@[simp] theorem wrPhys_useMask (c : Ctx) (p : Nat) (v : Word) : (wrPhys c p v).useMask = c.useMask := by
  rw [wrPhys_frame]
@[simp] theorem wrPhys_capMask (c : Ctx) (p : Nat) (v : Word) : (wrPhys c p v).capMask = c.capMask := by
  rw [wrPhys_frame]
@[simp] theorem wrPhys_early (c : Ctx) (p : Nat) (v : Word) : (wrPhys c p v).early = c.early := by
  rw [wrPhys_frame]
@[simp] theorem wrPhys_epc (c : Ctx) (p : Nat) (v : Word) : (wrPhys c p v).epc = c.epc := by
  rw [wrPhys_frame]
@[simp] theorem wrPhys_cause (c : Ctx) (p : Nat) (v : Word) : (wrPhys c p v).cause = c.cause := by
  rw [wrPhys_frame]
@[simp] theorem wrPhys_tval (c : Ctx) (p : Nat) (v : Word) : (wrPhys c p v).tval = c.tval := by
  rw [wrPhys_frame]
@[simp] theorem wrPhys_tinfo (c : Ctx) (p : Nat) (v : Word) : (wrPhys c p v).tinfo = c.tinfo := by
  rw [wrPhys_frame]
@[simp] theorem wrPhys_tvec (c : Ctx) (p : Nat) (v : Word) : (wrPhys c p v).tvec = c.tvec := by
  rw [wrPhys_frame]
@[simp] theorem wrPhys_handler (c : Ctx) (p : Nat) (v : Word) : (wrPhys c p v).handler = c.handler := by
  rw [wrPhys_frame]
@[simp] theorem wrPhys_trapTick (c : Ctx) (p : Nat) (v : Word) : (wrPhys c p v).trapTick = c.trapTick := by
  rw [wrPhys_frame]
@[simp] theorem wrPhys_savedTimed (c : Ctx) (p : Nat) (v : Word) : (wrPhys c p v).savedTimed = c.savedTimed := by
  rw [wrPhys_frame]
@[simp] theorem wrPhys_heldIrq (c : Ctx) (p : Nat) (v : Word) : (wrPhys c p v).heldIrq = c.heldIrq := by
  rw [wrPhys_frame]
@[simp] theorem wrPhys_timed (c : Ctx) (p : Nat) (v : Word) : (wrPhys c p v).timed = c.timed := by
  rw [wrPhys_frame]
@[simp] theorem wrPhys_segBase (c : Ctx) (p : Nat) (v : Word) : (wrPhys c p v).segBase = c.segBase := by
  rw [wrPhys_frame]
@[simp] theorem wrPhys_lastDue (c : Ctx) (p : Nat) (v : Word) : (wrPhys c p v).lastDue = c.lastDue := by
  rw [wrPhys_frame]
@[simp] theorem wrPhys_view (c : Ctx) (p : Nat) (v : Word) : (wrPhys c p v).view = c.view := by
  rw [wrPhys_frame]
@[simp] theorem wrPhys_viewPulse (c : Ctx) (p : Nat) (v : Word) : (wrPhys c p v).viewPulse = c.viewPulse := by
  rw [wrPhys_frame]
@[simp] theorem wrPhys_flight (c : Ctx) (p : Nat) (v : Word) : (wrPhys c p v).flight = c.flight := by
  rw [wrPhys_frame]
@[simp] theorem wrPhys_inLand (c : Ctx) (p : Nat) (v : Word) : (wrPhys c p v).inLand = c.inLand := by
  rw [wrPhys_frame]
@[simp] theorem wrPhys_region (c : Ctx) (p : Nat) (v : Word) : (wrPhys c p v).region = c.region := by
  rw [wrPhys_frame]
@[simp] theorem wrPhys_defer (c : Ctx) (p : Nat) (v : Word) : (wrPhys c p v).defer = c.defer := by
  rw [wrPhys_frame]
@[simp] theorem wrPhys_budget (c : Ctx) (p : Nat) (v : Word) : (wrPhys c p v).budget = c.budget := by
  rw [wrPhys_frame]
@[simp] theorem wrPhys_budgetStart (c : Ctx) (p : Nat) (v : Word) : (wrPhys c p v).budgetStart = c.budgetStart := by
  rw [wrPhys_frame]
@[simp] theorem wrPhys_bufs (c : Ctx) (p : Nat) (v : Word) : (wrPhys c p v).bufs = c.bufs := by
  rw [wrPhys_frame]
@[simp] theorem wrPhys_slots (c : Ctx) (p : Nat) (v : Word) : (wrPhys c p v).slots = c.slots := by
  rw [wrPhys_frame]
@[simp] theorem wrPhys_spad (c : Ctx) (p : Nat) (v : Word) : (wrPhys c p v).spad = c.spad := by
  rw [wrPhys_frame]
@[simp] theorem wrPhys_priv (c : Ctx) (p : Nat) (v : Word) : (wrPhys c p v).priv = c.priv := by
  rw [wrPhys_frame]
@[simp] theorem wrPhys_privPages (c : Ctx) (p : Nat) (v : Word) : (wrPhys c p v).privPages = c.privPages := by
  rw [wrPhys_frame]
@[simp] theorem wrPhys_bankRef (c : Ctx) (p : Nat) (v : Word) : (wrPhys c p v).bankRef = c.bankRef := by
  rw [wrPhys_frame]
@[simp] theorem wrPhys_grantRefs (c : Ctx) (p : Nat) (v : Word) : (wrPhys c p v).grantRefs = c.grantRefs := by
  rw [wrPhys_frame]
@[simp] theorem wrPhys_chans (c : Ctx) (p : Nat) (v : Word) : (wrPhys c p v).chans = c.chans := by
  rw [wrPhys_frame]
@[simp] theorem wrPhys_truncSeq (c : Ctx) (p : Nat) (v : Word) : (wrPhys c p v).truncSeq = c.truncSeq := by
  rw [wrPhys_frame]
@[simp] theorem wrPhys_eventCount (c : Ctx) (p : Nat) (v : Word) : (wrPhys c p v).eventCount = c.eventCount := by
  rw [wrPhys_frame]
@[simp] theorem wrPhys_regs16 (c : Ctx) (p : Nat) (v : Word) : (wrPhys c p v).regs16 = c.regs16 := by
  rw [wrPhys_frame]
@[simp] theorem wrPhys_busy (c : Ctx) (p : Nat) (v : Word) : (wrPhys c p v).busy = c.busy := by
  rw [wrPhys_frame]
@[simp] theorem wrPhys_objects (c : Ctx) (p : Nat) (v : Word) : (wrPhys c p v).objects = c.objects := by
  rw [wrPhys_frame]
@[simp] theorem wrPhys_acq (c : Ctx) (p : Nat) (v : Word) : (wrPhys c p v).acq = c.acq := by
  rw [wrPhys_frame]
@[simp] theorem wrPhys_wait (c : Ctx) (p : Nat) (v : Word) : (wrPhys c p v).wait = c.wait := by
  rw [wrPhys_frame]
@[simp] theorem wrPhys_nextAt (c : Ctx) (p : Nat) (v : Word) : (wrPhys c p v).nextAt = c.nextAt := by
  rw [wrPhys_frame]
@[simp] theorem wrPhys_saved (c : Ctx) (p : Nat) (v : Word) : (wrPhys c p v).saved = c.saved := by
  rw [wrPhys_frame]
@[simp] theorem wrPhys_heldCmds (c : Ctx) (p : Nat) (v : Word) : (wrPhys c p v).heldCmds = c.heldCmds := by
  rw [wrPhys_frame]
@[simp] theorem wrPhys_loads (c : Ctx) (p : Nat) (v : Word) : (wrPhys c p v).loads = c.loads := by
  rw [wrPhys_frame]
@[simp] theorem wrPhys_loadLinks (c : Ctx) (p : Nat) (v : Word) : (wrPhys c p v).loadLinks = c.loadLinks := by
  rw [wrPhys_frame]
@[simp] theorem wrPhys_work (c : Ctx) (p : Nat) (v : Word) : (wrPhys c p v).work = c.work := by
  rw [wrPhys_frame]
@[simp] theorem wrPhys_sliceEnd (c : Ctx) (p : Nat) (v : Word) : (wrPhys c p v).sliceEnd = c.sliceEnd := by
  rw [wrPhys_frame]
@[simp] theorem wrPhys_landDropped (c : Ctx) (p : Nat) (v : Word) : (wrPhys c p v).landDropped = c.landDropped := by
  rw [wrPhys_frame]
@[simp] theorem wrPhys_landedCode (c : Ctx) (p : Nat) (v : Word) : (wrPhys c p v).landedCode = c.landedCode := by
  rw [wrPhys_frame]
@[simp] theorem wrPhys_savedAt (c : Ctx) (p : Nat) (v : Word) : (wrPhys c p v).savedAt = c.savedAt := by
  rw [wrPhys_frame]
@[simp] theorem wrPhys_bankLeft (c : Ctx) (p : Nat) (v : Word) : (wrPhys c p v).bankLeft = c.bankLeft := by
  rw [wrPhys_frame]
@[simp] theorem wrPhys_saveRef (c : Ctx) (p : Nat) (v : Word) : (wrPhys c p v).saveRef = c.saveRef := by
  rw [wrPhys_frame]
@[simp] theorem wrPhys_bpPast (c : Ctx) (p : Nat) (v : Word) : (wrPhys c p v).bpPast = c.bpPast := by
  rw [wrPhys_frame]
@[simp] theorem wrPhys_imported (c : Ctx) (p : Nat) (v : Word) : (wrPhys c p v).imported = c.imported := by
  rw [wrPhys_frame]
@[simp] theorem wrPhys_trapCmds (c : Ctx) (p : Nat) (v : Word) : (wrPhys c p v).trapCmds = c.trapCmds := by
  rw [wrPhys_frame]
@[simp] theorem wrPhys_savedLast (c : Ctx) (p : Nat) (v : Word) : (wrPhys c p v).savedLast = c.savedLast := by
  rw [wrPhys_frame]
@[simp] theorem wrPhys_grantUntil (c : Ctx) (p : Nat) (v : Word) : (wrPhys c p v).grantUntil = c.grantUntil := by
  rw [wrPhys_frame]
@[simp] theorem wrPhys_gradsAt (c : Ctx) (p : Nat) (v : Word) : (wrPhys c p v).gradsAt = c.gradsAt := by
  rw [wrPhys_frame]
@[simp] theorem wrPhys_byFreeze (c : Ctx) (p : Nat) (v : Word) : (wrPhys c p v).byFreeze = c.byFreeze := by
  rw [wrPhys_frame]
@[simp] theorem wrPhys_entriesAt (c : Ctx) (p : Nat) (v : Word) : (wrPhys c p v).entriesAt = c.entriesAt := by
  rw [wrPhys_frame]
@[simp] theorem wrPhys_spent (c : Ctx) (p : Nat) (v : Word) : (wrPhys c p v).spent = c.spent := by
  rw [wrPhys_frame]

@[simp] theorem wrPhysP_uid (c : Ctx) (p : Nat) (v : Word) : (wrPhysP c p v).uid = c.uid := by
  rw [wrPhysP_frame]
@[simp] theorem wrPhysP_vd (c : Ctx) (p : Nat) (v : Word) : (wrPhysP c p v).vd = c.vd := by
  rw [wrPhysP_frame]
@[simp] theorem wrPhysP_launch (c : Ctx) (p : Nat) (v : Word) : (wrPhysP c p v).launch = c.launch := by
  rw [wrPhysP_frame]
@[simp] theorem wrPhysP_team (c : Ctx) (p : Nat) (v : Word) : (wrPhysP c p v).team = c.team := by
  rw [wrPhysP_frame]
@[simp] theorem wrPhysP_core (c : Ctx) (p : Nat) (v : Word) : (wrPhysP c p v).core = c.core := by
  rw [wrPhysP_frame]
@[simp] theorem wrPhysP_slot (c : Ctx) (p : Nat) (v : Word) : (wrPhysP c p v).slot = c.slot := by
  rw [wrPhysP_frame]
@[simp] theorem wrPhysP_lcore (c : Ctx) (p : Nat) (v : Word) : (wrPhysP c p v).lcore = c.lcore := by
  rw [wrPhysP_frame]
@[simp] theorem wrPhysP_teamSize (c : Ctx) (p : Nat) (v : Word) : (wrPhysP c p v).teamSize = c.teamSize := by
  rw [wrPhysP_frame]
@[simp] theorem wrPhysP_principal (c : Ctx) (p : Nat) (v : Word) : (wrPhysP c p v).principal = c.principal := by
  rw [wrPhysP_frame]
@[simp] theorem wrPhysP_pc (c : Ctx) (p : Nat) (v : Word) : (wrPhysP c p v).pc = c.pc := by
  rw [wrPhysP_frame]
@[simp] theorem wrPhysP_bank (c : Ctx) (p : Nat) (v : Word) : (wrPhysP c p v).bank = c.bank := by
  rw [wrPhysP_frame]
@[simp] theorem wrPhysP_oqPoison (c : Ctx) (p : Nat) (v : Word) : (wrPhysP c p v).oqPoison = c.oqPoison := by
  rw [wrPhysP_frame]
@[simp] theorem wrPhysP_bankPoison (c : Ctx) (p : Nat) (v : Word) : (wrPhysP c p v).bankPoison = c.bankPoison := by
  rw [wrPhysP_frame]
@[simp] theorem wrPhysP_tags (c : Ctx) (p : Nat) (v : Word) : (wrPhysP c p v).tags = c.tags := by
  rw [wrPhysP_frame]
@[simp] theorem wrPhysP_views (c : Ctx) (p : Nat) (v : Word) : (wrPhysP c p v).views = c.views := by
  rw [wrPhysP_frame]
@[simp] theorem wrPhysP_streams (c : Ctx) (p : Nat) (v : Word) : (wrPhysP c p v).streams = c.streams := by
  rw [wrPhysP_frame]
@[simp] theorem wrPhysP_oqs (c : Ctx) (p : Nat) (v : Word) : (wrPhysP c p v).oqs = c.oqs := by
  rw [wrPhysP_frame]
@[simp] theorem wrPhysP_lc (c : Ctx) (p : Nat) (v : Word) : (wrPhysP c p v).lc = c.lc := by
  rw [wrPhysP_frame]
@[simp] theorem wrPhysP_ec (c : Ctx) (p : Nat) (v : Word) : (wrPhysP c p v).ec = c.ec := by
  rw [wrPhysP_frame]
@[simp] theorem wrPhysP_rb (c : Ctx) (p : Nat) (v : Word) : (wrPhysP c p v).rb = c.rb := by
  rw [wrPhysP_frame]
@[simp] theorem wrPhysP_aflags (c : Ctx) (p : Nat) (v : Word) : (wrPhysP c p v).aflags = c.aflags := by
  rw [wrPhysP_frame]
@[simp] theorem wrPhysP_wid (c : Ctx) (p : Nat) (v : Word) : (wrPhysP c p v).wid = c.wid := by
  rw [wrPhysP_frame]
@[simp] theorem wrPhysP_lastWid (c : Ctx) (p : Nat) (v : Word) : (wrPhysP c p v).lastWid = c.lastWid := by
  rw [wrPhysP_frame]
@[simp] theorem wrPhysP_entry (c : Ctx) (p : Nat) (v : Word) : (wrPhysP c p v).entry = c.entry := by
  rw [wrPhysP_frame]
@[simp] theorem wrPhysP_useMask (c : Ctx) (p : Nat) (v : Word) : (wrPhysP c p v).useMask = c.useMask := by
  rw [wrPhysP_frame]
@[simp] theorem wrPhysP_capMask (c : Ctx) (p : Nat) (v : Word) : (wrPhysP c p v).capMask = c.capMask := by
  rw [wrPhysP_frame]
@[simp] theorem wrPhysP_early (c : Ctx) (p : Nat) (v : Word) : (wrPhysP c p v).early = c.early := by
  rw [wrPhysP_frame]
@[simp] theorem wrPhysP_epc (c : Ctx) (p : Nat) (v : Word) : (wrPhysP c p v).epc = c.epc := by
  rw [wrPhysP_frame]
@[simp] theorem wrPhysP_cause (c : Ctx) (p : Nat) (v : Word) : (wrPhysP c p v).cause = c.cause := by
  rw [wrPhysP_frame]
@[simp] theorem wrPhysP_tval (c : Ctx) (p : Nat) (v : Word) : (wrPhysP c p v).tval = c.tval := by
  rw [wrPhysP_frame]
@[simp] theorem wrPhysP_tinfo (c : Ctx) (p : Nat) (v : Word) : (wrPhysP c p v).tinfo = c.tinfo := by
  rw [wrPhysP_frame]
@[simp] theorem wrPhysP_tvec (c : Ctx) (p : Nat) (v : Word) : (wrPhysP c p v).tvec = c.tvec := by
  rw [wrPhysP_frame]
@[simp] theorem wrPhysP_handler (c : Ctx) (p : Nat) (v : Word) : (wrPhysP c p v).handler = c.handler := by
  rw [wrPhysP_frame]
@[simp] theorem wrPhysP_trapTick (c : Ctx) (p : Nat) (v : Word) : (wrPhysP c p v).trapTick = c.trapTick := by
  rw [wrPhysP_frame]
@[simp] theorem wrPhysP_savedTimed (c : Ctx) (p : Nat) (v : Word) : (wrPhysP c p v).savedTimed = c.savedTimed := by
  rw [wrPhysP_frame]
@[simp] theorem wrPhysP_heldIrq (c : Ctx) (p : Nat) (v : Word) : (wrPhysP c p v).heldIrq = c.heldIrq := by
  rw [wrPhysP_frame]
@[simp] theorem wrPhysP_timed (c : Ctx) (p : Nat) (v : Word) : (wrPhysP c p v).timed = c.timed := by
  rw [wrPhysP_frame]
@[simp] theorem wrPhysP_segBase (c : Ctx) (p : Nat) (v : Word) : (wrPhysP c p v).segBase = c.segBase := by
  rw [wrPhysP_frame]
@[simp] theorem wrPhysP_lastDue (c : Ctx) (p : Nat) (v : Word) : (wrPhysP c p v).lastDue = c.lastDue := by
  rw [wrPhysP_frame]
@[simp] theorem wrPhysP_view (c : Ctx) (p : Nat) (v : Word) : (wrPhysP c p v).view = c.view := by
  rw [wrPhysP_frame]
@[simp] theorem wrPhysP_viewPulse (c : Ctx) (p : Nat) (v : Word) : (wrPhysP c p v).viewPulse = c.viewPulse := by
  rw [wrPhysP_frame]
@[simp] theorem wrPhysP_flight (c : Ctx) (p : Nat) (v : Word) : (wrPhysP c p v).flight = c.flight := by
  rw [wrPhysP_frame]
@[simp] theorem wrPhysP_inLand (c : Ctx) (p : Nat) (v : Word) : (wrPhysP c p v).inLand = c.inLand := by
  rw [wrPhysP_frame]
@[simp] theorem wrPhysP_region (c : Ctx) (p : Nat) (v : Word) : (wrPhysP c p v).region = c.region := by
  rw [wrPhysP_frame]
@[simp] theorem wrPhysP_defer (c : Ctx) (p : Nat) (v : Word) : (wrPhysP c p v).defer = c.defer := by
  rw [wrPhysP_frame]
@[simp] theorem wrPhysP_budget (c : Ctx) (p : Nat) (v : Word) : (wrPhysP c p v).budget = c.budget := by
  rw [wrPhysP_frame]
@[simp] theorem wrPhysP_budgetStart (c : Ctx) (p : Nat) (v : Word) : (wrPhysP c p v).budgetStart = c.budgetStart := by
  rw [wrPhysP_frame]
@[simp] theorem wrPhysP_bufs (c : Ctx) (p : Nat) (v : Word) : (wrPhysP c p v).bufs = c.bufs := by
  rw [wrPhysP_frame]
@[simp] theorem wrPhysP_slots (c : Ctx) (p : Nat) (v : Word) : (wrPhysP c p v).slots = c.slots := by
  rw [wrPhysP_frame]
@[simp] theorem wrPhysP_spad (c : Ctx) (p : Nat) (v : Word) : (wrPhysP c p v).spad = c.spad := by
  rw [wrPhysP_frame]
@[simp] theorem wrPhysP_priv (c : Ctx) (p : Nat) (v : Word) : (wrPhysP c p v).priv = c.priv := by
  rw [wrPhysP_frame]
@[simp] theorem wrPhysP_privPages (c : Ctx) (p : Nat) (v : Word) : (wrPhysP c p v).privPages = c.privPages := by
  rw [wrPhysP_frame]
@[simp] theorem wrPhysP_bankRef (c : Ctx) (p : Nat) (v : Word) : (wrPhysP c p v).bankRef = c.bankRef := by
  rw [wrPhysP_frame]
@[simp] theorem wrPhysP_grantRefs (c : Ctx) (p : Nat) (v : Word) : (wrPhysP c p v).grantRefs = c.grantRefs := by
  rw [wrPhysP_frame]
@[simp] theorem wrPhysP_chans (c : Ctx) (p : Nat) (v : Word) : (wrPhysP c p v).chans = c.chans := by
  rw [wrPhysP_frame]
@[simp] theorem wrPhysP_truncSeq (c : Ctx) (p : Nat) (v : Word) : (wrPhysP c p v).truncSeq = c.truncSeq := by
  rw [wrPhysP_frame]
@[simp] theorem wrPhysP_eventCount (c : Ctx) (p : Nat) (v : Word) : (wrPhysP c p v).eventCount = c.eventCount := by
  rw [wrPhysP_frame]
@[simp] theorem wrPhysP_regs16 (c : Ctx) (p : Nat) (v : Word) : (wrPhysP c p v).regs16 = c.regs16 := by
  rw [wrPhysP_frame]
@[simp] theorem wrPhysP_busy (c : Ctx) (p : Nat) (v : Word) : (wrPhysP c p v).busy = c.busy := by
  rw [wrPhysP_frame]
@[simp] theorem wrPhysP_objects (c : Ctx) (p : Nat) (v : Word) : (wrPhysP c p v).objects = c.objects := by
  rw [wrPhysP_frame]
@[simp] theorem wrPhysP_acq (c : Ctx) (p : Nat) (v : Word) : (wrPhysP c p v).acq = c.acq := by
  rw [wrPhysP_frame]
@[simp] theorem wrPhysP_wait (c : Ctx) (p : Nat) (v : Word) : (wrPhysP c p v).wait = c.wait := by
  rw [wrPhysP_frame]
@[simp] theorem wrPhysP_nextAt (c : Ctx) (p : Nat) (v : Word) : (wrPhysP c p v).nextAt = c.nextAt := by
  rw [wrPhysP_frame]
@[simp] theorem wrPhysP_saved (c : Ctx) (p : Nat) (v : Word) : (wrPhysP c p v).saved = c.saved := by
  rw [wrPhysP_frame]
@[simp] theorem wrPhysP_heldCmds (c : Ctx) (p : Nat) (v : Word) : (wrPhysP c p v).heldCmds = c.heldCmds := by
  rw [wrPhysP_frame]
@[simp] theorem wrPhysP_loads (c : Ctx) (p : Nat) (v : Word) : (wrPhysP c p v).loads = c.loads := by
  rw [wrPhysP_frame]
@[simp] theorem wrPhysP_loadLinks (c : Ctx) (p : Nat) (v : Word) : (wrPhysP c p v).loadLinks = c.loadLinks := by
  rw [wrPhysP_frame]
@[simp] theorem wrPhysP_work (c : Ctx) (p : Nat) (v : Word) : (wrPhysP c p v).work = c.work := by
  rw [wrPhysP_frame]
@[simp] theorem wrPhysP_sliceEnd (c : Ctx) (p : Nat) (v : Word) : (wrPhysP c p v).sliceEnd = c.sliceEnd := by
  rw [wrPhysP_frame]
@[simp] theorem wrPhysP_landDropped (c : Ctx) (p : Nat) (v : Word) : (wrPhysP c p v).landDropped = c.landDropped := by
  rw [wrPhysP_frame]
@[simp] theorem wrPhysP_landedCode (c : Ctx) (p : Nat) (v : Word) : (wrPhysP c p v).landedCode = c.landedCode := by
  rw [wrPhysP_frame]
@[simp] theorem wrPhysP_savedAt (c : Ctx) (p : Nat) (v : Word) : (wrPhysP c p v).savedAt = c.savedAt := by
  rw [wrPhysP_frame]
@[simp] theorem wrPhysP_bankLeft (c : Ctx) (p : Nat) (v : Word) : (wrPhysP c p v).bankLeft = c.bankLeft := by
  rw [wrPhysP_frame]
@[simp] theorem wrPhysP_saveRef (c : Ctx) (p : Nat) (v : Word) : (wrPhysP c p v).saveRef = c.saveRef := by
  rw [wrPhysP_frame]
@[simp] theorem wrPhysP_bpPast (c : Ctx) (p : Nat) (v : Word) : (wrPhysP c p v).bpPast = c.bpPast := by
  rw [wrPhysP_frame]
@[simp] theorem wrPhysP_imported (c : Ctx) (p : Nat) (v : Word) : (wrPhysP c p v).imported = c.imported := by
  rw [wrPhysP_frame]
@[simp] theorem wrPhysP_trapCmds (c : Ctx) (p : Nat) (v : Word) : (wrPhysP c p v).trapCmds = c.trapCmds := by
  rw [wrPhysP_frame]
@[simp] theorem wrPhysP_savedLast (c : Ctx) (p : Nat) (v : Word) : (wrPhysP c p v).savedLast = c.savedLast := by
  rw [wrPhysP_frame]
@[simp] theorem wrPhysP_grantUntil (c : Ctx) (p : Nat) (v : Word) : (wrPhysP c p v).grantUntil = c.grantUntil := by
  rw [wrPhysP_frame]
@[simp] theorem wrPhysP_gradsAt (c : Ctx) (p : Nat) (v : Word) : (wrPhysP c p v).gradsAt = c.gradsAt := by
  rw [wrPhysP_frame]
@[simp] theorem wrPhysP_byFreeze (c : Ctx) (p : Nat) (v : Word) : (wrPhysP c p v).byFreeze = c.byFreeze := by
  rw [wrPhysP_frame]
@[simp] theorem wrPhysP_entriesAt (c : Ctx) (p : Nat) (v : Word) : (wrPhysP c p v).entriesAt = c.entriesAt := by
  rw [wrPhysP_frame]
@[simp] theorem wrPhysP_spent (c : Ctx) (p : Nat) (v : Word) : (wrPhysP c p v).spent = c.spent := by
  rw [wrPhysP_frame]
@[simp] theorem wrPhysP_upsets (c : Ctx) (p : Nat) (v : Word) : (wrPhysP c p v).upsets = c.upsets := by
  rw [wrPhysP_frame]

end Sys2Proof.Laws
end

