-- ==== Sys2Proof/Machine/Assembly.lean ====
section
/-!
DEFINITION. What ferdas makes of a program whose lines have been read (R202, R206, R207, R212 to R220): forms, timing fields,
padding, data, labels, the derived use mask, launch-record templates and initialiser blocks. Nothing of a step rests on it.
-/
set_option linter.unusedVariables false
namespace Sys2Proof.Machine
open Sys2Proof

/-! ## Forms B and L (R202, R229) -/

/-- Form-B instructions whose imm12 is not signed: fields and numbers. -/
def unsignedImm (op : TwinOp) : Bool :=
  match op with
  | .bfx | .bfxs | .bfi | .mvs | .msv | .trap | .defer | .ldg | .stg => true
  | _ => false

/-- An immediate fits in imm12. -/
def fitsShort (op : TwinOp) (imm : Int) : Bool :=
  if unsignedImm op then decide (0 ≤ imm) && decide (imm < 4096) else decide (-2048 ≤ imm) && decide (imm ≤ 2047)

/-- An immediate is one that imm32 can hold: ferdas never truncates (R212). -/
def fitsLong (op : TwinOp) (imm : Int) : Bool :=
  if unsignedImm op then decide (0 ≤ imm) && decide (imm < 4294967296) else decide (-2147483648 ≤ imm) && decide (imm ≤ 2147483647)

/-- The words of a line whose instruction exists in forms B and L (R202); a value out of the instruction's range is an error (R212). -/
def asmForm (op : TwinOp) (d a : Reg) (imm : Int) : Option (List IWord) :=
  let ws : List IWord := if fitsShort op imm then [BitVec.ofInt 12 imm ++ a ++ d ++ BitVec.ofNat 6 op.code ++ (1 : BitVec 2)]
    else [(BitVec.ofNat 12 op.code ++ a ++ d ++ (0x20 : BitVec 6) ++ (2 : BitVec 2)), BitVec.ofInt 32 imm]
  match fitsLong op imm, decode ws with
  | true, .ok _ => some ws
  | _, _ => none

/-- The instruction of a line's words. -/
def instrOf (ws : List IWord) : List Instr :=
  match decode ws with
  | .ok i => [i]
  | .error _ => []

/-! ## Suffixes and names (R211, R212) -/

/-- A suffix of a mnemonic: an element type, a second type, a rounding, a scope, or a modifier of the instruction. -/
inductive Suffix
  | type (t : Nat) | source (t : Nat) | round (r : Nat) | scope (s : Scope) | modifier (name : String)
deriving DecidableEq, Repr, Inhabited

/-- Two suffixes say the same thing twice. -/
def Suffix.clash : Suffix → Suffix → Bool
  | .type _, .type _ | .source _, .source _ | .round _, .round _ | .scope _, .scope _ => true
  | .modifier a, .modifier b => a == b
  | _, _ => false

/-- The codes of an integer type and of an atomic's (Table 7.1). -/
def intSfx : IntTy → Nat
  | .i8 => 0 | .i16 => 1 | .i32 => 2 | .i64 => 3 | .n8 => 4 | .n16 => 5 | .n32 => 6 | .n64 => 7
def amoSfx : AmoTy → Nat
  | .i32 => 2 | .i64 => 3 | .n32 => 6 | .n64 => 7

/-- A type, and the other one that assembles to the same word (R223). -/
def types (l : List Nat) : List Suffix := l.map .type

/-- Suffixes of a form V instruction: its type; the rounding, on a float type of a function that rounds; a modifier for the mode (R284,
R287 to R302; names the spec does not print are log entry 127's). -/
def vSfx (v : VForm) (rounds : Bool) (mods : List String) : List Suffix :=
  .type v.ty.toNat :: (if rounds then [.round v.rnd.toNat] else [])
    ++ (match mods[v.mode.toNat]? with | some m => if m = "" then [] else [.modifier m] | none => [])

def modeParts : List String := ["part0", "part1", "part2", "part3"]

/-- Suffixes of a long twin's form-B mnemonic (R229). -/
def twinSfx : TwinOp → List Suffix
  | .ldN32 => types [6] | .ldI32 => types [2] | .ldN64 => types [7, 3] | .ldN16 => types [5] | .ldI16 => types [1] | .ldN8 => types [4]
  | .ldI8 => types [0] | .stN8 => types [4, 0] | .stN16 => types [5, 1] | .stN32 => types [6, 2] | .stN64 => types [7, 3]
  | _ => []

def condName : Cond → String
  | .z => "z" | .nz => "nz" | .lt => "lt" | .ge => "ge" | .le => "le" | .gt => "gt"
def windowName : Window → String
  | .global => "global" | .priv => "private" | .spad => "spad" | .gallery => "gallery" | .sync => "sync"
def tierName : Tier → String
  | .t1 => "t1" | .t2 => "t2" | .t3 => "t3" | .t4 => "t4"
def engQName : EngQ → String
  | .mq => "mq" | .vq => "vq" | .lq => "lq" | .sq => "sq"
def statusSfx (st : Bool) : List Suffix := if st then [.modifier "st"] else []

/-- The suffixes that an instruction's line may have, as its words encode them (R212, Table 10.12): no other one is accepted. -/
def suffixesOf (i : Instr) : List Suffix :=
  match i with
  | .spcast w _ _ _ => [.modifier (windowName w)]
  | .segFree => [.modifier "free"]
  | .segTimed => [.modifier "timed"]
  | .rgopenContain _ => [.modifier "contain"]
  | .rgopenIdem _ => [.modifier "idem"]
  | .rgopenBoth _ => [.modifier "both"]
  | .land sc | .swait sc _ _ _ | .waitb sc _ _ _ | .arrive sc _ | .arrdrop sc _ | .binit sc _ _ => [.scope sc]
  | .bacqFill _ => [.modifier "fill"]
  | .bacqDrain _ => [.modifier "drain"]
  | .rent st t _ _ _ => .modifier (tierName t) :: statusSfx st
  | .renew st _ _ _ | .prepay st _ _ _ | .sublet st _ _ _ | .unsublet st _ _ | .release st _ _ | .rquery st _ _ => statusSfx st
  | .ldN32 _ _ _ => twinSfx .ldN32
  | .ldI32 _ _ _ => twinSfx .ldI32
  | .ldN64 _ _ _ => twinSfx .ldN64
  | .ldN16 _ _ _ => twinSfx .ldN16
  | .ldI16 _ _ _ => twinSfx .ldI16
  | .ldN8 _ _ _ => twinSfx .ldN8
  | .ldI8 _ _ _ => twinSfx .ldI8
  | .stN8 _ _ _ => twinSfx .stN8
  | .stN16 _ _ _ => twinSfx .stN16
  | .stN32 _ _ _ => twinSfx .stN32
  | .stN64 _ _ _ => twinSfx .stN64
  | .longTwin .br d _ _ => [.modifier (condName ((Cond.ofCode d.toNat).getD .z))]
  | .longTwin op _ _ _ => twinSfx op
  | .br k _ _ => [.modifier (condName k)]
  | .lda t sc _ _ _ => [.type (intSfx t), .scope sc]
  | .strel t sc _ _ _ => [.type (intSfx t), .scope sc]
  | .amoAdd t sc _ _ _ => [.modifier "add", .type (amoSfx t), .scope sc]
  | .amoAnd t sc _ _ _ => [.modifier "and", .type (amoSfx t), .scope sc]
  | .amoOr t sc _ _ _ => [.modifier "or", .type (amoSfx t), .scope sc]
  | .amoXor t sc _ _ _ => [.modifier "xor", .type (amoSfx t), .scope sc]
  | .amoMin t sc _ _ _ => [.modifier "min", .type (amoSfx t), .scope sc]
  | .amoMax t sc _ _ _ => [.modifier "max", .type (amoSfx t), .scope sc]
  | .amoSwap t sc _ _ _ => [.modifier "swap", .type (amoSfx t), .scope sc]
  | .amoCas t sc _ _ _ _ => [.modifier "cas", .type (amoSfx t), .scope sc]
  | .vadd v | .vsub v | .vmul v | .vabs v | .vneg v => vSfx v true ["", "sat"]
  | .vfma v | .vmin v | .vmax v => vSfx v true []
  | .vand v | .vor v | .vxor v | .vnot v | .vshl v | .vshr v | .vsra v | .vbfx v => vSfx v false []
  | .vceq v | .vcne v | .vclt v | .vcle v => vSfx v false modeParts
  | .vcvt v | .vqrd v => .source v.c.toNat :: vSfx v true modeParts
  | .vexp2 v | .vrcp v | .vcomb v => vSfx v true []
  | .vfsh v => vSfx v false ["left", "right"]
  | .vred v | .vscan v => vSfx v true ["add", "max", "min"]
  | .vtagTags v => .modifier "tags" :: vSfx v false []
  | .vtagMask v => .modifier "mask" :: vSfx v false []
  | .vld v | .vst v | .vgath v | .vscat v | .vlut v | .vthr v | .vmov v | .vbcst v | .vsel v | .vgetl v => vSfx v false []
  | .mloadw _ f => [.type f.ty.toNat]
  | .mmul _ f | .mgrad _ f => [.type f.ty.toNat]
  | .mres _ f => [.type f.ty.toNat, .round f.rnd.toNat]
  | .resume _ q | .esave _ q _ | .eload _ q _ => [.modifier (engQName q)]
  | _ => []

/-- Every suffix is one the instruction takes, and none is repeated. -/
def suffixesOk (takes l : List Suffix) : Bool :=
  l.all takes.contains && (List.range l.length).all (fun i => (List.range i).all (fun j => match l[i]?, l[j]? with
    | some a, some b => !a.clash b
    | _, _ => true))

/-- The mnemonics, in lower case. -/
def mnemonicNames : List String :=
  [ "add", "sub", "and", "or", "xor", "andn", "sll", "srl", "sra", "rol", "ror", "slt", "sltu", "seq", "min", "max", "minu", "maxu", "clz", "ctz",
    "popc", "mul", "mulh", "mulhu", "div", "divu", "rem", "remu", "fshl", "fshr", "lea", "sptest", "spcast", "halt", "waitt", "seg", "gsync", "jr",
    "tret", "ifence", "codesync", "bkpt", "rgclose", "rgabort", "rgopen", "land", "swait", "waitb", "arrive", "arrdrop", "binit", "bdecl", "bacq",
    "brel", "bstat", "rent", "renew", "prepay", "sublet", "unsublet", "release", "rquery", "viewset", "gset", "addi", "andi", "ori", "xori", "slli",
    "srli", "srai", "slti", "sltiu", "bfx", "bfxs", "bfi", "ld", "st", "pref", "ldg", "stg", "br" ]
  ++ [ "j", "jl", "loopr", "trap", "mvs", "msv", "defer", "nop", "lda", "strel", "amo", "vadd", "vsub", "vmul", "vfma", "vmin", "vmax", "vabs", "vneg",
    "vand", "vor", "vxor", "vnot", "vshl", "vshr", "vsra", "vceq", "vcne", "vclt", "vcle", "vcvt", "vqrd", "vexp2", "vrcp", "vbfx", "vfsh", "vred",
    "vscan", "vld", "vst", "vgath", "vscat", "vlut", "vthr", "vtag", "vcomb", "vmov", "vbcst", "vsel", "vgetl", "pand", "por", "pxor", "pandn", "pnot",
    "psetl", "pseth", "pget", "pput", "mloadw", "mmul", "mgrad", "mgdrain", "mres", "slclaim", "slrel", "lnest", "sortc", "xld", "xst", "resume",
    "esave", "eload", "cpy", "cpyc", "ckpt", "lrflush", "xsend", "xrecv", "dispatch", "wlnext", "wid" ]

/-- The register names of Table 10.11: a prefix and how many there are. -/
def registerKinds : List (String × Nat) :=
  [("s", 64), ("v", 64), ("p", 128), ("t", 16), ("a", 8), ("tg", 4), ("g", 16), ("vw", 16), ("oq", 4)]

/-- A name is that of a register: one of the prefixes, then a number below its count. -/
def isRegister (name : String) : Bool :=
  registerKinds.any (fun k => (List.range k.2).any (fun n => name == k.1 ++ toString n))

/-- An identifier: a letter or _, then letters, digits, _ and dots; no register name and no mnemonic, and ferdas ignores case. -/
def identOk (name : String) : Bool :=
  match name.toList with
  | [] => false
  | c :: cs => (c.isAlpha || c == '_') && cs.all (fun x => x.isAlphanum || x == '_' || x == '.')
      && !mnemonicNames.contains name.toLower && !isRegister name.toLower

/-! ## Keys of engine commands (R206, R207) -/

/-- The line LQ, MQ, VQ, SQ (R104). -/
inductive LineQ | lq | mq | vq | sq
deriving DecidableEq, Repr, Inhabited

def LineQ.pos : LineQ → Nat
  | .lq => 0
  | .mq => 1
  | .vq => 2
  | .sq => 3

/-- The due tick a line names: none, at=+n, at=n, stamp=sN. -/
inductive DueKey
  | free | idle (n : BitVec 32) | stamp (t : Word) | reg (r : Reg)
deriving DecidableEq, Repr, Inhabited

/-- A queue is named toward this side of an engine: pop or push keys name neighbours only. -/
def leftOf (e : LineQ) (l : List LineQ) : Bool := l.any (fun q => q.pos + 1 == e.pos)
def rightOf (e : LineQ) (l : List LineQ) : Bool := l.any (fun q => q.pos == e.pos + 1)
def neighboursOnly (e : LineQ) (l : List LineQ) : Bool := l.all (fun q => q.pos + 1 == e.pos || q.pos == e.pos + 1)

def flagBit (b : Bool) : BitVec 1 := if b then 1 else 0

/-- The timing and token fields of Table 10.9; e is absent for copy-engine, exchange and synchronisation-engine commands. -/
def asmTiming (e : Option LineQ) (due : DueKey) (pops pushes : List LineQ) : Option Timing :=
  let time : Timing := match due with
    | .free => { (default : Timing) with tmode := 0 }
    | .idle n => { (default : Timing) with tmode := 1, lo := n }
    | .stamp t => { (default : Timing) with tmode := 2, lo := t.extractLsb' 0 32, hi := t.extractLsb' 32 32 }
    | .reg r => { (default : Timing) with tmode := 3, stampReg := r }
  match e with
  | none => if pops.isEmpty && pushes.isEmpty then some time else none
  | some e =>
    if neighboursOnly e pops && neighboursOnly e pushes then
      some { time with
        popLeft := flagBit (leftOf e pops), popRight := flagBit (rightOf e pops)
        pushLeft := flagBit (leftOf e pushes), pushRight := flagBit (rightOf e pushes) }
    else none

/-- Whether a command's word 0 is that of an engine command with tmode 0b00. -/
def freeCommand (w0 : IWord) : Bool := w0.extractLsb' 0 2 == 3 && w0.extractLsb' 15 2 == 0

/-- ferdas tracks SEG in text order: no free command after a timed SEG before the next SEG (R207). -/
def segmentsOk : Bool → List Instr → Bool
  | _, [] => true
  | timed, i :: r =>
    match i with
    | .segTimed => segmentsOk true r
    | .segFree => segmentsOk false r
    | _ => !(timed && freeCommand ((encode i).headD 0)) && segmentsOk timed r

/-! ## Constant expressions (Table 10.12) -/

/-- Operators, tightest level last: shifts, sums, products. -/
inductive ConstOp | shl | shr | add | sub | mul
deriving DecidableEq, Repr, Inhabited

def ConstOp.level : ConstOp → Nat
  | .shl | .shr => 0
  | .add | .sub => 1
  | .mul => 2

/-- Words of an expression; minus is ConstTok.op .sub in both uses. -/
inductive ConstTok
  | num (v : Int) | label (name : String) | op (o : ConstOp) | opening | closing
deriving DecidableEq, Repr, Inhabited

inductive ConstExpr
  | num (v : Int) | label (name : String) | neg (e : ConstExpr) | bin (o : ConstOp) (l r : ConstExpr)
deriving DecidableEq, Repr, Inhabited

/-- Reads an expression of at least a level: levels 0 to 2 are the operators', left to right, level 3 a unary minus, a name, a
number or parentheses. acc is what has been read on the left. -/
def readConst : Nat → Nat → Option ConstExpr → List ConstTok → Option (ConstExpr × List ConstTok)
  | 0, _, _, _ => none
  | fuel + 1, 3, _, ts =>
    match ts with
    | .num v :: r => some (.num v, r)
    | .label n :: r => some (.label n, r)
    | .op .sub :: r => (readConst fuel 3 none r).map (fun e => (.neg e.1, e.2))
    | .opening :: r =>
      match readConst fuel 0 none r with
      | some (e, .closing :: r) => some (e, r)
      | _ => none
    | _ => none
  | fuel + 1, lvl, none, ts =>
    match readConst fuel (lvl + 1) none ts with
    | some (e, r) => readConst fuel lvl (some e) r
    | none => none
  | fuel + 1, lvl, some l, ts =>
    match ts with
    | .op o :: r =>
      if o.level = lvl then
        match readConst fuel (lvl + 1) none r with
        | some (e, r) => readConst fuel lvl (some (.bin o l e)) r
        | none => none
      else some (l, ts)
    | _ => some (l, ts)

/-- A step's value in 64-bit two's complement; overflow is an assembly error. -/
def inRange64 (v : Int) : Option Int := if -(2 ^ 63 : Int) ≤ v ∧ v < (2 ^ 63 : Int) then some v else none

/-- The value of an expression. A number above 2^63 − 1 stands for its bit pattern, and >> shifts the pattern (log entry 83). -/
def constValue (labels : List (String × Nat)) : ConstExpr → Option Int
  | .num v => if v < (2 ^ 64 : Int) then inRange64 (if (2 ^ 63 : Int) ≤ v then v - (2 ^ 64 : Int) else v) else none
  | .label n => (labels.find? (fun e => e.1 == n)).map (fun e => (e.2 : Int))
  | .neg e => (constValue labels e).bind (fun v => inRange64 (-v))
  | .bin o l r =>
    match constValue labels l, constValue labels r with
    | some x, some y =>
      match o with
      | .add => inRange64 (x + y)
      | .sub => inRange64 (x - y)
      | .mul => inRange64 (x * y)
      | .shl => if 0 ≤ y ∧ y < 64 then inRange64 (x * 2 ^ y.toNat) else none
      | .shr => if 0 ≤ y ∧ y < 64 then inRange64 (((BitVec.ofInt 64 x) >>> y.toNat).toInt) else none
    | _, _ => none

/-- The value of the words of an expression. -/
def constOf (labels : List (String × Nat)) (ts : List ConstTok) : Option Int :=
  match readConst (4 * ts.length + 8) 0 none ts with
  | some (e, []) => constValue labels e
  | _ => none

/-! ## Sections (R211, R213 to R216) -/

/-- Data directives (Table 10.14). -/
inductive DataDir | byte | half | word | dword | bf16 | f32
deriving DecidableEq, Repr, Inhabited

def DataDir.width : DataDir → Nat
  | .byte => 1
  | .half => 2
  | .word => 4
  | .dword => 8
  | .bf16 => 2
  | .f32 => 4

/-- A value of a data directive: an integer, a label, a decimal literal ±n × 10^e, inf, nan, or a bit pattern. -/
inductive DataVal
  | int (v : Int) | label (name : String) | dec (neg : Bool) (n : Nat) (e : Int) | inf (neg : Bool) | nan | bits (b : Nat)
deriving DecidableEq, Repr, Inhabited

/-- A `.view` line: kind 1 vec, 2 tile, 3 acc. -/
structure ViewLine where
  n : Nat
  kind : Nat
  first : Nat := 0
  count : Nat := 1
  base : Nat := 0
  stride : Nat := 0
  rows : Nat := 1
  pitch : Nat := 0
  type : Nat := 0
deriving DecidableEq, Repr, Inhabited

/-- A `.stream` line; of a base given as a .data label, inData is set and base is
the label's offset. -/
structure StreamLine where
  n : Nat
  inData : Bool := false
  base : Nat := 0
  type : Nat := 0
  length : Nat := 0
  ext1 : Nat := 1
  ext2 : Nat := 1
  stride1 : Int := 0
  stride2 : Int := 0
  sstride : Nat := 0
  xv : Option Nat := none
  split : Nat := 0
  stage : Nat := 0
  bytes : Nat := 0
deriving DecidableEq, Repr, Inhabited

/-- A `.buffer` line: offsets in the .data layout. -/
structure BufferLine where
  base : Nat
  length : Nat
  word : Nat
deriving DecidableEq, Repr, Inhabited

/-- A kernel directive (Table 10.15). A stream's base or stage may name a label. -/
inductive Directive
  | wid (w : List Nat) | team (t p : Nat) | budget (n : Nat) | lease (spad slots priv : Nat) (grant : Option Nat) | usemask (m : Nat)
  | view (v : ViewLine) | stream (g : StreamLine) (base stage : Option String) | bucket (cap cost : Nat) (sched : String) (extra : Nat)
  | buffer (name : String) (b : BufferLine)
deriving DecidableEq, Repr, Inhabited

/-- What a line holds besides its label. -/
inductive Stmt
  | ins (ws : List IWord) | data (d : DataDir) (vs : List DataVal) | align (n : Nat) | kernel (name : String) | endk | dir (d : Directive)
  | blank
deriving DecidableEq, Repr, Inhabited

structure Line where
  label : Option String := none
  stmt : Stmt := .blank
  suffixes : List Suffix := []
deriving DecidableEq, Repr, Inhabited

/-- The sections of Table 10.13. -/
inductive Sect | code | data | mezz
deriving DecidableEq, Repr, Inhabited

/-- What labels stand for: offsets in .code and .data, addresses of the global window for .mezz, which the loader fills in (R215). -/
abbrev Labels := List (String × Sect × Nat)

/-- Labels a constant expression may name: a .mezz label stands in .dword, base and stage only (R215). -/
def plainLabels (ls : Labels) : List (String × Nat) := (ls.filter (fun e => e.2.1 != .mezz)).map (fun e => (e.1, e.2.2))

def findLabel (ls : Labels) (n : String) : Option (Sect × Nat) := (ls.find? (fun e => e.1 == n)).map Prod.snd

/-- The integers a directive accepts (Table 10.14). -/
def DataDir.accepts (d : DataDir) (v : Int) : Bool :=
  match d with
  | .byte => decide (-128 ≤ v) && decide (v ≤ 255)
  | .half => decide (-32768 ≤ v) && decide (v ≤ 65535)
  | .word => decide (-(2 ^ 31 : Int) ≤ v) && decide (v < (2 ^ 32 : Int))
  | .dword => decide (-(2 ^ 63 : Int) ≤ v) && decide (v < (2 ^ 64 : Int))
  | _ => false

/-- The bits of a value, or none where the directive does not accept it: ferdas never truncates (R212). -/
def dataBits (labels : Labels) (d : DataDir) (v : DataVal) : Option Nat :=
  let float := match d with
    | .bf16 => some 0xB
    | .f32 => some 0x9
    | _ => none
  match v, float with
  | .int v, none => if d.accepts v then some (v % (2 ^ (8 * d.width) : Nat)).toNat else none
  | .label l, none => if d = .dword then (findLabel labels l).map Prod.snd else none
  | .dec neg n e, some t =>
    if 0 ≤ e then some (roundRat t .rne neg (n * 10 ^ e.toNat) 1 0).1 else some (roundRat t .rne neg n (10 ^ (-e).toNat) 0).1
  | .inf neg, some t => some (infBits t neg)
  | .nan, some t => some (fmtOf t).nan
  | .bits b, some _ => if b < 2 ^ (8 * d.width) then some b else none
  | _, _ => none

/-- Padding before a statement that asks for an alignment. In .code: zero bytes up to a multiple of 4, then NOP words (R213); elsewhere
zero bytes. -/
def padding (code : Bool) (off n : Nat) : List Byte :=
  let gap := (n - off % n) % n
  if n = 1 then []
  else if code then
    let z := (4 - off % 4) % 4
    List.replicate z 0 ++ (List.replicate ((gap - z) / 4) ([0xFD, 0, 0, 0] : List Byte)).flatten
  else List.replicate gap 0

/-- The alignment a statement asks for (R198, R213). -/
def alignmentOf (st : Stmt) : Nat :=
  match st with
  | .ins ws => alignOf (ws.headD 0)
  | .align n => n
  | _ => 1

/-- An operand of .align: a power of two from 1 to 65,536, and at least 4 in .code; instructions and kernel
blocks stand in .code only. -/
def stmtOk (code : Bool) (st : Stmt) : Bool :=
  match st with
  | .align n => (List.range 17).any (fun k => n == 2 ^ k) && (!code || decide (4 ≤ n))
  | .ins _ | .kernel _ | .endk | .dir _ => code
  | _ => true

def sizeOfStmt (st : Stmt) : Nat :=
  match st with
  | .ins ws => 4 * ws.length
  | .data d vs => d.width * vs.length
  | _ => 0

/-- The names a `.buffer` line defines (Table 10.15). -/
def bufferNames (st : Stmt) : Labels :=
  match st with
  | .dir (.buffer n b) => [(n, .data, b.base), (n ++ "_word", .data, b.word)]
  | _ => []

/-- The labels of a section that stands at a base, from an offset on: each takes the offset after its line's padding (R211, R213, R215). -/
def labelsFrom (sec : Sect) (base : Nat) : Nat → List Line → Labels
  | _, [] => []
  | off, l :: r =>
    let off := off + (padding (sec == .code) off (alignmentOf l.stmt)).length
    (match l.label with | some n => [(n, sec, base + off)] | none => []) ++ bufferNames l.stmt
      ++ labelsFrom sec base (off + sizeOfStmt l.stmt) r

/-- The bytes of a statement, little-endian (R198, R216). -/
def stmtBytes (labels : Labels) (st : Stmt) : Option (List Byte) :=
  match st with
  | .ins ws => some (bytesOfWords ws)
  | .data d vs => (vs.mapM (fun v => (dataBits labels d v).map (bytesOfNat d.width))).map List.flatten
  | _ => some []

/-- The bytes of a section from an offset on, or none where a line is an assembly error. -/
def imageFrom (code : Bool) (labels : Labels) : Nat → List Line → Option (List Byte)
  | _, [] => some []
  | off, l :: r =>
    if !stmtOk code l.stmt then none
    else
      let pad := padding code off (alignmentOf l.stmt)
      match stmtBytes labels l.stmt, imageFrom code labels (off + pad.length + sizeOfStmt l.stmt) r with
      | some b, some t => some (pad ++ b ++ t)
      | _, _ => none

/-! ## The derived use mask (R220) -/

/-- The bits an instruction adds (Table 10.16); a nest adds those of its operation's type. -/
def maskBits (i : Instr) : List Nat :=
  match i with
  | .lnest _ f => vBits f.major.toNat f.func.toNat (f.vform f.ty)
  | i => declared default i

/-- The OR of the bits of instructions. -/
def derivedMask (l : List Instr) : BitVec 24 := l.foldl (fun m i => (maskBits i).foldl (fun m b => m ||| BitVec.ofNat 24 (2 ^ b)) m) 0

/-! ## Kernels (R217 to R219) -/

/-- A `.kernel` block; the sched of a bucket is its label's offset in .code. -/
structure Kernel where
  entry : Nat := 0
  wid : List Nat := []
  team : Nat := 6
  place : Nat := 6
  budget : Nat := 0
  spad : Nat := 0
  slots : Nat := 0
  priv : Nat := 1
  grant : Option Nat := none
  usemask : Option Nat := none
  views : List ViewLine := []
  streams : List StreamLine := []
  buckets : List Bucket := []
  buffers : List BufferLine := []
deriving DecidableEq, Repr, Inhabited

/-- The image of Table 5.2. -/
def viewLineImage (v : ViewLine) : Nat :=
  v.kind * 2 ^ 124 + v.first * 2 ^ 118 + v.count * 2 ^ 111 + (v.rows - 1) * 2 ^ 103 + v.pitch * 2 ^ 84 + v.stride * 2 ^ 64
    + v.type * 2 ^ 19 + v.base

/-- The 48-byte image of Table 5.3. A .data label is a scratchpad-window address with core field 0 (R219). -/
def streamLineImage (g : StreamLine) : Nat :=
  let signed32 := fun (i : Int) => (i % (2 ^ 32 : Nat)).toNat
  g.sstride * 2 ^ 224 + signed32 g.stride2 * 2 ^ 192 + signed32 g.stride1 * 2 ^ 160 + g.ext2 * 2 ^ 144 + g.ext1 * 2 ^ 128
    + g.length * 2 ^ 96 + g.xv.getD 0 * 2 ^ 80 + (if g.xv.isSome then 2 ^ 76 else 0) + g.split * 2 ^ 72 + g.type * 2 ^ 64
    + (if g.inData then 0xD * 2 ^ 60 else 0) + g.base

/-- The view lines a kernel ends up with: vw0 is the vector view where none is given (R219). -/
def kernelViews (k : Kernel) : List ViewLine :=
  if k.views.any (fun v => v.n == 0) then k.views
  else { n := 0, kind := 1, count := 64, base := 0x400, stride := 256 } :: k.views

def validBits (l : List Nat) : Nat := ((List.range 16).filter l.contains).foldl (fun m b => m + 2 ^ b) 0

/-- The initialiser block of 1,280 bytes (R51, Table 10.15). -/
def initBlock (k : Kernel) : List Byte :=
  let vs := kernelViews k
  (List.range 16).flatMap (fun i => match vs.find? (fun v => v.n == i) with
      | some v => bytesOfNat 16 (viewLineImage v)
      | none => List.replicate 16 0)
    ++ (List.range 16).flatMap (fun i => match k.streams.find? (fun g => g.n == i) with
      | some g => bytesOfNat 48 (streamLineImage g) ++ bytesOfNat 8 g.stage ++ bytesOfNat 4 g.bytes ++ List.replicate 4 0
      | none => List.replicate 64 0)

/-- The launch-record template of 256 bytes; mask is the derived use mask. What the driver writes stands zero (R217). -/
def template (k : Kernel) (mask : BitVec 24) : List Byte :=
  List.replicate 8 0 ++ bytesOfNat 4 k.entry ++ [0, 0, BitVec.ofNat 8 k.team, BitVec.ofNat 8 k.place]
    ++ (List.range 6).map (fun i => BitVec.ofNat 8 (nth k.wid i)) ++ List.replicate 18 0
    ++ bytesOfNat 8 (k.usemask.getD mask.toNat) ++ bytesOfNat 8 k.budget ++ List.replicate 8 0
    ++ bytesOfNat 2 (validBits ((kernelViews k).map (fun v => v.n))) ++ bytesOfNat 2 (validBits (k.streams.map (fun g => g.n)))
    ++ bytesOfNat 2 k.spad ++ [BitVec.ofNat 8 k.slots, 0] ++ bytesOfNat 4 k.priv ++ List.replicate 4 0
    ++ bytesOfNat 8 (k.grant.getD k.budget) ++ [BitVec.ofNat 8 k.buckets.length] ++ List.replicate 39 0
    ++ (List.range 8).flatMap (fun i => match k.buckets[i]? with
      | some b => bytesOfNat 2 b.cap ++ bytesOfNat 2 b.cost ++ bytesOfNat 3 ((b.sched - k.entry) / 4) ++ bytesOfNat 1 b.extra
      | none => List.replicate 8 0)
    ++ List.replicate 64 0

/-- What a buffer takes of the .data layout: its bytes and its word. -/
def BufferLine.parts (b : BufferLine) : List (Nat × Nat) := [(b.base, b.length), (b.word, 16)]

/-- Buffers lie inside the .data layout, aligned, and overlap no other (Table 10.15). -/
def buffersOk (k : Kernel) : Bool :=
  k.buffers.all (fun b => b.base % 32 == 0 && b.length % 32 == 0 && b.word % 16 == 0 && decide (b.base + b.length ≤ k.spad * 4096)
      && decide (b.word + 16 ≤ k.spad * 4096))
    && (List.range k.buffers.length).all (fun i => (List.range i).all (fun j =>
      match k.buffers[i]?, k.buffers[j]? with
      | some a, some b => a.parts.all (fun x => b.parts.all (fun y => decide (x.1 + x.2 ≤ y.1) || decide (y.1 + y.2 ≤ x.1)))
      | _, _ => true))

/-- The operands of a `.view` line fit their fields (Table 5.2, R212, R218). -/
def ViewLine.fits (v : ViewLine) : Bool :=
  decide (v.n < 16) && decide (1 ≤ v.kind) && decide (v.kind ≤ 3) && decide (v.first < 64) && decide (v.count < 128) && decide (v.base < 2 ^ 19)
    && decide (v.stride < 2 ^ 20) && decide (1 ≤ v.rows) && decide (v.rows ≤ 128) && decide (v.pitch < 4096) && decide (v.type < 64)

/-- The operands of a `.stream` line fit their fields (Table 5.3, R212, R218). -/
def StreamLine.fits (g : StreamLine) : Bool :=
  let signed := fun (i : Int) => decide (-(2 ^ 31 : Int) ≤ i) && decide (i < (2 ^ 31 : Int))
  decide (g.n < 16) && decide (g.base < 2 ^ 64) && decide (g.type < 64) && decide (g.length < 2 ^ 32) && decide (g.ext1 < 65536)
    && decide (g.ext2 < 65536) && signed g.stride1 && signed g.stride2 && decide (g.sstride < 2 ^ 32) && decide (g.xv.getD 0 < 65536)
    && decide (g.split < 16) && decide (g.stage < 2 ^ 64) && decide (g.bytes < 2 ^ 32)

/-- The checks of ferdas on a kernel whose .data image has this many bytes (R214, R218, Table 10.15). -/
def kernelOk (k : Kernel) (dataBytes : Nat) : Bool :=
  let r := recordOf (template k 0)
  k.entry % 4 == 0 && k.wid.length == 6 && k.wid.all (· ≤ 64) && decide (k.wid.foldl (· + ·) 0 ≤ 64)
    && decide (k.team ≤ k.place) && decide (k.place ≤ 6) && decide (widthFrom r k.team - widthFrom r k.place ≤ 3)
    && decide (1 ≤ k.budget) && decide (k.budget ≤ 2 ^ 48) && decide (k.spad ≤ 896) && decide (k.slots ≤ 32)
    && decide (1 ≤ k.priv) && decide (k.priv ≤ 32768) && decide (k.budget ≤ k.grant.getD k.budget) && decide (k.grant.getD k.budget < 2 ^ 64)
    && (match k.usemask with | some m => decide (m < 2 ^ 24) | none => true)
    && decide (k.buckets.length ≤ 8)
    && k.buckets.all (fun b => decide (1 ≤ b.cap) && decide (b.cap < 65536) && decide (1 ≤ b.cost) && decide (b.cost < 65536)
      && decide (k.entry < b.sched) && b.sched % 4 == 0 && decide ((b.sched - k.entry) / 4 < 2 ^ 24) && decide (b.extra < 256))
    && (List.range (k.buckets.length - 1)).all (fun i => match k.buckets[i]?, k.buckets[i + 1]? with
      | some a, some b => decide (a.cap < b.cap)
      | _, _ => true)
    && k.views.all ViewLine.fits && k.streams.all StreamLine.fits && decide (k.entry < 2 ^ 32)
    && (match blockImages r (initBlock k) with | .ok _ => true | .error _ => false)
    && buffersOk k && decide (dataBytes ≤ k.spad * 4096)

/-! ## Kernel blocks and programs (R217 to R220) -/

/-- What a directive does to a kernel; a sched label is an offset of .code, a stream's base a .data or .mezz label, its stage a .mezz
one. -/
def Kernel.take (ls : Labels) (k : Kernel) (d : Directive) : Option Kernel :=
  match d with
  | .wid w => some { k with wid := w }
  | .team t p => some { k with team := t, place := p }
  | .budget n => some { k with budget := n }
  | .lease sp sl pr g => some { k with spad := sp, slots := sl, priv := pr, grant := g }
  | .usemask m => some { k with usemask := some m }
  | .view v => some { k with views := k.views ++ [v] }
  | .bucket cap cost sched extra => (match findLabel ls sched with
    | some (.code, off) => some { k with buckets := k.buckets ++ [{ cap := cap, cost := cost, sched := off, extra := extra }] }
    | _ => none)
  | .buffer _ b => some { k with buffers := k.buffers ++ [b] }
  | .stream g base stage => do
    let g ← (match base with
      | none => some g
      | some n => match findLabel ls n with
        | some (.data, off) => some { g with inData := true, base := off }
        | some (.mezz, a) => some { g with base := a }
        | _ => none : Option StreamLine)
    let g ← (match stage with
      | none => some g
      | some n => match findLabel ls n with
        | some (.mezz, a) => some { g with stage := a }
        | _ => none : Option StreamLine)
    some { k with streams := k.streams ++ [g] }

/-- A kernel block as it is read: whether its first instruction has stood, and its instructions. -/
structure Block where
  name : String
  kernel : Kernel := {}
  begun : Bool := false
  body : List Instr := []
deriving DecidableEq, Repr, Inhabited

/-- What has been read of .code: the offset, the open block, the blocks that ended, the instructions outside every block. -/
structure Reading where
  off : Nat := 0
  block : Option Block := none
  blocks : List Block := []
  outside : List Instr := []
deriving DecidableEq, Repr, Inhabited

/-- Reads a line (R217): a nested `.kernel`, an `.endk` or directive outside a block, a directive after the block's first instruction,
and a block with no instruction are assembly errors. -/
def Reading.line (ls : Labels) (x : Reading) (l : Line) : Option Reading :=
  let at_ := x.off + (padding true x.off (alignmentOf l.stmt)).length
  let y := { x with off := at_ + sizeOfStmt l.stmt }
  match l.stmt, x.block with
  | .kernel n, none => some { y with block := some { name := n } }
  | .kernel _, some _ => none
  | .endk, some b => if b.begun then some { y with block := none, blocks := x.blocks ++ [b] } else none
  | .endk, none => none
  | .dir d, some b => if b.begun then none else (b.kernel.take ls d).map (fun k => { y with block := some { b with kernel := k } })
  | .dir _, none => none
  | .ins ws, some b => some { y with block := some { b with
      kernel := if b.begun then b.kernel else { b.kernel with entry := at_ }, begun := true, body := b.body ++ instrOf ws } }
  | .ins ws, none => some { y with outside := x.outside ++ instrOf ws }
  | _, _ => some y

/-- Reads the lines of .code; a block left open is an error. -/
def readCode (ls : Labels) (code : List Line) : Option Reading :=
  match code.foldlM (fun x l => x.line ls l) ({} : Reading) with
  | some x => if x.block.isNone then some x else none
  | none => none

/-- The lines of a program, by section. -/
structure Source where
  code : List Line := []
  data : List Line := []
  mezz : List Line := []
deriving DecidableEq, Repr, Inhabited

/-- A program's labels, with .mezz loaded at a global address. -/
def Source.labels (p : Source) (mezzAt : Nat) : Labels :=
  labelsFrom .code 0 0 p.code ++ labelsFrom .data 0 0 p.data ++ labelsFrom .mezz mezzAt 0 p.mezz

/-- What ferdas emits: the images of the sections, and for each kernel its template and block. -/
structure Program where
  code : List Byte
  data : List Byte
  mezz : List Byte
  kernels : List (String × List Byte × List Byte)
deriving DecidableEq, Repr, Inhabited

/-- The names a line defines are identifiers, and its suffixes are ones its instruction takes, none of them repeated (R211, R212). -/
def Line.ok (l : Line) : Bool :=
  let named := l.label.toList ++ (match l.stmt with | .kernel n => [n] | .dir (.buffer n _) => [n, n ++ "_word"] | _ => [])
  named.all identOk && (match l.stmt with
    | .ins ws => (match instrOf ws with | [i] => suffixesOk (suffixesOf i) l.suffixes | _ => false)
    | _ => l.suffixes.isEmpty)

/-- Assembles a program, or refuses it: every line is well-formed; the mask of a kernel comes from its block and from all code outside blocks (R220); SEG is
tracked in text order (R207). -/
def assemble (p : Source) (mezzAt : Nat) : Option Program := do
  let ls := p.labels mezzAt
  let code ← imageFrom true ls 0 p.code
  let data ← imageFrom false ls 0 p.data
  let mezz ← imageFrom false ls 0 p.mezz
  let x ← readCode ls p.code
  if (p.code ++ p.data ++ p.mezz).all Line.ok && x.blocks.all (fun b => kernelOk b.kernel data.length)
      && segmentsOk false (p.code.flatMap (fun l => match l.stmt with | .ins ws => instrOf ws | _ => [])) then
    some ⟨code, data, mezz, x.blocks.map (fun b => (b.name, template b.kernel (derivedMask (b.body ++ x.outside)), initBlock b.kernel))⟩
  else none

end Sys2Proof.Machine
end

