-- ==== Sys2Proof/Tests/Slice0.lean ====
section
/-!
SUPPORT. Tests: words of the spec's encoding tables decode to what they stand for, ill-formed terms are refused, single steps
give the spec's values, and every statement's hypotheses are met by a state written out here.
-/
set_option linter.unusedVariables false
set_option Elab.async false
namespace Sys2Proof.Tests
open Sys2Proof Sys2Proof.Machine Sys2Proof.Stated


/-- Words of the integer majors (Table 12.2 and 12.1), from their fields in the spec's encoding tables. -/
theorem test_decode_integer_0 : [
    [0x718504],
    [0x4718504],
    [0x8718504],
    [0xC718504],
    [0x10718504],
    [0x14718504],
    [0x18718504],
    [0x1C718504],
    [0x20718504],
    [0x24718504],
    [0x28718504],
    [0x2C718504],
    [0x30718504],
    [0x34718504],
    [0x38718504],
    [0x3C718504],
    [0x40718504],
    [0x44718504],
    [0x718508],
    [0x4718508]].map decode =
  [.add 5 6 7,
    .sub 5 6 7,
    .and 5 6 7,
    .or 5 6 7,
    .xor 5 6 7,
    .andn 5 6 7,
    .sll 5 6 7,
    .srl 5 6 7,
    .sra 5 6 7,
    .rol 5 6 7,
    .ror 5 6 7,
    .slt 5 6 7,
    .sltu 5 6 7,
    .seq 5 6 7,
    .min 5 6 7,
    .max 5 6 7,
    .minu 5 6 7,
    .maxu 5 6 7,
    .mul 5 6 7,
    .mulh 5 6 7].map Except.ok := rfl
/-- Words of the integer majors (Table 12.2 and 12.1), from their fields in the spec's encoding tables. -/
theorem test_decode_integer_1 : [
    [0x8718508],
    [0xC718508],
    [0x10718508],
    [0x14718508],
    [0x18718508],
    [0x48018504],
    [0x4C018504],
    [0x50018504],
    [0x18518],
    [0x2071850C],
    [0x20718510],
    [0xC718514],
    [0x831851C]].map decode =
  [.mulhu 5 6 7,
    .div 5 6 7,
    .divu 5 6 7,
    .rem 5 6 7,
    .remu 5 6 7,
    .clz 5 6,
    .ctz 5 6,
    .popc 5 6,
    .sptest 5 6,
    .fshl 5 6 7 8,
    .fshr 5 6 7 8,
    .lea 5 6 7 3,
    .spcast .spad 5 6 3].map Except.ok := rfl
/-- Words of control, from their fields in the spec's encoding tables. -/
theorem test_decode_control_0 : [
    [0x20],
    [0x8000020],
    [0xC000020],
    [0x24],
    [0x4000024],
    [0x8000024],
    [0xC000024],
    [0x28],
    [0x4000028],
    [0x4018020],
    [0x10000520],
    [0x14018520],
    [0x8018028],
    [0xC018028],
    [0x10018028],
    [0xFFD24181],
    [0xFF800085],
    [0xFF800089],
    [0xFF80008D],
    [0x7FF000A1]].map decode =
  [.halt,
    .segFree,
    .segTimed,
    .tret,
    .ifence,
    .codesync,
    .bkpt,
    .rgclose,
    .rgabort,
    .waitt 6,
    .gsync 5,
    .jr 5 6,
    .rgopenContain 6,
    .rgopenIdem 6,
    .rgopenBoth 6,
    .br .nz 9 0xFFD,
    .j 0xFF8,
    .jl 0xFF8,
    .loopr 0xFF8,
    .trap 0x7FF].map Except.ok := rfl
/-- Words of control, from their fields in the spec's encoding tables. -/
theorem test_decode_control_1 : [
    [0xE005A5],
    [0x24240A9],
    [0x100000AD],
    [0xABCDEFFD]].map decode =
  [.mvs 5 .lcore,
    .msv .tvec 9,
    .defer 256,
    .nop 0xABCDEF].map Except.ok := rfl
/-- Words of synchronisation, buffers and setup, from their fields in the spec's encoding tables. -/
theorem test_decode_sync_setup_0 : [
    [0x1000002C],
    [0x40318530],
    [0x64318530],
    [0x8018030],
    [0x2C018030],
    [0x50718030],
    [0x718034],
    [0x4018034],
    [0x8018034],
    [0xC018034],
    [0x10018534],
    [0x24018040],
    [0x64018040]].map decode =
  [.land .system,
    .swait .die 3 5 6,
    .waitb .domain 3 5 6,
    .arrive .core 6,
    .arrdrop .gallery 6,
    .binit .die 6 7,
    .bdecl 6 7,
    .bacqFill 6,
    .bacqDrain 6,
    .brel 6,
    .bstat 5 6,
    .viewset 9 6,
    .gset 9 6].map Except.ok := rfl
/-- Words of rent, from their fields in the spec's encoding tables. -/
theorem test_decode_rent_0 : [
    [0x90718538],
    [0x14718538],
    [0x18718538],
    [0x1C718538],
    [0xA0018538],
    [0xA4018538],
    [0xA8018538]].map decode =
  [.rent true .t4 5 6 7,
    .renew false 5 6 7,
    .prepay false 5 6 7,
    .sublet false 5 6 7,
    .unsublet true 5 6,
    .release true 5 6,
    .rquery true 5 6].map Except.ok := rfl
/-- Words of immediates and plain accesses, from their fields in the spec's encoding tables. -/
theorem test_decode_immediate_0 : [
    [0xFF518505],
    [0xFF518509],
    [0xFF51850D],
    [0xFF518511],
    [0xFF518521],
    [0xFF518525],
    [0x2B18515],
    [0x2B18519],
    [0x2B1851D],
    [0x2C818529],
    [0x2C81852D],
    [0x2C818531],
    [0xFF028541],
    [0xFF028545],
    [0xFF028549],
    [0xFF02854D],
    [0xFF028551],
    [0xFF028555],
    [0xFF028559],
    [0xFF028561]].map decode =
  [.addi 5 6 0xFF5,
    .andi 5 6 0xFF5,
    .ori 5 6 0xFF5,
    .xori 5 6 0xFF5,
    .slti 5 6 0xFF5,
    .sltiu 5 6 0xFF5,
    .slli 5 6 43,
    .srli 5 6 43,
    .srai 5 6 43,
    .bfx 5 6 8 11,
    .bfxs 5 6 8 11,
    .bfi 5 6 8 11,
    .ldN32 5 10 0xFF0,
    .ldI32 5 10 0xFF0,
    .ldN64 5 10 0xFF0,
    .ldN16 5 10 0xFF0,
    .ldI16 5 10 0xFF0,
    .ldN8 5 10 0xFF0,
    .ldI8 5 10 0xFF0,
    .stN8 5 10 0xFF0].map Except.ok := rfl
/-- Words of immediates and plain accesses, from their fields in the spec's encoding tables. -/
theorem test_decode_immediate_1 : [
    [0xFF028565],
    [0xFF028569],
    [0xFF02856D],
    [0x10028071],
    [0x7FE0C575],
    [0x7FE0C579]].map decode =
  [.stN16 5 10 0xFF0,
    .stN32 5 10 0xFF0,
    .stN64 5 10 0xFF0,
    .pref 10 0x100,
    .ldg 5 3 0x7FE,
    .stg 5 3 0x7FE].map Except.ok := rfl
/-- Words of long twins (R229), from their fields in the spec's encoding tables. -/
theorem test_decode_twins_0 : [
    [0x118582, 0x12345],
    [0x218582, 0x12345],
    [0x318582, 0x12345],
    [0x418582, 0x12345],
    [0x518582, 0x2B],
    [0x618582, 0x2B],
    [0x718582, 0x2B],
    [0x818582, 0x12345],
    [0x918582, 0x12345],
    [0xA18582, 0x2C8],
    [0xB18582, 0x2C8],
    [0xC18582, 0x2C8],
    [0x1018582, 0x12345],
    [0x1118582, 0x12345],
    [0x1218582, 0x12345],
    [0x1318582, 0x12345],
    [0x1418582, 0x12345],
    [0x1518582, 0x12345],
    [0x1618582, 0x12345],
    [0x1818582, 0x12345]].map decode =
  [.longTwin .addi 5 6 0x12345,
    .longTwin .andi 5 6 0x12345,
    .longTwin .ori 5 6 0x12345,
    .longTwin .xori 5 6 0x12345,
    .longTwin .slli 5 6 0x2B,
    .longTwin .srli 5 6 0x2B,
    .longTwin .srai 5 6 0x2B,
    .longTwin .slti 5 6 0x12345,
    .longTwin .sltiu 5 6 0x12345,
    .longTwin .bfx 5 6 0x2C8,
    .longTwin .bfxs 5 6 0x2C8,
    .longTwin .bfi 5 6 0x2C8,
    .longTwin .ldN32 5 6 0x12345,
    .longTwin .ldI32 5 6 0x12345,
    .longTwin .ldN64 5 6 0x12345,
    .longTwin .ldN16 5 6 0x12345,
    .longTwin .ldI16 5 6 0x12345,
    .longTwin .ldN8 5 6 0x12345,
    .longTwin .ldI8 5 6 0x12345,
    .longTwin .stN8 5 6 0x12345].map Except.ok := rfl
/-- Words of long twins (R229), from their fields in the spec's encoding tables. -/
theorem test_decode_twins_1 : [
    [0x1918582, 0x12345],
    [0x1A18582, 0x12345],
    [0x1B18582, 0x12345],
    [0x1C18082, 0x12345],
    [0x1D18582, 0x7FE],
    [0x1E18582, 0x7FE],
    [0x2018582, 0x12345],
    [0x2100082, 0x12345],
    [0x2200082, 0x12345],
    [0x2300082, 0x12345],
    [0x2800082, 0x7FF],
    [0x2900582, 0xE],
    [0x2A18082, 0x24],
    [0x2B00082, 0x100]].map decode =
  [.longTwin .stN16 5 6 0x12345,
    .longTwin .stN32 5 6 0x12345,
    .longTwin .stN64 5 6 0x12345,
    .longTwin .pref 0 6 0x12345,
    .longTwin .ldg 5 6 0x7FE,
    .longTwin .stg 5 6 0x7FE,
    .longTwin .br 5 6 0x12345,
    .longTwin .j 0 0 0x12345,
    .longTwin .jl 0 0 0x12345,
    .longTwin .loopr 0 0 0x12345,
    .longTwin .trap 0 0 0x7FF,
    .longTwin .mvs 5 0 0xE,
    .longTwin .msv 0 6 0x24,
    .longTwin .defer 0 0 0x100].map Except.ok := rfl
/-- Words of ordered memory (Table 11.5), from their fields in the spec's encoding tables. -/
theorem test_decode_ordered_0 : [
    [0x30586, 0xFFFFFFF0],
    [0x1130586, 0xFFFFFFF0],
    [0x2230586, 0xFFFFFFF0],
    [0x3330586, 0xFFFFFFF0],
    [0x4430586, 0xFFFFFFF0],
    [0x530586, 0xFFFFFFF0],
    [0x1630586, 0xFFFFFFF0],
    [0x2730586, 0xFFFFFFF0],
    [0xA630486, 0x10],
    [0x10230586, 0x9],
    [0x19330586, 0x9],
    [0x22630586, 0x9],
    [0x2B730586, 0x9],
    [0x34230586, 0x9],
    [0x38330586, 0x9],
    [0x41630586, 0x9],
    [0x4A730586, 0x1C9]].map decode =
  [.lda .i8 .core 5 12 0xFFFFFFF0,
    .lda .i16 .gallery 5 12 0xFFFFFFF0,
    .lda .i32 .die 5 12 0xFFFFFFF0,
    .lda .i64 .domain 5 12 0xFFFFFFF0,
    .lda .n8 .system 5 12 0xFFFFFFF0,
    .lda .n16 .core 5 12 0xFFFFFFF0,
    .lda .n32 .gallery 5 12 0xFFFFFFF0,
    .lda .n64 .die 5 12 0xFFFFFFF0,
    .strel .n32 .die 4 12 16,
    .amoAdd .i32 .core 5 12 9,
    .amoAnd .i64 .gallery 5 12 9,
    .amoOr .n32 .die 5 12 9,
    .amoXor .n64 .domain 5 12 9,
    .amoMin .i32 .system 5 12 9,
    .amoMax .i64 .core 5 12 9,
    .amoSwap .n32 .gallery 5 12 9,
    .amoCas .n64 .die 5 12 9 7].map Except.ok := rfl
/-- Words of form V (Tables 10.5 and 11.4), from their fields in the spec's encoding tables. -/
theorem test_decode_form_v_0 : [
    [0x718506, 0x1000089],
    [0x718506, 0x2040089],
    [0x718506, 0x3080089],
    [0x20718506, 0x42E0089],
    [0x718506, 0x5100089],
    [0x718506, 0x6140089],
    [0x18506, 0x7180089],
    [0x18506, 0x81C0089],
    [0x71850A, 0x1040089],
    [0x71850A, 0x2080089],
    [0x71850A, 0x30C0089],
    [0x1850A, 0x4100089],
    [0x71850A, 0x5140089],
    [0x71850A, 0x6180089],
    [0x71850A, 0x71C0089],
    [0x71850E, 0x1200089],
    [0x71850E, 0x2240089],
    [0x71850E, 0x3280089],
    [0x71850E, 0x42C0089],
    [0x24018512, 0x12D4089]].map decode =
  [.vadd ⟨0, 7, 6, 5, 0, 0, 0, 0, 1, 9⟩,
    .vsub ⟨0, 7, 6, 5, 0, 1, 0, 0, 1, 9⟩,
    .vmul ⟨0, 7, 6, 5, 0, 2, 0, 0, 1, 9⟩,
    .vfma ⟨8, 7, 6, 5, 0, 11, 2, 0, 1, 9⟩,
    .vmin ⟨0, 7, 6, 5, 0, 4, 0, 0, 1, 9⟩,
    .vmax ⟨0, 7, 6, 5, 0, 5, 0, 0, 1, 9⟩,
    .vabs ⟨0, 0, 6, 5, 0, 6, 0, 0, 1, 9⟩,
    .vneg ⟨0, 0, 6, 5, 0, 7, 0, 0, 1, 9⟩,
    .vand ⟨0, 7, 6, 5, 0, 1, 0, 0, 1, 9⟩,
    .vor ⟨0, 7, 6, 5, 0, 2, 0, 0, 1, 9⟩,
    .vxor ⟨0, 7, 6, 5, 0, 3, 0, 0, 1, 9⟩,
    .vnot ⟨0, 0, 6, 5, 0, 4, 0, 0, 1, 9⟩,
    .vshl ⟨0, 7, 6, 5, 0, 5, 0, 0, 1, 9⟩,
    .vshr ⟨0, 7, 6, 5, 0, 6, 0, 0, 1, 9⟩,
    .vsra ⟨0, 7, 6, 5, 0, 7, 0, 0, 1, 9⟩,
    .vceq ⟨0, 7, 6, 5, 0, 8, 0, 0, 1, 9⟩,
    .vcne ⟨0, 7, 6, 5, 0, 9, 0, 0, 1, 9⟩,
    .vclt ⟨0, 7, 6, 5, 0, 10, 0, 0, 1, 9⟩,
    .vcle ⟨0, 7, 6, 5, 0, 11, 0, 0, 1, 9⟩,
    .vcvt ⟨9, 0, 6, 5, 0, 11, 1, 1, 1, 9⟩].map Except.ok := rfl
/-- Words of form V (Tables 10.5 and 11.4), from their fields in the spec's encoding tables. -/
theorem test_decode_form_v_1 : [
    [0x24718512, 0x213C089],
    [0x18516, 0x1240089],
    [0x18516, 0x2250089],
    [0x71851A, 0x1180089],
    [0x2071851A, 0x21C4089],
    [0x1851E, 0x1088089],
    [0x1851E, 0x2244089],
    [0x18522, 0x1300089],
    [0x20018522, 0x2340000],
    [0x718522, 0x3240089],
    [0x20718522, 0x4180000],
    [0x718522, 0x5140089],
    [0x20718526, 0x12C0089],
    [0x20718326, 0x22C0000],
    [0x20718526, 0x22C4089],
    [0x20718526, 0x3270089],
    [0xC52A, 0x41380089],
    [0x1852A, 0x2080089],
    [0x2021852A, 0x83080089],
    [0x71852A, 0x4080000]].map decode =
  [.vqrd ⟨9, 7, 6, 5, 0, 4, 3, 3, 1, 9⟩,
    .vexp2 ⟨0, 0, 6, 5, 0, 9, 0, 0, 1, 9⟩,
    .vrcp ⟨0, 0, 6, 5, 0, 9, 1, 0, 1, 9⟩,
    .vbfx ⟨0, 7, 6, 5, 0, 6, 0, 0, 1, 9⟩,
    .vfsh ⟨8, 7, 6, 5, 0, 7, 0, 1, 1, 9⟩,
    .vred ⟨0, 0, 6, 5, 0, 2, 0, 2, 1, 9⟩,
    .vscan ⟨0, 0, 6, 5, 0, 9, 0, 1, 1, 9⟩,
    .vld ⟨0, 0, 6, 5, 0, 12, 0, 0, 1, 9⟩,
    .vst ⟨8, 0, 6, 5, 0, 13, 0, 0, 0, 0⟩,
    .vgath ⟨0, 7, 6, 5, 0, 9, 0, 0, 1, 9⟩,
    .vscat ⟨8, 7, 6, 5, 0, 6, 0, 0, 0, 0⟩,
    .vlut ⟨0, 7, 6, 5, 0, 5, 0, 0, 1, 9⟩,
    .vthr ⟨8, 7, 6, 5, 0, 11, 0, 0, 1, 9⟩,
    .vtagTags ⟨8, 7, 6, 3, 0, 11, 0, 0, 0, 0⟩,
    .vtagMask ⟨8, 7, 6, 5, 0, 11, 0, 1, 1, 9⟩,
    .vcomb ⟨8, 7, 6, 5, 0, 9, 3, 0, 1, 9⟩,
    .vmov ⟨0, 0, 3, 5, 1, 14, 0, 0, 1, 9⟩,
    .vbcst ⟨0, 0, 6, 5, 0, 2, 0, 0, 1, 9⟩,
    .vsel ⟨8, 2, 6, 5, 2, 2, 0, 0, 1, 9⟩,
    .vgetl ⟨0, 7, 6, 5, 0, 2, 0, 0, 0, 0⟩].map Except.ok := rfl
/-- Words of form P (Table 10.7), from their fields in the spec's encoding tables. -/
theorem test_decode_form_p_0 : [
    [0xFE2F20C2, 0x0],
    [0xFE2F21C2, 0x0],
    [0xFE2F22C2, 0x0],
    [0xFE2F23C2, 0x0],
    [0x2F24C2, 0x0],
    [0x325C2, 0xFFFF0000],
    [0x326C2, 0xFFFF0000],
    [0x19000C6, 0x5],
    [0x321C6, 0x5]].map decode =
  [.pand 100 11 127,
    .por 100 11 127,
    .pxor 100 11 127,
    .pandn 100 11 127,
    .pnot 100 11,
    .psetl 100 0xFFFF0000,
    .pseth 100 0xFFFF0000,
    .pget 5 100,
    .pput 100 5].map Except.ok := rfl
/-- Words of engine commands (Tables 10.8 and 11.6), from their fields in the spec's encoding tables. -/
theorem test_decode_engine_0 : [
    [0x4823, 0x0, 0x0, 0x2C600002, 0xC, 0x0, 0x0, 0x0],
    [0x8043, 0x78, 0x0, 0x31C03146, 0x6, 0x0, 0x0, 0x0],
    [0x63, 0x0, 0x0, 0x2C400146, 0x400386, 0x0, 0x0, 0x0],
    [0x83, 0x0, 0x0, 0x24802003, 0x0, 0x0, 0x0, 0x0],
    [0xA3, 0x0, 0x0, 0x2E037005, 0x0, 0x0, 0x0, 0x0],
    [0xC3, 0x0, 0x0, 0x242, 0x0, 0x0, 0x0, 0x0],
    [0xE3, 0x0, 0x0, 0x4, 0x0, 0x0, 0x0, 0x0],
    [0x8027, 0x10, 0x0, 0x89044, 0x3214, 0x400, 0x0, 0x0],
    [0x47, 0x0, 0x0, 0x1765405, 0x40, 0x10, 0x0, 0x0],
    [0x202B, 0x0, 0x0, 0x61015503, 0x90B04, 0x0, 0x0, 0x0],
    [0x102F, 0x0, 0x0, 0x4000006, 0x90B04, 0x0, 0x0, 0x0],
    [0x7A3, 0x0, 0x0, 0x0, 0x0, 0x0, 0x0, 0x0],
    [0x7C3, 0x0, 0x0, 0x7F000, 0x0, 0x0, 0x0, 0x0],
    [0x7E3, 0x0, 0x0, 0x7F000, 0x0, 0x0, 0x0, 0x0],
    [0x7A7, 0x0, 0x0, 0x0, 0x0, 0x0, 0x0, 0x0],
    [0x7C7, 0x0, 0x0, 0x7F000, 0x0, 0x0, 0x0, 0x0],
    [0x7E7, 0x0, 0x0, 0x7F000, 0x0, 0x0, 0x0, 0x0],
    [0x7AB, 0x0, 0x0, 0x0, 0x0, 0x0, 0x0, 0x0],
    [0x7CB, 0x0, 0x0, 0x7F000, 0x0, 0x0, 0x0, 0x0],
    [0x7EB, 0x0, 0x0, 0x7F000, 0x0, 0x0, 0x0, 0x0]].map decode =
  [.mloadw ⟨0, 0, 1, 0, 0, 1, 0, 0⟩ ⟨11, 3, 0, 2, 0xC⟩,
    .mmul ⟨0, 1, 0, 0, 0, 0, 120, 0⟩ ⟨0xC, 1, 1, 1, 0, 1, 2, 5, 6, 0, 0, 0, 0, 6⟩,
    .mgrad ⟨0, 0, 0, 0, 0, 0, 0, 0⟩ ⟨0xB, 0, 0, 1, 0, 0, 0, 5, 6, 4, 0, 0, 7, 6⟩,
    .mgdrain ⟨0, 0, 0, 0, 0, 0, 0, 0⟩ ⟨9, 1, 0, 1, 3⟩,
    .mres ⟨0, 0, 0, 0, 0, 0, 0, 0⟩ ⟨0xB, 2, 0, 1, 1, 7, 5⟩,
    .slclaim ⟨0, 0, 0, 0, 0, 0, 0, 0⟩ 9 2,
    .slrel ⟨0, 0, 0, 0, 0, 0, 0, 0⟩ 4,
    .lnest ⟨0, 1, 0, 0, 0, 0, 16, 0⟩ ⟨0, 2, 9, 1, 4, 3, 2, 1, 4, 0x400⟩,
    .sortc ⟨0, 0, 0, 0, 0, 0, 0, 0⟩ ⟨0, 1, 7, 6, 5, 4, 5, 64, 16⟩,
    .xld ⟨0, 0, 0, 1, 0, 0, 0, 0⟩ ⟨3, 2, 0x155, 3, 9, 11, 4⟩,
    .xst ⟨0, 0, 0, 0, 1, 0, 0, 0⟩ ⟨0, 8, 0, 6, 9, 11, 4⟩,
    .resume ⟨0, 0, 0, 0, 0, 0, 0, 0⟩ .mq,
    .esave ⟨0, 0, 0, 0, 0, 0, 0, 0⟩ .mq 0x7F000,
    .eload ⟨0, 0, 0, 0, 0, 0, 0, 0⟩ .mq 0x7F000,
    .resume ⟨0, 0, 0, 0, 0, 0, 0, 0⟩ .vq,
    .esave ⟨0, 0, 0, 0, 0, 0, 0, 0⟩ .vq 0x7F000,
    .eload ⟨0, 0, 0, 0, 0, 0, 0, 0⟩ .vq 0x7F000,
    .resume ⟨0, 0, 0, 0, 0, 0, 0, 0⟩ .lq,
    .esave ⟨0, 0, 0, 0, 0, 0, 0, 0⟩ .lq 0x7F000,
    .eload ⟨0, 0, 0, 0, 0, 0, 0, 0⟩ .lq 0x7F000].map Except.ok := rfl
/-- Words of engine commands (Tables 10.8 and 11.6), from their fields in the spec's encoding tables. -/
theorem test_decode_engine_1 : [
    [0x7AF, 0x0, 0x0, 0x0, 0x0, 0x0, 0x0, 0x0],
    [0x7CF, 0x0, 0x0, 0x7F000, 0x0, 0x0, 0x0, 0x0],
    [0x7EF, 0x0, 0x0, 0x7F000, 0x0, 0x0, 0x0, 0x0],
    [0x33, 0x0, 0x0, 0x42CA248, 0x70000, 0x0, 0x0, 0x0],
    [0x358033, 0x0, 0x0, 0x42CA248, 0x749AB, 0x0, 0x0, 0x0],
    [0x10053, 0x5, 0x6, 0x42C0248, 0x729AB, 0x0, 0x0, 0x0],
    [0x73, 0x0, 0x0, 0x42CA248, 0x70000, 0x0, 0x0, 0x0],
    [0x93, 0x0, 0x0, 0x240, 0x0, 0x0, 0x0, 0x0],
    [0x37, 0x0, 0x0, 0x280248, 0x50000, 0x0, 0x0, 0x0],
    [0x57, 0x0, 0x0, 0x20A248, 0x50000, 0x0, 0x0, 0x0],
    [0x3B, 0x0, 0x0, 0x1000248, 0xBEEF, 0x0, 0x0, 0x0],
    [0x5B, 0x0, 0x0, 0x214, 0x0, 0x0, 0x0, 0x0],
    [0x7B, 0x0, 0x0, 0x3C, 0x0, 0x0, 0x0, 0x0]].map decode =
  [.resume ⟨0, 0, 0, 0, 0, 0, 0, 0⟩ .sq,
    .esave ⟨0, 0, 0, 0, 0, 0, 0, 0⟩ .sq 0x7F000,
    .eload ⟨0, 0, 0, 0, 0, 0, 0, 0⟩ .sq 0x7F000,
    .cpy ⟨0, 0, 0, 0, 0, 0, 0, 0⟩ ⟨4, 11, 10, 9, 8, 7, 0, 0, 0⟩,
    .cpy ⟨26, 3, 0, 0, 0, 0, 0, 0⟩ ⟨4, 11, 10, 9, 8, 7, 1, 0, 0x9AB⟩,
    .cpyc ⟨0, 2, 0, 0, 0, 0, 5, 6⟩ ⟨4, 11, 0, 9, 8, 7, 0, 1, 0x9AB⟩,
    .ckpt ⟨0, 0, 0, 0, 0, 0, 0, 0⟩ ⟨4, 11, 10, 9, 8, 7, 0, 0, 0⟩,
    .lrflush ⟨0, 0, 0, 0, 0, 0, 0, 0⟩ 9,
    .xsend ⟨0, 0, 0, 0, 0, 0, 0, 0⟩ ⟨8, 9, 0, 2, 1, 5⟩,
    .xrecv ⟨0, 0, 0, 0, 0, 0, 0, 0⟩ ⟨8, 9, 10, 0, 1, 5⟩,
    .dispatch ⟨0, 0, 0, 0, 0, 0, 0, 0⟩ ⟨8, 9, 4096, 0xBEEF⟩,
    .wlnext ⟨0, 0, 0, 0, 0, 0, 0, 0⟩ 20 8,
    .wid ⟨0, 0, 0, 0, 0, 0, 0, 0⟩ 60].map Except.ok := rfl

/-- One term that each check of WellFormed refuses: register limits, fields, immediates and system names. -/
theorem test_wf_refuses_operands : [Instr.bdecl 6 61, .rent false .t2 63 6 7, .sublet false 63 6 7, .sublet false 5 6 61,
    .rquery false 60 6, .bfx 5 6 60 4, .bfxs 5 6 60 4, .bfi 5 6 60 4, .msv .tick 6, .msv .capMask 6, .defer 0, .defer 257,
    .longTwin .slli 5 6 64, .longTwin .bfx 5 6 0x1000, .longTwin .bfi 5 6 0x0FFF, .longTwin .pref 1 6 0, .longTwin .ldg 5 16 0,
    .longTwin .stg 5 6 2048, .longTwin .br 6 6 0, .longTwin .j 1 0 0, .longTwin .jl 0 1 0, .longTwin .loopr 1 0 0,
    .longTwin .trap 0 0 2048, .longTwin .mvs 5 1 0, .longTwin .mvs 5 0 6, .longTwin .msv 1 6 1, .longTwin .msv 0 6 0,
    .longTwin .defer 0 0 0].all (fun i => !i.wf) = true := by decide

/-- The checks of form V. -/
theorem test_wf_refuses_vectors : [Instr.vadd ⟨0, 7, 6, 5, 0, 12, 0, 0, 0, 0⟩, .vadd ⟨0, 7, 6, 5, 0, 2, 1, 0, 0, 0⟩,
    .vadd ⟨0, 7, 6, 5, 0, 9, 0, 1, 0, 0⟩, .vadd ⟨8, 7, 6, 5, 0, 2, 0, 0, 0, 0⟩, .vabs ⟨0, 7, 6, 5, 0, 2, 0, 0, 0, 0⟩,
    .vadd ⟨0, 7, 6, 5, 1, 2, 0, 0, 0, 0⟩, .vadd ⟨0, 7, 6, 5, 2, 2, 0, 0, 0, 0⟩, .vfma ⟨8, 7, 6, 5, 0, 2, 0, 1, 0, 0⟩,
    .vand ⟨0, 7, 6, 5, 0, 8, 0, 0, 0, 0⟩, .vand ⟨0, 7, 6, 5, 0, 2, 0, 1, 0, 0⟩, .vceq ⟨0, 7, 6, 5, 0, 2, 0, 1, 0, 0⟩,
    .vceq ⟨0, 7, 6, 5, 0, 1, 0, 2, 0, 0⟩, .vcvt ⟨8, 0, 6, 5, 0, 0, 0, 0, 0, 0⟩, .vcvt ⟨9, 0, 6, 5, 0, 0xB, 0, 2, 0, 0⟩,
    .vqrd ⟨2, 7, 6, 5, 0, 9, 0, 0, 0, 0⟩, .vexp2 ⟨0, 0, 6, 5, 0, 8, 0, 0, 0, 0⟩, .vbfx ⟨0, 7, 6, 5, 0, 8, 0, 0, 0, 0⟩,
    .vfsh ⟨8, 7, 6, 5, 0, 2, 0, 2, 0, 0⟩, .vred ⟨0, 0, 6, 5, 0, 2, 0, 3, 0, 0⟩, .vld ⟨0, 0, 6, 5, 0, 14, 0, 0, 0, 0⟩,
    .vld ⟨0, 0, 6, 5, 1, 2, 0, 0, 0, 0⟩, .vst ⟨8, 0, 6, 5, 0, 2, 0, 0, 0, 1⟩, .vscat ⟨8, 7, 6, 5, 0, 2, 0, 0, 1, 0⟩,
    .vthr ⟨8, 7, 6, 5, 0, 10, 0, 0, 0, 0⟩, .vtagTags ⟨8, 7, 6, 4, 0, 9, 0, 0, 0, 0⟩, .vtagMask ⟨8, 7, 6, 5, 0, 9, 0, 0, 0, 0⟩,
    .vcomb ⟨8, 7, 6, 5, 0, 9, 0, 1, 0, 0⟩, .vmov ⟨0, 0, 6, 5, 0, 15, 0, 0, 0, 0⟩, .vbcst ⟨0, 0, 3, 5, 1, 2, 0, 0, 0, 0⟩,
    .vgetl ⟨0, 7, 6, 5, 0, 2, 0, 0, 0, 3⟩].all (fun i => !i.wf) = true := by decide

/-- Timing without words. -/
def noTime : Timing := ⟨0, 0, 0, 0, 0, 0, 0, 0⟩

/-- The checks of engine commands. -/
theorem test_wf_refuses_commands : [Instr.mloadw noTime ⟨0x0B, 8, 0, 0, 0⟩, .mloadw noTime ⟨0x0B, 0, 0, 0, 0xFFFF⟩,
    .mloadw noTime ⟨0x0B, 0, 1, 1, 0⟩, .mmul noTime ⟨0x11, 0, 0, 0, 0, 0, 0, 0, 0, 0, 0, 0, 0, 0⟩,
    .mmul noTime ⟨0xB, 2, 0, 0, 0, 0, 0, 0, 0, 0, 0, 0, 0, 0⟩, .mmul noTime ⟨0xB, 0, 0, 0, 1, 0, 0, 0, 0, 0, 0, 0, 0, 0⟩,
    .mmul noTime ⟨0xB, 0, 0, 1, 0, 0, 0, 0, 0, 0, 0, 0, 0, 7⟩, .mmul noTime ⟨0xB, 0, 0, 0, 0, 0, 1, 0, 0, 0, 0, 0, 0, 0⟩,
    .mmul noTime ⟨0xB, 0, 0, 0, 0, 0, 0, 0, 0, 0, 1, 0, 0, 0⟩, .mgrad noTime ⟨0, 0, 0, 0, 0, 0, 0, 0, 0, 0, 0, 0, 0, 0⟩,
    .mgdrain noTime ⟨8, 0, 0, 0, 0⟩, .mgdrain noTime ⟨9, 0, 0, 0, 8⟩, .mres noTime ⟨8, 0, 0, 0, 0, 0, 0⟩,
    .mres noTime ⟨9, 0, 0, 0, 1, 8, 0⟩, .slclaim noTime 5 0, .slclaim noTime 5 33, .lnest noTime ⟨0, 0, 9, 3, 1, 0, 0, 0, 0, 0⟩,
    .lnest noTime ⟨0, 0, 9, 1, 1, 1, 0, 0, 0, 0⟩, .lnest noTime ⟨0, 0, 9, 1, 1, 0, 0, 0, 0, 16⟩, .sortc noTime ⟨0, 0, 0, 0, 0, 0, 0, 0, 0⟩,
    .sortc noTime ⟨1, 0, 0, 0, 0, 4, 0, 1, 0⟩, .sortc noTime ⟨0, 0, 1, 0, 0, 0, 0, 1, 0⟩, .xld noTime ⟨5, 0, 0, 0, 0, 0, 0⟩,
    .xst noTime ⟨3, 0, 0, 0, 0, 0, 0⟩, .xld noTime ⟨0, 0, 1, 0, 0, 0, 0⟩, .esave noTime .mq 16, .eload noTime .sq 1,
    .cpy noTime ⟨0, 0, 0, 0, 0, 0, 0, 0, 1⟩, .cpyc noTime ⟨0, 0, 1, 0, 0, 0, 0, 0, 0⟩, .ckpt noTime ⟨0, 0, 0, 0, 0, 0, 1, 0, 0⟩,
    .xsend noTime ⟨0, 0, 1, 0, 0, 0⟩, .dispatch noTime ⟨0, 0, 0, 0⟩, .dispatch noTime ⟨0, 63, 1, 0⟩, .wlnext noTime 60 0, .wid noTime 61,
    .resume ⟨0, 0, 1, 0, 0, 0, 0, 0⟩ .lq, .resume ⟨0, 0, 0, 0, 0, 1, 0, 0⟩ .sq, .xrecv ⟨0, 0, 0, 0, 1, 0, 0, 0⟩ ⟨0, 0, 0, 0, 0, 0⟩,
    .slrel ⟨0, 0, 0, 0, 0, 0, 1, 0⟩ 0, .slrel ⟨1, 1, 0, 0, 0, 0, 1, 0⟩ 0, .slrel ⟨1, 2, 0, 0, 0, 0, 1, 0⟩ 0,
    .slrel ⟨1, 3, 0, 0, 0, 0, 1, 0⟩ 0].all (fun i => !i.wf) = true := by decide

/-- Events have no encoding. -/
theorem test_wf_refuses_events : [Instr.kick 1 0, .moduleReset, .lapse 3, .illegalEncoding].all (fun i => !i.wf) = true := by decide

/-- Words that encode nothing are refused: the zero word, reserved majors, functions and fields, missing words (R222, R233). -/
theorem test_decode_refuses : ([[0], [0x54000004], [0x00000044], [0x000000B1], [0x04000030 + 5 * 2 ^ 29], [0x48100004], [0x00000085 + 2 ^ 14],
    [0x00000082 + 0x3F * 2 ^ 20, 0], [0x10200086, 0x100], [0x00000306], [], [0x1F, 0, 0, 0, 0, 0, 0, 0], [0x000000C3]]
    : List (List IWord)).all (fun w => match decode w with | .ok _ => false | .error _ => true) = true := by decide

/-! ## States of the tests -/

/-- The unit of the tests: two logical cores in its team, one page of its own, 16 granules of scratchpad. -/
def unit : Ctx := { codeUnit with privPages := 1, teamSize := 2, spad := [⟨0, 16, refOf 0 1 0⟩] }
/-- Its mate on logical core 1. -/
def mate : Ctx := { unit with uid := 2, core := 1, lcore := 1, spad := [⟨0, 16, refOf 0 1 1⟩] }

/-- A region virtual device 1 has paid for. -/
def paid (space tier size addr : Nat) : Rent :=
  { (default : Rent) with
    space := space, owner := 0x10000, state := 1, tier := tier, share := 2, size := size, paid := never, addr := addr }

/-- A machine in which c executes: a page of code at 0x10000, a page of tier 2 at 0x20000, one of tier 3 at 0x30000, an
unmapped page after them, pages of its own, of scratchpad and of synchronisation space. -/
def on (c : Ctx) : State :=
  let s := State.reset.withFetchWord 32 0xFD
  { s with
    cx := some c, units := [(2, mate)]
    rents := [(refOf 0 1 0, paid 4 1 16 0), (refOf 0 1 1, paid 5 1 16 0), (refOf 0 2 0, codeRent), (refOf 0 2 1, paid 3 2 1 0),
      (refOf 0 2 2, paid 6 2 1 0), (refOf 0 2 3, paid 2 2 1 0x20000), (refOf 0 3 0, paid 7 3 1 0x30000)]
    dies := [(0, { (default : DieSt) with syncPages := [(0, refOf 0 2 2)] })]
    teams := [(1, { (default : Team) with launch := 1, units := [1, 2], size := 2, state := 1 })]
    vds := [(1, { VDev.reset with
      state := 2, allowance := 2 ^ 60
      maps := [⟨0x10000, 1, codeRef, false, 0, false⟩, ⟨0x20000, 1, refOf 0 2 3, false, 0, false⟩, ⟨0x30000, 1, refOf 0 3 0, false, 0, false⟩] })]
    nextId := 10, nextSpace := 10 }

/-- Scalars set in a context. -/
def hands (l : List (Nat × Word)) (c : Ctx := unit) : Ctx := l.foldl (fun c e => wrPhys c e.1 e.2) c

/-- Addresses of the windows. -/
def spadAt (off : Nat) : Word := BitVec.ofNat 64 (0xD * 2 ^ 60 + off)
def mateAt (off : Nat) : Word := BitVec.ofNat 64 (0xE * 2 ^ 60 + 2 ^ 48 + off)
def privAt (off : Nat) : Word := BitVec.ofNat 64 (0xC * 2 ^ 60 + off)
def syncAt (off : Nat) : Word := BitVec.ofNat 64 (0xF * 2 ^ 60 + off)

/-- A context executes with every capability declared and none fenced. -/
theorem runs_on (c : Ctx) (h : c.useMask = 0xFFFFFF ∧ c.capMask = 0xFFFFFF) (bits : List Nat)
    (hb : bits.all (fun b => (0xFFFFFF : BitVec 24).getLsbD b) = true) : Runs (on c) c bits := by
  unfold Runs
  rw [h.1, h.2]
  simp only [List.all_eq_true] at hb
  exact ⟨rfl, fun b m => ⟨hb b m, hb b m⟩⟩

/-! ## The hypotheses of the statements are met: scalars and control -/

theorem test_meets_scalar : scalarResult unit (.add 5 6 7) = some ⟨5, 0, 4, 0⟩ ∧ Runs (on unit) unit [0] :=
  ⟨rfl, runs_on _ ⟨rfl, rfl⟩ _ (by decide)⟩
theorem test_meets_scalar_field : scalarResult (hands [(6, 0x8000000000000000)]) (.longTwin .bfx 5 6 0x3F) = some ⟨5, 1, 8, 6⟩
    ∧ scalarResult (hands [(6, 0x8000000000000000)]) (.bfx 5 6 63 0) = some ⟨5, 1, 4, 6⟩ ∧ Runs (on (hands [(6, 0x8000000000000000)])) (hands [(6, 0x8000000000000000)]) [6] :=
  ⟨rfl, rfl, runs_on _ ⟨rfl, rfl⟩ _ (by decide)⟩
theorem test_meets_predicate : predResult unit (.pnot 100 0) = some (100, 0) ∧ Runs (on unit) unit [0] :=
  ⟨rfl, runs_on _ ⟨rfl, rfl⟩ _ (by decide)⟩
theorem test_meets_product : productResult (hands [(7, 3)]) (.div 5 6 7) = some (5, 0, 18)
    ∧ Runs (on (hands [(7, 3)])) (hands [(7, 3)]) [1] := ⟨rfl, runs_on _ ⟨rfl, rfl⟩ _ (by decide)⟩
theorem test_meets_product_due : (on unit).cx = some unit ∧ (default : Ev).own = 0 ∧ 63 ≠ 0 ∧ 63 < 64
    ∧ (running (on unit) unit.core 2 0).isNone := by decide
theorem test_meets_jump : jumpOf (hands [(6, 0x10002)]) (.jr 5 6) = some ⟨0x10002, 3, some 5⟩ ∧ (0x10002 : Word).toNat % 4 ≠ 0
    ∧ jumpOf unit (.j 4) = some ⟨0x10010, 2, none⟩ ∧ (0x10010 : Word).toNat % 4 = 0 := ⟨rfl, by decide, rfl, by decide⟩
theorem test_meets_branch : branchOf unit (.br .z 9 4) = some (.z, 9, 0x10010, 4) ∧ meetsCond .z (rdS unit 9) ∧ ¬ meetsCond .nz (rdS unit 9)
    ∧ branchOf { unit with pc := 2 } (.br .z 9 4) = some (.z, 9, 18, 4) ∧ (18 : Word).toNat % 4 ≠ 0 :=
  ⟨rfl, show _ = _ by decide, show ¬ (_ ≠ _) by decide, rfl, by decide⟩
theorem test_meets_loopr : loopOf unit (.loopr 0xFFF) = some (0xFFFC, 4) ∧ (0xFFFC : Word).toNat % 4 = 0
    ∧ (jumpOf unit (.j 4)).isSome ∧ (branchOf unit (.br .nz 9 4)).isSome
    ∧ ∃ t c', exec (.j 4) (on unit) = .next t ∧ t.cx = some c' := ⟨rfl, by decide, rfl, rfl, _, _, rfl, rfl⟩
theorem test_meets_mvs : readsName (.longTwin .mvs 5 0 0x24) = some (5, .tvec, 8) ∧ Runs (on unit) unit [0] :=
  ⟨rfl, runs_on _ ⟨rfl, rfl⟩ _ (by decide)⟩
theorem test_meets_msv : let c := hands [(6, 0x10004), (7, 2)]
    writesName (.msv .tvec 6) = some (.tvec, 6, 4) ∧ handlerOnly .tvec = false ∧ (rdS c 6).toNat % 4 = 0
    ∧ writesName (.msv .tvec 7) = some (.tvec, 7, 4) ∧ (rdS c 7).toNat % 4 ≠ 0
    ∧ writesName (.longTwin .msv 0 6 0x20) = some (.epc, 6, 8) ∧ handlerOnly .epc = true ∧ c.handler = false ∧ Runs (on c) c [0] :=
  ⟨rfl, by decide, by decide, rfl, by decide, rfl, by decide, rfl, runs_on _ ⟨rfl, rfl⟩ _ (by decide)⟩
theorem test_meets_waitt : let c := hands [(6, 1), (7, 2)]
    Runs (on c) c [0] ∧ (rdS c 6).toNat ≤ tickOf (on c) c + 1 ∧ tickOf (on c) c + 1 < (rdS c 7).toNat :=
  ⟨runs_on _ ⟨rfl, rfl⟩ _ (by decide), by decide, by decide⟩
theorem test_meets_waitt_expire : let c := { unit with wait := .tick 0 }
    unitOf (on c) 1 = some c ∧ c.wait = .tick (tickOf (on c) c) := by decide
theorem test_meets_seg : let c := { unit with handler := true }
    Runs (on unit) unit [0] ∧ unit.handler = false ∧ otherTimed (on unit) unit = false
    ∧ otherTimed { on unit with units := [(2, { mate with core := 0, timed := true })] } unit = true ∧ Runs (on c) c [0] ∧ c.handler = true :=
  ⟨runs_on _ ⟨rfl, rfl⟩ _ (by decide), rfl, by decide, by decide, runs_on _ ⟨rfl, rfl⟩ _ (by decide), rfl⟩

/-- An open idem region. -/
def idemRegion : Region :=
  ⟨false, true, 0, 0x10000, 5, ⟨[], [], 0, 0, 0, [], [], [], 0, []⟩, []⟩
/-- A containing region. -/
def contRegion : Region := { idemRegion with contain := true, idem := false }

theorem test_meets_gsync : let c := { unit with region := some idemRegion }
    Runs (on unit) unit [0] ∧ unit.idem = false ∧ Runs (on c) c [0] ∧ c.idem = true :=
  ⟨runs_on _ ⟨rfl, rfl⟩ _ (by decide), rfl, runs_on _ ⟨rfl, rfl⟩ _ (by decide), rfl⟩
theorem test_meets_gsync_last : let s := { on unit with units := [(2, { mate with wait := .done })] }
    ∃ t, exec (.gsync 5) s = .next t ∧ allArrived t 1 = true ∧ (teamOf s 1).gsyncAt = none := ⟨_, rfl, by decide, by decide⟩
theorem test_meets_gsync_release : let c := { unit with wait := .gsync 5 }
    let s := { on c with teams := [(1, { (default : Team) with units := [1], gsync := [1], gsyncAt := some 0 })] }
    s.cx = some c ∧ c.wait = .gsync 5 ∧ (teamOf s c.team).units = [c.uid] ∧ (teamOf s c.team).gsync = [c.uid]
    ∧ (teamOf s c.team).gsyncAt = some (tickOf s c) ∧ 5 < 64 ∧ otherTimed s c = false := by decide
theorem test_meets_traps : let c := { unit with tvec := 0x10004 }
    Runs (on c) c [0] ∧ c.tvec ≠ 0 ∧ c.handler = false ∧ trapOf (.trap 2047) = some 2047 ∧ (launchOf (on c) c.launch).attached = false :=
  ⟨runs_on _ ⟨rfl, rfl⟩ _ (by decide), by decide, rfl, rfl, rfl⟩
theorem test_meets_traps_unhandled : Runs (on unit) unit [0] ∧ unit.tvec = 0 ∧ (launchOf (on unit) unit.launch).attached = false
    ∧ trapOf (.longTwin .trap 0 0 5) = some 5 ∧ (launchOf (on unit) unit.launch).status = none :=
  ⟨runs_on _ ⟨rfl, rfl⟩ _ (by decide), rfl, rfl, rfl, rfl⟩
theorem test_meets_tret : let c := { unit with handler := true }
    Runs (on c) c [0] ∧ c.handler = true ∧ c.heldIrq = [] ∧ Runs (on unit) unit [0] ∧ unit.handler = false :=
  ⟨runs_on _ ⟨rfl, rfl⟩ _ (by decide), rfl, rfl, runs_on _ ⟨rfl, rfl⟩ _ (by decide), rfl⟩
theorem test_meets_code_fences : Runs (on unit) unit [0] ∧ landedSince (on unit) unit = false
    ∧ landedSince { on unit with landings := [⟨1, 0, 0, .core, 0, [], []⟩] } unit = true := ⟨runs_on _ ⟨rfl, rfl⟩ _ (by decide), by decide, by decide⟩
theorem test_meets_codesync_complete : let c := { unit with wait := .codesync }
    unitOf (on c) 1 = some c ∧ c.wait = .codesync ∧ c.uid = 1 := by decide
theorem test_meets_defer : let c := { unit with handler := true }
    deferOf (.defer 256) = some (256, 4) ∧ deferOf (.longTwin .defer 0 0 1) = some (1, 8) ∧ Runs (on unit) unit [0] ∧ unit.handler = false
    ∧ unit.defer = none ∧ Runs (on c) c [0] ∧ c.handler = true ∧ c.heldIrq = [] :=
  ⟨rfl, rfl, runs_on _ ⟨rfl, rfl⟩ _ (by decide), rfl, rfl, runs_on _ ⟨rfl, rfl⟩ _ (by decide), rfl, rfl⟩
theorem test_meets_defer_end : let c := { unit with defer := some 0 }
    unitOf (on c) 1 = some c ∧ c.defer = some (tickOf (on c) c) ∧ c.heldIrq = [] := by decide
theorem test_meets_defer_open : let c := { unit with defer := some 1 }
    Runs (on c) c [0] ∧ ∃ e, c.defer = some e ∧ tickOf (on c) c < e := ⟨runs_on _ ⟨rfl, rfl⟩ _ (by decide), 1, rfl, by decide⟩


/-! ## Loads, stores, landings, engine operations -/

/-- Places of the test machine. -/
def codePlace : Place := ⟨1, 0, refOf 0 2 0, 0, 2, 0, 0, false⟩
def pagePlace : Place := ⟨2, 0, refOf 0 2 3, 0, 2, 0, 0, false⟩
def farPlace : Place := ⟨7, 0, refOf 0 3 0, 0, 3, 0, 0, false⟩
def privPlace : Place := ⟨3, 0, refOf 0 2 1, 1, 2, 0, 0, false⟩
def padPlace : Place := ⟨4, 0, refOf 0 1 0, 2, 1, 0, 0, false⟩
def matePlace : Place := ⟨5, 0, refOf 0 1 1, 4, 1, 0, 1, false⟩
def syncPlace : Place := ⟨6, 0, refOf 0 2 2, 5, 2, 0, 0, false⟩

/-- Scalar 10 holds an address. -/
def pointing (a : Word) (c : Ctx := unit) : Ctx := hands [(10, a)] c

theorem test_meets_fault_decode : let c := pointing 0x8000000000000000
    loadOf c (.ldN32 5 10 0) = some ⟨4, false, 5, 0x8000000000000000, 4⟩ ∧ FirstFault (on c) c 0x8000000000000000 4 .load ⟨4, 0x8000000000000000, 0, false⟩
    ∧ Runs (on c) c [0] := ⟨rfl, .inl ⟨fun h => h, rfl⟩, runs_on _ ⟨rfl, rfl⟩ _ (by decide)⟩
theorem test_meets_fault_align : let c := pointing 0x10002
    storeOf c (.stN32 5 10 0) = some ⟨4, false, 5, 0x10002, 4⟩ ∧ FirstFault (on c) c 0x10002 4 .store ⟨0x13, 0x10002, 0, false⟩ :=
  ⟨rfl, .inr (.inl ⟨trivial, by decide, rfl⟩)⟩
theorem test_meets_fault_core : let c := pointing 0xD001000000000000
    loadOf c (.ldI8 5 10 0) = some ⟨1, true, 5, 0xD001000000000000, 4⟩
    ∧ FirstFault (on c) c 0xD001000000000000 1 .load ⟨5, 0xD001000000000000, 0, false⟩ :=
  ⟨rfl, .inr (.inr (.inl ⟨trivial, by decide, by unfold wrongCore; decide, rfl⟩))⟩
theorem test_meets_fault_unmapped : let c := pointing 0x40000
    loadOf c (.ldN64 5 10 0) = some ⟨8, false, 5, 0x40000, 4⟩ ∧ FirstFault (on c) c 0x40000 8 .load ⟨0xE, 0x40000, 0, false⟩ :=
  ⟨rfl, .inr (.inr (.inr (.inl ⟨trivial, by decide, by unfold unmapped; decide, rfl⟩)))⟩
theorem test_meets_fault_host : let c := pointing 0x10000
    let s := modVd (on c) 1 (fun v => { v with hostOwned := [1] })
    loadOf c (.ldN32 5 10 0) = some ⟨4, false, 5, 0x10000, 4⟩ ∧ FirstFault s c 0x10000 4 .load ⟨0xF, 0x10000, 0, false⟩ :=
  ⟨rfl, .inr (.inr (.inr (.inr (.inl ⟨trivial, by decide, by unfold unmapped; decide, by unfold ofHost; decide, rfl⟩))))⟩
theorem test_meets_fault_rights : let c := pointing 0x10000
    let s := modRent (on c) codeRef (fun r => { r with state := 3 })
    loadOf c (.ldN32 5 10 0) = some ⟨4, false, 5, 0x10000, 4⟩ ∧ FirstFault s c 0x10000 4 .load ⟨6, 0x10000, 1, false⟩ :=
  ⟨rfl, .inr (.inr (.inr (.inr (.inr (.inl ⟨trivial, by decide, by unfold wrongCore; decide, by unfold unmapped; decide,
    by unfold ofHost; decide, codePlace, 1, by decide, by decide, rfl⟩)))))⟩
theorem test_meets_fault_buffer : let c := { pointing (spadAt 0) with bufs := [(0, ⟨64, 32, 0, 1, true⟩)] }
    loadOf c (.ldN32 5 10 0) = some ⟨4, false, 5, spadAt 0, 4⟩ ∧ FirstFault (on c) c (spadAt 0) 4 .load ⟨7, spadAt 0, 1, false⟩ :=
  ⟨rfl, .inr (.inr (.inr (.inr (.inr (.inr ⟨trivial, by decide, by unfold wrongCore; decide, by unfold unmapped; decide,
    by unfold ofHost; decide, padPlace, { pointing (spadAt 0) with bufs := [(0, ⟨64, 32, 0, 1, true⟩)] }, 0, 0, 1, by decide, by decide, by decide, by decide, rfl⟩)))))⟩

/-- One plain load for each kind of place: what LoadsReturnTheirBytes supposes. -/
theorem test_meets_loads_shared : let c := pointing 0x20000
    loadOf c (.ldI16 5 10 0) = some ⟨2, true, 5, 0x20000, 4⟩ ∧ Runs (on c) c [0] ∧ check (on c) c 0x20000 2 .load = .ok pagePlace
    ∧ poisonedAt (on c) pagePlace 2 = none ∧ c.early = false ∧ c.acq ≤ tickOf (on c) c ∧ countedHome (on c) c pagePlace = false :=
  ⟨rfl, runs_on _ ⟨rfl, rfl⟩ _ (by decide), by decide, by decide, rfl, by decide, by decide⟩
theorem test_meets_loads_counted : let c := pointing 0x30000
    loadOf c (.longTwin .ldN8 5 10 0) = some ⟨1, false, 5, 0x30000, 8⟩ ∧ check (on c) c 0x30000 1 .load = .ok farPlace
    ∧ poisonedAt (on c) farPlace 1 = none ∧ c.acq ≤ tickOf (on c) c ∧ countedHome (on c) c farPlace = true := ⟨rfl, by decide⟩
theorem test_meets_loads_own : let c := pointing (privAt 0); let d := pointing (spadAt 0)
    check (on c) c (privAt 0) 4 .load = .ok privPlace ∧ countedHome (on c) c privPlace = false
    ∧ check (on d) d (spadAt 0) 4 .load = .ok padPlace ∧ countedHome (on d) d padPlace = false := by decide
theorem test_meets_loads_mate : let c := pointing (mateAt 0)
    check (on c) c (mateAt 0) 4 .load = .ok matePlace ∧ poisonedAt (on c) matePlace 4 = none ∧ countedHome (on c) c matePlace = false := by decide
theorem test_meets_loads_sync : let c := pointing (syncAt 0)
    loadOf c (.ldN32 5 10 0) = some ⟨4, false, 5, syncAt 0, 4⟩ ∧ check (on c) c (syncAt 0) 4 .load = .ok syncPlace
    ∧ poisonedAt (on c) syncPlace 4 = none := ⟨rfl, by decide⟩
theorem test_meets_loads_element : let c := { pointing 0 with streams := [(3, BitVec.ofNat 384 (0x20000 + 2 * 2 ^ 64 + 4 * 2 ^ 96 + 2 ^ 128 + 2 ^ 144))] }
    loadOf c (.ldg 5 3 3) = some ⟨4, true, 5, 0x2000C, 4⟩ ∧ elementShape c 5 3 4 4 = none := ⟨rfl, rfl⟩

theorem test_meets_stores : let c := pointing 0x20000; let d := pointing (spadAt 0); let e := pointing (syncAt 0)
    storeOf c (.stN64 5 10 0) = some ⟨8, false, 5, 0x20000, 4⟩ ∧ check (on c) c 0x20000 8 .store = .ok pagePlace
    ∧ c.flight.length + 8 ≤ 262144
    ∧ storeOf d (.longTwin .stN16 5 10 0) = some ⟨2, false, 5, spadAt 0, 8⟩ ∧ check (on d) d (spadAt 0) 2 .store = .ok padPlace
    ∧ storeOf e (.stN8 5 10 0) = some ⟨1, false, 5, syncAt 0, 4⟩ ∧ check (on e) e (syncAt 0) 1 .store = .ok syncPlace ∧ e.idem = false
    ∧ Runs (on c) c [0] :=
  ⟨rfl, by decide, by decide, rfl, by decide, rfl, by decide, rfl, runs_on _ ⟨rfl, rfl⟩ _ (by decide)⟩
theorem test_meets_held : let r := { idemRegion with held := List.replicate 64 default }
    let c := { pointing (syncAt 0) with region := some idemRegion }; let d := { pointing (syncAt 0) with region := some r }
    check (on c) c (syncAt 0) 4 .store = .ok syncPlace ∧ c.idem = true ∧ idemRegion.held.length < 64
    ∧ check (on d) d (syncAt 0) 4 .store = .ok syncPlace ∧ 64 ≤ r.held.length := by decide
theorem test_meets_store_performs : unitOf (on unit) unit.uid = some unit ∧ (2 ^ 41 - 1) + [(7 : Byte)].length ≤ 2 ^ 41 ∧ [(7 : Byte)] ≠ []
    ∧ ∀ w ∈ (on unit).words, w.1 = 2 → w.2.1 + 16 ≤ 2 ^ 41 - 1 ∨ 2 ^ 41 - 1 + 1 ≤ w.2.1 := by decide

theorem test_meets_ordered_windows : let c := pointing (privAt 0)
    codeOfAddress c.lcore (privAt 0) = 1 ∧ decodes c (privAt 0) ∧ c.idem = false ∧ Runs (on c) c [0, 21] :=
  ⟨by decide, show _ < _ by decide, rfl, runs_on _ ⟨rfl, rfl⟩ _ (by decide)⟩
theorem test_meets_ordered : let c := pointing 0x20000; let d := pointing (syncAt 0)
    codeOfAddress c.lcore 0x20000 ≠ 1 ∧ check (on c) c 0x20000 4 .load = .ok pagePlace ∧ poisonedAt (on c) pagePlace 4 = none ∧ c.early = false
    ∧ c.acq ≤ tickOf (on c) c ∧ countedHome (on c) c pagePlace = false ∧ check (on c) c 0x20000 4 .store = .ok pagePlace
    ∧ codeOfAddress d.lcore (syncAt 0) ≠ 1 ∧ check (on d) d (syncAt 0) 4 .load = .ok syncPlace ∧ check (on d) d (syncAt 0) 4 .store = .ok syncPlace
    ∧ c.flight.any (homeAway (on c) c) = false := by decide
theorem test_meets_atomics : let c := { pointing (syncAt 0) with region := some idemRegion }; let d := pointing (syncAt 0)
    atomicOf (.amoAdd .n32 .system 0 10 7) = some (.add, .n32, .system, 0, 10, 7, 0) ∧ Runs (on c) c [21] ∧ c.idem = true ∧ (5 : Reg) ≠ 0
    ∧ check (on d) d (syncAt 0) 4 .store = .ok syncPlace ∧ poisonedAt (on d) syncPlace 4 = none ∧ d.idem = false
    ∧ codeOfAddress d.lcore 0x20000 = 0 ∧ codeOfAddress d.lcore (privAt 0) = 1 ∧ codeOfAddress d.lcore (mateAt 0) = 4
    ∧ (mateAt 0).toNat / 2 ^ 48 % 8 ≠ d.lcore ∧ decodes d 0x20000 ∧ decodes d (mateAt 0) :=
  ⟨rfl, runs_on _ ⟨rfl, rfl⟩ _ (by decide), rfl, by decide, by decide, by decide, rfl, by decide, by decide, by decide, by decide, trivial, show _ < _ by decide⟩

/-- An operation at the first word of synchronisation space. -/
def syncOp (k : SyncKind) : SyncOp := { operation k (syncAt 0) 4 unit with d := 5, p := 3, val := 1 }
theorem test_meets_engine : unitOf (on unit) unit.uid = some unit ∧ opPlace (on unit) unit (syncOp .cas) = some syncPlace
    ∧ (syncOp .cas).held = false ∧ 0 < (syncOp .cas).size ∧ (syncOp .cas).size ≤ 8 ∧ (syncOp .cas).d ≠ 0
    ∧ (syncOp .cas).kind ∈ [SyncKind.add, .and, .or, .xor, .min, .max, .swap, .cas]
    ∧ amoWrites .cas false 32 (natOfBytes (readNow (on unit) syncPlace 4)) 1 0 = some 1
    ∧ (syncOp .cas).kind ≠ .swait ∧ (syncOp .cas).kind ≠ .waitb := by decide
theorem test_meets_pref : let c := hands [(10, 0x40000), (11, 0x20000), (12, privAt 0)]
    Runs (on c) c [0] ∧ (∃ t, check (on c) c (addressAt c 10 0) 1 .load = .error t) ∧ check (on c) c (addressAt c 11 0) 1 .load = .ok pagePlace
    ∧ check (on c) c (addressAt c 12 0) 1 .load = .ok privPlace ∧ ¬ (privPlace.win = 0 ∨ privPlace.win = 4) :=
  ⟨runs_on _ ⟨rfl, rfl⟩ _ (by decide), ⟨⟨0xE, 0x40000, 0, false⟩, by decide⟩, by decide, by decide, by decide⟩

/-- Two bytes of a page in flight. -/
def flown : List FByte := [⟨2, 0, 0x20000, 7, false, 0⟩, ⟨2, 1, 0x20001, 0, false, 0⟩]
theorem test_meets_land : let c := { unit with flight := flown }
    Runs (on c) c [0] ∧ c.idem = false ∧ Uncounted (on c) c .system ∧ { c with region := some idemRegion }.idem = true :=
  ⟨runs_on _ ⟨rfl, rfl⟩ _ (by decide), rfl, fun _ => by decide, rfl⟩
theorem test_meets_land_complete : let c := { unit with wait := .land 0 }; let d := { c with landDropped := some (6, 0x20000, 1) }
    unitOf (on c) 1 = some c ∧ c.wait = .land (tickOf (on c) c) ∧ c.landDropped = none ∧ unitOf (on d) 1 = some d
    ∧ d.wait = .land (tickOf (on d) d) ∧ d.landDropped = some (6, 0x20000, 1) := by decide
theorem test_meets_landing : let c := { unit with inLand := flown }
    unitOf (on c) c.uid = some c ∧ (∀ f ∈ flown, f.space ≠ 0 ∧ f.off < 2 ^ 41 ∧ ∀ w ∈ (on c).words, w.1 ≠ f.space)
    ∧ (flown.map (fun f => locOf f.space f.off)).Nodup
    ∧ ∀ x ∈ (List.range flown.length).zip flown, droppedAtLanding (on c) c x.1 x.2 = false := by decide
theorem test_meets_halt : let c := { unit with region := some contRegion }
    Runs (on c) c [0] ∧ c.region.isSome ∧ Runs (on unit) unit [0] ∧ unit.region = none ∧ Uncounted (on unit) unit .system :=
  ⟨runs_on _ ⟨rfl, rfl⟩ _ (by decide), rfl, runs_on _ ⟨rfl, rfl⟩ _ (by decide), rfl, fun _ => by decide⟩
theorem test_meets_exit : let c := { unit with wait := .halt 0, lastWid := 1 }; let d := { unit with wait := .halt 0 }
    unitOf (on c) 1 = some c ∧ c.wait = .halt 0 ∧ 0 ≤ tickOf (on c) c ∧ allOver (on c) c = true ∧ c.wid.toNat < c.lastWid.toNat
    ∧ unitOf (on d) 1 = some d ∧ allOver (on d) d = true ∧ d.lastWid.toNat ≤ d.wid.toNat ∧ d.regs16 = [] := by decide

theorem test_meets_barrier_faults : let c := hands [(6, syncAt 8), (7, 0x100000000), (8, 0x20000), (10, syncAt 0)]
    barrierOf c (.arrive .die 8) = some (.arrive, .die, 8, 0) ∧ Runs (on c) c [21] ∧ codeOfAddress c.lcore 0x20000 ≠ 5
    ∧ barrierOf c (.arrdrop .die 6) = some (.arrdrop, .die, 6, 0) ∧ decodes c (syncAt 8) ∧ (syncAt 8).toNat % 16 ≠ 0
    ∧ barrierOf c (.binit .die 10 7) = some (.binit, .die, 10, 0x100000000) ∧ objectAddress c (syncAt 0) false ∧ 2 ^ 32 ≤ (0x100000000 : Word).toNat :=
  ⟨rfl, runs_on _ ⟨rfl, rfl⟩ _ (by decide), by decide, rfl, trivial, by decide, rfl, ⟨by decide, trivial, .inl (by decide)⟩, by decide⟩
theorem test_meets_barrier : let c := pointing (syncAt 0); let d := { c with regs16 := List.replicate 16 ⟨0, 0⟩ }
    translate (on c) c (windowFor c (syncAt 0)) (syncAt 0) = .ok syncPlace ∧ rights (on c) c syncPlace = none ∧ c.regs16.length < 16
    ∧ c.idem = false ∧ 16 ≤ d.regs16.length ∧ (∀ r ∈ d.regs16, r.addr ≠ (syncAt 0).toNat)
    ∧ rights (modRent (on c) (refOf 0 2 2) (fun r => { r with state := 2 })) c syncPlace = some 0 := by decide
theorem test_meets_barrier_performs : unitOf (on unit) unit.uid = some unit ∧ opPlace (on unit) unit (syncOp .arrive) = some syncPlace
    ∧ (syncOp .arrive).held = false ∧ rights (on unit) unit syncPlace = none ∧ (syncOp .binit).val.toNat < 2 ^ 32
    ∧ (wordAt (on unit) 6 0).frozen = false ∧ unit.regs16.length < 16 ∧ (∀ r ∈ unit.regs16, r.addr ≠ (syncOp .arrive).addr) := by decide
theorem test_meets_barrier_again : let c := { unit with regs16 := [⟨(syncAt 0).toNat, 0⟩] }
    unitOf (on c) c.uid = some c ∧ ⟨(syncOp .arrive).addr, (wordAt (on c) 6 0).gen⟩ ∈ c.regs16 := by decide
theorem test_meets_waits : let c := hands [(10, syncAt 0), (11, spadAt 0)]
    waitOf (.waitb .die 3 5 10) = some (.waitb, false, .die, 3, 5, 10) ∧ waitOf (.swait .die 3 5 11) = some (.swait, true, .die, 3, 5, 11)
    ∧ Runs (on c) c [21] ∧ objectAddress c (rdS c 10) false ∧ objectAddress c (rdS c 11) true
    ∧ translate (on c) c (windowFor c (syncAt 0)) (syncAt 0) = .ok syncPlace ∧ translate (on c) c (windowFor c (spadAt 0)) (spadAt 0) = .ok padPlace :=
  ⟨rfl, rfl, runs_on _ ⟨rfl, rfl⟩ _ (by decide), ⟨by decide, trivial, .inl (by decide)⟩, ⟨by decide, trivial, .inr ⟨rfl, .inl (by decide)⟩⟩, by decide, by decide⟩
theorem test_meets_wait_tests : let o := syncOp .swait; let c := { unit with wait := .test o }
    let s := { on c with words := [(6, 0, false)] }; let m := fun b => { s with mem := s.mem.write (locOf 6 0) b }
    unitOf s c.uid = some c ∧ c.wait = .test o ∧ opPlace s c o = some syncPlace ∧ rights s c syncPlace = none ∧ (rentOf s syncPlace.ref).state = 1
    ∧ (syncPlace.space, syncPlace.off, false) ∈ s.words ∧ (wordAt s 6 0).frozen = false ∧ (wordAt s 6 0).reached = false
    ∧ (wordAt (m 1) 6 0).reached = true ∧ (wordAt (m 1) 6 0).frozen = false ∧ (wordAt (m 2) 6 0).frozen = true := by decide
theorem test_meets_waitb_tests : let o := syncOp .waitb; let c := { unit with wait := .test o }
    let d := { c with regs16 := [⟨o.addr, 0⟩] }; let e := { c with regs16 := [⟨o.addr, 1⟩] }
    opPlace (on c) c o = some syncPlace ∧ (∀ r ∈ c.regs16, r.addr ≠ o.addr) ∧ d.regs16 = [⟨o.addr, (wordAt (on d) 6 0).gen⟩]
    ∧ e.regs16 = [⟨o.addr, 1⟩] ∧ 1 ≠ (wordAt (on e) 6 0).gen := by decide
theorem test_meets_released : let o := syncOp .swait; let c := { unit with wait := .op o }; let d := { unit with wait := .status o }
    unitOf (on c) 1 = some c ∧ c.wait = .op o ∧ unitOf (on d) d.uid = some d ∧ d.wait = .status o ∧ o.kind = .swait ∧ o.d ≠ 0 ∧ o.p ≠ 0 := by decide


/-! ## Buffers, regions, setup and rent -/

theorem test_meets_bdecl : let c := hands [(6, 64), (20, 32), (21, 64), (22, 0), (23, 1), (24, 1)]
    let d := { c with bufs := [(0, ⟨0, 64, 32, 2, true⟩)] }
    Runs (on c) c [0] ∧ 64 ≤ (rdS c 6).toNat ∧ (rdS c 7).toNat < 64 ∧ (entry d 0).declared = true ∧ (entry d 0).state ≠ 0
    ∧ (entry c 0).declared = false ∧ (rdS c 25).toNat = 0 ∧ (rdS c 24).toNat ≠ 0 ∧ (rdS c 23).toNat % 32 ≠ 0
    ∧ declarable c 0 32 64 0 1 ∧ checkOwn (on c) c [(32, 64), (0, 16)] = .ok () :=
  ⟨runs_on _ ⟨rfl, rfl⟩ _ (by decide), by decide, by decide, by decide, by decide, by decide, by decide, by decide, by decide,
    by unfold declarable; decide, by decide⟩
theorem test_meets_buffer_states : let b := fun st => { hands [(6, 64)] with bufs := [(0, ⟨0, 64, 32, st, true⟩)] }
    64 ≤ (rdS (b 0) 6).toNat ∧ (rdS (b 0) 7).toNat < 64 ∧ (entry unit 0).declared = false ∧ (entry (b 3) 0).declared = true
    ∧ checkOwn (on (b 3)) (b 3) [((entry (b 3) 0).base, (entry (b 3) 0).length)] = .ok ()
    ∧ (∀ st < 4, (entry (b st) 0).state = st ∧ checkOwn (on (b st)) (b st) [(32, 64)] = .ok ()) := by decide

/-- A view image of 16 bytes and a stream image of 48 at offset 512 of the register store. -/
def imaged (n v : Nat) (off : Word := 512) : Ctx := { hands [(6, off)] with bank := (hands [(6, off)]).bank.writeRun 512 (bytesOfNat n v) }
def vectorView : Nat := 0x10200000000001000000000000000400
def stream4 : Nat := 0x1000100000004000000020000000000020000
theorem test_meets_viewset : (∀ v ∈ [0, vectorView, 2 ^ 124, 2 ^ 126],
      natOfBytes ((imaged 16 v).bank.readRun (rdS (imaged 16 v) 6).toNat 16) = v ∧ (rdS (imaged 16 v) 6).toNat % 16 = 0
      ∧ (rdS (imaged 16 v) 6).toNat + 16 ≤ 0x80000)
    ∧ badView (2 ^ 126) ∧ ¬ badView 0 ∧ bitsAt 0 124 4 = 0 ∧ ¬ badView vectorView ∧ bitsAt vectorView 124 4 ≠ 0 ∧ placedView vectorView
    ∧ ¬ badView (2 ^ 124) ∧ ¬ placedView (2 ^ 124) ∧ (rdS (imaged 16 0 8) 6).toNat % 16 ≠ 0 ∧ Runs (on (imaged 16 0)) (imaged 16 0) [0] :=
  ⟨by decide, by unfold badView; decide, by unfold badView; decide, by decide, by unfold badView; decide, by decide, by unfold placedView; decide,
    by unfold badView; decide, by unfold placedView; decide, by decide, runs_on _ ⟨rfl, rfl⟩ _ (by decide)⟩
theorem test_meets_gset : natOfBytes ((imaged 48 stream4).bank.readRun 512 48) = stream4 ∧ goodStream stream4 ∧ ¬ goodStream 0
    ∧ (rdS (imaged 48 0) 6).toNat % 16 = 0 ∧ (rdS (imaged 48 0) 6).toNat + 48 ≤ 0x80000 ∧ 0x80000 < (rdS (imaged 48 0 0x7FFE0) 6).toNat + 48 :=
  ⟨by decide, by unfold goodStream; decide, by unfold goodStream; decide, by decide, by decide, by decide⟩

/-- The image's bytes 8 to 11 are in the shadow of a pending engine write of the same context. -/
theorem test_meets_shadowed_image : let c := { imaged 48 stream4 with early := true }
    let s := { on c with agenda := [⟨0, 5, 7, 1, 9, .eff (.bank 1 520 [0, 0, 0, 0] []), false⟩] }
    Runs s c [0] ∧ (rdS c 6).toNat = 512 ∧ checksShadow s c = true ∧ bankShadow s c 0 512 16 0 = some 520 ∧ bankShadow s c 0 512 48 0 = some 520
    ∧ bankShadow (on c) c 0 512 48 0 = none ∧ checksShadow (on (imaged 16 0)) (imaged 16 0) = false :=
  ⟨runs_on _ ⟨rfl, rfl⟩ _ (by decide), by decide, by decide, by decide, by decide, by decide, by decide⟩

theorem test_meets_rgopen : let c := hands [(6, 0x10004), (7, 2)]; let d := { c with handler := true }; let e := { c with flight := flown }
    openerOf c (.rgopenBoth 6) = some (true, true, 0x10004) ∧ Runs (on c) c [0] ∧ c.sliceEnd = none ∧ c.handler = false ∧ c.region = none
    ∧ c.flight = [] ∧ (0x10004 : Word).toNat % 4 = 0 ∧ openerOf c (.rgopenContain 7) = some (true, false, 2) ∧ (2 : Word).toNat % 4 ≠ 0
    ∧ d.handler = true ∧ Runs (on d) d [0] ∧ e.flight ≠ [] ∧ Runs (on e) e [0] :=
  ⟨rfl, runs_on _ ⟨rfl, rfl⟩ _ (by decide), rfl, rfl, rfl, rfl, by decide, rfl, by decide, rfl, runs_on _ ⟨rfl, rfl⟩ _ (by decide), by decide,
    runs_on _ ⟨rfl, rfl⟩ _ (by decide)⟩
theorem test_meets_region_end : let o := { syncOp .store with held := true }; let c := { unit with region := some contRegion }
    let d := { unit with region := some { idemRegion with held := [o] } }
    Runs (on unit) unit [0] ∧ unit.sliceEnd = none ∧ unit.region = none ∧ Runs (on c) c [0] ∧ c.region = some contRegion
    ∧ contRegion.idem = false ∧ Runs (on d) d [0] ∧ d.region = some { idemRegion with held := [o] } ∧ o.kind = .store
    ∧ opPlace (on d) d o = some syncPlace ∧ idemRegion.held = [] ∧ idemRegion.idem = true ∧ idemRegion.snap.words = [] :=
  ⟨runs_on _ ⟨rfl, rfl⟩ _ (by decide), rfl, rfl, runs_on _ ⟨rfl, rfl⟩ _ (by decide), rfl, rfl, runs_on _ ⟨rfl, rfl⟩ _ (by decide), rfl, rfl,
    by decide, rfl, rfl, rfl⟩
theorem test_meets_rent_issue : let c := { unit with region := some idemRegion }
    rentShape unit (.sublet false 5 6 20) = some (5, 2, [0, 0, 0, 0, 0], false) ∧ rentShape c (.rquery true 59 6) = some (59, 5, [0], true)
    ∧ Runs (on unit) unit [23] ∧ unit.idem = false ∧ Runs (on c) c [23] ∧ c.idem = true :=
  ⟨rfl, rfl, runs_on _ ⟨rfl, rfl⟩ _ (by decide), rfl, runs_on _ ⟨rfl, rfl⟩ _ (by decide), rfl⟩

/-- The tier-2 page at 0x20000 alone, the test unit's own, in a state and paid until 1000. -/
def rented (st : Nat) (sub : Bool := false) : State :=
  { on unit with rents := [(refOf 0 2 3, { paid 2 2 1 0x20000 with owner := 0x10001, state := st, paid := 1000, sub := sub })] }
/-- Its handle. -/
def pageHandle : Word := 0x10000003
theorem test_meets_rent_handle : unitOf (rented 1) unit.uid = some unit ∧ unit.principal < 65536 ∧ bitsAt pageHandle.toNat 32 16 = 0
    ∧ bitsAt pageHandle.toNat 17 10 = 0 ∧ entryOfHandle (rented 1) pageHandle.toNat = some (refOf 0 2 3)
    ∧ entryOfHandle (rented 0) pageHandle.toNat = none ∧ (rentOf (rented 1) (refOf 0 2 3)).owner = ownerOf unit
    ∧ (rentOf (rented 1) (refOf 0 2 3)).sub = false ∧ (rentOf (rented 1 true) (refOf 0 2 3)).sub = true
    ∧ entryOfHandle (rented 1 true) pageHandle.toNat = some (refOf 0 2 3) := by decide
theorem test_meets_renew_prepay_release : let s := rented 1; let r := rentOf s (refOf 0 2 3); let g := rentOf (rented 2) (refOf 0 2 3)
    r.state = 1 ∧ r.paid < 1001 ∧ g.state = 2 ∧ g.paid ≤ 1000 ∧ tickOf (rented 2) unit < 1000
    ∧ rentRate r * (1001 - r.paid) ≤ allowanceOf s 1 ∧ rentRate r * (1001 - r.paid) < 2 ^ 64 ∧ r.escrow + 5 < 2 ^ 64 ∧ 5 ≤ allowanceOf s 1
    ∧ r.tier ≠ 0 ∧ subletsOf s (refOf 0 2 3) = [] ∧ (∀ w ∈ s.words, w.2.1 + 16 ≤ 2 ^ 41)
    ∧ rentRate r * (r.paid - tickOf s unit) + r.escrow < 2 ^ 64 := by decide
theorem test_meets_sublet : let s := rented 1; let r := rentOf s (refOf 0 2 3)
    (∀ e ∈ subletsOf s (refOf 0 2 3), e.2.base + e.2.size ≤ 0 ∨ 0 + 1 ≤ e.2.base) ∧ 1 ≠ 0 ∧ 0 + 1 ≤ r.size ∧ tickOf s unit < 1000 ∧ 1000 ≤ r.paid
    ∧ 0x10005 / 65536 = unit.vd ∧ rentRate { r with size := 1 } * (1000 - tickOf s unit) < 2 ^ 64 := by decide
theorem test_meets_sublet_entry : (freeEntry (rented 1) 0 2).isSome := by
  have used : ((rented 1).rents.filter (fun e => e.2.state != 0 && refDie e.1 == 0 && refTable e.1 == 2)).map (fun e => refIndex e.1) = [3] := by decide
  unfold freeEntry
  simp only [used]
  simp [pick, tableSize, freeFrom]
  split
  · split
    · omega
    · rfl
  · rfl
theorem test_meets_rent_fills : let s := { on unit with rents := [] }
    unitOf s unit.uid = some unit ∧ 1 ≤ (1 : Word).toNat ∧ (1 : Word).toNat ≤ 2 ^ 24 ∧ tickOf s unit < (1000 : Word).toNat
    ∧ rentRate { (default : Rent) with tier := 3, size := 1 } * (1000 - tickOf s unit) < 2 ^ 64
    ∧ rentRate { (default : Rent) with tier := 3, size := 1 } * (1000 - tickOf s unit) ≤ allowanceOf s 1
    ∧ freeGlobal (vdOf s 1) 1 = some (2 ^ 56) := by decide
theorem test_meets_rent_claims : ∃ s₁ ref s₂, claim { on unit with rents := [] } 1 3 0 1 0 = some s₁ ∧ freeEntry s₁ 0 3 = some (ref, s₂) :=
  ⟨_, _, _, rfl, rfl⟩

/-- The page alone, paid until 0. -/
def ending (st escrow : Nat) (sub : Bool := false) : State :=
  { on unit with rents := [(refOf 0 2 3, { paid 2 2 1 0x20000 with state := st, paid := 0, escrow := escrow, sub := sub })] }
theorem test_meets_rent_events : let s := ending 1 (2 ^ 40); let z := ending 1 0; let r := rentOf s (refOf 0 2 3)
    (vdOf s 1).state ≠ 3 ∧ r.owner / 65536 = 1 ∧ r.state = 1 ∧ r.sub = false ∧ r.paid = now s (refDie (refOf 0 2 3))
    ∧ rentRate r * 2 ^ 20 ≤ r.escrow ∧ (rentOf z (refOf 0 2 3)).escrow < rentRate r * 2 ^ 20 ∧ 0 < rentRate r
    ∧ (rentOf z (refOf 0 2 3)).escrow < rentRate r ∧ r.tier ≠ 0 ∧ (∀ w ∈ s.words, w.2.1 + 16 ≤ 2 ^ 41)
    ∧ (rentOf (ending 1 0 true) (refOf 0 2 3)).sub = true ∧ (rentOf (ending 3 0) (refOf 0 2 3)).state = 3 := by decide
theorem test_meets_grace_end : let s := { ending 2 0 with clock := { (ending 2 0).clock with ticks := List.replicate 8 (2 ^ 24) } }
    (vdOf s 1).state ≠ 3 ∧ (rentOf s (refOf 0 2 3)).state = 2 ∧ (rentOf s (refOf 0 2 3)).tier ≠ 0
    ∧ (rentOf s (refOf 0 2 3)).paid + 2 ^ 24 = now s (refDie (refOf 0 2 3)) := by decide


/-! ## Engine commands -/

/-- The machine with its core 0 changed. -/
def core0 (f : CoreSt → CoreSt) (c : Ctx := unit) : State := modCore (on c) 0 f

/-- A command of the test unit on core 0. -/
def cmd (i : Instr) (id : Nat := 5) : Cmd := { (default : Cmd) with id := id, uid := 1, core := 0, ins := i }

theorem test_meets_delivery : let i := Instr.slrel noTime 4
    i.wf = true ∧ prepOf (on unit) unit i = some (.ok default) ∧ Runs (on unit) unit (declared unit i) ∧ unit.wait = .run
    ∧ queueFull (on unit) unit (engineOf i) = false ∧ (unit.timed = true → ¬ untimed i ∧ ((timingOf i).isSome → tickOf (on unit) unit + 6 < dueOf (on unit) unit i)) :=
  ⟨by decide, rfl, runs_on _ ⟨rfl, rfl⟩ _ (by decide), rfl, by decide, fun h => by cases h⟩
theorem test_meets_delivery_timed : let i := Instr.slrel ⟨0, 1, 0, 0, 0, 0, 7, 0⟩ 4; let c := { unit with timed := true, segBase := some 0 }
    i.wf = true ∧ prepOf (on c) c i = some (.ok default) ∧ Runs (on c) c (declared c i) ∧ ¬ untimed i ∧ (timingOf i).isSome
    ∧ tickOf (on c) c + 6 < dueOf (on c) c i :=
  ⟨by decide, rfl, runs_on _ ⟨rfl, rfl⟩ _ (by decide), (fun ⟨_, h, z⟩ => by cases h; exact absurd z (by decide)), rfl, by decide⟩
theorem test_meets_delivery_vector : let i := Instr.vadd ⟨0, 7, 6, 5, 0, 2, 0, 0, 0, 0⟩
    i.wf = true ∧ (∃ k, prepOf (on unit) unit i = some (.ok k)) ∧ Runs (on unit) unit (declared unit i) ∧ queueFull (on unit) unit (engineOf i) = false :=
  ⟨by decide, ⟨_, rfl⟩, runs_on _ ⟨rfl, rfl⟩ _ (by decide), by decide⟩
theorem test_meets_delivery_copy : let c := hands [(8, 0x20000), (9, 0x10000), (10, 64)]; let i := Instr.cpy noTime ⟨0, 0, 10, 9, 8, 7, 0, 0, 0⟩
    i.wf = true ∧ (∃ k, prepOf (on c) c i = some (.ok k)) ∧ Runs (on c) c (declared c i) ∧ queueFull (on c) c (engineOf i) = false :=
  ⟨by decide, ⟨_, rfl⟩, runs_on _ ⟨rfl, rfl⟩ _ (by decide), by decide⟩
theorem test_meets_delivery_dispatch : let c := hands [(8, syncAt 0)]; let i := Instr.dispatch noTime ⟨8, 9, 4, 0⟩
    let s := modLaunch (on c) 1 (fun l => { l with body := { l.body with nBuckets := 1 } })
    i.wf = true ∧ (∃ k, prepOf s c i = some (.ok k)) ∧ queueFull s c (engineOf i) = false ∧ s.cx = some c := ⟨by decide, ⟨_, rfl⟩, by decide, rfl⟩
theorem test_meets_no_delivery : let i := Instr.slrel noTime 4; let j := Instr.slrel ⟨0, 1, 0, 0, 0, 0, 6, 0⟩ 4
    let c := { unit with timed := true, segBase := some 0 }
    i.wf = true ∧ prepOf (on c) c i = some (.ok default) ∧ Runs (on c) c (declared c i) ∧ (∀ t f, i ≠ .dispatch t f) ∧ c.timed = true ∧ untimed i
    ∧ queueFull (core0 (fun k => { k with mq := List.replicate 32 (cmd i) })) unit (engineOf i) = true ∧ j.wf = true ∧ ¬ untimed j
    ∧ queueFull (on c) c (engineOf j) = false ∧ (timingOf j).isSome ∧ dueOf (on c) c j ≤ tickOf (on c) c + 6 ∧ keeps j = true
    ∧ keeps (.wid noTime 5) = false :=
  ⟨by decide, rfl, runs_on _ ⟨rfl, rfl⟩ _ (by decide), (fun _ _ h => by cases h), rfl, ⟨noTime, rfl, rfl⟩, by decide, by decide,
    (fun ⟨_, h, z⟩ => by cases h; exact absurd z (by decide)), by decide, rfl, by decide, rfl, rfl⟩
theorem test_meets_banister : let k := cmd (.slrel noTime 4); let s := core0 (fun x => { x with pending := [k] })
    (coreOf s 0).pending.find? (fun m => m.id == 5) = some k ∧ k.core = 0 ∧ (coreOf s 0).diverge = []
    ∧ (coreOf (modCore s 0 (fun x => { x with diverge := [2] })) 0).diverge = [2] ∧ unitOf s k.uid = some unit ∧ unit.uid = k.uid
    ∧ unit.region = none ∧ (launchOf s unit.launch).status = none := by decide
theorem test_meets_completion : let k := { cmd (.slrel ⟨0, 0, 0, 0, 0, 1, 0, 0⟩ 4) with start := some 0 }; let s := core0 (fun x => { x with mq := [k] })
    let f := modCore s 0 (fun x => { x with tokens := (pushFifos 0 k.ins).map (fun n => (n, List.replicate 8 0)) })
    running s 0 0 5 = some k ∧ 0 < 4 ∧ k.pushes = [] ∧ (∀ n ∈ pushFifos 0 k.ins, (fifo (coreOf s 0) n).length < 8)
    ∧ running f 0 0 5 = some k ∧ (∃ n ∈ pushFifos 0 k.ins, 8 ≤ (fifo (coreOf f 0) n).length) ∧ k.timed = false
    ∧ running (core0 (fun x => { x with mq := [{ k with timed := true }] })) 0 0 5 = some { k with timed := true } := by decide
theorem test_meets_vector_start : let v : VForm := ⟨0, 7, 6, 5, 0, 2, 0, 0, 0, 0⟩
    let k := { cmd (.vadd v) with names := [0x900, 0xA00, 0xB00, 0xC00], sample := [0] }; let s := core0 (fun x => { x with vq := [k] })
    queueNext s 0 1 = some (k, none) ∧ Machine.vform k.ins = some (1, 1, v) ∧ v.ty.toNat < 8 ∧ v.mode = 0 ∧ unitOf s k.uid = some unit ∧ unit.uid = k.uid
    ∧ k.core = 0 ∧ unit.core = 0 ∧ plainEntry unit v k := ⟨by decide, rfl, by decide, rfl, rfl, rfl, rfl, rfl, by unfold plainEntry; decide⟩
theorem test_meets_mmul_row : unitOf (on unit) unit.uid = some unit ∧ 8 ≤ 0x1000 ∧ Mem.wf [(0, 7)] = true
    ∧ (List.replicate 128 (1 : Byte)).length = 128 := ⟨by decide, by decide, by decide, List.length_replicate⟩
theorem test_meets_residency : let l : Load := ⟨7, 1, 0, 3, 2, 1, 0xB, 0, false, 0, 0, [1, 2], true⟩; let s := core0 (fun x => { x with loads := [l] })
    (coreOf s 0).loads.find? (fun x => x.id == 7 && x.live) = some l ∧ l.drain = false ∧ (coreOf s 0).alcPoison = [] := by decide

/-- A unit with a work list of one item, the given number of which it has taken. -/
def working (taken : Nat) : Ctx := { unit with work := ⟨[⟨3, 0, 128, 2, 9⟩], taken, 9, 128⟩ }
/-- Its command waits at the synchronisation engine of die 0. -/
def atSync (c : Ctx) (k : Cmd) : State := modDie (on c) 0 (fun d => { d with sync := [k] })
theorem test_meets_list_commands : let k := { cmd (.wlnext noTime 20 8) with names := [20, 21, 22, 23, 24], sample := [8] }
    let w := { cmd (.wid noTime 20) with names := [20, 21, 22, 23] }
    syncReady (atSync (working 0) k) 0 0 = some k ∧ unitOf (atSync (working 0) k) k.uid = some (working 0) ∧ k.names.all (fun n => n != 0)
    ∧ k.names.length = 5 ∧ (working 0).work.items[(working 0).work.taken]? = some ⟨3, 0, 128, 2, 9⟩
    ∧ syncReady (atSync (working 1) k) 0 0 = some k ∧ (working 1).work.items.length ≤ (working 1).work.taken
    ∧ syncReady (atSync (working 0) w) 0 0 = some w ∧ w.names.all (fun n => n != 0) ∧ w.names.length = 4 := by decide

/-- The command a waiting unit has at the engine. -/
def dispatching : Cmd :=
  { cmd (.dispatch noTime ⟨8, 9, 4, 0⟩) with names := [9, 10], start := some 0, sample := [0, 0, 0, 0] }
theorem test_meets_dispatch_release : let c := { unit with wait := .dispatch 9 }
    let s := { atSync c dispatching with teams := [(1, { (default : Team) with units := [1], dispatch := [1], plan := [(1, default)] })] }
    unitOf s 1 = some c ∧ c.wait = .dispatch 9 ∧ (teamOf s 1).plan = [(1, default)] ∧ (teamOf s 1).dispatch = [1]
    ∧ (dieOf s (c.core / 128)).sync = [dispatching] ∧ dispatching.uid = 1 ∧ dispatching.start.isSome ∧ dispatching.core = c.core
    ∧ dispatching.names.getD 0 0 ≠ 0 ∧ dispatching.names.getD 1 0 ≠ 0 ∧ dispatching.names.getD 0 0 ≠ dispatching.names.getD 1 0 := by decide
theorem planClaim_of_no_items (s : State) (vd base : Nat) (b : Bucket) (counts : List Nat) (u : Nat) (c : Ctx) (h : planItems [b] counts = [])
    (hu : unitOf s u = some c) : planClaim s vd base [b] counts [u] 1 = some (1, planLists [b] counts [u] base, [], s) := by
  simp [planClaim, planLists, planOrder, h, planGranules, hu, claimAll]
theorem dispatchCmd_of_one (s : State) (team : Nat) (c : Ctx) (k : Cmd) (h : (teamOf s team).dispatch.filterMap (unitOf s) = [c])
    (hk : (dieOf s (dieOfCore c.core)).sync.find? (fun (k : Cmd) => k.uid == c.uid && k.start.isSome
      && (match k.ins with | .dispatch _ _ => true | _ => false)) = some k) : dispatchCmd s team = some (c, k) := by
  unfold dispatchCmd
  simp only [h, List.mergeSort_singleton, List.head?_cons, Option.bind_some]
  exact congrArg (Option.map (fun k => (c, k))) hk
theorem test_meets_dispatch_claim : let c := { unit with wait := .dispatch 9 }
    let s := { atSync c dispatching with teams := [(1, { (default : Team) with launch := 1, units := [1], dispatch := [1] })] }
    allDispatched s 1 = true ∧ (teamOf s 1).planned = false ∧ dispatchCmd s 1 = some (c, dispatching) ∧ dispatching.sample ≠ []
    ∧ planClaim s c.vd 0 ((recOf s c).buckets.take (recOf s c).nBuckets) dispatching.sample [1] 0 = none
    ∧ ∃ r, planClaim s c.vd 0 [⟨128, 9, 0, 0⟩] [0, 0, 0, 0] [1] 1 = some r := by
  refine ⟨by decide, by decide, ?_, by decide, by decide, ?_⟩
  · exact dispatchCmd_of_one _ _ _ _ (by decide) (by decide)
  · exact ⟨_, planClaim_of_no_items _ _ _ _ _ _ _ (by decide) (show unitOf _ 1 = some { unit with wait := .dispatch 9 } from rfl)⟩


/-! ## The step, decode checks, stops -/

/-- The machine in which ADD s5, s6, s7 is fetched next. -/
def fetching : State := State.reset.withFetchWord 32 0x00718504
theorem test_meets_step : SequencerTurn fetching 0 codeUnit ∧ codeUnit.pc.toNat % 4 = 0
    ∧ ((coreOf fetching codeUnit.core).comparators.contains codeUnit.pc.toNat = true → codeUnit.bpPast = true)
    ∧ pageSwitches fetching codeUnit (blockOf codeUnit) = false ∧ check fetching codeUnit (blockOf codeUnit) 32 .none = .ok codePlace
    ∧ tget (coreOf fetching codeUnit.core).fetched (blockKey codePlace) = none ∧ (coreOf fetching codeUnit.core).diverge = [] :=
  ⟨⟨rfl, rfl, rfl, rfl, rfl, rfl⟩, by decide, (fun h => by cases h), by decide, by decide, by decide, by decide⟩
theorem test_meets_step_decode : let bytes := (readNow fetching codePlace 32).drop (codeUnit.pc.toNat % 32)
    let s₁ := modCore fetching codeUnit.core (fun k => { k with fetched := tset k.fetched (blockKey codePlace) (readNow fetching codePlace 32, true) })
    let c' := { codeUnit with busy := codeUnit.busy.filter (fun b => tickOf fetching codeUnit < b.2), segBase := some (codeUnit.segBase.getD (tickOf fetching codeUnit)) }
    decodeBytes bytes = .ok (.add 5 6 7) ∧ (wordsOfBytes bytes).head? = some 0x00718504 ∧ codeUnit.pc.toNat % alignOf 0x00718504 = 0
    ∧ interlocked s₁ codeUnit (.add 5 6 7) = false ∧ accessStalls s₁ codeUnit (.add 5 6 7) = false ∧ flaggedWords s₁ codeUnit (.add 5 6 7) = []
    ∧ scalarShadow { s₁ with cx := some c' } c' (.add 5 6 7) = none :=
  ⟨rfl, by decide, by decide, by decide, by decide, by decide, by decide⟩
theorem test_meets_roundtrip : (Instr.add 5 6 7).wf = true ∧ (Instr.vgetl ⟨0, 7, 6, 5, 0, 14, 0, 0, 0, 0⟩).wf = true ∧ (Instr.cpy noTime ⟨4, 11, 10, 9, 8, 7, 1, 0, 0x9AB⟩).wf = true := by decide
theorem test_meets_sound : ∃ t, fetching.sound ∧ step fetching = .next t := by
  refine ⟨_, ?_, rfl⟩
  unfold State.sound State.memOk State.keyed
  decide
theorem test_meets_decode_checks : let i := Instr.mul 5 6 7; let c := { unit with useMask := 1 }; let d := { unit with capMask := 1 }
    (on unit).cx = some unit ∧ (launchOf (on unit) unit.launch).status = none ∧ i.wf = true ∧ ¬ writesHandlerName c i
    ∧ (declared c i).find? (fun b => !c.useMask.getLsbD b) = some 1 ∧ (∀ x ∈ declared d i, d.useMask.getLsbD x = true)
    ∧ (declared d i).find? (fun b => !d.capMask.getLsbD b) = some 1 := ⟨rfl, rfl, by decide, fun h => h, by decide, by decide, by decide⟩

/-- The machine at a tick. -/
def at_ (t : Nat) (s : State) : State := { s with clock := { s.clock with ticks := List.replicate 8 t } }
theorem test_meets_stop : let c := { unit with sliceEnd := some 0 }; let s := at_ (2 ^ 16) (on c)
    unitOf s 1 = some c ∧ c.uid = 1 ∧ ¬ Stopped c ∧ c.sliceEnd = some 0 ∧ 0 + 2 ^ 16 = tickOf s c := ⟨rfl, rfl, fun h => h, rfl, by decide⟩
theorem test_meets_save : let c := { unit with wait := .saving }
    let s := { on c with units := [(2, { mate with wait := .saved })], teams := [(1, { (default : Team) with units := [1, 2], state := 2 })] }
    s.keyed ∧ unitOf s 1 = some c ∧ c.wait = .saving ∧ (teamOf s c.team).state = 2
    ∧ (∀ n ∈ (teamOf s c.team).units, n ≠ 1 → n = 2) ∧ unitOf s 2 = some { mate with wait := .saved } :=
  ⟨by unfold State.keyed; decide, rfl, rfl, rfl, by decide, rfl⟩
theorem test_meets_slice : let s := at_ (2 ^ 16) (modVd (on unit) 1 (fun v => { v with sliceAt := some 0, limits := (16, 3, 256, 1024) }))
    (vdOf s 1).state = 2 ∧ (vdOf s 1).sliceAt = some 0 ∧ 0 + 2 ^ (vdOf s 1).limits.1 = now s 0 := by decide
theorem test_meets_budget : let s := at_ 1 (on unit)
    unitOf s 1 = some unit ∧ unit.wait ≠ .done ∧ (∀ k, unit.wait ≠ .frozen k) ∧ tickOf s unit = unit.budgetStart + unit.budget + 1
    ∧ holds (teamOf s unit.team) = true ∧ (launchOf s unit.launch).status = none := ⟨rfl, by decide, (fun _ h => by cases h), by decide, by decide, rfl⟩
theorem test_meets_breakpoint : (on unit).cx = some unit ∧ unit.core = 0 ∧ ((vdOf (on unit) unit.vd).state = 1 ∨ (vdOf (on unit) unit.vd).state = 2)
    ∧ (vdOf (on unit) unit.vd).busy = false ∧ (vdOf (modVd (on unit) 1 (fun v => { v with busy := true })) unit.vd).busy = true := by decide
theorem test_meets_counted_load : let c := { unit with loads := [(9, (5, 7))] }
    unitOf (on c) 1 = some c ∧ tget c.loads 9 = some (5, 7) := by decide

/-! ## Copies and packets -/

/-- A copy of two words from the page at 0x20000 to the page of code, as its engine holds it. -/
def copyCmd : Cmd := { cmd (.cpy noTime ⟨0, 0, 10, 9, 8, 7, 0, 0, 0⟩) with vals := [0x10000, 0x20000, 64, 0], live := 2 }
def atEngine (f : CopyEng → CopyEng) : State := modEng (on unit) 0 f
theorem test_meets_copy_start : let s := atEngine (fun e => { e with buffer := [copyCmd] }); let z := { copyCmd with live := 0 }
    (engOf s 0).buffer.find? (fun k => k.id == 5) = some copyCmd ∧ issuer s 0 copyCmd = some unit ∧ copyCmd.uid ≠ 0 ∧ runs s 0 5 = none
    ∧ copyChecks s unit copyCmd = .ok () ∧ copyCmd.live ≠ 0 ∧ (∀ side ∈ [0, 1], remoteSide copyCmd side = false)
    ∧ meetSide s unit copyCmd 0 0 = .good codePlace ∧ meetSide s unit copyCmd 1 0 = .good pagePlace
    ∧ copyChecks (atEngine (fun e => { e with buffer := [z] })) unit z = .ok () ∧ z.live = 0
    ∧ (∃ e, copyChecks s unit { copyCmd with vals := [0x40000, 0x20000, 64, 0] } = .error e) :=
  ⟨by decide, by decide, by decide, by decide, by decide, by decide, by decide, by decide, by decide, by decide, rfl, ⟨_, rfl⟩⟩
theorem test_meets_copy_word : let k := { copyCmd with live := 1, bytes := List.replicate 32 7, acc := [161, 128, 0] }
    let s := atEngine (fun e => { e with mainPath := some k }); let g := modRent s codeRef (fun r => { r with state := 3 })
    runs s 0 5 = some k ∧ issuer s 0 k = some unit ∧ k.live = 0 + 1 ∧ groupOf k ≠ 0 ∧ k.bytes.length = 32 ∧ k.names = [] ∧ k.streams = []
    ∧ k.vals.getD 3 0 = 0 ∧ padOf s unit (copyAddr k 0 0) = none ∧ meetSide s unit k 0 0 = .good codePlace ∧ codePlace.host = false
    ∧ noWords s 1 0 32 ∧ meetSide g unit k 0 0 = .cut 1 1 codePlace ∧ lessorOf g unit codePlace 1 = none ∧ (rentOf (modRent g unit.priv (fun r => { r with state := 2 })) unit.priv).state ≠ 1
    ∧ unitOf g k.uid = some unit :=
  ⟨by decide, by decide, rfl, by decide, by decide, rfl, rfl, rfl, by decide, by decide, rfl, (fun _ h => by cases h), by decide, rfl, by decide, rfl⟩
theorem test_meets_cxl : let k := { copyCmd with start := some 0 }; let s := atEngine (fun e => { e with mainPath := some k })
    engineWith s 5 = some (0, k) ∧ runs s 0 5 = some k ∧ k.landed ≤ 1 ∧ 1 < k.live := by decide
theorem test_meets_packet : let k := { copyCmd with start := some 0 }; let p : Packet := { (default : Packet) with id := 9, cmd := 5, tries := 14 }
    let s := atEngine (fun e => { e with mainPath := some k })
    let f := fun n => { s with links := { s.links with packets := [{ p with tries := n }] } }
    (f 14).links.packets.find? (fun p => p.id == 9) = some p ∧ engineWith (f 14) p.cmd = some (0, k) ∧ p.tries < 15
    ∧ (f 15).links.packets.find? (fun p => p.id == 9) = some { p with tries := 15 } ∧ engineWith (f 15) 5 = some (0, k) := by decide
theorem test_meets_packet_receive : let s := on unit; let m : Mapping := ⟨0x20000, 1, refOf 0 2 3, false, 0, false⟩
    s.links.seenSeq.contains 4 = false ∧ globalMap (vdOf s 1) 0x20000 = some m ∧ m.host = false ∧ inSwitch s (refPlace s m.ref 0 0 0) = false
    ∧ (rentOf s m.ref).state = 1 ∧ hostOwns s 1 0x20000 = false ∧ noWords s (rentOf s m.ref).space (0x20000 - m.first) 32
    ∧ (rentOf (modRent s m.ref (fun r => { r with state := 2 })) m.ref).state ≠ 1 ∧ 0 < s.links.ethUp.length :=
  ⟨by decide, by decide, rfl, by decide, by decide, by decide, (fun _ h => by cases h), by decide, by decide⟩


/-! ## Queues and pages -/

/-- The device has registers of queue 0, and a record of one work item stands in its first slot. -/
def queued (r : Queue) : State :=
  { modVd (on unit) 1 (fun v => { v with queues := [(0, r)], codes := [(0, ⟨0, 0x10000, 64, true⟩)] }) with
    kicks := [64], window := [(0x101028, 0xFF), (0x101030, 1), (0x101048, 1), (0x101050, 1)] }
theorem test_meets_queue_writes : Guest (queued Queue.reset) 1 ∧ (32 + 2 ^ 32 - (reg (queued Queue.reset) 1 0).sqHead.toNat) % 2 ^ 32 ≤ 32
    ∧ 32 < (33 + 2 ^ 32 - (reg (queued Queue.reset) 1 0).sqHead.toNat) % 2 ^ 32 ∧ queueWrite 1 0 (.kick 1 0)
    ∧ (vdOf (modVd (queued Queue.reset) 1 (fun v => { v with state := 3 })) 1).state = 3
    ∧ newelUp (modVd (queued Queue.reset) 1 (fun v => { v with state := 3 })) = true
    ∧ (reg (queued { Queue.reset with drain := true }) 1 0).drain = true :=
  ⟨by unfold Guest; decide, by decide, by decide, .inr (.inl rfl), by decide, by decide, by decide⟩
theorem test_meets_kicks : let on_ := { Queue.reset with enable := true }; let one := { on_ with sqTail := 1 }; let bad := { queued one with window := [] }
    NewelActs (queued one) ∧ 1 * 64 + 0 ∈ (queued one).kicks ∧ (vdOf (queued one) 1).state ≠ 3 ∧ (reg (queued Queue.reset) 1 0).enable = false
    ∧ (reg (queued on_) 1 0).enable = true ∧ (reg (queued on_) 1 0).drain = false ∧ (reg (queued on_) 1 0).sqTail = (reg (queued on_) 1 0).sqHead
    ∧ (reg (queued { on_ with drain := true }) 1 0).drain = true ∧ (reg (queued one) 1 0).sqTail = (reg (queued one) 1 0).sqHead + 1
    ∧ journalRoom (retire (queued one)) = true ∧ recordOk (queued one) 1 (recordBytes (queued one) 1 0 0) = true
    ∧ recordOk bad 1 (recordBytes bad 1 0 0) = false :=
  ⟨by unfold NewelActs; decide, by decide, by decide, by decide, by decide, by decide, by decide, by decide, by decide, by decide, by decide, by decide⟩
theorem test_meets_completions : let s := modVd (queued { Queue.reset with cqTail := 127 }) 1 (fun v => { v with withheld := [⟨0, 0, 0, 0, 9, 1, 0, 0⟩] })
    let w := at_ (2 ^ 12) (queued { Queue.reset with since := 1 })
    NewelActs s ∧ (vdOf s 1).state = 2 ∧ (vdOf s 1).withheld = [⟨0, 0, 0, 0, 9, 1, 0, 0⟩] ∧ ((reg s 1 0).cqTail - (reg s 1 0).cqHead).toNat < 128
    ∧ (reg s 1 0).coalesce = 0 ∧ (reg s 1 0).irqEn = false ∧ (reg w 1 0).since ≠ 0 ∧ (reg w 1 0).moved + 2 ^ 12 = now w 0 :=
  ⟨by unfold NewelActs; decide, by decide, by decide, by decide, by decide, by decide, by decide, by decide⟩

/-- The host owns a page of the device. -/
def hosted (a : Nat) : State := modVd (on unit) 1 (fun v => { v with hostOwned := [a / 65536] })
theorem test_meets_page_release : let c := { unit with wait := .parked 2 }; let s := { hosted 0x20000 with cx := some c }
    Guest s 1 ∧ 0x20000 % 65536 = 0 ∧ globalMap (vdOf s 1) 0x40000 = none ∧ globalMap (vdOf s 1) 0x20000 = some ⟨0x20000, 1, refOf 0 2 3, false, 0, false⟩
    ∧ hostOwns s 1 0x20000 = true ∧ s.keyed ∧ unitOf s 1 = some c ∧ c.vd = 1 ∧ c.wait = .parked (0x20000 / 65536) :=
  ⟨by unfold Guest; decide, by decide, by decide, by decide, by decide, by unfold State.keyed; decide, rfl, rfl, rfl⟩
theorem test_meets_page_claim : let m : Mapping := ⟨0x30000, 1, refOf 0 3 0, false, 0, false⟩; let g := modVd (on unit) 1 (fun v => { v with claim := some 0x30000 })
    let k := { copyCmd with vals := [0x30000, 0x20000, 64, 0], start := some 0 }
    Guest (on unit) 1 ∧ 0x30000 % 65536 = 0 ∧ (vdOf (on unit) 1).claim = none ∧ globalMap (vdOf (on unit) 1) 0x30000 = some m
    ∧ ¬ (m.host = false ∧ (rentOf (on unit) m.ref).tier = 2) ∧ hostOwns (on unit) 1 0x30000 = false ∧ hostOwns (hosted 0x30000) 1 0x30000 = true
    ∧ (vdOf g 1).claim = some 0x30000 ∧ claimReady { g with launches := [] } 1 0x30000 = true
    ∧ claimReady (modEng { g with launches := [] } 0 (fun e => { e with mainPath := some k })) 1 0x30000 = false :=
  ⟨by unfold Guest; decide, by decide, by decide, by decide, by decide, by decide, by decide, by decide, by decide, by decide⟩
theorem test_meets_host_access : let m : Mapping := ⟨0x20000, 1, refOf 0 2 3, false, 0, false⟩
    globalMap (vdOf (hosted 0x20000) 1) 0x20000 = some m ∧ m.host = false ∧ hostOwns (hosted 0x20000) 1 0x20000 = true ∧ hostOwns (on unit) 1 0x20000 = false := by decide
theorem test_meets_extents : let s := { on unit with links := { (on unit).links with extents := [(7, [(32, 64)])] } }
    7 < 8 ∧ 32 ≠ 0 ∧ 32 % 32 = 0 ∧ 33 % 32 ≠ 0 ∧ (32, 64) ∈ (tget s.links.extents 7).getD [] ∧ (32, 65) ∉ (tget s.links.extents 7).getD []
    ∧ (((poolRegions s 4 7).filter (fun e => e.2.state != 3)).map (fun e => e.2.size)).sum + 64 ≤ capacity s 4 7
    ∧ Guest s 1 ∧ (vdOf s 1).prHeld = [] :=
  ⟨by decide, by decide, by decide, by decide, by decide, by decide, by decide, by unfold Guest; decide, by decide⟩


/-! ## Virtual devices -/

/-- The machine with device vd changed, and the registers of its control block addressed. -/
def addressing (vd : Nat) (f : VDev → VDev) (off : Nat := 0) (val : Word := 0) : State :=
  let s := modVd (on unit) vd f
  { s with port := { s.port with off := 0x280000 + vd * 0x1000 + off, val := val } }
/-- A device of state 1, READY. -/
def ready (f : VDev → VDev := id) : State := addressing 1 (fun v => f { v with state := 1 })

theorem starts_of (i : Instr) (s : State) (vd n : Nat) (may : VDev → Bool) (hc : commandOf i = some (n, may)) (ha : Addressed s vd)
    (ht : takingOver s = false) (hb : (vdOf s vd).busy = false) (hm : may (vdOf s vd) = true) : Starts i s vd := ⟨ha, ht, hb, n, may, hc, hm⟩
/-- The device's registers are addressed. -/
def Addressed_dec (s : State) (vd : Nat) : Bool :=
  decide (0x280000 ≤ s.port.off) && (s.port.off - 0x280000) / 0x1000 == vd && decide (vd < 64) && newelUp s
theorem addressed_of (s : State) (vd : Nat) (h : Addressed_dec s vd = true) : Addressed s vd := by
  simp only [Addressed_dec, Bool.and_eq_true, decide_eq_true_eq, beq_iff_eq] at h
  exact ⟨h.1.1.1, h.1.1.2, h.1.2, h.2⟩

theorem test_meets_commands : Addressed (ready (fun v => { v with busy := true })) 1 ∧ (vdOf (ready (fun v => { v with busy := true })) 1).busy = true
    ∧ ∃ may, commandOf .createVd = some (1, may) ∧ (vdOf (ready) 1).busy = false ∧ may (vdOf (ready) 1) = false :=
  ⟨addressed_of _ _ (by decide), by decide, _, rfl, by decide, by decide⟩
theorem test_meets_create_import : Starts .createVd (addressing 2 id) 2 ∧ Starts .importVd (addressing 2 id) 2
    ∧ Starts .createVd (addressing 2 (fun v => { v with floors := [(8, 10 ^ 6)] })) 2
    ∧ floorsFit (addressing 2 (fun v => { v with floors := [(8, 10 ^ 6)] })) 2 = false :=
  ⟨starts_of _ _ _ _ _ rfl (addressed_of _ _ (by decide)) (by decide) (by decide) (by decide),
   starts_of _ _ _ _ _ rfl (addressed_of _ _ (by decide)) (by decide) (by decide) (by decide),
   starts_of _ _ _ _ _ rfl (addressed_of _ _ (by decide)) (by decide) (by decide) (by decide), by decide +kernel⟩
theorem test_meets_floors_fit : floorsFit (addressing 2 id) 2 = true := by decide +kernel
theorem test_meets_destroy : Starts .destroyVd (ready) 1 ∧ NoCopyRuns (ready) :=
  ⟨starts_of _ _ _ _ _ rfl (addressed_of _ _ (by decide)) (by decide) (by decide) (by decide), by unfold NoCopyRuns; decide⟩
theorem test_meets_grent_load : let s := ready (fun v => { v with arg0 := 0x103, arg1 := 1000 }); let z := ready (fun v => { v with arg0 := 0 })
    let l := ready (fun v => { v with arg0 := 0, arg1 := 0x20000, arg2 := 32 })
    Starts .grent s 1 ∧ ¬ ((0x103 : Nat) % 16 < 2 ∨ 4 < 0x103 % 16 ∨ 0x103 / 128 % 2 ≠ 0 ∨ 0x103 / 256 = 0 ∨ 2 ^ 24 < 0x103 / 256)
    ∧ Starts .grent z 1 ∧ (vdOf z 1).arg0.toNat % 16 < 2 ∧ Starts .loadVd l 1 ∧ paidRange l 1 0x20000 32 = true
    ∧ paidRange l 1 0x40000 32 = false ∧ (vdOf (modVd l 1 (fun v => { v with cmd := 11 })) 1).cmd = 11 :=
  ⟨starts_of _ _ _ _ _ rfl (addressed_of _ _ (by decide)) (by decide) (by decide) (by decide), by decide,
   starts_of _ _ _ _ _ rfl (addressed_of _ _ (by decide)) (by decide) (by decide) (by decide), by decide,
   starts_of _ _ _ _ _ rfl (addressed_of _ _ (by decide)) (by decide) (by decide) (by decide), by decide, by decide, by decide⟩
theorem test_meets_grelease_grenew : let s := modRent (ready (fun v => { v with arg0 := 0x10000000, arg1 := 1000 })) codeRef (fun r => { r with paid := 1000 })
    let z := ready (fun v => { v with arg0 := 0x1000001F })
    Starts .grelease s 1 ∧ regionOf s 0x10000000 = some codeRef ∧ isGlobal s 1 codeRef = true ∧ (rentOf s codeRef).owner = 1 * 65536
    ∧ (subletsOf s codeRef).isEmpty = true ∧ rentRate (rentOf s codeRef) * 1000 + (rentOf s codeRef).escrow < 2 ^ 64
    ∧ (∀ w ∈ s.words, w.2.1 + 16 ≤ 2 ^ 41) ∧ Starts .grenew s 1 ∧ (rentOf s codeRef).sub = false ∧ regionOf z 0x1000001F = none :=
  ⟨starts_of _ _ _ _ _ rfl (addressed_of _ _ (by decide)) (by decide) (by decide) (by decide), by decide, by decide, by decide, by decide, by decide, by decide,
   starts_of _ _ _ _ _ rfl (addressed_of _ _ (by decide)) (by decide) (by decide) (by decide), by decide, by decide⟩
theorem test_meets_code : let s := ready (fun v => { v with arg0 := 0x10000, arg1 := 4, codes := [(0, ⟨0, 0x10000, 64, true⟩)] })
    let f := modVd s 1 (fun v => { v with arg0 := 0 })
    Starts .codereg s 1 ∧ (∃ m, globalMap (vdOf s 1) 0x10000 = some m ∧ m.host = false ∧ isGlobal s 1 m.ref = true ∧ (rentOf s m.ref).tier ≤ 3
      ∧ 0x10000 + 4 ≤ m.first + m.pages * 65536) ∧ (∀ e ∈ (vdOf s 1).codes, e.2.gen < 2 ^ 16)
    ∧ Starts .codefree f 1 ∧ codeOf (vdOf f 1) 0 ≠ none ∧ (∃ l ∈ f.launches, l.2.vd = 1 ∧ l.2.body.codeHandle = 0)
    ∧ codeOf (vdOf f 1) 1 = none :=
  ⟨starts_of _ _ _ _ _ rfl (addressed_of _ _ (by decide)) (by decide) (by decide) (by decide), ⟨⟨0x10000, 1, codeRef, false, 0, false⟩, by decide⟩, by decide,
   starts_of _ _ _ _ _ rfl (addressed_of _ _ (by decide)) (by decide) (by decide) (by decide), by decide, by decide, by decide⟩
theorem test_meets_parameters : Addressed (addressing 1 id 0x018 30) 1 ∧ (addressing 1 id 0x018 30).port.off % 0x1000 = 0x018
    ∧ (addressing 1 id 0x018 30).port.val.toNat ≤ 30 ∧ Addressed (addressing 1 id 0x1F8 7) 1 ∧ (addressing 1 id 0x1F8 7).port.off % 0x1000 = 0x100 + 8 * 31 :=
  ⟨addressed_of _ _ (by decide), by decide, by decide, addressed_of _ _ (by decide), by decide⟩
theorem test_meets_migration : let f := ready (fun v => { v with busy := true, cmd := 5 }); let g := { f with units := [], cx := none }
    let t := ready (fun v => { v with tracking := true }); let z := addressing 1 (fun v => { v with state := 3, tracking := true })
    Starts .freeze (ready) 1 ∧ Starts .exportVd (ready) 1 ∧ Starts .roundVd t 1 ∧ Starts .finalVd z 1 ∧ Starts .thaw z 1
    ∧ (vdOf f 1).busy = true ∧ (vdOf f 1).cmd = 5 ∧ freezeDone f 1 = false ∧ freezeDone g 1 = true
    ∧ (vdOf (ready (fun v => { v with busy := true, cmd := 6 })) 1).cmd = 6 :=
  ⟨starts_of _ _ _ _ _ rfl (addressed_of _ _ (by decide)) (by decide) (by decide) (by decide), starts_of _ _ _ _ _ rfl (addressed_of _ _ (by decide)) (by decide) (by decide) (by decide),
   starts_of _ _ _ _ _ rfl (addressed_of _ _ (by decide)) (by decide) (by decide) (by decide), starts_of _ _ _ _ _ rfl (addressed_of _ _ (by decide)) (by decide) (by decide) (by decide),
   starts_of _ _ _ _ _ rfl (addressed_of _ _ (by decide)) (by decide) (by decide) (by decide), by decide, by decide, by decide, by decide, by decide⟩
theorem test_meets_incoming : let s := { addressing 1 (fun v => { v with state := 4, received := true }) with incoming := [(1, default)] }
    (vdOf s 1).state = 4 ∧ tget s.incoming 1 = some default ∧ Starts .activate s 1 ∧ (vdOf (on unit) 1).state ≠ 4 :=
  ⟨by decide, rfl, starts_of _ _ _ _ _ rfl (addressed_of _ _ (by decide)) (by decide) (by decide) (by decide), by decide⟩


/-! ## The newel, boot, power and recovery -/

/-- A launch of one work item that is staged, its code in the page of code, and a team of its size that waits. -/
def waiting (size : Nat) (f : Team → Team := id) : State :=
  { State.reset with
    boot := { State.reset.boot with done := true }
    vds := [(1, { VDev.reset with state := 1, allowance := 2 ^ 60, codes := [(0, ⟨0, 0x10000, 64, true⟩)] })]
    teams := [(2, f { (default : Team) with launch := 2, size := size })]
    launches := [(2, { (default : Launch) with
      vd := 1, stage := 1, staged := true, unitsLeft := size
      body := { (default : LaunchRec) with budget := 1, grantTicks := 1000, privPages := 1, useMask := 1 } })]
    nextId := 10, nextSpace := 10 }
theorem test_meets_issue : let s := waiting 0
    s.keyed ∧ (teamOf s 2).state = 0 ∧ (teamOf s 2).launch ≠ 0 ∧ takingOver s = false ∧ waitsForCores s 2 = true
    ∧ placeTeam s 2 = some [] ∧ (issueTeam s 2 []).isSome :=
  ⟨by unfold State.keyed; decide, by decide, by decide, by decide, by decide +kernel, by decide +kernel, by decide +kernel⟩
theorem test_meets_restore : let s := waiting 0 (fun m => { m with state := 3 })
    (teamOf s 2).state = 3 ∧ takingOver s = false ∧ waitsForCores s 2 = true ∧ placeTeam s 2 = some [] ∧ (restoreTeam s 2 []).isSome :=
  ⟨by decide, by decide, by decide +kernel, by decide +kernel, by decide +kernel⟩
theorem test_meets_restored : let c := { mate with team := 2, wait := .saved }
    let s := { waiting 1 (fun m => { m with state := 5, units := [2] }) with units := [(2, c)] }
    s.keyed ∧ (teamOf s 2).state = 5 ∧ beingFrozen s (teamVd s 2) = false ∧ 2 ∈ (teamOf s 2).units ∧ unitOf s 2 = some c ∧ c.uid = 2 ∧ c.wait = .saved :=
  ⟨by unfold State.keyed; decide, by decide, by decide, by decide, rfl, rfl, rfl⟩

/-- Launch 2 in a given form, no team of it running. -/
def staging (f : Launch → Launch) : State := modLaunch (waiting 1) 2 f
theorem test_meets_staging : let s := staging (fun l => { l with staged := false, stagings := [(0x40000, 0x20000, 64)] })
    let e := fun i => staging (fun l => { l with stagedAt := 1, info := i }); let a := at_ (2 ^ 26) (waiting 1 (fun m => { m with waitStart := some 0 }))
    (launchOf s 2).stage = 1 ∧ (launchOf s 2).staged = false ∧ (launchOf s 2).stagedAt = 0 ∧ (launchOf s 2).status = none ∧ depsMet s (launchOf s 2) = true
    ∧ (∀ i < 3, (launchOf (e i) 2).stagedAt = 1 ∧ (launchOf (e i) 2).status = none ∧ (launchOf (e i) 2).info = i)
    ∧ (teamOf a 2).waitStart = some 0 ∧ 0 + 2 ^ 26 = now a 0 ∧ (teamOf a 2).state = 0 := by decide
/-- A launch that has ended by a fault, one of whose units has a store on its way if pending. -/
def faulted (pending : Bool) : State :=
  let s := on unit
  { s with
    cx := none, units := [(1, unit), (2, mate)], launches := [(1, { (default : Launch) with vd := 1, stage := 1, status := some 1 })]
    boot := { s.boot with done := true }
    agenda := if pending then [⟨0, 1, 1, 1, 0, .eff (.store 1 0 [1] []), false⟩] else [] }
theorem test_meets_launch_end : let l := launchOf (staging (fun l => { l with status := some 0 })) 2; let s := staging (fun l => { l with status := some 0 })
    let t := { s with newel := { s.newel with pair := 2 } }; let f := staging (fun l => { l with status := some 1 })
    tget s.launches 2 = some l ∧ l.status = some 0 ∧ NewelActs s ∧ NoCopyRuns s ∧ takingOver t = true ∧ 2 ∉ t.newel.endReports
    ∧ t.newel.endReports.length < 4096 ∧ (launchOf f 2).status = some 1 :=
  ⟨by decide, by decide, by unfold NewelActs; decide, by unfold NoCopyRuns; decide, by decide, by decide, by decide, by decide⟩
theorem test_meets_fault_end : NewelActs (faulted false) ∧ NoCopyRuns (faulted false) ∧ (launchOf (faulted true) 1).stage = 1
    ∧ (launchOf (faulted true) 1).status = some 1 ∧ launchUnits (faulted true) 1 = [1, 2] ∧ (∀ uid ∈ launchUnits (faulted false) 1, settled (faulted false) uid = true)
    ∧ settled (faulted true) 1 = false ∧ NewelActs (faulted true) :=
  ⟨by unfold NewelActs; decide, by unfold NoCopyRuns; decide, by decide, by decide, by decide, by decide, by decide, by unfold NewelActs; decide⟩
theorem test_meets_newel : let s := waiting 1; let p := fun n r => { s with newel := { s.newel with pair := n, standbyOk := r, resumeAt := 0 } }
    NewelActs s ∧ s.boot.done = true ∧ takingOver (p 3 false) = true ∧ (p 0 true).newel.pair = 0 ∧ (p 0 true).newel.standbyOk = true
    ∧ (p 2 false).newel.resumeAt = now (p 2 false) 0 ∧ (p 2 false).newel.pair = 2 ∧ (p 4 false).newel.pair = 4 ∧ (p 0 false).newel.standbyOk = false :=
  ⟨by unfold NewelActs; decide, by decide, by decide, by decide, by decide, by decide, by decide, by decide, by decide⟩

/-- An image that verifies, and one for each check it fails. -/
def image (e l f : Bool) (v : Nat) : Image := ⟨[], e, l, v, f⟩
/-- The module with eight images, image 2 as given. -/
def imagesWith (m : Image) : State :=
  { State.reset with boot := { State.reset.boot with images := [image true true true 1, image true true true 1, m], fuses := [1, 1, 1] } }
theorem test_meets_boot_fails : let s := imagesWith (image true true true 0)
    s.boot.images[2]? = some (image true true true 0) ∧ ¬ Verifies (image true true true 0) (nth s.boot.fuses 2)
    ∧ (∀ j x, j < 2 → s.boot.images[j]? = some x → Verifies x (nth s.boot.fuses j)) := by
  refine ⟨by decide, fun h => absurd h.2.2.1 (by decide), fun j x hj hx => ?_⟩
  have h : x = image true true true 1 ∧ nth (imagesWith (image true true true 0)).boot.fuses j = 1 := by
    rcases j with _ | _ | j
    · exact ⟨(Option.some.inj hx).symm, rfl⟩
    · exact ⟨(Option.some.inj hx).symm, rfl⟩
    · omega
  rw [h.1, h.2]
  exact ⟨rfl, rfl, Nat.le_refl 1, rfl⟩
theorem test_meets_boot : let s := imagesWith (image true true true 1)
    ∀ m ∈ s.boot.images, Verifies m 1 := by
  intro s m h
  have : m = image true true true 1 := by simpa [s, imagesWith] using h
  rw [this]
  exact ⟨rfl, rfl, Nat.le_refl 1, rfl⟩
theorem test_meets_requests : let s := { waiting 1 with links := { (waiting 1).links with hostUp := true } }
    let f := fun x => { s with boot := { s.boot with spdm := x } }
    Answers s ∧ (∃ may, needs .challenge = some may ∧ may s.boot.spdm = false)
    ∧ (f { s.boot.spdm with version := true }).boot.spdm.version = true ∧ (f { s.boot.spdm with caps := true }).boot.spdm.caps = true
    ∧ (f { s.boot.spdm with algs := true, lmsIndex := 2 ^ 20 - 1 }).boot.spdm.algs = true
    ∧ (f { s.boot.spdm with algs := true, lmsIndex := 2 ^ 20 - 1 }).boot.spdm.lmsIndex < 2 ^ 20
    ∧ 2 ^ 20 ≤ (f { s.boot.spdm with algs := true, lmsIndex := 2 ^ 20 }).boot.spdm.lmsIndex ∧ Answers (f { s.boot.spdm with algs := true }) :=
  ⟨⟨by decide, by decide⟩, ⟨_, rfl, by decide⟩, by decide, by decide, by decide, by decide, by decide, ⟨by decide, by decide⟩⟩
theorem test_meets_domains : let s := { State.reset with port := { State.reset.port with val := 0x03000000 } }
    let b := { on unit with port := { State.reset.port with val := 0x03000000 } }
    ((List.range 8).any (fun d => domChanges s.clock.dom (s.port.val.extractLsb' 24 8 ||| 1) d && dieBusy s d)) = false ∧ s.clock.ticks.length = 8
    ∧ ((List.range 8).any (fun d => domChanges b.clock.dom (b.port.val.extractLsb' 24 8 ||| 1) d && dieBusy b d)) = true
    ∧ (0x3E7 : Word).toNat % 65536 < 1000 ∧ 1000 ≤ (0x3E8 : Word).toNat % 65536 := by decide
theorem test_meets_power : let s := { State.reset with clock := { State.reset.clock with alarm := false, ratios := List.replicate 8 48, powerLimit := 1000 } }
    s.ratiosOk ∧ s.clock.alarm = false ∧ (∀ d < 8, domLow s.clock.dom d = d → nth s.clock.ratios d = 48) := ⟨by unfold State.ratiosOk; decide, by decide, by decide⟩
theorem test_meets_register_writes : let s := { on unit with links := { (on unit).links with hostUp := true } }
    let p := fun o v => { s with port := { s.port with off := o, val := v } }
    2 ^ 40 ≤ (p (2 ^ 40) 0).port.off ∧ (p 0x1000 1).links.hostUp = true ∧ (p 0x1000 1).port.val.getLsbD 0 = true ∧ (p 0x1000 2).port.val.getLsbD 0 = false
    ∧ (p (0x280000 + 63 * 0x1000) 4).port.val.toNat % 16 = 4 ∧ (∃ may, commandOf .roundVd = some (4, may))
    ∧ (p 0x2C0000 0).port.off < 2 ^ 32 ∧ ((p 0x2C0000 0).port.off < 0x280000 ∨ 0x2C0000 ≤ (p 0x2C0000 0).port.off)
    ∧ ((p 0x2C0000 0).port.off < 0x08000000 ∨ 0x0C000000 ≤ (p 0x2C0000 0).port.off) :=
  ⟨by decide, by decide, by decide, by decide, by decide, ⟨_, rfl⟩, by decide, by decide, by decide⟩
theorem test_meets_known_answer : let s := modCore State.reset 5 (fun k => { k with kat := some (3, 0), checksum := [⟨3, 0, 0, 1⟩], events := [(3, (some 0, none))] })
    (coreOf s 5).kat = some (3, now s (5 / 128)) ∧ (∃ y ∈ (coreOf s 5).checksum, y.cls = 3) ∧ 3 < 24 ∧ (coreOf s 5).capMask.getLsbD 3 = true
    ∧ tget (coreOf s 5).events 3 = some (some 0, none) ∧ now s (5 / 128) < 0 + 2 ^ 32 ∧ 0 ≤ now s (5 / 128)
    ∧ (coreOf State.reset 5).kat = none ∧ idleCore State.reset 5 = true ∧ idleCore (on unit) 0 = false ∧ (coreOf (on unit) 0).kat = none
    ∧ ∀ y ∈ (coreOf (modCore s 5 (fun k => { k with checksum := [] })) 5).checksum, y.cls ≠ 3 := by decide
theorem test_meets_storage_error : (8 : Nat) % 8 = 0 ∧ 8 < 2 ^ 80 ∧ (8 % 8 = 0 ∨ 5 < 8 % 8) ∧ 1 ≤ 5 % 8 ∧ 5 % 8 ≤ 5 ∧ 4 % 8 = 4 := by decide

/-! ## The spec's worked examples -/

/-- A scalar a next state shows. -/
def shows (o : Out) (r : Nat) : Option Word :=
  match o with
  | .next t => t.cx.map (fun c => rdS c r)
  | _ => none

/-- Table 12.4. -/
theorem test_bfx : shows (exec (.bfx 5 6 8 11) (on (hands [(6, 0xABCDEF)]))) 5 = some 0xBCD := by decide
theorem test_bfxs : shows (exec (.bfxs 5 6 8 11) (on (hands [(6, 0xABCDEF)]))) 5 = some 0xFFFFFFFFFFFFFBCD := by decide
theorem test_fshr : let s := on (hands [(6, 0x1111222233334444), (7, 0x5555666677778888), (8, 16)])
    shows (exec (.fshr 5 6 7 8) s) 5 = some 0x4444555566667777 := by decide
/-- R239: every source is read before d is written. -/
theorem test_fshl_one_register : shows (exec (.fshl 6 6 6 8) (on (hands [(6, 0x8000000000000001), (8, 68)]))) 6 = some 0x18 := by decide
/-- R234: a wrap, and a register that is source and destination. -/
theorem test_add_wraps : shows (exec (.add 6 6 6) (on (hands [(6, 0x8000000000000001)]))) 6 = some 2 := by decide
/-- R156. -/
theorem test_exp2_table : nth exp2Table 0 = 0x3F800000 ∧ nth exp2Table 8 = 0x3FB504F3 ∧ exp2Bits 0x3F800000 = 0x40000000 := by decide +kernel
/-- R290's example: 3.3 × 10.0 in one rounding to i8. -/
theorem test_quantise : (encodeElem 0 .rne (Val.mul (decodeElem 9 0x40533333) (decodeElem 9 0x41200000))).1 = 33 := by decide +kernel
/-- The example of R53: one team of three units, each of 16 items; the last WID's fields. -/
theorem test_teams : let r := { (default : LaunchRec) with
      widths := [0, 0, 8, 2, 4, 0], teamLevel := 3, placeLevel := 4, widFirst := 0, widLast := 0x2F }
    teamsOf r = [(0, 3)] ∧ unitWids r 0 2 = (0x20, 0x2F) ∧ widField r 0x2F 2 = 0 ∧ widField r 0x2F 3 = 2 ∧ widField r 0x2F 4 = 15 := by decide +kernel

/-! ## The assembler's worked examples -/

/-- Tables 10.3, 10.4 and 12.3: the form by the immediate. -/
theorem test_form_choice : asmForm .ldN32 5 10 (-16) = some [0xFF028541] ∧ asmForm .ldN32 5 10 0x10000 = some [0x01028582, 0x00010000]
    ∧ asmForm .addi 5 6 0x12345 = some [0x00118582, 0x00012345] := by decide
/-- R212: a shift by 100 and an immediate beyond 32 bits are assembly errors. -/
theorem test_form_range : asmForm .slli 5 6 100 = none ∧ asmForm .addi 5 6 (2 ^ 40) = none ∧ asmForm .stg 5 1 3000 = none := by decide
/-- Tables 10.9 and 10.10: MMUL's timing and tokens, CPY's stamp; tokens toward no neighbour are refused. -/
theorem test_timing_keys :
    asmTiming (some .mq) (.idle 120) [.lq] [.vq] = some { (default : Timing) with tmode := 1, lo := 0x78, popLeft := 1, pushRight := 1 }
    ∧ asmTiming none (.reg 9) [] [] = some { (default : Timing) with tmode := 3, stampReg := 9 }
    ∧ (asmTiming (some .mq) .free [.sq] []).isNone ∧ (asmTiming none .free [.lq] []).isNone := by decide

/-- The kernel halve_rows of the worked example. -/
def halveRows : Kernel :=
  { entry := 0, wid := [0, 0, 0, 8, 3, 4], team := 4, place := 5, budget := 2 ^ 20, spad := 4, slots := 2, grant := some (2 ^ 21)
    views := [{ n := 1, kind := 3, base := 0x10000, stride := 0x10000, rows := 128, pitch := 16, type := 9 }]
    streams := [{ n := 0, inData := true, type := 0xB, length := 128 }] }
/-- Table 10.17: the template and the block of halve_rows, and the mask of its code. -/
theorem test_template : let t := template halveRows 9
    t.length = 256 ∧ (t.drop 14).take 8 = [4, 5, 0, 0, 0, 8, 3, 4] ∧ natOfBytes ((t.drop 40).take 8) = 9
    ∧ natOfBytes ((t.drop 48).take 8) = 0x100000 ∧ natOfBytes ((t.drop 64).take 4) = 0x00010003 ∧ natOfBytes ((t.drop 68).take 4) = 0x00020004
    ∧ natOfBytes ((t.drop 72).take 4) = 1 ∧ natOfBytes ((t.drop 80).take 8) = 0x200000 ∧ kernelOk halveRows 4 = true := by decide +kernel
theorem test_block : let b := initBlock halveRows
    b.length = 1280 ∧ natOfBytes ((b.drop 0).take 16) = 0x10200000000001000000000000000400
    ∧ natOfBytes ((b.drop 16).take 16) = 0x3000BF80010100000000000000490000 ∧ natOfBytes ((b.drop 256).take 9) = 0x0BD000000000000000 := by decide +kernel
/-- The program of halve_rows: VADD stands as its words; a directive after an instruction and a nested block are refused. -/
def halveSource : Source :=
  { code := [⟨none, .kernel "halve_rows", []⟩, ⟨none, .dir (.wid [0, 0, 0, 8, 3, 4]), []⟩, ⟨none, .dir (.team 4 5), []⟩, ⟨none, .dir (.budget (2 ^ 20)), []⟩
      , ⟨none, .dir (.lease 4 2 1 (some (2 ^ 21))), []⟩
      , ⟨none, .dir (.view { n := 1, kind := 3, base := 0x10000, stride := 0x10000, rows := 128, pitch := 16, type := 9 }), []⟩
      , ⟨none, .dir (.stream { n := 0, type := 0xB, length := 128 } (some "rows_in") none), []⟩
      , ⟨none, .ins (encode (.mvs 5 .lcore)), []⟩, ⟨none, .ins (encode (.addi 5 5 1)), []⟩
      , ⟨none, .ins (encode (.vadd ⟨0, 4, 4, 3, 0, 9, 0, 0, 0, 0⟩)), []⟩, ⟨none, .ins (encode .halt), []⟩, ⟨none, .endk, []⟩]
    data := [⟨none, .align 32, []⟩, ⟨some "rows_in", .data .bf16 [.dec false 15 (-1), .dec true 2 0], []⟩] }
theorem test_assemble : ((assemble halveSource 0).map (fun p => (p.data, p.kernels))) =
    some ([0xC0, 0x3F, 0x00, 0xC0], [("halve_rows", template halveRows 9, initBlock halveRows)]) := by decide +kernel
theorem test_kernel_lines : readCode [] [⟨none, .kernel "a", []⟩, ⟨none, .kernel "b", []⟩] = none
    ∧ readCode [] [⟨none, .kernel "a", []⟩, ⟨none, .ins (encode .halt), []⟩, ⟨none, .dir (.budget 5), []⟩] = none
    ∧ readCode [] [⟨none, .dir (.budget 5), []⟩] = none := by decide
/-- R101, R218: a view of 129 names or with base 0x80000 is refused, not carried into the next field. -/
theorem test_view_fits : kernelOk { halveRows with views := [{ n := 1, kind := 1, count := 129 }] } 4 = false
    ∧ kernelOk { halveRows with views := [{ n := 1, kind := 1, base := 0x80000 }] } 4 = false := by decide +kernel
theorem test_derived_mask : derivedMask [.mvs 5 .lcore, .addi 5 5 1, .vadd ⟨0, 4, 4, 3, 0, 9, 0, 0, 0, 0⟩, .halt] = 9 := by decide
/-- The .data image of halve_rows, and NOP padding before a label (R213). -/
theorem test_sections :
    imageFrom false [] 0 [⟨none, .align 32, []⟩, ⟨some "rows_in", .data .bf16 [.dec false 15 (-1), .dec true 2 0], []⟩] = some [0xC0, 0x3F, 0x00, 0xC0]
    ∧ imageFrom true [] 0 [⟨none, .data .byte [.int 1], []⟩, ⟨none, .data .byte [.int 2], []⟩] = some [1, 2]
    ∧ labelsFrom .code 0 0 [⟨none, .data .byte [.int 1], []⟩, ⟨some "next", .ins [0x01028582, 0x00010000], []⟩] = [("next", .code, 8)]
    ∧ imageFrom true [] 0 [⟨none, .data .byte [.int 1], []⟩, ⟨none, .ins [0x01028582, 0x00010000], []⟩]
      = some [1, 0, 0, 0, 0xFD, 0, 0, 0, 0x82, 0x85, 0x02, 0x01, 0, 0, 1, 0] := by decide +kernel
/-- Table 10.12: 1<<4+1 is 32, 8-2-1 is 5; a product that overflows is an error. -/
theorem test_const : constOf [] [.num 1, .op .shl, .num 4, .op .add, .num 1] = some 32
    ∧ constOf [] [.num 8, .op .sub, .num 2, .op .sub, .num 1] = some 5
    ∧ constOf [("lbl", 12)] [.opening, .num 1, .op .shl, .num 20, .closing, .op .add, .label "lbl", .op .sub, .num 4] = some 0x100008
    ∧ (constOf [] [.num (2 ^ 62), .op .mul, .num 2]).isNone := by decide +kernel

/-! ## Clauses of the statements at their other sides -/

/-- Devices with a device that is FROZEN or a page whose switch window is open. -/
def frozenVd (s : State) : State := modVd s 1 (fun v => { v with state := 3 })
def switching (s : State) : State := { s with retiring := [⟨2, 0, true, []⟩] }

theorem test_meets_waitt_sides : let c := hands [(7, 1)]
    Runs (on c) c [0] ∧ (rdS c 6).toNat ≤ tickOf (on c) c ∧ tickOf (on c) c < (rdS c 7).toNat :=
  ⟨runs_on _ ⟨rfl, rfl⟩ _ (by decide), by decide, by decide⟩
theorem test_meets_gsync_awaited : let c := { unit with wait := .gsync 5 }
    let s := { on c with
      units := [(2, { mate with core := 0, timed := true })]
      teams := [(1, { (default : Team) with units := [1], gsync := [1], gsyncAt := some 0 })] }
    unitOf s 1 = some c ∧ (teamOf s 1).gsync = [1] ∧ (teamOf s 1).gsync.Nodup ∧ otherTimed s c = true ∧ (teamOf s 1).gsyncAt = some (tickOf s c) := by decide
theorem test_meets_bkpt : let s := modLaunch (on unit) 1 (fun l => { l with attached := true }); let c := { unit with handler := true }
    Runs s unit [0] ∧ unit.handler = false ∧ (launchOf s unit.launch).attached = true ∧ Runs (on c) c [0] ∧ c.handler = true
    ∧ (launchOf (on c) c.launch).status = none :=
  ⟨⟨rfl, fun b m => by simp at m; subst m; decide⟩, rfl, by decide, runs_on _ ⟨rfl, rfl⟩ _ (by decide), rfl, rfl⟩
theorem test_meets_tret_sides : let k := { cmd (.slrel noTime 4) with timed := true, due := 9 }
    let c := { unit with handler := true, epc := 0x10000, trapCmds := [k] }; let d := { c with epc := 2 }
    Runs (on c) c [0] ∧ c.handler = true ∧ c.heldIrq = [] ∧ c.epc.toNat % 4 = 0 ∧ k ∈ c.trapCmds ∧ engineOf k.ins = 0
    ∧ Runs (on d) d [0] ∧ d.epc.toNat % 4 ≠ 0 :=
  ⟨runs_on _ ⟨rfl, rfl⟩ _ (by decide), rfl, rfl, by decide, by simp, rfl, runs_on _ ⟨rfl, rfl⟩ _ (by decide), by decide⟩
theorem test_meets_prefetched : let c := pointing 0x30000; let s := modCore (on c) 0 (fun k => { k with prefetch := [locOf 7 0 / 256] })
    Prefetched s c farPlace ∧ check s c 0x30000 1 .load = .ok farPlace ∧ countedHome s c farPlace = true ∧ ¬ Prefetched (on c) c farPlace := by
  unfold Prefetched; decide
theorem test_meets_engine_windows : inSwitch (on unit) syncPlace = false ∧ inSwitch (switching (on unit)) pagePlace = true
    ∧ landingStalls (on unit) flown = false ∧ landingStalls (switching (on unit)) flown = true := by decide
theorem test_meets_dropped : let c := { unit with wait := .land 0, landDropped := some (6, 0x20000, 1) }
    unitOf (on c) 1 = some c ∧ c.wait = .land (tickOf (on c) c) ∧ c.landDropped = some (6, 0x20000, 1) := by decide
theorem test_meets_barrier_lapsed : let c := pointing (syncAt 0); let s := modRent (on c) (refOf 0 2 2) (fun r => { r with state := 3 })
    let z := { on c with mem := (on c).mem.write (locOf 6 0) 2 }
    Runs s c [21] ∧ objectAddress c (rdS c 10) false ∧ translate s c (windowFor c (syncAt 0)) (syncAt 0) = .ok syncPlace
    ∧ (rights s c syncPlace).isSome ∧ rights s c syncPlace ≠ some 2 ∧ rights s c syncPlace ≠ some 3 ∧ (wordAt z 6 0).frozen = true :=
  ⟨⟨rfl, fun b m => by simp at m; subst m; decide⟩, ⟨by decide, trivial, .inl (by decide)⟩, by decide, by decide, by decide, by decide, by decide⟩
theorem test_meets_arrdrop : let s := putWord (on unit) 6 0 ⟨2, 0, 0, false, false⟩ 0
    unitOf s 1 = some unit ∧ (wordAt s 6 0).frozen = false ∧ 0 < (wordAt s 6 0).target ∧ (∀ r ∈ unit.regs16, r.addr = (syncOp .arrdrop).addr → r.gen = 0)
    ∧ unit.regs16.length < 16 ∧ s.keyed :=
  ⟨rfl, by decide, by decide, (fun _ h => by cases h), by decide, by unfold State.keyed; decide⟩
theorem test_meets_placed : Placed (rented 1) ∧ Placed { rented 1 with words := [(2, 0, false)], targets := [(2, 16)] } := by
  unfold Placed; decide
theorem test_meets_rent_status : entryOfHandle (rented 0) pageHandle.toNat = none ∧ bitsAt pageHandle.toNat 32 16 = 0
    ∧ rentRate (rentOf (rented 1 true) (refOf 0 2 3)) * ((rentOf (rented 1 true) (refOf 0 2 3)).paid - 0) < 2 ^ 64 := by decide
theorem test_meets_frozen_rents : (vdOf (frozenVd (ending 1 0)) 1).state = 3 ∧ (rentOf (frozenVd (ending 3 0)) (refOf 0 2 3)).state = 3 := by decide
theorem test_meets_missed_delivery : let j := Instr.slrel ⟨0, 1, 0, 0, 0, 0, 0, 0⟩ 4; let c := { unit with timed := true, segBase := some 0 }
    j.wf = true ∧ ¬ untimed j ∧ (timingOf j).isSome ∧ dueOf (on c) c j ≤ tickOf (on c) c ∧ queueFull (on c) c (engineOf j) = false
    ∧ prepOf (on { unit with region := some idemRegion }) { unit with region := some idemRegion } j = some (.error ⟨0x14, 0, 3, false⟩) :=
  ⟨by decide, (fun ⟨_, h, z⟩ => by cases h; exact absurd z (by decide)), rfl, by decide, by decide, rfl⟩
theorem test_meets_late : let k := { cmd (.slrel noTime 4) with timed := true, due := 6 }
    LateToQueue k ∧ ¬ LateToQueue { k with due := 7 } ∧ ¬ LateToQueue (cmd (.slrel noTime 4)) := by unfold LateToQueue; decide
theorem test_meets_slice_sides : let s := at_ (2 ^ 16) (modVd (on unit) 1 (fun v => { v with sliceAt := some 0, limits := (16, 3, 256, 1024) }))
    let t := { s with newel := { s.newel with pair := 3 } }
    takingOver s = false ∧ newelUp s = true ∧ othersWait s 1 = false ∧ takingOver t = true ∧ newelUp { s with newel := { s.newel with pair := 5 } } = false
    ∧ 0 + 2 ^ (vdOf s 1).limits.1 ≤ now s 0 := by decide +kernel
theorem test_meets_poisoned_load : let c := { unit with loads := [(9, (5, 7))], loadLinks := [(9, (8, true))], region := some { idemRegion with firstCmd := 9 } }
    tget c.loads 9 = some (5, 7) ∧ ((tget c.loadLinks 9).getD (0, false)).2 = true ∧ (∀ r, c.region = some r → r.firstCmd ≤ 9)
    ∧ (vdOf (frozenVd (on unit)) 1).state = 3 :=
  ⟨by decide, by decide, (fun r h => by cases h; decide), by decide⟩

theorem test_meets_copy_switch : let k := { copyCmd with live := 1, bytes := List.replicate 32 7, acc := [161, 128, 0] }
    let s := switching (modEng (on unit) 0 (fun e => { e with mainPath := some { k with vals := [0x20000, 0x10000, 32, 0] } }))
    inSwitch (on unit) codePlace = false ∧ (copyPlace s unit { k with vals := [0x20000, 0x10000, 32, 0] } 0 0).toOption = some pagePlace
    ∧ inSwitch s pagePlace = true ∧ k.landed = 0 := by decide
theorem test_meets_poison_of_load : let c := { unit with loadLinks := [(9, (8, false))] }; let s := on c
    engineWith s 9 = none ∧ unitOf s c.uid = some c ∧ tget c.loadLinks 9 = some (8, false) ∧ tget mate.loadLinks 9 = none
    ∧ (allUnits s) = [c, mate] ∧ linkOf farPlace = some 0 := by decide
theorem test_meets_packet_sides : let s := on unit; let h : Mapping := ⟨0x50000, 1, 0, true, 0x9000, false⟩
    let t := modVd s 1 (fun v => { v with maps := v.maps ++ [h] })
    s.links.ethUp.any id = true ∧ { s.links with seenSeq := [4] }.seenSeq.contains 4 = true ∧ globalMap (vdOf s 1) 0x90000 = none
    ∧ globalMap (vdOf t 1) 0x50000 = some h ∧ hostOwns t 1 0x50000 = false
    ∧ hostOwns (modVd t 1 (fun v => { v with hostOwned := [5] })) 1 0x50000 = true
    ∧ inSwitch (switching s) (refPlace s (refOf 0 2 3) 0 0 0) = true ∧ Nat.testBit (2 ^ 259) 259 = true := by decide

theorem test_meets_dropped_writes : queueWrite 1 0 (.queueDrain 1 0) ∧ (vdOf (frozenVd (queued Queue.reset)) 1).state = 3
    ∧ newelUp (frozenVd (queued Queue.reset)) = true ∧ queueWrite 64 0 (.sqTailWrite 64 0 1) ∧ queueWrite 0 64 (.cqHeadWrite 0 64 1)
    ∧ (vdOf (on unit) 2).state = 0 ∧ queueWrite 2 0 (.queueEnable 2 0 1) :=
  ⟨.inr (.inr (.inr (.inr rfl))), by decide, by decide, .inl ⟨1, rfl⟩, .inr (.inr (.inl ⟨1, rfl⟩)), by decide, .inr (.inr (.inr (.inl ⟨1, rfl⟩)))⟩
theorem test_meets_completion_order : let k : Completion := ⟨0, 0, 0, 0, 9, 1, 0, 0⟩
    let s := modVd (queued { Queue.reset with irqEn := true }) 1 (fun v => { v with withheld := [k] })
    endsBefore s 1 k = false ∧ (reg s 1 0).coalesce = 0 ∧ (reg s 1 0).irqEn = true
    ∧ endsBefore { s with launches := [(3, { (default : Launch) with vd := 1, status := some 0, endTick := 8 })] } 1 k = true := by decide
theorem test_meets_page_sides : let g := modVd (on unit) 1 (fun v => { v with claim := some 0x30000 })
    globalMap (vdOf (on unit) 1) 0x90000 = none ∧ (∀ m, globalMap (vdOf (on unit) 1) 0x90000 = some m → m.host = true)
    ∧ claimReady { g with launches := [(1, { (default : Launch) with vd := 1, issued := true })] } 1 0x30000 = false
    ∧ claimReady { g with launches := [] } 1 0x30000 = true := by decide
theorem test_meets_retirement : let s := on unit; let r : Retiring := ⟨2, 0, false, []⟩
    let f := fun (x : Retiring) => ({ s with retiring := [x] } : State)
    retirePlace s 1 2 = some (2, 0) ∧ retirePlace s 1 9 = none ∧ s.retiring.find? (Page 2 0) = none ∧ (f r).retiring.find? (Page 2 0) = some r
    ∧ (f { r with window := true }).retiring.find? (Page 2 0) = some { r with window := true }
    ∧ (f { r with lines := List.range 17 }).retiring.find? (Page 2 0) = some { r with lines := List.range 17 }
    ∧ r.lines.length ≤ 16 ∧ inTimedStream s 2 0 = false ∧ retirePlace s 0 (2 ^ 41 + 3 * 2 ^ 25) = some (3, 0) := by decide
theorem test_meets_timed_stream : let c := { unit with timed := true, streams := [(3, BitVec.ofNat 384 (0x20000 + 9 * 2 ^ 64 + 32 * 2 ^ 96 + 2 ^ 128 + 2 ^ 144))] }
    inTimedStream { on c with retiring := [⟨2, 0, false, []⟩] } 2 0 = true := by decide
theorem test_meets_extent_taken : let s := on unit
    s.links.ide.getD 7 false = true ∧ s.links.cxlUp.getD 15 false = true ∧ (∀ e ∈ (tget s.links.extents 7).getD [], 32 + 64 ≤ e.1 ∨ e.1 + e.2 ≤ 32)
    ∧ (decoderRanges ((tget s.links.extents 7).getD [] ++ [(32, 64)])).length ≤ 8 ∧ allPoolPages s + 64 ≤ 2 ^ 30
    ∧ poolRegions s 4 7 = [] := by
  refine ⟨by decide, by decide, by decide, ?_, by decide, by decide⟩
  rw [show (tget (on unit).links.extents 7).getD [] = [] from rfl]
  simp [decoderRanges]

theorem test_meets_postponed_command : let s := { ready with newel := { (ready).newel with pair := 3 } }
    Addressed s 1 ∧ (vdOf s 1).busy = false ∧ takingOver s = true ∧ takingOver (ready) = false :=
  ⟨addressed_of _ _ (by decide), by decide, by decide, by decide⟩
theorem test_meets_global_sides : let s := modRent (ready (fun v => { v with arg0 := 0x10000000, arg1 := 1000 })) codeRef (fun r => { r with paid := 10 })
    let sub := { paid 2 2 1 0 with sub := true, parent := refIndex codeRef }
    let t := { s with rents := s.rents ++ [(refOf 0 2 9, sub)] }
    (subletsOf t codeRef).isEmpty = false ∧ regionOf t 0x10000000 = some codeRef ∧ isGlobal t 1 codeRef = true
    ∧ (rentOf s codeRef).state = 1 ∧ (rentOf s codeRef).paid < min (now s 0 + 1000) (2 ^ 64 - 2)
    ∧ rentRate (rentOf s codeRef) * (1000 - 10) < 2 ^ 64 ∧ rentRate (rentOf s codeRef) * (1000 - 10) ≤ (vdOf s 1).allowance
    ∧ 1000 ≤ (rentOf (ready) codeRef).paid ∧ (rentOf (modRent s codeRef (fun r => { r with state := 2 })) codeRef).state = 2
    ∧ min (now s 0 + 0) (2 ^ 64 - 2) ≤ now s (refDie codeRef) := by decide
theorem test_meets_moved_pages : let v := vdOf (on unit) 1
    globalMap v (2 * 65536) = some ⟨0x20000, 1, refOf 0 2 3, false, 0, false⟩ ∧ 2 ∈ devicePages v := by decide

theorem test_meets_stage_page : let s := staging (fun l => { l with staged := false, stagings := [(0x40000, 0x20000, 64)] })
    let page : Rent := { (default : Rent) with owner := 64 * 65536, tier := 2, size := 1, paid := never, core := 0 }
    ∃ x, claimRegion s 64 0 1 0 page = some x ∧ ((launchOf s 2).stagings.flatMap stagePieces).length = 1 := ⟨_, rfl, by decide⟩
theorem test_meets_launch_sides : let s := faulted true; let l := launchOf s 1
    let d := { (default : Launch) with vd := 1, body := { (default : LaunchRec) with deps := [⟨0, 0, 2⟩] } }
    let t := { s with launches := s.launches ++ [(2, d)] }
    tget t.launches 1 = some l ∧ l.status = some 1 ∧ l.stage < 4 ∧ l.postponed = false ∧ l.effected = false ∧ tget t.launches 2 = some d
    ∧ d.status = none ∧ (∃ x ∈ d.body.deps, x.kind = 2 ∧ x.queue = l.queue ∧ x.seq = l.seq) ∧ (∃ uid ∈ launchUnits t 1, settled t uid = false)
    ∧ takingOver { t with newel := { t.newel with pair := 3 } } = true ∧ (launchOf (modLaunch s 1 (fun l => { l with stage := 4 })) 1).stage = 4
    ∧ 1 ∈ ({ t with newel := { t.newel with pair := 3, endReports := [1] } } : State).newel.endReports := by decide
theorem test_meets_take_over_end : let s := { queued Queue.reset with newel := { State.reset.newel with pair := 4, resumeAt := 0, endReports := [1] } }
    s.newel.pair = 4 ∧ s.newel.resumeAt = now s 0 ∧ 64 ∈ s.kicks ∧ (reg s 1 0).enable = false ∧ (vdOf s 1).state ≠ 3 ∧ s.newel.endReports = [1]
    ∧ tget s.vds 1 = some (vdOf s 1) ∧ (vdOf s 1).state = 2 := by decide

theorem test_meets_reads : let s := { on unit with links := { (on unit).links with hostUp := true } }
    s.links.hostUp = true ∧ newelUp s = true ∧ (vdOf s 1).state ≠ 0 ∧ domLow s.clock.dom 1 ≠ 1 ∧ domLow s.clock.dom 0 = 0
    ∧ ({ s with links := { s.links with hostUp := false } } : State).links.hostUp = false := by decide
theorem test_meets_tests_again : let s := modCore State.reset 5 (fun k => { k with kat := some (4, 9) })
    (coreOf s 5).kat = some (4, 9) ∧ ((4, 9) : Nat × Nat) ≠ (3, now s (5 / 128)) ∧ (coreOf s 0).katNext ≠ 3 * 1024 + 5
    ∧ (coreOf (on unit) 0).capMask.getLsbD 0 = true ∧ takingOver { s with newel := { s.newel with pair := 4 } } = true := by decide
theorem test_meets_errors : let s := on unit; let two := { s with upsets := [(8 + 4096, 1)] }
    isFlagged 1 = true ∧ isVertical 1 = false ∧ isVertical (2 ^ 68 + 1) = true ∧ isFlagged 0x11 = false ∧ 0x11 % 2 ^ 68 ≠ 0 ∧ 2 ^ 68 % 2 ^ 68 = 0
    ∧ (∀ u ∈ s.upsets, u.1 = 8 → isVertical u.2 ≠ isVertical 1) ∧ groupFlagged s (parityGroup 8) = [] ∧ verticalFlagged s (parityGroup 8) = false
    ∧ groupFlagged two (parityGroup 8) = [(8 + 4096, 1)] ∧ parityGroup (8 + 4096) = parityGroup 8 := by decide
theorem test_meets_patrols : let g := parityGroup 8; let f := fun l => ({ on unit with upsets := l } : State)
    g / 512 * 262144 + 262144 ≤ 2 ^ 80 ∧ syndrome (f []) g = 0 ∧ (groupFlagged (f [(8, 0x11)]) g = [] ∧ verticalFlagged (f [(8, 0x11)]) g = false
      ∧ syndrome (f [(8, 0x11)]) g ≠ 0)
    ∧ (groupFlagged (f [(8, 2 ^ 68 + 1)]) g = [] ∧ verticalFlagged (f [(8, 2 ^ 68 + 1)]) g = true)
    ∧ (groupFlagged (f [(8, 1)]) g = [(8, 1)] ∧ verticalFlagged (f [(8, 1)]) g = false ∧ syndrome (f [(8, 1)]) g = dataFlips 1)
    ∧ 1 < (groupFlagged (f [(8, 1), (4104, 2)]) g).length := by decide

/-! ## What FormsComplete supposes, where no other statement does -/

theorem test_meets_forms : let c := pointing (syncAt 0); let s := on c
    engineCommand (.wid noTime 5) ∧ ¬ engineCommand (.add 5 6 7) ∧ productResult unit (.remu 5 6 7) = some (5, 0, 18)
    ∧ translate s c (windowFor c (rdS c 10)) (rdS c 10) = .ok syncPlace ∧ rights s c syncPlace = none ∧ c.idem = false ∧ c.regs16.length < 16
    ∧ rdS (hands [(7, 1)]) 7 ≠ 0 := ⟨trivial, fun h => h, rfl, by decide, by decide, rfl, by decide, by decide⟩
theorem test_meets_forms_newel : NewelActs (staging (fun l => { l with status := some 0 }))
    ∧ (launchOf (staging (fun l => { l with status := some 0 })) 2).stage ≠ 4 ∧ (∀ d < 8, dieBusy State.reset d = false)
    ∧ State.reset.clock.ticks.length = 8 ∧ (coreOf (modCore State.reset 5 (fun k => { k with kat := some (3, 0) })) 5).checksum = [] :=
  ⟨by unfold NewelActs; decide, by decide, by decide, by decide, by decide⟩
theorem test_meets_forms_grent : let s := ready (fun v => { v with arg0 := 0x103, arg1 := 1000 })
    let r : Rent := { (default : Rent) with owner := 65536, tier := 3, share := 2, size := 1, paid := 1000, core := 0, item := 1, addr := 2 ^ 56 }
    freeGlobal (vdOf s 1) 1 = some (2 ^ 56) ∧ ∃ ref s₁, claimRegion (started { s with rents := [] } 1 10) 1 0 1 0 r = some (ref, s₁) := ⟨by decide, _, _, rfl⟩
theorem test_meets_forms_activate : let s := { addressing 1 (fun v => { v with state := 4, received := true }) with incoming := [(1, default)] }
    (Machine.activate (started s 1 8) 1 (vdOf (started s 1 8) 1) default).isSome := by decide +kernel
theorem test_meets_forms_codereg : let s := ready (fun v => { v with arg0 := 0x10000, arg1 := 4 })
    (vdOf s 1).codes = [] ∧ Starts .codereg s 1 ∧ ((ready (fun v => { v with codes := [(0, ⟨0, 0x10000, 64, true⟩)] })).launches.isEmpty = false
      ∨ (codeOf (vdOf (ready (fun v => { v with codes := [(0, ⟨0, 0x10000, 64, true⟩)] })) 1) 0).isSome) :=
  ⟨by decide, starts_of _ _ _ _ _ rfl (addressed_of _ _ (by decide)) (by decide) (by decide) (by decide), by decide⟩


/-! ## Hypotheses of flights, errors, buffers' effects, scrubbing, comparisons and claims -/

/-- DEFER's words around its range. -/
theorem test_defer_words : (([0, 257, 0xFFF] : List (BitVec 12)).all (fun n => match decode [n ++ 0x000AD#20] with | .error _ => true | .ok _ => false)) = true
    ∧ decode [(1 : BitVec 12) ++ 0x000AD#20] = .ok (.defer 1) ∧ decode [(256 : BitVec 12) ++ 0x000AD#20] = .ok (.defer 256) := ⟨by decide, rfl, rfl⟩
theorem test_meets_unstruck : Unstruck (on unit) ∧ (on unit).keyed ∧ unit.upsets = [] ∧ poisonedAt (on unit) syncPlace 4 = none :=
  ⟨by unfold Unstruck; decide, by unfold State.keyed; decide, rfl, by decide⟩
theorem test_meets_poison : let c := pointing 0x20000; let s := { on c with memPoison := [(2, 0)] }
    check s c (addressAt c 10 0) 4 .load = .ok pagePlace ∧ Poisoned s c pagePlace 4 0 ∧ ∀ w, ¬ Poisoned (on c) c pagePlace 4 w :=
  ⟨by decide, show _ = _ by decide, fun w (h : (_ : Option Nat) = some w) => by
    have z : ((linePoison (on (pointing 0x20000)) (pointing 0x20000) pagePlace 4).orElse
      (fun _ => viewPoison (on (pointing 0x20000)) (pointing 0x20000) pagePlace 4)) = none := by decide
    rw [if_pos (.inl rfl), z] at h
    cases h⟩
theorem test_meets_tainted : let c := { unit with bankPoison := [40] }
    tainted c 5 = true ∧ tainted unit 5 = false := by decide
/-- The flight lands one tick after its bytes were placed; at their own tick it stays. -/
theorem test_meets_flight : let c := { unit with flight := flown }
    (flown.map (fun f => (f.space, f.off))).Nodup ∧ (∀ f ∈ c.flight, f.placed < tickOf (at_ 1 (on c)) c) ∧ (∀ f ∈ c.flight, tickOf (on c) c ≤ f.placed)
    ∧ lands (at_ 1 (on c)) c = flown ∧ lands (on c) c = [] := by decide
theorem test_meets_last_flight : let c := { unit with wait := .halt 0, flight := flown }
    c.lastWid.toNat ≤ c.wid.toNat ∧ c.flight ≠ [] ∧ unitOf (on c) 1 = some c := by decide
theorem test_meets_lapsed_op : let s := modRent (on unit) (refOf 0 2 2) (fun r => { r with state := 3 })
    rights s unit syncPlace = some 1 ∧ opPlace s unit (syncOp .cas) = some syncPlace ∧ SyncKind.cas ∉ [SyncKind.arrive, .arrdrop, .binit, .swait, .waitb] := by
  decide
theorem test_meets_first_barrier : let s := { on unit with words := [(6, 0, true)] }
    (∀ x ∈ (on unit).words, x.1 = syncPlace.space → x.2.1 ≠ syncPlace.off) ∧ frozenAt (on unit) 6 0 = false
    ∧ s.words.find? (fun x => x.1 == 6 && x.2.1 == 0) = some (6, 0, true) ∧ frozenAt { s with mem := s.mem.writeRun (locOf 6 0) (List.replicate 16 0xFF) } 6 0 = true := by
  decide
theorem test_meets_buffer_effects : let c := { unit with bufs := [(0, ⟨0, 64, 32, 3, true⟩), (1, ⟨64, 64, 32, 0, true⟩)] }; let p := spadPlace (on c) c 0 2
    let s := { on c with words := [(4, 0, false)], mem := (on c).mem.writeRun (locOf 4 0) (List.replicate 16 0xFF) }
    unitOf (on c) c.uid = some c ∧ p.space = 4 ∧ (entry c 0).state = 3 ∧ (entry c 0).declared = true ∧ (wordAt (on c) p.space p.off).frozen = false
    ∧ (entry c 1).state = 0 ∧ (entry c 2).declared = false ∧ (wordAt s p.space p.off).frozen = true := by decide
theorem test_meets_lack : let s := modRent (rented 2) (refOf 0 2 3) (fun r => { r with paid := 0, lack := 7 }); let r := rentOf s (refOf 0 2 3)
    r.state = 2 ∧ r.paid ≤ 1001 ∧ rentRate r * (1001 - r.paid + r.lack) ≤ allowanceOf s 1 ∧ rentRate r * (1001 - r.paid + r.lack) < 2 ^ 64
    ∧ (rentOf (at_ (2 ^ 24 - 7) s) (refOf 0 2 3)).paid + 2 ^ 24 - (rentOf s (refOf 0 2 3)).lack = now (at_ (2 ^ 24 - 7) s) 0 := by decide
theorem test_meets_scrub : let f := fun (l : List (Nat × Nat × Nat)) => { ending 3 0 with scrub := l }; let ref := refOf 0 2 3
    (rentOf (f []) ref).tier = 2 ∧ (rentOf (f []) ref).space = 2 ∧ (rentOf (f []) ref).state ≠ 0 ∧ scrubTurn (f [(2, 0, 17)]) ref = some ref
    ∧ scrubTurn (f [(2, 0, 16)]) ref = some ref ∧ (∀ m ∈ ([] : List (Nat × Nat × Nat)), m.1 ≠ 2) := by decide
theorem test_meets_failed_delivery : let i := Instr.slclaim noTime 5 4; let c := { unit with region := some idemRegion }
    i.wf = true ∧ prepOf (on c) c i = some (.error ⟨0x14, 0, 3, false⟩) ∧ Runs (on c) c (declared c i) ∧ c.timed = false
    ∧ queueFull (on c) c (engineOf i) = false := ⟨by decide, rfl, runs_on _ ⟨rfl, rfl⟩ _ (by decide), rfl, by decide⟩
theorem test_meets_bad_nest : let f : NestF := ⟨0, 1, 0, 4, 1, 0, 0, 0, 0, 0⟩
    (Instr.lnest noTime f).wf = true ∧ nestCvtBad f (gFormat (streamReg unit f.sa.toNat)) = true := by decide
theorem test_meets_held_command : let k := { cmd (.slrel noTime 4) with deliver := 0 }; let c := { unit with wait := .stopping }
    let s := modCore (on c) 0 (fun x => { x with pending := [k] })
    heldBack c k = true ∧ heldBack unit k = false ∧ placeVec c k = .ok k ∧ now s 0 < k.deliver + 6 ∧ k.deliver + 6 ≤ now (at_ 6 s) 0
    ∧ unitOf s k.uid = some c ∧ (coreOf s 0).diverge = [] := by decide
theorem test_meets_no_place : let k := { cmd (.vadd ⟨0, 7, 6, 5, 0, 2, 0, 0, 0, 0⟩) with names := [256, 0, 0, 0] }
    (∃ e, placeVec unit k = .error e) ∧ ¬ LateToQueue k := ⟨⟨_, rfl⟩, fun h => by cases h.1⟩
theorem test_meets_destroying : let v := { VDev.reset with state := 3, busy := true, cmd := 2 }
    destroying v = true ∧ destroying (vdOf (queued Queue.reset) 1) = false ∧ Guest (modVd (queued Queue.reset) 1 (fun _ => v)) 1 :=
  ⟨rfl, by decide, by unfold Guest; decide⟩
theorem test_meets_claims_end : let m : Mapping := ⟨0x30000, 1, refOf 0 3 0, false, 0, false⟩
    let g := modVd { on unit with launches := [] } 1 (fun v => { v with claim := some 0x30000 }); let u := modVd g 1 (fun v => { v with maps := [] })
    (globalMap (vdOf g 1) 0x30000 = some m ∧ (m.host = true ∨ (rentOf g m.ref).tier ≠ 2)) ∧ claimReady u 1 0x30000 = true
    ∧ globalMap (vdOf u 1) 0x30000 = none ∧ (vdOf u 1).claim = some 0x30000 := by decide
theorem test_meets_destroy_over : (∀ e ∈ (ready).rents, e.2.sub = true → e.2.state ≠ 2) ∧ (vdOf (ready) 1).withheld = []
    ∧ ∀ e ∈ ({ ready with launches := [] } : State).launches, e.2.vd ≠ 1 := by decide
theorem test_meets_counted_staging : let page := paid 9 2 1 0; let s := staging (fun l => { l with staged := false, stagedAt := 1, stageRef := refOf 0 2 9 })
    let t := { s with rents := s.rents ++ [(refOf 0 2 9, page)], mem := s.mem.writeRun (locOf 9 0) (List.replicate 16 0xFF), words := [(9, 0, false)] }
    (launchOf t 2).stageRef ≠ 0 ∧ (launchOf t 2).stagedAt = 1 ∧ (launchOf t 2).staged = false ∧ (launchOf t 2).info = 0 ∧ takingOver t = false
    ∧ (wordAt t (rentOf t (launchOf t 2).stageRef).space 0).reached = true ∧ hostHolds t (launchOf t 2) = false
    ∧ (∀ e ∈ s.launches, stagingReached s e.2 = false) := by decide
theorem test_meets_first_test : let s := modCore State.reset 5 (fun k => { k with kat := some (4, 9), events := [(3, (some 0, none)), (4, (some 0, none))] })
    let e := fun l => modCore State.reset 5 (fun k => { k with kat := some (4, 9), events := l })
    idleCore s 5 = true ∧ recentEvent (e [(3, (none, some 0))]) 5 3 = true ∧ recentEvent (e [(3, (none, some 0))]) 5 4 = false
    ∧ recentEvent (e [(3, (none, some 0)), (4, (none, some 0))]) 5 4 = true := by decide
/-- R211: register names and mnemonics are no labels. -/
theorem test_names : identOk "s5" = false ∧ identOk "ADD" = false ∧ identOk "rows_in" = true := by decide +kernel

end Sys2Proof.Tests
end

section
/-!
SUPPORT. What reset leaves, how pages and pool capacity change hands, and how the module boots and is managed (O48, O55, O58).
-/
namespace Sys2Proof.Proofs
open Sys2Proof Sys2Proof.Machine Sys2Proof.Stated Sys2Proof.Laws

/-! ## The state after reset (O48) -/

/-- At reset no device is listed, so each is as before CREATE (Tables 2.8, 2.9). -/
theorem vdOf_reset (vd : Nat) : vdOf State.reset vd = VDev.reset := rfl

theorem now_reset {d : Nat} (hd : d < 8) : now State.reset d = 0 := by
  change nth (List.replicate 8 0) d = 0
  rw [nth, List.getD_eq_getElem _ _ (by simpa using hd), List.getElem_replicate]

theorem viewReg_reset (n : Nat) : viewReg Ctx.reset n = if n = 0 then vectorView else 0 := by
  have h : tget Ctx.reset.views n = if 0 = n then some vectorView else none := rfl
  rw [viewReg, h]
  by_cases hn : n = 0
  · simp [hn]
  · simp [hn, Ne.symm hn]

/-- R100: the vector view's fields as one number. -/
theorem vectorView_value : vectorView = BitVec.ofNat 128 (2 ^ 124 + 64 * 2 ^ 111 + 256 * 2 ^ 64 + 0x400) := by
  decide

/-- Settles O48: each field as `State.reset` gives it. -/
theorem resetLeavesTheStatedValues : Obligations.ResetLeavesTheStatedValues := by
  unfold Obligations.ResetLeavesTheStatedValues
  refine ⟨fun d hd => now_reset hd, rfl, rfl, rfl, rfl, rfl, rfl, rfl, rfl, rfl, rfl, rfl, rfl, rfl, rfl, rfl, rfl, rfl, rfl, rfl, rfl,
    fun vd => ?_, ?_, fun n hn => ?_⟩
  · rw [vdOf_reset]; exact ⟨rfl, rfl, rfl, rfl, rfl, rfl⟩
  · rw [viewReg_reset, if_pos rfl, vectorView_value]
  · rw [viewReg_reset, if_neg hn]

/-! ## Facts shared by the statements of this family -/

/-- What each step of a fold leaves, the fold leaves. -/
theorem foldl_keeps {σ β γ : Type} (p : σ → γ) {f : σ → β → σ} (h : ∀ s x, p (f s x) = p s) (l : List β) (s : σ) :
    p (l.foldl f s) = p s := by
  induction l generalizing s with
  | nil => rfl
  | cons x l ih => rw [List.foldl_cons, ih, h]

/-- The second of two writes of one entry stands. -/
theorem tset_tset_self {α : Type} (t : Tab α) (n : Nat) (v w : α) : tset (tset t n v) n w = tset t n w := by
  induction t with
  | nil => simp [tset]
  | cons e r ih =>
    obtain ⟨k, x⟩ := e
    by_cases hlt : n < k
    · simp [tset, hlt]
    · by_cases heq : k = n
      · simp [tset, heq]
      · simp [tset, hlt, heq, ih]

/-- Two changes of one device are one. -/
theorem modVd_modVd (s : State) (vd : Nat) (f g : VDev → VDev) : modVd (modVd s vd f) vd g = modVd s vd (fun v => g (f v)) := by
  simp [modVd, tmod, tset_tset_self]

/-- The low bytes of a word, least first, are the bytes the machine takes of its number. -/
theorem lowBytes_eq_bytesOfNat (n : Nat) (v : Nat) : (List.range n).map (fun i => BitVec.ofNat 8 (v / 2 ^ (8 * i))) = bytesOfNat n v := by
  induction n generalizing v with
  | zero => rfl
  | succ n ih =>
    rw [List.range_succ_eq_map, List.map_cons, List.map_map, bytesOfNat, ← ih (v / 256)]
    have h : ∀ i, v / 2 ^ (8 * (i + 1)) = v / 256 / 2 ^ (8 * i) := fun i => by
      rw [Nat.div_div_eq_div_mul, Nat.mul_succ, Nat.pow_add, Nat.mul_comm]
    simp [h, Function.comp_def]

theorem lowBytes_eq (n : Nat) (v : Word) : lowBytes n v = bytesOfNat n v.toNat := lowBytes_eq_bytesOfNat n v.toNat

/-- Eight bytes are of a number's low 64 bits only. -/
theorem lowBytes_word (v : Nat) : lowBytes 8 (word v) = bytesOfNat 8 v := by
  rw [lowBytes_eq, word, BitVec.toNat_ofNat, ← lowBytes_eq_bytesOfNat, ← lowBytes_eq_bytesOfNat]
  refine List.map_congr_left fun i hi => BitVec.eq_of_toNat_eq ?_
  have hi : i < 8 := by simpa using hi
  have h64 : (2 : Nat) ^ 64 = 2 ^ (8 * i) * (2 ^ 8 * 2 ^ (8 * (7 - i))) := by
    rw [← Nat.pow_add, ← Nat.pow_add]; congr 1; omega
  rw [BitVec.toNat_ofNat, BitVec.toNat_ofNat, h64, Nat.mod_mul_right_div_self]
  exact Nat.mod_mul_right_mod _ _ _

/-- The newel's look at what waits again is an event only (R55). -/
theorem poke_eq (s : State) : poke s = { s with agenda := (poke s).agenda } := by
  unfold poke; split <;> rfl

section
variable (s : State)
@[simp] theorem poke_clock : (poke s).clock = s.clock := by rw [poke_eq]
@[simp] theorem poke_cx : (poke s).cx = s.cx := by rw [poke_eq]
@[simp] theorem poke_units : (poke s).units = s.units := by rw [poke_eq]
@[simp] theorem poke_vds : (poke s).vds = s.vds := by rw [poke_eq]
@[simp] theorem poke_rents : (poke s).rents = s.rents := by rw [poke_eq]
@[simp] theorem poke_mem : (poke s).mem = s.mem := by rw [poke_eq]
@[simp] theorem poke_links : (poke s).links = s.links := by rw [poke_eq]
end

theorem sameStorage_poke (s : State) : SameStorage s (poke s) := by
  rw [poke_eq]; exact ⟨rfl, rfl, rfl, rfl, rfl, rfl, rfl⟩

/-- A write of a guest to a queue there is reaches its register. -/
theorem guestWrite_runs {s : State} {vd q : Nat} (f : State → State) (h : Guest s vd) (hq : q < 64) :
    guestWrite s vd q f = f s := by
  obtain ⟨hvd, h0, h3, hn⟩ := h
  have hfrozen : ((vdOf s vd).state = 3 && !destroying (vdOf s vd)) = false := by
    rcases h3 with h | h <;> simp [h]
  simp [guestWrite, h0, hn, hfrozen, Nat.not_le.2 hvd, Nat.not_le.2 hq]

/-! ## Units by number -/

/-- Every unit that is found is found under its own number. -/
def UnitsNamed (s : State) : Prop := ∀ k c, unitOf s k = some c → c.uid = k

/-- R92's table keeps every unit under its own number, the executing context is found by its own. -/
theorem unitsNamed_of_keyed {s : State} (h : s.keyed) : UnitsNamed s := by
  intro k c hc
  have table : tget s.units k = some c → c.uid = k := fun ht => h _ (mem_of_tget ht)
  unfold unitOf at hc
  split at hc
  · split at hc
    · next hu => cases hc; exact hu
    · exact table hc
  · exact table hc

/-- A unit that is found is among all units. -/
theorem mem_allUnits {s : State} {k : Nat} {c : Ctx} (hc : unitOf s k = some c) : c ∈ allUnits s := by
  cases hx : s.cx with
  | none =>
    simp only [unitOf, hx] at hc
    simp only [allUnits, hx]
    exact List.mem_map.2 ⟨_, mem_of_tget hc, rfl⟩
  | some x =>
    simp only [unitOf, hx] at hc
    simp only [allUnits, hx]
    by_cases hu : x.uid = k
    · obtain rfl : x = c := by simpa [hu] using hc
      split
      · next hs =>
        obtain ⟨y, hy⟩ := Option.isSome_iff_exists.1 hs
        exact List.mem_map.2 ⟨_, mem_of_tget hy, if_pos rfl⟩
      · exact List.mem_cons_self
    · rw [if_neg hu] at hc
      split
      · exact List.mem_map.2 ⟨_, mem_of_tget hc, if_neg (Ne.symm hu)⟩
      · exact List.mem_cons_of_mem _ (List.mem_map.2 ⟨_, mem_of_tget hc, rfl⟩)

/-- modUnit changes the unit it names and no other. -/
theorem unitOf_modUnit {s : State} (hn : UnitsNamed s) {f : Ctx → Ctx} (hf : ∀ c, (f c).uid = c.uid) (k j : Nat) :
    unitOf (modUnit s k f) j = if k = j then (unitOf s j).map f else unitOf s j := by
  cases hk : unitOf s k with
  | none =>
    have hm : modUnit s k f = s := by unfold modUnit; rw [hk]
    rw [hm]
    split
    · next hkj => rw [← hkj, hk]; rfl
    · rfl
  | some c =>
    have hu : (f c).uid = k := by rw [hf, hn k c hk]
    rw [modUnit_eq f hk]
    split
    · next hkj => rw [← hkj, hk, ← hu, unitOf_setUnit]; rfl
    · next hkj => exact unitOf_setUnit_ne s (f c) (hu ▸ hkj)

theorem unitsNamed_modUnit {s : State} (hn : UnitsNamed s) {f : Ctx → Ctx} (hf : ∀ c, (f c).uid = c.uid) (k : Nat) :
    UnitsNamed (modUnit s k f) := by
  intro j c hc
  rw [unitOf_modUnit hn hf] at hc
  split at hc
  · obtain ⟨x, hx, rfl⟩ := Option.map_eq_some_iff.1 hc
    rw [hf, hn j x hx]
  · exact hn j c hc

/-- The table and the executing context decide which unit is found. -/
theorem unitOf_congr {s t : State} (hx : s.cx = t.cx) (hu : s.units = t.units) (k : Nat) : unitOf s k = unitOf t k := by
  unfold unitOf; rw [hx, hu]

/-! ## Pages: release (R34, R35, R179) -/

/-- A context that goes on at the instruction that faulted, having seen the newel's release. -/
def woken (s : State) (c : Ctx) : Ctx := { raised s c (tickOf s c) with wait := .run, nextAt := tickOf s c }

@[simp] theorem woken_uid (s : State) (c : Ctx) : (woken s c).uid = c.uid := rfl

/-- Waking reads the clock only. -/
theorem woken_congr {s t : State} (h : s.clock = t.clock) : woken s = woken t := by
  funext c; unfold woken raised; rw [tickOf_eq c h, h]

/-- One that goes on already goes on as it would. -/
theorem woken_woken (s : State) (c : Ctx) : woken s (woken s c) = woken s c := by
  have h : tickOf s (woken s c) = tickOf s c := rfl
  unfold woken at *
  rw [h]
  simp [raised]

/-- What `unpark` does for one context. -/
def wakeUnit (vd page : Nat) (s : State) (u : Ctx) : State :=
  if u.vd = vd && u.wait = .parked page then modUnit s u.uid (woken s) else s

theorem unpark_eq (s : State) (vd page : Nat) : unpark s vd page = (allUnits s).foldl (wakeUnit vd page) s := rfl

/-- A field that waking a unit leaves, unparking leaves. -/
theorem unpark_keeps {γ : Type} (p : State → γ) (h : ∀ s k f, p (modUnit s k f) = p s) (s : State) (vd page : Nat) :
    p (unpark s vd page) = p s := by
  rw [unpark_eq]
  refine foldl_keeps p (fun s u => ?_) _ s
  unfold wakeUnit
  split
  · exact h s _ _
  · rfl

theorem unitOf_wakeUnit {s : State} (hn : UnitsNamed s) (vd page : Nat) (u : Ctx) (k : Nat) :
    unitOf (wakeUnit vd page s u) k
      = if u.vd = vd ∧ u.wait = .parked page ∧ u.uid = k then (unitOf s k).map (woken s) else unitOf s k := by
  unfold wakeUnit
  by_cases hp : u.vd = vd ∧ u.wait = .parked page
  · rw [if_pos (by simp [hp]), unitOf_modUnit hn (woken_uid s)]
    simp [hp]
  · rw [if_neg (by simpa using hp), if_neg (fun h => hp ⟨h.1, h.2.1⟩)]

theorem wakeUnit_clock (vd page : Nat) (s : State) (u : Ctx) : (wakeUnit vd page s u).clock = s.clock := by
  unfold wakeUnit; split <;> simp

theorem unitsNamed_wakeUnit {s : State} (hn : UnitsNamed s) (vd page : Nat) (u : Ctx) : UnitsNamed (wakeUnit vd page s u) := by
  unfold wakeUnit
  split
  · exact unitsNamed_modUnit hn (woken_uid s) _
  · exact hn

/-- One that goes on already is found so after every further unit. -/
theorem unitOf_foldl_awake {vd page k : Nat} {c : Ctx} (l : List Ctx) {s : State} (hn : UnitsNamed s)
    (hc : unitOf s k = some c) (haw : woken s c = c) : unitOf (l.foldl (wakeUnit vd page) s) k = some c := by
  induction l generalizing s with
  | nil => exact hc
  | cons u l ih =>
    refine ih (unitsNamed_wakeUnit hn vd page u) ?_ ?_
    · rw [unitOf_wakeUnit hn, hc]
      simp [haw]
    · rw [woken_congr (wakeUnit_clock vd page s u), haw]

/-- A context that stands parked on the page in the list is found awake; however often it stands there, it wakes once. -/
theorem unitOf_foldl_wakeUnit {vd page k : Nat} {c : Ctx} (l : List Ctx) {s : State} (hn : UnitsNamed s)
    (hc : unitOf s k = some c) (hl : c ∈ l) (hvd : c.vd = vd) (hw : c.wait = .parked page) :
    unitOf (l.foldl (wakeUnit vd page) s) k = some (woken s c) := by
  induction l generalizing s with
  | nil => cases hl
  | cons u l ih =>
    have hn' := unitsNamed_wakeUnit hn vd page u
    have hck := wakeUnit_clock vd page s u
    rw [List.foldl_cons]
    by_cases hu : u.vd = vd ∧ u.wait = .parked page ∧ u.uid = k
    · refine unitOf_foldl_awake l hn' ?_ ?_
      · rw [unitOf_wakeUnit hn, if_pos hu, hc]; rfl
      · rw [woken_congr hck, woken_woken]
    · have hne : c ≠ u := fun h => hu ⟨h ▸ hvd, h ▸ hw, h ▸ hn k c hc⟩
      rw [← woken_congr hck]
      refine ih hn' ?_ ((List.mem_cons.1 hl).resolve_left hne)
      rw [unitOf_wakeUnit hn, if_neg hu, hc]

/-- R34: a context parked on a page goes on once its page is released. -/
theorem unitOf_unpark {s : State} (hn : UnitsNamed s) {vd page k : Nat} {c : Ctx} (hc : unitOf s k = some c)
    (hvd : c.vd = vd) (hw : c.wait = .parked page) : unitOf (unpark s vd page) k = some (woken s c) :=
  unitOf_foldl_wakeUnit _ hn hc (mem_allUnits hc) hvd hw

/-- A page's device as its release begins: the page is its own, the requests for it are gone. -/
def handedOver (s : State) (vd page : Nat) : State :=
  modVd s vd (fun v => { v with
    released := BitVec.ofNat 64 page, hostOwned := v.hostOwned.filter (fun p => p != page / 65536)
    asked := v.asked.filter (fun e => e.1 != page / 65536), prStatus := pageStatus page 0 })

/-- Then what is cached of the page goes, and what the host wrote is before every later access. -/
def flushed (s : State) (vd page sp off lo : Nat) : State := dropLines (settleHost (handedOver s vd page) sp off) vd lo

section
variable (s : State) (vd page sp off lo : Nat)
@[simp] theorem flushed_vds : (flushed s vd page sp off lo).vds = (handedOver s vd page).vds := rfl
@[simp] theorem flushed_cx : (flushed s vd page sp off lo).cx = s.cx := rfl
@[simp] theorem flushed_units : (flushed s vd page sp off lo).units = s.units := rfl
@[simp] theorem flushed_clock : (flushed s vd page sp off lo).clock = s.clock := rfl
@[simp] theorem flushed_mem : (flushed s vd page sp off lo).mem = s.mem := rfl
@[simp] theorem flushed_rents : (flushed s vd page sp off lo).rents = s.rents := rfl

/-- The device after a release is the one the page was handed over to. -/
theorem vdOf_released (q : Nat) :
    vdOf (poke (unpark (flushed s vd page sp off lo) vd q)) vd = vdOf (handedOver s vd page) vd := by
  rw [vdOf, poke_vds, unpark_keeps State.vds modUnit_vds, flushed_vds, vdOf]

/-- A released page is not the host's, however often it was listed. -/
theorem hostOwns_handedOver : hostOwns (handedOver s vd page) vd page = false := by
  simp [hostOwns, handedOver]
end

/-- page_status names a page that is named by its first address. -/
theorem pageStatus_eq {page : Nat} (h : page % 65536 = 0) (r : Nat) : pageStatus page r = word (page + r * 256) := by
  have hp : page / 65536 * 65536 = page := by omega
  rw [pageStatus, hp, word]

/-- A global address leads where the device's mappings say. -/
theorem globalMap_same {v : VDev} {a : Nat} {o : Option Mapping} (h : globalMap v a = o) (w : VDev) (hw : w.maps = v.maps) :
    globalMap w a = o := by rw [globalMap, hw]; exact h

theorem rentOf_modVd (s : State) (vd ref : Nat) (f : VDev → VDev) : rentOf (modVd s vd f) ref = rentOf s ref := rfl

/-- A release of a page that is not mapped ends with code 1. -/
theorem pageRelease_unmapped {s : State} {vd page : Nat} (hg : Guest s vd) (h0 : page % 65536 = 0)
    (hm : globalMap (vdOf s vd) page = none) : exec (.pageRelease vd page) s
      = .next (modVd s vd (fun v => { v with released := BitVec.ofNat 64 page, prStatus := pageStatus page 1 })) := by
  have hm' := globalMap_same hm
  change execPageRelease vd page s = _
  rw [execPageRelease, guestWrite_runs _ hg (by decide)]
  simp [h0, hm', modVd_modVd]

/-- A page of the host's is handed over, then its lines go and what is parked on it wakes. -/
theorem pageRelease_owned {s : State} {vd page : Nat} {m : Mapping} (hg : Guest s vd) (h0 : page % 65536 = 0)
    (hm : globalMap (vdOf s vd) page = some m) (ho : hostOwns s vd page = true) :
    ∃ sp off lo, exec (.pageRelease vd page) s
      = .next (poke (unpark (flushed s vd page sp off lo) vd (page / 65536))) := by
  have hm' := globalMap_same hm
  have ho' : page / 65536 ∈ (vdOf s vd).hostOwned := by simpa [hostOwns] using ho
  refine ⟨if m.host then 0 else (rentOf s m.ref).space,
    if m.host then m.hostAddr + (page - m.first) else page - m.first,
    if m.host then m.hostAddr + (page - m.first) else locOf (rentOf s m.ref).space (page - m.first), ?_⟩
  change execPageRelease vd page s = _
  rw [execPageRelease, guestWrite_runs _ hg (by decide)]
  cases hh : m.host <;> simp [h0, hm', ho', hh, hostOwns, modVd_modVd, rentOf_modVd, flushed, handedOver]

/-- R34, R35, R179: one release. -/
theorem pageRelease_spec {s : State} {vd page : Nat} (hg : Guest s vd) (h0 : page % 65536 = 0) :
    (globalMap (vdOf s vd) page = none → ∃ t, exec (.pageRelease vd page) s = .next t
      ∧ (vdOf t vd).prStatus = word (page + 0x100) ∧ (vdOf t vd).hostOwned = (vdOf s vd).hostOwned ∧ t.mem = s.mem)
    ∧ (∀ m, globalMap (vdOf s vd) page = some m → hostOwns s vd page = true → s.keyed →
      ∃ t, exec (.pageRelease vd page) s = .next t ∧ hostOwns t vd page = false ∧ (vdOf t vd).prStatus = word page
        ∧ t.mem = s.mem ∧ t.rents = s.rents
        ∧ ∀ uid c, unitOf s uid = some c → c.uid = uid → c.vd = vd → c.wait = .parked (page / 65536) →
          unitOf t uid = some { raised s c (tickOf s c) with wait := .run, nextAt := tickOf s c }) := by
  refine ⟨fun hm => ⟨_, pageRelease_unmapped hg h0 hm, by simp [pageStatus_eq h0], by simp, rfl⟩, fun m hm ho hk => ?_⟩
  obtain ⟨sp, off, lo, hx⟩ := pageRelease_owned hg h0 hm ho
  refine ⟨_, hx, ?_, ?_, ?_, ?_, fun uid c hc _ hvd hw => ?_⟩
  · rw [hostOwns, vdOf_released]; exact hostOwns_handedOver s vd page
  · rw [vdOf_released]; simp [handedOver, pageStatus_eq h0]
  · rw [poke_mem, unpark_keeps State.mem modUnit_mem, flushed_mem]
  · rw [poke_rents, unpark_keeps State.rents modUnit_rents, flushed_rents]
  · have hn : UnitsNamed (flushed s vd page sp off lo) := unitsNamed_of_keyed hk
    have hc' : unitOf (flushed s vd page sp off lo) uid = some c := hc
    rw [unitOf_congr (poke_cx _) (poke_units _), unitOf_unpark hn hc' hvd hw, woken_congr (flushed_clock s vd page sp off lo)]
    rfl

/-! ## Pages: claim (R33, R36) -/

/-- A claim of a page that is mapped and not tier 2's: code 2 where the page is the host's already, else it waits. -/
theorem pageClaim_mapped {s : State} {vd page : Nat} {m : Mapping} (hg : Guest s vd) (h0 : page % 65536 = 0)
    (hc : (vdOf s vd).claim = none) (hm : globalMap (vdOf s vd) page = some m)
    (ht : ¬ (m.host = false ∧ (rentOf s m.ref).tier = 2)) : exec (.pageClaim vd page) s
      = .next (modVd s vd (fun v => if hostOwns s vd page then { v with claimed := BitVec.ofNat 64 page, prStatus := pageStatus page 2 }
        else { v with claimed := BitVec.ofNat 64 page, claim := some page, prStatus := v.prStatus ||| 1 })) := by
  have hm' := globalMap_same hm
  have ht' : ∀ f, m.host = false → ¬ (rentOf (modVd s vd f) m.ref).tier = 2 := fun _ h h2 => ht ⟨h, h2⟩
  change execPageClaim vd page s = _
  rw [execPageClaim, guestWrite_runs _ hg (by decide)]
  by_cases hh : page / 65536 ∈ (vdOf s vd).hostOwned <;> simp +contextual [h0, hc, hm', ht', hostOwns, hh, modVd_modVd]

/-- R33, R36: a claim of a page the host owns ends with code 2; another of a mapped page waits. -/
theorem pageClaim_spec {s : State} {vd page : Nat} {m : Mapping} (hg : Guest s vd) (h0 : page % 65536 = 0)
    (hc : (vdOf s vd).claim = none) (hm : globalMap (vdOf s vd) page = some m)
    (ht : ¬ (m.host = false ∧ (rentOf s m.ref).tier = 2)) :
    (hostOwns s vd page = true → ∃ t, exec (.pageClaim vd page) s = .next t ∧ (vdOf t vd).prStatus = word (page + 0x200)
      ∧ (vdOf t vd).claim = none ∧ t.mem = s.mem)
    ∧ (hostOwns s vd page = false → ∃ t, exec (.pageClaim vd page) s = .next t ∧ (vdOf t vd).claim = some page
      ∧ (vdOf t vd).prStatus.getLsbD 0 = true ∧ (vdOf t vd).hostOwned = (vdOf s vd).hostOwned ∧ t.mem = s.mem) := by
  have hx := pageClaim_mapped hg h0 hc hm ht
  refine ⟨fun ho => ⟨_, hx, ?_⟩, fun ho => ⟨_, hx, ?_⟩⟩
  · simp [ho, hc, pageStatus_eq h0]
  · simp [ho]

/-- The page a claim waits for is mapped still, and not to tier 2. -/
def Claimable (s : State) (vd page : Nat) : Prop :=
  ∃ m, globalMap (vdOf s vd) page = some m ∧ (m.host = true ∨ (rentOf s m.ref).tier ≠ 2)

/-- R36: a claim waits while something of the device runs on its page. -/
theorem pageClaimGrant_waits {s : State} {vd page : Nat} (hc : (vdOf s vd).claim = some page) (hr : claimReady s vd page = false) :
    exec (.pageClaimGrant vd) s = .next s := by
  change execPageClaimGrant vd s = _
  simp [execPageClaimGrant, hc, hr]

/-- A claim that need not wait ends: the page is the host's where it is claimable. -/
theorem pageClaimGrant_ends {s : State} {vd page : Nat} (hc : (vdOf s vd).claim = some page) (hr : claimReady s vd page = true) :
    (¬ Claimable s vd page → exec (.pageClaimGrant vd) s
      = .next (modVd s vd (fun v => { v with claim := none, prStatus := pageStatus page 1 })))
    ∧ (Claimable s vd page → exec (.pageClaimGrant vd) s = .next (modVd s vd (fun v => { v with
      claim := none, hostOwned := v.hostOwned ++ [page / 65536], prStatus := pageStatus page 0 }))) := by
  change (_ → execPageClaimGrant vd s = _) ∧ (_ → execPageClaimGrant vd s = _)
  unfold execPageClaimGrant Claimable
  cases hm : globalMap (vdOf s vd) page with
  | none => simp [hc, hr, hm]
  | some m => cases hh : m.host <;> simp +contextual [hc, hr, hm, hh]

/-- R33, R36: what becomes of a claim that stands. -/
theorem pageClaimGrant_spec {s : State} {vd page : Nat} (hc : (vdOf s vd).claim = some page) :
    (claimReady s vd page = false → exec (.pageClaimGrant vd) s = .next s)
    ∧ (claimReady s vd page = true → ¬ Claimable s vd page → page % 65536 = 0 → ∃ t, exec (.pageClaimGrant vd) s = .next t
      ∧ (vdOf t vd).hostOwned = (vdOf s vd).hostOwned ∧ (vdOf t vd).claim = none ∧ (vdOf t vd).prStatus = word (page + 0x100) ∧ t.mem = s.mem)
    ∧ (claimReady s vd page = true → Claimable s vd page → page % 65536 = 0 → ∃ t, exec (.pageClaimGrant vd) s = .next t ∧ hostOwns t vd page = true
      ∧ (vdOf t vd).claim = none ∧ (vdOf t vd).prStatus = word page ∧ t.mem = s.mem) := by
  refine ⟨pageClaimGrant_waits hc, fun hr hs h0 => ⟨_, (pageClaimGrant_ends hc hr).1 hs, ?_⟩,
    fun hr hs h0 => ⟨_, (pageClaimGrant_ends hc hr).2 hs, ?_⟩⟩
  · simp [pageStatus_eq h0]
  · simp [pageStatus_eq h0, hostOwns]

/-- R33 to R36: releases, claims and their grants. -/
theorem pagesChangeOwner : Stated.PagesChangeOwner :=
  ⟨fun _ _ _ hg h0 => pageRelease_spec hg h0, fun _ _ _ _ hg h0 hc hm ht => pageClaim_spec hg h0 hc hm ht,
    fun _ _ _ hc => pageClaimGrant_spec hc⟩

/-! ## The host's own accesses of a page (R33) -/

@[simp] theorem setDirty_mem (s : State) (ps : List (Nat × Nat)) : (setDirty s ps).mem = s.mem := by
  unfold setDirty
  refine foldl_keeps State.mem ?_ ps s
  exact fun _ _ => rfl

/-- A write that performs writes its bytes at its place. -/
theorem wroteBytes_writeSpace (s : State) (space off : Nat) (bs : List Byte) (ps : List Nat) (tick : Nat) (l : Option Nat) :
    WroteBytes s (writeSpace s space off bs ps tick l) space off bs := by
  have hm : (writeSpace s space off bs ps tick l).mem = s.mem.writeRun (locOf space off) bs := by simp [writeSpace]
  unfold WroteBytes
  rw [hm]
  refine ⟨fun i hi => ?_, fun a ha => ?_⟩
  · have hloc : locOf space (off + i) = locOf space off + i := by unfold locOf; omega
    rw [read_writeRun, hloc, if_pos ⟨by omega, by omega⟩, Nat.add_sub_cancel_left]
  · rw [read_writeRun, if_neg (by omega)]

/-- The host reaches 8 bytes of a page it owns. -/
theorem hostAccess_owned {s : State} {vd addr val : Nat} {m : Mapping} (hm : globalMap (vdOf s vd) addr = some m)
    (hh : m.host = false) (ho : hostOwns s vd addr = true) :
    exec (.hostCxlMemAccess vd addr 0 val) s = .next { s with links := { s.links with
      sent := s.links.sent ++ [(4096, addr, s.mem.readRun (locOf (rentOf s m.ref).space (addr - m.first)) 8, [])] } }
    ∧ exec (.hostCxlMemAccess vd addr 1 val) s
      = .next (writeSpace s (rentOf s m.ref).space (addr - m.first) (bytesOfNat 8 val) [] (now s 0) none) := by
  change execHostCxlMemAccess vd addr 0 val s = _ ∧ execHostCxlMemAccess vd addr 1 val s = _
  simp [execHostCxlMemAccess, hm, hh, ho]

/-- A page that is the device's, or none of it, or host memory's: no data, and a store is dropped. -/
theorem hostAccess_other {s : State} {vd addr val : Nat}
    (h : ∀ m, globalMap (vdOf s vd) addr = some m → m.host = true ∨ hostOwns s vd addr = false) :
    exec (.hostCxlMemAccess vd addr 0 val) s = .next { s with links := { s.links with sent := s.links.sent ++ [(4096, addr, [], [])] } }
    ∧ exec (.hostCxlMemAccess vd addr 1 val) s = .next s := by
  change execHostCxlMemAccess vd addr 0 val s = _ ∧ execHostCxlMemAccess vd addr 1 val s = _
  cases hm : globalMap (vdOf s vd) addr with
  | none => simp [execHostCxlMemAccess, hm]
  | some m => rcases h m hm with h | h <;> simp [execHostCxlMemAccess, hm, h]

/-! ## Retirement of a page (R93) -/

/-- The entries after f is applied to a page's. -/
def setPage (sp pg : Nat) (f : Retiring → Retiring) (l : List Retiring) : List Retiring :=
  l.map (fun r => if Page sp pg r then f r else r)

/-- A change that keeps which page an entry is for is found changed. -/
theorem find?_setPage {sp pg : Nat} {f : Retiring → Retiring} (hf : ∀ r, Page sp pg (f r) = Page sp pg r) (l : List Retiring) :
    (setPage sp pg f l).find? (Page sp pg) = (l.find? (Page sp pg)).map f := by
  unfold setPage
  induction l with
  | nil => rfl
  | cons r l ih => cases hr : Page sp pg r <;> simp [hr, hf, ih]

/-- A page that is being retired comes again some open number of ticks later. -/
def retireAgain (s : State) (vd page : Nat) (l : List Retiring) : State :=
  schedNewel { s with free := s.free + 1, retiring := l } (Config.freeNat s.free + 1) (.pageRetire vd page)

@[simp] theorem retireAgain_retiring (s : State) (vd page : Nat) (l : List Retiring) : (retireAgain s vd page l).retiring = l := rfl

/-- A page whose window closes is on a new frame. -/
def onNewFrame (s : State) (sp pg : Nat) : State :=
  { s with free := s.free + 1, nextId := s.nextId + 1
           retiring := s.retiring.filter (fun r => !Page sp pg r), frames := tset s.frames (sp * 2 ^ 25 + pg) s.nextId }

/-- What PAGE_RETIRE does for a page of which r stands. -/
def retireStep (s : State) (vd page sp pg : Nat) (r : Retiring) : State :=
  if r.window then onNewFrame s sp pg
  else if 16 < r.lines.length then retireAgain s vd page (setPage sp pg (fun r => { r with lines := [] }) s.retiring)
  else if inTimedStream s sp pg then retireAgain s vd page s.retiring
  else retireAgain s vd page (setPage sp pg (fun r => { r with window := true }) s.retiring)

/-- Retirement leaves what the page holds, its owner, its rent and every context. -/
theorem sameStorage_retireStep (s : State) (vd page sp pg : Nat) (r : Retiring) :
    SameStorage s (retireStep s vd page sp pg r) ∧ (retireStep s vd page sp pg r).units = s.units := by
  unfold retireStep
  split_ifs <;> exact ⟨⟨rfl, rfl, rfl, rfl, rfl, rfl, rfl⟩, rfl⟩

/-- No page is named: nothing happens. -/
theorem pageRetire_nowhere {s : State} {vd page : Nat} (h : retirePlace s vd page = none) :
    exec (.pageRetire vd page) s = .next s := by
  change execPageRetire vd page s = _
  rw [execPageRetire, h]

section
variable {s : State} {vd page sp pg : Nat} (h : retirePlace s vd page = some (sp, pg))
include h

/-- A page that is not being retired yet: its copy begins. -/
theorem pageRetire_begins (hr : s.retiring.find? (Page sp pg) = none) :
    exec (.pageRetire vd page) s = .next (retireAgain s vd page (s.retiring ++ [⟨sp, pg, false, []⟩])) := by
  change execPageRetire vd page s = _
  change s.retiring.find? (fun r => r.space == sp && r.page == pg) = none at hr
  simp only [execPageRetire, h, openTicks, hr]
  rfl

/-- A page that is being retired goes on with it. -/
theorem pageRetire_goes_on {r : Retiring} (hr : s.retiring.find? (Page sp pg) = some r) :
    exec (.pageRetire vd page) s = .next (retireStep s vd page sp pg r) := by
  change execPageRetire vd page s = _
  change s.retiring.find? (fun r => r.space == sp && r.page == pg) = some r at hr
  have hst : inTimedStream { s with free := s.free + 1 } sp pg = inTimedStream s sp pg := rfl
  simp only [execPageRetire, h, openTicks, hr, hst, retireStep]
  split_ifs <;> rfl

/-- R93: one event of a retirement. -/
theorem pageRetire_spec : ∃ t, exec (.pageRetire vd page) s = .next t
    ∧ SameStorage s t ∧ t.rents = s.rents ∧ t.words = s.words ∧ t.vds = s.vds ∧ t.units = s.units
    ∧ (s.retiring.find? (Page sp pg) = none → t.retiring = s.retiring ++ [⟨sp, pg, false, []⟩])
    ∧ ∀ r, s.retiring.find? (Page sp pg) = some r →
      (r.window = true → t.retiring.find? (Page sp pg) = none ∧ (tget t.frames (sp * 2 ^ 25 + pg)).isSome)
      ∧ (r.window = false → 16 < r.lines.length → t.retiring.find? (Page sp pg) = some { r with lines := [] })
      ∧ (r.window = false → r.lines.length ≤ 16 → inTimedStream s sp pg = false →
        t.retiring.find? (Page sp pg) = some { r with window := true })
      ∧ (r.window = false → r.lines.length ≤ 16 → inTimedStream s sp pg = true → t.retiring = s.retiring) := by
  cases hr : s.retiring.find? (Page sp pg) with
  | none =>
    exact ⟨_, pageRetire_begins h hr, ⟨rfl, rfl, rfl, rfl, rfl, rfl, rfl⟩, rfl, rfl, rfl, rfl, fun _ => rfl, fun r hn => nomatch hn⟩
  | some r =>
    obtain ⟨hst, hu⟩ := sameStorage_retireStep s vd page sp pg r
    obtain ⟨-, -, -, hrents, hvds, hwords, -⟩ := id hst
    refine ⟨_, pageRetire_goes_on h hr, hst, hrents, hwords, hvds, hu, (nomatch ·), fun x hx => ?_⟩
    cases hx
    refine ⟨fun hw => ?_, fun hw hl => ?_, fun hw hl ht => ?_, fun hw hl ht => ?_⟩
    · simp [retireStep, hw, onNewFrame]
    · rw [retireStep, if_neg (by simp [hw]), if_pos hl]
      rw [retireAgain_retiring, find?_setPage, hr]
      · rfl
      · exact fun _ => rfl
    · rw [retireStep, if_neg (by simp [hw]), if_neg (Nat.not_lt.2 hl), if_neg (by simp [ht])]
      rw [retireAgain_retiring, find?_setPage, hr]
      · rfl
      · exact fun _ => rfl
    · rw [retireStep, if_neg (by simp [hw]), if_neg (Nat.not_lt.2 hl), if_pos ht]; rfl
end

/-- R33, R93: the host's accesses, and one event of a page's retirement. -/
theorem hostAccessesAndRetirement : Stated.HostAccessesAndRetirement := by
  refine ⟨fun vd addr val s m hm hh ho => ⟨(hostAccess_owned (val := val) hm hh ho).1, _, (hostAccess_owned hm hh ho).2, ?_⟩,
    fun vd addr val s h => hostAccess_other fun m hm => h m hm, fun vd page s h => pageRetire_nowhere h,
    fun vd page sp pg s h => pageRetire_spec h⟩
  rw [lowBytes_word]
  exact wroteBytes_writeSpace ..

/-! ## Pool extents (R1, R20, R41) -/

/-- The extents firmware has taken on a die's pool link. -/
def extentsOf (s : State) (die : Nat) : List (Nat × Nat) := (tget s.links.extents die).getD []

/-- An extent firmware can take. -/
def Takes (s : State) (die base pages : Nat) : Prop :=
  pages ≠ 0 ∧ pages % 32 = 0 ∧ base % 32 = 0 ∧ die < 8 ∧ s.links.ide.getD die false = true
    ∧ s.links.cxlUp.getD (8 + die) false = true ∧ (∀ e ∈ extentsOf s die, base + pages ≤ e.1 ∨ e.1 + e.2 ≤ base)
    ∧ (decoderRanges (extentsOf s die ++ [(base, pages)])).length ≤ 8 ∧ allPoolPages s + pages ≤ 2 ^ 30

/-- The extents of a die are a list. -/
def withExtents (s : State) (die : Nat) (l : List (Nat × Nat)) : State :=
  { s with links := { s.links with extents := tset s.links.extents die l } }

@[simp] theorem extentsOf_withExtents (s : State) (die : Nat) (l : List (Nat × Nat)) : extentsOf (withExtents s die l) die = l := by
  simp [extentsOf, withExtents]

theorem extentsOf_congr {s t : State} (h : s.links = t.links) (die : Nat) : extentsOf s die = extentsOf t die := by
  rw [extentsOf, h]; rfl

theorem capacity_pool (s : State) (die : Nat) : capacity s 4 die = ((extentsOf s die).map Prod.snd).sum := by
  rw [List.sum_eq_foldl]; rfl

/-- Two runs of pages overlap, or one ends before the other begins. -/
theorem not_overlap_iff (a n b m : Nat) : ¬ (b < a + n ∧ a < b + m) ↔ a + n ≤ b ∨ b + m ≤ a := by omega

/-- An extent that can be taken is the die's last. -/
theorem poolExtentAdd_takes {s : State} {die base pages : Nat} (h : Takes s die base pages) :
    exec (.poolExtentAdd die base pages) s = .next (poke (withExtents s die (extentsOf s die ++ [(base, pages)]))) := by
  obtain ⟨h0, hp, hb, hd, hi, hu, ho, hr, hl⟩ := h
  unfold extentsOf at ho hr
  change execPoolExtentAdd die base pages s = _
  rw [execPoolExtentAdd, if_neg]
  · rfl
  · simp only [h0, hp, hb, Nat.not_le.2 hd, hi, hu, Nat.not_lt.2 hr, Nat.not_lt.2 hl, decide_false, bne_self_eq_false, Bool.not_true,
      Bool.or_false, Bool.false_or, List.any_eq_true, decide_eq_true_eq, not_exists, not_and]
    intro e he h1 h2
    exact (not_overlap_iff ..).2 (ho e he) ⟨h1, h2⟩

/-- Any other is declined. -/
theorem poolExtentAdd_declines {s : State} {die base pages : Nat} (h : ¬ Takes s die base pages) :
    exec (.poolExtentAdd die base pages) s = .next s := by
  change execPoolExtentAdd die base pages s = _
  refine if_pos ?_
  by_contra hc
  simp only [Bool.or_eq_true, not_or, decide_eq_true_eq, bne_iff_ne, ne_eq, Decidable.not_not, Bool.not_eq_true', Bool.not_eq_false,
    List.any_eq_true, not_exists, not_and] at hc
  obtain ⟨⟨⟨⟨⟨⟨⟨⟨h0, hp⟩, hb⟩, hd⟩, hi⟩, hu⟩, ho⟩, hr⟩, hl⟩ := hc
  exact h ⟨h0, hp, hb, Nat.not_le.1 hd, hi, hu, fun e he => (not_overlap_iff ..).1 fun hov => ho e he hov.1 hov.2, Nat.not_lt.1 hr, Nat.not_lt.1 hl⟩

/-- R1, R20: firmware takes an extent. -/
theorem poolExtentAdd_spec (die base pages : Nat) (s : State) :
    (Takes s die base pages → ∃ t, exec (.poolExtentAdd die base pages) s = .next t
      ∧ extentsOf t die = extentsOf s die ++ [(base, pages)] ∧ capacity t 4 die = capacity s 4 die + pages ∧ SameStorage s t)
    ∧ (¬ Takes s die base pages → exec (.poolExtentAdd die base pages) s = .next s) := by
  refine ⟨fun h => ⟨_, poolExtentAdd_takes h, ?_⟩, poolExtentAdd_declines⟩
  have he : extentsOf (poke (withExtents s die (extentsOf s die ++ [(base, pages)]))) die = extentsOf s die ++ [(base, pages)] := by
    rw [extentsOf_congr (poke_links _), extentsOf_withExtents]
  refine ⟨he, ?_, sameStorage_poke _⟩
  rw [capacity_pool, he, capacity_pool]
  simp

/-- A field that no context, no device and no die's map is part of stays as mappings go. -/
theorem unmap_keeps {γ : Type} (p : State → γ) (hu : ∀ s k f, p (modUnit s k f) = p s)
    (hv : ∀ (s : State) v d, p { s with vds := v, dies := d } = p s) (s : State) (ref : Nat) : p (unmap s ref) = p s := by
  unfold unmap
  refine (foldl_keeps p (fun s u => hu s _ _) _ _).trans (hv s _ _)

theorem freeRent_links (s : State) (ref : Nat) : (freeRent s ref).links = s.links :=
  unmap_keeps State.links modUnit_links (fun _ _ _ => rfl) s ref

theorem freeRent_hostMem (s : State) (ref : Nat) : (freeRent s ref).hostMem = s.hostMem :=
  unmap_keeps State.hostMem modUnit_hostMem (fun _ _ _ => rfl) s ref

/-- Pages of tier 4 that regions not RECLAIMED hold. -/
def poolUsed (s : State) (die : Nat) : Nat :=
  (((poolRegions s 4 die).filter (fun e => e.2.state != 3)).map (fun e => e.2.size)).sum

theorem sizeOf'_eq_sum (l : Tab Rent) : sizeOf' l = (l.map (fun e => e.2.size)).sum := List.sum_eq_foldl.symm

/-- An extent that is not taken, or that a region needs, is not released. -/
theorem poolExtentRelease_declines {s : State} {die base pages : Nat}
    (h : (base, pages) ∉ extentsOf s die ∨ capacity s 4 die < poolUsed s die + pages) :
    exec (.poolExtentRelease die base pages) s = .next s := by
  change execPoolExtentRelease die base pages s = _
  refine if_pos ?_
  rw [sizeOf'_eq_sum]
  rcases h with h | h
  · have : ((tget s.links.extents die).getD []).contains (base, pages) = false := by simpa [extentsOf] using h
    rw [this]; rfl
  · have : poolPages s die < poolUsed s die + pages := h
    rw [poolUsed] at this
    simp [this]

/-- RECLAIMED regions that no longer fit return to FREE. -/
def freeAll (s : State) (gone : Tab Rent) : State := gone.foldl (fun s e => freeRent s e.1) s

theorem freeAll_links (s : State) (gone : Tab Rent) : (freeAll s gone).links = s.links := by
  unfold freeAll
  refine foldl_keeps State.links ?_ gone s
  exact fun s e => freeRent_links s e.1

theorem freeAll_hostMem (s : State) (gone : Tab Rent) : (freeAll s gone).hostMem = s.hostMem := by
  unfold freeAll
  refine foldl_keeps State.hostMem ?_ gone s
  exact fun s e => freeRent_hostMem s e.1

/-- Another is, and RECLAIMED regions that no longer fit go with it. -/
theorem poolExtentRelease_frees {s : State} {die base pages : Nat} (hm : (base, pages) ∈ extentsOf s die)
    (hu : poolUsed s die + pages ≤ capacity s 4 die) : ∃ gone, exec (.poolExtentRelease die base pages) s
      = .next (freeAll (withExtents s die ((extentsOf s die).erase (base, pages))) gone) := by
  have hm' : ((tget s.links.extents die).getD []).contains (base, pages) = true := by simpa [extentsOf] using hm
  have hu' : ¬ poolPages s die < poolUsed s die + pages := Nat.not_lt.2 hu
  have hx : ∃ gone, execPoolExtentRelease die base pages s
      = .next (freeAll (withExtents s die ((extentsOf s die).erase (base, pages))) gone) := by
    rw [execPoolExtentRelease, if_neg]
    · dsimp only
      split
      · exact ⟨_, rfl⟩
      · exact ⟨[], rfl⟩
    · rw [poolUsed] at hu'
      rw [sizeOf'_eq_sum, hm']
      simpa using hu'
  exact hx

/-- R20, R41: firmware releases an extent. -/
theorem poolExtentRelease_spec (die base pages : Nat) (s : State) :
    (((base, pages) ∉ extentsOf s die ∨ capacity s 4 die < poolUsed s die + pages) → exec (.poolExtentRelease die base pages) s = .next s)
    ∧ ((base, pages) ∈ extentsOf s die → poolUsed s die + pages ≤ capacity s 4 die → ∃ t, exec (.poolExtentRelease die base pages) s = .next t
      ∧ extentsOf t die = (extentsOf s die).erase (base, pages) ∧ t.hostMem = s.hostMem) := by
  refine ⟨poolExtentRelease_declines, fun hm hu => ?_⟩
  obtain ⟨gone, hx⟩ := poolExtentRelease_frees hm hu
  refine ⟨_, hx, ?_, ?_⟩
  · rw [extentsOf_congr (freeAll_links _ _), extentsOf_withExtents]
  · rw [freeAll_hostMem]; rfl

/-! ## Request entries (R34) -/

/-- Two changes that agree on a device are one change of it. -/
theorem modVd_congr {s : State} {vd : Nat} {f g : VDev → VDev} (h : f (vdOf s vd) = g (vdOf s vd)) : modVd s vd f = modVd s vd g := by
  unfold modVd tmod
  unfold vdOf at h
  rw [h]

/-- No held request waits: the write frees entries and posts none. -/
theorem prHeadWrite_spec {s : State} {vd : Nat} (val : Nat) (hg : Guest s vd) (hp : (vdOf s vd).prHeld = []) :
    exec (.prHeadWrite vd val) s = .next (modVd s vd (fun v => { v with prHead := BitVec.ofNat 32 val })) := by
  change execPrHeadWrite vd val s = _
  rw [execPrHeadWrite, guestWrite_runs _ hg (by decide), postHeld, vdOf_modVd_self]
  dsimp only
  rw [hp, List.foldl_nil, modVd_modVd]
  exact congrArg _ (modVd_congr (by simp [hp]))

/-- R1, R20, R27, R41: pool extents and request entries. -/
theorem extentsAndRequests : Stated.ExtentsAndRequests :=
  ⟨poolExtentAdd_spec, poolExtentRelease_spec, fun _ val _ hg hp => prHeadWrite_spec val hg hp⟩

/-- Settles O55: pages change owner, what the host reaches of them, and pool capacity. -/
theorem pagesMoveBetweenHostAndDevice : Obligations.PagesMoveBetweenHostAndDevice :=
  ⟨pagesChangeOwner, hostAccessesAndRetirement, extentsAndRequests⟩

/-! ## Boot (R22, R23, R26) -/

/-- An image that verifies may start. -/
theorem imageCheck_verifies {m : Image} {fuse : Nat} (h : Verifies m fuse) : imageCheck m fuse = 0 := by
  obtain ⟨he, hl, hv, hf⟩ := h
  simp [imageCheck, he, hl, hf, Nat.not_lt.2 hv]

/-- Another fails at the first of its four checks it does not pass (Table 1.8). -/
theorem imageCheck_fails {m : Image} {fuse : Nat} (h : ¬ Verifies m fuse) :
    imageCheck m fuse = failsAt m fuse ∧ failsAt m fuse ≠ 0 := by
  unfold imageCheck failsAt
  cases he : m.ecdsa
  · simp
  cases hl : m.lms
  · simp
  by_cases hv : m.version < fuse
  · simp [hv]
  have hf : m.format = false := by
    cases hf : m.format
    · rfl
    · exact absurd ⟨he, hl, Nat.not_lt.1 hv, hf⟩ h
  simp [hv, hf]

/-- What the boot ROM has left once every image has passed. -/
def booted (s : State) (n : Nat) (ms : List (BitVec 384)) : State :=
  { s with free := n, boot := { s.boot with
      done := true, measures := ms, aliasKey := Config.aliasKey (ms.flatMap (fun m => bytesOfNat 48 m.toNat))
      aliasCert := Config.certify (Config.aliasKey (ms.flatMap (fun m => bytesOfNat 48 m.toNat))) } }

/-- What the boot ROM has left where image i fails a check. -/
def bootStopped (s : State) (n : Nat) (ms : List (BitVec 384)) (i k : Nat) : State :=
  { s with free := n, boot := { s.boot with measures := ms, failImage := i + 1, failCheck := k } }

/-- Images from number i on that all pass. -/
theorem verifyImages_pass (l : List Image) (s : State) (i : Nat)
    (h : ∀ j m, l[j]? = some m → Verifies m (nth s.boot.fuses (i + j))) : ∃ n ms, verifyImages s i l = booted s n ms := by
  induction l generalizing s i with
  | nil => exact ⟨s.free, s.boot.measures, rfl⟩
  | cons m l ih =>
    have h0 := imageCheck_verifies (h 0 m rfl)
    simp only [Nat.add_zero] at h0
    simp only [verifyImages, h0, pick]
    exact ih _ (i + 1) fun j x hx => by
      have := h (j + 1) x hx
      rwa [show i + 1 + j = i + (j + 1) by omega]

/-- Images from number i on of which the j-th is the first that fails. -/
theorem verifyImages_fail (l : List Image) (s : State) (i j : Nat) (m : Image) (hm : l[j]? = some m)
    (hf : ¬ Verifies m (nth s.boot.fuses (i + j)))
    (h : ∀ k x, k < j → l[k]? = some x → Verifies x (nth s.boot.fuses (i + k))) :
    ∃ n ms, verifyImages s i l = bootStopped s n ms (i + j) (failsAt m (nth s.boot.fuses (i + j))) := by
  induction l generalizing s i j with
  | nil => simp at hm
  | cons x l ih =>
    cases j with
    | zero =>
      obtain rfl : x = m := by simpa using hm
      obtain ⟨hc, hne⟩ := imageCheck_fails hf
      simp only [Nat.add_zero] at hc hne ⊢
      refine ⟨s.free, s.boot.measures, ?_⟩
      rw [verifyImages, hc]
      split
      · next h0 => exact absurd h0 hne
      · rfl
    | succ j =>
      have h0 := imageCheck_verifies (h 0 x (by omega) rfl)
      simp only [Nat.add_zero] at h0
      simp only [verifyImages, h0, pick]
      have hij : i + 1 + j = i + (j + 1) := by omega
      rw [← hij] at hf ⊢
      exact ih _ (i + 1) j hm hf fun k y hk hy => by
        have := h (k + 1) y (by omega) hy
        rwa [show i + 1 + k = i + (k + 1) by omega]

/-- An empty table of a die has a FREE entry. -/
theorem freeEntry_of_empty {s : State} (h : s.rents = []) : ∃ ref, freeEntry s 0 2 = some (ref, { s with free := s.free + 1 }) :=
  ⟨refOf 0 2 (Config.freeNat s.free % 32768), by simp [freeEntry, h, pick, tableSize, freeFrom]⟩

/-- The queue window's own region (R26). -/
def windowRent (s : State) : Rent :=
  { (default : Rent) with owner := 64 * 65536, state := 1, tier := 2, size := 1024, base := 31744, paid := never, space := s.nextSpace }

/-- The newel begins with the queue window's region, and power is sampled 2^14 ticks on. -/
theorem startNewel_eq {s : State} (h : s.rents = []) : ∃ ref n test, startNewel s = { s with
    nextSpace := s.nextSpace + 1, rents := [(ref, windowRent s)], newel := { s.newel with standbyOk := true }, free := n
    agenda := s.agenda ++ [⟨0, now s 0 + 2 ^ 14, 18, 0, 0, .ins .powerSample, false⟩] ++ [test] } := by
  obtain ⟨ref, hf⟩ := freeEntry_of_empty h
  refine ⟨ref, s.free + 2, ⟨0, now s 0 + (Config.freeNat (s.free + 1) + 1), 18, 0, 0, .ins (.knownAnswerTest 0 0), false⟩, ?_⟩
  rw [startNewel, hf]
  dsimp only
  rw [h]
  rfl

/-- R22: every image passes, and the newel starts. -/
theorem moduleReset_pass {s : State} (h : ∀ i m, s.boot.images[i]? = some m → Verifies m (nth s.boot.fuses i)) :
    ∃ n ms, exec .moduleReset s = .next (startNewel (booted (powerUp s) n ms)) := by
  obtain ⟨n, ms, hv⟩ := verifyImages_pass s.boot.images (powerUp s) 0 (fun j m hm => by rw [Nat.zero_add]; exact h j m hm)
  refine ⟨n, ms, ?_⟩
  have hi : (powerUp s).boot.images = s.boot.images := rfl
  change execModuleReset s = _
  rw [execModuleReset, hi, hv]
  rfl

/-- R22: image i is the first that fails, and boot stops there. -/
theorem moduleReset_fail {s : State} {i : Nat} {m : Image} (hm : s.boot.images[i]? = some m)
    (hf : ¬ Verifies m (nth s.boot.fuses i)) (h : ∀ j x, j < i → s.boot.images[j]? = some x → Verifies x (nth s.boot.fuses j)) :
    ∃ n ms, exec .moduleReset s = .next (bootStopped (powerUp s) n ms i (failsAt m (nth s.boot.fuses i))) := by
  have hz : ∀ k, nth (powerUp s).boot.fuses (0 + k) = nth s.boot.fuses k := fun k => by rw [Nat.zero_add]; rfl
  obtain ⟨n, ms, hv⟩ := verifyImages_fail s.boot.images (powerUp s) 0 i m hm (by rw [hz]; exact hf)
    (fun k x hk hx => by rw [hz]; exact h k x hk hx)
  refine ⟨n, ms, ?_⟩
  have hi : (powerUp s).boot.images = s.boot.images := rfl
  change execModuleReset s = _
  rw [execModuleReset, hi, hv, hz, Nat.zero_add]
  rfl

/-- R22, R23, R26: MODULE_RESET. -/
theorem resetBoots : Stated.ResetBoots := by
  refine fun s => ⟨fun h => ?_, fun i m hm hf h => ?_⟩
  · obtain ⟨n, ms, hx⟩ := moduleReset_pass h
    obtain ⟨ref, k, test, hn⟩ := startNewel_eq (s := booted (powerUp s) n ms) rfl
    rw [hn] at hx
    refine ⟨_, hx, rfl, rfl, rfl, rfl, rfl, rfl, rfl, rfl, rfl, fun d hd => now_reset hd, rfl,
      ⟨⟨0, 0 + 2 ^ 14, 18, 0, 0, .ins .powerSample, false⟩, ?_, rfl, Nat.zero_add _, rfl⟩, ⟨(ref, windowRent (booted (powerUp s) n ms)), List.mem_singleton_self _, rfl, rfl, rfl⟩, rfl, rfl⟩
    exact List.mem_append_left _ (List.mem_append_right _ (List.mem_singleton_self _))
  · obtain ⟨n, ms, hx⟩ := moduleReset_fail hm hf h
    exact ⟨_, hx, rfl, rfl, rfl, rfl, rfl, rfl⟩

/-! ## Attestation (R24) -/

/-- The state in which a request in its order is answered. -/
def answering (s : State) : State := modSpdm s (fun x => { x with code := 0 })

section
variable {s : State} (h : Answers s)
include h

/-- A request in its order is answered. -/
theorem spdmAnswer_in_order {may : Spdm → Bool} (f : State → State) (hm : may s.boot.spdm = true) :
    spdmAnswer s may f = .next (f (answering s)) := by
  simp [spdmAnswer, h.1, h.2, hm, answering]

/-- A request out of its order is answered with error 4. -/
theorem spdmAnswer_out_of_order {may : Spdm → Bool} (f : State → State) (hm : may s.boot.spdm = false) :
    spdmAnswer s may f = .next (modSpdm s (fun x => { x with code := 4, response := [] })) := by
  simp [spdmAnswer, h.1, h.2, hm]

/-- Every request that follows others is answered so where they have not gone before. -/
theorem request_out_of_order {i : Instr} {may : Spdm → Bool} (hi : needs i = some may) (hm : may s.boot.spdm = false) :
    exec i s = .next (modSpdm s (fun x => { x with code := 4, response := [] })) := by
  unfold needs at hi
  split at hi <;> cases hi
  · exact show execGetCapabilities s = _ from spdmAnswer_out_of_order h _ hm
  · exact show execNegotiateAlgorithms s = _ from spdmAnswer_out_of_order h _ hm
  · exact show execGetDigests s = _ from spdmAnswer_out_of_order h _ hm
  · exact show execGetCertificate s = _ from spdmAnswer_out_of_order h _ hm
  · exact show execChallenge s = _ from spdmAnswer_out_of_order h _ hm
  · exact show execGetMeasurements s = _ from spdmAnswer_out_of_order h _ hm
end

/-- A signature takes the next one-time key. -/
theorem signed_fresh {s : State} (body : List Byte) (h : s.boot.spdm.lmsIndex < 2 ^ 20) :
    (signed s body).boot.spdm.lmsIndex = s.boot.spdm.lmsIndex + 1 ∧ (signed s body).boot.spdm.code = s.boot.spdm.code := by
  rw [signed, if_neg (Nat.not_le.2 h)]
  exact ⟨rfl, rfl⟩

/-- No key is left after 2^20. -/
theorem signed_spent {s : State} (body : List Byte) (h : 2 ^ 20 ≤ s.boot.spdm.lmsIndex) :
    (signed s body).boot.spdm.lmsIndex = s.boot.spdm.lmsIndex ∧ (signed s body).boot.spdm.code = 5 := by
  rw [signed, if_pos h]
  exact ⟨rfl, rfl⟩

section
variable {s : State} (h : Answers s) (ha : s.boot.spdm.algs = true)
include h ha

/-- CHALLENGE, and GET_MEASUREMENTS that asks for a signature, sign. -/
theorem signedRequest_runs {i : Instr} (hi : i ∈ [Instr.challenge, Instr.getMeasurements])
    (h1 : i = .getMeasurements → s.port.off ≠ 1) : ∃ body, exec i s = .next (signed (answering s) body) := by
  rcases List.mem_pair.1 hi with rfl | rfl
  · exact ⟨_, show execChallenge s = _ from spdmAnswer_in_order h _ ha⟩
  · have hx : execGetMeasurements s = _ := spdmAnswer_in_order h _ ha
    rw [if_neg (show ¬ (answering s).port.off = 1 from h1 rfl)] at hx
    exact ⟨_, hx⟩

/-- GET_MEASUREMENTS with operation 1 asks for no signature. -/
theorem unsignedMeasurements_runs (h1 : s.port.off = 1) :
    exec .getMeasurements s = .next (modSpdm (answering s) (fun x => { x with response := measureBytes (answering s) })) := by
  have hx : execGetMeasurements s = _ := spdmAnswer_in_order h _ ha
  rw [if_pos (show (answering s).port.off = 1 from h1)] at hx
  exact hx

/-- Once the algorithms are agreed the device's certificates and measurements are given. -/
theorem agreedRequests_spec :
    (∃ t, exec .getDigests s = .next t ∧ t.boot.spdm.code = 0 ∧ t.boot.spdm.response.length = 48)
    ∧ (∃ t, exec .getCertificate s = .next t ∧ t.boot.spdm.code = 0 ∧ t.boot.spdm.response.length ≤ s.port.val.toNat)
    ∧ (∀ i ∈ [Instr.challenge, Instr.getMeasurements], (i = .getMeasurements → s.port.off ≠ 1) →
      (s.boot.spdm.lmsIndex < 2 ^ 20 → ∃ t, exec i s = .next t ∧ t.boot.spdm.lmsIndex = s.boot.spdm.lmsIndex + 1 ∧ t.boot.spdm.code = 0)
      ∧ (2 ^ 20 ≤ s.boot.spdm.lmsIndex → ∃ t, exec i s = .next t ∧ t.boot.spdm.lmsIndex = s.boot.spdm.lmsIndex ∧ t.boot.spdm.code = 5))
    ∧ (s.port.off = 1 → ∃ t, exec .getMeasurements s = .next t ∧ t.boot.spdm.lmsIndex = s.boot.spdm.lmsIndex ∧ t.boot.spdm.code = 0
      ∧ t.boot.spdm.response = s.boot.measures.flatMap (fun m => bytesOfNat 48 m.toNat)) := by
  refine ⟨⟨_, show execGetDigests s = _ from spdmAnswer_in_order h _ ha, rfl, bytesOfNat_length _ _⟩,
    ⟨_, show execGetCertificate s = _ from spdmAnswer_in_order h _ ha, rfl, List.length_take_le _ _⟩,
    fun i hi h1 => ?_, fun h1 => ⟨_, unsignedMeasurements_runs h ha h1, rfl, rfl, rfl⟩⟩
  obtain ⟨body, hx⟩ := signedRequest_runs h ha hi h1
  exact ⟨fun hl => ⟨_, hx, signed_fresh body hl⟩, fun hl => ⟨_, hx, signed_spent body hl⟩⟩
end

/-- R24: the requests, by what they follow. -/
theorem requestsAreAnswered : Stated.RequestsAreAnswered :=
  fun s h => ⟨⟨_, show execGetVersion s = _ from spdmAnswer_in_order h _ rfl, rfl, rfl, rfl, rfl, rfl⟩,
    fun _ _ hi hm => request_out_of_order h hi hm,
    fun hv => ⟨_, show execGetCapabilities s = _ from spdmAnswer_in_order h _ hv, rfl, rfl⟩,
    fun hc => ⟨_, show execNegotiateAlgorithms s = _ from spdmAnswer_in_order h _ hc, rfl, rfl⟩,
    fun ha => agreedRequests_spec h ha⟩

/-! ## Timed domains (R14, R15) -/

/-- The contexts of a die that joins a domain move with it. -/
def joinUnits (s : State) (die d : Nat) : State :=
  (allUnits s).foldl (fun s u => if dieOfCore u.core = die then modUnit s u.uid (joinUnit d) else s) s

theorem joinUnits_keeps {γ : Type} (p : State → γ) (hu : ∀ s k f, p (modUnit s k f) = p s) (s : State) (die d : Nat) :
    p (joinUnits s die d) = p s := by
  unfold joinUnits
  refine foldl_keeps p ?_ _ _
  intro s u
  split
  · exact hu _ _ _
  · rfl

/-- A rise of a die by d, seen through a field that the shifts of its contexts and of its newel leave: the die's counter rises, memory
stays. -/
theorem shiftDie_rises {γ : Type} (p : State → γ) (hu : ∀ s k f, p (modUnit s k f) = p s) (hn : ∀ d s, p (shiftNewel d s) = p s)
    (s : State) (die : Nat) {d : Nat} (hd : d ≠ 0) : ∃ t : State, p (shiftDie s die d) = p t ∧ t.mem = s.mem
      ∧ t.clock = { s.clock with ticks := s.clock.ticks.set die (now s die + d) } := by
  unfold shiftDie
  rw [if_neg hd]
  have hj := fun (s : State) => joinUnits_keeps p hu s die d
  unfold joinUnits at hj
  dsimp only
  split
  · exact ⟨_, (hn _ _).trans (hj _), rfl, rfl⟩
  · exact ⟨_, hj _, rfl, rfl⟩

@[simp] theorem shiftDie_mem (s : State) (die d : Nat) : (shiftDie s die d).mem = s.mem := by
  by_cases hd : d = 0
  · subst hd; rfl
  · obtain ⟨t, ht, hm, -⟩ := shiftDie_rises State.mem modUnit_mem (fun _ _ => rfl) s die hd
    exact ht.trans hm

/-- A die's counter rises by the difference and no other does. -/
theorem shiftDie_ticks (s : State) (die d : Nat) : (shiftDie s die d).clock.ticks
    = if d = 0 then s.clock.ticks else s.clock.ticks.set die (now s die + d) := by
  split
  · next hd => subst hd; rfl
  · next hd =>
    obtain ⟨t, ht, -, hc⟩ := shiftDie_rises State.clock modUnit_clock (fun _ _ => rfl) s die hd
    rw [ht, hc]

theorem now_shiftDie {s : State} {die : Nat} (h : die < s.clock.ticks.length) (d x : Nat) :
    now (shiftDie s die d) x = if die = x then now s x + d else now s x := by
  rw [now, shiftDie_ticks]
  by_cases hd : d = 0
  · simp [hd, now]
  · by_cases hx : die = x
    · subst hx; simp [hd, nth, List.getD, h, now]
    · simp [hd, nth, List.getD, hx, now]

/-- Each die of a list rises by its own difference. -/
theorem now_foldl_shiftDie (g : Nat → Nat) (l : List Nat) (hl : l.Nodup) (s : State) (h : ∀ d ∈ l, d < s.clock.ticks.length) (x : Nat) :
    now (l.foldl (fun s d => shiftDie s d (g d)) s) x = if x ∈ l then now s x + g x else now s x := by
  induction l generalizing s with
  | nil => simp
  | cons d l ih =>
    obtain ⟨hd, hl⟩ := List.nodup_cons.1 hl
    have hlen : (shiftDie s d (g d)).clock.ticks.length = s.clock.ticks.length := by
      rw [shiftDie_ticks]; split <;> simp
    rw [List.foldl_cons, ih hl _ (fun y hy => hlen ▸ h y (List.mem_cons_of_mem _ hy)), now_shiftDie (h d List.mem_cons_self)]
    by_cases hx : d = x
    · subst hx; simp [hd]
    · simp [hx, Ne.symm hx]

/-- The largest counter of a die's new domain. -/
def topTick (s : State) (m : BitVec 8) (d : Nat) : Nat := ((domDies m d).map (now s)).foldl max 0

theorem now_le_topTick (s : State) (m : BitVec 8) {d : Nat} (hd : d < 8) : now s d ≤ topTick s m d := by
  have hm : now s d ∈ (domDies m d).map (now s) := List.mem_map_of_mem (by simp [domDies, hd])
  rw [topTick, List.foldl_eq_foldr]
  exact List.le_max_of_le' 0 hm le_rfl

/-- By how much each die's counter rises as domains are formed. -/
def gaps (s : State) (m : BitVec 8) : List Nat :=
  (List.range 8).map (fun d => (domDies m d).foldl (fun n x => max n (now s x)) 0 - now s d)

theorem nth_gaps (s : State) (m : BitVec 8) {d : Nat} (hd : d < 8) : nth (gaps s m) d = topTick s m d - now s d := by
  simp [gaps, nth, List.getD, hd, topTick, List.foldl_map]

/-- R14: dies that join take their domain's largest counter. -/
theorem formDomains_spec (s : State) (m : BitVec 8) (hl : s.clock.ticks.length = 8) :
    (formDomains s m).clock.dom = m ∧ (formDomains s m).clock.domStart = m
      ∧ (∀ d < 8, now (formDomains s m) d = topTick s m d) ∧ (formDomains s m).mem = s.mem := by
  refine ⟨rfl, rfl, fun d hd => ?_, ?_⟩
  · have hn := now_foldl_shiftDie (nth (gaps s m)) (List.range 8) List.nodup_range s (fun x hx => hl ▸ List.mem_range.1 hx) d
    rw [if_pos (List.mem_range.2 hd), nth_gaps s m hd, Nat.add_sub_cancel' (now_le_topTick s m hd)] at hn
    exact hn
  · refine foldl_keeps State.mem ?_ (List.range 8) s
    exact fun s d => shiftDie_mem s d _

/-- A launch runs on a die whose domain the write at the port would change. -/
def domainBarred (s : State) : Bool :=
  (List.range 8).any (fun d => domChanges s.clock.dom (s.port.val.extractLsb' 24 8 ||| 1) d && dieBusy s d)

/-- R14: the write is refused and logged. -/
theorem domainApply_barred {s : State} (h : domainBarred s = true) : ∃ t, exec .domainApply s = .next t
    ∧ t = { s with logs := t.logs } ∧ t.logs.faultCount = s.logs.faultCount + 1 :=
  ⟨_, show execDomainApply s = _ from if_pos h, rfl, rfl⟩

/-- R14: the domains of the write are formed. -/
theorem domainApply_forms {s : State} (h : domainBarred s = false) :
    exec .domainApply s = .next (formDomains s (s.port.val.extractLsb' 24 8 ||| 1)) :=
  show execDomainApply s = _ from if_neg (show ¬ domainBarred s = true by simp [h])

/-! ## Power (R16, R17) -/

/-- R17: a limit below 1,000 W is ignored. -/
theorem powerLimitWrite_eq (s : State) : exec .powerLimitWrite s = .next (
    if s.port.val.toNat % 65536 < 1000 then s
    else { s with clock := { s.clock with powerLimit := BitVec.ofNat 16 s.port.val.toNat } }) := by
  have hw : (s.port.val.extractLsb' 0 16 : BitVec 16) = BitVec.ofNat 16 s.port.val.toNat := by
    apply BitVec.eq_of_toNat_eq; simp
  change execPowerLimitWrite s = _
  rw [execPowerLimitWrite]
  dsimp only
  rw [hw, BitVec.toNat_ofNat]

/-- Dies that are the lowest of their domain. -/
def lows (s : State) : List Nat := (List.range 8).filter (fun d => domLow s.clock.dom d == d)

/-- A new ratio for each domain, of 0 to 48. -/
def drawRatios (s : State) (l : List Nat) : State :=
  l.foldl (fun s d => let (r, s) := pick s 49; { s with clock := { s.clock with ratios := s.clock.ratios.set d r } }) s

/-- Drawing changes ratios alone, and leaves none above 48. -/
theorem drawRatios_eq (l : List Nat) (s : State) : ∃ rs n, drawRatios s l = { s with free := n, clock := { s.clock with ratios := rs } }
    ∧ (s.ratiosOk → ∀ r ∈ rs, r ≤ 48) := by
  induction l generalizing s with
  | nil => exact ⟨s.clock.ratios, s.free, rfl, id⟩
  | cons d l ih =>
    obtain ⟨rs, n, he, hr⟩ := ih { s with
      free := s.free + 1, clock := { s.clock with ratios := s.clock.ratios.set d (Config.freeNat s.free % 49) } }
    refine ⟨rs, n, he, fun h => hr fun r hm => ?_⟩
    rcases List.mem_or_eq_of_mem_set hm with hm | rfl
    · exact h r hm
    · exact Nat.lt_succ_iff.1 (Nat.mod_lt _ (by decide))

/-- Power as the sample measures it. -/
def sampled (s : State) : State := { s with free := s.free + 1, clock := { s.clock with powerNow := Config.power s.free } }

/-- The limit is exceeded where every domain swallows 48 of 64 pulses already. -/
def limitFails (s : State) : Bool :=
  (lows s).all (fun d => nth s.clock.ratios d == 48) && decide (powerCap s < (Config.power s.free).toNat)

/-- The alarm rises: the supply is cut 100 ms of pulses later. -/
def alarmed (s : State) : State :=
  sched { s with clock := { s.clock with alarm := true, alarmAt := s.clock.pulses } } 8 (s.clock.pulses + 70000000) 18 0 0 (.ins .supplyCut)

/-- R16: power is measured; the alarm rises, or ratios are drawn; the next sample is due. -/
theorem powerSample_eq (s : State) : exec .powerSample s = .next (schedNewel (
    let t := if limitFails s && !s.clock.alarm then alarmed (sampled s) else sampled s
    if t.clock.alarm then t else drawRatios t (lows s)) (2 ^ 14) .powerSample) := rfl

/-- The limit fails where every domain's lowest die swallows 48 and power is above what is enforced. -/
theorem limitFails_iff (s : State) : limitFails s = true ↔ (∀ d < 8, domLow s.clock.dom d = d → nth s.clock.ratios d = 48)
    ∧ min 3700 s.clock.powerLimit.toNat < (Config.power s.free).toNat := by
  simp only [limitFails, Bool.and_eq_true, List.all_eq_true, beq_iff_eq, decide_eq_true_eq]
  simp only [lows, List.mem_filter, List.mem_range, beq_iff_eq, and_imp, powerCap]

/-- Newel work stands on die 0's agenda. -/
theorem at_schedNewel (s : State) (d : Nat) (i : Instr) : At (schedNewel s d i) (now s 0 + d) i :=
  ⟨⟨0, now s 0 + d, 18, 0, 0, .ins i, false⟩, List.mem_append_right _ (List.mem_singleton_self _), rfl, rfl, rfl⟩

/-- What R16 asks of a power sample. -/
def SampleSpec (s t : State) : Prop :=
  (s.ratiosOk → t.ratiosOk) ∧ At t (now s 0 + 2 ^ 14) .powerSample ∧ SameStorage s t
    ∧ t.units = s.units ∧ (s.clock.alarm = true → t.clock.alarm = true ∧ t.clock.ratios = s.clock.ratios)
    ∧ (s.clock.alarm = false → (∀ d < 8, domLow s.clock.dom d = d → nth s.clock.ratios d = 48) →
      min 3700 s.clock.powerLimit.toNat < t.clock.powerNow.toNat → t.clock.alarm = true ∧ t.clock.alarmAt = s.clock.pulses
        ∧ ∃ e ∈ t.agenda, e.die = 8 ∧ e.tick = s.clock.pulses + 70000000 ∧ e.act = .ins .supplyCut)

/-- Once the alarm has risen the ratios stay. -/
theorem sampleSpec_after_alarm {s : State} (ha : s.clock.alarm = true) : SampleSpec s (schedNewel (sampled s) (2 ^ 14) .powerSample) :=
  ⟨id, at_schedNewel (sampled s) _ _, ⟨rfl, rfl, rfl, rfl, rfl, rfl, rfl⟩, rfl, fun _ => ⟨ha, rfl⟩,
    fun hn => absurd hn (by simp [ha])⟩

/-- The alarm rises with the cut of the supply due. -/
theorem sampleSpec_alarm_rises {s : State} (ha : s.clock.alarm = false) :
    SampleSpec s (schedNewel (alarmed (sampled s)) (2 ^ 14) .powerSample) :=
  ⟨id, at_schedNewel (alarmed (sampled s)) _ _, ⟨rfl, rfl, rfl, rfl, rfl, rfl, rfl⟩, rfl, fun hn => absurd hn (by simp [ha]),
    fun _ _ _ => ⟨rfl, rfl, ⟨8, s.clock.pulses + 70000000, 18, 0, 0, .ins .supplyCut, false⟩,
      List.mem_append_left _ (List.mem_append_right _ (List.mem_singleton_self _)), rfl, rfl, rfl⟩⟩

/-- Ratios that hold the limit are drawn anew. -/
theorem sampleSpec_ratios {s : State} (ha : s.clock.alarm = false) (hf : limitFails s = false) :
    SampleSpec s (schedNewel (drawRatios (sampled s) (lows s)) (2 ^ 14) .powerSample) := by
  obtain ⟨rs, n, he, hr⟩ := drawRatios_eq (lows s) (sampled s)
  rw [he]
  refine ⟨hr, at_schedNewel { sampled s with free := n, clock := { (sampled s).clock with ratios := rs } } _ _,
    ⟨rfl, rfl, rfl, rfl, rfl, rfl, rfl⟩, rfl, fun hn => absurd hn (by simp [ha]), fun _ h48 hcap => ?_⟩
  rw [(limitFails_iff s).2 ⟨h48, hcap⟩] at hf
  cases hf

/-- R16: a sample, by whether the alarm had risen and whether the limit fails. -/
theorem powerSample_spec (s : State) : ∃ t, exec .powerSample s = .next t ∧ SampleSpec s t := by
  refine ⟨_, powerSample_eq s, ?_⟩
  cases ha : s.clock.alarm with
  | true =>
    have hs : (sampled s).clock.alarm = true := ha
    simpa [hs] using sampleSpec_after_alarm ha
  | false =>
    have hs : (sampled s).clock.alarm = false := ha
    cases hf : limitFails s with
    | true =>
      have hal : (alarmed (sampled s)).clock.alarm = true := rfl
      simpa [hal] using sampleSpec_alarm_rises ha
    | false => simpa [hs] using sampleSpec_ratios ha hf

/-- R14 to R17: domains and power. -/
theorem domainsAndPower : Stated.DomainsAndPower := by
  refine fun s => ⟨domainApply_barred, fun h hl => ⟨_, domainApply_forms h, formDomains_spec s _ hl⟩, fun h => ?_, fun h => ?_,
    powerSample_spec s, rfl⟩
  · rw [powerLimitWrite_eq, if_pos h]
  · rw [powerLimitWrite_eq, if_neg (Nat.not_lt.2 h)]

/-! ## Writes of the management window (R25, R38) -/

section
variable {s : State} (hup : s.links.hostUp = true)
include hup

/-- R14: the domain register forms domains, or keeps their starts. -/
theorem registerWrite_domain (ho : s.port.off = 0x1000) : exec .registerWrite s
    = if s.port.val.getLsbD 0 then exec .domainApply s
      else .next { s with clock := { s.clock with domStart := s.port.val.extractLsb' 24 8 ||| 1 } } := by
  change execRegisterWrite s = if s.port.val.getLsbD 0 then execDomainApply s else _
  simp [execRegisterWrite, ho, hup]

/-- R17: the power limit's register. -/
theorem registerWrite_powerLimit (ho : s.port.off = 0x2000) : exec .registerWrite s = exec .powerLimitWrite s := by
  change execRegisterWrite s = execPowerLimitWrite s
  simp [execRegisterWrite, ho, hup]

/-- A write of a device's control word starts the command its low bits name. -/
theorem registerWrite_command {vd : Nat} (hvd : vd < 64) (ho : s.port.off = 0x280000 + vd * 0x1000) :
    exec .registerWrite s = vdCtlWrite s := by
  change execRegisterWrite s = _
  have h1 : ¬ 2 ^ 40 ≤ s.port.off := by omega
  have h2 : ¬ 2 ^ 32 ≤ s.port.off := by omega
  have h3 : s.port.off ≠ 0x1000 := by omega
  have h4 : s.port.off ≠ 0x2000 := by omega
  have h5 : 0x280000 ≤ s.port.off := by omega
  have h6 : s.port.off < 0x2C0000 := by omega
  have h7 : s.port.off % 0x1000 = 0 := by omega
  simp only [execRegisterWrite, h1, h2, h3, h4, h5, h6, hup, if_false, decide_true, Bool.and_self, if_true, Bool.not_true, Bool.false_eq_true]
  simp only [blockWrite, h7, if_true]

/-- A write no map accepts is logged. -/
theorem registerWrite_refused (h1 : s.port.off < 2 ^ 32) (h2 : s.port.off ≠ 0x1000) (h3 : s.port.off ≠ 0x2000)
    (h4 : s.port.off < 0x280000 ∨ 0x2C0000 ≤ s.port.off) (h5 : s.port.off < 0x08000000 ∨ 0x0C000000 ≤ s.port.off) :
    exec .registerWrite s = .next (refusedWrite s) := by
  change execRegisterWrite s = _
  have h0 : ¬ 2 ^ 40 ≤ s.port.off := by omega
  have h4' : ¬ (0x280000 ≤ s.port.off ∧ s.port.off < 0x2C0000) := by omega
  have h5' : ¬ (0x08000000 ≤ s.port.off ∧ s.port.off < 0x0C000000) := by omega
  rw [execRegisterWrite]
  simp only [h0, Nat.not_le.2 h1, hup, h2, h3, h4', h5', Bool.and_eq_true, decide_eq_true_eq, if_false, Bool.not_true, Bool.false_eq_true]
end

/-- The number in a control word names the command of its row (Table 2.10). -/
theorem vdCtlWrite_command {s : State} {i : Instr} {n : Nat} {may : VDev → Bool} (hi : commandOf i = some (n, may))
    (hn : s.port.val.toNat % 16 = n) : vdCtlWrite s = exec i s := by
  unfold commandOf at hi
  dsimp only at hi
  split at hi <;> cases hi <;> rw [vdCtlWrite, hn] <;> rfl

/-- R25, R38: writes by their offset. -/
theorem writesReachTheirRegister : Stated.WritesReachTheirRegister := by
  refine fun s => ⟨fun h => ?_, fun h hd => ?_, fun hup => ⟨fun ho hb => ?_, fun ho hb => ?_, registerWrite_powerLimit hup, ?_, ?_⟩⟩
  · refine ⟨_, show execRegisterWrite s = _ from if_pos h, rfl, ?_⟩
    have hl : (bytesOfNat 8 s.port.val.toNat).length = 8 := bytesOfNat_length ..
    rw [lowBytes_eq]
    exact hl ▸ readRun_writeRun_self s.hostMem (s.port.off - 2 ^ 40) (bytesOfNat 8 s.port.val.toNat)
  · change execRegisterWrite s = _
    have h0 : ¬ 2 ^ 40 ≤ s.port.off := by omega
    rw [execRegisterWrite]
    simp only [h0, Nat.not_le.2 h, hd, if_false, Bool.not_false, if_true]
  · rw [registerWrite_domain hup ho, if_pos hb]
  · rw [registerWrite_domain hup ho, if_neg (by rw [hb]; exact Bool.false_ne_true)]
  · exact fun i n may vd hi hvd ho hn => (registerWrite_command hup hvd ho).trans (vdCtlWrite_command hi hn)
  · exact fun h1 h2 h3 h4 h5 => ⟨_, registerWrite_refused hup h1 h2 h3 h4 h5, rfl, rfl⟩

/-! ## Reads (R4, R7, R17, R19, R25, R38, R129) -/

/-! ### The bands of the management window (Table 1.7) -/

/-- An offset lies in a band, as the window's decoder tests it. -/
theorem inBand_iff (lo hi o : Nat) : (decide (lo ≤ o) && decide (o < hi)) = true ↔ lo ≤ o ∧ o < hi := by simp

section
variable (s : State) {o : Nat} (h8 : o % 8 = 0)
include h8

theorem windowRead_domain (h : o < 0x1000) : windowRead s (0x1000 + o) = word (domainWord s o) := by
  have ho : (0x1000 + o) / 8 * 8 = 0x1000 + o := by omega
  rw [windowRead, ho, if_neg (by omega), if_pos (by omega), Nat.add_sub_cancel_left, word]

theorem windowRead_power (h : o < 0x1000) : windowRead s (0x2000 + o) = word (powerWord s o) := by
  have ho : (0x2000 + o) / 8 * 8 = 0x2000 + o := by omega
  rw [windowRead, ho, if_neg (by omega), if_neg (by omega), if_pos (by omega), Nat.add_sub_cancel_left, word]

theorem windowRead_state (h : o < 0x100000) : windowRead s (0x200000 + o) = word (stateWord s o) := by
  have ho : (0x200000 + o) / 8 * 8 = 0x200000 + o := by omega
  simp only [windowRead, ho, inBand_iff]
  rw [if_neg (by omega), if_neg (by omega), if_neg (by omega), if_neg (by omega), if_neg (by omega), if_pos (by omega),
    Nat.add_sub_cancel_left, word]

theorem windowRead_residency (h : o < 0x40000) : windowRead s (0x4000000 + o) = word (residencyWord s o) := by
  have ho : (0x4000000 + o) / 8 * 8 = 0x4000000 + o := by omega
  simp only [windowRead, ho, inBand_iff]
  rw [if_neg (by omega), if_neg (by omega), if_neg (by omega), if_neg (by omega), if_neg (by omega), if_neg (by omega), if_neg (by omega),
    if_pos (by omega), Nat.add_sub_cancel_left, word]
end

/-! ### The words of a band -/

/-- R4: the tick counters. -/
theorem read_tick (s : State) {d : Nat} (hd : d < 8) : windowRead s (0x1100 + 8 * d) = word (now s d) := by
  have h := windowRead_domain s (o := 0x100 + 8 * d) (by omega) (by omega)
  rw [show 0x1100 + 8 * d = 0x1000 + (0x100 + 8 * d) by omega, h]
  simp only [domainWord, inBand_iff]
  rw [if_neg (by omega), if_pos (by omega), show (0x100 + 8 * d - 0x100) / 8 = d by omega]

/-- R17: a domain's ratio stands at its lowest die. -/
theorem read_ratio (s : State) {d : Nat} (hd : d < 8) :
    windowRead s (0x2040 + 8 * d) = if domLow s.clock.dom d = d then word (nth s.clock.ratios d) else 0 := by
  have h := windowRead_power s (o := 0x40 + 8 * d) (by omega) (by omega)
  rw [show 0x2040 + 8 * d = 0x2000 + (0x40 + 8 * d) by omega, h]
  simp only [powerWord, inBand_iff]
  rw [if_neg (by omega), if_neg (by omega), if_neg (by omega), if_pos (by omega), show (0x40 + 8 * d - 0x40) / 8 = d by omega]
  split <;> rfl

/-- R17: so does its count of swallowed pulses. -/
theorem read_swallowed (s : State) {d : Nat} (hd : d < 8) :
    windowRead s (0x2100 + 8 * d) = if domLow s.clock.dom d = d then word (nth s.clock.swallowed d) else 0 := by
  have h := windowRead_power s (o := 0x100 + 8 * d) (by omega) (by omega)
  rw [show 0x2100 + 8 * d = 0x2000 + (0x100 + 8 * d) by omega, h]
  simp only [powerWord, inBand_iff]
  rw [if_neg (by omega), if_neg (by omega), if_neg (by omega), if_neg (by omega), if_pos (by omega),
    show (0x100 + 8 * d - 0x100) / 8 = d by omega]
  split <;> rfl

theorem flagNum_eq (b : Bool) : flagNum b = if b = true then 1 else 0 := by cases b <;> rfl

/-- R129, Table 6.4: a residency entry's fields. -/
theorem read_residency (s : State) {core b : Nat} (hc : core < 1024) (hb : b < 32) : let e := entryAt (coreOf s core) b
    windowRead s (0x4000000 + core * 0x100 + b * 8) = word (e.ready % 2 ^ 32 + (if e.q4 then 2 ^ 32 else 0) + e.ctx * 2 ^ 33
      + e.slot * 2 ^ 35 + e.format * 2 ^ 40 + e.state * 2 ^ 46 + e.expert * 2 ^ 48) := by
  have h := windowRead_residency s (o := core * 0x100 + b * 8) (by omega) (by omega)
  rw [Nat.add_assoc, h, residencyWord, show (core * 0x100 + b * 8) / 0x100 = core by omega, show (core * 0x100 + b * 8) % 0x100 / 8 = b by omega]
  refine congrArg word ?_
  simp only [packed, List.map_cons, List.map_nil, List.foldl_cons, List.foldl_nil, flagNum_eq]
  split <;> omega

/-- R38: the words of a device's control block. -/
theorem read_block (s : State) {vd o : Nat} (hvd : vd < 64) (h : o < 0x1000) (h8 : o % 8 = 0) :
    windowRead s (0x280000 + vd * 0x1000 + o) = word (blockWord s vd o) := by
  have hw := windowRead_state s (o := 0x80000 + vd * 0x1000 + o) (by omega) (by omega)
  rw [show 0x280000 + vd * 0x1000 + o = 0x200000 + (0x80000 + vd * 0x1000 + o) by omega, hw]
  simp only [stateWord, inBand_iff]
  rw [if_pos (by omega), show (0x80000 + vd * 0x1000 + o - 0x80000) / 0x1000 = vd by omega, show (0x80000 + vd * 0x1000 + o) % 0x1000 = o by omega]

/-- The words of a control block past its last register are reserved (Table 2.8). -/
theorem blockWord_reserved (s : State) (vd : Nat) {o : Nat} (h : 0x228 ≤ o) : blockWord s vd o = 0 := by
  unfold blockWord
  dsimp only
  split
  any_goals omega
  exact if_neg (by rw [inBand_iff]; omega)

/-! ### The queue window and the kick bits -/

/-- The bits of the numbers below n that pass p. -/
def bitmap (p : Nat → Bool) (n : Nat) : Nat := ((List.range n).filter p).foldl (fun m q => m + 2 ^ q) 0

theorem bitmap_succ (p : Nat → Bool) (n : Nat) : bitmap p (n + 1) = bitmap p n + if p n then 2 ^ n else 0 := by
  rw [bitmap, List.range_succ, List.filter_append, List.foldl_append, ← bitmap]
  cases h : p n <;> simp [h]

theorem bitmap_lt (p : Nat → Bool) (n : Nat) : bitmap p n < 2 ^ n := by
  induction n with
  | zero => exact Nat.one_pos
  | succ n ih => rw [bitmap_succ, Nat.pow_succ]; split <;> omega

/-- A bit of the map is set where its number passes. -/
theorem testBit_bitmap (p : Nat → Bool) {n q : Nat} (h : q < n) : (bitmap p n).testBit q = p q := by
  induction n with
  | zero => omega
  | succ n ih =>
    rw [bitmap_succ]
    by_cases hq : q = n
    · subst hq
      have hz := Nat.testBit_lt_two_pow (bitmap_lt p q)
      cases hp : p q
      · simpa using hz
      · rw [if_pos rfl, Nat.add_comm, Nat.testBit_two_pow_add_eq, hz]; rfl
    · have hlt : q < n := by omega
      split
      · rw [Nat.add_comm, Nat.testBit_two_pow_add_gt hlt, ih hlt]
      · exact ih hlt

/-- The kick bits of a device, to its own function (R19, R29). -/
theorem kickBits (s : State) {vd q : Nat} (hvd : vd < 64) (hq : q < 64) :
    (word (barFourWord s (vd * 8))).getLsbD q = s.kicks.contains (vd * 64 + q) := by
  have hb : barFourWord s (vd * 8) = bitmap (fun q => s.kicks.contains (vd * 8 / 8 * 64 + q)) 64 :=
    if_neg (by omega)
  rw [word, BitVec.getLsbD_ofNat, hb, testBit_bitmap _ hq, Nat.mul_div_cancel _ (by decide)]
  simp [hq]

section
variable {s : State} (hup : s.links.hostUp = true) (hn : newelUp s = true)
include hup hn

/-- A register of queue q's block in BAR 2 (R26). -/
theorem hostRead_barTwo {vd q o : Nat} (hvd : vd < 64) (hq : q < 64) (ho : o < 0x1000) (h8 : o % 8 = 0) :
    hostRead s none 2 (vd * 0x100000 + q * 0x4000 + o)
      = some (word (if o < 0x30 then queueWord (vdOf s vd) q o else if q = 0 then requestWord (vdOf s vd) o else 0)) := by
  have h1 : (vd * 0x100000 + q * 0x4000 + o) / 8 * 8 = vd * 0x100000 + q * 0x4000 + o := by omega
  have h2 : (vd * 0x100000 + q * 0x4000 + o) / 0x100000 = vd := by omega
  have h3 : (vd * 0x100000 + q * 0x4000 + o) % 0x100000 / 0x4000 = q := by omega
  have h4 : (vd * 0x100000 + q * 0x4000 + o) % 0x4000 = o := by omega
  have h5 : ¬ 0x4000000 ≤ vd * 0x100000 + q * 0x4000 + o := by omega
  simp only [hostRead, hup, hn, h1, Bool.not_true, Bool.false_eq_true, if_false, if_true]
  simp only [barTwoWord, h2, h3, h4, h5, if_false, ho, if_true, word]

/-- Table 2.2: a queue's head. -/
theorem hostRead_sqHead {vd q : Nat} (hvd : vd < 64) (hq : q < 64) :
    hostRead s none 2 (vd * 0x100000 + q * 0x4000 + 0x008) = some (word (reg s vd q).sqHead.toNat) :=
  hostRead_barTwo hup hn hvd hq (by decide) rfl

/-- A register of the page-request block, which queue 0's block holds. -/
theorem hostRead_request {vd o : Nat} (hvd : vd < 64) (h0 : 0x30 ≤ o) (ho : o < 0x1000) (h8 : o % 8 = 0) :
    hostRead s none 2 (vd * 0x100000 + o) = some (word (requestWord (vdOf s vd) o)) := by
  have h := hostRead_barTwo hup hn (q := 0) hvd (by decide) ho h8
  rwa [if_neg (Nat.not_lt.2 h0), if_pos rfl, Nat.zero_mul, Nat.add_zero] at h

/-- R19, R29: a virtual function reads its own 64 kick bits. -/
theorem hostRead_kicks {vd : Nat} (hvd : vd < 64) (hs : (vdOf s vd).state ≠ 0) :
    ∃ w, hostRead s (some vd) 4 0 = some w ∧ ∀ q < 64, w.getLsbD q = s.kicks.contains (vd * 64 + q) := by
  refine ⟨word (barFourWord s (vd * 8)), ?_, fun q hq => kickBits s hvd hq⟩
  simp [hostRead, hup, hn, guestFourWord, hs, word]
end

theorem word_toNat (w : Word) : word w.toNat = w := BitVec.eq_of_toNat_eq (by simp [word])

/-- R25: reads by their offset. -/
theorem readsShowTheState : Stated.ReadsShowTheState := by
  refine fun s => ⟨fun d hd => ⟨read_tick s hd, read_ratio s hd, read_swallowed s hd⟩, fun core hc b hb => read_residency s hc hb,
    fun vd hvd => ⟨read_block s hvd (by decide) rfl, read_block s hvd (by decide) rfl, fun k hk hk' => ?_⟩,
    fun hup hn vd hvd => ⟨fun q hq => hostRead_sqHead hup hn hvd hq, ?_, ?_, hostRead_kicks hup hn hvd⟩, fun hd fn bar off => ?_⟩
  · rw [read_block s hvd hk' (by omega), blockWord_reserved s vd hk]; rfl
  · rw [hostRead_request hup hn hvd (by decide) (by decide) rfl]
    exact congrArg some (word_toNat _)
  · rw [hostRead_request hup hn hvd (by decide) (by decide) rfl]
    exact congrArg some (word_toNat _)
  · simp [hostRead, hd]

/-- Settles O58: boot, attestation, domains and power, and the management window's writes and reads. -/
theorem theModuleBootsAndIsManaged : Obligations.TheModuleBootsAndIsManaged :=
  ⟨resetBoots, requestsAreAnswered, domainsAndPower, writesReachTheirRegister, readsShowTheState⟩

end Sys2Proof.Proofs
end

section
/-!
SUPPORT. What refutes the statements on interrupts and stops (O52) and on copies and their errors (O53).
-/
namespace Sys2Proof.Proofs
open Sys2Proof Sys2Proof.Machine Sys2Proof.Stated Sys2Proof.Laws

/-! ## Stops write no memory; what abandons an idem region may (R116, R119) -/

@[simp] theorem withdraw_mem (s : State) (c : Ctx) : (withdraw s c).mem = s.mem := by
  unfold withdraw; split <;> rfl

@[simp] theorem holdCmds_mem (s : State) (c : Ctx) : (holdCmds s c).mem = s.mem := by
  simp [holdCmds, dropFar, dropCmds]

@[simp] theorem stopStarted_mem (s : State) (c : Ctx) (tick : Nat) : (stopStarted s c tick).mem = s.mem := by
  simp [stopStarted, dropCmds, dropOwned]

@[simp] theorem enginesStop_mem (s : State) (uid : Nat) : (enginesStop s uid).mem = s.mem := by
  unfold enginesStop; split <;> simp

/-- R116: a precise stop writes no memory, at whichever tick the engines stop. -/
@[simp] theorem stopContext_mem (s : State) (uid : Nat) : (stopContext s uid).mem = s.mem := by
  unfold stopContext
  split
  · rfl
  · simp [pick, apply_ite State.mem]

/-- R119: an interrupt that is no freeze abandons the open idem region, and memory is as that leaves it. -/
theorem takeInterrupt_idem_mem {s : State} {uid : Nat} {c : Ctx} {r : Region} (hc : unitOf s uid = some c)
    (hf : c.heldIrq.contains 3 = false) (hr : c.region = some r) (hi : r.idem = true) : (takeInterrupt s uid).mem
      = (abandon (withdraw (modUnit s uid (fun c => { c with heldIrq := [] })) c) uid).mem := by
  have hidem : c.idem = true := by simp [Ctx.idem, hr, hi]
  simp only [takeInterrupt, hc, hf, hr, hidem, Bool.false_and, Bool.false_eq_true, if_false, stopContext_mem, modUnit_mem]

/-! ## A freeze of a unit that stands under a number not its own (R46, R92, R346) -/

/-- An idem region whose snapshot holds a byte of a synchronisation word at the scratchpad's first place. -/
def wordRegion : Region := { (default : Region) with idem := true, snap := { (default : Snapshot) with words := [(0, [1])] } }

/-- A unit with number 6 in that region, with a granule of scratchpad. -/
def misfiledUnit : Ctx := { Ctx.reset with uid := 6, spad := [⟨0, 1, 0⟩], region := some wordRegion }

/-- Unit 1 executes on a RUNNING device whose one team has unit 5, and the entry of unit 5 is the unit with number 6. -/
def misfiledState : State := { State.reset with
  cx := some { Ctx.reset with uid := 1 }, units := [(5, misfiledUnit)]
  rents := [(0, { (default : Rent) with space := 1, state := 1 })]
  teams := [(0, { (default : Team) with units := [5], state := 1 })], vds := [(0, { VDev.reset with state := 2 })] }

/-- As the freeze comes to unit 5: what is noted of it stands in the entry of unit 6. -/
def misfiledFrozen : State :=
  let s := { misfiledState with cx := some { Ctx.reset with uid := 1, bpPast := true, wait := .debug } }
  let s := modTeam (modVd s 0 (fun v => { v with busy := true, cmd := 5 })) 0 (fun m => { m with state := 2 })
  let s := modUnit s 5 (fun c => { c with sliceEnd := some 0 })
  modUnit (schedC s misfiledUnit (2 ^ 16) 17 (.ins (.regionBoundaryTimeout 5))) 5 (fun c => { c with heldIrq := c.heldIrq ++ [3] })

theorem breakpointMatch_misfiled : exec (.breakpointMatch 0) misfiledState = .next (
    if freezeDone (takeInterrupt misfiledFrozen 5) 0 then
      sched (takeInterrupt misfiledFrozen 5) 0 (now (takeInterrupt misfiledFrozen 5) 0) 18 0 0 (.ins (.freezeComplete 0))
    else takeInterrupt misfiledFrozen 5) := rfl

/-- The snapshot's byte returns to the scratchpad. -/
theorem abandon_misfiled : (abandon (withdraw (modUnit misfiledFrozen 5 (fun c => { c with heldIrq := [] })) misfiledUnit) 5).mem.read
    (locOf 1 0) = 1 := by
  decide

theorem breakpointMatch_misfiled_writes {t : State} (h : exec (.breakpointMatch 0) misfiledState = .next t) :
    t.mem.read (locOf 1 0) = 1 := by
  rw [breakpointMatch_misfiled] at h
  cases h
  rw [apply_ite State.mem, sched_mem, ite_self, takeInterrupt_idem_mem (c := misfiledUnit) (r := wordRegion) rfl rfl rfl rfl,
    abandon_misfiled]

/-- Refutes O52, at its breakpoint clause, which supposes nothing of the table of units: in `misfiledState` unit 5's entry is a unit
with number 6. What the freeze notes of unit 5 goes to entry 6, so unit 5 meets it as an interrupt of another kind and abandons its
idem region, which writes memory where the clause has t.mem = s.mem. `State.keyed` fails there. -/
theorem not_interruptsAndStopsAreTaken : ¬ Obligations.InterruptsAndStopsAreTaken := by
  rintro ⟨-, -, -, hbreak, -, -⟩
  obtain ⟨t, ht, -, -, -, hmem, -⟩ := (hbreak 0 misfiledState _ rfl rfl).2 ⟨.inr rfl, rfl⟩
  have hw := breakpointMatch_misfiled_writes ht
  rw [hmem] at hw
  exact absurd hw (by decide)

/-! ## A poisoned read whose source is remote (R18, R331) -/

/-- A copy that reads from another node reads over no CXL link: none errs. -/
theorem wordError_remote {s : State} {id eng : Nat} {k : Cmd} (j : Nat) (he : engineWith s id = some (eng, k))
    (hr : remoteSide k 1 = true) : wordError s id j = s := by
  unfold wordError
  rw [he]
  dsimp only
  split
  · rfl
  · rw [if_pos hr]

theorem badWord_links (s : State) (id j : Nat) : (badWord s id j).links = s.links := by
  unfold badWord
  split
  · rfl
  · split <;> rfl

/-- A poisoned read of a copy whose source is remote counts on no link. -/
theorem badRead_remote_links {s : State} {id eng : Nat} {k : Cmd} (j : Nat) (he : engineWith s id = some (eng, k))
    (hr : remoteSide k 1 = true) : (badRead s id j).links = s.links := by
  rw [badRead, if_pos (by rw [he]; rfl), wordError_remote j he hr, badWord_links]

/-- A copy of a word whose source, at 0x30000, is on another node. -/
def remoteCopy : Cmd :=
  { (default : Cmd) with
    id := 5, uid := 1, ins := .cpy default { (default : CopyF) with rsrc := 1 }, vals := [0x20000, 0x30000, 32, 0], live := 1, start := some 0 }

/-- Engine 0 runs that copy for unit 1, whose device has a tier-3 page of its own at 0x30000. -/
def remoteState : State := { State.reset with
  units := [(1, { Ctx.reset with uid := 1 })], engines := [(0, { (default : CopyEng) with mainPath := some remoteCopy })]
  rents := [(refOf 0 3 0, { (default : Rent) with space := 7, state := 1, tier := 3 })]
  vds := [(0, { VDev.reset with state := 2, maps := [⟨0x30000, 1, refOf 0 3 0, false, 0, false⟩] })] }

/-- Refutes O53, at the clause that counts a poisoned word on the link of its source's place, which does not leave out remote sources:
in `remoteState` the source is on another node, and the same address names a page behind CXL link 0 of this one, on which nothing
is counted. -/
theorem not_copiesStartLandAndErr : ¬ Obligations.CopiesStartLandAndErr := by
  rintro ⟨-, -, ⟨hword, -, -⟩, -⟩
  obtain ⟨t, -, ht, -, -, -, -, hcount⟩ :=
    hword (.cxlPoisonReturn 5 0) 5 0 0 remoteState remoteCopy (.inl rfl) rfl rfl (Nat.le_refl 0) Nat.one_pos
  have hlinks : t.links = remoteState.links := by
    cases ht
    exact badRead_remote_links (k := remoteCopy) 0 rfl rfl
  have hone := hcount _ _ 0 rfl rfl rfl
  rw [hlinks] at hone
  exact absurd hone (by decide)

end Sys2Proof.Proofs
end

section
/-!
SUPPORT. O54: the rules of a queue's registers and of the journal, kicks and records, and completions.
-/
namespace Sys2Proof.Proofs
open Sys2Proof Sys2Proof.Machine Sys2Proof.Stated Sys2Proof.Laws

/-! ## What the journal and the queue registers leave unchanged -/

/-- The newel looks at its scoreboard again within 2^12 ticks of a journal entry. -/
def reviewed (s : State) : State :=
  if s.agenda.any (fun e => e.act == .ins .scoreboardReevaluate) then s else schedNewel s (2 ^ 12) .scoreboardReevaluate

theorem reviewed_eq (s : State) : reviewed s = { s with agenda := (reviewed s).agenda } := by
  unfold reviewed
  split <;> rfl

/-- A journal entry is of the newel's state alone, but for the choice of its lag and the event that comes to look again. -/
theorem journalBytes_eq (s : State) (kind vd queue seq : Nat) (payload : List Byte) :
    journalBytes s kind vd queue seq payload = { s with
      newel := (journalBytes s kind vd queue seq payload).newel, free := s.free + 1
      agenda := (reviewed { s with free := s.free + 1 }).agenda } := by
  have h : journalBytes s kind vd queue seq payload = { reviewed { s with free := s.free + 1 } with
      newel := (journalBytes s kind vd queue seq payload).newel } := rfl
  rw [h, reviewed_eq]

section
variable (s : State) (kind vd queue seq : Nat)

@[simp] theorem journalBytes_vds (payload : List Byte) : (journalBytes s kind vd queue seq payload).vds = s.vds := by
  rw [journalBytes_eq]
@[simp] theorem journalBytes_kicks (payload : List Byte) : (journalBytes s kind vd queue seq payload).kicks = s.kicks := by
  rw [journalBytes_eq]
@[simp] theorem journalBytes_launches (payload : List Byte) : (journalBytes s kind vd queue seq payload).launches = s.launches := by
  rw [journalBytes_eq]
@[simp] theorem journalBytes_nextId (payload : List Byte) : (journalBytes s kind vd queue seq payload).nextId = s.nextId := by
  rw [journalBytes_eq]
@[simp] theorem journalBytes_mem (payload : List Byte) : (journalBytes s kind vd queue seq payload).mem = s.mem := by
  rw [journalBytes_eq]
@[simp] theorem journalBytes_clock (payload : List Byte) : (journalBytes s kind vd queue seq payload).clock = s.clock := by
  rw [journalBytes_eq]
@[simp] theorem journalBytes_window (payload : List Byte) : (journalBytes s kind vd queue seq payload).window = s.window := by
  rw [journalBytes_eq]
@[simp] theorem journalBytes_vectors (payload : List Byte) : (journalBytes s kind vd queue seq payload).vectors = s.vectors := by
  rw [journalBytes_eq]
@[simp] theorem journalBytes_rents (payload : List Byte) : (journalBytes s kind vd queue seq payload).rents = s.rents := by
  rw [journalBytes_eq]

@[simp] theorem journal_vds (payload : List Nat) : (journal s kind vd queue seq payload).vds = s.vds := journalBytes_vds ..
@[simp] theorem journal_kicks (payload : List Nat) : (journal s kind vd queue seq payload).kicks = s.kicks := journalBytes_kicks ..
@[simp] theorem journal_launches (payload : List Nat) : (journal s kind vd queue seq payload).launches = s.launches := journalBytes_launches ..
@[simp] theorem journal_mem (payload : List Nat) : (journal s kind vd queue seq payload).mem = s.mem := journalBytes_mem ..
@[simp] theorem journal_clock (payload : List Nat) : (journal s kind vd queue seq payload).clock = s.clock := journalBytes_clock ..
@[simp] theorem journal_window (payload : List Nat) : (journal s kind vd queue seq payload).window = s.window := journalBytes_window ..
@[simp] theorem journal_vectors (payload : List Nat) : (journal s kind vd queue seq payload).vectors = s.vectors := journalBytes_vectors ..
@[simp] theorem journal_rents (payload : List Nat) : (journal s kind vd queue seq payload).rents = s.rents := journalBytes_rents ..

end

section
variable (s : State) (d : Nat) (i : Instr)

@[simp] theorem schedNewel_vds : (schedNewel s d i).vds = s.vds := rfl

end

/-- Devices, and so their queues, are the same where the table of devices is. -/
theorem vdOf_congr {s t : State} (h : s.vds = t.vds) (vd : Nat) : vdOf s vd = vdOf t vd := by unfold vdOf; rw [h]

theorem reg_congr {s t : State} (h : s.vds = t.vds) (vd q : Nat) : reg s vd q = reg t vd q := by unfold reg; rw [vdOf_congr h]

@[simp] theorem reg_modQueue (s : State) (vd q : Nat) (f : Queue → Queue) : reg (modQueue s vd q f) vd q = f (reg s vd q) := by
  simp [reg, modQueue, queueReg]

theorem modQueue_congr {s : State} {vd q : Nat} {f g : Queue → Queue} (h : f (reg s vd q) = g (reg s vd q)) :
    modQueue s vd q f = modQueue s vd q g :=
  modVd_congr (by simp [tmod]; rw [show (tget (vdOf s vd).queues q).getD Queue.reset = reg s vd q from rfl, h])

/-- A change of a queue to a value sets it. -/
theorem modQueue_eq (s : State) (vd q : Nat) (f : Queue → Queue) : modQueue s vd q f = SetQueue s vd q (f (reg s vd q)) :=
  modVd_congr rfl

section
variable (s : State) (vd q : Nat) (f : Queue → Queue)

@[simp] theorem modQueue_launches : (modQueue s vd q f).launches = s.launches := rfl
@[simp] theorem modQueue_mem : (modQueue s vd q f).mem = s.mem := rfl
@[simp] theorem modQueue_vectors : (modQueue s vd q f).vectors = s.vectors := rfl
@[simp] theorem modQueue_nextId : (modQueue s vd q f).nextId = s.nextId := rfl

end

/-- The check of a drain adds its event to the agenda, or nothing. -/
theorem drainCheck_eq (s : State) (vd q : Nat) : ∃ a, drainCheck s vd q = { s with agenda := a } := by
  unfold drainCheck
  simp only
  split
  · exact ⟨_, rfl⟩
  · exact ⟨_, rfl⟩

@[simp] theorem drainCheck_vds (s : State) (vd q : Nat) : (drainCheck s vd q).vds = s.vds := by
  obtain ⟨a, h⟩ := drainCheck_eq s vd q; rw [h]
@[simp] theorem drainCheck_mem (s : State) (vd q : Nat) : (drainCheck s vd q).mem = s.mem := by
  obtain ⟨a, h⟩ := drainCheck_eq s vd q; rw [h]
@[simp] theorem drainCheck_window (s : State) (vd q : Nat) : (drainCheck s vd q).window = s.window := by
  obtain ⟨a, h⟩ := drainCheck_eq s vd q; rw [h]
@[simp] theorem drainCheck_vectors (s : State) (vd q : Nat) : (drainCheck s vd q).vectors = s.vectors := by
  obtain ⟨a, h⟩ := drainCheck_eq s vd q; rw [h]

/-- A queue's vector is raised where it is enabled. -/
theorem raiseVector_eq (s : State) (vd q : Nat) :
    raiseVector s vd q = { s with vectors := s.vectors ++ (if (reg s vd q).irqEn then [(vd, (reg s vd q).vector.toNat)] else []) } := by
  unfold raiseVector reg
  simp only
  split
  · rfl
  · simp

@[simp] theorem retire_vds (s : State) : (retire s).vds = s.vds := rfl
@[simp] theorem retire_launches (s : State) : (retire s).launches = s.launches := rfl
@[simp] theorem retire_mem (s : State) : (retire s).mem = s.mem := rfl
@[simp] theorem retire_window (s : State) : (retire s).window = s.window := rfl
@[simp] theorem retire_vectors (s : State) : (retire s).vectors = s.vectors := rfl
@[simp] theorem retire_nextId (s : State) : (retire s).nextId = s.nextId := rfl

/-! ## Completions (R31, R32) -/

/-- A completion is signalled with the count it makes, and not later. -/
def signalsNow (r : Queue) : Bool := r.coalesce = 0 || decide (r.coalesce.toNat ≤ r.since + 1)

/-- What a written completion leaves in its queue's registers, at a tick. -/
def countOne (tick : Nat) (r : Queue) : Queue :=
  { r with
    cqTail := r.cqTail + 1, moved := tick
    since := if signalsNow r then 0 else r.since + 1 }

/-- Where a completion record goes (R26, Table 2.5). -/
def slotOf (vd q : Nat) (tail : BitVec 32) : Nat := queueBase vd q + 0x3000 + tail.toNat % 128 * 32

/-- A changed queue depends on the table of devices and on what its registers become. -/
theorem modQueue_vds_congr {s t : State} {vd q : Nat} {f g : Queue → Queue} (h : s.vds = t.vds) (hf : f (reg s vd q) = g (reg s vd q)) :
    (modQueue s vd q f).vds = (modQueue t vd q g).vds := by
  rw [modQueue_congr hf]
  simp only [modQueue, modVd, h]

/-- A record is journaled and stands in its slot; its queue does not count it yet. -/
def recorded (s : State) (vd : Nat) (k : Completion) : State :=
  let tail := (reg s vd k.queue).cqTail
  { journal s 8 vd k.queue k.seq [tail.toNat + 1] with
    window := (journal s 8 vd k.queue k.seq [tail.toNat + 1]).window.writeRun (slotOf vd k.queue tail) (completionBytes tail.toNat k) }

/-- A completion is signalled as its queue is counted: at once, or after 2^12 ticks without another. -/
def signalled (s : State) (vd q : Nat) (now : Bool) : State :=
  if now then raiseVector s vd q else schedNewel s (2 ^ 12) (.coalesceTimeout vd q)

theorem writeCompletion_eq (s : State) (vd : Nat) (k : Completion) :
    writeCompletion s vd k = retire (drainCheck (signalled (modQueue (recorded s vd k) vd k.queue (fun r => { r with
      cqTail := r.cqTail + 1
      since := if signalsNow (reg (recorded s vd k) vd k.queue) then 0 else r.since + 1
      moved := now (recorded s vd k) 0 })) vd k.queue (signalsNow (reg (recorded s vd k) vd k.queue))) vd k.queue) := rfl

theorem recorded_vds (s : State) (vd : Nat) (k : Completion) : (recorded s vd k).vds = s.vds := by simp [recorded]
theorem recorded_clock (s : State) (vd : Nat) (k : Completion) : (recorded s vd k).clock = s.clock := by simp [recorded]
theorem recorded_mem (s : State) (vd : Nat) (k : Completion) : (recorded s vd k).mem = s.mem := by simp [recorded]
theorem recorded_vectors (s : State) (vd : Nat) (k : Completion) : (recorded s vd k).vectors = s.vectors := by simp [recorded]
theorem recorded_window (s : State) (vd : Nat) (k : Completion) : (recorded s vd k).window
    = s.window.writeRun (slotOf vd k.queue (reg s vd k.queue).cqTail) (completionBytes (reg s vd k.queue).cqTail.toNat k) := by
  simp [recorded]

section
variable (s : State) (vd q : Nat) (b : Bool)

theorem signalled_vds : (signalled s vd q b).vds = s.vds := by
  unfold signalled
  split
  · rw [raiseVector_eq]
  · rfl
theorem signalled_mem : (signalled s vd q b).mem = s.mem := by
  unfold signalled
  split
  · rw [raiseVector_eq]
  · rfl
theorem signalled_window : (signalled s vd q b).window = s.window := by
  unfold signalled
  split
  · rw [raiseVector_eq]
  · rfl

end

section
variable (s : State) (vd : Nat) (k : Completion)

/-- A completion is one count in its queue's registers. -/
theorem writeCompletion_vds : (writeCompletion s vd k).vds = (modQueue s vd k.queue (countOne (now s 0))).vds := by
  rw [writeCompletion_eq, retire_vds, drainCheck_vds, signalled_vds]
  refine modQueue_vds_congr (recorded_vds s vd k) ?_
  have hn : now (recorded s vd k) 0 = now s 0 := by unfold now; rw [recorded_clock]
  rw [hn]
  rfl

theorem writeCompletion_mem : (writeCompletion s vd k).mem = s.mem := by
  rw [writeCompletion_eq, retire_mem, drainCheck_mem, signalled_mem]
  exact recorded_mem s vd k

/-- Its record stands in its slot. -/
theorem writeCompletion_window : (writeCompletion s vd k).window
    = s.window.writeRun (slotOf vd k.queue (reg s vd k.queue).cqTail) (completionBytes (reg s vd k.queue).cqTail.toNat k) := by
  rw [writeCompletion_eq, retire_window, drainCheck_window, signalled_window]
  exact recorded_window s vd k

/-- Its vector is raised at once where completions are not coalesced. -/
theorem writeCompletion_vectors (h : (reg s vd k.queue).coalesce = 0) : (writeCompletion s vd k).vectors
    = s.vectors ++ (if (reg s vd k.queue).irqEn then [(vd, (reg s vd k.queue).vector.toNat)] else []) := by
  have hr : reg (recorded s vd k) vd k.queue = reg s vd k.queue := reg_congr (recorded_vds s vd k) vd k.queue
  have hs : signalsNow (reg s vd k.queue) = true := by simp [signalsNow, h]
  rw [writeCompletion_eq, retire_vectors, drainCheck_vectors, hr, hs]
  simp only [signalled, if_true, raiseVector_eq, reg_modQueue, modQueue_vectors, recorded_vectors, hr]

end

/-- A queue's head is the guest's: completions leave it alone. -/
theorem writeCompletion_cqHead (s : State) (vd q : Nat) (k : Completion) :
    (reg (writeCompletion s vd k) vd q).cqHead = (reg s vd q).cqHead := by
  rw [reg_congr (writeCompletion_vds s vd k)]
  by_cases h : k.queue = q
  · subst h
    rw [reg_modQueue]
    rfl
  · simp [reg, modQueue, queueReg, tget_tmod_ne _ _ _ h]

/-- No completion waits: nothing goes out. -/
theorem writeCompletions_nil {s : State} {vd : Nat} (n : Nat) (h : (vdOf s vd).withheld = []) : writeCompletions n s vd = s := by
  cases n with
  | zero => rfl
  | succ n => simp only [writeCompletions, h]

/-- The next completion stays: its device does not take it, its ring is full, or an earlier one is still to come. -/
def staysBack (s : State) (vd : Nat) (k : Completion) : Bool :=
  ((vdOf s vd).state != 2 && !destroying (vdOf s vd)) || 128 ≤ ((reg s vd k.queue).cqTail - (reg s vd k.queue).cqHead).toNat
    || endsBefore s vd k

/-- The first completion of a device is withheld no more. -/
def nextOut (s : State) (vd : Nat) (r : List Completion) : State := modVd s vd (fun v => { v with withheld := r })

theorem writeCompletions_cons {s : State} {vd : Nat} {k : Completion} {r : List Completion} (n : Nat) (h : (vdOf s vd).withheld = k :: r) :
    writeCompletions (n + 1) s vd
      = if staysBack s vd k then s else writeCompletions n (writeCompletion (nextOut s vd r) vd k) vd := by
  simp only [writeCompletions, h]
  rfl

theorem writeCompletions_keeps {γ : Type} (p : State → γ) (hv : ∀ s vd r, p (nextOut s vd r) = p s)
    (hw : ∀ s vd k, p (writeCompletion s vd k) = p s) (n : Nat) (s : State) (vd : Nat) : p (writeCompletions n s vd) = p s := by
  induction n generalizing s with
  | zero => rfl
  | succ n ih =>
    cases h : (vdOf s vd).withheld with
    | nil => rw [writeCompletions_nil _ h]
    | cons k r =>
      rw [writeCompletions_cons n h]
      split
      · rfl
      · rw [ih, hw, hv]

/-- What goes out leaves memory and the guest's heads alone. -/
theorem flushCompletions_keeps {γ : Type} (p : State → γ) (hv : ∀ s vd r, p (nextOut s vd r) = p s)
    (hw : ∀ s vd k, p (writeCompletion s vd k) = p s) (s : State) (vd : Nat) : p (flushCompletions s vd) = p s := by
  unfold flushCompletions
  split
  · rfl
  · exact writeCompletions_keeps p hv hw _ s vd

theorem flushCompletions_mem (s : State) (vd : Nat) : (flushCompletions s vd).mem = s.mem :=
  flushCompletions_keeps State.mem (fun _ _ _ => rfl) writeCompletion_mem s vd

theorem reg_nextOut (s : State) (vd q d : Nat) (r : List Completion) : reg (nextOut s d r) vd q = reg s vd q := by
  unfold reg queueReg nextOut
  by_cases h : d = vd
  · subst h
    rw [vdOf_modVd_self]
  · rw [vdOf_modVd_ne _ _ h]

theorem flushCompletions_cqHead (s : State) (vd q : Nat) : (reg (flushCompletions s vd) vd q).cqHead = (reg s vd q).cqHead :=
  flushCompletions_keeps (fun s => (reg s vd q).cqHead) (fun s d r => by rw [reg_nextOut])
    (fun s d k => by
      by_cases h : d = vd
      · subst h
        exact writeCompletion_cqHead s d q k
      · rw [reg_congr (writeCompletion_vds s d k)]
        simp only [reg, modQueue, vdOf_modVd_ne _ _ h]) s vd

/-- The only completion a device withholds goes out where nothing holds it back. -/
theorem flushCompletions_one {s : State} {vd : Nat} {k : Completion} (ha : NewelActs s) (hk : (vdOf s vd).withheld = [k])
    (hs : staysBack s vd k = false) : flushCompletions s vd = writeCompletion (nextOut s vd []) vd k := by
  have hr : (vdOf (writeCompletion (nextOut s vd []) vd k) vd).withheld = [] := by
    rw [vdOf_congr (writeCompletion_vds _ vd k), modQueue, vdOf_modVd_self]
    simp [nextOut]
  rw [flushCompletions, ha.1, if_neg (by simpa using ha.2), flushNow, hk]
  rw [show [k].length + 1 = 1 + 1 from rfl, writeCompletions_cons 1 hk, hs]
  exact writeCompletions_nil 1 hr

/-- The low n bytes of a number, the low bytes of the number as a word: n is at most 8. -/
theorem lowBytes_of_nat {n : Nat} (hn : n ≤ 8) (v : Nat) : lowBytes n (word v) = bytesOfNat n v := by
  have h := congrArg (List.take n) (lowBytes_word v)
  simpa [lowBytes, ← lowBytes_eq_bytesOfNat, ← List.map_take, List.take_range, hn] using h

theorem completionImage_eq (tail : Nat) (k : Completion) : completionImage tail k = completionBytes tail k := by
  simp only [completionImage, completionBytes, lowBytes_of_nat, Nat.reduceLeDiff, Nat.le_refl]

theorem completionBytes_length (tail : Nat) (k : Completion) : (completionBytes tail k).length = 32 := by
  simp [completionBytes]

/-- R31, R32: the completion that is due is written, counted and signalled. -/
theorem completionWrite_spec {s : State} {vd : Nat} {k : Completion} (ha : NewelActs s) (hst : (vdOf s vd).state = 2)
    (hk : (vdOf s vd).withheld = [k]) (he : endsBefore s vd k = false)
    (hroom : ((reg s vd k.queue).cqTail - (reg s vd k.queue).cqHead).toNat < 128) :
    let r := reg s vd k.queue
    ∃ t, exec (.completionWrite vd) s = .next t ∧ (vdOf t vd).withheld = []
      ∧ (reg t vd k.queue).cqTail = r.cqTail + 1 ∧ t.mem = s.mem
      ∧ t.window.readRun (vd * 0x100000 + k.queue * 0x4000 + 0x3000 + r.cqTail.toNat % 128 * 32) 32 = completionImage r.cqTail.toNat k
      ∧ (r.coalesce = 0 → r.irqEn = true → (vd, r.vector.toNat) ∈ t.vectors)
      ∧ (r.coalesce = 0 → r.irqEn = false → t.vectors = s.vectors) := by
  have hs : staysBack s vd k = false := by
    simp only [staysBack, hst, he, decide_eq_false (Nat.not_le.mpr hroom)]
    rfl
  have hr : reg (nextOut s vd []) vd k.queue = reg s vd k.queue := reg_nextOut s vd k.queue vd []
  have hv (h : (reg s vd k.queue).coalesce = 0) := writeCompletion_vectors (nextOut s vd []) vd k (by rw [hr, h])
  refine ⟨writeCompletion (nextOut s vd []) vd k, ?_, ?_, ?_, ?_, ?_, ?_, ?_⟩
  · change execCompletionWrite vd s = _
    rw [execCompletionWrite, flushCompletions_one ha hk hs]
  · rw [vdOf_congr (writeCompletion_vds _ vd k), modQueue, vdOf_modVd_self]
    simp [nextOut]
  · rw [reg_congr (writeCompletion_vds _ vd k), reg_modQueue, hr]
    rfl
  · rw [writeCompletion_mem]
    rfl
  · rw [writeCompletion_window, hr, completionImage_eq]
    have h := readRun_writeRun_self (nextOut s vd []).window (slotOf vd k.queue (reg s vd k.queue).cqTail)
      (completionBytes (reg s vd k.queue).cqTail.toNat k)
    rwa [completionBytes_length] at h
  · intro h hi
    rw [hv h, hr, hi]
    simp
  · intro h hi
    rw [hv h, hr, hi]
    simp [nextOut]

/-- Table 2.3: 2^12 ticks without another completion, those counted so far are signalled. -/
theorem coalesceTimeout_spec {s : State} {vd q : Nat} (hs : (reg s vd q).since ≠ 0) (hm : (reg s vd q).moved + 2 ^ 12 = now s 0) :
    ∃ t, exec (.coalesceTimeout vd q) s = .next t ∧ reg t vd q = { reg s vd q with since := 0 } ∧ t.mem = s.mem
      ∧ t.vectors = s.vectors ++ (if (reg s vd q).irqEn then [(vd, (reg s vd q).vector.toNat)] else []) := by
  refine ⟨raiseVector (modQueue s vd q (fun r => { r with since := 0 })) vd q, ?_, ?_, ?_, ?_⟩
  · change execCoalesceTimeout vd q s = _
    unfold execCoalesceTimeout
    rw [if_neg]
    change ¬ ((decide ((reg s vd q).since = 0) || (reg s vd q).moved + 2 ^ 12 != now s 0) = true)
    simp [hs, ← hm]
  · rw [raiseVector_eq]
    exact reg_modQueue ..
  · rw [raiseVector_eq]
    rfl
  · rw [raiseVector_eq, reg_modQueue]
    rfl

theorem completionsAreWritten : Stated.CompletionsAreWritten :=
  ⟨fun _ _ _ ha hst hk he hroom => completionWrite_spec ha hst hk he hroom, fun _ _ _ hs hm => coalesceTimeout_spec hs hm⟩

/-! ## Writes of the guest (R27, R46) -/

/-- Every write of a queue's registers is the guest's. -/
theorem queueWrite_guestWrite {vd q : Nat} {i : Instr} (h : queueWrite vd q i) : ∃ f, ∀ s, exec i s = .next (guestWrite s vd q f) := by
  rcases h with ⟨v, rfl⟩ | rfl | ⟨v, rfl⟩ | ⟨v, rfl⟩ | rfl
  · exact ⟨_, fun _ => rfl⟩
  · exact ⟨_, fun _ => rfl⟩
  · exact ⟨_, fun _ => rfl⟩
  · exact ⟨_, fun _ => rfl⟩
  · exact ⟨_, fun _ => rfl⟩

theorem guestWrite_frozen {s : State} {vd q : Nat} (f : State → State) (hvd : vd < 64) (hq : q < 64) (h3 : (vdOf s vd).state = 3)
    (hd : destroying (vdOf s vd) = false) (hu : newelUp s = true) : guestWrite s vd q f
      = modQueue (modVd s vd (fun v => { v with droppedWrites := v.droppedWrites + 1 })) vd q (fun r => { r with error := true, code := 4 }) := by
  unfold guestWrite
  simp [h3, hd, hu, Nat.not_le.mpr hvd, Nat.not_le.mpr hq]

theorem guestWrite_none {s : State} {vd q : Nat} (f : State → State)
    (h : 64 ≤ vd ∨ 64 ≤ q ∨ (vdOf s vd).state = 0 ∨ newelUp s = false) : guestWrite s vd q f = s := by
  unfold guestWrite
  rw [if_pos]
  rcases h with h | h | h | h
  · simp [h]
  · simp [h]
  · simp [h]
  · simp [h]

/-- R46: a write to a FROZEN device is dropped, counted and flagged. -/
theorem queueWrite_frozen {s : State} {vd q : Nat} {i : Instr} (hi : queueWrite vd q i) (hvd : vd < 64) (hq : q < 64)
    (h3 : (vdOf s vd).state = 3) (hd : destroying (vdOf s vd) = false) (hu : newelUp s = true) :
    ∃ t, exec i s = .next t ∧ (vdOf t vd).droppedWrites = (vdOf s vd).droppedWrites + 1
      ∧ reg t vd q = { reg s vd q with error := true, code := 4 } ∧ t.kicks = s.kicks ∧ t.mem = s.mem := by
  obtain ⟨f, hf⟩ := queueWrite_guestWrite hi
  rw [hf s, guestWrite_frozen f hvd hq h3 hd hu]
  refine ⟨_, rfl, ?_, ?_, rfl, rfl⟩
  · rw [modQueue, vdOf_modVd_self, vdOf_modVd_self]
  · rw [reg_modQueue]
    simp [reg, queueReg]

/-- How far a written tail stands before the head, as words and as numbers. -/
theorem tail_sub_head (val : Nat) (h : BitVec 32) : (BitVec.ofNat 32 val - h).toNat = (val + 2 ^ 32 - h.toNat) % 2 ^ 32 := by
  have := h.isLt
  simp only [BitVec.toNat_sub, BitVec.toNat_ofNat]
  omega

section
variable {s : State} {vd q : Nat}

theorem sqTailWrite_runs (val : Nat) (hg : Guest s vd) (hq : q < 64) : exec (.sqTailWrite vd q val) s = .next (
    if 32 < (val + 2 ^ 32 - (reg s vd q).sqHead.toNat) % 2 ^ 32 then
      modQueue s vd q (fun r => { r with error := true, code := 1, badSeq := BitVec.ofNat 32 val - 1 })
    else modQueue s vd q (fun r => { r with sqTail := BitVec.ofNat 32 val })) := by
  change execSqTailWrite vd q val s = _
  rw [execSqTailWrite, guestWrite_runs _ hg hq, ← tail_sub_head]
  rfl

/-- R28: a tail within the queue's 32 records of its head is taken. -/
theorem sqTailWrite_takes {val : Nat} (hg : Guest s vd) (hq : q < 64) (h : (val + 2 ^ 32 - (reg s vd q).sqHead.toNat) % 2 ^ 32 ≤ 32) :
    exec (.sqTailWrite vd q val) s = .next (SetQueue s vd q { reg s vd q with sqTail := BitVec.ofNat 32 val }) := by
  rw [sqTailWrite_runs val hg hq, if_neg (Nat.not_lt.mpr h), modQueue_eq]

/-- R28: a tail overrun is noted. -/
theorem sqTailWrite_overruns {val : Nat} (hg : Guest s vd) (hq : q < 64)
    (h : 32 < (val + 2 ^ 32 - (reg s vd q).sqHead.toNat) % 2 ^ 32) : ∃ t, exec (.sqTailWrite vd q val) s = .next t
      ∧ (reg t vd q).sqTail = (reg s vd q).sqTail ∧ (reg t vd q).error = true ∧ (reg t vd q).code = 1 ∧ t.mem = s.mem := by
  refine ⟨_, by rw [sqTailWrite_runs val hg hq, if_pos h], ?_⟩
  simp only [reg_modQueue, modQueue_mem, and_self]

/-- The kick bit of a queue is set. -/
def kicked (s : State) (k : Nat) : State := if s.kicks.contains k then s else { s with kicks := s.kicks ++ [k] }

theorem kicked_eq (s : State) (k : Nat) : kicked s k = { s with kicks := (kicked s k).kicks } := by
  unfold kicked
  split <;> rfl

theorem mem_kicks_kicked (s : State) (k j : Nat) : j ∈ (kicked s k).kicks ↔ j ∈ s.kicks ∨ j = k := by
  unfold kicked
  split
  · next h =>
    have hk : k ∈ s.kicks := by simpa using h
    exact ⟨Or.inl, fun h => h.elim id (fun e => e ▸ hk)⟩
  · simp

/-- R29: a kick sets its bit, and its scan follows. -/
theorem kick_spec (hg : Guest s vd) (hq : q < 64) : ∃ t, exec (.kick vd q) s = .next t ∧ vd * 64 + q ∈ t.kicks
    ∧ (∀ k ∈ s.kicks, k ∈ t.kicks) ∧ SameStorage s t ∧ ∃ e ∈ t.agenda, e.act = .ins (.kickScan vd q) := by
  refine ⟨schedNewel (openTicks (kicked s (vd * 64 + q))).2 (openTicks (kicked s (vd * 64 + q))).1 (.kickScan vd q), ?_, ?_, ?_, ?_, ?_⟩
  · change execKick vd q s = _
    rw [execKick, guestWrite_runs _ hg hq]
    rfl
  · exact (mem_kicks_kicked s _ _).mpr (Or.inr rfl)
  · exact fun k hk => (mem_kicks_kicked s _ _).mpr (Or.inl hk)
  · rw [kicked_eq]
    exact ⟨rfl, rfl, rfl, rfl, rfl, rfl, rfl⟩
  · obtain ⟨e, he, -, -, hi⟩ := at_schedNewel (openTicks (kicked s (vd * 64 + q))).2 (openTicks (kicked s (vd * 64 + q))).1 (.kickScan vd q)
    exact ⟨e, he, hi⟩

/-- R27, R32: a written completion head. -/
theorem cqHeadWrite_spec (val : Nat) (hg : Guest s vd) (hq : q < 64) : ∃ t, exec (.cqHeadWrite vd q val) s = .next t
    ∧ (reg t vd q).cqHead = BitVec.ofNat 32 val ∧ t.mem = s.mem := by
  refine ⟨flushCompletions (modQueue s vd q (fun r => { r with cqHead := BitVec.ofNat 32 val })) vd, ?_, ?_, ?_⟩
  · change execCqHeadWrite vd q val s = _
    rw [execCqHeadWrite, guestWrite_runs _ hg hq]
  · rw [flushCompletions_cqHead, reg_modQueue]
  · rw [flushCompletions_mem]
    rfl

@[simp] theorem reg_startDrain (s : State) (vd q : Nat) : reg (startDrain s vd q) vd q = { reg s vd q with drain := true } := by
  rw [startDrain, reg_congr (drainCheck_vds _ vd q), reg_modQueue]

@[simp] theorem startDrain_mem (s : State) (vd q : Nat) : (startDrain s vd q).mem = s.mem := by
  rw [startDrain, drainCheck_mem]
  rfl

/-- What a write of qctl leaves in a queue's registers but for its drain bit (Table 2.3). -/
def controlled (val : Nat) (r : Queue) : Queue :=
  { r with
    enable := bitsOf val 0 1 == 1, irqEn := bitsOf val 2 1 == 1, coalesce := BitVec.ofNat 8 (bitsOf val 8 8)
    vector := BitVec.ofNat 11 (bitsOf val 16 11), error := if (bitsOf val 0 1 == 1) = true then false else r.error }

theorem controlled_fields (val : Nat) (r : Queue) :
    (controlled val r).enable = decide (val % 2 = 1) ∧ (controlled val r).irqEn = decide (val / 4 % 2 = 1)
      ∧ (controlled val r).coalesce = BitVec.ofNat 8 (val / 256) ∧ (controlled val r).vector = BitVec.ofNat 11 (val / 65536)
      ∧ (val % 2 = 1 → (controlled val r).error = false) := by
  refine ⟨?_, ?_, ?_, ?_, ?_⟩
  · simp only [controlled, bitsOf, Nat.pow_zero, Nat.div_one, Nat.reducePow, beq_eq_decide]
  · simp only [controlled, bitsOf, Nat.pow_zero, Nat.div_one, Nat.reducePow, beq_eq_decide]
  · exact BitVec.eq_of_toNat_eq (by simp [controlled, bitsOf])
  · exact BitVec.eq_of_toNat_eq (by simp [controlled, bitsOf])
  · intro h
    simp [controlled, bitsOf, h]

theorem queueEnable_runs (val : Nat) (hg : Guest s vd) (hq : q < 64) : exec (.queueEnable vd q val) s = .next (
    if bitsOf val 1 1 = 1 then startDrain (modQueue s vd q (controlled val)) vd q else modQueue s vd q (controlled val)) := by
  change execQueueEnable vd q val s = _
  rw [execQueueEnable, guestWrite_runs _ hg hq]
  rfl

/-- Tables 2.3 and 2.4: a write of qctl. -/
theorem queueEnable_spec (val : Nat) (hg : Guest s vd) (hq : q < 64) : ∃ t, exec (.queueEnable vd q val) s = .next t
    ∧ (reg t vd q).enable = decide (val % 2 = 1)
    ∧ (reg t vd q).irqEn = decide (val / 4 % 2 = 1) ∧ (reg t vd q).coalesce = BitVec.ofNat 8 (val / 256)
    ∧ (reg t vd q).vector = BitVec.ofNat 11 (val / 65536) ∧ (val % 2 = 1 → (reg t vd q).error = false)
    ∧ (val / 2 % 2 = 1 → (reg t vd q).drain = true) ∧ (reg t vd q).sqTail = (reg s vd q).sqTail
    ∧ (reg t vd q).cqTail = (reg s vd q).cqTail := by
  obtain ⟨hen, hirq, hco, hvec, herr⟩ := controlled_fields val (reg s vd q)
  refine ⟨_, queueEnable_runs val hg hq, ?_⟩
  by_cases h : bitsOf val 1 1 = 1
  · rw [if_pos h, reg_startDrain, reg_modQueue]
    exact ⟨hen, hirq, hco, hvec, herr, fun _ => rfl, rfl, rfl⟩
  · rw [if_neg h, reg_modQueue]
    exact ⟨hen, hirq, hco, hvec, herr, fun hd => absurd (by simpa [bitsOf] using hd) h, rfl, rfl⟩

/-- Table 2.3: the drain bit is set. -/
theorem queueDrain_spec (hg : Guest s vd) (hq : q < 64) : ∃ t, exec (.queueDrain vd q) s = .next t ∧ (reg t vd q).drain = true
    ∧ (reg t vd q).enable = (reg s vd q).enable ∧ t.mem = s.mem := by
  refine ⟨startDrain s vd q, ?_, ?_⟩
  · change execQueueDrain vd q s = _
    rw [execQueueDrain, guestWrite_runs _ hg hq]
  · simp

/-- Table 2.3: a drained queue is disabled. -/
theorem queueDrainDone_spec (h : (reg s vd q).drain = true) : ∃ t, exec (.queueDrainDone vd q) s = .next t
    ∧ reg t vd q = { reg s vd q with drain := false, enable := false } ∧ t.kicks = s.kicks ∧ t.mem = s.mem := by
  have hr : exec (.queueDrainDone vd q) s = .next (
      if (modQueue s vd q (fun r => { r with drain := false, enable := false })).kicks.contains (vd * 64 + q) then
        schedNewel (modQueue s vd q (fun r => { r with drain := false, enable := false })) 0 (.kickScan vd q)
      else modQueue s vd q (fun r => { r with drain := false, enable := false })) := by
    change execQueueDrainDone vd q s = _
    rw [execQueueDrainDone, show (queueReg (vdOf s vd) q).drain = true from h]
    rfl
  refine ⟨_, hr, ?_⟩
  split
  · exact ⟨(reg_congr (schedNewel_vds ..) vd q).trans (reg_modQueue ..), rfl, rfl⟩
  · exact ⟨reg_modQueue .., rfl, rfl⟩

end

theorem queueRegistersAreWritten : Stated.QueueRegistersAreWritten :=
  ⟨fun vd q val s hg hq => ⟨sqTailWrite_takes hg hq, sqTailWrite_overruns hg hq, kick_spec hg hq, cqHeadWrite_spec val hg hq,
      queueEnable_spec val hg hq, queueDrain_spec hg hq⟩,
    fun _ _ _ _ hi hvd hq h3 hd hu => queueWrite_frozen hi hvd hq h3 hd hu,
    fun _ _ _ s hi h => by
      obtain ⟨f, hf⟩ := queueWrite_guestWrite hi
      rw [hf s, guestWrite_none f h],
    fun _ _ _ h => queueDrainDone_spec h⟩

/-! ## Kicks and records (R28 to R30, R49) -/

theorem clearKick_vds (s : State) (vd q : Nat) : (clearKick s vd q).vds = s.vds := by simp [clearKick]

@[simp] theorem reg_clearKick (s : State) (vd q : Nat) : reg (clearKick s vd q) vd q = reg s vd q := reg_congr (clearKick_vds s vd q) vd q

theorem vdOf_clearKick (s : State) (vd q d : Nat) : vdOf (clearKick s vd q) d = vdOf s d := vdOf_congr (clearKick_vds s vd q) d

@[simp] theorem clearKick_launches (s : State) (vd q : Nat) : (clearKick s vd q).launches = s.launches := by simp [clearKick]

theorem not_mem_kicks_clearKick (s : State) (vd q : Nat) : vd * 64 + q ∉ (clearKick s vd q).kicks := by
  simp [clearKick]

section
variable {s : State} {vd q : Nat}

/-- A kick of a device that is neither FROZEN nor being destroyed is served, where the newel acts. -/
theorem kickScan_runs (ha : NewelActs s) (hk : vd * 64 + q ∈ s.kicks) (h3 : (vdOf s vd).state ≠ 3)
    (hd : destroying (vdOf s vd) = false) : exec (.kickScan vd q) s = .next (
      if !(reg s vd q).enable then modQueue (clearKick s vd q) vd q (fun r => { r with error := true, code := 3 })
      else if (reg s vd q).drain then s
      else if (reg (takeRecords 33 (retire s) vd q) vd q).sqHead = (reg (takeRecords 33 (retire s) vd q) vd q).sqTail then
        clearKick (takeRecords 33 (retire s) vd q) vd q
      else schedNewel (takeRecords 33 (retire s) vd q) (2 ^ 12) (.kickScan vd q)) := by
  change execKickScan vd q s = _
  rw [execKickScan, ha.1, if_neg (by simpa using ha.2), scanKick]
  simp only
  rw [if_neg (by simp [hk, h3, hd])]
  rfl

/-- R30: a disabled queue's kick is cleared and flagged. -/
theorem kickScan_disabled (ha : NewelActs s) (hk : vd * 64 + q ∈ s.kicks) (h3 : (vdOf s vd).state ≠ 3)
    (hd : destroying (vdOf s vd) = false) (he : (reg s vd q).enable = false) : ∃ t, exec (.kickScan vd q) s = .next t
      ∧ vd * 64 + q ∉ t.kicks ∧ (reg t vd q).error = true ∧ (reg t vd q).code = 3 ∧ (reg t vd q).sqHead = (reg s vd q).sqHead
      ∧ t.launches = s.launches := by
  refine ⟨modQueue (clearKick s vd q) vd q (fun r => { r with error := true, code := 3 }), ?_, not_mem_kicks_clearKick s vd q, ?_⟩
  · rw [kickScan_runs ha hk h3 hd, he]
    rfl
  · simp

/-- A draining queue's kick waits. -/
theorem kickScan_drains (ha : NewelActs s) (hk : vd * 64 + q ∈ s.kicks) (h3 : (vdOf s vd).state ≠ 3)
    (hd : destroying (vdOf s vd) = false) (he : (reg s vd q).enable = true) (hdr : (reg s vd q).drain = true) :
    exec (.kickScan vd q) s = .next s := by
  rw [kickScan_runs ha hk h3 hd, he, hdr]
  rfl

/-- Of an enabled queue the records are taken; the kick is cleared when none is left. -/
theorem kickScan_takes (ha : NewelActs s) (hk : vd * 64 + q ∈ s.kicks) (h3 : (vdOf s vd).state ≠ 3)
    (hd : destroying (vdOf s vd) = false) (he : (reg s vd q).enable = true) (hdr : (reg s vd q).drain = false) {t : State}
    (ht : takeRecords 33 (retire s) vd q = t) (hh : (reg t vd q).sqHead = (reg t vd q).sqTail) :
    exec (.kickScan vd q) s = .next (clearKick t vd q) := by
  rw [kickScan_runs ha hk h3 hd, he, hdr, ht, if_pos hh]
  rfl

/-- With its head at its tail a queue has no record to take. -/
theorem takeRecords_none {n : Nat} (h : (reg s vd q).sqHead = (reg s vd q).sqTail) : takeRecords n s vd q = s := by
  cases n with
  | zero => rfl
  | succ n =>
    rw [takeRecords]
    exact if_pos (by simp [show (queueReg (vdOf s vd) q).sqHead = (queueReg (vdOf s vd) q).sqTail from h])

/-- With one record to take a queue's head meets its tail after it. -/
theorem takeRecords_one {n : Nat} (h : (reg s vd q).sqTail = (reg s vd q).sqHead + 1) (hj : journalRoom s = true)
    (ht : (reg (takeRecord s vd q) vd q).sqHead = (reg (takeRecord s vd q) vd q).sqTail) :
    takeRecords (n + 1) s vd q = takeRecord s vd q := by
  have hne : (reg s vd q).sqHead ≠ (reg s vd q).sqTail := by
    rw [h]
    bv_omega
  rw [takeRecords]
  refine (if_neg ?_).trans (takeRecords_none ht)
  simp [show (queueReg (vdOf s vd) q).sqHead ≠ (queueReg (vdOf s vd) q).sqTail from hne, hj]

/-- The record at a queue's head is journaled, and the head goes past it. -/
def taken (s : State) (vd q : Nat) : State :=
  modQueue (journalBytes s 1 vd q (reg s vd q).sqHead.toNat (recordBytes s vd q (reg s vd q).sqHead.toNat)) vd q
    (fun r => { r with sqHead := r.sqHead + 1 })

theorem reg_taken (s : State) (vd q : Nat) : reg (taken s vd q) vd q = { reg s vd q with sqHead := (reg s vd q).sqHead + 1 } := by
  rw [taken, reg_modQueue, reg_congr (journalBytes_vds ..)]

/-- A record that passes is entered. -/
theorem takeRecord_enters (h : recordOk s vd (recordBytes s vd q (reg s vd q).sqHead.toNat) = true) : takeRecord s vd q
    = enterLaunch (taken s vd q) vd q (reg s vd q).sqHead.toNat (recordOf (recordBytes s vd q (reg s vd q).sqHead.toNat)) := by
  unfold takeRecord
  exact if_pos h

/-- A record that does not pass is flagged, with its completion REJECTED at a tick. -/
def refused (s : State) (vd q : Nat) (n : BitVec 32) (tick : Nat) : State :=
  addCompletion (modQueue s vd q (fun r => { r with error := true, code := 2, badSeq := n })) vd ⟨q, n.toNat, 2, 0, tick, 0, 0, 0⟩

theorem takeRecord_refuses (h : recordOk s vd (recordBytes s vd q (reg s vd q).sqHead.toNat) = false) :
    takeRecord s vd q = refused (taken s vd q) vd q (reg s vd q).sqHead (now (taken s vd q) 0) := by
  unfold takeRecord
  exact if_neg (by rw [show recordOk s vd (recordBytes s vd q (queueReg (vdOf s vd) q).sqHead.toNat) = false from h]; decide)

end

/-- A completion that waits is of a device's list and of nothing else but the agenda. -/
theorem mem_withheld_addCompletion (s : State) (vd : Nat) (k : Completion) : k ∈ (vdOf (addCompletion s vd k) vd).withheld := by
  rw [addCompletion, vdOf_congr (schedNewel_vds ..), vdOf_modVd_self]
  simp

theorem reg_addCompletion (s : State) (vd q : Nat) (k : Completion) : reg (addCompletion s vd k) vd q = reg s vd q := by
  rw [addCompletion, reg_congr (schedNewel_vds ..)]
  simp [reg, queueReg]

theorem addCompletion_launches (s : State) (vd : Nat) (k : Completion) : (addCompletion s vd k).launches = s.launches := rfl

theorem reg_refused (s : State) (vd q : Nat) (n : BitVec 32) (tick : Nat) :
    reg (refused s vd q n tick) vd q = { reg s vd q with error := true, code := 2, badSeq := n } := by
  rw [refused, reg_addCompletion, reg_modQueue]

@[simp] theorem poke_kicks (s : State) : (poke s).kicks = s.kicks := by rw [poke_eq]
@[simp] theorem poke_launches (s : State) : (poke s).launches = s.launches := by rw [poke_eq]

/-- A team of an entered launch stands in the scoreboard. -/
def enterTeam (id : Nat) (s : State) (t : Nat × Nat) : State :=
  { (fresh s).2 with teams := tset (fresh s).2.teams (fresh s).1 { (default : Team) with launch := id, first := t.1, size := t.2 } }

/-- The launch of a record as it is entered. -/
def enteredLaunch (s : State) (vd queue seq : Nat) (r : LaunchRec) : Launch :=
  { (default : Launch) with
    vd := vd, queue := queue, seq := seq, level := min r.priority (vdOf s vd).limits.2.1, body := r
    unitsLeft := ((teamsOf r).map Prod.snd).foldl (· + ·) 0 }

/-- A record's launch and its teams stand in the scoreboard. -/
def entered (s : State) (vd queue seq : Nat) (r : LaunchRec) : State :=
  poke ((teamsOf r).foldl (enterTeam s.nextId)
    { (fresh s).2 with launches := tset s.launches s.nextId (enteredLaunch s vd queue seq r) })

theorem enterLaunch_eq (s : State) (vd queue seq : Nat) (r : LaunchRec) : enterLaunch s vd queue seq r
    = if r.deps.any (depFailed s vd) then endLaunch (entered s vd queue seq r) s.nextId 3 0 0 else entered s vd queue seq r := rfl

section
variable (s : State) (vd queue seq : Nat) (r : LaunchRec)

theorem entered_vds : (entered s vd queue seq r).vds = s.vds := by
  rw [entered, poke_vds, foldl_keeps State.vds (f := enterTeam s.nextId) (fun _ _ => rfl)]
  rfl

theorem entered_launch : tget (entered s vd queue seq r).launches s.nextId = some (enteredLaunch s vd queue seq r) := by
  rw [entered, poke_launches, foldl_keeps State.launches (f := enterTeam s.nextId) (fun _ _ => rfl)]
  exact tget_tset_self ..

end

/-- A launch with the status it has ended with. -/
def endedAs (st k info tick : Nat) (l : Launch) : Launch := { l with status := some st, cause := k, info := info, endTick := tick }

theorem endLaunch_eq (s : State) (id st k : Nat) (info : Word) : endLaunch s id st k info
    = if (launchOf s id).status.isSome then s
      else sched (modLaunch s id (endedAs st k info.toNat (now s 0))) 0 (now s 0) 17 0 0 (.ins (.launchEnd id)) := rfl

/-- The end of a launch is its own only. -/
theorem endLaunch_vds (s : State) (id st k : Nat) (info : Word) : (endLaunch s id st k info).vds = s.vds := by
  rw [endLaunch_eq]
  split <;> rfl

/-- An ended launch is still of its device, its queue, its count and its record. -/
theorem endLaunch_launch {s : State} {id : Nat} {l : Launch} (h : tget s.launches id = some l) (st k : Nat) (info : Word) :
    ∃ m, tget (endLaunch s id st k info).launches id = some m ∧ m.vd = l.vd ∧ m.queue = l.queue ∧ m.seq = l.seq ∧ m.body = l.body := by
  rw [endLaunch_eq]
  split
  · exact ⟨l, h, rfl, rfl, rfl, rfl⟩
  · refine ⟨endedAs st k info.toNat (now s 0) l, ?_, rfl, rfl, rfl, rfl⟩
    exact (tget_tmod_self s.launches id default _).trans (by rw [h]; rfl)

theorem enterLaunch_vds (s : State) (vd queue seq : Nat) (r : LaunchRec) : (enterLaunch s vd queue seq r).vds = s.vds := by
  rw [enterLaunch_eq]
  split
  · rw [endLaunch_vds, entered_vds]
  · exact entered_vds s vd queue seq r

/-- A record's launch is entered under the next number. -/
theorem enterLaunch_launch (s : State) (vd queue seq : Nat) (r : LaunchRec) : ∃ l,
    tget (enterLaunch s vd queue seq r).launches s.nextId = some l ∧ l.vd = vd ∧ l.queue = queue ∧ l.seq = seq ∧ l.body = r := by
  have h := entered_launch s vd queue seq r
  rw [enterLaunch_eq]
  split
  · exact endLaunch_launch h 3 0 0
  · exact ⟨_, h, rfl, rfl, rfl, rfl⟩

section
variable {s : State} {vd q : Nat}

/-- R28, R30: nothing to take, and the kick goes. -/
theorem kickScan_empty (ha : NewelActs s) (hk : vd * 64 + q ∈ s.kicks) (h3 : (vdOf s vd).state ≠ 3)
    (hd : destroying (vdOf s vd) = false) (he : (reg s vd q).enable = true) (hdr : (reg s vd q).drain = false)
    (hh : (reg s vd q).sqTail = (reg s vd q).sqHead) : ∃ t, exec (.kickScan vd q) s = .next t
      ∧ vd * 64 + q ∉ t.kicks ∧ reg t vd q = reg s vd q ∧ t.launches = s.launches := by
  have hr : (reg (retire s) vd q).sqHead = (reg (retire s) vd q).sqTail := hh.symm
  refine ⟨_, kickScan_takes ha hk h3 hd he hdr (takeRecords_none hr) hr, not_mem_kicks_clearKick _ vd q, ?_, ?_⟩
  · rw [reg_clearKick]
    rfl
  · rw [clearKick_launches]
    rfl

/-- R28, R49: the one record of a queue passes. -/
theorem kickScan_enters (ha : NewelActs s) (hk : vd * 64 + q ∈ s.kicks) (h3 : (vdOf s vd).state ≠ 3)
    (hd : destroying (vdOf s vd) = false) (he : (reg s vd q).enable = true) (hdr : (reg s vd q).drain = false)
    (hh : (reg s vd q).sqTail = (reg s vd q).sqHead + 1) (hj : journalRoom (retire s) = true)
    (hok : recordOk s vd (recordBytes s vd q (reg s vd q).sqHead.toNat) = true) :
    ∃ t l, exec (.kickScan vd q) s = .next t ∧ tget t.launches s.nextId = some l ∧ l.vd = vd
        ∧ l.queue = q ∧ l.seq = (reg s vd q).sqHead.toNat ∧ l.body = recordOf (recordBytes s vd q (reg s vd q).sqHead.toNat)
        ∧ (reg t vd q).sqHead = (reg s vd q).sqTail ∧ vd * 64 + q ∉ t.kicks := by
  have ht : takeRecord (retire s) vd q = _ := takeRecord_enters (s := retire s) hok
  have hreg : reg (takeRecord (retire s) vd q) vd q = { reg s vd q with sqHead := (reg s vd q).sqHead + 1 } := by
    rw [ht, reg_congr (enterLaunch_vds ..), reg_taken]
    rfl
  have hmeet : (reg (takeRecord (retire s) vd q) vd q).sqHead = (reg (takeRecord (retire s) vd q) vd q).sqTail := by
    rw [hreg]
    exact hh.symm
  obtain ⟨l, hl, hvd, hq, hseq, hbody⟩ := enterLaunch_launch (taken (retire s) vd q) vd q (reg s vd q).sqHead.toNat
    (recordOf (recordBytes s vd q (reg s vd q).sqHead.toNat))
  have hid : (taken (retire s) vd q).nextId = s.nextId := by simp [taken]
  refine ⟨_, l, kickScan_takes ha hk h3 hd he hdr (takeRecords_one (n := 32) hh hj hmeet) hmeet, ?_, hvd, hq, hseq, hbody, ?_,
    not_mem_kicks_clearKick _ vd q⟩
  · rw [clearKick_launches, ht, ← hid]
    exact hl
  · rw [reg_clearKick, hreg, hh]

/-- R28, R49: the one record of a queue is refused. -/
theorem kickScan_refuses (ha : NewelActs s) (hk : vd * 64 + q ∈ s.kicks) (h3 : (vdOf s vd).state ≠ 3)
    (hd : destroying (vdOf s vd) = false) (he : (reg s vd q).enable = true) (hdr : (reg s vd q).drain = false)
    (hh : (reg s vd q).sqTail = (reg s vd q).sqHead + 1) (hj : journalRoom (retire s) = true)
    (hok : recordOk s vd (recordBytes s vd q (reg s vd q).sqHead.toNat) = false) :
    ∃ t, exec (.kickScan vd q) s = .next t ∧ (reg t vd q).sqHead = (reg s vd q).sqTail
        ∧ (reg t vd q).error = true ∧ (reg t vd q).code = 2 ∧ (reg t vd q).badSeq = (reg s vd q).sqHead ∧ vd * 64 + q ∉ t.kicks
        ∧ (∃ k ∈ (vdOf t vd).withheld, k.queue = q ∧ k.seq = (reg s vd q).sqHead.toNat ∧ k.status = 2) ∧ t.launches = s.launches := by
  have ht : takeRecord (retire s) vd q = _ := takeRecord_refuses (s := retire s) hok
  have hreg : reg (takeRecord (retire s) vd q) vd q = { reg s vd q with
      sqHead := (reg s vd q).sqHead + 1, error := true, code := 2, badSeq := (reg s vd q).sqHead } := by
    rw [ht, reg_refused, reg_taken]
    rfl
  have hmeet : (reg (takeRecord (retire s) vd q) vd q).sqHead = (reg (takeRecord (retire s) vd q) vd q).sqTail := by
    rw [hreg]
    exact hh.symm
  refine ⟨_, kickScan_takes ha hk h3 hd he hdr (takeRecords_one (n := 32) hh hj hmeet) hmeet, ?_, ?_, ?_, ?_,
    not_mem_kicks_clearKick _ vd q, ?_, ?_⟩
  · rw [reg_clearKick, hreg, hh]
  · rw [reg_clearKick, hreg]
  · rw [reg_clearKick, hreg]
  · rw [reg_clearKick, hreg]
  · rw [vdOf_clearKick, ht, refused]
    exact ⟨_, mem_withheld_addCompletion .., rfl, rfl, rfl⟩
  · rw [clearKick_launches, ht, refused, addCompletion_launches, modQueue_launches, taken, modQueue_launches, journalBytes_launches,
      retire_launches]

end

theorem kicksTakeRecords : Stated.KicksTakeRecords :=
  fun _ _ _ ha hk h3 hd => ⟨kickScan_disabled ha hk h3 hd, kickScan_drains ha hk h3 hd, kickScan_empty ha hk h3 hd,
    fun he hdr hh hj => ⟨kickScan_enters ha hk h3 hd he hdr hh hj, kickScan_refuses ha hk h3 hd he hdr hh hj⟩⟩

/-- Settles O54: every write of a queue's registers is the guest's, a kick's scan takes the record at the head through `takeRecord`, and
the completion that is due goes out through `writeCompletion`. -/
theorem queuesTakeRecordsAndComplete : Obligations.QueuesTakeRecordsAndComplete :=
  ⟨queueRegistersAreWritten, kicksTakeRecords, completionsAreWritten⟩

end Sys2Proof.Proofs
end

section
/-!
SUPPORT. O56: how a command of a virtual device starts, parameters and code regions.
-/
namespace Sys2Proof.Proofs
open Sys2Proof Sys2Proof.Machine Sys2Proof.Stated Sys2Proof.Laws

/-! ## How a command starts (R40, Tables 2.9 and 2.10) -/

/-- Every command is a write of vd_ctl with its number and its states. -/
theorem exec_command {i : Instr} {n : Nat} {may : VDev → Bool} (h : commandOf i = some (n, may)) (s : State) :
    vdInstr n = i ∧ ∃ f, exec i s = vdCommand n may f s := by
  unfold commandOf at h
  dsimp only at h
  split at h
  · cases h; exact ⟨rfl, _, (rfl : execCreateVd s = vdCommand _ _ _ s)⟩
  · cases h; exact ⟨rfl, _, (rfl : execDestroyVd s = vdCommand _ _ _ s)⟩
  · cases h; exact ⟨rfl, _, (rfl : execExportVd s = vdCommand _ _ _ s)⟩
  · cases h; exact ⟨rfl, _, (rfl : execRoundVd s = vdCommand _ _ _ s)⟩
  · cases h; exact ⟨rfl, _, (rfl : execFreeze s = vdCommand _ _ _ s)⟩
  · cases h; exact ⟨rfl, _, (rfl : execFinalVd s = vdCommand _ _ _ s)⟩
  · cases h; exact ⟨rfl, _, (rfl : execImportVd s = vdCommand _ _ _ s)⟩
  · cases h; exact ⟨rfl, _, (rfl : execActivate s = vdCommand _ _ _ s)⟩
  · cases h; exact ⟨rfl, _, (rfl : execThaw s = vdCommand _ _ _ s)⟩
  · cases h; exact ⟨rfl, _, (rfl : execGrent s = vdCommand _ _ _ s)⟩
  · cases h; exact ⟨rfl, _, (rfl : execLoadVd s = vdCommand _ _ _ s)⟩
  · cases h; exact ⟨rfl, _, (rfl : execCodereg s = vdCommand _ _ _ s)⟩
  · cases h; exact ⟨rfl, _, (rfl : execCodefree s = vdCommand _ _ _ s)⟩
  · cases h; exact ⟨rfl, _, (rfl : execGrelease s = vdCommand _ _ _ s)⟩
  · cases h; exact ⟨rfl, _, (rfl : execGrenew s = vdCommand _ _ _ s)⟩
  · cases h

/-- The node field of a write is taken, whatever becomes of its command. -/
def noded (s : State) (vd : Nat) : State := modVd s vd (fun v => { v with node := nodeField s })

theorem started_eq (s : State) (vd n : Nat) : started s vd n = modVd s vd (fun v => { v with node := nodeField s, cmd := n }) :=
  modVd_modVd ..

@[simp] theorem vdOf_started (s : State) (vd n : Nat) : vdOf (started s vd n) vd = { vdOf s vd with node := nodeField s, cmd := n } := by
  rw [started_eq, vdOf_modVd_self]

section
variable {s : State} {vd n : Nat} {may : VDev → Bool} {f : State → Nat → VDev → State}

theorem vdCommand_eq : vdCommand n may f s =
    if s.port.off < 0x280000 || 64 ≤ portVd s then .next s
    else if (vdOf (noded s (portVd s)) (portVd s)).busy || !newelUp s then .next (noded s (portVd s))
    else if takingOver s then .next (postponeVd (noded s (portVd s)) n)
    else .next (if may (vdOf (noded s (portVd s)) (portVd s)) then f (started s (portVd s) n) (portVd s) (vdOf (started s (portVd s) n) (portVd s))
      else finishVd (started s (portVd s) n) (portVd s) 1) := rfl

/-- The command of an addressed device, by the state of the newel and of the device. -/
theorem vdCommand_addressed (h : Addressed s vd) : vdCommand n may f s =
    if (vdOf s vd).busy then .next (noded s vd)
    else if takingOver s then .next (postponeVd (noded s vd) n)
    else .next (if may { vdOf s vd with node := nodeField s } then f (started s vd n) vd (vdOf (started s vd n) vd)
      else finishVd (started s vd n) vd 1) := by
  obtain ⟨hlo, rfl, hvd, hup⟩ := h
  have hoff : ¬ ((decide (s.port.off < 0x280000) || decide (64 ≤ portVd s)) = true) := by
    have : ¬ 64 ≤ portVd s := Nat.not_le.mpr hvd
    simp [Nat.not_lt.mpr hlo, this]
  rw [vdCommand_eq, if_neg hoff, noded, vdOf_modVd_self, hup, Bool.not_true, Bool.or_false]
  rfl

theorem vdCommand_busy (h : Addressed s vd) (hb : (vdOf s vd).busy = true) : vdCommand n may f s = .next (noded s vd) := by
  rw [vdCommand_addressed h, hb]
  rfl

theorem vdCommand_waits (h : Addressed s vd) (hb : (vdOf s vd).busy = false) (ht : takingOver s = true) :
    vdCommand n may f s = .next (postponeVd (noded s vd) n) := by
  rw [vdCommand_addressed h, hb, ht]
  rfl

theorem vdCommand_refused (h : Addressed s vd) (hb : (vdOf s vd).busy = false) (ht : takingOver s = false)
    (hm : may { vdOf s vd with node := nodeField s } = false) : vdCommand n may f s = .next (finishVd (started s vd n) vd 1) := by
  rw [vdCommand_addressed h, hb, ht, hm]
  rfl

theorem vdCommand_runs (h : Addressed s vd) (hb : (vdOf s vd).busy = false) (ht : takingOver s = false)
    (hm : may { vdOf s vd with node := nodeField s } = true) :
    vdCommand n may f s = .next (f (started s vd n) vd (vdOf (started s vd n) vd)) := by
  rw [vdCommand_addressed h, hb, ht, hm]
  rfl

end

/-- The states of a command's row do not depend on the node field. -/
theorem may_noded {i : Instr} {n : Nat} {may : VDev → Bool} (h : commandOf i = some (n, may)) (v : VDev) (x : BitVec 12) :
    may { v with node := x } = may v := by
  unfold commandOf at h
  dsimp only at h
  split at h <;> cases h <;> rfl

/-- A command that starts does what its number does, to the device it names. -/
theorem starts_runs {i : Instr} {s : State} {vd n : Nat} {may : VDev → Bool} {f : State → Nat → VDev → State}
    (hs : Starts i s vd) (hc : commandOf i = some (n, may)) (he : exec i s = vdCommand n may f s) :
    exec i s = .next (f (started s vd n) vd (vdOf (started s vd n) vd)) := by
  obtain ⟨ha, ht, hb, n', may', hc', hm⟩ := hs
  obtain ⟨rfl, rfl⟩ : n = n' ∧ may = may' := by simpa [hc] using hc'
  rw [he, vdCommand_runs ha hb ht ((may_noded hc _ _).trans hm)]

theorem commandsHaveTheirStates : Stated.CommandsHaveTheirStates := by
  intro i n may vd s hc ha
  obtain ⟨hi, f, he⟩ := exec_command hc s
  refine ⟨fun hb => ?_, fun hb ht => ?_, fun hb ht hm => ?_⟩
  · rw [he, vdCommand_busy ha hb]
    rfl
  · rw [he, vdCommand_waits ha hb ht, postponeVd, hi]
    rfl
  · rw [he, vdCommand_refused ha hb ht ((may_noded hc _ _).trans hm), started_eq, finishVd, modVd_modVd]

/-! ## Parameters and the allowance (Table 2.8) -/

section
variable {s : State} {vd : Nat}

/-- What a write of a parameter does to its device. -/
def parameter (off : Nat) (w : Word) (v : VDev) : VDev :=
  let x := w.toNat
  if off = 0x018 then (if 16 ≤ x && x ≤ 30 then { v with sliceLog2 := x } else v)
  else if off = 0x020 then (if x ≤ 3 then { v with priorityMax := x } else v)
  else if off = 0x028 then (if 1 ≤ x && x ≤ 256 then { v with maxInflight := x } else v)
  else if off = 0x030 then (if 1 ≤ x && x ≤ 1024 then { v with coreQuota := x } else v)
  else if off = 0x200 then { v with arg0 := w }
  else if off = 0x208 then { v with arg1 := w }
  else if off = 0x210 then { v with arg2 := w }
  else if 0x100 ≤ off && off < 0x200 && off % 8 = 0 then { v with floors := tset v.floors ((off - 0x100) / 8) x }
  else v

theorem vdParamWrite_runs (h : Addressed s vd) : exec .vdParamWrite s = .next (modVd s vd (parameter (s.port.off % 0x1000) s.port.val)) := by
  obtain ⟨hlo, rfl, hvd, hup⟩ := h
  change execVdParamWrite s = _
  rw [execVdParamWrite]
  refine if_neg ?_
  have : ¬ 64 ≤ portVd s := Nat.not_le.mpr hvd
  simp [Nat.not_lt.mpr hlo, this]

/-- R38, R39: parameters take values in their range, floors and operands any. -/
theorem vdParamWrite_spec (h : Addressed s vd) : let off := s.port.off % 0x1000
    let x := s.port.val.toNat
    let set := fun (f : VDev → VDev) => exec .vdParamWrite s = .next (modVd s vd f)
    (off = 0x018 → 16 ≤ x → x ≤ 30 → set (fun v => { v with sliceLog2 := x }))
    ∧ (off = 0x020 → x ≤ 3 → set (fun v => { v with priorityMax := x }))
    ∧ (off = 0x028 → 1 ≤ x → x ≤ 256 → set (fun v => { v with maxInflight := x }))
    ∧ (off = 0x030 → 1 ≤ x → x ≤ 1024 → set (fun v => { v with coreQuota := x }))
    ∧ (off = 0x018 → (x < 16 ∨ 30 < x) → set (fun v => v)) ∧ (off = 0x020 → 3 < x → set (fun v => v))
    ∧ (off = 0x028 → (x < 1 ∨ 256 < x) → set (fun v => v)) ∧ (off = 0x030 → (x < 1 ∨ 1024 < x) → set (fun v => v))
    ∧ (off = 0x200 → set (fun v => { v with arg0 := s.port.val })) ∧ (off = 0x208 → set (fun v => { v with arg1 := s.port.val }))
    ∧ (off = 0x210 → set (fun v => { v with arg2 := s.port.val }))
    ∧ (∀ k < 32, off = 0x100 + 8 * k → set (fun v => { v with floors := tset v.floors k x })) := by
  simp only
  rw [vdParamWrite_runs h]
  generalize s.port.off % 0x1000 = off
  have set_of {f : VDev → VDev} (hf : parameter off s.port.val (vdOf s vd) = f (vdOf s vd)) :
      (Host.Outcome.next (modVd s vd (parameter off s.port.val)) : Out) = .next (modVd s vd f) := by rw [modVd_congr hf]
  refine ⟨?_, ?_, ?_, ?_, ?_, ?_, ?_, ?_, ?_, ?_, ?_, ?_⟩
  · rintro rfl hlo hhi
    exact set_of (by simp [parameter, hlo, hhi])
  · rintro rfl hhi
    exact set_of (by simp [parameter, hhi])
  · rintro rfl hlo hhi
    exact set_of (by simp [parameter, hlo, hhi])
  · rintro rfl hlo hhi
    exact set_of (by simp [parameter, hlo, hhi])
  · rintro rfl hx
    exact set_of (by simp [parameter]; omega)
  · rintro rfl hx
    exact set_of (by simp [parameter]; omega)
  · rintro rfl hx
    exact set_of (by simp [parameter]; omega)
  · rintro rfl hx
    exact set_of (by simp [parameter]; omega)
  · rintro rfl
    exact set_of rfl
  · rintro rfl
    exact set_of rfl
  · rintro rfl
    exact set_of rfl
  · rintro k hk rfl
    refine set_of ?_
    have hlt : 0x100 + 8 * k < 0x200 := by omega
    have h8 : (0x100 + 8 * k) % 8 = 0 := by omega
    have hk' : (0x100 + 8 * k - 0x100) / 8 = k := by omega
    simp (disch := omega) only [parameter, if_neg]
    rw [if_pos (by simp [hlt, h8]), hk']

/-- R38: the allowance is added to, and saturates. -/
theorem allowAdd_spec (h : Addressed s vd) : ∃ t, exec .allowAdd s = .next t
    ∧ allowanceOf t vd = min (allowanceOf s vd + s.port.val.toNat) (2 ^ 64 - 1) ∧ t.mem = s.mem ∧ t.rents = s.rents ∧ t.units = s.units := by
  obtain ⟨hlo, rfl, hvd, hup⟩ := h
  refine ⟨poke (refund s (portVd s) s.port.val.toNat), ?_, ?_, by rw [poke_mem]; rfl, by rw [poke_rents]; rfl, by rw [poke_units]; rfl⟩
  · change execAllowAdd s = _
    rw [execAllowAdd]
    exact if_neg (Nat.not_le.mpr hvd)
  · rw [allowanceOf, vdOf_congr (poke_vds _), refund]
    exact congrArg VDev.allowance (vdOf_modVd_self ..)

end

@[simp] theorem finishVd_vdOf (s : State) (vd r : Nat) : vdOf (finishVd s vd r) vd = { vdOf s vd with busy := false, result := r } := by
  rw [finishVd, vdOf_modVd_self]

@[simp] theorem finishVd_mem (s : State) (vd r : Nat) : (finishVd s vd r).mem = s.mem := rfl
@[simp] theorem finishVd_rents (s : State) (vd r : Nat) : (finishVd s vd r).rents = s.rents := rfl

/-! ## Code regions (R45) -/

/-- A global region of a device holds a code region of n bytes at an address. -/
def codeInside (s : State) (vd : Nat) (v : VDev) (a n : Nat) : Bool :=
  match globalMap v a with
  | some m => !m.host && isGlobal s vd m.ref && (rentOf s m.ref).tier ≤ 3 && a + n ≤ m.first + m.pages * 65536
  | none => false

theorem codeInside_iff (s : State) (vd : Nat) (v : VDev) (a n : Nat) : codeInside s vd v a n = true ↔ ∃ m, globalMap v a = some m
    ∧ m.host = false ∧ isGlobal s vd m.ref = true ∧ (rentOf s m.ref).tier ≤ 3 ∧ a + n ≤ m.first + m.pages * 65536 := by
  unfold codeInside
  split
  · next m hm => simp [hm, and_assoc]
  · next hm => simp [hm]

/-- The lowest code entry of a device that is not used. -/
def freeCode (v : VDev) : Option Nat := (List.range 256).find? (fun i => match tget v.codes i with | some e => !e.used | none => true)

theorem freeCode_lt {v : VDev} {i : Nat} (h : freeCode v = some i) : i < 256 := List.mem_range.mp (List.mem_of_find?_eq_some h)

/-- The generation of a code entry. -/
def codeGen (v : VDev) (i : Nat) : Nat := match tget v.codes i with | some e => e.gen | none => 0

theorem codeGen_lt {v : VDev} (h : ∀ e ∈ v.codes, e.2.gen < 2 ^ 16) (i : Nat) : codeGen v i < 2 ^ 16 := by
  unfold codeGen
  split
  · next e he => exact h _ (mem_of_tget he)
  · decide

/-- A code region is registered at an entry. -/
def codeAdded (a n i gen : Nat) (v : VDev) : VDev :=
  { v with codes := tset v.codes i ⟨gen, a, n, true⟩, res0 := BitVec.ofNat 64 (gen * 2 ^ 48 + i) }

/-- The operands of CODEREG are refused. -/
def codeBad (s : State) (vd : Nat) (v : VDev) (a n : Nat) : Bool :=
  a % 65536 != 0 || n % 4 != 0 || n < 4 || 2 ^ 32 - 4 < n || !codeInside s vd v a n

theorem codeBad_false (s : State) (vd : Nat) (v : VDev) (a n : Nat) : codeBad s vd v a n = false
    ↔ a % 65536 = 0 ∧ n % 4 = 0 ∧ 4 ≤ n ∧ n ≤ 2 ^ 32 - 4 ∧ codeInside s vd v a n = true := by
  simp [codeBad, and_assoc]

/-- What CODEREG does to a device. -/
def codereg (s : State) (vd : Nat) (v : VDev) : State :=
  if codeBad s vd v v.arg0.toNat v.arg1.toNat then finishVd s vd 5
  else match freeCode v with
    | none => finishVd s vd 7
    | some i => finishVd (modVd s vd (codeAdded v.arg0.toNat v.arg1.toNat i (codeGen v i))) vd 0

theorem codereg_runs {s : State} {vd : Nat} (h : Starts .codereg s vd) :
    exec .codereg s = .next (codereg (started s vd 12) vd (vdOf (started s vd 12) vd)) :=
  starts_runs h rfl (rfl : execCodereg s = vdCommand 12 live codereg s)

/-- A handle is looked up among the code entries only. -/
theorem codeOf_congr {v w : VDev} (h : v.codes = w.codes) : codeOf v = codeOf w := by
  funext x
  unfold codeOf
  rw [h]

/-- The handle of a code entry names it (R45). -/
theorem codeOf_added {v : VDev} {a n i gen : Nat} (hi : i < 256) (hg : gen < 2 ^ 16) :
    codeOf (codeAdded a n i gen v) (codeAdded a n i gen v).res0.toNat = some ⟨gen, a, n, true⟩ := by
  have hh : (codeAdded a n i gen v).res0.toNat = gen * 2 ^ 48 + i := by
    simp only [codeAdded, BitVec.toNat_ofNat]
    omega
  have h1 : (gen * 2 ^ 48 + i) % 256 = i := by omega
  have h2 : bitsOf (gen * 2 ^ 48 + i) 48 16 = gen := by
    simp only [bitsOf]
    omega
  have h3 : bitsOf (gen * 2 ^ 48 + i) 8 40 = 0 := by
    simp only [bitsOf]
    omega
  rw [hh, codeOf, h1, h2, h3]
  simp [codeAdded]

/-- A state of CODEREG's end: memory and regions as they were, the command over. -/
theorem codereg_frame (s : State) (vd : Nat) (v : VDev) :
    (vdOf (codereg s vd v) vd).busy = false ∧ (codereg s vd v).mem = s.mem ∧ (codereg s vd v).rents = s.rents := by
  unfold codereg
  split
  · simp
  · split
    · simp
    · simp only [finishVd_vdOf, finishVd_mem, finishVd_rents]
      exact ⟨trivial, rfl, rfl⟩

theorem codereg_bad {s : State} {vd : Nat} {v : VDev} (h : codeBad s vd v v.arg0.toNat v.arg1.toNat = true) :
    (vdOf (codereg s vd v) vd).result = 5 ∧ (vdOf (codereg s vd v) vd).codes = (vdOf s vd).codes := by
  rw [codereg, if_pos h]
  simp

theorem codereg_good {s : State} {vd : Nat} {v : VDev} (h : codeBad s vd v v.arg0.toNat v.arg1.toNat = false) :
    (vdOf (codereg s vd v) vd).result ∈ [0, 7] := by
  rw [codereg, h]
  cases freeCode v with
  | none => simp
  | some i => simp

/-- A code region that CODEREG has registered is found by its handle. -/
theorem codereg_found {s : State} {vd : Nat} {v : VDev} (h0 : (vdOf (codereg s vd v) vd).result = 0) (hg : ∀ e ∈ v.codes, e.2.gen < 2 ^ 16) :
    ∃ e, codeOf (vdOf (codereg s vd v) vd) (vdOf (codereg s vd v) vd).res0.toNat = some e ∧ e.base = v.arg0.toNat ∧ e.size = v.arg1.toNat := by
  cases hb : codeBad s vd v v.arg0.toNat v.arg1.toNat with
  | true => exact absurd h0 (by rw [(codereg_bad hb).1]; decide)
  | false =>
    cases hi : freeCode v with
    | none => exact absurd h0 (by rw [codereg, hb, hi]; simp)
    | some i =>
      have hres : (vdOf (codereg s vd v) vd).res0 = (codeAdded v.arg0.toNat v.arg1.toNat i (codeGen v i) (vdOf s vd)).res0 := by
        rw [codereg, hb, hi]
        simp only [Bool.false_eq_true, if_false, finishVd_vdOf, vdOf_modVd_self]
      have hcodes : (vdOf (codereg s vd v) vd).codes = (codeAdded v.arg0.toNat v.arg1.toNat i (codeGen v i) (vdOf s vd)).codes := by
        rw [codereg, hb, hi]
        simp only [Bool.false_eq_true, if_false, finishVd_vdOf, vdOf_modVd_self]
      refine ⟨⟨codeGen v i, v.arg0.toNat, v.arg1.toNat, true⟩, ?_, rfl, rfl⟩
      rw [codeOf_congr hcodes, hres]
      exact codeOf_added (freeCode_lt hi) (codeGen_lt hg i)

/-- R45: CODEREG. -/
theorem codereg_spec {s : State} {vd : Nat} (h : Starts .codereg s vd) :
    let v := vdOf s vd
    let a := v.arg0.toNat
    let n := v.arg1.toNat
    let inside := ∃ m, globalMap v a = some m ∧ m.host = false ∧ isGlobal s vd m.ref = true ∧ (rentOf s m.ref).tier ≤ 3
      ∧ a + n ≤ m.first + m.pages * 65536
    ∃ t, exec .codereg s = .next t ∧ (vdOf t vd).busy = false ∧ t.mem = s.mem ∧ t.rents = s.rents
      ∧ (¬ (a % 65536 = 0 ∧ n % 4 = 0 ∧ 4 ≤ n ∧ n ≤ 2 ^ 32 - 4 ∧ inside) → (vdOf t vd).result = 5 ∧ (vdOf t vd).codes = v.codes)
      ∧ (a % 65536 = 0 ∧ n % 4 = 0 ∧ 4 ≤ n ∧ n ≤ 2 ^ 32 - 4 ∧ inside → (vdOf t vd).result ∈ [0, 7])
      ∧ ((vdOf t vd).result = 0 → (∀ e ∈ v.codes, e.2.gen < 2 ^ 16) →
        ∃ e, codeOf (vdOf t vd) (vdOf t vd).res0.toNat = some e ∧ e.base = a ∧ e.size = n) := by
  have hv := vdOf_started s vd 12
  obtain ⟨hbusy, hmem, hrents⟩ := codereg_frame (started s vd 12) vd (vdOf (started s vd 12) vd)
  refine ⟨_, codereg_runs h, hbusy, hmem, hrents, fun hbad => ?_, fun hgood => ?_, fun h0 hg => ?_⟩
  · have hb : codeBad (started s vd 12) vd (vdOf (started s vd 12) vd) (vdOf (started s vd 12) vd).arg0.toNat
        (vdOf (started s vd 12) vd).arg1.toNat = true := by
      rw [← Bool.not_eq_false, codeBad_false, codeInside_iff, hv]
      exact hbad
    obtain ⟨hr, hc⟩ := codereg_bad hb
    exact ⟨hr, by rw [hc, hv]⟩
  · exact codereg_good (by
      rw [codeBad_false, codeInside_iff, hv]
      exact hgood)
  · obtain ⟨e, he, hbase, hsize⟩ := codereg_found h0 (by rw [hv]; exact hg)
    exact ⟨e, he, by rw [hbase, hv], by rw [hsize, hv]⟩

/-- A launch that has been entered names a handle. -/
def codeNamed (s : State) (vd h : Nat) : Bool := s.launches.any (fun l => l.2.vd == vd && l.2.body.codeHandle == h)

/-- A code entry that is used no more. -/
def codeDropped (h : Nat) (e : Code) (v : VDev) : VDev :=
  { v with codes := tset v.codes (h % 256) { e with used := false, gen := (e.gen + 1) % 65536 } }

/-- What CODEFREE does to a device. -/
def codefree (s : State) (vd : Nat) (v : VDev) : State :=
  match codeOf v v.arg0.toNat with
  | none => finishVd s vd 5
  | some e =>
    if codeNamed s vd v.arg0.toNat then finishVd s vd 1 else finishVd (modVd s vd (codeDropped v.arg0.toNat e)) vd 0

theorem codefree_runs {s : State} {vd : Nat} (h : Starts .codefree s vd) :
    exec .codefree s = .next (codefree (started s vd 13) vd (vdOf (started s vd 13) vd)) :=
  starts_runs h rfl (rfl : execCodefree s = vdCommand 13 live codefree s)

theorem codeNamed_iff (s : State) (vd h : Nat) : codeNamed s vd h = true ↔ ∃ l ∈ s.launches, l.2.vd = vd ∧ l.2.body.codeHandle = h := by
  simp [codeNamed]

theorem codeOf_dropped (h : Nat) (e : Code) (v : VDev) : codeOf (codeDropped h e v) h = none := by
  simp [codeOf, codeDropped]

theorem codefree_frame (s : State) (vd : Nat) (v : VDev) : (codefree s vd v).mem = s.mem ∧ (codefree s vd v).rents = s.rents := by
  unfold codefree
  split
  · exact ⟨rfl, rfl⟩
  · split
    · exact ⟨rfl, rfl⟩
    · exact ⟨rfl, rfl⟩

/-- R45: CODEFREE. -/
theorem codefree_spec {s : State} {vd : Nat} (h : Starts .codefree s vd) :
    let v := vdOf s vd
    let a := v.arg0.toNat
    ∃ t, exec .codefree s = .next t ∧ t.mem = s.mem ∧ t.rents = s.rents
      ∧ (codeOf v a = none → Ended t vd 13 5)
      ∧ (codeOf v a ≠ none → (∃ l ∈ s.launches, l.2.vd = vd ∧ l.2.body.codeHandle = a) → Ended t vd 13 1 ∧ (vdOf t vd).codes = v.codes)
      ∧ (codeOf v a ≠ none → (∀ l ∈ s.launches, l.2.vd = vd → l.2.body.codeHandle ≠ a) → Ended t vd 13 0 ∧ codeOf (vdOf t vd) a = none) := by
  have hv := vdOf_started s vd 13
  have hcode : codeOf (vdOf (started s vd 13) vd) (vdOf (started s vd 13) vd).arg0.toNat = codeOf (vdOf s vd) (vdOf s vd).arg0.toNat := by
    rw [hv]
    rfl
  have harg : (vdOf (started s vd 13) vd).arg0 = (vdOf s vd).arg0 := by rw [hv]
  obtain ⟨hmem, hrents⟩ := codefree_frame (started s vd 13) vd (vdOf (started s vd 13) vd)
  refine ⟨_, codefree_runs h, hmem, hrents, fun hc => ?_, fun hc hl => ?_, fun hc hl => ?_⟩
  · rw [codefree, hcode, hc]
    simp [Ended]
  · obtain ⟨e, he⟩ := Option.ne_none_iff_exists'.mp hc
    rw [codefree, hcode, he, harg]
    simp only
    rw [if_pos ((codeNamed_iff (started s vd 13) _ _).mpr hl)]
    simp [Ended]
  · obtain ⟨e, he⟩ := Option.ne_none_iff_exists'.mp hc
    rw [codefree, hcode, he, harg]
    simp only
    rw [if_neg (fun hn => by
      obtain ⟨l, hm, hvd, hh⟩ := (codeNamed_iff (started s vd 13) _ _).mp hn
      exact hl l hm hvd hh)]
    refine ⟨?_, ?_⟩
    · simp [Ended, codeDropped]
    · simp only [finishVd_vdOf, vdOf_modVd_self]
      exact codeOf_dropped ..

theorem codeAndParameters : Stated.CodeAndParameters :=
  fun _ _ => ⟨codereg_spec, codefree_spec, allowAdd_spec, vdParamWrite_spec⟩

end Sys2Proof.Proofs
end

section
/-!
SUPPORT. O56: what writes of storage and changes of the rent table leave unchanged.
-/
namespace Sys2Proof.Proofs
open Sys2Proof Sys2Proof.Machine Sys2Proof.Stated Sys2Proof.Laws

/-! ## What storage and rent leave unchanged

Writes of memory and changes of regions reach a device only in its dirty bits and its mappings, and no launch, no clock and no running
copy. -/

/-- A device but for its dirty bits, its mappings and its pages. -/
def face (v : VDev) : VDev := { v with dirty := [], maps := [], hostOwned := [], claim := none, prStatus := 0 }

/-- The devices of a state but for their dirty bits, their mappings and their pages. -/
def faces (s : State) : Nat → VDev := fun d => face (vdOf s d)

/-- The commands that run on the copy engines. -/
def running (s : State) : List (List Cmd) := s.engines.map (fun e => engRunning e.2)

/-- What neither storage nor rent changes. -/
structure Front where
  clock : Clock
  kicks : List Nat
  launches : Tab Launch
  running : List (List Cmd)
  newel : Newel
  faces : Nat → VDev

def front (s : State) : Front := ⟨s.clock, s.kicks, s.launches, running s, s.newel, faces s⟩

theorem front_congr {s t : State} (hc : t.clock = s.clock) (hk : t.kicks = s.kicks) (hl : t.launches = s.launches)
    (he : running t = running s) (hn : t.newel = s.newel) (hf : faces t = faces s) : front t = front s := by
  simp only [front, hc, hk, hl, he, hn, hf]

theorem faces_congr {s t : State} (h : t.vds = s.vds) : faces t = faces s := by
  funext d
  rw [faces, vdOf_congr h]
  rfl

theorem running_congr {s t : State} (h : t.engines = s.engines) : running t = running s := by rw [running, h, running]

/-- A change of a device that its face does not show. -/
theorem faces_modVd (s : State) (vd : Nat) {f : VDev → VDev} (hf : ∀ v, face (f v) = face v) : faces (modVd s vd f) = faces s := by
  funext d
  unfold faces
  by_cases h : vd = d
  · subst h
    rw [vdOf_modVd_self, hf]
  · rw [vdOf_modVd_ne _ _ h]

theorem front_modVd (s : State) (vd : Nat) {f : VDev → VDev} (hf : ∀ v, face (f v) = face v) : front (modVd s vd f) = front s :=
  front_congr rfl rfl rfl rfl rfl (faces_modVd s vd hf)

@[simp] theorem front_modUnit (s : State) (uid : Nat) (f : Ctx → Ctx) : front (modUnit s uid f) = front s :=
  front_congr (modUnit_clock ..) (modUnit_kicks ..) (modUnit_launches ..) (running_congr (modUnit_engines ..)) (modUnit_newel ..)
    (faces_congr (modUnit_vds ..))

@[simp] theorem front_modRent (s : State) (ref : Nat) (f : Rent → Rent) : front (modRent s ref f) = front s := rfl

@[simp] theorem front_poke (s : State) : front (poke s) = front s := by rw [poke_eq]; rfl

/-! ## Writes -/

@[simp] theorem front_setDirty (s : State) (ps : List (Nat × Nat)) : front (setDirty s ps) = front s := by
  unfold setDirty
  refine foldl_keeps front (fun s p => front_modVd s p.1 fun v => ?_) ps s
  split <;> rfl

@[simp] theorem setDirty_rents (s : State) (ps : List (Nat × Nat)) : (setDirty s ps).rents = s.rents := by
  unfold setDirty
  refine foldl_keeps State.rents ?_ ps s
  exact fun _ _ => rfl

section
variable (s : State) (space off : Nat) (bs : List Byte) (ps : List Nat) (tick : Nat) (l : Option Nat)

@[simp] theorem front_writeSpace : front (writeSpace s space off bs ps tick l) = front s := by
  unfold writeSpace
  exact front_setDirty ..

@[simp] theorem writeSpace_rents : (writeSpace s space off bs ps tick l).rents = s.rents := by simp [writeSpace]

@[simp] theorem front_writeHost : front (writeHost s off bs ps tick l) = front s := by
  unfold writeHost
  exact front_setDirty ..

@[simp] theorem writeHost_rents : (writeHost s off bs ps tick l).rents = s.rents := by simp [writeHost]

@[simp] theorem front_markWord : front (markWord s space off) = front s := rfl
@[simp] theorem markWord_rents : (markWord s space off).rents = s.rents := rfl

end

section
variable (s : State) (space off : Nat) (w : SyncWord) (tick : Nat)

@[simp] theorem front_putWord : front (putWord s space off w tick) = front s := front_writeSpace ..
@[simp] theorem putWord_rents : (putWord s space off w tick).rents = s.rents := writeSpace_rents ..
@[simp] theorem front_touchWord : front (touchWord s space off w tick) = front s := front_putWord s space off w tick
@[simp] theorem touchWord_rents : (touchWord s space off w tick).rents = s.rents := putWord_rents s space off w tick

@[simp] theorem front_releaseWaiters (k : SyncKind) (status delay : Nat) : front (releaseWaiters s space off k status delay) = front s := by
  unfold releaseWaiters
  refine foldl_keeps front ?_ _ s
  exact fun _ _ => rfl

@[simp] theorem releaseWaiters_rents (k : SyncKind) (status delay : Nat) : (releaseWaiters s space off k status delay).rents = s.rents := by
  unfold releaseWaiters
  refine foldl_keeps State.rents ?_ _ s
  exact fun _ _ => rfl

@[simp] theorem releaseWaiters_mem (k : SyncKind) (status delay : Nat) : (releaseWaiters s space off k status delay).mem = s.mem := by
  unfold releaseWaiters
  refine foldl_keeps State.mem ?_ _ s
  exact fun _ _ => rfl

@[simp] theorem front_setReached : front (setReached s space off tick) = front s := by
  unfold setReached
  simp only [front_releaseWaiters]
  rw [foldl_keeps front (fun _ _ => front_modUnit ..)]
  exact front_touchWord ..

@[simp] theorem setReached_rents : (setReached s space off tick).rents = s.rents := by
  unfold setReached
  simp only [releaseWaiters_rents]
  rw [foldl_keeps State.rents (fun _ _ => modUnit_rents ..)]
  exact touchWord_rents ..

@[simp] theorem front_armWord : front (armWord s space off tick) = front s := by
  unfold armWord reachWord
  simp only
  split <;> simp

@[simp] theorem armWord_rents : (armWord s space off tick).rents = s.rents := by
  unfold armWord reachWord
  simp only
  split <;> simp

@[simp] theorem front_meetWord : front (meetWord s space off tick) = front s := by
  unfold meetWord
  split
  · rfl
  · exact front_armWord ..

@[simp] theorem meetWord_rents : (meetWord s space off tick).rents = s.rents := by
  unfold meetWord
  split
  · rfl
  · exact armWord_rents ..

@[simp] theorem front_completeGen : front (completeGen s space off w tick) = front s := by simp [completeGen]
@[simp] theorem completeGen_rents : (completeGen s space off w tick).rents = s.rents := by simp [completeGen]

@[simp] theorem front_dropAt (uid a : Nat) : front (dropAt s uid space off a tick) = front s := by
  unfold dropAt
  simp only
  split <;> simp

@[simp] theorem dropAt_rents (uid a : Nat) : (dropAt s uid space off a tick).rents = s.rents := by
  unfold dropAt
  simp only
  split <;> simp

end

section
variable (s : State) (space off : Nat) (bs : List Byte) (tick : Nat) (l : Option Nat)

@[simp] theorem front_storeSpace : front (storeSpace s space off bs tick l) = front s := by
  unfold storeSpace armStored
  rw [foldl_keeps front (fun _ _ => front_armWord ..)]
  exact front_writeSpace ..

@[simp] theorem storeSpace_rents : (storeSpace s space off bs tick l).rents = s.rents := by
  unfold storeSpace armStored
  rw [foldl_keeps State.rents (fun _ _ => armWord_rents ..)]
  exact writeSpace_rents ..

@[simp] theorem front_storePlace (p : Place) (bad : Bool) : front (storePlace s p bs bad tick l) = front s := by
  unfold storePlace
  simp only
  split <;> split <;> simp

@[simp] theorem storePlace_rents (p : Place) (bad : Bool) : (storePlace s p bs bad tick l).rents = s.rents := by
  unfold storePlace
  simp only
  split <;> split <;> simp

end

/-! ## Regions -/

@[simp] theorem front_dropSpace (s : State) (space : Nat) : front (dropSpace s space) = front s := rfl
@[simp] theorem dropSpace_rents (s : State) (space : Nat) : (dropSpace s space).rents = s.rents := rfl
@[simp] theorem front_markAll (s : State) (r : Rent) : front (markAll s r) = front s := rfl
@[simp] theorem markAll_rents (s : State) (r : Rent) : (markAll s r).rents = s.rents := rfl
@[simp] theorem front_emptySlot (s : State) (core p : Nat) : front (emptySlot s core p) = front s := rfl
@[simp] theorem emptySlot_rents (s : State) (core p : Nat) : (emptySlot s core p).rents = s.rents := rfl

@[simp] theorem front_schedScrub (s : State) (ref : Nat) : front (schedScrub s ref) = front s := by
  unfold schedScrub
  simp only
  split <;> rfl

@[simp] theorem schedScrub_rents (s : State) (ref : Nat) : (schedScrub s ref).rents = s.rents := by
  unfold schedScrub
  simp only
  split <;> rfl

@[simp] theorem schedScrub_mem (s : State) (ref : Nat) : (schedScrub s ref).mem = s.mem := by
  unfold schedScrub
  simp only
  split <;> rfl

@[simp] theorem front_schedRent (s : State) (ref : Nat) : front (schedRent s ref) = front s := by
  unfold schedRent
  simp only
  split
  · split <;> split <;> rfl
  · split
    · split <;> rfl
    · rfl

@[simp] theorem schedRent_rents (s : State) (ref : Nat) : (schedRent s ref).rents = s.rents := by
  unfold schedRent
  simp only
  split
  · split <;> split <;> rfl
  · split
    · split <;> rfl
    · rfl

@[simp] theorem schedRent_vds (s : State) (ref : Nat) : (schedRent s ref).vds = s.vds := by
  unfold schedRent
  simp only
  split
  · split <;> split <;> rfl
  · split
    · split <;> rfl
    · rfl

@[simp] theorem schedRent_mem (s : State) (ref : Nat) : (schedRent s ref).mem = s.mem := by
  unfold schedRent
  simp only
  split
  · split <;> split <;> rfl
  · split
    · split <;> rfl
    · rfl

/-- A word of a range freezes, and its waiters go on. -/
def freezeWord (space t : Nat) (s : State) (w : Nat × Nat × Bool) : State :=
  releaseWaiters (releaseWaiters (touchWord s space w.2.1 { wordAt s space w.2.1 with frozen := true } t) space w.2.1 .swait 3 0)
    space w.2.1 .waitb 3 0

theorem freezeRange_eq (s : State) (space first last t : Nat) : freezeRange s space first last t
    = ((s.words ++ targetsIn s space first last).filter (fun w => w.1 == space && first ≤ w.2.1 && w.2.1 < last)).foldl (freezeWord space t)
      { s with words := s.words ++ targetsIn s space first last } := rfl

@[simp] theorem front_freezeRange (s : State) (space first last t : Nat) : front (freezeRange s space first last t) = front s := by
  rw [freezeRange_eq, foldl_keeps front (fun _ _ => by simp [freezeWord])]
  rfl

@[simp] theorem freezeRange_rents (s : State) (space first last t : Nat) : (freezeRange s space first last t).rents = s.rents := by
  rw [freezeRange_eq, foldl_keeps State.rents (fun _ _ => by simp [freezeWord])]

/-- A table whose values are changed each alike. -/
theorem tget_map {α : Type} (t : Tab α) (f : α → α) (n : Nat) : tget (t.map (fun e => (e.1, f e.2))) n = (tget t n).map f := by
  induction t with
  | nil => rfl
  | cons e r ih =>
    simp only [List.map_cons, tget]
    split
    · rfl
    · exact ih

/-- The mappings of an entry go from every device. -/
theorem vdOf_unmapped (s : State) (ref d : Nat) :
    vdOf { s with vds := s.vds.map (fun (v : Nat × VDev) => (v.1, v.2.unmap ref)) } d = (vdOf s d).unmap ref := by
  unfold vdOf
  simp only
  rw [tget_map s.vds (fun v => v.unmap ref)]
  cases tget s.vds d with
  | none => rfl
  | some v => rfl

@[simp] theorem front_unmap (s : State) (ref : Nat) : front (unmap s ref) = front s := by
  unfold unmap
  simp only
  rw [foldl_keeps front (fun _ _ => front_modUnit ..)]
  refine front_congr rfl rfl rfl rfl rfl ?_
  funext d
  exact (congrArg face ((vdOf_congr rfl d).trans (vdOf_unmapped s ref d))).trans rfl

@[simp] theorem unmap_rents (s : State) (ref : Nat) : (unmap s ref).rents = s.rents :=
  unmap_keeps State.rents modUnit_rents (fun _ _ _ => rfl) s ref

@[simp] theorem front_freeRent (s : State) (ref : Nat) : front (freeRent s ref) = front s := front_unmap s ref

@[simp] theorem front_reclaim (s : State) (ref : Nat) : front (reclaim s ref) = front s := by
  unfold reclaim
  simp only
  split <;> split <;> simp

@[simp] theorem front_endOne (s : State) (ref : Nat) : front (endOne s ref) = front s := by
  unfold endOne
  simp only
  split
  · rfl
  · exact front_freezeRange ..

@[simp] theorem front_endSublet (s : State) (ref : Nat) : front (endSublet s ref) = front s := by
  unfold endSublet
  rw [front_endOne, foldl_keeps front front_endOne]

/-! ## Claims -/

theorem front_evict (on : Nat × Rent → Bool) (vd tier die n : Nat) (f : Nat) (s : State) (av : Nat) :
    front (evict on vd tier die n f s av).2 = front s := by
  induction f generalizing s av with
  | zero => rfl
  | succ f ih =>
    unfold evict
    split
    · rfl
    · split
      · rfl
      · rw [ih, front_reclaim]

theorem front_bindSpace (on : Nat × Rent → Bool) (tier die n : Nat) (f : Nat) (s : State) (free : Nat) :
    front (bindSpace on tier die n f s free) = front s := by
  induction f generalizing s free with
  | zero => rfl
  | succ f ih =>
    unfold bindSpace
    split
    · rfl
    · split
      · rfl
      · rw [ih, front_freeRent]

theorem front_claim {s t : State} {vd tier die n core : Nat} (h : claim s vd tier die n core = some t) : front t = front s := by
  unfold claim at h
  simp only at h
  generalize (if tier = 1 then 1024 else capacity s tier die) = cap at h
  split at h
  · cases h
  · split at h
    · split at h
      · cases h
      · cases h
        rw [front_bindSpace, front_evict]
    · split at h
      · cases h
      · cases h
        exact front_bindSpace ..

theorem freeEntry_eq {s t : State} {die table ref : Nat} (h : freeEntry s die table = some (ref, t)) : t = { s with free := s.free + 1 } := by
  unfold freeEntry at h
  simp only [pick] at h
  split at h
  · cases h
  · obtain ⟨i, -, hi⟩ := Option.map_eq_some_iff.mp h
    cases hi
    rfl

/-- Where a region goes is a choice of the device's only. -/
theorem placeRegion_eq (s : State) (die : Nat) (r : Rent) : ∃ n, (placeRegion s die r).2 = { s with free := n } := by
  unfold placeRegion
  split
  · exact ⟨_, rfl⟩
  · exact ⟨_, rfl⟩

/-- A region as its entry is filled. -/
def filled (s : State) (ref : Nat) (r : Rent) : Rent :=
  { r with space := (placeRegion s (refDie ref) r).2.nextSpace, gen := (rentOf (placeRegion s (refDie ref) r).2 ref).gen, state := 1
           base := (placeRegion s (refDie ref) r).1 }

/-- An entry is filled with a region. -/
def withRegion (s : State) (ref : Nat) (r : Rent) : State :=
  { (placeRegion s (refDie ref) r).2 with
    nextSpace := (placeRegion s (refDie ref) r).2.nextSpace + 1
    rents := tset (placeRegion s (refDie ref) r).2.rents ref (filled s ref r) }

theorem makeRegion_eq (s : State) (ref : Nat) (r : Rent) : makeRegion s ref r
    = if r.tier = 0 then schedRent (withRegion s ref r) ref
      else schedScrub (markAll (schedRent (withRegion s ref r) ref) (filled s ref r)) ref := rfl

theorem front_withRegion (s : State) (ref : Nat) (r : Rent) : front (withRegion s ref r) = front s := by
  obtain ⟨n, hn⟩ := placeRegion_eq s (refDie ref) r
  unfold withRegion
  rw [hn]
  rfl

@[simp] theorem front_makeRegion (s : State) (ref : Nat) (r : Rent) : front (makeRegion s ref r) = front s := by
  rw [makeRegion_eq]
  split <;> simp [front_withRegion]

@[simp] theorem rentOf_makeRegion (s : State) (ref : Nat) (r : Rent) : rentOf (makeRegion s ref r) ref = filled s ref r := by
  have h : (makeRegion s ref r).rents = (withRegion s ref r).rents := by
    rw [makeRegion_eq]
    split <;> simp
  unfold rentOf
  rw [h]
  simp [withRegion]

/-- A region that a pool gives up is claimed without a change of any device, launch or clock. -/
theorem claimRegion_spec {s t : State} {vd die n core ref : Nat} {r : Rent} (h : claimRegion s vd die n core r = some (ref, t)) :
    front t = front s ∧ ∃ x, rentOf t ref = filled x ref r := by
  unfold claimRegion at h
  split at h
  · cases h
  · next x hx =>
    split at h
    · cases h
    · next ref' y hy =>
      cases h
      refine ⟨?_, y, rentOf_makeRegion y ref r⟩
      rw [front_makeRegion, freeEntry_eq hy]
      have hf := front_claim hx
      exact hf

end Sys2Proof.Proofs
end

section
/-!
SUPPORT. O56: global regions.
-/
namespace Sys2Proof.Proofs
open Sys2Proof Sys2Proof.Machine Sys2Proof.Stated Sys2Proof.Laws

/-! ## GRENT (R44, Table 2.14) -/

/-- A device's face is part of its state's front. -/
theorem face_of_front {s t : State} (h : front t = front s) (d : Nat) : face (vdOf t d) = face (vdOf s d) :=
  congrFun (congrArg Front.faces h) d

theorem allowanceOf_of_front {s t : State} (h : front t = front s) (d : Nat) : allowanceOf t d = allowanceOf s d := by
  have hf := congrArg VDev.allowance (face_of_front h d)
  exact hf

/-- Bytes × weight of a region, as the model and as the manual write it. -/
theorem rentRate_eq (r : Rent) : rentRate r = rate r := by
  unfold rentRate rate granule weight
  split <;> simp_all

/-- GRENT refuses its operands. -/
def grentBad (v : VDev) : Bool :=
  bitsOf v.arg0.toNat 0 4 < 2 || 4 < bitsOf v.arg0.toNat 0 4 || bitsOf v.arg0.toNat 7 1 != 0 || v.arg0.toNat / 256 = 0
    || 2 ^ 24 < v.arg0.toNat / 256 || v.arg1.toNat = 0 || 2 ^ 48 < v.arg1.toNat

theorem grentBad_iff (v : VDev) : grentBad v = true ↔ v.arg0.toNat % 16 < 2 ∨ 4 < v.arg0.toNat % 16 ∨ v.arg0.toNat / 128 % 2 ≠ 0
    ∨ v.arg0.toNat / 256 = 0 ∨ 2 ^ 24 < v.arg0.toNat / 256 ∨ v.arg1.toNat = 0 ∨ 2 ^ 48 < v.arg1.toNat := by
  simp [grentBad, bitsOf, or_assoc]

/-- The region that GRENT rents at an address. -/
def grentRegion (s : State) (vd : Nat) (v : VDev) (addr : Nat) : Rent :=
  { (default : Rent) with
    owner := vd * 65536, tier := bitsOf v.arg0.toNat 0 4, share := 2, size := v.arg0.toNat / 256
    paid := now s (bitsOf v.arg0.toNat 4 3) + v.arg1.toNat, core := bitsOf v.arg0.toNat 4 3 * 128, item := 1, addr := addr }

/-- A region is mapped in its device, its handle and its address the results. -/
def grentMapped (addr n ref handle : Nat) (v : VDev) : VDev :=
  { v with maps := v.maps ++ [⟨addr, n, ref, false, 0, false⟩], res0 := BitVec.ofNat 64 handle, res1 := BitVec.ofNat 64 addr }

/-- The end of a GRENT that has claimed and charged its region. -/
def grented (s : State) (vd addr n ref : Nat) : State :=
  poke (finishVd (modVd s vd (grentMapped addr n ref (handleOf s ref))) vd 0)

theorem grented_vdOf (s : State) (vd addr n ref : Nat) : vdOf (grented s vd addr n ref) vd
    = { grentMapped addr n ref (handleOf s ref) (vdOf s vd) with busy := false, result := 0 } := by
  rw [grented, vdOf_congr (poke_vds _), finishVd_vdOf, vdOf_modVd_self]

theorem grented_allowance (s : State) (vd addr n ref : Nat) : allowanceOf (grented s vd addr n ref) vd = allowanceOf s vd := by
  rw [allowanceOf, grented_vdOf]
  rfl

theorem grented_rents (s : State) (vd addr n ref : Nat) : (grented s vd addr n ref).rents = s.rents := by
  rw [grented, poke_rents]
  rfl

/-- What GRENT does to a device. -/
def grent (s : State) (vd : Nat) (v : VDev) : State :=
  if grentBad v then finishVd s vd 5
  else match freeGlobal v (v.arg0.toNat / 256) with
    | none => finishVd s vd 3
    | some addr =>
      match claimRegion s vd (bitsOf v.arg0.toNat 4 3) (v.arg0.toNat / 256) (bitsOf v.arg0.toNat 4 3 * 128) (grentRegion s vd v addr) with
      | none => finishVd s vd 3
      | some (ref, s') =>
        match charge s' vd (rate (grentRegion s vd v addr) * v.arg1.toNat) with
        | none => finishVd s vd 6
        | some s' => grented s' vd addr (v.arg0.toNat / 256) ref

theorem grent_runs {s : State} {vd : Nat} (h : Starts .grent s vd) :
    exec .grent s = .next (grent (started s vd 10) vd (vdOf (started s vd 10) vd)) :=
  starts_runs h rfl (rfl : execGrent s = vdCommand 10 live grent s)

/-- A free run of global addresses begins on a page. -/
theorem freeGlobal_page {v : VDev} {n a : Nat} (h : freeGlobal v n = some a) : a % 65536 = 0 := by
  obtain ⟨x, -, rfl⟩ := Option.map_eq_some_iff.mp h
  exact Nat.mul_mod_left ..

/-- An allowance that covers a charge. -/
theorem charge_eq {s t : State} {vd n : Nat} (h : charge s vd n = some t) :
    n ≤ allowanceOf s vd ∧ t = modVd s vd (fun v => { v with allowance := v.allowance - n }) := by
  unfold charge at h
  split at h
  · cases h
  · next hn =>
    cases h
    exact ⟨Nat.not_lt.mp hn, rfl⟩

/-- What a GRENT that succeeds leaves. -/
def Rented (s t : State) (vd : Nat) (v : VDev) : Prop :=
  ∃ m ∈ (vdOf t vd).maps, m.pages = v.arg0.toNat / 256 ∧ m.first % 65536 = 0 ∧ m.host = false
    ∧ (vdOf t vd).res0 = word (handleOf t m.ref) ∧ (vdOf t vd).res1 = word m.first ∧ (rentOf t m.ref).state = 1
    ∧ (rentOf t m.ref).owner = vd * 65536 ∧ (rentOf t m.ref).share = 2 ∧ (rentOf t m.ref).tier = v.arg0.toNat % 16
    ∧ (rentOf t m.ref).size = v.arg0.toNat / 256 ∧ (rentOf t m.ref).paid = now s (v.arg0.toNat / 16 % 8) + v.arg1.toNat
    ∧ allowanceOf t vd + rentRate (rentOf t m.ref) * v.arg1.toNat = allowanceOf s vd

theorem rentOf_congr {s t : State} (h : s.rents = t.rents) (ref : Nat) : rentOf s ref = rentOf t ref := by
  unfold rentOf
  rw [h]

theorem handleOf_congr {s t : State} (h : s.rents = t.rents) (ref : Nat) : handleOf s ref = handleOf t ref := by
  unfold handleOf
  rw [rentOf_congr h]

theorem rate_congr {r r' : Rent} (hs : r.size = r'.size) (ht : r.tier = r'.tier) (hi : r.item = r'.item) : rate r = rate r' := by
  unfold rate granule
  rw [hs, ht, hi]

theorem rate_filled (s : State) (ref : Nat) (r : Rent) : rate (filled s ref r) = rate r := rate_congr rfl rfl rfl

/-- A region that is claimed and charged is rented. -/
theorem rented_of_claim {s x y : State} {vd die core addr ref : Nat} {v : VDev}
    (ha : freeGlobal v (v.arg0.toNat / 256) = some addr)
    (hx : claimRegion s vd die (v.arg0.toNat / 256) core (grentRegion s vd v addr) = some (ref, x))
    (hy : charge x vd (rate (grentRegion s vd v addr) * v.arg1.toNat) = some y) :
    Rented s (grented y vd addr (v.arg0.toNat / 256) ref) vd v := by
  obtain ⟨hf, z, hz⟩ := claimRegion_spec hx
  obtain ⟨hle, hy⟩ := charge_eq hy
  have hyr : y.rents = x.rents := by rw [hy]; rfl
  have hr : rentOf (grented y vd addr (v.arg0.toNat / 256) ref) ref = filled z ref (grentRegion s vd v addr) :=
    (rentOf_congr ((grented_rents ..).trans hyr) ref).trans hz
  have hv := grented_vdOf y vd addr (v.arg0.toNat / 256) ref
  have hall : allowanceOf y vd = allowanceOf s vd - rate (grentRegion s vd v addr) * v.arg1.toNat := by
    rw [hy, allowanceOf, vdOf_modVd_self, ← allowanceOf_of_front hf]
    rfl
  rw [allowanceOf_of_front hf] at hle
  refine ⟨⟨addr, v.arg0.toNat / 256, ref, false, 0, false⟩, ?_, rfl, freeGlobal_page ha, rfl, ?_, ?_, ?_, ?_, ?_, ?_, ?_, ?_, ?_⟩
  · rw [hv]
    simp [grentMapped]
  · rw [hv, handleOf_congr (grented_rents ..)]
    simp [grentMapped, word]
  · rw [hv]
    simp [grentMapped, word]
  · rw [hr]
    simp [filled]
  · rw [hr]
    simp [filled, grentRegion]
  · rw [hr]
    simp [filled, grentRegion]
  · rw [hr]
    simp [filled, grentRegion, bitsOf]
  · rw [hr]
    simp [filled, grentRegion]
  · rw [hr]
    simp [filled, grentRegion, bitsOf]
  · rw [hr, grented_allowance, rentRate_eq, rate_filled, hall, Nat.sub_add_cancel hle]

/-- The ends of GRENT: refused operands, nothing to rent, or a region. -/
theorem grent_cases (s : State) (vd : Nat) (v : VDev) :
    (grentBad v = true ∧ grent s vd v = finishVd s vd 5)
    ∨ (grentBad v = false ∧ ∃ r ∈ [3, 6], grent s vd v = finishVd s vd r)
    ∨ (grentBad v = false ∧ Rented s (grent s vd v) vd v ∧ (vdOf (grent s vd v) vd).busy = false ∧ (vdOf (grent s vd v) vd).result = 0) := by
  cases hb : grentBad v with
  | true => exact Or.inl ⟨rfl, if_pos hb⟩
  | false =>
    refine Or.inr ?_
    have h0 : grent s vd v = _ := if_neg (by rw [hb]; decide)
    rw [h0]
    split
    · exact Or.inl ⟨rfl, 3, by simp, rfl⟩
    · next addr ha =>
      split
      · exact Or.inl ⟨rfl, 3, by simp, rfl⟩
      · next ref x hx =>
        split
        · exact Or.inl ⟨rfl, 6, by simp, rfl⟩
        · next y hy => exact Or.inr ⟨rfl, rented_of_claim ha hx hy, by rw [grented_vdOf], by rw [grented_vdOf]⟩

theorem allowanceOf_started (s : State) (vd n : Nat) : allowanceOf (started s vd n) vd = allowanceOf s vd := by
  rw [allowanceOf, vdOf_started]
  rfl

theorem rented_started {s t : State} {vd : Nat} (h : Rented (started s vd 10) t vd (vdOf (started s vd 10) vd)) :
    Rented s t vd (vdOf s vd) := by
  rw [Rented, allowanceOf_started, vdOf_started] at h
  exact h

/-- R44, Table 2.14: GRENT. -/
theorem grent_spec {s : State} {vd : Nat} (h : Starts .grent s vd) :
    let v := vdOf s vd
    let a := v.arg0.toNat
    let span := v.arg1.toNat
    let badRent := a % 16 < 2 ∨ 4 < a % 16 ∨ a / 128 % 2 ≠ 0 ∨ a / 256 = 0 ∨ 2 ^ 24 < a / 256 ∨ span = 0 ∨ 2 ^ 48 < span
    ∃ t, exec .grent s = .next t ∧ (vdOf t vd).busy = false ∧ (badRent → (vdOf t vd).result = 5)
      ∧ ((vdOf t vd).result ≠ 0 → t.rents = s.rents ∧ allowanceOf t vd = v.allowance)
      ∧ (¬ badRent → (vdOf t vd).result ∈ [0, 3, 6])
      ∧ ((vdOf t vd).result = 0 → Rented s t vd v) := by
  have hv := vdOf_started s vd 10
  have hbad : grentBad (vdOf (started s vd 10) vd) = grentBad (vdOf s vd) := by rw [hv]; rfl
  refine ⟨_, grent_runs h, ?_⟩
  rcases grent_cases (started s vd 10) vd (vdOf (started s vd 10) vd) with ⟨hb, ht⟩ | ⟨hb, r, hr, ht⟩ | ⟨hb, ht, hbusy, h0⟩
  · rw [hbad, grentBad_iff] at hb
    rw [ht]
    refine ⟨by simp, fun _ => by simp, fun _ => ⟨rfl, by simp [allowanceOf]⟩, fun hn => absurd hb hn, fun h0 => ?_⟩
    simp at h0
  · rw [hbad, ← Bool.not_eq_true, grentBad_iff] at hb
    rw [ht]
    refine ⟨by simp, fun hn => absurd hn hb, fun _ => ⟨rfl, by simp [allowanceOf]⟩, fun _ => ?_, fun h0 => ?_⟩
    · simp at hr ⊢
      omega
    · simp at hr h0
      omega
  · rw [hbad, ← Bool.not_eq_true, grentBad_iff] at hb
    refine ⟨hbusy, fun hn => absurd hn hb, fun hn => absurd h0 hn, fun _ => by rw [h0]; simp, fun _ => ?_⟩
    exact rented_started ht

/-! ## LOAD (R44, Table 2.14) -/

/-- LOAD refuses its operands. -/
def loadBad (s : State) (vd : Nat) (v : VDev) : Bool :=
  v.arg0.toNat % 32 != 0 || v.arg1.toNat % 32 != 0 || v.arg2.toNat % 32 != 0 || !paidRange s vd v.arg1.toNat v.arg2.toNat

theorem loadBad_iff (s : State) (vd : Nat) (v : VDev) : loadBad s vd v = true ↔ v.arg0.toNat % 32 ≠ 0 ∨ v.arg1.toNat % 32 ≠ 0
    ∨ v.arg2.toNat % 32 ≠ 0 ∨ paidRange s vd v.arg1.toNat v.arg2.toNat = false := by
  simp [loadBad, or_assoc]

/-- The copy of a LOAD. -/
def loadCmd (s : State) (vd : Nat) (v : VDev) : Cmd :=
  { (default : Cmd) with
    id := (fresh s).1, ins := .loadVd, sample := [vd], vals := [v.arg1, v.arg0, v.arg2, 0], live := v.arg2.toNat / 32
    due := now (fresh s).2 0, deliver := now (fresh s).2 0, outbound := true }

theorem loadCmd_vals (s : State) (vd : Nat) (v : VDev) : (loadCmd s vd v).vals = [v.arg1, v.arg0, v.arg2, 0] := rfl

theorem loadCmd_live (s : State) (vd : Nat) (v : VDev) : (loadCmd s vd v).live = v.arg2.toNat / 32 := rfl

/-- A copy of a LOAD waits at copy engine 0. -/
def loading (s : State) (vd : Nat) (k : Cmd) : State :=
  modEng (modVd (fresh s).2 vd (fun v => { v with busy := true })) 0 (fun e => { e with buffer := buffered e.buffer k })

theorem loading_vdOf (s : State) (vd : Nat) (k : Cmd) : vdOf (loading s vd k) vd = { vdOf s vd with busy := true } :=
  vdOf_modVd_self (fresh s).2 vd (fun v => { v with busy := true })

theorem loading_mem (s : State) (vd : Nat) (k : Cmd) : (loading s vd k).mem = s.mem := by
  rw [loading, modEng_mem, modVd_mem]
  rfl

/-- What LOAD does to a device. -/
def load (s : State) (vd : Nat) (v : VDev) : State :=
  if loadBad s vd v then finishVd s vd 5
  else loading s vd (loadCmd s vd v)

theorem load_runs {s : State} {vd : Nat} (h : Starts .loadVd s vd) :
    exec .loadVd s = .next (load (started s vd 11) vd (vdOf (started s vd 11) vd)) :=
  starts_runs h rfl (rfl : execLoadVd s = vdCommand 11 live load s)

theorem paidRange_congr {s t : State} {vd : Nat} (hr : s.rents = t.rents) (hm : (vdOf s vd).maps = (vdOf t vd).maps) (a n : Nat) :
    paidRange s vd a n = paidRange t vd a n := by
  unfold paidRange globalMap
  rw [hm]
  simp only [rentOf_congr hr]

theorem loadBad_started (s : State) (vd : Nat) : loadBad (started s vd 11) vd (vdOf (started s vd 11) vd) = loadBad s vd (vdOf s vd) := by
  have hm : (vdOf (started s vd 11) vd).maps = (vdOf s vd).maps := by rw [vdOf_started]
  unfold loadBad
  rw [paidRange_congr (s := started s vd 11) (t := s) rfl hm, vdOf_started]

theorem mem_buffered (l : List Cmd) (k : Cmd) : k ∈ buffered l k := by simp [buffered]

/-- R44, Table 2.14: LOAD. -/
theorem load_spec {s : State} {vd : Nat} (h : Starts .loadVd s vd) :
    let v := vdOf s vd
    let badLoad := v.arg0.toNat % 32 ≠ 0 ∨ v.arg1.toNat % 32 ≠ 0 ∨ v.arg2.toNat % 32 ≠ 0 ∨ paidRange s vd v.arg1.toNat v.arg2.toNat = false
    (badLoad → ∃ t, exec .loadVd s = .next t ∧ Ended t vd 11 5 ∧ SameStorage { s with vds := [] } { t with vds := [] })
    ∧ (¬ badLoad → ∃ t k, exec .loadVd s = .next t ∧ (vdOf t vd).busy = true ∧ (vdOf t vd).cmd = 11 ∧ k ∈ (engOf t 0).buffer
      ∧ k.ins = .loadVd ∧ k.vals = [v.arg1, v.arg0, v.arg2, 0] ∧ k.sample = [vd] ∧ k.live * 32 = v.arg2.toNat ∧ t.mem = s.mem) := by
  simp only
  rw [← loadBad_iff, load_runs h, ← loadBad_started]
  refine ⟨fun hb => ⟨_, rfl, ?_⟩, fun hb => ⟨_, loadCmd (started s vd 11) vd (vdOf (started s vd 11) vd), rfl, ?_⟩⟩
  · rw [load, if_pos hb]
    exact ⟨by simp [Ended], rfl, rfl, rfl, rfl, rfl, rfl, rfl⟩
  · have h32 : (vdOf s vd).arg2.toNat % 32 = 0 := by
      rw [loadBad_started, loadBad_iff] at hb
      omega
    rw [load, if_neg hb]
    refine ⟨by rw [loading_vdOf], by rw [loading_vdOf, vdOf_started], ?_, rfl, ?_, rfl, ?_, loading_mem ..⟩
    · rw [loading, engOf_modEng_self]
      exact mem_buffered ..
    · rw [loadCmd_vals, vdOf_started]
    · rw [loadCmd_live, vdOf_started, Nat.div_mul_cancel (Nat.dvd_of_mod_eq_zero h32)]

theorem loadComplete_spec {s : State} {vd : Nat} (h : (vdOf s vd).cmd = 11) :
    exec (.loadComplete vd) s = .next (modVd s vd (fun v => { v with busy := false })) := by
  change execLoadComplete vd s = _
  rw [execLoadComplete, h]
  rfl

/-! ## GRELEASE (R44, Table 4.7) -/

/-- A handle names an entry that is PAID or in GRACE. -/
theorem entryOfHandle_live {s : State} {h ref : Nat} (hr : entryOfHandle s h = some ref) :
    (rentOf s ref).state = 1 ∨ (rentOf s ref).state = 2 := by
  unfold entryOfHandle at hr
  simp only at hr
  split at hr
  · next hl =>
    cases hr
    rw [Bool.and_eq_true] at hl
    simpa using hl.2
  · obtain ⟨m, hm, rfl⟩ := Option.map_eq_some_iff.mp hr
    have := List.find?_some hm
    simp at this
    exact this.2

theorem regionOf_live {s : State} {h ref : Nat} (hr : regionOf s h = some ref) : (rentOf s ref).state = 1 ∨ (rentOf s ref).state = 2 := by
  unfold regionOf at hr
  split at hr
  · cases hr
  · exact entryOfHandle_live hr

theorem regionOf_started (s : State) (vd n h : Nat) : regionOf (started s vd n) h = regionOf s h := rfl

/-- What GRELEASE does to a device. -/
def grelease (s : State) (vd : Nat) (v : VDev) : State :=
  match regionOf s v.arg0.toNat with
  | none => finishVd s vd 5
  | some ref =>
    if !isGlobal s vd ref then finishVd s vd 5
    else if (rentRelease s ⟨vd, vd * 65536, 0⟩ ref (now s (refDie ref))).1 = 0 then
      finishVd (rentRelease s ⟨vd, vd * 65536, 0⟩ ref (now s (refDie ref))).2 vd 0
    else finishVd s vd 5

theorem grelease_runs {s : State} {vd : Nat} (h : Starts .grelease s vd) :
    exec .grelease s = .next (grelease (started s vd 14) vd (vdOf (started s vd 14) vd)) :=
  starts_runs h rfl (rfl : execGrelease s = vdCommand 14 live grelease s)

/-- A release with a live sublet is refused. -/
theorem rentRelease_sublets {s : State} {i : Issuer} {ref t : Nat} (h : (subletsOf s ref).isEmpty = false) :
    (rentRelease s i ref t).1 ≠ 0 := by
  unfold rentRelease
  simp only
  split
  · simp [rOWNER]
  · rw [h]
    simp [rSUBLET]

/-- What a release gives back. -/
def given (s : State) (ref t : Nat) : Nat :=
  if (rentOf s ref).state = 1 then rentRate (rentOf s ref) * ((rentOf s ref).paid - t) + (rentOf s ref).escrow else 0

/-- A global region of an owner goes back with its refund. -/
theorem rentRelease_global {s : State} {vd ref t : Nat} (hg : isGlobal s vd ref = true) (ho : (rentOf s ref).owner = vd * 65536)
    (hs : (subletsOf s ref).isEmpty = true) (hb : given s ref t < 2 ^ 64) :
    rentRelease s ⟨vd, vd * 65536, 0⟩ ref t = (0, poke (reclaim (refund s vd (given s ref t)) ref)) := by
  simp only [isGlobal, Bool.and_eq_true, decide_eq_true_eq, beq_iff_eq, Bool.not_eq_true'] at hg
  obtain ⟨⟨⟨-, ht⟩, hsub⟩, hvd⟩ := hg
  have hstand : (⟨vd, vd * 65536, 0⟩ : Issuer).stands (rentOf s ref).owner = true := by simp [Issuer.stands, ho]
  have hnever : ¬ never < given s ref t := by
    unfold never
    omega
  unfold rentRelease
  simp only
  rw [← rentRate_eq]
  rw [if_neg (by simp [hstand]), if_neg (by simp [hs]), if_neg (by omega), if_neg (by exact hnever), if_neg (by simp [hsub]), hvd]
  rfl

/-- A region that is reclaimed but for a tier-0 item. -/
theorem reclaim_eq {s : State} {ref : Nat} (ht : (rentOf s ref).tier ≠ 0) : reclaim s ref = schedScrub (markAll (dropSpace
    (modRent (freezeRange s (rentOf s ref).space 0 (2 ^ 41) (now s (refDie ref))) ref (fun r => { r with state := 3, escrow := 0 }))
    (rentOf s ref).space) (rentOf s ref)) ref := by
  unfold reclaim
  simp only [ht, decide_false, Bool.false_and, Bool.false_eq_true, if_false]

theorem rentOf_reclaim {s : State} {ref : Nat} (ht : (rentOf s ref).tier ≠ 0) :
    rentOf (reclaim s ref) ref = { rentOf s ref with state := 3, escrow := 0 } := by
  rw [reclaim_eq ht, rentOf_congr (schedScrub_rents _ _), rentOf_congr (markAll_rents _ _), rentOf_congr (dropSpace_rents _ _),
    rentOf_modRent_self, rentOf_congr (freezeRange_rents ..)]

/-- A word that freezes is written where it stands. -/
theorem freezeWord_mem (space t : Nat) (s : State) (w : Nat × Nat × Bool) :
    ∃ bs, bs.length = 16 ∧ (freezeWord space t s w).mem = s.mem.writeRun (locOf space w.2.1) bs := by
  refine ⟨wordBytes { wordAt s space w.2.1 with frozen := true }, by simp [wordBytes], ?_⟩
  rw [freezeWord, releaseWaiters_mem, releaseWaiters_mem]
  simp [touchWord, putWord, writeSpace]

/-- Words that freeze inside their space leave every other space alone. -/
theorem freezeWords_read {space t a : Nat} (ha : a / 2 ^ 41 ≠ space) (l : List (Nat × Nat × Bool)) (hl : ∀ w ∈ l, w.2.1 + 16 ≤ 2 ^ 41)
    (s : State) : (l.foldl (freezeWord space t) s).mem.read a = s.mem.read a := by
  induction l generalizing s with
  | nil => rfl
  | cons w r ih =>
    obtain ⟨bs, hbs, hm⟩ := freezeWord_mem space t s w
    have hw := hl w (List.mem_cons_self ..)
    rw [List.foldl_cons, ih (fun x hx => hl x (List.mem_cons_of_mem _ hx)), hm, read_writeRun, if_neg]
    rw [hbs, locOf]
    omega

theorem freezeRange_read {s : State} {space first last t a : Nat} (hp : Placed s) (ha : a / 2 ^ 41 ≠ space) :
    (freezeRange s space first last t).mem.read a = s.mem.read a := by
  rw [freezeRange_eq, freezeWords_read ha]
  intro w hw
  rcases List.mem_append.mp (List.mem_of_mem_filter hw) with h | h
  · exact (hp.1 w h).2
  · obtain ⟨x, hx, rfl⟩ := List.mem_map.mp h
    exact (hp.2 x (List.mem_of_mem_filter hx)).2

/-- A space that is dropped reads zero. -/
theorem read_dropSpace (s : State) (space a : Nat) : (dropSpace s space).mem.read a = if a / 2 ^ 41 = space then 0 else s.mem.read a := by
  change Mem.read (s.mem.filter (fun c => !(c.1 / 2 ^ 41 == space))) a = _
  split
  · next h =>
    exact read_unlisted _ _ (filter_any_false s.mem a (fun x => !(x / 2 ^ 41 == space)) (by rw [beq_iff_eq.mpr h]; rfl))
  · next h => exact read_filter_keep s.mem a (fun x => !(x / 2 ^ 41 == space)) (by rw [beq_false_of_ne h]; rfl)

/-- A reclaimed region's contents are gone, and no other's. -/
theorem emptied_reclaim {s : State} {ref : Nat} (hp : Placed s) (ht : (rentOf s ref).tier ≠ 0) :
    Emptied s (reclaim s ref) (rentOf s ref).space := by
  intro a
  have hm : (reclaim s ref).mem = (dropSpace
      (modRent (freezeRange s (rentOf s ref).space 0 (2 ^ 41) (now s (refDie ref))) ref (fun r => { r with state := 3, escrow := 0 }))
      (rentOf s ref).space).mem := by
    rw [reclaim_eq ht, schedScrub_mem]
    rfl
  rw [hm, read_dropSpace]
  split
  · rfl
  · next h => exact freezeRange_read hp h

theorem isGlobal_tier {s : State} {vd ref : Nat} (h : isGlobal s vd ref = true) : (rentOf s ref).tier ≠ 0 := by
  simp only [isGlobal, Bool.and_eq_true, decide_eq_true_eq] at h
  omega

theorem refund_allowance (s : State) (vd n : Nat) : allowanceOf (refund s vd n) vd = min (allowanceOf s vd + n) (2 ^ 64 - 1) := by
  rw [allowanceOf, refund, vdOf_modVd_self]
  rfl

theorem given_started (s : State) (vd n ref t : Nat) : given (started s vd n) ref t = given s ref t := rfl

theorem now_started (s : State) (vd n d : Nat) : now (started s vd n) d = now s d := rfl

theorem rentOf_started (s : State) (vd n ref : Nat) : rentOf (started s vd n) ref = rentOf s ref := rfl

/-- A global region goes back: it is RECLAIMED, its contents gone, its refund credited. -/
theorem grelease_frees {s : State} {vd ref : Nat} (hr : regionOf s (vdOf s vd).arg0.toNat = some ref) (hg : isGlobal s vd ref = true)
    (ho : (rentOf s ref).owner = vd * 65536) (hs : (subletsOf s ref).isEmpty = true) (hb : given s ref (now s (refDie ref)) < 2 ^ 64)
    (hp : Placed s) : let t := grelease (started s vd 14) vd (vdOf (started s vd 14) vd)
    Ended t vd 14 0 ∧ (rentOf t ref).state = 3 ∧ Emptied s t (rentOf s ref).space
      ∧ allowanceOf t vd = min (allowanceOf s vd + given s ref (now s (refDie ref))) (2 ^ 64 - 1) := by
  have ha : (vdOf (started s vd 14) vd).arg0 = (vdOf s vd).arg0 := by rw [vdOf_started]
  have hrel := rentRelease_global (s := started s vd 14) (t := now s (refDie ref)) hg ho hs hb
  generalize hn : refund (started s vd 14) vd (given (started s vd 14) ref (now s (refDie ref))) = x at hrel
  have ht : grelease (started s vd 14) vd (vdOf (started s vd 14) vd) = finishVd (poke (reclaim x ref)) vd 0 := by
    rw [grelease, ha, regionOf_started, hr]
    simp only
    rw [if_neg (by rw [show isGlobal (started s vd 14) vd ref = true from hg]; decide), now_started, hrel]
    rfl
  have hx : rentOf x ref = rentOf s ref := by rw [← hn]; rfl
  have hpx : Placed x := by rw [← hn]; exact hp
  have htier : (rentOf x ref).tier ≠ 0 := by rw [hx]; exact isGlobal_tier hg
  have hface := face_of_front (front_reclaim x ref) vd
  have hcmd : (vdOf (reclaim x ref) vd).cmd = 14 := by
    have hf := congrArg VDev.cmd hface
    refine Eq.trans hf ?_
    rw [face, ← hn, refund, vdOf_modVd_self, vdOf_started]
  have hall : allowanceOf (reclaim x ref) vd = min (allowanceOf s vd + given s ref (now s (refDie ref))) (2 ^ 64 - 1) := by
    rw [allowanceOf_of_front (front_reclaim x ref), ← hn, refund_allowance, allowanceOf_started, given_started]
  rw [ht]
  refine ⟨?_, ?_, ?_, ?_⟩
  · rw [Ended, finishVd_vdOf, vdOf_congr (poke_vds _)]
    exact ⟨rfl, rfl, hcmd⟩
  · rw [rentOf_congr (finishVd_rents ..), rentOf_congr (poke_rents _), rentOf_reclaim htier]
  · have he := emptied_reclaim hpx htier
    rw [hx] at he
    intro a
    rw [finishVd_mem, poke_mem, he a, ← hn]
    rfl
  · rw [allowanceOf, finishVd_vdOf, vdOf_congr (poke_vds _)]
    exact hall

/-- R44, Table 4.7: GRELEASE. -/
theorem grelease_spec {s : State} {vd : Nat} (h : Starts .grelease s vd) :
    let v := vdOf s vd
    let a := v.arg0.toNat
    ((∀ ref, regionOf s a = some ref → isGlobal s vd ref = false) → ∃ t, exec .grelease s = .next t ∧ Ended t vd 14 5 ∧ t.rents = s.rents)
      ∧ (∀ ref, regionOf s a = some ref → isGlobal s vd ref = true → (subletsOf s ref).isEmpty = false →
        ∃ t, exec .grelease s = .next t ∧ Ended t vd 14 5 ∧ t.rents = s.rents)
      ∧ (∀ ref, regionOf s a = some ref → isGlobal s vd ref = true → (rentOf s ref).owner = vd * 65536 → (subletsOf s ref).isEmpty = true →
        let r := rentOf s ref
        let back := if r.state = 1 then rentRate r * (r.paid - now s (refDie ref)) + r.escrow else 0
        back < 2 ^ 64 → Placed s → ∃ t, exec .grelease s = .next t ∧ Ended t vd 14 0 ∧ (rentOf t ref).state = 3 ∧ Emptied s t r.space
          ∧ allowanceOf t vd = min (v.allowance + back) (2 ^ 64 - 1)) := by
  have ha : (vdOf (started s vd 14) vd).arg0 = (vdOf s vd).arg0 := by rw [vdOf_started]
  refine ⟨fun hn => ⟨_, grelease_runs h, ?_⟩, fun ref hr hg hs => ⟨_, grelease_runs h, ?_⟩, fun ref hr hg ho hs => ?_⟩
  · have h5 : grelease (started s vd 14) vd (vdOf (started s vd 14) vd) = finishVd (started s vd 14) vd 5 := by
      rw [grelease, ha, regionOf_started]
      split
      · rfl
      · next ref hr => exact if_pos (by rw [show isGlobal (started s vd 14) vd ref = false from hn ref hr]; rfl)
    rw [h5]
    exact ⟨by simp [Ended], rfl⟩
  · have hs' : (subletsOf (started s vd 14) ref).isEmpty = false := hs
    have h5 : grelease (started s vd 14) vd (vdOf (started s vd 14) vd) = finishVd (started s vd 14) vd 5 := by
      rw [grelease, ha, regionOf_started, hr]
      simp only
      rw [if_neg (by rw [show isGlobal (started s vd 14) vd ref = true from hg]; decide)]
      exact if_neg (rentRelease_sublets hs')
    rw [h5]
    exact ⟨by simp [Ended], rfl⟩
  · intro r back hb hp
    have hb' : given s ref (now s (refDie ref)) < 2 ^ 64 := hb
    obtain ⟨he, h3, hem, hal⟩ := grelease_frees hr hg ho hs hb' hp
    exact ⟨_, grelease_runs h, he, h3, hem, hal⟩

/-! ## GRENEW (R44, Table 4.7) -/

/-- The tick that GRENEW extends to. -/
def renewUntil (s : State) (v : VDev) (ref : Nat) : Nat := min (now s (refDie ref) + v.arg1.toNat) (2 ^ 64 - 2)

/-- What GRENEW does to a device with a region of its own. -/
def renewRegion (s : State) (vd ref until_ : Nat) : State :=
  if (rentOf s ref).state = 1 && until_ ≤ (rentOf s ref).paid then finishVd s vd 0
  else
    let x := rentRenew s ⟨vd, (rentOf s ref).owner, 0⟩ ref until_ (now s (refDie ref))
    finishVd (if x.1 = 0 then x.2 else s) vd (if x.1 = 0 then 0 else if x.1 = rARG then 5 else 6)

/-- What GRENEW does to a device. -/
def grenew (s : State) (vd : Nat) (v : VDev) : State :=
  match regionOf s v.arg0.toNat with
  | none => finishVd s vd 5
  | some ref =>
    if (rentOf s ref).owner / 65536 != vd || (rentOf s ref).sub then finishVd s vd 5
    else renewRegion s vd ref (renewUntil s v ref)

theorem grenew_runs {s : State} {vd : Nat} (h : Starts .grenew s vd) :
    exec .grenew s = .next (grenew (started s vd 15) vd (vdOf (started s vd 15) vd)) :=
  starts_runs h rfl (rfl : execGrenew s = vdCommand 15 live grenew s)

/-- RENEW of a region of its owner's that is no sublet: its argument refused, no charge, or the region extended. -/
theorem rentRenew_cases {s : State} {vd ref u t : Nat} (hsub : (rentOf s ref).sub = false)
    (hlive : (rentOf s ref).state = 1 ∨ (rentOf s ref).state = 2) (hnew : ¬ ((rentOf s ref).state = 1 ∧ u ≤ (rentOf s ref).paid)) :
    let x := rentRenew s ⟨vd, (rentOf s ref).owner, 0⟩ ref u t
    ((rentOf s ref).state = 2 ∧ u ≤ t ∧ x = (rARG, s))
    ∨ (¬ ((rentOf s ref).state = 2 ∧ u ≤ t) ∧ (x = (rOVER, s) ∨ x = (rALLOW, s)))
    ∨ (¬ ((rentOf s ref).state = 2 ∧ u ≤ t) ∧ x.1 = 0 ∧ rentOf x.2 ref = { rentOf s ref with paid := u, state := 1, lack := 0 }) := by
  have hstand : (⟨vd, (rentOf s ref).owner, 0⟩ : Issuer).stands (rentOf s ref).owner = true := by simp [Issuer.stands]
  unfold rentRenew
  simp only [hstand, hsub, Bool.not_true, Bool.not_false, Bool.true_or, Bool.and_true, Bool.false_eq_true, if_false]
  by_cases hbad : (rentOf s ref).state = 2 ∧ u ≤ t
  · refine Or.inl ⟨hbad.1, hbad.2, ?_⟩
    rw [if_pos]
    simp [hbad.1, hbad.2]
  · refine Or.inr ?_
    rw [if_neg (by
      split
      · next h2 => simp; omega
      · next h2 => simp; omega)]
    split
    · exact Or.inl ⟨hbad, Or.inl rfl⟩
    · cases hc : charge s ((rentOf s ref).owner / 65536) (rate (rentOf s ref) * (u - (rentOf s ref).paid + (rentOf s ref).lack)) with
      | none => exact Or.inl ⟨hbad, Or.inr rfl⟩
      | some y =>
        refine Or.inr ⟨hbad, rfl, ?_⟩
        have hy : rentOf y ref = rentOf s ref := by rw [(charge_eq hc).2, rentOf_modVd]
        simp only
        rw [rentOf_congr (poke_rents _), rentOf_congr (schedRent_rents ..), rentOf_modRent_self, hy]
        simp only [hsub]

/-- The ends of GRENEW on a region of its device. -/
theorem renewRegion_cases {s : State} {vd ref u : Nat} (hsub : (rentOf s ref).sub = false)
    (hlive : (rentOf s ref).state = 1 ∨ (rentOf s ref).state = 2) :
    ((rentOf s ref).state = 1 ∧ u ≤ (rentOf s ref).paid ∧ renewRegion s vd ref u = finishVd s vd 0)
    ∨ (¬ ((rentOf s ref).state = 1 ∧ u ≤ (rentOf s ref).paid)
      ∧ (((rentOf s ref).state = 2 ∧ u ≤ now s (refDie ref) ∧ renewRegion s vd ref u = finishVd s vd 5)
        ∨ (¬ ((rentOf s ref).state = 2 ∧ u ≤ now s (refDie ref)) ∧ (renewRegion s vd ref u = finishVd s vd 6
          ∨ ∃ x, renewRegion s vd ref u = finishVd x vd 0 ∧ rentOf x ref = { rentOf s ref with paid := u, state := 1, lack := 0 })))) := by
  unfold renewRegion
  by_cases hold : (rentOf s ref).state = 1 ∧ u ≤ (rentOf s ref).paid
  · exact Or.inl ⟨hold.1, hold.2, if_pos (by simp [hold.1, hold.2])⟩
  · refine Or.inr ⟨hold, ?_⟩
    rw [if_neg (by simpa using hold)]
    rcases rentRenew_cases (vd := vd) (t := now s (refDie ref)) hsub hlive hold with ⟨h2, hu, hx⟩ | ⟨hn, hx | hx⟩ | ⟨hn, h0, hr⟩
    · refine Or.inl ⟨h2, hu, ?_⟩
      simp only [hx]
      rfl
    · refine Or.inr ⟨hn, Or.inl ?_⟩
      simp only [hx]
      rfl
    · refine Or.inr ⟨hn, Or.inl ?_⟩
      simp only [hx]
      rfl
    · refine Or.inr ⟨hn, Or.inr ⟨_, ?_, hr⟩⟩
      simp only [h0, if_true]

/-- R44, Table 4.7: GRENEW. -/
theorem grenew_spec {s : State} {vd : Nat} (h : Starts .grenew s vd) :
    let v := vdOf s vd
    let a := v.arg0.toNat
    let span := v.arg1.toNat
    ((∀ ref, regionOf s a = some ref → (rentOf s ref).owner / 65536 ≠ vd ∨ (rentOf s ref).sub = true) →
        ∃ t, exec .grenew s = .next t ∧ Ended t vd 15 5 ∧ t.rents = s.rents)
      ∧ (∀ ref, regionOf s a = some ref → (rentOf s ref).owner / 65536 = vd → (rentOf s ref).sub = false →
        let until_ := min (now s (refDie ref) + span) (2 ^ 64 - 2)
        ∃ t, exec .grenew s = .next t ∧ (vdOf t vd).busy = false ∧ (vdOf t vd).result ∈ [0, 5, 6]
          ∧ ((vdOf t vd).result = 5 ↔ (rentOf s ref).state = 2 ∧ until_ ≤ now s (refDie ref))
          ∧ ((vdOf t vd).result ≠ 0 → t.rents = s.rents ∧ allowanceOf t vd = v.allowance)
          ∧ ((rentOf s ref).state = 1 → until_ ≤ (rentOf s ref).paid → (vdOf t vd).result = 0)
          ∧ ((vdOf t vd).result = 0 → ((rentOf s ref).state = 1 ∧ until_ ≤ (rentOf s ref).paid ∧ t.rents = s.rents)
            ∨ rentOf t ref = { rentOf s ref with paid := until_, state := 1, lack := 0 })) := by
  have ha : (vdOf (started s vd 15) vd).arg0 = (vdOf s vd).arg0 := by rw [vdOf_started]
  refine ⟨fun hn => ⟨_, grenew_runs h, ?_⟩, fun ref hr ho hsub => ?_⟩
  · have h5 : grenew (started s vd 15) vd (vdOf (started s vd 15) vd) = finishVd (started s vd 15) vd 5 := by
      rw [grenew, ha, regionOf_started]
      split
      · rfl
      · next ref hr => exact if_pos (by simpa [rentOf_started] using hn ref hr)
    rw [h5]
    exact ⟨by simp [Ended], rfl⟩
  · have hu : renewUntil (started s vd 15) (vdOf (started s vd 15) vd) ref = min (now s (refDie ref) + (vdOf s vd).arg1.toNat) (2 ^ 64 - 2) := by
      rw [renewUntil, vdOf_started, now_started]
    intro until_
    have hrun : exec .grenew s = .next (renewRegion (started s vd 15) vd ref until_) := by
      rw [grenew_runs h, grenew, ha, regionOf_started, hr]
      have hmine : ¬ (((rentOf (started s vd 15) ref).owner / 65536 != vd || (rentOf (started s vd 15) ref).sub) = true) := by
        rw [rentOf_started, hsub, ho]
        simp
      simp only
      rw [if_neg hmine, hu]
    refine ⟨_, hrun, ?_⟩
    have hall := allowanceOf_started s vd 15
    rcases renewRegion_cases (s := started s vd 15) (vd := vd) (u := until_) hsub (regionOf_live hr)
      with ⟨h1, hle, ht⟩ | ⟨hold, ⟨h2, hle, ht⟩ | ⟨hn, ht | ⟨x, ht, hx⟩⟩⟩
    · rw [ht]
      simp only [finishVd_vdOf, finishVd_rents]
      rw [rentOf_started] at h1 hle
      refine ⟨trivial, by simp, ?_, fun hn => absurd rfl hn, fun _ _ => trivial, fun _ => Or.inl ⟨h1, hle, rfl⟩⟩
      simp [h1]
    · rw [ht]
      simp only [finishVd_vdOf, finishVd_rents]
      rw [rentOf_started] at h2
      refine ⟨trivial, by simp, ⟨fun _ => ⟨h2, hle⟩, fun _ => trivial⟩, fun _ => ⟨rfl, ?_⟩, fun h1 => by omega, fun h0 => ?_⟩
      · rw [allowanceOf, finishVd_vdOf]
        exact hall
      · simp at h0
    · rw [ht]
      simp only [finishVd_vdOf, finishVd_rents]
      rw [rentOf_started] at hold hn
      refine ⟨trivial, by simp, ?_, fun _ => ⟨rfl, ?_⟩, fun h1 hle => absurd ⟨h1, hle⟩ hold, fun h0 => ?_⟩
      · rw [now_started] at hn
        simpa using hn
      · rw [allowanceOf, finishVd_vdOf]
        exact hall
      · simp at h0
    · rw [ht]
      simp only [finishVd_vdOf, finishVd_rents]
      rw [rentOf_started] at hold hn
      refine ⟨trivial, by simp, ?_, fun hn => absurd rfl hn, fun _ _ => trivial, fun _ => Or.inr ?_⟩
      · rw [now_started] at hn
        simpa using hn
      · rw [rentOf_congr (finishVd_rents ..), hx, rentOf_started]

theorem globalRegionsAreRented : Stated.GlobalRegionsAreRented :=
  fun _ _ => ⟨grent_spec, load_spec, loadComplete_spec, grelease_spec, grenew_spec⟩

end Sys2Proof.Proofs
end

section
/-!
SUPPORT. O56: a device's start, and what rounds, the final transfer and THAW do.
-/
namespace Sys2Proof.Proofs
open Sys2Proof Sys2Proof.Machine Sys2Proof.Stated Sys2Proof.Laws

/-! ## A device changes state (R69) -/

section
variable (s : State) (vd new : Nat)

@[simp] theorem journal_units (kind q seq : Nat) (payload : List Nat) : (journal s kind vd q seq payload).units = s.units := by
  rw [journal, journalBytes_eq]
@[simp] theorem journal_engines (kind q seq : Nat) (payload : List Nat) : (journal s kind vd q seq payload).engines = s.engines := by
  rw [journal, journalBytes_eq]

theorem setVdState_eq : setVdState s vd new = modVd (journal s 9 vd 0 0 [(vdOf s vd).state, new]) vd (fun v => { v with state := new }) := rfl

@[simp] theorem setVdState_vdOf : vdOf (setVdState s vd new) vd = { vdOf s vd with state := new } := by
  rw [setVdState_eq, vdOf_modVd_self, vdOf_congr (journal_vds ..)]
@[simp] theorem setVdState_kicks : (setVdState s vd new).kicks = s.kicks := journal_kicks s 9 vd 0 0 [(vdOf s vd).state, new]
@[simp] theorem setVdState_mem : (setVdState s vd new).mem = s.mem := journal_mem s 9 vd 0 0 [(vdOf s vd).state, new]
@[simp] theorem setVdState_window : (setVdState s vd new).window = s.window := journal_window s 9 vd 0 0 [(vdOf s vd).state, new]
@[simp] theorem setVdState_rents : (setVdState s vd new).rents = s.rents := journal_rents s 9 vd 0 0 [(vdOf s vd).state, new]
@[simp] theorem setVdState_units : (setVdState s vd new).units = s.units := journal_units s 9 vd 0 0 [(vdOf s vd).state, new]
@[simp] theorem setVdState_launches : (setVdState s vd new).launches = s.launches := journal_launches s 9 vd 0 0 [(vdOf s vd).state, new]

end

/-! ## CREATE and IMPORT (R39, R43) -/

/-- Floors fit or not whatever command a device runs (R41). -/
theorem floorsFit_started (s : State) (vd n : Nat) : floorsFit (started s vd n) vd = floorsFit s vd := by
  have hfl : ∀ u tier die, floorOf (started s vd n) u tier die = floorOf s u tier die := by
    intro u tier die
    unfold floorOf
    by_cases hu : vd = u
    · rw [← hu, vdOf_started]
    · rw [started_eq, vdOf_modVd_ne _ _ hu]
  have hcap : ∀ tier die, capacity (started s vd n) tier die = capacity s tier die := fun _ _ => rfl
  unfold floorsFit
  simp only [hfl, hcap, vdOf_started]

theorem zeroWindow_read (s : State) (vd x : Nat) : (zeroWindow s vd).window.read x = if x / 0x100000 = vd then 0 else s.window.read x := by
  split
  · next h => exact read_unlisted _ _ (filter_any_false s.window x (fun a => a / 0x100000 != vd) (by simp [h]))
  · next h => exact read_filter_keep s.window x (fun a => a / 0x100000 != vd) (by simp [h])

theorem not_mem_zeroWindow_kicks {s : State} {vd k : Nat} (h : k ∈ (zeroWindow s vd).kicks) : k / 64 ≠ vd := by
  simpa using (List.mem_filter.mp h).2

theorem startVd_fits {s : State} {vd : Nat} (st : Nat) (h : floorsFit s vd = true) :
    startVd s vd st = modVd (setVdState (zeroWindow s vd) vd st) vd (fun v => freshVd v st) := if_neg (by simp [h])

theorem startVd_unfit {s : State} {vd : Nat} (st : Nat) (h : floorsFit s vd = false) : startVd s vd st = finishVd s vd 2 :=
  if_pos (by simp [h])

/-- A device as it starts. -/
theorem startVd_vdOf {s : State} {vd : Nat} (st : Nat) (h : floorsFit s vd = true) : vdOf (startVd s vd st) vd = freshVd (vdOf s vd) st := by
  rw [startVd_fits st h, vdOf_modVd_self, setVdState_vdOf]
  rfl

/-- R39, R43: a device starts with parameters at their reset values and empty queues, where its floors fit. -/
theorem startVd_spec {i : Instr} {s : State} {vd n st : Nat} (h0 : (vdOf s vd).state = 0)
    (hrun : exec i s = .next (startVd (started s vd n) vd st)) :
    (floorsFit s vd = true → ∃ t, exec i s = .next t ∧ (vdOf t vd).state = st ∧ (vdOf t vd).busy = false ∧ (vdOf t vd).result = 0
        ∧ (vdOf t vd).sliceLog2 = 22 ∧ (vdOf t vd).priorityMax = 3 ∧ (vdOf t vd).maxInflight = 256 ∧ (vdOf t vd).coreQuota = 1024
        ∧ (vdOf t vd).floors = (vdOf s vd).floors ∧ (vdOf t vd).queues = [] ∧ (vdOf t vd).maps = []
        ∧ (∀ x, t.window.read x = if x / 0x100000 = vd then 0 else s.window.read x) ∧ (∀ k ∈ t.kicks, k / 64 ≠ vd) ∧ t.mem = s.mem)
      ∧ (floorsFit s vd = false → ∃ t n, exec i s = .next t ∧ Ended t vd n 2 ∧ (vdOf t vd).state = 0 ∧ t.mem = s.mem
        ∧ t.window = s.window) := by
  refine ⟨fun hf => ⟨_, hrun, ?_⟩, fun hf => ⟨_, n, hrun, ?_⟩⟩
  · have hf' : floorsFit (started s vd n) vd = true := (floorsFit_started ..).trans hf
    rw [startVd_vdOf st hf', vdOf_started, startVd_fits st hf']
    refine ⟨rfl, rfl, rfl, rfl, rfl, rfl, rfl, rfl, rfl, rfl, fun x => ?_, fun k hk => ?_, setVdState_mem _ vd st⟩
    · exact (congrArg (fun m : Mem => m.read x) (setVdState_window _ vd st)).trans (zeroWindow_read ..)
    · exact not_mem_zeroWindow_kicks (setVdState_kicks _ vd st ▸ hk)
  · rw [startVd_unfit st ((floorsFit_started ..).trans hf)]
    refine ⟨by simp [Ended], ?_, rfl, rfl⟩
    rw [finishVd_vdOf, vdOf_started]
    exact h0

theorem createVd_runs {s : State} {vd : Nat} (h : Starts .createVd s vd) : exec .createVd s = .next (startVd (started s vd 1) vd 1) :=
  starts_runs h rfl (rfl : execCreateVd s = vdCommand 1 (fun v => v.state == 0) (fun s vd _ => startVd s vd 1) s)

theorem importVd_runs {s : State} {vd : Nat} (h : Starts .importVd s vd) : exec .importVd s = .next (startVd (started s vd 7) vd 4) :=
  starts_runs h rfl (rfl : execImportVd s = vdCommand 7 (fun v => v.state == 0) (fun s vd _ => startVd s vd 4) s)

/-- A command that starts finds its device in a state of its row. -/
theorem starts_may {i : Instr} {s : State} {vd n : Nat} {may : VDev → Bool} (hs : Starts i s vd) (hc : commandOf i = some (n, may)) :
    may (vdOf s vd) = true := by
  obtain ⟨_, _, _, n', may', hc', hm⟩ := hs
  obtain ⟨rfl, rfl⟩ : n = n' ∧ may = may' := by simpa [hc] using hc'
  exact hm

theorem devicesAreMade {s : State} {vd : Nat} {i : Instr} {st : Nat} (hi : (i = .createVd ∧ st = 1) ∨ (i = .importVd ∧ st = 4))
    (h : Starts i s vd) : ∃ n, (vdOf s vd).state = 0 ∧ exec i s = .next (startVd (started s vd n) vd st) := by
  rcases hi with ⟨rfl, rfl⟩ | ⟨rfl, rfl⟩
  · exact ⟨1, by simpa using starts_may h rfl, createVd_runs h⟩
  · exact ⟨7, by simpa using starts_may h rfl, importVd_runs h⟩

/-! ## Rounds and the final transfer (R47) -/

/-- What goes to a node of a page of a device. -/
def pageOut (s : State) (vd p : Nat) (m : Mapping) : Nat × Nat × List Byte × List Nat :=
  ((vdOf s vd).node.toNat, p * 65536, if m.host then s.hostMem.readRun (m.hostAddr + (p * 65536 - m.first)) 65536
    else s.mem.readRun (locOf (rentOf s m.ref).space (p * 65536 - m.first)) 65536,
    if m.host then [] else poisonIn s (refPlace s m.ref (p * 65536 - m.first) 0 0) 65536)

/-- A transfer's pages are on the link, and the device counts it. -/
def counting (s : State) (vd : Nat) (out : List (Nat × Nat × List Byte × List Nat)) : State :=
  modVd { s with free := s.free + 1, links := { s.links with sent := s.links.sent ++ out } } vd (fun v => { v with busy := true })

theorem counting_vdOf (s : State) (vd : Nat) (out : List (Nat × Nat × List Byte × List Nat)) :
    vdOf (counting s vd out) vd = { vdOf s vd with busy := true } := by
  rw [counting, vdOf_modVd_self]
  rfl

theorem sendPages_eq (s : State) (vd : Nat) (pages : List Nat) : ∃ tick, sendPages s vd pages
    = sched (counting s vd (pages.filterMap (fun p => (globalMap (vdOf s vd) (p * 65536)).map (pageOut s vd p))))
      0 tick 18 0 0 (.ins (.transferCountedComplete vd)) := ⟨_, rfl⟩

theorem sendPages_vdOf (s : State) (vd : Nat) (pages : List Nat) : vdOf (sendPages s vd pages) vd = { vdOf s vd with busy := true } := by
  obtain ⟨tick, h⟩ := sendPages_eq s vd pages
  rw [h]
  exact counting_vdOf ..

theorem sendPages_mem (s : State) (vd : Nat) (pages : List Nat) : (sendPages s vd pages).mem = s.mem := rfl
theorem sendPages_outgoing (s : State) (vd : Nat) (pages : List Nat) : (sendPages s vd pages).outgoing = s.outgoing := rfl

/-- Every page of a round that a mapping backs goes to the node. -/
theorem pageOut_mem {s : State} {vd p : Nat} {pages : List Nat} {m : Mapping} (hp : p ∈ pages)
    (hm : globalMap (vdOf s vd) (p * 65536) = some m) : pageOut s vd p m ∈ (sendPages s vd pages).links.sent := by
  obtain ⟨tick, h⟩ := sendPages_eq s vd pages
  rw [h]
  refine List.mem_append_right _ (List.mem_filterMap.mpr ⟨p, hp, ?_⟩)
  rw [hm]
  rfl

/-- The pages of a list are on the link to the node of the write, as they are. -/
def Sends (s t : State) (vd : Nat) (l : List Nat) : Prop :=
  ∀ p ∈ l, ∀ m, globalMap (vdOf s vd) (p * 65536) = some m →
    (m.host = false → ((nodeField s).toNat, p * 65536, s.mem.readRun (locOf (rentOf s m.ref).space (p * 65536 - m.first)) 65536,
      poisonIn s (refPlace s m.ref (p * 65536 - m.first) 0 0) 65536) ∈ t.links.sent)
    ∧ (m.host = true → ((nodeField s).toNat, p * 65536, s.hostMem.readRun (m.hostAddr + (p * 65536 - m.first)) 65536, []) ∈ t.links.sent)

/-- A state that differs from one in its devices and what leaves it only sends the same pages. -/
structure SamePages (s t : State) (vd : Nat) : Prop where
  node : (vdOf t vd).node = nodeField s
  maps : (vdOf t vd).maps = (vdOf s vd).maps
  rest : ∃ vds outgoing, t = { s with vds := vds, outgoing := outgoing }

theorem pageOut_same {s t : State} {vd : Nat} (h : SamePages s t vd) (p : Nat) (m : Mapping) : pageOut t vd p m
    = ((nodeField s).toNat, p * 65536, if m.host then s.hostMem.readRun (m.hostAddr + (p * 65536 - m.first)) 65536
      else s.mem.readRun (locOf (rentOf s m.ref).space (p * 65536 - m.first)) 65536,
      if m.host then [] else poisonIn s (refPlace s m.ref (p * 65536 - m.first) 0 0) 65536) := by
  obtain ⟨hn, hm, vds, outgoing, rfl⟩ := h
  rw [pageOut, hn]
  rfl

theorem sends_sendPages {s t : State} {vd : Nat} (h : SamePages s t vd) (l : List Nat) : Sends s (sendPages t vd l) vd l := by
  intro p hp m hm
  have hm' : globalMap (vdOf t vd) (p * 65536) = some m := by
    rw [← hm]
    unfold globalMap
    rw [h.maps]
  have hout := pageOut_mem hp hm'
  rw [pageOut_same h] at hout
  refine ⟨fun hh => ?_, fun hh => ?_⟩
  · simpa only [hh, Bool.false_eq_true, if_false] using hout
  · simpa only [hh, if_true] using hout

/-- A started device after a change that keeps its node and its mappings. -/
theorem samePages_modVd (s : State) (vd n : Nat) (o : List (Nat × Transfer)) {f : VDev → VDev} (hn : ∀ v, (f v).node = v.node)
    (hm : ∀ v, (f v).maps = v.maps) : SamePages s (modVd { started s vd n with outgoing := o } vd f) vd := by
  have hv : vdOf { started s vd n with outgoing := o } vd = { vdOf s vd with node := nodeField s, cmd := n } := vdOf_started s vd n
  refine ⟨?_, ?_, _, o, rfl⟩
  · rw [vdOf_modVd_self, hn, hv]
  · rw [vdOf_modVd_self, hm, hv]

/-- EXPORT (R47). -/
def exportVd (s : State) (vd : Nat) (v : VDev) : State :=
  sendPages (modVd s vd (fun v => { v with tracking := true, dirty := [] })) vd (devicePages v)

theorem exportVd_runs {s : State} {vd : Nat} (h : Starts .exportVd s vd) :
    exec .exportVd s = .next (exportVd (started s vd 3) vd (vdOf (started s vd 3) vd)) :=
  starts_runs h rfl (rfl : execExportVd s = vdCommand 3 live exportVd s)

theorem exportVd_spec {s : State} {vd : Nat} (h : Starts .exportVd s vd) : ∃ t, exec .exportVd s = .next t ∧ (vdOf t vd).tracking = true
    ∧ (vdOf t vd).dirty = [] ∧ (vdOf t vd).busy = true ∧ (vdOf t vd).node = nodeField s ∧ Sends s t vd (devicePages (vdOf s vd))
    ∧ t.mem = s.mem := by
  have hp : devicePages (vdOf (started s vd 3) vd) = devicePages (vdOf s vd) := by rw [vdOf_started]; rfl
  have hs : SamePages s (modVd (started s vd 3) vd (fun v => { v with tracking := true, dirty := [] })) vd :=
    samePages_modVd s vd 3 s.outgoing (fun _ => rfl) (fun _ => rfl)
  refine ⟨_, exportVd_runs h, ?_⟩
  rw [exportVd, hp, sendPages_vdOf, vdOf_modVd_self, vdOf_started]
  exact ⟨rfl, rfl, rfl, rfl, sends_sendPages hs _, sendPages_mem ..⟩

/-- ROUND (R47). -/
def roundVd (s : State) (vd : Nat) (v : VDev) : State :=
  sendPages (modVd s vd (fun v => { v with dirtyCount := v.dirty.length, dirty := [] })) vd v.dirty

theorem roundVd_runs {s : State} {vd : Nat} (h : Starts .roundVd s vd) :
    exec .roundVd s = .next (roundVd (started s vd 4) vd (vdOf (started s vd 4) vd)) :=
  starts_runs h rfl (rfl : execRoundVd s = vdCommand 4 (fun v => live v && v.tracking) roundVd s)

theorem roundVd_spec {s : State} {vd : Nat} (h : Starts .roundVd s vd) : ∃ t, exec .roundVd s = .next t
    ∧ (vdOf t vd).dirtyCount = (vdOf s vd).dirty.length ∧ (vdOf t vd).dirty = [] ∧ (vdOf t vd).busy = true
    ∧ Sends s t vd (vdOf s vd).dirty ∧ t.mem = s.mem := by
  have hp : (vdOf (started s vd 4) vd).dirty = (vdOf s vd).dirty := by rw [vdOf_started]
  have hs : SamePages s (modVd (started s vd 4) vd (fun v => { v with dirtyCount := v.dirty.length, dirty := [] })) vd :=
    samePages_modVd s vd 4 s.outgoing (fun _ => rfl) (fun _ => rfl)
  refine ⟨_, roundVd_runs h, ?_⟩
  rw [roundVd, hp, sendPages_vdOf, vdOf_modVd_self, vdOf_started]
  exact ⟨rfl, rfl, rfl, sends_sendPages hs _, sendPages_mem ..⟩

/-- A device's transfer is on its way to a node. -/
def departed (s : State) (vd node : Nat) : State :=
  modVd { s with outgoing := s.outgoing ++ [(node, transferOf s vd)] } vd (fun v => { v with dirty := [] })

theorem departed_vdOf (s : State) (vd node : Nat) : vdOf (departed s vd node) vd = { vdOf s vd with dirty := [] } := by
  rw [departed, vdOf_modVd_self]
  rfl

theorem samePages_departed (s : State) (vd n node : Nat) : SamePages s (departed (started s vd n) vd node) vd :=
  samePages_modVd s vd n _ (fun _ => rfl) (fun _ => rfl)

/-- FINAL (R47). -/
def finalVd (s : State) (vd : Nat) (v : VDev) : State := sendPages (departed s vd v.node.toNat) vd v.dirty

theorem transferOf_started (s : State) (vd n : Nat) : let x := transferOf (started s vd n) vd
    x.freezeTick = (vdOf s vd).freezeTick ∧ x.units = (allUnits s).filter (fun u => u.vd == vd)
      ∧ x.launches = s.launches.filter (fun e => e.2.vd == vd) ∧ x.body.queues = (vdOf s vd).queues
      ∧ x.body.hostOwned = (vdOf s vd).hostOwned ∧ x.body.withheld = (vdOf s vd).withheld ∧ x.copies = stagingCopies s vd := by
  have hb : (transferOf (started s vd n) vd).body = vdOf (started s vd n) vd := rfl
  have hf : (transferOf (started s vd n) vd).freezeTick = (vdOf (started s vd n) vd).freezeTick := rfl
  simp only [hb, hf, vdOf_started]
  exact ⟨trivial, rfl, rfl, trivial, trivial, trivial, rfl⟩

theorem finalVd_runs {s : State} {vd : Nat} (h : Starts .finalVd s vd) :
    exec .finalVd s = .next (finalVd (started s vd 6) vd (vdOf (started s vd 6) vd)) :=
  starts_runs h rfl (rfl : execFinalVd s = vdCommand 6 (fun v => v.state == 3 && v.tracking) finalVd s)

theorem finalVd_spec {s : State} {vd : Nat} (h : Starts .finalVd s vd) : ∃ t x, exec .finalVd s = .next t
    ∧ t.outgoing = s.outgoing ++ [((nodeField s).toNat, x)]
      ∧ x.freezeTick = (vdOf s vd).freezeTick ∧ x.units = (allUnits s).filter (fun u => u.vd == vd)
      ∧ x.launches = s.launches.filter (fun e => e.2.vd == vd) ∧ x.body.queues = (vdOf s vd).queues ∧ x.body.hostOwned = (vdOf s vd).hostOwned
      ∧ x.body.withheld = (vdOf s vd).withheld ∧ x.copies = stagingCopies s vd ∧ Sends s t vd (vdOf s vd).dirty
      ∧ (vdOf t vd).busy = true ∧ (vdOf t vd).state = 3 := by
  have hp : (vdOf (started s vd 6) vd).dirty = (vdOf s vd).dirty := by rw [vdOf_started]
  have hn : (vdOf (started s vd 6) vd).node = nodeField s := by rw [vdOf_started]
  have h3 : (vdOf s vd).state = 3 := by
    have := starts_may h rfl
    simp at this
    exact this.1
  obtain ⟨hx1, hx2, hx3, hx4, hx5, hx6, hx7⟩ := transferOf_started s vd 6
  refine ⟨_, transferOf (started s vd 6) vd, finalVd_runs h, ?_, hx1, hx2, hx3, hx4, hx5, hx6, hx7, ?_⟩
  · rw [finalVd, hn, sendPages_outgoing]
    rfl
  · rw [finalVd, hp, sendPages_vdOf, departed_vdOf, vdOf_started]
    exact ⟨sends_sendPages (samePages_departed ..) _, rfl, h3⟩

/-- The count of a transfer ends its command (Table 2.9). -/
theorem transferCounted_spec {s : State} {vd : Nat} (hb : (vdOf s vd).busy = true)
    (hc : (vdOf s vd).cmd = 3 ∨ (vdOf s vd).cmd = 4 ∨ (vdOf s vd).cmd = 6) : ∃ t, exec (.transferCountedComplete vd) s = .next t
      ∧ (vdOf t vd).busy = false ∧ ((vdOf t vd).result = 0 ∨ (vdOf t vd).result = 4) ∧ (vdOf t vd).state = (vdOf s vd).state ∧ t.mem = s.mem := by
  obtain ⟨o, t, ht, hv, hm⟩ : ∃ o t, exec (.transferCountedComplete vd) s = .next (finishVd t vd (if o = 0 then 0 else 4))
      ∧ vdOf t vd = vdOf s vd ∧ t.mem = s.mem := by
    by_cases hup : s.links.ethUp.any id = true
    · refine ⟨(pick s 2).1, (pick s 2).2, ?_, rfl, rfl⟩
      change execTransferCountedComplete vd s = _
      rw [execTransferCountedComplete, if_neg (by rcases hc with hc | hc | hc <;> simp [hb, hc]), if_pos hup]
    · refine ⟨1, s, ?_, rfl, rfl⟩
      change execTransferCountedComplete vd s = _
      rw [execTransferCountedComplete, if_neg (by rcases hc with hc | hc | hc <;> simp [hb, hc]), if_neg hup]
  refine ⟨_, ht, ?_⟩
  rw [finishVd_vdOf, finishVd_mem, hv, hm]
  refine ⟨rfl, ?_, rfl, rfl⟩
  show (if o = 0 then 0 else 4) = 0 ∨ (if o = 0 then 0 else 4) = 4
  split
  · exact Or.inl rfl
  · exact Or.inr rfl

/-- A final transfer is taken by a device that is IMPORTING, and by no other (R47). -/
theorem finalTransferReceive_spec (s : State) (vd : Nat) :
    ((vdOf s vd).state = 4 → (tget s.incoming vd).isSome →
      exec (.finalTransferReceive vd) s = .next (modVd s vd (fun v => { v with received := true })))
    ∧ ((vdOf s vd).state ≠ 4 → exec (.finalTransferReceive vd) s = .next { s with incoming := s.incoming.filter (fun e => e.1 != vd) }) := by
  refine ⟨fun h4 hi => ?_, fun h4 => ?_⟩
  · change execFinalTransferReceive vd s = _
    exact if_pos (by simp [h4, hi])
  · change execFinalTransferReceive vd s = _
    exact if_neg (by simp [h4])

/-- FREEZE ends when every context of the device is saved (R46). -/
theorem freezeComplete_spec {s : State} {vd : Nat} (hb : (vdOf s vd).busy = true) (hc : (vdOf s vd).cmd = 5) (ht : takingOver s = false) :
    (freezeDone s vd = false → exec (.freezeComplete vd) s = .next s)
      ∧ (freezeDone s vd = true → ∃ t, exec (.freezeComplete vd) s = .next t ∧ Ended t vd 5 0 ∧ (vdOf t vd).state = 3
        ∧ (vdOf t vd).freezeTick = now s 0 ∧ t.mem = s.mem ∧ t.units = s.units) := by
  refine ⟨fun hd => ?_, fun hd =>
    ⟨finishVd (modVd (setVdState s vd 3) vd (fun v => { v with freezeTick := now s 0, sliceAt := none })) vd 0, ?_, ?_⟩⟩
  · change execFreezeComplete vd s = _
    exact if_pos (by simp [hd])
  · change execFreezeComplete vd s = _
    exact if_neg (by simp [hd, ht, beingFrozen, hb, hc])
  · rw [Ended, finishVd_vdOf, vdOf_modVd_self, setVdState_vdOf]
    refine ⟨⟨rfl, rfl, hc⟩, rfl, rfl, ?_, ?_⟩
    · exact (modVd_mem ..).trans ((modVd_mem ..).trans (setVdState_mem ..))
    · exact (modVd_units ..).trans ((modVd_units ..).trans (setVdState_units ..))

end Sys2Proof.Proofs
end

section
/-!
SUPPORT. O56: what THAW and ACTIVATE leave behind.
-/
namespace Sys2Proof.Proofs
open Sys2Proof Sys2Proof.Machine Sys2Proof.Stated Sys2Proof.Laws

/-! ## THAW (R48) -/

/-- The rebase of a device's rent entries, teams and copies in the buffers. -/
def thawTables (s : State) (vd : Nat) (d : Int) : State := { s with
  rents := s.rents.map (fun (e : Nat × Rent) => if e.2.owner / 65536 = vd && e.2.state != 0 then (e.1, shiftRent d e.2) else e)
  teams := s.teams.map (fun (e : Nat × Team) => if (launchOf s e.2.launch).vd = vd then (e.1, { e.2 with
    stopTick := if frozenRun s e.2 then now s 0 else shiftTick d e.2.stopTick }) else e)
  engines := s.engines.map (fun (e : Nat × CopyEng) => (e.1, { e.2 with buffer := e.2.buffer.map (fun k =>
    if newelCopy vd k || (unitOf s k.uid).any (fun c => c.vd == vd) then shiftCmd d k else k) })) }

/-- The rebase of a device's contexts. -/
def thawUnits (s : State) (vd : Nat) (d : Int) (old : Tab Team) : State :=
  (allUnits s).foldl (fun s u => if u.vd = vd then
    modUnit s u.uid (rebaseUnit d (now s 0) (stopOf old u.team) (launchOf s u.launch).attached) else s) s

/-- The rent events of a device at their new ticks. -/
def thawRents (s : State) (vd : Nat) : State :=
  s.rents.foldl (fun s e => if e.2.owner / 65536 = vd && (e.2.state == 1 || e.2.state == 2) then schedRent s e.1
    else if e.2.owner / 65536 = vd && e.2.state == 3 then schedScrub s e.1 else s) s

/-- What a debugger held is ended. -/
def thawLaunches (s : State) (vd : Nat) : State :=
  s.launches.foldl (fun s e => if e.2.vd = vd && e.2.attached && e.2.status.isSome then
    sched (modLaunch s e.1 (fun l => { l with attached := false })) 0 (now s 0) 17 0 0 (.ins (.launchEnd e.1)) else s) s

/-- A device runs again. -/
def thawed (s : State) (vd : Nat) (d : Int) : State :=
  finishVd (modVd (setVdState s vd 1) vd (fun v => { v with tracking := false, delta := d })) vd 0

/-- The kicks of a device are scanned. -/
def scanKicks (s : State) (vd : Nat) (qs : List Nat) : State :=
  qs.foldl (fun s q => if s.kicks.contains (vd * 64 + q) then schedNewel s 0 (.kickScan vd q) else s) s

/-- The devices, the memory and the rent table. -/
def holdings (s : State) : Tab VDev × Mem × Tab Rent := (s.vds, s.mem, s.rents)

theorem holdings_congr {s t : State} (hv : t.vds = s.vds) (hm : t.mem = s.mem) (hr : t.rents = s.rents) : holdings t = holdings s := by
  rw [holdings, hv, hm, hr, holdings]

@[simp] theorem schedScrub_vds (s : State) (ref : Nat) : (schedScrub s ref).vds = s.vds := by
  unfold schedScrub
  simp only
  split <;> rfl

theorem thawUnits_holdings (s : State) (vd : Nat) (d : Int) (old : Tab Team) : holdings (thawUnits s vd d old) = holdings s := by
  refine foldl_keeps holdings (fun s u => ?_) _ s
  split
  · exact holdings_congr (modUnit_vds ..) (modUnit_mem ..) (modUnit_rents ..)
  · rfl

theorem thawRents_holdings (s : State) (vd : Nat) : holdings (thawRents s vd) = holdings s := by
  refine foldl_keeps holdings (fun s e => ?_) _ s
  split
  · exact holdings_congr (schedRent_vds ..) (schedRent_mem ..) (schedRent_rents ..)
  · split
    · exact holdings_congr (schedScrub_vds ..) (schedScrub_mem ..) (schedScrub_rents ..)
    · rfl

theorem thawLaunches_holdings (s : State) (vd : Nat) : holdings (thawLaunches s vd) = holdings s := by
  refine foldl_keeps holdings (fun s e => ?_) _ s
  split <;> rfl

theorem scanKicks_holdings (s : State) (vd : Nat) (qs : List Nat) : holdings (scanKicks s vd qs) = holdings s := by
  refine foldl_keeps holdings (fun s q => ?_) qs s
  split <;> rfl

/-- A state before its contexts, events and launches are rebased. -/
def thawing (s : State) (vd : Nat) (v : VDev) : State :=
  let d : Int := (now s 0 : Int) - v.freezeTick
  thawLaunches (thawRents (thawUnits (thawTables s vd d) vd d s.teams) vd) vd

theorem thawVd_eq (s : State) (vd : Nat) (v : VDev) : ∃ u, holdings u = holdings (thawTables s vd ((now s 0 : Int) - v.freezeTick))
    ∧ thawVd s vd v = poke (scanKicks (thawed u vd ((now s 0 : Int) - v.freezeTick)) vd (List.range 64)) := by
  refine ⟨thawing s vd v, ?_, rfl⟩
  exact (thawLaunches_holdings ..).trans ((thawRents_holdings ..).trans (thawUnits_holdings ..))

/-- The devices, the memory and the rent table are taken from a state whole. -/
theorem holdings_vds {s t : State} (h : holdings t = holdings s) : t.vds = s.vds := congrArg Prod.fst h
theorem holdings_mem {s t : State} (h : holdings t = holdings s) : t.mem = s.mem := congrArg (fun x => x.2.1) h
theorem holdings_rents {s t : State} (h : holdings t = holdings s) : t.rents = s.rents := congrArg (fun x => x.2.2) h

theorem thawed_vdOf (s : State) (vd : Nat) (d : Int) : vdOf (thawed s vd d) vd
    = { vdOf s vd with state := 1, tracking := false, delta := d, busy := false, result := 0 } := by
  rw [thawed, finishVd_vdOf, vdOf_modVd_self, setVdState_vdOf]

theorem thawed_mem (s : State) (vd : Nat) (d : Int) : (thawed s vd d).mem = s.mem :=
  (modVd_mem ..).trans ((modVd_mem ..).trans (setVdState_mem ..))

theorem thawed_rents (s : State) (vd : Nat) (d : Int) : (thawed s vd d).rents = s.rents :=
  (modVd_rents ..).trans ((modVd_rents ..).trans (setVdState_rents ..))

/-- What THAW makes of a device and of what it holds. -/
theorem thawVd_fields (s : State) (vd : Nat) (v : VDev) : let d : Int := (now s 0 : Int) - v.freezeTick
    vdOf (thawVd s vd v) vd = { vdOf s vd with state := 1, tracking := false, delta := d, busy := false, result := 0 }
    ∧ (thawVd s vd v).mem = s.mem ∧ (thawVd s vd v).rents = (thawTables s vd d).rents := by
  intro d
  obtain ⟨u, hu, ht⟩ := thawVd_eq s vd v
  have hs := scanKicks_holdings (thawed u vd d) vd (List.range 64)
  rw [ht]
  refine ⟨?_, ?_, ?_⟩
  · rw [vdOf_congr (poke_vds _), vdOf_congr (holdings_vds hs), thawed_vdOf, vdOf_congr (holdings_vds hu)]
    rfl
  · rw [poke_mem, holdings_mem hs, thawed_mem, holdings_mem hu]
    rfl
  · rw [poke_rents, holdings_rents hs, thawed_rents, holdings_rents hu]

/-- The model's rebase of a region is the statement's. -/
theorem shiftRent_eq (d : Int) (r : Rent) : shiftRent d r = movedRent d r := rfl

/-- A region after THAW of a device. -/
def movedOf (vd : Nat) (d : Int) (r : Rent) : Rent := if r.owner / 65536 = vd && r.state != 0 then movedRent d r else r

theorem thawTables_rents (s : State) (vd : Nat) (d : Int) : (thawTables s vd d).rents = s.rents.map (fun e => (e.1, movedOf vd d e.2)) := by
  refine List.map_congr_left fun e _ => ?_
  unfold movedOf
  split
  · rw [shiftRent_eq]
  · rfl

theorem rentOf_thawTables {s : State} {vd ref : Nat} {r : Rent} (d : Int) (h : tget s.rents ref = some r) (ho : r.owner / 65536 = vd)
    (hr : r.state ≠ 0) : rentOf (thawTables s vd d) ref = movedRent d r := by
  rw [rentOf, thawTables_rents, tget_map, h]
  exact if_pos (by simp [ho, hr])

theorem thawVd_runs {s : State} {vd : Nat} (h : Starts .thaw s vd) :
    exec .thaw s = .next (thawVd (started s vd 9) vd (vdOf (started s vd 9) vd)) :=
  starts_runs h rfl (rfl : execThaw s = vdCommand 9 (fun v => v.state == 3) thawVd s)

/-- R48: THAW moves a device's ticks on. -/
theorem thaw_spec {s : State} {vd : Nat} (h : Starts .thaw s vd) : ∃ t, exec .thaw s = .next t ∧ Ended t vd 9 0
      ∧ (vdOf t vd).state = 1 ∧ (vdOf t vd).tracking = false ∧ (vdOf t vd).delta = (now s 0 : Int) - (vdOf s vd).freezeTick ∧ t.mem = s.mem
      ∧ ∀ ref r, tget s.rents ref = some r → r.owner / 65536 = vd → r.state ≠ 0 →
        rentOf t ref = movedRent ((now s 0 : Int) - (vdOf s vd).freezeTick) r := by
  have hf : (vdOf (started s vd 9) vd).freezeTick = (vdOf s vd).freezeTick := by rw [vdOf_started]
  refine ⟨_, thawVd_runs h, ?_⟩
  obtain ⟨hv, hm, hr⟩ := thawVd_fields (started s vd 9) vd (vdOf (started s vd 9) vd)
  generalize thawVd (started s vd 9) vd (vdOf (started s vd 9) vd) = t at hv hm hr ⊢
  rw [hf, now_started] at hv hr
  rw [Ended, hv, vdOf_started]
  refine ⟨⟨rfl, rfl, rfl⟩, rfl, rfl, rfl, hm, fun ref r hg ho hst => ?_⟩
  rw [rentOf_congr hr]
  exact rentOf_thawTables _ hg ho hst

/-! ## ACTIVATE (R48) -/

/-- A fold that may fail keeps what each of its steps keeps. -/
theorem foldlM_keeps {σ β γ : Type} (p : σ → γ) {f : σ → β → Option σ} (h : ∀ s x t, f s x = some t → p t = p s) (l : List β) (s t : σ)
    (ht : l.foldlM f s = some t) : p t = p s := by
  induction l generalizing s with
  | nil => cases ht; rfl
  | cons x l ih =>
    obtain ⟨u, hu, ht⟩ := Option.bind_eq_some_iff.mp ((List.foldlM_cons ..).symm.trans ht)
    rw [ih u ht, h s x u hu]

/-- A fold that may fail, none of whose steps does anything. -/
theorem foldlM_idle {σ β : Type} {f : σ → β → Option σ} (l : List β) (h : ∀ x ∈ l, ∀ s, f s x = some s) (s : σ) : l.foldlM f s = some s := by
  induction l with
  | nil => rfl
  | cons x l ih =>
    rw [List.foldlM_cons, h x List.mem_cons_self s]
    exact ih fun y hy => h y (List.mem_cons_of_mem x hy)

/-- A device as ACTIVATE leaves it: the transfer's, with the destination's command, allowance, floors, parameters and operands. -/
def activeBody (d : Int) (v : VDev) (x : Transfer) (r : Renaming) : VDev := { x.body with
  state := 1, busy := false, cmd := v.cmd, node := v.node, result := 0, allowance := v.allowance, floors := v.floors
  sliceLog2 := v.sliceLog2, priorityMax := v.priorityMax, maxInflight := v.maxInflight, coreQuota := v.coreQuota
  arg0 := v.arg0, arg1 := v.arg1, arg2 := v.arg2, res0 := v.res0, res1 := v.res1, tracking := false, delta := d, received := false
  maps := x.body.maps.map (fun m => if m.host then m else { m with ref := r.ref m.ref }), sliceAt := none }

/-- The bytes a staged launch is still to count. -/
def stagingLeft (x : Transfer) (id : Nat) : Nat :=
  ((x.copies.filter (fun k => k.ins == .stageStart id)).map (fun k => (k.vals.getD 2 0).toNat)).foldl (· + ·) 0

/-- A launch whose staging goes on is counted here. -/
def staged (x : Transfer) (r : Renaming) (s : State) (e : Nat × Launch) : Option State :=
  if e.2.stageRef = 0 then some s else importStaging s (r.id e.1) (stagingLeft x e.1)

/-- The staging copies of a transfer wait on their engines. -/
def importCopies (s : State) (vd : Nat) (r : Renaming) (d : Int) (ks : List Cmd) : State := ks.foldl (fun s k => importCopy s vd r d k) s

/-- The kicks of a transfer are scanned. -/
def rescan (s : State) (vd : Nat) (qs : List Nat) : State := qs.foldl (fun s q => schedNewel s 0 (.kickScan vd q)) s

/-- After the device's state is set, ACTIVATE hands over the copies, counts the stagings and scans the kicks. -/
theorem activate_some {s t : State} {vd : Nat} {v : VDev} {x : Transfer} (h : activate s vd v x = some t) : ∃ r u w,
    x.launches.foldlM (staged x r) (importCopies (modVd u vd (fun _ => activeBody ((now s 0 : Int) - x.freezeTick) v x r)) vd r
      ((now s 0 : Int) - x.freezeTick) x.copies) = some w ∧ t = poke (rescan w vd x.kicks) := by
  unfold activate at h
  simp only [bind, Option.bind_eq_some_iff] at h
  obtain ⟨⟨r, s1⟩, -, w, hw, ht⟩ := h
  exact ⟨r, _, w, hw, (Option.some.inj ht).symm⟩

theorem importCopies_vds (s : State) (vd : Nat) (r : Renaming) (d : Int) (ks : List Cmd) : (importCopies s vd r d ks).vds = s.vds := by
  refine foldl_keeps State.vds ?_ ks s
  exact fun _ _ => rfl

theorem rescan_vds (s : State) (vd : Nat) (qs : List Nat) : (rescan s vd qs).vds = s.vds := by
  refine foldl_keeps State.vds ?_ qs s
  exact fun _ _ => rfl

/-- A staging that goes on takes a page, which a device shows only in its dirty bits. -/
theorem importStaging_faces {s t : State} {id n : Nat} (h : importStaging s id n = some t) : faces t = faces s := by
  unfold importStaging at h
  simp only [bind, Option.bind_eq_some_iff] at h
  obtain ⟨⟨ref, u⟩, hu, ht⟩ := h
  obtain ⟨hf, -⟩ := claimRegion_spec hu
  cases ht
  exact (congrArg Front.faces (front_putWord ..)).trans (congrArg Front.faces hf)

theorem staged_faces {x : Transfer} {r : Renaming} {s t : State} {e : Nat × Launch} (h : staged x r s e = some t) : faces t = faces s := by
  unfold staged at h
  split at h
  · cases h; rfl
  · exact importStaging_faces h

/-- The device of an ACTIVATE that succeeds. -/
theorem activate_device {s t : State} {vd : Nat} {v : VDev} {x : Transfer} (h : activate s vd v x = some t) : ∃ r,
    face (vdOf t vd) = face (activeBody ((now s 0 : Int) - x.freezeTick) v x r)
    ∧ ((∀ e ∈ x.launches, e.2.stageRef = 0) → (vdOf t vd).hostOwned = x.body.hostOwned) := by
  obtain ⟨r, u, w, hw, rfl⟩ := activate_some h
  have hvds : ∀ w : State, vdOf (poke (rescan w vd x.kicks)) vd = vdOf w vd := fun w =>
    (vdOf_congr (poke_vds _) vd).trans (vdOf_congr (rescan_vds ..) vd)
  have hbody : vdOf (importCopies (modVd u vd (fun _ => activeBody ((now s 0 : Int) - x.freezeTick) v x r)) vd r
      ((now s 0 : Int) - x.freezeTick) x.copies) vd = activeBody ((now s 0 : Int) - x.freezeTick) v x r := by
    rw [vdOf_congr (importCopies_vds ..), vdOf_modVd_self]
  refine ⟨r, ?_, fun h0 => ?_⟩
  · have hfaces := foldlM_keeps faces (fun _ _ _ h => staged_faces h) _ _ _ hw
    rw [hvds, ← hbody]
    exact congrFun hfaces vd
  · have hidle := foldlM_idle x.launches (f := staged x r) (fun e he s => if_pos (h0 e he))
    rw [hidle] at hw
    cases hw
    rw [hvds, hbody]
    rfl

/-- ACTIVATE's command. -/
def activateVd (s : State) (vd : Nat) (v : VDev) : State :=
  match tget s.incoming vd with
  | none => finishVd s vd 1
  | some t => match activate s vd v t with
    | some s => s
    | none => finishVd s vd 3

theorem activateVd_runs {s : State} {vd : Nat} (h : Starts .activate s vd) :
    exec .activate s = .next (activateVd (started s vd 8) vd (vdOf (started s vd 8) vd)) :=
  starts_runs h rfl (rfl : execActivate s = vdCommand 8 (fun v => v.state == 4 && v.received) activateVd s)

/-- ACTIVATE with a transfer succeeds whole, or fails for a region. -/
theorem activateVd_cases {s : State} {vd : Nat} {v : VDev} {x : Transfer} (h : tget s.incoming vd = some x) :
    activate s vd v x = some (activateVd s vd v) ∨ activateVd s vd v = finishVd s vd 3 := by
  unfold activateVd
  rw [h]
  dsimp only
  cases activate s vd v x with
  | none => exact Or.inr rfl
  | some t => exact Or.inl rfl

/-- R48: ACTIVATE makes the transfer the device's state; where a region cannot be had, the device stays IMPORTING. -/
theorem activate_spec {s : State} {vd : Nat} {x : Transfer} (h : Starts .activate s vd) (hx : tget s.incoming vd = some x) :
    let v := vdOf s vd
    ∃ t, exec .activate s = .next t ∧ (vdOf t vd).busy = false
      ∧ (((vdOf t vd).result = 0 ∧ (vdOf t vd).state = 1 ∧ (vdOf t vd).delta = (now s 0 : Int) - x.freezeTick
          ∧ (vdOf t vd).queues = x.body.queues ∧ (vdOf t vd).withheld = x.body.withheld ∧ (vdOf t vd).sliceLog2 = v.sliceLog2
          ∧ (vdOf t vd).priorityMax = v.priorityMax ∧ (vdOf t vd).maxInflight = v.maxInflight ∧ (vdOf t vd).coreQuota = v.coreQuota
          ∧ ((∀ e ∈ x.launches, e.2.stageRef = 0) → (vdOf t vd).hostOwned = x.body.hostOwned))
        ∨ ((vdOf t vd).result = 3 ∧ (vdOf t vd).state = 4 ∧ t.rents = s.rents ∧ t.units = s.units ∧ t.mem = s.mem)) := by
  intro v
  have h4 : v.state = 4 := by
    have := starts_may h rfl
    simp only [Bool.and_eq_true, beq_iff_eq] at this
    exact this.1
  have hv : vdOf (started s vd 8) vd = { v with node := nodeField s, cmd := 8 } := vdOf_started s vd 8
  refine ⟨_, activateVd_runs h, ?_⟩
  rcases activateVd_cases (v := vdOf (started s vd 8) vd) (show tget (started s vd 8).incoming vd = some x from hx) with ha | ha
  · obtain ⟨r, hf, ho⟩ := activate_device ha
    generalize activateVd (started s vd 8) vd (vdOf (started s vd 8) vd) = t at hf ho ⊢
    rw [hv, now_started] at hf
    exact ⟨(congrArg VDev.busy hf :), Or.inl ⟨(congrArg VDev.result hf :), (congrArg VDev.state hf :), (congrArg VDev.delta hf :),
      (congrArg VDev.queues hf :), (congrArg VDev.withheld hf :), (congrArg VDev.sliceLog2 hf :), (congrArg VDev.priorityMax hf :),
      (congrArg VDev.maxInflight hf :), (congrArg VDev.coreQuota hf :), ho⟩⟩
  · rw [ha, finishVd_vdOf, hv]
    exact ⟨rfl, Or.inr ⟨rfl, h4, rfl, rfl, rfl⟩⟩

end Sys2Proof.Proofs
end

section
/-!
SUPPORT. O56: FREEZE, and what stops of contexts leave unchanged.
-/
namespace Sys2Proof.Proofs
open Sys2Proof Sys2Proof.Machine Sys2Proof.Stated Sys2Proof.Laws

/-! ## What stops of contexts leave unchanged -/

/-- What the commands of a device read of it. -/
def phase (v : VDev) : Nat × Bool × Nat := (v.state, v.busy, v.cmd)

/-- The phases of the devices. -/
def phases (s : State) : Nat → Nat × Bool × Nat := fun d => phase (vdOf s d)

/-- The clock, the phases of the devices and the rent table. -/
def rest (s : State) : Clock × (Nat → Nat × Bool × Nat) × Tab Rent := (s.clock, phases s, s.rents)

theorem phases_congr {s t : State} (h : t.vds = s.vds) : phases t = phases s := by
  funext d
  rw [phases, vdOf_congr h]
  rfl

/-- A phase is part of a device's face. -/
theorem phases_of_front {s t : State} (h : front t = front s) : phases t = phases s := by
  funext d
  exact (congrArg phase (face_of_front h d) :)

theorem rest_congr {s t : State} (hc : t.clock = s.clock) (hv : phases t = phases s) (hr : t.rents = s.rents) : rest t = rest s := by
  rw [rest, hc, hv, hr, rest]

theorem rest_of_front {s t : State} (h : front t = front s) (hr : t.rents = s.rents) : rest t = rest s :=
  rest_congr (congrArg Front.clock h) (phases_of_front h) hr

theorem phases_modVd (s : State) (vd : Nat) {f : VDev → VDev} (hf : ∀ v, phase (f v) = phase v) : phases (modVd s vd f) = phases s := by
  funext d
  unfold phases
  by_cases h : vd = d
  · subst h
    rw [vdOf_modVd_self, hf]
  · rw [vdOf_modVd_ne _ _ h]

theorem rest_modVd (s : State) (vd : Nat) {f : VDev → VDev} (hf : ∀ v, phase (f v) = phase v) : rest (modVd s vd f) = rest s :=
  rest_congr rfl (phases_modVd s vd hf) rfl

section
variable (s : State)

@[simp] theorem rest_modUnit (uid : Nat) (f : Ctx → Ctx) : rest (modUnit s uid f) = rest s :=
  rest_congr (modUnit_clock ..) (phases_congr (modUnit_vds ..)) (modUnit_rents ..)
@[simp] theorem rest_sched (die tick ph uid own : Nat) (a : Act) : rest (sched s die tick ph uid own a) = rest s := rfl
@[simp] theorem rest_schedC (c : Ctx) (tick ph : Nat) (a : Act) : rest (schedC s c tick ph a) = rest s := rfl
@[simp] theorem rest_modTeam (t : Nat) (f : Team → Team) : rest (modTeam s t f) = rest s := rfl
@[simp] theorem rest_modLaunch (l : Nat) (f : Launch → Launch) : rest (modLaunch s l f) = rest s := rfl
@[simp] theorem rest_pick (n : Nat) : rest (pick s n).2 = rest s := rfl
@[simp] theorem rest_poke : rest (poke s) = rest s := rest_of_front (front_poke s) (poke_rents s)
@[simp] theorem rest_writeSpace (space off : Nat) (bs : List Byte) (ps : List Nat) (tick : Nat) (l : Option Nat) :
    rest (writeSpace s space off bs ps tick l) = rest s := rest_of_front (front_writeSpace ..) (writeSpace_rents ..)

@[simp] theorem rest_withdraw (c : Ctx) : rest (withdraw s c) = rest s := by
  unfold withdraw
  split <;> rfl

@[simp] theorem rest_holdCmds (c : Ctx) : rest (holdCmds s c) = rest s := rest_modUnit ..

@[simp] theorem rest_stopStarted (c : Ctx) (tick : Nat) : rest (stopStarted s c tick) = rest s := rest_modUnit ..

@[simp] theorem rest_enginesStop (uid : Nat) : rest (enginesStop s uid) = rest s := by
  unfold enginesStop
  split
  · rfl
  · simp

@[simp] theorem rest_stopContext (uid : Nat) : rest (stopContext s uid) = rest s := by
  unfold stopContext
  split
  · rfl
  · dsimp only
    split <;> simp

@[simp] theorem rest_cancelFrom (c : Ctx) (id : Nat) : rest (cancelFrom s c id) = rest s := rest_modUnit ..

@[simp] theorem rest_dropCopies (gone : Cmd → Bool) : rest (dropCopies s gone) = rest s := by
  unfold dropCopies
  refine foldl_keeps rest (fun s e => ?_) _ _
  split
  · split <;> rfl
  · rfl

@[simp] theorem rest_restoreSnap (c : Ctx) (n : Snapshot) (tick : Nat) : rest (restoreSnap s c n tick) = rest s := by
  refine (rest_modUnit ..).trans (foldl_keeps rest (fun s w => ?_) _ s)
  dsimp only
  split
  · rfl
  · exact rest_writeSpace ..

@[simp] theorem rest_abandon (uid : Nat) : rest (abandon s uid) = rest s := by
  unfold abandon
  split
  · rfl
  · split
    · rfl
    · refine (rest_modUnit ..).trans ((rest_restoreSnap ..).trans ((rest_dropCopies ..).trans (rest_cancelFrom ..)))

@[simp] theorem rest_takeInterrupt (uid : Nat) : rest (takeInterrupt s uid) = rest s := by
  unfold takeInterrupt
  split
  · rfl
  · extract_lets freeze later s₁ s₂
    have h₁ : rest s₁ = rest s := rest_modUnit ..
    have h₂ : rest s₂ = rest s := (rest_holdCmds ..).trans h₁
    split
    · rfl
    · split
      · simp
      · split
        · simp [h₁]
        · split <;> simp [h₁, h₂]

@[simp] theorem rest_interrupt (uid kind : Nat) : rest (interrupt s uid kind) = rest s := by
  unfold interrupt
  split
  · rfl
  · split
    iterate 5 rfl
    · simp
    · dsimp only
      split <;> split <;> simp

@[simp] theorem rest_preemptTeam (team kind : Nat) : rest (preemptTeam s team kind) = rest s :=
  (foldl_keeps rest (fun s u => rest_interrupt s u kind) _ _).trans (rest_modTeam ..)

end

/-! ## FREEZE (R46) -/

/-- A device's teams are pre-empted for a FREEZE. -/
def freezing (s : State) (vd : Nat) : State :=
  let s := modVd s vd (fun v => { v with busy := true, cmd := 5 })
  ((s.teams.filter (fun e => (e.2.state == 1 || e.2.state == 2) && (launchOf s e.2.launch).vd == vd)).map Prod.fst).foldl
    (fun s t => preemptTeam s t 3) s

theorem freezing_rest (s : State) (vd : Nat) : rest (freezing s vd) = rest (modVd s vd (fun v => { v with busy := true, cmd := 5 })) :=
  foldl_keeps rest (fun s t => rest_preemptTeam s t 3) _ _

theorem freezeVd_eq (s : State) (vd : Nat) : freezeVd s vd = if freezeDone (freezing s vd) vd then
    sched (freezing s vd) 0 (now (freezing s vd) 0) 18 0 0 (.ins (.freezeComplete vd)) else freezing s vd := rfl

/-- FREEZE leaves the device busy in its state, and its end comes now where every context is saved already. -/
theorem freezeVd_spec (s : State) (vd : Nat) : phase (vdOf (freezeVd s vd) vd) = ((vdOf s vd).state, true, 5)
    ∧ (freezeDone (freezeVd s vd) vd = true → At (freezeVd s vd) (now s 0) (.freezeComplete vd)) := by
  have hrest := freezing_rest s vd
  have hphase : phase (vdOf (freezing s vd) vd) = ((vdOf s vd).state, true, 5) := by
    refine (congrFun (congrArg (fun x => x.2.1) hrest) vd).trans ?_
    show phase (vdOf (modVd s vd _) vd) = _
    rw [vdOf_modVd_self]
    rfl
  have hclock : now (freezing s vd) 0 = now s 0 := congrArg (fun c : Clock => c.ticks.getD 0 0) (congrArg Prod.fst hrest)
  rw [freezeVd_eq]
  by_cases hd : freezeDone (freezing s vd) vd = true
  · rw [if_pos hd]
    exact ⟨hphase, fun _ => ⟨_, List.mem_append_right _ (List.mem_singleton_self _), rfl, hclock, rfl⟩⟩
  · rw [if_neg hd]
    exact ⟨hphase, fun h => absurd h hd⟩

theorem freeze_runs {s : State} {vd : Nat} (h : Starts .freeze s vd) : exec .freeze s = .next (freezeVd (started s vd 5) vd) :=
  starts_runs h rfl (rfl : execFreeze s = vdCommand 5 live (fun s vd _ => freezeVd s vd) s)

theorem freeze_spec {s : State} {vd : Nat} (h : Starts .freeze s vd) : ∃ t, exec .freeze s = .next t ∧ (vdOf t vd).busy = true
    ∧ (vdOf t vd).cmd = 5 ∧ (vdOf t vd).state = (vdOf s vd).state ∧ (freezeDone t vd = true → At t (now s 0) (.freezeComplete vd)) := by
  obtain ⟨hp, hat⟩ := freezeVd_spec (started s vd 5) vd
  rw [now_started] at hat
  rw [vdOf_started] at hp
  exact ⟨_, freeze_runs h, congrArg (fun x => x.2.1) hp, congrArg (fun x => x.2.2) hp, congrArg Prod.fst hp, hat⟩

/-- R46 to R48: FREEZE, rounds, the final transfer, ACTIVATE and THAW. -/
theorem devicesMigrate : Stated.DevicesMigrate := fun _ _ =>
  ⟨freeze_spec, freezeComplete_spec, exportVd_spec, roundVd_spec, finalVd_spec, transferCounted_spec, (finalTransferReceive_spec ..).1,
    (finalTransferReceive_spec ..).2, fun _ => activate_spec, thaw_spec⟩

end Sys2Proof.Proofs
end

section
/-!
SUPPORT. O56: what the end of contexts, teams and regions leaves of the devices.
-/
namespace Sys2Proof.Proofs
open Sys2Proof Sys2Proof.Machine Sys2Proof.Stated Sys2Proof.Laws

/-! ## Regions that go -/

/-- A sublet in GRACE stands at an entry. -/
def Grace (s : State) (ref : Nat) : Prop := (rentOf s ref).sub = true ∧ (rentOf s ref).state = 2

/-- Every entry stands as it did, or its region is gone. -/
def Gone (s t : State) : Prop := ∀ ref, rentOf t ref = rentOf s ref ∨ (rentOf t ref).state = 0 ∨ (rentOf t ref).state = 3

theorem Gone.of_rents {s t : State} (h : t.rents = s.rents) : Gone s t := fun ref => Or.inl (rentOf_congr h ref)

theorem Gone.trans {s t u : State} (h : Gone s t) (h' : Gone t u) : Gone s u := by
  intro ref
  rcases h' ref with he | he
  · rw [he]
    exact h ref
  · exact Or.inr he

theorem Gone.foldl {β : Type} {f : State → β → State} (h : ∀ s x, Gone s (f s x)) (l : List β) (s : State) : Gone s (l.foldl f s) := by
  induction l generalizing s with
  | nil => exact Gone.of_rents rfl
  | cons x l ih => exact (h s x).trans (ih (f s x))

theorem Gone.grace {s t : State} (h : Gone s t) {ref : Nat} (hg : Grace t ref) : Grace s ref := by
  obtain ⟨hsub, h2⟩ := hg
  rcases h ref with he | he
  · rw [he] at hsub h2
    exact ⟨hsub, h2⟩
  · omega

/-- An entry whose region goes, whatever else it keeps. -/
theorem gone_modRent (s : State) (ref : Nat) {f : Rent → Rent} (hf : ∀ r, (f r).state = 0 ∨ (f r).state = 3) : Gone s (modRent s ref f) := by
  intro r
  by_cases h : ref = r
  · rw [← h, rentOf_modRent_self]
    exact Or.inr (hf _)
  · exact Or.inl (rentOf_modRent_ne s f h)

/-- What an entry that returns to FREE holds (log entry 121). -/
def vacant (r : Rent) : Rent := { (default : Rent) with gen := (r.gen + 1) % 65536 }

theorem freeRent_rents (s : State) (ref : Nat) : (freeRent s ref).rents = (modRent s ref vacant).rents := by
  have h : (dropSpace (unmap s ref) (rentOf s ref).space).rents = s.rents := unmap_rents s ref
  show (modRent (dropSpace (unmap s ref) (rentOf s ref).space) ref vacant).rents = _
  simp only [modRent, h]

theorem gone_freeRent (s : State) (ref : Nat) : Gone s (freeRent s ref) :=
  (gone_modRent s ref (fun _ => Or.inl rfl)).trans (Gone.of_rents (freeRent_rents s ref))

/-- A region that is RECLAIMED. -/
def lost (r : Rent) : Rent := { r with state := 3, escrow := 0 }

theorem reclaim_split (s : State) (ref : Nat) : ∃ x, x.rents = s.rents ∧ reclaim s ref = if (rentOf s ref).tier = 0
    then freeRent (modRent x ref lost) ref
    else schedScrub (markAll (dropSpace (modRent x ref lost) (rentOf s ref).space) (rentOf s ref)) ref := by
  refine ⟨_, ?_, rfl⟩
  split
  · exact (emptySlot_rents ..).trans (freezeRange_rents ..)
  · exact freezeRange_rents ..

/-- A region that is reclaimed is RECLAIMED, or FREE at once; nothing else changes. -/
theorem reclaim_gone (s : State) (ref : Nat) : Gone s (reclaim s ref)
    ∧ ((rentOf (reclaim s ref) ref).state = 0 ∨ (rentOf (reclaim s ref) ref).state = 3) := by
  obtain ⟨x, hx, h⟩ := reclaim_split s ref
  have hlost : Gone s (modRent x ref lost) := (Gone.of_rents hx).trans (gone_modRent x ref (fun _ => Or.inr rfl))
  rw [h]
  split
  · refine ⟨hlost.trans (gone_freeRent _ ref), Or.inl ?_⟩
    rw [rentOf_congr (freeRent_rents ..), rentOf_modRent_self]
    rfl
  · have hr : (schedScrub (markAll (dropSpace (modRent x ref lost) (rentOf s ref).space) (rentOf s ref)) ref).rents = (modRent x ref lost).rents :=
      schedScrub_rents ..
    refine ⟨hlost.trans (Gone.of_rents hr), Or.inr ?_⟩
    rw [rentOf_congr hr, rentOf_modRent_self]
    rfl

theorem endOne_live {s : State} {ref : Nat} (h : (rentOf s ref).sub = true) (h1 : (rentOf s ref).state = 1) :
    ∃ x, x.rents = s.rents ∧ (endOne s ref).rents = (modRent x ref vacant).rents := by
  unfold endOne
  dsimp only
  rw [if_neg (by simp [h, h1])]
  refine ⟨_, ?_, rfl⟩
  exact freezeRange_rents ..

/-- A sublet that ends is gone; nothing else changes. -/
theorem endOne_gone (s : State) (ref : Nat) : Gone s (endOne s ref)
    ∧ ((rentOf s ref).sub = true → (rentOf s ref).state = 1 → (rentOf (endOne s ref) ref).state = 0) := by
  by_cases h : (rentOf s ref).sub = true ∧ (rentOf s ref).state = 1
  · obtain ⟨x, hx, hr⟩ := endOne_live h.1 h.2
    refine ⟨((Gone.of_rents hx).trans (gone_modRent x ref (fun _ => Or.inl rfl))).trans (Gone.of_rents hr), fun _ _ => ?_⟩
    rw [rentOf_congr hr, rentOf_modRent_self]
    rfl
  · have hid : endOne s ref = s := by
      unfold endOne
      exact if_pos (by simpa [Classical.or_iff_not_imp_left] using h)
    rw [hid]
    exact ⟨Gone.of_rents rfl, fun hs h1 => absurd ⟨hs, h1⟩ h⟩

/-- With the sublets of its range a sublet is gone. -/
theorem endSublet_gone (s : State) (ref : Nat) : Gone s (endSublet s ref)
    ∧ ((rentOf s ref).sub = true → (rentOf s ref).state = 1 → (rentOf (endSublet s ref) ref).state ≠ 1 ∧ (rentOf (endSublet s ref) ref).state ≠ 2) := by
  have hbelow : Gone s ((sublets s s.rents.length ref).reverse.foldl endOne s) := Gone.foldl (fun s x => (endOne_gone s x).1) _ s
  obtain ⟨hself, hend⟩ := endOne_gone ((sublets s s.rents.length ref).reverse.foldl endOne s) ref
  refine ⟨hbelow.trans hself, fun hs h1 => ?_⟩
  rcases hbelow ref with he | he
  · have h0 := hend (he ▸ hs) (he ▸ h1)
    exact ⟨fun h => by rw [endSublet, h0] at h; omega, fun h => by rw [endSublet, h0] at h; omega⟩
  · rcases hself ref with hf | hf
    · rw [endSublet, hf]
      omega
    · rw [endSublet]
      omega

/-! ## What ends of contexts and teams keep

In any state the phases of the devices, and that no sublet comes into GRACE; where no copy runs, the launches and the copy engines'
commands too, since only a copy that is cut reaches a launch. -/

/-- The devices are in their phases, and no sublet has come into GRACE. -/
structure Kept (s t : State) : Prop where
  phases : phases t = phases s
  grace : ∀ ref, Grace t ref → Grace s ref

/-- The launches and what runs on the copy engines. -/
def works (s : State) : Tab Launch × List (List Cmd) := (s.launches, running s)

/-- Kept, and the launches and what runs on the copy engines are the same. -/
structure Still (s t : State) : Prop where
  kept : Kept s t
  works : works t = works s

theorem Kept.refl (s : State) : Kept s s := ⟨rfl, fun _ h => h⟩

theorem Kept.trans {s t u : State} (h : Kept s t) (h' : Kept t u) : Kept s u :=
  ⟨h'.phases.trans h.phases, fun ref hg => h.grace ref (h'.grace ref hg)⟩

theorem Kept.of_rest {s t : State} (h : rest t = rest s) : Kept s t :=
  ⟨congrArg (fun x => x.2.1) h, fun _ => (Gone.of_rents (congrArg (fun x => x.2.2) h)).grace⟩

theorem works_congr {s t : State} (hl : t.launches = s.launches) (hr : running t = running s) : works t = works s := by
  rw [works, hl, hr, works]

theorem works_of_front {s t : State} (h : front t = front s) : works t = works s :=
  works_congr (congrArg Front.launches h) (congrArg Front.running h)

theorem Still.refl (s : State) : Still s s := ⟨Kept.refl s, rfl⟩

theorem Still.trans {s t u : State} (h : Still s t) (h' : Still t u) : Still s u := ⟨h.kept.trans h'.kept, h'.works.trans h.works⟩

theorem Still.foldl {β : Type} {f : State → β → State} (h : ∀ s x, Still s (f s x)) (l : List β) (s : State) : Still s (l.foldl f s) := by
  induction l generalizing s with
  | nil => exact Still.refl s
  | cons x l ih => exact (h s x).trans (ih (f s x))

theorem Still.of_rest {s t : State} (h : rest t = rest s) (hw : Sys2Proof.Proofs.works t = Sys2Proof.Proofs.works s) : Still s t :=
  ⟨Kept.of_rest h, hw⟩

theorem Still.of_front {s t : State} (h : front t = front s) (hg : Gone s t) : Still s t :=
  ⟨⟨phases_of_front h, fun _ => hg.grace⟩, works_of_front h⟩

/-- No copy runs where none ran. -/
theorem noCopyRuns_of_running {s t : State} (h : running t = running s) (hn : NoCopyRuns s) : NoCopyRuns t := by
  intro e he
  have hmem : engRunning e.2 ∈ running s := h ▸ List.mem_map_of_mem (f := fun e : Nat × CopyEng => engRunning e.2) he
  obtain ⟨x, hx, heq⟩ := List.mem_map.mp hmem
  rw [← heq]
  exact hn x hx

theorem Still.noCopyRuns {s t : State} (h : Still s t) (hn : NoCopyRuns s) : NoCopyRuns t :=
  noCopyRuns_of_running (congrArg Prod.snd h.works) hn

/-- A region after its owner's context has gone. -/
def passed (c : Ctx) (r : Rent) : Rent :=
  if r.owner = ownerOf c && c.principal != 0 && r.state != 0 then { r with owner := c.vd * 65536 } else r

theorem passed_shape (c : Ctx) (r : Rent) : (passed c r).sub = r.sub ∧ (passed c r).state = r.state := by
  unfold passed
  split <;> exact ⟨rfl, rfl⟩

section
variable (s : State)

theorem still_modUnit (uid : Nat) (f : Ctx → Ctx) : Still s (modUnit s uid f) :=
  Still.of_rest (rest_modUnit ..) (works_congr (modUnit_launches ..) (running_congr (modUnit_engines ..)))
theorem still_modTeam (t : Nat) (f : Team → Team) : Still s (modTeam s t f) := Still.of_rest rfl rfl
theorem still_modCore (k : Nat) (f : CoreSt → CoreSt) : Still s (modCore s k f) := Still.of_rest rfl rfl
theorem still_dropCmds (core : Nat) (gone : Cmd → Bool) : Still s (dropCmds s core gone) := Still.of_rest rfl rfl
theorem still_poke : Still s (poke s) := Still.of_rest (rest_poke s) (works_of_front (front_poke s))
theorem still_modVd (vd : Nat) {f : VDev → VDev} (hf : ∀ v, phase (f v) = phase v) : Still s (modVd s vd f) :=
  Still.of_rest (rest_modVd s vd hf) rfl
theorem still_endSublet (ref : Nat) : Still s (endSublet s ref) := Still.of_front (front_endSublet ..) (endSublet_gone s ref).1
theorem still_reclaim (ref : Nat) : Still s (reclaim s ref) := Still.of_front (front_reclaim ..) (reclaim_gone s ref).1
theorem still_refund (vd n : Nat) : Still s (refund s vd n) := still_modVd s vd (fun _ => rfl)

theorem giveBack_eq (vd ref : Nat) : ∃ n, giveBack s vd ref =
    if (rentOf s ref).owner != vd * 65536 || ((rentOf s ref).state != 1 && (rentOf s ref).state != 2) then s
    else reclaim (refund ((subletsOf s ref).foldl (fun s e => endSublet s e.1) s) vd n) ref := ⟨_, rfl⟩

/-- A region of the newel's that goes back. -/
theorem still_giveBack (vd ref : Nat) : Still s (giveBack s vd ref) := by
  obtain ⟨n, h⟩ := giveBack_eq s vd ref
  rw [h]
  split
  · exact Still.refl s
  · have hsub : Still s ((subletsOf s ref).foldl (fun s e => endSublet s e.1) s) :=
      Still.foldl (f := fun s (e : Nat × Rent) => endSublet s e.1) (fun s e => still_endSublet s e.1) (subletsOf s ref) s
    generalize (subletsOf s ref).foldl (fun s e => endSublet s e.1) s = x at hsub ⊢
    exact hsub.trans ((still_refund x vd n).trans (still_reclaim (refund x vd n) ref))

theorem still_releaseClaims (team vd : Nat) : Still s (releaseClaims s team vd) :=
  (Still.foldl (fun s r => still_giveBack s vd r) _ s).trans (still_modTeam ..)

theorem still_giveBackItem (c : Ctx) (ref : Nat) : Still s (giveBackItem s c ref) := by
  unfold giveBackItem
  split
  · exact still_giveBack ..
  · exact Still.refl s

theorem still_releaseGrant (c : Ctx) : Still s (releaseGrant s c) :=
  (Still.foldl (fun s _ => still_giveBackItem s c _) _ s).trans ((still_giveBackItem ..).trans
    ((Still.foldl (fun s r => still_giveBack s c.vd r) _ _).trans (still_modUnit ..)))

theorem still_chargeTeam (team : Nat) : Still s (chargeTeam s team) := still_modVd _ _ (fun _ => rfl)

theorem still_freeHolder (core : Nat) : Still s (freeHolder s core) := by
  unfold freeHolder
  split
  · exact Still.refl s
  · exact still_modCore ..

/-- A team that ends leaves its launch and the devices' phases. -/
theorem still_endTeam (team : Nat) : Still s (endTeam s team) := by
  have hcharge : Still s (if holds (teamOf s team) then chargeTeam s team else s) := by
    split
    · exact still_chargeTeam ..
    · exact Still.refl s
  have hunits : ∀ t : State, ∀ u x, Still t { t with units := u, cx := x } := fun _ _ _ => Still.of_rest rfl rfl
  exact hcharge.trans ((still_releaseClaims ..).trans ((Still.foldl (fun s u => still_releaseGrant s u) _ _).trans
    ((hunits ..).trans ((Still.foldl (fun s (u : Ctx) => still_freeHolder s u.core) _ _).trans ((still_modTeam ..).trans (still_poke _))))))

theorem still_dropRegistrations (c : Ctx) : Still s (dropRegistrations s c) := by
  refine Still.foldl (fun s r => ?_) _ s
  dsimp only
  split
  · exact Still.refl s
  · split
    · exact Still.refl s
    · exact Still.of_front (front_dropAt ..) (Gone.of_rents (dropAt_rents ..))

/-- Regions that pass to principal 0 change their owner alone. -/
theorem still_passRegions (c : Ctx) : Still s (passRegions s c) := by
  have hmap : (passRegions s c).rents = s.rents.map (fun e => (e.1, passed c e.2)) := by
    refine List.map_congr_left fun e _ => ?_
    unfold passed
    split <;> rfl
  have hsame : ∀ ref, (rentOf (passRegions s c) ref).sub = (rentOf s ref).sub ∧ (rentOf (passRegions s c) ref).state = (rentOf s ref).state := by
    intro ref
    rw [rentOf, hmap, tget_map, rentOf]
    cases tget s.rents ref with
    | none => exact ⟨rfl, rfl⟩
    | some r => exact passed_shape c r
  exact ⟨⟨rfl, fun ref hg => ⟨(hsame ref).1 ▸ hg.1, (hsame ref).2 ▸ hg.2⟩⟩, rfl⟩

end

end Sys2Proof.Proofs
end

section
/-!
SUPPORT. O56: a launch that is cancelled leaves.
-/
namespace Sys2Proof.Proofs
open Sys2Proof Sys2Proof.Machine Sys2Proof.Stated Sys2Proof.Laws

/-! ## Copies that are cut -/

section
variable (s : State)

@[simp] theorem rest_truncate (uid seq tag kind unit mirror landed tick : Nat) (addr : Word) :
    rest (truncate s uid seq tag kind unit mirror landed tick addr) = rest s := by
  unfold truncate
  split
  · rfl
  · refine (rest_modUnit _ _ _ : _).trans ?_
    split
    · exact (rest_writeSpace ..).trans (rest_writeSpace ..)
    · rfl

@[simp] theorem rest_truncBoth (uid seq tag kind unit mirror landed tick : Nat) (addr : Word) (lessor : Option Nat) :
    rest (truncBoth s uid seq tag kind unit mirror landed tick addr lessor) = rest s := by
  unfold truncBoth
  dsimp only
  split
  · exact rest_truncate ..
  · split
    · exact (rest_truncate ..).trans (rest_truncate ..)
    · exact rest_truncate ..

/-- A command that leaves its path. -/
theorem leavePath_keeps {γ : Type} (p : State → γ) (hp : ∀ (t : State) a e l, p { t with agenda := a, engines := e, links := l } = p t)
    (eng id : Nat) : p (leavePath s eng id) = p s := by
  unfold leavePath
  dsimp only
  split
  · split
    · exact hp s _ _ _
    · exact hp s _ _ _
  · exact hp s _ _ _

@[simp] theorem rest_leavePath (eng id : Nat) : rest (leavePath s eng id) = rest s := leavePath_keeps s rest (fun _ _ _ _ => rfl) eng id

@[simp] theorem rest_ckptReached (c : Ctx) (a t : Nat) : rest (ckptReached s c a t) = rest s := by
  unfold ckptReached
  split
  · rfl
  · split
    · rfl
    · dsimp only
      split
      · exact rest_of_front (front_meetWord ..) (meetWord_rents ..)
      · exact (rest_of_front (front_setReached ..) (setReached_rents ..)).trans (rest_of_front (front_meetWord ..) (meetWord_rents ..))

@[simp] theorem rest_schedRecords (eng : Nat) (k : Cmd) : rest (schedRecords s eng k) = rest s := by
  unfold schedRecords
  split
  · rfl
  · dsimp only
    split <;> rfl

@[simp] theorem rest_finishCopy (eng : Nat) (k : Cmd) (cut : Bool) : rest (finishCopy s eng k cut) = rest s := by
  unfold finishCopy
  dsimp only
  have h := rest_leavePath s eng k.id
  generalize leavePath s eng k.id = x at h ⊢
  split
  · split
    · exact (rest_ckptReached ..).trans h
    · exact h
  · refine (rest_modVd _ _ ?_).trans h
    exact fun _ => rfl
  · exact (rest_sched ..).trans ((rest_modLaunch ..).trans h)
  · refine (foldl_keeps rest (fun s m => ?_) _ _).trans ?_
    · split
      · split
        · exact rest_schedRecords ..
        · rfl
      · rfl
    · split
      · exact h
      · exact h
  · exact h

@[simp] theorem rest_copyCut (eng : Nat) (k : Cmd) (kind j : Nat) (lessor : Option Nat) : rest (copyCut s eng k kind j lessor) = rest s := by
  unfold copyCut
  dsimp only
  refine (rest_finishCopy ..).trans ?_
  split
  · split <;> split <;> simp
  · split <;> simp

end

/-! ## A context that is killed (R197) -/

/-- The started copies of a context are cut. -/
def cutCopies (s : State) (uid : Nat) : State :=
  s.engines.foldl (fun s (e : Nat × CopyEng) => ((engRunning e.2).filter (fun m => m.uid == uid)).foldl (fun s k => copyCut s e.1 k 9 k.landed none) s) s

/-- The unstarted commands of a context, and those at its synchronisation engine, are gone. -/
def quieted (s : State) (c : Ctx) (uid : Nat) : State :=
  let s := dropCmds s c.core (fun m => m.uid == uid && (m.start.isNone || engineOf m.ins == 5))
  let s := { s with dies := s.dies.map (fun (d : Nat × DieSt) => (d.1, { d.2 with sync := d.2.sync.filter (fun m => m.uid != uid) })) }
  { s with engines := s.engines.map (fun (e : Nat × CopyEng) => (e.1, { e.2 with buffer := e.2.buffer.filter (fun m => m.uid != uid) })) }

theorem discard_eq {s : State} {uid : Nat} {c : Ctx} (h : unitOf s uid = some c) (hd : c.wait ≠ .done) :
    ∃ a f, Machine.discard s uid = modUnit { cutCopies (quieted s c uid) uid with agenda := a } uid f := by
  unfold Machine.discard
  rw [h]
  dsimp only
  rw [if_neg hd]
  exact ⟨_, _, rfl⟩

theorem running_quieted (s : State) (c : Ctx) (uid : Nat) : running (quieted s c uid) = running s := by
  unfold running quieted
  exact List.map_map ..

theorem still_quieted (s : State) (c : Ctx) (uid : Nat) : Still s (quieted s c uid) :=
  Still.of_rest rfl (works_congr rfl (running_quieted s c uid))

theorem cutCopies_rest (s : State) (uid : Nat) : rest (cutCopies s uid) = rest s :=
  foldl_keeps rest (fun s _ => foldl_keeps rest (fun s _ => rest_copyCut s ..) _ s) _ s

theorem still_agenda (s : State) (a : List Ev) : Still s { s with agenda := a } := Still.of_rest rfl rfl

/-- Where no copy runs none is cut. -/
theorem cutCopies_idle {s : State} (uid : Nat) (h : NoCopyRuns s) : cutCopies s uid = s := by
  unfold cutCopies
  refine List.foldlRecOn s.engines _ (motive := fun t => t = s) rfl fun t ht e he => ?_
  rw [ht, h e he]
  rfl

/-- Kept in any state; and still where no copy runs. -/
structure Quietly (s t : State) : Prop where
  kept : Kept s t
  still : NoCopyRuns s → Still s t

theorem Still.quietly {s t : State} (h : Still s t) : Quietly s t := ⟨h.kept, fun _ => h⟩

theorem Quietly.refl (s : State) : Quietly s s := (Still.refl s).quietly

theorem Quietly.trans {s t u : State} (h : Quietly s t) (h' : Quietly t u) : Quietly s u :=
  ⟨h.kept.trans h'.kept, fun hn => (h.still hn).trans (h'.still ((h.still hn).noCopyRuns hn))⟩

theorem Quietly.foldl {β : Type} {f : State → β → State} (h : ∀ s x, Quietly s (f s x)) (l : List β) (s : State) : Quietly s (l.foldl f s) := by
  induction l generalizing s with
  | nil => exact Quietly.refl s
  | cons x l ih => exact (h s x).trans (ih (f s x))

theorem quietly_cutCopies (s : State) (uid : Nat) : Quietly s (cutCopies s uid) := by
  refine ⟨Kept.of_rest (cutCopies_rest ..), fun hn => ?_⟩
  rw [cutCopies_idle uid hn]
  exact Still.refl s

theorem quietly_discard (s : State) (uid : Nat) : Quietly s (Machine.discard s uid) := by
  cases h : unitOf s uid with
  | none =>
    have hid : Machine.discard s uid = s := by unfold Machine.discard; rw [h]
    rw [hid]
    exact Quietly.refl s
  | some c =>
    by_cases hd : c.wait = .done
    · have hid : Machine.discard s uid = s := by unfold Machine.discard; rw [h]; exact if_pos hd
      rw [hid]
      exact Quietly.refl s
    · obtain ⟨a, f, he⟩ := discard_eq h hd
      rw [he]
      exact (still_quieted s c uid).quietly.trans ((quietly_cutCopies ..).trans ((still_agenda ..).trans (still_modUnit ..)).quietly)

/-- A context that is killed leaves its launch and the devices' phases. -/
theorem quietly_killContext (s : State) (uid : Nat) : Quietly s (killContext s uid) := by
  unfold killContext
  split
  · exact Quietly.refl s
  · next c h =>
    split
    · exact Quietly.refl s
    · exact (still_dropRegistrations s c).quietly.trans ((quietly_discard ..).trans
        ((still_dropCmds ..).trans ((still_agenda ..).trans ((still_passRegions ..).trans (still_modUnit ..)))).quietly)

/-! ## A launch that leaves (R50, R70, R197) -/

/-- The device of a launch. -/
def ownerOfLaunch (s : State) (id : Nat) : Option Nat := (tget s.launches id).map Launch.vd

/-- Kept; and where no copy runs none starts, and the launches but one stay and keep their devices. -/
structure Only (id : Nat) (s t : State) : Prop where
  kept : Kept s t
  idle : NoCopyRuns s → NoCopyRuns t
  others : NoCopyRuns s → ∀ j, j ≠ id → ownerOfLaunch t j = ownerOfLaunch s j

theorem ownerOfLaunch_congr {s t : State} (h : t.launches = s.launches) (j : Nat) : ownerOfLaunch t j = ownerOfLaunch s j := by
  rw [ownerOfLaunch, h, ownerOfLaunch]

theorem Quietly.only {s t : State} (h : Quietly s t) (id : Nat) : Only id s t :=
  ⟨h.kept, fun hn => (h.still hn).noCopyRuns hn, fun hn j _ => ownerOfLaunch_congr (congrArg Prod.fst (h.still hn).works) j⟩

theorem Still.only {s t : State} (h : Still s t) (id : Nat) : Only id s t := h.quietly.only id

theorem Only.trans {id : Nat} {s t u : State} (h : Only id s t) (h' : Only id t u) : Only id s u :=
  ⟨h.kept.trans h'.kept, fun hn => h'.idle (h.idle hn), fun hn j hj => (h'.others (h.idle hn) j hj).trans (h.others hn j hj)⟩

theorem ownerOfLaunch_modLaunch_ne (s : State) {id j : Nat} (f : Launch → Launch) (h : j ≠ id) :
    ownerOfLaunch (modLaunch s id f) j = ownerOfLaunch s j := by
  rw [ownerOfLaunch, modLaunch]
  dsimp only
  rw [tget_tmod_ne _ _ _ (Ne.symm h), ownerOfLaunch]

theorem only_modLaunch (s : State) (id : Nat) (f : Launch → Launch) : Only id s (modLaunch s id f) :=
  ⟨Kept.of_rest rfl, fun hn => hn, fun _ _ hj => ownerOfLaunch_modLaunch_ne s f hj⟩

/-- A change of a launch that stays keeps its device. -/
theorem ownerOfLaunch_modLaunch {s : State} {id : Nat} {f : Launch → Launch} (hf : ∀ l, (f l).vd = l.vd) (h : ownerOfLaunch s id ≠ none)
    (j : Nat) : ownerOfLaunch (modLaunch s id f) j = ownerOfLaunch s j := by
  by_cases hj : j = id
  · subst hj
    cases hl : tget s.launches j with
    | none => exact absurd (by rw [ownerOfLaunch, hl]; rfl) h
    | some l =>
      have hget : tget (modLaunch s j f).launches j = some (f l) := by
        rw [modLaunch]
        dsimp only
        rw [tget_tmod_self, hl]
        rfl
      rw [ownerOfLaunch, hget, ownerOfLaunch, hl]
      exact congrArg some (hf l)
  · exact ownerOfLaunch_modLaunch_ne s f hj

/-- The end of a launch that is listed changes no launch's device. -/
theorem endLaunchAt_only {s : State} {id j : Nat} (st k : Nat) (info : Word) (tick : Nat) (h : ownerOfLaunch s j ≠ none) :
    Only id s (endLaunchAt s j st k info tick) ∧ ∀ i, ownerOfLaunch (endLaunchAt s j st k info tick) i = ownerOfLaunch s i := by
  unfold endLaunchAt
  dsimp only
  split
  · exact ⟨(Still.refl s).only id, fun _ => rfl⟩
  · have hown : ∀ i, ownerOfLaunch (modLaunch s j (fun l => { l with status := some st, cause := k, info := info.toNat, endTick := tick })) i
        = ownerOfLaunch s i := ownerOfLaunch_modLaunch (fun _ => rfl) h
    exact ⟨⟨Kept.of_rest rfl, fun hn => hn, fun _ i _ => hown i⟩, hown⟩

/-- A key that is listed is found. -/
theorem tget_ne_none {α : Type} {t : Tab α} {e : Nat × α} (h : e ∈ t) : tget t e.1 ≠ none := by
  induction t with
  | nil => cases h
  | cons x r ih =>
    rw [tget]
    split
    · exact Option.some_ne_none _
    · next hne => exact ih ((List.mem_cons.mp h).resolve_left fun he => hne (congrArg Prod.fst he).symm)

/-- A launch that is listed has a device. -/
theorem ownerOfLaunch_mem {s : State} {e : Nat × Launch} (h : e ∈ s.launches) : ownerOfLaunch s e.1 ≠ none := fun hn =>
  tget_ne_none h (Option.map_eq_none_iff.mp hn)

theorem still_raiseDone (s : State) (vd a : Nat) : Still s (raiseDone s vd a) := by
  unfold raiseDone
  split
  · exact Still.refl s
  · dsimp only
    split
    · exact Still.refl s
    · split
      · exact Still.refl s
      · exact Still.of_front (front_storePlace ..) (Gone.of_rents (storePlace_rents ..))

/-- What waits for a launch to be DONE is cancelled. -/
def cancelWaiting (s : State) (l : Launch) (st : Nat) : State :=
  s.launches.foldl (fun s (e : Nat × Launch) =>
    if e.2.vd = l.vd && st != 0 && e.2.body.deps.any (fun d => d.kind == 2 && d.queue == l.queue && d.seq == l.seq)
    then endLaunchAt s e.1 3 0 0 l.endTick else s) s

theorem only_cancelWaiting (id : Nat) (s : State) (l : Launch) (st : Nat) : Only id s (cancelWaiting s l st) := by
  have hfold : Only id s (cancelWaiting s l st) ∧ ∀ i, ownerOfLaunch (cancelWaiting s l st) i = ownerOfLaunch s i := by
    refine List.foldlRecOn s.launches _ (motive := fun t => Only id s t ∧ ∀ i, ownerOfLaunch t i = ownerOfLaunch s i)
      ⟨(Still.refl s).only id, fun _ => rfl⟩ fun t ht e he => ?_
    obtain ⟨ht, hown⟩ := ht
    split
    · obtain ⟨ho, hi⟩ := endLaunchAt_only (id := id) 3 0 0 l.endTick (hown e.1 ▸ ownerOfLaunch_mem he : ownerOfLaunch t e.1 ≠ none)
      exact ⟨ht.trans ho, fun i => (hi i).trans (hown i)⟩
    · exact ⟨ht, hown⟩
  exact hfold.1

theorem takeEffect_eq (s : State) (id st : Nat) (reported : Bool) : ∃ f g,
    takeEffect s id st reported = (if (launchOf s id).effected then s else poke (cancelWaiting
      (modVd (if reported then modLaunch s id f else raiseDone (modLaunch s id f) (launchOf s id).vd (launchOf s id).body.doneWord)
        (launchOf s id).vd g) (launchOf s id) st)) ∧ ∀ v, phase (g v) = phase v := ⟨_, _, rfl, fun _ => rfl⟩

theorem only_takeEffect (s : State) (id st : Nat) (reported : Bool) : Only id s (takeEffect s id st reported) := by
  obtain ⟨f, g, h, hg⟩ := takeEffect_eq s id st reported
  rw [h]
  split
  · exact (Still.refl s).only id
  · refine Only.trans ?_ (Only.trans ((still_modVd _ _ hg).only id) ((only_cancelWaiting ..).trans ((still_poke _).only id)))
    split
    · exact only_modLaunch ..
    · exact (only_modLaunch ..).trans ((still_raiseDone ..).only id)

theorem only_dropStaging (s : State) (id : Nat) : Only id s (dropStaging s id) := by
  unfold dropStaging
  dsimp only
  split
  · exact (Still.refl s).only id
  · exact (only_modLaunch ..).trans ((Still.of_front (front_freeRent ..) (gone_freeRent _ _)).only id)

theorem rest_journal (s : State) (kind vd q seq : Nat) (payload : List Nat) : rest (journal s kind vd q seq payload) = rest s :=
  rest_congr (journal_clock ..) (phases_congr (journal_vds ..)) (journal_rents ..)

theorem works_journal (s : State) (kind vd q seq : Nat) (payload : List Nat) : works (journal s kind vd q seq payload) = works s :=
  works_congr (journal_launches ..) (running_congr (journal_engines ..))

theorem still_journal (s : State) (kind vd q seq : Nat) (payload : List Nat) : Still s (journal s kind vd q seq payload) :=
  Still.of_rest (rest_journal ..) (works_journal ..)

/-- A launch's end of its teams, its effect and its staging page, before it leaves the tables. -/
def leaving (s : State) (id st : Nat) (reported : Bool) : State :=
  let ts := (s.teams.filter (fun e => e.2.launch == id)).map Prod.fst
  let s := (launchUnits s id).foldl killContext s
  let s := ts.foldl (fun s t => if (teamOf s t).state = 4 || (teamOf s t).units.isEmpty then s else endTeam s t) s
  dropStaging (takeEffect s id st reported) id

theorem only_leaving (s : State) (id st : Nat) (reported : Bool) : Only id s (leaving s id st reported) := by
  have hteam : ∀ s : State, ∀ t, Still s (if (teamOf s t).state = 4 || (teamOf s t).units.isEmpty then s else endTeam s t) := by
    intro s t
    split
    · exact Still.refl s
    · exact still_endTeam ..
  exact ((Quietly.foldl quietly_killContext _ s).only id).trans (((Still.foldl hteam _ _).only id).trans
    ((only_takeEffect ..).trans (only_dropStaging ..)))

/-- A launch leaves the tables. -/
def left (s : State) (id : Nat) : State := { s with
  teams := s.teams.filter (fun e => e.2.launch != id), launches := tdel s.launches id
  newel := { s.newel with endReports := s.newel.endReports.erase id } }

theorem leaveLaunch_eq (s : State) (id st : Nat) (reported : Bool) : ∃ q seq l vd k, leaveLaunch s id st reported
    = addCompletion (left (journal (leaving s id st reported) 7 vd q seq l) id) vd k := ⟨_, _, _, _, _, rfl⟩

theorem tget_tdel {α : Type} (t : Tab α) (id j : Nat) : tget (tdel t id) j = if j = id then none else tget t j := by
  induction t with
  | nil => exact (ite_self none).symm
  | cons e r ih =>
    obtain ⟨k, v⟩ := e
    by_cases hk : k = id
    · subst hk
      have hd : tdel ((k, v) :: r) k = tdel r k := List.filter_cons_of_neg (by simp)
      rw [hd, ih, tget]
      split
      · rfl
      · next hj => rw [if_neg (Ne.symm hj)]
    · have hd : tdel ((k, v) :: r) id = (k, v) :: tdel r id := List.filter_cons_of_pos (by simpa using hk)
      rw [hd, tget, ih, tget]
      by_cases hj : k = j
      · rw [if_pos hj, if_pos hj, if_neg (hj ▸ hk)]
      · rw [if_neg hj, if_neg hj]

theorem only_left (s : State) (id : Nat) : Only id s (left s id) :=
  ⟨Kept.of_rest rfl, fun hn => hn, fun _ j hj => congrArg (Option.map Launch.vd) ((tget_tdel s.launches id j).trans (if_neg hj))⟩

theorem still_addCompletion (s : State) (vd : Nat) (k : Completion) : Still s (addCompletion s vd k) := by
  obtain ⟨f, h, hf⟩ : ∃ f, addCompletion s vd k = schedNewel (modVd s vd f) 0 (.completionWrite vd) ∧ ∀ v, phase (f v) = phase v :=
    ⟨_, rfl, fun _ => rfl⟩
  rw [h]
  exact (still_modVd s vd hf).trans (Still.of_rest rfl rfl)

/-- A launch that leaves is gone; the others stay. -/
theorem leaveLaunch_spec (s : State) (id st : Nat) (reported : Bool) : Only id s (leaveLaunch s id st reported)
    ∧ ownerOfLaunch (leaveLaunch s id st reported) id = none := by
  obtain ⟨q, seq, l, vd, k, h⟩ := leaveLaunch_eq s id st reported
  rw [h]
  refine ⟨(only_leaving ..).trans (((still_journal ..).only id).trans ((only_left ..).trans ((still_addCompletion ..).only id))), ?_⟩
  exact congrArg (Option.map Launch.vd) ((tget_tdel _ id id).trans (if_pos rfl))

theorem only_countHalted (s : State) (id : Nat) : Only id s (countHalted s id) := only_modLaunch ..

/-- A launch that is cancelled is gone; the others stay. -/
theorem cancelLaunch_spec (s : State) (id : Nat) : Only id s (cancelLaunch s id) ∧ ownerOfLaunch (cancelLaunch s id) id = none := by
  unfold cancelLaunch
  have hpoke : ∀ t : State, ownerOfLaunch t id = none → ownerOfLaunch (poke t) id = none := fun t ht =>
    (ownerOfLaunch_congr (congrArg Front.launches (front_poke t)) id).trans ht
  dsimp only
  split
  · next st _ =>
    have hstart : Only id s (if (launchOf s id).effected then s else countHalted s id) := by
      split
      · exact (Still.refl s).only id
      · exact only_countHalted ..
    obtain ⟨ho, hn⟩ := leaveLaunch_spec (if (launchOf s id).effected then s else countHalted s id) id st (s.newel.endReports.contains id)
    exact ⟨hstart.trans (ho.trans ((still_poke _).only id)), hpoke _ hn⟩
  · obtain ⟨ho, hn⟩ := leaveLaunch_spec (countHalted (modLaunch s id (fun l => { l with
      status := some 3, cause := 0, info := 0, endTick := now s 0 })) id) id 3 false
    exact ⟨(only_modLaunch ..).trans ((only_countHalted ..).trans (ho.trans ((still_poke _).only id))), hpoke _ hn⟩

end Sys2Proof.Proofs
end

section
/-!
SUPPORT. O56: DESTROY.
-/
namespace Sys2Proof.Proofs
open Sys2Proof Sys2Proof.Machine Sys2Proof.Stated Sys2Proof.Laws

/-! ## Completions go out, launches are cancelled (R43) -/

/-- A completion that is written changes no phase, no region, no launch and no running copy. -/
theorem writeCompletion_still (s : State) (vd : Nat) (k : Completion) :
    rest (writeCompletion s vd k) = rest s ∧ works (writeCompletion s vd k) = works s := by
  have hrec : rest (recorded s vd k) = rest s ∧ works (recorded s vd k) = works s :=
    ⟨rest_journal s 8 vd k.queue k.seq [(reg s vd k.queue).cqTail.toNat + 1], works_journal s 8 vd k.queue k.seq [(reg s vd k.queue).cqTail.toNat + 1]⟩
  have hmod : ∀ (t : State) (q : Nat) (f : Queue → Queue), rest (modQueue t vd q f) = rest t ∧ works (modQueue t vd q f) = works t :=
    fun t q f => ⟨rest_modVd t vd (fun _ => rfl), rfl⟩
  have hsig : ∀ (t : State) (q : Nat) (b : Bool), rest (signalled t vd q b) = rest t ∧ works (signalled t vd q b) = works t := by
    intro t q b
    unfold signalled
    split
    · rw [raiseVector_eq]
      exact ⟨rfl, rfl⟩
    · exact ⟨rfl, rfl⟩
  have hdrain : ∀ (t : State) (q : Nat), rest (retire (drainCheck t vd q)) = rest t ∧ works (retire (drainCheck t vd q)) = works t := by
    intro t q
    obtain ⟨a, h⟩ := drainCheck_eq t vd q
    rw [h]
    exact ⟨rfl, rfl⟩
  rw [writeCompletion_eq]
  exact ⟨(hdrain ..).1.trans ((hsig ..).1.trans ((hmod ..).1.trans hrec.1)), (hdrain ..).2.trans ((hsig ..).2.trans ((hmod ..).2.trans hrec.2))⟩

theorem still_flushCompletions (s : State) (vd : Nat) : Still s (flushCompletions s vd) := by
  refine Still.of_rest (flushCompletions_keeps rest (fun s vd r => ?_) (fun s vd k => (writeCompletion_still s vd k).1) s vd)
    (flushCompletions_keeps works (fun _ _ _ => rfl) (fun s vd k => (writeCompletion_still s vd k).2) s vd)
  refine rest_modVd s vd ?_
  exact fun _ => rfl

/-- Nothing goes out where nothing is withheld. -/
theorem flushCompletions_nil {s : State} {vd : Nat} (h : (vdOf s vd).withheld = []) : flushCompletions s vd = s := by
  unfold flushCompletions flushNow
  split
  · rfl
  · exact writeCompletions_nil _ h

/-- Launches that are cancelled, one after the other: none of them is left. -/
theorem cancelLaunches_spec (ids : List Nat) (s : State) : Kept s (ids.foldl cancelLaunch s)
    ∧ (NoCopyRuns s → NoCopyRuns (ids.foldl cancelLaunch s) ∧ ∀ j v, ownerOfLaunch (ids.foldl cancelLaunch s) j = some v →
      j ∉ ids ∧ ownerOfLaunch s j = some v) := by
  induction ids generalizing s with
  | nil => exact ⟨Kept.refl s, fun hn => ⟨hn, fun j v h => ⟨List.not_mem_nil, h⟩⟩⟩
  | cons id ids ih =>
    obtain ⟨ho, hgone⟩ := cancelLaunch_spec s id
    obtain ⟨hk, hrest⟩ := ih (cancelLaunch s id)
    refine ⟨ho.kept.trans hk, fun hn => ?_⟩
    obtain ⟨hidle, howner⟩ := hrest (ho.idle hn)
    refine ⟨hidle, fun j v hj => ?_⟩
    obtain ⟨hmem, hv⟩ := howner j v hj
    have hne : j ≠ id := by
      rintro rfl
      rw [hgone] at hv
      cases hv
    exact ⟨fun h => (List.mem_cons.mp h).elim hne hmem, (ho.others hn j hne).symm.trans hv⟩

/-! ## Regions are released (R43, R48) -/

/-- A region neither PAID nor in GRACE. -/
def Dead (r : Rent) : Prop := r.state ≠ 1 ∧ r.state ≠ 2

theorem Gone.dead {s t : State} (h : Gone s t) {ref : Nat} (hd : Dead (rentOf s ref)) : Dead (rentOf t ref) := by
  rcases h ref with he | he
  · rw [he]
    exact hd
  · exact ⟨by omega, by omega⟩

/-- Of entries that are ended one after the other none is left. -/
theorem foldl_dead {f : State → Nat × Rent → State} (P : Rent → Prop) (hg : ∀ s e, Gone s (f s e))
    (hend : ∀ s e, P (rentOf s e.1) → Dead (rentOf (f s e) e.1)) (l : List (Nat × Rent)) (s : State) {e : Nat × Rent} (he : e ∈ l)
    (hp : P (rentOf s e.1)) : Dead (rentOf (l.foldl f s) e.1) := by
  induction l generalizing s with
  | nil => cases he
  | cons x l ih =>
    rw [List.foldl_cons]
    rcases List.mem_cons.mp he with rfl | hl
    · exact (Gone.foldl hg l _).dead (hend s e hp)
    · rcases hg s x e.1 with hs | h0
      · exact ih _ hl (hs ▸ hp)
      · exact (Gone.foldl hg l _).dead ⟨by omega, by omega⟩

/-- The regions of a device. -/
def regionsOf (s : State) (vd : Nat) : List (Nat × Rent) := s.rents.filter (fun e => e.2.owner / 65536 == vd && e.2.state != 0)

theorem dropRegions_eq (s : State) (vd : Nat) : dropRegions s vd
    = ((regionsOf s vd).filter (fun e => !e.2.sub && (e.2.state == 1 || e.2.state == 2))).foldl (fun s e => reclaim s e.1)
      (((regionsOf s vd).filter (fun e => e.2.sub)).foldl (fun s e => endSublet s e.1) s) := rfl

theorem endSublets_gone (l : List (Nat × Rent)) (s : State) : Gone s (l.foldl (fun s e => endSublet s e.1) s) :=
  Gone.foldl (f := fun s (e : Nat × Rent) => endSublet s e.1) (fun s e => (endSublet_gone s e.1).1) l s

theorem reclaims_gone (l : List (Nat × Rent)) (s : State) : Gone s (l.foldl (fun s e => reclaim s e.1) s) :=
  Gone.foldl (f := fun s (e : Nat × Rent) => reclaim s e.1) (fun s e => (reclaim_gone s e.1).1) l s

/-- An entry that is not FREE is listed. -/
theorem mem_rents {s : State} {ref : Nat} (h : (rentOf s ref).state ≠ 0) : (ref, rentOf s ref) ∈ s.rents := by
  unfold rentOf at h ⊢
  cases hg : tget s.rents ref with
  | none =>
    rw [hg] at h
    exact absurd rfl h
  | some r => exact mem_of_tget hg

theorem still_dropRegions (s : State) (vd : Nat) : Still s (dropRegions s vd) := by
  rw [dropRegions_eq]
  exact (Still.foldl (f := fun s (e : Nat × Rent) => endSublet s e.1) (fun s e => still_endSublet s e.1) _ s).trans
    (Still.foldl (f := fun s (e : Nat × Rent) => reclaim s e.1) (fun s e => still_reclaim s e.1) _ _)

/-- No region of the device is left PAID or in GRACE. -/
theorem dropRegions_dead {s : State} {vd : Nat} (hn : ∀ ref, ¬ Grace s ref) {ref : Nat}
    (ho : (rentOf (dropRegions s vd) ref).owner / 65536 = vd) : Dead (rentOf (dropRegions s vd) ref) := by
  rw [dropRegions_eq] at ho ⊢
  have hsubs := endSublets_gone ((regionsOf s vd).filter (fun e => e.2.sub)) s
  have hmain := reclaims_gone ((regionsOf s vd).filter (fun e => !e.2.sub && (e.2.state == 1 || e.2.state == 2)))
    (((regionsOf s vd).filter (fun e => e.2.sub)).foldl (fun s e => endSublet s e.1) s)
  rcases (hsubs.trans hmain) ref with he | he
  · rw [he] at ho
    by_cases h12 : (rentOf s ref).state = 1 ∨ (rentOf s ref).state = 2
    · have hmem : (ref, rentOf s ref) ∈ regionsOf s vd :=
        List.mem_filter.mpr ⟨mem_rents (by omega), by simp only [ho, beq_self_eq_true, Bool.true_and, bne_iff_ne]; omega⟩
      cases hsub : (rentOf s ref).sub with
      | true =>
        have h1 : (rentOf s ref).state = 1 := h12.resolve_right fun h2 => hn ref ⟨hsub, h2⟩
        exact hmain.dead (foldl_dead (f := fun s (e : Nat × Rent) => endSublet s e.1) (fun r => r.sub = true ∧ r.state = 1)
          (fun s e => (endSublet_gone s e.1).1) (fun s e hp => (endSublet_gone s e.1).2 hp.1 hp.2) _ s
          (List.mem_filter.mpr ⟨hmem, hsub⟩) ⟨hsub, h1⟩)
      | false =>
        refine foldl_dead (f := fun s (e : Nat × Rent) => reclaim s e.1) (fun _ => True) (fun s e => (reclaim_gone s e.1).1) (fun s e _ => ?_) _ _
          (List.mem_filter.mpr ⟨hmem, by simpa [hsub] using h12⟩) trivial
        rcases (reclaim_gone s e.1).2 with h | h
        · exact ⟨by omega, by omega⟩
        · exact ⟨by omega, by omega⟩
    · rw [he]
      exact ⟨fun h => h12 (Or.inl h), fun h => h12 (Or.inr h)⟩
  · exact ⟨by omega, by omega⟩

/-! ## The end of DESTROY (R43) -/

/-- The newel's own copies that stop. -/
theorem stopNewelCopies_keeps {γ : Type} (p : State → γ) (hp : ∀ (t : State) a e l, p { t with agenda := a, engines := e, links := l } = p t)
    (s : State) (vd : Nat) : p (stopNewelCopies s vd) = p s := by
  unfold stopNewelCopies
  dsimp only
  refine (foldl_keeps p (fun s k => ?_) _ _).trans (hp s s.agenda _ s.links)
  split
  · exact leavePath_keeps s p hp ..
  · rfl

/-- The kicks of a device are cleared. -/
def clearKicks (s : State) (vd : Nat) (ks : List Nat) : State := ks.foldl (fun s k => clearKick s vd (k % 64)) s

theorem clearKick_rest (s : State) (vd q : Nat) : rest (clearKick s vd q) = rest s := rest_journal s 2 vd q 0 [vd * 64 + q]

theorem clearKicks_rest (s : State) (vd : Nat) (ks : List Nat) : rest (clearKicks s vd ks) = rest s :=
  foldl_keeps rest (fun s k => clearKick_rest s vd (k % 64)) ks s

theorem clearKicks_launches (s : State) (vd : Nat) (ks : List Nat) : (clearKicks s vd ks).launches = s.launches :=
  foldl_keeps State.launches (fun s k => clearKick_launches s vd (k % 64)) ks s

theorem mem_clearKick {s : State} {vd q k : Nat} (h : k ∈ (clearKick s vd q).kicks) : k ∈ s.kicks ∧ k ≠ vd * 64 + q := by
  have hk : (clearKick s vd q).kicks = s.kicks.filter (fun k => k != vd * 64 + q) :=
    congrArg (List.filter (fun k => k != vd * 64 + q)) (journal_kicks s 2 vd q 0 [vd * 64 + q])
  rw [hk] at h
  simpa using List.mem_filter.mp h

theorem mem_clearKicks {vd k : Nat} (ks : List Nat) {s : State} (h : k ∈ (clearKicks s vd ks).kicks) :
    k ∈ s.kicks ∧ ∀ m ∈ ks, k ≠ vd * 64 + m % 64 := by
  induction ks generalizing s with
  | nil => exact ⟨h, fun m hm => by cases hm⟩
  | cons m ks ih =>
    obtain ⟨hk, hne⟩ := ih (s := clearKick s vd (m % 64)) h
    obtain ⟨hs, hm⟩ := mem_clearKick hk
    exact ⟨hs, fun x hx => (List.mem_cons.mp hx).elim (fun he => he ▸ hm) (hne x)⟩

/-- Of a device's kicks none is left. -/
theorem clearKicks_none {s : State} {vd k : Nat} (h : k ∈ (clearKicks s vd (s.kicks.filter (fun k => k / 64 == vd))).kicks) : k / 64 ≠ vd := by
  intro hv
  obtain ⟨hk, hne⟩ := mem_clearKicks _ h
  exact hne k (List.mem_filter.mpr ⟨hk, by simpa using hv⟩) (by omega)

/-- The RECLAIMED space of a device is scrubbed. -/
def scrubRegions (s : State) (vd : Nat) : State :=
  s.rents.foldl (fun s e => if e.2.owner / 65536 = vd && e.2.state == 3 then schedScrub s e.1 else s) s

theorem scrubRegions_front (s : State) (vd : Nat) : front (scrubRegions s vd) = front s := by
  refine foldl_keeps front (fun s e => ?_) s.rents s
  split
  · exact front_schedScrub ..
  · rfl

theorem scrubRegions_rents (s : State) (vd : Nat) : (scrubRegions s vd).rents = s.rents := by
  refine foldl_keeps State.rents (fun s e => ?_) s.rents s
  split
  · exact schedScrub_rents ..
  · rfl

/-- A device that has been destroyed. -/
def destroyed (v : VDev) : VDev := { freshVd v 0 with
  allowance := 0, queues := v.queues.map (fun (e : Nat × Queue) => (e.1, { e.2 with enable := false, drain := false }))
  codes := v.codes.map (fun (e : Nat × Code) => (e.1, { e.2 with used := false, gen := if e.2.used then (e.2.gen + 1) % 65536 else e.2.gen })) }

/-- A device without copies, regions and kicks. -/
def emptied (s : State) (vd : Nat) : State :=
  let s := dropRegions (stopNewelCopies s vd) vd
  clearKicks s vd (s.kicks.filter (fun k => k / 64 == vd))

/-- A device that is FREE and whose RECLAIMED space is scrubbed. -/
def closed (s : State) (vd : Nat) : State := scrubRegions (setVdState (emptied s vd) vd 0) vd

theorem finishDestroy_eq (s : State) (vd : Nat) : finishDestroy s vd = poke (modVd (closed s vd) vd destroyed) := rfl

/-- A queue that has been destroyed. -/
def shut (r : Queue) : Queue := { r with enable := false, drain := false }

theorem destroyed_queue (v : VDev) (q : Nat) : (queueReg (destroyed v) q).enable = false := by
  have hq : (destroyed v).queues = v.queues.map (fun e => (e.1, shut e.2)) := rfl
  rw [queueReg, hq, tget_map]
  cases tget v.queues q with
  | none => rfl
  | some r => rfl

/-- What the statement asks of a device that has been destroyed. -/
structure Over (t : State) (vd : Nat) : Prop where
  busy : (vdOf t vd).busy = false
  state : (vdOf t vd).state = 0
  allowance : allowanceOf t vd = 0
  withheld : (vdOf t vd).withheld = []
  kicks : ∀ k ∈ t.kicks, k / 64 ≠ vd
  queues : ∀ q, (queueReg (vdOf t vd) q).enable = false
  regions : ∀ ref, (rentOf t ref).owner / 65536 = vd → (rentOf t ref).state ≠ 1 ∧ (rentOf t ref).state ≠ 2

theorem emptied_phases (s : State) (vd : Nat) : phases (emptied s vd) = phases s :=
  (congrArg (fun x => x.2.1) (clearKicks_rest ..)).trans ((still_dropRegions ..).kept.phases.trans
    (congrArg (fun x => x.2.1) (stopNewelCopies_keeps rest (fun _ _ _ _ => rfl) s vd)))

theorem emptied_launches (s : State) (vd : Nat) : (emptied s vd).launches = s.launches :=
  (clearKicks_launches ..).trans ((congrArg Prod.fst (still_dropRegions ..).works).trans
    (stopNewelCopies_keeps State.launches (fun _ _ _ _ => rfl) s vd))

theorem emptied_dead {s : State} {vd : Nat} (hn : ∀ ref, ¬ Grace s ref) {ref : Nat} (ho : (rentOf (emptied s vd) ref).owner / 65536 = vd) :
    Dead (rentOf (emptied s vd) ref) := by
  have hstop : (stopNewelCopies s vd).rents = s.rents := stopNewelCopies_keeps State.rents (fun _ _ _ _ => rfl) s vd
  have hr : (emptied s vd).rents = (dropRegions (stopNewelCopies s vd) vd).rents := congrArg (fun x => x.2.2) (clearKicks_rest ..)
  rw [rentOf_congr hr] at ho ⊢
  exact dropRegions_dead (fun ref hg => hn ref ((Gone.of_rents hstop).grace hg)) ho

theorem closed_front (s : State) (vd : Nat) : front (closed s vd) = front (setVdState (emptied s vd) vd 0) := scrubRegions_front ..

theorem closed_cmd (s : State) (vd : Nat) : (vdOf (closed s vd) vd).cmd = (vdOf s vd).cmd := by
  have hface : (face (vdOf (closed s vd) vd)).cmd = (face (vdOf (setVdState (emptied s vd) vd 0) vd)).cmd :=
    congrArg VDev.cmd (face_of_front (closed_front s vd) vd)
  have hphase : phase (vdOf (emptied s vd) vd) = phase (vdOf s vd) := congrFun (emptied_phases s vd) vd
  rw [setVdState_vdOf] at hface
  generalize vdOf (emptied s vd) vd = w at hface hphase
  generalize vdOf (closed s vd) vd = u at hface ⊢
  exact Eq.trans hface (congrArg (fun x => x.2.2) hphase)

theorem closed_rents (s : State) (vd : Nat) : (closed s vd).rents = (emptied s vd).rents := by
  rw [closed, scrubRegions_rents, setVdState_rents]

theorem kicks_of_front {s t : State} (h : front t = front s) : t.kicks = s.kicks := congrArg Front.kicks h
theorem launches_of_front {s t : State} (h : front t = front s) : t.launches = s.launches := congrArg Front.launches h

theorem closed_kicks (s : State) (vd : Nat) : (closed s vd).kicks = (emptied s vd).kicks :=
  (kicks_of_front (closed_front s vd)).trans (setVdState_kicks (emptied s vd) vd 0)

theorem closed_launches (s : State) (vd : Nat) : (closed s vd).launches = s.launches :=
  (launches_of_front (closed_front s vd)).trans ((setVdState_launches (emptied s vd) vd 0).trans (emptied_launches s vd))

theorem finishDestroy_vdOf (s : State) (vd : Nat) : vdOf (finishDestroy s vd) vd = destroyed (vdOf (closed s vd) vd) := by
  rw [finishDestroy_eq, vdOf_congr (poke_vds _), vdOf_modVd_self]

theorem finishDestroy_cmd (s : State) (vd : Nat) : (vdOf (finishDestroy s vd) vd).cmd = (vdOf s vd).cmd := by
  rw [finishDestroy_vdOf, ← closed_cmd s vd]
  rfl

theorem finishDestroy_rents (s : State) (vd : Nat) : (finishDestroy s vd).rents = (emptied s vd).rents := by
  rw [finishDestroy_eq, poke_rents, modVd_rents, closed_rents]

theorem finishDestroy_kicks (s : State) (vd : Nat) : (finishDestroy s vd).kicks = (emptied s vd).kicks := by
  rw [finishDestroy_eq, poke_kicks, modVd_kicks, closed_kicks]

theorem finishDestroy_launches (s : State) (vd : Nat) : (finishDestroy s vd).launches = s.launches := by
  rw [finishDestroy_eq, poke_launches, modVd_launches, closed_launches]

/-- Where no sublet is in GRACE, DESTROY ends with nothing left. -/
theorem finishDestroy_over {s : State} {vd : Nat} (hn : ∀ ref, ¬ Grace s ref) : Over (finishDestroy s vd) vd := by
  have hv := finishDestroy_vdOf s vd
  refine ⟨?_, ?_, ?_, ?_, fun k hk => ?_, fun q => ?_, fun ref ho => ?_⟩
  · rw [hv]; rfl
  · rw [hv]; rfl
  · rw [allowanceOf, hv]; rfl
  · rw [hv]; rfl
  · rw [finishDestroy_kicks] at hk
    exact clearKicks_none hk
  · rw [hv]
    exact destroyed_queue _ q
  · rw [rentOf_congr (finishDestroy_rents s vd)] at ho ⊢
    exact emptied_dead hn ho

/-! ## DESTROY -/

/-- A device whose launches are cancelled, and whose completions go out as its rings have room. -/
def ending (s : State) (vd : Nat) : State :=
  let s := flushCompletions (modVd s vd (fun v => { v with busy := true })) vd
  let ids := (s.launches.filter (fun e => e.2.vd == vd)).map Prod.fst
  flushCompletions (ids.foldl cancelLaunch s) vd

/-- DESTROY. -/
def destroyVd (s : State) (vd : Nat) : State :=
  if (vdOf (ending s vd) vd).withheld.isEmpty then finishDestroy (ending s vd) vd else ending s vd

theorem destroyVd_runs {s : State} {vd : Nat} (h : Starts .destroyVd s vd) : exec .destroyVd s = .next (destroyVd (started s vd 2) vd) :=
  starts_runs h rfl (rfl : execDestroyVd s = vdCommand 2 (fun v => v.state != 0) (fun s vd _ => destroyVd s vd) s)

/-- The launches that a device's DESTROY cancels. -/
def launchesOf (s : State) (vd : Nat) : List Nat := (s.launches.filter (fun e => e.2.vd == vd)).map Prod.fst

theorem ending_eq (s : State) (vd : Nat) : ending s vd
    = flushCompletions ((launchesOf (flushCompletions (modVd s vd (fun v => { v with busy := true })) vd) vd).foldl cancelLaunch
      (flushCompletions (modVd s vd (fun v => { v with busy := true })) vd)) vd := rfl

/-- While a device ends its phases stay, and no sublet comes into GRACE. -/
theorem ending_kept (s : State) (vd : Nat) : Kept (modVd s vd (fun v => { v with busy := true })) (ending s vd) := by
  rw [ending_eq]
  exact (still_flushCompletions ..).kept.trans ((cancelLaunches_spec ..).1.trans (still_flushCompletions ..).kept)

theorem ending_phase (s : State) (vd : Nat) : phase (vdOf (ending s vd) vd) = ((vdOf s vd).state, true, (vdOf s vd).cmd) := by
  have hp : phase (vdOf (ending s vd) vd) = phase (vdOf (modVd s vd (fun v => { v with busy := true })) vd) :=
    congrFun (ending_kept s vd).phases vd
  rw [hp, vdOf_modVd_self]
  rfl

/-- Where no copy runs no launch of the device is left. -/
theorem ending_launches {s : State} {vd : Nat} (hn : NoCopyRuns s) {j : Nat} : ownerOfLaunch (ending s vd) j ≠ some vd := by
  have hfirst := still_flushCompletions (modVd s vd (fun v => { v with busy := true })) vd
  have hlast := still_flushCompletions ((launchesOf (flushCompletions (modVd s vd (fun v => { v with busy := true })) vd) vd).foldl cancelLaunch
    (flushCompletions (modVd s vd (fun v => { v with busy := true })) vd)) vd
  rw [ending_eq]
  generalize flushCompletions (modVd s vd (fun v => { v with busy := true })) vd = f at hfirst hlast ⊢
  intro ho
  have hidle : NoCopyRuns f := hfirst.noCopyRuns hn
  rw [ownerOfLaunch_congr (congrArg Prod.fst hlast.works)] at ho
  obtain ⟨hmem, hf⟩ := ((cancelLaunches_spec (launchesOf f vd) f).2 hidle).2 j vd ho
  obtain ⟨l, hl, hv⟩ := Option.map_eq_some_iff.mp hf
  exact hmem (List.mem_map.mpr ⟨(j, l), List.mem_filter.mpr ⟨mem_of_tget hl, by simpa using hv⟩, rfl⟩)

/-- With nothing withheld and no launch, nothing is left to end. -/
theorem ending_idle {s : State} {vd : Nat} (hw : (vdOf s vd).withheld = []) (hl : ∀ e ∈ s.launches, e.2.vd ≠ vd) :
    (vdOf (ending s vd) vd).withheld = [] := by
  have hb : (vdOf (modVd s vd (fun v => { v with busy := true })) vd).withheld = [] := by
    rw [vdOf_modVd_self]
    exact hw
  have hnone : launchesOf (modVd s vd (fun v => { v with busy := true })) vd = [] := by
    have hf : s.launches.filter (fun e => e.2.vd == vd) = [] := List.filter_eq_nil_iff.mpr fun e he => by simpa using hl e he
    unfold launchesOf
    rw [modVd_launches, hf]
    rfl
  rw [ending_eq, flushCompletions_nil hb, hnone, List.foldl_nil, flushCompletions_nil hb]
  exact hb

/-- No sublet in GRACE is listed: none is found. -/
theorem not_grace {s : State} (h : ∀ e ∈ s.rents, e.2.sub = true → e.2.state ≠ 2) (ref : Nat) : ¬ Grace s ref := fun hg =>
  h _ (mem_rents (ref := ref) (by rw [hg.2]; omega)) hg.1 hg.2

/-- A device that ends is gone when nothing of it is withheld; else its command goes on. -/
def concluded (e : State) (vd : Nat) : State := if (vdOf e vd).withheld.isEmpty then finishDestroy e vd else e

theorem destroyVd_eq (s : State) (vd : Nat) : destroyVd s vd = concluded (ending s vd) vd := rfl

section
variable {e : State} {vd : Nat}

theorem concluded_over (hg : ∀ ref, ¬ Grace e ref) (hw : (vdOf e vd).withheld = []) : Over (concluded e vd) vd := by
  have h : concluded e vd = finishDestroy e vd := if_pos (by rw [hw]; rfl)
  rw [h]
  exact finishDestroy_over hg

theorem concluded_waits (hw : (vdOf e vd).withheld ≠ []) : concluded e vd = e := if_neg fun h => hw (List.isEmpty_iff.mp h)

theorem concluded_cmd : (vdOf (concluded e vd) vd).cmd = (vdOf e vd).cmd := by
  unfold concluded
  split
  · exact finishDestroy_cmd ..
  · rfl

theorem concluded_launches : (concluded e vd).launches = e.launches := by
  unfold concluded
  split
  · exact finishDestroy_launches ..
  · rfl

end

theorem destroyVd_phase {s : State} {vd : Nat} : phase (vdOf (ending (started s vd 2) vd) vd) = ((vdOf s vd).state, true, 2) := by
  rw [ending_phase, vdOf_started]

theorem started_launches (s : State) (vd n : Nat) : (started s vd n).launches = s.launches := rfl

theorem noCopyRuns_started {s : State} {vd n : Nat} (h : NoCopyRuns s) : NoCopyRuns (started s vd n) := h

theorem grace_of_ending {s : State} {vd ref : Nat} (h : Grace (ending (started s vd 2) vd) ref) : Grace s ref := by
  have hb := (ending_kept (started s vd 2) vd).grace ref h
  have hr : (modVd (started s vd 2) vd (fun v => { v with busy := true })).rents = s.rents := rfl
  exact (Gone.of_rents hr).grace hb

/-- R43: DESTROY ends a device's launches, and leaves it FREE when its completions are written. -/
theorem destroyVd_spec {s : State} {vd : Nat} (hg : ∀ e ∈ s.rents, e.2.sub = true → e.2.state ≠ 2) :
    let t := destroyVd (started s vd 2) vd
    (vdOf t vd).cmd = 2
      ∧ (((vdOf t vd).busy = true ∧ (vdOf t vd).state = (vdOf s vd).state ∧ (vdOf t vd).withheld ≠ []) ∨ Over t vd)
      ∧ ((vdOf s vd).withheld = [] → (∀ e ∈ s.launches, e.2.vd ≠ vd) → Over t vd)
      ∧ (NoCopyRuns s → ∀ id l, tget t.launches id = some l → l.vd ≠ vd) := by
  have hphase := destroyVd_phase (s := s) (vd := vd)
  have hgrace : ∀ ref, ¬ Grace (ending (started s vd 2) vd) ref := fun ref hr => not_grace hg ref (grace_of_ending hr)
  have hidle : (vdOf s vd).withheld = [] → (∀ e ∈ s.launches, e.2.vd ≠ vd) → (vdOf (ending (started s vd 2) vd) vd).withheld = [] :=
    fun hw hl => ending_idle (by rw [vdOf_started]; exact hw) (by rw [started_launches]; exact hl)
  have hown : NoCopyRuns s → ∀ j, ownerOfLaunch (ending (started s vd 2) vd) j ≠ some vd := fun hn _ => ending_launches (noCopyRuns_started hn)
  rw [destroyVd_eq]
  generalize ending (started s vd 2) vd = e at hphase hgrace hidle hown ⊢
  intro t
  refine ⟨concluded_cmd.trans (congrArg (fun x => x.2.2) hphase), ?_, fun hw hl => concluded_over hgrace (hidle hw hl), fun hn id l hl hv => ?_⟩
  · by_cases hw : (vdOf e vd).withheld = []
    · exact Or.inr (concluded_over hgrace hw)
    · have ht : t = e := concluded_waits hw
      rw [ht]
      exact Or.inl ⟨congrArg (fun x => x.2.1) hphase, congrArg Prod.fst hphase, hw⟩
  · refine hown hn id ?_
    rw [concluded_launches] at hl
    rw [ownerOfLaunch, hl, ← hv]
    rfl

/-- R39, R41, R43: CREATE, IMPORT and DESTROY. -/
theorem devicesAreMadeAndUnmade : Stated.DevicesAreMadeAndUnmade := by
  intro vd s
  refine ⟨fun i st hi h => ?_, fun h hg => ?_⟩
  · obtain ⟨n, h0, hrun⟩ := devicesAreMade hi h
    exact startVd_spec h0 hrun
  · have hover : ∀ t, Over t vd → (vdOf t vd).busy = false ∧ (vdOf t vd).state = 0 ∧ allowanceOf t vd = 0
        ∧ (vdOf t vd).withheld = [] ∧ (∀ k ∈ t.kicks, k / 64 ≠ vd) ∧ (∀ q, (queueReg (vdOf t vd) q).enable = false)
        ∧ (∀ ref, (rentOf t ref).owner / 65536 = vd → (rentOf t ref).state ≠ 1 ∧ (rentOf t ref).state ≠ 2) :=
      fun t ⟨h1, h2, h3, h4, h5, h6, h7⟩ => ⟨h1, h2, h3, h4, h5, h6, h7⟩
    obtain ⟨hcmd, hor, hidle, hown⟩ := destroyVd_spec (vd := vd) hg
    exact ⟨_, destroyVd_runs h, hcmd, hor.imp_right (hover _), fun hw hl => hover _ (hidle hw hl), hown⟩

/-- Settles O56: how commands start, what makes and ends a device, its global regions, its code regions and parameters, and its
migration, each proved above. -/
theorem virtualDevicesFollowTheirCommands : Obligations.VirtualDevicesFollowTheirCommands :=
  ⟨commandsHaveTheirStates, devicesAreMadeAndUnmade, globalRegionsAreRented, codeAndParameters, devicesMigrate⟩

end Sys2Proof.Proofs
end

section
/-!
SUPPORT. What refutes the statement that each form completes (O60).
-/
namespace Sys2Proof.Proofs
open Sys2Proof Sys2Proof.Machine Sys2Proof.Stated Sys2Proof.Laws

/-! ## An entry that no view placed (R100, R284) -/

/-- An addition that a stop held back and that no view placed: prog 5 notes that it is ILLEGAL where it starts (R100). -/
def unplacedEntry : Cmd := { (default : Cmd) with id := 5, uid := 1, ins := .vadd default, prog := 5 }

/-- That entry is the only one of core 0's VQ, and nothing is due. -/
def unplacedState : State := { State.reset with
  agenda := [], units := [(1, { Ctx.reset with uid := 1 })]
  cores := [(0, { CoreSt.reset with vq := [unplacedEntry] })] }

theorem queueNext_unplaced : queueNext unplacedState 0 1 = some (unplacedEntry, none) := by decide

/-- Its start is a fault at the command. -/
theorem start_unplaced : exec (.queueEntryStart 0 1) unplacedState = .next (engineFault
    (modCore unplacedState 0 (fun x => takeTokens x [])) unplacedEntry false ⟨cILLEGAL, 0, 0, true⟩) := rfl

/-- What follows is the end of its launch, and no completion of the entry. -/
theorem start_unplaced_agenda {t : State} (h : exec (.queueEntryStart 0 1) unplacedState = .next t) :
    t.agenda = [⟨0, 0, 17, 0, 0, .ins (.launchEnd 0), false⟩] := by
  rw [start_unplaced] at h
  cases h
  rfl

/-- Refutes O60, at the start of an entry of the VQ: the clause says nothing of an entry that a stop held back and that no view
placed. `unplacedEntry` meets all it supposes, and its start is ILLEGAL. -/
theorem not_formsComplete : ¬ Obligations.FormsComplete := by
  rintro ⟨-, -, ⟨hstart, -, -, -⟩, -⟩
  obtain ⟨t, ht, hmem⟩ := hstart 0 1 1 default unplacedState _ unplacedEntry queueNext_unplaced rfl (.inl rfl) (by decide) rfl rfl rfl rfl
    rfl ⟨rfl, rfl, rfl, rfl, rfl⟩ rfl
  rw [start_unplaced_agenda ht] at hmem
  exact absurd hmem (by decide)

end Sys2Proof.Proofs
end

section
/-!
SUPPORT. The release and the claim of DISPATCH plans (O44: R67, R340).
-/
namespace Sys2Proof.Proofs
open Sys2Proof Sys2Proof.Machine Sys2Proof.Stated Sys2Proof.Laws

/-! ## A plan is released (R340) -/

/-- A physical scalar as the register store holds it. -/
def scalarAt (c : Ctx) (p : Nat) : Word := BitVec.ofNat 64 (natOfBytes (c.bank.readRun (8 * p) 8))

theorem scalarAt_wrPhys_self (c : Ctx) {p : Nat} (v : Word) (h : p ≠ 0) : scalarAt (wrPhys c p v) p = v := by
  have hread := readRun_writeRun_self c.bank (8 * p) (bytesOfNat 8 v.toNat)
  rw [bytesOfNat_length] at hread
  rw [scalarAt, wrPhys_bank c v h, hread, word_of_bytes]

theorem scalarAt_wrPhys_ne (c : Ctx) {p q : Nat} (v : Word) (h : p ≠ 0) (hq : q ≠ p) : scalarAt (wrPhys c p v) q = scalarAt c q := by
  rw [scalarAt, wrPhys_bank c v h, readRun_writeRun_disjoint, ← scalarAt]
  simp only [bytesOfNat_length]
  omega

/-- A unit that has received its work list: the buckets dropped and the number of its items stand in the command's registers. -/
def withPlan (s : State) (c : Ctx) (k : Cmd) (dropped : Nat) (w : Work) : Ctx :=
  { wrPhys (wrPhys c (nth k.names 0) (word dropped)) (nth k.names 1) (word w.items.length) with
    work := w, wait := .run, pc := c.pc + 32, nextAt := tickOf s c }

@[simp] theorem withPlan_uid (s : State) (c : Ctx) (k : Cmd) (dropped : Nat) (w : Work) : (withPlan s c k dropped w).uid = c.uid := by
  simp [withPlan]

/-- A started DISPATCH of a unit, as a plan's release looks for it. -/
def dispatchOf (uid : Nat) (k : Cmd) : Bool :=
  k.uid == uid && k.start.isSome && (match k.ins with | .dispatch _ _ => true | _ => false)

theorem givePlan_waiting {s : State} {uid d : Nat} {c : Ctx} {k : Cmd} (team : Nat) (w : Work) (hc : unitOf s uid = some c)
    (hw : c.wait = .dispatch d) (hk : (dieOf s (dieOfCore c.core)).sync.find? (dispatchOf uid) = some k) :
    givePlan s team uid w = dropSync (setUnit s (withPlan s c k (teamOf s team).dropped w)) k.core k.id := by
  simp only [givePlan, hc]
  split
  · next k' _ hk' =>
    obtain rfl : k' = k := Option.some.inj (hk'.symm.trans hk)
    simp only [withPlan, word, wrPhys_pc, tickOf, wrPhys_core]
  · next hne => exact absurd hk (hne d k hw)

theorem sameStorage_dropSync (s : State) (x : Ctx) (core id : Nat) : SameStorage s (dropSync (setUnit s x) core id) := by
  simp [SameStorage, dropSync]

/-- The only command of a synchronisation engine is over. -/
theorem dropSync_only {s : State} {c : Ctx} {k : Cmd} (x : Ctx) (hs : (dieOf s (dieOfCore c.core)).sync = [k]) (hk : k.core = c.core) :
    (dieOf (dropSync (setUnit s x) k.core k.id) (dieOfCore c.core)).sync = [] := by
  have hdies : dieOf (setUnit s x) = dieOf s := by simp [funext_iff, dieOf]
  rw [dropSync, hk, dieOf_modDie_self, hdies, hs]
  simp

/-- A plan for one unit that waits goes to it whole. -/
theorem dispatchRelease_one {s : State} {team uid : Nat} {w : Work} (hp : (teamOf s team).plan = [(uid, w)])
    (hd : (teamOf s team).dispatch = [uid]) : exec (.dispatchRelease team) s = .next (modTeam (givePlan s team uid w) team (fun m => { m with
      plan := m.plan.filter (fun (p : Nat × Work) => !(m.dispatch.contains p.1))
      dispatch := m.dispatch.filter (fun u => !(u == uid)), planned := false })) := by
  show execDispatchRelease team s = _
  simp [execDispatchRelease, hp, hd, Bool.beq_comm]

/-! ## A plan is claimed (R67) -/

/-- With the counts read, the retry builds the plan. -/
theorem dispatchClaimRetry_builds {s : State} {team : Nat} {c : Ctx} {k : Cmd} (ha : allDispatched s team = true)
    (hp : (teamOf s team).planned = false) (hd : dispatchCmd s team = some (c, k)) (hs : k.sample ≠ []) :
    exec (.dispatchClaimRetry team) s = .next (buildPlan s team) := by
  show execDispatchClaimRetry team s = _
  simp [execDispatchClaimRetry, ha, hp, hd, hs]

/-- The buckets of the launch record that DISPATCH serves. -/
def recordBuckets (s : State) (c : Ctx) : List Bucket := (recOf s c).buckets.take (recOf s c).nBuckets

/-- The units of a team that wait in DISPATCH, by logical core. -/
def dispatchUnits (s : State) (team : Nat) : List Nat :=
  (((teamOf s team).dispatch.filterMap (unitOf s)).mergeSort (fun a b => decide (a.lcore ≤ b.lcore))).map Ctx.uid

/-- The outcome of the claim for a DISPATCH's buckets. -/
def claimOf (s : State) (team : Nat) (c : Ctx) (k : Cmd) (f : DispF) : Option (Nat × List (Nat × Work) × List Nat × State) :=
  planClaim s c.vd f.base.toNat (recordBuckets s c) k.sample (dispatchUnits s team) (recordBuckets s c).length

/-- The team as a claimed plan leaves it. -/
def holdingPlan (ls : List (Nat × Work)) (dropped : Nat) (refs : List Nat) (m : Team) : Team :=
  { m with plan := ls, dropped := dropped, claims := refs, planned := true }

section
variable {s : State} {team : Nat} {c : Ctx} {k : Cmd} {tm : Timing} {f : DispF} (hd : dispatchCmd s team = some (c, k))
  (hi : k.ins = .dispatch tm f)
include hd hi

theorem buildPlan_waits (hn : claimOf s team c k f = none) : buildPlan s team
    = sched s (dieOfCore c.core) (tickOf s c + 2 ^ 12) 15 0 0 (.ins (.dispatchClaimRetry team)) := by
  unfold claimOf recordBuckets dispatchUnits at hn
  simp only [buildPlan, hd, hi, hn]

theorem buildPlan_claims {n : Nat} {ls : List (Nat × Work)} {refs : List Nat} {s₁ : State}
    (hn : claimOf s team c k f = some (n, ls, refs, s₁)) : buildPlan s team
      = sched (modTeam s₁ team (holdingPlan ls ((recordBuckets s c).length - n) refs)) (dieOfCore c.core)
        (tickOf s c + 32 + 2 * (ls.map (fun x => x.2.items.length)).sum + ceilDiv f.nexp.toNat 16) 16 0 0
        (.ins (.dispatchRelease team)) := by
  unfold claimOf recordBuckets dispatchUnits at hn
  rw [List.sum_eq_foldl]
  simp only [buildPlan, hd, hi, hn]
  rfl

end

/-- Settles O44: the release is one `givePlan`, and the retry is `buildPlan`, whose two outcomes are those of `planClaim`. -/
theorem dispatchPlansAreReleased : Obligations.DispatchPlansAreReleased := by
  refine ⟨?_, ?_⟩
  · intro team uid s c k w d hu hc hw hp hd hs hk hst ⟨tm, f, hi⟩ hco h0 h1 h01
    have hfind : (dieOf s (dieOfCore c.core)).sync.find? (dispatchOf uid) = some k := by
      show (dieOf s (c.core / 128)).sync.find? _ = _
      simp [hs, dispatchOf, hk, hst, hi]
    have hgive := givePlan_waiting team w hu hw hfind
    have hteam : teamOf (givePlan s team uid w) team = teamOf s team := by rw [hgive]; simp [teamOf, dropSync]
    have hunit : unitOf (givePlan s team uid w) uid = some (withPlan s c k (teamOf s team).dropped w) := by
      rw [hgive, ← hc, ← withPlan_uid s c k (teamOf s team).dropped w]
      exact unitOf_setUnit ..
    refine ⟨_, _, dispatchRelease_one hp hd, hunit, rfl, rfl, rfl, rfl, ?_, ?_, ?_, ?_, ?_, ?_, ?_⟩
    · rw [hgive]; exact sameStorage_dropSync s _ k.core k.id
    · exact (scalarAt_wrPhys_ne _ _ h1 h01).trans (scalarAt_wrPhys_self _ _ h0)
    · exact scalarAt_wrPhys_self _ _ h1
    · rw [teamOf_modTeam_self, hteam, hp, hd]; simp
    · rw [teamOf_modTeam_self, hteam, hd]; simp
    · rw [teamOf_modTeam_self]
    · rw [hgive]
      exact dropSync_only _ hs hco
  · intro team s c k tm f ha hp hd hi hs
    have hrun := dispatchClaimRetry_builds ha hp hd hs
    refine ⟨fun hn => ?_, fun n ls refs s₁ hn => ?_⟩
    · rw [hrun, buildPlan_waits hd hi hn]
      rfl
    · have hteam := teamOf_modTeam_self s₁ team (holdingPlan ls ((recordBuckets s c).length - n) refs)
      refine ⟨_, hrun, ?_⟩
      rw [buildPlan_claims hd hi hn]
      exact ⟨congrArg Team.plan hteam, congrArg Team.claims hteam, congrArg Team.dropped hteam, congrArg Team.planned hteam, rfl⟩

end Sys2Proof.Proofs
end

section
/-!
SUPPORT. What refutes the statement on HALT (O25).
-/
namespace Sys2Proof.Proofs
open Sys2Proof Sys2Proof.Machine Sys2Proof.Stated Sys2Proof.Laws

/-! ## A context exits (R244) -/

/-- A context that has exited. -/
def exited (c : Ctx) : Ctx := { c with wait := .done }

/-- After its last item a context with nothing in flight and no registration has exited, and its unit finishes. -/
theorem contextExit_exits {s : State} {uid : Nat} {c : Ctx} (hc : unitOf s uid = some c) (hu : c.uid = uid) (hr : exitReady s c = true)
    (hw : ¬ c.wid.toNat < c.lastWid.toNat) (hf : c.flight = []) (hg : c.regs16 = []) :
    exec (.contextExit uid) s = .next (freeHolder (unitDone (setUnit s (exited c)) (exited c)) c.core) := by
  have hdrops : exitDrops s uid (tickOf s c) = s := by simp [exitDrops, hc, hg]
  have hset : modUnit s uid exited = setUnit s (exited c) := modUnit_eq exited hc
  have hdone : unitOf (setUnit s (exited c)) uid = some (exited c) := hu ▸ unitOf_setUnit s (exited c)
  show execContextExit uid s = _
  simp only [execContextExit, hc, hr, hf, hdrops, if_neg hw, Bool.not_true, Bool.false_eq_true, if_false, List.isEmpty_nil]
  show (match unitOf (modUnit s uid exited) uid with
    | some x => Host.Outcome.next (freeHolder (unitDone (modUnit s uid exited) x) x.core)
    | none => .next (modUnit s uid exited)) = _
  rw [hset, hdone]
  rfl

/-- The DISPATCH of the one unit that waits. -/
theorem dispatchCmd_one {s : State} {team uid : Nat} {c : Ctx} {k : Cmd} (hd : (teamOf s team).dispatch = [uid])
    (hc : unitOf s uid = some c) (hk : (dieOf s (dieOfCore c.core)).sync = [k]) (hf : dispatchOf c.uid k = true) :
    dispatchCmd s team = some (c, k) := by
  have hfind : (dieOf s (dieOfCore c.core)).sync.find? (dispatchOf c.uid) = some k := by rw [hk, List.find?_cons_of_pos hf]
  have hone : ([uid].filterMap (unitOf s)).mergeSort (fun a b => decide (a.lcore ≤ b.lcore)) = [c] := by
    simp [hc]
  simp only [dispatchCmd, hd, hone]
  exact congrArg (Option.map (fun k => (c, k))) hfind

/-! ## A unit that stands under a number not its own (R67, R340) -/

/-- Unit 5 halts in its last item. -/
def haltedUnit : Ctx := { Ctx.reset with uid := 5, wait := .halt 0 }

/-- Another context with the number 5. -/
def strayUnit : Ctx := { Ctx.reset with uid := 5 }

/-- Unit 7 waits in DISPATCH. -/
def dispatchUnit : Ctx := { Ctx.reset with uid := 7, wait := .dispatch 0 }

/-- Its command, which has arrived; its counts have no address. -/
def badDispatch : Cmd :=
  { (default : Cmd) with id := 3, uid := 7, ins := .dispatch default default, start := some 0, vals := [0] }

/-- Unit 5 and unit 7 are a team, unit 7 stands under number 8, and the other context with the number 5 under number 7. -/
def strayState : State := { State.reset with
  units := [(5, haltedUnit), (7, strayUnit), (8, dispatchUnit)]
  teams := [(0, { (default : Team) with units := [5, 8], dispatch := [8], state := 1 })]
  dies := [(0, { (default : DieSt) with sync := [badDispatch] })] }

/-- As unit 5 has exited and is counted. -/
def strayCounted : State :=
  gsyncArrived (modLaunch (passRegions (setUnit strayState (exited haltedUnit)) (exited haltedUnit)) 0
    (fun l => { l with unitsDone := l.unitsDone + 1, unitsLeft := l.unitsLeft - 1 })) 0 0

/-- As the fault of unit 7's command is taken. -/
def strayFaulted : State := engineFault (dropSync strayCounted 0 3) badDispatch false ⟨cADDRESS, 0, 0, false⟩

theorem dispatchCheck_stray : dispatchCheck strayCounted 0 = strayFaulted := by
  have hcmd : dispatchCmd strayCounted 0 = some (dispatchUnit, badDispatch) := dispatchCmd_one rfl rfl rfl rfl
  have hall : allDispatched strayCounted 0 = true := by decide
  have hplan : (teamOf strayCounted 0).planned = false := rfl
  simp only [dispatchCheck, hall, hplan, hcmd]
  rfl

/-- The fault goes to the context under number 7, and so takes unit 5's entry. -/
theorem unitOf_strayFaulted : unitOf strayFaulted 5 = some strayUnit := by rfl

/-- Unit 7 still waits, so the team goes on, and its launch has ended with the fault. -/
theorem unitDone_stray : unitDone (setUnit strayState (exited haltedUnit)) (exited haltedUnit) = strayFaulted := by
  have hteam : teamDone strayFaulted 0 = false := by decide
  have hstatus : (launchOf strayFaulted 0).status.isSome = true := by decide
  have hcheck : dispatchCheck strayCounted 0 = strayFaulted := dispatchCheck_stray
  have hrun : unitDone (setUnit strayState (exited haltedUnit)) (exited haltedUnit)
      = let s := if teamDone (dispatchCheck strayCounted 0) 0 then endTeam (dispatchCheck strayCounted 0) 0 else dispatchCheck strayCounted 0
        if (launchOf s 0).status.isSome then s else _ := rfl
  rw [hrun, hcheck, hteam]
  exact if_pos hstatus

theorem contextExit_stray : exec (.contextExit 5) strayState = .next (freeHolder strayFaulted 0) := by
  rw [contextExit_exits (uid := 5) (c := haltedUnit) rfl rfl (by decide) (by decide) rfl rfl, unitDone_stray]
  rfl

/-- Refutes O25, at the clause of the last work item, which supposes nothing of the table of units: in `strayState` unit 7 stands
under number 8, and another context with the number 5 under number 7. As unit 5 exits, the team's DISPATCH is checked and faults;
the fault goes to the context under number 7 and so takes unit 5's entry, which does not stand as exited. `State.keyed` fails
there. -/
theorem not_haltEndsTheWorkItem : ¬ Obligations.HaltEndsTheWorkItem := by
  rintro ⟨-, hexit⟩
  obtain ⟨-, -, hlast⟩ := hexit 5 strayState haltedUnit 0 rfl rfl rfl (by decide) (by decide)
  obtain ⟨t, ht, -, hdone⟩ := hlast (by decide) rfl rfl
  rw [contextExit_stray] at ht
  cases ht
  exact absurd (hdone strayUnit unitOf_strayFaulted) (by decide)

end Sys2Proof.Proofs
end

section
/-!
SUPPORT. What refutes the statement on launches and the newel pair (O57).
-/
namespace Sys2Proof.Proofs
open Sys2Proof Sys2Proof.Machine Sys2Proof.Stated Sys2Proof.Laws

/-! ## A launch that a fault has ended (R197) -/

/-- The end of a launch is dated, what of it has halted counts, and it takes effect. -/
def endTaken (s : State) (id st : Nat) : State :=
  let s' := modLaunch s id (fun l => { l with endTick := if l.postponed then now s 0 else l.endTick, postponed := false })
  takeEffect (if (launchOf s id).effected then s' else countHalted s' id) id st (s.newel.endReports.contains id)

/-- While a newel acts, a launch that has not ended DONE leaves if its contexts have stopped by then. -/
theorem launchEnd_faulted {s : State} {id st : Nat} {l : Launch} (ha : NewelActs s) (hl : tget s.launches id = some l)
    (hs : l.status = some st) (h0 : st ≠ 0) : exec (.launchEnd id) s
      = .next (if (windDown (endTaken s id st) id (launchUnits (endTaken s id st) id)).1
        then poke (leaveLaunch (windDown (endTaken s id st) id (launchUnits (endTaken s id st) id)).2 id st (s.newel.endReports.contains id))
        else (windDown (endTaken s id st) id (launchUnits (endTaken s id st) id)).2) := by
  have hlaunch : launchOf s id = l := by rw [launchOf, hl]; rfl
  show execLaunchEnd id s = _
  simp only [execLaunchEnd, endTaken, hlaunch, hl, hs, ha.1, ha.2, h0, decide_false, Bool.or_self, Bool.false_eq_true, if_false]

/-- Contexts that are settled have stopped. -/
theorem windDown_settled {s : State} {id : Nat} {us : List Nat} (hstage : (launchOf s id).stage < 4) (hu : us.all (settled s) = true) :
    windDown s id us = (true, s) := by
  unfold windDown
  split
  · next h => omega
  · next h => omega
  · rw [if_pos hu]

theorem launchOf_left (s : State) (id st : Nat) (reported : Bool) : launchOf (poke (leaveLaunch s id st reported)) id = default := by
  have hgone : tget (leaveLaunch s id st reported).launches id = none := Option.map_eq_none_iff.mp (leaveLaunch_spec s id st reported).2
  rw [launchOf, poke_launches, hgone]
  rfl

/-! ## Units that stand under each other's numbers (R115, R197) -/

/-- A launch that a fault has ended, with its done_word at global address 8. -/
def faultedLaunch : Launch := { (default : Launch) with
  status := some 1, body := { (default : LaunchRec) with doneWord := 8 } }

/-- Unit 7 has a buffer whose word lies at its scratchpad's first place. -/
def countingUnit : Ctx := { Ctx.reset with
  uid := 7, spad := [⟨0, 1, 0⟩], bufs := [(0, { (default : Buf) with declared := true })] }

/-- Units 7 and 5 stand under each other's number. The launch's one team names number 5, and a command of unit 7 has an effect to
perform. The page of done_word is the region behind the scratchpad, so done_word is the count of that word, which lacks one. -/
def crossedState : State := { State.reset with
  units := [(5, countingUnit), (7, { Ctx.reset with uid := 5 })]
  teams := [(0, { (default : Team) with launch := 1, units := [5], state := 1 })], launches := [(1, faultedLaunch)]
  rents := [(0, { (default : Rent) with space := 1, state := 1 })]
  vds := [(0, { VDev.reset with maps := [⟨0, 1, 0, false, 0, false⟩] })]
  words := [(1, 0, false)], mem := [(locOf 1 12, 1)], agenda := [⟨0, 0, 7, 7, 1, .eff (.wake 7), false⟩] }

/-- done_word rises, so the word reaches and unit 7's buffer is noted: what is noted goes to the context under number 7, and so
takes the entry under number 5, of which nothing is due. -/
theorem settled_crossed : (launchUnits (endTaken crossedState 1 1) 1).all (settled (endTaken crossedState 1 1)) = true := by decide

theorem launchEnd_crossed : exec (.launchEnd 1) crossedState = .next (poke (leaveLaunch (endTaken crossedState 1 1) 1 1 false)) := by
  rw [launchEnd_faulted (l := faultedLaunch) ⟨rfl, by decide⟩ rfl rfl Nat.one_ne_zero, windDown_settled (by decide) settled_crossed]
  rfl

/-- Refutes O57, at the clause of `LaunchesEnd` on a launch whose contexts have not settled, which supposes nothing of the table of
units: in `crossedState` unit 7 has not settled as the launch ends, and the rise of its done_word puts another context in the place
of unit 7 in the launch's team. That one has settled, so the launch leaves at once. `State.keyed` fails there. -/
theorem not_theNewelRunsLaunches : ¬ Obligations.TheNewelRunsLaunches := by
  rintro ⟨-, -, -, hend, -, -⟩
  obtain ⟨-, hunsettled, -⟩ := hend 1 1 crossedState faultedLaunch rfl rfl
  obtain ⟨t, ht, -, hstage, -⟩ := hunsettled ⟨rfl, by decide⟩ Nat.one_ne_zero (by decide) ⟨7, by decide, by decide⟩
  rw [launchEnd_crossed] at ht
  cases ht
  rw [launchOf_left] at hstage
  exact absurd hstage (by decide)

end Sys2Proof.Proofs
end

section
/-!
SUPPORT. Soundness of states: what operations on contexts, storage, logs, traps, flights, barriers and synchronisation words keep (O50).
-/
set_option Elab.async false
namespace Sys2Proof.Machine
open Sys2Proof Sys2Proof.Laws
variable {s t : State} {c : Ctx} {k : CoreSt}

/-- A context's register store is in canonical form. -/
def Ctx.sound (c : Ctx) : Prop := c.bank.wf = true

/-- A core's alcove is in canonical form. -/
def CoreSt.sound (k : CoreSt) : Prop := k.alcove.wf = true

/-- A state that a computation may give is sound. -/
def Res.sound : Res State → Prop
  | .ok s => s.sound
  | .error _ => True

/-- The next state of an outcome, if there is one, is sound. -/
def Out.sound : Out → Prop
  | .next s => s.sound
  | _ => True

/-! ## Contexts -/

theorem Ctx.sound.bankWrite (hc : c.sound) {off : Nat} {bs : List Byte} {ps : List Nat} : (bankWrite c off bs ps).sound :=
  wf_writeRun _ _ _ hc

theorem Ctx.sound.wrPhys (hc : c.sound) {p : Nat} {v : Word} : (wrPhys c p v).sound := by
  unfold Machine.wrPhys
  split
  · exact hc
  · exact hc.bankWrite

theorem Ctx.sound.wrS (hc : c.sound) {n : Nat} {v : Word} : (wrS c n v).sound := hc.wrPhys

theorem Ctx.sound.wrPhysP (hc : c.sound) {p : Nat} {v : Word} : (wrPhysP c p v).sound := by
  unfold Machine.wrPhysP
  split
  · exact hc
  · exact hc

theorem Ctx.sound.wrP (hc : c.sound) {n : Nat} {v : Word} : (wrP c n v).sound := hc.wrPhysP

theorem Ctx.sound.foldl (hc : c.sound) {β : Type} {l : List β} {f : Ctx → β → Ctx} (hf : ∀ c x, c.sound → (f c x).sound) :
    (l.foldl f c).sound := by
  induction l generalizing c with
  | nil => exact hc
  | cons x l ih => exact ih (hf c x hc)

theorem Ctx.sound.restored (hc : c.sound) {lc ec rb streams bufs oqs work busy} :
    Ctx.sound { c with lc := lc, ec := ec, rb := rb, streams := streams, bufs := bufs, oqs := oqs, work := work, busy := busy } := hc

theorem CoreSt.sound.setQueue (hk : k.sound) {q : Nat} {l : List Cmd} : (setQueue k q l).sound := by
  unfold Machine.setQueue
  split <;> exact hk

/-! ## What a sound state holds, and what is put into it -/

theorem State.sound.mem (h : s.sound) : s.mem.wf = true := h.1.1

theorem State.sound.hostMem (h : s.sound) : s.hostMem.wf = true := by
  obtain ⟨⟨-, hh, -⟩, -⟩ := h
  exact hh

theorem State.sound.window (h : s.sound) : s.window.wf = true := by
  obtain ⟨⟨-, -, hw, -⟩, -⟩ := h
  exact hw

theorem State.sound.of_mem_units (h : s.sound) {u : Nat × Ctx} (hu : u ∈ s.units) : u.2.sound := by
  obtain ⟨⟨-, -, -, hus, -⟩, -⟩ := h
  exact hus u hu

theorem State.sound.of_cx (h : s.sound) (hc : s.cx = some c) : c.sound := by
  obtain ⟨⟨-, -, -, -, hx, -⟩, -⟩ := h
  exact hx c hc

theorem State.sound.of_mem_cores (h : s.sound) {k : Nat × CoreSt} (hk : k ∈ s.cores) : k.2.sound := by
  obtain ⟨⟨-, -, -, -, -, hks, -⟩, -⟩ := h
  exact hks k hk

theorem State.sound.of_incoming (h : s.sound) {vd : Nat} {x : Transfer} (hx : tget s.incoming vd = some x) :
    ∀ u ∈ x.units, u.sound := by
  obtain ⟨⟨-, -, -, -, -, -, hi⟩, -⟩ := h
  exact hi _ (mem_of_tget hx)

theorem State.sound.of_unitOf (h : s.sound) {u : Nat} (hc : unitOf s u = some c) : c.sound := by
  have hu : tget s.units u = some c → c.sound := fun ht => h.of_mem_units (mem_of_tget ht)
  unfold unitOf at hc
  split at hc
  · next x hx =>
    split at hc
    · cases hc
      exact h.of_cx hx
    · exact hu hc
  · exact hu hc

theorem State.sound.coreOf (h : s.sound) (n : Nat) : (coreOf s n).sound := by
  unfold Machine.coreOf
  cases hk : tget s.cores n with
  | none => rfl
  | some k => exact h.of_mem_cores (mem_of_tget hk)

theorem State.sound.withCx (h : s.sound) (hc : c.sound) {c' : Ctx} (e : c'.bank = c.bank := by exact rfl) :
    State.sound { s with cx := some c' } := by
  obtain ⟨⟨hm, hh, hw, hu, -, hk, hi⟩, hn⟩ := h
  exact ⟨⟨hm, hh, hw, hu, fun _ he => Option.some.inj he ▸ (congrArg Mem.wf e).trans hc, hk, hi⟩, hn⟩

theorem State.sound.tsetUnits (h : s.sound) (hc : c.sound) : State.sound { s with units := tset s.units c.uid c } := by
  obtain ⟨⟨hm, hh, hw, hu, hx, hk, hi⟩, hn⟩ := h
  exact ⟨⟨hm, hh, hw, fun u e => (mem_tset e).elim (fun e => e ▸ hc) (hu u), hx, hk, hi⟩,
    fun u e => (mem_tset e).elim (fun e => e ▸ rfl) (hn u)⟩

theorem State.sound.setUnit (h : s.sound) (hc : c.sound) {c' : Ctx} (e : c'.bank = c.bank := by exact rfl) : (setUnit s c').sound := by
  have hc' : c'.sound := (congrArg Mem.wf e).trans hc
  unfold Machine.setUnit
  split
  · split
    · exact h.withCx hc'
    · exact h.tsetUnits hc'
  · exact h.tsetUnits hc'

theorem State.sound.modUnit (h : s.sound) {u : Nat} {f : Ctx → Ctx} (hf : ∀ c, c.sound → (f c).sound := by exact fun _ hc => hc) :
    (modUnit s u f).sound := by
  unfold Machine.modUnit
  split
  · next c hc => exact h.setUnit (hf c (h.of_unitOf hc))
  · exact h

theorem State.sound.modCore (h : s.sound) {n : Nat} {f : CoreSt → CoreSt} (hf : ∀ k, k.sound → (f k).sound := by exact fun _ hk => hk) :
    (modCore s n f).sound := by
  obtain ⟨⟨hm, hh, hw, hu, hx, hk, hi⟩, hn⟩ := id h
  exact ⟨⟨hm, hh, hw, hu, hx, fun k e => (mem_tset e).elim (fun e => e ▸ hf _ (h.coreOf n)) (hk k), hi⟩, hn⟩

theorem State.sound.modDie (h : s.sound) {n : Nat} {f : DieSt → DieSt} : (modDie s n f).sound := h
theorem State.sound.modEng (h : s.sound) {n : Nat} {f : CopyEng → CopyEng} : (modEng s n f).sound := h
theorem State.sound.modVd (h : s.sound) {n : Nat} {f : VDev → VDev} : (modVd s n f).sound := h
theorem State.sound.modRent (h : s.sound) {n : Nat} {f : Rent → Rent} : (modRent s n f).sound := h
theorem State.sound.modTeam (h : s.sound) {n : Nat} {f : Team → Team} : (modTeam s n f).sound := h
theorem State.sound.modLaunch (h : s.sound) {n : Nat} {f : Launch → Launch} : (modLaunch s n f).sound := h
theorem State.sound.sched (h : s.sound) {d t p u o : Nat} {a : Act} : (sched s d t p u o a).sound := h
theorem State.sound.schedC (h : s.sound) {c : Ctx} {t p : Nat} {a : Act} : (schedC s c t p a).sound := h
theorem State.sound.schedCmd (h : s.sound) {k : Cmd} {t p : Nat} {e : Eff} : (schedCmd s k t p e).sound := h
theorem State.sound.schedNewel (h : s.sound) {d : Nat} {i : Instr} : (schedNewel s d i).sound := h

theorem State.sound.foldl (h : s.sound) {β : Type} {l : List β} {f : State → β → State} (hf : ∀ s x, s.sound → (f s x).sound) :
    (l.foldl f s).sound := by
  induction l generalizing s with
  | nil => exact h
  | cons x l ih => exact ih (hf s x h)

theorem State.sound.ite (h : s.sound) (h' : t.sound) {p : Prop} [Decidable p] : (if p then s else t).sound := by
  split
  · exact h
  · exact h'

theorem State.sound.withClock (h : s.sound) {x} : State.sound { s with clock := x } := h
theorem State.sound.withDies (h : s.sound) {x} : State.sound { s with dies := x } := h
theorem State.sound.withEngines (h : s.sound) {x} : State.sound { s with engines := x } := h
theorem State.sound.withRents (h : s.sound) {x} : State.sound { s with rents := x } := h
theorem State.sound.withMoved (h : s.sound) {x} : State.sound { s with moved := x } := h
theorem State.sound.withMemPoison (h : s.sound) {x} : State.sound { s with memPoison := x } := h
theorem State.sound.withWords (h : s.sound) {x} : State.sound { s with words := x } := h
theorem State.sound.withTargets (h : s.sound) {x} : State.sound { s with targets := x } := h
theorem State.sound.withHist (h : s.sound) {x} : State.sound { s with hist := x } := h
theorem State.sound.withLandings (h : s.sound) {x} : State.sound { s with landings := x } := h
theorem State.sound.withScrub (h : s.sound) {x} : State.sound { s with scrub := x } := h
theorem State.sound.withRetiring (h : s.sound) {x} : State.sound { s with retiring := x } := h
theorem State.sound.withUpsets (h : s.sound) {x} : State.sound { s with upsets := x } := h
theorem State.sound.withLate (h : s.sound) {x} : State.sound { s with late := x } := h
theorem State.sound.withTeams (h : s.sound) {x} : State.sound { s with teams := x } := h
theorem State.sound.withLaunches (h : s.sound) {x} : State.sound { s with launches := x } := h
theorem State.sound.withOutgoing (h : s.sound) {x} : State.sound { s with outgoing := x } := h
theorem State.sound.withKicks (h : s.sound) {x} : State.sound { s with kicks := x } := h
theorem State.sound.withVectors (h : s.sound) {x} : State.sound { s with vectors := x } := h
theorem State.sound.withNewel (h : s.sound) {x} : State.sound { s with newel := x } := h
theorem State.sound.withBoot (h : s.sound) {x} : State.sound { s with boot := x } := h
theorem State.sound.withLinks (h : s.sound) {x} : State.sound { s with links := x } := h
theorem State.sound.withLogs (h : s.sound) {x} : State.sound { s with logs := x } := h
theorem State.sound.withAgenda (h : s.sound) {x} : State.sound { s with agenda := x } := h
theorem State.sound.withInputs (h : s.sound) {x} : State.sound { s with inputs := x } := h
theorem State.sound.withNextId (h : s.sound) {x} : State.sound { s with nextId := x } := h
theorem State.sound.withFree (h : s.sound) {x} : State.sound { s with free := x } := h

theorem State.sound.withMem (h : s.sound) {m : Mem} (hm : m.wf = true) : State.sound { s with mem := m } := by
  obtain ⟨⟨-, hrest⟩, hn⟩ := h
  exact ⟨⟨hm, hrest⟩, hn⟩

theorem State.sound.withHostMem (h : s.sound) {m : Mem} (hm : m.wf = true) : State.sound { s with hostMem := m } := by
  obtain ⟨⟨h₁, -, hrest⟩, hn⟩ := h
  exact ⟨⟨h₁, hm, hrest⟩, hn⟩

theorem State.sound.withWindow (h : s.sound) {m : Mem} (hm : m.wf = true) : State.sound { s with window := m } := by
  obtain ⟨⟨h₁, h₂, -, hrest⟩, hn⟩ := h
  exact ⟨⟨h₁, h₂, hm, hrest⟩, hn⟩

/-! ## Writes of storage and synchronisation words -/

theorem State.sound.meetLandings (h : s.sound) {c : Ctx} : (meetLandings s c).sound := h.withLandings.foldl fun _ _ h => h.withFree.schedC

theorem State.sound.setDirty (h : s.sound) {l : List (Nat × Nat)} : (setDirty s l).sound := h.foldl fun _ _ h => h.modVd

theorem State.sound.writeSpace (h : s.sound) {sp off : Nat} {bs : List Byte} {ps : List Nat} {tk : Nat} {l : Option Nat} :
    (writeSpace s sp off bs ps tk l).sound := by
  unfold Machine.writeSpace
  extract_lets
  refine setDirty ?_
  exact h.withMem (wf_writeRun _ _ _ h.mem)

theorem State.sound.writeHost (h : s.sound) {off : Nat} {bs : List Byte} {ps : List Nat} {tk : Nat} {l : Option Nat} :
    (writeHost s off bs ps tk l).sound := by
  unfold Machine.writeHost
  extract_lets
  refine setDirty ?_
  exact h.withHostMem (wf_writeRun _ _ _ h.hostMem)

theorem State.sound.putWord (h : s.sound) {sp off : Nat} {w : SyncWord} {tk : Nat} : (putWord s sp off w tk).sound := h.writeSpace
theorem State.sound.touchWord (h : s.sound) {sp off : Nat} {w : SyncWord} {tk : Nat} : (touchWord s sp off w tk).sound := h.putWord.withHist

theorem State.sound.releaseWaiters (h : s.sound) {sp off : Nat} {k : SyncKind} {st d : Nat} : (releaseWaiters s sp off k st d).sound :=
  h.foldl fun _ _ h => h.schedC

theorem State.sound.setReached (h : s.sound) {sp off tk : Nat} : (setReached s sp off tk).sound :=
  (h.touchWord.withLate.foldl fun _ _ h => h.modUnit).releaseWaiters

theorem State.sound.reachWord (h : s.sound) {sp off tk : Nat} : (reachWord s sp off tk).sound := h.ite h.setReached
theorem State.sound.armWord (h : s.sound) {sp off tk : Nat} : (armWord s sp off tk).sound := h.touchWord.reachWord
theorem State.sound.meetWord (h : s.sound) {sp off tk : Nat} : (meetWord s sp off tk).sound := h.ite h.withWords.armWord
theorem State.sound.armStored (h : s.sound) {sp off n tk : Nat} : (armStored s sp off n tk).sound := h.foldl fun _ _ h => h.armWord
theorem State.sound.countWord (h : s.sound) {sp off n tk : Nat} : (countWord s sp off n tk).sound :=
  h.meetWord.ite h.meetWord.touchWord.reachWord

/-! ## Logs -/

theorem State.sound.logRel (h : s.sound) {tk core cls src out vd info seq q : Nat} : (logRel s tk core cls src out vd info seq q).sound := h
theorem State.sound.logFault (h : s.sound) {tk src cause vd ctx core : Nat} {i v : Word} {seq q : Nat} :
    (logFault s tk src cause vd ctx core i v seq q).sound := h

theorem State.sound.truncate (h : s.sound) {uid seq tag kind unit mir landed tick : Nat} {a : Word} :
    (truncate s uid seq tag kind unit mir landed tick a).sound := by
  unfold Machine.truncate
  split
  · exact h
  · exact (h.writeSpace.writeSpace.ite h).modUnit.modLaunch.withLogs

theorem State.sound.truncBoth (h : s.sound) {uid seq tag kind unit mir landed tick : Nat} {a : Word} {l : Option Nat} :
    (truncBoth s uid seq tag kind unit mir landed tick a l).sound := by
  unfold Machine.truncBoth
  extract_lets s'
  split
  · exact h.truncate
  · split
    · exact h.truncate.truncate
    · exact h.truncate

/-! ## Commands of a context -/

theorem State.sound.dropOwned (h : s.sound) {l : List Nat} : (dropOwned s l).sound := h
theorem State.sound.dropCmds (h : s.sound) {n : Nat} {f : Cmd → Bool} : (dropCmds s n f).sound := h.modCore
theorem State.sound.dropFar (h : s.sound) {f : Cmd → Bool} : (dropFar s f).sound := h
theorem State.sound.holdCmds (h : s.sound) {c : Ctx} : (holdCmds s c).sound := h.dropCmds.dropFar.modUnit
theorem State.sound.returnHeld (h : s.sound) {c : Ctx} {d : Nat} {f : Cmd → Bool} : (returnHeld s c d f).sound := h.modCore.modDie.modEng.modUnit
theorem State.sound.returnCmds (h : s.sound) {c : Ctx} {d : Nat} : (returnCmds s c d).sound := h.returnHeld
theorem State.sound.stopStarted (h : s.sound) {c : Ctx} {t : Nat} : (stopStarted s c t).sound := h.dropOwned.dropCmds.modUnit
theorem State.sound.cancelFrom (h : s.sound) {c : Ctx} {n : Nat} : (cancelFrom s c n).sound :=
  h.dropOwned.withAgenda.withAgenda.dropCmds.withDies.modUnit

theorem State.sound.dropCopies (h : s.sound) {f : Cmd → Bool} : (dropCopies s f).sound := by
  unfold Machine.dropCopies
  extract_lets all ids on s₁ links keep s₂
  have h₂ : s₂.sound := h
  refine h₂.foldl fun s x h => ?_
  split
  · exact h.sched.ite h
  · exact h

theorem State.sound.cancelCopies (h : s.sound) {c : Ctx} {n : Nat} : (cancelCopies s c n).sound := h.dropCopies
theorem State.sound.cancelAllCopies (h : s.sound) {c : Ctx} {n : Nat} : (cancelAllCopies s c n).sound := h.dropCopies

theorem State.sound.restoreSnap (h : s.sound) {c : Ctx} {n : Snapshot} {t : Nat} : (restoreSnap s c n t).sound := by
  unfold Machine.restoreSnap
  refine State.sound.modUnit ?_ fun c hc => Ctx.sound.restored (Ctx.sound.foldl (Ctx.sound.foldl hc ?_) ?_)
  · exact h.foldl fun _ _ h => h.ite h.writeSpace
  · exact fun _ _ hc => hc.wrPhys
  · exact fun _ _ hc => hc.wrPhysP

theorem State.sound.abandon (h : s.sound) {u : Nat} : (abandon s u).sound := by
  unfold Machine.abandon
  split
  · exact h
  · split
    · exact h
    · exact h.cancelFrom.cancelCopies.restoreSnap.withAgenda.modUnit

/-! ## Faults, traps and the return -/

theorem State.sound.putPageRequest (h : s.sound) {vd : Nat} {e : Nat × Nat × Nat} : (putPageRequest s vd e).sound :=
  h.modVd.ite (h.modVd.withVectors.ite h.modVd)

theorem State.sound.postPageRequest (h : s.sound) {vd p seq q : Nat} : (postPageRequest s vd p seq q).sound := h.ite h.modVd.putPageRequest

theorem State.sound.settle (h : s.sound) {t : Trap} : (settle s t).2.sound := by
  unfold Machine.settle
  split
  · exact h.withFree
  · exact h

theorem State.sound.toMonitor (h : s.sound) {c : Ctx} {t : Trap} : (toMonitor s c t).sound := by
  unfold Machine.toMonitor
  split
  next t' s' he =>
  have h' : s'.sound := by simpa [he] using h.settle (t := t)
  extract_lets l s₁ s₂ s₃ s₄
  have h₂ : s₂.sound := h'.logFault.modUnit
  refine h₂.ite ?_
  split
  · split
    · exact h₂.modLaunch.holdCmds.stopStarted
    · exact h₂.modLaunch.holdCmds
  · exact h₂.modLaunch.sched

theorem State.sound.enterHandler (h : s.sound) {c : Ctx} {n : Nat} {v i e : Word} : (enterHandler s c n v i e).sound := h.holdCmds.modUnit

theorem State.sound.unwind (h : s.sound) {c : Ctx} {t : Trap} {e : Word} : (unwind s c t e).sound := by
  unfold Machine.unwind
  split
  · exact h
  · exact (h.abandon.ite h.cancelFrom.cancelAllCopies.modUnit).modUnit

theorem State.sound.takeFault (h : s.sound) {u : Nat} {t : Trap} {e : Word} : (takeFault s u t e).sound := by
  unfold Machine.takeFault
  split
  · exact h
  next c _ =>
  split
  next t' s' he =>
  have h' : s'.sound := by simpa [he] using h.settle (t := t)
  extract_lets contain l s₁
  exact h'.enterHandler.ite (h'.unwind.ite (h'.modUnit.putPageRequest.ite h'.modUnit.toMonitor))

theorem State.sound.leaveHandler (h : s.sound) (hc : c.sound) : (leaveHandler s c).sound := by
  unfold Machine.leaveHandler
  extract_lets c'
  have hc' : c'.sound := hc
  exact (h.setUnit hc').returnCmds

theorem State.sound.returnTrap (h : s.sound) (hc : c.sound) : (returnTrap s c).sound := (h.leaveHandler hc).modUnit

/-! ## Core instructions -/

theorem State.sound.onCore (h : s.sound) {bits : List Nat} {f : State → Ctx → Res State} (hf : ∀ c, c.sound → (f s c).sound) :
    (onCore bits f s).sound := by
  unfold Machine.onCore
  split
  · trivial
  next c hc =>
  split
  · exact h.takeFault
  · have hr := hf c (h.of_cx hc)
    split
    · exact h.takeFault
    next s' he =>
      rw [he] at hr
      exact hr

theorem State.sound.goOn (h : s.sound) (hc : c.sound) {c' : Ctx} {n k : Nat} (e : c'.bank = c.bank := by exact rfl) :
    (goOn s c' n k).sound := h.withCx hc e

theorem State.sound.later (h : s.sound) (hc : c.sound) {n k : Nat} {v : Word} : (later s c n k v).1.sound ∧ (later s c n k v).2.sound := by
  unfold Machine.later
  extract_lets p
  split
  · exact ⟨h, hc⟩
  · exact ⟨h.schedC, hc⟩

theorem Res.sound.bind {α : Type} {x : Res α} {f : α → Res State} (hf : ∀ a, x = .ok a → Res.sound (f a)) : Res.sound (x >>= f) := by
  cases x with
  | error e => trivial
  | ok a => exact hf a rfl

theorem Res.sound.of_ok {r : Res State} (hr : Res.sound r) (e : r = .ok s) : s.sound := by
  rw [e] at hr
  exact hr

theorem Res.sound.ite {a b : Res State} {p : Prop} [Decidable p] (ha : Res.sound a) (hb : Res.sound b) : Res.sound (if p then a else b) := by
  split
  · exact ha
  · exact hb

theorem Ctx.sound.ite {c' : Ctx} (hc : c.sound) (hc' : c'.sound) {p : Prop} [Decidable p] : (if p then c else c').sound := by
  split
  · exact hc
  · exact hc'

/-! ## Scalar and predicate instructions -/

theorem State.sound.alu3 (h : s.sound) {f : Word → Word → Word} {d a b : Reg} : (alu3 f d a b s).sound :=
  h.onCore fun _ hc => h.goOn hc.wrS

theorem State.sound.alu2 (h : s.sound) {bit len : Nat} {f : Word → Word} {d a : Reg} : (alu2 bit f d a len s).sound :=
  h.onCore fun _ hc => h.goOn hc.wrS

theorem State.sound.mulDiv (h : s.sound) {k : Nat} {f : Word → Word → Word} {d a b : Reg} : (mulDiv k f d a b s).sound :=
  h.onCore fun _ hc => (h.later hc).1.goOn (h.later hc).2

theorem State.sound.funnel (h : s.sound) {f : Word → Word → Nat → Word} {d a b k : Reg} : (funnel f d a b k s).sound :=
  h.onCore fun _ hc => h.goOn hc.wrS

theorem State.sound.sptest (h : s.sound) {d a : Reg} : (execSptest d a s).sound := h.onCore fun _ hc => h.goOn hc.wrS

theorem State.sound.spcast (h : s.sound) {t : Window} {d a p : Reg} : (execSpcast t d a p s).sound :=
  h.onCore fun _ hc => h.goOn hc.wrS.wrP

theorem State.sound.insertField (h : s.sound) {p l len : Nat} {d a : Reg} : (insertField p l len d a s).sound :=
  h.onCore fun _ hc => h.goOn hc.wrS

theorem State.sound.pred3 (h : s.sound) {f : Word → Word → Word} {pd pa pb : PReg} : (pred3 f pd pa pb s).sound :=
  h.onCore fun _ hc => h.goOn hc.wrP

theorem State.sound.psetl (h : s.sound) {pd : PReg} {i : BitVec 32} : (execPsetl pd i s).sound := h.onCore fun _ hc => h.goOn hc.wrP
theorem State.sound.pseth (h : s.sound) {pd : PReg} {i : BitVec 32} : (execPseth pd i s).sound := h.onCore fun _ hc => h.goOn hc.wrP
theorem State.sound.pget (h : s.sound) {d : Reg} {pa : PReg} : (execPget d pa s).sound := h.onCore fun _ hc => h.goOn hc.wrS
theorem State.sound.pput (h : s.sound) {pd : PReg} {a : Reg} : (execPput pd a s).sound := h.onCore fun _ hc => h.goOn hc.wrP

/-! ## Flights and landings -/

theorem Ctx.sound.discard (hc : c.sound) : c.discard.sound := by
  unfold Ctx.discard
  split
  · exact hc
  · exact hc

theorem Ctx.sound.split (hc : c.sound) (e : Nat) : (c.split e).2.sound := hc.discard

theorem State.sound.landTick (h : s.sound) {c : Ctx} {sc : Scope} {fl : List FByte} {e : Nat} : (landTick s c sc fl e).2.sound := by
  unfold Machine.landTick
  extract_lets t
  split
  · exact h.withFree
  · exact h

theorem State.sound.storeSpace (h : s.sound) {sp off : Nat} {bs : List Byte} {t : Nat} {l : Option Nat} :
    (storeSpace s sp off bs t l).sound := h.writeSpace.armStored

theorem State.sound.markWord (h : s.sound) {sp off : Nat} : (markWord s sp off).sound := h

theorem State.sound.storePlace (h : s.sound) {p : Place} {bs : List Byte} {bad : Bool} {t : Nat} {l : Option Nat} :
    (storePlace s p bs bad t l).sound := by
  have h₁ := (h.writeHost (off := p.off) (bs := bs) (ps := []) (tk := t) (l := l)).ite (p := p.host = true)
    (h.storeSpace (sp := p.space) (off := p.off) (bs := bs) (t := t) (l := l))
  exact h₁.markWord.ite h₁

theorem State.sound.seenLater (h : s.sound) {us : List Ctx} {i : Nat} :
    (us.foldl (fun s u =>
      let (d, s) := openTicks s
      Machine.schedC s u (tickOf s u + d) 4 (.ins (.storeBecomesVisible i u.uid))) s).sound :=
  h.foldl fun _ _ h => h.withFree.schedC

theorem State.sound.performLanding (h : s.sound) {uid : Nat} {sc : Scope} {bytes : List FByte} {t : Nat} :
    (performLanding s uid sc bytes t).2.2.sound := by
  unfold Machine.performLanding
  split
  · exact h
  next c _ =>
    extract_lets tagged lost kept i incl s₁ host s₂ runs s₃ s₄ s₅ out s₆
    have h₁ : s₁.sound := h
    have h₂ : s₂.sound := h₁.foldl fun _ _ h => h.writeHost
    have h₃ : s₃.sound := h₂.foldl fun _ _ h => h.storeSpace
    have h₄ : s₄.sound := h₃.foldl fun _ _ h => h.markWord
    have h₅ : s₅.sound := h₄.modUnit
    exact h₅.ite h₅.seenLater

theorem State.sound.storeBecomesVisible (h : s.sound) {l uid : Nat} : (execStoreBecomesVisible l uid s).sound := by
  unfold execStoreBecomesVisible
  split
  · exact h
  · exact h.withLandings

theorem State.sound.releaseAt (h : s.sound) (hc : c.sound) {p : Place} {o : SyncOp} {e : Nat} {r : Nat × State × Ctx}
    (hr : releaseAt s c p o e = r) : r.2.1.sound ∧ r.2.2.sound := hr ▸ ⟨h.landTick.schedC, hc.split e⟩

theorem State.sound.landAt (h : s.sound) (hc : c.sound) {sc : Scope} {e : Nat} {r : Nat × State × Ctx}
    (hr : landAt s c sc e = r) : r.2.1.sound ∧ r.2.2.sound := hr ▸ ⟨h.landTick.schedC, hc.split e⟩

/-! ## Barriers and waits -/

theorem State.sound.acquire (h : s.sound) {uid t : Nat} : (acquire s uid t).sound := h.modUnit
theorem State.sound.dropHeld (h : s.sound) {uid a w : Nat} : (dropHeld s uid a w).sound := h.modUnit
theorem State.sound.resultIn (h : s.sound) {c : Ctx} {o : SyncOp} {v : Word} {t : Nat} : (resultIn s c o v t).sound := h.schedC

theorem State.sound.meetBarrier (h : s.sound) {sp off t : Nat} : (meetBarrier s sp off t).sound := by
  unfold Machine.meetBarrier
  split
  · exact h
  · exact h.withWords.touchWord

theorem State.sound.completeGen (h : s.sound) {sp off : Nat} {w : SyncWord} {t : Nat} : (completeGen s sp off w t).sound :=
  h.putWord.releaseWaiters

theorem State.sound.arriveAt (h : s.sound) {c : Ctx} {sp off a t : Nat} : (arriveAt s c sp off a t).sound :=
  h.ite (h.modUnit.completeGen.ite h.modUnit.putWord)

theorem State.sound.dropAt (h : s.sound) {uid sp off a t : Nat} : (dropAt s uid sp off a t).sound :=
  h.modUnit.completeGen.ite h.modUnit.putWord

theorem State.sound.barrierAt (h : s.sound) {c : Ctx} {o : SyncOp} {t : Nat} : (barrierAt s c o t).sound := by
  unfold Machine.barrierAt
  split
  · exact h
  next p _ =>
    extract_lets s₁ gone w noReg
    have h₁ : s₁.sound := h.meetBarrier
    have hreg : (noReg s₁).sound := h₁.modUnit
    split
    · exact h₁.dropHeld.ite h₁.takeFault
    · exact (h₁.putWord.foldl fun _ _ h => h.modUnit).releaseWaiters
    · exact hreg.ite ((hreg.ite h₁).ite ((h₁.modUnit.ite h₁.takeFault).ite (h₁.arriveAt.dropAt.ite h₁.arriveAt)))

theorem State.sound.exitDrops (h : s.sound) {uid t : Nat} : (exitDrops s uid t).sound := by
  unfold Machine.exitDrops
  split
  · exact h
  · refine h.foldl fun s r h => ?_
    split
    · exact h
    · exact h.barrierAt

theorem State.sound.endWait (h : s.sound) {c : Ctx} {o : SyncOp} {st t : Nat} : (endWait s c o st t).sound :=
  (h.acquire.ite h).modUnit.resultIn

theorem State.sound.testWait (h : s.sound) {c : Ctx} {o : SyncOp} {t : Nat} : (testWait s c o t).sound := by
  unfold Machine.testWait
  split
  · exact h.takeFault
  · refine h.endWait.ite ?_
    split
    · exact h.takeFault
    · split
      · exact h.meetWord.endWait.ite h.meetWord.modUnit
      · extract_lets s₁
        have h₁ : s₁.sound := h.meetBarrier
        split
        · exact h₁.endWait
        · exact h₁.modUnit.ite h₁.endWait

theorem State.sound.waitRelease (h : s.sound) {uid st : Nat} : (execWaitRelease uid st s).sound := by
  unfold execWaitRelease
  split
  · exact h
  · split
    · exact h.endWait
    · exact h

theorem State.sound.noteTarget (h : s.sound) {p : Place} : (noteTarget s p).sound := h.ite h.withTargets

theorem State.sound.lapsedOp (h : s.sound) {uid : Nat} {o : SyncOp} {w : Nat} : (lapsedOp s uid o w).sound := h.dropHeld.ite h.takeFault

/-! ## Operations at a synchronisation engine -/

theorem State.sound.performSync (h : s.sound) {uid : Nat} {o : SyncOp} {t : Nat} : (performSync s uid o t).sound := by
  unfold Machine.performSync
  split
  · exact h
  · split
    · exact h.barrierAt
    · exact h.barrierAt
    · exact h.barrierAt
    · exact h.testWait.ite h
    · exact h.testWait.ite h
    · split
      · exact h.lapsedOp
      · split
        · exact h.lapsedOp
        · exact h.takeFault
        · extract_lets old s₁ s₂
          have h₂ : s₂.sound := by
            unfold s₂
            split
            · exact h.noteTarget.storePlace
            · exact h.noteTarget
          split
          · exact h.resultIn
          · exact h.acquire.resultIn
          · exact h.storePlace
          · exact h.storePlace
          · exact h₂.ite h₂.acquire.resultIn

theorem State.sound.performResult (h : s.sound) {uid : Nat} {o : SyncOp} {v : Word} : (performResult s uid o v).sound := by
  unfold Machine.performResult
  split
  · exact h
  next c hc =>
    have hs := h.of_unitOf hc
    split
    · exact (h.setUnit hs.wrPhys.wrPhysP).ite h
    · exact (h.setUnit hs.wrPhys.wrPhysP).ite h
    · exact h.setUnit hs.wrPhys

theorem State.sound.performLand (h : s.sound) {uid : Nat} {sc : Scope} {bytes : List FByte} {perf : Nat} {op : Option SyncOp} :
    (performLand s uid sc bytes perf op).sound := by
  unfold Machine.performLand
  split
  · exact h
  next c _ =>
    extract_lets t
    have hl := h.performLanding (uid := uid) (sc := sc) (bytes := bytes) (t := t)
    split
    next low n s₁ he =>
    rw [he] at hl
    split
    · exact hl
    · split
      · exact hl.truncBoth
      · exact hl.modUnit
    · exact hl.dropHeld.ite hl.takeFault
    · split
      · refine hl.schedC.ite ?_
        split
        · exact hl.takeFault
        · exact hl.storePlace
      · exact hl.dropHeld.ite hl.takeFault

theorem Ctx.sound.holdEffect (hc : c.sound) {o : SyncOp} {c' : Ctx} (h : holdEffect c o = .ok c') : c'.sound := by
  unfold Machine.holdEffect at h
  split at h
  · split at h
    · cases h
    · cases h
      exact hc
  · cases h
    exact hc

theorem State.sound.sendOp (h : s.sound) (hc : c.sound) {p : Place} {o : SyncOp} {e : Nat} {r : Nat × State × Ctx}
    (hr : sendOp s c p o e = r) : r.2.1.sound ∧ r.2.2.sound := hr ▸ ⟨h.schedC, hc⟩

theorem State.sound.barrierInstr (h : s.sound) {k : SyncKind} {sc : Scope} {a : Reg} {val : Ctx → Word} : (barrierInstr k sc a val s).sound := by
  refine h.onCore fun _ hc => Res.sound.bind fun p _ => Res.sound.ite trivial ?_
  extract_lets gone
  split
  · trivial
  · refine Res.sound.ite trivial ?_
    extract_lets
    refine Res.sound.ite (Res.sound.bind fun c' hc' => h.goOn (hc.holdEffect hc')) ?_
    split
    next he => exact (h.releaseAt hc he).1.goOn (h.releaseAt hc he).2

theorem State.sound.waitInstr (h : s.sound) {k : SyncKind} {b : Bool} {sc : Scope} {p d a : Reg} : (waitInstr k b sc p d a s).sound := by
  refine h.onCore fun _ hc => Res.sound.bind fun _ _ => ?_
  extract_lets o
  split
  next he => exact (h.sendOp hc he).1.withCx (h.sendOp hc he).2

/-! ## Branches, time and segments -/

theorem State.sound.transfer (h : s.sound) (hc : c.sound) {c' : Ctx} {t : Word} {k : Nat} (e : c'.bank = c.bank := by exact rfl) :
    (transfer s c' t k).sound := Res.sound.ite trivial (h.withCx hc e)

theorem State.sound.branch (h : s.sound) {k : Cond} {a : Reg} {off : Word} {len : Nat} : (branch k a off len s).sound :=
  h.onCore fun _ hc => (h.transfer hc).ite (h.goOn hc)

theorem State.sound.jump (h : s.sound) {off : Word} : (jump off s).sound := h.onCore fun _ hc => h.transfer hc

theorem State.sound.jumpLink (h : s.sound) {off : Word} : (jumpLink off s).sound := h.onCore fun _ hc => h.transfer (hc.wrS.ite hc)

theorem State.sound.jr (h : s.sound) {d a : Reg} : (execJr d a s).sound := h.onCore fun _ hc => h.transfer (hc.wrS.ite hc)

theorem State.sound.loopStep (h : s.sound) {off : Word} {len : Nat} : (loopStep off len s).sound :=
  h.onCore fun c hc => by
    have hb {l e r} : Ctx.sound { c with lc := l, ec := e, rb := r } := hc
    exact (h.transfer hb.wrP).ite ((h.transfer hb.wrP).ite (Res.sound.ite (h.goOn hb.wrP) (h.goOn hc)))

theorem State.sound.waitt (h : s.sound) {a : Reg} : (execWaitt a s).sound :=
  h.onCore fun _ hc => Res.sound.ite (h.goOn hc) (h.withCx hc).schedC

theorem State.sound.waittExpire (h : s.sound) {uid : Nat} : (execWaittExpire uid s).sound := by
  unfold execWaittExpire
  split
  · exact h
  next c hc =>
    split
    · split
      · exact h.setUnit (h.of_unitOf hc)
      · exact h
    · exact h

theorem State.sound.openSegment (h : s.sound) {b : Bool} : (openSegment b s).sound :=
  h.onCore fun _ hc => Res.sound.ite trivial (Res.sound.ite (h.withCx hc) (h.goOn hc))

theorem State.sound.gsyncArrived (h : s.sound) {d t : Nat} : (gsyncArrived s d t).sound := h.ite h.modTeam.sched

theorem State.sound.gsync (h : s.sound) {d : Reg} : (execGsync d s).sound :=
  h.onCore fun _ hc => Res.sound.ite trivial (h.withCx hc).modTeam.gsyncArrived

theorem State.sound.gsyncRelease (h : s.sound) {t : Nat} : (execGsyncRelease t s).sound := by
  unfold execGsyncRelease
  extract_lets m
  split
  · exact h
  · split
    · exact h
    · refine State.sound.foldl h.modTeam fun s u h => ?_
      split
      · exact h
      next c hc =>
        split
        next d _ =>
          extract_lets src s₁
          have h₁ : s₁.sound := h.setUnit (h.of_unitOf hc).wrPhys
          exact h₁.modCore.ite h₁.modCore
        · exact h

/-! ## System state, traps and hints -/

theorem Ctx.sound.writeSys (hc : c.sound) {n : SysName} {v : Word} : (writeSys c n v).sound := by
  cases n
  case stage => exact hc.foldl fun _ _ hc => hc.wrP
  all_goals exact hc

theorem State.sound.moveFromSys (h : s.sound) {d : Reg} {n : SysName} {len : Nat} : (moveFromSys d n len s).sound :=
  h.onCore fun _ hc => h.goOn hc.wrS

theorem State.sound.moveToSys (h : s.sound) {n : SysName} {a : Reg} {len : Nat} : (moveToSys n a len s).sound := by
  unfold Machine.moveToSys
  split
  · trivial
  · split
    · exact h.takeFault
    · exact h.onCore fun _ hc => Res.sound.ite trivial (h.goOn hc.writeSys)

theorem State.sound.trapTo (h : s.sound) {n : Nat} : (trapTo n s).sound :=
  h.onCore fun _ _ => Res.sound.ite h.enterHandler h.toMonitor

theorem State.sound.illegalEncoding (h : s.sound) : (execIllegalEncoding s).sound := by
  unfold execIllegalEncoding
  split
  · trivial
  · exact h.takeFault

theorem State.sound.ifence (h : s.sound) : (execIfence s).sound := h.onCore fun _ hc => h.modCore.goOn hc

theorem State.sound.codesync (h : s.sound) : (execCodesync s).sound :=
  h.onCore fun _ hc => Res.sound.ite (h.withFree.withCx hc).schedC (h.goOn hc)

theorem State.sound.mapCores (h : s.sound) {f : Nat × CoreSt → CoreSt} (hf : ∀ e ∈ s.cores, (f e).sound := by exact fun e he => h.of_mem_cores he) :
    State.sound { s with cores := s.cores.map (fun e => (e.1, f e)) } := by
  obtain ⟨⟨hm, hh, hw, hu, hx, -, hi⟩, hn⟩ := h
  refine ⟨⟨hm, hh, hw, hu, hx, fun k hk => ?_, hi⟩, hn⟩
  obtain ⟨e, he, rfl⟩ := List.mem_map.mp hk
  exact hf e he

theorem State.sound.codesyncComplete (h : s.sound) {uid : Nat} : (execCodesyncComplete uid s).sound := by
  unfold execCodesyncComplete
  split
  · exact h
  next c hc =>
    split
    · exact h
    · exact State.sound.setUnit (State.sound.mapCores h) (h.of_unitOf hc)

theorem State.sound.nop (h : s.sound) {b : BitVec 24} : (execNop b s).sound := h.onCore fun _ hc => h.goOn hc

end Sys2Proof.Machine
end

section
/-!
SUPPORT. Soundness of states: memory instructions, rent, interrupts and stops (O50).
-/
set_option Elab.async false
namespace Sys2Proof.Machine
open Sys2Proof Sys2Proof.Laws
variable {s t : State} {c : Ctx} {k : CoreSt}

/-! ## Loads, stores and atomics -/

theorem State.sound.countedTicks (h : s.sound) {b : Bool} : (countedTicks s b).2.sound := by
  unfold Machine.countedTicks
  split
  · exact h.withFree
  · exact h.withFree

theorem State.sound.countedLoad (h : s.sound) (hc : c.sound) {p : Place} {d : Nat} {v : Word} {r : State × Ctx}
    (hr : countedLoad s c p d v = r) : r.1.sound ∧ r.2.sound := by
  subst hr
  unfold Machine.countedLoad
  split
  next ld s₁ e₁ =>
  cases e₁
  have h₁ : State.sound { s with nextId := s.nextId + 1 } := h
  exact ⟨h₁.countedTicks.schedC, hc⟩

theorem State.sound.loadAt (h : s.sound) (hc : c.sound) {acq : Bool} {a : Word} {n : Nat} {sg : Bool} {d len : Nat} :
    (loadAt acq a n sg d len s c).sound := by
  refine Res.sound.bind fun p _ => ?_
  have hd := hc.discard
  extract_lets c₁ e engine _ o c₂ v
  refine Res.sound.bind fun _ _ => Res.sound.bind fun _ _ => Res.sound.ite ?_ (Res.sound.ite (h.withCx hd) ?_)
  · split
    next t s₂ c₂ he =>
    obtain ⟨h₂, hc₂⟩ := h.sendOp hd he
    extract_lets c₃
    have hc₃ : c₃.sound := hc₂
    refine h₂.goOn (Ctx.sound.ite ?_ hc₃)
    exact hc₃
  · have hc₂ : c₂.sound := by
      refine Ctx.sound.ite ?_ hd
      exact hd
    split
    · split
      next he => exact (h.countedLoad hc₂ he).1.goOn (h.countedLoad hc₂ he).2
    · exact (h.later hc₂).1.goOn (h.later hc₂).2

theorem Ctx.sound.flightStore (hc : c.sound) {c' : Ctx} {p : Place} {a : Word} {bs : List Byte} {ps : List Nat}
    (he : flightStore s c p a bs ps = .ok c') : c'.sound := by
  unfold Machine.flightStore at he
  extract_lets t fl new at he
  split at he
  · cases he
  · cases he
    exact hc

theorem State.sound.storeAt (h : s.sound) (hc : c.sound) {a : Word} {n : Nat} {v : Word} {bad : Bool} {len : Nat} :
    (storeAt a n v bad len s c).sound := by
  refine Res.sound.bind fun p _ => ?_
  extract_lets bs
  refine Res.sound.ite ?_ (Res.sound.ite ?_ (h.schedC.goOn hc))
  · extract_lets
    refine Res.sound.ite (Res.sound.bind fun c' hc' => h.goOn (hc.holdEffect hc')) ?_
    split
    next he => exact (h.sendOp hc he).1.goOn (h.sendOp hc he).2
  · exact Res.sound.bind fun c' hc' => h.goOn (hc.flightStore hc')

theorem State.sound.performStore (h : s.sound) {uid loc : Nat} {bs : List Byte} {ps : List Nat} : (performStore s uid loc bs ps).sound := by
  unfold Machine.performStore
  split
  · exact h
  · exact h.storeSpace.foldl fun _ _ h => h.markWord

theorem State.sound.loadInstr (h : s.sound) {n : Nat} {sg : Bool} {len : Nat} {d a : Reg} {off : Word} : (loadInstr n sg len d a off s).sound :=
  h.onCore fun _ hc => h.loadAt hc

theorem State.sound.storeInstr (h : s.sound) {n len : Nat} {d a : Reg} {off : Word} : (storeInstr n len d a off s).sound :=
  h.onCore fun _ hc => h.storeAt hc

theorem State.sound.takeLine (h : s.sound) {core line : Nat} : (takeLine s core line).sound := h.modCore.withMemPoison

theorem State.sound.prefetch (h : s.sound) {a : Reg} {off : Word} {len : Nat} : (prefetch a off len s).sound :=
  h.onCore fun c hc => by
    split
    · exact h.goOn hc
    · exact Res.sound.ite (h.takeLine.goOn hc) (h.goOn hc)

theorem State.sound.loadElem (h : s.sound) {d : Reg} {g i len : Nat} : (loadElem d g i len s).sound :=
  h.onCore fun _ hc => Res.sound.bind fun _ _ => h.loadAt hc

theorem State.sound.storeElem (h : s.sound) {d : Reg} {g i len : Nat} : (storeElem d g i len s).sound :=
  h.onCore fun _ hc => Res.sound.bind fun _ _ => h.storeAt hc

theorem State.sound.land (h : s.sound) {sc : Scope} : (execLand sc s).sound := by
  refine h.onCore fun _ hc => Res.sound.ite trivial ?_
  split
  next he =>
    obtain ⟨h₁, hc₁⟩ := h.landAt hc he
    exact (h₁.withCx hc₁).schedC

theorem State.sound.landComplete (h : s.sound) {uid : Nat} : (execLandComplete uid s).sound := by
  unfold execLandComplete
  split
  · exact h
  next c hc =>
    split
    · split
      · exact h
      · extract_lets src c'
        split
        · exact (h.setUnit (h.of_unitOf hc)).takeFault
        · exact h.setUnit (h.of_unitOf hc)
    · exact h

theorem State.sound.lda (h : s.sound) {t : IntTy} {sc : Scope} {d a : Reg} {i : BitVec 32} : (execLda t sc d a i s).sound :=
  h.onCore fun _ hc => h.loadAt hc

theorem State.sound.strel (h : s.sound) {t : IntTy} {sc : Scope} {d a : Reg} {i : BitVec 32} : (execStrel t sc d a i s).sound := by
  refine h.onCore fun c hc => Res.sound.ite trivial (Res.sound.bind fun p _ => ?_)
  extract_lets o
  refine Res.sound.ite ?_ ?_
  · split
    next he => exact (h.releaseAt hc he).1.goOn (h.releaseAt hc he).2
  · exact h.landTick.schedC.goOn (hc.split (tickOf s c))

theorem State.sound.atomicInstr (h : s.sound) {k : SyncKind} {t : AmoTy} {sc : Scope} {d a b e : Reg} : (atomicInstr k t sc d a b e s).sound := by
  refine h.onCore fun c hc => Res.sound.ite trivial (Res.sound.bind fun p _ => Res.sound.bind fun _ _ => ?_)
  extract_lets o
  refine Res.sound.ite (Res.sound.bind fun c' hc' => h.goOn (hc.holdEffect hc')) ?_
  split
  next tp s₁ c₁ he =>
  obtain ⟨h₁, hc₁⟩ := h.releaseAt hc he
  refine Res.sound.bind fun _ _ => h₁.goOn (Ctx.sound.ite hc₁ ?_)
  exact hc₁

/-! ## Buffers and residency -/

theorem State.sound.bufferAt (h : s.sound) (hc : c.sound) {n : Nat} {op : BufOp} : (bufferAt s c n op).sound := h.schedC.goOn hc

theorem State.sound.bdecl (h : s.sound) {a b : Reg} : (execBdecl a b s).sound := by
  refine h.onCore fun c hc => Res.sound.bind fun e _ => Res.sound.ite trivial (Res.sound.ite (h.bufferAt hc) ?_)
  split
  · trivial
  · exact Res.sound.bind fun _ _ => h.bufferAt hc

theorem State.sound.acquireBuffer (h : s.sound) {need next : Nat} {a : Reg} : (acquireBuffer need next a s).sound :=
  h.onCore fun _ hc => Res.sound.bind fun _ _ => Res.sound.ite trivial (Res.sound.bind fun _ _ => Res.sound.ite trivial (h.bufferAt hc))

theorem State.sound.brel (h : s.sound) {a : Reg} : (execBrel a s).sound :=
  h.onCore fun _ hc => Res.sound.bind fun _ _ => Res.sound.ite (h.goOn hc)
    (Res.sound.bind fun _ _ => Res.sound.ite (h.goOn hc) (Res.sound.ite trivial (h.bufferAt hc)))

theorem State.sound.bstat (h : s.sound) {d a : Reg} : (execBstat d a s).sound :=
  h.onCore fun _ hc => Res.sound.bind fun _ _ => (h.later hc).1.goOn (h.later hc).2

theorem CoreSt.sound.foldl (hk : k.sound) {β : Type} {l : List β} {f : CoreSt → β → CoreSt} (hf : ∀ k x, k.sound → (f k x).sound) :
    (l.foldl f k).sound := by
  induction l generalizing k with
  | nil => exact hk
  | cons x l ih => exact ih (hf k x hk)

theorem CoreSt.sound.modEntry (hk : k.sound) {b : Nat} {f : ResEntry → ResEntry} : (modEntry k b f).sound := hk

theorem State.sound.emptySlot (h : s.sound) {core p : Nat} : (emptySlot s core p).sound :=
  h.modCore fun _ hk => CoreSt.sound.foldl hk fun _ _ hk => hk.modEntry

theorem State.sound.mapUnits (h : s.sound) {f : Nat × Ctx → Nat × Ctx}
    (hf : ∀ e, (f e).1 = e.1 ∧ (f e).2.uid = e.2.uid ∧ (f e).2.bank = e.2.bank) : State.sound { s with units := s.units.map f } := by
  obtain ⟨⟨hm, hh, hw, hu, hx, hk, hi⟩, hn⟩ := h
  refine ⟨⟨hm, hh, hw, ?_, hx, hk, hi⟩, ?_⟩ <;> refine List.forall_mem_map.mpr fun e he => ?_ <;> obtain ⟨h1, h2, h3⟩ := hf e
  · exact h3 ▸ hu e he
  · exact h2.trans ((hn e he).trans h1.symm)

theorem State.sound.clearContext (h : s.sound) {core ctx : Nat} : (clearContext s core ctx).sound := by
  unfold Machine.clearContext
  extract_lets s₁
  have h₁ : s₁.sound := h.mapUnits fun e => by split <;> exact ⟨rfl, rfl, rfl⟩
  exact h₁.modCore fun _ hk => CoreSt.sound.foldl hk fun _ _ hk => hk.modEntry

/-! ## Rent: entries and storage that goes -/

theorem Out.sound.ite {a b : Out} {p : Prop} [Decidable p] (ha : Out.sound a) (hb : Out.sound b) : Out.sound (if p then a else b) := by
  split
  · exact ha
  · exact hb

theorem State.sound.poke (h : s.sound) : (poke s).sound := h.ite h.schedNewel
theorem State.sound.refund (h : s.sound) {vd n : Nat} : (refund s vd n).sound := h.modVd

theorem State.sound.charge (h : s.sound) {vd n : Nat} (e : charge s vd n = some t) : t.sound := by
  unfold Machine.charge at e
  split at e
  · cases e
  · cases e
    exact h.modVd

theorem State.sound.freeEntry (h : s.sound) {die table ref : Nat} (e : freeEntry s die table = some (ref, t)) : t.sound := by
  unfold Machine.freeEntry at e
  extract_lets used at e
  split at e
  next k s₁ he =>
  cases he
  split at e
  · cases e
  · obtain ⟨i, -, hi⟩ := Option.map_eq_some_iff.mp e
    cases hi
    exact h.withFree

theorem State.sound.schedRent (h : s.sound) {ref : Nat} : (schedRent s ref).sound := by
  have hat {n ph : Nat} {i : Instr} : (if n < never then Machine.sched s (refDie ref) n ph 0 0 (.ins i) else s).sound := h.sched.ite h
  exact (hat.ite hat).ite (hat.ite h)

theorem State.sound.freezeRange (h : s.sound) {sp a b t : Nat} : (freezeRange s sp a b t).sound :=
  h.withWords.foldl fun _ _ h => h.touchWord.releaseWaiters.releaseWaiters

theorem State.sound.dropSpace (h : s.sound) {sp : Nat} : (dropSpace s sp).sound := h.withMem (wf_filter _ _ h.mem)

theorem State.sound.unmap (h : s.sound) {ref : Nat} : (unmap s ref).sound := by
  unfold Machine.unmap
  extract_lets s₁ s₂
  have h₂ : s₂.sound := h
  exact h₂.foldl fun _ _ h => h.modUnit

theorem State.sound.freeRent (h : s.sound) {ref : Nat} : (freeRent s ref).sound := by
  unfold Machine.freeRent
  extract_lets s₁
  have h₁ : s₁.sound := h.unmap.dropSpace
  exact h₁

theorem State.sound.markAll (h : s.sound) {r : Rent} : (markAll s r).sound := h

theorem State.sound.schedScrub (h : s.sound) {ref : Nat} : (schedScrub s ref).sound := by
  unfold Machine.schedScrub
  extract_lets s₁
  have h₁ : s₁.sound := h
  split
  next k s₂ he =>
  have h₂ : s₂.sound := by
    split at he <;> cases he
    · exact h₁
    · exact h₁.withFree
  exact h₂.sched

theorem State.sound.reclaim (h : s.sound) {ref : Nat} : (reclaim s ref).sound := by
  unfold Machine.reclaim
  extract_lets r t s₁ s₂ s₃
  have h₁ : s₁.sound := h.freezeRange
  have h₂ : s₂.sound := h₁.emptySlot.ite h₁
  have h₃ : s₃.sound := h₂.modRent
  exact h₃.freeRent.ite h₃.dropSpace.markAll.schedScrub

theorem State.sound.endOne (h : s.sound) {ref : Nat} : (endOne s ref).sound := by
  unfold Machine.endOne
  extract_lets r g first s₁ s₂
  have h₁ : s₁.sound := h.freezeRange
  split
  · exact h
  · exact h₁

theorem State.sound.endSublet (h : s.sound) {ref : Nat} : (endSublet s ref).sound := (h.foldl fun _ _ h => h.endOne).endOne

theorem State.sound.lapseRegion (h : s.sound) {ref : Nat} : (lapseRegion s ref).sound := by
  unfold Machine.lapseRegion
  extract_lets r s₁ s₂ s₃ s₄
  have h₂ : s₂.sound := h.modRent.freezeRange
  have h₃ : s₃.sound := h₂.emptySlot.ite h₂
  have h₄ : s₄.sound := by
    refine State.sound.ite ?_ h₃
    split
    · exact h₃.toMonitor
    · exact h₃
  exact h₄.schedRent.poke

/-! ## Rent: events -/

theorem State.sound.autoExtend (h : s.sound) {ref : Nat} : (execAutoExtend ref s).sound := by
  unfold execAutoExtend
  extract_lets r bw q n s₁ s₂
  have h₂ : s₂.sound := h.refund.modRent
  exact Out.sound.ite h (Out.sound.ite h.modRent.schedRent (Out.sound.ite h₂.sched h₂.schedRent))

theorem State.sound.lapse (h : s.sound) {ref : Nat} : (execLapse ref s).sound := Out.sound.ite h h.lapseRegion
theorem State.sound.graceEnd (h : s.sound) {ref : Nat} : (execGraceEnd ref s).sound := Out.sound.ite h h.reclaim.poke
theorem State.sound.subletEnd (h : s.sound) {ref : Nat} : (execSubletEnd ref s).sound := Out.sound.ite h h.endSublet

theorem State.sound.scrubComplete (h : s.sound) {ref : Nat} : (execScrubComplete ref s).sound := by
  unfold execScrubComplete
  extract_lets r
  refine Out.sound.ite h ?_
  split
  next n s₁ he =>
  have h₁ : s₁.sound := by
    split at he <;> cases he
    · exact h
    · exact h
    · exact h.withFree
  extract_lets s₂
  have h₂ : s₂.sound := h₁.withScrub.ite h₁
  exact h₂.schedScrub.ite (h₂.freeRent.poke.ite h₂)

/-! ## Rent: claims -/

theorem State.sound.evict {on : Nat × Rent → Bool} {vd tier die n : Nat} (f : Nat) :
    ∀ {s : State} {av : Nat}, s.sound → (evict on vd tier die n f s av).2.sound := by
  induction f with
  | zero => exact fun h => h
  | succ f ih =>
    intro s av h
    unfold Machine.evict
    split
    · exact h
    · split
      · exact h
      · exact ih h.reclaim

theorem State.sound.bindSpace {on : Nat × Rent → Bool} {tier die n : Nat} (f : Nat) :
    ∀ {s : State} {free : Nat}, s.sound → (bindSpace on tier die n f s free).sound := by
  induction f with
  | zero => exact fun h => h
  | succ f ih =>
    intro s free h
    unfold Machine.bindSpace
    split
    · exact h
    · split
      · exact h
      · exact ih h.freeRent

theorem State.sound.claim (h : s.sound) {vd tier die n core : Nat} (e : claim s vd tier die n core = some t) : t.sound := by
  unfold Machine.claim at e
  extract_lets table entries on pool free avail k reserve at e
  split at e
  · cases e
  · split at e
    · split at e
      next av s₁ he =>
      have h₁ : s₁.sound := by
        have := State.sound.evict (on := on) (vd := vd) (tier := tier) (die := die) (n := n) k (av := avail) h
        rwa [he] at this
      split at e <;> cases e
      exact State.sound.bindSpace k h₁
    · split at e <;> cases e
      exact State.sound.bindSpace k h

theorem State.sound.placeRegion (h : s.sound) {die : Nat} {r : Rent} : (placeRegion s die r).2.sound := by
  unfold Machine.placeRegion
  split
  · exact h
  · exact h.withFree

theorem State.sound.makeRegion (h : s.sound) {ref : Nat} {r : Rent} : (makeRegion s ref r).sound := by
  unfold Machine.makeRegion
  split
  next b s₁ he =>
  have h₁ : s₁.sound := by
    have := h.placeRegion (die := refDie ref) (r := r)
    rwa [he] at this
  extract_lets r' s₂
  have h₂ : s₂.sound := by
    refine State.sound.schedRent ?_
    exact h₁
  exact h₂.ite h₂.markAll.schedScrub

theorem State.sound.claimRegion (h : s.sound) {vd die n core ref : Nat} {r : Rent} (e : claimRegion s vd die n core r = some (ref, t)) :
    t.sound := by
  unfold Machine.claimRegion at e
  split at e
  · cases e
  next s₁ he =>
    split at e
    · cases e
    next ref' s₂ he' =>
      cases e
      exact ((h.claim he).freeEntry he').makeRegion

theorem State.sound.mapSync (h : s.sound) {die p n ref : Nat} : (mapSync s die p n ref).sound := h.modDie

/-! ## Rent: operations -/

theorem State.sound.rentNew (h : s.sound) {c : Ctx} {tier sz u t : Nat} : (rentNew s c tier sz u t).2.2.sound := by
  unfold Machine.rentNew
  extract_lets n share sync die src r cost place
  clear_value place
  refine iteInduction (motive := fun x : Nat × List Nat × State => x.2.2.sound) (fun _ => h) fun _ => ?_
  split
  · exact h
  · split
    · exact h
    · extract_lets r'
      split
      · exact h
      next he =>
        split
        · exact h
        next s₂ he' =>
          have h₂ := (h.claimRegion he).charge he'
          extract_lets s₃
          have h₃ : s₃.sound := by
            unfold s₃
            split
            · exact h₂.modUnit
            · exact h₂.mapSync.ite h₂.modVd
          exact h₃.poke

theorem State.sound.rentRenew (h : s.sound) {i : Issuer} {ref u t : Nat} : (rentRenew s i ref u t).2.sound := by
  unfold Machine.rentRenew
  extract_lets r par good cost
  repeat' split
  · exact h
  · exact h
  · exact h
  · exact h
  next s₁ he =>
    have h₁ : s₁.sound := by
      split at he
      · cases he
        exact h
      · exact h.charge he
    exact h₁.modRent.schedRent.poke

theorem State.sound.rentPrepay (h : s.sound) {i : Issuer} {ref n : Nat} : (rentPrepay s i ref n).2.sound := by
  unfold Machine.rentPrepay
  extract_lets r
  repeat' split
  · exact h
  · exact h
  · exact h
  · exact h
  · exact h
  next s₁ he => exact (h.charge he).modRent

theorem State.sound.rentRelease (h : s.sound) {i : Issuer} {ref t : Nat} : (rentRelease s i ref t).2.sound := by
  unfold Machine.rentRelease
  extract_lets r back
  repeat' split
  · exact h
  · exact h
  · exact h
  · exact h
  · exact h.endSublet
  · exact h.refund.reclaim.poke

theorem State.sound.rentSublet (h : s.sound) {i : Issuer} {ref a n o e t : Nat} : (rentSublet s i ref a n o e t).2.2.sound := by
  unfold Machine.rentSublet
  extract_lets r
  iterate 5
    split
    · exact h
  split
  · exact h
  next he => exact (h.freeEntry he).modRent.schedRent

theorem State.sound.rentUnsublet (h : s.sound) {i : Issuer} {ref t : Nat} : (rentUnsublet s i ref t).2.sound := by
  unfold Machine.rentUnsublet
  extract_lets r par
  repeat' split
  · exact h
  · exact h
  · exact h
  · exact h
  · exact h.endSublet

theorem State.sound.onHandle (h : s.sound) {n : Nat} {f : Nat → Nat × List Nat × State} (hf : ∀ r, (f r).2.2.sound) :
    (onHandle s n f).2.2.sound := by
  unfold Machine.onHandle
  repeat' split
  · exact h
  · exact h
  · exact hf _

theorem State.sound.rentOp (h : s.sound) {c : Ctx} {i : Instr} {args : List Word} {t : Nat} : (rentOp s c i args t).2.2.sound := by
  unfold Machine.rentOp
  extract_lets arg iss
  split
  · exact h.rentNew
  · exact h.onHandle fun _ => h.rentRenew
  · exact h.onHandle fun _ => h.rentPrepay
  · exact h.onHandle fun _ => h.rentSublet
  · exact h.onHandle fun _ => h.rentUnsublet
  · exact h.onHandle fun _ => h.rentRelease
  · exact h.onHandle fun _ => h
  · exact h

theorem State.sound.performRent (h : s.sound) {uid : Nat} {i : Instr} {args : List Word} {dst : List Nat} {pc : Word} :
    (performRent s uid i args dst pc).sound := by
  unfold Machine.performRent
  split
  · exact h
  next c _ =>
    extract_lets t
    have hr := h.rentOp (c := c) (i := i) (args := args) (t := t)
    split
    next st rs s₁ he =>
    rw [he] at hr
    exact hr.takeFault.ite (hr.foldl fun _ _ h => h.ite h.schedC)

theorem Ctx.sound.awaits (hc : c.sound) {l : List Nat} {t : Nat} : (l.foldl (fun c p => c.await (.s p) t) c).sound :=
  hc.foldl fun _ _ hc => hc

theorem State.sound.rentInstr (h : s.sound) {i : Instr} {q : Bool} {d n : Nat} {args : Ctx → List Word} : (rentInstr i q d n args s).sound :=
  h.onCore fun _ hc => Res.sound.ite trivial (h.schedC.goOn hc.awaits)

/-! ## Interrupts and stops -/

theorem State.sound.withdraw (h : s.sound) {c : Ctx} : (withdraw s c).sound := by
  unfold Machine.withdraw
  split
  · exact h.modTeam
  · exact h.modTeam.withDies
  · exact h

theorem State.sound.enginesStop (h : s.sound) {uid : Nat} : (enginesStop s uid).sound := by
  unfold Machine.enginesStop
  split
  · exact h
  · exact h.stopStarted.modUnit

theorem State.sound.stopContext (h : s.sound) {uid : Nat} : (stopContext s uid).sound := by
  unfold Machine.stopContext
  split
  · exact h
  · have h₁ {d : Nat} {c : Ctx} {t : Nat} : State.sound (Machine.modUnit (Machine.holdCmds (Machine.withdraw { s with free := s.free + 1 } c) c) uid
        (fun c => { c with wait := .stopping, heldIrq := [], defer := none, savedAt := t, nextAt := t + d, sliceEnd := some t })) :=
      h.withFree.withdraw.holdCmds.modUnit
    exact h₁.enginesStop.ite h₁

theorem State.sound.beginSave (h : s.sound) {c : Ctx} : (beginSave s c).sound := h.dropCmds.modUnit.schedC

theorem State.sound.takeInterrupt (h : s.sound) {uid : Nat} : (takeInterrupt s uid).sound := by
  unfold Machine.takeInterrupt
  split
  · exact h
  · extract_lets freeze later s₁ s₂
    have h₁ : s₁.sound := h.modUnit
    refine h.ite (h.stopContext.modUnit.ite ?_)
    split
    · exact h₁.withdraw.abandon.modUnit.stopContext
    · split
      case h_1 => exact h₁.holdCmds.modUnit
      case h_12 => exact h₁
      all_goals exact h₁.stopContext

theorem State.sound.interrupt (h : s.sound) {uid kind : Nat} : (interrupt s uid kind).sound := by
  unfold Machine.interrupt
  split
  · exact h
  · extract_lets t s₁ s₂
    have h₁ : s₁.sound := h.ite h.modUnit.schedC
    have h₂ : s₂.sound := h₁.modUnit
    split
    case h_6 => exact h.stopContext.modUnit
    case h_7 => exact h₂.ite h₂.takeInterrupt
    all_goals exact h

theorem State.sound.regionBoundaryTimeout (h : s.sound) {uid : Nat} : (execRegionBoundaryTimeout uid s).sound := by
  unfold execRegionBoundaryTimeout
  split
  · exact h
  · split
    case h_6 => exact Out.sound.ite h.stopContext h
    all_goals exact h

theorem State.sound.monitorQuiet (h : s.sound) {uid : Nat} : (monitorQuiet s uid).sound :=
  h.modUnit fun _ hc => by
    split
    · exact hc
    · exact hc

theorem State.sound.monitorReturn (h : s.sound) {uid : Nat} : (monitorReturn s uid).sound := by
  unfold Machine.monitorReturn
  split
  · exact h
  · split
    · exact h.returnCmds.modUnit
    · exact h

theorem State.sound.handlerReady (h : s.sound) {uid : Nat} : (handlerReady s uid).sound :=
  h.modUnit fun _ hc => by
    split
    · exact hc
    · exact hc

theorem State.sound.deferFor (h : s.sound) {n len : Nat} : (deferFor n len s).sound :=
  h.onCore fun _ hc => Res.sound.ite (h.goOn hc) (h.schedC.goOn hc)

theorem State.sound.deferWindowEnd (h : s.sound) {uid : Nat} : (execDeferWindowEnd uid s).sound := by
  unfold execDeferWindowEnd
  split
  · exact h
  next c hc =>
    have h₁ : (Machine.setUnit s { c with defer := none }).sound := h.setUnit (h.of_unitOf hc)
    exact Out.sound.ite h (h₁.ite h₁.takeInterrupt)

theorem State.sound.respend (h : s.sound) {c : Ctx} : (respend s c).sound := by
  unfold Machine.respend
  split
  · exact h.modCore.ite h
  · exact h

theorem State.sound.tret (h : s.sound) : (execTret s).sound := by
  refine h.onCore fun c hc => Res.sound.ite trivial ?_
  have hc' : Ctx.sound { c with spent := none } := hc
  have h₁ := (h.respend (c := c)).returnTrap hc'
  exact Res.sound.ite trivial (h₁.ite h₁.takeInterrupt)

theorem State.sound.engineFault (h : s.sound) {k : Cmd} {b : Bool} {t : Trap} : (engineFault s k b t).sound := by
  unfold Machine.engineFault
  split
  · exact h
  · extract_lets s₁ s₂ s₃ s₄ s₅
    have h₂ : s₂.sound := h.dropCmds.withdraw.cancelFrom
    have h₃ : s₃.sound := h₂.modUnit.ite h₂
    have h₄ : s₄.sound := h₃.modUnit fun _ hc => by
      split
      · exact hc
      · exact hc
    exact h₄.takeFault.modUnit

end Sys2Proof.Machine
end

section
/-!
SUPPORT. Soundness of states: regions, command queues and the vector and matrix engines (O50).
-/
set_option Elab.async false
namespace Sys2Proof.Machine
open Sys2Proof Sys2Proof.Laws
variable {s t : State} {c : Ctx} {k : CoreSt}

/-! ## Regions -/

theorem State.sound.fresh (h : s.sound) : (fresh s).2.sound := h

theorem State.sound.openRegion (h : s.sound) {a b : Bool} {r : Reg} : (openRegion a b r s).sound := by
  refine h.onCore fun c hc => ?_
  extract_lets v
  refine Res.sound.ite h.stopContext (Res.sound.ite trivial (Res.sound.ite trivial (Res.sound.ite trivial ?_)))
  split
  next id s' he =>
  have h' : s'.sound := by simpa [he] using h.fresh
  extract_lets snap s₁
  have h₁ : s₁.sound := h'.withAgenda.ite h'
  exact h₁.goOn hc

theorem State.sound.releaseCopies (h : s.sound) {uid t : Nat} : (releaseCopies s uid t).sound := by
  unfold Machine.releaseCopies
  extract_lets f
  exact (h.withEngines).mapCores

theorem Ctx.sound.report (hc : c.sound) {a b d : Nat} : (c.report a b d).sound := hc

theorem State.sound.issueHeld (h : s.sound) (hc : c.sound) {e : Nat} {l : List SyncOp} :
    (issueHeld s c e l).2.1.sound ∧ (issueHeld s c e l).2.2.sound := by
  induction l generalizing s c e with
  | nil => exact ⟨h, hc⟩
  | cons o l ih =>
    unfold Machine.issueHeld
    split
    · exact ih h hc.report
    next p _ =>
      split
      next t s' c' he =>
      have hs : s'.sound ∧ c'.sound := by
        split at he
        · exact h.sendOp hc he
        · exact h.releaseAt hc he
      exact ih hs.1 hs.2

theorem State.sound.rgclose (h : s.sound) : (execRgclose s).sound := by
  refine h.onCore fun c hc => ?_
  split
  · trivial
  next r _ =>
  extract_lets e cR s₁ s₂ s₃
  have h₁ : s₁.sound := h.goOn hc
  have h₂ : s₂.sound := h.releaseCopies
  have h₃ : s₃.sound := h₂.goOn hc
  refine Res.sound.ite (h₁.stopContext.ite h₁) (Res.sound.ite (h₃.stopContext.ite h₃) ?_)
  split
  next t s' c' he =>
  extract_lets n
  have hi := h₂.issueHeld (c := { cR with landDropped := none }) hc (e := e) (l := r.held)
  rw [he] at hi
  exact (hi.1.withCx hi.2).schedC

theorem State.sound.regionClosed (h : s.sound) {uid : Nat} : (regionClosed s uid).sound := by
  unfold Machine.regionClosed
  split
  · exact h
  next c hc =>
  split
  · exact h
  extract_lets d c' s₁
  have hcu : c.sound := h.of_unitOf hc
  have hc' : c'.sound := hcu
  have h₁ : s₁.sound := h.setUnit hc'
  clear_value d
  split
  · exact (h.setUnit hc').takeFault
  · exact h₁.stopContext.ite h₁

theorem State.sound.rgabort (h : s.sound) : (execRgabort s).sound := by
  refine h.onCore fun c hc => ?_
  split
  · trivial
  extract_lets s'
  have h' : s'.sound := h.abandon.ite h.cancelFrom.cancelAllCopies.modUnit
  split
  next c' hc' => exact h'.goOn (h'.of_cx hc')
  · exact h'

/-! ## Delivery of commands and the queues of the engines -/

theorem State.sound.deliver (h : s.sound) {bits : List Nat} {i : Instr} {prep : State → Ctx → Res Cmd} :
    (deliver bits i prep s).sound := by
  refine h.onCore fun c hc => ?_
  extract_lets e q tm c₁
  refine Res.sound.ite trivial (Res.sound.ite (h.withCx hc) (Res.sound.bind fun k _ => ?_))
  split
  next id s' he =>
  have h' : s'.sound := by simpa [he] using h.fresh
  extract_lets due k' c₂ s₁ s₂
  clear_value tm
  have hc₁ : c₁.bank = c.bank := by
    unfold c₁
    split <;> rfl
  have hc₂ : c₂.bank = c.bank := by
    unfold c₂
    split
    · split
      · exact hc₁
      · exact hc₁
    · exact hc₁
  have h₂ : s₂.sound := h'.modCore.schedC
  refine Res.sound.ite ?_ (h₂.goOn hc hc₂)
  refine (h'.withCx hc ?_).takeFault
  split <;> rfl

theorem State.sound.enqueue (h : s.sound) {core : Nat} {k : Cmd} : (enqueue s core k).sound := by
  unfold Machine.enqueue
  split
  · exact h.modEng
  · exact h.modDie
  · exact h.modCore fun _ hk => hk.setQueue

theorem State.sound.putCmd (h : s.sound) {core q : Nat} {k : Cmd} : (putCmd s core q k).sound := h.modCore fun _ hk => hk.setQueue

theorem State.sound.queueEntryComplete (h : s.sound) {core q id : Nat} : (execQueueEntryComplete core q id s).sound := by
  unfold execQueueEntryComplete
  split
  · exact h
  extract_lets fs x
  refine Out.sound.ite (h.modCore fun _ hk => CoreSt.sound.setQueue ?_) (Out.sound.ite (h.ite h.dropOwned).engineFault h.putCmd)
  exact hk

theorem State.sound.completeAt (h : s.sound) {k : Cmd} {q t : Nat} : (completeAt s k q t).sound := h.sched
theorem State.sound.microAt (h : s.sound) {k : Cmd} {q t : Nat} : (microAt s k q t).sound := h.schedCmd

/-! ## The vector engine -/

theorem Res.sound.foldlM (h : s.sound) {β : Type} {l : List β} {f : State → β → Res State} (hf : ∀ s x, s.sound → (f s x).sound) :
    Res.sound (l.foldlM f s) := by
  induction l generalizing s with
  | nil => exact h
  | cons x l ih =>
    rw [List.foldlM_cons]
    exact Res.sound.bind fun s' e => ih ((hf s x h).of_ok e)

/-- A computation in two parts gives a result only if each part does. -/
theorem ok_of_bind {α β : Type} {x : Res α} {f : α → Res β} {r : β} (h : x >>= f = .ok r) : ∃ a, x = .ok a ∧ f a = .ok r := by
  cases x with
  | error e => cases h
  | ok a => exact ⟨a, rfl, h⟩

theorem Ctx.sound.vecIn (hc : c.sound) {major func : Nat} {v : VForm} {k : Cmd} {x : VIn} (e : vecIn s c major func v k = .ok x) :
    x.ctx.sound := by
  unfold Machine.vecIn at e
  extract_lets heads popped qd bad bank m at e
  have hp : popped.sound := hc.foldl fun _ _ hc => hc
  obtain ⟨_, -, e⟩ := ok_of_bind e
  obtain ⟨_, -, e⟩ := ok_of_bind e
  cases e
  exact hp

theorem State.sound.writeFlags (h : s.sound) {k : Cmd} {tick : Nat} {f : Flg} : (writeFlags s k tick f).sound := h.ite h.schedCmd

theorem State.sound.spread (h : s.sound) {w off tick : Nat} {k : Cmd} {m : Word} {rs : List (Nat × Nat × Flg)} :
    (spread w off tick s k m rs).sound := h.foldl fun _ _ h => h.schedCmd

theorem State.sound.vecCompute (h : s.sound) {major func : Nat} {v : VForm} {k : Cmd} {x : VIn} {t : Nat} :
    (vecCompute s major func v k x t).sound := by
  unfold Machine.vecCompute
  split
  extract_lets
  split
  · exact h.schedCmd.completeAt
  · exact (h.ite h.schedCmd.modUnit).completeAt
  · exact Res.sound.ite trivial h.spread.completeAt
  · exact h.spread.writeFlags.completeAt

theorem State.sound.vecWrite (h : s.sound) {k : Cmd} {tick a : Nat} {p : Place} {bs : List Byte} : (vecWrite s k tick a p bs).sound := by
  unfold Machine.vecWrite
  split
  · exact h
  next c hc =>
  exact Res.sound.ite (Res.sound.bind fun _ e => h.setUnit ((h.of_unitOf hc).flightStore e)) h.schedCmd

theorem State.sound.vecLoad (h : s.sound) {c : Ctx} {v : VForm} {k : Cmd} {m : Word} {t : Nat} : (vecLoad s c v k m t).sound := by
  refine Res.sound.bind fun rs _ => Res.sound.bind fun got _ => ?_
  exact (h.foldl fun _ _ h => h.schedCmd).completeAt

theorem State.sound.vecMemory (h : s.sound) {c : Ctx} {func : Nat} {v : VForm} {k : Cmd} {x : VIn} {t : Nat} :
    (vecMemory s c func v k x t).sound := by
  unfold Machine.vecMemory
  extract_lets
  split
  · refine Res.sound.bind fun _ _ => ?_
    exact Res.sound.ite h.putCmd.microAt h.vecLoad
  · refine Res.sound.bind fun _ _ => ?_
    refine Res.sound.bind fun rs _ => Res.sound.bind fun s' e => ?_
    exact ((Res.sound.foldlM h fun _ _ h => h.vecWrite).of_ok e).completeAt
  · refine Res.sound.bind fun _ _ => Res.sound.bind fun ps _ => Res.sound.ite (Res.sound.bind fun s' e => ?_) h.putCmd.microAt
    exact ((Res.sound.foldlM h fun _ _ h => h.vecWrite).of_ok e).completeAt

theorem State.sound.vecMicro (h : s.sound) {c : Ctx} {func : Nat} {v : VForm} {k : Cmd} {t : Nat} : (vecMicro s c func v k t).sound := by
  unfold Machine.vecMicro
  extract_lets
  refine Res.sound.ite h.vecLoad (Res.sound.ite h.microAt (Res.sound.bind fun vs _ => ?_))
  extract_lets k' s₁
  have h₁ : s₁.sound := h.putCmd
  exact Res.sound.ite h₁.microAt h₁.spread.completeAt

theorem State.sound.gateStart (h : s.sound) {func : Nat} {v : VForm} {k : Cmd} {x : VIn} {t : Nat} : (gateStart s func v k x t).sound := by
  unfold Machine.gateStart
  extract_lets w ty
  split
  extract_lets
  split
  · trivial
  extract_lets rows off done
  split
  · exact h.spread.completeAt
  · exact Res.sound.ite trivial h.schedCmd.completeAt
  · exact h.spread.completeAt
  · exact (h.spread.ite h.spread.schedCmd).completeAt

theorem State.sound.vecStart (h : s.sound) {k : Cmd} {t : Nat} : (vecStart s k t).sound := by
  unfold Machine.vecStart
  split
  next major func v c _ hc =>
    extract_lets r
    have hr : Res.sound r := by
      refine Res.sound.bind fun _ _ => Res.sound.bind fun x hx => ?_
      have h₁ := (h.setUnit ((h.of_unitOf hc).vecIn hx)).putCmd (core := k.core) (q := 1) (k := { k with start := some t })
      split
      · exact h₁.vecMemory
      · exact h₁.gateStart
      · exact h₁.vecCompute
    clear_value r
    split
    · exact hr
    · exact h.engineFault
  · exact h

theorem State.sound.vecStep (h : s.sound) {k : Cmd} {t : Nat} : (vecStep s k t).sound := by
  unfold Machine.vecStep
  split
  · split
    next he => exact h.vecMicro.of_ok he
    · exact h.engineFault
  · exact h

theorem State.sound.viewset (h : s.sound) {n : BitVec 4} {a : Reg} : (execViewset n a s).sound :=
  h.onCore fun _ hc => Res.sound.bind fun _ _ => Res.sound.bind fun _ _ => h.goOn hc

theorem State.sound.gset (h : s.sound) {n : BitVec 4} {a : Reg} : (execGset n a s).sound :=
  h.onCore fun _ hc => Res.sound.bind fun _ _ => Res.sound.bind fun _ _ => h.goOn hc

/-! ## Loop nests and SORTC -/

theorem State.sound.padWrite (h : s.sound) {c : Ctx} {k : Cmd} {tick phase : Nat} {a : Word} {bs : List Byte} :
    (padWrite s c k tick phase a bs).sound := by
  unfold Machine.padWrite
  split
  · exact h
  · exact h.schedCmd

theorem State.sound.padNibble (h : s.sound) {c : Ctx} {k : Cmd} {tick phase half val : Nat} {a : Word} :
    (padNibble s c k tick phase a half val).sound := by
  unfold Machine.padNibble
  split
  · exact h
  · exact h.schedCmd

theorem State.sound.lnest (h : s.sound) {m : Timing} {f : NestF} : (execLnest m f s).sound := by
  unfold execLnest
  split
  · exact Out.sound.ite (h.onCore fun _ _ => trivial) h.deliver
  · exact h.deliver

theorem State.sound.nestStart (h : s.sound) {c : Ctx} {f : NestF} {k : Cmd} {t v : Nat} : (nestStart s c f k t v).sound := by
  unfold Machine.nestStart
  extract_lets _ _ k₁ _ _ jp
  have hj : ∀ r, (jp r).sound := fun _ =>
    Res.sound.ite trivial (Res.sound.ite h.putCmd.completeAt (Res.sound.ite trivial (Res.sound.bind fun _ _ => h.putCmd.microAt)))
  exact Res.sound.ite (Res.sound.bind fun r _ => hj r) (hj ())

theorem State.sound.nestMicro (h : s.sound) {c : Ctx} {f : NestF} {k : Cmd} {n : Nat} (e : nestMicro s c f k n = .ok t) : t.sound := by
  unfold Machine.nestMicro at e
  extract_lets q first ns v lat r at e
  clear_value r
  split at e
  · cases e
  · extract_lets ws s₁ s₂ s₃ _ k' s₄ at e
    have h₁ : s₁.sound := h.foldl fun _ _ h => h.padWrite
    have h₂ : s₂.sound := h₁.foldl fun _ _ h => h.padNibble
    have h₄ : s₄.sound := h₂.writeFlags.putCmd
    cases e
    exact h₄.microAt.ite h₄.completeAt

theorem State.sound.sortWrite (h : s.sound) {c : Ctx} {k : Cmd} {tick : Nat} {g : BitVec 384} {vs : List Nat} :
    (sortWrite s c k tick g vs).sound := h.foldl fun _ _ h => h.padWrite

theorem State.sound.sortStart (h : s.sound) {c : Ctx} {f : SortF} {k : Cmd} {t v : Nat} : (sortStart s c f k t v).sound := by
  unfold Machine.sortStart
  extract_lets
  refine Res.sound.ite trivial ?_
  refine Res.sound.bind fun _ _ => Res.sound.bind fun _ _ => Res.sound.bind fun _ _ => Res.sound.bind fun ids _ =>
    Res.sound.bind fun _ _ => ?_
  exact (h.putCmd.sortWrite.sortWrite.ite h.putCmd.sortWrite).sortWrite.completeAt

/-! ## The journal, fences and miscomputation -/

theorem State.sound.journalBytes (h : s.sound) {a b c d : Nat} {p : List Byte} : (journalBytes s a b c d p).sound :=
  (h.withFree.ite h.withFree.schedNewel).withNewel

theorem State.sound.journal (h : s.sound) {a b c d : Nat} {p : List Nat} : (journal s a b c d p).sound := h.journalBytes
theorem State.sound.applyFence (h : s.sound) {a b : Nat} : (applyFence s a b).sound := h.modCore.poke
theorem State.sound.fence (h : s.sound) {a b : Nat} : (fence s a b).sound := h.journal.withNewel.ite h.journal.applyFence

theorem State.sound.miscompute (h : s.sound) {core cls source info : Nat} {who : Option Ctx} :
    (miscompute s core cls source info who).sound := by
  unfold Machine.miscompute
  extract_lets k t kept _ s₁
  have h₁ : s₁.sound := h.modCore
  split
  exact h.logRel.ite (h₁.logRel.fence.ite h₁.logRel.withFree.sched)

/-! ## The matrix engine -/

theorem CoreSt.sound.alcWrite (hk : k.sound) {off : Nat} {bs : List Byte} {ps : List Nat} : (alcWrite k off bs ps).sound :=
  wf_writeRun _ _ _ hk

theorem State.sound.performRow (h : s.sound) {uid off ty : Nat} {acc wrap : Bool} {xv : Option Nat} {x : List Byte} {w : Mem}
    {ps : List Nat} {ups : List (Nat × Nat)} : (performRow s uid off ty acc wrap xv x w ps ups).sound := by
  unfold Machine.performRow
  split
  · exact h
  next c hc =>
  extract_lets _ _ _ _ _ _ _ _ c'
  have hc' : c'.sound := (h.of_unitOf hc).bankWrite
  exact iteInduction (motive := State.sound) (fun _ => h.setUnit (h.of_unitOf hc).bankWrite) fun _ => h.setUnit hc'

theorem CoreSt.sound.performGrad (hk : k.sound) {b : Nat} {x dy : List (BitVec 32)} {ups : List (Nat × Nat)} {bad : List Nat} :
    (performGrad k b x dy ups bad).sound := hk

theorem State.sound.performDrain (h : s.sound) {core id r : Nat} : (performDrain s core id r).sound := by
  unfold Machine.performDrain
  split
  · exact h
  split
  next hc =>
    extract_lets x b off old vals marks s₁
    have h₁ : s₁.sound := h.setUnit (h.of_unitOf hc).bankWrite
    split
    · exact h.dropOwned.engineFault
    · exact h₁.ite h₁.modCore
  · exact h

theorem State.sound.beginLoad (h : s.sound) {core uid pc bank expert slot ctx ty t : Nat} {drain : Bool} :
    (beginLoad s core uid pc bank expert slot ctx ty drain t).sound := by
  refine (h.fresh.modCore fun k hk => ?_).sched
  exact iteInduction (motive := CoreSt.sound) (fun _ => hk) fun _ => hk.modEntry

/-! ## Loads of weights, matrix rows and slots -/

theorem State.sound.mloadwStart (h : s.sound) {c : Ctx} {f : LoadWF} {k : Cmd} {t : Nat} : (mloadwStart s c f k t).sound := by
  unfold Machine.mloadwStart
  extract_lets
  refine Res.sound.bind fun p _ => Res.sound.ite trivial (Res.sound.ite trivial (Res.sound.ite trivial (Res.sound.bind fun _ _ => ?_)))
  exact Res.sound.ite h.putCmd.completeAt h.putCmd.completeAt.beginLoad

theorem State.sound.loadWordsAt (h : s.sound) {core id : Nat} : (loadWordsAt s core id).sound := by
  unfold Machine.loadWordsAt
  extract_lets k t
  split
  · exact h
  extract_lets u n bs s₁ s₂
  have h₁ : s₁.sound := h.modCore
  have h₂ : s₂.sound := h₁.sched.ite h₁
  split
  · exact h₂
  · extract_lets logical
    split
    case h_5 => exact h₂.takeFault
    all_goals exact h₂

theorem State.sound.residencyLoadBegin (h : s.sound) {core ld : Nat} : (execResidencyLoadBegin core ld s).sound := by
  unfold execResidencyLoadBegin
  split
  · exact h
  · exact Out.sound.ite h.modCore (h.modCore fun _ hk => hk.modEntry).sched.loadWordsAt

theorem State.sound.residencyLoadEnd (h : s.sound) {core ld : Nat} : (execResidencyLoadEnd core ld s).sound := by
  unfold execResidencyLoadEnd
  split
  · exact h
  · exact h.modCore

theorem State.sound.rowsGo (h : s.sound) {k : Cmd} {t : Nat} : (rowsGo s k t).sound := h.putCmd.completeAt.ite h.putCmd.microAt

theorem State.sound.madeStrikes (h : s.sound) {a b d : Nat} : (madeStrikes s a b d).sound := h.modCore

theorem State.sound.noteStrike (h : s.sound) {c : Ctx} {k : Cmd} {cls : Nat} {met clash : Bool} :
    (noteStrike s c k cls met clash).1.sound := by
  unfold Machine.noteStrike
  extract_lets
  split
  · exact h
  · split
    · dsimp only
      exact h.miscompute
    · split <;> exact h

theorem State.sound.endCheck (h : s.sound) {c : Ctx} {f : MulF} {k : Cmd} : (endCheck s c f k).1.sound := by
  unfold Machine.endCheck
  extract_lets
  split
  · have h' := h.noteStrike (c := c) (k := k) (cls := classBit f.ty.toNat) (met := true) (clash := true)
    split
    next he =>
      rw [he] at h'
      exact h'
  · exact h

theorem State.sound.mmulStart (h : s.sound) {c : Ctx} {f : MulF} {k : Cmd} {t : Nat} : (mmulStart s c f k t).sound := by
  refine Res.sound.bind fun r _ => Res.sound.ite trivial (Res.sound.ite trivial ?_)
  split
  · trivial
  · exact h.rowsGo

theorem State.sound.mgradStart (h : s.sound) {c : Ctx} {f : MulF} {k : Cmd} {t : Nat} : (mgradStart s c f k t).sound := by
  refine Res.sound.bind fun r _ => Res.sound.ite trivial (Res.sound.ite trivial (Res.sound.bind fun _ _ => Res.sound.bind fun _ _ => ?_))
  split
  · trivial
  · exact h.rowsGo

theorem State.sound.rowEnters (h : s.sound) {c : Ctx} {f : MulF} {grad : Bool} {k : Cmd} {i t : Nat} {r : State × Cmd}
    (e : rowEnters s c f grad k i t = .ok r) : r.1.sound := by
  unfold Machine.rowEnters at e
  extract_lets dst ty n rb x at e
  split at e
  · cases e
  split at e
  · cases e
  split at e
  · cases e
  split at e
  · cases e
  extract_lets at e
  split at e
  split at e
  · cases e
  extract_lets k₂ bytes at e
  split at e
  · generalize (if (!grad && decide (f.acc = 1)) = true then checkBankAt s c k₂.id dst (outBytes ty) (t + 132) else .ok ()) = y at e
    cases y with
    | error _ => cases e
    | ok _ =>
      extract_lets _ s₁ at e
      have h₁ : s₁.sound := h.modCore
      dsimp only at e
      split at e
      · cases e
        exact h₁.madeStrikes.noteStrike.schedCmd
      · cases e
        exact h₁.madeStrikes.noteStrike.schedCmd
  · split at e
    · cases e
      exact h
    · cases e
      exact h.schedCmd

theorem State.sound.missPreds (h : s.sound) {f : MulF} {k : Cmd} {t : Nat} : (missPreds s f k t).sound := h.ite h.schedCmd.schedCmd

/-- Rows that enter the array, or that stop, leave a sound state. -/
def RowsSound : Except (State × Trap × Cmd) (State × Cmd) → Prop
  | .error x => x.1.sound
  | .ok x => x.1.sound

theorem RowsSound.foldl {β : Type} {l : List β} {r : Except (State × Trap × Cmd) (State × Cmd)} (hr : RowsSound r)
    {f : Except (State × Trap × Cmd) (State × Cmd) → β → Except (State × Trap × Cmd) (State × Cmd)}
    (hf : ∀ r x, RowsSound r → RowsSound (f r x)) : RowsSound (l.foldl f r) := l.foldlRecOn f hr fun r hr x _ => hf r x hr

theorem State.sound.mulStep (h : s.sound) {f : MulF} {grad : Bool} {k : Cmd} {t : Nat} : (mulStep s f grad k t).sound := by
  unfold Machine.mulStep
  split
  · exact h
  next c _ =>
  extract_lets q i0 is
  generalize hx : is.foldl _ _ = x
  have hr : RowsSound x := by
    rw [← hx]
    refine RowsSound.foldl (r := .ok (s, k)) h fun r i hr => ?_
    split
    · exact hr
    · split
      · exact hr
      · exact hr.dropOwned
      next he => exact State.sound.rowEnters hr he
  clear hx
  split
  · exact State.sound.engineFault hr
  next s' k' =>
    have h' : s'.sound := hr
    extract_lets k₁ s₁
    have h₁ : s₁.sound := h'.putCmd
    refine h₁.microAt.ite (h₁.missPreds.completeAt.ite ?_)
    have he := h₁.endCheck (c := c) (f := f) (k := k₁)
    split
    next hs =>
      rw [hs] at he
      exact he.putCmd.missPreds.completeAt

theorem State.sound.drainGo (h : s.sound) {k : Cmd} {t : Nat} : (drainGo s k t).sound :=
  (h.putCmd.foldl fun _ _ h => h.schedCmd).completeAt

theorem State.sound.mres (h : s.sound) {m : Timing} {f : ResF} : (execMres m f s).sound := by
  unfold execMres
  extract_lets
  exact h.deliver

theorem State.sound.mresStart (h : s.sound) {c : Ctx} {f : ResF} {k : Cmd} {t : Nat} : (mresStart s c f k t).sound :=
  Res.sound.bind fun _ _ => Res.sound.ite trivial (Res.sound.ite trivial (Res.sound.ite trivial h.rowsGo))

theorem State.sound.mresStep (h : s.sound) {f : ResF} {k : Cmd} {t : Nat} : (mresStep s f k t).sound := by
  unfold Machine.mresStep
  split
  · exact h
  extract_lets
  split
  · exact h.dropOwned.engineFault
  · split
    extract_lets _ s₁ s₂ s₃
    have h₁ : s₁.sound := h.schedCmd
    have h₃ : s₃.sound := (h₁.schedCmd.ite h₁).putCmd
    exact h₃.microAt.ite h₃.completeAt

theorem State.sound.slclaimStart (h : s.sound) {c : Ctx} {k : Cmd} {t : Nat} : (slclaimStart s c k t).sound :=
  h.putCmd.schedCmd.completeAt

theorem State.sound.slrelStart (h : s.sound) {c : Ctx} {n : BitVec 5} {k : Cmd} {t : Nat} : (slrelStart s c n k t).sound := by
  unfold Machine.slrelStart
  split
  · trivial
  · exact h.slclaimStart

theorem State.sound.takeSlot (h : s.sound) {c : Ctx} {n p u : Nat} : (takeSlot s c n p u).sound := by
  unfold Machine.takeSlot
  extract_lets _ r s₁ s₂ s₃
  have h₂ : s₂.sound := h.makeRegion.modCore fun _ hk => wf_filter _ _ hk
  have h₃ : s₃.sound := h₂.foldl fun _ _ h => h.modUnit.ite h
  exact h₃.modUnit

theorem State.sound.returnSlot (h : s.sound) {c : Ctx} {n : Nat} : (returnSlot s c n).sound := by
  unfold Machine.returnSlot
  split
  · exact h
  · exact h.modUnit.ite h.modUnit.refund.reclaim.poke

theorem State.sound.performSlot (h : s.sound) {core id : Nat} : (performSlot s core id).sound := by
  unfold Machine.performSlot
  split
  · exact h
  split
  · exact h.returnSlot
  · extract_lets cnt t logical phys until_ cost mask
    refine h.engineFault.ite (h.engineFault.ite ?_)
    split
    · exact h.engineFault
    next hs =>
      exact ((h.charge hs).foldl fun _ _ h => h.takeSlot).modUnit fun _ hc => hc.wrPhys
  · exact h

/-! ## Landings of engines and the transfers of LQ and SQ -/

theorem State.sound.landBytes (h : s.sound) {sp off : Nat} {bs : List Byte} {ps : List Nat} {t : Nat} :
    (landBytes s sp off bs ps t).sound := h.storeSpace.withMemPoison

theorem State.sound.countNamed (h : s.sound) {c : Ctx} {a n : Nat} : (countNamed s c a n).sound := by
  unfold Machine.countNamed
  extract_lets
  split
  · exact h
  · split
    · exact h
    · exact h.schedC.ite h.countWord

theorem State.sound.performCount (h : s.sound) {uid a n : Nat} : (performCount s uid a n).sound := by
  unfold Machine.performCount
  split
  · exact h
  · extract_lets
    split
    · exact h
    · exact h.countWord

theorem State.sound.xferGo (h : s.sound) {f : XferF} {k : Cmd} {q t : Nat} : (xferGo s f k q t).sound :=
  h.putCmd.completeAt.ite h.putCmd.microAt

theorem State.sound.xferStart (h : s.sound) {c : Ctx} {load : Bool} {f : XferF} {k : Cmd} {t : Nat} : (xferStart s c load f k t).sound := by
  refine Res.sound.bind fun _ _ => Res.sound.ite ?_ h.xferGo
  split
  · trivial
  · exact Res.sound.ite trivial h.xferGo

theorem State.sound.xferCut (h : s.sound) {c : Ctx} {load : Bool} {f : XferF} {k : Cmd} {kind j t e : Nat} {lessor : Option Nat} :
    (xferCut s c load f k kind j t e lessor).sound := h.truncBoth.putCmd.completeAt

theorem State.sound.xferReads (h : s.sound) {c : Ctx} {load : Bool} {f : XferF} {t n j : Nat} {k : Cmd} :
    (xferReads c load f t n j s k).1.sound := by
  induction n generalizing s j k with
  | zero => exact h
  | succ n ih =>
    unfold Machine.xferReads
    extract_lets a place k'
    clear_value place
    split
    · split
      · exact h
      · split
        · exact h
        · split
          · exact h
          · exact ih h.schedCmd
    · split
      · exact h
      · exact ih h.schedCmd

theorem State.sound.xferStep (h : s.sound) {load : Bool} {f : XferF} {k : Cmd} {t : Nat} : (xferStep s load f k t).sound := by
  unfold Machine.xferStep
  split
  · exact h
  next c _ =>
  extract_lets q
  have hr := h.xferReads (c := c) (load := load) (f := f) (t := t) (n := wordsDue f k t) (j := k.counted) (k := k)
  split
  next he =>
    rw [he] at hr
    exact hr.dropOwned.engineFault
  next he =>
    rw [he] at hr
    exact hr.xferCut
  next he =>
    rw [he] at hr
    exact hr.putCmd.microAt.ite hr.putCmd.completeAt

end Sys2Proof.Machine
end

section
/-!
SUPPORT. Soundness of states: exchange, copy engines, team dispatch, storage errors and launches (O50).
-/
set_option Elab.async false
namespace Sys2Proof.Machine
open Sys2Proof Sys2Proof.Laws
variable {s t : State} {c : Ctx} {k : CoreSt}

/-! ## Exchange and operand queues -/

theorem State.sound.xferLands (h : s.sound) {core id : Nat} {e : Eff} : (xferLands s core id e).2.sound := by
  unfold Machine.xferLands
  extract_lets _ one
  have ho {load : Bool} {f : XferF} {k : Cmd} {q : Nat} : (one load f k q).2.sound := by
    unfold one
    split
    · exact h
    next c _ =>
    extract_lets why
    clear_value why
    split
    · exact h.putCmd.countNamed
    · exact h.dropOwned.xferCut (c := c)
  clear_value one
  split
  · split
    · exact ho
    · exact h
  · split
    · exact ho
    · exact h
  · exact h

theorem State.sound.performOq (h : s.sound) {uid q : Nat} {bs : List Byte} {ps : List Nat} : (performOq s uid q bs ps).sound :=
  h.modUnit fun _ hc => by
    extract_lets es xs
    split
    · split <;> exact hc
    · exact hc

theorem State.sound.esaveStart (h : s.sound) {c : Ctx} {q img : Nat} {k : Cmd} {t : Nat} : (esaveStart s c q img k t).sound :=
  h.withFree.putCmd.schedCmd.completeAt

theorem State.sound.eloadStart (h : s.sound) {c : Ctx} {q img : Nat} {k : Cmd} {t : Nat} : (eloadStart s c q img k t).sound := by
  refine Res.sound.bind fun _ _ => Res.sound.ite trivial ?_
  split
  · trivial
  · exact h.withFree.withFree.modUnit.putCmd.completeAt

theorem State.sound.landPad (h : s.sound) {u : Ctx} {off : Nat} {p : Place} {bs : List Byte} {ps : List Nat} {c : Ctx} {n : Nat}
    (e : landPad s u off p bs ps c n = some t) : t.sound := by
  unfold Machine.landPad at e
  extract_lets tk s₁ at e
  split at e
  · cases e
    exact h.landBytes.countNamed
  · extract_lets w s₂ s₃ at e
    have h₃ : s₃.sound := h.landBytes.modUnit.countWord
    split at e
    · cases e
      exact h
    split at e
    · cases e
    · cases e
      exact h₃.ite h₃.countNamed

theorem State.sound.xrecvStart (h : s.sound) {c : Ctx} {f : ExchF} {k : Cmd} {t : Nat} : (xrecvStart s c f k t).sound :=
  Res.sound.ite trivial (Res.sound.bind fun _ _ => h.modUnit.putCmd.completeAt)

theorem State.sound.xsendStart (h : s.sound) {c : Ctx} {f : ExchF} {k : Cmd} {t : Nat} : (xsendStart s c f k t).sound := by
  refine Res.sound.bind fun _ _ => ?_
  split
  · trivial
  · exact Res.sound.ite trivial (Res.sound.ite trivial h.putCmd.microAt)

theorem State.sound.endReceive (h : s.sound) {u ch : Nat} : (endReceive s u ch).sound := h.modUnit

theorem State.sound.sendCut (h : s.sound) {k : Cmd} {f : ExchF} {rx kind j t : Nat} {a : Word} {l : Option Nat} :
    (sendCut s k f rx kind j t a l).sound := by
  unfold Machine.sendCut
  extract_lets s₁ s₂
  have h₂ : s₂.sound := h.dropOwned.truncBoth.endReceive
  split
  · exact h₂.putCmd.completeAt
  · exact h₂

theorem State.sound.sendShort (h : s.sound) {k : Cmd} {rx ch j : Nat} {l : Option Nat} : (sendShort s k rx ch j l).sound := by
  unfold Machine.sendShort
  split
  · exact h.truncBoth.endReceive
  · exact h

/-- A run of words sent, or one that stops, leaves a sound state. -/
def SendSound : Except (State × Nat × Option (Option Nat × Place) × Option Trap) State → Prop
  | .error x => x.1.sound
  | .ok s => s.sound

theorem SendSound.foldlM (h : s.sound) {β : Type} {l : List β}
    {f : State → β → Except (State × Nat × Option (Option Nat × Place) × Option Trap) State}
    (hf : ∀ s x, s.sound → SendSound (f s x)) : SendSound (l.foldlM f s) := by
  induction l generalizing s with
  | nil => exact h
  | cons x l ih =>
    have hx := hf s x h
    rw [List.foldlM_cons]
    cases hr : f s x with
    | error e =>
      rw [hr] at hx
      exact hx
    | ok s' =>
      rw [hr] at hx
      exact ih hx

theorem State.sound.xsendStep (h : s.sound) {f : ExchF} {k : Cmd} {t : Nat} : (xsendStep s f k t).sound := by
  unfold Machine.xsendStep
  split
  · exact h
  extract_lets rx js r
  have hr : SendSound r := by
    refine SendSound.foldlM h fun s j h => ?_
    extract_lets a
    split
    · exact h
    · split
      · exact h
      · split
        · exact h
        · exact h.schedCmd
  clear_value r
  split
  · exact State.sound.engineFault hr
  · exact (State.sound.schedCmd hr).putCmd.completeAt
  next s' =>
    have h' : s'.sound := hr
    exact h'.putCmd.microAt.ite h'.putCmd.completeAt

theorem State.sound.performXword (h : s.sound) {k : Cmd} {rx ch j : Nat} {bs : List Byte} {ps : List Nat} :
    (performXword s k rx ch j bs ps).sound := by
  unfold Machine.performXword
  split
  · exact h.sendShort
  split
  · split
    · exact h
    extract_lets a t
    split
    · split
      · exact h.sendCut
      · split
        · exact h.sendCut
        next s' hs => exact (h.landPad hs).modUnit.endReceive.ite (h.landPad hs).modUnit
    · exact h.sendCut
  · exact h

/-! ## The copy engines -/

theorem State.sound.putEng (h : s.sound) {eng : Nat} {k : Cmd} : (putEng s eng k).sound := h.modEng
theorem State.sound.schedEng (h : s.sound) {eng tick phase id : Nat} {a : Act} : (schedEng s eng tick phase id a).sound := h.sched
theorem State.sound.cleanRecords (h : s.sound) : (cleanRecords s).sound := h

theorem State.sound.readRecord (h : s.sound) {die : Nat} {p : Place} : (readRecord s die p).2.sound := by
  unfold Machine.readRecord
  extract_lets key new
  split
  · exact h.modDie.cleanRecords
  · exact h.withFree

theorem State.sound.readRecords (h : s.sound) {eng id : Nat} : (readRecords s eng id).sound := by
  unfold Machine.readRecords
  split
  · exact h
  split
  · exact h
  split
  · exact h
  extract_lets get r
  have hg {s s' : State} {a : Word} {x : List Byte} (h : s.sound) (e : get s a = .ok (x, s')) : s'.sound := by
    obtain ⟨_, -, e⟩ := ok_of_bind e
    obtain ⟨p, -, e⟩ := ok_of_bind e
    obtain ⟨_, -, e⟩ := ok_of_bind e
    obtain ⟨_, -, e⟩ := ok_of_bind e
    obtain ⟨_, -, e⟩ := ok_of_bind e
    have hr := h.readRecord (die := eng / 4) (p := p)
    rwa [Except.ok.inj e] at hr
  clear_value get
  cases hr : r with
  | error e => exact h.modEng.engineFault
  | ok x =>
    obtain ⟨⟨x, s₁⟩, h₁, e⟩ := ok_of_bind hr
    obtain ⟨⟨y, s₂⟩, h₂, e⟩ := ok_of_bind e
    cases e
    exact (hg (hg h h₁) h₂).modEng

theorem State.sound.schedRecords (h : s.sound) {eng : Nat} {k : Cmd} : (schedRecords s eng k).sound := by
  unfold Machine.schedRecords
  split
  · exact h
  extract_lets near
  split
  next d s' he =>
  have h' : s'.sound := by
    split at he <;> cases he <;> exact h.withFree
  exact h'.schedEng

theorem State.sound.leavePath (h : s.sound) {eng id : Nat} : (leavePath s eng id).sound := by
  unfold Machine.leavePath
  extract_lets e s₁ m s₂ _ s₃
  have h₃ : s₃.sound := h.withAgenda.modEng.withLinks
  split
  · exact h₃.modEng.schedEng.ite h₃.modEng
  · exact h₃

theorem State.sound.ckptReached (h : s.sound) {c : Ctx} {a t : Nat} : (ckptReached s c a t).sound := by
  unfold Machine.ckptReached
  split
  · exact h
  split
  · exact h
  · exact h.meetWord.ite h.meetWord.setReached

theorem State.sound.finishCopy (h : s.sound) {eng : Nat} {k : Cmd} {cut : Bool} : (finishCopy s eng k cut).sound := by
  unfold Machine.finishCopy
  extract_lets t s₁ _ key s₂
  have h₁ : s₁.sound := h.leavePath
  split
  · split
    · exact h₁.ckptReached
    · exact h₁
  · exact h₁.sched.modVd
  · exact h₁.modLaunch.sched
  · have h₂ : s₂.sound := by
      unfold s₂
      split
      · exact h₁.withDies.cleanRecords
      · exact h₁
    refine h₂.foldl fun s m h => ?_
    split
    · exact h.schedRecords.ite h
    · exact h
  · exact h₁

theorem State.sound.copyCut (h : s.sound) {eng : Nat} {k : Cmd} {kind j : Nat} {l : Option Nat} : (copyCut s eng k kind j l).sound := by
  unfold Machine.copyCut
  extract_lets kd tag s₁ s₂
  have h₁ : s₁.sound := h.ite h.truncBoth
  have h₂ : s₂.sound := by
    unfold s₂
    split
    · exact h₁.modLaunch.ite h₁
    · exact h₁
  exact h₂.finishCopy

theorem State.sound.sourceCut (h : s.sound) {eng : Nat} {k : Cmd} {kind j a : Nat} {l : Option Nat} :
    (sourceCut s eng k kind j a l).sound := h.putEng.schedEng

theorem State.sound.sendPacket (h : s.sound) {eng : Nat} {p : Packet} : (sendPacket s eng p).sound := by
  unfold Machine.sendPacket
  split
  next o s₁ he =>
  have h₁ : s₁.sound := by
    split at he <;> cases he
    · exact h.withFree
    · exact h
  split
  next d s₂ he =>
  have h₂ : s₂.sound := by
    cases he
    exact h₁.withFree
  extract_lets t _ s₃
  have h₃ : s₃.sound := h₂.withLinks
  split
  · exact h₃.schedEng
  · exact h₃.schedEng
  · exact h₃.schedEng
  · exact h₃.withLinks.schedEng

theorem State.sound.packetAckTimeout (h : s.sound) {p : Nat} : (execPacketAckTimeout p s).sound := by
  unfold execPacketAckTimeout
  split
  · exact h
  split
  · exact h
  · exact Out.sound.ite h.copyCut (Out.sound.ite h.copyCut h.sendPacket)

theorem State.sound.packetRefusedResend (h : s.sound) {p : Nat} : (execPacketRefusedResend p s).sound := by
  unfold execPacketRefusedResend
  split
  · exact h
  split
  · exact h
  · exact h.sendPacket

theorem State.sound.copyStart (h : s.sound) {eng id : Nat} : (execCopyStart eng id s).sound := by
  unfold execCopyStart
  split
  · exact h
  split
  · exact h.modEng
  extract_lets t paced k'
  split
  · exact h.modEng.finishCopy.ite h.modEng.engineFault
  split
  extract_lets k'' s₁
  have h₁ : s₁.sound := h.modEng
  split
  · exact h₁.schedEng
  · refine Out.sound.ite h₁.finishCopy ?_
    split
    · exact h₁.copyCut
    · exact h₁.schedEng

theorem Out.sound.of_next {o : Out} (ho : Out.sound o) (e : o = .next s) : s.sound := by
  rw [e] at ho
  exact ho

theorem State.sound.yieldMain (h : s.sound) {eng id : Nat} : (yieldMain s eng id).sound := by
  unfold Machine.yieldMain
  extract_lets
  split
  · split
    · exact h
    · split
      · exact h
      · split
        next he => exact h.copyStart.of_next he
        · exact h
  · exact h

theorem State.sound.copyStep (h : s.sound) {eng id : Nat} : (copyStep s eng id).sound := by
  unfold Machine.copyStep
  extract_lets s₁ t
  have h₁ : s₁.sound := h.yieldMain
  split
  · exact h₁
  split
  · exact h₁
  split
  · exact h₁
  split
  · exact h₁.finishCopy
  extract_lets n js s₂ got node r k'
  have h₂ : s₂.sound := by
    unfold s₂
    split
    · exact h₁.modVd.ite h₁
    · exact h₁
  clear_value s₂
  split
  · clear_value got
    split
    · exact h₂.leavePath.engineFault
    · exact h₂.sourceCut
    · exact h₂.withFree.fresh.putEng.sendPacket.schedEng.ite h₂.withFree.fresh.putEng.sendPacket
  · split
    next at_ s₃ he =>
    have h₃ : s₃.sound := by
      split at he <;> cases he
      · exact h₂.countedTicks
      · exact h₂
    clear he
    extract_lets k'' s₄ s₅
    have h₄ : s₄.sound := h₃.putEng
    have h₅ : s₅.sound := h₄.schedEng.ite h₄
    clear_value r
    split
    · exact h₅.leavePath.engineFault
    · exact h₅.sourceCut
    · exact h₅.schedEng.ite h₅

theorem State.sound.noteLate (h : s.sound) {c : Ctx} {k : Cmd} {p : Place} {n : Nat} : (noteLate s c k p n).sound := by
  unfold Machine.noteLate
  extract_lets
  split
  · exact h
  split
  · exact h
  · exact h.ite h.withLate

theorem State.sound.landWord (h : s.sound) {eng : Nat} {c : Ctx} {k : Cmd} {j : Nat} {bs : List Byte} {ps : List Nat} {b : Bool}
    (e : landWord s eng c k j bs ps b = .ok t) : t.sound := by
  unfold Machine.landWord at e
  split at e
  · cases e
  · cases e
  extract_lets word at e
  split at e
  · cases e
    exact h.writeHost.countNamed
  split at e
  · cases e
    exact h.withMemPoison
  split at e
  · split at e
    next hs =>
      cases e
      exact (h.landPad hs).noteLate
    · cases e
  · cases e
    exact h.landBytes.countNamed.noteLate

theorem State.sound.countStaged (h : s.sound) {eng : Nat} {k : Cmd} {n : Nat} : (countStaged s eng k n).sound := by
  unfold Machine.countStaged
  split
  · exact h.countWord
  · exact h

theorem State.sound.landWords (h : s.sound) {eng : Nat} {c : Ctx} {k : Cmd} {n j : Nat} {bs : List Byte} :
    (landWords s eng c k n j bs).1.sound := by
  induction n generalizing s j bs with
  | zero => exact h
  | succ n ih =>
    unfold Machine.landWords
    extract_lets ps
    split
    · exact h
    next hs => exact ih (h.landWord hs).countStaged

theorem State.sound.endCut (h : s.sound) {eng : Nat} {k : Cmd} : (endCut s eng k).sound := h.copyCut

theorem State.sound.copyWordLand (h : s.sound) {eng id j : Nat} : (execCopyWordLand eng id j s).sound := by
  unfold execCopyWordLand
  split
  · exact h
  next k _ =>
  split
  · exact h.finishCopy
  · exact h.finishCopy
  next c _ _ =>
  extract_lets n _ _ done bad _
  refine Out.sound.ite (h.endCut.ite (h.ite h.schedEng)) (Out.sound.ite h.schedEng (Out.sound.ite ?_ ?_))
  · split
    · exact h
    next p _ =>
    have hd {s : State} (h : s.sound) : (done s).sound := (h.endCut.ite h.finishCopy).ite h.putEng
    extract_lets s₁ marks _ s₂
    have h₁ : s₁.sound := h.withLinks
    have h₂ : s₂.sound := h₁.withLinks
    split
    · exact hd h₂.countNamed
    · have hl := h₁.landWords (eng := eng) (c := c) (k := { k with names := p.marks.map (fun w => 32 * j + w) }) (n := n) (j := j)
        (bs := p.bytes)
      split
      next he =>
        rw [he] at hl
        exact hl.copyCut
      next he =>
        rw [he] at hl
        exact hd hl
  · have hl := h.landWords (eng := eng) (c := c) (k := k) (n := n) (j := j) (bs := k.bytes)
    split
    next he =>
      rw [he] at hl
      exact hl.copyCut
    next he =>
      rw [he] at hl
      exact Out.sound.ite hl.finishCopy hl.putEng

theorem State.sound.copyMiss (h : s.sound) {eng id n : Nat} : (copyMiss s eng id n).sound := by
  unfold Machine.copyMiss
  split
  · exact h
  · exact h.modEng.engineFault

theorem State.sound.badWord (h : s.sound) {id j : Nat} : (badWord s id j).sound := by
  unfold Machine.badWord
  split
  · exact h
  · exact h.putEng.ite h

theorem State.sound.linkError (h : s.sound) {l : Nat} : (linkError s l).sound := h.withLinks

theorem State.sound.wordError (h : s.sound) {id j : Nat} : (wordError s id j).sound := by
  unfold Machine.wordError
  split
  · exact h
  split
  · exact h
  split
  · exact h
  split
  · split
    · exact h.linkError
    · exact h
  · exact h

theorem State.sound.badLoad (h : s.sound) {id : Nat} : (badLoad s id).sound := by
  unfold Machine.badLoad
  split
  · exact h
  · exact h.modUnit.linkError

theorem State.sound.badRecords (h : s.sound) {id : Nat} : (badRecords s id).sound := h.withEngines
theorem State.sound.badRead (h : s.sound) {id j : Nat} : (badRead s id j).sound := h.wordError.badWord.ite (h.badRecords.ite h.badLoad)

theorem State.sound.cxlLinkDown (h : s.sound) {l : Nat} : (execCxlLinkDown l s).sound := by
  unfold execCxlLinkDown
  extract_lets _ s₁ s₂
  have h₁ : s₁.sound := h.withLinks.linkError
  have h₂ : s₂.sound := h₁.mapUnits fun e => ⟨rfl, rfl, rfl⟩
  refine h₂.foldl fun s e h => h.foldl fun s k h => ?_
  split
  · exact h
  · exact h.foldl fun _ _ h => h.badWord

/-! ## Team dispatch -/

theorem State.sound.claimAll {l : List (Ctx × Nat)} (h : s.sound) {vd : Nat} {refs : List Nat} (e : claimAll s vd l = some (refs, t)) :
    t.sound := by
  induction l generalizing s refs with
  | nil =>
    cases e
    exact h
  | cons x l ih =>
    unfold Machine.claimAll at e
    extract_lets u r at e
    split at e
    · cases e
    next hc =>
    split at e
    · cases e
    next hg =>
    obtain ⟨⟨rs, t'⟩, hr, he⟩ := Option.map_eq_some_iff.mp e
    cases he
    exact ih ((h.claimRegion hc).charge hg) hr

theorem State.sound.giveBack (h : s.sound) {vd ref : Nat} : (giveBack s vd ref).sound := by
  unfold Machine.giveBack
  extract_lets r s₁ b
  have h₁ : s₁.sound := h.foldl fun _ _ h => h.endSublet
  exact h.ite h₁.refund.reclaim

theorem State.sound.releaseClaims (h : s.sound) {team vd : Nat} : (releaseClaims s team vd).sound :=
  (h.foldl fun _ _ h => h.giveBack).modTeam

theorem State.sound.planClaim (h : s.sound) {vd base : Nat} {bks : List Bucket} {counts units : List Nat} {k : Nat}
    {n : Nat} {ls : List (Nat × Work)} {refs : List Nat} (e : planClaim s vd base bks counts units k = some (n, ls, refs, t)) : t.sound := by
  induction k with
  | zero => cases e
  | succ k ih =>
    unfold Machine.planClaim at e
    extract_lets b ws at e
    split at e
    next hc =>
      simp only [Option.some.injEq, Prod.mk.injEq] at e
      obtain ⟨-, -, -, rfl⟩ := e
      exact h.claimAll hc
    · exact ih e

theorem State.sound.dispatch (h : s.sound) {m : Timing} {f : DispF} : (execDispatch m f s).sound := by
  unfold execDispatch
  have hd := h.deliver (bits := [21]) (i := .dispatch m f) (prep := dispatchPrep f)
  split
  next s' he =>
    have h' : s'.sound := hd.of_next he
    split
    next c' _ hc' => exact (h'.withCx (h'.of_cx hc')).ite h'
    · exact h'
  · exact hd

theorem State.sound.putSync (h : s.sound) {k : Cmd} : (putSync s k).sound := h.modDie
theorem State.sound.dropSync (h : s.sound) {core id : Nat} : (dropSync s core id).sound := h.modDie

theorem State.sound.buildPlan (h : s.sound) {team : Nat} : (buildPlan s team).sound := by
  unfold Machine.buildPlan
  split
  · exact h
  split
  · extract_lets
    split
    · exact h.sched
    next hp => exact (h.planClaim hp).modTeam.sched
  · exact h

theorem State.sound.dispatchCheck (h : s.sound) {team : Nat} : (dispatchCheck s team).sound := by
  unfold Machine.dispatchCheck
  split
  · exact h
  split
  · exact h
  split
  · split
    · exact h
    · extract_lets a n r
      clear_value r
      split
      · exact h.dropSync.engineFault
      · exact h.putSync.releaseClaims.buildPlan
  · exact h

theorem State.sound.dispatchArrive (h : s.sound) {k : Cmd} {t : Nat} : (dispatchArrive s k t).sound := by
  unfold Machine.dispatchArrive
  split
  · exact h.dropSync
  split
  · extract_lets s₁ s₂ m
    have h₂ : s₂.sound := h.putSync.modTeam
    exact (h₂.ite h₂.sched).ite h₂.dispatchCheck
  · exact h.dropSync

theorem State.sound.dispatchClaimRetry (h : s.sound) {team : Nat} : (execDispatchClaimRetry team s).sound := by
  unfold execDispatchClaimRetry
  refine State.sound.ite ?_ h
  split
  · exact h.dispatchCheck.ite h.buildPlan
  · exact h

theorem State.sound.givePlan (h : s.sound) {team uid : Nat} {w : Work} : (givePlan s team uid w).sound := by
  unfold Machine.givePlan
  split
  · exact h
  next c hc =>
  split
  · extract_lets c₁ c₂
    have h₂ : c₂.sound := (h.of_unitOf hc).wrPhys.wrPhys
    exact (h.setUnit h₂).dropSync
  · exact h

theorem State.sound.dispatchRelease (h : s.sound) {team : Nat} : (execDispatchRelease team s).sound :=
  (h.foldl fun _ _ h => h.givePlan).modTeam

theorem State.sound.listResults (h : s.sound) {k : Cmd} {t : Nat} {vs : List Nat} {p : Option Word} : (listResults s k t vs p).sound := by
  unfold Machine.listResults
  extract_lets s₁ s₂ s₃ s₄
  have h₂ : s₂.sound := h.putSync.modUnit fun _ hc => Ctx.sound.foldl hc fun _ _ hc => hc
  have h₃ : s₃.sound := h₂.foldl fun _ _ h => h.ite h.schedCmd
  have h₄ : s₄.sound := by
    unfold s₄
    split
    · exact h₃.schedCmd
    · exact h₃
  exact h₄.schedCmd

theorem State.sound.wlnextStart (h : s.sound) {c : Ctx} {k : Cmd} {t : Nat} : (wlnextStart s c k t).sound := by
  unfold Machine.wlnextStart
  split
  · exact h.listResults
  · exact h.modUnit.listResults

theorem State.sound.widStart (h : s.sound) {c : Ctx} {k : Cmd} {t : Nat} : (widStart s c k t).sound := h.listResults

theorem State.sound.syncStart (h : s.sound) {k : Cmd} {t : Nat} : (syncStart s k t).sound := by
  unfold Machine.syncStart
  split
  · exact h.dispatchArrive
  · exact h.wlnextStart
  · exact h.widStart
  · exact h.dropSync

/-! ## Errors of storage -/

theorem State.sound.modErrors (h : s.sound) {w : Nat} {f : List (Nat × Nat) → List (Nat × Nat)} : (modErrors s w f).sound := by
  unfold Machine.modErrors
  split
  extract_lets g
  split
  · exact h.withUpsets
  · exact h.modCore
  · exact h.modUnit

theorem State.sound.poisonWord (h : s.sound) {w : Nat} : (poisonWord s w).sound := by
  unfold Machine.poisonWord
  extract_lets add mark
  have hm {p : Nat × Nat} : (mark p).sound := h.withMemPoison
  exact hm.ite (hm.ite (h.ite (h.modCore.ite (h.modCore.ite (h.modUnit.ite hm)))))

theorem State.sound.flipWord (h : s.sound) {w bits : Nat} : (flipWord s w bits).sound := by
  unfold Machine.flipWord
  extract_lets flip f inRun
  refine h.ite (h.modDie.ite (h.modUnit.ite (h.modCore.ite (h.ite (h.modCore.ite (h.modCore.ite (State.sound.ite ?_ (State.sound.ite ?_ ?_))))))))
  · exact h.modCore fun _ hk => wf_writeRun _ _ _ hk
  · exact h.modUnit fun _ hc => wf_writeRun _ _ _ hc
  · exact h.withMem (wf_writeRun _ _ _ h.1.1)

theorem State.sound.missLine (h : s.sound) {w : Nat} : (missLine s w).sound := h.modCore

theorem State.sound.logStorage (h : s.sound) {w n : Nat} : (logStorage s w n).sound := h.logRel
theorem State.sound.pairFailed (h : s.sound) : (pairFailed s).sound := h.withNewel
theorem State.sound.uncorrectable (h : s.sound) {w : Nat} : (uncorrectable s w).sound := h.ite (h.sched.ite (h.pairFailed.ite h))
theorem State.sound.settleGroup (h : s.sound) {g : Nat} : (settleGroup s g).sound := h.modErrors

theorem State.sound.recoverGroup (h : s.sound) {b : Bool} {g : Nat} : (recoverGroup s b g).sound := by
  unfold Machine.recoverGroup
  extract_lets fl v vert
  clear_value fl vert
  split
  · exact h.ite (h.settleGroup.foldl fun _ _ h => h.poisonWord).logStorage.uncorrectable
  · exact h.ite h.settleGroup.logStorage
  · exact (h.ite h.flipWord).settleGroup.logStorage
  · exact h.settleGroup.foldl fun _ _ h => h.flipWord.poisonWord.logStorage.uncorrectable

theorem State.sound.addError (h : s.sound) {w e : Nat} : (addError s w e).sound := h.modErrors.ite h.modErrors.flipWord
theorem State.sound.delayOwn (h : s.sound) {id : Nat} : (delayOwn s id).sound := h.withAgenda
theorem State.sound.stallPath (h : s.sound) {core : Nat} : (stallPath s core).sound := h.modCore.withAgenda

/-! ## Starts and steps of engine entries -/

theorem State.sound.mgdrainStart (h : s.sound) {c : Ctx} {k : Cmd} {t : Nat} : (mgdrainStart s c k t).sound := by
  unfold Machine.mgdrainStart
  exact Res.sound.ite h.drainGo trivial

theorem State.sound.freshStart (h : s.sound) {c : Ctx} {k : Cmd} {t : Nat} : (freshStart s c k t).sound := by
  unfold Machine.freshStart
  split
  · exact h.mloadwStart
  · exact h.mmulStart
  · exact h.mgradStart
  · exact h.mgdrainStart
  · exact h.mresStart
  · exact h.slclaimStart
  · exact h.slrelStart
  · exact h.nestStart
  · exact h.sortStart
  · exact h.xferStart
  · exact h.xferStart
  · exact h.esaveStart
  · exact h.eloadStart
  · exact h.xsendStart
  · exact h.xrecvStart
  · exact h.vecStart

theorem State.sound.goOnFrom (h : s.sound) {c : Ctx} {k : Cmd} {d : Option Nat} {t : Nat} : (goOnFrom s c k d t).sound := by
  unfold Machine.goOnFrom
  split
  · exact h.rowsGo
  · exact h.rowsGo
  · exact h.rowsGo
  · exact h.drainGo
  · exact h.nestStart
  · exact h.sortStart
  · extract_lets
    refine Res.sound.ite ?_ h.xferGo
    split
    · exact h.xferGo
    · trivial
  · exact h.xferGo
  · trivial

theorem State.sound.resumeStart (h : s.sound) (hc : c.sound) {q : Nat} {k : Cmd} {t : Nat} : (resumeStart s c q k t).sound := by
  unfold Machine.resumeStart
  split
  · trivial
  extract_lets _ m c' s₁
  have h₁ : s₁.sound := (h.setUnit hc).putCmd
  exact Res.sound.ite h₁.freshStart (Res.sound.ite h₁.putCmd.completeAt h₁.goOnFrom)

theorem State.sound.startEntry (h : s.sound) {q : Nat} {k : Cmd} : (startEntry s q k).sound := by
  unfold Machine.startEntry
  extract_lets t s₁ k'
  split
  · exact h.dropCmds
  next c hc =>
  have h₁ : s₁.sound := h.modCore
  split
  · exact (h₁.foldl fun _ _ h => h.recoverGroup).putCmd.microAt
  · have hr : Res.sound (match k.ins with | .resume _ _ => Machine.resumeStart s₁ c q k t | _ => Machine.freshStart s₁ c k t : Res State) := by
      split
      · exact h₁.resumeStart (h.of_unitOf hc)
      · exact h₁.freshStart
    split
    next he => exact hr.of_ok he
    · exact h.engineFault

theorem State.sound.lateStart (h : s.sound) {q : Nat} {k : Cmd} {t : Nat} : (lateStart s q k t).sound := by
  unfold Machine.lateStart
  extract_lets k'
  split
  · exact h
  split
  next he => exact h.putCmd.freshStart.of_ok he
  · exact h.engineFault

theorem State.sound.queueEntryStart (h : s.sound) {core q : Nat} : (execQueueEntryStart core q s).sound := by
  unfold execQueueEntryStart
  split
  · split
    · exact h.syncStart
    · exact h
  · split
    · exact h
    · exact h.startEntry
    · exact h.engineFault

theorem State.sound.stepCmd (h : s.sound) {core q id : Nat} : (stepCmd s core q id).sound := by
  unfold Machine.stepCmd
  extract_lets t
  split
  · exact h.dropSync
  split
  · exact h
  split
  · exact h.mulStep
  · exact h.mulStep
  · exact h.mresStep
  · split
    · exact h
    · split
      next he => exact h.nestMicro he
      · exact h.dropOwned.engineFault
  · exact h.xferStep
  · exact h.xferStep
  · exact h.xsendStep
  · exact h.vecStep

theorem State.sound.performMicro (h : s.sound) {core q id : Nat} : (performMicro s core q id).sound := by
  unfold Machine.performMicro
  extract_lets t
  generalize (if q = 6 then none else running s core q id) = r
  split
  · exact h.stepCmd
  split
  · exact h.lateStart
  split
  · exact h.stepCmd
  generalize (if (allErrors s).isEmpty = true then _ else _) = gs
  split
  · exact h.stepCmd
  · exact (h.foldl fun _ _ h => h.recoverGroup).putCmd.microAt

/-! ## Launches and teams -/

theorem State.sound.endLaunchAt (h : s.sound) {a b d e : Nat} {i : Word} : (endLaunchAt s a b d i e).sound := h.ite h.modLaunch.sched
theorem State.sound.endLaunch (h : s.sound) {a b d : Nat} {i : Word} : (endLaunch s a b d i).sound := h.endLaunchAt

theorem State.sound.enterLaunch (h : s.sound) {vd q n : Nat} {r : LaunchRec} : (enterLaunch s vd q n r).sound := by
  unfold Machine.enterLaunch
  extract_lets cancelled ts
  split
  next id s' he =>
  have h' : s'.sound := by simpa [he] using h.fresh
  extract_lets l s₁ s₂
  have h₁ : s₁.sound := h'.withLaunches
  have h₂ : s₂.sound := (h₁.foldl fun _ _ h => h.fresh.withTeams).poke
  exact h₂.endLaunch.ite h₂

theorem State.sound.endSoftly (h : s.sound) {a b : Nat} {i : Word} : (endSoftly s a b i).sound := h.ite (h.modLaunch.ite h.endLaunch)
theorem State.sound.passRegions (h : s.sound) {c : Ctx} : (passRegions s c).sound := h.withRents
theorem State.sound.giveBackItem (h : s.sound) {c : Ctx} {r : Nat} : (giveBackItem s c r).sound := h.giveBack.ite h

theorem State.sound.releaseGrant (h : s.sound) {c : Ctx} : (releaseGrant s c).sound :=
  ((h.foldl fun _ _ h => h.giveBackItem).giveBackItem.foldl fun _ _ h => h.giveBack).modUnit

theorem State.sound.chargeTeam (h : s.sound) {t : Nat} : (chargeTeam s t).sound := h.modVd
theorem State.sound.freeHolder (h : s.sound) {core : Nat} : (freeHolder s core).sound := h.ite h.modCore

theorem State.sound.filterUnits (h : s.sound) {p : Nat × Ctx → Bool} {q : Ctx → Bool} :
    State.sound { s with units := s.units.filter p, cx := s.cx.filter q } := by
  obtain ⟨⟨hm, hh, hw, hu, hx, hk, hi⟩, hn⟩ := h
  exact ⟨⟨hm, hh, hw, fun u e => hu u (List.mem_of_mem_filter e), fun c e => hx c (Option.eq_some_of_filter_eq_some e), hk, hi⟩,
    fun u e => hn u (List.mem_of_mem_filter e)⟩

theorem State.sound.endTeam (h : s.sound) {t : Nat} : (endTeam s t).sound := by
  unfold Machine.endTeam
  extract_lets us m vd s₁ s₂ s₃ ids s₄ s₅
  have h₁ : s₁.sound := h.chargeTeam.ite h
  have h₃ : s₃.sound := h₁.releaseClaims.foldl fun _ _ h => h.releaseGrant
  have h₄ : s₄.sound := h₃.filterUnits
  have h₅ : s₅.sound := h₄.foldl fun _ _ h => h.freeHolder
  exact h₅.modTeam.poke

theorem State.sound.unitDone (h : s.sound) {c : Ctx} : (unitDone s c).sound := by
  unfold Machine.unitDone
  extract_lets s₁ s₂ s₃ s₄ s₅ l
  have h₄ : s₄.sound := h.passRegions.modLaunch.gsyncArrived.dispatchCheck
  have h₅ : s₅.sound := h₄.endTeam.ite h₄
  exact h₅.ite (h₅.endLaunch.ite (h₅.modLaunch.sched.ite h₅))

theorem State.sound.dropRegistrations (h : s.sound) {c : Ctx} : (dropRegistrations s c).sound := by
  refine h.foldl fun s r h => ?_
  extract_lets
  split
  · exact h
  · exact h.ite h.dropAt

theorem State.sound.discard (h : s.sound) {u : Nat} : (discard s u).sound := by
  unfold Machine.discard
  split
  · exact h
  split
  · exact h
  extract_lets mine copies exch s₁ s₂ s₃ s₄ s₅
  have h₁ : s₁.sound := h.dropCmds
  have h₂ : s₂.sound := h₁.withDies
  have h₃ : s₃.sound := h₂.withEngines
  have h₄ : s₄.sound := h₃.foldl fun _ _ h => h.foldl fun _ _ h => h.copyCut
  exact h₄.withAgenda.modUnit

theorem State.sound.killContext (h : s.sound) {u : Nat} : (killContext s u).sound := by
  unfold Machine.killContext
  split
  · exact h
  split
  · exact h
  · exact h.dropRegistrations.discard.dropCmds.withAgenda.passRegions.modUnit

theorem State.sound.windDown (h : s.sound) {id : Nat} {us : List Nat} : (windDown s id us).2.sound := by
  unfold Machine.windDown
  extract_lets check
  have hk {s : State} (h : s.sound) : (check s).2.sound := by
    unfold check
    split
    · exact h
    · exact h.sched
  split
  · exact hk h
  · exact hk (h.foldl fun _ _ h => h.enginesStop).modLaunch
  · split
    · exact h
    · exact (h.foldl fun _ _ h => h.discard).withFree.modLaunch.sched

theorem State.sound.addCompletion (h : s.sound) {vd : Nat} {k : Completion} : (addCompletion s vd k).sound := h.modVd.schedNewel

theorem State.sound.raiseDone (h : s.sound) {vd a : Nat} : (raiseDone s vd a).sound := by
  unfold Machine.raiseDone
  extract_lets
  split
  · exact h
  split
  · exact h
  · exact h.ite h.storePlace

theorem State.sound.takeEffect (h : s.sound) {id st : Nat} {b : Bool} : (takeEffect s id st b).sound := by
  unfold Machine.takeEffect
  extract_lets l s₁ s₂ s₃
  have h₁ : s₁.sound := h.modLaunch
  have h₂ : s₂.sound := h₁.ite h₁.raiseDone
  have h₃ : s₃.sound := h₂.modVd
  exact h.ite (h₃.foldl fun _ _ h => h.endLaunchAt.ite h).poke

theorem State.sound.dropStaging (h : s.sound) {id : Nat} : (dropStaging s id).sound := h.ite h.modLaunch.freeRent

theorem State.sound.leaveLaunch (h : s.sound) {id st : Nat} {b : Bool} : (leaveLaunch s id st b).sound := by
  unfold Machine.leaveLaunch
  extract_lets ts s₁ s₂ s₃ s₄ l s₅ _ s₆
  have h₁ : s₁.sound := h.foldl fun _ _ h => h.killContext
  have h₂ : s₂.sound := h₁.foldl fun _ _ h => h.ite h.endTeam
  have h₅ : s₅.sound := h₂.takeEffect.dropStaging.journal
  have h₆ : s₆.sound := h₅
  exact h₆.addCompletion

theorem State.sound.countHalted (h : s.sound) {id : Nat} : (countHalted s id).sound := h.modLaunch

theorem State.sound.launchEnd (h : s.sound) {id : Nat} : (execLaunchEnd id s).sound := by
  unfold execLaunchEnd
  split
  · exact h
  split
  · exact h
  next l _ st _ =>
  extract_lets reported s₁ _ s₂ s₃
  have h₁ : s₁.sound := h.takeEffect
  have h₂ : s₂.sound := h.modLaunch
  have h₃ : s₃.sound := (h₂.ite h₂.countHalted).takeEffect
  refine Out.sound.ite (h.ite (h.modLaunch.ite h₁.withNewel)) (Out.sound.ite h.countHalted.leaveLaunch.poke ?_)
  have hw := h₃.windDown (id := id) (us := launchUnits s₃ id)
  split
  next he =>
    rw [he] at hw
    exact hw.leaveLaunch.poke.ite hw

end Sys2Proof.Machine
end

section
/-!
SUPPORT. Soundness of states: issue, saves, moves between cores and host queues (O50).
-/
set_option Elab.async false
namespace Sys2Proof.Machine
open Sys2Proof Sys2Proof.Laws
variable {s t : State} {c : Ctx} {k : CoreSt}

theorem State.sound.readInit (h : s.sound) {id : Nat} : (readInit s id).sound := by
  unfold Machine.readInit
  extract_lets l
  split
  · exact h
  split
  · exact h
  · exact h.postPageRequest
  · exact h.endLaunch
  · split
    · exact h.endLaunch
    · exact h.modLaunch

theorem State.sound.askPages (h : s.sound) {id : Nat} : (askPages s id).sound := h.foldl fun _ _ h => h.postPageRequest

theorem State.sound.freeTest (h : s.sound) {core : Nat} : (freeTest s core).sound := h.ite (h.modCore.foldl fun _ _ h => h.freeRent)

theorem State.sound.raiseVector (h : s.sound) {vd q : Nat} : (raiseVector s vd q).sound := h.withVectors.ite h
theorem State.sound.drainCheck (h : s.sound) {vd q : Nat} : (drainCheck s vd q).sound := h.schedNewel.ite h
theorem State.sound.retire (h : s.sound) : (retire s).sound := h.withNewel
theorem State.sound.modQueue (h : s.sound) {vd q : Nat} {f : Queue → Queue} : (modQueue s vd q f).sound := h.modVd

theorem State.sound.writeCompletion (h : s.sound) {vd : Nat} {k : Completion} : (writeCompletion s vd k).sound := by
  unfold Machine.writeCompletion
  extract_lets q tail s₁ s₂ r full s₃ s₄
  have h₁ : s₁.sound := h.journal
  have h₂ : s₂.sound := h₁.withWindow (wf_writeRun _ _ _ h₁.window)
  have h₃ : s₃.sound := h₂.modQueue
  have h₄ : s₄.sound := h₃.raiseVector.ite h₃.schedNewel
  exact h₄.drainCheck.retire

theorem State.sound.writeCompletions (h : s.sound) {n vd : Nat} : (writeCompletions n s vd).sound := by
  induction n generalizing s with
  | zero => exact h
  | succ n ih =>
    unfold Machine.writeCompletions
    extract_lets v
    split
    · exact h
    · exact h.ite (ih h.modVd.writeCompletion)

theorem State.sound.flushNow (h : s.sound) {vd : Nat} : (flushNow s vd).sound := h.writeCompletions
theorem State.sound.flushCompletions (h : s.sound) {vd : Nat} : (flushCompletions s vd).sound := h.ite h.flushNow
theorem State.sound.completionWrite (h : s.sound) {vd : Nat} : (execCompletionWrite vd s).sound := h.flushCompletions

theorem State.sound.coalesceTimeout (h : s.sound) {vd q : Nat} : (execCoalesceTimeout vd q s).sound :=
  Out.sound.ite h h.modQueue.raiseVector

/-! ## Issue -/

/-- An optional computation in two parts gives a result only if each part does. -/
theorem some_of_bind {α β : Type} {x : Option α} {f : α → Option β} {r : β} (h : x >>= f = some r) :
    ∃ a, x = some a ∧ f a = some r := Option.bind_eq_some_iff.mp h

theorem State.sound.foldlM (h : s.sound) {β : Type} {l : List β} {f : State → β → Option State}
    (hf : ∀ s x t, s.sound → f s x = some t → t.sound) (e : l.foldlM f s = some t) : t.sound := by
  induction l generalizing s with
  | nil =>
    cases e
    exact h
  | cons x l ih =>
    rw [List.foldlM_cons] at e
    obtain ⟨s', hs, e⟩ := some_of_bind e
    exact ih (hf s x s' h hs) e

theorem State.sound.grantItem (h : s.sound) {c : Ctx} {r : Rent} {e : Option Nat} {ref : Nat} (hg : grantItem s c r e = some (ref, t)) :
    t.sound := by
  unfold Machine.grantItem at hg
  extract_lets tk r' at hg
  obtain ⟨s₁, h₁, hg⟩ := some_of_bind hg
  split at hg
  · cases hg
    exact (h.charge h₁).makeRegion
  · exact (h.charge h₁).claimRegion hg

theorem State.sound.grantTier0 (h : s.sound) {uid n u : Nat} (hg : grantTier0 s uid n u = some t) : t.sound := by
  obtain ⟨c, -, hg⟩ := some_of_bind hg
  obtain ⟨b, -, hg⟩ := some_of_bind hg
  obtain ⟨⟨ref, s₁⟩, h₁, hg⟩ := some_of_bind hg
  refine (h.grantItem h₁).modUnit.foldlM (fun s i t h e => ?_) hg
  obtain ⟨c, -, e⟩ := some_of_bind e
  obtain ⟨p, -, e⟩ := some_of_bind e
  obtain ⟨s₂, h₂, e⟩ := some_of_bind e
  cases e
  exact (h.charge h₂).takeSlot

theorem State.sound.grantPad (h : s.sound) {uid a n u ref : Nat} (hg : grantPad s uid a n u = some (ref, t)) : t.sound := by
  unfold Machine.grantPad at hg
  split at hg
  · cases hg
    exact h
  · obtain ⟨c, -, hg⟩ := some_of_bind hg
    obtain ⟨⟨ref, s₁⟩, h₁, hg⟩ := some_of_bind hg
    cases hg
    exact (h.grantItem h₁).modUnit

theorem State.sound.grantTier1 (h : s.sound) {uid n u : Nat} (hg : grantTier1 s uid n u = some t) : t.sound := by
  obtain ⟨⟨a, s₁⟩, h₁, hg⟩ := some_of_bind hg
  obtain ⟨⟨b, s₂⟩, h₂, hg⟩ := some_of_bind hg
  cases hg
  exact ((h.grantPad h₁).grantPad h₂).modUnit

theorem State.sound.grantTier2 (h : s.sound) {uid n u : Nat} (hg : grantTier2 s uid n u = some t) : t.sound := by
  obtain ⟨c, -, hg⟩ := some_of_bind hg
  obtain ⟨⟨ref, s₁⟩, h₁, hg⟩ := some_of_bind hg
  cases hg
  exact (h.grantItem h₁).modUnit

theorem State.sound.writeGrantRecord (h : s.sound) {uid : Nat} : (writeGrantRecord s uid).sound := by
  unfold Machine.writeGrantRecord
  split
  · exact h
  · exact h.writeSpace.ite h

theorem State.sound.unitAt (h : s.sound) {team i core : Nat} : (unitAt s team i core).1.sound ∧ (unitAt s team i core).2.sound :=
  ⟨(rfl : Mem.wf [] = true), h⟩

theorem State.sound.startSlice (h : s.sound) {vd : Nat} : (startSlice s vd).sound := h.ite h.journal.modVd.flushCompletions.sched

theorem State.sound.schedBudget (h : s.sound) {uid : Nat} : (schedBudget s uid).sound := by
  unfold Machine.schedBudget
  split
  · exact h
  · exact h.schedC

theorem State.sound.readyUnit (h : s.sound) {uid a n : Nat} : (readyUnit s uid a n).sound := by
  unfold Machine.readyUnit
  split
  · exact h
  next c _ =>
  split
  next d s' he =>
  have h' : s'.sound := by
    cases he
    exact h.withFree
  extract_lets start s₁ s₂ s₃ image s₄
  have h₃ : s₃.sound := h'.clearContext.modCore.writeGrantRecord
  have h₄ : s₄.sound := by
    unfold s₄
    split
    · exact h₃.ite h₃.writeSpace
    · exact h₃
  exact h₄.modUnit.meetLandings.schedBudget

theorem State.sound.sendDescriptor (h : s.sound) {g : Nat} : (sendDescriptor s g).sound := h.withNewel

theorem State.sound.unitsAt (h : s.sound) {team : Nat} {l : List (Nat × Nat)} {us : List Nat} :
    State.sound (l.foldl (fun (x : List Nat × State) p =>
      let (c, s) := Machine.unitAt x.2 team p.1 p.2
      (x.1 ++ [c.uid], Machine.setUnit s c)) (us, s)).2 := by
  refine List.foldlRecOn (motive := fun x : List Nat × State => x.2.sound) _ _ h fun x hx p _ => ?_
  obtain ⟨hc, hs⟩ := State.sound.unitAt (team := team) (i := p.1) (core := p.2) hx
  exact hs.setUnit hc

theorem State.sound.issueTeam (h : s.sound) {team : Nat} {cores : List Nat} (e : issueTeam s team cores = some t) : t.sound := by
  unfold Machine.issueTeam at e
  extract_lets m l tk u s₁ at e
  have h₁ : s₁.sound := h.foldl fun _ _ h => h.freeTest
  have hu := h₁.unitsAt (team := team) (l := (List.range cores.length).zip cores) (us := [])
  split at e
  next us s₂ he =>
    have h₂ : s₂.sound := by
      have : s₂ = _ := (congrArg Prod.snd he).symm
      exact this ▸ hu
    obtain ⟨s₃, h₃, e⟩ := some_of_bind e
    obtain ⟨s₄, h₄, e⟩ := some_of_bind e
    obtain ⟨s₅, h₅, e⟩ := some_of_bind e
    have h₅ : s₅.sound := ((h₂.foldlM (fun _ _ _ h e => h.grantTier0 e) h₃).foldlM (fun _ _ _ h e => h.grantTier1 e) h₄).foldlM
      (fun _ _ _ h e => h.grantTier2 e) h₅
    cases e
    exact (h₅.startSlice.journal.sendDescriptor.foldl fun _ _ h => h.readyUnit).modTeam.modLaunch

theorem State.sound.teamIssue (h : s.sound) {team : Nat} : (execTeamIssue team s).sound := by
  unfold execTeamIssue
  split
  · exact h
  · split
    next he =>
      obtain ⟨cores, -, e⟩ := some_of_bind he
      exact (h.issueTeam e).poke
    · exact h

theorem State.sound.stageStart (h : s.sound) {id : Nat} : (execStageStart id s).sound := by
  unfold execStageStart
  extract_lets l
  split
  · exact h
  · split
    · exact h
    next he =>
      refine State.sound.foldl ?_ fun _ _ h => h.modEng
      exact ((h.claimRegion he).withNextId.journal.modLaunch).putWord

theorem State.sound.stagingDone (h : s.sound) {id : Nat} : (stagingDone s id).sound := h.modLaunch.dropStaging.journal.poke

theorem State.sound.stageComplete (h : s.sound) {id : Nat} : (execStageComplete id s).sound :=
  Out.sound.ite h (Out.sound.ite h.modLaunch.endLaunch (Out.sound.ite h.modLaunch.endLaunch (h.modLaunch.stagingDone.ite h.modLaunch)))

theorem State.sound.refill (h : s.sound) {a b : Nat} {l : List Nat} : (refill s a b l).sound := h.foldl fun _ _ h => h.modVd

theorem State.sound.servedVd (h : s.sound) {level v : Nat} {a b : List Nat} (e : servedVd s level a b = some (v, t)) : t.sound := by
  unfold Machine.servedVd at e
  extract_lets pick s₁ at e
  have h₁ : s₁.sound := h.refill
  split at e
  · cases e
    exact h
  · obtain ⟨v, -, e⟩ := Option.map_eq_some_iff.mp e
    have ht : s₁ = t := (Prod.ext_iff.mp e).2
    exact ht ▸ h₁

theorem State.sound.levelTurn (h : s.sound) {l : List Nat} {n : Nat} : (levelTurn s l n).2.sound := by
  unfold Machine.levelTurn
  extract_lets here waiting
  split
  · exact h.ite h.refill
  · split
    next he => exact (h.servedVd he).withNewel
    · exact h

theorem State.sound.nextTeam (h : s.sound) {f : State → Nat → List Nat → Option State} : (nextTeam s f).2.sound := by
  unfold Machine.nextTeam
  extract_lets aged ready
  split
  · exact h
  · refine List.foldlRecOn (motive := fun x : Option Nat × State => x.2.sound) _ _ h fun x hx level _ => ?_
    split
    · exact hx
    · exact State.sound.levelTurn hx

theorem State.sound.notePages (h : s.sound) {id : Nat} : (notePages s id).sound := h.modLaunch

theorem State.sound.reviewLaunch (h : s.sound) {id : Nat} : (reviewLaunch s id).sound := by
  unfold Machine.reviewLaunch
  extract_lets s₁ l s₂
  have h₁ : s₁.sound := h.readInit.notePages
  have h₂ : s₂.sound := h₁.askPages
  exact h₁.ite (h₁.endSoftly.ite (h₂.ite h₂.sched))

theorem State.sound.reviewTeam (h : s.sound) {id : Nat} : (reviewTeam s id).sound :=
  h.ite (h.endLaunch.ite (h.ite (h.endSoftly.ite (h.modTeam.ite (h.ite h.modTeam.schedNewel)))))

theorem State.sound.teamAged (h : s.sound) {id : Nat} : (execTeamAged id s).sound := Out.sound.ite h h.modTeam.poke

theorem State.sound.preemptTeam (h : s.sound) {a b : Nat} : (preemptTeam s a b).sound := h.modTeam.foldl fun _ _ h => h.interrupt
theorem State.sound.sliceLeaves (h : s.sound) {a : Nat} : (sliceLeaves s a).sound := h.modTeam.ite h.preemptTeam

theorem State.sound.sliceEnd (h : s.sound) {vd : Nat} : (execSliceEnd vd s).sound := by
  unfold execSliceEnd
  extract_lets v t s₁ s₂ s₃
  have h₁ : s₁.sound := h.foldl fun _ _ h => h.sliceLeaves
  have h₂ : s₂.sound := h.foldl fun _ _ h => h.sliceLeaves
  have h₃ : s₃.sound := h₂.modVd
  exact Out.sound.ite h (Out.sound.ite h₁.journal.modVd.poke h₃.flushCompletions.sched)

/-! ## Saves -/

theorem State.sound.retarget (h : s.sound) {a b : Nat} : (retarget s a b).sound := h.withMoved
theorem State.sound.releaseBank (h : s.sound) {c : Ctx} : (releaseBank s c).sound := h.modUnit.ite h.modUnit.retarget.giveBack

theorem State.sound.takeSaveArea (h : s.sound) {c : Ctx} : (takeSaveArea s c).sound := by
  unfold Machine.takeSaveArea
  split
  · exact h
  · extract_lets
    split
    next he => exact (h.grantItem he).modUnit
    · exact h

theorem State.sound.descheduled (h : s.sound) {team : Nat} : (descheduled s team).sound := h.ite h.chargeTeam.journal.modTeam.poke

theorem State.sound.fillSaveArea (h : s.sound) {c : Ctx} : (fillSaveArea s c).sound := by
  unfold Machine.fillSaveArea
  extract_lets sp old s₁ s₂ s₃ s₄
  have h₁ : s₁.sound := h.withMem (wf_join _ _ (wf_filter _ _ h.1.1))
  have h₄ : s₄.sound := h₁.writeSpace.writeSpace.writeSpace
  exact h.ite (h₄.foldl fun _ _ h => h.writeSpace)

theorem State.sound.contextSaveDone (h : s.sound) {uid : Nat} : (execContextSaveDone uid s).sound := by
  unfold execContextSaveDone
  split
  · exact h
  next c _ =>
  split
  · exact h
  extract_lets s₁ s₂ s₃ s₄ s₅
  have h₁ : s₁.sound := h.takeSaveArea
  have h₂ : s₂.sound := by
    unfold s₂
    split
    · exact h₁.fillSaveArea
    · exact h₁
  have h₅ : s₅.sound := h₂.releaseBank.modUnit.descheduled
  exact h₅.sched.ite h₅

/-! ## Moves of a unit to a core, and its return -/

/-- A memory whose cells move to other addresses in the same order stays in canonical form. -/
theorem wf_map {f : Nat → Nat} {m : Mem} (hm : m.wf = true) (hf : ∀ x ∈ m, ∀ y ∈ m, x.1 < y.1 → f x.1 < f y.1) :
    Mem.wf (m.map (fun x => (f x.1, x.2))) = true := by
  induction m with
  | nil => rfl
  | cons x m ih =>
    simp only [Mem.wf, Bool.and_eq_true, List.all_eq_true, decide_eq_true_eq] at hm
    obtain ⟨⟨hx, hl⟩, hm⟩ := hm
    simp only [List.map_cons, Mem.wf, Bool.and_eq_true, List.all_eq_true, decide_eq_true_eq]
    refine ⟨⟨hx, List.forall_mem_map.mpr fun y hy => hf x List.mem_cons_self y (List.mem_cons_of_mem _ hy) (hl y hy)⟩, ?_⟩
    exact ih hm fun y hy z hz => hf y (List.mem_cons_of_mem _ hy) z (List.mem_cons_of_mem _ hz)

theorem State.sound.savedBank (h : s.sound) (hc : c.sound) : (savedBank s c).wf = true := by
  unfold Machine.savedBank
  extract_lets sp
  split
  · exact hc
  · refine wf_map (f := fun a => a - locOf sp 0) (wf_filter _ _ h.1.1) fun x hx y hy hxy => ?_
    have hx' := (List.mem_filter.mp hx).2
    simp only [Bool.and_eq_true, decide_eq_true_eq] at hx'
    omega

theorem CoreSt.sound.fillSlot (hk : k.sound) {p : Nat} {b : Mem} {l : List Nat} : (fillSlot k p b l).sound :=
  wf_writeRun _ _ _ (wf_filter _ _ hk)

theorem State.sound.detach (h : s.sound) {l : List Nat} : (detach s l).2.sound := by
  unfold Machine.detach
  extract_lets all body
  refine List.foldlRecOn (motive := fun x : List CarriedRent × State => x.2.sound) _ _ h fun x hx ref _ => ?_
  exact (State.sound.retarget hx).modRent

theorem State.sound.attach {l : List CarriedRent} (h : s.sound) {core : Nat} {ms ns : List (Nat × Nat)}
    (e : attach s core l ms = some (ns, t)) : t.sound := by
  induction l generalizing s ms with
  | nil =>
    cases e
    exact h
  | cons k l ih =>
    unfold Machine.attach at e
    extract_lets die parent up _ at e
    obtain ⟨⟨new, item, s₁⟩, he, e⟩ := some_of_bind e
    have h₁ : s₁.sound := by
      split at he
      · obtain ⟨p, -, he⟩ := Option.map_eq_some_iff.mp he
        cases he
        exact h
      · obtain ⟨⟨p, s'⟩, hf, he⟩ := Option.map_eq_some_iff.mp he
        cases he
        exact h.freeEntry hf
    dsimp -zeta only at e
    generalize hp : (if k.body.sub = true then _ else _) = p at e
    obtain ⟨base, s₂⟩ := p
    have h₂ : s₂.sound := by
      split at hp
      · cases hp
        exact h₁
      · have := h₁.placeRegion (die := die) (r := { k.body with core := core, item := item })
        rwa [hp] at this
    dsimp -zeta only at e
    extract_lets s₃ s₄ s₅ at e
    have h₄ : s₄.sound := h₂.modRent.withMoved
    have h₅ : s₅.sound := (h₄.modCore fun _ hk => hk.fillSlot).ite h₄
    exact ih h₅.schedRent e

theorem State.sound.restoreBank (h : s.sound) {uid start : Nat} (e : restoreBank s uid start = some t) : t.sound := by
  obtain ⟨c, -, e⟩ := some_of_bind e
  obtain ⟨b, -, e⟩ := some_of_bind e
  obtain ⟨⟨ref, s₁⟩, h₁, e⟩ := some_of_bind e
  cases e
  exact (h.grantItem h₁).withMoved.modCore.modUnit

theorem State.sound.leaveCore (h : s.sound) {uid core : Nat} : (leaveCore s uid core).2.sound := by
  unfold Machine.leaveCore
  split
  · exact h
  next c _ =>
  have hd := h.detach (l := carriedRefs s c)
  split
  next rs s' he =>
  rw [he] at hd
  refine State.sound.modCore hd fun k hk => ?_
  exact wf_filter _ _ (CoreSt.sound.foldl hk fun _ _ hk => hk.modEntry)

theorem State.sound.reachCore (h : s.sound) {m : Mover} {start : Nat} (e : reachCore s m start = some t) : t.sound := by
  obtain ⟨c, -, e⟩ := some_of_bind e
  obtain ⟨⟨ms, s₁⟩, h₁, e⟩ := some_of_bind e
  dsimp -zeta only at e
  extract_lets new slots slotOf s₂ s₃ at e
  have h₃ : s₃.sound := (h.attach h₁).modTeam.modUnit
  split at e
  · cases e
    exact h₃.modCore
  · obtain ⟨s₄, h₄, e⟩ := some_of_bind e
    obtain ⟨c', -, e⟩ := some_of_bind e
    cases e
    exact (h₃.restoreBank h₄).modCore.foldl fun _ _ h => h.beginLoad

theorem State.sound.leaveCores (h : s.sound) {l : List (Nat × Nat)} {ms : List Mover} :
    State.sound (l.foldl (fun (x : List Mover × State) p =>
      let (m, s) := Machine.leaveCore x.2 p.1 p.2
      (x.1 ++ [m], s)) (ms, s)).2 :=
  List.foldlRecOn (motive := fun x : List Mover × State => x.2.sound) _ _ h fun _ hx p _ => State.sound.leaveCore (uid := p.1) (core := p.2) hx

theorem State.sound.restoreTeam (h : s.sound) {team : Nat} {cores : List Nat} (e : restoreTeam s team cores = some t) : t.sound := by
  unfold Machine.restoreTeam at e
  extract_lets m l us up to_ moves tk s₁ at e
  split at e
  · cases e
  have h₁ : s₁.sound := h.foldl fun _ _ h => h.freeTest
  obtain ⟨⟨start, s₂⟩, he, e⟩ := some_of_bind e
  have h₂ : s₂.sound := by
    split at he
    · obtain ⟨s', hs, he⟩ := some_of_bind he
      cases he
      exact (h₁.foldlM (fun _ _ _ h e => h.restoreBank e) hs).journal.sendDescriptor
    · split at he
      next d s' hd =>
      have hd : s'.sound := by
        cases hd
        exact h₁.withFree
      have hl := hd.leaveCores (l := to_) (ms := [])
      extract_lets start at he
      split at he
      next ms s' hm =>
      have h' : s'.sound := by
        have hs : s' = _ := (congrArg Prod.snd hm).symm
        exact hs ▸ hl
      obtain ⟨s'', hs, he⟩ := some_of_bind he
      have hr : s''.sound := h'.foldlM (fun _ _ _ h e => h.reachCore e) hs
      split at he
      · cases he
      · cases he
        exact (hr.foldl fun _ _ h => h.writeGrantRecord).journal.sendDescriptor
  cases e
  exact ((h₂.startSlice.foldl fun _ _ h => h.modUnit.schedBudget).modTeam).sched

theorem State.sound.restoring (h : s.sound) {c : Ctx} {q : Nat} {e : EngState} : (restoring s c q e).sound :=
  h.fresh.modCore fun _ hk => hk.setQueue

theorem State.sound.wakeUnit (h : s.sound) {uid : Nat} : (wakeUnit s uid).sound := by
  unfold Machine.wakeUnit
  split
  · exact h
  split
  · exact h
  extract_lets t d s₁ s₂ s₃ s₄
  have h₁ : s₁.sound := h.returnHeld
  have h₂ : s₂.sound := h₁.modUnit.ite h₁
  have h₃ : s₃.sound := h₂.foldl fun _ _ h => h.restoring
  have h₄ : s₄.sound := h₃.modCore
  exact State.sound.schedBudget (State.sound.modUnit h₄ (by exact fun _ hc => h₄.savedBank hc))

theorem State.sound.teamResume (h : s.sound) {team : Nat} : (execTeamResume team s).sound := by
  unfold execTeamResume
  split
  · refine Out.sound.ite h ?_
    split
    next he =>
      obtain ⟨cores, -, e⟩ := some_of_bind he
      exact (h.restoreTeam e).poke
    · exact h
  · extract_lets s₁ s₂
    have h₁ : s₁.sound := h.modTeam
    have h₂ : s₂.sound := h₁.foldl fun _ _ h => h.wakeUnit
    exact h₂.preemptTeam.ite (h₂.preemptTeam.ite h₂)
  · exact h

theorem State.sound.standbyApplies (h : s.sound) : (standbyApplies s).sound := by
  unfold Machine.standbyApplies
  exact h.ite (h.withFree.withNewel.schedNewel.ite h.withFree.withNewel)

theorem State.sound.scoreboardReevaluate (h : s.sound) : (execScoreboardReevaluate s).sound := by
  unfold execScoreboardReevaluate
  split
  · exact h
  extract_lets s₁ s₂ s₃ s₄
  have h₁ : s₁.sound := h.standbyApplies
  have h₂ : s₂.sound := h₁.foldl fun _ _ h => h.reviewLaunch
  have h₃ : s₃.sound := h₂.foldl fun _ _ h => h.reviewTeam
  have h₄ : s₄.sound := by
    unfold s₄
    have hn := h₃.nextTeam (f := Machine.restoreTeam)
    split
    next he =>
      rw [he] at hn
      exact hn.sched
    next he =>
      rw [he] at hn
      exact hn
  exact h₄.ite h₄.schedNewel

theorem State.sound.budgetExpire (h : s.sound) {uid : Nat} : (execBudgetExpire uid s).sound := by
  unfold execBudgetExpire
  split
  · exact h
  · extract_lets
    split
    · exact h
    · exact h
    · exact Out.sound.ite h.toMonitor h

theorem State.sound.halt (h : s.sound) : (execHalt s).sound := by
  refine h.onCore fun c hc => Res.sound.ite trivial ?_
  split
  next he =>
    obtain ⟨hs, hc⟩ := h.landAt hc he
    exact hs.withCx hc

theorem State.sound.contextExit (h : s.sound) {uid : Nat} : (execContextExit uid s).sound := by
  unfold execContextExit
  split
  · exact h
  next c hc =>
  have hc := h.of_unitOf hc
  split
  · exact h
  split
  · exact h.setUnit hc
  split
  · split
    next he =>
      obtain ⟨hs, hc⟩ := h.landAt hc he
      exact hs.setUnit hc
  · extract_lets s₁ s₂
    have h₂ : s₂.sound := h.exitDrops.modUnit
    split
    · exact h₂.unitDone.freeHolder
    · exact h₂

theorem State.sound.longTwin (h : s.sound) {op : TwinOp} {d a : Reg} {i : BitVec 32} : (execLongTwin op d a i s).sound := by
  unfold execLongTwin
  extract_lets
  cases op
  case bfi => exact h.insertField
  case ldN32 | ldI32 | ldN64 | ldN16 | ldI16 | ldN8 | ldI8 => exact h.loadInstr
  case stN8 | stN16 | stN32 | stN64 => exact h.storeInstr
  case pref => exact h.prefetch
  case ldg => exact h.loadElem
  case stg => exact h.storeElem
  case br => exact h.branch
  case j => exact h.jump
  case jl => exact h.jumpLink
  case loopr => exact h.loopStep
  case trap => exact h.trapTo
  case mvs => exact h.moveFromSys
  case msv => exact h.moveToSys
  case defer => exact h.deferFor
  all_goals exact h.alu2

/-! ## Queues of the host and the page requests -/

theorem State.sound.guestWrite (h : s.sound) {vd q : Nat} {f : State → State} (hf : ∀ s, s.sound → (f s).sound) : (guestWrite s vd q f).sound :=
  h.ite (h.modVd.modQueue.ite (hf s h))

theorem State.sound.sqTailWrite (h : s.sound) {vd q v : Nat} : (execSqTailWrite vd q v s).sound :=
  h.guestWrite fun _ h => h.modQueue.ite h.modQueue

theorem State.sound.kick (h : s.sound) {vd q : Nat} : (execKick vd q s).sound :=
  h.guestWrite fun _ h => (h.ite h.withKicks).withFree.schedNewel

theorem State.sound.clearKick (h : s.sound) {vd q : Nat} : (clearKick s vd q).sound := h.journal.withKicks

theorem State.sound.takeRecord (h : s.sound) {vd q : Nat} : (takeRecord s vd q).sound :=
  h.journalBytes.modQueue.enterLaunch.ite h.journalBytes.modQueue.modQueue.addCompletion

theorem State.sound.takeRecords (h : s.sound) {n vd q : Nat} : (takeRecords n s vd q).sound := by
  induction n generalizing s with
  | zero => exact h
  | succ n ih => exact h.ite (ih h.takeRecord)

theorem State.sound.scanKick (h : s.sound) {vd q : Nat} : (scanKick s vd q).sound := by
  unfold Machine.scanKick
  extract_lets v r s₁ r'
  have h₁ : s₁.sound := h.retire.takeRecords
  exact h.ite (h.clearKick.modQueue.ite (h.ite (h₁.clearKick.ite h₁.schedNewel)))

theorem State.sound.kickScan (h : s.sound) {vd q : Nat} : (execKickScan vd q s).sound := h.ite h.scanKick

theorem State.sound.cqHeadWrite (h : s.sound) {vd q v : Nat} : (execCqHeadWrite vd q v s).sound :=
  h.guestWrite fun _ h => h.modQueue.flushCompletions

theorem State.sound.startDrain (h : s.sound) {vd q : Nat} : (startDrain s vd q).sound := h.modQueue.drainCheck

theorem State.sound.queueEnable (h : s.sound) {vd q v : Nat} : (execQueueEnable vd q v s).sound :=
  h.guestWrite fun _ h => h.modQueue.startDrain.ite h.modQueue

theorem State.sound.queueDrain (h : s.sound) {vd q : Nat} : (execQueueDrain vd q s).sound := h.guestWrite fun _ h => h.startDrain

theorem State.sound.queueDrainDone (h : s.sound) {vd q : Nat} : (execQueueDrainDone vd q s).sound :=
  Out.sound.ite h (h.modQueue.schedNewel.ite h.modQueue)

theorem State.sound.postHeld (h : s.sound) {vd : Nat} : (postHeld s vd).sound := h.modVd.foldl fun _ _ h => h.putPageRequest

theorem State.sound.prHeadWrite (h : s.sound) {vd v : Nat} : (execPrHeadWrite vd v s).sound := h.guestWrite fun _ h => h.modVd.postHeld

theorem State.sound.dropLines (h : s.sound) {vd lo : Nat} : (dropLines s vd lo).sound := by
  unfold Machine.dropLines
  extract_lets inside runs
  refine State.sound.cleanRecords ?_
  obtain ⟨⟨hm, hh, hw, hu, hx, hk, hi⟩, hn⟩ := h
  refine ⟨⟨hm, hh, hw, hu, hx, List.forall_mem_map.mpr fun e he => ?_, hi⟩, hn⟩
  split
  · exact hk e he
  · exact hk e he

theorem State.sound.settleHost (h : s.sound) {sp off : Nat} : (settleHost s sp off).sound := h.withHist

theorem State.sound.unpark (h : s.sound) {vd p : Nat} : (unpark s vd p).sound := h.foldl fun _ _ h => h.modUnit.ite h

theorem State.sound.pageRelease (h : s.sound) {vd p : Nat} : (execPageRelease vd p s).sound := by
  refine h.guestWrite fun s h => ?_
  extract_lets s₁ v
  have h₁ : s₁.sound := h.modVd
  split
  · exact h₁
  split
  · exact h₁.modVd
  split
  · exact h₁
  · exact ((h₁.modVd.settleHost).ite h₁.modVd.settleHost).dropLines.unpark.poke

theorem State.sound.pageClaim (h : s.sound) {vd p : Nat} : (execPageClaim vd p s).sound := by
  refine h.guestWrite fun s h => ?_
  extract_lets s₁ v
  have h₁ : s₁.sound := h.modVd
  split
  · exact h₁
  split
  · exact h₁.modVd
  · exact h₁.modVd.ite (h₁.modVd.ite h₁.modVd)

theorem State.sound.pageClaimGrant (h : s.sound) {vd : Nat} : (execPageClaimGrant vd s).sound := by
  unfold execPageClaimGrant
  split
  · exact h
  · exact Out.sound.ite h (Out.sound.ite h.modVd h.modVd)

theorem State.sound.hostCxlMemAccess (h : s.sound) {vd a w v : Nat} : (execHostCxlMemAccess vd a w v s).sound := by
  unfold execHostCxlMemAccess
  extract_lets out
  have ho {b : List Byte} : (out s b).sound := h.withLinks
  split
  · exact ho.ite h
  · exact Out.sound.ite (ho.ite h) (Out.sound.ite ho h.writeSpace)

theorem State.sound.pageRetire (h : s.sound) {vd p : Nat} : (execPageRetire vd p s).sound := by
  unfold execPageRetire
  split
  · exact h
  split
  next d s' hd =>
  have h' : s'.sound := by
    cases hd
    exact h.withFree
  extract_lets here again set
  have ha {s : State} (h : s.sound) : (again s).sound := h.schedNewel
  have hs {f : Retiring → Retiring} : (set f).sound := ha h'.withRetiring
  split
  · exact ha h'.withRetiring
  · split
    · exact h'
    · exact Out.sound.ite hs (Out.sound.ite (ha h') hs)

theorem State.sound.poolExtentAdd (h : s.sound) {d b p : Nat} : (execPoolExtentAdd d b p s).sound := Out.sound.ite h h.withLinks.poke

theorem State.sound.poolExtentRelease (h : s.sound) {d b p : Nat} : (execPoolExtentRelease d b p s).sound :=
  Out.sound.ite h ((h.withLinks.foldl fun _ _ h => h.freeRent).ite h.withLinks)

end Sys2Proof.Machine
end

section
/-!
SUPPORT. Soundness of states: device commands, migration, clocks, boot, writes from outside, effects and comparison (O50).
-/
set_option Elab.async false
namespace Sys2Proof.Machine
open Sys2Proof Sys2Proof.Laws
variable {s t : State} {c : Ctx} {k : CoreSt}

/-! ## Commands of virtual devices -/

theorem State.sound.finishVd (h : s.sound) {vd r : Nat} : (finishVd s vd r).sound := h.modVd
theorem State.sound.postponeVd (h : s.sound) {n : Nat} : (postponeVd s n).sound := h.withInputs

theorem State.sound.vdCommand (h : s.sound) {n : Nat} {may : VDev → Bool} {f : State → Nat → VDev → State}
    (hf : ∀ s vd v, s.sound → (f s vd v).sound) : (vdCommand n may f s).sound := by
  unfold Machine.vdCommand
  extract_lets vd s₁ v s₂
  have h₁ : s₁.sound := h.modVd
  have h₂ : s₂.sound := h₁.modVd
  exact Out.sound.ite h (Out.sound.ite h₁ (Out.sound.ite h₁.postponeVd (State.sound.ite (hf _ _ _ h₂) h₂.finishVd)))

theorem State.sound.setVdState (h : s.sound) {vd n : Nat} : (setVdState s vd n).sound := h.journal.modVd

theorem State.sound.zeroWindow (h : s.sound) {vd : Nat} : (zeroWindow s vd).sound := (h.withWindow (wf_filter _ _ h.window)).withKicks

theorem State.sound.cancelLaunch (h : s.sound) {id : Nat} : (cancelLaunch s id).sound := by
  unfold Machine.cancelLaunch
  extract_lets l s₁
  have h₁ : s₁.sound := h.modLaunch
  split
  · exact (h.ite h.countHalted).leaveLaunch.poke
  · exact h₁.countHalted.leaveLaunch.poke

theorem State.sound.stopNewelCopies (h : s.sound) {vd : Nat} : (stopNewelCopies s vd).sound := by
  refine h.withEngines.foldl fun s k h => ?_
  split
  · exact h.leavePath
  · exact h

theorem State.sound.dropRegions (h : s.sound) {vd : Nat} : (dropRegions s vd).sound :=
  (h.foldl fun _ _ h => h.endSublet).foldl fun _ _ h => h.reclaim

theorem State.sound.finishDestroy (h : s.sound) {vd : Nat} : (finishDestroy s vd).sound := by
  unfold Machine.finishDestroy
  extract_lets s₁ s₂ s₃ s₄
  have h₂ : s₂.sound := h.stopNewelCopies.dropRegions.foldl fun _ _ h => h.clearKick
  have h₃ : s₃.sound := h₂.setVdState
  have h₄ : s₄.sound := h₃.foldl fun _ _ h => h.schedScrub.ite h
  exact h₄.modVd.poke

theorem State.sound.destroyVd (h : s.sound) : (execDestroyVd s).sound := by
  refine h.vdCommand fun s vd _ h => ?_
  extract_lets s₁ ids s₂
  have h₁ : s₁.sound := h.modVd.flushCompletions
  have h₂ : s₂.sound := (h₁.foldl fun _ _ h => h.cancelLaunch).flushCompletions
  exact h₂.finishDestroy.ite h₂

theorem State.sound.grent (h : s.sound) : (execGrent s).sound := by
  refine h.vdCommand fun s vd v h => h.finishVd.ite ?_
  split
  · exact h.finishVd
  extract_lets
  split
  · exact h.finishVd
  next hc =>
  split
  · exact h.finishVd
  next hg => exact ((h.claimRegion hc).charge hg).modVd.finishVd.poke

theorem State.sound.loadVd (h : s.sound) : (execLoadVd s).sound :=
  h.vdCommand fun _ _ _ h => h.finishVd.ite h.fresh.modVd.modEng

theorem State.sound.loadComplete (h : s.sound) {vd : Nat} : (execLoadComplete vd s).sound := Out.sound.ite h h.modVd

theorem State.sound.grelease (h : s.sound) : (execGrelease s).sound := by
  refine h.vdCommand fun s vd v h => ?_
  extract_lets a
  generalize (if handleReserved a = true then none else entryOfHandle s a) = r
  split
  · exact h.finishVd
  · exact h.finishVd.ite (h.rentRelease.finishVd.ite h.finishVd)

theorem State.sound.grenew (h : s.sound) : (execGrenew s).sound := by
  refine h.vdCommand fun s vd v h => ?_
  extract_lets a
  generalize (if handleReserved a = true then none else entryOfHandle s a) = r
  split
  · exact h.finishVd
  · exact h.finishVd.ite (h.finishVd.ite (h.rentRenew.ite h).finishVd)

theorem State.sound.codereg (h : s.sound) : (execCodereg s).sound := by
  refine h.vdCommand fun s vd v h => ?_
  extract_lets a n inside
  refine h.finishVd.ite ?_
  split
  · exact h.finishVd
  · exact h.modVd.finishVd

theorem State.sound.codefree (h : s.sound) : (execCodefree s).sound := by
  refine h.vdCommand fun s vd v h => ?_
  extract_lets a
  split
  · exact h.finishVd
  · exact h.finishVd.ite h.modVd.finishVd

theorem State.sound.allowAdd (h : s.sound) : (execAllowAdd s).sound := Out.sound.ite h h.refund.poke
theorem State.sound.vdParamWrite (h : s.sound) : (execVdParamWrite s).sound := Out.sound.ite h h.modVd

theorem State.sound.freezeVd (h : s.sound) {vd : Nat} : (freezeVd s vd).sound := by
  unfold Machine.freezeVd
  extract_lets s₁ ts s₂
  have h₂ : s₂.sound := h.modVd.foldl fun _ _ h => h.preemptTeam
  exact h₂.sched.ite h₂

theorem State.sound.freezeComplete (h : s.sound) {vd : Nat} : (execFreezeComplete vd s).sound := Out.sound.ite h h.setVdState.modVd.finishVd
theorem State.sound.fdbFreeze (h : s.sound) {vd : Nat} : (fdbFreeze s vd).sound := h.freezeVd.ite h

theorem State.sound.fdbStop (h : s.sound) (hc : c.sound) {c' : Ctx} (e : c'.bank = c.bank := by exact rfl) : (fdbStop s c').sound :=
  (h.withCx hc (c' := { c' with wait := .debug }) e).fdbFreeze

theorem State.sound.bkpt (h : s.sound) : (execBkpt s).sound :=
  h.onCore fun _ hc => Res.sound.ite h.toMonitor (Res.sound.ite (h.fdbStop hc) (Res.sound.ite (h.goOn hc) h.enterHandler))

theorem State.sound.breakpointMatch (h : s.sound) {core : Nat} : (execBreakpointMatch core s).sound := by
  unfold execBreakpointMatch
  split
  · exact h
  next c hc => exact Out.sound.ite h (h.fdbStop (h.of_cx hc))

/-! ## Migration -/

theorem State.sound.sendPages (h : s.sound) {vd : Nat} {l : List Nat} : (sendPages s vd l).sound := h.withFree.withLinks.modVd.sched

theorem State.sound.exportVd (h : s.sound) : (execExportVd s).sound := h.vdCommand fun _ _ _ h => h.modVd.sendPages
theorem State.sound.roundVd (h : s.sound) : (execRoundVd s).sound := h.vdCommand fun _ _ _ h => h.modVd.sendPages

theorem State.sound.transferCountedComplete (h : s.sound) {vd : Nat} : (execTransferCountedComplete vd s).sound := by
  unfold execTransferCountedComplete
  extract_lets
  split
  · exact h
  · split
    next he =>
      refine State.sound.finishVd ?_
      split at he <;> cases he
      · exact h.withFree
      · exact h

theorem State.sound.finalVd (h : s.sound) : (execFinalVd s).sound := h.vdCommand fun _ _ _ h => h.withOutgoing.modVd.sendPages

theorem State.sound.dropIncoming (h : s.sound) {vd : Nat} : State.sound { s with incoming := tdel s.incoming vd } := by
  obtain ⟨⟨hm, hh, hw, hu, hx, hk, hi⟩, hn⟩ := h
  exact ⟨⟨hm, hh, hw, hu, hx, hk, fun t ht => hi t (List.mem_of_mem_filter ht)⟩, hn⟩

theorem State.sound.finalTransferReceive (h : s.sound) {vd : Nat} : (execFinalTransferReceive vd s).sound := Out.sound.ite h.modVd h.dropIncoming

theorem Ctx.sound.rebaseUnit (hc : c.sound) {d : Int} {a b : Nat} {x : Bool} : (rebaseUnit d a b x c).sound := by
  unfold Machine.rebaseUnit
  extract_lets
  split
  · exact hc
  · exact hc

theorem State.sound.thawVd (h : s.sound) {vd : Nat} {v : VDev} : (thawVd s vd v).sound := by
  unfold Machine.thawVd
  extract_lets d old s₁ s₂ s₃ s₄ s₅ s₆
  have h₁ : s₁.sound := h
  have h₂ : s₂.sound := h₁.foldl fun _ _ h => (h.modUnit fun _ hc => hc.rebaseUnit).ite h
  have h₃ : s₃.sound := h₂.foldl fun _ _ h => h.schedRent.ite (h.schedScrub.ite h)
  have h₄ : s₄.sound := h₃.foldl fun _ _ h => h.modLaunch.sched.ite h
  have h₆ : s₆.sound := h₄.setVdState.modVd
  exact (h₆.finishVd.foldl fun _ _ h => h.schedNewel.ite h).poke

theorem State.sound.importSync (h : s.sound) {ref : Nat} (e : importSync s ref = some t) : t.sound := by
  unfold Machine.importSync at e
  extract_lets r at e
  split at e
  · split at e
    · cases e
      exact h
    · split at e
      · cases e
      · cases e
        exact h.mapSync
  · cases e
    exact h

theorem State.sound.importRent (h : s.sound) {r q : Renaming} {d : Int} {k : CarriedRent} (e : importRent s r d k = some (q, t)) :
    t.sound := by
  unfold Machine.importRent at e
  extract_lets die b up at e
  obtain ⟨⟨new, item, s₁⟩, he, e⟩ := some_of_bind e
  have h₁ : s₁.sound := by
    split at he
    · obtain ⟨⟨x, s'⟩, hx, he⟩ := Option.map_eq_some_iff.mp he
      cases he
      exact h.freeEntry hx
    · split at he
      · obtain ⟨p, -, he⟩ := Option.map_eq_some_iff.mp he
        cases he
        exact h.freeTest
      · obtain ⟨s', hs, he⟩ := some_of_bind he
        obtain ⟨⟨x, s''⟩, hx, he⟩ := some_of_bind he
        cases he
        exact (h.claim hs).freeEntry hx
  dsimp -zeta only at e
  extract_lets sp s₃ s₄ s₅ at e
  have h₃ : s₃.sound := State.sound.modRent (iteInduction (motive := fun x : Nat × State => x.2.sound) (fun _ => h₁) fun _ => h₁.placeRegion)
  have h₄ : s₄.sound := h₃
  clear_value s₃ s₄
  have h₅ : s₅.sound := by
    refine State.sound.ite (h₄.modCore fun _ hk => hk.fillSlot) ?_
    exact h₄.withMem (wf_join _ _ h₄.mem)
  obtain ⟨s₆, h₆, e⟩ := some_of_bind e
  cases e
  exact (h₅.importSync h₆).schedRent

theorem Ctx.sound.renamed (hc : c.sound) {r : Renaming} : (r.unit s c).sound := hc

theorem State.sound.importCopy (h : s.sound) {vd : Nat} {r : Renaming} {d : Int} {k : Cmd} : (importCopy s vd r d k).sound := h.modEng

theorem State.sound.importStaging (h : s.sound) {id n : Nat} (e : importStaging s id n = some t) : t.sound := by
  obtain ⟨⟨ref, s₁⟩, h₁, e⟩ := some_of_bind e
  cases e
  exact (h.claimRegion h₁).modLaunch.putWord

theorem State.sound.importRents (h : s.sound) {d : Int} {l : List CarriedRent} {r q : Renaming}
    (e : l.foldlM (fun (x : Renaming × State) k => Machine.importRent x.2 x.1 d k) (r, s) = some (q, t)) : t.sound := by
  induction l generalizing s r with
  | nil =>
    cases e
    exact h
  | cons k l ih =>
    rw [List.foldlM_cons] at e
    obtain ⟨⟨r', s'⟩, hs, e⟩ := some_of_bind e
    exact ih (h.importRent hs) e

/-- Units that stand in the table under their own numbers, with canonical register stores. -/
theorem State.sound.putUnits (h : s.sound) {l : List Ctx} (hl : ∀ c ∈ l, c.sound) :
    State.sound { s with units := l.foldl (fun m c => tset m c.uid c) s.units } := by
  induction l generalizing s with
  | nil => exact h
  | cons c l ih => exact ih (h.tsetUnits (hl c List.mem_cons_self)) fun x hx => hl x (List.mem_cons_of_mem _ hx)

theorem State.sound.activate (h : s.sound) {vd : Nat} {v : VDev} {x : Transfer} (hx : ∀ u ∈ x.units, u.sound)
    (e : activate s vd v x = some t) : t.sound := by
  unfold Machine.activate at e
  extract_lets d base s₁ _ at e
  have h₁ : s₁.sound := h.withNextId
  obtain ⟨⟨r, s₂⟩, hr, e⟩ := some_of_bind e
  have h₂ : s₂.sound := h₁.importRents hr
  dsimp -zeta only at e
  extract_lets units s₃ s₄ s₅ s₆ s₇ at e
  have hu : ∀ c ∈ units, c.sound := List.forall_mem_map.mpr fun c hc => (Ctx.sound.renamed (hx c hc)).rebaseUnit
  clear_value units
  have h₃ : s₃.sound := by
    have h' := (h₂.putUnits hu).dropIncoming (vd := vd)
    exact h'.withWindow (wf_join _ _ (wf_filter _ _ h'.window))
  clear_value s₃
  have h₄ : s₄.sound := h₃.foldl fun _ _ h => (h.foldl fun _ _ h => h.withFree.schedC).meetLandings
  have h₆ : s₆.sound := h₄.setVdState.modVd
  have h₇ : s₇.sound := h₆.foldl fun _ _ h => h.importCopy
  clear_value s₇
  obtain ⟨s₈, h₈, e⟩ := some_of_bind e
  have h₈ : s₈.sound := h₇.foldlM (fun s x t h e => by
    split at e
    · cases e
      exact h
    · exact h.importStaging e) h₈
  cases e
  exact (h₈.foldl fun _ _ h => h.schedNewel).poke

theorem State.sound.activateVd (h : s.sound) : (execActivate s).sound := by
  refine h.vdCommand fun s vd v h => ?_
  split
  · exact h.finishVd
  next x hx =>
  split
  next he => exact h.activate (h.of_incoming hx) he
  · exact h.finishVd

/-! ## Errors of storage and known-answer tests -/

theorem State.sound.storageError (h : s.sound) {w p : Nat} : (execStorageError w p s).sound := by
  unfold execStorageError
  extract_lets w' e s₁ g s₂
  have h₁ : s₁.sound := h.addError
  have h₂ : s₂.sound := (h₁.foldl fun _ _ h => h.poisonWord).ite h₁
  exact Out.sound.ite h (Out.sound.ite h.missLine.logStorage h₂.withFree.sched)

theorem State.sound.patrolScrub (h : s.sound) {g : Nat} : (execPatrolScrub g s).sound := h.recoverGroup

theorem State.sound.nextTest (h : s.sound) {core cls : Nat} : (nextTest s core cls).sound := h.ite h.modCore.withFree.schedNewel

theorem State.sound.beginTest (h : s.sound) {core cls : Nat} : (beginTest s core cls).sound :=
  (h.withFree.foldl fun _ _ h => h.makeRegion).modCore.sched

theorem State.sound.knownAnswerTest (h : s.sound) {core cls : Nat} : (execKnownAnswerTest core cls s).sound := by
  unfold execKnownAnswerTest
  extract_lets x t bad s₁ round s₂ again late
  have h₁ : s₁.sound := h.freeTest.modCore
  have h₂ : s₂.sound := h.nextTest
  have ha {s : State} (h : s.sound) : (again s).sound := h.sched
  have hl {s : State} {e : Nat} (h : s.sound) : (late s e).sound := h.sched
  refine Out.sound.ite (h₁.miscompute.ite h₁) (Out.sound.ite (ha h₂) ?_)
  split
  · exact (hl h₂).ite h₂.freeTest.beginTest
  · exact Out.sound.ite (h₂.ite (ha h₂)) h₂.beginTest

theorem State.sound.startVd (h : s.sound) {vd n : Nat} : (startVd s vd n).sound := h.finishVd.ite h.zeroWindow.setVdState.modVd
theorem State.sound.createVd (h : s.sound) : (execCreateVd s).sound := h.vdCommand fun _ _ _ h => h.startVd
theorem State.sound.importVd (h : s.sound) : (execImportVd s).sound := h.vdCommand fun _ _ _ h => h.startVd
theorem State.sound.freeze (h : s.sound) : (execFreeze s).sound := h.vdCommand fun _ _ _ h => h.freezeVd
theorem State.sound.thaw (h : s.sound) : (execThaw s).sound := h.vdCommand fun _ _ _ h => h.thawVd

/-! ## Clocks, boot and attestation -/

theorem State.sound.shiftNewel (h : s.sound) {d : Nat} : (shiftNewel d s).sound := h
theorem Ctx.sound.joinUnit (hc : c.sound) {d : Nat} : (joinUnit d c).sound := hc
theorem State.sound.shiftPast (h : s.sound) {die d : Nat} : (shiftPast s die d).sound := h
theorem State.sound.shiftDie (h : s.sound) {die d : Nat} : (shiftDie s die d).sound := by
  unfold Machine.shiftDie
  split
  · exact h
  extract_lets _ s₁ s₂ s₃
  have h₁ : s₁.sound := by
    obtain ⟨⟨hm, hh, hw, hu, hx, hk, hi⟩, hn⟩ := h
    refine ⟨⟨hm, hh, hw, hu, hx, List.forall_mem_map.mpr fun e he => ?_, hi⟩, hn⟩
    split
    · exact hk e he
    · exact hk e he
  clear_value s₁
  have h₃ : s₃.sound := h₁.shiftPast.foldl fun _ _ h => (h.modUnit fun _ hc => hc.joinUnit).ite h
  exact h₃.shiftNewel.ite h₃

theorem State.sound.formDomains (h : s.sound) {m : BitVec 8} : (formDomains s m).sound := (h.foldl fun _ _ h => h.shiftDie).withClock

theorem State.sound.domainApply (h : s.sound) : (execDomainApply s).sound := by
  unfold execDomainApply
  exact Out.sound.ite h.logFault h.formDomains

theorem State.sound.powerLimitWrite (h : s.sound) : (execPowerLimitWrite s).sound := h.ite h.withClock

theorem State.sound.powerSample (h : s.sound) : (execPowerSample s).sound := by
  unfold execPowerSample
  extract_lets w lows fails _ s₁ _ s₂ s₃
  have h₁ : s₁.sound := h
  have h₂ : s₂.sound := (h₁.withClock.sched).ite h₁
  have h₃ : s₃.sound := h₂.ite (h₂.foldl fun _ _ h => h.withFree.withClock)
  exact h₃.schedNewel

theorem State.sound.supplyCut (h : s.sound) : (execSupplyCut s).sound := h

theorem State.sound.verifyImages {l : List Image} (h : s.sound) {i : Nat} : (verifyImages s i l).sound := by
  induction l generalizing s i with
  | nil => exact h.withBoot
  | cons m l ih =>
    unfold Machine.verifyImages
    split
    · exact ih h.withFree.withBoot
    · exact h.withBoot

theorem State.sound.powerUp (h : s.sound) : (powerUp s).sound := by
  obtain ⟨⟨-, hh, -, -, -, -, hi⟩, -⟩ := h
  have hm : Mem.wf [] = true := rfl
  exact ⟨⟨hm, hh, hm, fun _ he => absurd he List.not_mem_nil, fun _ he => absurd he (Option.not_mem_none _),
    fun _ he => absurd he List.not_mem_nil, hi⟩, fun _ he => absurd he List.not_mem_nil⟩

theorem State.sound.startNewel (h : s.sound) : (startNewel s).sound := by
  unfold Machine.startNewel
  extract_lets _ r s₁ _ s₂
  have h₁ : s₁.sound := by
    unfold s₁
    split
    next ref s' he =>
      have h' : s'.sound := h.freeEntry he
      exact h'
    · exact h
  have h₂ : s₂.sound := h₁.withNewel
  exact h₂.withFree.schedNewel.schedNewel

theorem State.sound.moduleReset (h : s.sound) : (execModuleReset s).sound := by
  unfold execModuleReset
  extract_lets s₁ s₂
  have h₂ : s₂.sound := h.powerUp.verifyImages
  exact h₂.startNewel.ite h₂

theorem State.sound.modSpdm (h : s.sound) {f : Spdm → Spdm} : (modSpdm s f).sound := h.withBoot

theorem State.sound.spdmAnswer (h : s.sound) {may : Spdm → Bool} {f : State → State} (hf : ∀ s, s.sound → (f s).sound) :
    (spdmAnswer s may f).sound := Out.sound.ite h (Out.sound.ite h.modSpdm (hf _ h.modSpdm))

theorem State.sound.signed (h : s.sound) {b : List Byte} : (signed s b).sound := h.modSpdm.ite h.modSpdm
theorem State.sound.getVersion (h : s.sound) : (execGetVersion s).sound := h.spdmAnswer fun _ h => h.modSpdm
theorem State.sound.getCapabilities (h : s.sound) : (execGetCapabilities s).sound := h.spdmAnswer fun _ h => h.modSpdm
theorem State.sound.negotiateAlgorithms (h : s.sound) : (execNegotiateAlgorithms s).sound := h.spdmAnswer fun _ h => h.modSpdm
theorem State.sound.getDigests (h : s.sound) : (execGetDigests s).sound := h.spdmAnswer fun _ h => h.modSpdm
theorem State.sound.getCertificate (h : s.sound) : (execGetCertificate s).sound := h.spdmAnswer fun _ h => h.modSpdm
theorem State.sound.challenge (h : s.sound) : (execChallenge s).sound := h.spdmAnswer fun _ h => h.signed
theorem State.sound.getMeasurements (h : s.sound) : (execGetMeasurements s).sound := h.spdmAnswer fun _ h => h.modSpdm.ite h.signed

/-! ## Writes from outside -/

theorem State.sound.refusedWrite (h : s.sound) : (refusedWrite s).sound := h.logFault

theorem State.sound.vdCtlWrite (h : s.sound) : (vdCtlWrite s).sound := by
  unfold Machine.vdCtlWrite
  split
  · exact h.createVd
  · exact h.destroyVd
  · exact h.exportVd
  · exact h.roundVd
  · exact h.freeze
  · exact h.finalVd
  · exact h.importVd
  · exact h.activateVd
  · exact h.thaw
  · exact h.grent
  · exact h.loadVd
  · exact h.codereg
  · exact h.codefree
  · exact h.grelease
  · exact h.grenew
  · exact h.modVd

theorem State.sound.blockWrite (h : s.sound) : (blockWrite s).sound :=
  Out.sound.ite h.vdCtlWrite (Out.sound.ite h.allowAdd (Out.sound.ite h.vdParamWrite h.refusedWrite))

theorem State.sound.coreWrite (h : s.sound) : (coreWrite s).sound := by
  unfold Machine.coreWrite
  extract_lets x core
  clear_value x
  exact Out.sound.ite h.refusedWrite (Out.sound.ite h.modCore (Out.sound.ite (h.foldl fun _ _ h => h.modLaunch) h.refusedWrite))

theorem State.sound.ringWrite (h : s.sound) {x : Nat} : (ringWrite s x).sound :=
  h.ite (h.guestWrite fun _ h => h.withWindow (wf_writeRun _ _ _ h.window))

theorem State.sound.registerWrite (h : s.sound) : (execRegisterWrite s).sound := by
  unfold execRegisterWrite
  extract_lets o
  clear_value o
  split
  · exact h.withHostMem (wf_writeRun _ _ _ h.hostMem)
  split
  · exact h.ringWrite
  exact Out.sound.ite h (Out.sound.ite (Out.sound.ite h.domainApply h.withClock) (Out.sound.ite h.powerLimitWrite
    (Out.sound.ite h.blockWrite (Out.sound.ite h.coreWrite h.refusedWrite))))

theorem State.sound.seenPacket (h : s.sound) {n : Nat} : (seenPacket s n).sound := h.withLinks

theorem State.sound.nodePacketReceive (h : s.sound) {a b d e : Nat} : (execNodePacketReceive a b d e s).sound := by
  unfold execNodePacketReceive
  extract_lets bs marks
  split
  · exact h
  split
  · exact h.seenPacket
  · exact Out.sound.ite h (Out.sound.ite (h.seenPacket.ite h.seenPacket.writeHost) (Out.sound.ite h.seenPacket h.seenPacket.landBytes))

theorem State.sound.scaleOutPortDown (h : s.sound) {p : Nat} : (execScaleOutPortDown p s).sound := (h.linkError.ite h).withLinks

theorem State.sound.cxlPoisonReturn (h : s.sound) {a b : Nat} : (execCxlPoisonReturn a b s).sound := h.badRead
theorem State.sound.cxlCompletionTimeout (h : s.sound) {a b : Nat} : (execCxlCompletionTimeout a b s).sound := h.badRead

/-! ## Effects -/

theorem State.sound.performBuffer (h : s.sound) {u n : Nat} {op : BufOp} : (performBuffer s u n op).sound := by
  unfold Machine.performBuffer
  split
  · exact h
  next c hc =>
  have hc := h.of_unitOf hc
  extract_lets e at_ word
  split
  · exact h.setUnit hc
  · exact h.withWords.putWord.modUnit
  · exact (h.setUnit hc).ite h
  · exact h.putWord.modUnit.ite h

theorem State.sound.performWrite (h : s.sound) {u own sp off : Nat} {bs : List Byte} {ps : List Nat} :
    (performWrite s u own sp off bs ps).sound := by
  unfold Machine.performWrite
  split
  · exact h
  split
  · exact h.landBytes
  split
  · exact h
  split
  · exact h.dropOwned.engineFault
  · exact h

theorem State.sound.performNibble (h : s.sound) {u own sp off a b : Nat} : (performNibble s u own sp off a b).sound := h.performWrite

theorem State.sound.landing (h : s.sound) {u own : Nat} {e : Eff} {f : State → State} (hf : ∀ s, s.sound → (f s).sound) :
    (landing s u own e f).sound := by
  unfold Machine.landing
  split
  · exact h
  next c _ =>
  split
  · exact hf s h
  · have hx := h.xferLands (core := c.core) (id := own) (e := e)
    split
    next he =>
      rw [he] at hx
      exact hf _ hx
    next he =>
      rw [he] at hx
      exact hx

theorem Ctx.sound.arrive (hc : c.sound) {p : Nat} {v : Word} : (c.arrive p v).sound := hc

theorem State.sound.countedLoadReturn (h : s.sound) {u ld : Nat} : (execCountedLoadReturn u ld s).sound := by
  unfold execCountedLoadReturn
  split
  · split
    · split
      · exact h.readRecords
      · exact (h.foldl fun _ _ h => h.recoverGroup).schedEng
    · exact h
  next c hc =>
  have hc := h.of_unitOf hc
  split
  · exact h
  next p v _ =>
  extract_lets c'
  refine Out.sound.ite (h.setUnit hc) ?_
  have hc' : c'.sound := by
    unfold c'
    split
    · exact hc.arrive.ite hc
    · exact hc
  have hw : Ctx.sound (Machine.wrPhys { c' with loads := tdel c'.loads ld, loadLinks := tdel c'.loadLinks ld } p v) :=
    Ctx.sound.wrPhys (c := { c' with loads := tdel c'.loads ld, loadLinks := tdel c'.loadLinks ld }) hc'
  exact h.setUnit hw

theorem State.sound.schedCmdAgain (h : s.sound) {ev : Ev} : (schedCmdAgain s ev).sound := h.withAgenda

theorem State.sound.stallOwn (h : s.sound) {ev : Ev} {l : List Nat} : (stallOwn s ev l).sound :=
  (h.foldl fun _ _ h => h.recoverGroup).schedCmdAgain.delayOwn

theorem State.sound.stallLanding (h : s.sound) {u : Nat} {e : Eff} : (stallLanding s u e).sound := by
  unfold Machine.stallLanding
  split
  · exact h
  next c hc =>
  have hc := h.of_unitOf hc
  extract_lets t s₁
  have h₁ : s₁.sound := h.schedC
  split
  · exact (h₁.setUnit hc).schedC.ite h₁
  · exact (h₁.setUnit hc).ite h₁
  · exact h₁

theorem State.sound.arriveOlder (h : s.sound) {ev : Ev} {e : Eff} : (arriveOlder s ev e).sound := by
  unfold Machine.arriveOlder
  split
  · exact h
  split
  · exact h.modUnit
  · exact h.modUnit
  · exact h

theorem State.sound.inheritOlder (h : t.sound) {s : State} {ev : Ev} : (inheritOlder s ev t).sound := h.ite h.withAgenda

theorem State.sound.performEff (h : s.sound) {ev : Ev} {e : Eff} : (performEff s ev e).sound := by
  unfold Machine.performEff
  split
  · exact h.landing fun _ h => h.modUnit fun _ hc => hc.bankWrite
  · exact h.modUnit fun _ hc => hc.wrPhysP
  · exact h.modUnit
  · exact h.modUnit
  · exact h.landing fun _ h => h.modCore fun _ hk => hk.alcWrite
  · exact h.landing fun _ h => h.performOq
  · exact h.performStore
  · split
    · exact h
    · exact (h.landing fun _ h => h.landBytes).ite h.performWrite
  · exact h.performNibble
  · exact h.performCount
  · exact h.performMicro
  · split
    · exact h.schedEng
    · split
      · exact h.copyStep
      · exact (h.foldl fun _ _ h => h.recoverGroup).schedEng
  · split
    · split
      · exact h.schedC
      · split
        · exact h.performSync
        · exact (h.foldl fun _ _ h => h.recoverGroup).schedCmdAgain
    · exact h
  · exact h.performResult
  · exact h.stallLanding.ite h.performLand
  · split
    · exact h.performRow
    · exact h.stallOwn
  · split
    · exact h.modCore fun _ hk => hk.performGrad
    · exact h.stallOwn
  · split
    · exact h.performDrain
    · exact h.stallOwn
  · exact h.performSlot
  · exact h.performRent
  · split
    · exact h.loadWordsAt
    · exact (h.foldl fun _ _ h => h.recoverGroup).stallPath.withAgenda
  · exact h.performXword
  · exact h.performBuffer
  · split
    · exact h.schedC.ite h.regionClosed
    · exact h

/-! ## Comparison and take-over -/

theorem State.sound.comparison (h : s.sound) {core cls : Nat} : (comparison s core cls).2.sound := by
  unfold Machine.comparison
  extract_lets k s₁
  have h₁ : s₁.sound := h.modCore
  split
  · exact h
  · exact h₁
  · exact h₁
  · exact h₁

theorem State.sound.mismatch (h : s.sound) (hc : c.sound) {cls : Nat} {pc : Word} {f : State → State} (hf : ∀ s, s.sound → (f s).sound) :
    (mismatch s c cls pc f).sound := by
  unfold Machine.mismatch
  extract_lets s₁ s₂
  have h₁ : s₁.sound := h.miscompute
  have h₂ : s₂.sound := (h₁.leaveHandler hc).ite h₁
  split
  · exact h₂.withdraw.abandon.modUnit
  · exact hf _ h₁

theorem Ctx.sound.hold (hc : c.sound) {k : Cmd} : (c.hold k).sound := by
  unfold Ctx.hold
  split
  · exact hc
  · exact hc

theorem State.sound.banisterCompare (h : s.sound) {core id : Nat} : (execBanisterCompare core id s).sound := by
  unfold execBanisterCompare
  split
  · exact h
  next k _ =>
  extract_lets c back t out
  have hc : c.sound := by
    cases hu : unitOf s k.uid with
    | none =>
      have hd : c = default := congrArg (Option.getD · default) hu
      exact hd ▸ (rfl : Mem.wf [] = true)
    | some c' =>
      have hd : c = c' := congrArg (Option.getD · default) hu
      exact hd ▸ h.of_unitOf hu
  have ho {s : State} (h : s.sound) : (out s).sound := h.modCore
  refine Out.sound.ite h.sched (Out.sound.ite h.engineFault ?_)
  have hx := h.comparison (core := core) (cls := (declared c k.ins).headD 0)
  split
  next he =>
    rw [he] at hx
    exact State.sound.mismatch (ho hx) hc fun _ h => h.engineFault
  next s' he =>
    have h' : s'.sound := by
      rw [he] at hx
      exact hx
    split
    · exact ((ho h').modUnit fun _ hc => hc.hold).ite h'.engineFault
    · refine Out.sound.ite ((ho h').modUnit fun _ hc => hc.hold) ?_
      extract_lets s''
      have h'' : s''.sound := (ho h').enqueue
      split
      · exact h''.schedRecords
      · exact h''

theorem State.sound.scanKicks (h : s.sound) : (scanKicks s).sound := h.foldl fun _ _ h => h.scanKick
theorem State.sound.drainReports (h : s.sound) : (drainReports s).sound := h.foldl fun _ _ h => h.countHalted.leaveLaunch.ite h

theorem State.sound.takeOverEnds (h : s.sound) : (takeOverEnds s).sound := by
  unfold Machine.takeOverEnds
  extract_lets s₁ _ s₂ _ s₃ s₄ s₅ s₆ s₇
  have h₁ : s₁.sound := h.foldl fun _ _ h => h.flushNow
  have h₂ : s₂.sound := h₁.withNewel
  have h₃ : s₃.sound := h₂.withNewel.foldl fun _ _ h => h.applyFence
  have h₄ : s₄.sound := h₃.foldl fun _ _ h => h.stagingDone
  have h₅ : s₅.sound := h₄.foldl fun _ _ h => h.descheduled
  have h₆ : s₆.sound := h₅.foldl fun _ _ h => h.sched
  have h₇ : s₇.sound := h₆.foldl fun _ _ h => h.sched
  exact h₇.poke

theorem State.sound.replayEntry (h : s.sound) {e : JEntry} : (replayEntry s e).sound := h.ite (h.ite h.withNewel)
theorem State.sound.replay (h : s.sound) : (replay s).sound := (h.foldl fun _ _ h => h.replayEntry).withNewel
theorem State.sound.verify (h : s.sound) : (verify s).sound := h.foldl fun _ _ h => h.recoverGroup

theorem State.sound.newelTakeover (h : s.sound) : (execNewelTakeover s).sound := by
  unfold execNewelTakeover
  extract_lets n t next s₁
  have hn {s : State} {d : Nat} (h : s.sound) : (next s d).sound := h.withNewel.schedNewel
  have h₁ : s₁.sound := h.verify
  refine Out.sound.ite (Out.sound.ite h.pairFailed (hn h.withFree.withNewel)) (Out.sound.ite h.pairFailed (Out.sound.ite h.pairFailed
    (Out.sound.ite (hn h.withFree.withNewel) (Out.sound.ite ?_ h.scanKicks.drainReports.takeOverEnds))))
  exact h₁.withFree.ite (hn h₁.withFree.replay)

theorem State.sound.standbyNewelFailure (h : s.sound) : (execStandbyNewelFailure s).sound := Out.sound.ite h.withNewel h.pairFailed

/-! ## Instructions and events -/

theorem State.sound.mloadw (h : s.sound) {m : Timing} {f : LoadWF} : (execMloadw m f s).sound := by
  unfold execMloadw
  extract_lets
  exact h.deliver

end Sys2Proof.Machine
end

section
/-!
SUPPORT. Soundness of states: every instruction, fetch and the step, and soundness at reset (O49, O50).
-/
set_option Elab.async false
namespace Sys2Proof.Machine
open Sys2Proof Sys2Proof.Laws
variable {s t : State} {c : Ctx} {k : CoreSt}

theorem State.sound.aluImm (h : s.sound) {bit len : Nat} {f : Word → Word} {d a : Reg} : (aluImm bit f len d a s).sound := h.alu2

theorem State.sound.vecInstr (h : s.sound) {major func : Nat} {i : Instr} {v : VForm} : (vecInstr major func i v s).sound := h.deliver

theorem State.sound.exec (h : s.sound) {i : Instr} : Out.sound (exec i s) := by
  cases i
  all_goals dsimp only [Machine.exec]
  case add | sub | and | or | xor | andn | sll | srl | sra | rol | ror | slt | sltu | seq | min | max | minu | maxu | lea =>
    exact h.alu3
  case clz | ctz | popc => exact h.alu2
  case mul | mulh | mulhu | div | divu | rem | remu => exact h.mulDiv
  case fshl | fshr => exact h.funnel
  case sptest => exact h.sptest
  case spcast => exact h.spcast
  case waitt => exact h.waitt
  case gsync => exact h.gsync
  case jr => exact h.jr
  case rgopenContain | rgopenIdem | rgopenBoth => exact h.openRegion
  case land => exact h.land
  case swait | waitb => exact h.waitInstr
  case arrive | arrdrop | binit => exact h.barrierInstr
  case bdecl => exact h.bdecl
  case bacqFill | bacqDrain => exact h.acquireBuffer
  case brel => exact h.brel
  case bstat => exact h.bstat
  case rent | renew | prepay | sublet | unsublet | release | rquery => exact h.rentInstr
  case viewset => exact h.viewset
  case gset => exact h.gset
  case bfi => exact h.insertField
  case ldN32 | ldI32 | ldN64 | ldN16 | ldI16 | ldN8 | ldI8 => exact h.loadInstr
  case stN8 | stN16 | stN32 | stN64 => exact h.storeInstr
  case pref => exact h.prefetch
  case ldg => exact h.loadElem
  case stg => exact h.storeElem
  case br => exact h.branch
  case j => exact h.jump
  case jl => exact h.jumpLink
  case loopr => exact h.loopStep
  case trap => exact h.trapTo
  case mvs => exact h.moveFromSys
  case msv => exact h.moveToSys
  case defer => exact h.deferFor
  case nop => exact h.nop
  case longTwin => exact h.longTwin
  case lda => exact h.lda
  case strel => exact h.strel
  case amoAdd | amoAnd | amoOr | amoXor | amoMin | amoMax | amoSwap | amoCas => exact h.atomicInstr
  case pand | por | pxor | pandn | pnot => exact h.pred3
  case psetl => exact h.psetl
  case pseth => exact h.pseth
  case pget => exact h.pget
  case pput => exact h.pput
  case mmul | mgrad | mgdrain | slclaim | slrel | sortc | xld | xst | resume | esave | eload | cpy | cpyc | ckpt | lrflush |
      xsend | xrecv | wlnext | wid =>
    exact h.deliver
  case mres => exact h.mres
  case lnest => exact h.lnest
  case dispatch => exact h.dispatch
  case queueEntryStart => exact h.queueEntryStart
  case queueEntryComplete => exact h.queueEntryComplete
  case residencyLoadBegin => exact h.residencyLoadBegin
  case residencyLoadEnd => exact h.residencyLoadEnd
  case patrolScrub => exact h.patrolScrub
  case waitRelease => exact h.waitRelease
  case waittExpire => exact h.waittExpire
  case landComplete => exact h.landComplete
  case contextExit => exact h.contextExit
  case gsyncRelease => exact h.gsyncRelease
  case dispatchRelease => exact h.dispatchRelease
  case dispatchClaimRetry => exact h.dispatchClaimRetry
  case deferWindowEnd => exact h.deferWindowEnd
  case budgetExpire => exact h.budgetExpire
  case copyStart => exact h.copyStart
  case copyWordLand => exact h.copyWordLand
  case autoExtend => exact h.autoExtend
  case lapse => exact h.lapse
  case graceEnd => exact h.graceEnd
  case subletEnd => exact h.subletEnd
  case scrubComplete => exact h.scrubComplete
  case pageRetire => exact h.pageRetire
  case sqTailWrite => exact h.sqTailWrite
  case kick => exact h.kick
  case kickScan => exact h.kickScan
  case cqHeadWrite => exact h.cqHeadWrite
  case completionWrite => exact h.completionWrite
  case coalesceTimeout => exact h.coalesceTimeout
  case queueEnable => exact h.queueEnable
  case queueDrain => exact h.queueDrain
  case queueDrainDone => exact h.queueDrainDone
  case prHeadWrite => exact h.prHeadWrite
  case pageRelease => exact h.pageRelease
  case pageClaim => exact h.pageClaim
  case pageClaimGrant => exact h.pageClaimGrant
  case hostCxlMemAccess => exact h.hostCxlMemAccess
  case freezeComplete => exact h.freezeComplete
  case finalTransferReceive => exact h.finalTransferReceive
  case loadComplete => exact h.loadComplete
  case cxlPoisonReturn => exact h.cxlPoisonReturn
  case cxlCompletionTimeout => exact h.cxlCompletionTimeout
  case cxlLinkDown => exact h.cxlLinkDown
  case nodePacketReceive => exact h.nodePacketReceive
  case packetAckTimeout => exact h.packetAckTimeout
  case packetRefusedResend => exact h.packetRefusedResend
  case poolExtentAdd => exact h.poolExtentAdd
  case poolExtentRelease => exact h.poolExtentRelease
  case teamIssue => exact h.teamIssue
  case stageStart => exact h.stageStart
  case stageComplete => exact h.stageComplete
  case sliceEnd => exact h.sliceEnd
  case regionBoundaryTimeout => exact h.regionBoundaryTimeout
  case contextSaveDone => exact h.contextSaveDone
  case teamResume => exact h.teamResume
  case teamAged => exact h.teamAged
  case launchEnd => exact h.launchEnd
  case knownAnswerTest => exact h.knownAnswerTest
  case breakpointMatch => exact h.breakpointMatch
  case countedLoadReturn => exact h.countedLoadReturn
  case codesyncComplete => exact h.codesyncComplete
  case storeBecomesVisible => exact h.storeBecomesVisible
  case storageError => exact h.storageError
  case transferCountedComplete => exact h.transferCountedComplete
  case scaleOutPortDown => exact h.scaleOutPortDown
  case halt => exact h.halt
  case segFree | segTimed => exact h.openSegment
  case tret => exact h.tret
  case ifence => exact h.ifence
  case codesync => exact h.codesync
  case bkpt => exact h.bkpt
  case rgclose => exact h.rgclose
  case rgabort => exact h.rgabort
  case createVd => exact h.createVd
  case destroyVd => exact h.destroyVd
  case exportVd => exact h.exportVd
  case roundVd => exact h.roundVd
  case freeze => exact h.freeze
  case finalVd => exact h.finalVd
  case importVd => exact h.importVd
  case activate => exact h.activateVd
  case thaw => exact h.thaw
  case grent => exact h.grent
  case loadVd => exact h.loadVd
  case codereg => exact h.codereg
  case codefree => exact h.codefree
  case grelease => exact h.grelease
  case grenew => exact h.grenew
  case allowAdd => exact h.allowAdd
  case vdParamWrite => exact h.vdParamWrite
  case registerWrite => exact h.registerWrite
  case domainApply => exact h.domainApply
  case powerLimitWrite => exact h.powerLimitWrite
  case powerSample => exact h.powerSample
  case supplyCut => exact h.supplyCut
  case moduleReset => exact h.moduleReset
  case getVersion => exact h.getVersion
  case getCapabilities => exact h.getCapabilities
  case negotiateAlgorithms => exact h.negotiateAlgorithms
  case getDigests => exact h.getDigests
  case getCertificate => exact h.getCertificate
  case challenge => exact h.challenge
  case getMeasurements => exact h.getMeasurements
  case scoreboardReevaluate => exact h.scoreboardReevaluate
  case illegalEncoding => exact h.illegalEncoding
  case addi | andi | ori | xori | slli | srli | srai | slti | sltiu | bfx | bfxs => exact h.aluImm
  case vadd | vsub | vmul | vfma | vmin | vmax | vabs | vneg | vand | vor | vxor | vnot | vshl | vshr | vsra | vceq | vcne |
      vclt | vcle | vcvt | vqrd | vexp2 | vrcp | vbfx | vfsh | vred | vscan | vld | vst | vgath | vscat | vlut | vthr |
      vtagTags | vtagMask | vcomb | vmov | vbcst | vsel | vgetl =>
    exact h.vecInstr
  case mloadw => exact h.mloadw
  case banisterCompare => exact h.banisterCompare
  case newelTakeover => exact h.newelTakeover
  case standbyNewelFailure => exact h.standbyNewelFailure

/-! ## Fetch -/

/-- What a fetch gives leaves a sound state. -/
def Fetched.sound : Fetched → Prop
  | .stall => True
  | .trap _ s => s.sound
  | .got _ s => s.sound

theorem State.sound.fetchBlock (h : s.sound) {core : Nat} {p : Place} : (fetchBlock s core p).2.sound := by
  unfold Machine.fetchBlock
  extract_lets key cur keep
  have hk {s : State} (h : s.sound) : (keep s).sound := h.modCore
  split
  · exact hk h
  · split
    · exact h
    · split
      · exact hk h.withFree
      · exact h.withFree

theorem State.sound.fetch (h : s.sound) {c : Ctx} : (fetch s c).sound := by
  unfold Machine.fetch
  extract_lets block b
  split
  · exact h
  split
  · trivial
  split
  · exact h
  next p _ =>
  have hf := h.fetchBlock (core := c.core) (p := p)
  split
  next bs s' he =>
  have h' : s'.sound := by
    rw [he] at hf
    exact hf
  extract_lets
  split
  · exact h'
  · split
    · exact h'
    · split
      · exact h'
      · exact h'

theorem State.sound.outlast (h : s.sound) {i : Instr} : (outlast i s).sound := by
  unfold Machine.outlast
  split
  · exact h
  · exact h.withAgenda.ite h

/-! ## The step -/

theorem State.sound.performEv (h : s.sound) {e : Ev} : (performEv s e).sound := by
  unfold Machine.performEv
  extract_lets s₁
  have h₁ : s₁.sound := h.withAgenda
  split
  · exact h₁.exec
  · exact h₁.arriveOlder.performEff.inheritOlder

theorem State.sound.takeInput (h : s.sound) {x : Input} : (takeInput s x).sound := by
  unfold Machine.takeInput
  extract_lets s₁ s₂ s₃
  have h₁ : s₁.sound := h
  have h₂ : s₂.sound := h₁.foldl fun _ _ h => h.modCore
  have h₃ : s₃.sound := h₂.foldl fun _ _ h => h.modCore
  exact Out.sound.ite h₃.exec h₃

/-- A move leads to a sound state only. -/
def Move.sound : Move → Prop
  | .ins _ => True
  | .put s => s.sound

theorem State.sound.move (h : s.sound) {m : Move} (hm : m.sound) : (m.out s).sound := by
  unfold Move.out
  split
  · exact h.exec
  · exact hm

theorem Move.sound.of_findSome {α : Type} {l : List α} {f : α → Option Move} {m : Move} (e : l.findSome? f = some m)
    (hf : ∀ a ∈ l, ∀ m, f a = some m → m.sound) : m.sound := by
  obtain ⟨a, ha, he⟩ := List.exists_of_findSome?_eq_some e
  exact hf a ha m he

theorem Move.sound.of_coreMove {b : Bool} {core : Nat} {m : Move} (e : coreMove s b core = some m) : m.sound := by
  unfold coreMove at e
  split at e
  · cases e
    trivial
  split at e
  · cases e
    trivial
  · refine Move.sound.of_findSome e fun q _ m e => ?_
    obtain ⟨id, -, rfl⟩ := Option.map_eq_some_iff.mp e
    trivial

theorem State.sound.copyMove (h : s.sound) {eng : Nat} {m : Move} (e : copyMove s eng = some m) : m.sound := by
  unfold Machine.copyMove at e
  extract_lets unread at e
  clear_value unread
  split at e
  · cases e
    exact h.schedRecords
  · obtain ⟨x, -, he⟩ := Option.map_eq_some_iff.mp e
    split at he
    · cases he
      trivial
    · cases he
      exact h.copyMiss

theorem State.sound.unitMove (h : s.sound) (hc : c.sound) {m : Move} (e : unitMove s c = some m) : m.sound := by
  unfold Machine.unitMove at e
  extract_lets t later stopped wake at e
  have hw {m : Move} (e : wake = some m) : m.sound := by
    cases (show some (Move.put _) = some m from e)
    exact h.setUnit hc
  clear_value wake
  split at e
  next m' hm =>
    cases e
    split at hm
    · split at hm
      · cases hm
        trivial
      · cases hm
    · split at hm
      · cases hm
        exact h.handlerReady
      · cases hm
    · split at hm
      · cases hm
        exact h.monitorQuiet
      · cases hm
    · split at hm
      · cases hm
        exact h.monitorReturn
      · cases hm
    · split at hm
      · cases hm
      · exact hw hm
    · split at hm
      · cases hm
      · exact hw hm
    · split at hm
      · cases hm
      split at hm
      · cases hm
        exact h.enginesStop
      split at hm
      · cases hm
        exact h.beginSave
      · cases hm
    · cases hm
  · split at e
    · cases e
    · cases e
      exact h.takeInterrupt

theorem Move.sound.of_claimMove {m : Move} (e : claimMove s = some m) : m.sound := by
  refine Move.sound.of_findSome e fun v _ m e => ?_
  split at e
  · split at e
    · cases e
      trivial
    · cases e
  · cases e

theorem State.sound.attachedMove (h : s.sound) {m : Move} (e : attachedMove s = some m) : m.sound := by
  refine Move.sound.of_findSome e fun v _ m e => ?_
  split at e
  · cases e
    exact h.fdbFreeze
  · cases e

theorem State.sound.deviceMove (h : s.sound) {m : Move} (e : deviceMove s = some m) : m.sound := by
  refine Move.sound.of_findSome e fun v _ m e => ?_
  split at e
  · cases e
  split at e
  · cases e
    exact h.finishDestroy
  split at e
  · cases e
    trivial
  · cases e

theorem Move.sound.of_orElse {a b : Option Move} (ha : ∀ m, a = some m → m.sound) (hb : ∀ m, b = some m → m.sound) {m : Move}
    (e : a.orElse (fun _ => b) = some m) : m.sound := by
  cases a with
  | none => exact hb m e
  | some x => exact ha m e

theorem State.sound.nextMove (h : s.sound) {m : Move} (e : nextMove s = some m) : m.sound := by
  unfold Machine.nextMove at e
  split at e
  next m' hm =>
    cases e
    exact Move.sound.of_orElse (fun _ hm => Move.sound.of_findSome hm fun _ _ _ e => Move.sound.of_coreMove e)
      (fun _ hm => Move.sound.of_findSome hm fun _ _ _ e => Move.sound.of_coreMove e) hm
  split at e
  next m' hm =>
    cases e
    exact Move.sound.of_findSome hm fun _ _ _ e => h.copyMove e
  split at e
  next m' hm =>
    cases e
    exact Move.sound.of_findSome hm fun u hu _ e => h.unitMove (h.of_mem_units hu) e
  split at e
  next m' hm =>
    cases e
    exact Move.sound.of_claimMove hm
  · exact Move.sound.of_orElse (fun _ hm => h.attachedMove hm) (fun _ hm => h.deviceMove hm) e

theorem State.sound.enter (h : s.sound) (hc : c.sound) : (enter s c).sound := h.withCx hc

theorem State.sound.leave (h : s.sound) : (leave s).sound := by
  unfold Machine.leave
  split
  · exact h
  next c hc =>
    have hc := h.of_cx hc
    obtain ⟨⟨hm, hh, hw, hu, hx, hk, hi⟩, hn⟩ := id h
    refine ⟨⟨hm, hh, hw, ?_, fun _ he => absurd he (Option.not_mem_none _), hk, hi⟩, ?_⟩
    · exact iteInduction (motive := fun us : Tab Ctx => ∀ u ∈ us, u.2.bank.wf = true) (fun _ _ hu => (h.tsetUnits hc).of_mem_units hu) fun _ => hu
    · exact iteInduction (motive := fun us : Tab Ctx => ∀ u ∈ us, u.2.uid = u.1) (fun _ => (h.tsetUnits hc).2) fun _ => hn

/-- What a sequencer does concerns a context in canonical form. -/
def Issue.sound : Issue → Prop
  | .issue c | .switch c | .claim c => c.sound

theorem State.sound.residents (h : s.sound) {core : Nat} {u : Ctx} (hu : u ∈ residents s core) : u.sound := by
  obtain ⟨x, hx, rfl⟩ := List.mem_map.mp (List.mem_of_mem_filter hu)
  exact h.of_mem_units hx

theorem mem_of_turnTo {us : List Ctx} {slot n : Nat} (e : turnTo us slot n = some c) : c ∈ us := by
  obtain ⟨d, -, hd⟩ := List.exists_of_findSome?_eq_some e
  exact List.mem_of_mem_filter (List.mem_of_find?_eq_some hd)

theorem State.sound.handOver (h : s.sound) {core : Nat} (e : handOver s core = some c) : c.sound := by
  obtain ⟨u, -, hu⟩ := List.exists_of_findSome?_eq_some e
  split at hu
  next c' hc =>
    split at hu
    · cases hu
      exact h.of_unitOf hc
    · cases hu
  · cases hu

theorem State.sound.coreIssue (h : s.sound) {core : Nat} {x : Issue} (e : coreIssue s core = some x) : x.sound := by
  unfold Machine.coreIssue at e
  extract_lets us t at e
  have ht {slot : Nat} {c : Ctx} (e : turnTo us slot t = some c) : c.sound := h.residents (mem_of_turnTo e)
  split at e
  next hc =>
    cases e
    exact h.handOver hc
  split at e
  · obtain ⟨c, hc, rfl⟩ := Option.map_eq_some_iff.mp e
    exact ht hc
  split at e
  next c hc =>
    have hc : c.sound := h.residents (List.mem_of_find?_eq_some hc)
    split at e
    · split at e
      · cases e
        exact hc
      · cases e
    · obtain ⟨u, hu, rfl⟩ := Option.map_eq_some_iff.mp e
      split
      · exact ht hu
      · exact ht hu
  · obtain ⟨u, hu, rfl⟩ := Option.map_eq_some_iff.mp e
    exact ht hu

theorem State.sound.nextIssue (h : s.sound) {core : Nat} {x : Issue} (e : nextIssue s = some (core, x)) : x.sound := by
  obtain ⟨k, -, hk⟩ := List.exists_of_findSome?_eq_some e
  obtain ⟨x, hx, he⟩ := Option.map_eq_some_iff.mp hk
  cases he
  exact h.coreIssue hx

theorem State.sound.stall (h : s.sound) (hc : c.sound) {n : Nat} : (stall s c n).sound := h.setUnit hc

theorem State.sound.keepPast (h : s.sound) {c : Ctx} {i : Instr} : (keepPast c i s).sound := by
  unfold Machine.keepPast
  split
  · exact h
  next c' hc => exact h.withCx (h.of_cx hc)

theorem State.sound.executeAt (h : s.sound) (hc : c.sound) {i : Instr} : (executeAt i c s).sound := by
  unfold Machine.executeAt
  extract_lets bits checked
  split
  · exact h.exec
  split
  · exact h.takeFault
  split
  · exact h.exec
  have hx := h.comparison (core := c.core) (cls := bits.headD 0)
  split
  next he =>
    rw [he] at hx
    exact State.sound.exec hx
  next he =>
    rw [he] at hx
    exact State.sound.mismatch hx hc fun _ h => h.takeFault

theorem Out.sound.mapNext {o : Out} (ho : o.sound) {f : State → State} (hf : ∀ s, s.sound → (f s).sound) : (mapNext f o).sound := by
  unfold Machine.mapNext
  split
  · exact hf _ ho
  · exact ho

theorem State.sound.issueInstr (h : s.sound) (hc : c.sound) : (issueInstr s c).sound := by
  unfold Machine.issueInstr
  extract_lets t
  split
  · exact Out.sound.mapNext (h.enter hc).exec fun _ h => h.leave
  have hf := h.fetch (c := c)
  split
  · exact h.stall hc
  next he =>
    rw [he] at hf
    exact (State.sound.enter hf hc).takeFault.leave
  next i s' he =>
    have h' : s'.sound := by
      rw [he] at hf
      exact hf
    split
    · exact h'.stall hc
    split
    · exact (h'.foldl fun _ _ h => h.recoverGroup).stall hc
    · extract_lets s₁
      have h₁ : s₁.sound := h'.enter hc
      split
      next c' hc' => exact Out.sound.mapNext (h₁.executeAt (h₁.of_cx hc')) fun _ h => h.outlast.keepPast.leave
      · exact h₁

theorem State.sound.runIssue (h : s.sound) {core : Nat} {x : Issue} (hx : x.sound) : (runIssue s core x).sound := by
  unfold Machine.runIssue
  extract_lets hold
  have hh {c : Ctx} : (hold c).sound := h.modCore
  split
  · exact h.issueInstr hx
  · exact hh
  · exact hh.stall hx

theorem State.sound.pulse (h : s.sound) : (pulse s).sound := h.withClock.ite h.withClock

theorem State.sound.runStep (h : s.sound) : (runStep s).sound := by
  unfold Machine.runStep
  extract_lets s₁
  have h₁ : s₁.sound := h.leave
  split
  · split
    · exact h₁.takeInput
    · exact Out.sound.ite trivial h₁.pulse
  split
  · exact h₁.performEv
  split
  · exact h₁.takeInput
  split
  next hm => exact h₁.move (h₁.nextMove hm)
  split
  next hi => exact h₁.runIssue (h₁.nextIssue hi)
  · exact h₁.pulse

end Sys2Proof.Machine

namespace Sys2Proof.Proofs
open Sys2Proof Sys2Proof.Machine Sys2Proof.Laws

/-- Settles O49: no memory of the module at reset lists a byte, and no unit stands in its table. -/
theorem stateIsSoundAtReset : Obligations.StateIsSoundAtReset := by
  have hm : Mem.wf [] = true := rfl
  exact ⟨⟨hm, hm, hm, fun _ he => absurd he List.not_mem_nil, fun _ he => absurd he (Option.not_mem_none _),
    fun _ he => absurd he List.not_mem_nil, fun _ he => absurd he List.not_mem_nil⟩, fun _ he => absurd he List.not_mem_nil⟩

/-- Settles O50: everything a step can do, from the writes of storage up to the events of the agenda and the instructions that
issue, keeps a sound state sound. -/
theorem stepKeepsTheStateSound : Obligations.StepKeepsTheStateSound := fun _ _ hs e => hs.runStep.of_next e

end Sys2Proof.Proofs
end

section
/-!
SUPPORT. Delivery of engine commands (O36).
-/
set_option Elab.async false
namespace Sys2Proof.Proofs
open Sys2Proof Sys2Proof.Machine Sys2Proof.Stated Sys2Proof.Laws

/-! ## The delivery of a command (O36) -/

/-- The command that a delivery puts before the banister. -/
def deliveredCmd (s : State) (c : Ctx) (i : Instr) (k₀ : Cmd) : Cmd :=
  { k₀ with
    id := s.nextId, uid := c.uid, core := c.core, pc := c.pc, ins := i, deliver := tickOf s c, timed := c.timed
    due := dueOf s c i, seq := c.truncSeq, inRegion := c.idem && k₀.outbound, start := none }

/-- The context that has delivered a command: its truncation is numbered and its due tick noted. -/
def noted (s : State) (c : Ctx) (i : Instr) : Ctx :=
  let n := if truncatable i then { c with truncSeq := c.truncSeq + 1 } else c
  match timingOf i with
  | some t => if t.tmode = 0 then n else { n with lastDue := (engineOf i, s.nextId, dueOf s c i) :: n.lastDue }
  | none => n

theorem noted_eq (s : State) (c : Ctx) (i : Instr) :
    noted s c i = { c with truncSeq := c.truncSeq + (if truncatable i then 1 else 0), lastDue := (noted s c i).lastDue } := by
  unfold noted
  extract_lets n
  have h : n = { c with truncSeq := c.truncSeq + (if truncatable i then 1 else 0) } := by
    unfold n
    split <;> rfl
  rw [h]
  split
  · split <;> rfl
  · rfl

/-- The state in which a command has been delivered. -/
def delivered (s : State) (c : Ctx) (i : Instr) (k₀ : Cmd) : State :=
  let n := noted s c i
  goOn (schedC (modCore (fresh s).2 n.core (fun x => { x with pending := x.pending ++ [deliveredCmd s c i k₀] })) n
    (comparedAt s c i) 15 (.ins (.banisterCompare n.core s.nextId))) n (lengthOf i) 1

theorem dueTick_eq_stampOf (s : State) (c : Ctx) (q : Nat) (t : Timing) : dueTick s c q t = stampOf s c q t := by
  unfold dueTick stampOf
  split
  next h =>
    rw [if_pos h]
    cases c.segBase <;> rfl
  next h => simp [h]
  next h => simp [h]
  next h₁ h₂ h₃ => rw [if_neg h₁, if_neg h₂, if_neg h₃]

theorem due_eq_dueOf (s : State) (c : Ctx) (i : Instr) :
    (match timingOf i with | some t => dueTick s c (engineOf i) t | none => tickOf s c + 6) = dueOf s c i := by
  unfold dueOf
  cases timingOf i with
  | none => rfl
  | some t => exact dueTick_eq_stampOf ..

theorem comparedAt_eq (s : State) (c : Ctx) (i : Instr) (k₀ : Cmd) :
    (if reachesLate (deliveredCmd s c i k₀) then dueOf s c i else tickOf s c + 6) = comparedAt s c i := by
  unfold comparedAt
  congr 1
  rw [← and_assoc]
  simp only [reachesLate, deliveredCmd, Bool.and_eq_true]
  exact congrArg _ (decide_eq_true_eq)

/-- A command whose checks pass, and that neither its queue nor its segment holds up, is delivered. -/
theorem deliver_eq {s : State} {c : Ctx} {i : Instr} {k₀ : Cmd} {bits : List Nat} {prep : State → Ctx → Res Cmd} (hr : Runs s c bits)
    (hp : prep s c = .ok k₀) (hq : queueFull s c (engineOf i) = false)
    (ht : c.timed = true → ¬ untimed i ∧ ((timingOf i).isSome → tickOf s c < dueOf s c i)) :
    deliver bits i prep s = .next (delivered s c i k₀) := by
  obtain ⟨hc, hb⟩ := hr
  refine onCore_ok hc hb ?_
  refine (if_neg fun h => ?_).trans ?_
  · obtain ⟨htimed, hm⟩ := Bool.and_eq_true_iff.mp h
    refine (ht htimed).1 ?_
    cases he : timingOf i with
    | none => simp [he] at hm
    | some t => exact ⟨t, he, by simpa [he] using hm⟩
  refine (if_neg fun h => ?_).trans ?_
  · simp [hq] at h
  rw [hp]
  refine (if_neg fun h => ?_).trans ?_
  · simp only [Bool.and_eq_true, Bool.or_eq_true] at h
    obtain ⟨⟨htimed, hw⟩, hdue | hfull⟩ := h
    · exact Nat.not_lt.mpr ((due_eq_dueOf s c i).symm.le.trans (of_decide_eq_true hdue)) ((ht htimed).2 hw)
    · exact Bool.false_ne_true (hq.symm.trans hfull)
  unfold delivered noted lengthOf
  rw [← comparedAt_eq s c i k₀]
  unfold deliveredCmd
  rw [← due_eq_dueOf]
  cases timingOf i with
  | none => rfl
  | some t => rfl

/-- Form V is delivered to the VQ by what its major and function say. -/
theorem exec_formV {i : Instr} {major func : Nat} {v : VForm} (h : Machine.vform i = some (major, func, v)) (s : State) :
    exec i s = vecInstr major func i v s := by
  cases i <;> cases h <;> rfl

theorem classBit_of_loads (t b : Nat) : 0 < bankCount t → (match t with
    | 0x00 | 0x04 => [7] | 0x0B | 0x0A => [8] | 0x0C | 0x0D => [9] | 0x0F => [10] | 0x0E | 0x10 => [11] | 0x09 => [12]
    | 0x08 => [13] | 0x11 => [14] | _ => [b]) = [classBit t] := by
  intro h
  unfold bankCount at h
  split at h
  case h_13 => exact absurd h (Nat.lt_irrefl 0)
  all_goals rfl

theorem classBit_of_rows {f : ResF} (h : f.wf = true) : (match f.ty.toNat with
    | 0x00 | 0x04 => 7 | 0x0B | 0x0A => 8 | 0x0C | 0x0D => 9 | 0x0F => 10 | 0x0E | 0x10 => 11 | _ => 12) = classBit f.ty.toNat := by
  have hty : f.ty.toNat = 0 ∨ f.ty.toNat = 4 ∨ 9 ≤ f.ty.toNat ∧ f.ty.toNat ≤ 0x10 := by
    simp only [ResF.wf, Bool.and_eq_true, Bool.or_eq_true, beq_iff_eq, decide_eq_true_eq] at h
    obtain ⟨(h | h) | h, -⟩ := h
    · exact .inl (by rw [h]; rfl)
    · exact .inr (.inl (by rw [h]; rfl))
    · exact .inr (.inr h)
  generalize f.ty.toNat = t at hty
  rcases hty with rfl | rfl | ⟨h9, h16⟩
  · rfl
  · rfl
  · interval_cases t <;> rfl

/-- The command that i delivers is k₀, of a delivery that prepares it and declares what i declares. -/
def DeliversAs (s : State) (c : Ctx) (i : Instr) (k₀ : Cmd) (o : Out) : Prop :=
  ∃ prep, prep s c = .ok k₀ ∧ o = deliver (declared c i) i prep s

/-- What the delivery of MGDRAIN takes. -/
def drainCmd (f : DrainF) (c : Ctx) : Res Cmd := do
  let (v, off) ← placeOf c 3 f.dst.toNat
  .ok { (default : Cmd) with names := [0, off], views := [v] }

theorem drainCmd_eq (f : DrainF) (c : Ctx) : drainCmd f c = match placeName c 3 f.dst.toNat with
    | some p => .ok { (default : Cmd) with names := [0, p.2], views := [p.1] }
    | none => .error ⟨0x01, 0, 0, true⟩ := by
  unfold drainCmd placeOf
  cases placeName c 3 f.dst.toNat <;> rfl

/-- What the delivery of MRES takes. -/
def rowsCmd (f : ResF) (c : Ctx) : Res Cmd := do
  let (v, off) ← placeOf c 3 f.src.toNat
  let (w, dst) ← placeOf c (if f.kind = 1 then 3 else 2) f.num.toNat
  .ok { (default : Cmd) with names := [rot c f.rows.toNat, off, dst], views := [v, w] }

theorem rowsCmd_eq (f : ResF) (c : Ctx) :
    rowsCmd f c = match placeName c 3 f.src.toNat, placeName c (if f.kind = 1 then 3 else 2) f.num.toNat with
    | some p, some q => .ok { (default : Cmd) with names := [rot c f.rows.toNat, p.2, q.2], views := [p.1, q.1] }
    | _, _ => .error ⟨0x01, 0, 0, true⟩ := by
  unfold rowsCmd placeOf
  cases placeName c 3 f.src.toNat with
  | none => rfl
  | some p => cases placeName c (if f.kind = 1 then 3 else 2) f.num.toNat <;> rfl

theorem loads_of_wf {f : LoadWF} (h : f.wf = true) : 0 < bankCount f.ty.toNat := by
  simp only [LoadWF.wf, Bool.and_eq_true, decide_eq_true_eq] at h
  omega

theorem exec_delivers {s : State} {c : Ctx} {i : Instr} {k₀ : Cmd} (hw : i.wf = true) (hc : s.cx = some c)
    (hp : prepOf s c i = some (.ok k₀)) (hd : ∀ t f, i ≠ .dispatch t f) : DeliversAs s c i k₀ (exec i s) := by
  cases hv : Machine.vform i with
  | some x =>
    obtain ⟨major, func, v⟩ := x
    simp only [prepOf, hv, Option.some.injEq] at hp
    refine ⟨_, hp, ?_⟩
    simp only [exec_formV hv, vecInstr, declared, hv]
  | none =>
    simp only [prepOf, hv] at hp
    cases i with
    | mloadw t f =>
      refine ⟨fun _ _ => .ok default, Option.some.inj hp, ?_⟩
      obtain ⟨-, hf⟩ := Bool.and_eq_true_iff.mp hw
      rw [show declared c (.mloadw t f) = [classBit f.ty.toNat] from rfl, ← classBit_of_loads _ _ (loads_of_wf hf)]
      rfl
    | mmul t f => exact ⟨_, Option.some.inj hp, rfl⟩
    | mgrad t f => exact ⟨_, Option.some.inj hp, rfl⟩
    | mgdrain t f => exact ⟨fun _ c => drainCmd f c, (drainCmd_eq f c).trans (Option.some.inj hp), rfl⟩
    | mres t f =>
      refine ⟨fun _ c => rowsCmd f c, (rowsCmd_eq f c).trans (Option.some.inj hp), ?_⟩
      obtain ⟨-, hf⟩ := Bool.and_eq_true_iff.mp hw
      rw [show declared c (.mres t f) = [classBit f.ty.toNat] from rfl, ← classBit_of_rows hf]
      rfl
    | slclaim t d n =>
      refine ⟨fun _ c => do noIdem c; .ok { (default : Cmd) with names := [rot c d.toNat] }, ?_, rfl⟩
      rw [← Option.some.inj hp]
      unfold noIdem
      dsimp only
      cases c.idem <;> rfl
    | slrel t n =>
      refine ⟨fun _ c => do noIdem c; .ok default, ?_, rfl⟩
      rw [← Option.some.inj hp]
      unfold noIdem
      dsimp only
      cases c.idem <;> rfl
    | lnest t f =>
      dsimp only at hp
      split at hp
      · cases hp
      next hcvt =>
        refine ⟨_, Option.some.inj hp, ?_⟩
        change execLnest t f s = _
        unfold execLnest
        rw [hc]
        exact if_neg hcvt
    | sortc t f => exact ⟨_, Option.some.inj hp, rfl⟩
    | xld t f => exact ⟨_, Option.some.inj hp, rfl⟩
    | xst t f => exact ⟨_, Option.some.inj hp, rfl⟩
    | resume t q => exact ⟨fun _ _ => .ok default, Option.some.inj hp, rfl⟩
    | esave t q img => exact ⟨_, Option.some.inj hp, rfl⟩
    | eload t q img => exact ⟨_, Option.some.inj hp, rfl⟩
    | cpy t f => exact ⟨_, Option.some.inj hp, rfl⟩
    | cpyc t f => exact ⟨_, Option.some.inj hp, rfl⟩
    | ckpt t f => exact ⟨_, Option.some.inj hp, rfl⟩
    | lrflush t r =>
      refine ⟨fun _ c => do let a := rdS c r.toNat; recordAt c a; .ok { (default : Cmd) with vals := [a], outbound := true }, ?_, rfl⟩
      rw [← Option.some.inj hp]
      dsimp only
      cases recordAt c (rdS c r.toNat) <;> rfl
    | xsend t f => exact ⟨_, Option.some.inj hp, rfl⟩
    | xrecv t f => exact ⟨_, Option.some.inj hp, rfl⟩
    | dispatch t f => exact absurd rfl (hd t f)
    | wlnext t d q => exact ⟨fun _ c => .ok { (default : Cmd) with
        names := (List.range 5).map (fun j => rot c (d.toNat + j)), sample := [rotP c q.toNat] }, Option.some.inj hp, rfl⟩
    | wid t d => exact ⟨fun _ c => .ok { (default : Cmd) with names := (List.range 4).map (fun j => rot c (d.toNat + j)) }, Option.some.inj hp, rfl⟩
    | _ => cases hp

section
variable (s : State) (c : Ctx) (i : Instr) (k₀ : Cmd)

@[simp] theorem noted_core : (noted s c i).core = c.core := by rw [noted_eq]
@[simp] theorem noted_uid : (noted s c i).uid = c.uid := by rw [noted_eq]

theorem delivered_cx : (delivered s c i k₀).cx = some { noted s c i with
    pc := (noted s c i).pc + BitVec.ofNat 64 (lengthOf i), nextAt := tickOf s (noted s c i) + 1 } := rfl

theorem delivered_pending : (coreOf (delivered s c i k₀) c.core).pending = (coreOf s c.core).pending ++ [deliveredCmd s c i k₀] := by
  have h : coreOf (delivered s c i k₀) c.core =
      coreOf (modCore (fresh s).2 (noted s c i).core (fun x => { x with pending := x.pending ++ [deliveredCmd s c i k₀] })) c.core := rfl
  rw [h, noted_core, coreOf_modCore_self]
  rfl

theorem coreOf_delivered {x : Nat} (hx : x ≠ c.core) : coreOf (delivered s c i k₀) x = coreOf s x := by
  have h : coreOf (delivered s c i k₀) x =
      coreOf (modCore (fresh s).2 (noted s c i).core (fun x => { x with pending := x.pending ++ [deliveredCmd s c i k₀] })) x := rfl
  rw [h, noted_core, coreOf_modCore_ne _ _ (Ne.symm hx)]
  rfl

theorem delivered_agenda : (delivered s c i k₀).agenda
    = s.agenda ++ [⟨c.core / 128, comparedAt s c i, 15, c.uid, 0, .ins (.banisterCompare c.core s.nextId), false⟩] := by
  have h : (delivered s c i k₀).agenda = s.agenda ++ [⟨dieOfCore (noted s c i).core, comparedAt s c i, 15, (noted s c i).uid, 0,
      .ins (.banisterCompare (noted s c i).core s.nextId), false⟩] := rfl
  rw [h, noted_core, noted_uid]
  rfl

theorem delivered_storage : SameStorage s (delivered s c i k₀) := ⟨rfl, rfl, rfl, rfl, rfl, rfl, rfl⟩

end

/-- DISPATCH blocks the context that has delivered it. -/
theorem exec_dispatch {s : State} {c : Ctx} {t : Timing} {f : DispF} {k₀ : Cmd} (hr : Runs s c [21])
    (hp : dispatchPrep f s c = .ok k₀) (hw : c.wait = .run) (hq : queueFull s c (engineOf (.dispatch t f)) = false)
    (ht : c.timed = true → ¬ untimed (.dispatch t f) ∧ ((timingOf (.dispatch t f)).isSome → tickOf s c < dueOf s c (.dispatch t f))) :
    exec (.dispatch t f) s = .next { delivered s c (.dispatch t f) k₀ with cx := some { noted s c (.dispatch t f) with
      pc := c.pc, wait := .dispatch (rot c f.d.toNat), nextAt := tickOf s c + 1 } } := by
  have hn := noted_eq s c (.dispatch t f)
  change execDispatch t f s = _
  unfold execDispatch
  rw [deliver_eq hr hp hq ht]
  dsimp only
  rw [hr.1, delivered_cx]
  dsimp only
  rw [if_pos (by rw [hn, hw]; simp [lengthOf, timingOf])]
  rw [hn]
  rfl

/-- Settles O36: every engine command goes through `deliver`, whose one way past its checks is `delivered`. -/
theorem commandsAreDelivered : Obligations.CommandsAreDelivered := by
  intro i s c k₀ hwf hp hr hw hq ht
  by_cases hd : ∃ t f, i = .dispatch t f
  · obtain ⟨t, f, rfl⟩ := hd
    refine ⟨_, _, _, exec_dispatch hr (Option.some.inj hp) hw hq ht, rfl, delivered_pending .., fun _ hx => coreOf_delivered _ _ _ _ hx, rfl,
      delivered_agenda .., delivered_storage s c (.dispatch t f) k₀, rfl, rfl, ⟨rfl, rfl⟩, rfl, ?_⟩
    rw [noted_eq]
    exact ⟨rfl, rfl, rfl, rfl, rfl⟩
  · obtain ⟨prep, hp, he⟩ := exec_delivers hwf hr.1 hp fun t f h => hd ⟨t, f, h⟩
    refine ⟨_, _, _, he.trans (deliver_eq hr hp hq ht), delivered_cx .., delivered_pending .., fun _ hx => coreOf_delivered _ _ _ _ hx, rfl,
      delivered_agenda .., delivered_storage s c _ k₀, rfl, rfl, ?_, ?_⟩
    · rw [noted_eq]
      split
      · exact absurd ⟨_, _, rfl⟩ hd
      · exact ⟨rfl, hw⟩
    · rw [noted_eq]
      exact ⟨rfl, rfl, rfl, rfl, rfl, rfl⟩

end Sys2Proof.Proofs
end

section
/-!
SUPPORT. Buffers: their instructions and the effects these announce (O28).
-/
set_option Elab.async false
namespace Sys2Proof.Proofs
open Sys2Proof Sys2Proof.Machine Sys2Proof.Stated Sys2Proof.Laws

/-! ## What a write of storage leaves unchanged -/

theorem setDirty_eq (s : State) (ps : List (Nat × Nat)) : setDirty s ps = { s with vds := (setDirty s ps).vds } := by
  induction ps generalizing s with
  | nil => rfl
  | cons p ps ih =>
    have h := ih (modVd s p.1 (fun v => if v.dirty.contains p.2 then v else { v with dirty := v.dirty ++ [p.2] }))
    exact h

section
variable (s : State) (space off : Nat) (w : SyncWord) (tick : Nat)

@[simp] theorem putWord_mem : (putWord s space off w tick).mem = s.mem.writeRun (locOf space off) (wordBytes w) := by
  rw [putWord, writeSpace, setDirty_eq]

@[simp] theorem putWord_hostMem : (putWord s space off w tick).hostMem = s.hostMem := by rw [putWord, writeSpace, setDirty_eq]
@[simp] theorem putWord_cores : (putWord s space off w tick).cores = s.cores := by rw [putWord, writeSpace, setDirty_eq]
@[simp] theorem putWord_agenda : (putWord s space off w tick).agenda = s.agenda := by rw [putWord, writeSpace, setDirty_eq]

@[simp] theorem unitOf_putWord (u : Nat) : unitOf (putWord s space off w tick) u = unitOf s u := by
  rw [putWord, writeSpace, setDirty_eq]
  rfl

end

/-- A word's fields fit the bits that hold them (R87). -/
def WordFits (w : SyncWord) : Prop := w.target < 2 ^ 32 ∧ w.count < 2 ^ 32 ∧ w.gen < 2 ^ 16

theorem fits_wordAt (s : State) (space off : Nat) : WordFits (wordAt s space off) :=
  ⟨Nat.mod_lt _ (by decide), Nat.mod_lt _ (by decide), Nat.mod_lt _ (by decide)⟩

theorem wordBytes_length (w : SyncWord) : (wordBytes w).length = 16 := bytesOfNat_length ..

/-- A word is read as it was written. -/
theorem wordAt_written {s : State} {m : Mem} {space off : Nat} {w : SyncWord} (hw : WordFits w)
    (hm : s.mem = m.writeRun (locOf space off) (wordBytes w)) : wordAt s space off = w := by
  obtain ⟨target, count, gen, frozen, reached⟩ := w
  obtain ⟨ht, hc, hg⟩ := hw
  have hr : s.mem.readRun (locOf space off) 16 = wordBytes ⟨target, count, gen, frozen, reached⟩ := by
    rw [hm]
    exact readRun_writeRun_self m _ (wordBytes ⟨target, count, gen, frozen, reached⟩)
  unfold wordAt
  rw [hr, wordBytes, natOfBytes_bytesOfNat]
  simp only at ht hc hg
  cases frozen <;> cases reached <;> simp [bitsOf] <;> omega

/-! ## Buffer instructions (O28) -/

theorem faults_of {i : Instr} {s : State} {c : Ctx} {f : State → Ctx → Res State} {cause : Nat} {v info : Word} (hr : Runs s c [0])
    (hi : exec i s = onCore [0] f s) (hf : f s c = flt cause v info) : Faults i s c cause v info :=
  hi.trans (onCore_trap hr.1 hr.2 hf)

theorem announces_of {i : Instr} {s : State} {c : Ctx} {f : State → Ctx → Res State} {n : Nat} {op : BufOp} (hr : Runs s c [0])
    (hi : exec i s = onCore [0] f s) (hf : f s c = .ok (bufferAt s c n op)) : Announces i s c n op :=
  hi.trans (onCore_ok hr.1 hr.2 hf)

theorem continues_of {i : Instr} {s : State} {c : Ctx} {f : State → Ctx → Res State} (hr : Runs s c [0])
    (hi : exec i s = onCore [0] f s) (hf : f s c = .ok (goOn s c 4 1)) : Continues i s c 4 1 (fun c' => c' = c) :=
  ⟨c, rfl, hi.trans (onCore_ok hr.1 hr.2 hf)⟩

theorem entryOf_past {c : Ctx} {a : Word} (h : 64 ≤ a.toNat) : entryOf c a = flt cADDRESS a := if_pos h
theorem entryOf_below {c : Ctx} {a : Word} (h : a.toNat < 64) : entryOf c a = .ok (entry c a.toNat) := if_neg (Nat.not_le.mpr h)

/-- The meaning of BDECL. -/
def declares (a b : Reg) (s : State) (c : Ctx) : Res State := do
  let n := rdS c a.toNat
  let arg := fun i => (rdS c (b.toNat + i)).toNat
  let e ← entryOf c n
  if e.declared && e.state != 0 then flt cBUFFER n (BitVec.ofNat 64 e.state)
  else if arg 1 = 0 then .ok (bufferAt s c n.toNat .undeclare)
  else match bdeclFault c n.toNat (arg 0) (arg 1) (arg 2) (arg 3) with
    | some (i, v) => flt cADDRESS (BitVec.ofNat 64 v) (BitVec.ofNat 64 i)
    | none => do
      checkOwn s c [(arg 0, arg 1), (arg 2, 16)]
      .ok (bufferAt s c n.toNat (.declare ⟨arg 2, arg 1, arg 0, 0, true⟩ (arg 3)))

theorem exec_bdecl (a b : Reg) (s : State) : exec (.bdecl a b) s = onCore [0] (declares a b) s := rfl

theorem not_meets {a n b m : Nat} (h : a + n ≤ b ∨ b + m ≤ a) : meets a n b m = false := by
  unfold meets
  simp only [Bool.and_eq_false_iff, decide_eq_false_iff_not]
  omega

/-- R276 names no fault of operands that satisfy it. -/
theorem bdeclFault_of_declarable {c : Ctx} {n base len word target : Nat} (h : declarable c n base len word target) :
    bdeclFault c n base len word target = none := by
  obtain ⟨hb, hl, -, hw, ht0, ht, hend, hwend, hsep, hall⟩ := h
  have hothers {f : Buf → Bool} (hf : ∀ e ∈ c.bufs, e.2.declared = true → e.1 ≠ n → f e.2 = false) :
      ((c.bufs.filter (fun e => e.2.declared && e.1 != n)).map Prod.snd).any f = false := by
    rw [List.any_eq_false]
    intro b hb
    obtain ⟨e, he, rfl⟩ := List.mem_map.mp hb
    obtain ⟨hmem, hq⟩ := List.mem_filter.mp he
    obtain ⟨hd, hne⟩ := Bool.and_eq_true_iff.mp hq
    rw [hf e hmem hd (bne_iff_ne.mp hne)]
    exact Bool.false_ne_true
  unfold bdeclFault
  rw [if_neg (by simp [hb]), if_neg (by simp [hl]), if_neg (by simp [hw]),
    if_neg (by simp only [Bool.or_eq_true, decide_eq_true_eq]; omega), if_neg (by omega), if_neg (by omega),
    hothers fun e he hd hn => not_meets (hall e he hd hn).1, hothers fun e he hd hn => not_meets (hall e he hd hn).2,
    not_meets hsep.symm]
  rfl

theorem bdeclDeclaresABuffer : BdeclDeclaresABuffer := by
  intro a b s c hr
  have hx := exec_bdecl a b s
  refine ⟨fun hn => faults_of hr hx ?_, fun hn hd hs => faults_of hr hx ?_, fun hn he => ?_⟩
  · rw [declares, entryOf_past hn]
    rfl
  · rw [declares, entryOf_below hn]
    exact if_pos (by simp [hd, hs])
  have hidle : ¬ ((entry c (rdS c a.toNat).toNat).declared && (entry c (rdS c a.toNat).toNat).state != 0) = true := by
    rcases he with he | he <;> simp [he]
  refine ⟨fun h0 => announces_of hr hx ?_, fun h0 hb => faults_of hr hx ?_, fun hd hown => announces_of hr hx ?_⟩
  · rw [declares, entryOf_below hn]
    exact (if_neg hidle).trans (if_pos h0)
  · rw [declares, entryOf_below hn]
    refine (if_neg hidle).trans ((if_neg h0).trans ?_)
    rw [bdeclFault, if_pos (bne_iff_ne.mpr hb)]
    rfl
  · obtain ⟨-, -, h0, -⟩ := id hd
    rw [declares, entryOf_below hn]
    refine (if_neg hidle).trans ((if_neg h0).trans ?_)
    rw [bdeclFault_of_declarable hd]
    dsimp only
    rw [hown]
    rfl

/-- The meaning of BACQ (Table 5.8). -/
def acquires (need next : Nat) (a : Reg) (s : State) (c : Ctx) : Res State := do
  let n := rdS c a.toNat
  let e ← entryOf c n
  if !e.declared then flt cBUFFER n 4
  else do
    checkOwn s c [(e.base, e.length)]
    if e.state != need then flt cBUFFER n (BitVec.ofNat 64 e.state)
    else .ok (bufferAt s c n.toNat (.acquire need next))

theorem exec_bacqFill (a : Reg) (s : State) : exec (.bacqFill a) s = onCore [0] (acquires 0 1 a) s := rfl
theorem exec_bacqDrain (a : Reg) (s : State) : exec (.bacqDrain a) s = onCore [0] (acquires 2 3 a) s := rfl

/-- The meaning of BREL (Table 5.8). -/
def releases (a : Reg) (s : State) (c : Ctx) : Res State := do
  let n := rdS c a.toNat
  let e ← entryOf c n
  if !e.declared then .ok (goOn s c 4 1)
  else do
    checkOwn s c [(e.base, e.length)]
    if e.state = 0 then .ok (goOn s c 4 1)
    else if e.state != 3 then flt cBUFFER n (BitVec.ofNat 64 e.state)
    else .ok (bufferAt s c n.toNat .release)

theorem exec_brel (a : Reg) (s : State) : exec (.brel a) s = onCore [0] (releases a) s := rfl

/-- The meaning of BSTAT (R277). -/
def reports (d a : Reg) (s : State) (c : Ctx) : Res State := do
  let e ← entryOf c (rdS c a.toNat)
  let (s, c) := later s c d.toNat 4 (BitVec.ofNat 64 (bstatWord s c e))
  .ok (goOn s c 4 1)

theorem exec_bstat (d a : Reg) (s : State) : exec (.bstat d a) s = onCore [0] (reports d a) s := rfl

section
variable {s : State} {c : Ctx} {need next : Nat} {a : Reg}

theorem acquires_past (hn : 64 ≤ (rdS c a.toNat).toNat) : acquires need next a s c = flt cADDRESS (rdS c a.toNat) := by
  rw [acquires, entryOf_past hn]
  rfl

theorem acquires_undeclared (hn : (rdS c a.toNat).toNat < 64) (hd : (entry c (rdS c a.toNat).toNat).declared = false) :
    acquires need next a s c = flt cBUFFER (rdS c a.toNat) 4 := by
  rw [acquires, entryOf_below hn]
  exact if_pos (by simp [hd])

theorem releases_past (hn : 64 ≤ (rdS c a.toNat).toNat) : releases a s c = flt cADDRESS (rdS c a.toNat) := by
  rw [releases, entryOf_past hn]
  rfl

theorem releases_undeclared (hn : (rdS c a.toNat).toNat < 64) (hd : (entry c (rdS c a.toNat).toNat).declared = false) :
    releases a s c = .ok (goOn s c 4 1) := by
  rw [releases, entryOf_below hn]
  exact if_pos (by simp [hd])

variable (hn : (rdS c a.toNat).toNat < 64) (hd : (entry c (rdS c a.toNat).toNat).declared = true)
  (hown : checkOwn s c [((entry c (rdS c a.toNat).toNat).base, (entry c (rdS c a.toNat).toNat).length)] = .ok ())
include hn hd hown

theorem acquires_declared : acquires need next a s c = if (entry c (rdS c a.toNat).toNat).state != need
      then flt cBUFFER (rdS c a.toNat) (word (entry c (rdS c a.toNat).toNat).state)
      else .ok (bufferAt s c (rdS c a.toNat).toNat (.acquire need next)) := by
  rw [acquires, entryOf_below hn]
  refine (if_neg (by simp [hd])).trans ?_
  rw [hown]
  rfl

theorem releases_declared : releases a s c = if (entry c (rdS c a.toNat).toNat).state = 0 then .ok (goOn s c 4 1)
      else if (entry c (rdS c a.toNat).toNat).state != 3
      then flt cBUFFER (rdS c a.toNat) (word (entry c (rdS c a.toNat).toNat).state)
      else .ok (bufferAt s c (rdS c a.toNat).toNat .release) := by
  rw [releases, entryOf_below hn]
  refine (if_neg (by simp [hd])).trans ?_
  rw [hown]
  rfl

end

theorem statusOf_eq (s : State) (c : Ctx) (e : Buf) : BitVec.ofNat 64 (bstatWord s c e) = statusOf s c e := by
  unfold bstatWord statusOf
  cases e.declared <;> rfl

/-- A result that performs k ticks on, as an instruction's result in ticks. -/
theorem goOn_later (s : State) (c : Ctx) (n k len : Nat) (v : Word) : goOn (later s c n k v).1 (later s c n k v).2 len 1 = { s with
    agenda := s.agenda ++ resultDue s c n k v
    cx := some { c with busy := awaiting s c n k, pc := c.pc + BitVec.ofNat 64 len, nextAt := tickOf s c + 1 } } := by
  unfold later resultDue awaiting
  by_cases h : rot c n = 0
  · simp only [h, if_true, List.append_nil]
    rfl
  · simp only [h, if_false]
    rfl

theorem reports_below {s : State} {c : Ctx} {d a : Reg} (hn : (rdS c a.toNat).toNat < 64) :
    reports d a s c = .ok (goOn (later s c d.toNat 4 (statusOf s c (entry c (rdS c a.toNat).toNat))).1
      (later s c d.toNat 4 (statusOf s c (entry c (rdS c a.toNat).toNat))).2 4 1) := by
  rw [reports, entryOf_below hn, ← statusOf_eq]
  rfl

theorem buffersMoveBetweenStates : BuffersMoveBetweenStates := by
  intro d a s c hr
  refine ⟨fun hn => ⟨faults_of hr (exec_bacqFill a s) (acquires_past hn), faults_of hr (exec_bacqDrain a s) (acquires_past hn),
      faults_of hr (exec_brel a s) (releases_past hn), faults_of hr (exec_bstat d a s) ?_⟩,
    fun hn hd => ⟨faults_of hr (exec_bacqFill a s) (acquires_undeclared hn hd), faults_of hr (exec_bacqDrain a s) (acquires_undeclared hn hd),
      continues_of hr (exec_brel a s) (releases_undeclared hn hd)⟩,
    fun hn hd hown => ?_, fun hn => (exec_bstat d a s).trans ((onCore_ok hr.1 hr.2 (reports_below hn)).trans (congrArg _ (goOn_later ..)))⟩
  · rw [reports, entryOf_past hn]
    rfl
  have hacq {need next : Nat} := acquires_declared (need := need) (next := next) hn hd hown
  have hrel := releases_declared hn hd hown
  refine ⟨fun h => ⟨announces_of hr (exec_bacqFill a s) (hacq.trans (if_neg ?_)), continues_of hr (exec_brel a s) (hrel.trans (if_pos h))⟩,
    fun h => faults_of hr (exec_bacqFill a s) (hacq.trans (if_pos ?_)), fun h => announces_of hr (exec_bacqDrain a s) (hacq.trans (if_neg ?_)),
    fun h => faults_of hr (exec_bacqDrain a s) (hacq.trans (if_pos ?_)),
    fun h => faults_of hr (exec_brel a s) (hrel.trans ((if_neg ?_).trans (if_pos ?_))),
    fun h => announces_of hr (exec_brel a s) (hrel.trans ((if_neg ?_).trans (if_neg ?_)))⟩
  · simp [h]
  · simp [h]
  · simp [h]
  · simp [h]
  · omega
  · rw [bne_iff_ne]
    omega
  · simp [h]
  · simp [h]

/-! ## What buffer instructions do a tick later (O28) -/

section
variable {s : State} {c : Ctx} {n : Nat}

theorem performBuffer_undeclare (hu : unitOf s c.uid = some c) :
    performBuffer s c.uid n .undeclare = setUnit s (setBuf c n { entry c n with declared := false }) := by
  unfold performBuffer
  rw [hu]
  rfl

/-- A declaration marks its word's place, where the word then stands. -/
theorem performBuffer_declare (hu : unitOf s c.uid = some c) (b : Buf) (target : Nat) :
    ∃ ws, performBuffer s c.uid n (.declare b target) = modUnit (putWord { s with words := ws } (spadPlace s c b.wordOff 2).space
      (spadPlace s c b.wordOff 2).off
      ⟨target, 0, (wordAt s (spadPlace s c b.wordOff 2).space (spadPlace s c b.wordOff 2).off).gen, false, false⟩ (tickOf s c)) c.uid
      (fun x => setBuf x n b) := by
  unfold performBuffer
  rw [hu]
  exact ⟨_, rfl⟩

theorem performBuffer_acquire (hu : unitOf s c.uid = some c) (need next : Nat) : performBuffer s c.uid n (.acquire need next) =
    if (entry c n).declared && (entry c n).state = need && !(wordAt s (spadPlace s c (entry c n).wordOff 2).space
      (spadPlace s c (entry c n).wordOff 2).off).frozen then setUnit s (setBuf c n { entry c n with state := next }) else s := by
  unfold performBuffer
  rw [hu]
  rfl

theorem performBuffer_release (hu : unitOf s c.uid = some c) : performBuffer s c.uid n .release =
    if (entry c n).declared && (entry c n).state = 3 && !(wordAt s (spadPlace s c (entry c n).wordOff 2).space
      (spadPlace s c (entry c n).wordOff 2).off).frozen then
      modUnit (putWord s (spadPlace s c (entry c n).wordOff 2).space (spadPlace s c (entry c n).wordOff 2).off
        { wordAt s (spadPlace s c (entry c n).wordOff 2).space (spadPlace s c (entry c n).wordOff 2).off with
          count := 0, reached := false } (tickOf s c)) c.uid (fun x => setBuf x n { entry c n with state := 0 })
    else s := by
  unfold performBuffer
  rw [hu]
  rfl

/-- An entry changes and its word is written: what t is of s, beside the marks of words. -/
theorem wordWritten {t : State} (hu : unitOf s c.uid = some c) {sp off tick : Nat} {w : SyncWord} (hw : WordFits w) {b : Buf}
    {ws} (ht : t = modUnit (putWord { s with words := ws } sp off w tick) c.uid (fun x => setBuf x n b)) :
    unitOf t c.uid = some { c with bufs := tset c.bufs n b } ∧ wordAt t sp off = w
      ∧ (∀ a, (a < locOf sp off ∨ locOf sp off + 16 ≤ a) → t.mem.read a = s.mem.read a)
      ∧ t.hostMem = s.hostMem ∧ t.rents = s.rents ∧ t.cores = s.cores ∧ t.agenda = s.agenda := by
  have hu' : unitOf (putWord { s with words := ws } sp off w tick) c.uid = some c := (unitOf_putWord ..).trans hu
  have hm : t.mem = s.mem.writeRun (locOf sp off) (wordBytes w) := by rw [ht, modUnit_mem, putWord_mem]
  refine ⟨?_, wordAt_written hw hm, fun a ha => ?_, ?_, ?_, ?_, ?_⟩
  · rw [ht, modUnit_eq _ hu']
    exact unitOf_setUnit ..
  · rw [hm, read_writeRun, if_neg]
    rw [wordBytes_length]
    omega
  · simp [ht]
  · simp [ht]
  · simp [ht]
  · simp [ht]

end

theorem bufferEffectsPerform : BufferEffectsPerform := by
  intro s ev c n hu
  refine ⟨performBuffer_undeclare hu, fun b target ht => ?_, fun need next => (performBuffer_acquire hu need next).trans ?_,
    fun hd hs hf => ?_, fun h => (performBuffer_release hu).trans (if_neg ?_)⟩
  · obtain ⟨ws, he⟩ := performBuffer_declare (n := n) hu b target
    have hw : WordFits ⟨target, 0, (wordAt s (spadPlace s c b.wordOff 2).space (spadPlace s c b.wordOff 2).off).gen, false, false⟩ :=
      ⟨ht, Nat.two_pow_pos 32, (fits_wordAt ..).2.2⟩
    have h := wordWritten hu hw he
    exact h
  · simp only [Bool.and_eq_true, decide_eq_true_eq, Bool.not_eq_true', and_assoc]
    rfl
  · obtain ⟨hT, -, hG⟩ := fits_wordAt s (spadPlace s c (entry c n).wordOff 2).space (spadPlace s c (entry c n).wordOff 2).off
    have hw : WordFits { wordAt s (spadPlace s c (entry c n).wordOff 2).space (spadPlace s c (entry c n).wordOff 2).off with
        count := 0, reached := false } := ⟨hT, Nat.two_pow_pos 32, hG⟩
    have h := wordWritten (ws := s.words) hu hw ((performBuffer_release hu).trans (if_pos (by simp [hd, hs, hf])))
    exact h
  · rcases h with h | h | h <;> simp [h]

/-- Settles O28: the meanings of the buffer instructions case by case, and what their effects do to the entry and to its word. -/
theorem buffersFollowTheirTable : Obligations.BuffersFollowTheirTable :=
  ⟨bdeclDeclaresABuffer, buffersMoveBetweenStates, bufferEffectsPerform⟩

end Sys2Proof.Proofs
end

section
/-!
SUPPORT. What rent operations answer, and RENT (O34).
-/
set_option Elab.async false
namespace Sys2Proof.Proofs
open Sys2Proof Sys2Proof.Machine Sys2Proof.Stated Sys2Proof.Laws

/-! ## What a rent operation answers (O33, O34) -/

/-- Results of a rent operation at tick t, due 4 ticks on. -/
def answered (c : Ctx) (t : Nat) (ps : List (Nat × Nat)) (s : State) : State :=
  ps.foldl (fun s p => if p.1 = 0 then s else schedC s c (t + 4) 11 (.eff (.bank c.uid (8 * p.1) (bytesOfNat 8 p.2) []))) s

theorem answered_eq (s₀ : State) (c : Ctx) (ps : List (Nat × Nat)) (h : ∀ p ∈ ps, p.1 ≠ 0) (s : State) :
    answered c (tickOf s₀ c) ps s = { s with agenda := s.agenda ++ ps.map (fun p => rentResult s₀ c p.1 p.2) } := by
  induction ps generalizing s with
  | nil => simp [answered]
  | cons p ps ih =>
    have hp : p.1 ≠ 0 := h p (List.mem_cons_self ..)
    have hc : answered c (tickOf s₀ c) (p :: ps) s = answered c (tickOf s₀ c) ps { s with agenda := s.agenda ++ [rentResult s₀ c p.1 p.2] } := by
      rw [rentResult, lowBytes_word]
      exact congrArg (answered c (tickOf s₀ c) ps) (if_neg hp)
    rw [hc, ih (fun q hq => h q (List.mem_cons_of_mem _ hq))]
    simp

theorem performRent_eq {s : State} {c : Ctx} (hu : unitOf s c.uid = some c) {i : Instr} {args : List Word} {dst : List Nat} {pc : Word}
    {st : Nat} {rs : List Nat} {t : State} (hop : rentOp s c i args (tickOf s c) = (st, rs, t)) :
    performRent s c.uid i args dst pc = if st != 0 && !statusForm i then
        takeFault t c.uid ⟨rentFault st, args.headD 0, BitVec.ofNat 64 (0x100 + st), false⟩ pc
      else answered c (tickOf s c) (dst.zip (st :: rs)) t := by
  unfold performRent
  rw [hu]
  dsimp only
  rw [hop]
  rfl

/-- A rent operation that is done, or whose form is a status form, writes its status and its results. -/
theorem performRent_answers {s : State} {c : Ctx} (hu : unitOf s c.uid = some c) {i : Instr} {args : List Word} {dst : List Nat} {pc : Word}
    {st : Nat} {rs : List Nat} {t : State} (hop : rentOp s c i args (tickOf s c) = (st, rs, t)) (hst : st = 0 ∨ statusForm i = true)
    (hdst : ∀ p ∈ dst, p ≠ 0) : performRent s c.uid i args dst pc =
      { t with agenda := t.agenda ++ (dst.zip (st :: rs)).map (fun p => rentResult s c p.1 p.2) } := by
  rw [performRent_eq hu hop, if_neg (by rcases hst with h | h <;> simp [h])]
  exact answered_eq s c _ (fun p hp => hdst p.1 (List.of_mem_zip hp).1) t

/-! ## Entries (R76, R89) -/

theorem refDie_refOf (die : Nat) {table i : Nat} (ht : table < 4) (hi : i < 2 ^ 17) : refDie (refOf die table i) = die := by
  unfold refDie refOf
  omega

theorem refTable_refOf (die : Nat) {table i : Nat} (ht : table < 4) (hi : i < 2 ^ 17) : refTable (refOf die table i) = table := by
  unfold refTable refOf
  omega

theorem refIndex_refOf (die table : Nat) {i : Nat} (hi : i < 2 ^ 17) : refIndex (refOf die table i) = i := by
  unfold refIndex refOf
  omega

theorem tableSize_pos (t : Nat) : 0 < tableSize t := by
  unfold tableSize
  split <;> decide

theorem tableSize_le (t : Nat) : tableSize t ≤ 2 ^ 17 := by
  unfold tableSize
  split <;> decide

theorem not_used_of_freeFrom {used : List Nat} {cap f i k : Nat} (h : freeFrom used cap f i = some k) (hc : 0 < cap) :
    k ∉ used ∧ k < cap := by
  induction f generalizing i with
  | zero => cases h
  | succ f ih =>
    unfold freeFrom at h
    split at h
    · exact ih h
    next hn =>
      cases h
      exact ⟨fun hk => hn (List.contains_iff_mem.mpr hk), Nat.mod_lt _ hc⟩

/-- The entry that freeEntry names is FREE (R89). -/
theorem free_of_freeEntry {s t : State} {die table ref : Nat} (ht : table < 4) (h : freeEntry s die table = some (ref, t)) :
    (rentOf s ref).state = 0 := by
  unfold freeEntry at h
  simp only [pick] at h
  split at h
  · cases h
  obtain ⟨i, hi, he⟩ := Option.map_eq_some_iff.mp h
  cases he
  obtain ⟨hn, hlt⟩ := not_used_of_freeFrom hi (tableSize_pos table)
  have hi17 : i < 2 ^ 17 := Nat.lt_of_lt_of_le hlt (tableSize_le table)
  unfold rentOf
  cases hr : tget s.rents (refOf die table i) with
  | none => rfl
  | some r =>
    by_contra hs
    refine hn (List.mem_map.mpr ⟨_, List.mem_filter.mpr ⟨mem_of_tget hr, ?_⟩, refIndex_refOf die table hi17⟩)
    simp [refDie_refOf die ht hi17, refTable_refOf die ht hi17]
    exact hs

/-! ## RENT (O34) -/

/-- The region that RENT asks for, at its global address. -/
def asked (c : Ctx) (tier n until_ at_ : Nat) : Rent :=
  { (default : Rent) with
    owner := ownerOf c, tier := tier, share := 0, size := n, paid := until_, core := c.core, team := c.team, addr := at_ }

/-- The region of entry ref of s' is paid for and mapped. -/
def rented (s' : State) (c : Ctx) (ref cost at_ n : Nat) : State :=
  modVd (modVd s' c.vd (fun v => { v with allowance := v.allowance - cost })) c.vd
    (fun v => { v with maps := v.maps ++ [⟨at_, n, ref, false, 0, false⟩] })

theorem vdOf_rented (s' : State) (c : Ctx) (ref cost at_ n : Nat) : vdOf (rented s' c ref cost at_ n) c.vd = { vdOf s' c.vd with
    allowance := allowanceOf s' c.vd - cost, maps := (vdOf s' c.vd).maps ++ [⟨at_, n, ref, false, 0, false⟩] } := by
  rw [rented, vdOf_modVd_self, vdOf_modVd_self]
  rfl

section
variable {s s₁ s₂ : State} {c : Ctx} {tier n until_ t ref at_ : Nat}

theorem allowance_claimed {vd die core ref : Nat} {s t : State} {r : Rent} (h : claimRegion s vd die n core r = some (ref, t)) (d : Nat) :
    allowanceOf t d = allowanceOf s d := allowanceOf_of_front (claimRegion_spec h).1 d

theorem claimRegion_of (hc : claim s c.vd tier (c.core / 128) n c.core = some s₁) (he : freeEntry s₁ (c.core / 128) (min tier 3) = some (ref, s₂)) :
    claimRegion s c.vd (c.core / 128) n c.core (asked c tier n until_ at_) = some (ref, makeRegion s₂ ref (asked c tier n until_ at_)) := by
  unfold claimRegion
  simp only [asked, tableOf, hc, he]

theorem rentNew_global {cost : Nat} {s' : State} (ht : tier ≠ 1) (h1 : 1 ≤ n) (h2 : n ≤ 2 ^ 24) (hu : t < until_)
    (hcost : rentRate (asked c tier n until_ at_) * (until_ - t) = cost) (hb : cost < 2 ^ 64) (hall : cost ≤ allowanceOf s c.vd)
    (hg : freeGlobal (vdOf s c.vd) n = some at_)
    (hr : claimRegion s c.vd (c.core / 128) n c.core (asked c tier n until_ at_) = some (ref, s')) :
    rentNew s c tier n until_ t = (0, [handleOf s' ref], poke (rented s' c ref cost at_ n)) := by
  have hsize : bitsOf n 0 32 = n := by
    unfold bitsOf
    omega
  have hshare : bitsOf n 32 2 = 0 := by
    unfold bitsOf
    omega
  have hsync : bitsOf n 63 1 = 0 := by
    unfold bitsOf
    omega
  have hhigh : bitsOf n 34 29 = 0 := by
    unfold bitsOf
    omega
  have hpay : charge s' c.vd cost = some (modVd s' c.vd (fun v => { v with allowance := v.allowance - cost })) :=
    if_neg (Nat.not_lt.mpr (hall.trans (allowance_claimed hr c.vd).ge))
  have hnever : ¬ never < cost := by
    unfold never
    omega
  unfold rentNew
  simp only [hsize, hshare, hsync, hhigh]
  rw [if_neg]
  · have hcost' : rentRate { (default : Rent) with
        owner := ownerOf c, tier := tier, share := 0, size := n, paid := until_, core := c.core, team := c.team } * (until_ - t) = cost := hcost
    unfold asked at hr
    rw [← rentRate_eq, hcost', if_neg hnever]
    simp only [show ((0 : Nat) == 1) = false from rfl, Bool.false_eq_true, if_false, hg, Option.map_some]
    rw [show dieOfCore c.core = c.core / 128 from rfl, hr]
    dsimp only
    rw [hpay]
    rfl
  · simp [ht]
    omega
end

/-- Settles O34: the claim's region is made in the FREE entry, its cost leaves the allowance, and its pages are mapped. -/
theorem rentFillsAnEntry : Obligations.RentFillsAnEntry := by
  intro s s₁ s₂ ev c st t d a b sz until_ p p' ref at_ pc hu hp hp' k r die hk h1 h2 ht hb hall hg hc he
  have hcr := claimRegion_of (until_ := until_.toNat) (at_ := at_) hc he
  have hnew := rentNew_global hk h1 h2 ht rfl hb hall hg hcr
  have hrun : performEff s ev (.rent c.uid (.rent st t d a b) [sz, until_] [p, p'] pc) = _ :=
    performRent_answers (i := .rent st t d a b) (args := [sz, until_]) (dst := [p, p']) (pc := pc) hu hnew (.inl rfl) (by simp [hp, hp'])
  intro s'
  have hs' : s' = _ := hrun
  have hrents : rentOf s' ref = filled s₂ ref (asked c k sz.toNat until_.toNat at_) := by
    rw [hs']
    exact (rentOf_congr (poke_rents _) ref).trans (rentOf_makeRegion s₂ ref _)
  have hvd := (vdOf_congr (s := s') (by rw [hs']; exact poke_vds _) c.vd).trans (vdOf_rented ..)
  refine ⟨free_of_freeEntry (by omega) he, congrArg Rent.state hrents, congrArg Rent.owner hrents, congrArg Rent.tier hrents,
    congrArg Rent.size hrents, congrArg Rent.paid hrents, congrArg Rent.addr hrents, ?_, ?_, ?_, ?_⟩
  · rw [allowanceOf, hvd, ← allowance_claimed hcr]
    rfl
  · rw [hvd]
    simp
  · rw [hs']
    simp
  · have hh : handleOf s' ref = handleOf (makeRegion s₂ ref (asked c k sz.toNat until_.toNat at_)) ref := by
      unfold handleOf
      rw [hrents, rentOf_makeRegion]
    rw [hh, hs']
    simp

end Sys2Proof.Proofs
end

section
/-!
SUPPORT. Rent operations on a handle (O33).
-/
set_option Elab.async false
namespace Sys2Proof.Proofs
open Sys2Proof Sys2Proof.Machine Sys2Proof.Stated Sys2Proof.Laws

/-! ## Operations on a handle (O33) -/

theorem headD_drop (l : List Word) (k : Nat) : (l.drop k).headD 0 = l.getD k 0 := by
  rw [List.headD_eq_head?_getD, List.head?_drop, List.getD_eq_getElem?_getD]

theorem not_reserved {h : Word} (h1 : bitsAt h.toNat 32 16 = 0) (h2 : bitsAt h.toNat 17 10 = 0) : handleReserved h.toNat = false := by
  unfold handleReserved
  rw [show bitsOf h.toNat 32 16 = 0 from h1, show bitsOf h.toNat 17 10 = 0 from h2]
  rfl

theorem stands_owner (c : Ctx) : (issuerOf c).stands (ownerOf c) = true := by simp [Issuer.stands, issuerOf]

theorem owner_vd {c : Ctx} (h : c.principal < 65536) : ownerOf c / 65536 = c.vd := by
  unfold ownerOf
  omega

section
variable {s : State} {h : Nat} {f : Nat → Nat × List Nat × State} (hr : handleReserved h = false)
include hr

theorem onHandle_stale (he : entryOfHandle s h = none) : onHandle s h f = (4, [], s) := by
  rw [onHandle, hr, he]
  rfl

theorem onHandle_names {ref : Nat} (he : entryOfHandle s h = some ref) : onHandle s h f = f ref := by
  rw [onHandle, hr, he]
  rfl

end

section
variable {s : State} {c : Ctx} {ref : Nat} {h : Word} {x : List Word} {st : Bool} {d a b : Reg} (t : Nat)
  (hr : handleReserved h.toNat = false) (he : entryOfHandle s h.toNat = some ref)
include hr he

theorem rentOp_renew : rentOp s c (.renew st d a b) (h :: x) t
    = ((rentRenew s (issuerOf c) ref (x.getD 0 0).toNat t).1, [], (rentRenew s (issuerOf c) ref (x.getD 0 0).toNat t).2) := by
  refine (onHandle_names hr he).trans ?_
  simp only [headD_drop]
  rfl

theorem rentOp_prepay : rentOp s c (.prepay st d a b) (h :: x) t
    = ((rentPrepay s (issuerOf c) ref (x.getD 0 0).toNat).1, [], (rentPrepay s (issuerOf c) ref (x.getD 0 0).toNat).2) := by
  refine (onHandle_names hr he).trans ?_
  simp only [headD_drop]
  rfl

theorem rentOp_sublet : rentOp s c (.sublet st d a b) (h :: x) t
    = rentSublet s (issuerOf c) ref (x.getD 0 0).toNat (x.getD 1 0).toNat (x.getD 2 0).toNat (x.getD 3 0).toNat t := by
  refine (onHandle_names hr he).trans ?_
  simp only [headD_drop]
  rfl

theorem rentOp_unsublet : rentOp s c (.unsublet st d a) (h :: x) t
    = ((rentUnsublet s (issuerOf c) ref t).1, [], (rentUnsublet s (issuerOf c) ref t).2) :=
  onHandle_names hr he

theorem rentOp_release : rentOp s c (.release st d a) (h :: x) t
    = ((rentRelease s (issuerOf c) ref t).1, [], (rentRelease s (issuerOf c) ref t).2) :=
  onHandle_names hr he

theorem rentOp_rquery : rentOp s c (.rquery st d a) (h :: x) t
    = ((rentQuery s (issuerOf c) ref).1, (rentQuery s (issuerOf c) ref).2, s) :=
  onHandle_names hr he

end

/-! ## What the operations do when they are done (R73, R79, R81) -/

/-- A charge leaves a device's allowance (R73). -/
def debited (s : State) (vd n : Nat) : State := modVd s vd (fun v => { v with allowance := v.allowance - n })

theorem allowance_debited {s t : State} {vd n : Nat} (h : t.vds = (debited s vd n).vds) : allowanceOf t vd = allowanceOf s vd - n := by
  rw [allowanceOf, vdOf_congr h, debited, vdOf_modVd_self]
  rfl

theorem charge_covered {s : State} {vd n : Nat} (h : n ≤ allowanceOf s vd) :
    charge s vd n = some (debited s vd n) := if_neg (Nat.not_lt.mpr h)

theorem not_never {n : Nat} (h : n < 2 ^ 64) : ¬ never < n := by
  unfold never
  omega

section
variable {s : State} {c : Ctx} {ref : Nat} (ho : (rentOf s ref).owner = ownerOf c)
include ho

theorem rentRenew_done {until_ t : Nat} (hvd : c.principal < 65536) (hsub : (rentOf s ref).sub = false)
    (hgood : ((rentOf s ref).state = 1 ∧ (rentOf s ref).paid < until_)
      ∨ ((rentOf s ref).state = 2 ∧ (rentOf s ref).paid ≤ until_ ∧ t < until_))
    (hall : rentRate (rentOf s ref) * (until_ - (rentOf s ref).paid + (rentOf s ref).lack) ≤ allowanceOf s c.vd)
    (hb : rentRate (rentOf s ref) * (until_ - (rentOf s ref).paid + (rentOf s ref).lack) < 2 ^ 64) :
    rentRenew s (issuerOf c) ref until_ t = (0, poke (schedRent (modRent (debited s c.vd
        (rentRate (rentOf s ref) * (until_ - (rentOf s ref).paid + (rentOf s ref).lack))) ref
      (fun r => { r with paid := until_, state := 1, lack := 0 })) ref)) := by
  unfold rentRenew
  simp only [ho, hsub, stands_owner, ← rentRate_eq, owner_vd hvd]
  rw [if_neg (by simp), if_neg, if_neg (not_never hb), if_neg (by simp), charge_covered hall]
  · rfl
  · rcases hgood with ⟨h1, h2⟩ | ⟨h1, -, h2⟩ <;> simp [h1, h2]

theorem rentPrepay_done {amount : Nat} (hvd : c.principal < 65536) (hsub : (rentOf s ref).sub = false) (h1 : (rentOf s ref).state = 1)
    (hall : amount ≤ allowanceOf s c.vd) (hb : (rentOf s ref).escrow + amount < 2 ^ 64) :
    rentPrepay s (issuerOf c) ref amount = (0, modRent (debited s c.vd amount) ref
      (fun r => { r with escrow := r.escrow + amount })) := by
  unfold rentPrepay
  simp only [ho, hsub, h1, stands_owner, owner_vd hvd]
  rw [if_neg (by simp), if_neg (by simp), if_neg (by simp), if_neg (not_never hb), charge_covered hall]
  rfl

theorem rentRelease_done {t : Nat} (hvd : c.principal < 65536) (hsub : (rentOf s ref).sub = false) (h1 : (rentOf s ref).state = 1)
    (ht : (rentOf s ref).tier ≠ 0) (hs : subletsOf s ref = [])
    (hb : rentRate (rentOf s ref) * ((rentOf s ref).paid - t) + (rentOf s ref).escrow < 2 ^ 64) :
    rentRelease s (issuerOf c) ref t = (0, poke (reclaim (refund s c.vd
      (rentRate (rentOf s ref) * ((rentOf s ref).paid - t) + (rentOf s ref).escrow)) ref)) := by
  unfold rentRelease
  simp only [ho, hsub, h1, hs, stands_owner, ← rentRate_eq, owner_vd hvd, if_true]
  rw [if_neg (by simp), if_neg (by simp), if_neg (by simp [ht]), if_neg (not_never hb), if_neg (by simp)]
  rfl

theorem rentUnsublet_done {t : Nat} (hsub : (rentOf s ref).sub = true) (h1 : (rentOf s ref).state = 1)
    (hb : rentRate (rentOf s ref) * ((rentOf s ref).paid - t) < 2 ^ 64) :
    rentUnsublet s (issuerOf c) ref t = (0, endSublet s ref) := by
  unfold rentUnsublet
  simp only [ho, hsub, h1, stands_owner, ← rentRate_eq]
  rw [if_neg (by simp), if_neg (by simp), if_neg (by simp), if_neg (not_never hb)]
  rfl

theorem rentQuery_done : rentQuery s (issuerOf c) ref = (0, [(rentOf s ref).size * 2 ^ 32 + (rentOf s ref).share * 2 ^ 7
    + (rentOf s ref).tier * 2 ^ 4 + (rentOf s ref).state, (rentOf s ref).paid, (rentOf s ref).escrow,
      if (rentOf s ref).tier = 0 then 0 else (rentOf s ref).addr]) := by
  unfold rentQuery
  simp only [ho, stands_owner]
  rw [if_neg (by simp)]
  rfl

end

/-! ## A sublet that ends (R81) -/

theorem endOne_rents (s : State) (k : Nat) : (endOne s k).rents = s.rents ∨
    (rentOf s k).sub = true ∧ (rentOf s k).state = 1 ∧ ∃ x, x.rents = s.rents ∧ (endOne s k).rents = (modRent x k vacant).rents := by
  by_cases h : (rentOf s k).sub = true ∧ (rentOf s k).state = 1
  · exact .inr ⟨h.1, h.2, endOne_live h.1 h.2⟩
  · left
    unfold endOne
    rw [if_pos (by simpa [Classical.or_iff_not_imp_left] using h)]

/-- However often the sublets of a range end, the entry is as it was or FREE. -/
theorem rentOf_endOne {s : State} {ref : Nat} {r : Rent} (h : rentOf s ref = r ∨ rentOf s ref = vacant r) (k : Nat) :
    rentOf (endOne s k) ref = r ∨ rentOf (endOne s k) ref = vacant r := by
  rcases endOne_rents s k with he | ⟨hs, h1, x, hx, he⟩
  · rwa [rentOf_congr he]
  · rw [rentOf_congr he]
    by_cases hk : k = ref
    · subst hk
      rw [rentOf_modRent_self, rentOf_congr hx]
      rcases h with h | h
      · exact .inr (congrArg vacant h)
      · rw [h] at hs
        exact absurd hs Bool.false_ne_true
    · rwa [rentOf_modRent_ne _ _ hk, rentOf_congr hx]

/-- A sublet that ends leaves a FREE entry of the next generation (log entry 121). -/
theorem rentOf_endSublet {s : State} {ref : Nat} (hs : (rentOf s ref).sub = true) (h1 : (rentOf s ref).state = 1) :
    rentOf (endSublet s ref) ref = vacant (rentOf s ref) := by
  have hbelow : rentOf ((sublets s s.rents.length ref).reverse.foldl endOne s) ref = rentOf s ref
      ∨ rentOf ((sublets s s.rents.length ref).reverse.foldl endOne s) ref = vacant (rentOf s ref) :=
    List.foldlRecOn (motive := fun x => rentOf x ref = rentOf s ref ∨ rentOf x ref = vacant (rentOf s ref)) _ endOne (.inl rfl)
      fun _ hx k _ => rentOf_endOne hx k
  unfold endSublet
  generalize (sublets s s.rents.length ref).reverse.foldl endOne s = y at hbelow
  rcases hbelow with h | h
  · obtain ⟨x, hx, he⟩ := endOne_live (h ▸ hs) (h ▸ h1)
    rw [rentOf_congr he, rentOf_modRent_self, rentOf_congr hx, h]
  · unfold endOne
    rw [if_pos (by rw [h]; rfl), h]

/-! ## What the operations' results are (O33) -/

section
variable {s : State} (ev : Ev) {c : Ctx} (hu : unitOf s c.uid = some c) {i : Instr} {args : List Word} {pc : Word}
include hu

/-- The status form of an operation on a stale handle writes its status only. -/
theorem stale_answered {p : Nat} {ps : List Nat} (hp : p ≠ 0) (hst : statusForm i = true)
    (hop : rentOp s c i args (tickOf s c) = (4, [], s)) :
    performEff s ev (.rent c.uid i args (p :: ps) pc) = { s with agenda := s.agenda ++ [rentResult s c p 4] } := by
  refine (performRent_eq hu hop).trans ((if_neg (by simp [hst])).trans ?_)
  rw [List.zip_cons_cons, List.zip_nil_right]
  exact answered_eq s c [(p, 4)] (by simp [hp]) s

/-- What an operation that is done leaves, with its results. -/
theorem done_answered {rs dst : List Nat} {t : State} (hop : rentOp s c i args (tickOf s c) = (0, rs, t)) (hdst : ∀ q ∈ dst, q ≠ 0) :
    performEff s ev (.rent c.uid i args dst pc)
      = { t with agenda := t.agenda ++ (dst.zip (0 :: rs)).map (fun q => rentResult s c q.1 q.2) } :=
  performRent_answers hu hop (.inl rfl) hdst

/-- An operation with one result, that is done. -/
theorem done_plain {p : Nat} (hp : p ≠ 0) {o : Nat × State} {t : State} (hop : rentOp s c i args (tickOf s c) = (o.1, [], o.2))
    (ho : o = (0, t)) : performEff s ev (.rent c.uid i args [p] pc) = { t with agenda := t.agenda ++ [rentResult s c p 0] } := by
  subst ho
  exact done_answered ev hu hop (by simp [hp])

end

theorem emptied_of_mem {s t u : State} {space : Nat} (hm : t.mem = s.mem) (h : Emptied t u space) : Emptied s u space := by
  unfold Emptied
  rw [← hm]
  exact h

theorem emptied_poke {s t : State} {space : Nat} (h : Emptied s t space) : Emptied s (poke t) space := by
  unfold Emptied
  rw [poke_mem]
  exact h

theorem Placed.of_eq {s t : State} (h : Placed s) (hw : t.words = s.words) (ht : t.targets = s.targets) : Placed t := by
  unfold Placed
  rw [hw, ht]
  exact h

/-- A sublet of a range of region r of entry ref, as it fills the FREE entry x. -/
def subletOf (r : Rent) (ref first count owner end_ : Nat) (x : Rent) : Rent :=
  { r with
    gen := x.gen, owner := owner, size := count, sub := true, parent := refIndex ref, base := r.base + first, paid := end_
    escrow := 0, share := 0, addr := if r.addr = 0 then 0 else r.addr + first * granule r }

theorem rentSublet_done {s s' : State} {c : Ctx} {ref e first count owner end_ t : Nat} (ho : (rentOf s ref).owner = ownerOf c)
    (hvd : c.principal < 65536) (h1 : (rentOf s ref).state = 1) (ht : (rentOf s ref).tier ≠ 0)
    (hfree : ∀ e ∈ subletsOf s ref, e.2.base + e.2.size ≤ (rentOf s ref).base + first ∨ (rentOf s ref).base + first + count ≤ e.2.base)
    (hn : count ≠ 0) (hin : first + count ≤ (rentOf s ref).size) (hend : t < end_) (hpaid : end_ ≤ (rentOf s ref).paid)
    (hown : owner / 65536 = c.vd) (hb : rentRate { rentOf s ref with size := count } * (end_ - t) < 2 ^ 64)
    (he : freeEntry s (refDie ref) (refTable ref) = some (e, s')) :
    rentSublet s (issuerOf c) ref first count owner end_ t = (0, [handleOf (modRent s' e (subletOf (rentOf s ref) ref first count owner end_)) e],
      schedRent (modRent s' e (subletOf (rentOf s ref) ref first count owner end_)) e) := by
  have hmeets : (subletsOf s ref).any (fun e => meets e.2.base e.2.size ((rentOf s ref).base + first) count) = false := by
    rw [List.any_eq_false]
    intro e he
    rw [not_meets (hfree e he)]
    exact Bool.false_ne_true
  have hrate : rentRate { rentOf s ref with size := count } = count * granule (rentOf s ref) * weight (rentOf s ref).tier :=
    rentRate_eq _
  unfold rentSublet
  dsimp only
  rw [if_neg (by simp [ho, stands_owner]), if_neg (by simp [h1]), if_neg (by simp [hmeets]),
    if_neg (by simp [ho, ht, owner_vd hvd, hown]; omega), if_neg (by rw [← hrate]; exact not_never hb), he]
  rfl

/-- The new entry is another than its region's, which is as it was. -/
theorem rentOf_sublet {s s' : State} {ref e : Nat} (h1 : (rentOf s ref).state = 1)
    (he : freeEntry s (refDie ref) (refTable ref) = some (e, s')) (f : Rent → Rent) :
    (rentOf s e).state = 0 ∧ rentOf (modRent s' e f) e = f (rentOf s e) ∧ rentOf (modRent s' e f) ref = rentOf s ref := by
  have h0 := free_of_freeEntry (Nat.mod_lt _ (by decide)) he
  have hne : e ≠ ref := fun h => by rw [h, h1] at h0; cases h0
  have hrents {k : Nat} : rentOf s' k = rentOf s k := by
    rw [freeEntry_eq he]
    rfl
  exact ⟨h0, by rw [rentOf_modRent_self, hrents], by rw [rentOf_modRent_ne _ _ hne, hrents]⟩

/-- Settles O33: each operation on a handle is one of `rentOp_…`, and each that is done one of `rent…_done`. -/
theorem rentOperationsPerform : Obligations.RentOperationsPerform := by
  intro s ev c st d a b h x p ref pc hu hvd hr1 hr2 hp r run arg
  have hr := not_reserved hr1 hr2
  refine ⟨fun he hst => ?_, fun he hst ps => ⟨?_, ?_, ?_⟩, fun he ho hsub => ⟨fun hgood hall hb => ?_, fun h1 hall hb => ?_, fun h1 ht hs hpl hb => ?_⟩,
    fun he ho p' hp' h1 ht hfree hn hin hend hpaid hown hb hsome => ?_, fun he ho hsub h1 hb => ?_, fun he ho p1 p2 p3 p4 h1 h2 h3 h4 => ?_⟩
  · subst hst
    exact performRent_eq (i := .renew false d a b) (args := h :: x) hu (onHandle_stale hr he)
  · subst hst
    exact stale_answered ev hu (i := .renew true d a b) (args := h :: x) hp rfl (onHandle_stale hr he)
  · subst hst
    exact stale_answered ev hu (i := .rquery true d a) (args := h :: x) hp rfl (onHandle_stale hr he)
  · subst hst
    exact stale_answered ev hu (i := .sublet true d a b) (args := h :: x) hp rfl (onHandle_stale hr he)
  · have hrun : run (.renew st d a b) (h :: x) [p] = _ :=
      done_plain ev hu hp (rentOp_renew _ hr he) (rentRenew_done ho hvd hsub hgood hall hb)
    rw [hrun]
    refine ⟨?_, ?_, ?_, by simp⟩
    · refine (rentOf_congr ((poke_rents _).trans (schedRent_rents ..)) ref).trans ?_
      exact rentOf_modRent_self ..
    · exact allowance_debited ((poke_vds _).trans (schedRent_vds ..))
    · exact (poke_mem _).trans (schedRent_mem ..)
  · have hrun : run (.prepay st d a b) (h :: x) [p] = _ :=
      done_plain ev hu hp (rentOp_prepay _ hr he) (rentPrepay_done ho hvd hsub h1 hall hb)
    rw [hrun]
    exact ⟨rentOf_modRent_self (debited s c.vd (arg 0)) ref (fun r => { r with escrow := r.escrow + arg 0 }), allowance_debited rfl, rfl, by simp⟩
  · have hrun : run (.release st d a) (h :: x) [p] = _ :=
      done_plain ev hu hp (rentOp_release _ hr he) (rentRelease_done ho hvd hsub h1 ht hs hb)
    rw [hrun]
    refine ⟨?_, ?_, by simp, ?_⟩
    · refine (congrArg Rent.state (rentOf_congr (poke_rents _) ref)).trans ?_
      exact congrArg Rent.state (rentOf_reclaim (s := refund s c.vd _) ht)
    · exact emptied_of_mem rfl (emptied_poke (emptied_reclaim (Placed.of_eq hpl rfl rfl) ht))
    · refine (allowanceOf_of_front ((front_poke _).trans (front_reclaim ..)) c.vd).trans ?_
      exact refund_allowance ..
  · obtain ⟨⟨e, s'⟩, hf⟩ := Option.isSome_iff_exists.mp hsome
    have hrun : run (.sublet st d a b) (h :: x) [p, p'] = _ :=
      done_answered ev hu ((rentOp_sublet _ hr he).trans (rentSublet_done ho hvd h1 ht hfree hn hin hend hpaid hown hb hf)) (by simp [hp, hp'])
    rw [hrun]
    obtain ⟨h0, hnew, hold⟩ := rentOf_sublet h1 hf (subletOf (rentOf s ref) ref (arg 0) (arg 1) (arg 2) (arg 3))
    have hrents (k : Nat) : rentOf (schedRent (modRent s' e (subletOf (rentOf s ref) ref (arg 0) (arg 1) (arg 2) (arg 3))) e) k = 
        rentOf (modRent s' e (subletOf (rentOf s ref) ref (arg 0) (arg 1) (arg 2) (arg 3))) k := rentOf_congr (schedRent_rents ..) k
    have he' := (hrents e).trans hnew
    have hs' := freeEntry_eq hf
    refine ⟨e, h0, (congrArg Rent.state he').trans h1, congrArg Rent.sub he', congrArg Rent.owner he', congrArg Rent.parent he',
      congrArg Rent.base he', congrArg Rent.size he', congrArg Rent.paid he', (hrents ref).trans hold, ?_, ?_, by simp, ?_⟩
    · refine (schedRent_vds ..).trans ?_
      rw [hs']
      rfl
    · refine (schedRent_mem ..).trans ?_
      rw [hs']
      rfl
    · have hh := handleOf_congr (schedRent_rents (modRent s' e (subletOf (rentOf s ref) ref (arg 0) (arg 1) (arg 2) (arg 3))) e) e
      refine List.mem_append_right _ (List.mem_cons_of_mem _ (List.mem_singleton.mpr ?_))
      exact congrArg (rentResult s c p') hh
  · have hrun : run (.unsublet st d a) (h :: x) [p] = _ :=
      done_plain ev hu hp (rentOp_unsublet _ hr he) (rentUnsublet_done ho hsub h1 hb)
    rw [hrun]
    refine ⟨(rentOf_endSublet hsub h1 :), by simp⟩
  · have hop : rentOp s c (.rquery st d a) (h :: x) (tickOf s c) = (0, [r.size * 2 ^ 32 + r.share * 2 ^ 7 + r.tier * 2 ^ 4 + r.state,
        r.paid, r.escrow, if r.tier = 0 then 0 else r.addr], s) := by rw [rentOp_rquery _ hr he, rentQuery_done ho]
    exact done_answered ev hu hop (by simp [hp, h1, h2, h3, h4])

end Sys2Proof.Proofs
end

section
/-!
SUPPORT. Events of the rent table (O35).
-/
set_option Elab.async false
namespace Sys2Proof.Proofs
open Sys2Proof Sys2Proof.Machine Sys2Proof.Stated Sys2Proof.Laws

/-! ## Events of the rent table (O35) -/

theorem not_frozen {s : State} {r : Rent} (h : (vdOf s (r.owner / 65536)).state ≠ 3) : rentFrozen s r = false := by
  unfold rentFrozen
  exact decide_eq_false h

section
variable {s : State} {ref : Nat} (hf : (vdOf s ((rentOf s ref).owner / 65536)).state ≠ 3)
include hf

section
variable (h1 : (rentOf s ref).state = 1) (hsub : (rentOf s ref).sub = false) (hp : (rentOf s ref).paid = now s (refDie ref))
include h1 hsub hp

theorem autoExtend_full (hq : rentRate (rentOf s ref) * 2 ^ 20 ≤ (rentOf s ref).escrow) :
    exec (.autoExtend ref) s = .next (schedRent (modRent s ref (fun r => { r with
      escrow := r.escrow - rentRate (rentOf s ref) * 2 ^ 20, paid := r.paid + 2 ^ 20 })) ref) := by
  change execAutoExtend ref s = _
  unfold execAutoExtend
  dsimp only
  rw [if_neg (by simp [h1, hsub, hp, not_frozen hf]), ← rentRate_eq, if_pos hq]

/-- What AUTO_EXTEND leaves of an escrow that does not pay for a whole extension (R80). -/
def extended (s : State) (ref : Nat) : State :=
  modRent (refund s ((rentOf s ref).owner / 65536) ((rentOf s ref).escrow % rentRate (rentOf s ref))) ref
    (fun r => { r with escrow := 0, paid := r.paid + (rentOf s ref).escrow / rentRate (rentOf s ref) })

theorem autoExtend_short (hq : (rentOf s ref).escrow < rentRate (rentOf s ref) * 2 ^ 20) :
    exec (.autoExtend ref) s = .next (if (rentOf s ref).escrow / rentRate (rentOf s ref) = 0
      then sched (extended s ref) (refDie ref) (rentOf s ref).paid 2 0 0 (.ins (.lapse ref)) else schedRent (extended s ref) ref) := by
  have hmod : (rentOf s ref).escrow - (rentOf s ref).escrow / rentRate (rentOf s ref) * rentRate (rentOf s ref)
      = (rentOf s ref).escrow % rentRate (rentOf s ref) := by
    rw [Nat.mod_eq_sub_div_mul]
  change execAutoExtend ref s = _
  unfold execAutoExtend
  dsimp only
  rw [if_neg (by simp [h1, hsub, hp, not_frozen hf]), ← rentRate_eq, if_neg (Nat.not_le.mpr hq), hmod]
  split <;> rfl

theorem lapse_runs : exec (.lapse ref) s = .next (lapseRegion s ref) := by
  change execLapse ref s = _
  unfold execLapse
  dsimp only
  rw [if_neg (by simp [h1, hsub, hp, not_frozen hf])]

end

theorem graceEnd_runs (h2 : (rentOf s ref).state = 2) (hp : (rentOf s ref).paid + 2 ^ 24 - (rentOf s ref).lack = now s (refDie ref)) :
    exec (.graceEnd ref) s = .next (poke (reclaim s ref)) := by
  change execGraceEnd ref s = _
  unfold execGraceEnd
  dsimp only
  rw [if_neg (by rw [h2, hp, not_frozen hf]; simp)]

theorem subletEnd_runs (h1 : (rentOf s ref).state = 1) (hsub : (rentOf s ref).sub = true) (hp : (rentOf s ref).paid = now s (refDie ref)) :
    exec (.subletEnd ref) s = .next (endSublet s ref) := by
  change execSubletEnd ref s = _
  unfold execSubletEnd
  dsimp only
  rw [if_neg (by simp [h1, hsub, hp, not_frozen hf])]
end

/-! ## LAPSE (R86) -/

theorem lapseRegion_eq {s : State} {ref : Nat} (ht : (rentOf s ref).tier ≠ 0) : lapseRegion s ref =
    poke (schedRent (freezeRange (modRent s ref (fun r => { r with state := 2, escrow := 0 })) (rentOf s ref).space 0 (2 ^ 41)
      (now s (refDie ref))) ref) := by
  unfold lapseRegion
  simp only [ht, decide_false, Bool.false_and, Bool.false_eq_true, if_false]
  rfl

theorem mem_freezeWord (space t : Nat) (s : State) (w : Nat × Nat × Bool) : (freezeWord space t s w).mem
    = s.mem.writeRun (locOf space w.2.1) (wordBytes { wordAt s space w.2.1 with frozen := true }) := by
  rw [freezeWord, releaseWaiters_mem, releaseWaiters_mem]
  exact putWord_mem ..

/-- A word freezes where it stands. -/
theorem frozen_freezeWord (space t : Nat) (s : State) (w : Nat × Nat × Bool) :
    (wordAt (freezeWord space t s w) space w.2.1).frozen = true := by
  have hfits := fits_wordAt s space w.2.1
  rw [wordAt_written (w := { wordAt s space w.2.1 with frozen := true }) hfits (mem_freezeWord space t s w)]

/-- A word that freezes leaves frozen what is frozen. -/
theorem frozen_kept {space t off : Nat} {s : State} {w : Nat × Nat × Bool} (ho : off % 16 = 0) (hw : w.2.1 % 16 = 0)
    (h : (wordAt s space off).frozen = true) : (wordAt (freezeWord space t s w) space off).frozen = true := by
  by_cases he : off = w.2.1
  · rw [he]
    exact frozen_freezeWord space t s w
  · have hrun : (freezeWord space t s w).mem.readRun (locOf space off) 16 = s.mem.readRun (locOf space off) 16 := by
      rw [mem_freezeWord]
      refine readRun_writeRun_disjoint _ _ _ _ _ ?_
      rw [wordBytes_length]
      unfold locOf
      omega
    unfold wordAt at h ⊢
    rw [hrun]
    exact h

theorem frozen_freezeWords {space t off : Nat} (ho : off % 16 = 0) (l : List (Nat × Nat × Bool)) (hl : ∀ w ∈ l, w.2.1 % 16 = 0) (s : State)
    (h : (wordAt s space off).frozen = true ∨ ∃ w ∈ l, w.2.1 = off) : (wordAt (l.foldl (freezeWord space t) s) space off).frozen = true := by
  induction l generalizing s with
  | nil =>
    rcases h with h | ⟨w, hw, -⟩
    · exact h
    · cases hw
  | cons w l ih =>
    refine ih (fun x hx => hl x (List.mem_cons_of_mem _ hx)) _ ?_
    rcases h with h | ⟨x, hx, he⟩
    · exact .inl (frozen_kept ho (hl w (List.mem_cons_self ..)) h)
    · rcases List.mem_cons.mp hx with rfl | hx
      · exact .inl (he ▸ frozen_freezeWord space t s x)
      · exact .inr ⟨x, hx, he⟩

/-- The words that freeze in a range lie on 16-byte units. -/
theorem aligned_of_placed {s : State} (hp : Placed s) {space first last : Nat} {w : Nat × Nat × Bool}
    (hw : w ∈ s.words ++ targetsIn s space first last) : w.2.1 % 16 = 0 := by
  rcases List.mem_append.mp hw with h | h
  · exact (hp.1 w h).1
  · obtain ⟨x, hx, rfl⟩ := List.mem_map.mp h
    exact (hp.2 x (List.mem_of_mem_filter hx)).1

theorem frozen_of_listed {s : State} (hp : Placed s) {space t : Nat} {w : Nat × Nat × Bool}
    (hw : w ∈ s.words ++ targetsIn s space 0 (2 ^ 41)) (hs : w.1 = space) (hend : w.2.1 < 2 ^ 41) :
    (wordAt (freezeRange s space 0 (2 ^ 41) t) space w.2.1).frozen = true := by
  rw [freezeRange_eq]
  refine frozen_freezeWords (aligned_of_placed hp hw) _ (fun x hx => aligned_of_placed hp (List.mem_of_mem_filter hx)) _
    (.inr ⟨w, List.mem_filter.mpr ⟨hw, ?_⟩, rfl⟩)
  simpa [hs] using hend

theorem freezeRange_words {s : State} (hp : Placed s) {t : Nat} {w : Nat × Nat × Bool} (hw : w ∈ s.words) :
    (wordAt (freezeRange s w.1 0 (2 ^ 41) t) w.1 w.2.1).frozen = true :=
  frozen_of_listed hp (List.mem_append_left _ hw) rfl (by have := (hp.1 w hw).2; omega)

/-- An atomic's target freezes too: as the word that it is, or as one from then on. -/
theorem freezeRange_targets {s : State} (hp : Placed s) {t : Nat} {w : Nat × Nat} (hw : w ∈ s.targets) :
    (wordAt (freezeRange s w.1 0 (2 ^ 41) t) w.1 w.2).frozen = true := by
  have hend : w.2 < 2 ^ 41 := by
    have := (hp.2 w hw).2
    omega
  by_cases hx : s.words.any (fun x => x.1 == w.1 && x.2.1 == w.2) = true
  · obtain ⟨x, hx, he⟩ := List.any_eq_true.mp hx
    simp only [Bool.and_eq_true, beq_iff_eq] at he
    rw [← he.1, ← he.2]
    exact freezeRange_words hp hx
  · refine frozen_of_listed (w := (w.1, w.2, false)) hp (List.mem_append_right _ (List.mem_map.mpr ⟨w, List.mem_filter.mpr ⟨hw, ?_⟩, rfl⟩)) rfl hend
    simpa [hx] using hend

theorem lapse_spec {s : State} {ref : Nat} (ht : (rentOf s ref).tier ≠ 0) :
    rentOf (lapseRegion s ref) ref = { rentOf s ref with state := 2, escrow := 0 }
    ∧ (lapseRegion s ref).mem = (freezeRange (modRent s ref (fun r => { r with state := 2, escrow := 0 })) (rentOf s ref).space 0 (2 ^ 41)
      (now s (refDie ref))).mem := by
  rw [lapseRegion_eq ht]
  refine ⟨?_, (poke_mem _).trans (schedRent_mem ..)⟩
  refine (rentOf_congr ((poke_rents _).trans ((schedRent_rents ..).trans (freezeRange_rents ..))) ref).trans ?_
  exact rentOf_modRent_self ..

theorem wordAt_congr {s t : State} (h : t.mem = s.mem) (space off : Nat) : wordAt t space off = wordAt s space off := by
  unfold wordAt
  rw [h]

/-- The words and the atomics' targets of a region that lapses freeze, and no other region's contents change (R86, R87). -/
theorem lapse_freezes {s : State} {ref : Nat} (ht : (rentOf s ref).tier ≠ 0) (hpl : Placed s) :
    (∀ w ∈ s.words, w.1 = (rentOf s ref).space → (wordAt (lapseRegion s ref) (rentOf s ref).space w.2.1).frozen = true)
    ∧ (∀ w ∈ s.targets, w.1 = (rentOf s ref).space → (wordAt (lapseRegion s ref) (rentOf s ref).space w.2).frozen = true)
    ∧ ∀ x, x / 2 ^ 41 ≠ (rentOf s ref).space → (lapseRegion s ref).mem.read x = s.mem.read x := by
  obtain ⟨-, hm⟩ := lapse_spec ht
  have hplaced : Placed (modRent s ref (fun r => { r with state := 2, escrow := 0 })) := hpl
  refine ⟨fun w hw hs => ?_, fun w hw hs => ?_, fun x hx => ?_⟩
  · rw [wordAt_congr hm, ← hs]
    exact freezeRange_words hplaced hw
  · rw [wordAt_congr hm, ← hs]
    exact freezeRange_targets hplaced hw
  · rw [hm]
    exact freezeRange_read hplaced hx

/-! ## SCRUB_COMPLETE (R84, R92) -/

theorem clearMarks_others {space : Nat} {l : List (Nat × Nat × Nat)} (h : ∀ m ∈ l, m.1 ≠ space) (n : Nat) : clearMarks space n l = l := by
  induction l generalizing n with
  | nil => rfl
  | cons m l ih =>
    rw [clearMarks, if_pos (bne_iff_ne.mpr (h m (List.mem_cons_self ..))), ih fun x hx => h x (List.mem_cons_of_mem _ hx)]

theorem clearMarks_part {space a l n : Nat} (h : n < l) (rest : List (Nat × Nat × Nat)) :
    clearMarks space n ((space, a, l) :: rest) = (space, a + n, l - n) :: rest := by
  rw [clearMarks, if_neg (by simp), if_neg (Nat.not_le.mpr h)]

theorem clearMarks_whole {space a l n : Nat} (h : l ≤ n) {rest : List (Nat × Nat × Nat)} (hr : ∀ m ∈ rest, m.1 ≠ space) :
    clearMarks space n ((space, a, l) :: rest) = rest := by
  rw [clearMarks, if_neg (by simp), if_pos h, clearMarks_others hr]

/-- Lines that the scrubber clears in a tick of a tier, and the state it has then (log entry 97). -/
def scrubbed (s : State) (ref : Nat) : Nat × State :=
  match (rentOf s ref).tier with
  | 1 => (2, s)
  | 2 => (16, s)
  | _ => openTicks s

/-- What the scrubber leaves of the marks. -/
def cleared (s : State) (ref : Nat) : State :=
  if scrubTurn (scrubbed s ref).2 ref = some ref then
    { (scrubbed s ref).2 with scrub := clearMarks (rentOf s ref).space (scrubbed s ref).1 (scrubbed s ref).2.scrub }
  else (scrubbed s ref).2

theorem scrubComplete_runs {s : State} {ref : Nat} (hf : (vdOf s ((rentOf s ref).owner / 65536)).state ≠ 3) (h0 : (rentOf s ref).state ≠ 0) :
    exec (.scrubComplete ref) s = .next (if (cleared s ref).scrub.any (fun m => m.1 == (rentOf s ref).space)
      then schedScrub (cleared s ref) ref
      else if (rentOf s ref).state = 3 then poke (freeRent (cleared s ref) ref) else cleared s ref) := by
  change execScrubComplete ref s = _
  unfold execScrubComplete
  dsimp only
  rw [if_neg (by simp [h0, not_frozen hf])]
  rfl

theorem cleared_turn {s : State} {ref n : Nat} (h : (rentOf s ref).tier = 1 ∧ n = 2 ∨ (rentOf s ref).tier = 2 ∧ n = 16)
    (hturn : scrubTurn s ref = some ref) : cleared s ref = { s with scrub := clearMarks (rentOf s ref).space n s.scrub } := by
  have hn : scrubbed s ref = (n, s) := by
    unfold scrubbed
    rcases h with ⟨h, rfl⟩ | ⟨h, rfl⟩
    · rw [h]
      rfl
    · rw [h]
      rfl
  unfold cleared
  rw [hn, if_pos hturn]

theorem cleared_unmarked {s : State} {ref : Nat} (h : ∀ m ∈ s.scrub, m.1 ≠ (rentOf s ref).space) : ∃ k, cleared s ref = { s with free := k } := by
  have hs : ∃ k, (scrubbed s ref).2 = { s with free := k } := by
    unfold scrubbed
    split
    · exact ⟨s.free, rfl⟩
    · exact ⟨s.free, rfl⟩
    · exact ⟨_, rfl⟩
  obtain ⟨k, hk⟩ := hs
  refine ⟨k, ?_⟩
  unfold cleared
  rw [hk, clearMarks_others h, ite_self]

theorem unmarked_any {space : Nat} {l : List (Nat × Nat × Nat)} (h : ∀ m ∈ l, m.1 ≠ space) : l.any (fun m => m.1 == space) = false :=
  List.any_eq_false.mpr fun m hm => by simp [h m hm]

/-- The scrubber of tiers 1 and 2 comes again at the next tick. -/
theorem schedScrub_next {s : State} {ref : Nat} (h : (rentOf s ref).tier ≤ 2) :
    ⟨refDie ref, now s (refDie ref) + 1, 14, 0, 0, .ins (.scrubComplete ref), false⟩ ∈ (schedScrub s ref).agenda := by
  unfold schedScrub
  dsimp only
  rw [if_pos (show (rentOf { s with agenda := s.agenda.filter (fun e => e.act != .ins (.scrubComplete ref)) } ref).tier ≤ 2 from h)]
  exact List.mem_append_right _ (List.mem_singleton.mpr rfl)

theorem schedScrub_scrub (s : State) (ref : Nat) : (schedScrub s ref).scrub = s.scrub := by
  unfold schedScrub
  dsimp only
  split <;> rfl

/-! ## Entries that return to FREE (log entry 121) -/

theorem rentOf_freeRent (s : State) (ref : Nat) : rentOf (freeRent s ref) ref = vacant (rentOf s ref) :=
  (rentOf_congr (freeRent_rents s ref) ref).trans (rentOf_modRent_self ..)

theorem emptied_freeRent (s : State) (ref : Nat) : Emptied s (freeRent s ref) (rentOf s ref).space := by
  intro a
  have hm : (freeRent s ref).mem = (dropSpace (unmap s ref) (rentOf s ref).space).mem := rfl
  rw [hm, read_dropSpace, unmap_keeps State.mem modUnit_mem (fun _ _ _ => rfl) s ref]

theorem freeRent_scrub {s : State} {ref : Nat} (h : ∀ m ∈ s.scrub, m.1 ≠ (rentOf s ref).space) : (freeRent s ref).scrub = s.scrub := by
  have hm : (freeRent s ref).scrub = (unmap s ref).scrub.filter (fun m => m.1 != (rentOf s ref).space) := rfl
  rw [hm, unmap_keeps State.scrub modUnit_scrub (fun _ _ _ => rfl) s ref, List.filter_eq_self.mpr]
  intro m hm
  exact bne_iff_ne.mpr (h m hm)

theorem poke_scrub (s : State) : (poke s).scrub = s.scrub := by rw [poke_eq]

/-- A RECLAIMED entry none of whose lines is marked any more is FREE. -/
theorem freed_spec {s : State} {ref : Nat} (hf : (vdOf s ((rentOf s ref).owner / 65536)).state ≠ 3) (h3 : (rentOf s ref).state = 3) {c : State}
    (hc : cleared s ref = c) (hm : c.mem = s.mem) (hr : c.rents = s.rents) (hn : ∀ m ∈ c.scrub, m.1 ≠ (rentOf s ref).space) :
    ∃ t, exec (.scrubComplete ref) s = .next t ∧ rentOf t ref = vacant (rentOf s ref) ∧ Emptied s t (rentOf s ref).space ∧ t.scrub = c.scrub := by
  have hrent : rentOf c ref = rentOf s ref := rentOf_congr hr ref
  refine ⟨poke (freeRent c ref), ?_, ?_, ?_, ?_⟩
  · rw [scrubComplete_runs hf (by omega), hc, unmarked_any hn, if_neg Bool.false_ne_true, if_pos h3]
  · rw [rentOf_congr (poke_rents _), rentOf_freeRent, hrent]
  · rw [← hrent]
    exact emptied_of_mem hm (emptied_poke (emptied_freeRent c ref))
  · rw [poke_scrub, freeRent_scrub (hrent ▸ hn)]

/-- A FROZEN device's regions have no events (R84). -/
theorem frozen_events {s : State} {ref : Nat} (hf : (vdOf s ((rentOf s ref).owner / 65536)).state = 3) :
    exec (.autoExtend ref) s = .next s ∧ exec (.lapse ref) s = .next s ∧ exec (.graceEnd ref) s = .next s
      ∧ exec (.subletEnd ref) s = .next s ∧ exec (.scrubComplete ref) s = .next s := by
  have h : rentFrozen s (rentOf s ref) = true := decide_eq_true hf
  exact ⟨if_pos (by simp [h]), if_pos (by simp [h]), if_pos (by simp [h]), if_pos (by simp [h]), if_pos (by simp [h])⟩

/-- What is scheduled after an AUTO_EXTEND changes no entry, no device and no memory. -/
theorem extended_kept (s : State) (ref : Nat) (b : Prop) [Decidable b] (die tick : Nat) (a : Act) :
    (if b then sched s die tick 2 0 0 a else schedRent s ref).rents = s.rents
      ∧ (if b then sched s die tick 2 0 0 a else schedRent s ref).vds = s.vds
      ∧ (if b then sched s die tick 2 0 0 a else schedRent s ref).mem = s.mem := by
  split
  · exact ⟨rfl, rfl, rfl⟩
  · exact ⟨schedRent_rents .., schedRent_vds .., schedRent_mem ..⟩

theorem allowance_extended {s t : State} {ref : Nat} (h : t.vds = (extended s ref).vds) : allowanceOf t ((rentOf s ref).owner / 65536)
    = min (allowanceOf s ((rentOf s ref).owner / 65536) + (rentOf s ref).escrow % rentRate (rentOf s ref)) (2 ^ 64 - 1) := by
  rw [← refund_allowance]
  exact congrArg VDev.allowance (vdOf_congr h _)

@[simp] theorem releaseWaiters_hostMem (s : State) (space off : Nat) (k : SyncKind) (status delay : Nat) :
    (releaseWaiters s space off k status delay).hostMem = s.hostMem := by
  unfold releaseWaiters
  refine foldl_keeps State.hostMem ?_ _ s
  exact fun _ _ => rfl

@[simp] theorem freezeRange_hostMem (s : State) (space first last t : Nat) : (freezeRange s space first last t).hostMem = s.hostMem := by
  rw [freezeRange_eq]
  refine foldl_keeps State.hostMem (fun s w => ?_) _ _
  rw [freezeWord, releaseWaiters_hostMem, releaseWaiters_hostMem]
  exact putWord_hostMem ..

theorem endOne_hostMem (s : State) (ref : Nat) : (endOne s ref).hostMem = s.hostMem := by
  unfold endOne
  dsimp only
  split
  · rfl
  · exact freezeRange_hostMem ..

theorem endSublet_hostMem (s : State) (ref : Nat) : (endSublet s ref).hostMem = s.hostMem :=
  (endOne_hostMem ..).trans (foldl_keeps State.hostMem endOne_hostMem _ s)

/-- Settles O35: each event is one equation of its meaning. -/
theorem rentEventsFollowTheTable : Obligations.RentEventsFollowTheTable := by
  intro s ref r vd q tick
  refine ⟨fun hf => ⟨fun h1 hsub hp => ⟨fun hq => ?_, fun hq h0 => ?_, fun ht => ?_⟩, fun h2 ht hp hpl => ?_, fun h1 hsub hp => ?_,
    fun n a l rest hn h0 hs hturn => ⟨fun hl => ?_, fun hl hrest h3 => ?_⟩, fun h3 hs => ?_⟩, frozen_events⟩
  · exact ⟨_, autoExtend_full hf h1 hsub hp hq, (rentOf_congr (schedRent_rents ..) ref).trans (rentOf_modRent_self ..), schedRent_mem ..,
      schedRent_vds ..⟩
  · obtain ⟨hrents, hvds, hmem⟩ := extended_kept (extended s ref) ref (r.escrow / rentRate r = 0) (refDie ref) r.paid (.ins (.lapse ref))
    refine ⟨_, autoExtend_short hf h1 hsub hp hq, ?_, hmem, ?_, fun hlt => ?_⟩
    · exact (rentOf_congr hrents ref).trans (rentOf_modRent_self ..)
    · exact allowance_extended hvds
    · rw [if_pos (Nat.div_eq_of_lt hlt), hp]
      exact List.mem_append_right _ (List.mem_singleton.mpr rfl)
  · exact ⟨_, lapse_runs hf h1 hsub hp, (lapse_spec ht).1, lapse_freezes ht⟩
  · refine ⟨_, graceEnd_runs hf h2 hp, ?_, ?_, emptied_poke (emptied_reclaim hpl ht)⟩
    · rw [rentOf_congr (poke_rents _), rentOf_reclaim ht]
    · rw [rentOf_congr (poke_rents _), rentOf_reclaim ht]
  · refine ⟨_, subletEnd_runs hf h1 hsub hp, rentOf_endSublet hsub h1, ?_⟩
    exact endSublet_hostMem ..
  · have hc := cleared_turn hn hturn
    rw [hs, clearMarks_part hl] at hc
    refine ⟨_, (scrubComplete_runs hf h0).trans (congrArg _ (if_pos ?_)), ?_, ?_, ?_, ?_⟩
    · simp [hc]
    · rw [schedScrub_scrub, hc]
    · rw [schedScrub_rents, hc]
    · rw [schedScrub_mem, hc]
    · rw [hc]
      exact schedScrub_next (by rcases hn with ⟨h, -⟩ | ⟨h, -⟩ <;> exact h.le.trans (by decide))
  · have hc := cleared_turn hn hturn
    rw [hs, clearMarks_whole hl hrest] at hc
    exact freed_spec hf h3 hc rfl rfl hrest
  · obtain ⟨k, hc⟩ := cleared_unmarked hs
    obtain ⟨t, ht, hr, he, -⟩ := freed_spec hf h3 hc rfl rfl hs
    exact ⟨t, ht, hr, he⟩

end Sys2Proof.Proofs
end

section
/-!
SUPPORT. The opening of a segment, the setup registers and the opening of a region (O10, O29, O30).
-/
namespace Sys2Proof.Proofs
open Sys2Proof Sys2Proof.Machine Sys2Proof.Stated Sys2Proof.Laws

/-! ## SEG (O10) -/

theorem exec_seg (timed : Bool) (s : State) : exec (if timed then .segTimed else .segFree) s = openSegment timed s := by
  cases timed <;> rfl

/-- Settles O10: the three branches of `openSegment`. -/
theorem segOpensASegment : Obligations.SegOpensASegment := by
  intro timed s c ⟨hc, hb⟩
  refine ⟨fun hh ho => ?_, fun hh ht ho => ?_, fun hh => ?_⟩
  · refine ⟨_, rfl, (exec_seg timed s).trans (onCore_ok hc hb ?_)⟩
    exact (if_neg (by simp [hh])).trans (if_neg (by simpa using ho))
  · change openSegment true s = _
    exact onCore_ok hc hb ((if_neg (by simp [hh])).trans (if_pos (by simpa using ho)))
  · exact (exec_seg timed s).trans (onCore_trap hc hb (if_pos hh))

/-! ## VIEWSET and GSET (O29) -/

/-- A field of an image is the same bits of its number. -/
theorem toNat_field {w lo n : Nat} (v : Nat) (h : lo + n ≤ w) : ((BitVec.ofNat w v).extractLsb' lo n).toNat = bitsAt v lo n := by
  rw [BitVec.extractLsb'_toNat, BitVec.toNat_ofNat, Nat.shiftRight_eq_div_pow, bitsAt]
  have hw : 2 ^ w = 2 ^ lo * (2 ^ n * 2 ^ (w - (lo + n))) := by
    rw [← Nat.pow_add, ← Nat.pow_add]
    congr 1
    omega
  rw [hw, Nat.mod_mul_right_div_self, Nat.mod_mul_right_mod]

/-- A field of an image is not zero. -/
theorem field_ne_zero {w lo n : Nat} (v : Nat) (h : lo + n ≤ w) :
    ((BitVec.ofNat w v).extractLsb' lo n != 0) = true ↔ bitsAt v lo n ≠ 0 := by
  rw [bne_iff_ne, ← toNat_field v h, not_iff_not]
  exact ⟨fun e => by rw [e]; rfl, fun e => BitVec.eq_of_toNat_eq e⟩

section
variable (v : Nat)

theorem vKind_ofNat : vKind (BitVec.ofNat 128 v) = bitsAt v 124 4 := toNat_field v (by decide)

theorem viewIllegal_iff : viewIllegal (BitVec.ofNat 128 v) = true ↔ badView v := by
  simp only [viewIllegal, badView, Bool.or_eq_true, Bool.and_eq_true, decide_eq_true_eq, field_ne_zero v (show 96 + 7 ≤ 128 by decide),
    field_ne_zero v (show 25 + 39 ≤ 128 by decide), vFormat, toNat_field v (show 19 + 6 ≤ 128 by decide), vKind_ofNat, bne_iff_ne, or_assoc]

theorem vValid_iff : vValid (BitVec.ofNat 128 v) = true ↔ placedView v := by
  have hbase : vBase (BitVec.ofNat 128 v) = bitsAt v 0 19 := toNat_field v (by decide)
  have hstride : vStride (BitVec.ofNat 128 v) = bitsAt v 64 20 := toNat_field v (by decide)
  have hcount : vCount (BitVec.ofNat 128 v) = bitsAt v 111 7 := toNat_field v (by decide)
  have hfirst : vFirst (BitVec.ofNat 128 v) = bitsAt v 118 6 := toNat_field v (by decide)
  have hrows : vRows (BitVec.ofNat 128 v) = bitsAt v 103 8 + 1 := congrArg (· + 1) (toNat_field v (by decide))
  have hpitch : vPitch (BitVec.ofNat 128 v) = bitsAt v 84 12 * 32 := congrArg (· * 32) (toNat_field v (by decide))
  simp only [vValid, vSpan, hbase, hstride, hcount, hfirst, hrows, hpitch, vKind_ofNat, Bool.and_eq_true, beq_iff_eq, decide_eq_true_eq,
    and_assoc]
  exact Iff.rfl

theorem gIllegal_iff : gIllegal (BitVec.ofNat 384 v) = true ↔ ¬ goodStream v := by
  have hlen : gLen (BitVec.ofNat 384 v) = bitsAt v 96 32 := toNat_field v (by decide)
  have hext1 : gExt1 (BitVec.ofNat 384 v) = bitsAt v 128 16 := toNat_field v (by decide)
  have hext2 : gExt2 (BitVec.ofNat 384 v) = bitsAt v 144 16 := toNat_field v (by decide)
  have hformat : gFormat (BitVec.ofNat 384 v) = bitsAt v 64 6 := toNat_field v (by decide)
  have hsplit : gSplit (BitVec.ofNat 384 v) = bitsAt v 72 4 := toNat_field v (by decide)
  simp only [gIllegal, gUnset, goodStream, hlen, hext1, hext2, hformat, hsplit, Bool.or_eq_true, Bool.and_eq_true, beq_iff_eq,
    decide_eq_true_eq, field_ne_zero v (show 256 + 128 ≤ 384 by decide), field_ne_zero v (show 77 + 3 ≤ 384 by decide),
    field_ne_zero v (show 70 + 2 ≤ 384 by decide)]
  grind

end

section
variable {s : State} {c : Ctx} {own off n : Nat}

/-- A read of a byte in a shadow is early where the checker is on. -/
theorem checkBank_shadowed {b : Nat} (h : (if checksShadow s c then bankShadow s c own off n (tickOf s c) else none) = some b) :
    checkBank s c own off n = flt cEARLY (word b) := by
  unfold checkBank checkBankAt
  by_cases hcheck : checksShadow s c = true
  · rw [if_pos hcheck] at h
    simp only [hcheck, h]
    rfl
  · rw [if_neg hcheck] at h
    cases h

theorem checkBank_clear (h : (if checksShadow s c then bankShadow s c own off n (tickOf s c) else none) = none) :
    checkBank s c own off n = .ok () := by
  unfold checkBank checkBankAt
  by_cases hcheck : checksShadow s c = true
  · rw [if_pos hcheck] at h
    simp only [hcheck, h]
    rfl
  · simp [hcheck]

end

section
variable {s : State} {c : Ctx} {a : Word} {n : Nat}

theorem imageAt_outside (h : a.toNat % 16 ≠ 0 ∨ 0x80000 < a.toNat + n) : imageAt s c a n = flt cADDRESS a :=
  if_pos (by simpa using h)

theorem not_outside (h16 : a.toNat % 16 = 0) (hn : a.toNat + n ≤ 0x80000) : ¬ (a.toNat % 16 != 0 || 0x80000 < a.toNat + n) = true := by
  simp [h16, hn]

theorem imageAt_shadowed {b : Nat} (h16 : a.toNat % 16 = 0) (hn : a.toNat + n ≤ 0x80000)
    (hs : (if checksShadow s c then bankShadow s c 0 a.toNat n (tickOf s c) else none) = some b) :
    imageAt s c a n = flt cEARLY (word b) := by
  refine (if_neg (not_outside h16 hn)).trans ?_
  rw [checkBank_shadowed hs]
  rfl

theorem imageAt_read (h16 : a.toNat % 16 = 0) (hn : a.toNat + n ≤ 0x80000)
    (hs : (if checksShadow s c then bankShadow s c 0 a.toNat n (tickOf s c) else none) = none) :
    imageAt s c a n = .ok (natOfBytes (c.bank.readRun a.toNat n)) := by
  refine (if_neg (not_outside h16 hn)).trans ?_
  rw [checkBank_clear hs]
  rfl

end

section
variable (v : Nat) (a : Word)

theorem viewImage_bad (h : badView v) : viewImage (BitVec.ofNat 128 v) a = fltOpen cILLEGAL := if_pos ((viewIllegal_iff v).mpr h)

theorem viewImage_cleared (h : ¬ badView v) (h0 : bitsAt v 124 4 = 0) : viewImage (BitVec.ofNat 128 v) a = .ok 0 :=
  (if_neg (mt (viewIllegal_iff v).mp h)).trans (if_pos ((vKind_ofNat v).trans h0))

theorem viewImage_placed (h : ¬ badView v) (h0 : bitsAt v 124 4 ≠ 0) (hp : placedView v) :
    viewImage (BitVec.ofNat 128 v) a = .ok (BitVec.ofNat 128 v) :=
  (if_neg (mt (viewIllegal_iff v).mp h)).trans
    ((if_neg (fun e => h0 ((vKind_ofNat v).symm.trans e))).trans (if_pos ((vValid_iff v).mpr hp)))

theorem viewImage_misplaced (h : ¬ badView v) (h0 : bitsAt v 124 4 ≠ 0) (hp : ¬ placedView v) :
    viewImage (BitVec.ofNat 128 v) a = flt cADDRESS a :=
  (if_neg (mt (viewIllegal_iff v).mp h)).trans
    ((if_neg (fun e => h0 ((vKind_ofNat v).symm.trans e))).trans (if_neg (mt (vValid_iff v).mp hp)))

theorem streamImage_good (h : goodStream v) : streamImage (BitVec.ofNat 384 v) = .ok (BitVec.ofNat 384 v) :=
  if_neg (mt (gIllegal_iff v).mp (not_not_intro h))

theorem streamImage_bad (h : ¬ goodStream v) : streamImage (BitVec.ofNat 384 v) = fltOpen cILLEGAL := if_pos ((gIllegal_iff v).mpr h)

end

section
variable {s : State} {c : Ctx} (hr : Runs s c [0]) (n : BitVec 4) {a : Reg}
include hr

theorem viewset_traps {t : Trap} (h : imageAt s c (rdS c a.toNat) 16 = .error t) :
    exec (.viewset n a) s = .next (takeFault s c.uid t c.pc) := by
  change execViewset n a s = _
  refine onCore_trap hr.1 hr.2 ?_
  simp only [h, bind, Except.bind]

theorem viewset_refuses {x : Nat} {t : Trap} (h : imageAt s c (rdS c a.toNat) 16 = .ok x)
    (hv : viewImage (BitVec.ofNat 128 x) (rdS c a.toNat) = .error t) : exec (.viewset n a) s = .next (takeFault s c.uid t c.pc) := by
  change execViewset n a s = _
  refine onCore_trap hr.1 hr.2 ?_
  simp only [h, hv, bind, Except.bind]

theorem viewset_sets {x : Nat} {v : BitVec 128} (h : imageAt s c (rdS c a.toNat) 16 = .ok x)
    (hv : viewImage (BitVec.ofNat 128 x) (rdS c a.toNat) = .ok v) :
    Continues (.viewset n a) s c 4 1 (fun c' => c' = { c with views := tset c.views n.toNat v }) := by
  refine ⟨_, rfl, ?_⟩
  change execViewset n a s = _
  refine onCore_ok hr.1 hr.2 ?_
  simp only [h, hv, bind, Except.bind]
  rfl

theorem gset_traps {t : Trap} (h : imageAt s c (rdS c a.toNat) 48 = .error t) :
    exec (.gset n a) s = .next (takeFault s c.uid t c.pc) := by
  change execGset n a s = _
  refine onCore_trap hr.1 hr.2 ?_
  simp only [h, bind, Except.bind]

theorem gset_refuses {x : Nat} {t : Trap} (h : imageAt s c (rdS c a.toNat) 48 = .ok x)
    (hv : streamImage (BitVec.ofNat 384 x) = .error t) : exec (.gset n a) s = .next (takeFault s c.uid t c.pc) := by
  change execGset n a s = _
  refine onCore_trap hr.1 hr.2 ?_
  simp only [h, hv, bind, Except.bind]

theorem gset_sets {x : Nat} {v : BitVec 384} (h : imageAt s c (rdS c a.toNat) 48 = .ok x)
    (hv : streamImage (BitVec.ofNat 384 x) = .ok v) :
    Continues (.gset n a) s c 4 1 (fun c' => c' = { c with streams := tset c.streams n.toNat v }) := by
  refine ⟨_, rfl, ?_⟩
  change execGset n a s = _
  refine onCore_ok hr.1 hr.2 ?_
  simp only [h, hv, bind, Except.bind]
  rfl

end

/-- Settles O29: where the image stands, then what it is. -/
theorem setupWritesTheImage : Obligations.SetupWritesTheImage := by
  intro n a s c hr off v g shadowed
  refine ⟨fun h => viewset_traps hr n (imageAt_outside h), fun b h16 hn hs => viewset_traps hr n (imageAt_shadowed h16 hn hs),
    fun h16 hn hs => ?_, fun h => gset_traps hr n (imageAt_outside h), fun b h16 hn hs => gset_traps hr n (imageAt_shadowed h16 hn hs),
    fun h16 hn hs => ?_⟩
  · have himage := imageAt_read h16 hn hs
    exact ⟨fun hb => viewset_refuses hr n himage (viewImage_bad _ _ hb),
      fun hb h0 => viewset_sets hr n himage (viewImage_cleared _ _ hb h0),
      fun hb h0 hp => viewset_sets hr n himage (viewImage_placed _ _ hb h0 hp),
      fun hb h0 hp => viewset_refuses hr n himage (viewImage_misplaced _ _ hb h0 hp)⟩
  · have himage := imageAt_read h16 hn hs
    exact ⟨fun hg => gset_sets hr n himage (streamImage_good _ hg), fun hg => gset_refuses hr n himage (streamImage_bad _ hg)⟩

/-! ## RGOPEN (O30) -/

/-- No slice end waits, so no stop is due at a region boundary. -/
theorem boundaryDue_of_none {c : Ctx} (h : c.sliceEnd = none) : boundaryDue c = false := by simp [boundaryDue, h]

/-- The region that RGOPEN opens. -/
def opened (s : State) (c : Ctx) (contain idem : Bool) (h : Word) : Region :=
  ⟨contain, idem, h, c.pc, s.nextId, if idem then takeSnap (fresh s).2 c else default, []⟩

/-- The three openers are one operation, of a handler where they contain. -/
theorem exec_opener {c : Ctx} {i : Instr} {contain idem : Bool} {h : Word} (hi : openerOf c i = some (contain, idem, h)) :
    ∃ a, h = (if contain then rdS c a.toNat else 0) ∧ ∀ s, exec i s = openRegion contain idem a s := by
  unfold openerOf at hi
  split at hi
  next a => cases hi; exact ⟨a, rfl, fun _ => rfl⟩
  next a => cases hi; exact ⟨a, rfl, fun _ => rfl⟩
  next a => cases hi; exact ⟨a, rfl, fun _ => rfl⟩
  next => cases hi

section
variable {s : State} {c : Ctx} {contain idem : Bool} {a : Reg} (hr : Runs s c [0]) (hb : boundaryDue c = false)
include hr hb

/-- A handler or an open region does not open another. -/
theorem openRegion_nested (h : c.handler = true ∨ c.region.isSome) :
    openRegion contain idem a s = .next (takeFault s c.uid ⟨cREGION, 0, 2, false⟩ c.pc) :=
  onCore_trap hr.1 hr.2 ((if_neg (by simp [hb])).trans (if_pos (by simpa using h)))

theorem openRegion_inFlight (hh : c.handler = false) (hn : c.region = none) (hf : c.flight ≠ []) :
    openRegion contain idem a s = .next (takeFault s c.uid ⟨cREGION, 0, 1, false⟩ c.pc) :=
  onCore_trap hr.1 hr.2 ((if_neg (by simp [hb])).trans ((if_neg (by simp [hh, hn])).trans (if_pos (by simpa using hf))))

theorem openRegion_misaligned (hh : c.handler = false) (hn : c.region = none) (hf : c.flight = [])
    (ha : (if contain then rdS c a.toNat else 0).toNat % 4 ≠ 0) : openRegion contain idem a s =
      .next (takeFault s c.uid ⟨cALIGN, if contain then rdS c a.toNat else 0, 0, false⟩ c.pc) :=
  onCore_trap hr.1 hr.2 ((if_neg (by simp [hb])).trans ((if_neg (by simp [hh, hn])).trans ((if_neg (by simp [hf])).trans
    (if_pos (by simpa using ha)))))

theorem openRegion_opens (hh : c.handler = false) (hn : c.region = none) (hf : c.flight = [])
    (ha : (if contain then rdS c a.toNat else 0).toNat % 4 = 0) : openRegion contain idem a s = .next { s with
      nextId := s.nextId + 1
      agenda := if idem then s.agenda.map (fun e => if e.uid = c.uid && e.own = 0 then { e with older := true } else e) else s.agenda
      cx := some { c with
        region := some (opened s c contain idem (if contain then rdS c a.toNat else 0)), pc := c.pc + 4, nextAt := tickOf s c + 8 } } := by
  refine onCore_ok hr.1 hr.2 ((if_neg (by simp [hb])).trans ((if_neg (by simp [hh, hn])).trans ((if_neg (by simp [hf])).trans
    ((if_neg (by simpa using ha)).trans ?_))))
  cases idem <;> rfl

end

/-- Settles O30: the branches of `openRegion` in their order, and what `takeSnap` keeps. -/
theorem rgopenOpensARegion : Obligations.RgopenOpensARegion := by
  intro i contain idem h s c hi hr hs
  obtain ⟨a, rfl, hx⟩ := exec_opener hi
  have hb := boundaryDue_of_none hs
  refine ⟨fun hn => (hx s).trans (openRegion_nested hr hb hn), fun hh hn hf => (hx s).trans (openRegion_inFlight hr hb hh hn hf),
    fun hh hn hf ha => (hx s).trans (openRegion_misaligned hr hb hh hn hf ha),
    fun hh hn hf ha => ⟨_, (hx s).trans (openRegion_opens hr hb hh hn hf ha), rfl, rfl, rfl, rfl, rfl, rfl, fun hidem => ?_⟩⟩
  subst hidem
  refine ⟨fun k hk => ?_, fun k hk => ?_, rfl, rfl, rfl, rfl, rfl, rfl, rfl⟩
  · simp [opened, takeSnap, bankRead, hk]
  · simp [opened, takeSnap, hk]

end Sys2Proof.Proofs
end

section
/-!
SUPPORT. What a cancellation and an abandoned region leave (O31).
-/
namespace Sys2Proof.Proofs
open Sys2Proof Sys2Proof.Machine Sys2Proof.Stated Sys2Proof.Laws

/-! ## What a cancellation leaves unchanged -/

theorem sameStorage_trans {s t u : State} (h : SameStorage s t) (h' : SameStorage t u) : SameStorage s u := by
  obtain ⟨h1, h2, h3, h4, h5, h6, h7⟩ := h
  obtain ⟨g1, g2, g3, g4, g5, g6, g7⟩ := h'
  exact ⟨g1.trans h1, g2.trans h2, g3.trans h3, g4.trans h4, g5.trans h5, g6.trans h6, g7.trans h7⟩

theorem sameStorage_foldl {β : Type} {f : State → β → State} (h : ∀ s x, SameStorage s (f s x)) (l : List β) (s : State) :
    SameStorage s (l.foldl f s) := by
  induction l generalizing s with
  | nil => exact ⟨rfl, rfl, rfl, rfl, rfl, rfl, rfl⟩
  | cons x l ih => exact sameStorage_trans (h s x) (ih _)

section
variable (s : State)

theorem sameStorage_modUnit (uid : Nat) (f : Ctx → Ctx) : SameStorage s (modUnit s uid f) := by simp [SameStorage]

theorem sameStorage_cancelFrom (c : Ctx) (id : Nat) : SameStorage s (cancelFrom s c id) := sameStorage_modUnit ..

theorem sameStorage_dropCopies (gone : Cmd → Bool) : SameStorage s (dropCopies s gone) := by
  refine sameStorage_foldl (fun s e => ?_) _ _
  split
  · split <;> exact ⟨rfl, rfl, rfl, rfl, rfl, rfl, rfl⟩
  · exact ⟨rfl, rfl, rfl, rfl, rfl, rfl, rfl⟩

theorem dropCopies_cx (gone : Cmd → Bool) : (dropCopies s gone).cx = s.cx := by
  unfold dropCopies
  refine foldl_keeps State.cx (fun s e => ?_) _ _
  split
  · split <;> rfl
  · rfl

end

/-- On the executing context, whatever its number is written as. -/
theorem modUnit_executing {s : State} {c : Ctx} {u : Nat} (f : Ctx → Ctx) (h : s.cx = some c) (hu : c.uid = u) (hf : (f c).uid = u) :
    modUnit s u f = { s with cx := some (f c) } := by
  subst hu
  exact modUnit_cx f h hf

/-- A context none of whose commands delivered from id on remain. -/
def cancelled (c : Ctx) (id : Nat) : Ctx :=
  { c with
    saved := c.saved.filter (fun e => e.2.cmd.id < id), heldCmds := c.heldCmds.filter (fun m => m.id < id)
    trapCmds := c.trapCmds.filter (fun m => m.id < id), savedLast := c.savedLast.filter (fun l => l.2.1 < id)
    lastDue := c.lastDue.filter (fun l => l.2.1 < id) }

theorem cancelFrom_cx {s : State} {c : Ctx} (h : s.cx = some c) (id : Nat) : (cancelFrom s c id).cx = some (cancelled c id) := by
  unfold cancelFrom
  refine congrArg State.cx (modUnit_cx (c := c) _ ?_ ?_)
  · exact h
  · rfl

/-! ## RGCLOSE and RGABORT (O31) -/

section
variable {s : State} {c : Ctx} (hr : Runs s c [0])
include hr

theorem no_region (hn : c.region = none) : Faults .rgclose s c 0x14 0 4 ∧ Faults .rgabort s c 0x14 0 4 := by
  constructor
  · change execRgclose s = _
    refine onCore_trap hr.1 hr.2 ?_
    simp only [hn]
    rfl
  · change execRgabort s = _
    refine onCore_trap hr.1 hr.2 ?_
    simp only [hn]
    rfl

/-- A region without held effects closes at once. -/
theorem rgclose_closes {r : Region} (hs : c.sliceEnd = none) (hreg : c.region = some r) (hh : r.idem = true → r.held = []) :
    exec .rgclose s = .next (goOn (if r.idem then releaseCopies s c.uid (tickOf s c) else s) { c with region := none } 4 1) := by
  change execRgclose s = _
  refine onCore_ok hr.1 hr.2 ?_
  have hb (k : Ctx) (h : k.sliceEnd = none) : boundaryDue k = false := boundaryDue_of_none h
  cases hi : r.idem with
  | false => simp [hreg, hi, hb, hs]
  | true => simp [hreg, hi, hb, hs, hh hi]

theorem rgabort_drops {r : Region} (hreg : c.region = some r) (hi : r.idem = false) : exec .rgabort s = .next
    (goOn (modUnit (cancelAllCopies (cancelFrom s c r.firstCmd) c r.firstCmd) c.uid (fun c => { c with flight := [], region := none }))
      { cancelled c r.firstCmd with flight := [], region := none } 4 1) := by
  change execRgabort s = _
  refine onCore_ok hr.1 hr.2 ?_
  have hcx : (cancelAllCopies (cancelFrom s c r.firstCmd) c r.firstCmd).cx = some (cancelled c r.firstCmd) :=
    (dropCopies_cx ..).trans (cancelFrom_cx hr.1 _)
  have hcx' := congrArg State.cx (modUnit_cx (fun c => { c with flight := [], region := none }) hcx rfl)
  simp only [hreg, hi, Bool.false_eq_true, if_false]
  split
  next c' hc' => rw [Option.some.inj (hc'.symm.trans hcx')]
  next hc' => cases hc'.symm.trans hcx'

theorem rgabort_abandons {r : Region} {c' : Ctx} (hreg : c.region = some r) (hi : r.idem = true)
    (hc' : (abandon s c.uid).cx = some c') : exec .rgabort s = .next (goOn (abandon s c.uid) c' 4 1) := by
  change execRgabort s = _
  refine onCore_ok hr.1 hr.2 ?_
  simp only [hreg, hi, if_true, hc']

end

/-! ### The snapshot returns -/

/-- The first n scalars are written. -/
@[irreducible] def scalarsPut (n : Nat) (f : Nat → Word) (c : Ctx) : Ctx := (List.range n).foldl (fun c i => wrPhys c (i + 1) (f i)) c

/-- The first n predicates are written. -/
@[irreducible] def predsPut (n : Nat) (f : Nat → Word) (c : Ctx) : Ctx := (List.range n).foldl (fun c i => wrPhysP c (i + 1) (f i)) c

section
variable (n : Nat) (f : Nat → Word) (c : Ctx)

theorem scalarsPut_succ : scalarsPut (n + 1) f c = wrPhys (scalarsPut n f c) (n + 1) (f n) := by
  simp [scalarsPut, List.range_succ]

theorem predsPut_succ : predsPut (n + 1) f c = wrPhysP (predsPut n f c) (n + 1) (f n) := by
  simp [predsPut, List.range_succ]

theorem scalarsPut_frame : scalarsPut n f c = { c with
    bank := (scalarsPut n f c).bank, bankPoison := (scalarsPut n f c).bankPoison, upsets := (scalarsPut n f c).upsets } := by
  induction n with
  | zero => simp [scalarsPut]
  | succ n ih => rw [scalarsPut_succ, wrPhys_frame, ih]

theorem predsPut_frame : predsPut n f c = { c with preds := (predsPut n f c).preds } := by
  induction n with
  | zero => simp [predsPut]
  | succ n ih => rw [predsPut_succ, wrPhysP_frame, ih]

theorem scalarAt_scalarsPut {k : Nat} (hk : k < n) : scalarAt (scalarsPut n f c) (k + 1) = f k := by
  induction n with
  | zero => cases hk
  | succ n ih =>
    rw [scalarsPut_succ]
    by_cases h : k = n
    · rw [h, scalarAt_wrPhys_self _ _ (Nat.succ_ne_zero n)]
    · rw [scalarAt_wrPhys_ne _ _ (Nat.succ_ne_zero n) (by omega), ih (by omega)]

theorem rdPhysP_predsPut {k : Nat} (hk : k < n) : rdPhysP (predsPut n f c) (k + 1) = f k := by
  induction n with
  | zero => cases hk
  | succ n ih =>
    rw [predsPut_succ, rdPhysP_wrPhysP]
    by_cases h : k = n
    · rw [h, if_pos ⟨rfl, Nat.succ_ne_zero n⟩]
    · rw [if_neg (by omega), ih (by omega)]

/-- Only the bytes of the scalars written change. -/
theorem scalarsPut_bytes {off : Nat} (h : off < 8 ∨ 8 * (n + 1) ≤ off) : (scalarsPut n f c).bank.read off = c.bank.read off := by
  induction n with
  | zero => simp [scalarsPut]
  | succ n ih => rw [scalarsPut_succ, wrPhys_bytes _ _ _ _ (by omega), ih (by omega)]

end

/-- The scalars and predicates of a snapshot are put back. -/
@[irreducible] def registersPut (n : Snapshot) (c : Ctx) : Ctx := predsPut 95 (fun i => n.preds.getD i 0) (scalarsPut 31 (fun i => n.scalars.getD i 0) c)

theorem registersPut_frame (n : Snapshot) (c : Ctx) : registersPut n c = { c with
    bank := (registersPut n c).bank, bankPoison := (registersPut n c).bankPoison, upsets := (registersPut n c).upsets
    preds := (registersPut n c).preds } := by
  unfold registersPut
  rw [predsPut_frame, scalarsPut_frame]

theorem registersPut_bank (n : Snapshot) (c : Ctx) : (registersPut n c).bank = (scalarsPut 31 (fun i => n.scalars.getD i 0) c).bank := by
  rw [registersPut, predsPut_frame]

/-- A context with what its region's snapshot holds put back. -/
def restored (n : Snapshot) (c : Ctx) : Ctx := { c with
  bank := (registersPut n c).bank, bankPoison := (registersPut n c).bankPoison, upsets := (registersPut n c).upsets
  preds := (registersPut n c).preds, lc := n.lc, ec := n.ec, rb := n.rb, streams := n.streams, bufs := n.bufs, oqs := []
  work := { c.work with taken := n.taken }, busy := n.busy }

/-- Without synchronisation words only the context is restored. -/
theorem restoreSnap_eq {n : Snapshot} (hw : n.words = []) (s : State) (c : Ctx) (tick : Nat) :
    restoreSnap s c n tick = modUnit s c.uid (restored n) := by
  have hctx (k : Ctx) : { registersPut n k with
      lc := n.lc, ec := n.ec, rb := n.rb, streams := n.streams, bufs := n.bufs, oqs := []
      work := { (registersPut n k).work with taken := n.taken }, busy := n.busy } = restored n k := by
    unfold restored
    rw [registersPut_frame]
  unfold restoreSnap
  rw [hw, ← funext hctx]
  unfold registersPut predsPut scalarsPut
  rfl

section
variable {s : State} {c : Ctx} {r : Region} (hc : s.cx = some c) (hreg : c.region = some r) (hw : r.snap.words = [])

/-- The state in which a region's commands and inbound copies are dropped and its snapshot is back. -/
def unrolled (s : State) (c : Ctx) (r : Region) : State :=
  modUnit (cancelCopies (cancelFrom s c r.firstCmd) c r.firstCmd) c.uid (restored r.snap)

/-- What is left of a context whose region is abandoned. -/
def abandoned (c : Ctx) (r : Region) : Ctx :=
  let c := restored r.snap (cancelled c r.firstCmd)
  { c with
    loads := c.loads.filter (fun l => l.1 < r.firstCmd), loadLinks := c.loadLinks.filter (fun l => l.1 < r.firstCmd)
    flight := [], region := none, chans := c.chans.filter (fun (h : Nat × Chan) => h.2.id < r.firstCmd) }

include hc in
theorem unrolled_cx : (unrolled s c r).cx = some (restored r.snap (cancelled c r.firstCmd)) := by
  have hcx : (cancelCopies (cancelFrom s c r.firstCmd) c r.firstCmd).cx = some (cancelled c r.firstCmd) :=
    (dropCopies_cx ..).trans (cancelFrom_cx hc _)
  exact congrArg State.cx (modUnit_executing (u := c.uid) (restored r.snap) hcx rfl rfl)

theorem sameStorage_unrolled : SameStorage s (unrolled s c r) :=
  sameStorage_trans (sameStorage_cancelFrom ..) (sameStorage_trans (sameStorage_dropCopies ..) (sameStorage_modUnit ..))

/-- An act of the agenda is the result of something the abandoned region issued. -/
def lostResult (uid : Nat) (e : Ev) : Bool := e.uid == uid && e.own == 0 && !e.older && isResult e.act

include hc hreg hw in
/-- Abandoning a region whose snapshot holds no words: the unrolled state without the results to come. -/
theorem abandon_eq : abandon s c.uid = { unrolled s c r with
    agenda := (unrolled s c r).agenda.filter (fun e => !lostResult c.uid e), cx := some (abandoned c r) } := by
  have hcx : (unrolled s c r).cx = some (restored r.snap (cancelled c r.firstCmd)) := unrolled_cx hc
  have huid : (restored r.snap (cancelled c r.firstCmd)).uid = c.uid := rfl
  unfold abandon abandoned
  simp only [unitOf_cx hc, hreg, restoreSnap_eq hw]
  change modUnit { unrolled s c r with agenda := (unrolled s c r).agenda.filter (fun e => !lostResult c.uid e) } c.uid _ = _
  generalize restored r.snap (cancelled c r.firstCmd) = k at *
  generalize unrolled s c r = t at *
  exact modUnit_executing _ hcx huid huid

end

end Sys2Proof.Proofs
end

section
/-!
SUPPORT. How regions close and abort (O31).
-/
namespace Sys2Proof.Proofs
open Sys2Proof Sys2Proof.Machine Sys2Proof.Stated Sys2Proof.Laws

/-! ### The tick a held store performs -/

/-- The bits of a synchronisation address (Table 8.1). -/
theorem windowOf_sync {l : Nat} {a : Word} (h : codeOfAddress l a = 5) : windowOf a = .sync (a.toNat / 2 ^ 48 % 8) (a.toNat % 2 ^ 24) := by
  have ha := a.isLt
  unfold codeOfAddress at h
  dsimp only at h
  split at h
  case h_5 hk =>
    split at h
    next hb =>
      simp only [Nat.reducePow] at ha hk hb
      have hf : bitsOf a.toNat 60 4 = 15 := by simp only [bitsOf, Nat.reducePow]; omega
      have hz : bitsOf a.toNat 51 9 = 0 ∧ bitsOf a.toNat 24 24 = 0 := by simp only [bitsOf, Nat.reducePow]; omega
      simp only [windowOf, hf, hz]
      simp [bitsOf]
    next => cases h
  all_goals
    exfalso
    revert h
    repeat' split
    all_goals simp

theorem code_of_sync (l : Nat) {a : Word} {die off : Nat} (h : windowOf a = .sync die off) : codeOfAddress l a = 5 := by
  have ha := a.isLt
  unfold windowOf at h
  dsimp only at h
  split at h
  case h_5 hk =>
    split at h
    next hb =>
      simp only [Bool.and_eq_true, decide_eq_true_eq] at hb
      simp only [bitsOf, Nat.reducePow] at ha hk hb
      have hf : a.toNat / 2 ^ 60 = 15 := by simp only [Nat.reducePow]; omega
      simp only [codeOfAddress, hf]
      refine if_pos ?_
      simp only [Nat.reducePow]
      omega
    next => cases h
  all_goals
    exfalso
    revert h
    repeat' split
    all_goals simp

theorem spadPlace_win (s : State) (u : Ctx) (off win : Nat) : (spadPlace s u off win).win = win := by
  unfold spadPlace
  split <;> rfl

/-- An address leads into synchronisation space exactly where it is one of its own (R161). -/
theorem translate_win {s : State} {c : Ctx} {a : Word} {p : Place} (h : Machine.translate s c (windowFor c a) a = .ok p) :
    p.win = 5 ↔ ∃ die off, windowOf a = .sync die off := by
  unfold windowFor at h
  cases hw : windowOf a with
  | sync die off =>
    refine iff_of_true ?_ ⟨die, off, rfl⟩
    simp only [hw, Machine.translate] at h
    split at h <;> cases h <;> rfl
  | bad =>
    simp only [hw, Machine.translate, flt] at h
    cases h
  | global v =>
    refine iff_of_false ?_ (by simp)
    simp only [hw, Machine.translate] at h
    split at h
    · cases h
    · split at h <;> cases h <;> simp [refPlace]
  | priv off =>
    refine iff_of_false ?_ (by simp)
    simp only [hw] at h
    split at h <;> cases h
    simp [refPlace]
  | spad k off =>
    refine iff_of_false ?_ (by simp)
    simp only [hw, Machine.translate] at h
    split at h <;> cases h
    simp [spadPlace_win]
  | gallery k off =>
    refine iff_of_false ?_ (by simp)
    simp only [hw] at h
    split at h
    · simp only [Machine.translate] at h
      split at h <;> cases h
      · rw [spadPlace_win]
        split <;> simp
      · simp [nowhere]
    · cases h

theorem translate_of_opPlace {s : State} {c : Ctx} {o : SyncOp} {p : Place} (h : opPlace s c o = some p) :
    Machine.translate s c (windowFor c o.word) o.word = .ok p := by
  unfold opPlace at h
  split at h
  next hp => rw [hp, Option.some.inj h]
  next => cases h

/-- Table 13.1's ticks by place are those by address. -/
theorem engineTicks_eq {s : State} {c : Ctx} {o : SyncOp} {p : Place} (h : opPlace s c o = some p) :
    (engineTicks c (enginePlace o.word p)).1 = engineOffset c o.word := by
  have hwin := translate_win (translate_of_opPlace h)
  by_cases hcode : codeOfAddress c.lcore o.word = 5
  · have hw := windowOf_sync hcode
    have h5 : p.win = 5 := hwin.mpr ⟨_, _, hw⟩
    simp only [engineTicks, enginePlace, engineOffset, hw, h5, hcode, dieOfCore]
    simp only [bne_self_eq_false, Bool.false_eq_true, if_false, ne_eq, not_true_eq_false, apply_ite Prod.fst]
  · have hne : p.win ≠ 5 := fun h5 => by
      obtain ⟨die, off, hw⟩ := hwin.mp h5
      exact hcode (code_of_sync _ hw)
    have hp : enginePlace o.word p = p := by
      unfold enginePlace
      split
      next hw => exact absurd (code_of_sync _ hw) hcode
      next => rfl
    rw [hp, engineTicks, engineOffset, if_pos hcode, if_pos (by simpa using hne)]

/-- A context asks its own mate's place only by its number and its scratchpad: the region it has open does not matter. -/
theorem opPlace_closed (s : State) (c : Ctx) (o : SyncOp) (r : Option Region) (d : Option (Nat × Nat × Nat)) (uid t : Nat) :
    opPlace (releaseCopies s uid t) { c with region := r, landDropped := d } o = opPlace s c o := by
  have hmate (k : Nat) : teamMate (releaseCopies s uid t) { c with region := r, landDropped := d } k
      = if k = c.lcore then some { c with region := r, landDropped := d } else teamMate s c k := by
    unfold teamMate
    split <;> rfl
  have hwin : windowFor { c with region := r, landDropped := d } o.word = windowFor c o.word := rfl
  unfold opPlace
  rw [hwin]
  cases windowFor c o.word with
  | gallery k off =>
    simp only [Machine.translate, hmate]
    by_cases hk : k = c.lcore
    · have hself : teamMate s c k = some c := if_pos hk
      simp only [hk, if_true, hk ▸ hself]
      rfl
    · simp only [hk, if_false]
      rfl
  | _ => rfl

/-- An operation of a context whose region is closed is sent as the operation of the context before. -/
theorem sendOp_closed {s : State} {c : Ctx} {o : SyncOp} {p : Place} (hp : opPlace s c o = some p) (t : State) (r : Option Region)
    (d : Option (Nat × Nat × Nat)) (e : Nat) : sendOp t { c with region := r, landDropped := d } p o e
      = (performTick c p o.word e,
        schedC t { c with region := r, landDropped := d } (performTick c p o.word e) 12 (.eff (.sync c.uid o)),
        { c with region := r, landDropped := d, objects := tset c.objects (objectOf p) (performTick c p o.word e) }) := by
  have hordered : orderedAt { c with region := r, landDropped := d } (objectKey p) (e + (engineTicks c (enginePlace o.word p)).1)
      = (performTick c p o.word e,
        { c with region := r, landDropped := d, objects := tset c.objects (objectOf p) (performTick c p o.word e) }) := by
    rw [engineTicks_eq hp]
    rfl
  exact congrArg (fun x : Nat × Ctx => (x.1, schedC t x.2 x.1 12 (.eff (.sync x.2.uid o)), x.2)) hordered

section
variable {s : State} {c : Ctx} (hr : Runs s c [0])
include hr

/-- The one held store is issued as the region closes, which waits until it has performed. -/
theorem rgclose_issues {r : Region} {o : SyncOp} {p : Place} (hreg : c.region = some r) (hi : r.idem = true) (hh : r.held = [o])
    (hk : o.kind = .store) (hp : opPlace s c o = some p) : exec .rgclose s = .next { releaseCopies s c.uid (tickOf s c) with
      agenda := due s c (performTick c p o.word (tickOf s c)) 12 (.sync c.uid o)
        ++ [⟨c.core / 128, max (performTick c p o.word (tickOf s c)) (tickOf s c + 1), 16, c.uid, 0, .eff (.wake c.uid), false⟩]
      cx := some { c with
        region := none, landDropped := none, wait := .regionClose
        objects := tset c.objects (objectOf p) (performTick c p o.word (tickOf s c)) } } := by
  change execRgclose s = _
  refine onCore_ok hr.1 hr.2 ?_
  simp only [hreg, hi, hh, issueHeld, opPlace_closed, hp, hk, sendOp_closed hp]
  rfl

end

theorem scalarAt_abandoned (c : Ctx) (r : Region) {k : Nat} (hk : k < 31) :
    scalarAt (abandoned c r) (k + 1) = r.snap.scalars.getD k 0 := by
  change scalarAt (registersPut r.snap (cancelled c r.firstCmd)) (k + 1) = _
  rw [scalarAt, registersPut_bank]
  exact scalarAt_scalarsPut 31 _ _ hk

theorem rdPhysP_abandoned (c : Ctx) (r : Region) {k : Nat} (hk : k < 95) : rdPhysP (abandoned c r) (k + 1) = r.snap.preds.getD k 0 := by
  change rdPhysP (registersPut r.snap (cancelled c r.firstCmd)) (k + 1) = _
  rw [registersPut]
  exact rdPhysP_predsPut 95 _ _ hk

theorem abandoned_bytes (c : Ctx) (r : Region) {off : Nat} (h : off < 8 ∨ 256 ≤ off) :
    (abandoned c r).bank.read off = c.bank.read off := by
  change (registersPut r.snap (cancelled c r.firstCmd)).bank.read off = _
  rw [registersPut_bank]
  exact scalarsPut_bytes 31 _ _ (by omega)

/-- The agenda of an abandoned region's context holds no result of what it issued. -/
theorem no_lostResult {uid : Nat} {l : List Ev} {e : Ev} (he : e ∈ l.filter (fun e => !lostResult uid e)) (hu : e.uid = uid)
    (h0 : e.own = 0) (hold : e.older = false) : isResult e.act = false := by
  have hlost := (List.mem_filter.mp he).2
  simpa [lostResult, hu, h0, hold] using hlost

/-- Settles O31: the branches of RGCLOSE and RGABORT; the unrolled state of an idem region holds what the snapshot kept. -/
theorem regionsCloseOrAbort : Obligations.RegionsCloseOrAbort := by
  intro s c hr hs
  refine ⟨fun hn => no_region hr hn, fun r hreg hi => ⟨?_, ?_⟩, fun r hreg hi hh => ?_, fun r o p hreg hi hh hk hp => ?_,
    fun r hreg hi hw => ?_⟩
  · refine ⟨_, rfl, (rgclose_closes hr hs hreg (fun h => absurd h (by simp [hi]))).trans ?_⟩
    rw [hi]
    rfl
  · refine ⟨_, _, rgabort_drops hr hreg hi, rfl, rfl, rfl, rfl, ?_, rfl, rfl, ?_⟩
    · exact congrArg (· + 1) (tickOf_eq c (congrArg Prod.fst ((rest_modUnit ..).trans ((rest_dropCopies ..).trans (rest_cancelFrom ..)))))
    · exact sameStorage_trans (sameStorage_cancelFrom ..) (sameStorage_trans (sameStorage_dropCopies ..) (sameStorage_modUnit ..))
  · refine ⟨_, rgclose_closes hr hs hreg (fun _ => hh), ?_⟩
    rw [hi]
    exact ⟨rfl, rfl, ⟨rfl, rfl, rfl, rfl, rfl, rfl, rfl⟩⟩
  · exact ⟨_, rgclose_issues hr hreg hi hh hk hp, ⟨rfl, rfl, rfl, rfl, rfl, rfl, rfl⟩, rfl, rfl⟩
  · have ha := abandon_eq hr.1 hreg hw
    refine ⟨_, _, rgabort_abandons hr hreg hi (congrArg State.cx ha), rfl, ?_, rfl, rfl, rfl, rfl, rfl, rfl, rfl, rfl, fun k hk => ?_,
      fun k hk => ?_, fun off hoff => ?_, rfl, fun l hl => ?_, fun e he => ?_⟩
    · rw [ha]
      exact sameStorage_unrolled
    · exact scalarAt_abandoned c r hk
    · exact rdPhysP_abandoned c r hk
    · exact abandoned_bytes c r hoff
    · exact of_decide_eq_true (List.mem_filter.mp hl).2
    · rw [ha] at he
      exact no_lostResult he

end Sys2Proof.Proofs
end

section
/-!
SUPPORT. What a completion pushes (O39).
-/
namespace Sys2Proof.Proofs
open Sys2Proof Sys2Proof.Machine Sys2Proof.Stated Sys2Proof.Laws

/-! ## Tokens and queues (R104) -/

theorem queueOf_setQueue (k : CoreSt) (q : Nat) (l : List Cmd) : queueOf (setQueue k q l) q = l := by
  rcases q with _ | _ | _ | _ | q <;> rfl

theorem fifo_setQueue (k : CoreSt) (q : Nat) (l : List Cmd) (f : Nat) : fifo (setQueue k q l) f = fifo k f := by
  rcases q with _ | _ | _ | _ | q <;> rfl

/-- The two FIFOs a command pushes lead to its two sides, so they differ. -/
theorem pushFifos_nodup (q : Nat) (i : Instr) : (pushFifos q i).Nodup := by
  have hsides : 2 * (lineOfQueue q - 1) + 1 ≠ 2 * lineOfQueue q := by omega
  unfold pushFifos
  split
  · split_ifs <;> simp [hsides]
  · exact List.nodup_nil

theorem roomFor_iff {fs : List Nat} (hn : fs.Nodup) (k : CoreSt) : roomFor k fs = true ↔ ∀ f ∈ fs, (fifo k f).length < 8 := by
  simp only [roomFor, List.all_eq_true, decide_eq_true_eq]
  refine forall₂_congr fun f hf => ?_
  rw [List.count_eq_one_of_mem hn hf, Nat.succ_le_iff]

/-- Each FIFO named takes one token, behind those that are there. -/
theorem fifo_putTokens {fs : List Nat} (hn : fs.Nodup) (k : CoreSt) (t f : Nat) :
    fifo (putTokens k fs t) f = if f ∈ fs then fifo k f ++ [t] else fifo k f := by
  induction fs generalizing k with
  | nil => rfl
  | cons g fs ih =>
    obtain ⟨hg, hn⟩ := List.nodup_cons.mp hn
    have hstep : putTokens k (g :: fs) t = putTokens { k with tokens := tset k.tokens g (fifo k g ++ [t]) } fs t := rfl
    rw [hstep, ih hn]
    by_cases hfg : f = g
    · subst hfg
      simp [hg, fifo]
    · simp [hfg, fifo, tget_tset_ne _ _ (Ne.symm hfg)]

/-! ## Completions (O39) -/

section
variable {s : State} {core q id : Nat} {k : Cmd} (hk : Machine.running s core q id = some k)
include hk

theorem complete_pushes (h : roomFor (coreOf s core) (pushFifos q k.ins ++ k.pushes) = true) :
    exec (.queueEntryComplete core q id) s = .next (modCore s core (fun x =>
      setQueue (putTokens x (pushFifos q k.ins ++ k.pushes) (now s (core / 128))) q ((queueOf x q).filter (fun m => m.id != id)))) := by
  change execQueueEntryComplete core q id s = _
  simp only [execQueueEntryComplete, hk, h, if_true]
  rfl

theorem complete_waits (h : roomFor (coreOf s core) (pushFifos q k.ins ++ k.pushes) = false) (ht : k.timed = false) :
    exec (.queueEntryComplete core q id) s = .next (putCmd s core q { k with prog := 1 }) := by
  change execQueueEntryComplete core q id s = _
  simp [execQueueEntryComplete, hk, h, ht]

theorem complete_misses (h : roomFor (coreOf s core) (pushFifos q k.ins ++ k.pushes) = false) (ht : k.timed = true) :
    exec (.queueEntryComplete core q id) s = .next (engineFault (if runsOut k.ins then s else dropOwned s [k.id]) { k with prog := 1 }
      (keeps k.ins) ⟨cMISS, word k.due, 4, false⟩) := by
  change execQueueEntryComplete core q id s = _
  simp only [execQueueEntryComplete, hk, h, ht, Bool.false_eq_true, if_false, if_true]
  rfl

end

/-- Settles O39: whether every FIFO to be pushed has room, and then whether the command is timed. -/
theorem completionsPushTheirTokens : Obligations.CompletionsPushTheirTokens := by
  intro core q id s k hk _ hp x fs
  have hpushes : pushFifos q k.ins ++ k.pushes = fs := by rw [hp, List.append_nil]
  have hn : fs.Nodup := pushFifos_nodup q k.ins
  refine ⟨fun hroom => ?_, fun ⟨f, hf, h8⟩ => ?_⟩
  · have hexec := complete_pushes hk (by rw [hpushes]; exact (roomFor_iff hn _).mpr hroom)
    rw [hpushes] at hexec
    refine ⟨_, hexec, ⟨rfl, rfl, rfl, rfl, rfl, rfl, rfl⟩, rfl, rfl, rfl, ?_, fun f hf => ?_, fun f hf => ?_⟩
    · rw [coreOf_modCore_self, queueOf_setQueue]
    · rw [coreOf_modCore_self, fifo_setQueue, fifo_putTokens hn, if_pos hf]
    · rw [coreOf_modCore_self, fifo_setQueue, fifo_putTokens hn, if_neg hf]
  · have hfull : roomFor x (pushFifos q k.ins ++ k.pushes) = false := by
      rw [hpushes]
      exact Bool.eq_false_iff.mpr fun h => Nat.not_lt.mpr h8 ((roomFor_iff hn x).mp h f hf)
    exact ⟨complete_waits hk hfull, complete_misses hk hfull⟩

end Sys2Proof.Proofs
end

section
/-!
SUPPORT. Commands that are not delivered (O37).
-/
namespace Sys2Proof.Proofs
open Sys2Proof Sys2Proof.Machine Sys2Proof.Stated Sys2Proof.Laws

/-! ## What stops a delivery (O37) -/

theorem noIdem_error {c : Ctx} {k : Cmd} {e : Trap} (h : (if c.idem then .error ⟨0x14, 0, 3, false⟩ else .ok k : Res Cmd) = .error e) :
    noIdem c = .error e := by
  unfold noIdem
  split at h
  next hi =>
    rw [if_pos hi]
    cases h
    rfl
  next => cases h

/-- A command whose delivery checks fail is one whose own preparation refuses it. -/
theorem exec_unprepared {s : State} {c : Ctx} {i : Instr} {e : Trap} (hw : i.wf = true) (hc : s.cx = some c)
    (hp : prepOf s c i = some (.error e)) (hd : ∀ t f, i ≠ .dispatch t f) :
    ∃ prep, prep s c = .error e ∧ exec i s = deliver (declared c i) i prep s := by
  cases hv : Machine.vform i with
  | some y =>
    obtain ⟨major, func, v⟩ := y
    simp only [prepOf, hv] at hp
    cases hp
  | none =>
    simp only [prepOf, hv] at hp
    cases i with
    | mmul | mgrad | sortc | xld | xst | esave | eload | cpy | cpyc | ckpt | xsend | xrecv => exact ⟨_, Option.some.inj hp, rfl⟩
    | mgdrain t f => exact ⟨fun _ c => drainCmd f c, (drainCmd_eq f c).trans (Option.some.inj hp), rfl⟩
    | mres t f =>
      refine ⟨fun _ c => rowsCmd f c, (rowsCmd_eq f c).trans (Option.some.inj hp), ?_⟩
      obtain ⟨-, hf⟩ := Bool.and_eq_true_iff.mp hw
      rw [show declared c (.mres t f) = [classBit f.ty.toNat] from rfl, ← classBit_of_rows hf]
      rfl
    | slclaim t d n =>
      refine ⟨fun _ c => do noIdem c; .ok { (default : Cmd) with names := [rot c d.toNat] }, ?_, rfl⟩
      dsimp only
      rw [noIdem_error (Option.some.inj hp)]
      rfl
    | slrel t n =>
      refine ⟨fun _ c => do noIdem c; .ok default, ?_, rfl⟩
      dsimp only
      rw [noIdem_error (Option.some.inj hp)]
      rfl
    | lnest t f =>
      dsimp only at hp
      split at hp
      · cases hp
      next hcvt =>
        refine ⟨_, Option.some.inj hp, ?_⟩
        change execLnest t f s = _
        unfold execLnest
        rw [hc]
        exact if_neg hcvt
    | lrflush t r =>
      refine ⟨fun _ c => do let a := rdS c r.toNat; recordAt c a; .ok { (default : Cmd) with vals := [a], outbound := true }, ?_, rfl⟩
      rw [← Option.some.inj hp]
      dsimp only
      cases recordAt c (rdS c r.toNat) <;> rfl
    | dispatch t f => exact absurd rfl (hd t f)
    | _ => cases hp

/-- Whatever its delivery checks answer, an engine command is delivered by its own preparation. -/
theorem exec_deliver {s : State} {c : Ctx} {i : Instr} {x : Res Cmd} (hw : i.wf = true) (hc : s.cx = some c)
    (hp : prepOf s c i = some x) (hd : ∀ t f, i ≠ .dispatch t f) :
    ∃ prep, prep s c = x ∧ exec i s = deliver (declared c i) i prep s := by
  cases x with
  | ok k₀ => exact exec_delivers hw hc hp hd
  | error e => exact exec_unprepared hw hc hp hd

theorem untimed_iff (i : Instr) : (match timingOf i with | some t => (decide (t.tmode = 0)) | none => false) = true ↔ untimed i := by
  unfold untimed
  cases timingOf i <;> simp

theorem not_untimed {c : Ctx} {i : Instr} (h : ¬ (c.timed = true ∧ untimed i)) :
    ¬ (c.timed && (match timingOf i with | some t => (decide (t.tmode = 0)) | none => false)) = true := by
  rw [Bool.and_eq_true, untimed_iff]
  exact h

/-- The engine state of a command that misses its start as it is delivered (R107). -/
def missed (s : State) (c : Ctx) (i : Instr) (k₀ : Cmd) : EngState :=
  ⟨tickOf s c, { deliveredCmd s c i k₀ with prog := 2 }, (coreOf s c.core).resCount.toNat⟩

section
variable {s : State} {c : Ctx} {bits : List Nat} (hr : Runs s c bits) {i : Instr} (prep : State → Ctx → Res Cmd)
include hr

/-- In a timed segment a command without timing is illegal. -/
theorem deliver_untimed (ht : c.timed = true) (hu : untimed i) :
    deliver bits i prep s = .next (takeFault s c.uid ⟨cILLEGAL, 0, 0, true⟩ c.pc) := by
  refine onCore_trap hr.1 hr.2 (if_pos ?_)
  rw [ht, Bool.true_and]
  exact (untimed_iff i).mpr hu

variable (htimed : ¬ (c.timed = true ∧ untimed i))
include htimed

/-- A full queue blocks the context, but at a timed copy. -/
theorem deliver_blocks (hq : queueFull s c (engineOf i) = true) (hcopy : ¬ (c.timed = true ∧ engineOf i = 4)) :
    deliver bits i prep s = .next { s with cx := some { c with wait := .queue (engineOf i) } } := by
  refine onCore_ok hr.1 hr.2 ((if_neg (not_untimed htimed)).trans (if_pos ?_))
  simpa [hq, ← Bool.not_eq_true, ← imp_iff_not_or] using hcopy

variable {prep} (hq : ¬ queueFull s c (engineOf i) = true ∨ (c.timed = true ∧ engineOf i = 4))
include hq

theorem deliver_refuses {e : Trap} (hp : prep s c = .error e) : deliver bits i prep s = .next (takeFault s c.uid e c.pc) := by
  refine onCore_trap hr.1 hr.2 ((if_neg (not_untimed htimed)).trans ((if_neg ?_).trans ?_))
  · simpa [or_iff_not_imp_left] using hq
  · rw [hp]
    rfl

/-- A timed command whose due tick has come, or a timed copy that finds the buffer full, misses its start at its delivery. -/
theorem deliver_misses {k₀ : Cmd} (hp : prep s c = .ok k₀) (ht : c.timed = true) (hw : (timingOf i).isSome)
    (hdue : dueOf s c i ≤ tickOf s c ∨ queueFull s c (engineOf i) = true) :
    deliver bits i prep s = .next (takeFault { s with
        nextId := s.nextId + 1
        cx := some (if keeps i then { c with saved := tset c.saved (engineOf i) (missed s c i k₀) } else c) } c.uid
      ⟨cMISS, word (dueOf s c i), 1, false⟩ c.pc) := by
  refine onCore_ok hr.1 hr.2 ((if_neg (not_untimed htimed)).trans ((if_neg ?_).trans ?_))
  · simpa [or_iff_not_imp_left] using hq
  · rw [hp]
    refine (if_pos ?_).trans ?_
    · simp only [Bool.and_eq_true, Bool.or_eq_true]
      exact ⟨⟨ht, hw⟩, hdue.imp (fun h => decide_eq_true ((due_eq_dueOf s c i).le.trans h)) id⟩
    · unfold missed deliveredCmd
      rw [← due_eq_dueOf]
      rfl

end

/-! ### A fault takes the context off its way -/

/-- The executing context is unit u, and its wait is one of P. -/
def Executing (s : State) (u : Nat) (P : Wait → Prop) : Prop := ∃ c, s.cx = some c ∧ c.uid = u ∧ P c.wait

section
variable {s : State} {u : Nat} {P Q : Wait → Prop} {f : Ctx → Ctx}

theorem Executing.modUnit (h : Executing s u P) (hu : ∀ c, (f c).uid = c.uid) (hw : ∀ c, P c.wait → Q (f c).wait) :
    Executing (modUnit s u f) u Q := by
  obtain ⟨c, hc, rfl, hp⟩ := h
  exact ⟨f c, congrArg State.cx (modUnit_cx f hc (hu c)), hu c, hw c hp⟩

theorem Executing.of_cx {t : State} (h : Executing s u P) (hc : t.cx = s.cx) : Executing t u P := by
  obtain ⟨c, hs, hu, hp⟩ := h
  exact ⟨c, hc.trans hs, hu, hp⟩

theorem Executing.holdCmds {c : Ctx} (h : Executing s c.uid P) : Executing (holdCmds s c) c.uid P :=
  (h.of_cx rfl : Executing (dropFar (dropCmds s c.core _) _) c.uid P).modUnit (fun _ => rfl) (fun _ => id)

theorem Executing.stopStarted {c : Ctx} (h : Executing s c.uid P) (tick : Nat) : Executing (stopStarted s c tick) c.uid P :=
  (h.of_cx rfl : Executing (dropCmds (dropOwned s _) c.core _) c.uid P).modUnit (fun _ => rfl) (fun _ => id)

theorem Executing.enterHandler {c : Ctx} (h : Executing s c.uid P) (cause : Nat) (v info epc : Word) :
    Executing (enterHandler s c cause v info epc) c.uid (· ≠ .run) :=
  h.holdCmds.modUnit (fun _ => rfl) (fun _ _ => by simp)

theorem settle_cx (s : State) (t : Trap) : (settle s t).2.cx = s.cx := by
  unfold settle
  split <;> rfl

theorem settle_cause (s : State) (t : Trap) : (settle s t).1.cause = t.cause := by
  unfold settle
  split <;> rfl

theorem putPageRequest_cx (s : State) (vd : Nat) (e : Nat × Nat × Nat) : (putPageRequest s vd e).cx = s.cx := by
  unfold putPageRequest
  dsimp only
  split
  · rfl
  · split <;> rfl

/-- A unit that is found by the number of the executing context is that context. -/
theorem Executing.uid_of_unitOf {c : Ctx} (h : Executing s u P) (hc : unitOf s u = some c) : c.uid = u := by
  obtain ⟨x, hx, rfl, -⟩ := h
  rw [unitOf_cx hx] at hc
  exact congrArg Ctx.uid (Option.some.inj hc).symm

theorem Executing.toMonitor {c : Ctx} (h : Executing s c.uid P) (t : Trap) : Executing (toMonitor s c t) c.uid (· ≠ .run) := by
  unfold Machine.toMonitor
  have hcx := settle_cx s t
  generalize settle s t = r at *
  obtain ⟨t', s'⟩ := r
  dsimp -zeta only at hcx ⊢
  extract_lets l logged stopped marked held
  have hstopped : Executing stopped c.uid (· ≠ .run) :=
    (h.of_cx hcx : Executing logged c.uid P).modUnit (fun _ => rfl) (fun _ _ => by simp)
  have hheld : Executing held c.uid (· ≠ .run) := (hstopped.of_cx rfl : Executing marked c.uid _).holdCmds
  split
  · exact hstopped
  · split
    · split
      next c' hc' =>
        have hu := hheld.uid_of_unitOf hc'
        exact hu ▸ (hu.symm ▸ hheld).stopStarted _
      next => exact hheld
    · exact hstopped.of_cx rfl

/-- A fault that no region contains stops the context, parks it, or enters its handler. -/
theorem takeFault_rests {c : Ctx} (hc : s.cx = some c) {t : Trap} (epc : Word) (hu : t.cause ≠ cUNCORR) (hm : t.cause ≠ cMISMATCH) :
    Executing (takeFault s c.uid t epc) c.uid (· ≠ .run) := by
  unfold takeFault
  rw [unitOf_cx hc]
  have hcx := settle_cx s t
  have hcause := settle_cause s t
  generalize settle s t = r at *
  obtain ⟨t', s'⟩ := r
  have hr : Executing s' c.uid (fun _ => True) := ⟨c, hcx.trans hc, rfl, trivial⟩
  dsimp -zeta only at hcause ⊢
  extract_lets contain l parked
  rw [← hcause] at hu hm
  split
  · exact hr.enterHandler ..
  · split
    next h => simp [hu, hm] at h
    next =>
      split
      · exact (hr.modUnit (Q := (· ≠ .run)) (fun _ => rfl) (fun _ _ => by simp) : Executing parked c.uid _).of_cx (putPageRequest_cx ..)
      · have hat : Executing (Machine.modUnit s' c.uid (fun c => { c with pc := epc })) c.uid (fun _ => True) :=
          hr.modUnit (fun _ => rfl) (fun _ _ => trivial)
        exact hat.toMonitor _

end

/-! ### DISPATCH -/

/-- A count address fails by its alignment, its core or its window. -/
theorem countAddress_cause {c : Ctx} {a : Word} {e : Trap} (h : countAddress c a = .error e) :
    e.cause = cALIGN ∨ e.cause = cWRONGCORE ∨ e.cause = cADDRESS := by
  unfold countAddress at h
  split at h
  case h_1 =>
    split at h <;> cases h
    exact .inl rfl
  case h_2 =>
    split at h
    · cases h
      exact .inl rfl
    · split at h <;> cases h
      exact .inr (.inl rfl)
  case h_3 =>
    split at h <;> cases h
    exact .inl rfl
  case h_4 =>
    cases h
    exact .inr (.inr rfl)

/-- No timed segment delivers a DISPATCH. -/
theorem dispatchPrep_timed {f : DispF} {s : State} {c : Ctx} (ht : c.timed = true) : dispatchPrep f s c = fltOpen cILLEGAL :=
  if_pos (by simp [ht])

theorem dispatchPrep_cause {f : DispF} {s : State} {c : Ctx} {e : Trap} (h : dispatchPrep f s c = .error e) :
    e.cause ≠ cUNCORR ∧ e.cause ≠ cMISMATCH := by
  unfold dispatchPrep at h
  dsimp only at h
  split at h
  · cases h
    decide
  · split at h
    · cases h
      decide
    · split at h
      · cases hca : countAddress c (rdS c f.c.toNat) with
        | ok x =>
          rw [hca] at h
          cases h
        | error e' =>
          rw [hca] at h
          cases h
          rcases countAddress_cause hca with hk | hk | hk <;> rw [hk] <;> decide
      · cases h

/-- A fault of a DISPATCH at its delivery is its whole outcome: the context does not wait for a plan. -/
theorem exec_dispatch_faults {s : State} {c : Ctx} {t : Timing} {f : DispF} {e : Trap} (hc : s.cx = some c)
    (hu : e.cause ≠ cUNCORR ∧ e.cause ≠ cMISMATCH)
    (hd : deliver [21] (.dispatch t f) (dispatchPrep f) s = .next (takeFault s c.uid e c.pc)) :
    exec (.dispatch t f) s = .next (takeFault s c.uid e c.pc) := by
  obtain ⟨c', hc', -, hw⟩ := takeFault_rests hc c.pc hu.1 hu.2
  change execDispatch t f s = _
  unfold execDispatch
  rw [hd]
  simp only [hc, hc']
  rw [if_neg (by simp [hw])]

/-- Settles O37: a delivery's checks in their order, which DISPATCH passes on. -/
theorem commandsMayNotBeDelivered : Obligations.CommandsMayNotBeDelivered := by
  intro i s c hwf hr full copyMisses
  by_cases hd : ∃ t f, i = .dispatch t f
  · obtain ⟨t, f, rfl⟩ := hd
    refine ⟨fun _ ht hu => ?_, fun _ _ hq => absurd hq (by simp [full, queueFull, engineOf]), fun k₀ hp ht => ?_,
      fun e hp hu hq => ?_, fun _ _ h => by cases h⟩
    · exact exec_dispatch_faults hr.1 (by decide) (deliver_untimed hr _ ht hu)
    · exact absurd ((dispatchPrep_timed ht).symm.trans (Option.some.inj hp)) nofun
    · have hprep : dispatchPrep f s c = .error e := Option.some.inj hp
      exact exec_dispatch_faults hr.1 (dispatchPrep_cause hprep) (deliver_refuses hr hu hq hprep)
  · have hnot : ∀ t f, i ≠ .dispatch t f := fun t f h => hd ⟨t, f, h⟩
    refine ⟨fun hsome ht hu => ?_, fun hsome hu hq hcopy => ?_, fun k₀ hp ht hu hq hw hdue => ?_, fun e hp hu hq => ?_,
      fun t f hi hbad => ?_⟩
    · obtain ⟨x, hp⟩ := Option.isSome_iff_exists.mp hsome
      obtain ⟨prep, -, he⟩ := exec_deliver hwf hr.1 hp hnot
      exact he.trans (deliver_untimed hr prep ht hu)
    · obtain ⟨x, hp⟩ := Option.isSome_iff_exists.mp hsome
      obtain ⟨prep, -, he⟩ := exec_deliver hwf hr.1 hp hnot
      exact he.trans (deliver_blocks hr prep hu hq hcopy)
    · obtain ⟨prep, hprep, he⟩ := exec_deliver hwf hr.1 hp hnot
      refine ⟨_, he.trans (deliver_misses hr (fun h => hu h.2) hq hprep ht hw hdue), fun hkeep => ?_, fun hkeep => ⟨missed s c i k₀, ?_, rfl, rfl, rfl⟩⟩
      · rw [hkeep, if_neg Bool.false_ne_true, ← hr.1]
      · rw [hkeep, if_pos rfl]
    · obtain ⟨prep, hprep, he⟩ := exec_deliver hwf hr.1 hp hnot
      exact he.trans (deliver_refuses hr hu hq hprep)
    · subst hi
      change execLnest t f s = _
      unfold execLnest
      simp only [hr.1]
      rw [if_pos hbad]
      exact onCore_trap hr.1 (fun _ hb => absurd hb List.not_mem_nil) rfl

end Sys2Proof.Proofs
end

section
/-!
SUPPORT. Commands after the comparison (O38).
-/
namespace Sys2Proof.Proofs
open Sys2Proof Sys2Proof.Machine Sys2Proof.Stated Sys2Proof.Laws

/-! ## What waits for the banister -/

theorem coreOf_congr {s t : State} (h : t.cores = s.cores) (n : Nat) : coreOf t n = coreOf s n := by rw [coreOf, h, coreOf]

theorem launchOf_congr {s t : State} (h : t.launches = s.launches) (n : Nat) : launchOf t n = launchOf s n := by rw [launchOf, h, launchOf]

theorem pending_modCore {f : CoreSt → CoreSt} (hf : ∀ x, (f x).pending = x.pending) (s : State) (k n : Nat) :
    (coreOf (modCore s k f) n).pending = (coreOf s n).pending := by
  by_cases h : k = n
  · subst h
    rw [coreOf_modCore_self, hf]
  · rw [coreOf_modCore_ne _ _ h]

theorem unitOf_modUnit_self {s : State} {u : Nat} {c : Ctx} {f : Ctx → Ctx} (h : unitOf s u = some c) (hu : (f c).uid = u) :
    unitOf (modUnit s u f) u = some (f c) := by
  subst hu
  rw [modUnit_eq f h, unitOf_setUnit]

/-- The commands that wait for the banister at t did so at s. -/
def PendingFewer (s t : State) : Prop := ∀ n, ∀ m ∈ (coreOf t n).pending, m ∈ (coreOf s n).pending

theorem PendingFewer.trans {s t u : State} (h : PendingFewer s t) (h' : PendingFewer t u) : PendingFewer s u :=
  fun n m hm => h n m (h' n m hm)

theorem PendingFewer.of_cores {s t : State} (h : t.cores = s.cores) : PendingFewer s t := fun n m hm => by rwa [coreOf_congr h] at hm

section
variable (s : State)

theorem pendingFewer_modUnit (u : Nat) (f : Ctx → Ctx) : PendingFewer s (modUnit s u f) := .of_cores (modUnit_cores ..)

theorem pendingFewer_dropCmds (core : Nat) (gone : Cmd → Bool) : PendingFewer s (dropCmds s core gone) := by
  intro n m hm
  unfold dropCmds at hm
  by_cases h : core = n
  · subst h
    rw [coreOf_modCore_self] at hm
    exact (List.mem_filter.mp hm).1
  · rwa [coreOf_modCore_ne _ _ h] at hm

theorem pendingFewer_withdraw (c : Ctx) : PendingFewer s (withdraw s c) := .of_cores (by unfold withdraw; split <;> rfl)

theorem pendingFewer_cancelFrom (c : Ctx) (id : Nat) : PendingFewer s (cancelFrom s c id) := by
  refine PendingFewer.trans ?_ (pendingFewer_modUnit _ _ _)
  exact (pendingFewer_dropCmds s c.core _).trans (.of_cores rfl)

theorem pendingFewer_holdCmds (c : Ctx) : PendingFewer s (holdCmds s c) := by
  refine PendingFewer.trans ?_ (pendingFewer_modUnit _ _ _)
  exact (pendingFewer_dropCmds s c.core _).trans (.of_cores rfl)

theorem pendingFewer_stopStarted (c : Ctx) (tick : Nat) : PendingFewer s (stopStarted s c tick) := by
  refine PendingFewer.trans ?_ (pendingFewer_modUnit _ _ _)
  exact (PendingFewer.of_cores rfl).trans (pendingFewer_dropCmds _ _ _)

theorem settle_cores (t : Trap) : (settle s t).2.cores = s.cores := by
  unfold settle
  split <;> rfl

theorem settle_launches (t : Trap) : (settle s t).2.launches = s.launches := by
  unfold settle
  split <;> rfl

theorem pendingFewer_toMonitor (c : Ctx) (t : Trap) : PendingFewer s (toMonitor s c t) := by
  unfold toMonitor
  have hcores := settle_cores s t
  generalize settle s t = r at *
  obtain ⟨t', s'⟩ := r
  dsimp -zeta only at hcores ⊢
  extract_lets l logged stopped marked held
  have hstopped : PendingFewer s stopped := (PendingFewer.of_cores hcores : PendingFewer s logged).trans (pendingFewer_modUnit _ _ _)
  have hheld : PendingFewer s held := (hstopped.trans (.of_cores rfl) : PendingFewer s marked).trans (pendingFewer_holdCmds _ _)
  split
  · exact hstopped
  · split
    · split
      · exact hheld.trans (pendingFewer_stopStarted _ _ _)
      · exact hheld
    · exact hstopped.trans (.of_cores rfl)

/-- A fault that reaches the monitor first ends its launch (R197). -/
theorem toMonitor_ends {c : Ctx} (t : Trap) (h : (launchOf s c.launch).status = none) :
    (launchOf (toMonitor s c t) c.launch).status = some 1 ∧ (launchOf (toMonitor s c t) c.launch).cause = t.cause := by
  unfold toMonitor
  have hlaunches := settle_launches s t
  have hcause := settle_cause s t
  generalize settle s t = r at *
  obtain ⟨t', s'⟩ := r
  dsimp -zeta only at hlaunches hcause ⊢
  extract_lets l logged stopped marked held
  have hl : l.status = none := (congrArg Launch.status (launchOf_congr hlaunches _)).trans h
  have hmarked : (launchOf marked c.launch).status = some 1 ∧ (launchOf marked c.launch).cause = t.cause := by
    rw [show marked = modLaunch stopped c.launch _ from rfl, launchOf_modLaunch_self]
    exact ⟨rfl, hcause⟩
  have hheld : held.launches = marked.launches := modUnit_launches ..
  rw [if_neg (by simp [hl])]
  split
  · split
    next c' _ =>
      rw [launchOf_congr (t := stopStarted held c' (tickOf held c')) ((modUnit_launches ..).trans hheld)]
      exact hmarked
    next =>
      rw [launchOf_congr hheld]
      exact hmarked
  · exact hmarked

end

/-! ## A mismatch (R184) -/

/-- The contexts, the launches and what waits for the banister. -/
def standing (s : State) : Option Ctx × Tab Ctx × Tab Launch × (Nat → List Cmd) :=
  (s.cx, s.units, s.launches, fun n => (coreOf s n).pending)

theorem standing_modCore {f : CoreSt → CoreSt} (hf : ∀ x, (f x).pending = x.pending) (s : State) (k : Nat) :
    standing (modCore s k f) = standing s := by
  have hpending : (fun n => (coreOf (modCore s k f) n).pending) = fun n => (coreOf s n).pending := funext (pending_modCore hf s k)
  simp only [standing, hpending, modCore_cx, modCore_units, modCore_launches]

theorem standing_poke (s : State) : standing (poke s) = standing s := by
  rw [poke_eq]
  rfl

theorem standing_journal (s : State) (kind vd queue seq : Nat) (payload : List Nat) :
    standing (journal s kind vd queue seq payload) = standing s := by
  rw [journal, journalBytes_eq]
  rfl

theorem standing_fence (s : State) (core cls : Nat) : standing (fence s core cls) = standing s := by
  have hjournal := standing_journal s 0x0A 0xFF 0 0 [core, cls]
  unfold fence applyFence
  dsimp only
  split
  · exact hjournal
  · refine (standing_poke _).trans ((standing_modCore ?_ _ core).trans hjournal)
    exact fun _ => rfl

/-- A miscompute event is logged and judged, which leaves all this as it stands. -/
theorem standing_miscompute (s : State) (core cls source info : Nat) (who : Option Ctx) :
    standing (miscompute s core cls source info who) = standing s := by
  unfold miscompute
  extract_lets k now kept lasting noted
  have hnoted : standing noted = standing s := standing_modCore (f := fun k => { k with events := tset k.events cls (kept.2, some now) })
    (fun _ => rfl) s core
  dsimp -zeta only
  split
  · rfl
  · extract_lets logged
    have hlogged : standing logged = standing s := hnoted
    split
    · exact (standing_fence ..).trans hlogged
    · exact hlogged

/-- With no region open, a mismatch ends its launch. -/
theorem takeFault_mismatch {s : State} {u : Nat} {c : Ctx} (hc : unitOf s u = some c) (hr : c.region = none)
    (hl : (launchOf s c.launch).status = none) (epc : Word) :
    PendingFewer s (takeFault s u mismatchTrap epc)
      ∧ (launchOf (takeFault s u mismatchTrap epc) c.launch).status = some 1
      ∧ (launchOf (takeFault s u mismatchTrap epc) c.launch).cause = cMISMATCH := by
  unfold takeFault
  rw [hc]
  have hcause := settle_cause s mismatchTrap
  have hcores := settle_cores s mismatchTrap
  have hlaunches := settle_launches s mismatchTrap
  generalize settle s mismatchTrap = r at *
  obtain ⟨t, s'⟩ := r
  replace hcause : t.cause = cMISMATCH := hcause
  have hmonitor : (launchOf (modUnit s' u fun c => { c with pc := epc }) c.launch).status = none := by
    rwa [launchOf_congr ((modUnit_launches ..).trans hlaunches)]
  have hends := toMonitor_ends _ t hmonitor
  rw [hcause] at hends
  simp only [hcause, hr, cTAGMISS, cMISS, cEARLY, cUNCORR, cMISMATCH, cPAGEHOST]
  refine ⟨?_, hends⟩
  exact ((PendingFewer.of_cores hcores).trans (pendingFewer_modUnit _ _ _)).trans (pendingFewer_toMonitor _ _ _)

theorem withdraw_launches (s : State) (c : Ctx) : (withdraw s c).launches = s.launches := by
  unfold withdraw
  split <;> rfl

theorem unitOf_withdraw (s : State) (c : Ctx) (u : Nat) : unitOf (withdraw s c) u = unitOf s u := by
  unfold withdraw
  split <;> rfl

theorem unitOf_cancelFrom {s : State} {c : Ctx} {u : Nat} (hc : unitOf s u = some c) (hu : c.uid = u) (id : Nat) :
    unitOf (cancelFrom s c id) u = some (cancelled c id) := by
  subst hu
  exact unitOf_modUnit_self hc rfl

/-- A mismatch outside a region is the launch's end, and nothing joins what waits for the banister. -/
theorem engineFault_mismatch {s : State} {c : Ctx} {k : Cmd} (hc : unitOf s k.uid = some c) (hu : c.uid = k.uid)
    (hr : c.region = none) (hl : (launchOf s c.launch).status = none) :
    PendingFewer s (engineFault s k false mismatchTrap)
      ∧ (launchOf (engineFault s k false mismatchTrap) c.launch).status = some 1
      ∧ (launchOf (engineFault s k false mismatchTrap) c.launch).cause = cMISMATCH := by
  unfold engineFault
  rw [hc]
  dsimp -zeta only
  extract_lets dropped stopped kept placed faulted
  have hstopped : unitOf stopped k.uid = some (cancelled c (k.id + 1)) :=
    unitOf_cancelFrom ((unitOf_withdraw dropped c k.uid).trans hc) hu _
  have hplaced : ∃ c', unitOf placed k.uid = some c' ∧ c'.region = none ∧ c'.launch = c.launch := by
    refine ⟨_, unitOf_modUnit_self hstopped ?_, ?_, ?_⟩
    · split <;> exact hu
    · split <;> exact hr
    · split <;> rfl
  have hlaunches : placed.launches = s.launches :=
    (modUnit_launches ..).trans ((modUnit_launches ..).trans (withdraw_launches dropped c))
  have hfewer : PendingFewer s placed :=
    (((pendingFewer_dropCmds _ _ _).trans (pendingFewer_withdraw _ _)).trans (pendingFewer_cancelFrom _ _ _)).trans
      (pendingFewer_modUnit _ _ _)
  obtain ⟨c', hc', hr', hlaunch⟩ := hplaced
  have hl' : (launchOf placed c'.launch).status = none := by rwa [launchOf_congr hlaunches, hlaunch]
  obtain ⟨hdone, hstatus, hcause⟩ := takeFault_mismatch hc' hr' hl' k.pc
  rw [hlaunch] at hstatus hcause
  refine ⟨(hfewer.trans hdone).trans (pendingFewer_modUnit _ _ _), ?_⟩
  rw [launchOf_congr (modUnit_launches ..)]
  exact ⟨hstatus, hcause⟩

/-! ## The banister and the queues (R183, R284) -/

/-- Placing a command's vectors settles their names only. -/
theorem placeVec_names {c : Ctx} {k k' : Cmd} (h : placeVec c k = .ok k') : ∃ ns, k' = { k with names := ns } := by
  unfold placeVec at h
  split at h
  · cases h
    exact ⟨_, rfl⟩
  · obtain ⟨d, -, h⟩ := ok_of_bind h
    obtain ⟨a, -, h⟩ := ok_of_bind h
    obtain ⟨b, -, h⟩ := ok_of_bind h
    obtain ⟨x, -, h⟩ := ok_of_bind h
    exact ⟨_, (Except.ok.inj h).symm⟩

theorem reachesLate_iff (k : Cmd) : reachesLate k = true ↔ LateToQueue k := by
  simp only [reachesLate, LateToQueue, Bool.and_eq_true, decide_eq_true_eq, and_assoc]

theorem pending_setQueue (x : CoreSt) (q : Nat) (l : List Cmd) : (setQueue x q l).pending = x.pending := by
  rcases q with _ | _ | _ | _ | q <;> rfl

section
variable (s : State) (core : Nat) (k : Cmd)

theorem enqueue_frame : SameStorage s (enqueue s core k) ∧ (enqueue s core k).cx = s.cx ∧ (enqueue s core k).units = s.units
    ∧ (enqueue s core k).agenda = s.agenda ∧ (coreOf (enqueue s core k) core).pending = (coreOf s core).pending := by
  unfold enqueue
  split
  · exact ⟨⟨rfl, rfl, rfl, rfl, rfl, rfl, rfl⟩, rfl, rfl, rfl, rfl⟩
  · exact ⟨⟨rfl, rfl, rfl, rfl, rfl, rfl, rfl⟩, rfl, rfl, rfl, rfl⟩
  · exact ⟨⟨rfl, rfl, rfl, rfl, rfl, rfl, rfl⟩, rfl, rfl, rfl, pending_modCore (fun x => pending_setQueue x _ _) _ _ _⟩

variable {s core k} {q : Nat}

/-- A core's queue takes the command at its end. -/
theorem queueOf_enqueue (hq : engineOf k.ins = q) (h4 : q ≠ 4) (h6 : q ≠ 6) :
    queueOf (coreOf (enqueue s core k) core) q = queueOf (coreOf s core) q ++ [k] := by
  unfold enqueue
  rw [hq]
  split
  · exact absurd rfl h4
  · exact absurd rfl h6
  · rw [coreOf_modCore_self, queueOf_setQueue]

theorem mem_buffer_enqueue (hq : engineOf k.ins = 4) : k ∈ (engOf (enqueue s core k) (copyEngineOf core)).buffer := by
  unfold enqueue
  simp only [hq, engOf_modEng_self]
  exact mem_buffered _ _

theorem sync_enqueue (hq : engineOf k.ins = 6) :
    (dieOf (enqueue s core k) (dieOfCore core)).sync = (dieOf s (dieOfCore core)).sync ++ [k] := by
  unfold enqueue
  simp only [hq, dieOf_modDie_self]

end

/-- The command no longer waits for the banister. -/
def leftBanister (core id : Nat) (s : State) : State :=
  modCore s core (fun x => { x with pending := x.pending.filter (fun m => m.id != id) })

theorem pending_leftBanister (core id : Nat) (s : State) :
    (coreOf (leftBanister core id s) core).pending = (coreOf s core).pending.filter (fun m => m.id != id) := by
  rw [leftBanister, coreOf_modCore_self]

theorem queueOf_leftBanister (core id : Nat) (s : State) (q : Nat) :
    queueOf (coreOf (leftBanister core id s) core) q = queueOf (coreOf s core) q := by
  rw [leftBanister, coreOf_modCore_self]
  rcases q with _ | _ | _ | _ | q <;> rfl

/-- What still waits on each core is read off what waited before. -/
theorem standing_leftBanister {s t : State} (h : standing s = standing t) (core id : Nat) :
    standing (leftBanister core id s) = standing (leftBanister core id t) := by
  simp only [standing, Prod.mk.injEq, funext_iff] at h ⊢
  obtain ⟨hcx, hunits, hlaunches, hpending⟩ := h
  refine ⟨hcx, hunits, hlaunches, fun n => ?_⟩
  by_cases hn : core = n
  · subst hn
    rw [pending_leftBanister, pending_leftBanister, hpending]
  · simp only [leftBanister, coreOf_modCore_ne _ _ hn, hpending]

theorem comparison_agrees {s : State} {core : Nat} (h : (coreOf s core).diverge = []) (cls : Nat) :
    comparison s core cls = (none, s) := by
  simp only [comparison, h]

section
variable {core id : Nat} {s : State} {k : Cmd} (hk : (coreOf s core).pending.find? (fun m => m.id == id) = some k)
include hk

theorem compare_waits (hb : heldBack ((unitOf s k.uid).getD default) k = true) (ht : now s (dieOfCore core) < k.deliver + 6) :
    exec (.banisterCompare core id) s =
      .next (sched s (dieOfCore core) (k.deliver + 6) 15 k.uid 0 (.ins (.banisterCompare core id))) := by
  change execBanisterCompare core id s = _
  unfold execBanisterCompare
  simp only [hk, hb, ht, Bool.true_and, decide_true, if_true]

theorem compare_holds {k' : Cmd} (hb : heldBack ((unitOf s k.uid).getD default) k = true)
    (ht : k.deliver + 6 ≤ now s (dieOfCore core)) (hd : (coreOf s core).diverge = [])
    (hv : placeVec ((unitOf s k.uid).getD default) k = .ok k') :
    exec (.banisterCompare core id) s = .next (modUnit (leftBanister core id s) k.uid (fun c => c.hold k')) := by
  obtain ⟨ns, rfl⟩ := placeVec_names hv
  change execBanisterCompare core id s = _
  unfold execBanisterCompare
  simp only [hk, hb, Nat.not_lt.mpr ht, comparison_agrees hd, hv, decide_false, Bool.not_true, Bool.and_false,
    Bool.false_eq_true, if_false, if_true]
  rfl

variable (hb : heldBack ((unitOf s k.uid).getD default) k = false)
include hb

theorem compare_misses (hl : LateToQueue k) : exec (.banisterCompare core id) s =
    .next (engineFault s { k with prog := 2 } (keeps k.ins) ⟨0x09, word k.due, 1, false⟩) := by
  change execBanisterCompare core id s = _
  unfold execBanisterCompare
  simp only [hk, hb, (reachesLate_iff k).mpr hl, Bool.false_and, Bool.not_false, Bool.true_and, Bool.false_eq_true, if_false, if_true]
  rfl

variable (hl : ¬ LateToQueue k)
include hl

theorem compare_refuses {e : Trap} (hd : (coreOf s core).diverge = [])
    (hv : placeVec ((unitOf s k.uid).getD default) k = .error e) :
    exec (.banisterCompare core id) s = .next (engineFault s k false e) := by
  change execBanisterCompare core id s = _
  unfold execBanisterCompare
  simp only [hk, hb, mt (reachesLate_iff k).mp hl, comparison_agrees hd, hv, Bool.false_and, Bool.false_eq_true, if_false]

theorem compare_enqueues {k' : Cmd} (hi : ∀ t f, k.ins ≠ .cpyc t f) (hd : (coreOf s core).diverge = [])
    (hv : placeVec ((unitOf s k.uid).getD default) k = .ok k') :
    exec (.banisterCompare core id) s = .next (enqueue (leftBanister core id s) core k') := by
  change execBanisterCompare core id s = _
  unfold execBanisterCompare
  simp only [hk, hb, mt (reachesLate_iff k).mp hl, comparison_agrees hd, hv, Bool.false_and, Bool.false_eq_true, if_false]
  split
  next t f h =>
    obtain ⟨ns, rfl⟩ := placeVec_names hv
    exact absurd h (hi t f)
  next => rfl

/-- With the next point diverging, the command leaves the banister and the mismatch is logged before the fault. -/
theorem compare_mismatches (hd : (coreOf s core).diverge = [2]) (hr : ((unitOf s k.uid).getD default).region = none) :
    ∃ s', exec (.banisterCompare core id) s = .next (engineFault s' k false mismatchTrap)
      ∧ standing s' = standing (leftBanister core id s) := by
  let c := (unitOf s k.uid).getD default
  let advanced := modCore s core (fun x => { x with diverge := x.diverge.drop 1 })
  refine ⟨miscompute (leftBanister core id advanced) c.core ((declared c k.ins).headD 0) 2 k.pc.toNat (some c), ?_, ?_⟩
  · change execBanisterCompare core id s = _
    unfold execBanisterCompare
    simp only [hk, hb, mt (reachesLate_iff k).mp hl, comparison, hd, Bool.false_and, Bool.false_eq_true, if_false, mismatch, hr]
    rfl
  · have hadvanced : standing advanced = standing s :=
      standing_modCore (f := fun x => { x with diverge := x.diverge.drop 1 }) (fun _ => rfl) s core
    exact (standing_miscompute ..).trans (standing_leftBanister hadvanced core id)

end

/-- A mismatch from here on ends the launch, and its command has left the banister. -/
theorem compare_ends {core id : Nat} {s : State} {k : Cmd} {c : Ctx} {s' : State} (hs : standing s' = standing (leftBanister core id s))
    (hc : unitOf s k.uid = some c) (hu : c.uid = k.uid) (hr : c.region = none) (hl : (launchOf s c.launch).status = none) :
    (∀ m ∈ (coreOf (engineFault s' k false mismatchTrap) core).pending, m.id ≠ id)
      ∧ (launchOf (engineFault s' k false mismatchTrap) c.launch).status = some 1
      ∧ (launchOf (engineFault s' k false mismatchTrap) c.launch).cause = cMISMATCH := by
  simp only [standing, Prod.mk.injEq, funext_iff] at hs
  obtain ⟨hcx, hunits, hlaunches, hpending⟩ := hs
  have hc' : unitOf s' k.uid = some c := (unitOf_congr hcx hunits _).trans hc
  have hl' : (launchOf s' c.launch).status = none := by
    rw [launchOf_congr hlaunches]
    exact hl
  obtain ⟨hfewer, hends⟩ := engineFault_mismatch hc' hu hr hl'
  refine ⟨fun m hm => ?_, hends⟩
  have hleft := hfewer core m hm
  rw [hpending, pending_leftBanister] at hleft
  simpa using (List.mem_filter.mp hleft).2

theorem compare_queues {core id : Nat} {s : State} {k : Cmd} {q : Nat} (hq : engineOf k.ins = q) (h4 : q ≠ 4) (h6 : q ≠ 6) :
    queueOf (coreOf (enqueue (leftBanister core id s) core k) core) q = queueOf (coreOf s core) q ++ [k] :=
  (queueOf_enqueue hq h4 h6).trans (by rw [queueOf_leftBanister])

/-- Settles O38: case by case of the comparison; a mismatch outside a region goes by way of the monitor to the launch's end. -/
theorem comparedCommandsReachTheirQueue : Obligations.ComparedCommandsReachTheirQueue := by
  unfold Obligations.ComparedCommandsReachTheirQueue
  intro core id s k hk hcore
  dsimp only
  refine ⟨fun hb => ⟨fun ht => compare_waits hk hb ht, fun k' ht hd hv => compare_holds hk hb ht hd hv⟩, fun hb =>
    ⟨fun hl => compare_misses hk hb hl, fun e hl hd hv => compare_refuses hk hb hl hd hv, ?_, ?_⟩⟩
  · intro k' hi hl hd hv
    obtain ⟨hstorage, hcx, hunits, hagenda, hpending⟩ := enqueue_frame (leftBanister core id s) core k'
    have hins : engineOf k'.ins = engineOf k.ins := by
      obtain ⟨ns, rfl⟩ := placeVec_names hv
      rfl
    refine ⟨_, compare_enqueues hk hb hl hi hd hv, hstorage, hcx, hunits, hagenda, hpending.trans (pending_leftBanister ..),
      fun hq => ?_, fun hq => ?_, fun hq => ?_, fun hq => ?_, fun hq => ?_, fun hq => ?_, fun hq => ?_⟩
    · exact compare_queues (q := 0) (hins.trans hq) (by decide) (by decide)
    · exact compare_queues (q := 1) (hins.trans hq) (by decide) (by decide)
    · exact compare_queues (q := 2) (hins.trans hq) (by decide) (by decide)
    · exact compare_queues (q := 3) (hins.trans hq) (by decide) (by decide)
    · exact compare_queues (q := 5) (hins.trans hq) (by decide) (by decide)
    · exact mem_buffer_enqueue (hins.trans hq)
    · exact sync_enqueue (hins.trans hq)
  · intro c hc hu hr hl hd hs
    obtain ⟨s', hexec, hstanding⟩ := compare_mismatches hk hb hl hd (by rwa [hc])
    exact ⟨_, hexec, compare_ends hstanding hc hu hr hs⟩

end Sys2Proof.Proofs
end
